-- ==== Sys2Proof/Word.lean ====
section
/-! DEFINITION. The word types of the SZ4 and their plainest arithmetic. -/

namespace Sys2Proof

/-- A scalar register, an address or a control word (spec/01 R11). -/
abbrev W64 := BitVec 64

/-- One byte. -/
abbrev Byte := BitVec 8

/-- A 64-byte line, or the contents of a v register: byte k is bits 8k+7:8k (spec/08 R192). -/
abbrev Line := BitVec 512

end Sys2Proof
end

