-- ==== Sys2Proof/Config.lean ====
section
/-! DEFINITION. What is fixed for the machine, and the values the manual leaves open. -/

namespace Sys2Proof.Config

/-- The strike window W of spec/03 R68, in clk. -/
def W : Nat := 160

/-- Lines of the undo log, entries of the outbox, lines of the read cache (spec/03 R65, spec/06 R154). -/
def undoCap : Nat := 512
def outboxCap : Nat := 256
def readCap : Nat := 256

/-- Bytes of a core's engine undo ring (spec/09 R224). -/
def ringCap : Nat := 40960

/-- Cores, clusters, dies and Rencia ports of a package (spec/00 R2, spec/24 R435). -/
def nCores : Nat := 8192
def nClusters : Nat := 128
def nDies : Nat := 4
def nPorts : Nat := 16

/-- clk that a WAITM or BARW spins before it parks, and the park slots of a core (spec/17 R358). -/
def parkAfter : Nat := 256
def parkSlots : Nat := 4

/-- Undefined() of spec/01 R12: the n-th value that a vacant register of a core, by number, gives when it is read. Free value, log 3. -/
opaque undefined : Nat → Nat → BitVec 512

/-- The n-th choice that the manual leaves to the machine: a time within its bound, a slot number. Free value, log 4. -/
opaque choice : Nat → Nat

/-- The rounded value of a special function whose enclosure at the working precision does not settle the rounding:
fmt code, function code, operand bits, rounding code (spec/08 R204). Free value, log 14. -/
opaque hardCase : Nat → Nat → Nat → Nat → Nat

/-- The choice of a slot for a message of a mailbox in local-time mode, from the words of all its messages and the number of those still
to be placed (spec/07 R174). Free value, log 9. -/
opaque mailSlot : List (BitVec 64) → Nat → Nat

/-- Whether the Press self-test of a core passes at its n-th run; the stored product is not in the manual (spec/09 R237). Free value, log 22. -/
opaque selfTestPasses : Nat → Bool

/-- Whether a firmware image's two signatures verify (spec/21 R425). Free values, log 40. -/
opaque rsaVerifies : Nat → Bool
opaque slhVerifies : Nat → Bool

/-- The contents of an SPDM answer to a request code and a request after a transcript, whose format the manual takes from SPDM 1.3; the hash
of a transcript; the signatures of the device's two key pairs; and measurement blocks 1 to 3 of what they measure (spec/21 R425). Free values,
log 41. -/
opaque spdmAnswer : Nat → Nat → List (Nat × Nat) → Nat
opaque transcriptHash : List (Nat × Nat) → Nat
opaque rsaSign : Nat → Nat
opaque slhSign : Nat → Nat
opaque measurement : Nat → Nat → Nat

/-- Byte i of a save area after the n-th SPILLSH; the manual names the parts of an image and not their layout (spec/20 R388, R390). Free value, log 23. -/
opaque savedByte : Nat → Nat → BitVec 8

/-- Whether, as the n-th ninth of gt passes, another package has a context configured with a cluster in its CMASK: context, package,
cluster, n. The descriptors of other packages are not in this one (spec/24 R432). Free value, log 64. -/
opaque farCluster : Nat → Nat → Nat → Nat → Bool

/-- What another package's memory holds, which is not in this package's state: at a running time, at an address, given what engines here wrote
there last. Whoever reads it then finds the same (spec/24 R433). Free value, log 64. -/
opaque farByte : Nat → Nat → BitVec 8 → BitVec 8

/-- Byte i of the payload of the n-th flit that leaves; the manual does not lay packets out in flits (spec/24 R435). Free value, log 65. -/
opaque payloadByte : Nat → Nat → BitVec 8

/-- CRED of the n-th flit that leaves: no rule says which credits a flit returns (spec/24 R435). Free value, log 65. -/
opaque creditByte : Nat → BitVec 8

/-- The package that is TMASTER of the machine (spec/24 R441). Free value, log 53. -/
opaque masterPkg : Nat

/-- Word i of the power and thermal block, from the trip, the dies' power states and the global time; the manual does not lay it out
(spec/21 R406, R423). Free value, log 57. -/
opaque powerWord : Nat → Bool → List Nat → Nat → BitVec 64

/-- Architecture version and stepping of the identity block (spec/21 R424). Free values, log 57. -/
opaque archVersion : Nat
opaque stepping : Nat

end Sys2Proof.Config
end

