-- ==== Sys2Proof/Fields.lean ====
section
/-! DEFINITION. The field types of the instructions and of the steps (spec/04 R88 to R98). -/

namespace Sys2Proof

/-- Rounding mode (spec/04 R93). -/
inductive Rnd where
  | rne | rtz | rup | rdn
deriving DecidableEq, Repr

/-- Scope of a strong access (spec/04 R95). -/
inductive Scope where
  | core | cluster | die | package | domain
deriving DecidableEq, Repr

/-- Branch condition (spec/04 R97). -/
inductive Cond where
  | eq | ne | lt | ge | ltn | gen
deriving DecidableEq, Repr

/-- Comparison predicate (spec/05 R132). -/
inductive Pred where
  | eq | ne | lt | le | un | ord
deriving DecidableEq, Repr

/-- Sign operation (spec/05 R135, spec/08 R202). -/
inductive SgnOp where
  | cpy | neg | xor | abs
deriving DecidableEq, Repr

/-- Operation of ALOG (spec/07 R186). -/
inductive LogOp where
  | and | or | xor | lse
deriving DecidableEq, Repr

/-- Sub-op of XCH (spec/07 R176). -/
inductive XchOp where
  | lookup | delete | deckey
deriving DecidableEq, Repr

/-- Operation of VRED and VSCAN; the last three are member-local (spec/08 R205). -/
inductive RedOp where
  | add | min | max | addl | minl | maxl
deriving DecidableEq, Repr

/-- Operation of MLOG (spec/08 R210). -/
inductive MlogOp where
  | and | or | xor | andn | not | ones
deriving DecidableEq, Repr

/-- Operation of MPOP (spec/08 R210). -/
inductive MpopOp where
  | pop | get | set | first
deriving DecidableEq, Repr

/-- Control word (spec/03 R57). -/
inductive Cw where
  | tid | wid | msg | flg | amx | sts | bud | mix | mode
deriving DecidableEq, Repr

/-- Element type (spec/04 R94). -/
inductive Ty where
  | i64 | i32 | i16 | i8 | n64 | n32 | n16 | n8 | i4 | f64 | f32 | bf16 | f16 | e4m3 | e5m2 | e3m2 | e2m3 | e2m1 | ds8 | e8m0
deriving DecidableEq, Repr

/-- Condition of BST: a status code and whether the test is negated (spec/04 R98). -/
structure BstCond where
  code : BitVec 3
  neg  : Bool
deriving DecidableEq, Repr

/-- A source operand byte: last use, trap on EMPTY, register number (spec/04 R90). -/
structure SrcN (n : Nat) where
  last : Bool
  trap : Bool
  reg  : BitVec n
deriving DecidableEq, Repr

/-- A scalar, a vector and a mask source. -/
abbrev Src := SrcN 6
abbrev VSrc := SrcN 5
abbrev MSrc := SrcN 3

/-- The mask control byte of the VX layout (spec/08 R194). -/
structure VMask where
  men  : Bool
  mz   : Bool
  minv : Bool
  mreg : BitVec 3
deriving DecidableEq, Repr

/-- Every lane active, as in the ABCM layout (spec/08 R194). -/
def VMask.all : VMask := ⟨false, false, false, 0⟩

/-- What the scrubber reads (spec/17 R354): a local-memory line, an accumulator row, a DRAM sector, a register file, an instruction-store
line, a line of a context's image in the shadow store, a staged entry, an entry of an outbox (spec/17 R355). -/
inductive ScrubTarget where
  | line (core n : Nat)
  | row (core r : Nat)
  | sector (pa : Nat)
  | regs (core : Nat)
  | code (core n : Nat)
  | shadow (ctx core n : Nat)
  | staged (j : Nat)
  | outbox (core i : Nat)
deriving DecidableEq, Repr

/-- What the scrubber finds there (spec/17 R354, R355). -/
inductive ScrubFinding where
  | clean | correctable | uncorrectable | misdirected
deriving DecidableEq, Repr

/-- A Rencia flit (spec/24 R435). -/
structure Flit where
  seq     : BitVec 12
  kind    : BitVec 4
  cred    : BitVec 8
  vcl     : BitVec 2
  resv    : BitVec 6
  payload : List Byte
  crc     : BitVec 32
deriving DecidableEq, Repr

/-- The flit of a Pour that lands at a receiver: the receiver and the byte of the tile that it carries first (spec/14 R318, log 34). -/
structure TileFlit where
  recv : Nat
  pos  : Nat
deriving DecidableEq, Repr

/-- What the debugger reads (spec/20 R395). -/
inductive DebugTarget where
  | s (n : Nat) | v (n : Nat) | m (n : Nat)
  | local (off n : Nat)
deriving DecidableEq, Repr

end Sys2Proof
end

