-- ==== Sys2Proof/Packet.lean ====
section
/-! DEFINITION. Packets between agents and what they carry: messages, outbox entries, requests, replies (spec/01 R15, spec/03 R47,
R64, R80, spec/07 R186, spec/17 R344). -/

namespace Sys2Proof.Machine

/-- Bytes by address, rising, no entry zero: an unlisted byte reads zero (log 6). -/
abbrev Mem := List Host.Cell

/-- A message, a task record or a 64-byte block of eight words (spec/03 R47). -/
abbrev Msg := Vector W64 8

/-- A register name's state: vacant, EMPTY, or FULL with a value (spec/03 R54). -/
inductive Cell (n : Nat) where
  | vacant
  | empty
  | full (x : BitVec n)
deriving DecidableEq, Repr

/-- The register files (spec/01 R8): s0 is never read from here. -/
structure Regs where
  s : Vector (Cell 64) 64
  v : Vector (Cell 512) 32
  m : Vector (Cell 64) 8
deriving DecidableEq, Repr

/-- The control words (spec/03 R57). -/
structure Ctl where
  tid : W64
  wid : W64
  msg : W64
  flg : W64
  amx : W64
  sts : W64
  bud : W64
  mix : W64
  mode : W64
deriving DecidableEq, Repr

/-- The home of an address (spec/01 R15): a core's local memory, device DRAM, host memory; a core's memory and device DRAM of
another package (spec/24 R433). -/
inductive Home where
  | local (core off : Nat)
  | dev (pa : Nat)
  | host (pa : Nat)
  | farCore (pkg core off : Nat)
  | farDev (pa : Nat)
deriving DecidableEq, Repr

/-- A migration record (spec/03 R80). -/
structure MigrRec where
  regs : Regs
  ctl  : Ctl
  pc   : W64
  hdr  : Msg
deriving DecidableEq, Repr

/-- An outbox entry (spec/03 R64): a remote line with a byte mask, a message, a MIGR record, a launch record, a drip. -/
inductive OutEntry where
  | store (line : Home) (data : Line) (mask : W64) (tag : BitVec 4) (a : W64)   -- a: the line's address as stored to
  | msg (m : Msg) (pkg core : Nat) (look : Option (BitVec 48))
  | own (m : Msg)            -- a message of YIELD to its own mailbox (spec/03 R79)
  | migr (r : MigrRec) (pkg core : Nat)
  | launch (m : Msg) (die tseq : Nat)
  | drip (decl : Nat) (v : W64)   -- decl: the declaration of the output slot
deriving DecidableEq, Repr

/-- A stopping report or a notice (spec/11 R273 to R276): cause code, point, words 2, 3, 6 and 7. -/
structure Report where
  cause : Nat
  point : Nat
  head  : W64
  w3    : W64
  w6    : W64
  w7    : W64
  cyc   : Nat                  -- CYC and global time when it was taken
  gt    : Nat
deriving DecidableEq, Repr

/-- What a strong access does at the word, window or barrier at its home (spec/07 R186 to R189, R176, spec/15 R326).
`odd`: the number of the register b is odd; `b1`: what b+1 holds, zero where it is vacant (spec/07 R167). -/
inductive WordOp where
  | lds (ty : Ty)
  | sts (ty : Ty) (b b1 : W64) (odd : Bool)
  | aadd (ty : Ty) (b : W64)
  | amnx (isMax : Bool) (ty : Ty) (b : W64)
  | alog (op : LogOp) (ty : Ty) (b : W64)
  | aswp (ty : Ty) (b : W64)
  | acas (ty : Ty) (b c : W64)
  | waitm (cc : Cond) (ty : Ty) (b : W64)
  | xch (op : XchOp) (b b1 : W64) (odd : Bool)
  | bari (b : W64)
  | barx (e : W64)
  | barw (g0 : W64)
deriving DecidableEq, Repr

/-- The requests that a home serves (spec/01 R15): weak line reads, the strong accesses, a push of SPAWN. -/
inductive Req where
  | read (line : Home) (tag : BitVec 4)
  | word (h : Home) (a : W64) (op : WordOp) (tag : BitVec 4) (mode : W64)
  | spawn (core : Nat) (m : Msg)
deriving DecidableEq, Repr

/-- What a home answers. -/
inductive Rep where
  | line (home : Home) (data : Line)
  | val (v : W64) (v1 : Option W64) (sts : Option (BitVec 3)) (flags : BitVec 5)
  | task (v : W64) (ok : Bool)        -- of a SPAWN (spec/17 R370)
  | trap (h : Home) (r : Report)
deriving DecidableEq, Repr

/-- A packet in a channel (spec/01 R15): from a core to a home, or back. `sub` and `res` are a subtotal and a result of a
collective between packages, for rank `rank` of a round, with words 2 and 3 of the sender's block (spec/24 R445); `fail` is the code of
R447. -/
inductive Body where
  | entry (seg idx : Nat) (e : OutEntry)
  | ack (seg idx : Nat) (ok : Bool) (reason : Report)
  | notice (seg : Nat)
  | noticeAck (seg tgt : Nat)
  | abort (seg : Nat)
  | abortAck (seg : Nat)
  | request (id d : Nat) (r : Req)
  | reply (id d : Nat) (r : Rep)
  | drip (ctx : BitVec 8) (look : BitVec 48) (v : W64)
  | sub (gid round rank : Nat) (w2 w3 : W64) (data : List Byte) (flags : BitVec 5) (fail : Option Nat)
  | subAck (gid round rank : Nat) (fail : Option Nat)
  | res (gid round rank : Nat) (w2 w3 : W64) (data : List Byte) (flags : BitVec 5) (fail : Option Nat)
  | resAck (gid round rank : Nat) (fail : Option Nat)
deriving DecidableEq, Repr

/-- A packet and the node numbers of its ends: a core, 8,192 plus a slice, 16,384 for host memory, 16,386 plus a die for its
sequencer; those of package p count on from 32,768 × (p + 1) where p is another package. -/
structure Packet where
  src   : Nat                  -- the core that sent the request, entry, notice, abort or drip
  dst   : Nat                  -- its target
  seq   : Nat                  -- sequence number for (src, dst), modulo 2^16 (spec/17 R344)
  tries : Nat
  ctx   : BitVec 8             -- the context of the core that sent it
  since : Nat                  -- global time at which its last try left (spec/17 R344)
  away  : Bool                 -- its flits have left the package, and its answer has not come (spec/24 R437)
  body  : Body
deriving DecidableEq, Repr

/-- A flit as it arrives at a port, and, with the last flit of a packet, the packet that its flits carry (spec/24 R435, log 65). -/
structure FlitIn where
  flit   : Flit
  packet : Option Packet
deriving DecidableEq, Repr

end Sys2Proof.Machine
end

