-- ==== Sys2Proof/Syntax.lean ====
section
/-! DEFINITION. The steps of the SZ4: one constructor for each row of the opcode table, the instructions of a core
(their operands as spec/04 R88 to R94 encode them) and then the steps of the other agents. -/

namespace Sys2Proof

/-- One step of the machine: spec/opcode_table.json, row by row. -/
inductive Instr where
  /-- No operation. (R114) -/
  | nop
  /-- Jumps to a target field head address. (R110) -/
  | jmp (target : BitVec 14)
  /-- Jumps to the byte address held in register a. (R110) -/
  | jmpr (a : Src)
  /-- Writes the successor address to s62 and jumps to the target field. (R110) -/
  | call (target : BitVec 14)
  /-- Reads register a, writes the successor address to s62 and jumps. (R110) -/
  | callr (a : Src)
  /-- Returns to the byte address in register a and pops the return predictor. (R110) -/
  | ret (a : Src)
  /-- Compares two registers by the DST condition and branches when it holds. (R111) -/
  | br (cc : Cond) (a : Src) (b : Src) (target : BitVec 14)
  /-- Compares a register with an 8-bit literal and branches when the condition holds. (R111) -/
  | bri (cc : Cond) (a : Src) (k : BitVec 8) (target : BitVec 14)
  /-- Branches on the structure status code in STS. (R112) -/
  | bst (cc : BstCond) (target : BitVec 14)
  /-- Decrements a count into d and branches while it is non-zero. (R113) -/
  | loop (d : BitVec 6) (a : Src) (target : BitVec 14)
  /-- Closes the segment, frees every register and ends the activation. (R78) -/
  | endAct
  /-- Takes a phase boundary and continues at the successor. (R115) -/
  | phase
  /-- Closes the segment, queues a self-message with s4-s8 and ends. (R79) -/
  | yield
  /-- Takes two boundaries and sends a migration record to the target core. (R80) -/
  | migr (a : Src)
  /-- Raises SWTRAP with the code in DST. (R117) -/
  | trap (code : BitVec 6)
  /-- Raises SWTRAP with the code in DST and register a in word 3. (R117) -/
  | trapReg (code : BitVec 6) (a : Src)
  /-- Integer add at type i64. (R119) -/
  | add (d : BitVec 6) (a : Src) (b : Src)
  /-- Integer add at the modifier type. (R119) -/
  | addAbcm (d : BitVec 6) (a : Src) (b : Src) (ty : Ty)
  /-- Integer subtract at type i64. (R119) -/
  | sub (d : BitVec 6) (a : Src) (b : Src)
  /-- Integer subtract at the modifier type. (R119) -/
  | subAbcm (d : BitVec 6) (a : Src) (b : Src) (ty : Ty)
  /-- Integer multiply, low half, at type i64. (R119) -/
  | mul (d : BitVec 6) (a : Src) (b : Src)
  /-- Integer multiply, low half, at the modifier type. (R119) -/
  | mulAbcm (d : BitVec 6) (a : Src) (b : Src) (ty : Ty)
  /-- High half of the integer product at type i64. (R119) -/
  | mulh (d : BitVec 6) (a : Src) (b : Src)
  /-- High half of the integer product at the modifier type. (R119) -/
  | mulhAbcm (d : BitVec 6) (a : Src) (b : Src) (ty : Ty)
  /-- Truncating integer divide at type i64, marking d EMPTY until delivered. (R120) -/
  | div (d : BitVec 6) (a : Src) (b : Src)
  /-- Truncating integer divide at the modifier type. (R120) -/
  | divAbcm (d : BitVec 6) (a : Src) (b : Src) (ty : Ty)
  /-- Integer remainder at type i64, marking d EMPTY until delivered. (R120) -/
  | rem (d : BitVec 6) (a : Src) (b : Src)
  /-- Integer remainder at the modifier type. (R120) -/
  | remAbcm (d : BitVec 6) (a : Src) (b : Src) (ty : Ty)
  /-- Bitwise and at type i64. (R119) -/
  | and (d : BitVec 6) (a : Src) (b : Src)
  /-- Bitwise and at the modifier type. (R119) -/
  | andAbcm (d : BitVec 6) (a : Src) (b : Src) (ty : Ty)
  /-- Bitwise or at type i64. (R119) -/
  | or (d : BitVec 6) (a : Src) (b : Src)
  /-- Bitwise or at the modifier type. (R119) -/
  | orAbcm (d : BitVec 6) (a : Src) (b : Src) (ty : Ty)
  /-- Bitwise xor at type i64. (R119) -/
  | xor (d : BitVec 6) (a : Src) (b : Src)
  /-- Bitwise xor at the modifier type. (R119) -/
  | xorAbcm (d : BitVec 6) (a : Src) (b : Src) (ty : Ty)
  /-- Shift left at type i64. (R119) -/
  | shl (d : BitVec 6) (a : Src) (b : Src)
  /-- Shift left at the modifier type. (R119) -/
  | shlAbcm (d : BitVec 6) (a : Src) (b : Src) (ty : Ty)
  /-- Shift right at type i64. (R119) -/
  | shr (d : BitVec 6) (a : Src) (b : Src)
  /-- Shift right, arithmetic or logical by the modifier type. (R119) -/
  | shrAbcm (d : BitVec 6) (a : Src) (b : Src) (ty : Ty)
  /-- Rotate left at type i64. (R119) -/
  | rot (d : BitVec 6) (a : Src) (b : Src)
  /-- Rotate left at the modifier type. (R119) -/
  | rotAbcm (d : BitVec 6) (a : Src) (b : Src) (ty : Ty)
  /-- Integer minimum at type i64. (R119) -/
  | min (d : BitVec 6) (a : Src) (b : Src)
  /-- Integer minimum at the modifier type. (R119) -/
  | minAbcm (d : BitVec 6) (a : Src) (b : Src) (ty : Ty)
  /-- Integer maximum at type i64. (R119) -/
  | max (d : BitVec 6) (a : Src) (b : Src)
  /-- Integer maximum at the modifier type. (R119) -/
  | maxAbcm (d : BitVec 6) (a : Src) (b : Src) (ty : Ty)
  /-- Writes 1 when a is less than b at type i64, else 0. (R119) -/
  | slt (d : BitVec 6) (a : Src) (b : Src)
  /-- Set-less-than at the modifier type. (R119) -/
  | sltAbcm (d : BitVec 6) (a : Src) (b : Src) (ty : Ty)
  /-- Selects b or c by whether a is non-zero. (R119) -/
  | sel (d : BitVec 6) (a : Src) (b : Src) (c : Src)
  /-- Adds a sign-extended 24-bit immediate. (R121) -/
  | addi (d : BitVec 6) (a : Src) (imm : BitVec 24)
  /-- Adds a sign-extended 32-bit immediate. (R121) -/
  | addiAbi32 (d : BitVec 6) (a : Src) (imm : BitVec 32)
  /-- Ands with a sign-extended 24-bit immediate. (R121) -/
  | andi (d : BitVec 6) (a : Src) (imm : BitVec 24)
  /-- Ands with a sign-extended 32-bit immediate. (R121) -/
  | andiAbi32 (d : BitVec 6) (a : Src) (imm : BitVec 32)
  /-- Ors with a zero-extended 24-bit immediate. (R121) -/
  | ori (d : BitVec 6) (a : Src) (imm : BitVec 24)
  /-- Ors with a zero-extended 32-bit immediate. (R121) -/
  | oriAbi32 (d : BitVec 6) (a : Src) (imm : BitVec 32)
  /-- Xors with a zero-extended 24-bit immediate. (R121) -/
  | xori (d : BitVec 6) (a : Src) (imm : BitVec 24)
  /-- Xors with a zero-extended 32-bit immediate. (R121) -/
  | xoriAbi32 (d : BitVec 6) (a : Src) (imm : BitVec 32)
  /-- Multiplies by a sign-extended 24-bit immediate. (R121) -/
  | muli (d : BitVec 6) (a : Src) (imm : BitVec 24)
  /-- Multiplies by a sign-extended 32-bit immediate. (R121) -/
  | muliAbi32 (d : BitVec 6) (a : Src) (imm : BitVec 32)
  /-- Shift left by a constant at the immediate's type. (R122) -/
  | shli (d : BitVec 6) (a : Src) (k : BitVec 6) (ty : Ty)
  /-- Shift right by a constant at the immediate's type. (R122) -/
  | shri (d : BitVec 6) (a : Src) (k : BitVec 6) (ty : Ty)
  /-- Loads a sign-extended 32-bit constant. (R123) -/
  | li (d : BitVec 6) (imm : BitVec 32)
  /-- Loads a sign-extended 48-bit constant. (R123) -/
  | liI48 (d : BitVec 6) (imm : BitVec 48)
  /-- Counts leading zero bits at type i64. (R124) -/
  | clz (d : BitVec 6) (a : Src)
  /-- Counts leading zero bits at the modifier type. (R124) -/
  | clzAbcm (d : BitVec 6) (a : Src) (ty : Ty)
  /-- Counts trailing zero bits at type i64. (R124) -/
  | ctz (d : BitVec 6) (a : Src)
  /-- Counts trailing zero bits at the modifier type. (R124) -/
  | ctzAbcm (d : BitVec 6) (a : Src) (ty : Ty)
  /-- Counts one bits at type i64. (R124) -/
  | popc (d : BitVec 6) (a : Src)
  /-- Counts one bits at the modifier type. (R124) -/
  | popcAbcm (d : BitVec 6) (a : Src) (ty : Ty)
  /-- Absolute value at type i64. (R124) -/
  | abs (d : BitVec 6) (a : Src)
  /-- Absolute value at a signed modifier type. (R124) -/
  | absAbcm (d : BitVec 6) (a : Src) (ty : Ty)
  /-- Extracts a bit field, sign- or zero-extended. (R125) -/
  | bfx (d : BitVec 6) (a : Src) (pos : BitVec 6) (lenM1 : BitVec 6) (uns : Bool)
  /-- Inserts a bit field of b into a. (R125) -/
  | bfi (d : BitVec 6) (a : Src) (b : Src) (pos : BitVec 6) (lenM1 : BitVec 6)
  /-- Extracts one level of a work identifier by the launch layout. (R126) -/
  | wfld (d : BitVec 6) (a : Src) (level : BitVec 3)
  /-- Floating add, rounded once. (R128) -/
  | fadd (d : BitVec 6) (a : Src) (b : Src) (rnd : Rnd) (ty : Ty)
  /-- Floating subtract, rounded once. (R128) -/
  | fsub (d : BitVec 6) (a : Src) (b : Src) (rnd : Rnd) (ty : Ty)
  /-- Floating multiply, rounded once. (R128) -/
  | fmul (d : BitVec 6) (a : Src) (b : Src) (rnd : Rnd) (ty : Ty)
  /-- Fused multiply-add with one rounding. (R129) -/
  | ffma (d : BitVec 6) (a : Src) (b : Src) (c : Src) (rnd : Rnd) (ty : Ty)
  /-- Floating divide, a long-latency producer. (R128) -/
  | fdiv (d : BitVec 6) (a : Src) (b : Src) (rnd : Rnd) (ty : Ty)
  /-- Floating square root, a long-latency producer. (R128) -/
  | fsqrt (d : BitVec 6) (a : Src) (rnd : Rnd) (ty : Ty)
  /-- Floating minimum with -0 below +0. (R130) -/
  | fmin (d : BitVec 6) (a : Src) (b : Src) (ty : Ty)
  /-- Floating maximum with -0 below +0. (R130) -/
  | fmax (d : BitVec 6) (a : Src) (b : Src) (ty : Ty)
  /-- Floating compare by predicate, writing 1 or 0. (R132) -/
  | fcmp (d : BitVec 6) (a : Src) (b : Src) (p : Pred) (ty : Ty)
  /-- Converts a value between any two formats. (R133) -/
  | fcvt (d : BitVec 6) (a : Src) (src : Ty) (rnd : Rnd) (sat : Bool) (ty : Ty)
  /-- Writes the 10-bit class mask of a. (R131) -/
  | fclass (d : BitVec 6) (a : Src) (ty : Ty)
  /-- Replaces the sign of a by the sign operation. (R135) -/
  | fsgn (d : BitVec 6) (a : Src) (b : Src) (op : SgnOp) (ty : Ty)
  /-- Rounds to an integral value in the same format. (R134) -/
  | frnd (d : BitVec 6) (a : Src) (x : Bool) (rnd : Rnd) (ty : Ty)
  /-- Weak load, own in place, structure window, or remote. (R137) -/
  | ld (d : BitVec 6) (a : Src) (ty : Ty) (off : BitVec 32)
  /-- Weak store, own in place with undo logging, structure window, or outbox entry. (R137) -/
  | st (ty : Ty) (a : Src) (b : Src) (off : BitVec 32)
  /-- Loads one aligned 64-byte line into a v register. (R200) -/
  | ldv (d : BitVec 5) (a : Src) (ty : Ty) (off : BitVec 24) (mk : VMask)
  /-- Stores the active lanes of a v register to one line. (R200) -/
  | stv (ty : Ty) (a : Src) (b : VSrc) (off : BitVec 24) (mk : VMask)
  /-- Strong load at a scope. (R187) -/
  | lds (d : BitVec 6) (a : Src) (scope : Scope) (ty : Ty)
  /-- Strong store at a scope. (R187) -/
  | sts (a : Src) (b : Src) (scope : Scope) (ty : Ty)
  /-- Atomic add returning the old value. (R188) -/
  | aadd (d : BitVec 6) (a : Src) (b : Src) (scope : Scope) (ty : Ty)
  /-- Atomic minimum or maximum. (R188) -/
  | amnx (d : BitVec 6) (a : Src) (b : Src) (isMax : Bool) (scope : Scope) (ty : Ty)
  /-- Atomic and, or, xor or log-sum-exp. (R188) -/
  | alog (d : BitVec 6) (a : Src) (b : Src) (op : LogOp) (scope : Scope) (ty : Ty)
  /-- Atomic swap. (R188) -/
  | aswp (d : BitVec 6) (a : Src) (b : Src) (scope : Scope) (ty : Ty)
  /-- Atomic compare-and-swap. (R188) -/
  | acas (d : BitVec 6) (a : Src) (b : Src) (c : Src) (scope : Scope) (ty : Ty)
  /-- Waits for a condition on a memory word, then performs the satisfying strong read. (R189) -/
  | waitm (d : BitVec 6) (a : Src) (b : Src) (cc : Cond) (scope : Scope) (ty : Ty)
  /-- Waits until loop-back entries of closed segments are published. (R190) -/
  | loopf
  /-- Gathers one element per active lane with every lane active. (R201) -/
  | gath (d : BitVec 5) (a : Src) (b : VSrc) (ty : Ty)
  /-- Gathers one element per active lane under a mask. (R201) -/
  | gathVx (d : BitVec 5) (a : Src) (b : VSrc) (ty : Ty) (mk : VMask)
  /-- Scatters one element per lane with every lane active. (R201) -/
  | scat (a : Src) (b : VSrc) (c : VSrc) (ty : Ty)
  /-- Scatters one element per active lane under a mask. (R201) -/
  | scatVx (a : Src) (b : VSrc) (c : VSrc) (ty : Ty) (mk : VMask)
  /-- Changes a bank's personality by rebuilding it as a bank-wide operation. (R179) -/
  | bcfg (d : BitVec 6) (a : Src) (b : Src)
  /-- Reads a bank's state word with its count. (R178) -/
  | bqry (d : BitVec 6) (a : Src)
  /-- Lookup, delete or deckey through a structure window. (R176) -/
  | xch (d : BitVec 6) (a : Src) (b : Src) (op : XchOp)
  /-- Changes a heap's key format and re-heapifies. (R178) -/
  | bheap (d : BitVec 6) (a : Src) (b : Src)
  /-- Forms, resizes or dissolves a span of banks. (R180) -/
  | bspan (d : BitVec 6) (a : Src)
  /-- Empties a bank or its whole span. (R178) -/
  | bclr (d : BitVec 6) (a : Src)
  /-- Lane-wise floating add, all lanes. (R202) -/
  | vadd (d : BitVec 5) (a : VSrc) (b : VSrc) (rnd : Rnd) (ty : Ty)
  /-- Lane-wise floating add under a mask. (R202) -/
  | vaddVx (d : BitVec 5) (a : VSrc) (b : VSrc) (rnd : Rnd) (ty : Ty) (mk : VMask)
  /-- Lane-wise floating subtract, all lanes. (R202) -/
  | vsub (d : BitVec 5) (a : VSrc) (b : VSrc) (rnd : Rnd) (ty : Ty)
  /-- Lane-wise floating subtract under a mask. (R202) -/
  | vsubVx (d : BitVec 5) (a : VSrc) (b : VSrc) (rnd : Rnd) (ty : Ty) (mk : VMask)
  /-- Lane-wise floating multiply, all lanes. (R202) -/
  | vmul (d : BitVec 5) (a : VSrc) (b : VSrc) (rnd : Rnd) (ty : Ty)
  /-- Lane-wise floating multiply under a mask. (R202) -/
  | vmulVx (d : BitVec 5) (a : VSrc) (b : VSrc) (rnd : Rnd) (ty : Ty) (mk : VMask)
  /-- Lane-wise fused multiply-add, all lanes. (R202) -/
  | vfma (d : BitVec 5) (a : VSrc) (b : VSrc) (c : VSrc) (rnd : Rnd) (ty : Ty)
  /-- Lane-wise fused multiply-add under a mask. (R202) -/
  | vfmaVx (d : BitVec 5) (a : VSrc) (b : VSrc) (c : VSrc) (rnd : Rnd) (ty : Ty) (mk : VMask)
  /-- Lane-wise floating divide, all lanes. (R202) -/
  | vdiv (d : BitVec 5) (a : VSrc) (b : VSrc) (rnd : Rnd) (ty : Ty)
  /-- Lane-wise floating divide under a mask. (R202) -/
  | vdivVx (d : BitVec 5) (a : VSrc) (b : VSrc) (rnd : Rnd) (ty : Ty) (mk : VMask)
  /-- Lane-wise square root, all lanes. (R202) -/
  | vsqrt (d : BitVec 5) (a : VSrc) (rnd : Rnd) (ty : Ty)
  /-- Lane-wise square root under a mask. (R202) -/
  | vsqrtVx (d : BitVec 5) (a : VSrc) (rnd : Rnd) (ty : Ty) (mk : VMask)
  /-- Lane-wise floating minimum, all lanes. (R202) -/
  | vmin (d : BitVec 5) (a : VSrc) (b : VSrc) (ty : Ty)
  /-- Lane-wise floating minimum under a mask. (R202) -/
  | vminVx (d : BitVec 5) (a : VSrc) (b : VSrc) (ty : Ty) (mk : VMask)
  /-- Lane-wise floating maximum, all lanes. (R202) -/
  | vmax (d : BitVec 5) (a : VSrc) (b : VSrc) (ty : Ty)
  /-- Lane-wise floating maximum under a mask. (R202) -/
  | vmaxVx (d : BitVec 5) (a : VSrc) (b : VSrc) (ty : Ty) (mk : VMask)
  /-- Lane-wise compare into a mask register, all lanes. (R203) -/
  | vcmp (d : BitVec 3) (a : VSrc) (b : VSrc) (p : Pred) (ty : Ty)
  /-- Lane-wise compare into a mask register under a mask. (R203) -/
  | vcmpVx (d : BitVec 3) (a : VSrc) (b : VSrc) (p : Pred) (ty : Ty) (mk : VMask)
  /-- Lane-wise sign operation, all lanes. (R202) -/
  | vsgn (d : BitVec 5) (a : VSrc) (b : VSrc) (op : SgnOp) (ty : Ty)
  /-- Lane-wise sign operation under a mask. (R202) -/
  | vsgnVx (d : BitVec 5) (a : VSrc) (b : VSrc) (op : SgnOp) (ty : Ty) (mk : VMask)
  /-- Fixed-tree reduction of the lanes into lane 0. (R205) -/
  | vred (d : BitVec 5) (a : VSrc) (op : RedOp) (rnd : Rnd) (ty : Ty)
  /-- Fixed-tree reduction of the active lanes. (R205) -/
  | vredVx (d : BitVec 5) (a : VSrc) (op : RedOp) (rnd : Rnd) (ty : Ty) (mk : VMask)
  /-- Inclusive prefix scan in lane order. (R206) -/
  | vscan (d : BitVec 5) (a : VSrc) (op : RedOp) (rnd : Rnd) (ty : Ty)
  /-- Inclusive prefix scan of the active lanes. (R206) -/
  | vscanVx (d : BitVec 5) (a : VSrc) (op : RedOp) (rnd : Rnd) (ty : Ty) (mk : VMask)
  /-- Lane-wise 2^x, rounded once. (R204) -/
  | vexp2 (d : BitVec 5) (a : VSrc) (rnd : Rnd) (ty : Ty)
  /-- Lane-wise 2^x under a mask. (R204) -/
  | vexp2Vx (d : BitVec 5) (a : VSrc) (rnd : Rnd) (ty : Ty) (mk : VMask)
  /-- Lane-wise log2, rounded once. (R204) -/
  | vlog2 (d : BitVec 5) (a : VSrc) (rnd : Rnd) (ty : Ty)
  /-- Lane-wise log2 under a mask. (R204) -/
  | vlog2Vx (d : BitVec 5) (a : VSrc) (rnd : Rnd) (ty : Ty) (mk : VMask)
  /-- Lane-wise reciprocal. (R204) -/
  | vrcp (d : BitVec 5) (a : VSrc) (rnd : Rnd) (ty : Ty)
  /-- Lane-wise reciprocal under a mask. (R204) -/
  | vrcpVx (d : BitVec 5) (a : VSrc) (rnd : Rnd) (ty : Ty) (mk : VMask)
  /-- Lane-wise reciprocal square root. (R204) -/
  | vrsq (d : BitVec 5) (a : VSrc) (rnd : Rnd) (ty : Ty)
  /-- Lane-wise reciprocal square root under a mask. (R204) -/
  | vrsqVx (d : BitVec 5) (a : VSrc) (rnd : Rnd) (ty : Ty) (mk : VMask)
  /-- Lane-wise integer add at i64. (R207) -/
  | viadd (d : BitVec 5) (a : VSrc) (b : VSrc)
  /-- Lane-wise integer add at the modifier type. (R207) -/
  | viaddAbcm (d : BitVec 5) (a : VSrc) (b : VSrc) (ty : Ty)
  /-- Lane-wise integer add under a mask. (R207) -/
  | viaddVx (d : BitVec 5) (a : VSrc) (b : VSrc) (ty : Ty) (mk : VMask)
  /-- Lane-wise integer subtract at i64. (R207) -/
  | visub (d : BitVec 5) (a : VSrc) (b : VSrc)
  /-- Lane-wise integer subtract at the modifier type. (R207) -/
  | visubAbcm (d : BitVec 5) (a : VSrc) (b : VSrc) (ty : Ty)
  /-- Lane-wise integer subtract under a mask. (R207) -/
  | visubVx (d : BitVec 5) (a : VSrc) (b : VSrc) (ty : Ty) (mk : VMask)
  /-- Lane-wise integer multiply at i64. (R207) -/
  | vimul (d : BitVec 5) (a : VSrc) (b : VSrc)
  /-- Lane-wise integer multiply at the modifier type. (R207) -/
  | vimulAbcm (d : BitVec 5) (a : VSrc) (b : VSrc) (ty : Ty)
  /-- Lane-wise integer multiply under a mask. (R207) -/
  | vimulVx (d : BitVec 5) (a : VSrc) (b : VSrc) (ty : Ty) (mk : VMask)
  /-- Lane-wise and at i64. (R207) -/
  | vand (d : BitVec 5) (a : VSrc) (b : VSrc)
  /-- Lane-wise and at the modifier type. (R207) -/
  | vandAbcm (d : BitVec 5) (a : VSrc) (b : VSrc) (ty : Ty)
  /-- Lane-wise and under a mask. (R207) -/
  | vandVx (d : BitVec 5) (a : VSrc) (b : VSrc) (ty : Ty) (mk : VMask)
  /-- Lane-wise or at i64. (R207) -/
  | vor (d : BitVec 5) (a : VSrc) (b : VSrc)
  /-- Lane-wise or at the modifier type. (R207) -/
  | vorAbcm (d : BitVec 5) (a : VSrc) (b : VSrc) (ty : Ty)
  /-- Lane-wise or under a mask. (R207) -/
  | vorVx (d : BitVec 5) (a : VSrc) (b : VSrc) (ty : Ty) (mk : VMask)
  /-- Lane-wise xor at i64. (R207) -/
  | vxor (d : BitVec 5) (a : VSrc) (b : VSrc)
  /-- Lane-wise xor at the modifier type. (R207) -/
  | vxorAbcm (d : BitVec 5) (a : VSrc) (b : VSrc) (ty : Ty)
  /-- Lane-wise xor under a mask. (R207) -/
  | vxorVx (d : BitVec 5) (a : VSrc) (b : VSrc) (ty : Ty) (mk : VMask)
  /-- Lane-wise shift left at i64. (R207) -/
  | vshl (d : BitVec 5) (a : VSrc) (b : VSrc)
  /-- Lane-wise shift left at the modifier type. (R207) -/
  | vshlAbcm (d : BitVec 5) (a : VSrc) (b : VSrc) (ty : Ty)
  /-- Lane-wise shift left under a mask. (R207) -/
  | vshlVx (d : BitVec 5) (a : VSrc) (b : VSrc) (ty : Ty) (mk : VMask)
  /-- Lane-wise shift right at i64. (R207) -/
  | vshr (d : BitVec 5) (a : VSrc) (b : VSrc)
  /-- Lane-wise shift right at the modifier type. (R207) -/
  | vshrAbcm (d : BitVec 5) (a : VSrc) (b : VSrc) (ty : Ty)
  /-- Lane-wise shift right under a mask. (R207) -/
  | vshrVx (d : BitVec 5) (a : VSrc) (b : VSrc) (ty : Ty) (mk : VMask)
  /-- Selects lanes of a or b by a mask register. (R208) -/
  | vsel (d : BitVec 5) (a : VSrc) (b : VSrc) (c : MSrc) (ty : Ty)
  /-- Lane select under a destination mask. (R208) -/
  | vselVx (d : BitVec 5) (a : VSrc) (b : VSrc) (c : MSrc) (ty : Ty) (mk : VMask)
  /-- Two-table lane permute by index vector. (R208) -/
  | vperm (d : BitVec 5) (a : VSrc) (b : VSrc) (c : VSrc) (ty : Ty)
  /-- Two-table lane permute under a mask. (R208) -/
  | vpermVx (d : BitVec 5) (a : VSrc) (b : VSrc) (c : VSrc) (ty : Ty) (mk : VMask)
  /-- Broadcasts an s register to every lane. (R208) -/
  | vbcast (d : BitVec 5) (a : Src) (ty : Ty)
  /-- Broadcasts an s register under a mask. (R208) -/
  | vbcastVx (d : BitVec 5) (a : Src) (ty : Ty) (mk : VMask)
  /-- Slides lanes across two vectors by k. (R208) -/
  | vslide (d : BitVec 5) (a : VSrc) (b : VSrc) (c : Src) (ty : Ty)
  /-- Slides lanes under a mask. (R208) -/
  | vslideVx (d : BitVec 5) (a : VSrc) (b : VSrc) (c : Src) (ty : Ty) (mk : VMask)
  /-- Compresses selected lanes toward lane 0. (R209) -/
  | vcmpr (d : BitVec 5) (a : VSrc) (b : MSrc) (ty : Ty)
  /-- Expands lanes into selected positions. (R209) -/
  | vexpd (d : BitVec 5) (a : VSrc) (b : MSrc) (ty : Ty)
  /-- Writes lane indices or mask prefix counts. (R209) -/
  | viota (d : BitVec 5) (a : MSrc) (pfx : Bool) (ty : Ty)
  /-- Gets or sets one lane of a v register. (R209) -/
  | vlane (d : BitVec 6) (a : VSrc) (b : Src) (k : BitVec 6) (set : Bool) (ty : Ty)
  /-- Converts lanes between lane types. (R211) -/
  | vcvt (d : BitVec 5) (a : VSrc) (src : Ty) (p : BitVec 4) (rnd : Rnd) (sat : Bool) (ty : Ty)
  /-- Converts lanes under a mask. (R211) -/
  | vcvtVx (d : BitVec 5) (a : VSrc) (src : Ty) (p : BitVec 4) (rnd : Rnd) (sat : Bool) (ty : Ty) (mk : VMask)
  /-- Decodes packed narrow elements into lanes. (R213) -/
  | vunpk (d : BitVec 5) (a : VSrc) (src : Ty) (p : BitVec 4) (rnd : Rnd) (ty : Ty)
  /-- Decodes packed elements under a mask. (R213) -/
  | vunpkVx (d : BitVec 5) (a : VSrc) (src : Ty) (p : BitVec 4) (rnd : Rnd) (ty : Ty) (mk : VMask)
  /-- Packs lanes into narrow elements and updates AMX. (R214) -/
  | vpack (d : BitVec 5) (a : VSrc) (src : Ty) (p : BitVec 4) (rnd : Rnd) (sat : Bool) (ty : Ty)
  /-- Packs active lanes under a mask. (R214) -/
  | vpackVx (d : BitVec 5) (a : VSrc) (src : Ty) (p : BitVec 4) (rnd : Rnd) (sat : Bool) (ty : Ty) (mk : VMask)
  /-- Multiplies lanes by an e8m0 power-of-two scale. (R215) -/
  | vscale (d : BitVec 5) (a : VSrc) (b : Src) (k : BitVec 3) (inv : Bool) (rnd : Rnd) (ty : Ty)
  /-- Scales lanes under a mask. (R215) -/
  | vscaleVx (d : BitVec 5) (a : VSrc) (b : Src) (k : BitVec 3) (inv : Bool) (rnd : Rnd) (ty : Ty) (mk : VMask)
  /-- Writes the largest lane magnitude and updates AMX. (R216) -/
  | vamax (d : BitVec 6) (a : VSrc) (ty : Ty)
  /-- Largest magnitude over active lanes. (R216) -/
  | vamaxVx (d : BitVec 6) (a : VSrc) (ty : Ty) (mk : VMask)
  /-- Radix-2 complex butterfly into d and d+1. (R218) -/
  | bfly (d : BitVec 5) (a : VSrc) (b : VSrc) (c : VSrc) (rnd : Rnd) (ty : Ty)
  /-- Butterfly on active elements. (R218) -/
  | bflyVx (d : BitVec 5) (a : VSrc) (b : VSrc) (c : VSrc) (rnd : Rnd) (ty : Ty) (mk : VMask)
  /-- Generates twiddle factors. (R220) -/
  | twid (d : BitVec 5) (a : VSrc) (n : BitVec 5) (rnd : Rnd) (ty : Ty)
  /-- Generates twiddles for active elements. (R220) -/
  | twidVx (d : BitVec 5) (a : VSrc) (n : BitVec 5) (rnd : Rnd) (ty : Ty) (mk : VMask)
  /-- Complex multiply or conjugate multiply. (R219) -/
  | cmul (d : BitVec 5) (a : VSrc) (b : VSrc) (conj : Bool) (rnd : Rnd) (ty : Ty)
  /-- Complex multiply under a mask. (R219) -/
  | cmulVx (d : BitVec 5) (a : VSrc) (b : VSrc) (conj : Bool) (rnd : Rnd) (ty : Ty) (mk : VMask)
  /-- Lane-wise sin or cos of pi times x. (R204) -/
  | vtrig (d : BitVec 5) (a : VSrc) (cos : Bool) (rnd : Rnd) (ty : Ty)
  /-- Lane-wise sin or cos under a mask. (R204) -/
  | vtrigVx (d : BitVec 5) (a : VSrc) (cos : Bool) (rnd : Rnd) (ty : Ty) (mk : VMask)
  /-- Lane-wise tanh. (R204) -/
  | vtanh (d : BitVec 5) (a : VSrc) (rnd : Rnd) (ty : Ty)
  /-- Lane-wise tanh under a mask. (R204) -/
  | vtanhVx (d : BitVec 5) (a : VSrc) (rnd : Rnd) (ty : Ty) (mk : VMask)
  /-- Logical operation on mask registers. (R210) -/
  | mlog (d : BitVec 3) (a : MSrc) (b : MSrc) (op : MlogOp)
  /-- Counts, moves or locates bits of a mask register. (R210) -/
  | mpop (d : BitVec 6) (a : Src) (op : MpopOp)
  /-- Binds a stream register to a memory pattern and registers its lock. (R307) -/
  | sbind (d : BitVec 6) (a : Src)
  /-- Unbinds a stream register and releases its lock. (R312) -/
  | sunb (d : BitVec 6)
  /-- Reads a stream binding's status. (R313) -/
  | sqry (d : BitVec 6) (a : Src)
  /-- Issues a tile copy to the hub's Pour engine with its locks. (R317) -/
  | pour (d : BitVec 6) (a : Src)
  /-- Initialises a byte barrier with a reload count. (R327) -/
  | bari (d : BitVec 6) (a : Src) (b : Src) (scope : Scope)
  /-- Arrives at a byte barrier with a byte expectation. (R327) -/
  | barx (d : BitVec 6) (a : Src) (b : Src) (scope : Scope)
  /-- Waits for the barrier generation to differ. (R329) -/
  | barw (d : BitVec 6) (a : Src) (b : Src) (scope : Scope)
  /-- Reads the state of one of the core's Pours. (R323) -/
  | pourq (d : BitVec 6) (a : Src)
  /-- Reads a handle's entry word. (R324) -/
  | hndq (d : BitVec 6) (a : Src)
  /-- Queues a weight-tile load into the shadow plane. (R230) -/
  | pload (d : BitVec 6) (a : Src) (b : Src) (c : Src)
  /-- Queues an exchange of the active and shadow planes. (R231) -/
  | pswap
  /-- Queues a Press run of activation rows through the active plane. (R232) -/
  | prun (d : BitVec 6) (a : Src) (b : Src) (c : Src)
  /-- Moves one accumulator quarter-row into a v register. (R235) -/
  | paccReg (d : BitVec 5) (a : Src)
  /-- Converts and writes accumulator rows to own memory. (R235) -/
  | paccMem (a : Src) (b : Src) (src : Ty) (rnd : Rnd) (sat : Bool) (ty : Ty)
  /-- Queues a Press self-test without a stamp. (R238) -/
  | ptest (d : BitVec 6)
  /-- Queues a Press self-test with a stamp address. (R238) -/
  | ptestStamp (d : BitVec 6) (a : Src)
  /-- Reads the Press status. (R239) -/
  | pqry (d : BitVec 6)
  /-- Starts or continues a Grinder sort slice. (R245) -/
  | gsort (d : BitVec 6) (a : Src) (b : Src) (c : Src)
  /-- Reads the Grinder state. (R247) -/
  | gqry (d : BitVec 6)
  /-- Sends a message with one argument through the outbox. (R142) -/
  | send (a : Src) (b : Src)
  /-- Sends a message whose words come from a memory block. (R142) -/
  | sendm (a : Src) (b : Src)
  /-- Pushes a new task record onto a deque as a strong access. (R370) -/
  | spawn (d : BitVec 6) (a : Src) (b : Src) (scope : Scope)
  /-- Sends a launch record to the die's launch sequencer. (R371) -/
  | launch (a : Src)
  /-- Reads or clears a scheduling counter. (R372) -/
  | stealc (d : BitVec 6) (which : BitVec 3) (clr : Bool)
  /-- Enters or leaves local-time mode, or sets DPER. (R267) -/
  | ltcfg (d : BitVec 6) (a : Src)
  /-- Declares or clears an input or output link slot. (R268) -/
  | ltlink (out : Bool) (slot : BitVec 4) (a : Src) (b : Src)
  /-- Sends a stamped event on an output slot. (R269) -/
  | ltsend (slot : BitVec 4) (a : Src) (b : Src) (c : Src)
  /-- Delivers the local clock LTC. (R271) -/
  | ltclk (d : BitVec 6)
  /-- Raises output floors and queues drips sent at commit. (R270) -/
  | ltdrip (all : Bool) (slot : BitVec 4) (a : Src)
  /-- Reads a local-time item. (R272) -/
  | ltqry (d : BitVec 6) (a : Src)
  /-- Requests that aligned neighbouring cores form a gang. (R297) -/
  | gang (d : BitVec 6) (a : Src) (size : BitVec 2)
  /-- Disbands the gang with a boundary in every member. (R303) -/
  | disb
  /-- Joins a collective round from a command block. (R444) -/
  | coll (d : BitVec 6) (a : Src)
  /-- Waits for and reports a collective's state. (R450) -/
  | collw (d : BitVec 6) (a : Src)
  /-- Reads a control word. (R144) -/
  | getc (d : BitVec 6) (w : Cw)
  /-- Writes a control word under its rules. (R144) -/
  | setc (w : Cw) (a : Src)
  /-- Delivers global time within 48 clk. (R145) -/
  | time (d : BitVec 6)
  /-- Writes the core's clk count. (R145) -/
  | cyc (d : BitVec 6)
  /-- Ends a trap handler choosing retry or skip for the stopped activation. (R147) -/
  | eret (skip : Bool)
  /-- Raises BKPT, or halts when breakpoint halting is armed. (R148) -/
  | bkpt (code : BitVec 6)
  /-- Issues a trace record written at commit. (R149) -/
  | trace (a : Src) (tag : BitVec 24)
  /-- Reads the context's energy total. (R146) -/
  | enrg (d : BitVec 6)
  /-- A head whose opcode is reserved, lies in row 0xF_, or is 0x00 in a non-zero head reaches issue and raises ILLOP precisely. (R100) -/
  | illop (enc : W64)
  /-- Sequential flow reaches an address that is not a valid instruction, such as LSTOP or 0x0000_8000, and raises BADTGT with word 7 = 1. (R87) -/
  | sequentialFlowBadtgt (core : Nat)
  /-- A closed segment's outbox entries enter channels once the previous commit is complete. (R67) -/
  | releaseEntries (core : Nat)
  /-- An outbox entry reaches its target, is staged, and is accepted or refused. (R67) -/
  | landEntry (k : Nat)
  /-- An acceptance or refusal reaches the sending core. (R67) -/
  | entryAck (k : Nat)
  /-- Commits the oldest closed segment and releases its commit notices. (R68) -/
  | commit (core : Nat)
  /-- A target publishes a segment's staged stores and messages. (R69) -/
  | commitNoticeServe (k : Nat)
  /-- Every target has acknowledged its commit notice. (R69) -/
  | commitComplete (core : Nat)
  /-- A target discards the entries staged for an aborted segment. (R72) -/
  | abortNoticeServe (k : Nat)
  /-- A home or bank sequencer performs one landed request and replies. (R183) -/
  | requestServe (k : Nat)
  /-- A reply reaches the requesting core and resolves its load or strong access. (R139) -/
  | replyArrival (k : Nat)
  /-- A long-latency result is delivered and its destination marked FULL. (R55) -/
  | resultDelivery (core : Nat) (k : Nat)
  /-- A slice walker translates a virtual address or faults. (R352) -/
  | pageWalk (core : Nat) (va : W64)
  /-- A packet without reply is retransmitted, or treated as uncorrectable after eight tries. (R344) -/
  | retransmitTimeout (k : Nat)
  /-- A sensor detects a strike in its region. (R335) -/
  | strike (cluster : Nat) (region : Nat)
  /-- The hub's report rolls back the region's cores and restarts engines that touch it. (R336) -/
  | strikeReport (k : Nat)
  /-- BUD reaches zero, issue stops and BUDGET is raised. (R77) -/
  | budgetExhausted (core : Nat)
  /-- A core takes its next work and forms the activation's starting state. (R53) -/
  | dispatch (core : Nat)
  /-- An idle core tries to take the top task of a victim's deque. (R361) -/
  | stealAttempt (core : Nat) (victim : Nat)
  /-- The 256-clk wait after an unsuccessful steal round ends. (R361) -/
  | stealWaitExpiry (core : Nat)
  /-- A WAITM or BARW spinning 256 clk parks in a free slot. (R358) -/
  | park (core : Nat)
  /-- A published store makes a parked activation's condition hold. (R358) -/
  | watchReady (core : Nat) (slot : Nat)
  /-- The home re-tests a waited word on a published store or every 64 clk. (R189) -/
  | waitmRetest (core : Nat)
  /-- After the trap boundary, writes the record and runs the trap handler or kills. (R279) -/
  | trapHandlerDispatch (core : Nat)
  /-- A producer stalled on a full ring continues when CONS moves on. (R286) -/
  | trapRingResume (core : Nat)
  /-- At its queue turn, the tile is read into the shadow plane. (R230) -/
  | ploadExecute (core : Nat)
  /-- At its queue turn, the planes are exchanged. (R231) -/
  | pswapExecute (core : Nat)
  /-- A Press run finishes its rows. (R234) -/
  | prunFinish (core : Nat)
  /-- An on-demand self-test finishes after 8 clk. (R238) -/
  | ptestFinish (core : Nat)
  /-- A Grinder slice runs its phases and writes the cells back. (R246) -/
  | grinderSliceFinish (core : Nat)
  /-- Releases an engine operation's locks, writes its stamp, and removes it. (R222) -/
  | engineCompletion (core : Nat) (seq : Nat)
  /-- Frees an engine undo-ring pre-image W after its completion. (R224) -/
  | enginePreimageFree (core : Nat) (seq : Nat)
  /-- A Pour begins moving data at its channel turn. (R318) -/
  | pourStart (cluster : Nat) (ch : Nat)
  /-- A Pour flit lands at a receiver after saving the destination pre-image. (R318) -/
  | pourFlitLand (cluster : Nat) (ch : Nat) (f : TileFlit)
  /-- A receiver releases its lock, subtracts its barrier and queues the follow-on run. (R319) -/
  | pourReceiverCompletion (cluster : Nat) (ch : Nat) (recv : Nat)
  /-- The stream unit reads ahead an input element or drains a pushed element. (R310) -/
  | streamFill (core : Nat) (code : Nat)
  /-- Forms a gang and sets up each follower from the leader. (R299) -/
  | gangForm (core : Nat)
  /-- A waiting GANG's limit runs out and reservations are dropped. (R297) -/
  | gangWaitTimeout (core : Nat)
  /-- A drip raises an input bound or sets LERR. (R255) -/
  | dripLand (k : Nat)
  /-- An idle core advances its announce base A. (R257) -/
  | idleAdvance (core : Nat)
  /-- The DPER period re-evaluates drips on an idle core. (R258) -/
  | idleDripPeriod (core : Nat)
  /-- A member marks events stamped T as released and acknowledges. (R261) -/
  | releaseMark (core : Nat)
  /-- The root starts a completion-tree wave 1 us after the last. (R366) -/
  | waveStart (ctx : Nat) (lnch : Nat)
  /-- A parent combines its children's status with its own. (R366) -/
  | waveCombine (ctx : Nat) (lnch : Nat)
  /-- Writes the done block once every row has left RUNNING. (R367) -/
  | doneBlockWrite (ctx : Nat) (lnch : Nat)
  /-- The sequencer pushes an initial task record onto its core's deque. (R364) -/
  | taskRecordPush (ctx : Nat) (lnch : Nat)
  /-- A draining row is drained and moves to LOADING. (R333) -/
  | leaseDrained (cluster : Nat) (row : Nat)
  /-- A loading row holds the image and moves to RUNNING. (R333) -/
  | leaseLoaded (cluster : Nat) (row : Nat)
  /-- The scrubber reads, corrects or poisons a line or sector. (R354) -/
  | scrub (what : ScrubTarget) (err : ScrubFinding)
  /-- A Rencia flit is checked by CRC and SEQ and accepted or nakked. (R436) -/
  | flitReceive (port : Nat) (f : Machine.FlitIn)
  /-- A nak makes the sender replay from the named flit. (R436) -/
  | linkReplay (port : Nat) (first : BitVec 12)
  /-- A port retrains and comes up, or refuses a duplicate id. (R438) -/
  | portTrain (port : Nat) (pkg : BitVec 8) (nport : BitVec 4)
  /-- Every 100 us exchanges time flits and adjusts global time. (R441) -/
  | timeExchange (t1 : Nat) (t2 : Nat) (t3 : Nat) (t4 : Nat)
  /-- A member's contribution leaves after its segment commits. (R446) -/
  | collContribute (core : Nat) (seq : Nat)
  /-- A combining point adds a subtotal into the rank tree. (R445) -/
  | collCombine (core : Nat) (seq : Nat)
  /-- Result bytes land at a member, enabling its completion. (R446) -/
  | collResultLand (core : Nat) (seq : Nat)
  /-- A combining point drops a round's kept outputs after W. (R446) -/
  | collOutputExpiry (core : Nat) (seq : Nat)
  /-- Checks a descriptor and moves a context from FREE to SAVED. (R386) -/
  | config (ch : Nat)
  /-- Copies a saved context into the shadow store. (R386) -/
  | loadsh (ch : Nat)
  /-- Moves the shadow context to its save area. (R386) -/
  | spillsh (ch : Nat)
  /-- Starts a context switch: dispatch stops and the drain begins. (R387) -/
  | swap (ch : Nat)
  /-- After drain and settle, engines stop and the exchange starts. (R387) -/
  | swapSettle (ctx : Nat)
  /-- After the exchange, the incoming context enters and spill entries are delivered. (R387) -/
  | swapEnter (ctx : Nat)
  /-- A row's image reload completes and dispatch may start. (R388) -/
  | rowReloadDone (cluster : Nat) (row : Nat)
  /-- Stops issue in every core of a partition. (R393) -/
  | halt (ch : Nat)
  /-- A halted core writes its halt record once its closing list is empty. (R394) -/
  | haltRecordWrite (core : Nat)
  /-- Lets every halted core issue again. (R396) -/
  | resume (ch : Nat)
  /-- Lets one core issue k heads. (R396) -/
  | step (ch : Nat)
  /-- The stepped core halts again with WHY 5. (R396) -/
  | stepDone (core : Nat)
  /-- Kills a context and writes its launches' done blocks. (R404) -/
  | kill (ch : Nat)
  /-- Makes a handle invalid for new uses and ends uses in flight. (R402) -/
  | revoke (ch : Nat)
  /-- No engine access under the handle remains; the command completes. (R402) -/
  | revokeDone (ch : Nat)
  /-- Frees a killed or saved context id. (R386) -/
  | free (ch : Nat)
  /-- An unknown command opcode completes with code 9. (R408) -/
  | unknownOpcode (ch : Nat)
  /-- Starts a graph slot at an entry node. (R413) -/
  | grun (ch : Nat)
  /-- Stops a graph slot with error 5. (R413) -/
  | gstop (ch : Nat)
  /-- Retags DRAM sectors at their homes. (R410) -/
  | tagset (ch : Nat)
  /-- Discards every cached translation of a context. (R410) -/
  | tlbinv (ch : Nat)
  /-- Changes a die's power state or refuses with code 8. (R423) -/
  | power (ch : Nat)
  /-- Submits a launch record from a graph node. (R414) -/
  | graphLaunchNode (die : Nat) (slot : Nat)
  /-- Starts a handle-to-handle copy with an ITER stamp. (R414) -/
  | graphCopyNode (die : Nat) (slot : Nat)
  /-- Tests a word or barrier generation and waits. (R414) -/
  | graphWaitNode (die : Nat) (slot : Nat)
  /-- A WAIT node's timeout goes to its successor or error 4. (R414) -/
  | graphWaitTimeout (die : Nat) (slot : Nat)
  /-- Chooses the successor and re-arms ITER. (R416) -/
  | graphCondNode (die : Nat) (slot : Nat)
  /-- Publishes a host-ring record. (R420) -/
  | graphNotifyNode (die : Nat) (slot : Nat)
  /-- Performs a strong store or atomic add. (R414) -/
  | graphSignalNode (die : Nat) (slot : Nat)
  /-- Ends the run, optionally publishing an end record. (R414) -/
  | graphEndNode (die : Nat) (slot : Nat)
  /-- A node's completion condition holds and the next node starts. (R415) -/
  | graphNodeDone (die : Nat) (slot : Nat)
  /-- A full host ring re-reads CONS at most once per us. (R420) -/
  | ringConsReread (j : Nat)
  /-- A ring's coalescing timer expires and sends an interrupt. (R421) -/
  | ringInterruptTimer (j : Nat)
  /-- A host read of device DRAM, tag-checked. (R407) -/
  | bar2Read (off : Nat) (n : Nat)
  /-- A host posted write enters its requester's ordering point. (R411) -/
  | bar2Write (req : Nat) (off : Nat) (data : List Byte)
  /-- An ordered host write is released to its home after earlier ones are served. (R411) -/
  | bar2WriteRelease (req : Nat)
  /-- A write to a control-space register with no behaviour of its own. (R407) -/
  | controlRegisterWrite (off : Nat) (value : W64)
  /-- A host write clears engine-flag bits written 1. (R384) -/
  | eflgClear (ctx : Nat) (value : W64)
  /-- Writing 0 clears a BAR2 tag-mismatch or uncorrectable count. (R407) -/
  | mismatchCountClear (uncorr : Bool)
  /-- Writing 0 clears a port's NAKS or DOWNS count. (R438) -/
  | portCountClear (port : Nat) (downs : Bool)
  /-- A halted-partition register or memory read in the current or committed view. (R395) -/
  | debugRead (core : Nat) (what : DebugTarget) (committed : Bool)
  /-- A halted-partition memory write, refused on held, logged or locked lines. (R395) -/
  | debugWrite (core : Nat) (off : Nat) (data : List Byte)
  /-- At 110 C every core stops and every context is killed. (R423) -/
  | thermalTrip
  /-- Reset starts every function's self-test. (R424) -/
  | conventionalReset
  /-- A function sets its ready or failed bit. (R424) -/
  | selfTestDone (fn : Nat) (pass : Bool)
  /-- The security engine verifies both firmware signatures and the version. (R425) -/
  | firmwareVerify (image : Nat) (version : Nat)
  /-- SPDM version request over DOE. (R425) -/
  | getVersion (req : Nat)
  /-- SPDM capabilities request. (R425) -/
  | getCapabilities (req : Nat)
  /-- SPDM algorithm negotiation. (R425) -/
  | negotiateAlgorithms (req : Nat)
  /-- SPDM certificate digests request. (R425) -/
  | getDigests (req : Nat)
  /-- SPDM certificate chain request. (R425) -/
  | getCertificate (req : Nat)
  /-- SPDM challenge answered with an RSA signature. (R425) -/
  | challenge (req : Nat)
  /-- SPDM measurements with the vendor SLH-DSA block. (R425) -/
  | getMeasurements (req : Nat)
  /-- A host command that took time, such as LOADSH, SPILLSH, TAGSET, TLBINV or POWER, completes: STATUS is written, BUSY clears, the channel's next command may start, and MSI-X vector 1 is raised. (R408) -/
  | commandCompletion (ch : Nat)
deriving DecidableEq, Repr

end Sys2Proof
end

