-- ==== Sys2Proof/WellFormed.lean ====
section
/-! DEFINITION. Which terms of Instr are instructions: the codes that each entry accepts (spec/04 R92 to R98). -/

namespace Sys2Proof

/-- Width of an element in bits (spec/02 R19, R20). -/
def Ty.width : Ty → Nat
  | .i64 | .n64 | .f64 => 64
  | .i32 | .n32 | .f32 => 32
  | .i16 | .n16 | .bf16 | .f16 => 16
  | .i8 | .n8 | .e4m3 | .e5m2 | .ds8 | .e8m0 => 8
  | .e3m2 | .e2m3 => 6
  | .i4 | .e2m1 => 4

/-- Lanes of a v register at a lane type (spec/08 R192). -/
def Ty.lanes (t : Ty) : Nat := 512 / t.width

/-- Packed elements of a v register (spec/08 R212). -/
def Ty.packed : Ty → Nat
  | .f16 => 32
  | .i4 | .e2m1 => 128
  | _ => 64

/-- Signed integer types: codes 0 to 3. -/
def Ty.isSInt : Ty → Bool | .i64 | .i32 | .i16 | .i8 => true | _ => false
/-- Type codes 0 to 7. -/
def Ty.isInt : Ty → Bool | .i64 | .i32 | .i16 | .i8 | .n64 | .n32 | .n16 | .n8 => true | _ => false
/-- The types of element-wise arithmetic (spec/02 R18). -/
def Ty.isArith : Ty → Bool | .f64 | .f32 | .bf16 => true | _ => false
/-- The access types 0 to 7 and 16 to 19 (spec/05 R136). -/
def Ty.isMem (t : Ty) : Bool := t.isInt || t.isArith || t == .f16
/-- The types of the atomics (spec/07 R186). -/
def Ty.isAmo (t : Ty) : Bool := t.isInt || t == .f64 || t == .f32
/-- The types of VCMP (spec/08 R203) and of VCVT (R211). -/
def Ty.isCmpTy (t : Ty) : Bool := t.isInt || t.isArith
def Ty.isCvt (t : Ty) : Bool := t.isInt || t.isArith
/-- The types of VRED and VSCAN (spec/08 R205). -/
def Ty.isRedTy : Ty → Bool | .f64 | .f32 | .bf16 | .i64 | .i32 | .n64 | .n32 => true | _ => false
/-- The types of the special functions (spec/08 R204) and of the complex instructions (R217). -/
def Ty.isSpec : Ty → Bool | .f32 | .bf16 => true | _ => false
def Ty.isCplx : Ty → Bool | .f32 | .f64 => true | _ => false
/-- The packed formats of VUNPK and VPACK (spec/08 R213) and their lane types. -/
def Ty.isPacked : Ty → Bool | .f16 | .e4m3 | .e5m2 | .e3m2 | .e2m3 | .e2m1 | .ds8 | .e8m0 | .i4 => true | _ => false
def Ty.isUnpk : Ty → Bool | .f64 | .f32 | .bf16 | .i32 | .i16 | .i8 => true | _ => false
/-- The accumulator element types of PACC (spec/09 R235). -/
def Ty.isAcc : Ty → Bool | .f64 | .f32 | .i32 => true | _ => false

/-- A packed format with a lane type: the integer lanes go with i4 only (spec/08 R213, R214). -/
def unpkPair (pk ln : Ty) : Bool := ln.isArith || pk == .i4
/-- Parts of a packed register (spec/08 R213). -/
def packParts (pk ln : Ty) : Nat := pk.packed / ln.lanes
/-- The ratio q of VCVT (spec/08 R211). -/
def cvtParts (f t : Ty) : Nat := max f.lanes t.lanes / min f.lanes t.lanes
/-- The type pairs of PACC's memory form (spec/09 R235). -/
def accPair : Ty → Ty → Bool
  | .f64, t => t == .f64 || t == .f32 || t == .bf16 || t == .f16
  | .f32, t => t == .f32 || t == .bf16 || t == .f16 || t == .e4m3 || t == .e5m2
  | .i32, t => t == .i32 || t == .i16 || t == .i8 || t == .f32
  | _, _ => false
/-- RND of VRED and VSCAN is used by the floating add only (spec/08 R205). -/
def redRounds (op : RedOp) (t : Ty) : Bool := (op == .add || op == .addl) && t.isArith
/-- un and ord are for floating types (spec/08 R203). -/
def cmpPredOk (p : Pred) (t : Ty) : Bool := t.isArith || (p != .un && p != .ord)
/-- and, or and xor take integers, lse takes f64 and f32 (spec/07 R186). -/
def logTyOk (op : LogOp) (t : Ty) : Bool := if op = .lse then t == .f64 || t == .f32 else t.isInt
/-- The control words that SETC writes (spec/03 R57). -/
def Cw.writable : Cw → Bool | .flg | .amx | .sts | .bud | .mode => true | _ => false
/-- The register codes of streams (spec/14 R304). -/
def streamCode (c : BitVec 6) : Bool := (24 ≤ c.toNat && c.toNat ≤ 31) || 56 ≤ c.toNat

/-- A term that an encoding can name; every term of a step that is no instruction. -/
def Instr.wf : Instr → Bool
  | .nop => true
  | .jmp _ => true
  | .jmpr _ => true
  | .call _ => true
  | .callr _ => true
  | .ret _ => true
  | .br _ _ _ _ => true
  | .bri _ _ _ _ => true
  | .bst cc _ => cc.code.ule 4
  | .loop _ _ _ => true
  | .endAct => true
  | .phase => true
  | .yield => true
  | .migr _ => true
  | .trap _ => true
  | .trapReg _ _ => true
  | .add _ _ _ => true
  | .addAbcm _ _ _ ty => ty.isInt
  | .sub _ _ _ => true
  | .subAbcm _ _ _ ty => ty.isInt
  | .mul _ _ _ => true
  | .mulAbcm _ _ _ ty => ty.isInt
  | .mulh _ _ _ => true
  | .mulhAbcm _ _ _ ty => ty.isInt
  | .div _ _ _ => true
  | .divAbcm _ _ _ ty => ty.isInt
  | .rem _ _ _ => true
  | .remAbcm _ _ _ ty => ty.isInt
  | .and _ _ _ => true
  | .andAbcm _ _ _ ty => ty.isInt
  | .or _ _ _ => true
  | .orAbcm _ _ _ ty => ty.isInt
  | .xor _ _ _ => true
  | .xorAbcm _ _ _ ty => ty.isInt
  | .shl _ _ _ => true
  | .shlAbcm _ _ _ ty => ty.isInt
  | .shr _ _ _ => true
  | .shrAbcm _ _ _ ty => ty.isInt
  | .rot _ _ _ => true
  | .rotAbcm _ _ _ ty => ty.isInt
  | .min _ _ _ => true
  | .minAbcm _ _ _ ty => ty.isInt
  | .max _ _ _ => true
  | .maxAbcm _ _ _ ty => ty.isInt
  | .slt _ _ _ => true
  | .sltAbcm _ _ _ ty => ty.isInt
  | .sel _ _ _ _ => true
  | .addi _ _ _ => true
  | .addiAbi32 _ _ _ => true
  | .andi _ _ _ => true
  | .andiAbi32 _ _ _ => true
  | .ori _ _ _ => true
  | .oriAbi32 _ _ _ => true
  | .xori _ _ _ => true
  | .xoriAbi32 _ _ _ => true
  | .muli _ _ _ => true
  | .muliAbi32 _ _ _ => true
  | .shli _ _ k ty => ty.isInt && decide (k.toNat < ty.width)
  | .shri _ _ k ty => ty.isInt && decide (k.toNat < ty.width)
  | .li _ _ => true
  | .liI48 _ _ => true
  | .clz _ _ => true
  | .clzAbcm _ _ ty => ty.isInt
  | .ctz _ _ => true
  | .ctzAbcm _ _ ty => ty.isInt
  | .popc _ _ => true
  | .popcAbcm _ _ ty => ty.isInt
  | .abs _ _ => true
  | .absAbcm _ _ ty => ty.isSInt
  | .bfx _ _ pos lenM1 _ => decide (pos.toNat + lenM1.toNat < 64)
  | .bfi _ _ _ pos lenM1 => decide (pos.toNat + lenM1.toNat < 64)
  | .wfld _ _ level => decide (level < 6)
  | .fadd _ _ _ _ ty => ty.isArith
  | .fsub _ _ _ _ ty => ty.isArith
  | .fmul _ _ _ _ ty => ty.isArith
  | .ffma _ _ _ _ _ ty => ty.isArith
  | .fdiv _ _ _ _ ty => ty.isArith
  | .fsqrt _ _ _ ty => ty.isArith
  | .fmin _ _ _ ty => ty.isArith
  | .fmax _ _ _ ty => ty.isArith
  | .fcmp _ _ _ _ ty => ty.isArith
  | .fcvt _ _ _ _ _ _ => true
  | .fclass _ _ ty => ty.isArith
  | .fsgn _ _ _ op ty => op != .abs && ty.isArith
  | .frnd _ _ _ _ ty => ty.isArith
  | .ld _ _ ty _ => ty.isMem
  | .st ty _ _ _ => ty.isMem
  | .ldv _ _ ty _ mk => ty.isMem && (mk.men || (mk.mz == false && mk.minv == false && mk.mreg == 0))
  | .stv ty _ _ _ mk => ty.isMem && (mk.men || (mk.mz == false && mk.minv == false && mk.mreg == 0))
  | .lds _ _ _ ty => ty.isMem
  | .sts _ _ _ ty => ty.isMem
  | .aadd _ _ _ _ ty => ty.isAmo
  | .amnx _ _ _ _ _ ty => ty.isAmo
  | .alog _ _ _ op _ ty => ty.isAmo && logTyOk op ty
  | .aswp _ _ _ _ ty => ty.isAmo
  | .acas _ _ _ _ _ ty => ty.isAmo
  | .waitm _ _ _ _ _ ty => ty.isInt
  | .loopf => true
  | .gath _ _ _ ty => ty.isMem
  | .gathVx _ _ _ ty mk => ty.isMem && (mk.men || (mk.mz == false && mk.minv == false && mk.mreg == 0))
  | .scat _ _ _ ty => ty.isMem
  | .scatVx _ _ _ ty mk => ty.isMem && (mk.men || (mk.mz == false && mk.minv == false && mk.mreg == 0))
  | .bcfg _ _ _ => true
  | .bqry _ _ => true
  | .xch _ _ _ _ => true
  | .bheap _ _ _ => true
  | .bspan _ _ => true
  | .bclr _ _ => true
  | .vadd _ _ _ _ ty => ty.isArith
  | .vaddVx _ _ _ _ ty mk => ty.isArith && (mk.men || (mk.mz == false && mk.minv == false && mk.mreg == 0))
  | .vsub _ _ _ _ ty => ty.isArith
  | .vsubVx _ _ _ _ ty mk => ty.isArith && (mk.men || (mk.mz == false && mk.minv == false && mk.mreg == 0))
  | .vmul _ _ _ _ ty => ty.isArith
  | .vmulVx _ _ _ _ ty mk => ty.isArith && (mk.men || (mk.mz == false && mk.minv == false && mk.mreg == 0))
  | .vfma _ _ _ _ _ ty => ty.isArith
  | .vfmaVx _ _ _ _ _ ty mk => ty.isArith && (mk.men || (mk.mz == false && mk.minv == false && mk.mreg == 0))
  | .vdiv _ _ _ _ ty => ty.isArith
  | .vdivVx _ _ _ _ ty mk => ty.isArith && (mk.men || (mk.mz == false && mk.minv == false && mk.mreg == 0))
  | .vsqrt _ _ _ ty => ty.isArith
  | .vsqrtVx _ _ _ ty mk => ty.isArith && (mk.men || (mk.mz == false && mk.minv == false && mk.mreg == 0))
  | .vmin _ _ _ ty => ty.isArith
  | .vminVx _ _ _ ty mk => ty.isArith && (mk.men || (mk.mz == false && mk.minv == false && mk.mreg == 0))
  | .vmax _ _ _ ty => ty.isArith
  | .vmaxVx _ _ _ ty mk => ty.isArith && (mk.men || (mk.mz == false && mk.minv == false && mk.mreg == 0))
  | .vcmp _ _ _ p ty => ty.isCmpTy && cmpPredOk p ty
  | .vcmpVx _ _ _ p ty mk => ty.isCmpTy && (mk.men || (mk.mz == false && mk.minv == false && mk.mreg == 0)) && cmpPredOk p ty
  | .vsgn _ _ b op ty => ty.isArith && (op != .abs || b == ⟨false, false, 0⟩)
  | .vsgnVx _ _ b op ty mk => ty.isArith && (mk.men || (mk.mz == false && mk.minv == false && mk.mreg == 0)) && (op != .abs || b == ⟨false, false, 0⟩)
  | .vred _ _ op rnd ty => ty.isRedTy && (redRounds op ty || rnd == .rne)
  | .vredVx _ _ op rnd ty mk => ty.isRedTy && (mk.men || (mk.mz == false && mk.minv == false && mk.mreg == 0)) && mk.mz == false && (redRounds op ty || rnd == .rne)
  | .vscan _ _ op rnd ty => ty.isRedTy && (redRounds op ty || rnd == .rne)
  | .vscanVx _ _ op rnd ty mk => ty.isRedTy && (mk.men || (mk.mz == false && mk.minv == false && mk.mreg == 0)) && mk.mz == false && (redRounds op ty || rnd == .rne)
  | .vexp2 _ _ _ ty => ty.isSpec
  | .vexp2Vx _ _ _ ty mk => ty.isSpec && (mk.men || (mk.mz == false && mk.minv == false && mk.mreg == 0))
  | .vlog2 _ _ _ ty => ty.isSpec
  | .vlog2Vx _ _ _ ty mk => ty.isSpec && (mk.men || (mk.mz == false && mk.minv == false && mk.mreg == 0))
  | .vrcp _ _ _ ty => ty.isSpec
  | .vrcpVx _ _ _ ty mk => ty.isSpec && (mk.men || (mk.mz == false && mk.minv == false && mk.mreg == 0))
  | .vrsq _ _ _ ty => ty.isSpec
  | .vrsqVx _ _ _ ty mk => ty.isSpec && (mk.men || (mk.mz == false && mk.minv == false && mk.mreg == 0))
  | .viadd _ _ _ => true
  | .viaddAbcm _ _ _ ty => ty.isInt
  | .viaddVx _ _ _ ty mk => ty.isInt && (mk.men || (mk.mz == false && mk.minv == false && mk.mreg == 0))
  | .visub _ _ _ => true
  | .visubAbcm _ _ _ ty => ty.isInt
  | .visubVx _ _ _ ty mk => ty.isInt && (mk.men || (mk.mz == false && mk.minv == false && mk.mreg == 0))
  | .vimul _ _ _ => true
  | .vimulAbcm _ _ _ ty => ty.isInt
  | .vimulVx _ _ _ ty mk => ty.isInt && (mk.men || (mk.mz == false && mk.minv == false && mk.mreg == 0))
  | .vand _ _ _ => true
  | .vandAbcm _ _ _ ty => ty.isInt
  | .vandVx _ _ _ ty mk => ty.isInt && (mk.men || (mk.mz == false && mk.minv == false && mk.mreg == 0))
  | .vor _ _ _ => true
  | .vorAbcm _ _ _ ty => ty.isInt
  | .vorVx _ _ _ ty mk => ty.isInt && (mk.men || (mk.mz == false && mk.minv == false && mk.mreg == 0))
  | .vxor _ _ _ => true
  | .vxorAbcm _ _ _ ty => ty.isInt
  | .vxorVx _ _ _ ty mk => ty.isInt && (mk.men || (mk.mz == false && mk.minv == false && mk.mreg == 0))
  | .vshl _ _ _ => true
  | .vshlAbcm _ _ _ ty => ty.isInt
  | .vshlVx _ _ _ ty mk => ty.isInt && (mk.men || (mk.mz == false && mk.minv == false && mk.mreg == 0))
  | .vshr _ _ _ => true
  | .vshrAbcm _ _ _ ty => ty.isInt
  | .vshrVx _ _ _ ty mk => ty.isInt && (mk.men || (mk.mz == false && mk.minv == false && mk.mreg == 0))
  | .vsel _ _ _ _ ty => ty.isMem
  | .vselVx _ _ _ _ ty mk => ty.isMem && (mk.men || (mk.mz == false && mk.minv == false && mk.mreg == 0))
  | .vperm _ _ _ _ ty => ty.isMem
  | .vpermVx _ _ _ _ ty mk => ty.isMem && (mk.men || (mk.mz == false && mk.minv == false && mk.mreg == 0))
  | .vbcast _ _ ty => ty.isMem
  | .vbcastVx _ _ ty mk => ty.isMem && (mk.men || (mk.mz == false && mk.minv == false && mk.mreg == 0))
  | .vslide _ _ _ _ ty => ty.isMem
  | .vslideVx _ _ _ _ ty mk => ty.isMem && (mk.men || (mk.mz == false && mk.minv == false && mk.mreg == 0))
  | .vcmpr _ _ _ ty => ty.isMem
  | .vexpd _ _ _ ty => ty.isMem
  | .viota _ a pfx ty => ty.isInt && (pfx || a == ⟨false, false, 0⟩)
  | .vlane d _ b k set ty => ty.isMem && decide (k.toNat < ty.lanes) && (if set then d.getLsbD 5 == false else b == ⟨false, false, 0⟩)
  | .vcvt _ _ src p _ _ ty => src.isCvt && ty.isCvt && decide (p.toNat < cvtParts src ty)
  | .vcvtVx _ _ src p _ _ ty mk => src.isCvt && ty.isCvt && (mk.men || (mk.mz == false && mk.minv == false && mk.mreg == 0)) && decide (p.toNat < cvtParts src ty)
  | .vunpk _ _ src p _ ty => src.isPacked && ty.isUnpk && unpkPair src ty && decide (p.toNat < packParts src ty)
  | .vunpkVx _ _ src p _ ty mk => src.isPacked && ty.isUnpk && (mk.men || (mk.mz == false && mk.minv == false && mk.mreg == 0)) && unpkPair src ty && decide (p.toNat < packParts src ty)
  | .vpack _ _ src p _ _ ty => src.isUnpk && ty.isPacked && unpkPair ty src && decide (p.toNat < packParts ty src)
  | .vpackVx _ _ src p _ _ ty mk => src.isUnpk && ty.isPacked && (mk.men || (mk.mz == false && mk.minv == false && mk.mreg == 0)) && unpkPair ty src && decide (p.toNat < packParts ty src)
  | .vscale _ _ _ _ _ _ ty => ty.isArith
  | .vscaleVx _ _ _ _ _ _ ty mk => ty.isArith && (mk.men || (mk.mz == false && mk.minv == false && mk.mreg == 0))
  | .vamax _ _ ty => ty.isArith
  | .vamaxVx _ _ ty mk => ty.isArith && (mk.men || (mk.mz == false && mk.minv == false && mk.mreg == 0))
  | .bfly d _ _ _ _ ty => ty.isCplx && d.getLsbD 0 == false
  | .bflyVx d _ _ _ _ ty mk => ty.isCplx && (mk.men || (mk.mz == false && mk.minv == false && mk.mreg == 0)) && d.getLsbD 0 == false
  | .twid _ _ n _ ty => n != 0 && n != 31 && ty.isCplx
  | .twidVx _ _ n _ ty mk => n != 0 && n != 31 && ty.isCplx && (mk.men || (mk.mz == false && mk.minv == false && mk.mreg == 0))
  | .cmul _ _ _ _ _ ty => ty.isCplx
  | .cmulVx _ _ _ _ _ ty mk => ty.isCplx && (mk.men || (mk.mz == false && mk.minv == false && mk.mreg == 0))
  | .vtrig _ _ _ _ ty => ty.isSpec
  | .vtrigVx _ _ _ _ ty mk => ty.isSpec && (mk.men || (mk.mz == false && mk.minv == false && mk.mreg == 0))
  | .vtanh _ _ _ ty => ty.isSpec
  | .vtanhVx _ _ _ ty mk => ty.isSpec && (mk.men || (mk.mz == false && mk.minv == false && mk.mreg == 0))
  | .mlog _ a b op => (op != .ones || a == ⟨false, false, 0⟩) && ((op != .ones && op != .not) || b == ⟨false, false, 0⟩)
  | .mpop d a op => (if op = .set then d.ult 8 else a.reg.ult 8)
  | .sbind d _ => streamCode d
  | .sunb d => streamCode d
  | .sqry _ _ => true
  | .pour _ _ => true
  | .bari _ _ _ _ => true
  | .barx _ _ _ _ => true
  | .barw _ _ _ _ => true
  | .pourq _ _ => true
  | .hndq _ _ => true
  | .pload _ _ _ _ => true
  | .pswap => true
  | .prun _ _ _ _ => true
  | .paccReg _ _ => true
  | .paccMem _ _ src _ _ ty => src.isAcc && accPair src ty
  | .ptest _ => true
  | .ptestStamp _ _ => true
  | .pqry _ => true
  | .gsort _ _ _ _ => true
  | .gqry _ => true
  | .send _ _ => true
  | .sendm _ _ => true
  | .spawn _ _ _ _ => true
  | .launch _ => true
  | .stealc _ which _ => decide (which < 7)
  | .ltcfg _ _ => true
  | .ltlink _ _ _ _ => true
  | .ltsend _ _ _ _ => true
  | .ltclk _ => true
  | .ltdrip all slot _ => (!all || slot == 0)
  | .ltqry _ _ => true
  | .gang _ _ size => decide (size ≠ 0)
  | .disb => true
  | .coll _ _ => true
  | .collw _ _ => true
  | .getc _ _ => true
  | .setc w _ => w.writable
  | .time _ => true
  | .cyc _ => true
  | .eret _ => true
  | .bkpt _ => true
  | .trace _ _ => true
  | .enrg _ => true
  | .illop _ => true
  | .sequentialFlowBadtgt _ => true
  | .releaseEntries _ => true
  | .landEntry _ => true
  | .entryAck _ => true
  | .commit _ => true
  | .commitNoticeServe _ => true
  | .commitComplete _ => true
  | .abortNoticeServe _ => true
  | .requestServe _ => true
  | .replyArrival _ => true
  | .resultDelivery _ _ => true
  | .pageWalk _ _ => true
  | .retransmitTimeout _ => true
  | .strike _ _ => true
  | .strikeReport _ => true
  | .budgetExhausted _ => true
  | .dispatch _ => true
  | .stealAttempt _ _ => true
  | .stealWaitExpiry _ => true
  | .park _ => true
  | .watchReady _ _ => true
  | .waitmRetest _ => true
  | .trapHandlerDispatch _ => true
  | .trapRingResume _ => true
  | .ploadExecute _ => true
  | .pswapExecute _ => true
  | .prunFinish _ => true
  | .ptestFinish _ => true
  | .grinderSliceFinish _ => true
  | .engineCompletion _ _ => true
  | .enginePreimageFree _ _ => true
  | .pourStart _ _ => true
  | .pourFlitLand _ _ _ => true
  | .pourReceiverCompletion _ _ _ => true
  | .streamFill _ _ => true
  | .gangForm _ => true
  | .gangWaitTimeout _ => true
  | .dripLand _ => true
  | .idleAdvance _ => true
  | .idleDripPeriod _ => true
  | .releaseMark _ => true
  | .waveStart _ _ => true
  | .waveCombine _ _ => true
  | .doneBlockWrite _ _ => true
  | .taskRecordPush _ _ => true
  | .leaseDrained _ _ => true
  | .leaseLoaded _ _ => true
  | .scrub _ _ => true
  | .flitReceive _ _ => true
  | .linkReplay _ _ => true
  | .portTrain _ _ _ => true
  | .timeExchange _ _ _ _ => true
  | .collContribute _ _ => true
  | .collCombine _ _ => true
  | .collResultLand _ _ => true
  | .collOutputExpiry _ _ => true
  | .config _ => true
  | .loadsh _ => true
  | .spillsh _ => true
  | .swap _ => true
  | .swapSettle _ => true
  | .swapEnter _ => true
  | .rowReloadDone _ _ => true
  | .halt _ => true
  | .haltRecordWrite _ => true
  | .resume _ => true
  | .step _ => true
  | .stepDone _ => true
  | .kill _ => true
  | .revoke _ => true
  | .revokeDone _ => true
  | .free _ => true
  | .unknownOpcode _ => true
  | .grun _ => true
  | .gstop _ => true
  | .tagset _ => true
  | .tlbinv _ => true
  | .power _ => true
  | .graphLaunchNode _ _ => true
  | .graphCopyNode _ _ => true
  | .graphWaitNode _ _ => true
  | .graphWaitTimeout _ _ => true
  | .graphCondNode _ _ => true
  | .graphNotifyNode _ _ => true
  | .graphSignalNode _ _ => true
  | .graphEndNode _ _ => true
  | .graphNodeDone _ _ => true
  | .ringConsReread _ => true
  | .ringInterruptTimer _ => true
  | .bar2Read _ _ => true
  | .bar2Write _ _ _ => true
  | .bar2WriteRelease _ => true
  | .controlRegisterWrite _ _ => true
  | .eflgClear _ _ => true
  | .mismatchCountClear _ => true
  | .portCountClear _ _ => true
  | .debugRead _ _ _ => true
  | .debugWrite _ _ _ => true
  | .thermalTrip => true
  | .conventionalReset => true
  | .selfTestDone _ _ => true
  | .firmwareVerify _ _ => true
  | .getVersion _ => true
  | .getCapabilities _ => true
  | .negotiateAlgorithms _ => true
  | .getDigests _ => true
  | .getCertificate _ => true
  | .challenge _ => true
  | .getMeasurements _ => true
  | .commandCompletion _ => true

/-- An instruction of a core, which an encoding names, as against a step of another agent. -/
def Instr.isCore : Instr → Bool
  | .nop => true
  | .jmp _ => true
  | .jmpr _ => true
  | .call _ => true
  | .callr _ => true
  | .ret _ => true
  | .br _ _ _ _ => true
  | .bri _ _ _ _ => true
  | .bst _ _ => true
  | .loop _ _ _ => true
  | .endAct => true
  | .phase => true
  | .yield => true
  | .migr _ => true
  | .trap _ => true
  | .trapReg _ _ => true
  | .add _ _ _ => true
  | .addAbcm _ _ _ _ => true
  | .sub _ _ _ => true
  | .subAbcm _ _ _ _ => true
  | .mul _ _ _ => true
  | .mulAbcm _ _ _ _ => true
  | .mulh _ _ _ => true
  | .mulhAbcm _ _ _ _ => true
  | .div _ _ _ => true
  | .divAbcm _ _ _ _ => true
  | .rem _ _ _ => true
  | .remAbcm _ _ _ _ => true
  | .and _ _ _ => true
  | .andAbcm _ _ _ _ => true
  | .or _ _ _ => true
  | .orAbcm _ _ _ _ => true
  | .xor _ _ _ => true
  | .xorAbcm _ _ _ _ => true
  | .shl _ _ _ => true
  | .shlAbcm _ _ _ _ => true
  | .shr _ _ _ => true
  | .shrAbcm _ _ _ _ => true
  | .rot _ _ _ => true
  | .rotAbcm _ _ _ _ => true
  | .min _ _ _ => true
  | .minAbcm _ _ _ _ => true
  | .max _ _ _ => true
  | .maxAbcm _ _ _ _ => true
  | .slt _ _ _ => true
  | .sltAbcm _ _ _ _ => true
  | .sel _ _ _ _ => true
  | .addi _ _ _ => true
  | .addiAbi32 _ _ _ => true
  | .andi _ _ _ => true
  | .andiAbi32 _ _ _ => true
  | .ori _ _ _ => true
  | .oriAbi32 _ _ _ => true
  | .xori _ _ _ => true
  | .xoriAbi32 _ _ _ => true
  | .muli _ _ _ => true
  | .muliAbi32 _ _ _ => true
  | .shli _ _ _ _ => true
  | .shri _ _ _ _ => true
  | .li _ _ => true
  | .liI48 _ _ => true
  | .clz _ _ => true
  | .clzAbcm _ _ _ => true
  | .ctz _ _ => true
  | .ctzAbcm _ _ _ => true
  | .popc _ _ => true
  | .popcAbcm _ _ _ => true
  | .abs _ _ => true
  | .absAbcm _ _ _ => true
  | .bfx _ _ _ _ _ => true
  | .bfi _ _ _ _ _ => true
  | .wfld _ _ _ => true
  | .fadd _ _ _ _ _ => true
  | .fsub _ _ _ _ _ => true
  | .fmul _ _ _ _ _ => true
  | .ffma _ _ _ _ _ _ => true
  | .fdiv _ _ _ _ _ => true
  | .fsqrt _ _ _ _ => true
  | .fmin _ _ _ _ => true
  | .fmax _ _ _ _ => true
  | .fcmp _ _ _ _ _ => true
  | .fcvt _ _ _ _ _ _ => true
  | .fclass _ _ _ => true
  | .fsgn _ _ _ _ _ => true
  | .frnd _ _ _ _ _ => true
  | .ld _ _ _ _ => true
  | .st _ _ _ _ => true
  | .ldv _ _ _ _ _ => true
  | .stv _ _ _ _ _ => true
  | .lds _ _ _ _ => true
  | .sts _ _ _ _ => true
  | .aadd _ _ _ _ _ => true
  | .amnx _ _ _ _ _ _ => true
  | .alog _ _ _ _ _ _ => true
  | .aswp _ _ _ _ _ => true
  | .acas _ _ _ _ _ _ => true
  | .waitm _ _ _ _ _ _ => true
  | .loopf => true
  | .gath _ _ _ _ => true
  | .gathVx _ _ _ _ _ => true
  | .scat _ _ _ _ => true
  | .scatVx _ _ _ _ _ => true
  | .bcfg _ _ _ => true
  | .bqry _ _ => true
  | .xch _ _ _ _ => true
  | .bheap _ _ _ => true
  | .bspan _ _ => true
  | .bclr _ _ => true
  | .vadd _ _ _ _ _ => true
  | .vaddVx _ _ _ _ _ _ => true
  | .vsub _ _ _ _ _ => true
  | .vsubVx _ _ _ _ _ _ => true
  | .vmul _ _ _ _ _ => true
  | .vmulVx _ _ _ _ _ _ => true
  | .vfma _ _ _ _ _ _ => true
  | .vfmaVx _ _ _ _ _ _ _ => true
  | .vdiv _ _ _ _ _ => true
  | .vdivVx _ _ _ _ _ _ => true
  | .vsqrt _ _ _ _ => true
  | .vsqrtVx _ _ _ _ _ => true
  | .vmin _ _ _ _ => true
  | .vminVx _ _ _ _ _ => true
  | .vmax _ _ _ _ => true
  | .vmaxVx _ _ _ _ _ => true
  | .vcmp _ _ _ _ _ => true
  | .vcmpVx _ _ _ _ _ _ => true
  | .vsgn _ _ _ _ _ => true
  | .vsgnVx _ _ _ _ _ _ => true
  | .vred _ _ _ _ _ => true
  | .vredVx _ _ _ _ _ _ => true
  | .vscan _ _ _ _ _ => true
  | .vscanVx _ _ _ _ _ _ => true
  | .vexp2 _ _ _ _ => true
  | .vexp2Vx _ _ _ _ _ => true
  | .vlog2 _ _ _ _ => true
  | .vlog2Vx _ _ _ _ _ => true
  | .vrcp _ _ _ _ => true
  | .vrcpVx _ _ _ _ _ => true
  | .vrsq _ _ _ _ => true
  | .vrsqVx _ _ _ _ _ => true
  | .viadd _ _ _ => true
  | .viaddAbcm _ _ _ _ => true
  | .viaddVx _ _ _ _ _ => true
  | .visub _ _ _ => true
  | .visubAbcm _ _ _ _ => true
  | .visubVx _ _ _ _ _ => true
  | .vimul _ _ _ => true
  | .vimulAbcm _ _ _ _ => true
  | .vimulVx _ _ _ _ _ => true
  | .vand _ _ _ => true
  | .vandAbcm _ _ _ _ => true
  | .vandVx _ _ _ _ _ => true
  | .vor _ _ _ => true
  | .vorAbcm _ _ _ _ => true
  | .vorVx _ _ _ _ _ => true
  | .vxor _ _ _ => true
  | .vxorAbcm _ _ _ _ => true
  | .vxorVx _ _ _ _ _ => true
  | .vshl _ _ _ => true
  | .vshlAbcm _ _ _ _ => true
  | .vshlVx _ _ _ _ _ => true
  | .vshr _ _ _ => true
  | .vshrAbcm _ _ _ _ => true
  | .vshrVx _ _ _ _ _ => true
  | .vsel _ _ _ _ _ => true
  | .vselVx _ _ _ _ _ _ => true
  | .vperm _ _ _ _ _ => true
  | .vpermVx _ _ _ _ _ _ => true
  | .vbcast _ _ _ => true
  | .vbcastVx _ _ _ _ => true
  | .vslide _ _ _ _ _ => true
  | .vslideVx _ _ _ _ _ _ => true
  | .vcmpr _ _ _ _ => true
  | .vexpd _ _ _ _ => true
  | .viota _ _ _ _ => true
  | .vlane _ _ _ _ _ _ => true
  | .vcvt _ _ _ _ _ _ _ => true
  | .vcvtVx _ _ _ _ _ _ _ _ => true
  | .vunpk _ _ _ _ _ _ => true
  | .vunpkVx _ _ _ _ _ _ _ => true
  | .vpack _ _ _ _ _ _ _ => true
  | .vpackVx _ _ _ _ _ _ _ _ => true
  | .vscale _ _ _ _ _ _ _ => true
  | .vscaleVx _ _ _ _ _ _ _ _ => true
  | .vamax _ _ _ => true
  | .vamaxVx _ _ _ _ => true
  | .bfly _ _ _ _ _ _ => true
  | .bflyVx _ _ _ _ _ _ _ => true
  | .twid _ _ _ _ _ => true
  | .twidVx _ _ _ _ _ _ => true
  | .cmul _ _ _ _ _ _ => true
  | .cmulVx _ _ _ _ _ _ _ => true
  | .vtrig _ _ _ _ _ => true
  | .vtrigVx _ _ _ _ _ _ => true
  | .vtanh _ _ _ _ => true
  | .vtanhVx _ _ _ _ _ => true
  | .mlog _ _ _ _ => true
  | .mpop _ _ _ => true
  | .sbind _ _ => true
  | .sunb _ => true
  | .sqry _ _ => true
  | .pour _ _ => true
  | .bari _ _ _ _ => true
  | .barx _ _ _ _ => true
  | .barw _ _ _ _ => true
  | .pourq _ _ => true
  | .hndq _ _ => true
  | .pload _ _ _ _ => true
  | .pswap => true
  | .prun _ _ _ _ => true
  | .paccReg _ _ => true
  | .paccMem _ _ _ _ _ _ => true
  | .ptest _ => true
  | .ptestStamp _ _ => true
  | .pqry _ => true
  | .gsort _ _ _ _ => true
  | .gqry _ => true
  | .send _ _ => true
  | .sendm _ _ => true
  | .spawn _ _ _ _ => true
  | .launch _ => true
  | .stealc _ _ _ => true
  | .ltcfg _ _ => true
  | .ltlink _ _ _ _ => true
  | .ltsend _ _ _ _ => true
  | .ltclk _ => true
  | .ltdrip _ _ _ => true
  | .ltqry _ _ => true
  | .gang _ _ _ => true
  | .disb => true
  | .coll _ _ => true
  | .collw _ _ => true
  | .getc _ _ => true
  | .setc _ _ => true
  | .time _ => true
  | .cyc _ => true
  | .eret _ => true
  | .bkpt _ => true
  | .trace _ _ => true
  | .enrg _ => true
  | .illop _ => false
  | .sequentialFlowBadtgt _ => false
  | .releaseEntries _ => false
  | .landEntry _ => false
  | .entryAck _ => false
  | .commit _ => false
  | .commitNoticeServe _ => false
  | .commitComplete _ => false
  | .abortNoticeServe _ => false
  | .requestServe _ => false
  | .replyArrival _ => false
  | .resultDelivery _ _ => false
  | .pageWalk _ _ => false
  | .retransmitTimeout _ => false
  | .strike _ _ => false
  | .strikeReport _ => false
  | .budgetExhausted _ => false
  | .dispatch _ => false
  | .stealAttempt _ _ => false
  | .stealWaitExpiry _ => false
  | .park _ => false
  | .watchReady _ _ => false
  | .waitmRetest _ => false
  | .trapHandlerDispatch _ => false
  | .trapRingResume _ => false
  | .ploadExecute _ => false
  | .pswapExecute _ => false
  | .prunFinish _ => false
  | .ptestFinish _ => false
  | .grinderSliceFinish _ => false
  | .engineCompletion _ _ => false
  | .enginePreimageFree _ _ => false
  | .pourStart _ _ => false
  | .pourFlitLand _ _ _ => false
  | .pourReceiverCompletion _ _ _ => false
  | .streamFill _ _ => false
  | .gangForm _ => false
  | .gangWaitTimeout _ => false
  | .dripLand _ => false
  | .idleAdvance _ => false
  | .idleDripPeriod _ => false
  | .releaseMark _ => false
  | .waveStart _ _ => false
  | .waveCombine _ _ => false
  | .doneBlockWrite _ _ => false
  | .taskRecordPush _ _ => false
  | .leaseDrained _ _ => false
  | .leaseLoaded _ _ => false
  | .scrub _ _ => false
  | .flitReceive _ _ => false
  | .linkReplay _ _ => false
  | .portTrain _ _ _ => false
  | .timeExchange _ _ _ _ => false
  | .collContribute _ _ => false
  | .collCombine _ _ => false
  | .collResultLand _ _ => false
  | .collOutputExpiry _ _ => false
  | .config _ => false
  | .loadsh _ => false
  | .spillsh _ => false
  | .swap _ => false
  | .swapSettle _ => false
  | .swapEnter _ => false
  | .rowReloadDone _ _ => false
  | .halt _ => false
  | .haltRecordWrite _ => false
  | .resume _ => false
  | .step _ => false
  | .stepDone _ => false
  | .kill _ => false
  | .revoke _ => false
  | .revokeDone _ => false
  | .free _ => false
  | .unknownOpcode _ => false
  | .grun _ => false
  | .gstop _ => false
  | .tagset _ => false
  | .tlbinv _ => false
  | .power _ => false
  | .graphLaunchNode _ _ => false
  | .graphCopyNode _ _ => false
  | .graphWaitNode _ _ => false
  | .graphWaitTimeout _ _ => false
  | .graphCondNode _ _ => false
  | .graphNotifyNode _ _ => false
  | .graphSignalNode _ _ => false
  | .graphEndNode _ _ => false
  | .graphNodeDone _ _ => false
  | .ringConsReread _ => false
  | .ringInterruptTimer _ => false
  | .bar2Read _ _ => false
  | .bar2Write _ _ _ => false
  | .bar2WriteRelease _ => false
  | .controlRegisterWrite _ _ => false
  | .eflgClear _ _ => false
  | .mismatchCountClear _ => false
  | .portCountClear _ _ => false
  | .debugRead _ _ _ => false
  | .debugWrite _ _ _ => false
  | .thermalTrip => false
  | .conventionalReset => false
  | .selfTestDone _ _ => false
  | .firmwareVerify _ _ => false
  | .getVersion _ => false
  | .getCapabilities _ => false
  | .negotiateAlgorithms _ => false
  | .getDigests _ => false
  | .getCertificate _ => false
  | .challenge _ => false
  | .getMeasurements _ => false
  | .commandCompletion _ => false

end Sys2Proof
end

