-- ==== Sys2Proof/Decode.lean ====
section
/-! DEFINITION. The decoder, total on any instruction, and the encoder, from the encoding tables of spec/04. -/

namespace Sys2Proof

/-- The code of a Rnd in its field. -/
def Rnd.code : Rnd → BitVec 2
  | .rne => 0
  | .rtz => 1
  | .rup => 2
  | .rdn => 3

/-- The Rnd that a code names, or none where the code is reserved. -/
def Rnd.ofCode (x : BitVec 2) : Option Rnd :=
  match x.toNat with
  | 0 => some .rne
  | 1 => some .rtz
  | 2 => some .rup
  | 3 => some .rdn
  | _ => none

/-- The code of a Scope in its field. -/
def Scope.code : Scope → BitVec 3
  | .core => 0
  | .cluster => 1
  | .die => 2
  | .package => 3
  | .domain => 4

/-- The Scope that a code names, or none where the code is reserved. -/
def Scope.ofCode (x : BitVec 3) : Option Scope :=
  match x.toNat with
  | 0 => some .core
  | 1 => some .cluster
  | 2 => some .die
  | 3 => some .package
  | 4 => some .domain
  | _ => none

/-- The code of a Cond in its field. -/
def Cond.code : Cond → BitVec 6
  | .eq => 0
  | .ne => 1
  | .lt => 2
  | .ge => 3
  | .ltn => 4
  | .gen => 5

/-- The Cond that a code names, or none where the code is reserved. -/
def Cond.ofCode (x : BitVec 6) : Option Cond :=
  match x.toNat with
  | 0 => some .eq
  | 1 => some .ne
  | 2 => some .lt
  | 3 => some .ge
  | 4 => some .ltn
  | 5 => some .gen
  | _ => none

/-- The code of a Pred in its field. -/
def Pred.code : Pred → BitVec 3
  | .eq => 0
  | .ne => 1
  | .lt => 2
  | .le => 3
  | .un => 4
  | .ord => 5

/-- The Pred that a code names, or none where the code is reserved. -/
def Pred.ofCode (x : BitVec 3) : Option Pred :=
  match x.toNat with
  | 0 => some .eq
  | 1 => some .ne
  | 2 => some .lt
  | 3 => some .le
  | 4 => some .un
  | 5 => some .ord
  | _ => none

/-- The code of a SgnOp in its field. -/
def SgnOp.code : SgnOp → BitVec 2
  | .cpy => 0
  | .neg => 1
  | .xor => 2
  | .abs => 3

/-- The SgnOp that a code names, or none where the code is reserved. -/
def SgnOp.ofCode (x : BitVec 2) : Option SgnOp :=
  match x.toNat with
  | 0 => some .cpy
  | 1 => some .neg
  | 2 => some .xor
  | 3 => some .abs
  | _ => none

/-- The code of a LogOp in its field. -/
def LogOp.code : LogOp → BitVec 2
  | .and => 0
  | .or => 1
  | .xor => 2
  | .lse => 3

/-- The LogOp that a code names, or none where the code is reserved. -/
def LogOp.ofCode (x : BitVec 2) : Option LogOp :=
  match x.toNat with
  | 0 => some .and
  | 1 => some .or
  | 2 => some .xor
  | 3 => some .lse
  | _ => none

/-- The code of a XchOp in its field. -/
def XchOp.code : XchOp → BitVec 3
  | .lookup => 0
  | .delete => 1
  | .deckey => 2

/-- The XchOp that a code names, or none where the code is reserved. -/
def XchOp.ofCode (x : BitVec 3) : Option XchOp :=
  match x.toNat with
  | 0 => some .lookup
  | 1 => some .delete
  | 2 => some .deckey
  | _ => none

/-- The code of a RedOp in its field. -/
def RedOp.code : RedOp → BitVec 3
  | .add => 0
  | .min => 1
  | .max => 2
  | .addl => 4
  | .minl => 5
  | .maxl => 6

/-- The RedOp that a code names, or none where the code is reserved. -/
def RedOp.ofCode (x : BitVec 3) : Option RedOp :=
  match x.toNat with
  | 0 => some .add
  | 1 => some .min
  | 2 => some .max
  | 4 => some .addl
  | 5 => some .minl
  | 6 => some .maxl
  | _ => none

/-- The code of a MlogOp in its field. -/
def MlogOp.code : MlogOp → BitVec 3
  | .and => 0
  | .or => 1
  | .xor => 2
  | .andn => 3
  | .not => 4
  | .ones => 5

/-- The MlogOp that a code names, or none where the code is reserved. -/
def MlogOp.ofCode (x : BitVec 3) : Option MlogOp :=
  match x.toNat with
  | 0 => some .and
  | 1 => some .or
  | 2 => some .xor
  | 3 => some .andn
  | 4 => some .not
  | 5 => some .ones
  | _ => none

/-- The code of a MpopOp in its field. -/
def MpopOp.code : MpopOp → BitVec 3
  | .pop => 0
  | .get => 1
  | .set => 2
  | .first => 3

/-- The MpopOp that a code names, or none where the code is reserved. -/
def MpopOp.ofCode (x : BitVec 3) : Option MpopOp :=
  match x.toNat with
  | 0 => some .pop
  | 1 => some .get
  | 2 => some .set
  | 3 => some .first
  | _ => none

/-- The code of a Cw in its field. -/
def Cw.code : Cw → BitVec 6
  | .tid => 0
  | .wid => 1
  | .msg => 2
  | .flg => 3
  | .amx => 4
  | .sts => 5
  | .bud => 6
  | .mix => 7
  | .mode => 8

/-- The Cw that a code names, or none where the code is reserved. -/
def Cw.ofCode (x : BitVec 6) : Option Cw :=
  match x.toNat with
  | 0 => some .tid
  | 1 => some .wid
  | 2 => some .msg
  | 3 => some .flg
  | 4 => some .amx
  | 5 => some .sts
  | 6 => some .bud
  | 7 => some .mix
  | 8 => some .mode
  | _ => none

/-- The code of a Ty in its field. -/
def Ty.code : Ty → BitVec 5
  | .i64 => 0
  | .i32 => 1
  | .i16 => 2
  | .i8 => 3
  | .n64 => 4
  | .n32 => 5
  | .n16 => 6
  | .n8 => 7
  | .i4 => 8
  | .f64 => 16
  | .f32 => 17
  | .bf16 => 18
  | .f16 => 19
  | .e4m3 => 20
  | .e5m2 => 21
  | .e3m2 => 22
  | .e2m3 => 23
  | .e2m1 => 24
  | .ds8 => 25
  | .e8m0 => 26

/-- The Ty that a code names, or none where the code is reserved. -/
def Ty.ofCode (x : BitVec 5) : Option Ty :=
  match x.toNat with
  | 0 => some .i64
  | 1 => some .i32
  | 2 => some .i16
  | 3 => some .i8
  | 4 => some .n64
  | 5 => some .n32
  | 6 => some .n16
  | 7 => some .n8
  | 8 => some .i4
  | 16 => some .f64
  | 17 => some .f32
  | 18 => some .bf16
  | 19 => some .f16
  | 20 => some .e4m3
  | 21 => some .e5m2
  | 22 => some .e3m2
  | 23 => some .e2m3
  | 24 => some .e2m1
  | 25 => some .ds8
  | 26 => some .e8m0
  | _ => none

/-- A head and its tail, byte by byte (spec/04 R88, R91). Bytes beyond the tail length are zero (R101). -/
structure Raw where
  opc  : BitVec 8
  tlen : BitVec 2
  dst  : BitVec 6
  b0 : Byte
  b1 : Byte
  b2 : Byte
  b3 : Byte
  b4 : Byte
  b5 : Byte
deriving DecidableEq, Repr

/-- The encoding word of spec/04 R101: the head in bits 15:0, tail byte 0 in bits 23:16. -/
def Raw.enc (r : Raw) : W64 :=
  r.b5 ++ r.b4 ++ r.b3 ++ r.b2 ++ r.b1 ++ r.b0 ++ r.opc ++ (r.tlen ++ r.dst)

/-- The head and tail that an encoding word holds; tail bytes beyond the tail length read zero. -/
def Raw.ofEnc (w : W64) : Raw :=
  let t := w.extractLsb' 6 2
  let byte := fun (k : Nat) => if k < 2 * t.toNat then w.extractLsb' (16 + 8 * k) 8 else 0
  ⟨w.extractLsb' 8 8, t, w.extractLsb' 0 6, byte 0, byte 1, byte 2, byte 3, byte 4, byte 5⟩

/-- What the decoder answers: a step, ILLOP, or RESV with the mask of spec/04 R101. -/
inductive Decoded where
  | instr (i : Instr)
  | illop
  | resv (mask : W64)
deriving DecidableEq, Repr

/-- Checks 3 and 4 of spec/04 R100, in order: the offending bits of each, in the layout of R101. -/
def gate (bad3 bad4 : W64) (i : Instr) : Decoded :=
  if bad3 ≠ 0 then .resv bad3 else if bad4 ≠ 0 then .resv bad4 else .instr i

/-- The first of two conditions that has failed. -/
def orElse (x y : W64) : W64 := if x ≠ 0 then x else y

/-- A tail length that the instruction does not accept (spec/04 R100, R101). -/
def badTlen : Decoded := .resv 0xC0

/-- The bits m of tail byte k, in the layout of spec/04 R101. -/
def atByte (k : Nat) (m : Byte) : W64 := (m.zeroExtend 64) <<< (16 + 8 * k)

/-- Reserved bits m of tail byte k that are not zero (spec/04 R92). -/
def rzByte (k : Nat) (b m : Byte) : W64 := atByte k (b &&& m)

/-- Reserved bits m of DST that are not zero. -/
def rzDst (d m : BitVec 6) : W64 := (d &&& m).zeroExtend 64

/-- Every bit of a field when its code is reserved (spec/04 R101). -/
def codeBad (ok : Bool) (field : W64) : W64 := if ok then 0 else field

/-- The operand byte of a source register (spec/04 R90). -/
def SrcN.ofByte (n : Nat) (b : Byte) : SrcN n := ⟨b.getLsbD 7, b.getLsbD 6, b.setWidth n⟩
def Src.byte (s : Src) : Byte := BitVec.ofBool s.last ++ BitVec.ofBool s.trap ++ s.reg
def VSrc.byte (s : VSrc) : Byte := BitVec.ofBool s.last ++ BitVec.ofBool s.trap ++ (0#1 ++ s.reg)
def MSrc.byte (s : MSrc) : Byte := BitVec.ofBool s.last ++ BitVec.ofBool s.trap ++ (0#3 ++ s.reg)

/-- The mask control byte (spec/08 R194). -/
def VMask.ofByte (b : Byte) : VMask := ⟨b.getLsbD 5, b.getLsbD 4, b.getLsbD 3, b.setWidth 3⟩
def VMask.byte (k : VMask) : Byte :=
  0#2 ++ BitVec.ofBool k.men ++ BitVec.ofBool k.mz ++ BitVec.ofBool k.minv ++ k.mreg

/-- The type named by bits 4:0 of a byte; the checks refuse a reserved code before it is used. -/
def tyOf (b : Byte) : Ty := (Ty.ofCode (b.setWidth 5)).getD .i64
def tyOk (b : Byte) (p : Ty → Bool) : Bool := (Ty.ofCode (b.setWidth 5)).elim false p
def rndOf (b : Byte) : Rnd := (Rnd.ofCode (b.extractLsb' 6 2)).getD .rne
def scopeOf (b : Byte) : Scope := (Scope.ofCode (b.extractLsb' 5 3)).getD .cluster
def scopeOk (b : Byte) : Bool := (Scope.ofCode (b.extractLsb' 5 3)).isSome

/-- The head number of a target field whose first byte is lo (spec/04 R86). -/
def tgtOf (lo hi : Byte) : BitVec 14 := hi.setWidth 6 ++ lo

/-- Row 0x0_ of the opcode map (spec/04 R103). -/
def decodeRow0 (r : Raw) : Decoded :=
  match r.opc.toNat with
  | 0x01 => match r.tlen.toNat with
    | 0 => gate (rzDst r.dst 0x3F) (0) (.nop)
    | _ => badTlen
  | 0x02 => match r.tlen.toNat with
    | 2 => gate (rzDst r.dst 0x3F ||| rzByte 1 r.b1 0xC0 ||| rzByte 2 r.b2 0xFF ||| rzByte 3 r.b3 0xFF) (0) (.jmp (tgtOf r.b0 r.b1))
    | _ => badTlen
  | 0x03 => match r.tlen.toNat with
    | 1 => gate (rzDst r.dst 0x3F ||| rzByte 1 r.b1 0xFF) (0) (.jmpr (SrcN.ofByte 6 r.b0))
    | _ => badTlen
  | 0x04 => match r.tlen.toNat with
    | 2 => gate (rzDst r.dst 0x3F ||| rzByte 1 r.b1 0xC0 ||| rzByte 2 r.b2 0xFF ||| rzByte 3 r.b3 0xFF) (0) (.call (tgtOf r.b0 r.b1))
    | _ => badTlen
  | 0x05 => match r.tlen.toNat with
    | 1 => gate (rzDst r.dst 0x3F ||| rzByte 1 r.b1 0xFF) (0) (.callr (SrcN.ofByte 6 r.b0))
    | _ => badTlen
  | 0x06 => match r.tlen.toNat with
    | 1 => gate (rzDst r.dst 0x3F ||| rzByte 1 r.b1 0xFF) (0) (.ret (SrcN.ofByte 6 r.b0))
    | _ => badTlen
  | 0x07 => match r.tlen.toNat with
    | 3 => gate (rzByte 3 r.b3 0xC0 ||| rzByte 4 r.b4 0xFF ||| rzByte 5 r.b5 0xFF ||| codeBad ((Cond.ofCode r.dst).isSome) (0x3F)) (0) (.br ((Cond.ofCode r.dst).getD .eq) (SrcN.ofByte 6 r.b0) (SrcN.ofByte 6 r.b1) (tgtOf r.b2 r.b3))
    | _ => badTlen
  | 0x08 => match r.tlen.toNat with
    | 3 => gate (rzByte 3 r.b3 0xC0 ||| rzByte 4 r.b4 0xFF ||| rzByte 5 r.b5 0xFF ||| codeBad ((Cond.ofCode r.dst).isSome) (0x3F)) (0) (.bri ((Cond.ofCode r.dst).getD .eq) (SrcN.ofByte 6 r.b0) (r.b1) (tgtOf r.b2 r.b3))
    | _ => badTlen
  | 0x09 => match r.tlen.toNat with
    | 2 => gate (rzByte 1 r.b1 0xC0 ||| rzByte 2 r.b2 0xFF ||| rzByte 3 r.b3 0xFF ||| codeBad ((r.dst.setWidth 3).ule 4 && r.dst.ult 16) (0x3F)) (0) (.bst (⟨r.dst.setWidth 3, r.dst.getLsbD 3⟩) (tgtOf r.b0 r.b1))
    | _ => badTlen
  | 0x0A => match r.tlen.toNat with
    | 3 => gate (rzByte 1 r.b1 0xFF ||| rzByte 3 r.b3 0xC0 ||| rzByte 4 r.b4 0xFF ||| rzByte 5 r.b5 0xFF) (0) (.loop (r.dst) (SrcN.ofByte 6 r.b0) (tgtOf r.b2 r.b3))
    | _ => badTlen
  | 0x0B => match r.tlen.toNat with
    | 0 => gate (rzDst r.dst 0x3F) (0) (.endAct)
    | _ => badTlen
  | 0x0C => match r.tlen.toNat with
    | 0 => gate (rzDst r.dst 0x3F) (0) (.phase)
    | _ => badTlen
  | 0x0D => match r.tlen.toNat with
    | 0 => gate (rzDst r.dst 0x3F) (0) (.yield)
    | _ => badTlen
  | 0x0E => match r.tlen.toNat with
    | 1 => gate (rzDst r.dst 0x3F ||| rzByte 1 r.b1 0xFF) (0) (.migr (SrcN.ofByte 6 r.b0))
    | _ => badTlen
  | 0x0F => match r.tlen.toNat with
    | 0 => gate (0) (0) (.trap (r.dst))
    | 1 => gate (rzByte 1 r.b1 0xFF) (0) (.trapReg (r.dst) (SrcN.ofByte 6 r.b0))
    | _ => badTlen
  | _ => .illop

/-- Row 0x1_ of the opcode map (spec/04 R103). -/
def decodeRow1 (r : Raw) : Decoded :=
  match r.opc.toNat with
  | 0x10 => match r.tlen.toNat with
    | 1 => gate (0) (0) (.add (r.dst) (SrcN.ofByte 6 r.b0) (SrcN.ofByte 6 r.b1))
    | 2 => gate (rzByte 2 r.b2 0xFF ||| rzByte 3 r.b3 0xE0 ||| codeBad (tyOk r.b3 Ty.isInt) (atByte 3 0x1F)) (0) (.addAbcm (r.dst) (SrcN.ofByte 6 r.b0) (SrcN.ofByte 6 r.b1) (tyOf r.b3))
    | _ => badTlen
  | 0x11 => match r.tlen.toNat with
    | 1 => gate (0) (0) (.sub (r.dst) (SrcN.ofByte 6 r.b0) (SrcN.ofByte 6 r.b1))
    | 2 => gate (rzByte 2 r.b2 0xFF ||| rzByte 3 r.b3 0xE0 ||| codeBad (tyOk r.b3 Ty.isInt) (atByte 3 0x1F)) (0) (.subAbcm (r.dst) (SrcN.ofByte 6 r.b0) (SrcN.ofByte 6 r.b1) (tyOf r.b3))
    | _ => badTlen
  | 0x12 => match r.tlen.toNat with
    | 1 => gate (0) (0) (.mul (r.dst) (SrcN.ofByte 6 r.b0) (SrcN.ofByte 6 r.b1))
    | 2 => gate (rzByte 2 r.b2 0xFF ||| rzByte 3 r.b3 0xE0 ||| codeBad (tyOk r.b3 Ty.isInt) (atByte 3 0x1F)) (0) (.mulAbcm (r.dst) (SrcN.ofByte 6 r.b0) (SrcN.ofByte 6 r.b1) (tyOf r.b3))
    | _ => badTlen
  | 0x13 => match r.tlen.toNat with
    | 1 => gate (0) (0) (.mulh (r.dst) (SrcN.ofByte 6 r.b0) (SrcN.ofByte 6 r.b1))
    | 2 => gate (rzByte 2 r.b2 0xFF ||| rzByte 3 r.b3 0xE0 ||| codeBad (tyOk r.b3 Ty.isInt) (atByte 3 0x1F)) (0) (.mulhAbcm (r.dst) (SrcN.ofByte 6 r.b0) (SrcN.ofByte 6 r.b1) (tyOf r.b3))
    | _ => badTlen
  | 0x14 => match r.tlen.toNat with
    | 1 => gate (0) (0) (.div (r.dst) (SrcN.ofByte 6 r.b0) (SrcN.ofByte 6 r.b1))
    | 2 => gate (rzByte 2 r.b2 0xFF ||| rzByte 3 r.b3 0xE0 ||| codeBad (tyOk r.b3 Ty.isInt) (atByte 3 0x1F)) (0) (.divAbcm (r.dst) (SrcN.ofByte 6 r.b0) (SrcN.ofByte 6 r.b1) (tyOf r.b3))
    | _ => badTlen
  | 0x15 => match r.tlen.toNat with
    | 1 => gate (0) (0) (.rem (r.dst) (SrcN.ofByte 6 r.b0) (SrcN.ofByte 6 r.b1))
    | 2 => gate (rzByte 2 r.b2 0xFF ||| rzByte 3 r.b3 0xE0 ||| codeBad (tyOk r.b3 Ty.isInt) (atByte 3 0x1F)) (0) (.remAbcm (r.dst) (SrcN.ofByte 6 r.b0) (SrcN.ofByte 6 r.b1) (tyOf r.b3))
    | _ => badTlen
  | 0x16 => match r.tlen.toNat with
    | 1 => gate (0) (0) (.and (r.dst) (SrcN.ofByte 6 r.b0) (SrcN.ofByte 6 r.b1))
    | 2 => gate (rzByte 2 r.b2 0xFF ||| rzByte 3 r.b3 0xE0 ||| codeBad (tyOk r.b3 Ty.isInt) (atByte 3 0x1F)) (0) (.andAbcm (r.dst) (SrcN.ofByte 6 r.b0) (SrcN.ofByte 6 r.b1) (tyOf r.b3))
    | _ => badTlen
  | 0x17 => match r.tlen.toNat with
    | 1 => gate (0) (0) (.or (r.dst) (SrcN.ofByte 6 r.b0) (SrcN.ofByte 6 r.b1))
    | 2 => gate (rzByte 2 r.b2 0xFF ||| rzByte 3 r.b3 0xE0 ||| codeBad (tyOk r.b3 Ty.isInt) (atByte 3 0x1F)) (0) (.orAbcm (r.dst) (SrcN.ofByte 6 r.b0) (SrcN.ofByte 6 r.b1) (tyOf r.b3))
    | _ => badTlen
  | 0x18 => match r.tlen.toNat with
    | 1 => gate (0) (0) (.xor (r.dst) (SrcN.ofByte 6 r.b0) (SrcN.ofByte 6 r.b1))
    | 2 => gate (rzByte 2 r.b2 0xFF ||| rzByte 3 r.b3 0xE0 ||| codeBad (tyOk r.b3 Ty.isInt) (atByte 3 0x1F)) (0) (.xorAbcm (r.dst) (SrcN.ofByte 6 r.b0) (SrcN.ofByte 6 r.b1) (tyOf r.b3))
    | _ => badTlen
  | 0x19 => match r.tlen.toNat with
    | 1 => gate (0) (0) (.shl (r.dst) (SrcN.ofByte 6 r.b0) (SrcN.ofByte 6 r.b1))
    | 2 => gate (rzByte 2 r.b2 0xFF ||| rzByte 3 r.b3 0xE0 ||| codeBad (tyOk r.b3 Ty.isInt) (atByte 3 0x1F)) (0) (.shlAbcm (r.dst) (SrcN.ofByte 6 r.b0) (SrcN.ofByte 6 r.b1) (tyOf r.b3))
    | _ => badTlen
  | 0x1A => match r.tlen.toNat with
    | 1 => gate (0) (0) (.shr (r.dst) (SrcN.ofByte 6 r.b0) (SrcN.ofByte 6 r.b1))
    | 2 => gate (rzByte 2 r.b2 0xFF ||| rzByte 3 r.b3 0xE0 ||| codeBad (tyOk r.b3 Ty.isInt) (atByte 3 0x1F)) (0) (.shrAbcm (r.dst) (SrcN.ofByte 6 r.b0) (SrcN.ofByte 6 r.b1) (tyOf r.b3))
    | _ => badTlen
  | 0x1B => match r.tlen.toNat with
    | 1 => gate (0) (0) (.rot (r.dst) (SrcN.ofByte 6 r.b0) (SrcN.ofByte 6 r.b1))
    | 2 => gate (rzByte 2 r.b2 0xFF ||| rzByte 3 r.b3 0xE0 ||| codeBad (tyOk r.b3 Ty.isInt) (atByte 3 0x1F)) (0) (.rotAbcm (r.dst) (SrcN.ofByte 6 r.b0) (SrcN.ofByte 6 r.b1) (tyOf r.b3))
    | _ => badTlen
  | 0x1C => match r.tlen.toNat with
    | 1 => gate (0) (0) (.min (r.dst) (SrcN.ofByte 6 r.b0) (SrcN.ofByte 6 r.b1))
    | 2 => gate (rzByte 2 r.b2 0xFF ||| rzByte 3 r.b3 0xE0 ||| codeBad (tyOk r.b3 Ty.isInt) (atByte 3 0x1F)) (0) (.minAbcm (r.dst) (SrcN.ofByte 6 r.b0) (SrcN.ofByte 6 r.b1) (tyOf r.b3))
    | _ => badTlen
  | 0x1D => match r.tlen.toNat with
    | 1 => gate (0) (0) (.max (r.dst) (SrcN.ofByte 6 r.b0) (SrcN.ofByte 6 r.b1))
    | 2 => gate (rzByte 2 r.b2 0xFF ||| rzByte 3 r.b3 0xE0 ||| codeBad (tyOk r.b3 Ty.isInt) (atByte 3 0x1F)) (0) (.maxAbcm (r.dst) (SrcN.ofByte 6 r.b0) (SrcN.ofByte 6 r.b1) (tyOf r.b3))
    | _ => badTlen
  | 0x1E => match r.tlen.toNat with
    | 1 => gate (0) (0) (.slt (r.dst) (SrcN.ofByte 6 r.b0) (SrcN.ofByte 6 r.b1))
    | 2 => gate (rzByte 2 r.b2 0xFF ||| rzByte 3 r.b3 0xE0 ||| codeBad (tyOk r.b3 Ty.isInt) (atByte 3 0x1F)) (0) (.sltAbcm (r.dst) (SrcN.ofByte 6 r.b0) (SrcN.ofByte 6 r.b1) (tyOf r.b3))
    | _ => badTlen
  | 0x1F => match r.tlen.toNat with
    | 2 => gate (rzByte 3 r.b3 0xE0 ||| codeBad (r.b3 &&& 0x1F == 0) (atByte 3 0x1F)) (0) (.sel (r.dst) (SrcN.ofByte 6 r.b0) (SrcN.ofByte 6 r.b1) (SrcN.ofByte 6 r.b2))
    | _ => badTlen
  | _ => .illop

/-- Row 0x2_ of the opcode map (spec/04 R103). -/
def decodeRow2 (r : Raw) : Decoded :=
  match r.opc.toNat with
  | 0x20 => match r.tlen.toNat with
    | 2 => gate (0) (0) (.addi (r.dst) (SrcN.ofByte 6 r.b0) (r.b3 ++ r.b2 ++ r.b1))
    | 3 => gate (rzByte 1 r.b1 0xFF) (0) (.addiAbi32 (r.dst) (SrcN.ofByte 6 r.b0) (r.b5 ++ r.b4 ++ r.b3 ++ r.b2))
    | _ => badTlen
  | 0x21 => match r.tlen.toNat with
    | 2 => gate (0) (0) (.andi (r.dst) (SrcN.ofByte 6 r.b0) (r.b3 ++ r.b2 ++ r.b1))
    | 3 => gate (rzByte 1 r.b1 0xFF) (0) (.andiAbi32 (r.dst) (SrcN.ofByte 6 r.b0) (r.b5 ++ r.b4 ++ r.b3 ++ r.b2))
    | _ => badTlen
  | 0x22 => match r.tlen.toNat with
    | 2 => gate (0) (0) (.ori (r.dst) (SrcN.ofByte 6 r.b0) (r.b3 ++ r.b2 ++ r.b1))
    | 3 => gate (rzByte 1 r.b1 0xFF) (0) (.oriAbi32 (r.dst) (SrcN.ofByte 6 r.b0) (r.b5 ++ r.b4 ++ r.b3 ++ r.b2))
    | _ => badTlen
  | 0x23 => match r.tlen.toNat with
    | 2 => gate (0) (0) (.xori (r.dst) (SrcN.ofByte 6 r.b0) (r.b3 ++ r.b2 ++ r.b1))
    | 3 => gate (rzByte 1 r.b1 0xFF) (0) (.xoriAbi32 (r.dst) (SrcN.ofByte 6 r.b0) (r.b5 ++ r.b4 ++ r.b3 ++ r.b2))
    | _ => badTlen
  | 0x24 => match r.tlen.toNat with
    | 2 => gate (rzByte 1 r.b1 0xC0 ||| rzByte 2 r.b2 0xE0 ||| rzByte 3 r.b3 0xFF ||| codeBad (tyOk r.b2 Ty.isInt) (atByte 2 0x1F)) (codeBad (decide ((r.b1.setWidth 6).toNat < (tyOf r.b2).width)) (atByte 1 0x3F)) (.shli (r.dst) (SrcN.ofByte 6 r.b0) (r.b1.setWidth 6) (tyOf r.b2))
    | _ => badTlen
  | 0x25 => match r.tlen.toNat with
    | 2 => gate (rzByte 1 r.b1 0xC0 ||| rzByte 2 r.b2 0xE0 ||| rzByte 3 r.b3 0xFF ||| codeBad (tyOk r.b2 Ty.isInt) (atByte 2 0x1F)) (codeBad (decide ((r.b1.setWidth 6).toNat < (tyOf r.b2).width)) (atByte 1 0x3F)) (.shri (r.dst) (SrcN.ofByte 6 r.b0) (r.b1.setWidth 6) (tyOf r.b2))
    | _ => badTlen
  | 0x26 => match r.tlen.toNat with
    | 2 => gate (0) (0) (.li (r.dst) (r.b3 ++ r.b2 ++ r.b1 ++ r.b0))
    | 3 => gate (0) (0) (.liI48 (r.dst) (r.b5 ++ r.b4 ++ r.b3 ++ r.b2 ++ r.b1 ++ r.b0))
    | _ => badTlen
  | 0x27 => match r.tlen.toNat with
    | 2 => gate (0) (0) (.muli (r.dst) (SrcN.ofByte 6 r.b0) (r.b3 ++ r.b2 ++ r.b1))
    | 3 => gate (rzByte 1 r.b1 0xFF) (0) (.muliAbi32 (r.dst) (SrcN.ofByte 6 r.b0) (r.b5 ++ r.b4 ++ r.b3 ++ r.b2))
    | _ => badTlen
  | 0x28 => match r.tlen.toNat with
    | 1 => gate (rzByte 1 r.b1 0xFF) (0) (.clz (r.dst) (SrcN.ofByte 6 r.b0))
    | 2 => gate (rzByte 1 r.b1 0xFF ||| rzByte 2 r.b2 0xFF ||| rzByte 3 r.b3 0xE0 ||| codeBad (tyOk r.b3 Ty.isInt) (atByte 3 0x1F)) (0) (.clzAbcm (r.dst) (SrcN.ofByte 6 r.b0) (tyOf r.b3))
    | _ => badTlen
  | 0x29 => match r.tlen.toNat with
    | 1 => gate (rzByte 1 r.b1 0xFF) (0) (.ctz (r.dst) (SrcN.ofByte 6 r.b0))
    | 2 => gate (rzByte 1 r.b1 0xFF ||| rzByte 2 r.b2 0xFF ||| rzByte 3 r.b3 0xE0 ||| codeBad (tyOk r.b3 Ty.isInt) (atByte 3 0x1F)) (0) (.ctzAbcm (r.dst) (SrcN.ofByte 6 r.b0) (tyOf r.b3))
    | _ => badTlen
  | 0x2A => match r.tlen.toNat with
    | 1 => gate (rzByte 1 r.b1 0xFF) (0) (.popc (r.dst) (SrcN.ofByte 6 r.b0))
    | 2 => gate (rzByte 1 r.b1 0xFF ||| rzByte 2 r.b2 0xFF ||| rzByte 3 r.b3 0xE0 ||| codeBad (tyOk r.b3 Ty.isInt) (atByte 3 0x1F)) (0) (.popcAbcm (r.dst) (SrcN.ofByte 6 r.b0) (tyOf r.b3))
    | _ => badTlen
  | 0x2B => match r.tlen.toNat with
    | 2 => gate (rzByte 1 r.b1 0xC0 ||| rzByte 2 r.b2 0xC0 ||| rzByte 3 r.b3 0xFE) (codeBad (decide ((r.b1.setWidth 6).toNat + (r.b2.setWidth 6).toNat < 64)) (atByte 1 0x3F ||| atByte 2 0x3F)) (.bfx (r.dst) (SrcN.ofByte 6 r.b0) (r.b1.setWidth 6) (r.b2.setWidth 6) (r.b3.getLsbD 0))
    | _ => badTlen
  | 0x2C => match r.tlen.toNat with
    | 3 => gate (rzByte 2 r.b2 0xC0 ||| rzByte 3 r.b3 0xC0 ||| rzByte 4 r.b4 0xFF ||| rzByte 5 r.b5 0xFF) (codeBad (decide ((r.b2.setWidth 6).toNat + (r.b3.setWidth 6).toNat < 64)) (atByte 2 0x3F ||| atByte 3 0x3F)) (.bfi (r.dst) (SrcN.ofByte 6 r.b0) (SrcN.ofByte 6 r.b1) (r.b2.setWidth 6) (r.b3.setWidth 6))
    | _ => badTlen
  | 0x2D => match r.tlen.toNat with
    | 2 => gate (rzByte 1 r.b1 0xF8 ||| rzByte 2 r.b2 0xFF ||| rzByte 3 r.b3 0xFF ||| codeBad (decide ((r.b1.setWidth 3) < 6)) (atByte 1 0x07)) (0) (.wfld (r.dst) (SrcN.ofByte 6 r.b0) (r.b1.setWidth 3))
    | _ => badTlen
  | 0x2E => match r.tlen.toNat with
    | 1 => gate (rzByte 1 r.b1 0xFF) (0) (.abs (r.dst) (SrcN.ofByte 6 r.b0))
    | 2 => gate (rzByte 1 r.b1 0xFF ||| rzByte 2 r.b2 0xFF ||| rzByte 3 r.b3 0xE0 ||| codeBad (tyOk r.b3 Ty.isSInt) (atByte 3 0x1F)) (0) (.absAbcm (r.dst) (SrcN.ofByte 6 r.b0) (tyOf r.b3))
    | _ => badTlen
  | _ => .illop

/-- Row 0x3_ of the opcode map (spec/04 R103). -/
def decodeRow3 (r : Raw) : Decoded :=
  match r.opc.toNat with
  | 0x30 => match r.tlen.toNat with
    | 2 => gate (rzByte 2 r.b2 0xFF ||| rzByte 3 r.b3 0x20 ||| codeBad (tyOk r.b3 Ty.isArith) (atByte 3 0x1F)) (0) (.fadd (r.dst) (SrcN.ofByte 6 r.b0) (SrcN.ofByte 6 r.b1) (rndOf r.b3) (tyOf r.b3))
    | _ => badTlen
  | 0x31 => match r.tlen.toNat with
    | 2 => gate (rzByte 2 r.b2 0xFF ||| rzByte 3 r.b3 0x20 ||| codeBad (tyOk r.b3 Ty.isArith) (atByte 3 0x1F)) (0) (.fsub (r.dst) (SrcN.ofByte 6 r.b0) (SrcN.ofByte 6 r.b1) (rndOf r.b3) (tyOf r.b3))
    | _ => badTlen
  | 0x32 => match r.tlen.toNat with
    | 2 => gate (rzByte 2 r.b2 0xFF ||| rzByte 3 r.b3 0x20 ||| codeBad (tyOk r.b3 Ty.isArith) (atByte 3 0x1F)) (0) (.fmul (r.dst) (SrcN.ofByte 6 r.b0) (SrcN.ofByte 6 r.b1) (rndOf r.b3) (tyOf r.b3))
    | _ => badTlen
  | 0x33 => match r.tlen.toNat with
    | 2 => gate (rzByte 3 r.b3 0x20 ||| codeBad (tyOk r.b3 Ty.isArith) (atByte 3 0x1F)) (0) (.ffma (r.dst) (SrcN.ofByte 6 r.b0) (SrcN.ofByte 6 r.b1) (SrcN.ofByte 6 r.b2) (rndOf r.b3) (tyOf r.b3))
    | _ => badTlen
  | 0x34 => match r.tlen.toNat with
    | 2 => gate (rzByte 2 r.b2 0xFF ||| rzByte 3 r.b3 0x20 ||| codeBad (tyOk r.b3 Ty.isArith) (atByte 3 0x1F)) (0) (.fdiv (r.dst) (SrcN.ofByte 6 r.b0) (SrcN.ofByte 6 r.b1) (rndOf r.b3) (tyOf r.b3))
    | _ => badTlen
  | 0x35 => match r.tlen.toNat with
    | 2 => gate (rzByte 1 r.b1 0xFF ||| rzByte 2 r.b2 0xFF ||| rzByte 3 r.b3 0x20 ||| codeBad (tyOk r.b3 Ty.isArith) (atByte 3 0x1F)) (0) (.fsqrt (r.dst) (SrcN.ofByte 6 r.b0) (rndOf r.b3) (tyOf r.b3))
    | _ => badTlen
  | 0x36 => match r.tlen.toNat with
    | 2 => gate (rzByte 2 r.b2 0xFF ||| rzByte 3 r.b3 0xE0 ||| codeBad (tyOk r.b3 Ty.isArith) (atByte 3 0x1F)) (0) (.fmin (r.dst) (SrcN.ofByte 6 r.b0) (SrcN.ofByte 6 r.b1) (tyOf r.b3))
    | _ => badTlen
  | 0x37 => match r.tlen.toNat with
    | 2 => gate (rzByte 2 r.b2 0xFF ||| rzByte 3 r.b3 0xE0 ||| codeBad (tyOk r.b3 Ty.isArith) (atByte 3 0x1F)) (0) (.fmax (r.dst) (SrcN.ofByte 6 r.b0) (SrcN.ofByte 6 r.b1) (tyOf r.b3))
    | _ => badTlen
  | 0x38 => match r.tlen.toNat with
    | 2 => gate (rzByte 2 r.b2 0xF8 ||| rzByte 3 r.b3 0xE0 ||| codeBad ((Pred.ofCode (r.b2.setWidth 3)).isSome) (atByte 2 0x07) ||| codeBad (tyOk r.b3 Ty.isArith) (atByte 3 0x1F)) (0) (.fcmp (r.dst) (SrcN.ofByte 6 r.b0) (SrcN.ofByte 6 r.b1) ((Pred.ofCode (r.b2.setWidth 3)).getD .eq) (tyOf r.b3))
    | _ => badTlen
  | 0x39 => match r.tlen.toNat with
    | 2 => gate (rzByte 1 r.b1 0xE0 ||| rzByte 2 r.b2 0xFF ||| codeBad (tyOk r.b1 (fun _ => true)) (atByte 1 0x1F) ||| codeBad (tyOk r.b3 (fun _ => true)) (atByte 3 0x1F)) (0) (.fcvt (r.dst) (SrcN.ofByte 6 r.b0) (tyOf r.b1) (rndOf r.b3) (r.b3.getLsbD 5) (tyOf r.b3))
    | _ => badTlen
  | 0x3A => match r.tlen.toNat with
    | 2 => gate (rzByte 1 r.b1 0xFF ||| rzByte 2 r.b2 0xFF ||| rzByte 3 r.b3 0xE0 ||| codeBad (tyOk r.b3 Ty.isArith) (atByte 3 0x1F)) (0) (.fclass (r.dst) (SrcN.ofByte 6 r.b0) (tyOf r.b3))
    | _ => badTlen
  | 0x3B => match r.tlen.toNat with
    | 2 => gate (rzByte 2 r.b2 0xFC ||| rzByte 3 r.b3 0xE0 ||| codeBad (r.b2 &&& 0x03 != 3) (atByte 2 0x03) ||| codeBad (tyOk r.b3 Ty.isArith) (atByte 3 0x1F)) (0) (.fsgn (r.dst) (SrcN.ofByte 6 r.b0) (SrcN.ofByte 6 r.b1) ((SgnOp.ofCode (r.b2.setWidth 2)).getD .cpy) (tyOf r.b3))
    | _ => badTlen
  | 0x3C => match r.tlen.toNat with
    | 2 => gate (rzByte 1 r.b1 0xFF ||| rzByte 2 r.b2 0xFE ||| rzByte 3 r.b3 0x20 ||| codeBad (tyOk r.b3 Ty.isArith) (atByte 3 0x1F)) (0) (.frnd (r.dst) (SrcN.ofByte 6 r.b0) (r.b2.getLsbD 0) (rndOf r.b3) (tyOf r.b3))
    | _ => badTlen
  | _ => .illop

/-- Row 0x4_ of the opcode map (spec/04 R103). -/
def decodeRow4 (r : Raw) : Decoded :=
  match r.opc.toNat with
  | 0x40 => match r.tlen.toNat with
    | 3 => gate (rzByte 1 r.b1 0xE0 ||| codeBad (tyOk r.b1 Ty.isMem) (atByte 1 0x1F)) (0) (.ld (r.dst) (SrcN.ofByte 6 r.b0) (tyOf r.b1) (r.b5 ++ r.b4 ++ r.b3 ++ r.b2))
    | _ => badTlen
  | 0x41 => match r.tlen.toNat with
    | 3 => gate (rzDst r.dst 0x20 ||| codeBad ((Ty.ofCode (r.dst.setWidth 5)).elim false Ty.isMem) (0x1F)) (0) (.st ((Ty.ofCode (r.dst.setWidth 5)).getD .i64) (SrcN.ofByte 6 r.b0) (SrcN.ofByte 6 r.b1) (r.b5 ++ r.b4 ++ r.b3 ++ r.b2))
    | _ => badTlen
  | 0x42 => match r.tlen.toNat with
    | 3 => gate (rzDst r.dst 0x20 ||| rzByte 1 r.b1 0xE0 ||| rzByte 5 r.b5 0xC0 ||| codeBad (tyOk r.b1 Ty.isMem) (atByte 1 0x1F) ||| codeBad (r.b5.getLsbD 5 || r.b5 &&& 0x1F == 0) (atByte 5 (r.b5 &&& 0x1F))) (0) (.ldv (r.dst.setWidth 5) (SrcN.ofByte 6 r.b0) (tyOf r.b1) (r.b4 ++ r.b3 ++ r.b2) (VMask.ofByte r.b5))
    | _ => badTlen
  | 0x43 => match r.tlen.toNat with
    | 3 => gate (rzDst r.dst 0x20 ||| rzByte 1 r.b1 0x20 ||| rzByte 5 r.b5 0xC0 ||| codeBad ((Ty.ofCode (r.dst.setWidth 5)).elim false Ty.isMem) (0x1F) ||| codeBad (r.b5.getLsbD 5 || r.b5 &&& 0x1F == 0) (atByte 5 (r.b5 &&& 0x1F))) (0) (.stv ((Ty.ofCode (r.dst.setWidth 5)).getD .i64) (SrcN.ofByte 6 r.b0) (SrcN.ofByte 5 r.b1) (r.b4 ++ r.b3 ++ r.b2) (VMask.ofByte r.b5))
    | _ => badTlen
  | 0x44 => match r.tlen.toNat with
    | 2 => gate (rzByte 1 r.b1 0xFF ||| rzByte 2 r.b2 0xFF ||| codeBad (scopeOk r.b3) (atByte 3 0xE0) ||| codeBad (tyOk r.b3 Ty.isMem) (atByte 3 0x1F)) (0) (.lds (r.dst) (SrcN.ofByte 6 r.b0) (scopeOf r.b3) (tyOf r.b3))
    | _ => badTlen
  | 0x45 => match r.tlen.toNat with
    | 2 => gate (rzDst r.dst 0x3F ||| rzByte 2 r.b2 0xFF ||| codeBad (scopeOk r.b3) (atByte 3 0xE0) ||| codeBad (tyOk r.b3 Ty.isMem) (atByte 3 0x1F)) (0) (.sts (SrcN.ofByte 6 r.b0) (SrcN.ofByte 6 r.b1) (scopeOf r.b3) (tyOf r.b3))
    | _ => badTlen
  | 0x46 => match r.tlen.toNat with
    | 2 => gate (rzByte 2 r.b2 0xFF ||| codeBad (scopeOk r.b3) (atByte 3 0xE0) ||| codeBad (tyOk r.b3 Ty.isAmo) (atByte 3 0x1F)) (0) (.aadd (r.dst) (SrcN.ofByte 6 r.b0) (SrcN.ofByte 6 r.b1) (scopeOf r.b3) (tyOf r.b3))
    | _ => badTlen
  | 0x47 => match r.tlen.toNat with
    | 2 => gate (rzByte 2 r.b2 0xFE ||| codeBad (scopeOk r.b3) (atByte 3 0xE0) ||| codeBad (tyOk r.b3 Ty.isAmo) (atByte 3 0x1F)) (0) (.amnx (r.dst) (SrcN.ofByte 6 r.b0) (SrcN.ofByte 6 r.b1) (r.b2.getLsbD 0) (scopeOf r.b3) (tyOf r.b3))
    | _ => badTlen
  | 0x48 => match r.tlen.toNat with
    | 2 => gate (rzByte 2 r.b2 0xFC ||| codeBad (scopeOk r.b3) (atByte 3 0xE0) ||| codeBad (tyOk r.b3 Ty.isAmo) (atByte 3 0x1F) ||| codeBad (logTyOk ((LogOp.ofCode (r.b2.setWidth 2)).getD .and) (tyOf r.b3)) (atByte 3 0x1F)) (0) (.alog (r.dst) (SrcN.ofByte 6 r.b0) (SrcN.ofByte 6 r.b1) ((LogOp.ofCode (r.b2.setWidth 2)).getD .and) (scopeOf r.b3) (tyOf r.b3))
    | _ => badTlen
  | 0x49 => match r.tlen.toNat with
    | 2 => gate (rzByte 2 r.b2 0xFF ||| codeBad (scopeOk r.b3) (atByte 3 0xE0) ||| codeBad (tyOk r.b3 Ty.isAmo) (atByte 3 0x1F)) (0) (.aswp (r.dst) (SrcN.ofByte 6 r.b0) (SrcN.ofByte 6 r.b1) (scopeOf r.b3) (tyOf r.b3))
    | _ => badTlen
  | 0x4A => match r.tlen.toNat with
    | 2 => gate (codeBad (scopeOk r.b3) (atByte 3 0xE0) ||| codeBad (tyOk r.b3 Ty.isAmo) (atByte 3 0x1F)) (0) (.acas (r.dst) (SrcN.ofByte 6 r.b0) (SrcN.ofByte 6 r.b1) (SrcN.ofByte 6 r.b2) (scopeOf r.b3) (tyOf r.b3))
    | _ => badTlen
  | 0x4B => match r.tlen.toNat with
    | 2 => gate (rzByte 2 r.b2 0xF8 ||| codeBad ((Cond.ofCode ((r.b2.setWidth 3).zeroExtend 6)).isSome) (atByte 2 0x07) ||| codeBad (scopeOk r.b3) (atByte 3 0xE0) ||| codeBad (tyOk r.b3 Ty.isInt) (atByte 3 0x1F)) (0) (.waitm (r.dst) (SrcN.ofByte 6 r.b0) (SrcN.ofByte 6 r.b1) ((Cond.ofCode ((r.b2.setWidth 3).zeroExtend 6)).getD .eq) (scopeOf r.b3) (tyOf r.b3))
    | _ => badTlen
  | 0x4C => match r.tlen.toNat with
    | 0 => gate (rzDst r.dst 0x3F) (0) (.loopf)
    | _ => badTlen
  | 0x4D => match r.tlen.toNat with
    | 2 => gate (rzDst r.dst 0x20 ||| rzByte 1 r.b1 0x20 ||| rzByte 2 r.b2 0xFF ||| rzByte 3 r.b3 0xE0 ||| codeBad (tyOk r.b3 Ty.isMem) (atByte 3 0x1F)) (0) (.gath (r.dst.setWidth 5) (SrcN.ofByte 6 r.b0) (SrcN.ofByte 5 r.b1) (tyOf r.b3))
    | 3 => gate (rzDst r.dst 0x20 ||| rzByte 1 r.b1 0x20 ||| rzByte 2 r.b2 0xFF ||| rzByte 3 r.b3 0xE0 ||| rzByte 4 r.b4 0xC0 ||| rzByte 5 r.b5 0xFF ||| codeBad (tyOk r.b3 Ty.isMem) (atByte 3 0x1F) ||| codeBad (r.b4.getLsbD 5 || r.b4 &&& 0x1F == 0) (atByte 4 (r.b4 &&& 0x1F))) (0) (.gathVx (r.dst.setWidth 5) (SrcN.ofByte 6 r.b0) (SrcN.ofByte 5 r.b1) (tyOf r.b3) (VMask.ofByte r.b4))
    | _ => badTlen
  | 0x4E => match r.tlen.toNat with
    | 2 => gate (rzDst r.dst 0x3F ||| rzByte 1 r.b1 0x20 ||| rzByte 2 r.b2 0x20 ||| rzByte 3 r.b3 0xE0 ||| codeBad (tyOk r.b3 Ty.isMem) (atByte 3 0x1F)) (0) (.scat (SrcN.ofByte 6 r.b0) (SrcN.ofByte 5 r.b1) (SrcN.ofByte 5 r.b2) (tyOf r.b3))
    | 3 => gate (rzDst r.dst 0x3F ||| rzByte 1 r.b1 0x20 ||| rzByte 2 r.b2 0x20 ||| rzByte 3 r.b3 0xE0 ||| rzByte 4 r.b4 0xC0 ||| rzByte 5 r.b5 0xFF ||| codeBad (tyOk r.b3 Ty.isMem) (atByte 3 0x1F) ||| codeBad (r.b4.getLsbD 5 || r.b4 &&& 0x1F == 0) (atByte 4 (r.b4 &&& 0x1F))) (0) (.scatVx (SrcN.ofByte 6 r.b0) (SrcN.ofByte 5 r.b1) (SrcN.ofByte 5 r.b2) (tyOf r.b3) (VMask.ofByte r.b4))
    | _ => badTlen
  | _ => .illop

/-- Row 0x5_ of the opcode map (spec/04 R103). -/
def decodeRow5 (r : Raw) : Decoded :=
  match r.opc.toNat with
  | 0x50 => match r.tlen.toNat with
    | 1 => gate (0) (0) (.bcfg (r.dst) (SrcN.ofByte 6 r.b0) (SrcN.ofByte 6 r.b1))
    | _ => badTlen
  | 0x51 => match r.tlen.toNat with
    | 1 => gate (rzByte 1 r.b1 0xFF) (0) (.bqry (r.dst) (SrcN.ofByte 6 r.b0))
    | _ => badTlen
  | 0x52 => match r.tlen.toNat with
    | 3 => gate (rzByte 2 r.b2 0xF8 ||| rzByte 3 r.b3 0xFF ||| rzByte 4 r.b4 0xFF ||| rzByte 5 r.b5 0xFF ||| codeBad ((XchOp.ofCode (r.b2.setWidth 3)).isSome) (atByte 2 0x07)) (0) (.xch (r.dst) (SrcN.ofByte 6 r.b0) (SrcN.ofByte 6 r.b1) ((XchOp.ofCode (r.b2.setWidth 3)).getD .lookup))
    | _ => badTlen
  | 0x53 => match r.tlen.toNat with
    | 1 => gate (0) (0) (.bheap (r.dst) (SrcN.ofByte 6 r.b0) (SrcN.ofByte 6 r.b1))
    | _ => badTlen
  | 0x54 => match r.tlen.toNat with
    | 1 => gate (rzByte 1 r.b1 0xFF) (0) (.bspan (r.dst) (SrcN.ofByte 6 r.b0))
    | _ => badTlen
  | 0x55 => match r.tlen.toNat with
    | 1 => gate (rzByte 1 r.b1 0xFF) (0) (.bclr (r.dst) (SrcN.ofByte 6 r.b0))
    | _ => badTlen
  | _ => .illop

/-- Row 0x6_ of the opcode map (spec/04 R103). -/
def decodeRow6 (r : Raw) : Decoded :=
  match r.opc.toNat with
  | 0x60 => match r.tlen.toNat with
    | 2 => gate (rzDst r.dst 0x20 ||| rzByte 0 r.b0 0x20 ||| rzByte 1 r.b1 0x20 ||| rzByte 2 r.b2 0xFF ||| rzByte 3 r.b3 0x20 ||| codeBad (tyOk r.b3 Ty.isArith) (atByte 3 0x1F)) (0) (.vadd (r.dst.setWidth 5) (SrcN.ofByte 5 r.b0) (SrcN.ofByte 5 r.b1) (rndOf r.b3) (tyOf r.b3))
    | 3 => gate (rzDst r.dst 0x20 ||| rzByte 0 r.b0 0x20 ||| rzByte 1 r.b1 0x20 ||| rzByte 2 r.b2 0xFF ||| rzByte 3 r.b3 0x20 ||| rzByte 4 r.b4 0xC0 ||| rzByte 5 r.b5 0xFF ||| codeBad (tyOk r.b3 Ty.isArith) (atByte 3 0x1F) ||| codeBad (r.b4.getLsbD 5 || r.b4 &&& 0x1F == 0) (atByte 4 (r.b4 &&& 0x1F))) (0) (.vaddVx (r.dst.setWidth 5) (SrcN.ofByte 5 r.b0) (SrcN.ofByte 5 r.b1) (rndOf r.b3) (tyOf r.b3) (VMask.ofByte r.b4))
    | _ => badTlen
  | 0x61 => match r.tlen.toNat with
    | 2 => gate (rzDst r.dst 0x20 ||| rzByte 0 r.b0 0x20 ||| rzByte 1 r.b1 0x20 ||| rzByte 2 r.b2 0xFF ||| rzByte 3 r.b3 0x20 ||| codeBad (tyOk r.b3 Ty.isArith) (atByte 3 0x1F)) (0) (.vsub (r.dst.setWidth 5) (SrcN.ofByte 5 r.b0) (SrcN.ofByte 5 r.b1) (rndOf r.b3) (tyOf r.b3))
    | 3 => gate (rzDst r.dst 0x20 ||| rzByte 0 r.b0 0x20 ||| rzByte 1 r.b1 0x20 ||| rzByte 2 r.b2 0xFF ||| rzByte 3 r.b3 0x20 ||| rzByte 4 r.b4 0xC0 ||| rzByte 5 r.b5 0xFF ||| codeBad (tyOk r.b3 Ty.isArith) (atByte 3 0x1F) ||| codeBad (r.b4.getLsbD 5 || r.b4 &&& 0x1F == 0) (atByte 4 (r.b4 &&& 0x1F))) (0) (.vsubVx (r.dst.setWidth 5) (SrcN.ofByte 5 r.b0) (SrcN.ofByte 5 r.b1) (rndOf r.b3) (tyOf r.b3) (VMask.ofByte r.b4))
    | _ => badTlen
  | 0x62 => match r.tlen.toNat with
    | 2 => gate (rzDst r.dst 0x20 ||| rzByte 0 r.b0 0x20 ||| rzByte 1 r.b1 0x20 ||| rzByte 2 r.b2 0xFF ||| rzByte 3 r.b3 0x20 ||| codeBad (tyOk r.b3 Ty.isArith) (atByte 3 0x1F)) (0) (.vmul (r.dst.setWidth 5) (SrcN.ofByte 5 r.b0) (SrcN.ofByte 5 r.b1) (rndOf r.b3) (tyOf r.b3))
    | 3 => gate (rzDst r.dst 0x20 ||| rzByte 0 r.b0 0x20 ||| rzByte 1 r.b1 0x20 ||| rzByte 2 r.b2 0xFF ||| rzByte 3 r.b3 0x20 ||| rzByte 4 r.b4 0xC0 ||| rzByte 5 r.b5 0xFF ||| codeBad (tyOk r.b3 Ty.isArith) (atByte 3 0x1F) ||| codeBad (r.b4.getLsbD 5 || r.b4 &&& 0x1F == 0) (atByte 4 (r.b4 &&& 0x1F))) (0) (.vmulVx (r.dst.setWidth 5) (SrcN.ofByte 5 r.b0) (SrcN.ofByte 5 r.b1) (rndOf r.b3) (tyOf r.b3) (VMask.ofByte r.b4))
    | _ => badTlen
  | 0x63 => match r.tlen.toNat with
    | 2 => gate (rzDst r.dst 0x20 ||| rzByte 0 r.b0 0x20 ||| rzByte 1 r.b1 0x20 ||| rzByte 2 r.b2 0x20 ||| rzByte 3 r.b3 0x20 ||| codeBad (tyOk r.b3 Ty.isArith) (atByte 3 0x1F)) (0) (.vfma (r.dst.setWidth 5) (SrcN.ofByte 5 r.b0) (SrcN.ofByte 5 r.b1) (SrcN.ofByte 5 r.b2) (rndOf r.b3) (tyOf r.b3))
    | 3 => gate (rzDst r.dst 0x20 ||| rzByte 0 r.b0 0x20 ||| rzByte 1 r.b1 0x20 ||| rzByte 2 r.b2 0x20 ||| rzByte 3 r.b3 0x20 ||| rzByte 4 r.b4 0xC0 ||| rzByte 5 r.b5 0xFF ||| codeBad (tyOk r.b3 Ty.isArith) (atByte 3 0x1F) ||| codeBad (r.b4.getLsbD 5 || r.b4 &&& 0x1F == 0) (atByte 4 (r.b4 &&& 0x1F))) (0) (.vfmaVx (r.dst.setWidth 5) (SrcN.ofByte 5 r.b0) (SrcN.ofByte 5 r.b1) (SrcN.ofByte 5 r.b2) (rndOf r.b3) (tyOf r.b3) (VMask.ofByte r.b4))
    | _ => badTlen
  | 0x64 => match r.tlen.toNat with
    | 2 => gate (rzDst r.dst 0x20 ||| rzByte 0 r.b0 0x20 ||| rzByte 1 r.b1 0x20 ||| rzByte 2 r.b2 0xFF ||| rzByte 3 r.b3 0x20 ||| codeBad (tyOk r.b3 Ty.isArith) (atByte 3 0x1F)) (0) (.vdiv (r.dst.setWidth 5) (SrcN.ofByte 5 r.b0) (SrcN.ofByte 5 r.b1) (rndOf r.b3) (tyOf r.b3))
    | 3 => gate (rzDst r.dst 0x20 ||| rzByte 0 r.b0 0x20 ||| rzByte 1 r.b1 0x20 ||| rzByte 2 r.b2 0xFF ||| rzByte 3 r.b3 0x20 ||| rzByte 4 r.b4 0xC0 ||| rzByte 5 r.b5 0xFF ||| codeBad (tyOk r.b3 Ty.isArith) (atByte 3 0x1F) ||| codeBad (r.b4.getLsbD 5 || r.b4 &&& 0x1F == 0) (atByte 4 (r.b4 &&& 0x1F))) (0) (.vdivVx (r.dst.setWidth 5) (SrcN.ofByte 5 r.b0) (SrcN.ofByte 5 r.b1) (rndOf r.b3) (tyOf r.b3) (VMask.ofByte r.b4))
    | _ => badTlen
  | 0x65 => match r.tlen.toNat with
    | 2 => gate (rzDst r.dst 0x20 ||| rzByte 0 r.b0 0x20 ||| rzByte 1 r.b1 0xFF ||| rzByte 2 r.b2 0xFF ||| rzByte 3 r.b3 0x20 ||| codeBad (tyOk r.b3 Ty.isArith) (atByte 3 0x1F)) (0) (.vsqrt (r.dst.setWidth 5) (SrcN.ofByte 5 r.b0) (rndOf r.b3) (tyOf r.b3))
    | 3 => gate (rzDst r.dst 0x20 ||| rzByte 0 r.b0 0x20 ||| rzByte 1 r.b1 0xFF ||| rzByte 2 r.b2 0xFF ||| rzByte 3 r.b3 0x20 ||| rzByte 4 r.b4 0xC0 ||| rzByte 5 r.b5 0xFF ||| codeBad (tyOk r.b3 Ty.isArith) (atByte 3 0x1F) ||| codeBad (r.b4.getLsbD 5 || r.b4 &&& 0x1F == 0) (atByte 4 (r.b4 &&& 0x1F))) (0) (.vsqrtVx (r.dst.setWidth 5) (SrcN.ofByte 5 r.b0) (rndOf r.b3) (tyOf r.b3) (VMask.ofByte r.b4))
    | _ => badTlen
  | 0x66 => match r.tlen.toNat with
    | 2 => gate (rzDst r.dst 0x20 ||| rzByte 0 r.b0 0x20 ||| rzByte 1 r.b1 0x20 ||| rzByte 2 r.b2 0xFF ||| rzByte 3 r.b3 0xE0 ||| codeBad (tyOk r.b3 Ty.isArith) (atByte 3 0x1F)) (0) (.vmin (r.dst.setWidth 5) (SrcN.ofByte 5 r.b0) (SrcN.ofByte 5 r.b1) (tyOf r.b3))
    | 3 => gate (rzDst r.dst 0x20 ||| rzByte 0 r.b0 0x20 ||| rzByte 1 r.b1 0x20 ||| rzByte 2 r.b2 0xFF ||| rzByte 3 r.b3 0xE0 ||| rzByte 4 r.b4 0xC0 ||| rzByte 5 r.b5 0xFF ||| codeBad (tyOk r.b3 Ty.isArith) (atByte 3 0x1F) ||| codeBad (r.b4.getLsbD 5 || r.b4 &&& 0x1F == 0) (atByte 4 (r.b4 &&& 0x1F))) (0) (.vminVx (r.dst.setWidth 5) (SrcN.ofByte 5 r.b0) (SrcN.ofByte 5 r.b1) (tyOf r.b3) (VMask.ofByte r.b4))
    | _ => badTlen
  | 0x67 => match r.tlen.toNat with
    | 2 => gate (rzDst r.dst 0x20 ||| rzByte 0 r.b0 0x20 ||| rzByte 1 r.b1 0x20 ||| rzByte 2 r.b2 0xFF ||| rzByte 3 r.b3 0xE0 ||| codeBad (tyOk r.b3 Ty.isArith) (atByte 3 0x1F)) (0) (.vmax (r.dst.setWidth 5) (SrcN.ofByte 5 r.b0) (SrcN.ofByte 5 r.b1) (tyOf r.b3))
    | 3 => gate (rzDst r.dst 0x20 ||| rzByte 0 r.b0 0x20 ||| rzByte 1 r.b1 0x20 ||| rzByte 2 r.b2 0xFF ||| rzByte 3 r.b3 0xE0 ||| rzByte 4 r.b4 0xC0 ||| rzByte 5 r.b5 0xFF ||| codeBad (tyOk r.b3 Ty.isArith) (atByte 3 0x1F) ||| codeBad (r.b4.getLsbD 5 || r.b4 &&& 0x1F == 0) (atByte 4 (r.b4 &&& 0x1F))) (0) (.vmaxVx (r.dst.setWidth 5) (SrcN.ofByte 5 r.b0) (SrcN.ofByte 5 r.b1) (tyOf r.b3) (VMask.ofByte r.b4))
    | _ => badTlen
  | 0x68 => match r.tlen.toNat with
    | 2 => gate (rzDst r.dst 0x38 ||| rzByte 0 r.b0 0x20 ||| rzByte 1 r.b1 0x20 ||| rzByte 2 r.b2 0xF8 ||| rzByte 3 r.b3 0xE0 ||| codeBad ((Pred.ofCode (r.b2.setWidth 3)).isSome) (atByte 2 0x07) ||| codeBad (tyOk r.b3 Ty.isCmpTy) (atByte 3 0x1F)) (codeBad (cmpPredOk ((Pred.ofCode (r.b2.setWidth 3)).getD .eq) (tyOf r.b3)) (atByte 2 0x07)) (.vcmp (r.dst.setWidth 3) (SrcN.ofByte 5 r.b0) (SrcN.ofByte 5 r.b1) ((Pred.ofCode (r.b2.setWidth 3)).getD .eq) (tyOf r.b3))
    | 3 => gate (rzDst r.dst 0x38 ||| rzByte 0 r.b0 0x20 ||| rzByte 1 r.b1 0x20 ||| rzByte 2 r.b2 0xF8 ||| rzByte 3 r.b3 0xE0 ||| rzByte 4 r.b4 0xC0 ||| rzByte 5 r.b5 0xFF ||| codeBad ((Pred.ofCode (r.b2.setWidth 3)).isSome) (atByte 2 0x07) ||| codeBad (tyOk r.b3 Ty.isCmpTy) (atByte 3 0x1F) ||| codeBad (r.b4.getLsbD 5 || r.b4 &&& 0x1F == 0) (atByte 4 (r.b4 &&& 0x1F))) (codeBad (cmpPredOk ((Pred.ofCode (r.b2.setWidth 3)).getD .eq) (tyOf r.b3)) (atByte 2 0x07)) (.vcmpVx (r.dst.setWidth 3) (SrcN.ofByte 5 r.b0) (SrcN.ofByte 5 r.b1) ((Pred.ofCode (r.b2.setWidth 3)).getD .eq) (tyOf r.b3) (VMask.ofByte r.b4))
    | _ => badTlen
  | 0x69 => match r.tlen.toNat with
    | 2 => gate (rzDst r.dst 0x20 ||| rzByte 0 r.b0 0x20 ||| rzByte 1 r.b1 0x20 ||| rzByte 2 r.b2 0xFC ||| rzByte 3 r.b3 0xE0 ||| codeBad (tyOk r.b3 Ty.isArith) (atByte 3 0x1F) ||| (if r.b2 &&& 0x03 == 3 then rzByte 1 r.b1 0xFF else 0)) (0) (.vsgn (r.dst.setWidth 5) (SrcN.ofByte 5 r.b0) (SrcN.ofByte 5 r.b1) ((SgnOp.ofCode (r.b2.setWidth 2)).getD .cpy) (tyOf r.b3))
    | 3 => gate (rzDst r.dst 0x20 ||| rzByte 0 r.b0 0x20 ||| rzByte 1 r.b1 0x20 ||| rzByte 2 r.b2 0xFC ||| rzByte 3 r.b3 0xE0 ||| rzByte 4 r.b4 0xC0 ||| rzByte 5 r.b5 0xFF ||| codeBad (tyOk r.b3 Ty.isArith) (atByte 3 0x1F) ||| codeBad (r.b4.getLsbD 5 || r.b4 &&& 0x1F == 0) (atByte 4 (r.b4 &&& 0x1F)) ||| (if r.b2 &&& 0x03 == 3 then rzByte 1 r.b1 0xFF else 0)) (0) (.vsgnVx (r.dst.setWidth 5) (SrcN.ofByte 5 r.b0) (SrcN.ofByte 5 r.b1) ((SgnOp.ofCode (r.b2.setWidth 2)).getD .cpy) (tyOf r.b3) (VMask.ofByte r.b4))
    | _ => badTlen
  | 0x6A => match r.tlen.toNat with
    | 2 => gate (rzDst r.dst 0x20 ||| rzByte 0 r.b0 0x20 ||| rzByte 1 r.b1 0xF8 ||| rzByte 2 r.b2 0xFF ||| rzByte 3 r.b3 0x20 ||| codeBad ((RedOp.ofCode (r.b1.setWidth 3)).isSome) (atByte 1 0x07) ||| codeBad (tyOk r.b3 Ty.isRedTy) (atByte 3 0x1F) ||| (if redRounds ((RedOp.ofCode (r.b1.setWidth 3)).getD .add) (tyOf r.b3) then 0 else rzByte 3 r.b3 0xC0)) (0) (.vred (r.dst.setWidth 5) (SrcN.ofByte 5 r.b0) ((RedOp.ofCode (r.b1.setWidth 3)).getD .add) (rndOf r.b3) (tyOf r.b3))
    | 3 => gate (rzDst r.dst 0x20 ||| rzByte 0 r.b0 0x20 ||| rzByte 1 r.b1 0xF8 ||| rzByte 2 r.b2 0xFF ||| rzByte 3 r.b3 0x20 ||| rzByte 4 r.b4 0xD0 ||| rzByte 5 r.b5 0xFF ||| codeBad ((RedOp.ofCode (r.b1.setWidth 3)).isSome) (atByte 1 0x07) ||| codeBad (tyOk r.b3 Ty.isRedTy) (atByte 3 0x1F) ||| codeBad (r.b4.getLsbD 5 || r.b4 &&& 0x1F == 0) (atByte 4 (r.b4 &&& 0x1F)) ||| (if redRounds ((RedOp.ofCode (r.b1.setWidth 3)).getD .add) (tyOf r.b3) then 0 else rzByte 3 r.b3 0xC0)) (0) (.vredVx (r.dst.setWidth 5) (SrcN.ofByte 5 r.b0) ((RedOp.ofCode (r.b1.setWidth 3)).getD .add) (rndOf r.b3) (tyOf r.b3) (VMask.ofByte r.b4))
    | _ => badTlen
  | 0x6B => match r.tlen.toNat with
    | 2 => gate (rzDst r.dst 0x20 ||| rzByte 0 r.b0 0x20 ||| rzByte 1 r.b1 0xF8 ||| rzByte 2 r.b2 0xFF ||| rzByte 3 r.b3 0x20 ||| codeBad ((RedOp.ofCode (r.b1.setWidth 3)).isSome) (atByte 1 0x07) ||| codeBad (tyOk r.b3 Ty.isRedTy) (atByte 3 0x1F) ||| (if redRounds ((RedOp.ofCode (r.b1.setWidth 3)).getD .add) (tyOf r.b3) then 0 else rzByte 3 r.b3 0xC0)) (0) (.vscan (r.dst.setWidth 5) (SrcN.ofByte 5 r.b0) ((RedOp.ofCode (r.b1.setWidth 3)).getD .add) (rndOf r.b3) (tyOf r.b3))
    | 3 => gate (rzDst r.dst 0x20 ||| rzByte 0 r.b0 0x20 ||| rzByte 1 r.b1 0xF8 ||| rzByte 2 r.b2 0xFF ||| rzByte 3 r.b3 0x20 ||| rzByte 4 r.b4 0xD0 ||| rzByte 5 r.b5 0xFF ||| codeBad ((RedOp.ofCode (r.b1.setWidth 3)).isSome) (atByte 1 0x07) ||| codeBad (tyOk r.b3 Ty.isRedTy) (atByte 3 0x1F) ||| codeBad (r.b4.getLsbD 5 || r.b4 &&& 0x1F == 0) (atByte 4 (r.b4 &&& 0x1F)) ||| (if redRounds ((RedOp.ofCode (r.b1.setWidth 3)).getD .add) (tyOf r.b3) then 0 else rzByte 3 r.b3 0xC0)) (0) (.vscanVx (r.dst.setWidth 5) (SrcN.ofByte 5 r.b0) ((RedOp.ofCode (r.b1.setWidth 3)).getD .add) (rndOf r.b3) (tyOf r.b3) (VMask.ofByte r.b4))
    | _ => badTlen
  | 0x6C => match r.tlen.toNat with
    | 2 => gate (rzDst r.dst 0x20 ||| rzByte 0 r.b0 0x20 ||| rzByte 1 r.b1 0xFF ||| rzByte 2 r.b2 0xFF ||| rzByte 3 r.b3 0x20 ||| codeBad (tyOk r.b3 Ty.isSpec) (atByte 3 0x1F)) (0) (.vexp2 (r.dst.setWidth 5) (SrcN.ofByte 5 r.b0) (rndOf r.b3) (tyOf r.b3))
    | 3 => gate (rzDst r.dst 0x20 ||| rzByte 0 r.b0 0x20 ||| rzByte 1 r.b1 0xFF ||| rzByte 2 r.b2 0xFF ||| rzByte 3 r.b3 0x20 ||| rzByte 4 r.b4 0xC0 ||| rzByte 5 r.b5 0xFF ||| codeBad (tyOk r.b3 Ty.isSpec) (atByte 3 0x1F) ||| codeBad (r.b4.getLsbD 5 || r.b4 &&& 0x1F == 0) (atByte 4 (r.b4 &&& 0x1F))) (0) (.vexp2Vx (r.dst.setWidth 5) (SrcN.ofByte 5 r.b0) (rndOf r.b3) (tyOf r.b3) (VMask.ofByte r.b4))
    | _ => badTlen
  | 0x6D => match r.tlen.toNat with
    | 2 => gate (rzDst r.dst 0x20 ||| rzByte 0 r.b0 0x20 ||| rzByte 1 r.b1 0xFF ||| rzByte 2 r.b2 0xFF ||| rzByte 3 r.b3 0x20 ||| codeBad (tyOk r.b3 Ty.isSpec) (atByte 3 0x1F)) (0) (.vlog2 (r.dst.setWidth 5) (SrcN.ofByte 5 r.b0) (rndOf r.b3) (tyOf r.b3))
    | 3 => gate (rzDst r.dst 0x20 ||| rzByte 0 r.b0 0x20 ||| rzByte 1 r.b1 0xFF ||| rzByte 2 r.b2 0xFF ||| rzByte 3 r.b3 0x20 ||| rzByte 4 r.b4 0xC0 ||| rzByte 5 r.b5 0xFF ||| codeBad (tyOk r.b3 Ty.isSpec) (atByte 3 0x1F) ||| codeBad (r.b4.getLsbD 5 || r.b4 &&& 0x1F == 0) (atByte 4 (r.b4 &&& 0x1F))) (0) (.vlog2Vx (r.dst.setWidth 5) (SrcN.ofByte 5 r.b0) (rndOf r.b3) (tyOf r.b3) (VMask.ofByte r.b4))
    | _ => badTlen
  | 0x6E => match r.tlen.toNat with
    | 2 => gate (rzDst r.dst 0x20 ||| rzByte 0 r.b0 0x20 ||| rzByte 1 r.b1 0xFF ||| rzByte 2 r.b2 0xFF ||| rzByte 3 r.b3 0x20 ||| codeBad (tyOk r.b3 Ty.isSpec) (atByte 3 0x1F)) (0) (.vrcp (r.dst.setWidth 5) (SrcN.ofByte 5 r.b0) (rndOf r.b3) (tyOf r.b3))
    | 3 => gate (rzDst r.dst 0x20 ||| rzByte 0 r.b0 0x20 ||| rzByte 1 r.b1 0xFF ||| rzByte 2 r.b2 0xFF ||| rzByte 3 r.b3 0x20 ||| rzByte 4 r.b4 0xC0 ||| rzByte 5 r.b5 0xFF ||| codeBad (tyOk r.b3 Ty.isSpec) (atByte 3 0x1F) ||| codeBad (r.b4.getLsbD 5 || r.b4 &&& 0x1F == 0) (atByte 4 (r.b4 &&& 0x1F))) (0) (.vrcpVx (r.dst.setWidth 5) (SrcN.ofByte 5 r.b0) (rndOf r.b3) (tyOf r.b3) (VMask.ofByte r.b4))
    | _ => badTlen
  | 0x6F => match r.tlen.toNat with
    | 2 => gate (rzDst r.dst 0x20 ||| rzByte 0 r.b0 0x20 ||| rzByte 1 r.b1 0xFF ||| rzByte 2 r.b2 0xFF ||| rzByte 3 r.b3 0x20 ||| codeBad (tyOk r.b3 Ty.isSpec) (atByte 3 0x1F)) (0) (.vrsq (r.dst.setWidth 5) (SrcN.ofByte 5 r.b0) (rndOf r.b3) (tyOf r.b3))
    | 3 => gate (rzDst r.dst 0x20 ||| rzByte 0 r.b0 0x20 ||| rzByte 1 r.b1 0xFF ||| rzByte 2 r.b2 0xFF ||| rzByte 3 r.b3 0x20 ||| rzByte 4 r.b4 0xC0 ||| rzByte 5 r.b5 0xFF ||| codeBad (tyOk r.b3 Ty.isSpec) (atByte 3 0x1F) ||| codeBad (r.b4.getLsbD 5 || r.b4 &&& 0x1F == 0) (atByte 4 (r.b4 &&& 0x1F))) (0) (.vrsqVx (r.dst.setWidth 5) (SrcN.ofByte 5 r.b0) (rndOf r.b3) (tyOf r.b3) (VMask.ofByte r.b4))
    | _ => badTlen
  | _ => .illop

/-- Row 0x7_ of the opcode map (spec/04 R103). -/
def decodeRow7 (r : Raw) : Decoded :=
  match r.opc.toNat with
  | 0x70 => match r.tlen.toNat with
    | 1 => gate (rzDst r.dst 0x20 ||| rzByte 0 r.b0 0x20 ||| rzByte 1 r.b1 0x20) (0) (.viadd (r.dst.setWidth 5) (SrcN.ofByte 5 r.b0) (SrcN.ofByte 5 r.b1))
    | 2 => gate (rzDst r.dst 0x20 ||| rzByte 0 r.b0 0x20 ||| rzByte 1 r.b1 0x20 ||| rzByte 2 r.b2 0xFF ||| rzByte 3 r.b3 0xE0 ||| codeBad (tyOk r.b3 Ty.isInt) (atByte 3 0x1F)) (0) (.viaddAbcm (r.dst.setWidth 5) (SrcN.ofByte 5 r.b0) (SrcN.ofByte 5 r.b1) (tyOf r.b3))
    | 3 => gate (rzDst r.dst 0x20 ||| rzByte 0 r.b0 0x20 ||| rzByte 1 r.b1 0x20 ||| rzByte 2 r.b2 0xFF ||| rzByte 3 r.b3 0xE0 ||| rzByte 4 r.b4 0xC0 ||| rzByte 5 r.b5 0xFF ||| codeBad (tyOk r.b3 Ty.isInt) (atByte 3 0x1F) ||| codeBad (r.b4.getLsbD 5 || r.b4 &&& 0x1F == 0) (atByte 4 (r.b4 &&& 0x1F))) (0) (.viaddVx (r.dst.setWidth 5) (SrcN.ofByte 5 r.b0) (SrcN.ofByte 5 r.b1) (tyOf r.b3) (VMask.ofByte r.b4))
    | _ => badTlen
  | 0x71 => match r.tlen.toNat with
    | 1 => gate (rzDst r.dst 0x20 ||| rzByte 0 r.b0 0x20 ||| rzByte 1 r.b1 0x20) (0) (.visub (r.dst.setWidth 5) (SrcN.ofByte 5 r.b0) (SrcN.ofByte 5 r.b1))
    | 2 => gate (rzDst r.dst 0x20 ||| rzByte 0 r.b0 0x20 ||| rzByte 1 r.b1 0x20 ||| rzByte 2 r.b2 0xFF ||| rzByte 3 r.b3 0xE0 ||| codeBad (tyOk r.b3 Ty.isInt) (atByte 3 0x1F)) (0) (.visubAbcm (r.dst.setWidth 5) (SrcN.ofByte 5 r.b0) (SrcN.ofByte 5 r.b1) (tyOf r.b3))
    | 3 => gate (rzDst r.dst 0x20 ||| rzByte 0 r.b0 0x20 ||| rzByte 1 r.b1 0x20 ||| rzByte 2 r.b2 0xFF ||| rzByte 3 r.b3 0xE0 ||| rzByte 4 r.b4 0xC0 ||| rzByte 5 r.b5 0xFF ||| codeBad (tyOk r.b3 Ty.isInt) (atByte 3 0x1F) ||| codeBad (r.b4.getLsbD 5 || r.b4 &&& 0x1F == 0) (atByte 4 (r.b4 &&& 0x1F))) (0) (.visubVx (r.dst.setWidth 5) (SrcN.ofByte 5 r.b0) (SrcN.ofByte 5 r.b1) (tyOf r.b3) (VMask.ofByte r.b4))
    | _ => badTlen
  | 0x72 => match r.tlen.toNat with
    | 1 => gate (rzDst r.dst 0x20 ||| rzByte 0 r.b0 0x20 ||| rzByte 1 r.b1 0x20) (0) (.vimul (r.dst.setWidth 5) (SrcN.ofByte 5 r.b0) (SrcN.ofByte 5 r.b1))
    | 2 => gate (rzDst r.dst 0x20 ||| rzByte 0 r.b0 0x20 ||| rzByte 1 r.b1 0x20 ||| rzByte 2 r.b2 0xFF ||| rzByte 3 r.b3 0xE0 ||| codeBad (tyOk r.b3 Ty.isInt) (atByte 3 0x1F)) (0) (.vimulAbcm (r.dst.setWidth 5) (SrcN.ofByte 5 r.b0) (SrcN.ofByte 5 r.b1) (tyOf r.b3))
    | 3 => gate (rzDst r.dst 0x20 ||| rzByte 0 r.b0 0x20 ||| rzByte 1 r.b1 0x20 ||| rzByte 2 r.b2 0xFF ||| rzByte 3 r.b3 0xE0 ||| rzByte 4 r.b4 0xC0 ||| rzByte 5 r.b5 0xFF ||| codeBad (tyOk r.b3 Ty.isInt) (atByte 3 0x1F) ||| codeBad (r.b4.getLsbD 5 || r.b4 &&& 0x1F == 0) (atByte 4 (r.b4 &&& 0x1F))) (0) (.vimulVx (r.dst.setWidth 5) (SrcN.ofByte 5 r.b0) (SrcN.ofByte 5 r.b1) (tyOf r.b3) (VMask.ofByte r.b4))
    | _ => badTlen
  | 0x73 => match r.tlen.toNat with
    | 1 => gate (rzDst r.dst 0x20 ||| rzByte 0 r.b0 0x20 ||| rzByte 1 r.b1 0x20) (0) (.vand (r.dst.setWidth 5) (SrcN.ofByte 5 r.b0) (SrcN.ofByte 5 r.b1))
    | 2 => gate (rzDst r.dst 0x20 ||| rzByte 0 r.b0 0x20 ||| rzByte 1 r.b1 0x20 ||| rzByte 2 r.b2 0xFF ||| rzByte 3 r.b3 0xE0 ||| codeBad (tyOk r.b3 Ty.isInt) (atByte 3 0x1F)) (0) (.vandAbcm (r.dst.setWidth 5) (SrcN.ofByte 5 r.b0) (SrcN.ofByte 5 r.b1) (tyOf r.b3))
    | 3 => gate (rzDst r.dst 0x20 ||| rzByte 0 r.b0 0x20 ||| rzByte 1 r.b1 0x20 ||| rzByte 2 r.b2 0xFF ||| rzByte 3 r.b3 0xE0 ||| rzByte 4 r.b4 0xC0 ||| rzByte 5 r.b5 0xFF ||| codeBad (tyOk r.b3 Ty.isInt) (atByte 3 0x1F) ||| codeBad (r.b4.getLsbD 5 || r.b4 &&& 0x1F == 0) (atByte 4 (r.b4 &&& 0x1F))) (0) (.vandVx (r.dst.setWidth 5) (SrcN.ofByte 5 r.b0) (SrcN.ofByte 5 r.b1) (tyOf r.b3) (VMask.ofByte r.b4))
    | _ => badTlen
  | 0x74 => match r.tlen.toNat with
    | 1 => gate (rzDst r.dst 0x20 ||| rzByte 0 r.b0 0x20 ||| rzByte 1 r.b1 0x20) (0) (.vor (r.dst.setWidth 5) (SrcN.ofByte 5 r.b0) (SrcN.ofByte 5 r.b1))
    | 2 => gate (rzDst r.dst 0x20 ||| rzByte 0 r.b0 0x20 ||| rzByte 1 r.b1 0x20 ||| rzByte 2 r.b2 0xFF ||| rzByte 3 r.b3 0xE0 ||| codeBad (tyOk r.b3 Ty.isInt) (atByte 3 0x1F)) (0) (.vorAbcm (r.dst.setWidth 5) (SrcN.ofByte 5 r.b0) (SrcN.ofByte 5 r.b1) (tyOf r.b3))
    | 3 => gate (rzDst r.dst 0x20 ||| rzByte 0 r.b0 0x20 ||| rzByte 1 r.b1 0x20 ||| rzByte 2 r.b2 0xFF ||| rzByte 3 r.b3 0xE0 ||| rzByte 4 r.b4 0xC0 ||| rzByte 5 r.b5 0xFF ||| codeBad (tyOk r.b3 Ty.isInt) (atByte 3 0x1F) ||| codeBad (r.b4.getLsbD 5 || r.b4 &&& 0x1F == 0) (atByte 4 (r.b4 &&& 0x1F))) (0) (.vorVx (r.dst.setWidth 5) (SrcN.ofByte 5 r.b0) (SrcN.ofByte 5 r.b1) (tyOf r.b3) (VMask.ofByte r.b4))
    | _ => badTlen
  | 0x75 => match r.tlen.toNat with
    | 1 => gate (rzDst r.dst 0x20 ||| rzByte 0 r.b0 0x20 ||| rzByte 1 r.b1 0x20) (0) (.vxor (r.dst.setWidth 5) (SrcN.ofByte 5 r.b0) (SrcN.ofByte 5 r.b1))
    | 2 => gate (rzDst r.dst 0x20 ||| rzByte 0 r.b0 0x20 ||| rzByte 1 r.b1 0x20 ||| rzByte 2 r.b2 0xFF ||| rzByte 3 r.b3 0xE0 ||| codeBad (tyOk r.b3 Ty.isInt) (atByte 3 0x1F)) (0) (.vxorAbcm (r.dst.setWidth 5) (SrcN.ofByte 5 r.b0) (SrcN.ofByte 5 r.b1) (tyOf r.b3))
    | 3 => gate (rzDst r.dst 0x20 ||| rzByte 0 r.b0 0x20 ||| rzByte 1 r.b1 0x20 ||| rzByte 2 r.b2 0xFF ||| rzByte 3 r.b3 0xE0 ||| rzByte 4 r.b4 0xC0 ||| rzByte 5 r.b5 0xFF ||| codeBad (tyOk r.b3 Ty.isInt) (atByte 3 0x1F) ||| codeBad (r.b4.getLsbD 5 || r.b4 &&& 0x1F == 0) (atByte 4 (r.b4 &&& 0x1F))) (0) (.vxorVx (r.dst.setWidth 5) (SrcN.ofByte 5 r.b0) (SrcN.ofByte 5 r.b1) (tyOf r.b3) (VMask.ofByte r.b4))
    | _ => badTlen
  | 0x76 => match r.tlen.toNat with
    | 1 => gate (rzDst r.dst 0x20 ||| rzByte 0 r.b0 0x20 ||| rzByte 1 r.b1 0x20) (0) (.vshl (r.dst.setWidth 5) (SrcN.ofByte 5 r.b0) (SrcN.ofByte 5 r.b1))
    | 2 => gate (rzDst r.dst 0x20 ||| rzByte 0 r.b0 0x20 ||| rzByte 1 r.b1 0x20 ||| rzByte 2 r.b2 0xFF ||| rzByte 3 r.b3 0xE0 ||| codeBad (tyOk r.b3 Ty.isInt) (atByte 3 0x1F)) (0) (.vshlAbcm (r.dst.setWidth 5) (SrcN.ofByte 5 r.b0) (SrcN.ofByte 5 r.b1) (tyOf r.b3))
    | 3 => gate (rzDst r.dst 0x20 ||| rzByte 0 r.b0 0x20 ||| rzByte 1 r.b1 0x20 ||| rzByte 2 r.b2 0xFF ||| rzByte 3 r.b3 0xE0 ||| rzByte 4 r.b4 0xC0 ||| rzByte 5 r.b5 0xFF ||| codeBad (tyOk r.b3 Ty.isInt) (atByte 3 0x1F) ||| codeBad (r.b4.getLsbD 5 || r.b4 &&& 0x1F == 0) (atByte 4 (r.b4 &&& 0x1F))) (0) (.vshlVx (r.dst.setWidth 5) (SrcN.ofByte 5 r.b0) (SrcN.ofByte 5 r.b1) (tyOf r.b3) (VMask.ofByte r.b4))
    | _ => badTlen
  | 0x77 => match r.tlen.toNat with
    | 1 => gate (rzDst r.dst 0x20 ||| rzByte 0 r.b0 0x20 ||| rzByte 1 r.b1 0x20) (0) (.vshr (r.dst.setWidth 5) (SrcN.ofByte 5 r.b0) (SrcN.ofByte 5 r.b1))
    | 2 => gate (rzDst r.dst 0x20 ||| rzByte 0 r.b0 0x20 ||| rzByte 1 r.b1 0x20 ||| rzByte 2 r.b2 0xFF ||| rzByte 3 r.b3 0xE0 ||| codeBad (tyOk r.b3 Ty.isInt) (atByte 3 0x1F)) (0) (.vshrAbcm (r.dst.setWidth 5) (SrcN.ofByte 5 r.b0) (SrcN.ofByte 5 r.b1) (tyOf r.b3))
    | 3 => gate (rzDst r.dst 0x20 ||| rzByte 0 r.b0 0x20 ||| rzByte 1 r.b1 0x20 ||| rzByte 2 r.b2 0xFF ||| rzByte 3 r.b3 0xE0 ||| rzByte 4 r.b4 0xC0 ||| rzByte 5 r.b5 0xFF ||| codeBad (tyOk r.b3 Ty.isInt) (atByte 3 0x1F) ||| codeBad (r.b4.getLsbD 5 || r.b4 &&& 0x1F == 0) (atByte 4 (r.b4 &&& 0x1F))) (0) (.vshrVx (r.dst.setWidth 5) (SrcN.ofByte 5 r.b0) (SrcN.ofByte 5 r.b1) (tyOf r.b3) (VMask.ofByte r.b4))
    | _ => badTlen
  | 0x78 => match r.tlen.toNat with
    | 2 => gate (rzDst r.dst 0x20 ||| rzByte 0 r.b0 0x20 ||| rzByte 1 r.b1 0x20 ||| rzByte 2 r.b2 0x38 ||| rzByte 3 r.b3 0xE0 ||| codeBad (tyOk r.b3 Ty.isMem) (atByte 3 0x1F)) (0) (.vsel (r.dst.setWidth 5) (SrcN.ofByte 5 r.b0) (SrcN.ofByte 5 r.b1) (SrcN.ofByte 3 r.b2) (tyOf r.b3))
    | 3 => gate (rzDst r.dst 0x20 ||| rzByte 0 r.b0 0x20 ||| rzByte 1 r.b1 0x20 ||| rzByte 2 r.b2 0x38 ||| rzByte 3 r.b3 0xE0 ||| rzByte 4 r.b4 0xC0 ||| rzByte 5 r.b5 0xFF ||| codeBad (tyOk r.b3 Ty.isMem) (atByte 3 0x1F) ||| codeBad (r.b4.getLsbD 5 || r.b4 &&& 0x1F == 0) (atByte 4 (r.b4 &&& 0x1F))) (0) (.vselVx (r.dst.setWidth 5) (SrcN.ofByte 5 r.b0) (SrcN.ofByte 5 r.b1) (SrcN.ofByte 3 r.b2) (tyOf r.b3) (VMask.ofByte r.b4))
    | _ => badTlen
  | 0x79 => match r.tlen.toNat with
    | 2 => gate (rzDst r.dst 0x20 ||| rzByte 0 r.b0 0x20 ||| rzByte 1 r.b1 0x20 ||| rzByte 2 r.b2 0x20 ||| rzByte 3 r.b3 0xE0 ||| codeBad (tyOk r.b3 Ty.isMem) (atByte 3 0x1F)) (0) (.vperm (r.dst.setWidth 5) (SrcN.ofByte 5 r.b0) (SrcN.ofByte 5 r.b1) (SrcN.ofByte 5 r.b2) (tyOf r.b3))
    | 3 => gate (rzDst r.dst 0x20 ||| rzByte 0 r.b0 0x20 ||| rzByte 1 r.b1 0x20 ||| rzByte 2 r.b2 0x20 ||| rzByte 3 r.b3 0xE0 ||| rzByte 4 r.b4 0xC0 ||| rzByte 5 r.b5 0xFF ||| codeBad (tyOk r.b3 Ty.isMem) (atByte 3 0x1F) ||| codeBad (r.b4.getLsbD 5 || r.b4 &&& 0x1F == 0) (atByte 4 (r.b4 &&& 0x1F))) (0) (.vpermVx (r.dst.setWidth 5) (SrcN.ofByte 5 r.b0) (SrcN.ofByte 5 r.b1) (SrcN.ofByte 5 r.b2) (tyOf r.b3) (VMask.ofByte r.b4))
    | _ => badTlen
  | 0x7A => match r.tlen.toNat with
    | 2 => gate (rzDst r.dst 0x20 ||| rzByte 1 r.b1 0xFF ||| rzByte 2 r.b2 0xFF ||| rzByte 3 r.b3 0xE0 ||| codeBad (tyOk r.b3 Ty.isMem) (atByte 3 0x1F)) (0) (.vbcast (r.dst.setWidth 5) (SrcN.ofByte 6 r.b0) (tyOf r.b3))
    | 3 => gate (rzDst r.dst 0x20 ||| rzByte 1 r.b1 0xFF ||| rzByte 2 r.b2 0xFF ||| rzByte 3 r.b3 0xE0 ||| rzByte 4 r.b4 0xC0 ||| rzByte 5 r.b5 0xFF ||| codeBad (tyOk r.b3 Ty.isMem) (atByte 3 0x1F) ||| codeBad (r.b4.getLsbD 5 || r.b4 &&& 0x1F == 0) (atByte 4 (r.b4 &&& 0x1F))) (0) (.vbcastVx (r.dst.setWidth 5) (SrcN.ofByte 6 r.b0) (tyOf r.b3) (VMask.ofByte r.b4))
    | _ => badTlen
  | 0x7B => match r.tlen.toNat with
    | 2 => gate (rzDst r.dst 0x20 ||| rzByte 0 r.b0 0x20 ||| rzByte 1 r.b1 0x20 ||| rzByte 3 r.b3 0xE0 ||| codeBad (tyOk r.b3 Ty.isMem) (atByte 3 0x1F)) (0) (.vslide (r.dst.setWidth 5) (SrcN.ofByte 5 r.b0) (SrcN.ofByte 5 r.b1) (SrcN.ofByte 6 r.b2) (tyOf r.b3))
    | 3 => gate (rzDst r.dst 0x20 ||| rzByte 0 r.b0 0x20 ||| rzByte 1 r.b1 0x20 ||| rzByte 3 r.b3 0xE0 ||| rzByte 4 r.b4 0xC0 ||| rzByte 5 r.b5 0xFF ||| codeBad (tyOk r.b3 Ty.isMem) (atByte 3 0x1F) ||| codeBad (r.b4.getLsbD 5 || r.b4 &&& 0x1F == 0) (atByte 4 (r.b4 &&& 0x1F))) (0) (.vslideVx (r.dst.setWidth 5) (SrcN.ofByte 5 r.b0) (SrcN.ofByte 5 r.b1) (SrcN.ofByte 6 r.b2) (tyOf r.b3) (VMask.ofByte r.b4))
    | _ => badTlen
  | 0x7C => match r.tlen.toNat with
    | 2 => gate (rzDst r.dst 0x20 ||| rzByte 0 r.b0 0x20 ||| rzByte 1 r.b1 0x38 ||| rzByte 2 r.b2 0xFF ||| rzByte 3 r.b3 0xE0 ||| codeBad (tyOk r.b3 Ty.isMem) (atByte 3 0x1F)) (0) (.vcmpr (r.dst.setWidth 5) (SrcN.ofByte 5 r.b0) (SrcN.ofByte 3 r.b1) (tyOf r.b3))
    | _ => badTlen
  | 0x7D => match r.tlen.toNat with
    | 2 => gate (rzDst r.dst 0x20 ||| rzByte 0 r.b0 0x20 ||| rzByte 1 r.b1 0x38 ||| rzByte 2 r.b2 0xFF ||| rzByte 3 r.b3 0xE0 ||| codeBad (tyOk r.b3 Ty.isMem) (atByte 3 0x1F)) (0) (.vexpd (r.dst.setWidth 5) (SrcN.ofByte 5 r.b0) (SrcN.ofByte 3 r.b1) (tyOf r.b3))
    | _ => badTlen
  | 0x7E => match r.tlen.toNat with
    | 2 => gate (rzDst r.dst 0x20 ||| rzByte 0 r.b0 0x38 ||| rzByte 1 r.b1 0xFF ||| rzByte 2 r.b2 0xFE ||| rzByte 3 r.b3 0xE0 ||| codeBad (tyOk r.b3 Ty.isInt) (atByte 3 0x1F) ||| (if r.b2.getLsbD 0 then 0 else rzByte 0 r.b0 0xFF)) (0) (.viota (r.dst.setWidth 5) (SrcN.ofByte 3 r.b0) (r.b2.getLsbD 0) (tyOf r.b3))
    | _ => badTlen
  | 0x7F => match r.tlen.toNat with
    | 2 => gate (rzByte 0 r.b0 0x20 ||| rzByte 2 r.b2 0x40 ||| rzByte 3 r.b3 0xE0 ||| codeBad (tyOk r.b3 Ty.isMem) (atByte 3 0x1F) ||| (if r.b2.getLsbD 7 then rzDst r.dst 0x20 else rzByte 1 r.b1 0xFF)) (codeBad (decide ((r.b2.setWidth 6).toNat < (tyOf r.b3).lanes)) (atByte 2 0x3F)) (.vlane (r.dst) (SrcN.ofByte 5 r.b0) (SrcN.ofByte 6 r.b1) (r.b2.setWidth 6) (r.b2.getLsbD 7) (tyOf r.b3))
    | _ => badTlen
  | _ => .illop

/-- Row 0x8_ of the opcode map (spec/04 R103). -/
def decodeRow8 (r : Raw) : Decoded :=
  match r.opc.toNat with
  | 0x80 => match r.tlen.toNat with
    | 2 => gate (rzDst r.dst 0x20 ||| rzByte 0 r.b0 0x20 ||| rzByte 1 r.b1 0xE0 ||| rzByte 2 r.b2 0xF0 ||| codeBad (tyOk r.b1 Ty.isCvt) (atByte 1 0x1F) ||| codeBad (tyOk r.b3 Ty.isCvt) (atByte 3 0x1F)) (codeBad (decide ((r.b2.setWidth 4).toNat < cvtParts (tyOf r.b1) (tyOf r.b3))) (atByte 2 0x0F)) (.vcvt (r.dst.setWidth 5) (SrcN.ofByte 5 r.b0) (tyOf r.b1) (r.b2.setWidth 4) (rndOf r.b3) (r.b3.getLsbD 5) (tyOf r.b3))
    | 3 => gate (rzDst r.dst 0x20 ||| rzByte 0 r.b0 0x20 ||| rzByte 1 r.b1 0xE0 ||| rzByte 2 r.b2 0xF0 ||| rzByte 4 r.b4 0xC0 ||| rzByte 5 r.b5 0xFF ||| codeBad (tyOk r.b1 Ty.isCvt) (atByte 1 0x1F) ||| codeBad (tyOk r.b3 Ty.isCvt) (atByte 3 0x1F) ||| codeBad (r.b4.getLsbD 5 || r.b4 &&& 0x1F == 0) (atByte 4 (r.b4 &&& 0x1F))) (codeBad (decide ((r.b2.setWidth 4).toNat < cvtParts (tyOf r.b1) (tyOf r.b3))) (atByte 2 0x0F)) (.vcvtVx (r.dst.setWidth 5) (SrcN.ofByte 5 r.b0) (tyOf r.b1) (r.b2.setWidth 4) (rndOf r.b3) (r.b3.getLsbD 5) (tyOf r.b3) (VMask.ofByte r.b4))
    | _ => badTlen
  | 0x81 => match r.tlen.toNat with
    | 2 => gate (rzDst r.dst 0x20 ||| rzByte 0 r.b0 0x20 ||| rzByte 1 r.b1 0xE0 ||| rzByte 2 r.b2 0xF0 ||| rzByte 3 r.b3 0x20 ||| codeBad (tyOk r.b1 Ty.isPacked) (atByte 1 0x1F) ||| codeBad (tyOk r.b3 Ty.isUnpk) (atByte 3 0x1F)) (orElse (codeBad (unpkPair (tyOf r.b1) (tyOf r.b3)) (atByte 3 0x1F)) (codeBad (decide ((r.b2.setWidth 4).toNat < packParts (tyOf r.b1) (tyOf r.b3))) (atByte 2 0x0F))) (.vunpk (r.dst.setWidth 5) (SrcN.ofByte 5 r.b0) (tyOf r.b1) (r.b2.setWidth 4) (rndOf r.b3) (tyOf r.b3))
    | 3 => gate (rzDst r.dst 0x20 ||| rzByte 0 r.b0 0x20 ||| rzByte 1 r.b1 0xE0 ||| rzByte 2 r.b2 0xF0 ||| rzByte 3 r.b3 0x20 ||| rzByte 4 r.b4 0xC0 ||| rzByte 5 r.b5 0xFF ||| codeBad (tyOk r.b1 Ty.isPacked) (atByte 1 0x1F) ||| codeBad (tyOk r.b3 Ty.isUnpk) (atByte 3 0x1F) ||| codeBad (r.b4.getLsbD 5 || r.b4 &&& 0x1F == 0) (atByte 4 (r.b4 &&& 0x1F))) (orElse (codeBad (unpkPair (tyOf r.b1) (tyOf r.b3)) (atByte 3 0x1F)) (codeBad (decide ((r.b2.setWidth 4).toNat < packParts (tyOf r.b1) (tyOf r.b3))) (atByte 2 0x0F))) (.vunpkVx (r.dst.setWidth 5) (SrcN.ofByte 5 r.b0) (tyOf r.b1) (r.b2.setWidth 4) (rndOf r.b3) (tyOf r.b3) (VMask.ofByte r.b4))
    | _ => badTlen
  | 0x82 => match r.tlen.toNat with
    | 2 => gate (rzDst r.dst 0x20 ||| rzByte 0 r.b0 0x20 ||| rzByte 1 r.b1 0xE0 ||| rzByte 2 r.b2 0xF0 ||| codeBad (tyOk r.b1 Ty.isUnpk) (atByte 1 0x1F) ||| codeBad (tyOk r.b3 Ty.isPacked) (atByte 3 0x1F)) (orElse (codeBad (unpkPair (tyOf r.b3) (tyOf r.b1)) (atByte 1 0x1F)) (codeBad (decide ((r.b2.setWidth 4).toNat < packParts (tyOf r.b3) (tyOf r.b1))) (atByte 2 0x0F))) (.vpack (r.dst.setWidth 5) (SrcN.ofByte 5 r.b0) (tyOf r.b1) (r.b2.setWidth 4) (rndOf r.b3) (r.b3.getLsbD 5) (tyOf r.b3))
    | 3 => gate (rzDst r.dst 0x20 ||| rzByte 0 r.b0 0x20 ||| rzByte 1 r.b1 0xE0 ||| rzByte 2 r.b2 0xF0 ||| rzByte 4 r.b4 0xC0 ||| rzByte 5 r.b5 0xFF ||| codeBad (tyOk r.b1 Ty.isUnpk) (atByte 1 0x1F) ||| codeBad (tyOk r.b3 Ty.isPacked) (atByte 3 0x1F) ||| codeBad (r.b4.getLsbD 5 || r.b4 &&& 0x1F == 0) (atByte 4 (r.b4 &&& 0x1F))) (orElse (codeBad (unpkPair (tyOf r.b3) (tyOf r.b1)) (atByte 1 0x1F)) (codeBad (decide ((r.b2.setWidth 4).toNat < packParts (tyOf r.b3) (tyOf r.b1))) (atByte 2 0x0F))) (.vpackVx (r.dst.setWidth 5) (SrcN.ofByte 5 r.b0) (tyOf r.b1) (r.b2.setWidth 4) (rndOf r.b3) (r.b3.getLsbD 5) (tyOf r.b3) (VMask.ofByte r.b4))
    | _ => badTlen
  | 0x83 => match r.tlen.toNat with
    | 2 => gate (rzDst r.dst 0x20 ||| rzByte 0 r.b0 0x20 ||| rzByte 2 r.b2 0x78 ||| rzByte 3 r.b3 0x20 ||| codeBad (tyOk r.b3 Ty.isArith) (atByte 3 0x1F)) (0) (.vscale (r.dst.setWidth 5) (SrcN.ofByte 5 r.b0) (SrcN.ofByte 6 r.b1) (r.b2.setWidth 3) (r.b2.getLsbD 7) (rndOf r.b3) (tyOf r.b3))
    | 3 => gate (rzDst r.dst 0x20 ||| rzByte 0 r.b0 0x20 ||| rzByte 2 r.b2 0x78 ||| rzByte 3 r.b3 0x20 ||| rzByte 4 r.b4 0xC0 ||| rzByte 5 r.b5 0xFF ||| codeBad (tyOk r.b3 Ty.isArith) (atByte 3 0x1F) ||| codeBad (r.b4.getLsbD 5 || r.b4 &&& 0x1F == 0) (atByte 4 (r.b4 &&& 0x1F))) (0) (.vscaleVx (r.dst.setWidth 5) (SrcN.ofByte 5 r.b0) (SrcN.ofByte 6 r.b1) (r.b2.setWidth 3) (r.b2.getLsbD 7) (rndOf r.b3) (tyOf r.b3) (VMask.ofByte r.b4))
    | _ => badTlen
  | 0x84 => match r.tlen.toNat with
    | 2 => gate (rzByte 0 r.b0 0x20 ||| rzByte 1 r.b1 0xFF ||| rzByte 2 r.b2 0xFF ||| rzByte 3 r.b3 0xE0 ||| codeBad (tyOk r.b3 Ty.isArith) (atByte 3 0x1F)) (0) (.vamax (r.dst) (SrcN.ofByte 5 r.b0) (tyOf r.b3))
    | 3 => gate (rzByte 0 r.b0 0x20 ||| rzByte 1 r.b1 0xFF ||| rzByte 2 r.b2 0xFF ||| rzByte 3 r.b3 0xE0 ||| rzByte 4 r.b4 0xC0 ||| rzByte 5 r.b5 0xFF ||| codeBad (tyOk r.b3 Ty.isArith) (atByte 3 0x1F) ||| codeBad (r.b4.getLsbD 5 || r.b4 &&& 0x1F == 0) (atByte 4 (r.b4 &&& 0x1F))) (0) (.vamaxVx (r.dst) (SrcN.ofByte 5 r.b0) (tyOf r.b3) (VMask.ofByte r.b4))
    | _ => badTlen
  | 0x85 => match r.tlen.toNat with
    | 2 => gate (rzDst r.dst 0x20 ||| rzByte 0 r.b0 0x20 ||| rzByte 1 r.b1 0x20 ||| rzByte 2 r.b2 0x20 ||| rzByte 3 r.b3 0x20 ||| codeBad (tyOk r.b3 Ty.isCplx) (atByte 3 0x1F)) (codeBad (r.dst.getLsbD 0 == false) (0x3F)) (.bfly (r.dst.setWidth 5) (SrcN.ofByte 5 r.b0) (SrcN.ofByte 5 r.b1) (SrcN.ofByte 5 r.b2) (rndOf r.b3) (tyOf r.b3))
    | 3 => gate (rzDst r.dst 0x20 ||| rzByte 0 r.b0 0x20 ||| rzByte 1 r.b1 0x20 ||| rzByte 2 r.b2 0x20 ||| rzByte 3 r.b3 0x20 ||| rzByte 4 r.b4 0xC0 ||| rzByte 5 r.b5 0xFF ||| codeBad (tyOk r.b3 Ty.isCplx) (atByte 3 0x1F) ||| codeBad (r.b4.getLsbD 5 || r.b4 &&& 0x1F == 0) (atByte 4 (r.b4 &&& 0x1F))) (codeBad (r.dst.getLsbD 0 == false) (0x3F)) (.bflyVx (r.dst.setWidth 5) (SrcN.ofByte 5 r.b0) (SrcN.ofByte 5 r.b1) (SrcN.ofByte 5 r.b2) (rndOf r.b3) (tyOf r.b3) (VMask.ofByte r.b4))
    | _ => badTlen
  | 0x86 => match r.tlen.toNat with
    | 2 => gate (rzDst r.dst 0x20 ||| rzByte 0 r.b0 0x20 ||| rzByte 1 r.b1 0xFF ||| rzByte 2 r.b2 0xE0 ||| rzByte 3 r.b3 0x20 ||| codeBad (r.b2 &&& 0x1F != 0 && r.b2 &&& 0x1F != 0x1F) (atByte 2 0x1F) ||| codeBad (tyOk r.b3 Ty.isCplx) (atByte 3 0x1F)) (0) (.twid (r.dst.setWidth 5) (SrcN.ofByte 5 r.b0) (r.b2.setWidth 5) (rndOf r.b3) (tyOf r.b3))
    | 3 => gate (rzDst r.dst 0x20 ||| rzByte 0 r.b0 0x20 ||| rzByte 1 r.b1 0xFF ||| rzByte 2 r.b2 0xE0 ||| rzByte 3 r.b3 0x20 ||| rzByte 4 r.b4 0xC0 ||| rzByte 5 r.b5 0xFF ||| codeBad (r.b2 &&& 0x1F != 0 && r.b2 &&& 0x1F != 0x1F) (atByte 2 0x1F) ||| codeBad (tyOk r.b3 Ty.isCplx) (atByte 3 0x1F) ||| codeBad (r.b4.getLsbD 5 || r.b4 &&& 0x1F == 0) (atByte 4 (r.b4 &&& 0x1F))) (0) (.twidVx (r.dst.setWidth 5) (SrcN.ofByte 5 r.b0) (r.b2.setWidth 5) (rndOf r.b3) (tyOf r.b3) (VMask.ofByte r.b4))
    | _ => badTlen
  | 0x87 => match r.tlen.toNat with
    | 2 => gate (rzDst r.dst 0x20 ||| rzByte 0 r.b0 0x20 ||| rzByte 1 r.b1 0x20 ||| rzByte 2 r.b2 0xFE ||| rzByte 3 r.b3 0x20 ||| codeBad (tyOk r.b3 Ty.isCplx) (atByte 3 0x1F)) (0) (.cmul (r.dst.setWidth 5) (SrcN.ofByte 5 r.b0) (SrcN.ofByte 5 r.b1) (r.b2.getLsbD 0) (rndOf r.b3) (tyOf r.b3))
    | 3 => gate (rzDst r.dst 0x20 ||| rzByte 0 r.b0 0x20 ||| rzByte 1 r.b1 0x20 ||| rzByte 2 r.b2 0xFE ||| rzByte 3 r.b3 0x20 ||| rzByte 4 r.b4 0xC0 ||| rzByte 5 r.b5 0xFF ||| codeBad (tyOk r.b3 Ty.isCplx) (atByte 3 0x1F) ||| codeBad (r.b4.getLsbD 5 || r.b4 &&& 0x1F == 0) (atByte 4 (r.b4 &&& 0x1F))) (0) (.cmulVx (r.dst.setWidth 5) (SrcN.ofByte 5 r.b0) (SrcN.ofByte 5 r.b1) (r.b2.getLsbD 0) (rndOf r.b3) (tyOf r.b3) (VMask.ofByte r.b4))
    | _ => badTlen
  | 0x88 => match r.tlen.toNat with
    | 2 => gate (rzDst r.dst 0x20 ||| rzByte 0 r.b0 0x20 ||| rzByte 1 r.b1 0xFF ||| rzByte 2 r.b2 0xFE ||| rzByte 3 r.b3 0x20 ||| codeBad (tyOk r.b3 Ty.isSpec) (atByte 3 0x1F)) (0) (.vtrig (r.dst.setWidth 5) (SrcN.ofByte 5 r.b0) (r.b2.getLsbD 0) (rndOf r.b3) (tyOf r.b3))
    | 3 => gate (rzDst r.dst 0x20 ||| rzByte 0 r.b0 0x20 ||| rzByte 1 r.b1 0xFF ||| rzByte 2 r.b2 0xFE ||| rzByte 3 r.b3 0x20 ||| rzByte 4 r.b4 0xC0 ||| rzByte 5 r.b5 0xFF ||| codeBad (tyOk r.b3 Ty.isSpec) (atByte 3 0x1F) ||| codeBad (r.b4.getLsbD 5 || r.b4 &&& 0x1F == 0) (atByte 4 (r.b4 &&& 0x1F))) (0) (.vtrigVx (r.dst.setWidth 5) (SrcN.ofByte 5 r.b0) (r.b2.getLsbD 0) (rndOf r.b3) (tyOf r.b3) (VMask.ofByte r.b4))
    | _ => badTlen
  | 0x89 => match r.tlen.toNat with
    | 2 => gate (rzDst r.dst 0x20 ||| rzByte 0 r.b0 0x20 ||| rzByte 1 r.b1 0xFF ||| rzByte 2 r.b2 0xFF ||| rzByte 3 r.b3 0x20 ||| codeBad (tyOk r.b3 Ty.isSpec) (atByte 3 0x1F)) (0) (.vtanh (r.dst.setWidth 5) (SrcN.ofByte 5 r.b0) (rndOf r.b3) (tyOf r.b3))
    | 3 => gate (rzDst r.dst 0x20 ||| rzByte 0 r.b0 0x20 ||| rzByte 1 r.b1 0xFF ||| rzByte 2 r.b2 0xFF ||| rzByte 3 r.b3 0x20 ||| rzByte 4 r.b4 0xC0 ||| rzByte 5 r.b5 0xFF ||| codeBad (tyOk r.b3 Ty.isSpec) (atByte 3 0x1F) ||| codeBad (r.b4.getLsbD 5 || r.b4 &&& 0x1F == 0) (atByte 4 (r.b4 &&& 0x1F))) (0) (.vtanhVx (r.dst.setWidth 5) (SrcN.ofByte 5 r.b0) (rndOf r.b3) (tyOf r.b3) (VMask.ofByte r.b4))
    | _ => badTlen
  | 0x8A => match r.tlen.toNat with
    | 2 => gate (rzDst r.dst 0x38 ||| rzByte 0 r.b0 0x38 ||| rzByte 1 r.b1 0x38 ||| rzByte 2 r.b2 0xF8 ||| rzByte 3 r.b3 0xFF ||| codeBad ((MlogOp.ofCode (r.b2.setWidth 3)).isSome) (atByte 2 0x07) ||| (if r.b2 &&& 0x07 == 5 then rzByte 0 r.b0 0xFF else 0) ||| (if r.b2 &&& 0x07 == 4 || r.b2 &&& 0x07 == 5 then rzByte 1 r.b1 0xFF else 0)) (0) (.mlog (r.dst.setWidth 3) (SrcN.ofByte 3 r.b0) (SrcN.ofByte 3 r.b1) ((MlogOp.ofCode (r.b2.setWidth 3)).getD .and))
    | _ => badTlen
  | 0x8B => match r.tlen.toNat with
    | 2 => gate (rzByte 1 r.b1 0xFF ||| rzByte 2 r.b2 0xF8 ||| rzByte 3 r.b3 0xFF ||| codeBad ((MpopOp.ofCode (r.b2.setWidth 3)).isSome) (atByte 2 0x07) ||| (if r.b2 &&& 0x07 == 2 then rzDst r.dst 0x38 else rzByte 0 r.b0 0x38)) (0) (.mpop (r.dst) (SrcN.ofByte 6 r.b0) ((MpopOp.ofCode (r.b2.setWidth 3)).getD .pop))
    | _ => badTlen
  | _ => .illop

/-- Row 0x9_ of the opcode map (spec/04 R103). -/
def decodeRow9 (r : Raw) : Decoded :=
  match r.opc.toNat with
  | 0x90 => match r.tlen.toNat with
    | 1 => gate (rzByte 1 r.b1 0xFF ||| codeBad (streamCode r.dst) (0x3F)) (0) (.sbind (r.dst) (SrcN.ofByte 6 r.b0))
    | _ => badTlen
  | 0x91 => match r.tlen.toNat with
    | 0 => gate (codeBad (streamCode r.dst) (0x3F)) (0) (.sunb (r.dst))
    | _ => badTlen
  | 0x92 => match r.tlen.toNat with
    | 1 => gate (rzByte 1 r.b1 0xFF) (0) (.sqry (r.dst) (SrcN.ofByte 6 r.b0))
    | _ => badTlen
  | 0x93 => match r.tlen.toNat with
    | 1 => gate (rzByte 1 r.b1 0xFF) (0) (.pour (r.dst) (SrcN.ofByte 6 r.b0))
    | _ => badTlen
  | 0x94 => match r.tlen.toNat with
    | 2 => gate (rzByte 2 r.b2 0xFF ||| codeBad (scopeOk r.b3) (atByte 3 0xE0) ||| codeBad (r.b3 &&& 0x1F == 0) (atByte 3 0x1F)) (0) (.bari (r.dst) (SrcN.ofByte 6 r.b0) (SrcN.ofByte 6 r.b1) (scopeOf r.b3))
    | _ => badTlen
  | 0x95 => match r.tlen.toNat with
    | 2 => gate (rzByte 2 r.b2 0xFF ||| codeBad (scopeOk r.b3) (atByte 3 0xE0) ||| codeBad (r.b3 &&& 0x1F == 0) (atByte 3 0x1F)) (0) (.barx (r.dst) (SrcN.ofByte 6 r.b0) (SrcN.ofByte 6 r.b1) (scopeOf r.b3))
    | _ => badTlen
  | 0x96 => match r.tlen.toNat with
    | 2 => gate (rzByte 2 r.b2 0xFF ||| codeBad (scopeOk r.b3) (atByte 3 0xE0) ||| codeBad (r.b3 &&& 0x1F == 0) (atByte 3 0x1F)) (0) (.barw (r.dst) (SrcN.ofByte 6 r.b0) (SrcN.ofByte 6 r.b1) (scopeOf r.b3))
    | _ => badTlen
  | 0x97 => match r.tlen.toNat with
    | 1 => gate (rzByte 1 r.b1 0xFF) (0) (.pourq (r.dst) (SrcN.ofByte 6 r.b0))
    | _ => badTlen
  | 0x98 => match r.tlen.toNat with
    | 1 => gate (rzByte 1 r.b1 0xFF) (0) (.hndq (r.dst) (SrcN.ofByte 6 r.b0))
    | _ => badTlen
  | _ => .illop

/-- Row 0xA_ of the opcode map (spec/04 R103). -/
def decodeRowA (r : Raw) : Decoded :=
  match r.opc.toNat with
  | 0xA0 => match r.tlen.toNat with
    | 2 => gate (rzByte 3 r.b3 0xFF) (0) (.pload (r.dst) (SrcN.ofByte 6 r.b0) (SrcN.ofByte 6 r.b1) (SrcN.ofByte 6 r.b2))
    | _ => badTlen
  | 0xA1 => match r.tlen.toNat with
    | 0 => gate (rzDst r.dst 0x3F) (0) (.pswap)
    | _ => badTlen
  | 0xA2 => match r.tlen.toNat with
    | 2 => gate (rzByte 3 r.b3 0xFF) (0) (.prun (r.dst) (SrcN.ofByte 6 r.b0) (SrcN.ofByte 6 r.b1) (SrcN.ofByte 6 r.b2))
    | _ => badTlen
  | 0xA3 => match r.tlen.toNat with
    | 1 => gate (rzDst r.dst 0x20 ||| rzByte 1 r.b1 0xFF) (0) (.paccReg (r.dst.setWidth 5) (SrcN.ofByte 6 r.b0))
    | 2 => gate (rzDst r.dst 0x3F ||| rzByte 2 r.b2 0xE0 ||| codeBad (tyOk r.b2 Ty.isAcc) (atByte 2 0x1F) ||| codeBad (tyOk r.b3 (fun _ => true)) (atByte 3 0x1F)) (codeBad (accPair (tyOf r.b2) (tyOf r.b3)) (atByte 2 0x1F ||| atByte 3 0x1F)) (.paccMem (SrcN.ofByte 6 r.b0) (SrcN.ofByte 6 r.b1) (tyOf r.b2) (rndOf r.b3) (r.b3.getLsbD 5) (tyOf r.b3))
    | _ => badTlen
  | 0xA4 => match r.tlen.toNat with
    | 0 => gate (0) (0) (.ptest (r.dst))
    | 1 => gate (rzByte 1 r.b1 0xFF) (0) (.ptestStamp (r.dst) (SrcN.ofByte 6 r.b0))
    | _ => badTlen
  | 0xA5 => match r.tlen.toNat with
    | 0 => gate (0) (0) (.pqry (r.dst))
    | _ => badTlen
  | 0xA8 => match r.tlen.toNat with
    | 2 => gate (rzByte 3 r.b3 0xFF) (0) (.gsort (r.dst) (SrcN.ofByte 6 r.b0) (SrcN.ofByte 6 r.b1) (SrcN.ofByte 6 r.b2))
    | _ => badTlen
  | 0xA9 => match r.tlen.toNat with
    | 0 => gate (0) (0) (.gqry (r.dst))
    | _ => badTlen
  | _ => .illop

/-- Row 0xB_ of the opcode map (spec/04 R103). -/
def decodeRowB (r : Raw) : Decoded :=
  match r.opc.toNat with
  | 0xB0 => match r.tlen.toNat with
    | 1 => gate (rzDst r.dst 0x3F) (0) (.send (SrcN.ofByte 6 r.b0) (SrcN.ofByte 6 r.b1))
    | _ => badTlen
  | 0xB1 => match r.tlen.toNat with
    | 1 => gate (rzDst r.dst 0x3F) (0) (.sendm (SrcN.ofByte 6 r.b0) (SrcN.ofByte 6 r.b1))
    | _ => badTlen
  | 0xB2 => match r.tlen.toNat with
    | 2 => gate (rzByte 2 r.b2 0xFF ||| codeBad (scopeOk r.b3) (atByte 3 0xE0) ||| codeBad (r.b3 &&& 0x1F == 0) (atByte 3 0x1F)) (0) (.spawn (r.dst) (SrcN.ofByte 6 r.b0) (SrcN.ofByte 6 r.b1) (scopeOf r.b3))
    | _ => badTlen
  | 0xB3 => match r.tlen.toNat with
    | 1 => gate (rzDst r.dst 0x3F ||| rzByte 1 r.b1 0xFF) (0) (.launch (SrcN.ofByte 6 r.b0))
    | _ => badTlen
  | 0xB4 => match r.tlen.toNat with
    | 2 => gate (rzByte 0 r.b0 0xF8 ||| rzByte 1 r.b1 0xFE ||| rzByte 2 r.b2 0xFF ||| rzByte 3 r.b3 0xFF ||| codeBad (decide ((r.b0.setWidth 3) < 7)) (atByte 0 0x07)) (0) (.stealc (r.dst) (r.b0.setWidth 3) (r.b1.getLsbD 0))
    | _ => badTlen
  | _ => .illop

/-- Row 0xC_ of the opcode map (spec/04 R103). -/
def decodeRowC (r : Raw) : Decoded :=
  match r.opc.toNat with
  | 0xC0 => match r.tlen.toNat with
    | 1 => gate (rzByte 1 r.b1 0xFF) (0) (.ltcfg (r.dst) (SrcN.ofByte 6 r.b0))
    | _ => badTlen
  | 0xC1 => match r.tlen.toNat with
    | 1 => gate (rzDst r.dst 0x20) (0) (.ltlink (r.dst.getLsbD 4) (r.dst.setWidth 4) (SrcN.ofByte 6 r.b0) (SrcN.ofByte 6 r.b1))
    | _ => badTlen
  | 0xC2 => match r.tlen.toNat with
    | 2 => gate (rzDst r.dst 0x30 ||| rzByte 3 r.b3 0xFF) (0) (.ltsend (r.dst.setWidth 4) (SrcN.ofByte 6 r.b0) (SrcN.ofByte 6 r.b1) (SrcN.ofByte 6 r.b2))
    | _ => badTlen
  | 0xC3 => match r.tlen.toNat with
    | 0 => gate (0) (0) (.ltclk (r.dst))
    | _ => badTlen
  | 0xC4 => match r.tlen.toNat with
    | 1 => gate (rzDst r.dst 0x20 ||| rzByte 1 r.b1 0xFF ||| (if r.dst.getLsbD 4 then rzDst r.dst 0x0F else 0)) (0) (.ltdrip (r.dst.getLsbD 4) (r.dst.setWidth 4) (SrcN.ofByte 6 r.b0))
    | _ => badTlen
  | 0xC5 => match r.tlen.toNat with
    | 1 => gate (rzByte 1 r.b1 0xFF) (0) (.ltqry (r.dst) (SrcN.ofByte 6 r.b0))
    | _ => badTlen
  | _ => .illop

/-- Row 0xD_ of the opcode map (spec/04 R103). -/
def decodeRowD (r : Raw) : Decoded :=
  match r.opc.toNat with
  | 0xD0 => match r.tlen.toNat with
    | 2 => gate (rzByte 1 r.b1 0xFC ||| rzByte 2 r.b2 0xFF ||| rzByte 3 r.b3 0xFF ||| codeBad (decide ((r.b1.setWidth 2) ≠ 0)) (atByte 1 0x03)) (0) (.gang (r.dst) (SrcN.ofByte 6 r.b0) (r.b1.setWidth 2))
    | _ => badTlen
  | 0xD1 => match r.tlen.toNat with
    | 0 => gate (rzDst r.dst 0x3F) (0) (.disb)
    | _ => badTlen
  | 0xD2 => match r.tlen.toNat with
    | 1 => gate (rzByte 1 r.b1 0xFF) (0) (.coll (r.dst) (SrcN.ofByte 6 r.b0))
    | _ => badTlen
  | 0xD3 => match r.tlen.toNat with
    | 1 => gate (rzByte 1 r.b1 0xFF) (0) (.collw (r.dst) (SrcN.ofByte 6 r.b0))
    | _ => badTlen
  | _ => .illop

/-- Row 0xE_ of the opcode map (spec/04 R103). -/
def decodeRowE (r : Raw) : Decoded :=
  match r.opc.toNat with
  | 0xE0 => match r.tlen.toNat with
    | 2 => gate (rzByte 0 r.b0 0xC0 ||| rzByte 1 r.b1 0xFF ||| rzByte 2 r.b2 0xFF ||| rzByte 3 r.b3 0xFF ||| codeBad ((Cw.ofCode (r.b0.setWidth 6)).isSome) (atByte 0 0x3F)) (0) (.getc (r.dst) ((Cw.ofCode (r.b0.setWidth 6)).getD .tid))
    | _ => badTlen
  | 0xE1 => match r.tlen.toNat with
    | 1 => gate (rzByte 1 r.b1 0xFF ||| codeBad ((Cw.ofCode r.dst).elim false Cw.writable) (0x3F)) (0) (.setc ((Cw.ofCode r.dst).getD .flg) (SrcN.ofByte 6 r.b0))
    | _ => badTlen
  | 0xE2 => match r.tlen.toNat with
    | 0 => gate (0) (0) (.time (r.dst))
    | _ => badTlen
  | 0xE3 => match r.tlen.toNat with
    | 0 => gate (0) (0) (.cyc (r.dst))
    | _ => badTlen
  | 0xE4 => match r.tlen.toNat with
    | 0 => gate (codeBad (r.dst.ule 1) (0x3F)) (0) (.eret (r.dst.getLsbD 0))
    | _ => badTlen
  | 0xE5 => match r.tlen.toNat with
    | 0 => gate (0) (0) (.bkpt (r.dst))
    | _ => badTlen
  | 0xE6 => match r.tlen.toNat with
    | 2 => gate (rzDst r.dst 0x3F) (0) (.trace (SrcN.ofByte 6 r.b0) (r.b3 ++ r.b2 ++ r.b1))
    | _ => badTlen
  | 0xE7 => match r.tlen.toNat with
    | 0 => gate (0) (0) (.enrg (r.dst))
    | _ => badTlen
  | _ => .illop

/-- The decoder (spec/04 R100): the step that a head and its tail name, ILLOP, or RESV with its mask. -/
def decode (r : Raw) : Decoded :=
  match r.opc.toNat / 16 with
  | 0 => decodeRow0 r
  | 1 => decodeRow1 r
  | 2 => decodeRow2 r
  | 3 => decodeRow3 r
  | 4 => decodeRow4 r
  | 5 => decodeRow5 r
  | 6 => decodeRow6 r
  | 7 => decodeRow7 r
  | 8 => decodeRow8 r
  | 9 => decodeRow9 r
  | 10 => decodeRowA r
  | 11 => decodeRowB r
  | 12 => decodeRowC r
  | 13 => decodeRowD r
  | 14 => decodeRowE r
  | _ => .illop

/-- The step that a head and its tail start: a reserved opcode is the step ILLOP (spec/04 R100). -/
def decodeStep (r : Raw) : Decoded :=
  match decode r with
  | .illop => .instr (.illop r.enc)
  | d => d

/-- The step named by nbits bits of the opcode table's numbering. -/
def decodeTableWord (nbits w : Nat) : Option Instr :=
  match decode (Raw.ofEnc (BitVec.ofNat 64 (w % 2 ^ nbits))) with
  | .instr i => some i
  | _ => none

/-- The encoder: the head and tail of an instruction, none for the steps that no instruction encodes. -/
def encode : Instr → Option Raw
  | .nop => some ⟨0x01, 0, 0, 0, 0, 0, 0, 0, 0⟩
  | .jmp target => some ⟨0x02, 2, 0, target.setWidth 8, (0#2 ++ (target.extractLsb' 8 6)), 0, 0, 0, 0⟩
  | .jmpr a => some ⟨0x03, 1, 0, Src.byte a, 0, 0, 0, 0, 0⟩
  | .call target => some ⟨0x04, 2, 0, target.setWidth 8, (0#2 ++ (target.extractLsb' 8 6)), 0, 0, 0, 0⟩
  | .callr a => some ⟨0x05, 1, 0, Src.byte a, 0, 0, 0, 0, 0⟩
  | .ret a => some ⟨0x06, 1, 0, Src.byte a, 0, 0, 0, 0, 0⟩
  | .br cc a b target => some ⟨0x07, 3, cc.code, Src.byte a, Src.byte b, target.setWidth 8, (0#2 ++ (target.extractLsb' 8 6)), 0, 0⟩
  | .bri cc a k target => some ⟨0x08, 3, cc.code, Src.byte a, k, target.setWidth 8, (0#2 ++ (target.extractLsb' 8 6)), 0, 0⟩
  | .bst cc target => some ⟨0x09, 2, (0#2 ++ ((BitVec.ofBool cc.neg) ++ (cc.code))), target.setWidth 8, (0#2 ++ (target.extractLsb' 8 6)), 0, 0, 0, 0⟩
  | .loop d a target => some ⟨0x0A, 3, d, Src.byte a, 0, target.setWidth 8, (0#2 ++ (target.extractLsb' 8 6)), 0, 0⟩
  | .endAct => some ⟨0x0B, 0, 0, 0, 0, 0, 0, 0, 0⟩
  | .phase => some ⟨0x0C, 0, 0, 0, 0, 0, 0, 0, 0⟩
  | .yield => some ⟨0x0D, 0, 0, 0, 0, 0, 0, 0, 0⟩
  | .migr a => some ⟨0x0E, 1, 0, Src.byte a, 0, 0, 0, 0, 0⟩
  | .trap code => some ⟨0x0F, 0, code, 0, 0, 0, 0, 0, 0⟩
  | .trapReg code a => some ⟨0x0F, 1, code, Src.byte a, 0, 0, 0, 0, 0⟩
  | .add d a b => some ⟨0x10, 1, d, Src.byte a, Src.byte b, 0, 0, 0, 0⟩
  | .addAbcm d a b ty => some ⟨0x10, 2, d, Src.byte a, Src.byte b, 0, (0#3 ++ (ty.code)), 0, 0⟩
  | .sub d a b => some ⟨0x11, 1, d, Src.byte a, Src.byte b, 0, 0, 0, 0⟩
  | .subAbcm d a b ty => some ⟨0x11, 2, d, Src.byte a, Src.byte b, 0, (0#3 ++ (ty.code)), 0, 0⟩
  | .mul d a b => some ⟨0x12, 1, d, Src.byte a, Src.byte b, 0, 0, 0, 0⟩
  | .mulAbcm d a b ty => some ⟨0x12, 2, d, Src.byte a, Src.byte b, 0, (0#3 ++ (ty.code)), 0, 0⟩
  | .mulh d a b => some ⟨0x13, 1, d, Src.byte a, Src.byte b, 0, 0, 0, 0⟩
  | .mulhAbcm d a b ty => some ⟨0x13, 2, d, Src.byte a, Src.byte b, 0, (0#3 ++ (ty.code)), 0, 0⟩
  | .div d a b => some ⟨0x14, 1, d, Src.byte a, Src.byte b, 0, 0, 0, 0⟩
  | .divAbcm d a b ty => some ⟨0x14, 2, d, Src.byte a, Src.byte b, 0, (0#3 ++ (ty.code)), 0, 0⟩
  | .rem d a b => some ⟨0x15, 1, d, Src.byte a, Src.byte b, 0, 0, 0, 0⟩
  | .remAbcm d a b ty => some ⟨0x15, 2, d, Src.byte a, Src.byte b, 0, (0#3 ++ (ty.code)), 0, 0⟩
  | .and d a b => some ⟨0x16, 1, d, Src.byte a, Src.byte b, 0, 0, 0, 0⟩
  | .andAbcm d a b ty => some ⟨0x16, 2, d, Src.byte a, Src.byte b, 0, (0#3 ++ (ty.code)), 0, 0⟩
  | .or d a b => some ⟨0x17, 1, d, Src.byte a, Src.byte b, 0, 0, 0, 0⟩
  | .orAbcm d a b ty => some ⟨0x17, 2, d, Src.byte a, Src.byte b, 0, (0#3 ++ (ty.code)), 0, 0⟩
  | .xor d a b => some ⟨0x18, 1, d, Src.byte a, Src.byte b, 0, 0, 0, 0⟩
  | .xorAbcm d a b ty => some ⟨0x18, 2, d, Src.byte a, Src.byte b, 0, (0#3 ++ (ty.code)), 0, 0⟩
  | .shl d a b => some ⟨0x19, 1, d, Src.byte a, Src.byte b, 0, 0, 0, 0⟩
  | .shlAbcm d a b ty => some ⟨0x19, 2, d, Src.byte a, Src.byte b, 0, (0#3 ++ (ty.code)), 0, 0⟩
  | .shr d a b => some ⟨0x1A, 1, d, Src.byte a, Src.byte b, 0, 0, 0, 0⟩
  | .shrAbcm d a b ty => some ⟨0x1A, 2, d, Src.byte a, Src.byte b, 0, (0#3 ++ (ty.code)), 0, 0⟩
  | .rot d a b => some ⟨0x1B, 1, d, Src.byte a, Src.byte b, 0, 0, 0, 0⟩
  | .rotAbcm d a b ty => some ⟨0x1B, 2, d, Src.byte a, Src.byte b, 0, (0#3 ++ (ty.code)), 0, 0⟩
  | .min d a b => some ⟨0x1C, 1, d, Src.byte a, Src.byte b, 0, 0, 0, 0⟩
  | .minAbcm d a b ty => some ⟨0x1C, 2, d, Src.byte a, Src.byte b, 0, (0#3 ++ (ty.code)), 0, 0⟩
  | .max d a b => some ⟨0x1D, 1, d, Src.byte a, Src.byte b, 0, 0, 0, 0⟩
  | .maxAbcm d a b ty => some ⟨0x1D, 2, d, Src.byte a, Src.byte b, 0, (0#3 ++ (ty.code)), 0, 0⟩
  | .slt d a b => some ⟨0x1E, 1, d, Src.byte a, Src.byte b, 0, 0, 0, 0⟩
  | .sltAbcm d a b ty => some ⟨0x1E, 2, d, Src.byte a, Src.byte b, 0, (0#3 ++ (ty.code)), 0, 0⟩
  | .sel d a b c => some ⟨0x1F, 2, d, Src.byte a, Src.byte b, Src.byte c, 0, 0, 0⟩
  | .addi d a imm => some ⟨0x20, 2, d, Src.byte a, imm.extractLsb' 0 8, imm.extractLsb' 8 8, imm.extractLsb' 16 8, 0, 0⟩
  | .addiAbi32 d a imm => some ⟨0x20, 3, d, Src.byte a, 0, imm.extractLsb' 0 8, imm.extractLsb' 8 8, imm.extractLsb' 16 8, imm.extractLsb' 24 8⟩
  | .andi d a imm => some ⟨0x21, 2, d, Src.byte a, imm.extractLsb' 0 8, imm.extractLsb' 8 8, imm.extractLsb' 16 8, 0, 0⟩
  | .andiAbi32 d a imm => some ⟨0x21, 3, d, Src.byte a, 0, imm.extractLsb' 0 8, imm.extractLsb' 8 8, imm.extractLsb' 16 8, imm.extractLsb' 24 8⟩
  | .ori d a imm => some ⟨0x22, 2, d, Src.byte a, imm.extractLsb' 0 8, imm.extractLsb' 8 8, imm.extractLsb' 16 8, 0, 0⟩
  | .oriAbi32 d a imm => some ⟨0x22, 3, d, Src.byte a, 0, imm.extractLsb' 0 8, imm.extractLsb' 8 8, imm.extractLsb' 16 8, imm.extractLsb' 24 8⟩
  | .xori d a imm => some ⟨0x23, 2, d, Src.byte a, imm.extractLsb' 0 8, imm.extractLsb' 8 8, imm.extractLsb' 16 8, 0, 0⟩
  | .xoriAbi32 d a imm => some ⟨0x23, 3, d, Src.byte a, 0, imm.extractLsb' 0 8, imm.extractLsb' 8 8, imm.extractLsb' 16 8, imm.extractLsb' 24 8⟩
  | .muli d a imm => some ⟨0x27, 2, d, Src.byte a, imm.extractLsb' 0 8, imm.extractLsb' 8 8, imm.extractLsb' 16 8, 0, 0⟩
  | .muliAbi32 d a imm => some ⟨0x27, 3, d, Src.byte a, 0, imm.extractLsb' 0 8, imm.extractLsb' 8 8, imm.extractLsb' 16 8, imm.extractLsb' 24 8⟩
  | .shli d a k ty => some ⟨0x24, 2, d, Src.byte a, (0#2 ++ (k)), (0#3 ++ (ty.code)), 0, 0, 0⟩
  | .shri d a k ty => some ⟨0x25, 2, d, Src.byte a, (0#2 ++ (k)), (0#3 ++ (ty.code)), 0, 0, 0⟩
  | .li d imm => some ⟨0x26, 2, d, imm.extractLsb' 0 8, imm.extractLsb' 8 8, imm.extractLsb' 16 8, imm.extractLsb' 24 8, 0, 0⟩
  | .liI48 d imm => some ⟨0x26, 3, d, imm.extractLsb' 0 8, imm.extractLsb' 8 8, imm.extractLsb' 16 8, imm.extractLsb' 24 8, imm.extractLsb' 32 8, imm.extractLsb' 40 8⟩
  | .clz d a => some ⟨0x28, 1, d, Src.byte a, 0, 0, 0, 0, 0⟩
  | .clzAbcm d a ty => some ⟨0x28, 2, d, Src.byte a, 0, 0, (0#3 ++ (ty.code)), 0, 0⟩
  | .ctz d a => some ⟨0x29, 1, d, Src.byte a, 0, 0, 0, 0, 0⟩
  | .ctzAbcm d a ty => some ⟨0x29, 2, d, Src.byte a, 0, 0, (0#3 ++ (ty.code)), 0, 0⟩
  | .popc d a => some ⟨0x2A, 1, d, Src.byte a, 0, 0, 0, 0, 0⟩
  | .popcAbcm d a ty => some ⟨0x2A, 2, d, Src.byte a, 0, 0, (0#3 ++ (ty.code)), 0, 0⟩
  | .abs d a => some ⟨0x2E, 1, d, Src.byte a, 0, 0, 0, 0, 0⟩
  | .absAbcm d a ty => some ⟨0x2E, 2, d, Src.byte a, 0, 0, (0#3 ++ (ty.code)), 0, 0⟩
  | .bfx d a pos lenM1 uns => some ⟨0x2B, 2, d, Src.byte a, (0#2 ++ (pos)), (0#2 ++ (lenM1)), (0#7 ++ (BitVec.ofBool uns)), 0, 0⟩
  | .bfi d a b pos lenM1 => some ⟨0x2C, 3, d, Src.byte a, Src.byte b, (0#2 ++ (pos)), (0#2 ++ (lenM1)), 0, 0⟩
  | .wfld d a level => some ⟨0x2D, 2, d, Src.byte a, (0#5 ++ (level)), 0, 0, 0, 0⟩
  | .fadd d a b rnd ty => some ⟨0x30, 2, d, Src.byte a, Src.byte b, 0, ((rnd.code) ++ (0#1 ++ (ty.code))), 0, 0⟩
  | .fsub d a b rnd ty => some ⟨0x31, 2, d, Src.byte a, Src.byte b, 0, ((rnd.code) ++ (0#1 ++ (ty.code))), 0, 0⟩
  | .fmul d a b rnd ty => some ⟨0x32, 2, d, Src.byte a, Src.byte b, 0, ((rnd.code) ++ (0#1 ++ (ty.code))), 0, 0⟩
  | .ffma d a b c rnd ty => some ⟨0x33, 2, d, Src.byte a, Src.byte b, Src.byte c, ((rnd.code) ++ (0#1 ++ (ty.code))), 0, 0⟩
  | .fdiv d a b rnd ty => some ⟨0x34, 2, d, Src.byte a, Src.byte b, 0, ((rnd.code) ++ (0#1 ++ (ty.code))), 0, 0⟩
  | .fsqrt d a rnd ty => some ⟨0x35, 2, d, Src.byte a, 0, 0, ((rnd.code) ++ (0#1 ++ (ty.code))), 0, 0⟩
  | .fmin d a b ty => some ⟨0x36, 2, d, Src.byte a, Src.byte b, 0, (0#3 ++ (ty.code)), 0, 0⟩
  | .fmax d a b ty => some ⟨0x37, 2, d, Src.byte a, Src.byte b, 0, (0#3 ++ (ty.code)), 0, 0⟩
  | .fcmp d a b p ty => some ⟨0x38, 2, d, Src.byte a, Src.byte b, (0#5 ++ (p.code)), (0#3 ++ (ty.code)), 0, 0⟩
  | .fcvt d a src rnd sat ty => some ⟨0x39, 2, d, Src.byte a, (0#3 ++ (src.code)), 0, ((rnd.code) ++ ((BitVec.ofBool sat) ++ (ty.code))), 0, 0⟩
  | .fclass d a ty => some ⟨0x3A, 2, d, Src.byte a, 0, 0, (0#3 ++ (ty.code)), 0, 0⟩
  | .fsgn d a b op ty => some ⟨0x3B, 2, d, Src.byte a, Src.byte b, (0#6 ++ (op.code)), (0#3 ++ (ty.code)), 0, 0⟩
  | .frnd d a x rnd ty => some ⟨0x3C, 2, d, Src.byte a, 0, (0#7 ++ (BitVec.ofBool x)), ((rnd.code) ++ (0#1 ++ (ty.code))), 0, 0⟩
  | .ld d a ty off => some ⟨0x40, 3, d, Src.byte a, (0#3 ++ (ty.code)), off.extractLsb' 0 8, off.extractLsb' 8 8, off.extractLsb' 16 8, off.extractLsb' 24 8⟩
  | .st ty a b off => some ⟨0x41, 3, (0#1 ++ (ty.code)), Src.byte a, Src.byte b, off.extractLsb' 0 8, off.extractLsb' 8 8, off.extractLsb' 16 8, off.extractLsb' 24 8⟩
  | .ldv d a ty off mk => some ⟨0x42, 3, (0#1 ++ (d)), Src.byte a, (0#3 ++ (ty.code)), off.extractLsb' 0 8, off.extractLsb' 8 8, off.extractLsb' 16 8, mk.byte⟩
  | .stv ty a b off mk => some ⟨0x43, 3, (0#1 ++ (ty.code)), Src.byte a, VSrc.byte b, off.extractLsb' 0 8, off.extractLsb' 8 8, off.extractLsb' 16 8, mk.byte⟩
  | .lds d a scope ty => some ⟨0x44, 2, d, Src.byte a, 0, 0, ((scope.code) ++ (ty.code)), 0, 0⟩
  | .sts a b scope ty => some ⟨0x45, 2, 0, Src.byte a, Src.byte b, 0, ((scope.code) ++ (ty.code)), 0, 0⟩
  | .aadd d a b scope ty => some ⟨0x46, 2, d, Src.byte a, Src.byte b, 0, ((scope.code) ++ (ty.code)), 0, 0⟩
  | .amnx d a b isMax scope ty => some ⟨0x47, 2, d, Src.byte a, Src.byte b, (0#7 ++ (BitVec.ofBool isMax)), ((scope.code) ++ (ty.code)), 0, 0⟩
  | .alog d a b op scope ty => some ⟨0x48, 2, d, Src.byte a, Src.byte b, (0#6 ++ (op.code)), ((scope.code) ++ (ty.code)), 0, 0⟩
  | .aswp d a b scope ty => some ⟨0x49, 2, d, Src.byte a, Src.byte b, 0, ((scope.code) ++ (ty.code)), 0, 0⟩
  | .acas d a b c scope ty => some ⟨0x4A, 2, d, Src.byte a, Src.byte b, Src.byte c, ((scope.code) ++ (ty.code)), 0, 0⟩
  | .waitm d a b cc scope ty => some ⟨0x4B, 2, d, Src.byte a, Src.byte b, (0#5 ++ (cc.code.setWidth 3)), ((scope.code) ++ (ty.code)), 0, 0⟩
  | .loopf => some ⟨0x4C, 0, 0, 0, 0, 0, 0, 0, 0⟩
  | .gath d a b ty => some ⟨0x4D, 2, (0#1 ++ (d)), Src.byte a, VSrc.byte b, 0, (0#3 ++ (ty.code)), 0, 0⟩
  | .gathVx d a b ty mk => some ⟨0x4D, 3, (0#1 ++ (d)), Src.byte a, VSrc.byte b, 0, (0#3 ++ (ty.code)), mk.byte, 0⟩
  | .scat a b c ty => some ⟨0x4E, 2, 0, Src.byte a, VSrc.byte b, VSrc.byte c, (0#3 ++ (ty.code)), 0, 0⟩
  | .scatVx a b c ty mk => some ⟨0x4E, 3, 0, Src.byte a, VSrc.byte b, VSrc.byte c, (0#3 ++ (ty.code)), mk.byte, 0⟩
  | .bcfg d a b => some ⟨0x50, 1, d, Src.byte a, Src.byte b, 0, 0, 0, 0⟩
  | .bqry d a => some ⟨0x51, 1, d, Src.byte a, 0, 0, 0, 0, 0⟩
  | .xch d a b op => some ⟨0x52, 3, d, Src.byte a, Src.byte b, (0#5 ++ (op.code)), 0, 0, 0⟩
  | .bheap d a b => some ⟨0x53, 1, d, Src.byte a, Src.byte b, 0, 0, 0, 0⟩
  | .bspan d a => some ⟨0x54, 1, d, Src.byte a, 0, 0, 0, 0, 0⟩
  | .bclr d a => some ⟨0x55, 1, d, Src.byte a, 0, 0, 0, 0, 0⟩
  | .vadd d a b rnd ty => some ⟨0x60, 2, (0#1 ++ (d)), VSrc.byte a, VSrc.byte b, 0, ((rnd.code) ++ (0#1 ++ (ty.code))), 0, 0⟩
  | .vaddVx d a b rnd ty mk => some ⟨0x60, 3, (0#1 ++ (d)), VSrc.byte a, VSrc.byte b, 0, ((rnd.code) ++ (0#1 ++ (ty.code))), mk.byte, 0⟩
  | .vsub d a b rnd ty => some ⟨0x61, 2, (0#1 ++ (d)), VSrc.byte a, VSrc.byte b, 0, ((rnd.code) ++ (0#1 ++ (ty.code))), 0, 0⟩
  | .vsubVx d a b rnd ty mk => some ⟨0x61, 3, (0#1 ++ (d)), VSrc.byte a, VSrc.byte b, 0, ((rnd.code) ++ (0#1 ++ (ty.code))), mk.byte, 0⟩
  | .vmul d a b rnd ty => some ⟨0x62, 2, (0#1 ++ (d)), VSrc.byte a, VSrc.byte b, 0, ((rnd.code) ++ (0#1 ++ (ty.code))), 0, 0⟩
  | .vmulVx d a b rnd ty mk => some ⟨0x62, 3, (0#1 ++ (d)), VSrc.byte a, VSrc.byte b, 0, ((rnd.code) ++ (0#1 ++ (ty.code))), mk.byte, 0⟩
  | .vfma d a b c rnd ty => some ⟨0x63, 2, (0#1 ++ (d)), VSrc.byte a, VSrc.byte b, VSrc.byte c, ((rnd.code) ++ (0#1 ++ (ty.code))), 0, 0⟩
  | .vfmaVx d a b c rnd ty mk => some ⟨0x63, 3, (0#1 ++ (d)), VSrc.byte a, VSrc.byte b, VSrc.byte c, ((rnd.code) ++ (0#1 ++ (ty.code))), mk.byte, 0⟩
  | .vdiv d a b rnd ty => some ⟨0x64, 2, (0#1 ++ (d)), VSrc.byte a, VSrc.byte b, 0, ((rnd.code) ++ (0#1 ++ (ty.code))), 0, 0⟩
  | .vdivVx d a b rnd ty mk => some ⟨0x64, 3, (0#1 ++ (d)), VSrc.byte a, VSrc.byte b, 0, ((rnd.code) ++ (0#1 ++ (ty.code))), mk.byte, 0⟩
  | .vsqrt d a rnd ty => some ⟨0x65, 2, (0#1 ++ (d)), VSrc.byte a, 0, 0, ((rnd.code) ++ (0#1 ++ (ty.code))), 0, 0⟩
  | .vsqrtVx d a rnd ty mk => some ⟨0x65, 3, (0#1 ++ (d)), VSrc.byte a, 0, 0, ((rnd.code) ++ (0#1 ++ (ty.code))), mk.byte, 0⟩
  | .vmin d a b ty => some ⟨0x66, 2, (0#1 ++ (d)), VSrc.byte a, VSrc.byte b, 0, (0#3 ++ (ty.code)), 0, 0⟩
  | .vminVx d a b ty mk => some ⟨0x66, 3, (0#1 ++ (d)), VSrc.byte a, VSrc.byte b, 0, (0#3 ++ (ty.code)), mk.byte, 0⟩
  | .vmax d a b ty => some ⟨0x67, 2, (0#1 ++ (d)), VSrc.byte a, VSrc.byte b, 0, (0#3 ++ (ty.code)), 0, 0⟩
  | .vmaxVx d a b ty mk => some ⟨0x67, 3, (0#1 ++ (d)), VSrc.byte a, VSrc.byte b, 0, (0#3 ++ (ty.code)), mk.byte, 0⟩
  | .vcmp d a b p ty => some ⟨0x68, 2, (0#3 ++ (d)), VSrc.byte a, VSrc.byte b, (0#5 ++ (p.code)), (0#3 ++ (ty.code)), 0, 0⟩
  | .vcmpVx d a b p ty mk => some ⟨0x68, 3, (0#3 ++ (d)), VSrc.byte a, VSrc.byte b, (0#5 ++ (p.code)), (0#3 ++ (ty.code)), mk.byte, 0⟩
  | .vsgn d a b op ty => some ⟨0x69, 2, (0#1 ++ (d)), VSrc.byte a, VSrc.byte b, (0#6 ++ (op.code)), (0#3 ++ (ty.code)), 0, 0⟩
  | .vsgnVx d a b op ty mk => some ⟨0x69, 3, (0#1 ++ (d)), VSrc.byte a, VSrc.byte b, (0#6 ++ (op.code)), (0#3 ++ (ty.code)), mk.byte, 0⟩
  | .vred d a op rnd ty => some ⟨0x6A, 2, (0#1 ++ (d)), VSrc.byte a, (0#5 ++ (op.code)), 0, ((rnd.code) ++ (0#1 ++ (ty.code))), 0, 0⟩
  | .vredVx d a op rnd ty mk => some ⟨0x6A, 3, (0#1 ++ (d)), VSrc.byte a, (0#5 ++ (op.code)), 0, ((rnd.code) ++ (0#1 ++ (ty.code))), mk.byte, 0⟩
  | .vscan d a op rnd ty => some ⟨0x6B, 2, (0#1 ++ (d)), VSrc.byte a, (0#5 ++ (op.code)), 0, ((rnd.code) ++ (0#1 ++ (ty.code))), 0, 0⟩
  | .vscanVx d a op rnd ty mk => some ⟨0x6B, 3, (0#1 ++ (d)), VSrc.byte a, (0#5 ++ (op.code)), 0, ((rnd.code) ++ (0#1 ++ (ty.code))), mk.byte, 0⟩
  | .vexp2 d a rnd ty => some ⟨0x6C, 2, (0#1 ++ (d)), VSrc.byte a, 0, 0, ((rnd.code) ++ (0#1 ++ (ty.code))), 0, 0⟩
  | .vexp2Vx d a rnd ty mk => some ⟨0x6C, 3, (0#1 ++ (d)), VSrc.byte a, 0, 0, ((rnd.code) ++ (0#1 ++ (ty.code))), mk.byte, 0⟩
  | .vlog2 d a rnd ty => some ⟨0x6D, 2, (0#1 ++ (d)), VSrc.byte a, 0, 0, ((rnd.code) ++ (0#1 ++ (ty.code))), 0, 0⟩
  | .vlog2Vx d a rnd ty mk => some ⟨0x6D, 3, (0#1 ++ (d)), VSrc.byte a, 0, 0, ((rnd.code) ++ (0#1 ++ (ty.code))), mk.byte, 0⟩
  | .vrcp d a rnd ty => some ⟨0x6E, 2, (0#1 ++ (d)), VSrc.byte a, 0, 0, ((rnd.code) ++ (0#1 ++ (ty.code))), 0, 0⟩
  | .vrcpVx d a rnd ty mk => some ⟨0x6E, 3, (0#1 ++ (d)), VSrc.byte a, 0, 0, ((rnd.code) ++ (0#1 ++ (ty.code))), mk.byte, 0⟩
  | .vrsq d a rnd ty => some ⟨0x6F, 2, (0#1 ++ (d)), VSrc.byte a, 0, 0, ((rnd.code) ++ (0#1 ++ (ty.code))), 0, 0⟩
  | .vrsqVx d a rnd ty mk => some ⟨0x6F, 3, (0#1 ++ (d)), VSrc.byte a, 0, 0, ((rnd.code) ++ (0#1 ++ (ty.code))), mk.byte, 0⟩
  | .viadd d a b => some ⟨0x70, 1, (0#1 ++ (d)), VSrc.byte a, VSrc.byte b, 0, 0, 0, 0⟩
  | .viaddAbcm d a b ty => some ⟨0x70, 2, (0#1 ++ (d)), VSrc.byte a, VSrc.byte b, 0, (0#3 ++ (ty.code)), 0, 0⟩
  | .viaddVx d a b ty mk => some ⟨0x70, 3, (0#1 ++ (d)), VSrc.byte a, VSrc.byte b, 0, (0#3 ++ (ty.code)), mk.byte, 0⟩
  | .visub d a b => some ⟨0x71, 1, (0#1 ++ (d)), VSrc.byte a, VSrc.byte b, 0, 0, 0, 0⟩
  | .visubAbcm d a b ty => some ⟨0x71, 2, (0#1 ++ (d)), VSrc.byte a, VSrc.byte b, 0, (0#3 ++ (ty.code)), 0, 0⟩
  | .visubVx d a b ty mk => some ⟨0x71, 3, (0#1 ++ (d)), VSrc.byte a, VSrc.byte b, 0, (0#3 ++ (ty.code)), mk.byte, 0⟩
  | .vimul d a b => some ⟨0x72, 1, (0#1 ++ (d)), VSrc.byte a, VSrc.byte b, 0, 0, 0, 0⟩
  | .vimulAbcm d a b ty => some ⟨0x72, 2, (0#1 ++ (d)), VSrc.byte a, VSrc.byte b, 0, (0#3 ++ (ty.code)), 0, 0⟩
  | .vimulVx d a b ty mk => some ⟨0x72, 3, (0#1 ++ (d)), VSrc.byte a, VSrc.byte b, 0, (0#3 ++ (ty.code)), mk.byte, 0⟩
  | .vand d a b => some ⟨0x73, 1, (0#1 ++ (d)), VSrc.byte a, VSrc.byte b, 0, 0, 0, 0⟩
  | .vandAbcm d a b ty => some ⟨0x73, 2, (0#1 ++ (d)), VSrc.byte a, VSrc.byte b, 0, (0#3 ++ (ty.code)), 0, 0⟩
  | .vandVx d a b ty mk => some ⟨0x73, 3, (0#1 ++ (d)), VSrc.byte a, VSrc.byte b, 0, (0#3 ++ (ty.code)), mk.byte, 0⟩
  | .vor d a b => some ⟨0x74, 1, (0#1 ++ (d)), VSrc.byte a, VSrc.byte b, 0, 0, 0, 0⟩
  | .vorAbcm d a b ty => some ⟨0x74, 2, (0#1 ++ (d)), VSrc.byte a, VSrc.byte b, 0, (0#3 ++ (ty.code)), 0, 0⟩
  | .vorVx d a b ty mk => some ⟨0x74, 3, (0#1 ++ (d)), VSrc.byte a, VSrc.byte b, 0, (0#3 ++ (ty.code)), mk.byte, 0⟩
  | .vxor d a b => some ⟨0x75, 1, (0#1 ++ (d)), VSrc.byte a, VSrc.byte b, 0, 0, 0, 0⟩
  | .vxorAbcm d a b ty => some ⟨0x75, 2, (0#1 ++ (d)), VSrc.byte a, VSrc.byte b, 0, (0#3 ++ (ty.code)), 0, 0⟩
  | .vxorVx d a b ty mk => some ⟨0x75, 3, (0#1 ++ (d)), VSrc.byte a, VSrc.byte b, 0, (0#3 ++ (ty.code)), mk.byte, 0⟩
  | .vshl d a b => some ⟨0x76, 1, (0#1 ++ (d)), VSrc.byte a, VSrc.byte b, 0, 0, 0, 0⟩
  | .vshlAbcm d a b ty => some ⟨0x76, 2, (0#1 ++ (d)), VSrc.byte a, VSrc.byte b, 0, (0#3 ++ (ty.code)), 0, 0⟩
  | .vshlVx d a b ty mk => some ⟨0x76, 3, (0#1 ++ (d)), VSrc.byte a, VSrc.byte b, 0, (0#3 ++ (ty.code)), mk.byte, 0⟩
  | .vshr d a b => some ⟨0x77, 1, (0#1 ++ (d)), VSrc.byte a, VSrc.byte b, 0, 0, 0, 0⟩
  | .vshrAbcm d a b ty => some ⟨0x77, 2, (0#1 ++ (d)), VSrc.byte a, VSrc.byte b, 0, (0#3 ++ (ty.code)), 0, 0⟩
  | .vshrVx d a b ty mk => some ⟨0x77, 3, (0#1 ++ (d)), VSrc.byte a, VSrc.byte b, 0, (0#3 ++ (ty.code)), mk.byte, 0⟩
  | .vsel d a b c ty => some ⟨0x78, 2, (0#1 ++ (d)), VSrc.byte a, VSrc.byte b, MSrc.byte c, (0#3 ++ (ty.code)), 0, 0⟩
  | .vselVx d a b c ty mk => some ⟨0x78, 3, (0#1 ++ (d)), VSrc.byte a, VSrc.byte b, MSrc.byte c, (0#3 ++ (ty.code)), mk.byte, 0⟩
  | .vperm d a b c ty => some ⟨0x79, 2, (0#1 ++ (d)), VSrc.byte a, VSrc.byte b, VSrc.byte c, (0#3 ++ (ty.code)), 0, 0⟩
  | .vpermVx d a b c ty mk => some ⟨0x79, 3, (0#1 ++ (d)), VSrc.byte a, VSrc.byte b, VSrc.byte c, (0#3 ++ (ty.code)), mk.byte, 0⟩
  | .vbcast d a ty => some ⟨0x7A, 2, (0#1 ++ (d)), Src.byte a, 0, 0, (0#3 ++ (ty.code)), 0, 0⟩
  | .vbcastVx d a ty mk => some ⟨0x7A, 3, (0#1 ++ (d)), Src.byte a, 0, 0, (0#3 ++ (ty.code)), mk.byte, 0⟩
  | .vslide d a b c ty => some ⟨0x7B, 2, (0#1 ++ (d)), VSrc.byte a, VSrc.byte b, Src.byte c, (0#3 ++ (ty.code)), 0, 0⟩
  | .vslideVx d a b c ty mk => some ⟨0x7B, 3, (0#1 ++ (d)), VSrc.byte a, VSrc.byte b, Src.byte c, (0#3 ++ (ty.code)), mk.byte, 0⟩
  | .vcmpr d a b ty => some ⟨0x7C, 2, (0#1 ++ (d)), VSrc.byte a, MSrc.byte b, 0, (0#3 ++ (ty.code)), 0, 0⟩
  | .vexpd d a b ty => some ⟨0x7D, 2, (0#1 ++ (d)), VSrc.byte a, MSrc.byte b, 0, (0#3 ++ (ty.code)), 0, 0⟩
  | .viota d a pfx ty => some ⟨0x7E, 2, (0#1 ++ (d)), MSrc.byte a, 0, (0#7 ++ (BitVec.ofBool pfx)), (0#3 ++ (ty.code)), 0, 0⟩
  | .vlane d a b k set ty => some ⟨0x7F, 2, d, VSrc.byte a, Src.byte b, ((BitVec.ofBool set) ++ (0#1 ++ (k))), (0#3 ++ (ty.code)), 0, 0⟩
  | .vcvt d a src p rnd sat ty => some ⟨0x80, 2, (0#1 ++ (d)), VSrc.byte a, (0#3 ++ (src.code)), (0#4 ++ (p)), ((rnd.code) ++ ((BitVec.ofBool sat) ++ (ty.code))), 0, 0⟩
  | .vcvtVx d a src p rnd sat ty mk => some ⟨0x80, 3, (0#1 ++ (d)), VSrc.byte a, (0#3 ++ (src.code)), (0#4 ++ (p)), ((rnd.code) ++ ((BitVec.ofBool sat) ++ (ty.code))), mk.byte, 0⟩
  | .vunpk d a src p rnd ty => some ⟨0x81, 2, (0#1 ++ (d)), VSrc.byte a, (0#3 ++ (src.code)), (0#4 ++ (p)), ((rnd.code) ++ (0#1 ++ (ty.code))), 0, 0⟩
  | .vunpkVx d a src p rnd ty mk => some ⟨0x81, 3, (0#1 ++ (d)), VSrc.byte a, (0#3 ++ (src.code)), (0#4 ++ (p)), ((rnd.code) ++ (0#1 ++ (ty.code))), mk.byte, 0⟩
  | .vpack d a src p rnd sat ty => some ⟨0x82, 2, (0#1 ++ (d)), VSrc.byte a, (0#3 ++ (src.code)), (0#4 ++ (p)), ((rnd.code) ++ ((BitVec.ofBool sat) ++ (ty.code))), 0, 0⟩
  | .vpackVx d a src p rnd sat ty mk => some ⟨0x82, 3, (0#1 ++ (d)), VSrc.byte a, (0#3 ++ (src.code)), (0#4 ++ (p)), ((rnd.code) ++ ((BitVec.ofBool sat) ++ (ty.code))), mk.byte, 0⟩
  | .vscale d a b k inv rnd ty => some ⟨0x83, 2, (0#1 ++ (d)), VSrc.byte a, Src.byte b, ((BitVec.ofBool inv) ++ (0#4 ++ (k))), ((rnd.code) ++ (0#1 ++ (ty.code))), 0, 0⟩
  | .vscaleVx d a b k inv rnd ty mk => some ⟨0x83, 3, (0#1 ++ (d)), VSrc.byte a, Src.byte b, ((BitVec.ofBool inv) ++ (0#4 ++ (k))), ((rnd.code) ++ (0#1 ++ (ty.code))), mk.byte, 0⟩
  | .vamax d a ty => some ⟨0x84, 2, d, VSrc.byte a, 0, 0, (0#3 ++ (ty.code)), 0, 0⟩
  | .vamaxVx d a ty mk => some ⟨0x84, 3, d, VSrc.byte a, 0, 0, (0#3 ++ (ty.code)), mk.byte, 0⟩
  | .bfly d a b c rnd ty => some ⟨0x85, 2, (0#1 ++ (d)), VSrc.byte a, VSrc.byte b, VSrc.byte c, ((rnd.code) ++ (0#1 ++ (ty.code))), 0, 0⟩
  | .bflyVx d a b c rnd ty mk => some ⟨0x85, 3, (0#1 ++ (d)), VSrc.byte a, VSrc.byte b, VSrc.byte c, ((rnd.code) ++ (0#1 ++ (ty.code))), mk.byte, 0⟩
  | .twid d a n rnd ty => some ⟨0x86, 2, (0#1 ++ (d)), VSrc.byte a, 0, (0#3 ++ (n)), ((rnd.code) ++ (0#1 ++ (ty.code))), 0, 0⟩
  | .twidVx d a n rnd ty mk => some ⟨0x86, 3, (0#1 ++ (d)), VSrc.byte a, 0, (0#3 ++ (n)), ((rnd.code) ++ (0#1 ++ (ty.code))), mk.byte, 0⟩
  | .cmul d a b conj rnd ty => some ⟨0x87, 2, (0#1 ++ (d)), VSrc.byte a, VSrc.byte b, (0#7 ++ (BitVec.ofBool conj)), ((rnd.code) ++ (0#1 ++ (ty.code))), 0, 0⟩
  | .cmulVx d a b conj rnd ty mk => some ⟨0x87, 3, (0#1 ++ (d)), VSrc.byte a, VSrc.byte b, (0#7 ++ (BitVec.ofBool conj)), ((rnd.code) ++ (0#1 ++ (ty.code))), mk.byte, 0⟩
  | .vtrig d a cos rnd ty => some ⟨0x88, 2, (0#1 ++ (d)), VSrc.byte a, 0, (0#7 ++ (BitVec.ofBool cos)), ((rnd.code) ++ (0#1 ++ (ty.code))), 0, 0⟩
  | .vtrigVx d a cos rnd ty mk => some ⟨0x88, 3, (0#1 ++ (d)), VSrc.byte a, 0, (0#7 ++ (BitVec.ofBool cos)), ((rnd.code) ++ (0#1 ++ (ty.code))), mk.byte, 0⟩
  | .vtanh d a rnd ty => some ⟨0x89, 2, (0#1 ++ (d)), VSrc.byte a, 0, 0, ((rnd.code) ++ (0#1 ++ (ty.code))), 0, 0⟩
  | .vtanhVx d a rnd ty mk => some ⟨0x89, 3, (0#1 ++ (d)), VSrc.byte a, 0, 0, ((rnd.code) ++ (0#1 ++ (ty.code))), mk.byte, 0⟩
  | .mlog d a b op => some ⟨0x8A, 2, (0#3 ++ (d)), MSrc.byte a, MSrc.byte b, (0#5 ++ (op.code)), 0, 0, 0⟩
  | .mpop d a op => some ⟨0x8B, 2, d, Src.byte a, 0, (0#5 ++ (op.code)), 0, 0, 0⟩
  | .sbind d a => some ⟨0x90, 1, d, Src.byte a, 0, 0, 0, 0, 0⟩
  | .sunb d => some ⟨0x91, 0, d, 0, 0, 0, 0, 0, 0⟩
  | .sqry d a => some ⟨0x92, 1, d, Src.byte a, 0, 0, 0, 0, 0⟩
  | .pour d a => some ⟨0x93, 1, d, Src.byte a, 0, 0, 0, 0, 0⟩
  | .bari d a b scope => some ⟨0x94, 2, d, Src.byte a, Src.byte b, 0, ((scope.code) ++ 0#5), 0, 0⟩
  | .barx d a b scope => some ⟨0x95, 2, d, Src.byte a, Src.byte b, 0, ((scope.code) ++ 0#5), 0, 0⟩
  | .barw d a b scope => some ⟨0x96, 2, d, Src.byte a, Src.byte b, 0, ((scope.code) ++ 0#5), 0, 0⟩
  | .pourq d a => some ⟨0x97, 1, d, Src.byte a, 0, 0, 0, 0, 0⟩
  | .hndq d a => some ⟨0x98, 1, d, Src.byte a, 0, 0, 0, 0, 0⟩
  | .pload d a b c => some ⟨0xA0, 2, d, Src.byte a, Src.byte b, Src.byte c, 0, 0, 0⟩
  | .pswap => some ⟨0xA1, 0, 0, 0, 0, 0, 0, 0, 0⟩
  | .prun d a b c => some ⟨0xA2, 2, d, Src.byte a, Src.byte b, Src.byte c, 0, 0, 0⟩
  | .paccReg d a => some ⟨0xA3, 1, (0#1 ++ (d)), Src.byte a, 0, 0, 0, 0, 0⟩
  | .paccMem a b src rnd sat ty => some ⟨0xA3, 2, 0, Src.byte a, Src.byte b, (0#3 ++ (src.code)), ((rnd.code) ++ ((BitVec.ofBool sat) ++ (ty.code))), 0, 0⟩
  | .ptest d => some ⟨0xA4, 0, d, 0, 0, 0, 0, 0, 0⟩
  | .ptestStamp d a => some ⟨0xA4, 1, d, Src.byte a, 0, 0, 0, 0, 0⟩
  | .pqry d => some ⟨0xA5, 0, d, 0, 0, 0, 0, 0, 0⟩
  | .gsort d a b c => some ⟨0xA8, 2, d, Src.byte a, Src.byte b, Src.byte c, 0, 0, 0⟩
  | .gqry d => some ⟨0xA9, 0, d, 0, 0, 0, 0, 0, 0⟩
  | .send a b => some ⟨0xB0, 1, 0, Src.byte a, Src.byte b, 0, 0, 0, 0⟩
  | .sendm a b => some ⟨0xB1, 1, 0, Src.byte a, Src.byte b, 0, 0, 0, 0⟩
  | .spawn d a b scope => some ⟨0xB2, 2, d, Src.byte a, Src.byte b, 0, ((scope.code) ++ 0#5), 0, 0⟩
  | .launch a => some ⟨0xB3, 1, 0, Src.byte a, 0, 0, 0, 0, 0⟩
  | .stealc d which clr => some ⟨0xB4, 2, d, (0#5 ++ (which)), (0#7 ++ (BitVec.ofBool clr)), 0, 0, 0, 0⟩
  | .ltcfg d a => some ⟨0xC0, 1, d, Src.byte a, 0, 0, 0, 0, 0⟩
  | .ltlink out slot a b => some ⟨0xC1, 1, (0#1 ++ ((BitVec.ofBool out) ++ (slot))), Src.byte a, Src.byte b, 0, 0, 0, 0⟩
  | .ltsend slot a b c => some ⟨0xC2, 2, (0#2 ++ (slot)), Src.byte a, Src.byte b, Src.byte c, 0, 0, 0⟩
  | .ltclk d => some ⟨0xC3, 0, d, 0, 0, 0, 0, 0, 0⟩
  | .ltdrip all slot a => some ⟨0xC4, 1, (0#1 ++ ((BitVec.ofBool all) ++ (slot))), Src.byte a, 0, 0, 0, 0, 0⟩
  | .ltqry d a => some ⟨0xC5, 1, d, Src.byte a, 0, 0, 0, 0, 0⟩
  | .gang d a size => some ⟨0xD0, 2, d, Src.byte a, (0#6 ++ (size)), 0, 0, 0, 0⟩
  | .disb => some ⟨0xD1, 0, 0, 0, 0, 0, 0, 0, 0⟩
  | .coll d a => some ⟨0xD2, 1, d, Src.byte a, 0, 0, 0, 0, 0⟩
  | .collw d a => some ⟨0xD3, 1, d, Src.byte a, 0, 0, 0, 0, 0⟩
  | .getc d w => some ⟨0xE0, 2, d, (0#2 ++ (w.code)), 0, 0, 0, 0, 0⟩
  | .setc w a => some ⟨0xE1, 1, w.code, Src.byte a, 0, 0, 0, 0, 0⟩
  | .time d => some ⟨0xE2, 0, d, 0, 0, 0, 0, 0, 0⟩
  | .cyc d => some ⟨0xE3, 0, d, 0, 0, 0, 0, 0, 0⟩
  | .eret skip => some ⟨0xE4, 0, (0#5 ++ (BitVec.ofBool skip)), 0, 0, 0, 0, 0, 0⟩
  | .bkpt code => some ⟨0xE5, 0, code, 0, 0, 0, 0, 0, 0⟩
  | .trace a tag => some ⟨0xE6, 2, 0, Src.byte a, tag.extractLsb' 0 8, tag.extractLsb' 8 8, tag.extractLsb' 16 8, 0, 0⟩
  | .enrg d => some ⟨0xE7, 0, d, 0, 0, 0, 0, 0, 0⟩
  | .illop _ => none
  | .sequentialFlowBadtgt _ => none
  | .releaseEntries _ => none
  | .landEntry _ => none
  | .entryAck _ => none
  | .commit _ => none
  | .commitNoticeServe _ => none
  | .commitComplete _ => none
  | .abortNoticeServe _ => none
  | .requestServe _ => none
  | .replyArrival _ => none
  | .resultDelivery _ _ => none
  | .pageWalk _ _ => none
  | .retransmitTimeout _ => none
  | .strike _ _ => none
  | .strikeReport _ => none
  | .budgetExhausted _ => none
  | .dispatch _ => none
  | .stealAttempt _ _ => none
  | .stealWaitExpiry _ => none
  | .park _ => none
  | .watchReady _ _ => none
  | .waitmRetest _ => none
  | .trapHandlerDispatch _ => none
  | .trapRingResume _ => none
  | .ploadExecute _ => none
  | .pswapExecute _ => none
  | .prunFinish _ => none
  | .ptestFinish _ => none
  | .grinderSliceFinish _ => none
  | .engineCompletion _ _ => none
  | .enginePreimageFree _ _ => none
  | .pourStart _ _ => none
  | .pourFlitLand _ _ _ => none
  | .pourReceiverCompletion _ _ _ => none
  | .streamFill _ _ => none
  | .gangForm _ => none
  | .gangWaitTimeout _ => none
  | .dripLand _ => none
  | .idleAdvance _ => none
  | .idleDripPeriod _ => none
  | .releaseMark _ => none
  | .waveStart _ _ => none
  | .waveCombine _ _ => none
  | .doneBlockWrite _ _ => none
  | .taskRecordPush _ _ => none
  | .leaseDrained _ _ => none
  | .leaseLoaded _ _ => none
  | .scrub _ _ => none
  | .flitReceive _ _ => none
  | .linkReplay _ _ => none
  | .portTrain _ _ _ => none
  | .timeExchange _ _ _ _ => none
  | .collContribute _ _ => none
  | .collCombine _ _ => none
  | .collResultLand _ _ => none
  | .collOutputExpiry _ _ => none
  | .config _ => none
  | .loadsh _ => none
  | .spillsh _ => none
  | .swap _ => none
  | .swapSettle _ => none
  | .swapEnter _ => none
  | .rowReloadDone _ _ => none
  | .halt _ => none
  | .haltRecordWrite _ => none
  | .resume _ => none
  | .step _ => none
  | .stepDone _ => none
  | .kill _ => none
  | .revoke _ => none
  | .revokeDone _ => none
  | .free _ => none
  | .unknownOpcode _ => none
  | .grun _ => none
  | .gstop _ => none
  | .tagset _ => none
  | .tlbinv _ => none
  | .power _ => none
  | .graphLaunchNode _ _ => none
  | .graphCopyNode _ _ => none
  | .graphWaitNode _ _ => none
  | .graphWaitTimeout _ _ => none
  | .graphCondNode _ _ => none
  | .graphNotifyNode _ _ => none
  | .graphSignalNode _ _ => none
  | .graphEndNode _ _ => none
  | .graphNodeDone _ _ => none
  | .ringConsReread _ => none
  | .ringInterruptTimer _ => none
  | .bar2Read _ _ => none
  | .bar2Write _ _ _ => none
  | .bar2WriteRelease _ => none
  | .controlRegisterWrite _ _ => none
  | .eflgClear _ _ => none
  | .mismatchCountClear _ => none
  | .portCountClear _ _ => none
  | .debugRead _ _ _ => none
  | .debugWrite _ _ _ => none
  | .thermalTrip => none
  | .conventionalReset => none
  | .selfTestDone _ _ => none
  | .firmwareVerify _ _ => none
  | .getVersion _ => none
  | .getCapabilities _ => none
  | .negotiateAlgorithms _ => none
  | .getDigests _ => none
  | .getCertificate _ => none
  | .challenge _ => none
  | .getMeasurements _ => none
  | .commandCompletion _ => none

/-- The encoding word of an instruction (spec/04 R101); zero for a step that no instruction encodes. -/
def encWord (i : Instr) : W64 := match encode i with
  | some r => r.enc
  | none => 0

/-- A line as 64 bytes: head k is bytes 2k and 2k+1 (spec/04 R83). -/
def lineHead (line : List Byte) (k : Nat) : BitVec 16 := (line.getD (2 * k + 1) 0) ++ (line.getD (2 * k) 0)

/-- The instructions of a line, in order, as heads with their tails (spec/04 R84, DecodeLine). -/
def decodeLineFrom (line : List Byte) : Nat → Nat → Nat → List Raw
  | 0, _, _ => []
  | fuel + 1, i, p =>
    let h := lineHead line i
    let t := 2 * (h.extractLsb' 6 2).toNat
    if h = 0 ∨ 2 * (i + 1) + p + t > 64 then []
    else
      let byte := fun (k : Nat) => if k < t then line.getD (64 - p - t + k) 0 else 0
      ⟨h.extractLsb' 8 8, h.extractLsb' 6 2, h.setWidth 6, byte 0, byte 1, byte 2, byte 3, byte 4, byte 5⟩
        :: decodeLineFrom line fuel (i + 1) (p + t)

def decodeLine (line : List Byte) : List Raw := decodeLineFrom line 32 0 0

end Sys2Proof
end

