-- ==== Sys2Proof/Machine/State.lean ====
section
/-! DEFINITION. The state of the SZ4 package as plain data, the reasons a step can stop, and the state after reset. -/

namespace Sys2Proof.Machine

/-- What started an activation (spec/17 R356, spec/03 R80, spec/14 R299). -/
inductive Origin where
  | mailbox | deque | steal | migr | follower
deriving DecidableEq, Repr

/-- What the core keeps of the running activation beside its registers. -/
structure Act where
  ctx    : BitVec 8
  lnch   : BitVec 8
  hidx   : Nat
  trig   : Msg               -- the message or record that started it
  migr   : Option MigrRec    -- the migration record that started it
  stamped : Bool             -- its message carries a stamp (spec/10 R251)
  origin : Origin
  isTrap : Bool              -- a trap-handler activation (spec/11 R279)
  ltc0   : W64               -- LTC before its dispatch (spec/10 R264)
  rel    : Bool              -- its event was marked released (spec/10 R262)
  fresh  : Bool              -- the dispatch state, at no boundary yet (spec/03 R53, R74)
  parked : Bool              -- the state at which a parked activation was taken up again
  born   : Nat               -- global time of the push of its task record (spec/17 R362)
  begun  : Nat               -- global time of its dispatch
  other  : Bool              -- pushed by another core
  no     : Nat               -- names this activation among those of the core
deriving DecidableEq, Repr

/-- A stream binding (spec/14 R304 to R311). -/
structure Stream where
  code : Nat
  base : Nat                 -- private offset, or PA of the first element
  hdl  : Option Nat
  far  : Bool                -- the handle's range lies in another package
  tag  : BitVec 4
  lo   : Nat                 -- its range: lowest byte and length, private or PA
  len  : Nat
  out  : Bool
  esz  : Nat
  sgn  : Bool
  dims : List (Nat × Int)    -- (COUNT, STRIDE) of each dimension
  pos  : Nat
  buf  : List Line
  revoked : Bool             -- its handle has been revoked (spec/20 R402)
deriving DecidableEq, Repr

/-- A stopped activation in the trap frame (spec/11 R279) or in a park slot (spec/17 R358). -/
structure Saved where
  act     : Act
  regs    : Regs
  ctl     : Ctl
  pc      : W64
  streams : List Stream
  rolled  : Bool             -- its segment was rolled back (spec/05 R147)
  choice  : Option Bool      -- the choice of the ERET that ended its handler, true for skip (spec/03 R81, spec/05 R147)
  reload  : Bool             -- BUD is reloaded at its resumption (spec/03 R77)
deriving DecidableEq, Repr

/-- The gang a core belongs to (spec/14 R296, R299). -/
structure Gang where
  size    : Nat                -- size code
  members : List Nat
  idx     : Nat
  seg0    : Nat                -- the member's open segment when the gang formed
deriving DecidableEq, Repr

/-- The segment that a boundary closed: its number, its activation, BUD as it closed, the TRACE records that it held. A later activation's
state may take the place of the checkpoint; this stays (spec/03 R77, spec/15 R336). -/
structure Closed where
  seg    : Nat
  no     : Nat
  bud    : W64
  traces : Nat
deriving DecidableEq, Repr

/-- An engine operation, by its place, or a TRACE record of a committed segment that a report went back across: it stands (spec/05 R149,
spec/15 R337), and the head that issued it issues it no second time. `met`: the segment that has come to that head again. -/
structure Repeat where
  op  : Option Nat
  met : Option Nat
deriving DecidableEq, Repr

/-- A register checkpoint (spec/03 R60), with what names the point it was taken at. -/
structure Ckpt where
  running : Bool
  act     : Act
  regs    : Regs
  ctl     : Ctl
  pc      : W64
  streams : List Stream
  mseq    : BitVec 11
  tseq    : BitVec 43
  rounds  : List (Nat × Nat)
  frame   : Option Saved
  gang    : Option Gang
  takenAt : Nat
  closed  : Closed
deriving DecidableEq, Repr

/-- A message held in a mailbox, in dispatchable order; a MIGR record rides with its header (spec/17 R357, spec/10 R262). -/
structure MailItem where
  msg  : Msg
  migr : Option MigrRec
  rel  : Bool
  born : Nat
deriving DecidableEq, Repr

/-- A task record of the deque (spec/17 R360). -/
structure TaskRec where
  msg   : Msg
  seg   : Option Nat         -- the uncommitted segment that pushed it
  born  : Nat
  other : Bool
deriving DecidableEq, Repr

/-- Where an entry of a closed segment stands (spec/03 R67). -/
inductive ItemState where
  | waiting | sent | accepted | refused
deriving DecidableEq, Repr

structure OutItem where
  e  : OutEntry
  st : ItemState
deriving DecidableEq, Repr

/-- What a structure bank holds, in its own order (spec/07 R165 to R175). The members of a span hold `member`. -/
inductive Struct where
  | array
  | queue (head : Nat) (ring : List W64) (lent : List (Nat × Nat × List W64))   -- chunk, words moved out of it, words it holds; oldest first
  | stack (ws : List W64)                          -- bottom first
  | map (slots : List (Nat × W64 × W64))           -- by slot, rising
  | heap (es : List (W64 × W64 × Nat)) (next : Nat)   -- level order: key, payload, rank
  | hist (bins : List (Nat × Nat))                 -- non-zero bins, rising
  | pool (lent : List Nat)
  | deque
  | mailbox
  | member (leader : Nat)
deriving DecidableEq, Repr

/-- A bank's metadata (spec/07 R162, R164). -/
structure Bank where
  data  : Struct
  poolb : BitVec 4
  kfmt  : BitVec 2
  hw32  : Bool
  span  : Nat
  owner : BitVec 8
deriving DecidableEq, Repr

/-- An input slot and an output slot of the link table (spec/10 R254). -/
structure InSlot where
  peer : Nat
  look : BitVec 48
  b    : W64
deriving DecidableEq, Repr

structure OutSlot where
  peer : Nat
  look : BitVec 48
  d    : W64
  f    : W64
  due  : Bool       -- a drip of spec/10 R258 is owed at the next commit
  decl : Nat        -- names the declaration, across rollbacks
deriving DecidableEq, Repr

/-- Local-time state (spec/10 R251, R272). -/
structure LocalTime where
  en   : Bool
  ltc  : W64
  a    : W64
  dper : BitVec 16
  lerr : Bool
  ins  : List (Nat × InSlot)
  outs : List (Nat × OutSlot)
  epoch : Nat       -- names the stay in the mode, across rollbacks
deriving DecidableEq, Repr

/-- What an undo entry restores (spec/03 R63, R72, R75). -/
inductive UndoWhat where
  | line (n : Nat) (bytes : Line) (poison : Bool)
  | bank (b : Nat) (img : Bank) (cells : Mem) (poison : List Nat)
  | links (lt : LocalTime)
deriving DecidableEq, Repr

/-- An undo entry, with its place in the core's order of writes (spec/09 R241). -/
structure Undo where
  ord  : Nat
  what : UndoWhat
deriving DecidableEq, Repr

/-- The kinds of phase boundary (spec/03 R61, spec/11 R279, spec/17 R358). -/
inductive Boundary where
  | phase | endAct | yield | migr | irrevocable | autoCommit | trap | park | eret
deriving DecidableEq, Repr

/-- What happens at a segment's Commit step beside R68: nothing, the retirement of a message, the resumption of the stopped activation. -/
inductive AtCommit where
  | nothing
  | retire (l : List Act)
  | resume (skip : Bool)
deriving DecidableEq, Repr

/-- What a segment holds (spec/01 R14). -/
structure SegData where
  id     : Nat
  undo   : List Undo
  lines  : List Nat                       -- undo-log lines taken: 0 to 16,383 data, from 16,384 bank metadata
  out    : List OutItem
  holds  : List Nat                       -- own lines held
  hbanks : List Nat                       -- own banks held
  traces : List (List W64)                -- TRACE records held (spec/05 R149)
  bad    : Option Report                  -- an own store that a lock refused (spec/05 R140)
deriving DecidableEq, Repr

/-- A closed segment. -/
structure Seg where
  d        : SegData
  kind     : Boundary
  closer   : W64                          -- head of the instruction that closed it
  ckpt     : Ckpt
  closedAt : Nat
  bud      : W64                          -- BUD when it closed
  no       : Nat                          -- the activation that it belongs to
  waiting  : List Nat                     -- targets whose notice is outstanding, once committed
  mates    : List (Nat × Nat)             -- (core, segment) of the gang's segments that this boundary closed (spec/14 R301)
  atCommit : AtCommit
deriving DecidableEq, Repr

/-- A long-latency result on its way (spec/03 R55): delivered by clk `due`. -/
structure Pend where
  d   : Nat
  val : W64
  due : Nat
deriving DecidableEq, Repr

/-- The registers, control words and streams before a remote weak read issued (spec/05 R139). -/
structure Snap where
  regs    : Regs
  ctl     : Ctl
  streams : List Stream
  pend    : List Pend
deriving DecidableEq, Repr

/-- What a remote weak read delivers (spec/05 R138, spec/08 R200, R201); `base` gives the bytes that it does not read. -/
inductive ReadWhat where
  | ld (d : Nat) (ty : Ty) (line : Home) (off : Nat)
  | ldv (d : Nat) (line : Home) (base : Line) (mask : W64)
  | gath (d : Nat) (ty : Ty) (lanes : List (Nat × Home × Nat)) (base : Line)
  | fill (lanes : List (Nat × Home × Nat))   -- only lines for the read cache: the head that needs them waits for them
deriving DecidableEq, Repr

structure RRead where
  id   : Nat
  pc   : W64
  addrs : List (Home × W64)    -- the address that each line was read for
  what : ReadWhat
  need : List Home
  unsent : List (Home × W64)   -- lines whose request waits for a permit (spec/17 R343)
  snap : Snap
deriving DecidableEq, Repr

/-- The state of a gang member before a head that sent remote weak reads in some member (spec/05 R139, spec/14 R300). -/
structure Mark where
  gno  : Nat                   -- names the head among the members
  ord  : Nat                   -- reads from this number on are later, or of the head itself
  pc   : W64
  snap : Snap
  hold : List (Nat × Nat)      -- (core, read): the reads that the head sent
deriving DecidableEq, Repr

/-- Where an irrevocable access stands (spec/03 R76): its boundary is taken, or its request has left; `migr`: the first boundary of a MIGR
is taken (spec/03 R80). -/
inductive Irrev where
  | bounded
  | sent (id : Nat)
  | migr
deriving DecidableEq, Repr

/-- Why the head at pc has not issued. -/
inductive Wait where
  | operand | dest | reads | boundary | commit | reply | poll | space | engine | lock | gang | ring | report | permit | coll
deriving DecidableEq, Repr

/-- A weight plane of the Press (spec/09 R229): bytes of the tile and then of its scales. -/
structure Plane where
  fmt    : Ty
  scaled : Bool
  bytes  : List Byte
  poison : Bool
deriving DecidableEq, Repr

/-- The Grinder (spec/09 R246, R247). -/
inductive GState where
  | idle | held | running
deriving DecidableEq, Repr

structure Grinder where
  st    : GState
  kfmt  : BitVec 2
  desc  : Bool
  gsz   : Nat
  phase : Nat
  total : Nat
  base  : Nat
  cells : List (W64 × W64 × Nat)
deriving DecidableEq, Repr

/-- The kinds of engine operation (spec/09 R221, spec/14 R317, spec/24 R444). -/
inductive EngKind where
  | pload (a : Nat) (desc : W64)
  | pswap
  | prun (a : Nat) (cmd : W64)
  | follow (a : Nat) (cmd : W64)
  | ptest
  | gsort (a : Nat) (cmd : W64)
  | pour (block : Msg)
  | coll (block : Msg) (round : Nat) (map : List (Nat × Nat))   -- by rank: the entries of the rank map that it read
deriving DecidableEq, Repr

inductive OpState where
  | queued | running | finished | complete
deriving DecidableEq, Repr

/-- An entry of the engine in-flight list (spec/01 R15, spec/02 R31). -/
structure EngOp where
  seq    : Nat                 -- of a follow-on run: followKey of its Pour
  kind   : EngKind
  head   : W64                 -- address of the instruction that issued it
  seg    : Nat                 -- the segment that issued it
  ctx    : BitVec 8
  lnch   : BitVec 8
  tid    : W64
  no     : Nat                 -- the activation that issued it
  stamp  : Option Nat
  st     : OpState
  flags  : BitVec 5
  failed : Bool                -- its stamp has bit 63 set
  ord    : Nat
  doneAt : Nat
  row    : Nat                 -- rows done of a run (spec/09 R239)
  room   : Nat                 -- bytes of the undo ring that it will still fill
  mates  : List (Nat × Nat)    -- (core, number) of every member's operation, where it is fused
  took   : Bool                -- it has taken its completion step and runs again after a strike (spec/15 R337)
  redo   : Bool                -- its rerun writes the bits that stand already
  g0     : Option Grinder      -- of a sort: the Grinder as the operation began
  pre    : List (Nat × Line)   -- of a complete Pour: its pre-images behind a handle, by PA
  pushed : List (Nat × Nat)    -- of a COLL: what its number pushed out of the list of the last 16 (spec/24 R450)
deriving DecidableEq, Repr

/-- A pre-image of the engine undo ring (spec/09 R224). -/
inductive PreWhat where
  | row (r off : Nat) (bytes : List Byte) (poison : List Nat)   -- poisoned quarters among those of the bytes
  | line (n : Nat) (bytes : Line) (mask : W64) (poison : Bool) (under : List (Nat × Line))   -- of the bytes of the mask; `under`: what
    -- undo entries of the core that the bytes overwrite held of them, by place, where another core's operation writes
deriving DecidableEq, Repr

structure PreImage where
  core : Nat                   -- the core that issued the operation
  seq  : Nat                   -- 0 for PACC
  seg  : Nat
  ord  : Nat
  what : PreWhat
  live : Bool                  -- its operation has not taken its completion step
  at_  : Nat                   -- clk of the completion step
deriving DecidableEq, Repr

/-- A range lock (spec/09 R223): who holds it, whether it is a destination, the byte ranges it covers. -/
structure Lock where
  core   : Nat
  seq    : Nat                 -- engine sequence number, or 2^64 + a stream's code
  dst    : Bool
  ranges : List (Nat × Nat)    -- (first byte, length)
deriving DecidableEq, Repr

/-- A GANG that waits (spec/14 R297). -/
structure GangWait where
  members : List Nat
  limit   : Nat
  since   : Nat
deriving DecidableEq, Repr

/-- Why a core is halted (spec/20 R394). -/
inductive Why where
  | halt
  | breakpoint (k : Nat) (line : Bool)   -- register k; line: it matched an access to its line (R397)
  | bkpt | diverge | stepDone
deriving DecidableEq, Repr

/-- A parked activation (spec/17 R358) with the word it watches and the wait that it stands in. -/
structure Parked where
  saved : Saved
  ready : Bool
  watch : Home
  op    : WordOp
deriving DecidableEq, Repr

/-- Who raised a report that stands: core, member index in a gang, its clk; and whether the record ends the context (spec/11 R275, R283,
spec/17 R355). A rollback may have taken the raising core out of its gang since. -/
structure Raised where
  core : Nat
  mix  : Option Nat
  cyc  : Nat
  kill : Bool
deriving DecidableEq, Repr

/-- One core. -/
structure Core where
  id      : Nat                -- its number
  -- the activation (spec/03)
  running : Bool
  act     : Act
  regs    : Regs
  ctl     : Ctl
  pc      : W64
  wait    : Option Wait
  spin    : Nat
  pend    : List Pend
  reads   : List RRead
  marks   : List Mark
  irrev   : Option Irrev
  report  : Option Report
  raised  : Option Raised      -- who raised the report, where that is not the core as it stands
  frame   : Option Saved
  parks   : List Parked
  streams : List Stream
  -- segments (spec/03)
  seg       : SegData
  closing   : List Seg
  pubs      : List Seg
  confirmed : Ckpt
  past      : List Ckpt
  again     : List Repeat
  rcache    : List (Home × Line)
  mseq      : BitVec 11
  tseq      : BitVec 43
  -- local memory (spec/07)
  mem     : Mem
  owner   : List (Nat × BitVec 8)
  poison  : List Nat
  banks   : Vector Bank 16
  imgSlot : Option (Nat × Nat)
  mailbox : List MailItem
  deque   : List TaskRec
  dqTop   : Nat
  mbHead  : Nat                -- ring position of the mailbox's front (spec/07 R174)
  -- code (spec/03 R51, spec/04 R83)
  imem     : Mem
  handlers : List (Nat × W64 × W64)
  loaded   : Bool
  -- the Press, the Grinder and their operations (spec/09)
  acc       : Mem
  accOwner  : List (Nat × BitVec 8)
  accPoison : List Nat
  derived   : List Nat         -- lines, and 16,384 plus quarters of rows, whose poison an engine operation wrote (spec/09 R237, R452)
  active    : Plane
  shadow    : Plane
  fenced    : Bool
  lseq      : Nat
  grinder   : Grinder
  engSeq    : Nat
  ops       : List EngOp
  ring      : List PreImage
  planes0   : List (Nat × Plane × Plane)
  grind0    : List (Nat × Grinder)
  locks     : List Lock
  traceOut : List (BitVec 8 × List W64)     -- records of committed segments that the full trace ring has not taken (spec/05 R149, spec/20 R401)
  pours     : List (Nat × Msg × Option Nat)   -- its last 64 Pours: number, block, bytes that had landed at an abort (spec/14 R323)
  colls     : List (Nat × Nat)
  rounds    : List (Nat × Nat)
  -- local time (spec/10), dispatch (spec/17), gangs (spec/14)
  lt       : LocalTime
  owed     : List (Nat × BitVec 48 × W64)   -- drips that a halt keeps back: peer, lookahead, value (spec/10 R265)
  prio     : Nat × Nat × Nat
  stealCtr : List (Nat × W64)
  stealWait : Nat
  victims  : Nat
  sent     : List (Nat × Nat)  -- by context × 256 + launch (spec/17 R367)
  recv     : List (Nat × Nat)
  gang     : Option Gang
  gangWait : Option GangWait
  reserved : Option Nat
  tlb      : List (Nat × Nat × Bool)
  -- control of the core (spec/20)
  stopped  : Bool
  halted   : Option Why
  haltClk  : Nat               -- its clk at the stop (spec/20 R394)
  haltPc   : W64               -- the head at which it stopped
  steps    : Option Nat
  rpos     : Nat               -- entries of its replay buffer that are used up (spec/20 R400)
  passing  : Option Why        -- the head at which it stopped for this issues without the same stop again (log 44)
  clk      : Nat
  at9      : Nat               -- the package's running time, in ninths of gt, at this clk
  nact     : Nat
  nord     : Nat
  nund     : Nat
deriving DecidableEq, Repr

/-- An entry staged at its target (spec/03 R67). -/
structure Staged where
  src   : Nat
  seg   : Nat
  dst   : Nat
  ctx   : BitVec 8             -- the context of the core that sent it
  spill : Option Nat           -- PA of its entry, where it is bound for the context's spill queue (spec/17 R369)
  late  : Bool                 -- a stamped event that stood here as the row left its launch (spec/10 R250)
  e     : OutEntry
deriving DecidableEq, Repr

inductive LState where
  | free | loading | running | draining
deriving DecidableEq, Repr

/-- A lease word (spec/15 R332), with the assignments that wait for the row (R333). -/
structure Lease where
  st    : LState
  cur   : BitVec 8
  next  : Option (BitVec 8)
  ctx   : BitVec 8
  queue : List (BitVec 8)
deriving DecidableEq, Repr

/-- The combined status of a completion-tree wave (spec/17 R366). -/
structure Wave where
  busy : Bool
  sent : Nat
  recv : Nat
  minst : Nat
  left : List Nat              -- clusters that have not combined yet
deriving DecidableEq, Repr

/-- A launch that the sequencer has accepted (spec/17 R363). -/
structure Launch where
  ctx    : BitVec 8
  lnch   : BitVec 8
  die    : Nat
  record : Msg
  rows   : List Nat
  tasks  : List (Nat × Msg)    -- initial task records not yet pushed: core, record
  base   : Nat                 -- messages and tasks that the sequencer counted in SENT
  err    : BitVec 7
  wave   : Option Wave         -- the wave on its way
  last   : Option Wave         -- the wave before
  rel    : Option Nat          -- release(T) on its way
  acks   : List Nat            -- cores that have not acknowledged it
  term   : Bool
  killed : Bool
deriving DecidableEq, Repr

/-- A Pour at a hub (spec/14 R317 to R323). -/
structure Pour where
  core    : Nat
  seq     : Nat
  cluster : Nat
  ch      : Nat
  block   : Msg
  moving  : Bool
  landed  : List (Nat × List (Nat × Nat))   -- receiver (a core, or 8,192 for a handle), ranges of the tile's bytes that have landed: first, end
  taken   : List Nat           -- receivers that took their completion step
  again   : List Nat           -- receivers whose effects of that step stand from before a strike (spec/15 R337)
  abort   : Option Nat
  saved   : Bool
  pre     : List (Nat × Line)  -- pre-images of a handle destination, by PA
deriving DecidableEq, Repr

/-- A published entry of a spill queue (spec/17 R369): message and target core stand in DRAM at `pa`; what a MIGR record holds beside its
header does not fit in 128 bytes and is kept here (log 48). -/
structure Spilled where
  pa   : Nat
  migr : Option MigrRec
  born : Nat
deriving DecidableEq, Repr

/-- A context (spec/20 R384): its descriptor, and what the device keeps with it. -/
structure Ctx where
  d      : Vector W64 16
  tstop  : Bool                -- tracing stopped (spec/20 R402)
  rsize  : Nat                 -- SIZE of the trap ring as read at CONFIG or SWAP (spec/11 R284)
  spill  : List Spilled        -- in the order of publication
  drain  : Option Nat          -- a SWAP in progress: its command channel
  out    : Bool                -- its exchange has begun (spec/20 R387, step 5)
  last9  : Nat                 -- running time of the partition's last commit or engine completion step
  since9 : Nat                 -- running time at which the context came to its partition
deriving DecidableEq, Repr

/-- A command channel (spec/21 R408). -/
structure Channel where
  regs   : Vector W64 6        -- the operand words as the host sees them
  ops    : Vector W64 6        -- the operands of the command, taken when OPCODE was written
  busy   : Bool
  ovr    : Bool
  code   : BitVec 8
  opcode : W64
  work   : Bool                -- the command has done its work and only its completion is owed
  pos    : Nat                 -- sectors that TAGSET has retagged
deriving DecidableEq, Repr

inductive SState where
  | idle | running | ended | error
deriving DecidableEq, Repr

/-- A graph slot (spec/21 R413). -/
structure Slot where
  st   : SState
  err  : BitVec 8
  ctx  : BitVec 8
  gh   : Nat
  node : Nat
  iter : BitVec 16
  cur  : Option Msg            -- the node as it was read
  done : Option Nat            -- the node has completed: its successor
  since : Nat
  sub  : Bool                  -- a LAUNCH node has submitted its record
  sent : Option Msg := none    -- the record that it submitted
deriving DecidableEq, Repr

/-- A host ring (spec/21 R418 to R421). -/
structure HRing where
  base : W64
  cfg  : W64
  thr  : W64
  cons : Nat
  u    : Nat
  since : Nat
  reread : Nat
deriving DecidableEq, Repr

/-- A Rencia port (spec/24 R435 to R438). -/
structure Port where
  up     : Bool
  dup    : Bool
  npkg   : BitVec 8
  nport  : BitVec 4
  naks   : BitVec 16
  downs  : BitVec 16
  rxNext : BitVec 12
  rx     : List Flit           -- flits of the packet that is arriving
  txNext : BitVec 12           -- SEQ of the next flit that leaves
  tx     : List Flit           -- flits sent, kept until acknowledged
  resend : List Flit           -- flits that the last replay sent again (spec/24 R436)
  times  : Nat                 -- consecutive replays of one flit
  first  : BitVec 12
  asked  : Option (BitVec 12)          -- the flit from which a nak wants a replay
  owed   : Option (Bool × BitVec 12)   -- the ack (true) or nak that left for the neighbour with the last flit
deriving DecidableEq, Repr

/-- A collective round at its combining points (spec/24 R445, R446). -/
structure CRound where
  ctx   : BitVec 8
  gid   : Nat
  round : Nat
  known : List (Nat × Nat)     -- ranks of its group and their entries of the rank map, as its members read them (spec/24 R442)
  word2 : W64                  -- N of the first contribution, by its block
  word3 : W64
  subs  : List (Nat × Nat × List Byte)   -- rank, level, subtotal
  ups   : List Nat             -- ranks here whose parent lies in another package
  told  : List Nat             -- those of them whose subtotal has left
  got   : List (Nat × List Byte)         -- results that came for them
  flags : BitVec 5
  done  : List Nat             -- ranks that have their result
  took  : List Nat             -- ranks that have taken their completion step
  fail  : Option Nat
  lastAt : Nat
deriving DecidableEq, Repr

/-- A posted host write at its ordering point (spec/21 R411). -/
structure HWrite where
  req  : Nat
  off  : Nat
  data : List Byte
deriving DecidableEq, Repr

/-- The security engine (spec/21 R425). -/
structure Security where
  verified : Bool
  rollback : Nat               -- the anti-rollback counter
  version  : Nat
  image    : Nat               -- the firmware image that runs
  log      : List (Nat × Nat)  -- the SPDM transcript: request code, request
  answer   : Nat               -- the last answer over DOE, its signature, and measurement blocks 1 to 4 where it carries them
  sign     : Nat
  blocks   : List Nat
deriving DecidableEq, Repr

/-- A notice that waits in a cluster's buffer (spec/11 R286), with the launch that it counts for and its class (spec/17 R363). -/
structure Notice where
  ctx   : BitVec 8
  lnch  : Option (BitVec 8)
  cls   : Nat
  words : List W64
  late  : Bool                 -- raised while its core's report stood, whose record comes first (spec/11 R285)
deriving DecidableEq, Repr

/-- An entry of a cluster's shared translation table (spec/17 R350): pages of 2 MiB. -/
structure TableEntry where
  cluster  : Nat
  ctx      : BitVec 8
  vpage    : Nat
  ppage    : Nat
  writable : Bool
deriving DecidableEq, Repr

/-- The steps that the package takes of itself, as rows of the opcode table name them; what only the outside does (a strike, a flit, a
host write, a reset) is not among them. -/
inductive Auto where
  | releaseEntries | landEntry | entryAck | commit | commitNoticeServe | commitComplete | abortNoticeServe | requestServe | replyArrival
  | resultDelivery | retransmitTimeout | strikeReport | budgetExhausted | dispatch | stealAttempt | stealWaitExpiry | park | watchReady
  | trapHandlerDispatch | trapRingResume | ploadExecute | pswapExecute | prunFinish | ptestFinish | grinderSliceFinish
  | engineCompletion | enginePreimageFree | pourStart | pourFlitLand | pourReceiverCompletion | streamFill | gangForm | gangWaitTimeout
  | dripLand | idleAdvance | idleDripPeriod | releaseMark | waveStart | waveCombine | doneBlockWrite | taskRecordPush | leaseDrained
  | leaseLoaded | linkReplay | collContribute | collCombine | collResultLand | collOutputExpiry | command | swapSettle | swapEnter
  | rowReloadDone | haltRecordWrite | stepDone | revokeDone | graphNode | graphWaitTimeout | graphNodeDone | ringConsReread
  | ringInterruptTimer | postedRelease | commandCompletion
deriving DecidableEq, Repr

/-- What moves next (spec/01 R17): a core issues, an agent takes a step that a row of the opcode table names, the package takes one
of its own steps on the units a, b and c, or stored symbols of a DRAM sector are upset (spec/17 R347, log 63). -/
inductive Turn where
  | issue (core : Nat)
  | event (i : Instr)
  | own (n : Auto) (a b c : Nat)
  | upset (sector : Nat) (flips : List (Nat × Byte))
deriving DecidableEq, Repr

/-- The package. `me` is core `cur`, whose turn it is; the other cores that have left their reset state are in `others`, by number. -/
structure State where
  cur    : Nat
  me     : Core
  others : List (Nat × Core)
  agenda : List Turn
  -- network and homes (spec/01 R15, spec/17)
  chan   : List Packet
  staged : List Staged
  seqs   : List (Nat × Nat)                 -- next sequence number by src × 2^24 + dst
  filter : List (Nat × List (Nat × Body))   -- by src × 2^24 + dst: the recorded numbers and their replies
  dram   : Mem
  dtag   : List (Nat × BitVec 4)
  dpois  : List Nat
  derr   : List (Nat × List (Nat × Byte))       -- by sector: stored symbols that differ from the codeword (spec/17 R347)
  dlocks : List Lock
  host   : Mem
  corrected : List (Nat × Nat)                  -- corrected-error counts by slice (spec/17 R348)
  tables  : List TableEntry                 -- the clusters' shared translation tables (spec/17 R350)
  -- hubs (spec/14, spec/15)
  leases  : List (Nat × Lease)
  leases0 : List (Nat × Lease)              -- ctx × 1,024 + row: the lease words of contexts that are out
  pours   : List Pour
  pours0  : List (Nat × Pour)               -- Pours of contexts that are out, by context (spec/20 R389)
  notices : List (Nat × List Notice)
  strikes : List (Nat × Nat × List (Nat × Nat))   -- cluster, region, clk of its cores at the strike: no report yet
  reload  : List Nat
  -- launches (spec/17) and collectives (spec/24)
  launches : List Launch
  rounds   : List CRound
  -- contexts (spec/20)
  ctxs    : List (Nat × Ctx)
  images  : List (Nat × Core)               -- ctx × 8,192 + core: the saved cores
  -- host interface (spec/21)
  chans   : Vector Channel 4
  slots   : List (Nat × Slot)
  rings   : List (Nat × HRing)
  bkpts   : List (Nat × W64)
  weights : Vector W64 4
  power   : Vector (BitVec 2) 4
  trip    : Bool
  ready   : Vector W64 3
  fails   : Vector W64 3
  barSize : Nat                             -- the size that the host has chosen for BAR2 (spec/21 R405, R406)
  barTag  : W64
  misCnt  : W64
  uncCnt  : W64
  msix    : List Nat
  msixTab : List (Nat × W64)
  posted  : List HWrite
  readData : List Byte
  readOk  : Bool
  sec     : Security
  haltBufs : List (Nat × W64)
  -- fabric (spec/24)
  pkgid   : BitVec 8
  tmaster : Bool
  sync    : Bool
  routes  : List (Nat × W64)
  ports   : List (Nat × Port)
  skew    : Int                             -- owed correction of global time
  gt9     : Nat                             -- global time in ninths of gt
  el9     : Nat                             -- running time since reset in ninths of gt, without corrections
  nchoice : Nat
deriving DecidableEq, Repr

/-- The machine stops with a fault only where a step names a unit that the package does not have. -/
inductive Fault where
  /-- A step of the agenda names a core, cluster, row, die, slot, channel, port or ring that spec/00 R2 and the unit's own
  rule do not give the package. Raised by every step that carries such a number. Safe: no unit of the device takes it. -/
  | noSuchUnit
deriving DecidableEq, Repr

/-- A step that the model refuses. -/
inductive Refusal where
  /-- An arm of exec whose meaning is not written yet. Safe: nothing is claimed of it. -/
  | notModelled (mnemonic : String)
deriving DecidableEq, Repr

/-! ### The state after reset -/

def Regs.reset : Regs :=
  ⟨Vector.replicate 64 .vacant, Vector.replicate 32 .vacant, Vector.replicate 8 .vacant⟩

def Ctl.reset : Ctl := ⟨0, 0, 0, 0, 0, 0, 0, 0, 0⟩

def Msg.zero : Msg := Vector.replicate 8 0

def Act.reset : Act := ⟨0, 0, 0, Msg.zero, none, false, .mailbox, false, 0, false, true, false, 0, 0, false, 0⟩

def Ckpt.reset : Ckpt := ⟨false, Act.reset, Regs.reset, Ctl.reset, 0, [], 0, 0, [], none, none, 0, ⟨0, 0, 0, 0⟩⟩

/-- Banks 0 to 13 ARRAY, bank 14 DEQUE, bank 15 the mailbox (spec/07 R165). -/
def Bank.reset (d : Struct) : Bank := ⟨d, 0xF, 0, false, 1, 0⟩

def LocalTime.reset : LocalTime := ⟨false, 0, 0, 0, false, [], [], 0⟩

/-- f64 zeros without scales (spec/09 R229). -/
def Plane.reset : Plane := ⟨.f64, false, [], false⟩

def Grinder.reset : Grinder := ⟨.idle, 0, false, 0, 0, 0, 0, []⟩

def Core.reset : Core where
  id := 0
  running := false
  act := Act.reset
  regs := Regs.reset
  ctl := Ctl.reset
  pc := 0
  wait := none
  spin := 0
  pend := []
  reads := []
  marks := []
  irrev := none
  report := none
  raised := none
  frame := none
  parks := []
  streams := []
  seg := ⟨1, [], [], [], [], [], [], none⟩
  closing := []
  pubs := []
  confirmed := Ckpt.reset
  past := []
  again := []
  rcache := []
  mseq := 0
  tseq := 0
  mem := []
  owner := []
  poison := []
  banks := #v[Bank.reset .array, Bank.reset .array, Bank.reset .array, Bank.reset .array, Bank.reset .array,
    Bank.reset .array, Bank.reset .array, Bank.reset .array, Bank.reset .array, Bank.reset .array,
    Bank.reset .array, Bank.reset .array, Bank.reset .array, Bank.reset .array, Bank.reset .deque,
    Bank.reset .mailbox]
  imgSlot := none
  mailbox := []
  deque := []
  dqTop := 0
  mbHead := 0
  imem := []
  handlers := []
  loaded := false
  acc := []
  accOwner := []
  accPoison := []
  derived := []
  active := Plane.reset
  shadow := Plane.reset
  fenced := false
  lseq := 0
  grinder := Grinder.reset
  engSeq := 0
  ops := []
  ring := []
  planes0 := []
  grind0 := []
  locks := []
  traceOut := []
  pours := []
  colls := []
  rounds := []
  lt := LocalTime.reset
  owed := []
  prio := (0, 0, 0)
  stealCtr := []
  stealWait := 0
  victims := 0
  sent := []
  recv := []
  gang := none
  gangWait := none
  reserved := none
  tlb := []
  stopped := false
  halted := none
  haltClk := 0
  haltPc := 0
  steps := none
  rpos := 0
  passing := none
  clk := 0
  at9 := 0
  nact := 0
  nord := 0
  nund := 0

/-- Descriptor of context n after reset (spec/20 R384): its id, and no trace ring. -/
def Ctx.reset (n : Nat) : Ctx :=
  ⟨#v[BitVec.ofNat 64 (n % 256 * 2 ^ 56), 0, 0, 0, 0, 0, 0xFFFF000000000000, 0, 0, 0, 0, 0, 0, 0, 0, 0],
    false, 0, [], none, false, 0, 0⟩

def Lease.reset : Lease := ⟨.free, 0, none, 0, []⟩
def Channel.reset : Channel := ⟨Vector.replicate 6 0, Vector.replicate 6 0, false, false, 0, 0, false, 0⟩
def Slot.reset : Slot := ⟨.idle, 0, 0, 0, 0, 0, none, none, 0, false, none⟩
def HRing.reset : HRing := ⟨0, 0, 1, 0, 0, 0, 0⟩
def Port.reset : Port := ⟨false, false, 0, 0, 0, 0, 0, [], 0, [], [], 0, 0, none, none⟩

/-- The package right after reset (spec/21 R424): nothing is ready, no context exists, every core is idle. -/
def State.reset : State where
  cur := 0
  me := Core.reset
  others := []
  agenda := []
  chan := []
  staged := []
  seqs := []
  filter := []
  dram := []
  dtag := []
  dpois := []
  derr := []
  dlocks := []
  host := []
  corrected := []
  tables := []
  leases := []
  leases0 := []
  pours := []
  pours0 := []
  notices := []
  strikes := []
  reload := []
  launches := []
  rounds := []
  ctxs := []
  images := []
  chans := Vector.replicate 4 Channel.reset
  slots := []
  rings := []
  bkpts := []
  weights := #v[0, 0, 0, 0]
  power := #v[0, 0, 0, 0]
  trip := false
  ready := #v[0, 0, 0]
  fails := #v[0, 0, 0]
  barSize := 2 ^ 39
  barTag := 0
  misCnt := 0
  uncCnt := 0
  msix := []
  msixTab := []
  posted := []
  readData := []
  readOk := true
  sec := ⟨false, 0, 0, 0, [], 0, 0, []⟩
  haltBufs := []
  pkgid := 0
  tmaster := false
  sync := false
  routes := []
  ports := []
  skew := 0
  gt9 := 0
  el9 := 0
  nchoice := 0

end Sys2Proof.Machine
end

