-- ==== Sys2Proof/Machine/Memory.lean ====
section
/-! DEFINITION. Bytes, words, lines and the canonical memory, and maps by number. -/

namespace Sys2Proof.Machine

/-! ### Memory: strictly rising addresses, no zero byte -/

def Mem.byte : Mem → Nat → Byte
  | [], _ => 0
  | (k, x) :: m, a => if a < k then 0 else if a = k then x else Mem.byte m a

def Mem.set : Mem → Nat → Byte → Mem
  | [], a, x => if x = 0 then [] else [(a, x)]
  | (k, y) :: m, a, x =>
    if a < k then (if x = 0 then (k, y) :: m else (a, x) :: (k, y) :: m)
    else if a = k then (if x = 0 then m else (k, x) :: m)
    else (k, y) :: Mem.set m a x

/-- Every address of m is at least a, they rise, and no byte is zero. -/
def Mem.wfFrom : Nat → Mem → Bool
  | _, [] => true
  | a, (k, x) :: m => decide (a ≤ k) && decide (x ≠ 0) && Mem.wfFrom (k + 1) m

/-- The canonical form. -/
def Mem.wf (m : Mem) : Bool := Mem.wfFrom 0 m

def Mem.put : Mem → Nat → List Byte → Mem
  | m, _, [] => m
  | m, a, x :: xs => Mem.put (Mem.set m a x) (a + 1) xs

def Mem.bytes (m : Mem) (a : Nat) : Nat → List Byte
  | 0 => []
  | n + 1 => Mem.byte m a :: Mem.bytes m (a + 1) n

/-- The n bytes at a, removed from the list, read zero. -/
def Mem.clear (m : Mem) (a n : Nat) : Mem := m.filter fun c => decide (c.1 < a) || decide (a + n ≤ c.1)

/-- The bytes of m at a to a + n - 1, with their addresses counted from a. -/
def Mem.slice (m : Mem) (a n : Nat) : Mem :=
  (m.filter fun c => decide (a ≤ c.1) && decide (c.1 < a + n)).map fun c => (c.1 - a, c.2)

/-- The bytes at a to a + n - 1 become those of img, whose addresses count from a. -/
def Mem.splice (m : Mem) (a n : Nat) (img : Mem) : Mem :=
  img.foldl (fun m c => if c.1 < n then Mem.set m (a + c.1) c.2 else m) (Mem.clear m a n)

/-! ### Little-endian values -/

/-- The value of a list of bytes, the first the lowest. -/
def natOf : List Byte → Nat
  | [] => 0
  | x :: xs => x.toNat + 256 * natOf xs

def bytesOf (x : Nat) : Nat → List Byte
  | 0 => []
  | n + 1 => BitVec.ofNat 8 x :: bytesOf (x / 256) n

def Mem.nat (m : Mem) (a n : Nat) : Nat := natOf (Mem.bytes m a n)
def Mem.word (m : Mem) (a : Nat) : W64 := BitVec.ofNat 64 (Mem.nat m a 8)
def Mem.line (m : Mem) (a : Nat) : Line := BitVec.ofNat 512 (Mem.nat m a 64)
def Mem.putNat (m : Mem) (a n x : Nat) : Mem := Mem.put m a (bytesOf x n)

def lineBytes (l : Line) : List Byte := bytesOf l.toNat 64
def lineOf (bs : List Byte) : Line := BitVec.ofNat 512 (natOf bs)
def lineByte (l : Line) (k : Nat) : Byte := l.extractLsb' (8 * k) 8

/-- n bytes of a line from byte k, as a number. -/
def lineNat (l : Line) (k n : Nat) : Nat := (l.toNat >>> (8 * k)) % 256 ^ n

/-- The bytes of b where bit k of the mask is set, those of a elsewhere. -/
def mergeLine (a b : Line) (mask : W64) : Line :=
  lineOf ((List.range 64).map fun k => if mask.getLsbD k then lineByte b k else lineByte a k)

/-- The mask of n bytes from byte k. -/
def byteMask (k n : Nat) : W64 := BitVec.ofNat 64 ((2 ^ n - 1) * 2 ^ k)

/-- A line that holds x in n bytes from byte k and zero elsewhere. -/
def lineAt (k n x : Nat) : Line := BitVec.ofNat 512 ((x % 256 ^ n) * 2 ^ (8 * k))

def msgOf (ws : List W64) : Msg :=
  #v[ws.getD 0 0, ws.getD 1 0, ws.getD 2 0, ws.getD 3 0, ws.getD 4 0, ws.getD 5 0, ws.getD 6 0, ws.getD 7 0]
def msgBytes (m : Msg) : List Byte := m.toList.flatMap fun w => bytesOf w.toNat 8
def Mem.msg (m : Mem) (a : Nat) : Msg := msgOf ((List.range 8).map fun i => Mem.word m (a + 8 * i))
def wordBytes (ws : List W64) : List Byte := ws.flatMap fun w => bytesOf w.toNat 8

/-- Bits h to l of a word, as a number (spec/01 R11). -/
def bits (w : W64) (h l : Nat) : Nat := (w.toNat >>> l) % 2 ^ (h + 1 - l)

def ofNat (n : Nat) : W64 := BitVec.ofNat 64 n

/-- x placed at bit l of a word. -/
def put (x l : Nat) : Nat := x * 2 ^ l

/-- The value of a word's low n bits as two's complement. -/
def sext (x n : Nat) : Int := if 2 ^ n ≤ 2 * (x % 2 ^ n) then (x % 2 ^ n : Int) - 2 ^ n else (x % 2 ^ n : Int)

/-! ### Maps by number, rising -/

def aget {α : Type} : List (Nat × α) → Nat → Option α
  | [], _ => none
  | (k, x) :: l, a => if a = k then some x else aget l a

def aset {α : Type} : List (Nat × α) → Nat → α → List (Nat × α)
  | [], a, x => [(a, x)]
  | (k, y) :: l, a, x => if a < k then (a, x) :: (k, y) :: l else if a = k then (a, x) :: l else (k, y) :: aset l a x

def adel {α : Type} (l : List (Nat × α)) (a : Nat) : List (Nat × α) := l.filter fun p => decide (p.1 ≠ a)

/-- The number stored at a, zero where none is. -/
def anat (l : List (Nat × Nat)) (a : Nat) : Nat := (aget l a).getD 0

/-- Adds n to the number stored at a. -/
def aadd (l : List (Nat × Nat)) (a n : Nat) : List (Nat × Nat) := aset l a (anat l a + n)

/-- A number put into a rising list without repeats. -/
def nset : List Nat → Nat → List Nat
  | [], a => [a]
  | k :: l, a => if a < k then a :: k :: l else if a = k then k :: l else k :: nset l a

def nunion (a b : List Nat) : List Nat := b.foldl nset a

/-- The k-th element replaced. -/
def lset {α : Type} : List α → Nat → α → List α
  | [], _, _ => []
  | _ :: l, 0, y => y :: l
  | x :: l, k + 1, y => x :: lset l k y

/-- The k-th element removed. -/
def ldel {α : Type} : List α → Nat → List α
  | [], _ => []
  | _ :: l, 0 => l
  | x :: l, k + 1 => x :: ldel l k

end Sys2Proof.Machine
end

