-- ==== Sys2Proof/Machine/Sector.lean ====
section
/-! DEFINITION. The code of a DRAM sector: the field, the generator, the check bytes, the digest, the decoder (spec/17 R347, R348). -/

namespace Sys2Proof.Machine

/-! ### The field GF(2^8) of x^8 + x^4 + x^3 + x^2 + 1 -/

/-- α·a, for α = 0x02. -/
def gfDouble (a : Nat) : Nat := if a < 128 then 2 * a else (2 * a) ^^^ 0x11D

/-- The product of a and the low n bits of b. -/
def gfMulBits : Nat → Nat → Nat → Nat
  | 0, _, _ => 0
  | n + 1, a, b => (if b % 2 = 1 then a else 0) ^^^ gfMulBits n (gfDouble a) (b / 2)

def gfMul (a b : Nat) : Nat := gfMulBits 8 a b

/-- α^n. -/
def gfAlpha : Nat → Nat
  | 0 => 1
  | n + 1 => gfDouble (gfAlpha n)

/-- 1/a, the power 254 of a. -/
def gfInv (a : Nat) : Nat :=
  ((List.range 7).foldl (fun (r : Nat × Nat) _ => let q := gfMul r.1 r.1; (q, gfMul r.2 q)) (a, 1)).2

/-- A polynomial, its constant term first, at x. -/
def gfEval (x : Nat) : List Nat → Nat
  | [] => 0
  | c :: p => c ^^^ gfMul x (gfEval x p)

def gfAdd : List Nat → List Nat → List Nat
  | [], q => q
  | p, [] => p
  | a :: p, b :: q => (a ^^^ b) :: gfAdd p q

def gfScale (a : Nat) (p : List Nat) : List Nat := p.map (gfMul a)

def gfTimes : List Nat → List Nat → List Nat
  | [], _ => []
  | a :: p, q => gfAdd (gfScale a q) (0 :: gfTimes p q)

/-! ### The codeword (spec/17 R347) -/

/-- g(x), the product of x − α^j for j from 0 to 15. -/
def generator : List Nat := (List.range 16).foldl (fun p j => gfTimes [gfAlpha j, 1] p) [1]

/-- A step of the division by g(x): the remainder r of what came before, and the next symbol m below it. -/
def divStep (m : Nat) (r : List Nat) : List Nat :=
  let top := m ^^^ r.getD 15 0
  gfAdd (0 :: r.take 15) (gfScale top (generator.take 16))

/-- The check bytes of the symbols at positions 16 on, the highest divided first. -/
def checkBytes (ms : List Nat) : List Nat := ms.foldr divStep (List.replicate 16 0)

/-- The digest D of an address, low byte first. -/
def digest (pa : Nat) : List Nat := (bytesOf (pa / 64 * 0x9E3779B1 % 2 ^ 32) 4).map (·.toNat)

/-- The symbols at positions 16 to 84: data, tag, digest. -/
def message (data : List Byte) (tag : BitVec 4) (pa : Nat) : List Nat := data.map (·.toNat) ++ tag.toNat :: digest pa

def codeword (data : List Byte) (tag : BitVec 4) (pa : Nat) : List Nat :=
  checkBytes (message data tag pa) ++ message data tag pa

/-- The 80 stored symbols of a sector. -/
def stored (data : List Byte) (tag : BitVec 4) (pa : Nat) : List Nat := (codeword data tag pa).take 80

/-! ### The decoder (spec/17 R347) -/

def syndromes (w : List Nat) : List Nat := (List.range 16).map fun j => gfEval (gfAlpha j) w

/-- The state of the search for the shortest recurrence of the syndromes. -/
structure Recurrence where
  now  : List Nat
  last : List Nat
  len  : Nat
  gap  : Nat
  disc : Nat
deriving DecidableEq, Repr

/-- The recurrence takes syndrome n in. -/
def Recurrence.step (ss : List Nat) (n : Nat) (r : Recurrence) : Recurrence :=
  let d := (List.range (r.len + 1)).foldl (fun d i => d ^^^ gfMul (r.now.getD i 0) (ss.getD (n - i) 0)) 0
  if d = 0 then { r with gap := r.gap + 1 }
  else
    let next := gfAdd r.now (List.replicate r.gap 0 ++ gfScale (gfMul d (gfInv r.disc)) r.last)
    if 2 * r.len ≤ n then ⟨next, r.now, n + 1 - r.len, 1, d⟩ else { r with now := next, gap := r.gap + 1 }

/-- The polynomial whose roots are the inverses of the error places. -/
def locator (ss : List Nat) : List Nat × Nat :=
  let r := (List.range 16).foldl (fun (r : Recurrence) n => r.step ss n) ⟨[1], [1], 0, 1, 1⟩
  (r.now, r.len)

/-- The derivative of a polynomial: of the odd powers. -/
def derivative (p : List Nat) : List Nat := (p.zipIdx.drop 1).map fun x => if x.2 % 2 = 1 then x.1 else 0

/-- Errors by position, with what is added to the symbol there; none where the decoder fails. -/
def decodeErrors (w : List Nat) : Option (List (Nat × Nat)) :=
  let ss := syndromes w
  if ss.all (· == 0) then some []
  else
    let (l, n) := locator ss
    let omega := (gfTimes ss l).take 16
    let at_ := (List.range 85).filter fun i => gfEval (gfAlpha ((255 - i) % 255)) l == 0
    let es := at_.map fun i =>
      let x := gfAlpha ((255 - i) % 255)
      (i, gfMul (gfAlpha i) (gfMul (gfEval x omega) (gfInv (gfEval x (derivative l)))))
    let fixed := es.foldl (fun w e => w.set e.1 (w.getD e.1 0 ^^^ e.2)) w
    if n ≤ 8 ∧ at_.length = n ∧ (syndromes fixed).all (· == 0) then some es else none

end Sys2Proof.Machine
end

