-- ==== Sys2Proof/Machine/Package.lean ====
section
/-! DEFINITION. Cores and their numbers, contexts, handles, physical memory, translation, rings and counters. -/

namespace Sys2Proof.Machine

abbrev Out := Host.Outcome State Fault Refusal

/-! ### Cores (spec/03 R48, spec/14 R293) -/

def clusterOf (core : Nat) : Nat := core / 64
def dieOf (core : Nat) : Nat := core / 2048
def rowOf (core : Nat) : Nat := core % 64 / 8

def State.core (s : State) (k : Nat) : Core := if k = s.cur then s.me else (aget s.others k).getD { Core.reset with id := k }

def State.setCore (s : State) (k : Nat) (c : Core) : State :=
  if k = s.cur then { s with me := c } else { s with others := aset s.others k c }

/-- Core k comes into focus. -/
def State.focus (s : State) (k : Nat) : State :=
  if k = s.cur then s
  else { s with cur := k, me := s.core k, others := aset (adel s.others k) s.cur s.me }

/-- A step that core k takes, written for the core in focus. -/
def onCore (k : Nat) (f : State → State) (s : State) : State :=
  if k = s.cur then f s else (f (s.focus k)).focus s.cur

/-- The numbers of the cores that have left their reset state, and of the core in focus. -/
def State.cores (s : State) : List Nat := nset (s.others.map (·.1)) s.cur

def State.coreList (s : State) : List (Nat × Core) := s.cores.map fun k => (k, s.core k)

/-- Every core of the list takes a step. -/
def onCores (ks : List Nat) (f : State → State) (s : State) : State := ks.foldl (fun s k => onCore k f s) s

/-! ### Contexts (spec/20 R383, R384) -/

def State.ctx (s : State) (k : Nat) : Ctx := (aget s.ctxs k).getD (Ctx.reset k)
def State.setCtx (s : State) (k : Nat) (x : Ctx) : State := { s with ctxs := aset s.ctxs k x }

/-- Word i of a descriptor. -/
def Ctx.w (x : Ctx) (i : Nat) : W64 := x.d.toList.getD i 0
def Ctx.setW (x : Ctx) (i : Nat) (v : W64) : Ctx := { x with d := x.d.setIfInBounds i v }

/-- STATE: 0 FREE, 1 RUNNING, 2 SHADOW, 3 SAVED, 4 SWITCHING, 5 KILLED. -/
def Ctx.state (x : Ctx) : Nat := bits (x.w 0) 55 53
def Ctx.setState (x : Ctx) (n : Nat) : Ctx :=
  x.setW 0 (ofNat ((x.w 0).toNat - put (bits (x.w 0) 55 53) 53 + put n 53))
def Ctx.hasCluster (x : Ctx) (cl : Nat) : Bool := if cl < 64 then (x.w 1).getLsbD cl else (x.w 2).getLsbD (cl - 64)
def Ctx.clusters (x : Ctx) : List Nat := (List.range 128).filter x.hasCluster
def Ctx.coreList (x : Ctx) : List Nat := x.clusters.flatMap fun cl => (List.range 64).map (64 * cl + ·)
def Ctx.sched (x : Ctx) : Bool := (x.w 0).getLsbD 51
def Ctx.bkhalt (x : Ctx) : Bool := (x.w 0).getLsbD 50
def Ctx.recording (x : Ctx) : Bool := (x.w 0).getLsbD 49
def Ctx.rpl (x : Ctx) : Bool := (x.w 0).getLsbD 48

/-- A context that runs, or is draining before its exchange (spec/17 R368). -/
def Ctx.here (x : Ctx) : Bool := x.state == 1 || (x.state == 4 && !x.out)

/-- The current context of a cluster. -/
def State.curCtx (s : State) (cl : Nat) : Option Nat :=
  (s.ctxs.find? fun p => p.2.here && p.2.hasCluster cl).map (·.1)

/-! ### Physical memory (spec/17 R345) -/

def hostBit : Nat := 2 ^ 55

def State.physBytes (s : State) (pa n : Nat) : List Byte :=
  if hostBit ≤ pa then Mem.bytes s.host (pa - hostBit) n else Mem.bytes s.dram pa n

def State.physPut (s : State) (pa : Nat) (bs : List Byte) : State :=
  if hostBit ≤ pa then { s with host := Mem.put s.host (pa - hostBit) bs } else { s with dram := Mem.put s.dram pa bs }

def State.physWord (s : State) (pa : Nat) : W64 := ofNat (natOf (s.physBytes pa 8))
def State.physMsg (s : State) (pa : Nat) : Msg := msgOf ((List.range 8).map fun i => s.physWord (pa + 8 * i))

/-- Allocation tag of the sector that holds pa; zero at first (spec/17 R349). -/
def State.tagAt (s : State) (pa : Nat) : BitVec 4 := (aget s.dtag (pa / 64)).getD 0

/-- Sectors that n bytes at pa touch. -/
def sectorsOf (pa n : Nat) : List Nat := if n = 0 then [] else (List.range ((pa + n - 1) / 64 + 1 - pa / 64)).map (pa / 64 + ·)

/-- The 85 symbols that the decoder of sector x reads under a tag: what is stored, upset symbols among it, then the tag of the access and
the digest of the address (spec/17 R347). -/
def State.sectorWord (s : State) (x : Nat) (tag : BitVec 4) : List Nat :=
  let w := stored (s.physBytes (64 * x) 64) (s.tagAt (64 * x)) (64 * x)
  ((aget s.derr x).getD []).foldl (fun w e => w.set e.1 (w.getD e.1 0 ^^^ e.2.toNat)) w ++ tag.toNat :: digest (64 * x)

/-- Sector x decodes under a tag as uncorrectable, or as another address's (spec/17 R348). One whose stored symbols are those of its
codeword does not. -/
def State.sectorBadAs (s : State) (tag : BitVec 4) (x : Nat) : Bool :=
  s.dpois.contains x || ((aget s.derr x).isSome && (match decodeErrors (s.sectorWord x tag) with
    | none => true
    | some es => es.any fun e => decide (80 < e.1)))

/-- The same under its own tag. -/
def State.sectorBad (s : State) (x : Nat) : Bool := s.sectorBadAs (s.tagAt (64 * x)) x

/-- One of n bytes of physical memory at pa is uncorrectable; host memory has no sectors. -/
def State.physBad (s : State) (pa n : Nat) : Bool := decide (pa < hostBit) && (sectorsOf pa n).any s.sectorBad

/-- The slice that serves a device byte: 16 for each die (spec/17 R345). -/
def sliceOf (pa : Nat) : Nat := pa / 2 ^ 37 % 4 * 16 + pa / 4096 % 16

/-- The same for an access that carries a tag. -/
def State.physBadAs (s : State) (tag : BitVec 4) (pa n : Nat) : Bool := decide (pa < hostBit) && (sectorsOf pa n).any (s.sectorBadAs tag)

/-- A read of sector x under a tag: what is corrected is written back and counted; a misdirected write, of which the second part tells,
poisons the sector. Data that the decoder gives up on stays as it is (spec/17 R348). -/
def State.decode1 (s : State) (tag : BitVec 4) (x : Nat) : State × Bool :=
  if s.dpois.contains x || (aget s.derr x).isNone then (s, false)
  else
    let w := s.sectorWord x tag
    match decodeErrors w with
    | none => (s, false)
    | some es =>
      let s := { s with derr := adel s.derr x }
      if es.any fun e => decide (80 < e.1) then ({ s with dpois := nset s.dpois x }, true)
      else
        let fixed := es.foldl (fun w e => w.set e.1 (w.getD e.1 0 ^^^ e.2)) w
        let t := BitVec.ofNat 4 (fixed.getD 80 0)
        let data := ((fixed.drop 16).take 64).map (BitVec.ofNat 8)
        let s := { s with dram := Mem.put s.dram (64 * x) data, dtag := if t = 0 then adel s.dtag x else aset s.dtag x t }
        (if es.any fun e => e.1 == 80 then s else { s with corrected := aadd s.corrected (sliceOf (64 * x)) 1 }, false)

/-- A unit reads the line of a table or a ring at pa. -/
def State.readLine (s : State) (pa : Nat) : State := if hostBit ≤ pa then s else (s.decode1 (s.tagAt pa) (pa / 64)).1

/-- A write to device memory makes new codewords of the sectors it covers whole (spec/17 R354). -/
def State.clearPoison (s : State) (pa n : Nat) : State :=
  let whole := fun (x : Nat) => decide (pa ≤ 64 * x) && decide (64 * x + 64 ≤ pa + n)
  if hostBit ≤ pa then s else { s with dpois := s.dpois.filter fun x => !whole x, derr := s.derr.filter fun x => !whole x.1 }

/-- A device PA: bit 55 clear, bits 54:47 zero. -/
def devPa (pa : Nat) : Bool := decide (pa < 2 ^ 47)

/-- The package's own part of device memory. -/
def State.ownPa (s : State) (pa : Nat) : Bool := devPa pa && decide (pa / 2 ^ 39 = s.pkgid.toNat)

/-! ### Nodes of other packages and the routes to them (spec/24 R433, R437) -/

/-- Nodes of a package take this many numbers. -/
def nodeSpan : Nat := 32768

/-- Node t of package p, seen from another package. -/
def farNode (p t : Nat) : Nat := nodeSpan * (p + 1) + t

/-- The package of a node; none for the nodes of this one. -/
def nodePkg (n : Nat) : Option Nat := if n < nodeSpan then none else some (n / nodeSpan - 1)

def State.port (s : State) (q : Nat) : Port := (aget s.ports q).getD Port.reset
def State.setPort (s : State) (q : Nat) (p : Port) : State := { s with ports := aset s.ports q p }

/-- The primary port of the route to package p, and the egress port: PRI, or ALT while PRI is down and AEN is set. -/
def State.routeTo (s : State) (p : Nat) : W64 := (aget s.routes p).getD 0
def State.primary (s : State) (p : Nat) : Nat := bits (s.routeTo p) 3 0
def State.egress (s : State) (p : Nat) : Option Nat :=
  let w := s.routeTo p
  if !w.getLsbD 63 then none
  else if (s.port (bits w 3 0)).up then some (bits w 3 0)
  else if w.getLsbD 62 && (s.port (bits w 7 4)).up then some (bits w 7 4)
  else none

/-- The port that a node of another package is reached through. -/
def State.portFor (s : State) (p : Nat) : Nat := (s.egress p).getD (s.primary p)

/-- Where a physical address lives. -/
def State.home (s : State) (pa : Nat) : Home :=
  if hostBit ≤ pa then .host (pa - hostBit) else if s.ownPa pa then .dev pa else .farDev pa

/-! ### Slice buffers (spec/17 R346) -/

def sliceBuffer : Nat := 4 * 2 ^ 20

/-- Bytes of a slice's buffer in use: staged entries, those bound for a spill queue at the slice of their place there, and pre-images of
Pours, for W after their completion too (spec/09 R224, spec/14 R318). A resume delivers a spill queue in one step, which no entry outlasts. -/
def State.bufferUsed (s : State) (dst : Nat) : Nat :=
  64 * ((s.staged.filter fun g => (g.spill.map fun pa => 8192 + sliceOf pa).getD g.dst == dst).length +
    ((s.pours.flatMap (·.pre) ++ s.coreList.flatMap fun x => x.2.ops.flatMap (·.pre)).filter fun x => 8192 + sliceOf x.1 == dst).length)

/-- n bytes of another package's device memory at pa (log 64). -/
def State.farBytes (s : State) (pa n : Nat) : List Byte :=
  (List.range n).map fun i => Config.farByte s.el9 (pa + i) (Mem.byte s.dram (pa + i))

/-! ### Handles (spec/20 R385) -/

structure Handle where
  w0   : W64
  rd   : Bool
  wr   : Bool
  host : Bool
  tag  : BitVec 4
  len  : Nat
  base : Nat
deriving DecidableEq, Repr

def State.handleEntry (s : State) (ctx h : Nat) : W64 × W64 :=
  let pa := (s.ctx ctx |>.w 4).toNat + 16 * h
  (s.physWord pa, s.physWord (pa + 8))

/-- A valid handle of a context; an entry that is uncorrectable gives none (spec/17 R354). -/
def State.handle (s : State) (ctx h : Nat) : Option Handle :=
  let x := s.ctx ctx
  if bits (x.w 0) 15 0 ≤ h then none
  else
    let (a, b) := s.handleEntry ctx h
    let len := bits a 47 0
    let base := bits b 55 0
    let host := a.getLsbD 60
    let inRange := if host then decide (hostBit ≤ base) && decide (base + len ≤ 2 ^ 56)
      else decide (base + len ≤ 2 ^ 47)
    if a.getLsbD 63 && inRange && !s.physBad ((x.w 4).toNat + 16 * h) 16 then
      some ⟨a, a.getLsbD 62, a.getLsbD 61, host, a.extractLsb' 52 4, len, base⟩
    else none

/-- The tag of the handle that a handle-and-offset word names. -/
def State.handleTag (s : State) (ctx : Nat) (w : W64) : BitVec 4 := ((s.handle ctx (bits w 63 48)).map (·.tag)).getD 0

/-- The tag of a handle's entry is that of every sector (spec/17 R349). -/
def State.tagsOk (s : State) (ctx : Nat) (w : W64) (pa len : Nat) : Bool :=
  (sectorsOf pa len).all fun x => s.tagAt (64 * x) == s.handleTag ctx w

/-- n bytes at pa cannot be taken under a handle: one is uncorrectable, or a sector's tag differs (spec/17 R349, R354). -/
def State.sourceBad (s : State) (ctx : Nat) (w : W64) (pa n : Nat) : Bool := s.physBad pa n || (s.ownPa pa && !s.tagsOk ctx w pa n)

/-- POURERR code of an engine range: 1 invalid handle, 2 outside its range, 3 right missing (spec/14 R307, R317). -/
def State.handleFault (s : State) (ctx h off len : Nat) (write : Bool) : Option Nat :=
  match s.handle ctx h with
  | none => some 1
  | some x => if x.len < off + len then some 2 else if (if write then x.wr else x.rd) then none else some 3

/-- The PA of a handle-and-offset word, of n bytes. -/
def State.hptr (s : State) (ctx : Nat) (w : W64) (n : Nat) : Option Nat :=
  match s.handle ctx (bits w 63 48) with
  | none => none
  | some x => if bits w 47 0 + n ≤ x.len then some (x.base + bits w 47 0) else none

/-! ### Translation (spec/17 R350 to R352) -/

/-- A table entry that a walk cannot use (spec/17 R351). `z` is the page size when it is a leaf. -/
def State.badEntry (s : State) (e : W64) (z : Nat) : Bool :=
  let pa := bits e 55 12 * 4096
  bits e 60 56 != 0 || bits e 11 8 != 0 ||
    (if e.getLsbD 61 then (decide (pa < hostBit) && !devPa pa) || pa % 2 ^ z != 0 else !s.ownPa pa)

/-- What ends a walk without a page: word 6 of the XLATE record, or a table line that is uncorrectable. -/
inductive Unmapped where
  | xlate (w6 : W64)
  | uncorr
deriving DecidableEq, Repr

/-- The walk from level j. -/
def State.walk (s : State) (ctx : Nat) (va : W64) (write : Bool) : Nat → Nat → Nat → Except Unmapped Nat
  | 0, _, _ => .error (.xlate 1)
  | fuel + 1, j, t =>
    let ix := if j = 0 then bits va 55 48 else if j = 1 then bits va 47 39 else if j = 2 then bits va 38 30 else bits va 29 21
    let z := if j = 2 then 30 else 21
    let e := s.physWord (t + 8 * ix)
    if s.physBad (t + 8 * ix) 8 then .error .uncorr
    else if !e.getLsbD 63 || s.badEntry e z || bits e 7 0 != ctx then .error (.xlate 1)
    else if e.getLsbD 61 then
      if j < 2 then .error (.xlate 1)
      else if write && !e.getLsbD 62 then .error (.xlate 2)
      else .ok (bits e 55 z * 2 ^ z + bits va (z - 1) 0)
    else if j = 3 then .error (.xlate 1)
    else s.walk ctx va write fuel (j + 1) (bits e 55 12 * 4096)

def State.translate (s : State) (ctx : Nat) (va : W64) (write : Bool) : Except Unmapped Nat :=
  s.walk ctx va write 4 0 ((s.ctx ctx).w 3).toNat

/-- The page of a virtual address in the core's own table (spec/17 R350): VA page, PA page, writable, by 2 MiB. -/
def cached (c : Core) (va : W64) (write : Bool) : Option (Except Unmapped Nat) :=
  match c.tlb.find? fun e => e.1 == bits va 55 21 with
  | none => none
  | some e => some (if write && !e.2.2 then .error (.xlate 2) else .ok (e.2.1 * 2 ^ 21 + bits va 20 0))

/-- The page in the shared table of the cluster of the core in focus. -/
def State.shared (s : State) (va : W64) (write : Bool) : Option (Except Unmapped Nat) :=
  match s.tables.find? fun e => e.cluster == clusterOf s.cur && e.ctx == s.me.act.ctx && e.vpage == bits va 55 21 with
  | none => none
  | some e => some (if write && !e.writable then .error (.xlate 2) else .ok (e.ppage * 2 ^ 21 + bits va 20 0))

/-- The PA of a thread access of the core in focus: its own table, its cluster's, then the walk. -/
def State.pa (s : State) (va : W64) (write : Bool) : Except Unmapped Nat :=
  match cached s.me va write, s.shared va write with
  | some r, _ => r
  | none, some r => r
  | none, none => s.translate s.me.act.ctx.toNat va write

/-! ### Addresses (spec/05 R137, spec/07 R160, R161) -/

/-- What an address names, by the rows of spec/05 R137. -/
inductive Place where
  | own (off : Nat)              -- the private alias, an ARRAY bank
  | window (bank off : Nat)      -- the private alias, another personality
  | raw (off : Nat)
  | core (n off : Nat)           -- the core-memory window, by core number of the package
  | far (pkg core off : Nat)     -- the window of another package's core
  | virt
  | none
deriving DecidableEq, Repr

/-- Personality of a bank; a member of a span answers with its leader's. -/
def Struct.isArray : Struct → Bool
  | .array => true
  | _ => false

def Core.bank (c : Core) (b : Nat) : Bank := c.banks.toList.getD b (Bank.reset .array)
def Core.setBank (c : Core) (b : Nat) (x : Bank) : Core := { c with banks := c.banks.setIfInBounds b x }

/-- Bank b is ARRAY to context x: a structure of another context becomes one when x meets it (spec/07 R162). -/
def Core.isArrayFor (c : Core) (x : BitVec 8) (b : Nat) : Bool :=
  (c.bank b).data.isArray || (decide (b < 14) && (c.bank b).owner != x)
def Core.isArray (c : Core) (b : Nat) : Bool := c.isArrayFor c.act.ctx b

/-- Context x meets the metadata of bank b: a structure of another context becomes an empty ARRAY, the deque and the mailbox
empty, and the core leaves local-time mode (spec/07 R162). -/
def Core.claimBank (c : Core) (x : BitVec 8) (b : Nat) : Core :=
  let k := c.bank b
  if k.owner = x then c
  else if b < 14 then
    c.setBank b (if k.data.isArray then { k with owner := x } else { Bank.reset .array with owner := x })
  else if b = 14 then { (c.setBank b { k with owner := x }) with deque := [], dqTop := 0 }
  else { (c.setBank b { k with owner := x }) with mailbox := [], mbHead := 0, lt := LocalTime.reset }

/-- An own ARRAY range of n bytes of the private alias. -/
def Core.ownArray (c : Core) (a : W64) (n : Nat) : Bool :=
  decide (a.toNat + n ≤ 2 ^ 20) &&
    (List.range ((a.toNat + n - 1) / 65536 + 1 - a.toNat / 65536)).all fun i => c.isArray (a.toNat / 65536 + i)

/-- The core that a core-memory window address names, with the package (spec/07 R161). -/
def winCore (e : W64) : Nat := bits e 39 27
def winPkg (e : W64) : Nat := bits e 47 40

/-- The core-memory window address of an offset of a core. -/
def winAddr (pkg core off : Nat) : W64 := ofNat (put 0xFE 48 + put pkg 40 + put core 27 + off)

/-- The rows of spec/05 R137 for the core in focus; the partition reaches into other packages (spec/24 R432, log 64). -/
def State.place (s : State) (e : W64) : Place :=
  let c := s.me
  if e.toNat < 2 ^ 25 then
    if e.toNat < 2 ^ 20 then
      if c.isArray (e.toNat / 65536) then .own e.toNat else .window (e.toNat / 65536) (e.toNat % 65536)
    else if 2 ^ 24 ≤ e.toNat ∧ e.toNat < 2 ^ 24 + 2 ^ 20 then .raw (e.toNat - 2 ^ 24)
    else .none
  else if bits e 63 60 ≠ 0 ∨ bits e 55 0 < 2 ^ 25 then .none
  else if bits e 55 48 = 0xFE then
    if bits e 26 20 ≠ 0 then .none
    else if winPkg e ≠ s.pkgid.toNat then
      if Config.farCluster c.act.ctx.toNat (winPkg e) (clusterOf (winCore e)) s.el9 then .far (winPkg e) (winCore e) (bits e 19 0) else .none
    else if (s.ctx c.act.ctx.toNat).hasCluster (clusterOf (winCore e)) then .core (winCore e) (bits e 19 0)
    else .none
  else .virt

/-! ### Records, rings and counters (spec/11 R275, R284, spec/20 R401) -/

/-- An event of class k adds n weights to the energy of a context (spec/20 R403). The count stays at 2^64 - 1 fJ once it is there: the manual
says neither that it wraps nor that it saturates (spec/05 R146). DESIGN CHOICE, log 66. -/
def State.charge (s : State) (ctx k n : Nat) : State :=
  let w := bits (s.weights.toList.getD (k / 4) 0) (16 * (k % 4) + 15) (16 * (k % 4))
  if w * n = 0 then s
  else
    let x := s.ctx ctx
    s.setCtx ctx (x.setW 11 (ofNat (min ((x.w 11).toNat + w * n) (2 ^ 64 - 1))))

/-- Grid position of the router of a cluster, and of a slice (spec/17 R341). -/
def clusterRouter (cl : Nat) : Nat × Nat :=
  let n := cl % 32 / 4
  (4 * (cl / 32 % 2) + 2 * (n % 2) + n / 2 % 2, 4 * (cl / 64) + n / 2)
def sliceRouter (sl : Nat) : Nat × Nat :=
  let n := sl % 16 / 2
  (4 * (sl / 16 % 2) + 2 * (n % 2) + (1 - n / 2 % 2), 4 * (sl / 32) + n / 2)

/-- The router of a node: a core, a slice, host memory by slice 0, a sequencer by slice 0 of its die, another package by slice 4p
of the port p on the route (spec/17 R343). -/
def State.routerOf (s : State) (n : Nat) : Nat × Nat :=
  match nodePkg n with
  | some p => sliceRouter (4 * s.portFor p)
  | none =>
    if n < 8192 then clusterRouter (clusterOf n)
    else if n < 16384 then sliceRouter (n - 8192)
    else if n < 16386 then sliceRouter 0
    else sliceRouter (16 * (n - 16386))

/-- Steps on a ring of eight (spec/14 R293). -/
def ringHops (a b : Nat) : Nat := min ((a + 8 - b) % 8) ((b + 8 - a) % 8)

/-- Torus hops between a core and its hub, whose port on row y is at core (y, y). -/
def hubHops (core : Nat) : Nat := ringHops (core % 8) (rowOf core)

/-- Torus hops and router hops of a packet from a core to a target (spec/14 R293, spec/17 R342). -/
def State.hopsTo (s : State) (src dst : Nat) : Nat × Nat :=
  if src < 8192 ∧ dst < 8192 ∧ clusterOf src = clusterOf dst then
    (ringHops (src % 8) (dst % 8) + ringHops (rowOf src) (rowOf dst), 0)
  else
    let a := s.routerOf src
    let b := s.routerOf dst
    let torus := fun (n : Nat) => if n < 8192 then hubHops n else 0
    (torus src + torus dst, (if a.1 = b.1 then 0 else 1) + (if a.2 = b.2 then 0 else 1))

/-- The hops of a packet of one flit (log 60). -/
def State.chargeHops (s : State) (ctx : BitVec 8) (src dst : Nat) : State :=
  let h := s.hopsTo src dst
  (s.charge ctx.toNat 7 h.1).charge ctx.toNat 8 h.2

/-- Global time. The manual is silent past 2^64 - 1 gt (R441: it never decreases): the model counts on, compares with the whole
count and delivers the low 64 bits where software reads it. DESIGN CHOICE, log 66. -/
def State.gt (s : State) : Nat := s.gt9 / 9

/-- Ninths of gt in a clk of a core: 240, and 320 at PS1 (spec/21 R422). -/
def State.rate (s : State) : Nat := if (s.power.toList.getD (dieOf s.cur) 0) = 1 then 320 else 240

/-- Ninths of gt in a clk of the slowest core of a partition. -/
def State.slowest (s : State) (x : Ctx) : Nat :=
  if x.clusters.any fun cl => (s.power.toList.getD (cl / 32) 0) == 1 then 320 else 240

/-- n clk of the core in focus cost energy, those since the context came to the partition (spec/20 R403). -/
def State.chargeClk (s : State) (k n : Nat) : State :=
  match s.curCtx (clusterOf s.cur) with
  | none => s
  | some x => s.charge x k (min n ((s.el9 - (s.ctx x).since9) / s.rate))

/-- The clk of an idle core in focus that have passed while other cores took their turns. -/
def State.caughtUp (s : State) : State :=
  let c := s.me
  let n := (s.el9 - c.at9) / s.rate
  if c.running || n == 0 then s
  else ({ s with me := { c with clk := c.clk + n, at9 := c.at9 + n * s.rate } } : State).chargeClk 13 n

/-- An MSI-X message of vector v leaves the device (spec/21 R405). -/
def State.interrupt (s : State) (v : Nat) : State := { s with msix := s.msix ++ [v] }

/-- A record written to a ring whose control block is at pa; none where the ring is full. One whose control block is uncorrectable takes no
record, which is lost (log 66). -/
def State.ringPut (s : State) (pa size : Nat) (unit : Nat) (r : List W64) : Option State :=
  let s := s.readLine pa
  if s.physBad pa 16 then some s
  else
  let prod := s.physWord pa
  let cons := s.physWord (pa + 8)
  if 2 ^ size ≤ (prod - cons).toNat then none
  else some ((s.physPut (pa + 64 + unit * (prod.toNat % 2 ^ size)) (wordBytes r)).physPut pa (bytesOf (prod.toNat + 1) 8))

/-- The trap ring of a context: the PA of its control block. -/
def State.trapRing (s : State) (ctx : Nat) : Option Nat := s.hptr ctx ((s.ctx ctx).w 5) 64

/-- The context has a spill queue (spec/17 R369). -/
def State.hasSpill (s : State) (ctx : Nat) : Bool := (s.hptr ctx ((s.ctx ctx).w 7) 64).isSome

/-- A launch of a context. -/
def State.launch? (s : State) (ctx lnch : BitVec 8) : Option Launch :=
  s.launches.find? fun l => l.ctx == ctx && l.lnch == lnch

def State.mapLaunch (s : State) (ctx lnch : BitVec 8) (f : Launch → Launch) : State :=
  { s with launches := s.launches.map fun l => if l.ctx == ctx && l.lnch == lnch then f l else l }

/-- A record of class k counts for its launch (spec/17 R363). -/
def State.noteErr (s : State) (ctx lnch : BitVec 8) (k : Nat) : State :=
  s.mapLaunch ctx lnch fun l => { l with err := l.err ||| BitVec.ofNat 7 (2 ^ k) }

/-- LOST of the control block at pa is set (spec/11 R284). -/
def State.setLost (s : State) (pa : Nat) : State :=
  s.physPut (pa + 16) (bytesOf ((s.physWord (pa + 16)).toNat ||| 2 ^ 63) 8)

/-- A notice dropped, saturating (spec/11 R286). -/
def State.drop (s : State) (pa : Nat) : State :=
  let w := (s.physWord (pa + 16)).toNat
  if w % 2 ^ 32 = 2 ^ 32 - 1 then s else s.physPut (pa + 16) (bytesOf (w + 1) 8)

/-- A record of 64 bytes in the trap ring of a context, counted for its launch as it is written (spec/17 R363); none where the ring is
full. A context without a ring takes no record. -/
def State.trapPut (s : State) (n : Notice) : Option State :=
  match s.trapRing n.ctx.toNat with
  | none => some s
  | some pa => (s.ringPut pa (s.ctx n.ctx.toNat).rsize 64 n.words).map fun s => match n.lnch with
    | some l => s.noteErr n.ctx l n.cls
    | none => s

/-- The notice comes after the record of a report that still stands at its core (spec/11 R285). -/
def State.waitsRecord (s : State) (n : Notice) : Bool := n.late && (s.core (bits (n.words.headD 0) 23 11)).report.isSome

/-- The notices of a cluster's buffer go into their rings, oldest first; one whose ring is full keeps the later ones of its context
back, and one that comes after a record stays (spec/11 R285, R286). -/
def flushNotices : List Notice → State → List Notice × State
  | [], s => ([], s)
  | n :: l, s =>
    match if s.waitsRecord n then none else s.trapPut n with
    | some s => flushNotices l s
    | none =>
      let x := flushNotices l s
      (n :: x.1, x.2)

def State.flush (s : State) (cluster : Nat) : State :=
  let x := flushNotices ((aget s.notices cluster).getD []) s
  { x.2 with notices := if x.1.isEmpty then adel x.2.notices cluster else aset x.2.notices cluster x.1 }

/-- A producer has found the ring of a context full. -/
def State.ringFull (s : State) (ctx : BitVec 8) : State :=
  match s.trapRing ctx.toNat with
  | none => s
  | some pa => s.setLost pa

/-- A notice of a cluster's unit: into the ring, behind the notices that the buffer holds; into the cluster's buffer of 8 where the ring is
full or a report stands at its core, or dropped (spec/11 R285, R286). -/
def State.putNotice (s : State) (cluster : Nat) (n : Notice) : State :=
  let s := s.flush cluster
  let n := { n with late := (s.core (bits (n.words.headD 0) 23 11)).report.isSome }
  match if n.late then none else s.trapPut n with
  | some s => s
  | none =>
    let buf := (aget s.notices cluster).getD []
    let s := if n.late && (s.trapPut n).isSome then s else s.ringFull n.ctx
    if buf.length < 8 then { s with notices := aset s.notices cluster (buf ++ [n]) }
    else match s.trapRing n.ctx.toNat with
      | none => s
      | some pa => s.drop pa

/-- The words of a trap record (spec/11 R275). -/
def recordWords (cause level point : Nat) (gang : Bool) (mix ctx pkg core : Nat) (tid w2 w3 cyc gt w6 w7 : W64) : List W64 :=
  [ofNat (put cause 48 + put level 46 + put point 44 + put (if gang then 1 else 0) 43 + put mix 40 + put ctx 32 +
    put pkg 24 + put core 11), tid, w2, w3, cyc, gt, w6, w7]

/-- A notice raised at a core, LEVEL 2 and point N (spec/11 R276), for a launch or for none. -/
def State.notice (s : State) (core : Nat) (ctx : BitVec 8) (lnch : Option (BitVec 8)) (cause : Nat) (tid w2 w3 w6 w7 : W64) : State :=
  let c := s.core core
  let r := recordWords cause 2 3 c.gang.isSome ((c.gang.map (·.idx)).getD 0) ctx.toNat s.pkgid.toNat core tid w2 w3
    (ofNat c.clk) (ofNat s.gt) w6 w7
  s.putNotice (clusterOf core) ⟨ctx, lnch, cause / 256, r, false⟩

/-- A record of a context's trace ring, or none where the ring is full (spec/20 R401, R402). A ring handle other than 0xFFFF that is
invalid, or whose range does not hold a control block, drops the record uncounted: the manual is silent. DESIGN CHOICE, log 66. -/
def State.tracePut (s : State) (ctx : Nat) (r : List W64) : Option State :=
  let x := s.ctx ctx
  if bits (x.w 6) 63 48 = 0xFFFF then some s
  else if x.tstop then some (s.setCtx ctx (x.setW 12 (x.w 12 + 1)))
  else match s.hptr ctx (x.w 6) 64 with
    | none => some s
    | some pa => s.ringPut pa (bits (s.physWord (pa + 24)) 4 0) 32 r

/-- The records go into their rings in order, a TRACE record with the time as it is written; those that find a ring full, and the later
ones, stay (spec/05 R149, spec/20 R401). -/
def flushTraces : List (BitVec 8 × List W64) → State → List (BitVec 8 × List W64) × State
  | [], s => ([], s)
  | x :: l, s =>
    match s.tracePut x.1.toNat (if x.2.length = 3 then x.2 ++ [ofNat s.gt] else x.2) with
    | some s => flushTraces l s
    | none => (x :: l, s)

/-- The records that the core in focus still owes go out as far as there is room; until then the core is stalled (spec/11 R286). -/
def State.drainTraces (s : State) : State :=
  if s.me.traceOut.isEmpty then s
  else
    let x := flushTraces s.me.traceOut s
    { x.2 with me := { x.2.me with traceOut := x.1 } }

/-- Records of committed work of the core in focus. -/
def State.putTrace (s : State) (l : List (BitVec 8 × List W64)) : State :=
  ({ s with me := { s.me with traceOut := s.me.traceOut ++ l } }).drainTraces

/-- A choice that the manual leaves to the machine (log 4). -/
def State.pick (s : State) : Nat × State := (Config.choice s.nchoice, { s with nchoice := s.nchoice + 1 })

/-! ### Leases (spec/15 R332) -/

/-- Rows by number: cluster × 8 + row. -/
def rowId (core : Nat) : Nat := 8 * clusterOf core + rowOf core
def State.lease (s : State) (row : Nat) : Lease := (aget s.leases row).getD Lease.reset
def State.setLease (s : State) (row : Nat) (l : Lease) : State := { s with leases := aset s.leases row l }
def rowCores (row : Nat) : List Nat := (List.range 8).map (8 * row + ·)

/-- A row that serves launch l of a context, and may dispatch it (spec/15 R334). -/
def Lease.serves (l : Lease) (ctx lnch : BitVec 8) : Bool :=
  (l.st == .running || l.st == .draining) && l.ctx == ctx && l.cur == lnch

/-- The lease word (spec/15 R332). -/
def Lease.word (l : Lease) : W64 :=
  let st := match l.st with | .free => 0 | .loading => 1 | .running => 2 | .draining => 3
  ofNat (put st 62 + put l.cur.toNat 48 + put ((l.next.getD 0).toNat) 40 + put l.ctx.toNat 32)

end Sys2Proof.Machine
end

