-- ==== Sys2Proof/Machine/Segments.lean ====
section
/-! DEFINITION. Segments: the undo log, the outbox, holds, range locks, boundaries, commit and rollback (spec/03, spec/06). -/

namespace Sys2Proof.Machine

/-- Why an instruction does not complete: a precise trap, a wait, an implicit PHASE before it (spec/03 R66), or poisoned data
read from address a (spec/07 R163); `kill`: the data is committed (spec/17 R355). -/
inductive Stop where
  | trap (r : Report)
  | wait (w : Wait)
  | phase
  | uncorr (a kind : W64) (kill : Bool)
deriving DecidableEq, Repr

abbrev Res (α : Type) := Except Stop α

/-- A precise report at the head of the instruction (spec/11 R276, point P). -/
def precise (c : Core) (cause : Nat) (w3 w6 w7 : W64) : Report := ⟨cause, 0, c.pc, w3, w6, w7, 0, 0⟩

def trap {α : Type} (c : Core) (cause : Nat) (w3 : W64) (w6 : W64 := 0) (w7 : W64 := 0) : Res α :=
  .error (.trap (precise c cause w3 w6 w7))

def wait {α : Type} (w : Wait) : Res α := .error (.wait w)

/-- An enabling condition of a step. -/
def need (b : Bool) (e : Stop) : Res Unit := if b then .ok () else .error e

/-! ### The handler table (spec/03 R51) -/

def Core.handler (c : Core) (h : Nat) : W64 × W64 := (aget c.handlers h).getD (0, 0)
def Core.entry (c : Core) : W64 := (c.handler c.act.hidx).1
def entryValid (e : W64) : Bool := e.getLsbD 63
def Core.acmt (c : Core) : Bool := c.entry.getLsbD 60
def entryBudget (e : W64) : Nat := if bits e 31 0 = 0 then 2 ^ 32 else bits e 31 0

/-! ### Range locks (spec/09 R223) -/

def overlaps (a n b m : Nat) : Bool := decide (a < b + m) && decide (b < a + n)

def Lock.meets (l : Lock) (a n : Nat) : Bool := l.ranges.any fun r => overlaps r.1 r.2 a n

def lockOn (ls : List Lock) (a n : Nat) : Option Lock := ls.find? fun l => l.meets a n

/-- Word 6 of a RANGELOCK record. -/
def Lock.kind (l : Lock) : W64 := if l.dst then 1 else 0

/-- The first address at which a new range conflicts with registered locks: two sources may overlap. -/
def lockConflict (ls : List Lock) (dst : Bool) (ranges : List (Nat × Nat)) : Option Nat :=
  let hits := ls.flatMap fun l => if !dst && !l.dst then [] else
    l.ranges.flatMap fun r => (ranges.filter fun q => overlaps r.1 r.2 q.1 q.2).map fun q => max r.1 q.1
  hits.min?

/-! ### Own lines: claims, poison, holds (spec/07 R162, R163, R75) -/

def Core.lineOwner (c : Core) (n : Nat) : BitVec 8 := (aget c.owner n).getD 0

/-- An access by context x to line n claims it first. -/
def Core.claim (c : Core) (x : BitVec 8) (n : Nat) : Core :=
  if c.lineOwner n = x then c
  else { c with mem := Mem.clear c.mem (64 * n) 64, owner := aset c.owner n x, poison := c.poison.filter (· != n) }

/-- Lines that n bytes at a touch. -/
def linesOf (a n : Nat) : List Nat := if n = 0 then [] else (List.range ((a + n - 1) / 64 + 1 - a / 64)).map (a / 64 + ·)

/-- Every line of bank b is claimed, with the bank's metadata. -/
def Core.claimLines (c : Core) (x : BitVec 8) (b : Nat) : Core :=
  let c := c.claimBank x b
  let ours := fun (n : Nat) => decide (n / 1024 ≠ b) || c.lineOwner n == x
  { c with
    mem := c.mem.filter fun p => ours (p.1 / 64)
    poison := c.poison.filter ours
    owner := (c.owner.filter fun p => decide (p.1 / 1024 < b)) ++ ((List.range 1024).map fun i => (1024 * b + i, x)) ++
      c.owner.filter fun p => decide (b < p.1 / 1024) }

/-- Every line of n bytes at a is claimed, with the metadata of its bank. -/
def Core.claimAll (c : Core) (x : BitVec 8) (a n : Nat) : Core :=
  (linesOf a n).foldl (fun c k => (c.claimBank x (k / 1024)).claim x k) c

/-- Segments whose effects other agents do not see yet, oldest first: closed ones and the open one. -/
def Core.uncommitted (c : Core) : List SegData := c.closing.map (·.d) ++ [c.seg]

/-- Line n is held, or closed after its segment's commit (spec/03 R75, spec/07 R184). -/
def Core.held (c : Core) (n : Nat) : Bool :=
  c.uncommitted.any (fun d => d.holds.contains n) || c.pubs.any (fun g => g.d.holds.contains n)

def Core.heldBank (c : Core) (b : Nat) : Bool :=
  c.uncommitted.any (fun d => d.hbanks.contains b) || c.pubs.any (fun g => g.d.hbanks.contains b)

/-- Line n as other agents are served it: the pre-image of the oldest uncommitted segment that logged it (spec/06 R150). -/
def Core.served (c : Core) (n : Nat) : Line × Bool :=
  let logged := c.uncommitted.findSome? fun d => d.undo.reverse.findSome? fun u =>
    match u.what with
    | .line k l p => if k = n then some (l, p) else none
    | .bank b _ cells ps => if b = n / 1024 then some (Mem.line cells (64 * (n % 1024)), ps.contains n) else none
    | _ => none
  logged.getD (Mem.line c.mem (64 * n), c.poison.contains n)

/-! ### The undo log and the outbox (spec/03 R63 to R66) -/

/-- The rows of spec/03 R66: `mine` held by the open segment, `need` more, `others` held by other segments, of `cap`. -/
def capacity (c : Core) (mine need others cap : Nat) (which : W64) : Res Unit :=
  if mine + need + others ≤ cap then .ok ()
  else if !c.acmt then
    if cap < mine + need then trap c 0x207 0 which 0 else wait .space
  else if 0 < mine then .error .phase
  else wait .space

/-- Undo lines for the lines ns, those that the open segment has logged already apart. -/
def needLines (c : Core) (ns : List Nat) : Res Unit :=
  let new := ns.filter fun n => !c.seg.lines.contains n
  if new.isEmpty then .ok ()
  else capacity c c.seg.lines.length (nunion [] new).length ((c.closing.map fun g => g.d.lines.length).sum) Config.undoCap 0

def Core.log (c : Core) (lines : List Nat) (what : UndoWhat) : Core :=
  { c with
    seg := { c.seg with undo := ⟨c.nord, what⟩ :: c.seg.undo, lines := nunion c.seg.lines lines }
    nord := c.nord + 1 }

/-- LogUndo of a data line (spec/01 R12). -/
def Core.logLine (c : Core) (n : Nat) : Core :=
  if c.seg.lines.contains n then c
  else c.log [n] (.line n (Mem.line c.mem (64 * n)) (c.poison.contains n))

def Core.hold (c : Core) (ns : List Nat) : Core := { c with seg := { c.seg with holds := nunion c.seg.holds ns } }
def Core.holdBank (c : Core) (b : Nat) : Core := { c with seg := { c.seg with hbanks := nset c.seg.hbanks b } }

/-- The undo-log line of the deque's metadata. -/
def dequeMeta : Nat := 16384 + 64 * 14

/-- A revocable operation on the deque by the open segment: its lines are logged, the deque is held (spec/03 R75, spec/17 R360). -/
def Core.holdDeque (c : Core) (ns : List Nat) : Core :=
  { c with seg := { c.seg with lines := nunion c.seg.lines ns, hbanks := nset c.seg.hbanks 14 } }

/-- The bytes written, in place, and the poison of lines written whole cleared (spec/07 R163). -/
def Core.poke (c : Core) (a : Nat) (bs : List Byte) : Core :=
  { c with
    mem := Mem.put c.mem a bs
    poison := c.poison.filter fun n => !(decide (a ≤ 64 * n) && decide (64 * n + 64 ≤ a + bs.length)) }

/-- A weak own store to ARRAY bytes, claimed, logged and written in place (spec/03 R63). -/
def Core.ownWrite (c : Core) (a : Nat) (bs : List Byte) : Core :=
  ((linesOf a bs.length).foldl Core.logLine (c.claimAll c.act.ctx a bs.length)).poke a bs

/-- A weak own store to ARRAY bytes (spec/03 R63, spec/05 R140): a locked line is not written and counts as refused. The bytes of the store decide
whether a lock covers it. DESIGN CHOICE, log 66. -/
def Core.ownStore (c : Core) (a : Nat) (bs : List Byte) : Res Core := do
  let ns := linesOf a bs.length
  needLines c ns
  match lockOn c.locks a bs.length with
  | some l => .ok { c with seg := { c.seg with bad := some (c.seg.bad.getD ⟨0x205, 1, 0, ofNat a, l.kind, 0, 0, 0⟩) } }
  | none =>
    .ok (c.ownWrite a bs)

/-- Entries that hold outbox space beside the open segment's (spec/03 R65). -/
def Core.otherOut (c : Core) : Nat := ((c.closing ++ c.pubs).map fun g => g.d.out.length).sum

def needOut (c : Core) (k : Nat) : Res Unit :=
  if k = 0 then .ok () else capacity c c.seg.out.length k c.otherOut Config.outboxCap 1

/-- The open segment's entry for a line, if it has one. Stores of one segment to one line under different tags form two entries: the
manual merges stores to one line and says nothing of differing tags. DESIGN CHOICE, log 66. -/
def Core.outLine? (c : Core) (h : Home) (tag : BitVec 4) : Option Nat :=
  c.seg.out.findIdx? fun i => match i.e with | .store l _ _ t _ => l == h && t == tag | _ => false

/-- A remote store of part of a line: stores of one segment to one line merge (spec/03 R64). -/
def Core.outStore (c : Core) (h : Home) (data : Line) (mask : W64) (tag : BitVec 4) (a : W64) : Core :=
  match c.outLine? h tag with
  | some k =>
    let out := match c.seg.out[k]? with
      | some ⟨.store l d m t a, st⟩ => lset c.seg.out k ⟨.store l (mergeLine d data mask) (m ||| mask) t a, st⟩
      | _ => c.seg.out
    { c with seg := { c.seg with out := out } }
  | none => { c with seg := { c.seg with out := c.seg.out ++ [⟨.store h data mask tag a, .waiting⟩] } }

def Core.outAdd (c : Core) (e : OutEntry) : Core := { c with seg := { c.seg with out := c.seg.out ++ [⟨e, .waiting⟩] } }

/-- The bytes of the core's own outbox entries laid over a line, the newest winning (spec/06 R153). -/
def Core.overlay (c : Core) (h : Home) (l : Line) : Line :=
  let items := (c.pubs.flatMap fun g => g.d.out) ++ (c.closing.flatMap fun g => g.d.out) ++ c.seg.out
  items.foldl (fun l i => match i.e with | .store h' d m _ _ => if h' == h then mergeLine l d m else l | _ => l) l

/-! ### Boundaries (spec/03 R56, R61, R62) -/

def anyEmpty {n k : Nat} (v : Vector (Cell n) k) : Bool := v.toList.any fun x => match x with | .empty => true | _ => false

/-- Elements of a pattern (spec/14 R306). -/
def Stream.total (t : Stream) : Nat := (t.dims.map (·.1)).foldl (· * ·) 1
def Stream.isV (t : Stream) : Bool := t.code < 32
/-- Elements in one pop or push. -/
def Stream.unit (t : Stream) : Nat := if t.isV then 64 / t.esz else 1
def Stream.count (t : Stream) : Nat := t.total / t.unit
def Stream.done (t : Stream) : Bool := decide (t.count ≤ t.pos)
/-- FULL: its next element is available, its pattern is exhausted, or it has room (spec/14 R308, R311). -/
def Stream.full (t : Stream) : Bool := t.out || t.done || !t.buf.isEmpty

/-- The key under which a stream's lock is registered. -/
def streamKey (code : Nat) : Nat := 2 ^ 64 + code

/-- The lock of a binding is in place; until then its register is EMPTY (spec/14 R311). The slices' tables have room for each. -/
def Core.locked (c : Core) (t : Stream) : Bool :=
  t.hdl.isSome || c.locks.any fun l => decide (l.core = c.id) && decide (l.seq = streamKey t.code)

/-- No register is EMPTY and no result is on its way (spec/03 R56). -/
def Core.settled (c : Core) : Bool :=
  !anyEmpty c.regs.s && !anyEmpty c.regs.v && !anyEmpty c.regs.m && c.pend.isEmpty && c.reads.isEmpty &&
    c.streams.all fun t => t.full && (!t.out || c.locked t)

def boundaryReady (c : Core) : Res Unit := do
  need c.settled (.wait .operand)
  need (decide (c.closing.length < 2)) (.wait .boundary)

def Core.checkpoint (c : Core) : Ckpt :=
  { running := c.running, act := c.act, regs := c.regs, ctl := c.ctl, pc := c.pc, streams := c.streams, mseq := c.mseq,
    tseq := c.tseq, rounds := c.rounds, frame := c.frame, gang := c.gang, takenAt := c.clk
    closed := ⟨c.seg.id, c.act.no, c.ctl.bud, c.seg.traces.length + (c.again.filter fun x => x.op.isNone && x.met == some c.seg.id).length⟩ }

def SegData.new (id : Nat) : SegData := ⟨id, [], [], [], [], [], [], none⟩

/-- CloseSegment (spec/01 R12): the checkpoint is the state after the boundary, the read cache empties (spec/06 R154). -/
def Core.close (c : Core) (kind : Boundary) (closer : W64) (atc : AtCommit) : Core :=
  let c := { c with act := { c.act with fresh := false }, rcache := [] }
  { c with
    closing := c.closing ++ [⟨c.seg, kind, closer, c.checkpoint, c.clk, c.ctl.bud, c.act.no, [], [], atc⟩]
    seg := SegData.new (c.seg.id + 1) }

/-- Checkpoint k in the place of an older one: it stands for the same boundary, so it keeps that boundary's time and what it closed
(spec/15 R336). -/
def Ckpt.inPlaceOf (k old : Ckpt) : Ckpt := { k with takenAt := old.takenAt, closed := old.closed }

/-- The newest checkpoint, replaced: the one that a rollback of the open segment restores. -/
def Core.setLast (c : Core) (k : Ckpt) : Core :=
  match c.closing.reverse with
  | [] => { c with confirmed := k.inPlaceOf c.confirmed }
  | g :: l => { c with closing := (({ g with ckpt := k.inPlaceOf g.ckpt }) :: l).reverse }

/-- No activation, every register vacant. -/
def Core.idle (c : Core) : Core :=
  { c with
    running := false, regs := Regs.reset, ctl := Ctl.reset, pc := 0, wait := none, spin := 0, irrev := none
    act := { Act.reset with ctx := c.act.ctx, lnch := c.act.lnch, no := c.act.no } }

/-! ### Engine operations under a rollback (spec/03 R72, spec/09 R221, R241, R248) -/

def Core.setPoison (c : Core) (n : Nat) (p : Bool) : Core :=
  { c with poison := if p then nset c.poison n else c.poison.filter (· != n) }

/-- Row r holds what an uncommitted segment of the core wrote. -/
def Core.rowFresh (c : Core) (r : Nat) : Bool :=
  c.ring.any fun p => c.uncommitted.any (fun d => d.id == p.seg) && (match p.what with | .row j _ _ _ => j == r | _ => false)

/-- Quarters of an accumulator row that n bytes at off touch (spec/09 R228). -/
def quarters (off n : Nat) : List Nat := if n = 0 then [] else (List.range ((off + n - 1) / 64 + 1 - off / 64)).map (off / 64 + ·)

/-- Bytes of an accumulator row put in place, with the poison bits p of the quarters that they touch. -/
def Core.putRow (c : Core) (r off : Nat) (bs : List Byte) (p : List Nat) : Core :=
  { c with
    acc := Mem.put c.acc (256 * r + off) bs
    accPoison := nunion (c.accPoison.filter fun q => !(decide (q / 4 = r) && (quarters off bs.length).contains (q % 4)))
      (p.map (4 * r + ·)) }

/-- One restoration of the newest-first order of spec/09 R241. -/
def Core.restore1 (c : Core) : UndoWhat ⊕ PreWhat → Core
  | .inl (.line n l p) => (({ c with mem := Mem.put c.mem (64 * n) (lineBytes l) }) : Core).setPoison n p
  | .inl (.bank b img cells ps) =>
    { (c.setBank b img) with
      mem := Mem.splice c.mem (65536 * b) 65536 cells
      poison := nunion (c.poison.filter fun n => decide (n / 1024 ≠ b)) ps }
  | .inl (.links lt) => { c with lt := lt }
  | .inr (.row r off bs p) => c.putRow r off bs p
  | .inr (.line n l mask p _) =>
    let c : Core := { c with mem := Mem.put c.mem (64 * n) (lineBytes (mergeLine (Mem.line c.mem (64 * n)) l mask)) }
    if mask = BitVec.allOnes 64 then c.setPoison n p else c

/-- Newest first. -/
def insertDesc {α : Type} (x : Nat × α) : List (Nat × α) → List (Nat × α)
  | [] => [x]
  | y :: l => if y.1 ≤ x.1 then x :: y :: l else y :: insertDesc x l

def sortDesc {α : Type} (l : List (Nat × α)) : List (Nat × α) := l.foldr insertDesc []

/-- The saved pre-images of line n at the places that p names change. -/
def SegData.mapImages (d : SegData) (n : Nat) (p : Nat → Bool) (f : Nat → Line → Line) (g : Bool → Bool) : SegData :=
  { d with undo := d.undo.map fun u => if !p u.ord then u else match u.what with
    | .line k l b => if k = n then { u with what := .line k (f u.ord l) (g b) } else u
    | .bank b img cells ps =>
      let a := 64 * (n % 1024)
      let cells' := Mem.put cells a (lineBytes (f u.ord (Mem.line cells a)))
      if b = n / 1024 then { u with what := .bank b img cells' (if g (ps.contains n) then ps else ps.filter (· != n)) } else u
    | _ => u }

def Core.mapImages (c : Core) (n : Nat) (p : Nat → Bool) (f : Nat → Line → Line) (g : Bool → Bool) : Core :=
  { c with
    seg := c.seg.mapImages n p f g
    closing := c.closing.map fun (x : Seg) => { x with d := x.d.mapImages n p f g } }

/-- The saved pre-images of line n, by place. -/
def Core.imagesOf (c : Core) (n : Nat) : List (Nat × Line) :=
  c.uncommitted.flatMap fun d => d.undo.filterMap fun u => match u.what with
    | .line k l _ => if k = n then some (u.ord, l) else none
    | .bank b _ cells _ => if b = n / 1024 then some (u.ord, Mem.line cells (64 * (n % 1024))) else none
    | _ => none

/-- A restored undo entry is the state that another core's operation overwrote, should that be cancelled too. -/
def Core.under (c : Core) (ord : Nat) : Core :=
  { c with ring := c.ring.map fun (p : PreImage) => match p.what with
    | .line n l m b u => match aget u ord with
      | some v => { p with what := .line n (mergeLine l v m) m b u }
      | none => p
    | _ => p }

/-- The pre-image of an operation put back; where another core issued it, in the saved pre-images of the line too. -/
def Core.unland (c : Core) (p : PreImage) : Core :=
  let c := c.restore1 (.inr p.what)
  match p.what with
  | .line n l m _ u => if p.core = c.id then c else c.mapImages n (fun _ => true) (fun ord x => mergeLine x ((aget u ord).getD l) m) fun b => b
  | _ => c

/-- One restoration of `undoFrom`, at its place. -/
def Core.undo1 (c : Core) (x : Nat × (UndoWhat ⊕ PreWhat)) : Core :=
  match x.2 with
  | .inl _ => (c.restore1 x.2).under x.1
  | .inr _ => c.restore1 x.2

/-- Halted, unless a STEP lets heads issue (spec/20 R396); or stopped by the thermal trip. -/
def Core.held? (c : Core) : Bool := c.stopped || (c.halted.isSome && (c.steps.getD 0 == 0))

/-- The writes of segments from number id on, undone. -/
def Core.undoFrom (c : Core) (self id : Nat) : Core :=
  let us := (c.uncommitted.filter fun d => decide (id ≤ d.id)).flatMap fun d => d.undo.map fun u => (u.ord, Sum.inl u.what)
  let mine := fun (p : PreImage) => decide (p.core = self) && decide (id ≤ p.seg)
  let ps := (c.ring.filter mine).map fun p => (p.ord, Sum.inr p.what)
  let c := (sortDesc (us ++ ps)).foldl Core.undo1 c
  { c with ring := c.ring.filter fun p => !mine p }

/-- The first of the saved images that a cancelled operation left. -/
def firstFrom {α : Type} (l : List (Nat × α)) (id : Nat) : Option α := (l.find? fun p => decide (id ≤ p.1)).map (·.2)

/-- Operations that the segments from number id on issued leave the in-flight list. -/
def Core.cancelFrom (c : Core) (id : Nat) : Core :=
  let gone := c.ops.filter fun o => decide (id ≤ o.seg)
  let numbered := gone.filter fun o => match o.kind with | .pswap | .follow .. => false | _ => true
  let seqs := (gone.filter fun o => o.kind != .pswap).map (·.seq)
  let planes := firstFrom c.planes0 id
  { c with
    ops := c.ops.filter fun o => !decide (id ≤ o.seg)
    engSeq := (numbered.head?.map (·.seq - 1)).getD c.engSeq
    active := (planes.map (·.1)).getD c.active
    shadow := (planes.map (·.2)).getD c.shadow
    grinder := (firstFrom c.grind0 id).getD c.grinder
    planes0 := c.planes0.filter fun p => !decide (id ≤ p.1)
    grind0 := c.grind0.filter fun p => !decide (id ≤ p.1)
    pours := c.pours.filter fun p => !seqs.contains p.1
    colls := (gone.foldr (fun o l => o.pushed ++ l) c.colls).filter fun p => !seqs.contains p.1 }

/-- The range locks that core k registered under numbers that match are released, wherever they stand. -/
def State.unlock (s : State) (k : Nat) (p : Nat → Bool) : State :=
  let f := fun (ls : List Lock) => ls.filter fun l => !(decide (l.core = k) && p l.seq)
  { s with
    me := { s.me with locks := f s.me.locks }
    others := s.others.map fun x => (x.1, { x.2 with locks := f x.2.locks })
    dlocks := f s.dlocks }

/-- Pre-images that match are put back, newest first. -/
def Core.putBack (c : Core) (mine : PreImage → Bool) : Core :=
  let c' := (sortDesc ((c.ring.filter mine).map fun p => (p.ord, p))).foldl (fun c x => c.unland x.2) c
  { c' with ring := c.ring.filter fun p => !mine p }

/-- Pre-images that operations of core k's segments from number id on left at this core, put back. -/
def Core.undoAway (c : Core) (k id : Nat) : Core := c.putBack fun p => decide (p.core = k) && decide (id ≤ p.seg)

/-- Engine effects of the core's segments from number id on, at other cores and behind handles, are undone. -/
def State.cancelAway (s : State) (id : Nat) : State :=
  let k := s.cur
  let seqs := (s.me.ops.filter fun o => decide (id ≤ o.seg)).map (·.seq)
  let mine := fun (p : Pour) => decide (p.core = k) && seqs.contains p.seq
  let s := (s.pours.filter mine).foldl (fun s p => p.pre.foldl (fun s x => s.physPut x.1 (lineBytes x.2)) s) s
  let s := { s with
    pours := s.pours.filter fun p => !mine p
    others := s.others.map fun (x : Nat × Core) => (x.1, x.2.undoAway k id) }
  s.unlock k fun q => seqs.contains q

/-! ### Rollback (spec/03 R71 to R74) -/

/-- Every binding of the core: of the activation, of the trap frame and of the park slots. -/
def Core.allStreams (c : Core) : List Stream :=
  c.streams ++ (c.frame.map (·.streams)).getD [] ++ c.parks.flatMap (·.saved.streams)

/-- Entries in use in the range-lock table of a cluster. -/
def State.lockEntries (s : State) (cl : Nat) : Nat :=
  ((s.coreList.filter fun x => clusterOf x.1 == cl).map fun x => x.2.locks.length).sum

def lockTable : Nat := 1024

/-- The table of the cluster of the core in focus has a free entry (spec/14 R295). -/
def State.lockFree (s : State) : Bool := decide (s.lockEntries (clusterOf s.cur) < lockTable)

/-- The lock of one binding is registered, a private one where the table has an entry. -/
def State.lockStream (s : State) (t : Stream) : State :=
  let l : Lock := ⟨s.cur, streamKey t.code, t.out, [(t.lo, t.len)]⟩
  match t.hdl with
  | none => if s.lockFree then { s with me := { s.me with locks := s.me.locks ++ [l] } } else s
  | some _ => { s with dlocks := s.dlocks ++ [l] }

/-- The locks of the core's bindings are registered again; one that finds no entry waits for it (spec/14 R311). -/
def State.relockStreams (s : State) : State :=
  s.me.allStreams.foldl State.lockStream (s.unlock s.cur fun q => decide (2 ^ 64 ≤ q))

/-- The activation that a dispatch state starts goes back to where it came from (spec/03 R74, spec/17 R360, R361, R358). -/
def Core.redeliver (c : Core) (k : Ckpt) : Core :=
  let c := if k.act.stamped && c.lt.en && !k.act.parked then { c with lt := { c.lt with ltc := k.act.ltc0 } } else c
  if k.act.parked then
    let sv : Saved := ⟨k.act, k.regs, k.ctl, k.pc, k.streams, false, none, false⟩
    { c with parks := ⟨{ sv with act := { k.act with parked := false, fresh := false } }, true, .local 0 0, .lds .i64⟩ :: c.parks }
  else
    let mail := fun (m : Option MigrRec) =>
      let c := c.claimBank k.act.ctx 15
      { c with mailbox := ⟨k.act.trig, m, k.act.rel, k.act.born⟩ :: c.mailbox, mbHead := (c.mbHead + 8184) % 8192 }
    match k.act.origin with
    | .mailbox => mail none
    | .migr => mail k.act.migr
    | .deque | .steal =>
      let c := c.claimBank k.act.ctx 14
      { c with deque := c.deque ++ [⟨k.act.trig, none, k.act.born, k.act.other⟩] }
    | .follower => c

/-- The checkpoint that a rollback of the closed segments from index i on restores (spec/03 R72). -/
def Core.pointBefore (c : Core) (i : Nat) : Ckpt :=
  if i = 0 then c.confirmed else ((c.closing[i - 1]?).map (·.ckpt)).getD c.confirmed

/-- BUD as it stood when the activation of checkpoint k last closed a segment; its present value while it runs (spec/03 R77). -/
def Core.budOf (c : Core) (k : Ckpt) : W64 :=
  if c.running && c.act.no == k.act.no then c.ctl.bud
  else ((c.closing.filter fun g => g.no == k.act.no).getLast?.map (·.bud)).getD k.ctl.bud

/-- What segments from number id on have met again is owed to their rerun. -/
def Core.oweFrom (c : Core) (id : Nat) : Core :=
  { c with again := c.again.map fun x => if (x.met.map fun n => decide (id ≤ n)).getD false then { x with met := none } else x }

/-- The target that serves a home. -/
def Home.target : Home → Nat
  | .local k _ => k
  | .dev pa => 8192 + sliceOf pa
  | .host _ => 16384
  | .farCore p k _ => farNode p k
  | .farDev pa => farNode (pa / 2 ^ 39) (8192 + sliceOf pa)

/-- The target of an outbox entry, where it leaves the core. -/
def entryTarget (pkg : Nat) : OutEntry → Option Nat
  | .store h _ _ _ _ => some h.target
  | .msg _ p k _ => some (if p = pkg then k else farNode p k)
  | .migr _ p k => some (if p = pkg then k else farNode p k)
  | .launch _ d _ => some (16386 + d)
  | .own _ => none
  | .drip _ _ => none

/-- Drips take no sequence number (spec/10 R255). -/
def Body.numbered : Body → Bool
  | .drip .. => false
  | _ => true

/-- The pair of a source and a target. -/
def pairKey (src dst : Nat) : Nat := src * 2 ^ 24 + dst

/-- A packet of context x leaves the core in focus under the next sequence number towards its target (spec/17 R344). -/
def State.sendFor (s : State) (x : BitVec 8) (dst : Nat) (b : Body) : State :=
  let key := pairKey s.cur dst
  let q := (anat s.seqs key) % 2 ^ 16
  let s := s.chargeHops x s.cur dst
  if b.numbered then { s with seqs := aset s.seqs key ((q + 1) % 2 ^ 16), chan := s.chan ++ [⟨s.cur, dst, q, 1, x, s.gt, false, b⟩] }
  else { s with chan := s.chan ++ [⟨s.cur, dst, 0, 1, x, s.gt, false, b⟩] }

def State.send (s : State) (dst : Nat) (b : Body) : State := s.sendFor s.me.act.ctx dst b

/-- The permits of a target (spec/17 R343): those of its cluster's hub or of its slice; slice 4p for another package that port p
leads to, slice 0 for host memory, slice 0 of its die for a sequencer. -/
def State.permitClass (s : State) (dst : Nat) : Nat :=
  match nodePkg dst with
  | some p => 128 + 4 * s.portFor p
  | none =>
    if dst < 8192 then clusterOf dst
    else if dst < 16384 then 128 + (dst - 8192)
    else if dst = 16384 then 128
    else 128 + 16 * (dst - 16386)

/-- The packets of a collective leave hubs, which the table of permits does not name (log 43). -/
def Body.needsPermit : Body → Bool
  | .entry .. | .ack .. | .request .. | .reply .. => true
  | _ => false

/-- Numbers that stand once in a list, whatever their copies. -/
def distinct : List (Nat × Nat) → List (Nat × Nat)
  | [] => []
  | x :: l => if l.contains x then distinct l else x :: distinct l

/-- Permits of a class that core k holds: one for each of its unanswered requests; a retransmission takes none. -/
def State.permitsOut (s : State) (k cls : Nat) : Nat :=
  let mine := s.chan.filter fun p => p.src == k && s.permitClass p.dst == cls && p.body.needsPermit
  (distinct (mine.map fun p => (p.dst, p.seq))).length

/-- n permits towards the targets ts, one for each, are free to the core in focus. -/
def State.permitAll (s : State) (ts : List Nat) : Bool :=
  ts.all fun t => decide (s.permitsOut s.cur (s.permitClass t) + (ts.filter fun u => s.permitClass u == s.permitClass t).length ≤ 4)

/-- A permit towards dst is free: fewer than four requests of the core in focus are unanswered. -/
def State.permit (s : State) (dst : Nat) : Bool := decide (s.permitsOut s.cur (s.permitClass dst) < 4)

def SegData.targets (d : SegData) (pkg : Nat) : List Nat :=
  nunion [] (d.out.filterMap fun i => entryTarget pkg i.e)

def State.sendAborts (s : State) (d : SegData) : State :=
  let ts := nunion [] ((d.out.filter fun i => i.st == .sent || i.st == .accepted).filterMap fun i => entryTarget s.pkgid.toNat i.e)
  ts.foldl (fun s t => s.send t (.abort d.id)) s

/-- A checkpoint of an idle core that keeps the counters of k. -/
def Ckpt.idle (k : Ckpt) : Ckpt :=
  { k with
    running := false, regs := Regs.reset, ctl := Ctl.reset, pc := 0, streams := [], frame := none, gang := none
    act := { Act.reset with ctx := k.act.ctx, lnch := k.act.lnch, no := k.act.no } }

/-- A waiting GANG of the core in focus is given up, with its reservations (spec/14 R297, R302). -/
def State.dropGangWait (s : State) : State :=
  let k := s.cur
  let free := fun (c : Core) => if c.reserved = some k then { c with reserved := none } else c
  if s.me.gangWait.isNone then s
  else { s with me := free { s.me with gangWait := none }, others := s.others.map fun (x : Nat × Core) => (x.1, free x.2) }

/-- RollBack of the closed segments from index i on and of the open one. `keep`: a dispatch state is restored, not redelivered. -/
def State.rollBack (s : State) (i : Nat) (keep : Bool) : State :=
  let c := s.me
  let segs := c.closing.drop i
  let id := ((segs.head?.map (·.d.id))).getD c.seg.id
  let k := c.pointBefore i
  let later := (segs.map (·.ckpt)).filter fun x => x.running && x.act.fresh
  let bud := c.budOf k
  let s := segs.foldl (fun s g => s.sendAborts g.d) s
  let s := s.cancelAway id
  let c := ((s.me.undoFrom s.cur id).cancelFrom id).oweFrom id
  let c := { c with
    closing := c.closing.take i
    seg := SegData.new c.seg.id
    deque := c.deque.filter fun r => (r.seg.map fun g => !decide (id ≤ g)).getD true
    imgSlot := c.imgSlot.filter fun p => !decide (id ≤ p.2)
    rcache := [], pend := [], reads := [], marks := [], irrev := none, wait := none, spin := 0
    parks := c.parks.filter fun p => !(segs.any fun (g : Seg) => g.kind == Boundary.park && g.no == p.saved.act.no) }
  let c := later.foldr (fun k c => c.redeliver k) c
  let again := k.running && k.act.fresh && (!keep || k.act.origin == .follower)
  let k' := if again then k.idle else k
  let c := if again then c.redeliver k else c
  let c := if again then c.setLast k' else c
  let frame := k'.frame.map fun (f : Saved) => if (c.running && c.act.no == f.act.no) = true then { f with ctl := { f.ctl with bud := c.ctl.bud }, reload := false } else f
  let c := { c with
    running := k'.running, act := k'.act, regs := k'.regs, ctl := { k'.ctl with bud := if k'.running then bud else 0 }
    pc := k'.pc, streams := (k'.streams.map fun t => { t with buf := [] }), mseq := k'.mseq, tseq := k'.tseq
    rounds := k'.rounds, frame := frame, gang := k'.gang, report := none, raised := none, passing := none }
  (({ s with me := c }).dropGangWait).relockStreams

/-- The rollback of the open segment only. -/
def State.rollOpen (s : State) (keep : Bool) : State := s.rollBack s.me.closing.length keep

/-- The members of the gang of the core in focus, itself alone outside a gang. -/
def State.gangOf (s : State) : List Nat := (s.me.gang.map (·.members)).getD [s.cur]

/-- No fused engine operation of the gang is unfinished (spec/14 R303); `but`: those of the open segments apart. -/
def fusedDone (s : State) (ms : List Nat) (but : Bool) : Bool :=
  ms.all fun k => (s.core k).ops.all fun o =>
    o.mates.isEmpty || !(o.st == .queued || o.st == .running) || (but && o.seg == (s.core k).seg.id)

/-- A rollback in one member rolls back every member to the same boundary (spec/14 R301, R302): those of its gang, and those
whose segments closed with the ones that go. `n` closed segments of the core in focus go. -/
def State.rollGang (s : State) (n : Nat) (keep : Bool) : State :=
  let c := s.me
  let i := c.closing.length - n
  let mates := (c.closing.drop i).flatMap (·.mates)
  let ks := (nunion [] ((c.gang.map (·.members)).getD [] ++ mates.map (·.1))).filter (· != s.cur)
  let s := onCores ks (fun s =>
    let ids := (mates.filter fun m => m.1 == s.cur).map (·.2)
    let m := match ids.min? with
      | none => 0
      | some id => (s.me.closing.filter fun g => decide (id ≤ g.d.id)).length
    s.rollBack (s.me.closing.length - m) keep) s
  s.rollBack i keep

/-! ### Commit (spec/03 R68 to R70) -/

/-- A published store lands in an own line: in the line and in every saved pre-image of it (spec/03 R70). -/
def Core.publish (c : Core) (x : BitVec 8) (n : Nat) (data : Line) (mask : W64) : Core :=
  let c := c.claim x n
  let whole := mask == BitVec.allOnes 64
  ({ c with
    mem := Mem.put c.mem (64 * n) (lineBytes (mergeLine (Mem.line c.mem (64 * n)) data mask))
    poison := if whole then c.poison.filter (· != n) else c.poison } : Core).mapImages n (fun _ => true) (fun _ l => mergeLine l data mask)
      (· && !whole)

/-- No entry of the segment is outstanding, and the strike window is past unless it wrote and sent nothing (spec/03 R68). -/
def Seg.commitReady (g : Seg) (clk : Nat) : Bool :=
  g.d.out.all (fun i => i.st == .accepted || entryTarget 0 i.e == none) && g.d.bad.isNone &&
    (decide (g.closedAt + Config.W ≤ clk) || (g.d.lines.isEmpty && g.d.out.isEmpty))

/-- The local-time state without what uncommitted segments changed: the oldest image of it that an undo log holds. -/
def Core.ltCommitted (c : Core) : LocalTime :=
  (c.uncommitted.findSome? fun d => d.undo.reverse.findSome? fun u => match u.what with
    | .links lt => some lt
    | _ => none).getD c.lt

/-- A change of local-time state that no rollback takes back: made in the saved pre-images too (spec/10 R255, R257, R258). -/
def Core.mapLT (c : Core) (f : LocalTime → LocalTime) : Core :=
  let fix := fun (d : SegData) => { d with undo := d.undo.map fun u => match u.what with
    | .links lt => { u with what := .links (f lt) }
    | _ => u }
  { c with lt := f c.lt, seg := fix c.seg, closing := c.closing.map fun g => { g with d := fix g.d } }

def satAdd (a b : Nat) : W64 := ofNat (min (a + b) (2 ^ 64 - 1))

/-- The slots of one declaration change. -/
def LocalTime.onSlot (lt : LocalTime) (decl : Nat) (f : OutSlot → OutSlot) : LocalTime :=
  { lt with outs := lt.outs.map fun x => if x.2.decl = decl then (x.1, f x.2) else x }

/-- A drip leaves towards a peer, or waits while the core is halted (spec/10 R265). -/
def State.sendDrip (s : State) (peer : Nat) (look : BitVec 48) (v : W64) : State :=
  if s.me.halted.isSome then { s with me := { s.me with owed := s.me.owed ++ [(peer, look, v)] } }
  else s.send peer (.drip s.me.act.ctx look v)

/-- A drip of value v on the committed slot that a declaration made, where it exceeds its D (spec/10 R258, R270). A slot whose declaration
does not stand at the commit sends none: the manual gives an LTDRIP whose slot the same segment clears no meaning. DESIGN CHOICE, log 66. -/
def State.dripOn (s : State) (decl : Nat) (v : W64) : State :=
  match s.me.ltCommitted.outs.find? fun x => x.2.decl == decl with
  | none => s
  | some (_, o) =>
    if v.toNat ≤ o.d.toNat then s
    else
      let up := fun (lt : LocalTime) => lt.onSlot decl fun p => { p with d := v, f := if p.f.ult v then v else p.f }
      ({ s with me := s.me.mapLT up }).sendDrip o.peer o.look v

/-- Committed output slots evaluated against the announce base (spec/10 R258). -/
def State.evalDrips (s : State) (l : List (Nat × OutSlot)) : State :=
  l.foldl (fun s x => s.dripOn x.2.decl (satAdd s.me.ltCommitted.a.toNat x.2.look.toNat)) s

/-- Every output slot is evaluated. -/
def State.dripAll (s : State) : State := s.evalDrips s.me.ltCommitted.outs

/-- The announce base rises, which no rollback undoes. -/
def State.raiseA (s : State) (t : W64) : State :=
  let now := s.me.ltCommitted
  if t.toNat ≤ now.a.toNat then s
  else ({ s with me := s.me.mapLT fun lt => if lt.epoch = now.epoch then { lt with a := t } else lt }).dripAll

/-- The drips of a segment leave when it commits: those of LTDRIP, and those of slots that LTLINK declared. -/
def State.sendDrips (s : State) (d : SegData) : State :=
  let s := d.out.foldl (fun s i => match i.e with
    | .drip decl v => s.dripOn decl v
    | _ => s) s
  let due := s.me.ltCommitted.outs.filter fun x => x.2.due
  let s := s.evalDrips due
  { s with me := due.foldl (fun c x => c.mapLT fun lt => lt.onSlot x.2.decl fun p => { p with due := false }) s.me }

/-- Counts of published and placed messages and tasks of a launch, by context and launch (spec/17 R367). -/
def cntKey (ctx lnch : BitVec 8) : Nat := ctx.toNat * 256 + lnch.toNat
def Core.countSent (c : Core) (lnch : BitVec 8) (n : Nat) : Core := { c with sent := aadd c.sent (cntKey c.act.ctx lnch) n }
def Core.countRecv (c : Core) (ctx lnch : BitVec 8) (n : Nat) : Core := { c with recv := aadd c.recv (cntKey ctx lnch) n }

/-- LNCH and CTX of a message's header (spec/03 R48). -/
def msgLnch (m : Msg) : BitVec 8 := (m.toList.getD 0 0).extractLsb' 48 8
def msgCtx (m : Msg) : BitVec 8 := (m.toList.getD 0 0).extractLsb' 56 8

/-- The launch that an outbox entry counts for; a message to another package counts for none (spec/24 R440). -/
def OutEntry.lnch? : OutEntry → Option (BitVec 8)
  | .msg m p _ _ => if p = bits (m.toList.getD 0 0) 31 24 then some (msgLnch m) else none
  | .own m => some (msgLnch m)
  | .migr r _ _ => some (msgLnch r.hdr)
  | _ => none

/-- The retirement of the activation writes a scheduling record. -/
def State.scheduled (s : State) (a : Act) : Bool := (s.ctx a.ctx.toNat).sched && (a.origin == .deque || a.origin == .steal)

/-- A scheduling record at the retirement of an activation that came from a task record (spec/17 R362). Tag bit 33 of a stolen record tells who
pushed it first, and the sequencer's push of an initial record counts as another core's: the manual says neither. DESIGN CHOICE, log 66. -/
def State.schedRecord (s : State) (a : Act) : State :=
  if s.scheduled a then
    let tag := (if a.origin == .steal then 1 else 0) + (if a.other then 2 else 0)
    let ns := fun (n : Nat) => min (n / 16) (2 ^ 32 - 1)
    let r := [ofNat (put 2 56 + put tag 32 + put a.ctx.toNat 24 + put s.cur 11), a.trig.toList.getD 1 0, ofNat a.born,
      ofNat (put (ns (a.begun - a.born)) 32 + ns (s.gt - a.begun))]
    s.putTrace [(a.ctx, r)]
  else s

/-- Messages of the activations retire (spec/03 R78). -/
def State.retire (s : State) (l : List Act) : State := l.foldl State.schedRecord s

/-- Trace records of a committed segment (spec/05 R149). -/
def State.putTraces (s : State) (d : SegData) : State := s.putTrace (d.traces.map fun r => (s.me.act.ctx, r))

/-- The stopped activation is taken up again from the trap frame (spec/05 R147, spec/11 R280): its state is the confirmed checkpoint, and
a later strike report may still go back into the handler. `succ` gives Succ(pc). -/
def Core.resumeFrame (c : Core) (succ : W64 → W64) (skip : Bool) : Core :=
  match c.frame with
  | none => c
  | some f =>
    let c := { c with
      running := true, act := f.act, regs := f.regs, ctl := f.ctl
      pc := if skip && !f.rolled then succ f.pc else f.pc, streams := f.streams, frame := none, wait := none, spin := 0 }
    { c with past := c.past ++ [c.confirmed], confirmed := c.checkpoint }

end Sys2Proof.Machine
end

