-- ==== Sys2Proof/Machine/Ops.lean ====
section
/-! DEFINITION. Registers, code addresses, the forming of an activation, taking an exception and the return from one. -/

namespace Sys2Proof.Machine

/-! ### Registers (spec/01 R12, R13, spec/03 R54) -/

/-- s0 is always FULL and zero (spec/04 R90). -/
def Regs.getS (r : Regs) (i : BitVec 6) : Cell 64 := if i = 0 then .full 0 else r.s[i.toNat]'i.isLt
def Regs.getV (r : Regs) (i : BitVec 5) : Cell 512 := r.v[i.toNat]'i.isLt
def Regs.getM (r : Regs) (i : BitVec 3) : Cell 64 := r.m[i.toNat]'i.isLt

def Core.setS (c : Core) (i : BitVec 6) (x : Cell 64) : Core :=
  if i = 0 then c else { c with regs := { c.regs with s := c.regs.s.set i.toNat x i.isLt } }
def Core.setV (c : Core) (i : BitVec 5) (x : Cell 512) : Core :=
  { c with regs := { c.regs with v := c.regs.v.set i.toNat x i.isLt } }
def Core.setM (c : Core) (i : BitVec 3) (x : Cell 64) : Core :=
  { c with regs := { c.regs with m := c.regs.m.set i.toNat x i.isLt } }

def Cell.isEmpty {n : Nat} : Cell n → Bool
  | .empty => true
  | _ => false

def Cell.live {n : Nat} : Cell n → Bool
  | .vacant => false
  | _ => true

/-- Undefined() (spec/01 R12): a free value, fresh for each use. -/
def undef (c : Core) : BitVec 512 × Core := (Config.undefined c.id c.nund, { c with nund := c.nund + 1 })

/-! ### Code addresses (spec/04 R83 to R87) -/

def Core.line (c : Core) (l : Nat) : List Raw := decodeLine (Mem.bytes c.imem (64 * l) 64)

/-- The instruction at a byte address, where the address is valid (spec/04 R85). -/
def Core.fetch (c : Core) (a : W64) : Option Raw :=
  if a.toNat < 0x8000 ∧ a.toNat % 2 = 0 then (c.line (a.toNat / 64))[a.toNat % 64 / 2]? else none

def Core.validPc (c : Core) (a : W64) : Bool := (c.fetch a).isSome

/-- The sequential successor (spec/04 R85). -/
def Core.succ (c : Core) (a : W64) : W64 :=
  if a.toNat % 64 / 2 + 1 < (c.line (a.toNat / 64)).length then a + 2 else ofNat (64 * (a.toNat / 64 + 1))

/-- The instruction is done; its successor is next. -/
def Core.retire (c : Core) : Core := { c with pc := c.succ c.pc, wait := none, spin := 0 }

/-- A jump: BADTGT where the target is not valid, or a register target has bits 63:15 or bit 0 set (spec/04 R86, R87). -/
def Core.goto (c : Core) (a : W64) : Res Core :=
  if c.validPc a then .ok { c with pc := a, wait := none, spin := 0 } else trap c 0x003 a 0 0

/-- The byte address that a target field names (spec/04 R86). -/
def target (t : BitVec 14) : W64 := ofNat (2 * t.toNat)

/-! ### Forming an activation (spec/03 R53) -/

/-- The starting registers: words 0 to 7 in s1 to s8. -/
def Regs.start (m : Msg) : Regs :=
  let w := fun (i : Nat) => Cell.full (m.toList.getD i 0)
  { Regs.reset with
    s := Regs.reset.s |>.set 1 (w 0) |>.set 2 (w 1) |>.set 3 (w 2) |>.set 4 (w 3) |>.set 5 (w 4) |>.set 6 (w 5)
      |>.set 7 (w 6) |>.set 8 (w 7) }

/-- The budget ceiling of a launch (spec/17 R363); none is known for a launch the sequencer does not hold. -/
def State.ceiling (s : State) (ctx lnch : BitVec 8) : Nat :=
  match s.launch? ctx lnch with
  | none => 2 ^ 32
  | some l => let b := bits (l.record.toList.getD 1 0) 31 0; if b = 0 then 2 ^ 32 else b

def State.budget (s : State) (e : W64) (ctx lnch : BitVec 8) : W64 := ofNat (min (entryBudget e) (s.ceiling ctx lnch))

/-- The control words at dispatch. -/
def Ctl.start (m : Msg) (bud : W64) : Ctl := ⟨m.toList.getD 1 0, m.toList.getD 2 0, m.toList.getD 0 0, 0, 0, 0, bud, 0, 0⟩

/-- The checkpoint that a dispatch leaves: this state (spec/03 R53). -/
def Core.begun (c : Core) : Core := c.setLast c.checkpoint

/-! ### Retirement and the end of an activation -/

def AtCommit.acts : AtCommit → List Act
  | .retire l => l
  | _ => []

/-- The activation whose message retires when the running one ends: the stopped one where a trap handler runs (spec/11 R281); a follower
has none. -/
def Core.messages (c : Core) : List Act := [(c.frame.map (·.act)).getD c.act].filter fun a => a.origin != .follower

/-- Messages retire when the newest closed segment commits, at once where none is closed (spec/11 R278). -/
def State.retireLater (s : State) (l : List Act) : State :=
  match s.me.closing.reverse with
  | [] => s.retire l
  | g :: r => { s with me := { s.me with closing := (({ g with atCommit := .retire (g.atCommit.acts ++ l) }) :: r).reverse } }

/-- END, YIELD, MIGR and a kill unbind every stream (spec/14 R311). -/
def State.unbindAll (s : State) : State :=
  let s := { s with me := { s.me with streams := [] } }
  s.relockStreams

/-- The activation is over; the newest checkpoint is that of an idle core. -/
def State.endIdle (s : State) : State :=
  let s := s.unbindAll
  let c := s.me.idle
  { s with me := { c.setLast c.checkpoint with report := none, raised := none, again := c.again.filter fun x => x.met.isSome } }

/-! ### Killing a context (spec/20 R404, spec/17 R355) -/

/-- Published and placed messages and tasks of a launch, with those that the sequencer counted (spec/17 R367); the cores of a context that
is out keep their counts in its images. -/
def State.totals (s : State) (l : Launch) : Nat × Nat :=
  let out := (s.images.filter fun p => p.1 / 8192 == l.ctx.toNat).map (·.2)
  let n := fun (f : Core → List (Nat × Nat)) => ((s.coreList.map (·.2) ++ out).map fun c => anat (f c) (cntKey l.ctx l.lnch)).sum
  (l.base + n (·.sent), n (·.recv))

/-- The done block of a launch (spec/17 R363): words 1 to 3, then word 0. -/
def State.doneBlock (s : State) (ctx : Nat) (donew : W64) (w0 w1 w2 w3 : Nat) : State :=
  match s.hptr ctx donew 32 with
  | none => s
  | some pa => (s.physPut (pa + 8) (bytesOf w1 8 ++ bytesOf w2 8 ++ bytesOf w3 8)).physPut pa (bytesOf w0 8)

/-- A launch that a kill ends. -/
def State.endKilled (s : State) (l : Launch) : State :=
  let t := s.totals l
  s.doneBlock l.ctx.toNat (l.record.toList.getD 7 0) (2 ^ 63 + 2 ^ 61 + l.err.toNat) t.1 t.2 0

/-- What a core keeps of a killed context: its data and counters. -/
def Core.wipe (c : Core) : Core :=
  let c := { c with
    frame := none, gang := none, parks := [], streams := [], pend := [], reads := [], report := none, gangWait := none
    reserved := none, mailbox := [], deque := [], ops := [], ring := [], planes0 := [], grind0 := [], locks := [], pours := []
    colls := [], grinder := Grinder.reset, halted := none, steps := none, passing := none, again := [] }
  c.idle.setLast c.idle.checkpoint

/-- Graph slots of a killed context stop in error 6 (spec/21 R415). -/
def State.killSlots (s : State) (ctx : Nat) : State :=
  s.slots.foldl (fun s x => if x.2.st = .running ∧ x.2.ctx.toNat = ctx then
      { s.interrupt 1 with slots := aset s.slots x.1 { x.2 with st := .error, err := 6 } }
    else s) s

/-- A member of a collective goes with its context: the members in other packages that its map names learn of it (spec/24 R447). -/
def State.collLost (s : State) (ops : List EngOp) : State :=
  ops.foldl (fun s o => match o.kind with
    | .coll m k map =>
      let w := fun (i : Nat) => m.toList.getD i 0
      let (gid, rank) := (bits (w 2) 49 42, bits (w 2) 41 21)
      if o.st = .complete then s
      else map.foldl (fun s x =>
        let node := farNode (x.2 / 2 ^ 24) (x.2 / 2 ^ 11 % 2 ^ 13)
        if x.2 / 2 ^ 24 = s.pkgid.toNat then s
        else if x.1 < rank then s.sendFor o.ctx node (.sub gid k rank (w 2) (w 3) [] 0 (some 8))
        else s.sendFor o.ctx node (.res gid k x.1 (w 2) (w 3) [] 0 (some 8))) s
    | _ => s) s

def State.killContext (s : State) (ctx : Nat) : State :=
  let x := s.ctx ctx
  let mine := fun (k : Nat) => x.here && x.hasCluster (clusterOf k)
  let s := onCores (s.cores.filter mine) (fun s =>
    let s := s.rollBack 0 true
    let s := s.collLost s.me.ops
    { s with me := s.me.wipe }) s
  let s := (s.images.filter fun p => p.1 / 8192 == ctx).foldl (fun s p => onCore (p.1 % 8192) (fun s => s.collLost p.2.ops) s) s
  let s := (s.launches.filter fun l => l.ctx.toNat == ctx).foldl State.endKilled s
  let s := { s with
    launches := s.launches.filter fun l => l.ctx.toNat != ctx
    pours := s.pours.filter fun p => !mine p.core
    pours0 := s.pours0.filter fun p => p.1 != ctx
    dlocks := s.dlocks.filter fun l => !(mine l.core || decide (l.core / 2 ^ 20 = ctx))
    leases := s.leases.filter fun p => p.2.ctx.toNat != ctx
    leases0 := s.leases0.filter fun p => p.1 / 1024 != ctx
    reload := s.reload.filter fun r => !mine (8 * r)
    rounds := s.rounds.filter fun r => r.ctx.toNat != ctx
    images := s.images.map fun (p : Nat × Core) => if p.1 / 8192 = ctx then (p.1, p.2.wipe) else p }
  (s.killSlots ctx).setCtx ctx { ((s.ctx ctx).setState 5) with spill := [] }

/-- A kill for an uncorrectable error, with its notice (spec/17 R355). -/
def State.killFor (s : State) (core : Nat) (ctx : BitVec 8) (a kind : W64) : State :=
  (s.notice core ctx none 0x501 0 0 a kind 0).killContext ctx.toNat

/-! ### Taking an exception (spec/11 R273 to R283) -/

/-- The core in focus as the one that raises a report. -/
def State.self (s : State) (kill : Bool) : Raised := ⟨s.cur, s.me.gang.map (·.idx), s.me.clk, kill⟩

/-- The record of a report that core x raised (spec/11 R275). -/
def State.recordFor (s : State) (x : Raised) (r : Report) : List W64 :=
  let c := s.me
  recordWords r.cause (if c.act.isTrap then 1 else 0) r.point x.mix.isSome (x.mix.getD 0) c.act.ctx.toNat
    s.pkgid.toNat x.core c.ctl.tid r.head r.w3 (ofNat r.cyc) (ofNat r.gt) r.w6 r.w7

/-- The record of a report of the core in focus. -/
def State.record (s : State) (r : Report) : List W64 := s.recordFor (s.self false) r

/-- The record of the report that stands at the core in focus. -/
def State.standing (s : State) (r : Report) : List W64 := s.recordFor (s.me.raised.getD (s.self false)) r

/-- The record of the core in focus goes into its context's trap ring, behind earlier notices of its cluster; none where the ring is full
(spec/11 R285, R286). -/
def State.putRecord (s : State) (r : Report) : Option State :=
  (s.flush (clusterOf s.cur)).trapPut ⟨s.me.act.ctx, some s.me.act.lnch, r.cause / 256, s.standing r, false⟩

/-- The records of every member that raised a cause, in member order (spec/11 R283). -/
def State.putRecords (s : State) : List Nat → Option State
  | [] => some s
  | k :: ks =>
    match (s.core k).report with
    | none => s.putRecords ks
    | some r =>
      match (s.focus k).putRecord r with
      | none => none
      | some s' => (s'.focus s.cur).putRecords ks

/-- Every member waits for the report. -/
def State.reportWait (s : State) (ms : List Nat) (w : Wait) : State :=
  onCores ms (fun s => { s with me := { s.me with wait := some w } }) s

/-- The trap boundary of the core in focus, its frame, and the dispatch of the handler of entry THIX (spec/11 R279). -/
def State.enterHandler (s : State) (rec0 : List W64) (thix : Nat) (rolled reload : Bool) : State :=
  let c := s.me.close .trap s.me.pc .nothing
  let f : Saved := ⟨c.act, c.regs, c.ctl, c.pc, c.streams, rolled, none, reload⟩
  let e := c.handler thix
  let c := { c with
    frame := some f
    act := { c.act with isTrap := true, hidx := thix, no := c.nact + 1, trig := msgOf rec0 }
    nact := c.nact + 1
    regs := Regs.start (msgOf rec0)
    ctl := ⟨c.ctl.tid, c.ctl.wid, c.ctl.msg, 0, 0, 0, s.budget e.1 c.act.ctx c.act.lnch, 0, 0⟩
    pc := ofNat (64 * bits e.2 8 0)
    streams := [], wait := none, spin := 0, irrev := none, report := none, raised := none, gang := none }
  { s with me := c.begun }

/-- A follower's part of the activation ends with the boundary and the follower returns to dispatch (spec/11 R283). -/
def State.endFollower (s : State) : State :=
  ({ s with me := { (s.me.close .endAct s.me.pc .nothing) with gang := none } }).endIdle

/-- The kill of the activation of the core in focus; of the stopped one too where it is a handler (spec/11 R278, R281). -/
def State.killAct (s : State) : State :=
  let s := s.rollOpen true
  let s := s.retireLater s.me.messages
  ({ s with me := { s.me with frame := none, gang := none } }).endIdle

/-- The segments that one boundary closes in a gang commit together (spec/14 R301). -/
def State.linkMates (s : State) (ms : List Nat) : State :=
  let mates := ms.filterMap fun k => (s.core k).closing.getLast?.map fun g => (k, g.d.id)
  onCores ms (fun s => match s.me.closing.reverse with
    | [] => s
    | g :: r => { s with me := { s.me with closing := (({ g with mates := mates }) :: r).reverse } }) s

/-- The members of a gang that a halt, or the thermal trip, keeps at their heads: no segment closes and nothing is dispatched there
(spec/20 R393, spec/21 R423). -/
def State.anyHeld (s : State) (ms : List Nat) : Bool := ms.any fun k => (s.core k).held?

/-- A standing report is settled by its policy (spec/11 R278, R283), or waits for the boundary or for the ring; at a halted or stopped core
it stays. Where committed data is lost, the record comes first and then the end of its context (spec/17 R355). -/
def State.settle (s : State) : State :=
  let ms := s.gangOf
  let lead := ms.headD s.cur
  match ms.find? (fun k => (s.core k).report.isSome) with
  | none => s
  | some m =>
    if s.anyHeld ms then s else
    let c := s.core m
    let r := c.report.getD ⟨0, 0, 0, 0, 0, 0, 0, 0⟩
    let lost := (c.raised.map (·.kill)).getD false
    let e := c.entry
    let thix := bits e 52 43
    let want := !c.act.isTrap && e.getLsbD (53 + r.cause / 256)
    let handles := want && entryValid (c.handler thix).1
    if !lost && (!fusedDone s ms (!handles) || handles && !(ms.all fun k => (s.core k).settled && decide ((s.core k).closing.length < 2))) then
      s.reportWait ms .report
    else match s.putRecords ms with
      | none => (s.ringFull c.act.ctx).reportWait ms .ring
      | some s' =>
        let rec0 := (s.focus m).standing r
        if lost then s'.killFor m c.act.ctx r.w3 r.w6
        else if handles then
          let s' := onCores (ms.filter (· != lead)) State.endFollower s'
          let s' := onCore lead (fun s => s.enterHandler rec0 thix (r.point != 0) (r.cause == 0x401)) s'
          if ms.length ≤ 1 then s' else s'.linkMates ms
        else
          let s' := if want then s'.notice m c.act.ctx (some c.act.lnch) 0x003 c.ctl.tid 0 (ofNat thix) c.ctl.msg 3 else s'
          onCores ms State.killAct s'

/-- A report without its times, taken now; `x` names who raised it, where that is not the core as it stands. -/
def State.raiseAs (s : State) (k : Nat) (r : Report) (x : Option Raised) : State :=
  onCore k (fun s => { s with me := { s.me with
    report := some { r with cyc := (x.map (·.cyc)).getD s.me.clk, gt := s.gt }, raised := x, irrev := none } }) s

def State.raise (s : State) (k : Nat) (r : Report) : State := s.raiseAs k r none

/-- Takes an exception: the reports of one core, or of several members of a gang at one head. -/
def State.takeTrap (s : State) (rs : List (Nat × Report)) : State :=
  (rs.foldl (fun s x => s.raise x.1 x.2) s).settle

/-- A report after a rollback of the last n closed segments, at point B or A (spec/11 R276). It is that of the core in focus, as a member of
the gang that it was in; where the rollback ends its part of the gang, the leader takes the policy (spec/11 R283). -/
def State.takeBackAs (s : State) (n : Nat) (r : Report) (kill : Bool) : State :=
  let x := s.self kill
  let lead := s.gangOf.headD s.cur
  let s := s.rollGang n true
  (s.raiseAs (if s.me.running then s.cur else lead) r (some x)).settle

def State.takeBack (s : State) (n : Nat) (r : Report) : State := s.takeBackAs n r false

/-! ### The return from an exception (spec/05 R147, spec/03 R81) -/

/-- While dispatch is stopped for a pre-emption, the frame stays with the choice; else the stopped activation resumes. -/
def State.returnFrame (s : State) (skip : Bool) : State :=
  match s.me.frame with
  | none => s
  | some f =>
    let bud := if f.reload then s.budget (s.me.handler f.act.hidx).1 f.act.ctx f.act.lnch else f.ctl.bud
    let f := { f with ctl := { f.ctl with bud := bud }, reload := false }
    let s := { s with me := { s.me with frame := some f } }
    if (s.ctx f.act.ctx.toNat).state = 4 then { s with me := { s.me with frame := some { f with choice := some skip } } }
    else
      let s := { s with me := s.me.resumeFrame s.me.succ skip }
      s.relockStreams

/-! ### Sector reads (spec/17 R348, R355) -/

/-- A leaf entry of the table at t maps the physical page of pa (spec/17 R351). -/
def State.mapsFrom (s : State) (ctx pa : Nat) : Nat → Nat → Nat → Bool
  | 0, _, _ => false
  | fuel + 1, j, t =>
    let z := if j = 2 then 30 else 21
    (List.range (if j = 0 then 256 else 512)).any fun ix =>
      let e := s.physWord (t + 8 * ix)
      if !e.getLsbD 63 || s.badEntry e z || bits e 7 0 != ctx then false
      else if e.getLsbD 61 then decide (2 ≤ j) && bits e 55 z == pa / 2 ^ z
      else decide (j < 3) && s.mapsFrom ctx pa fuel (j + 1) (bits e 55 12 * 4096)

/-- The owner of a DRAM sector: the context whose leaf entry maps its page. -/
def State.sectorOwner (s : State) (pa : Nat) : Option Nat :=
  (s.ctxs.find? fun x => x.2.state != 0 && s.mapsFrom x.1 pa 4 0 (x.2.w 3).toNat).map (·.1)

/-- The owning context of committed data is killed; owner 0 is none. -/
def State.killOwner (s : State) (core : Nat) (ctx : BitVec 8) (a kind : W64) : State :=
  if ctx = 0 then s else s.killFor core ctx a kind

/-- A read of sector x under a tag; a misdirected write ends the owner. -/
def State.decodeSector (s : State) (tag : BitVec 4) (x : Nat) : State :=
  let r := s.decode1 tag x
  if r.2 then (r.1.sectorOwner (64 * x)).elim r.1 fun k => r.1.killOwner ((r.1.ctx k).coreList.headD 0) (BitVec.ofNat 8 k) (ofNat (64 * x)) 2
  else r.1

/-- Every sector of n bytes at pa is read under a tag; none, each under its own. -/
def State.readSectors (s : State) (pa n : Nat) (tag : Option (BitVec 4)) : State :=
  if hostBit ≤ pa then s else (sectorsOf pa n).foldl (fun s x => s.decodeSector (tag.getD (s.tagAt (64 * x))) x) s

/-- A unit reads n bytes that belong to a context: what is uncorrectable ends it (spec/17 R355). -/
def State.consume (s : State) (ctx pa n : Nat) : State :=
  let t := s.readSectors pa n none
  if t.physBad pa n then t.killOwner ((t.ctx ctx).coreList.headD 0) (BitVec.ofNat 8 ctx) (ofNat pa) 2 else t

/-- A unit reads a handle's entry, and n bytes at pa under its tag. -/
def State.readHandle (s : State) (ctx : Nat) (w : W64) (pa n : Nat) : State :=
  (s.consume ctx (((s.ctx ctx).w 4).toNat + 16 * bits w 63 48) 16).readSectors pa n (some (s.handleTag ctx w))

/-- A packet that reaches a device sector has its decoder read it. -/
def State.readHome (s : State) (h : Home) (n : Nat) (tag : BitVec 4) : State :=
  match h with
  | .dev pa => s.readSectors pa n (some tag)
  | _ => s

/-! ### Translation tables (spec/17 R350) -/

/-- A table that takes one more entry and holds at most n of those that count: its oldest one makes room. -/
def newest {α : Type} (p : α → Bool) (n : Nat) (l : List α) (e : α) : List α :=
  if n ≤ l.countP p then l.eraseP p ++ [e] else l ++ [e]

/-- The own table of the core in focus takes a page in. -/
def State.fillOwn (s : State) (va : W64) (page : Nat) (w : Bool) : State :=
  { s with me := { s.me with tlb := newest (fun _ => true) 64 (s.me.tlb.filter fun x => x.1 != bits va 55 21) (bits va 55 21, page, w) } }

/-- The shared table of its cluster takes a page in. -/
def State.fillShared (s : State) (va : W64) (page : Nat) (w : Bool) : State :=
  let g : TableEntry := ⟨clusterOf s.cur, s.me.act.ctx, bits va 55 21, page, w⟩
  let others := s.tables.filter fun x => !(x.cluster == g.cluster && x.ctx == g.ctx && x.vpage == g.vpage)
  { s with tables := newest (fun x => x.cluster == g.cluster) 2048 others g }

/-- The sectors that a walk reads. -/
def State.walked (s : State) (ctx : Nat) (va : W64) : Nat → Nat → Nat → List Nat
  | 0, _, _ => []
  | fuel + 1, j, t =>
    let ix := if j = 0 then bits va 55 48 else if j = 1 then bits va 47 39 else if j = 2 then bits va 38 30 else bits va 29 21
    let e := s.physWord (t + 8 * ix)
    (t + 8 * ix) :: (if !e.getLsbD 63 || e.getLsbD 61 then [] else s.walked ctx va fuel (j + 1) (bits e 55 12 * 4096))

/-- A walk that finds a page fills both tables. -/
def State.walkFill (s : State) (va : W64) : State :=
  let ctx := s.me.act.ctx.toNat
  match s.translate ctx va false with
  | .error _ => s
  | .ok pa =>
    let w := match s.translate ctx va true with | .ok _ => true | .error _ => false
    let ps := s.walked ctx va 4 0 ((s.ctx ctx).w 3).toNat
    let s := (ps.foldl (fun (s : State) pa => s.readSectors pa 8 none) s).charge ctx 9 ps.length
    (s.fillOwn va (pa / 2 ^ 21) w).fillShared va (pa / 2 ^ 21) w

/-- An access to a virtual address fills the tables above the one that has its page. -/
def State.fillFor (s : State) (e : W64) : State :=
  match s.place e with
  | .virt =>
    if (cached s.me e false).isSome then s
    else match s.tables.find? fun x => x.cluster == clusterOf s.cur && x.ctx == s.me.act.ctx && x.vpage == bits e 55 21 with
      | some x => s.fillOwn e x.ppage x.writable
      | none => s.walkFill e
  | _ => s

def State.filled (s : State) (es : List W64) : State := es.foldl State.fillFor s

/-- A translation that fails: XLATE at the head, or UNCORR (spec/17 R350, R354). -/
def State.unmapped (s : State) (e w7 : W64) : Unmapped → Stop
  | .xlate w => .trap (precise s.me 0x204 e w w7)
  | .uncorr => .uncorr e 2 true

/-- Poisoned data consumed by the open segment: rollback and a report at point A, or the kill after its record. -/
def State.uncorrectable (s : State) (a kind : W64) (kill : Bool) : State :=
  s.takeBackAs 0 ⟨0x501, 2, s.me.pc, a, kind, 0, s.me.clk, s.gt⟩ kill

/-! ### Ending an instruction -/

def State.waiting (s : State) (w : Wait) : State := { s with me := { s.me with wait := some w } }

/-- The implicit PHASE of spec/03 R66, or the wait for it. -/
def State.implicitPhase (s : State) : State :=
  match boundaryReady s.me with
  | .ok _ => { s with me := { s.me.close .autoCommit s.me.pc .nothing with wait := some .space } }
  | .error (.wait w) => s.waiting w
  | .error _ => s

def finish (s : State) : Res State → Out
  | .ok s' => .next s'
  | .error (.trap r) => .next (s.takeTrap [(s.cur, r)])
  | .error (.wait w) => .next (s.waiting w)
  | .error .phase => .next s.implicitPhase
  | .error (.uncorr a kind kill) => .next (s.uncorrectable a kind kill)

/-- An instruction whose effect lies in its core, and which goes on at its successor. -/
def coreOp (s : State) (f : Core → Res Core) : Out := finish s ((f s.me).map fun c => { s with me := c.retire })

/-- An instruction with effects in the package, whose core goes on at its successor. -/
def pkgOp (s : State) (f : State → Res State) : Out := finish s ((f s).map fun s => { s with me := s.me.retire })

end Sys2Proof.Machine
end

