-- ==== Sys2Proof/Machine/Flags.lean ====
section
/-! DEFINITION. The sticky flags, the arithmetic traps, the structure status and the running maximum. -/

namespace Sys2Proof.Machine

/-- Raised flags, laid out as FLG (spec/02 R29): INV, DVZ, OFL, UFL, INX from bit 0. -/
abbrev Fl := BitVec 5

def Fl.inv : Fl := 1
def Fl.dvz : Fl := 2
def Fl.ofl : Fl := 4
def Fl.ufl : Fl := 8
def Fl.inx : Fl := 16

/-- The number of the first flag of a set, in the order INV, DVZ, OFL, UFL, INX (spec/11 R274). -/
def firstFlag (f : Fl) : Nat :=
  if f.getLsbD 0 then 0 else if f.getLsbD 1 then 1 else if f.getLsbD 2 then 2 else if f.getLsbD 3 then 3 else 4

/-- The flags that MODE makes trap (spec/03 R58). -/
def enabled (mode : W64) (f : Fl) : Fl := f &&& mode.setWidth 5

/-- Raised flags are ORed into FLG, or trap by MODE (spec/02 R29, spec/11 R274). `lanes`: word 6 of the record. -/
def Core.raiseFlags (c : Core) (f : Fl) (lanes : W64 := 0) : Res Core :=
  if enabled c.ctl.mode f = 0 then .ok { c with ctl := { c.ctl with flg := c.ctl.flg ||| f.setWidth 64 } }
  else trap c (0x301 + firstFlag (enabled c.ctl.mode f)) 0 lanes (f.setWidth 64)

/-- Structure status codes (spec/03 R59). -/
inductive StsCode where
  | ok | full | empty | absent | present
deriving DecidableEq, Repr

def StsCode.code : StsCode → Nat
  | .ok => 0
  | .full => 1
  | .empty => 2
  | .absent => 3
  | .present => 4

def Core.setSts (c : Core) (x : StsCode) : Core := { c with ctl := { c.ctl with sts := ofNat x.code } }

/-- UpdateAMX of spec/02 R45: the magnitude of x in binary64, none for a NaN. -/
def updateAmx (amx : W64) (x : Option W64) : W64 :=
  match x with
  | none => amx ||| ofNat (2 ^ 63)
  | some y =>
    let m := bits y 62 0
    if bits amx 62 0 < m then ofNat (put (bits amx 63 63) 63 + m) else amx

/-- Default rounding: MODE.RND (spec/03 R58). -/
def modeRnd (mode : W64) : Rnd := (Rnd.ofCode (mode.extractLsb' 16 2)).getD .rne

end Sys2Proof.Machine
end

