-- ==== Sys2Proof/Machine/Num.lean ====
section
/-! DEFINITION. Number formats, exact values, rounding and conversion (spec/02). -/

namespace Sys2Proof.Machine

/-! ### Exact values -/

/-- An exact dyadic number m × 2^e. -/
structure Dy where
  m : Int
  e : Int
deriving DecidableEq, Repr

/-- What an encoding stands for (spec/02 R20): a NaN with its sign and its payload aligned to 52 bits, the top one quiet;
an infinity; a finite value with its sign, so that zeros keep theirs. -/
inductive FV where
  | nan (neg : Bool) (pay : Nat)
  | inf (neg : Bool)
  | fin (neg : Bool) (m : Nat) (e : Int)
deriving DecidableEq, Repr

def FV.isNan : FV → Bool
  | .nan .. => true
  | _ => false

/-- A signalling NaN (spec/02 R26). -/
def FV.isSnan : FV → Bool
  | .nan _ p => !p.testBit 51
  | _ => false

def FV.neg : FV → Bool
  | .nan n _ => n
  | .inf n => n
  | .fin n _ _ => n

def FV.isZero : FV → Bool
  | .fin _ m _ => m == 0
  | _ => false

def FV.isInf : FV → Bool
  | .inf _ => true
  | _ => false

def FV.abs : FV → FV
  | .nan _ p => .nan false p
  | .inf _ => .inf false
  | .fin _ m e => .fin false m e

def FV.dy : FV → Dy
  | .fin n m e => ⟨if n then -(m : Int) else m, e⟩
  | _ => ⟨0, 0⟩

/-- m × 2^e with e moved down to e'. -/
def Dy.at (x : Dy) (e' : Int) : Int := x.m * 2 ^ (x.e - e').toNat

def Dy.add (x y : Dy) : Dy :=
  let e := min x.e y.e
  ⟨x.at e + y.at e, e⟩

def Dy.mul (x y : Dy) : Dy := ⟨x.m * y.m, x.e + y.e⟩

def Dy.lt (x y : Dy) : Bool :=
  let e := min x.e y.e
  decide (x.at e < y.at e)

def Dy.eq (x y : Dy) : Bool :=
  let e := min x.e y.e
  decide (x.at e = y.at e)

/-! ### Formats (spec/02 R20) -/

/-- Exponent bits, mantissa bits, bias, the largest exponent field of a finite value and its largest mantissa. -/
structure Fmt where
  eb   : Nat
  mb   : Nat
  bias : Nat
  emax : Nat
  mmax : Nat
  inf  : Bool
deriving DecidableEq, Repr

def Ty.fmt : Ty → Fmt
  | .f64 => ⟨11, 52, 1023, 2046, 2 ^ 52 - 1, true⟩
  | .f32 => ⟨8, 23, 127, 254, 2 ^ 23 - 1, true⟩
  | .bf16 => ⟨8, 7, 127, 254, 127, true⟩
  | .f16 => ⟨5, 10, 15, 30, 1023, true⟩
  | .e5m2 => ⟨5, 2, 15, 30, 3, true⟩
  | .e4m3 => ⟨4, 3, 7, 15, 6, false⟩
  | .e3m2 => ⟨3, 2, 3, 7, 3, false⟩
  | .e2m3 => ⟨2, 3, 1, 3, 7, false⟩
  | .e2m1 => ⟨2, 1, 1, 3, 1, false⟩
  | _ => ⟨11, 52, 1023, 2046, 2 ^ 52 - 1, true⟩

/-- A floating type by R20 with a sign, an exponent and a mantissa. -/
def isFloat : Ty → Bool
  | .f64 | .f32 | .bf16 | .f16 | .e5m2 | .e4m3 | .e3m2 | .e2m3 | .e2m1 => true
  | _ => false

/-- The canonical quiet NaN (spec/02 R25). -/
def canonNan : Ty → Nat
  | .e4m3 => 0x7F
  | .e8m0 => 0xFF
  | t => let f := Ty.fmt t; (2 ^ f.eb - 1) * 2 ^ f.mb + 2 ^ (f.mb - 1)

def infBits (t : Ty) (neg : Bool) : Nat :=
  let f := Ty.fmt t
  (if neg then 2 ^ (f.eb + f.mb) else 0) + (2 ^ f.eb - 1) * 2 ^ f.mb

def maxBits (t : Ty) (neg : Bool) : Nat :=
  let f := Ty.fmt t
  (if neg then 2 ^ (f.eb + f.mb) else 0) + f.emax * 2 ^ f.mb + f.mmax

def zeroBits (t : Ty) (neg : Bool) : Nat := if neg then 2 ^ ((Ty.fmt t).eb + (Ty.fmt t).mb) else 0

/-! ### ds8 (spec/02 R23, R24): values in units of 2^-6 -/

def dsTerm (s c : Nat) : Int := if c = 7 then 0 else if s = 1 then -(2 ^ (6 - c) : Int) else 2 ^ (6 - c)
def dsVal (b : Nat) : Int := dsTerm (b / 128 % 2) (b / 16 % 8) + dsTerm (b / 8 % 2) (b % 8)

/-- The canonical encoding of a value: one term, ±2, or the first pair ca < cb, of one sign before opposite ones. -/
def dsCanon (v : Int) : Nat :=
  let s := if v < 0 then 1 else 0
  let a := v.natAbs
  if a = 0 then 0x77
  else if a = 128 then (if s = 1 then 0x88 else 0)
  else match (List.range 7).find? fun c => 2 ^ (6 - c) = a with
    | some c => s * 128 + c * 16 + 7
    | none =>
      let pairs := (List.range 7).flatMap fun ca => ((List.range 7).filter (ca < ·)).map fun cb => (ca, cb)
      match pairs.find? fun p => 2 ^ (6 - p.1) + 2 ^ (6 - p.2) = a with
      | some p => s * 128 + p.1 * 16 + s * 8 + p.2
      | none => match pairs.find? fun p => 2 ^ (6 - p.1) - 2 ^ (6 - p.2) = a with
        | some p => s * 128 + p.1 * 16 + (1 - s) * 8 + p.2
        | none => 0x77

/-- Some encoding has the value v, v not negative. -/
def dsHas (v : Nat) : Bool := (List.range 256).any fun b => dsVal b == (v : Int)

/-! ### Decoding -/

/-- Decode (spec/02 R34) of a floating, e8m0 or ds8 encoding, of an integer of its type. -/
def decodeF (t : Ty) (x : Nat) : FV :=
  match t with
  | .ds8 => let v := dsVal (x % 256); .fin (decide (v < 0)) v.natAbs (-6)
  | .e8m0 => if x % 256 = 255 then .nan false (2 ^ 51) else .fin false 1 ((x % 256 : Int) - 127)
  | .i4 => let v := sext x 4; .fin (decide (v < 0)) v.natAbs 0
  | t =>
    if t.isInt then
      let v : Int := if t.isSInt then sext x t.width else (x % 2 ^ t.width : Nat)
      .fin (decide (v < 0)) v.natAbs 0
    else
      let f := Ty.fmt t
      let neg := x / 2 ^ (f.eb + f.mb) % 2 == 1
      let e := x / 2 ^ f.mb % 2 ^ f.eb
      let m := x % 2 ^ f.mb
      if f.inf && e == 2 ^ f.eb - 1 then
        if m = 0 then .inf neg else .nan neg (m * 2 ^ (52 - f.mb))
      else if t == .e4m3 && e == 15 && m == 7 then .nan neg (m * 2 ^ 49)
      else if e = 0 then .fin neg m (1 - (f.bias : Int) - f.mb)
      else .fin neg (2 ^ f.mb + m) ((e : Int) - f.bias - f.mb)

/-- A NaN written in a format that has NaNs, quieted (spec/02 R26). -/
def nanBits (t : Ty) (neg : Bool) (pay : Nat) : Nat :=
  match t with
  | .e4m3 => if neg then 0xFF else 0x7F
  | .e8m0 => 0xFF
  | t =>
    let f := Ty.fmt t
    zeroBits t neg + (2 ^ f.eb - 1) * 2 ^ f.mb + (pay / 2 ^ (52 - f.mb) ||| 2 ^ (f.mb - 1))

/-! ### Rounding (spec/02 R27, R28) -/

/-- Whether the mode rounds a magnitude up, away from zero, given its low bit and the parts below it. -/
def roundsUp (rm : Rnd) (neg : Bool) (odd half below : Bool) : Bool :=
  match rm with
  | .rne => half && (below || odd)
  | .rtz => false
  | .rup => !neg && (half || below)
  | .rdn => neg && (half || below)

/-- m × 2^e as a multiple of 2^q, rounded; and whether it was inexact. -/
def quantize (m : Nat) (e q : Int) (rm : Rnd) (neg : Bool) : Nat × Bool :=
  if q ≤ e then (m * 2 ^ (e - q).toNat, false)
  else
    let k := (q - e).toNat
    let n := m >>> k
    let r := m % 2 ^ k
    let half := r.testBit (k - 1)
    let below := decide (r % 2 ^ (k - 1) ≠ 0)
    (if roundsUp rm neg (n % 2 == 1) half below then n + 1 else n, decide (r ≠ 0))

/-- floor(log2 m), m positive. -/
def log2 (m : Nat) : Nat := Nat.log2 m

/-- An overflowing result (spec/02 R28). -/
def overflow (t : Ty) (rm : Rnd) (neg sat : Bool) : Nat :=
  let toward := match rm with
    | .rne => false
    | .rtz => true
    | .rup => neg
    | .rdn => !neg
  match t with
  | .e3m2 | .e2m3 | .e2m1 => maxBits t neg
  | .e4m3 => if sat || toward then maxBits t neg else if neg then 0xFF else 0x7F
  | t => if sat || toward then maxBits t neg else infBits t neg

/-- Rounding of ±m × 2^e, m not zero, into a floating format. -/
def roundFloat (t : Ty) (rm : Rnd) (neg : Bool) (m : Nat) (e : Int) (sat : Bool) : Nat × Fl :=
  let f := Ty.fmt t
  let top := (log2 m : Int) + e
  let emin := 1 - (f.bias : Int)
  let q := max (top - f.mb) (emin - f.mb)
  let (n, inexact) := quantize m e q rm neg
  -- the same value with an unbounded exponent decides tininess
  let (u, _) := quantize m e (top - f.mb) rm neg
  let tiny := decide (top < emin) && !(decide (top + 1 = emin) && u == 2 ^ (f.mb + 1))
  -- a carry out of the mantissa
  let (n, q) := if n = 2 ^ (f.mb + 1) then (2 ^ f.mb, q + 1) else (n, q)
  let ef : Int := if n < 2 ^ f.mb then 0 else q + f.mb + f.bias
  let mf := if n < 2 ^ f.mb then n else n - 2 ^ f.mb
  if (f.emax : Int) < ef ∨ ((f.emax : Int) = ef ∧ f.mmax < mf) then (overflow t rm neg sat, Fl.ofl ||| Fl.inx)
  else
    (zeroBits t neg + ef.toNat * 2 ^ f.mb + mf,
      if inexact then (if tiny then Fl.ufl ||| Fl.inx else Fl.inx) else 0)

/-- Rounding into ds8 (spec/02 R24): the grid of its values in units of 2^-6. -/
def roundDs8 (rm : Rnd) (neg : Bool) (m : Nat) (e : Int) : Nat × Fl :=
  let val := fun (a : Nat) => dsCanon (if neg then -(a : Int) else a)
  -- |x| in units of 2^-6 with k extra bits
  let k := (-6 - e).toNat
  let x := m * 2 ^ (e + 6).toNat
  let lo := ((List.range 129).filter fun a => dsHas a && decide (a * 2 ^ k ≤ x)).getLastD 0
  let hi := ((List.range 129).find? fun a => dsHas a && decide (x ≤ a * 2 ^ k)).getD 128
  if 128 * 2 ^ k < x then (val 128, Fl.ofl ||| Fl.inx)
  else if lo * 2 ^ k = x then (val lo, 0)
  else
    let up := match rm with
      | .rne => decide (hi * 2 ^ k - x < x - lo * 2 ^ k)
      | .rtz => false
      | .rup => !neg
      | .rdn => neg
    (val (if up then hi else lo), if x < 2 ^ k then Fl.ufl ||| Fl.inx else Fl.inx)

/-- RoundTo of a non-zero value, of any floating format or ds8. -/
def roundMag (t : Ty) (rm : Rnd) (neg : Bool) (m : Nat) (e : Int) (sat : Bool := false) : Nat × Fl :=
  if m = 0 then (if t == .ds8 then 0x77 else zeroBits t neg, 0)
  else if t == .ds8 then roundDs8 rm neg m e else roundFloat t rm neg m e sat

/-- RoundTo of an exact value whose zero takes the sign given. -/
def roundDy (t : Ty) (rm : Rnd) (x : Dy) (zneg : Bool) : Nat × Fl :=
  if x.m = 0 then (zeroBits t zneg, 0) else roundMag t rm (decide (x.m < 0)) x.m.natAbs x.e

/-! ### Conversions (spec/02 R32, R33) -/

def intMin (t : Ty) : Int := if t.isSInt then -(2 ^ (t.width - 1) : Int) else if t == .i4 then -8 else 0
def intMax (t : Ty) : Int := if t.isSInt then 2 ^ (t.width - 1) - 1 else if t == .i4 then 7 else 2 ^ t.width - 1

/-- The bit pattern of an integer of a type, its low bits. -/
def intBits (t : Ty) (v : Int) : Nat := (v % (2 ^ t.width : Int)).toNat

def isIntTy (t : Ty) : Bool := t.isInt || t == .i4

/-- ±m × 2^e rounded to an integer, and whether it was inexact. -/
def toInt (rm : Rnd) (neg : Bool) (m : Nat) (e : Int) : Int × Bool :=
  let (n, x) := quantize m e 0 rm neg
  (if neg then -(n : Int) else n, x)

/-- A conversion to e8m0 of a finite magnitude (spec/02 R33). -/
def toE8m0 (rm : Rnd) (m : Nat) (e : Int) (sat : Bool) : Nat × Fl :=
  if m = 0 then (0, Fl.ufl ||| Fl.inx)
  else
    let l := log2 m
    let top := (l : Int) + e
    let exact := m == 2 ^ l
    -- compare |x| with 1.5 × 2^top
    let twice := 2 * m
    let mid := 3 * 2 ^ l
    let up := match rm with
      | .rtz | .rdn => false
      | .rup => !exact
      | .rne => decide (mid < twice) || (twice == mid && (top + 127) % 2 == 1)
    let x := if up then top + 1 else top
    if x < -127 then (0, Fl.ufl ||| Fl.inx)
    else if 127 < x then (if sat then 0xFE else 0xFF, Fl.ofl ||| Fl.inx)
    else ((x + 127).toNat, if exact then 0 else Fl.inx)

/-- Convert (spec/02 R32): the bits in the destination format and the flags. -/
def convert (x : Nat) (src dst : Ty) (rm : Rnd) (sat : Bool) : Nat × Fl :=
  match decodeF src x with
  | .nan neg p =>
    let snan : Fl := if p.testBit 51 then 0 else Fl.inv
    if isIntTy dst then (0, Fl.inv)
    else match dst with
      | .ds8 => (0x77, Fl.inv)
      | .e3m2 | .e2m3 | .e2m1 => (0, Fl.inv)
      | d => (nanBits d neg p, snan)
  | .inf neg =>
    if isIntTy dst then (intBits dst (if neg then intMin dst else intMax dst), Fl.inv)
    else match dst with
      | .ds8 => (if neg then 0x88 else 0, Fl.inv)
      | .e3m2 | .e2m3 | .e2m1 => (maxBits dst neg, Fl.inv)
      | .e4m3 => if sat then (maxBits dst neg, 0) else (if neg then 0xFF else 0x7F, Fl.inv)
      | .e8m0 => if sat then (0xFE, 0) else (0xFF, Fl.inv)
      | d => (infBits d neg, 0)
  | .fin neg m e =>
    if dst == .e8m0 then toE8m0 rm m e sat
    else if isIntTy dst then
      if isIntTy src then
        let v : Int := if neg then -(m : Int) else m
        if intMin dst ≤ v ∧ v ≤ intMax dst then (intBits dst v, 0)
        else if sat then (intBits dst (if v < intMin dst then intMin dst else intMax dst), 0)
        else (intBits dst v, 0)
      else
        let (v, inexact) := toInt rm neg m e
        if v < intMin dst then (intBits dst (intMin dst), Fl.inv)
        else if intMax dst < v then (intBits dst (intMax dst), Fl.inv)
        else (intBits dst v, if inexact then Fl.inx else 0)
    else roundMag dst rm (neg && !(isIntTy src && m == 0) && !(src == .ds8 && m == 0)) m e sat

/-! ### Arithmetic (spec/05 R128 to R135) -/

/-- PropagateNaN: the first NaN in operand order, quieted; INV where any operand signals (spec/02 R26). -/
def propagate (t : Ty) (xs : List FV) : Option (Nat × Fl) :=
  let f : Fl := if xs.any FV.isSnan then Fl.inv else 0
  xs.findSome? fun x => match x with
    | .nan n p => some (nanBits t n p, f)
    | _ => none

def invalid (t : Ty) : Nat × Fl := (canonNan t, Fl.inv)

/-- The sum of two values that are no NaN. -/
def addV (t : Ty) (rm : Rnd) (x y : FV) : Nat × Fl :=
  match x, y with
  | .inf a, .inf b => if a = b then (infBits t a, 0) else invalid t
  | .inf a, _ => (infBits t a, 0)
  | _, .inf b => (infBits t b, 0)
  | x, y =>
    let zneg := if x.isZero && y.isZero && x.neg == y.neg then x.neg else rm == .rdn
    roundDy t rm (x.dy.add y.dy) zneg

/-- Negation. Whether that of a NaN, as an imaginary part under conj, flips its sign, R219 does not say: the sign stays. DESIGN CHOICE,
log 66. -/
def FV.flip : FV → FV
  | .nan n p => .nan n p
  | .inf n => .inf (!n)
  | .fin n m e => .fin (!n) m e

/-- The product of two values that are no NaN; none for 0 × ∞. -/
def mulV (x y : FV) : Option FV :=
  let n := x.neg != y.neg
  match x, y with
  | .fin _ a e, .fin _ b g => some (.fin n (a * b) (e + g))
  | _, _ => if x.isZero || y.isZero then none else some (.inf n)

def fadd (t : Ty) (rm : Rnd) (a b : Nat) : Nat × Fl :=
  let x := decodeF t a
  let y := decodeF t b
  (propagate t [x, y]).getD (addV t rm x y)

def fsub (t : Ty) (rm : Rnd) (a b : Nat) : Nat × Fl :=
  let x := decodeF t a
  let y := decodeF t b
  (propagate t [x, y]).getD (addV t rm x y.flip)

/-- A value rounded into t. -/
def roundV (t : Ty) (rm : Rnd) : FV → Nat × Fl
  | .nan n p => (nanBits t n p, 0)
  | .inf n => (infBits t n, 0)
  | .fin n m e => roundMag t rm n m e

def fmul (t : Ty) (rm : Rnd) (a b : Nat) : Nat × Fl :=
  let x := decodeF t a
  let y := decodeF t b
  (propagate t [x, y]).getD (match mulV x y with
    | none => invalid t
    | some z => roundV t rm z)

/-- a × b + c with one rounding, the special cases in the order of spec/05 R129. -/
def ffma (t : Ty) (rm : Rnd) (a b c : Nat) : Nat × Fl :=
  let x := decodeF t a
  let y := decodeF t b
  let z := decodeF t c
  if x.isNan || y.isNan then (propagate t [x, y, z]).getD (0, 0)
  else match mulV x y with
    | none => invalid t
    | some p => (propagate t [z]).getD (addV t rm p z)

/-- The quotient's magnitude to p + 3 bits and more, its last bit set where it is inexact. -/
def divMag (p : Nat) (m1 : Nat) (e1 : Int) (m2 : Nat) (e2 : Int) : Nat × Int :=
  let k := p + 4 + log2 m2 - log2 m1
  let n := m1 * 2 ^ k / m2
  let s := if m1 * 2 ^ k % m2 = 0 then 0 else 1
  (2 * n + s, e1 - e2 - k - 1)

def fdiv (t : Ty) (rm : Rnd) (a b : Nat) : Nat × Fl :=
  let x := decodeF t a
  let y := decodeF t b
  let n := x.neg != y.neg
  (propagate t [x, y]).getD (match x, y with
    | .inf _, .inf _ => invalid t
    | .inf _, _ => (infBits t n, 0)
    | _, .inf _ => (zeroBits t n, 0)
    | .fin _ m1 e1, .fin _ m2 e2 =>
      if m2 = 0 then (if m1 = 0 then invalid t else (infBits t n, Fl.dvz))
      else if m1 = 0 then (zeroBits t n, 0)
      else let (m, e) := divMag ((Ty.fmt t).mb + 1) m1 e1 m2 e2; roundMag t rm n m e
    | _, _ => invalid t)

/-- floor of the square root, bit by bit. -/
def isqrtGo (n : Nat) : Nat → Nat → Nat
  | 0, r => r
  | k + 1, r =>
    let r' := r + 2 ^ k
    isqrtGo n k (if r' * r' ≤ n then r' else r)

def isqrt (n : Nat) : Nat := isqrtGo n (log2 n / 2 + 1) 0

/-- The magnitude of a square root to p + 3 bits and more, its last bit set where it is inexact. -/
def sqrtMag (p : Nat) (m : Nat) (e : Int) : Nat × Int :=
  let (m, e) := if e % 2 = 0 then (m, e) else (2 * m, e - 1)
  let k := p + 4
  let n := isqrt (m * 4 ^ k)
  let s := if n * n = m * 4 ^ k then 0 else 1
  (2 * n + s, e / 2 - k - 1)

def fsqrt (t : Ty) (rm : Rnd) (a : Nat) : Nat × Fl :=
  let x := decodeF t a
  (propagate t [x]).getD (match x with
    | .fin n m e => if m = 0 then (zeroBits t n, 0) else if n then invalid t
      else let (m, e) := sqrtMag ((Ty.fmt t).mb + 1) m e; roundMag t rm false m e
    | .inf n => if n then invalid t else (infBits t false, 0)
    | _ => invalid t)

/-- The order of values that are no NaN, −0 below +0. -/
def ltZ (x y : FV) : Bool :=
  match x, y with
  | .inf a, .inf b => a && !b
  | .inf a, _ => a
  | _, .inf b => !b
  | x, y => if x.isZero && y.isZero then x.neg && !y.neg else x.dy.lt y.dy

/-- The order of values that are no NaN, zeros equal. -/
def ltF (x y : FV) : Bool := if x.isZero && y.isZero then false else ltZ x y
def eqF (x y : FV) : Bool :=
  match x, y with
  | .inf a, .inf b => a == b
  | .fin .., .fin .. => x.dy.eq y.dy
  | _, _ => false

/-- FMIN and FMAX (spec/05 R130). -/
def fminmax (t : Ty) (isMax : Bool) (a b : Nat) : Nat × Fl :=
  let x := decodeF t a
  let y := decodeF t b
  (propagate t [x, y]).getD
    (if isMax then (if ltZ x y then b % 2 ^ t.width else a % 2 ^ t.width, 0)
      else (if ltZ y x then b % 2 ^ t.width else a % 2 ^ t.width, 0))

/-- FCMP (spec/05 R132). -/
def fcmp (t : Ty) (p : Pred) (a b : Nat) : Bool × Fl :=
  let x := decodeF t a
  let y := decodeF t b
  let un := x.isNan || y.isNan
  let sig : Fl := if x.isSnan || y.isSnan then Fl.inv else 0
  let any : Fl := if un then Fl.inv else 0
  match p with
  | .eq => (!un && eqF x y, sig)
  | .ne => (un || !eqF x y, sig)
  | .lt => (!un && ltF x y, any)
  | .le => (!un && (ltF x y || eqF x y), any)
  | .un => (un, sig)
  | .ord => (!un, sig)

/-- FCLASS (spec/05 R131). -/
def fclass (t : Ty) (a : Nat) : Nat :=
  let f := Ty.fmt t
  match decodeF t a with
  | .nan _ p => if p.testBit 51 then 2 ^ 9 else 2 ^ 8
  | .inf n => if n then 1 else 2 ^ 7
  | .fin n m _ =>
    if m = 0 then (if n then 2 ^ 3 else 2 ^ 4)
    else if m < 2 ^ f.mb then (if n then 2 ^ 2 else 2 ^ 5)
    else (if n then 2 else 2 ^ 6)

/-- FSGN and VSGN: the encoding of a with its sign replaced (spec/05 R135, spec/08 R202). -/
def fsgn (t : Ty) (op : SgnOp) (a b : Nat) : Nat :=
  let w := t.width
  let sa := a / 2 ^ (w - 1) % 2
  let sb := b / 2 ^ (w - 1) % 2
  let s := match op with
    | .cpy => sb
    | .neg => 1 - sb
    | .xor => (sa + sb) % 2
    | .abs => 0
  s * 2 ^ (w - 1) + a % 2 ^ (w - 1)

/-- FRND (spec/05 R134). -/
def frnd (t : Ty) (rm : Rnd) (exact : Bool) (a : Nat) : Nat × Fl :=
  let x := decodeF t a
  (propagate t [x]).getD (match x with
    | .fin n m e =>
      if m = 0 then (a % 2 ^ t.width, 0)
      else
        let (k, inexact) := quantize m e 0 rm n
        ((roundMag t .rtz n k 0).1, if exact && inexact then Fl.inx else 0)
    | _ => (a % 2 ^ t.width, 0))

/-! ### Keys (spec/02 R42) -/

/-- OrderKey by KFMT: 0 i64, 1 n64, 2 f64, 3 f32. -/
def orderKey (x : W64) (kfmt : BitVec 2) : Nat :=
  match kfmt.toNat with
  | 0 => (x ^^^ ofNat (2 ^ 63)).toNat
  | 1 => x.toNat
  | 2 => if x.getLsbD 63 then (x ^^^ BitVec.allOnes 64).toNat else (x ^^^ ofNat (2 ^ 63)).toNat
  | _ =>
    let b := x.toNat % 2 ^ 32
    if b / 2 ^ 31 = 1 then 2 ^ 32 - 1 - b else b + 2 ^ 31

/-! ### Integers (spec/05 R106) -/

/-- Narrow: the value of a register at an integer type. -/
def narrow (x : W64) (t : Ty) : Int := if t.isSInt then sext x.toNat t.width else (x.toNat % 2 ^ t.width : Nat)

/-- Widen: a result as the 64-bit pattern of its type. -/
def widen (r : Int) (t : Ty) : W64 :=
  let u := (r % (2 ^ t.width : Int)).toNat
  if t.isSInt && decide (2 ^ (t.width - 1) ≤ u) then ofNat (u + 2 ^ 64 - 2 ^ t.width) else ofNat u

def patBits (x : W64) (t : Ty) : Nat := x.toNat % 2 ^ t.width

/-- A loaded value: sign-extended for the i types, zero-extended for the others (spec/05 R138). -/
def extend (x : Nat) (t : Ty) : W64 := if t.isSInt then widen x t else ofNat (x % 2 ^ t.width)

end Sys2Proof.Machine
end

