-- ==== Sys2Proof/Machine/Operands.lean ====
section
/-! DEFINITION. Source operands, last uses, destinations and stream registers (spec/01 R13, spec/14 R304 to R309). -/

namespace Sys2Proof.Machine

/-! ### Bound registers -/

/-- The binding of a stream register code (spec/14 R304). -/
def Core.stream? (c : Core) (code : Nat) : Option Stream := c.streams.find? fun t => t.code == code

def Core.setStream (c : Core) (t : Stream) : Core :=
  { c with streams := c.streams.map fun u => if u.code = t.code then t else u }

/-- Addr(e) of spec/14 R306. -/
def patternAddr (base : Int) : List (Nat × Int) → Nat → Int
  | [], _ => base
  | (n, st) :: ds, r => patternAddr (base + (r % n : Nat) * st) ds (r / n)

def Stream.addr (t : Stream) (e : Nat) : Nat := (patternAddr t.base t.dims e).toNat

/-- The handle-and-offset word of a binding's range. -/
def Stream.word (t : Stream) : W64 := ofNat (put (t.hdl.getD 0) 48 + t.lo)

/-- Pops the next element or strip of an input stream (spec/14 R308). -/
def popStream (c : Core) (t : Stream) (trapBit : Bool) (file : W64) (reg : Nat) : Res (Line × Core) :=
  if t.out || t.done then trap c 0x202 (ofNat t.code)
  else if t.revoked then trap c 0x405 t.word 0 4
  else match t.buf with
    | [] => if trapBit then trap c 0x102 (ofNat reg) file else wait .operand
    | x :: l => .ok (x, c.setStream { t with buf := l, pos := t.pos + 1 })

/-- Where the elements of the next push go, with their values. -/
def Stream.next (t : Stream) (x : Line) : List (Nat × List Byte) :=
  (List.range t.unit).map fun j => (t.addr (t.pos * t.unit + j), bytesOf (lineNat x (j * t.esz) t.esz) t.esz)

/-- The home of a stream element behind a handle. -/
def Stream.home (t : Stream) (pa : Nat) : Home :=
  if hostBit ≤ pa then .host (64 * (pa / 64) - hostBit) else if t.far then .farDev (64 * (pa / 64)) else .dev (64 * (pa / 64))

/-- Pushes an element or strip to an output stream: own stores, or outbox entries (spec/14 R308, R310). -/
def pushStream (c : Core) (t : Stream) (x : Line) : Res Core := do
  if !t.out || t.done then trap c 0x202 (ofNat t.code)
  else if t.revoked then trap c 0x405 t.word 0 4
  else
    need (c.locked t) (.wait .operand)
    need c.reads.isEmpty (.wait .reads)
    let es := t.next x
    let c' := c.setStream { t with pos := t.pos + 1 }
    match t.hdl with
    | none =>
      needLines c (es.flatMap fun e => linesOf e.1 e.2.length)
      .ok (es.foldl (fun c e => c.ownWrite e.1 e.2) c')
    | some _ =>
      let new := (es.map fun e => e.1 / 64).filter fun n => (c.outLine? (t.home (64 * n)) t.tag).isNone
      needOut c (nunion [] new).length
      .ok (es.foldl (fun c e => c.outStore (t.home e.1) (lineAt (e.1 % 64) e.2.length (natOf e.2))
        (byteMask (e.1 % 64) e.2.length) t.tag (ofNat (64 * (e.1 / 64)))) c')

/-- An s register as its number names it, an output stream's code among them. -/
def scode (d : BitVec 6) : Nat := if d.toNat < 56 then 0 else d.toNat

/-! ### Reading (ReadOp of spec/01 R13) -/

/-- ReadOp of a register that no stream is bound to, without its last use. -/
def readCell {n : Nat} (x : Cell n) (trapBit : Bool) (reg : Nat) (file : W64) (c : Core) : Res (BitVec n × Core) :=
  match x with
  | .full v => .ok (v, c)
  | .vacant =>
    if c.ctl.mode.getLsbD 8 then trap c 0x101 (ofNat reg) file
    else let (u, c) := undef c; .ok (u.setWidth n, c)
  | .empty => if trapBit then trap c 0x102 (ofNat reg) file else wait .operand

/-- ReadOp of an s operand; a bound register pops its stream. -/
def readS (a : Src) (c : Core) : Res (W64 × Core) :=
  match c.stream? (scode a.reg) with
  | some t => (popStream c t a.trap 0 a.reg.toNat).map fun r => (r.1.setWidth 64, r.2)
  | none => readCell (c.regs.getS a.reg) (a.trap && a.reg != 0) a.reg.toNat 0 c

def readV (a : VSrc) (c : Core) : Res (Line × Core) :=
  match c.stream? a.reg.toNat with
  | some t => popStream c t a.trap 1 a.reg.toNat
  | none => readCell (c.regs.getV a.reg) a.trap a.reg.toNat 1 c

def readM (a : MSrc) (c : Core) : Res (W64 × Core) := readCell (c.regs.getM a.reg) a.trap a.reg.toNat 2 c

/-- The last use of an operand makes its name vacant; s0 and bound registers stay (spec/04 R90, spec/14 R308). -/
def freeS (a : Src) (c : Core) : Core :=
  if a.last && (c.stream? (scode a.reg)).isNone then c.setS a.reg .vacant else c

def freeV (a : VSrc) (c : Core) : Core :=
  if a.last && (c.stream? a.reg.toNat).isNone then c.setV a.reg .vacant else c

def freeM (a : MSrc) (c : Core) : Core := if a.last then c.setM a.reg .vacant else c

/-- ReadOp without attributes, for a register that an operation names by itself. -/
def plainS (d : BitVec 6) : Src := ⟨false, false, d⟩
def plainV (d : BitVec 5) : VSrc := ⟨false, false, d⟩
def plainM (d : BitVec 3) : MSrc := ⟨false, false, d⟩

/-! ### Writing (WriteReg, MarkEmpty and MarkFull of spec/01 R12) -/

/-- An instruction waits before it issues while its destination is EMPTY (spec/03 R55). -/
def destS (d : BitVec 6) (c : Core) : Res Unit := need (!(c.regs.getS d).isEmpty) (.wait .dest)
def destV (d : BitVec 5) (c : Core) : Res Unit := need (!(c.regs.getV d).isEmpty) (.wait .dest)
def destM (d : BitVec 3) (c : Core) : Res Unit := need (!(c.regs.getM d).isEmpty) (.wait .dest)

/-- WriteReg of an s register; a bound register is pushed (spec/14 R308). -/
def writeS (d : BitVec 6) (x : W64) (c : Core) : Res Core :=
  match c.stream? (scode d) with
  | some t => pushStream c t (x.setWidth 512)
  | none => .ok (c.setS d (.full x))

def writeV (d : BitVec 5) (x : Line) (c : Core) : Res Core :=
  match c.stream? d.toNat with
  | some t => pushStream c t x
  | none => .ok (c.setV d (.full x))

def writeM (d : BitVec 3) (x : W64) (c : Core) : Core := c.setM d (.full x)

/-- MarkFull, or the push of a result that a bound destination takes; a result never waits. -/
def Core.deliver (c : Core) (d : BitVec 6) (x : W64) : Core :=
  match writeS d x c with
  | .ok c => c
  | .error _ => c

/-- A long-latency producer: d is EMPTY until its result arrives, no later than `lat` clk (spec/03 R55). -/
def produce (d : BitVec 6) (x : W64) (lat : Nat) (c : Core) : Res Core :=
  match c.stream? (scode d) with
  | some t => pushStream c t (x.setWidth 512)
  | none => if d = 0 then .ok c
    else .ok { (c.setS d .empty) with pend := c.pend ++ [⟨d.toNat, x, c.clk + lat⟩] }

/-- MarkEmpty of a destination that a reply will fill; a bound register is pushed when it comes. -/
def Core.markEmpty (c : Core) (d : BitVec 6) : Core := if (c.stream? (scode d)).isSome then c else c.setS d .empty

/-- A destination that a reply will fill: what the push of an element needs, where a stream is bound to it (spec/14 R308, R310). -/
def pushOk (d : BitVec 6) (c : Core) : Res Unit :=
  if (c.stream? (scode d)).isSome then (writeS d 0 c).map fun _ => () else .ok ()

/-- Instructions that change memory or leave the core wait for the remote weak reads before them (spec/05 R139). -/
def readsDone (c : Core) : Res Unit := need c.reads.isEmpty (.wait .reads)

/-! ### Shapes of scalar instructions -/

/-- d ← f(a). -/
def op1 (d : BitVec 6) (a : Src) (f : W64 → W64) (c : Core) : Res Core := do
  destS d c
  let (x, c) ← readS a c
  writeS d (f x) (freeS a c)

/-- d ← f(a, b); both are read before either is freed. -/
def op2 (d : BitVec 6) (a b : Src) (f : W64 → W64 → W64) (c : Core) : Res Core := do
  destS d c
  let (x, c) ← readS a c
  let (y, c) ← readS b c
  writeS d (f x y) (freeS b (freeS a c))

/-- d ← f(a, b, c). -/
def op3 (d : BitVec 6) (a b e : Src) (f : W64 → W64 → W64 → W64) (c : Core) : Res Core := do
  destS d c
  let (x, c) ← readS a c
  let (y, c) ← readS b c
  let (z, c) ← readS e c
  writeS d (f x y z) (freeS e (freeS b (freeS a c)))

end Sys2Proof.Machine
end

