-- ==== Sys2Proof/Machine/Banks.lean ====
section
/-! DEFINITION. The structures that banks keep: queues, stacks, maps, heaps, histograms, pools (spec/07 R164 to R180). -/

namespace Sys2Proof.Machine

/-- Personality code (spec/07 R165). -/
def Struct.code : Struct → Nat
  | .array => 0
  | .queue .. => 1
  | .stack _ => 2
  | .map _ => 3
  | .heap .. => 4
  | .hist _ => 5
  | .pool _ => 6
  | .deque => 7
  | .mailbox => 1
  | .member _ => 0

/-- The leader of a bank: itself where it is no member of a span. -/
def Core.leader (c : Core) (b : Nat) : Nat :=
  match (c.bank b).data with
  | .member l => l
  | _ => b

/-- Ring words, stack words of a span (spec/07 R169, R170, R175). -/
def Bank.words (k : Bank) : Nat := 8192 * k.span
def Bank.pairs (k : Bank) : Nat := 4096 * k.span
def Bank.binWidth (k : Bank) : Nat := if k.hw32 then 32 else 64
def Bank.bins (k : Bank) : Nat := (if k.hw32 then 16384 else 8192) * k.span

/-! ### Queues (spec/07 R169) -/

/-- The pool bank of a queue, and the chunks it has lent. -/
def Core.poolOf (c : Core) (k : Bank) : Option (Nat × List Nat) :=
  match (c.bank k.poolb.toNat).data with
  | .pool l => some (k.poolb.toNat, l)
  | _ => none

/-- The lowest-numbered free chunk. -/
def freeChunk (lent : List Nat) : Option Nat := (List.range 1024).find? fun n => !lent.contains n

def Core.setPool (c : Core) (p : Nat) (l : List Nat) : Core := c.setBank p { c.bank p with data := .pool l }

/-- Positions of the newest chunk that have been filled; 8 where none is lent. -/
def lastChunk (l : List (Nat × Nat × List W64)) : Nat := ((l.getLast?).map fun x => x.2.1 + x.2.2.length).getD 8

def pushChunk (x : W64) : List (Nat × Nat × List W64) → List (Nat × Nat × List W64)
  | [] => []
  | [(n, m, ws)] => [(n, m, ws ++ [x])]
  | y :: l => y :: pushChunk x l

/-- The enqueue of spec/07 R169. A chunk is full once its eight positions have been filled, though words may have moved back from it
since: the manual does not say which. DESIGN CHOICE, log 66. -/
def qEnqueue (c : Core) (b : Nat) (x : W64) : Core × StsCode :=
  let k := c.bank b
  match k.data with
  | .queue h ring lent =>
    if lent.isEmpty && decide (ring.length < k.words) then (c.setBank b { k with data := .queue h (ring ++ [x]) [] }, .ok)
    else if lastChunk lent < 8 then (c.setBank b { k with data := .queue h ring (pushChunk x lent) }, .ok)
    else match c.poolOf k with
      | none => (c, .full)
      | some (p, used) => match freeChunk used with
        | none => (c, .full)
        | some n => ((c.setBank b { k with data := .queue h ring (lent ++ [(n, 0, [x])]) }).setPool p (nset used n), .ok)
  | _ => (c, .full)

/-- The oldest word of the lent chunks moves to the back of the ring; a chunk returns when its last word has moved. -/
def qRefill (c : Core) (b : Nat) : Core :=
  let k := c.bank b
  match k.data with
  | .queue h ring ((n, m, w :: ws) :: l) =>
    if ws.isEmpty then
      let c := c.setBank b { k with data := .queue h (ring ++ [w]) l }
      match c.poolOf k with
      | none => c
      | some (p, used) => c.setPool p (used.filter (· != n))
    else c.setBank b { k with data := .queue h (ring ++ [w]) ((n, m + 1, ws) :: l) }
  | _ => c

def qDequeue (c : Core) (b : Nat) : Core × Option W64 :=
  let k := c.bank b
  match k.data with
  | .queue h (x :: ring) lent => (qRefill (c.setBank b { k with data := .queue ((h + 1) % k.words) ring lent }) b, some x)
  | _ => (c, none)

/-! ### Maps (spec/07 R171, R175) -/

/-- Slots of a key's probe window, numbered across the span. -/
def mapWindow (key : W64) (span : Nat) : List Nat :=
  let p := (key.toNat * 0x9E3779B97F4A7C15) % 2 ^ 64
  let b := (p >>> (52 - Nat.log2 span)) % span
  let h := p >>> 52
  (List.range 8).map fun i => 4096 * b + (h + i) % 4096

def mapFind (slots : List (Nat × W64 × W64)) (key : W64) (span : Nat) : Option (Nat × W64) :=
  (mapWindow key span).findSome? fun n => match aget slots n with
    | some (k, v) => if k = key then some (n, v) else none
    | none => none

def mapInsert (slots : List (Nat × W64 × W64)) (key v : W64) (span : Nat) : List (Nat × W64 × W64) × StsCode :=
  match mapFind slots key span with
  | some (n, _) => (aset slots n (key, v), .present)
  | none => match (mapWindow key span).find? fun n => (aget slots n).isNone with
    | some n => (aset slots n (key, v), .ok)
    | none => (slots, .full)

/-! ### Heaps (spec/07 R172) -/

abbrev HEntry := W64 × W64 × Nat

def hLess (f : BitVec 2) (x y : HEntry) : Bool :=
  let a := orderKey x.1 f
  let b := orderKey y.1 f
  decide (a < b) || (a == b && decide (x.2.2 < y.2.2))

def hLessAt (f : BitVec 2) (l : List HEntry) (i j : Nat) : Bool :=
  match l[i]?, l[j]? with
  | some x, some y => hLess f x y
  | _, _ => false

def swap (l : List HEntry) (i j : Nat) : List HEntry :=
  match l[i]?, l[j]? with
  | some x, some y => lset (lset l i y) j x
  | _, _ => l

def siftUp (f : BitVec 2) : Nat → List HEntry → Nat → List HEntry
  | 0, l, _ => l
  | n + 1, l, i => if i ≠ 0 ∧ hLessAt f l i ((i - 1) / 2) then siftUp f n (swap l i ((i - 1) / 2)) ((i - 1) / 2) else l

def siftDown (f : BitVec 2) : Nat → List HEntry → Nat → List HEntry
  | 0, l, _ => l
  | n + 1, l, i =>
    let c := if 2 * i + 1 < l.length ∧ hLessAt f l (2 * i + 1) i then 2 * i + 1 else i
    let c := if 2 * i + 2 < l.length ∧ hLessAt f l (2 * i + 2) c then 2 * i + 2 else c
    if c = i then l else siftDown f n (swap l i c) c

/-- Levels of any heap: 57,344 entries lie within 16. -/
def hFuel : Nat := 20

def heapify (f : BitVec 2) (l : List HEntry) : List HEntry :=
  ((List.range (l.length / 2)).reverse).foldl (fun l i => siftDown f hFuel l i) l

/-- Live ranks renumbered from 0 in their order, at rank 2^32 (spec/07 R172). -/
def renumber (l : List HEntry) : List HEntry :=
  l.map fun x => (x.1, x.2.1, (l.filter fun y => decide (y.2.2 < x.2.2)).length)

def hInsert (f : BitVec 2) (l : List HEntry) (next : Nat) (k p : W64) : List HEntry × Nat :=
  let l' := siftUp f hFuel (l ++ [(k, p, next)]) l.length
  if next + 1 = 2 ^ 32 then (renumber l', l'.length) else (l', next + 1)

def hExtract (f : BitVec 2) (l : List HEntry) (next : Nat) : List HEntry × Nat :=
  match l.getLast? with
  | none => (l, next)
  | some z =>
    let l' := siftDown f hFuel ((lset l 0 z).take (l.length - 1)) 0
    (l', if l'.isEmpty then 0 else next)

/-! ### The raw layout (spec/07 R174, R175), as words by number within a bank -/

/-- The items that lie in bank number i of a span, as (word, value). -/
def Bank.rawWords (k : Bank) (i : Nat) (pools : List (Nat × Nat × List W64)) : List (Nat × W64) :=
  match k.data with
  | .queue h ring _ =>
    let at_ := ring.zipIdx.map fun x => ((h + x.2) % k.words, x.1)
    let here := (at_.filter fun x => x.1 / 8192 == i).map fun x => (x.1 % 8192, x.2)
    here.foldl (fun l x => aset l x.1 x.2) []
  | .stack ws => ((ws.zipIdx.filter fun x => x.2 / 8192 == i)).map fun x => (x.2 % 8192, x.1)
  | .map slots => (slots.filter fun x => x.1 / 4096 == i).flatMap fun x => [(2 * (x.1 % 4096), x.2.1), (2 * (x.1 % 4096) + 1, x.2.2)]
  | .heap es _ => (es.zipIdx.filter fun x => x.2 / 4096 == i).flatMap fun x =>
      [(2 * (x.2 % 4096), x.1.1), (2 * (x.2 % 4096) + 1, x.1.2.1)]
  | .hist bins =>
    let here := (bins.filter fun x => x.1 % k.span == i).map fun x => (x.1 / k.span, x.2)
    if k.hw32 then here.foldl (fun l x => aset l (x.1 / 2) (((aget l (x.1 / 2)).getD 0) + ofNat (x.2 * 2 ^ (32 * (x.1 % 2))))) []
    else here.map fun x => (x.1, ofNat x.2)
  | .pool _ => (pools.flatMap fun p => p.2.2.zipIdx.map fun w => (8 * p.1 + p.2.1 + w.2, w.1)).foldl (fun l x => aset l x.1 x.2) []
  | _ => []

/-- Chunks lent by pool bank p, with their words. -/
def Core.lentBy (c : Core) (p : Nat) : List (Nat × Nat × List W64) :=
  c.banks.toList.flatMap fun k => match k.data with
    | .queue _ _ lent => if k.poolb.toNat = p ∧ k.owner = (c.bank p).owner then lent else []
    | _ => []

/-- The slots of the messages of a mailbox in local-time mode, one for each: the manual leaves open which (spec/07 R174, log 9). -/
def mailSlots (all : List W64) : List Msg → List Nat → List (Nat × Msg)
  | [], _ => []
  | m :: ms, free =>
    match free[Config.mailSlot all ms.length % free.length]? with
    | none => []
    | some n => (n, m) :: mailSlots all ms (free.filter (· != n))

/-- Words of a bank as the raw view shows them; a mailbox out of local-time mode is a queue of messages. -/
def Core.rawBank (c : Core) (b : Nat) : List (Nat × W64) :=
  if b = 15 then
    let ms := c.mailbox.map (·.msg)
    (if c.lt.en then (mailSlots (ms.flatMap (·.toList)) ms (List.range 1024)).flatMap fun x => x.2.toList.zipIdx.map fun w => (8 * x.1 + w.2, w.1)
      else ms.zipIdx.flatMap fun x => x.1.toList.zipIdx.map fun w => ((c.mbHead + 8 * x.2 + w.2) % 8192, w.1)).foldl
      (fun l x => aset l x.1 x.2) []
  else if b = 14 then
    (c.deque.reverse.zipIdx.flatMap fun x => x.1.msg.toList.zipIdx.map fun w => (8 * ((c.dqTop + (c.deque.length - 1 - x.2)) % 1024) + w.2, w.1)).foldl
      (fun l x => aset l x.1 x.2) []
  else
    let l := c.leader b
    (c.bank l).rawWords (b - l) (c.lentBy b)

/-- n bytes of the raw view of a bank that is not ARRAY. -/
def Core.rawBytes (c : Core) (b off n : Nat) : List Byte :=
  let ws := c.rawBank b
  (List.range n).map fun i => ((aget ws ((off + i) / 8)).getD 0).extractLsb' (8 * ((off + i) % 8)) 8

/-! ### Lines that an operation changes -/

/-- Words that differ between two rising lists. -/
def diffKeys : Nat → List (Nat × W64) → List (Nat × W64) → List Nat
  | 0, _, _ => []
  | _, [], l => l.map (·.1)
  | _, l, [] => l.map (·.1)
  | n + 1, (a, x) :: l, (b, y) :: m =>
    if a < b then a :: diffKeys n l ((b, y) :: m)
    else if b < a then b :: diffKeys n ((a, x) :: l) m
    else if x = y then diffKeys n l m else a :: diffKeys n l m

/-- The undo-log line of a bank's metadata. -/
def metaLine (b : Nat) : Nat := 16384 + 64 * b

/-- Undo-log lines that a structure operation takes: changed data lines, and one line of each bank's metadata (log 10). -/
def changedLines (old new : Core) (bs : List Nat) : List Nat :=
  bs.flatMap fun b =>
    let p := old.rawBank b
    let q := new.rawBank b
    metaLine b :: nunion [] ((diffKeys (p.length + q.length) p q).map fun w => 1024 * b + w / 8)

/-- Banks of the span led by b. -/
def Core.spanOf (c : Core) (b : Nat) : List Nat := (List.range (c.bank b).span).map (b + ·)

/-- Banks that an operation on the structure led by b touches: its span, and its pool where a chunk is used, lent or returned
(spec/07 R169). -/
def touched (old new : Core) (b : Nat) : List Nat :=
  match (old.bank b).data, (new.bank b).data with
  | .queue _ _ l, .queue _ _ l' => if l = l' then old.spanOf b else nunion (old.spanOf b) [(old.bank b).poolb.toNat]
  | _, _ => old.spanOf b

/-- The pre-image of a bank, once for each segment. -/
def Core.logBank (c : Core) (b : Nat) (old : Core) : Core :=
  if c.seg.undo.any fun u => match u.what with | .bank k .. => k == b | _ => false then c
  else c.log [] (.bank b (old.bank b) (Mem.slice old.mem (65536 * b) 65536) (old.poison.filter fun n => n / 1024 == b))

/-- A revocable operation of the core on its own banks bs, which takes the given undo-log lines: capacity, pre-images, holds
(spec/03 R75). -/
def revocable (old new : Core) (bs lines : List Nat) : Res Core := do
  needLines old lines
  let c := bs.foldl (fun c b => (c.logBank b old).holdBank b) { new with seg := old.seg, nord := old.nord }
  .ok { c with seg := { c.seg with lines := nunion c.seg.lines lines } }

/-! ### The structure window (spec/07 R166 to R168) -/

/-- What an operation of the window answers: BADWIN, or the bank after it, its value, the second of a pair, the status. -/
inductive WinRes where
  | bad
  | ok (c : Core) (v : W64) (v1 : Option W64) (sts : StsCode)
deriving DecidableEq, Repr

def Bank.count (c : Core) (b : Nat) : Nat :=
  match (c.bank b).data with
  | .queue _ ring lent => ring.length + (lent.map (·.2.2.length)).sum
  | .stack ws => ws.length
  | .map slots => slots.length
  | .heap es _ => es.length
  | .hist bins => bins.length
  | .pool lent => 1024 - lent.length
  | .deque => c.deque.length
  | .mailbox => c.mailbox.length
  | _ => 0

def Bank.capacity (k : Bank) : Nat :=
  match k.data with
  | .queue _ _ lent => k.words + 8 * lent.length
  | .stack _ => k.words
  | .map _ | .heap .. => k.pairs
  | .hist _ => k.bins
  | .pool _ | .deque | .mailbox => 1024
  | _ => 0

/-- The state word of a bank with the number given as COUNT (spec/07 R164); a mailbox in local-time mode is a HEAP by stamp
(spec/07 R168). A member of a span gives its leader's fields, where the manual states LEAD and POOLB only (R164, R180): DESIGN CHOICE,
log 66. -/
def Core.bankWord (c : Core) (b count : Nat) : W64 :=
  let l := c.leader b
  let pers := (c.bank l).data.code
  let lt := b == 15 && c.lt.en
  let pool := match (c.bank l).data with | .queue .. => (c.bank l).poolb.toNat | _ => 0xF
  ofNat (put count 32 + put pool 28 + put ((c.bank l).span - 1) 24 + put l 20 +
    put (if lt then 1 else (c.bank l).kfmt.toNat) 18 + put (if (c.bank l).hw32 then 1 else 0) 17 + if lt then 4 else pers)

/-- The window operation needs a pair. -/
def Bank.pairs? (k : Bank) (store : Bool) (off : Nat) : Bool :=
  match k.data, store with
  | .map _, true => off == 0
  | .heap .., true => off == 0
  | .heap .., false => off == 0 || off == 8
  | _, _ => false

def winLoad (c : Core) (b off : Nat) : WinRes :=
  let k := c.bank b
  match k.data with
  | .array | .member _ => .bad
  | .pool _ =>
    if off = 0x10 then .ok c (ofNat (Bank.count c b)) none .ok
    else if off = 0x18 then .ok c (c.bankWord b k.capacity) none .ok else .bad
  | d =>
    if off = 0x10 then .ok c (ofNat (Bank.count c b)) none .ok
    else if off = 0x18 then .ok c (c.bankWord b k.capacity) none .ok
    else match d with
      | .queue _ ring _ =>
        if off = 0 then (match qDequeue c b with
          | (c, some x) => .ok c x none .ok
          | (c, none) => .ok c 0 none .empty)
        else if off = 8 then (match ring.head? with
          | some x => .ok c x none .ok
          | none => .ok c 0 none .empty)
        else .bad
      | .stack ws =>
        if off = 0 ∨ off = 8 then (match ws.getLast? with
          | some x => .ok (if off = 0 then c.setBank b { k with data := .stack ws.dropLast } else c) x none .ok
          | none => .ok c 0 none .empty)
        else .bad
      | .heap es next =>
        if off = 0 ∨ off = 8 then (match es.head? with
          | some x =>
            let r := hExtract k.kfmt es next
            .ok (if off = 0 then c.setBank b { k with data := .heap r.1 r.2 } else c) x.1 (some x.2.1) .ok
          | none => .ok c 0 (some 0) .empty)
        else .bad
      | _ => .bad

/-- The histogram store of spec/07 R173. -/
def histAdd (k : Bank) (bins : List (Nat × Nat)) (i n : Nat) : List (Nat × Nat) × StsCode :=
  if k.bins ≤ i then (bins, .absent)
  else
    let cap := 2 ^ k.binWidth - 1
    let v := anat bins i + n
    let v' := min v cap
    (if v' = 0 then bins else aset bins i v', if v' = cap then .full else .ok)

def winStore (c : Core) (b off : Nat) (x x1 : W64) : WinRes :=
  let k := c.bank b
  if off ≠ 0 then .bad
  else match k.data with
    | .queue .. => let r := qEnqueue c b x; .ok r.1 0 none r.2
    | .stack ws =>
      if ws.length < k.words then .ok (c.setBank b { k with data := .stack (ws ++ [x]) }) 0 none .ok else .ok c 0 none .full
    | .map slots => let r := mapInsert slots x x1 k.span; .ok (c.setBank b { k with data := .map r.1 }) 0 none r.2
    | .heap es next =>
      if es.length < k.pairs then
        let r := hInsert k.kfmt es next x x1
        .ok (c.setBank b { k with data := .heap r.1 r.2 }) 0 none .ok
      else .ok c 0 none .full
    | .hist bins =>
      let r := histAdd k bins (bits x 63 46) (bits x 45 0)
      .ok (c.setBank b { k with data := .hist r.1 }) 0 none r.2
    | _ => .bad

/-- XCH at +0x20 (spec/07 R176). A delete of a bin out of range gives d zero, where the table names the status only: DESIGN CHOICE,
log 66. -/
def winXch (c : Core) (b : Nat) (op : XchOp) (x x1 : W64) : WinRes :=
  let k := c.bank b
  match k.data, op with
  | .map slots, .lookup => match mapFind slots x k.span with
    | some (_, v) => .ok c v none .ok
    | none => .ok c 0 none .absent
  | .map slots, .delete => match mapFind slots x k.span with
    | some (n, v) => .ok (c.setBank b { k with data := .map (adel slots n) }) v none .ok
    | none => .ok c 0 none .absent
  | .hist bins, .lookup => if x.toNat < k.bins then .ok c (ofNat (anat bins x.toNat)) none .ok else .ok c 0 none .absent
  | .hist bins, .delete =>
    if x.toNat < k.bins then .ok (c.setBank b { k with data := .hist (adel bins x.toNat) }) (ofNat (anat bins x.toNat)) none .ok
    else .ok c 0 none .absent
  | .heap es next, .deckey => match es.findIdx? fun e => e.2.1 == x with
    | none => .ok c 0 none .absent
    | some i => match es[i]? with
      | none => .ok c 0 none .absent
      | some e =>
        if orderKey x1 k.kfmt < orderKey e.1 k.kfmt then
          .ok (c.setBank b { k with data := .heap (siftUp k.kfmt hFuel (lset es i (x1, e.2)) i) next }) e.1 none .ok
        else .ok c e.1 none .present
  | _, _ => .bad

/-- The types that a window accepts (spec/07 R167). -/
def winTy : Ty → Bool
  | .i64 | .n64 | .f64 => true
  | _ => false

/-! ### What a window operation reads (spec/07 R163, R172) -/

/-- Entries that siftUp compares with, from entry i. -/
def upReads (f : BitVec 2) : Nat → List HEntry → Nat → List Nat
  | 0, _, _ => []
  | n + 1, l, i =>
    if i = 0 then [] else (i - 1) / 2 :: (if hLessAt f l i ((i - 1) / 2) then upReads f n (swap l i ((i - 1) / 2)) ((i - 1) / 2) else [])

/-- Entries that siftDown compares, from entry i. -/
def downReads (f : BitVec 2) : Nat → List HEntry → Nat → List Nat
  | 0, _, _ => []
  | n + 1, l, i =>
    let c := if 2 * i + 1 < l.length ∧ hLessAt f l (2 * i + 1) i then 2 * i + 1 else i
    let c := if 2 * i + 2 < l.length ∧ hLessAt f l (2 * i + 2) c then 2 * i + 2 else c
    ([2 * i + 1, 2 * i + 2].filter fun j => decide (j < l.length)) ++ (if c = i then [] else downReads f n (swap l i c) c)

/-- Entries that an extraction reads: the first, the last, those it sifts past. -/
def extractReads (f : BitVec 2) (l : List HEntry) : List Nat :=
  match l.getLast? with
  | none => []
  | some z => [0, l.length - 1] ++ downReads f hFuel ((lset l 0 z).take (l.length - 1)) 0

/-- The line of bin i of the histogram led by b. -/
def Bank.binLine (k : Bank) (b i : Nat) : Nat := 1024 * (b + i % k.span) + i / k.span / (if k.hw32 then 16 else 8)

/-- Data lines that a load of the window of bank b reads. -/
def loadReads (k : Bank) (b off : Nat) : List Nat :=
  if off ≠ 0 ∧ off ≠ 8 then []
  else match k.data with
    | .queue h ring lent =>
      (if ring.isEmpty then [] else [1024 * b + h / 8]) ++
        (if off = 0 then (lent.head?.map fun x => [1024 * k.poolb.toNat + x.1]).getD [] else [])
    | .stack ws => if ws.isEmpty then [] else [1024 * b + (ws.length - 1) / 8]
    | .heap es _ => (if off = 0 then extractReads k.kfmt es else if es.isEmpty then [] else [0]).map fun i => 1024 * b + i / 4
    | _ => []

/-- Data lines that a store at +0x00 of value x reads. -/
def storeReads (k : Bank) (b : Nat) (x x1 : W64) : List Nat :=
  match k.data with
  | .map _ => (mapWindow x k.span).map fun s => 1024 * b + s / 4
  | .heap es next => (upReads k.kfmt hFuel (es ++ [(x, x1, next)]) es.length).map fun i => 1024 * b + i / 4
  | .hist _ => if bits x 63 46 < k.bins then [k.binLine b (bits x 63 46)] else []
  | _ => []

/-- Data lines that an XCH reads: a search looks at every entry up to the one it finds. -/
def xchReads (k : Bank) (b : Nat) (x : W64) : List Nat :=
  match k.data with
  | .map _ => (mapWindow x k.span).map fun s => 1024 * b + s / 4
  | .hist _ => if x.toNat < k.bins then [k.binLine b x.toNat] else []
  | .heap es _ =>
    let n := ((es.findIdx? fun e => e.2.1 == x).map (· + 1)).getD es.length
    (List.range ((n + 3) / 4)).map (1024 * b + ·)
  | _ => []

/-- Every line that holds an item of the structure that bank b belongs to, those of lent chunks among them. -/
def Core.itemLines (c : Core) (b : Nat) : List Nat :=
  let l := c.leader b
  let own := (c.spanOf l).flatMap fun j => nunion [] ((c.rawBank j).map fun w => 1024 * j + w.1 / 8)
  match (c.bank l).data with
  | .queue _ _ lent => own ++ lent.map fun x => 1024 * (c.bank l).poolb.toNat + x.1
  | _ => own

/-- The pool bank of a queue whose ring is full is met with the queue by context x (spec/07 R162, R169). -/
def Core.claimPool (c : Core) (x : BitVec 8) (b : Nat) : Core :=
  let k := c.bank b
  match k.data with
  | .queue _ ring _ => if k.poolb.toNat < 14 ∧ k.words ≤ ring.length then c.claimBank x k.poolb.toNat else c
  | _ => c

end Sys2Proof.Machine
end

