-- ==== Sys2Proof/Machine/Control.lean ====
section
/-! DEFINITION. Control flow, boundaries and software traps (spec/05 R110 to R117). -/

namespace Sys2Proof.Machine

/-- An instruction that sets the pc itself. -/
def flowOp (s : State) (f : Core → Res Core) : Out := finish s ((f s.me).map fun c => { s with me := c })

/-- Cond of spec/05 R111, on 64-bit values. -/
def condHolds (cc : Cond) (x y : W64) : Bool :=
  match cc with
  | .eq => x == y
  | .ne => x != y
  | .lt => x.slt y
  | .ge => !x.slt y
  | .ltn => x.ult y
  | .gen => !x.ult y

def branch (taken : Bool) (t : W64) (c : Core) : Res Core := if taken then c.goto t else .ok c.retire

def execNop (s : State) : Out := coreOp s .ok

def execJmp (t : BitVec 14) (s : State) : Out := flowOp s fun c => c.goto (target t)

/-- A jump to the byte address in a register. -/
def jumpReg (a : Src) (c : Core) : Res Core := do
  let (x, c) ← readS a c
  (freeS a c).goto x

def execJmpr (a : Src) (s : State) : Out := flowOp s (jumpReg a)

/-- The link goes to s62, unless the target is invalid. -/
def linkTo (t : W64) (c : Core) : Res Core := do
  let c' ← c.goto t
  let c ← writeS 62 (c.succ c.pc) c
  .ok { c with pc := c'.pc, wait := none, spin := 0 }

def execCall (t : BitVec 14) (s : State) : Out := flowOp s fun c => do
  destS 62 c
  linkTo (target t) c

def execCallr (a : Src) (s : State) : Out := flowOp s fun c => do
  destS 62 c
  let (x, c) ← readS a c
  linkTo x (freeS a c)

def execRet (a : Src) (s : State) : Out := flowOp s (jumpReg a)

def execBr (cc : Cond) (a b : Src) (t : BitVec 14) (s : State) : Out := flowOp s fun c => do
  let (x, c) ← readS a c
  let (y, c) ← readS b c
  branch (condHolds cc x y) (target t) (freeS b (freeS a c))

/-- BRI's literal: zero-extended for ltn and gen, else sign-extended. -/
def briLit (cc : Cond) (k : BitVec 8) : W64 :=
  match cc with
  | .ltn | .gen => k.zeroExtend 64
  | _ => k.signExtend 64

def execBri (cc : Cond) (a : Src) (k : BitVec 8) (t : BitVec 14) (s : State) : Out := flowOp s fun c => do
  let (x, c) ← readS a c
  branch (condHolds cc x (briLit cc k)) (target t) (freeS a c)

def bstHolds (cc : BstCond) (sts : W64) : Bool := (bits sts 2 0 == cc.code.toNat) != cc.neg

def execBst (cc : BstCond) (t : BitVec 14) (s : State) : Out :=
  flowOp s fun c => branch (bstHolds cc c.ctl.sts) (target t) c

def execLoop (d : BitVec 6) (a : Src) (t : BitVec 14) (s : State) : Out := flowOp s fun c => do
  destS d c
  let (x, c) ← readS a c
  let y := x - 1
  let c' ← writeS d y (freeS a c)
  branch (y != 0) (target t) c'

/-! ### Boundaries -/

/-- The boundary conditions of spec/03 R56 and R62 in every member. -/
def gangReady (s : State) (ms : List Nat) : Res Unit :=
  match ms.findSome? fun k => match boundaryReady (s.core k) with | .ok _ => none | .error e => some e with
  | none => .ok ()
  | some e => .error e

/-- CloseSegment(PHASE), then the successor (spec/05 R115). -/
def execPhase (s : State) : Out := finish s do
  boundaryReady s.me
  .ok { s with me := { s.me.retire.close .phase s.me.pc .nothing with wait := none } }

/-- The core's activation ends with a boundary (spec/03 R78); END in a trap handler ends the stopped one too (spec/05 R147). -/
def State.endBy (s : State) (kind : Boundary) : State :=
  let c := s.me
  let acts := c.messages
  let c := { c with frame := none }
  ({ s with me := { c.close kind c.pc (.retire acts) with gang := none } }).endIdle

def execEndAct (s : State) : Out := finish s do
  let ms := s.gangOf
  gangReady s ms
  need (ms.length ≤ 1 || fusedDone s ms false) (.wait .engine)
  let s := onCores (ms.filter (· != s.cur)) (fun s => s.endBy .endAct) s
  let s := s.endBy .endAct
  .ok (if ms.length ≤ 1 then s else s.linkMates ms)

/-- The value of an s register, zero where it is vacant (spec/03 R79). -/
def Regs.orZero (r : Regs) (i : BitVec 6) : W64 :=
  match r.getS i with
  | .full x => x
  | _ => 0

/-- The interface's fields of a header: CTX, SPKG, SCORE and SSEQ, and no WAKE, which only a message that has crossed a port has (spec/03
R48, spec/24 R440). -/
def header (h : W64) (ctx pkg : BitVec 8) (core : Nat) (seq : BitVec 11) : W64 :=
  ofNat (put ctx.toNat 56 + put (bits h 55 35) 35 + put (bits h 33 32) 32 + put pkg.toNat 24 + put core 11 + seq.toNat)

/-- The message that YIELD builds. -/
def yieldMsg (s : State) : Msg :=
  let c := s.me
  let r := fun (i : Nat) => c.regs.orZero (BitVec.ofNat 6 i)
  msgOf [header c.ctl.msg c.act.ctx s.pkgid s.cur c.mseq, c.ctl.tid, c.ctl.wid, r 4, r 5, r 6, r 7, r 8]

def execYield (s : State) : Out := finish s do
  let c := s.me
  need (c.gang.isNone && !c.lt.en) (.trap (precise c 0x001 (encWord .yield) 0 0))
  boundaryReady c
  needOut c 1
  let c := { (c.outAdd (.own (yieldMsg s))) with mseq := c.mseq + 1 }
  .ok (({ s with me := c }).endBy .yield)

/-- Two boundaries and the migration record between them (spec/03 R80, spec/05 R116). With a segment on the closing list the first is taken
alone, and the second when the list has room again (R62); so it is where the closed entries leave no room for the record (R66). -/
def execMigr (a : Src) (s : State) : Out := finish s do
  let c := s.me
  need (c.gang.isNone && !c.lt.en) (.trap (precise c 0x001 (encWord (.migr a)) 0 0))
  let (x, c1) ← readS a c
  let bad := x.toNat - put (bits x 31 24) 24 - put (bits x 23 11) 11
  need (bad = 0) (.trap (precise c 0x002 x (ofNat bad) 1))
  boundaryReady c
  let first := c.irrev == some .migr
  let closed := c.close .phase c.pc .nothing
  if !first && (!c.closing.isEmpty || decide (Config.outboxCap ≤ closed.otherOut)) then
    return { s with me := { closed with irrev := some .migr, wait := some .boundary } }
  let c := if first then c else ({ c with nund := c1.nund } : Core).close .phase c.pc .nothing
  needOut c 1
  let r : MigrRec := ⟨(freeS a c1).regs, c.ctl, c.succ c.pc, msgOf [c.ctl.msg, c.ctl.tid, c.ctl.wid]⟩
  let c := { c with irrev := none, nund := c1.nund }.outAdd (.migr r (bits x 31 24) (bits x 23 11))
  .ok (({ s with me := c }).endBy .migr)

def execTrap (code : BitVec 6) (s : State) : Out :=
  finish s (trap s.me 0x604 0 (code.setWidth 64))

def execTrapReg (code : BitVec 6) (a : Src) (s : State) : Out := finish s do
  let (x, _) ← readS a s.me
  trap s.me 0x604 x (code.setWidth 64)

end Sys2Proof.Machine
end

