-- ==== Sys2Proof/Machine/Special.lean ====
section
/-! DEFINITION. The special functions of the vector unit, each rounded once (spec/08 R204, R220, spec/07 R188): a value is
enclosed between two fixed-point numbers, and where both round alike that is its rounding (log 14). -/

namespace Sys2Proof.Machine

inductive SpecFn where
  | exp2 | log2 | rcp | rsq | sin | cos | tanh | lse
deriving DecidableEq, Repr

def SpecFn.code : SpecFn → Nat
  | .exp2 => 0
  | .log2 => 1
  | .rcp => 2
  | .rsq => 3
  | .sin => 4
  | .cos => 5
  | .tanh => 6
  | .lse => 7

def rndNum (rm : Rnd) : Nat := rm.code.toNat

/-- A value strictly between lo × 2^e and hi × 2^e, which no format holds, rounded; `key` names its operands. -/
def between (fn : SpecFn) (t : Ty) (rm : Rnd) (neg : Bool) (lo hi : Nat) (e : Int) (key : Nat) : Nat × Fl :=
  let a := roundMag t rm neg (4 * lo + 1) (e - 2)
  let b := roundMag t rm neg (4 * hi - 1) (e - 2)
  (if a = b then a.1 else Config.hardCase t.code.toNat fn.code key (rndNum rm) % 2 ^ t.width, a.2 ||| Fl.inx)

/-! ### Fixed point: a number x stands for x × 2^-P; errors stay below `slack` units -/

def slack : Nat := 2 ^ 24

/-- 2 × atanh(a / b), b at least 3 a: the sum of 2 (a / b)^(2k+1) / (2k+1). -/
def atanhGo (P : Nat) (z2 : Nat) : Nat → Nat → Nat → Nat → Nat
  | 0, _, _, acc => acc
  | n + 1, k, p, acc => atanhGo P z2 n (k + 2) ((p * z2) >>> P) (acc + p / k)

def atanh2 (P a b : Nat) : Nat :=
  let z := a * 2 ^ P / b
  2 * atanhGo P ((z * z) >>> P) (P / 3 + 4) 1 z 0

def ln2 (P : Nat) : Nat := atanh2 P 1 3

/-- ln y for y in [1, 2]. -/
def lnFix (P y : Nat) : Nat := atanh2 P (y - 2 ^ P) (y + 2 ^ P)

/-- e^y for y in [0, 1). -/
def expGo (P y : Nat) : Nat → Nat → Nat → Nat → Nat
  | 0, _, _, acc => acc
  | n + 1, k, term, acc => expGo P y n (k + 1) (((term * y) >>> P) / k) (acc + term)

def expFix (P y : Nat) : Nat := expGo P y (P / 4 + 40) 1 (2 ^ P) 0

/-- arctan(1 / b), alternating. -/
def atanGo (b2 : Nat) : Nat → Nat → Int → Int → Int
  | 0, _, _, acc => acc
  | n + 1, k, p, acc => atanGo b2 n (k + 2) (-(p / (b2 : Int))) (acc + p / (k : Int))

def piFix (P : Nat) : Nat :=
  (16 * atanGo 25 (P / 4 + 4) 1 ((2 ^ P / 5 : Nat) : Int) 0 - 4 * atanGo 57121 (P / 4 + 4) 1 ((2 ^ P / 239 : Nat) : Int) 0).toNat

/-- The alternating series of sin and cos from its first term and index. -/
def trigGo (P : Nat) (y2 : Int) : Nat → Nat → Int → Int → Int
  | 0, _, _, acc => acc
  | n + 1, k, term, acc => trigGo P y2 n (k + 2) (-(term * y2 / 2 ^ P / ((k * (k + 1) : Nat) : Int))) (acc + term)

/-- sin and cos of π g for g in [0, 1/2]. -/
def sinPi (P g : Nat) : Nat :=
  let y : Int := (((piFix P * g) >>> P : Nat) : Int)
  (trigGo P (y * y / 2 ^ P) (P / 4 + 40) 2 y 0).toNat
def cosPi (P g : Nat) : Nat :=
  let y : Int := (((piFix P * g) >>> P : Nat) : Int)
  (trigGo P (y * y / 2 ^ P) (P / 4 + 40) 1 (2 ^ P) 0).toNat

/-- The working precision for f32 and bf16 operands, and that of lse. -/
def prec : Nat := 640
def precL : Nat := 1520

/-- A dyadic number in fixed point, rounded down. -/
def Dy.fix (x : Dy) (P : Nat) : Int :=
  if 0 ≤ x.e + P then x.m * 2 ^ (x.e + P).toNat else x.m / 2 ^ (-(x.e + P)).toNat

/-- A fixed-point enclosure of an approximation. -/
def near (fn : SpecFn) (t : Ty) (rm : Rnd) (neg : Bool) (x P key : Nat) : Nat × Fl :=
  between fn t rm neg (x - slack) (x + slack) (-(P : Int)) key

def one (t : Ty) (neg : Bool) : Nat := (roundMag t .rne neg 1 0).1

/-! ### The functions on finite values -/

def exp2Dy (t : Ty) (rm : Rnd) (x : Dy) (key : Nat) : Nat × Fl :=
  let v := x.fix prec
  let n := v / 2 ^ prec
  let f := (v % 2 ^ prec).toNat
  if 4096 ≤ n then roundMag t rm false 3 4096
  else if n < -4096 then roundMag t rm false 3 (-4096)
  else if f = 0 then roundMag t rm false 1 n
  else
    let y := expFix prec ((f * ln2 prec) >>> prec)
    between .exp2 t rm false (y - slack) (y + slack) (n - prec) key

/-- log2 of m × 2^e, m positive. -/
def log2Mag (t : Ty) (rm : Rnd) (m : Nat) (e : Int) (key : Nat) : Nat × Fl :=
  let k := (log2 m : Int) + e
  if m = 2 ^ log2 m then roundDy t rm ⟨k, 0⟩ false
  else
    let y := m * 2 ^ prec / 2 ^ log2 m
    let l : Int := k * 2 ^ prec + ((lnFix prec y * 2 ^ prec / ln2 prec : Nat) : Int)
    near .log2 t rm (decide (l < 0)) l.natAbs prec key

/-- 1 / sqrt(m × 2^e), m positive. -/
def rsqMag (t : Ty) (rm : Rnd) (m : Nat) (e : Int) : Nat × Fl :=
  let (m, e) := if e % 2 = 0 then (m, e) else (2 * m, e - 1)
  let k : Nat := 200
  let q := 4 ^ k / m
  let r := isqrt q
  let sticky := if 4 ^ k % m = 0 ∧ r * r = q then 0 else 1
  roundMag t rm false (2 * r + sticky) (-(e / 2) - k - 1)

/-- sin or cos of π x, x finite; `zneg` the sign of an exact zero of sin. -/
def trigDy (cos : Bool) (t : Ty) (rm : Rnd) (x : Dy) (zneg : Bool) (key : Nat) : Nat × Fl :=
  let fn := if cos then SpecFn.cos else SpecFn.sin
  let r := (x.fix prec % 2 ^ (prec + 1)).toNat
  let half := 2 ^ (prec - 1)
  -- quarter turns and the rest
  let q := r / half + if cos then 1 else 0
  let g := r % half
  let neg := decide (q % 4 = 2) || decide (q % 4 = 3)
  if g = 0 then (if q % 2 = 1 then one t neg else zeroBits t (!cos && zneg), 0)
  else near fn t rm neg (if q % 2 = 1 then cosPi prec g else sinPi prec g) prec key

def tanhMag (t : Ty) (rm : Rnd) (neg : Bool) (m : Nat) (e : Int) (key : Nat) : Nat × Fl :=
  let x := ((⟨m, e⟩ : Dy).fix prec).toNat
  let u := 2 ^ prec
  if 300 * u ≤ x then between .tanh t rm neg (u - slack) u (-(prec : Int)) key
  else
    let y := 2 * x
    let n := y / ln2 prec
    let q := (u * u / expFix prec (y - n * ln2 prec)) / 2 ^ n
    let v := (u - q) * u / (u + q)
    between .tanh t rm neg (v - slack) (min (v + slack) u) (-(prec : Int)) key

/-- The special functions of f32 and bf16 (spec/08 R204). -/
def special (fn : SpecFn) (t : Ty) (rm : Rnd) (a : Nat) : Nat × Fl :=
  let x := decodeF t a
  let key := a % 2 ^ t.width
  (propagate t [x]).getD (match fn, x with
    | .exp2, .inf n => (if n then zeroBits t false else infBits t false, 0)
    | .exp2, x => if x.isZero then (one t false, 0) else exp2Dy t rm x.dy key
    | .log2, .inf n => if n then invalid t else (infBits t false, 0)
    | .log2, .fin n m e => if m = 0 then (infBits t true, Fl.dvz) else if n then invalid t else log2Mag t rm m e key
    | .rcp, .inf n => (zeroBits t n, 0)
    | .rcp, .fin n m e => if m = 0 then (infBits t n, Fl.dvz)
      else let (q, g) := divMag ((Ty.fmt t).mb + 1) 1 0 m e; roundMag t rm n q g
    | .rsq, .inf n => if n then invalid t else (zeroBits t false, 0)
    | .rsq, .fin n m e => if m = 0 then (infBits t n, Fl.dvz) else if n then invalid t else rsqMag t rm m e
    | .sin, .inf _ => invalid t
    | .sin, x => if x.isZero then (zeroBits t x.neg, 0) else trigDy false t rm x.dy x.neg key
    | .cos, .inf _ => invalid t
    | .cos, x => trigDy true t rm x.dy false key
    | .tanh, .inf n => (one t n, 0)
    | .tanh, .fin n m e => if m = 0 then (zeroBits t n, 0) else tanhMag t rm n m e key
    | _, _ => invalid t)

/-- RoundTo(t, log2(2^m + 2^b), rm) of the atomic (spec/07 R188). -/
def lseDy (t : Ty) (rm : Rnd) (hi lo : Dy) (key : Nat) : Nat × Fl :=
  let d := hi.add ⟨-lo.m, lo.e⟩
  if d.m = 0 then roundDy t rm (hi.add ⟨1, 0⟩) false
  else
    -- 2^-d = 2^-n × 2^-f, with n the ceiling
    let v := (⟨-d.m, d.e⟩ : Dy).fix precL
    let n := v / 2 ^ precL
    let f := (v % 2 ^ precL).toNat
    let u := 2 ^ precL
    let w := if n < -1400 then 0 else (expFix precL ((f * ln2 precL) >>> precL)) / 2 ^ (-n).toNat
    let l := atanh2 precL w (w + 2 * u) * u / ln2 precL
    -- in units of 2^-(precL + 2200), which hold the larger operand exactly
    let h : Int := hi.fix (precL + 2200)
    let a : Int := h + ((l - slack : Nat) : Int) * 2 ^ 2200
    let b : Int := h + ((l + slack : Nat) : Int) * 2 ^ 2200
    let e : Int := -((precL + 2200 : Nat) : Int)
    if 0 ≤ a then between .lse t rm false a.toNat b.toNat e key
    else if b ≤ 0 then between .lse t rm true b.natAbs a.natAbs e key
    else (Config.hardCase t.code.toNat SpecFn.lse.code key (rndNum rm) % 2 ^ t.width, Fl.inx)

def lse (t : Ty) (rm : Rnd) (m b : Nat) : Nat × Fl :=
  let x := decodeF t m
  let y := decodeF t b
  let key := m % 2 ^ t.width + 2 ^ t.width * (b % 2 ^ t.width)
  (propagate t [x, y]).getD (match x, y with
    | .inf p, .inf q => (infBits t (p && q), 0)
    | .inf p, _ => (if p then b % 2 ^ t.width else infBits t false, 0)
    | _, .inf q => (if q then m % 2 ^ t.width else infBits t false, 0)
    | x, y => if x.dy.lt y.dy then lseDy t rm y.dy x.dy key else lseDy t rm x.dy y.dy key)

/-- The twiddle factor of index k for N = 2^n: real and imaginary part (spec/08 R220). -/
def twiddle (t : Ty) (rm : Rnd) (n k : Nat) : (Nat × Fl) × (Nat × Fl) :=
  let x : Dy := ⟨2 * (k % 2 ^ n : Nat), -(n : Int)⟩
  let y : Dy := ⟨-(2 * (k % 2 ^ n : Nat)), -(n : Int)⟩
  (trigDy true t rm x false (k % 2 ^ n + 2 ^ 40 * n), trigDy false t rm y false (k % 2 ^ n + 2 ^ 40 * n))

end Sys2Proof.Machine
end

