-- ==== Sys2Proof/Machine/Words.lean ====
section
/-! DEFINITION. What a strong access does at its home: words, barriers, windows (spec/07 R166, R186 to R189, spec/15 R327). -/

namespace Sys2Proof.Machine

/-- The answer of a word: not yet, a refusal with words 3, 6 and 7 of its record, or the new value, the value read, flags. -/
inductive WRes where
  | poll
  | trap (cause : Nat) (w3 w6 w7 : W64)
  | ok (new : Option Nat) (v : W64) (f : Fl)
deriving DecidableEq, Repr

/-- Bytes of the access. -/
def WordOp.size : WordOp → Nat
  | .lds t | .sts t .. | .aadd t _ | .amnx _ t _ | .alog _ t _ | .aswp t _ | .acas t .. | .waitm _ t _ => t.width / 8
  | .xch .. => 8
  | .bari _ | .barx _ | .barw _ => 16

/-- The access writes, so it needs a writable page (spec/17 R352). -/
def WordOp.writes : WordOp → Bool
  | .lds _ | .waitm .. => false
  | _ => true

/-- The access reads its bytes. -/
def WordOp.reads : WordOp → Bool
  | .sts .. => false
  | _ => true

/-- An access that may be repeated until its condition holds. -/
def WordOp.waits : WordOp → Bool
  | .waitm .. | .barw _ => true
  | _ => false

/-- Only LDS, STS and XCH have a meaning at a structure window. -/
def WordOp.windowed : WordOp → Bool
  | .lds _ | .sts .. | .xch .. => true
  | _ => false

/-- An atomic's new value and its flags, or its trap by MODE (spec/07 R188). -/
def atomic (t : Ty) (m : Nat) (mode : W64) (r : Nat × Fl) : WRes :=
  if enabled mode r.2 = 0 then .ok (some r.1) (extend m t) r.2
  else .trap (0x301 + firstFlag (enabled mode r.2)) 0 0 (r.2.setWidth 64)

def intMinMax (t : Ty) (isMax : Bool) (m b : Nat) : Nat :=
  let x := narrow (ofNat m) t
  let y := narrow (ofNat b) t
  intBits t (if isMax then max x y else min x y)

/-! ### Byte barriers (spec/15 R325 to R327): the 16 bytes as one number -/

structure Barrier where
  arr  : Nat
  pend : Int
  rld  : Nat
  gen  : Nat
deriving DecidableEq, Repr

def Barrier.of (x : Nat) : Barrier :=
  ⟨x / 2 ^ 48 % 2 ^ 16, sext x 48, x / 2 ^ 96 % 2 ^ 16, x / 2 ^ 64 % 2 ^ 32⟩

def Barrier.bits (b : Barrier) : Nat :=
  (b.pend % 2 ^ 48).toNat + b.arr * 2 ^ 48 + b.gen * 2 ^ 64 + b.rld * 2 ^ 96

/-- Complete() of spec/15 R327. -/
def Barrier.complete (b : Barrier) : Barrier :=
  if b.arr = 0 ∧ b.pend = 0 then { b with gen := (b.gen + 1) % 2 ^ 32, arr := b.rld } else b

/-- The Serve of an access at address a, where m is what its bytes hold. -/
def WordOp.run (op : WordOp) (a : W64) (m : Nat) (mode : W64) : WRes :=
  let rm := modeRnd mode
  match op with
  | .lds t => .ok none (extend m t) 0
  | .sts t b _ _ => .ok (some (patBits b t)) 0 0
  | .aadd t b => atomic t m mode (if t.isInt then (patBits (ofNat (m + b.toNat)) t, 0) else fadd t rm m (patBits b t))
  | .amnx isMax t b =>
    atomic t m mode (if t.isInt then (intMinMax t isMax m (patBits b t), 0) else fminmax t isMax m (patBits b t))
  | .alog o t b => atomic t m mode (match o with
    | .and => (m &&& patBits b t, 0)
    | .or => (m ||| patBits b t, 0)
    | .xor => (m ^^^ patBits b t, 0)
    | .lse => lse t rm m (patBits b t))
  | .aswp t b => .ok (some (patBits b t)) (extend m t) 0
  | .acas t b c => .ok (some (if m = patBits b t then patBits c t else m)) (extend m t) 0
  | .waitm cc t b =>
    let x := widen (narrow (ofNat m) t) t
    if condHolds cc x (widen (narrow b t) t) then .ok none x 0 else .poll
  | .bari b => .ok (some { Barrier.of m with arr := b.toNat, pend := 0, rld := b.toNat }.bits) (ofNat (Barrier.of m).gen) 0
  | .barx e =>
    let x := Barrier.of m
    if x.arr = 0 ∨ 2 ^ 47 ≤ e.toNat ∨ 2 ^ 47 - 1 < x.pend + (e.toNat : Int) then .trap 0x403 a e 0
    else .ok (some { x with arr := x.arr - 1, pend := x.pend + (e.toNat : Int) }.complete.bits) (ofNat x.gen) 0
  | .barw g0 =>
    let g := (Barrier.of m).gen
    if g = bits g0 31 0 then .poll else .ok none (ofNat g) 0
  | .xch .. => .trap 0x206 a 0 0

/-! ### Poison (spec/07 R163, spec/17 R355) -/

/-- An uncommitted segment of the core wrote bytes of line n, which it has logged: they differ from its pre-image. A line that the segment only
read holds committed data. DESIGN CHOICE, log 66: bytes written with the values that stood there count as not written. -/
def Core.wroteLine (c : Core) (n : Nat) (clean : Bool) : Bool :=
  c.uncommitted.any fun d => d.undo.any fun u => match u.what with
    | .line k l p => k == n && !(clean && p) && l != Mem.line c.mem (64 * n)
    | _ => false

/-- The poison of line n came with bytes that an uncommitted segment of the core wrote. -/
def Core.poisonFresh (c : Core) (n : Nat) : Bool := c.wroteLine n true

/-- The reading of a poisoned line ends its context: the error lies in committed data, and no engine operation wrote it there. -/
def Core.poisonKills (c : Core) (n : Nat) : Bool := !c.poisonFresh n && !c.derived.contains n

def notPoisoned (c : Core) (ns : List Nat) : Res Unit :=
  match ns.find? c.poison.contains with
  | none => .ok ()
  | some n => .error (.uncorr (ofNat (64 * n)) 0 (c.poisonKills n))

/-- No registered lock covers n bytes at off; the trap names address e. The manual speaks of a locked line (spec/05 R140, spec/07 R185)
and of a locked range (spec/09 R223): the bytes of the access, weak or strong, decide. DESIGN CHOICE, log 66. -/
def notLocked (c : Core) (e : W64) (off n : Nat) : Res Unit :=
  match lockOn c.locks off n with
  | none => .ok ()
  | some l => trap c 0x205 e l.kind

/-! ### Own memory: revocable accesses (spec/03 R75) -/

/-- A strong access to own ARRAY bytes, served at issue: its lines are logged and held; the core after it, the value read. -/
def ownWord (e : W64) (off : Nat) (op : WordOp) (c : Core) : Res (Core × W64) := do
  let n := op.size
  notLocked c e off n
  let c := c.claimAll c.act.ctx off n
  (if op.reads then notPoisoned c (linesOf off n) else .ok ())
  match op.run e (Mem.nat c.mem off n) c.ctl.mode with
  | .poll => wait .poll
  | .trap k w3 w6 w7 => trap c k w3 w6 w7
  | .ok new v f =>
    let c := { c with ctl := { c.ctl with flg := c.ctl.flg ||| f.setWidth 64 } }
    needLines c (linesOf off n)
    let c := match new with
      | none => (linesOf off n).foldl Core.logLine c
      | some x => c.ownWrite off (bytesOf x n)
    .ok (c.hold (linesOf off n), v)

/-- The operation of a window (spec/07 R166, R167, R176). `dOdd`: the destination's number is odd. -/
def winOp (c : Core) (b off : Nat) (op : WordOp) (dOdd : Bool) : WinRes :=
  let k := c.bank b
  match op with
  | .lds t => if !winTy t || (k.pairs? false off && dOdd) then .bad else winLoad c b off
  | .sts t x x1 odd => if !winTy t || (k.pairs? true off && odd) then .bad else winStore c b off x x1
  | .xch o x x1 odd => if off ≠ 0x20 ∨ (o = .deckey ∧ odd) then .bad else winXch c b o x x1
  | _ => .bad

/-- Data lines that an operation on the window of bank b reads (spec/07 R163). -/
def WordOp.winReads (op : WordOp) (k : Bank) (b off : Nat) : List Nat :=
  match op with
  | .lds _ => loadReads k b off
  | .sts _ x x1 _ => storeReads k b x x1
  | .xch _ x _ _ => xchReads k b x
  | _ => []

/-- An operation on the window of an own bank, served at issue. -/
def ownWin (e : W64) (b off : Nat) (op : WordOp) (dOdd : Bool) (c : Core) : Res (Core × W64 × Option W64) := do
  let c := (c.claimBank c.act.ctx b).claimPool c.act.ctx b
  match winOp c b off op dOdd with
  | .bad => trap c 0x206 e
  | .ok c' v v1 sts =>
    let rs := op.winReads (c.bank b) b off
    notPoisoned c rs
    let bs := touched c c' b
    let c ← revocable c c' bs (nunion rs (changedLines c c' bs))
    .ok (c.setSts sts, v, v1)

end Sys2Proof.Machine
end

