-- ==== Sys2Proof/Machine/Strong.lean ====
section
/-! DEFINITION. Strong accesses of the core in focus: LDS to WAITM, XCH, the byte barriers, LOOPF (spec/07 R181 to R190,
R176, spec/15 R326 to R329, spec/03 R75, R76). -/

namespace Sys2Proof.Machine

/-- The instructions that share a rule for the places they reach. -/
inductive SClass where
  | mem | atom | xch | bar
deriving DecidableEq, Repr

/-- A home inside the scope instance of the core in focus (spec/07 R181). -/
def State.inScope (s : State) (sc : Scope) (h : Home) : Bool :=
  match sc, h with
  | .domain, _ => true
  | _, .farCore .. | _, .farDev _ => false
  | .package, _ => true
  | .die, .local k _ => dieOf k == dieOf s.cur
  | .die, .dev pa => pa / 2 ^ 37 % 4 == dieOf s.cur
  | .cluster, .local k _ => clusterOf k == clusterOf s.cur
  | .core, .local k _ => k == s.cur
  | _, _ => false

/-- The traps of an address that no home is asked about: RANGE and BADWIN (spec/07 R176, R186, spec/15 R326). -/
def placeTrap (cls : SClass) (s : State) (sc : Scope) (e : W64) (p : Place) : Res Unit :=
  let range : Res Unit := trap s.me 0x202 e
  let badwin : Res Unit := trap s.me 0x206 e
  match cls, p with
  | .xch, .window .. => .ok ()
  | .xch, .core _ off | .xch, .far _ _ off => if off % 65536 = 0x20 then .ok () else badwin
  | .xch, .none => if bits e 63 60 = 0 ∧ bits e 55 48 = 0xFE then range else badwin
  | .xch, _ => badwin
  | _, .raw _ => range
  | _, .none => range
  | .mem, .window .. => .ok ()
  | _, .window .. => badwin
  | .bar, .virt => range
  | .bar, .core k off => if s.inScope sc (.local k off) then .ok () else range
  | .bar, .far p k off => if s.inScope sc (.farCore p k off) then .ok () else range
  | _, _ => .ok ()

/-- A strong access to the core's own window is made as through its private alias (spec/07 R160). -/
def State.strongPlace (s : State) (e : W64) : Place :=
  match s.place e with
  | .core k off => if k = s.cur then (if s.me.isArray (off / 65536) then .own off else .window (off / 65536) (off % 65536)) else .core k off
  | p => p

/-- A RANGE fault of an access outside own memory, the raw view among them, comes after its boundary (spec/03 R76, log 35). -/
def lateTrap (x : Res Unit) (p : Place) : Option Report :=
  match x, p with
  | _, .own _ | _, .window .. => none
  | .error (.trap r), _ => if r.cause = 0x202 then some r else none
  | _, _ => none

/-- The home of an address outside own memory; a translation fault is precise (spec/07 R137, spec/17 R350). -/
def State.homeOf (s : State) (e : W64) (write : Bool) : Res Home :=
  match s.place e with
  | .core k off => .ok (.local k off)
  | .far p k off => .ok (.farCore p k off)
  | _ => match s.pa e write with
    | .ok pa => .ok (s.home pa)
    | .error w => .error (s.unmapped e 0 w)

/-- The request leaves: operands freed, the destination EMPTY, the confirmed checkpoint kept for a refusal (spec/03 R76). -/
def State.ask (s : State) (c : Core) (d : BitVec 6) (h : Home) (r : Req) : State :=
  let id := s.me.nord
  let s := { s with me := { (c.markEmpty d) with nord := id + 1, irrev := some (.sent id), wait := some .reply } }
  let s := match r with
    | .word _ e _ _ _ => s.fillFor e
    | _ => s
  s.send h.target (.request id d.toNat r)

/-- An irrevocable access from its boundary on (spec/03 R76): `go` gives its home and its request. -/
def irrevocable (s : State) (d : BitVec 6) (c : Core) (go : Res (Home × Req)) : Res State := do
  match s.me.irrev with
  | none =>
    boundaryReady s.me
    .ok { s with me := { (s.me.close .irrevocable s.me.pc .nothing) with irrev := some .bounded, wait := some .commit } }
  | some _ =>
    need (s.me.closing.isEmpty && s.me.pubs.isEmpty) (.wait .commit)
    let (h, r) ← go
    pushOk d c
    need (s.permit h.target) (.wait .permit)
    .ok (s.ask c d h r)

/-- The request of a word, window or barrier, inside its scope. W of the page allows writes and strong accesses, so every strong access
needs it (spec/17 R351, log 39). -/
def wordReq (s : State) (sc : Scope) (e : W64) (op : WordOp) : Res (Home × Req) := do
  let h ← s.homeOf e true
  need (s.inScope sc h) (.trap (precise s.me 0x202 e 0 0))
  .ok (h, .word h e op (e.extractLsb' 56 4) s.me.ctl.mode)

/-- The core goes on after a strong access; its read cache is empty (spec/06 R154). -/
def Core.served1 (c : Core) : Core := { c.retire with rcache := [] }

/-- A strong access. `pre` reads its data operands for their traps; `build` reads them for the place found, and frees every
operand. -/
def strong (cls : SClass) (d : BitVec 6) (a : Src) (size : Nat) (sc : Scope) (pre : Core → Res Unit)
    (build : Place → Core → Res (WordOp × Core)) (s : State) : Out :=
  match s.me.irrev with
  | some (.sent _) => .next (s.waiting .reply)
  | _ => finish s do
    let c := s.me
    readsDone c
    destS d c
    let (e, c1) ← readS a c
    pre c1
    need (e.toNat % size = 0) (.trap (precise c 0x201 e (ofNat size) 0))
    let p := s.strongPlace e
    if let some r := lateTrap (placeTrap cls s sc e p) p then
      return (← irrevocable s d c1 (.error (.trap r)))
    placeTrap cls s sc e p
    let (op, c2) ← build p c1
    match p with
    | .own off =>
      let (c3, v) ← ownWord e off op c2
      let c4 ← writeS d v c3
      .ok { s with me := c4.served1 }
    | .window b off =>
      let pair := (c.bank b).pairs? false off && (match op with | .lds _ => true | _ => false)
      if pair then destS (d + 1) c
      let (c3, v, v1) ← ownWin e b off op (d.getLsbD 0) c2
      let c4 ← writeS d v c3
      let c5 ← (match v1 with | some x => writeS (d + 1) x c4 | none => .ok c4)
      .ok { s with me := c5.served1 }
    | _ => irrevocable s d c2 (wordReq s sc e op)

/-- The traps of one and of two data operands. -/
def pre1 (b : Src) (c : Core) : Res Unit := (readS b c).map fun _ => ()
def pre2 (b e : Src) (c : Core) : Res Unit := do
  let (_, c) ← readS b c
  pre1 e c

/-- A data operand of an atomic. -/
def build1 (a b : Src) (f : W64 → WordOp) (_ : Place) (c : Core) : Res (WordOp × Core) := do
  let (y, c) ← readS b c
  .ok (f y, freeS b (freeS a c))

/-- The second word of a pair (spec/07 R167): its operand byte has the attributes of b. -/
def pairSrc (b : Src) : Src := ⟨b.last, b.trap, b.reg + 1⟩

/-- A data operand and, where the operation at place p may pair, the register after it. `own`: the window's own need. -/
def buildPair (a b : Src) (own : Core → Nat → Nat → Bool) (f : W64 → W64 → Bool → WordOp) (p : Place) (c : Core) :
    Res (WordOp × Core) := do
  let odd := b.reg.getLsbD 0
  let (y, c1) ← readS b c
  let both := match p with
    | .window k off => own c k off && !odd
    | .core .. | .far .. => !odd && (c.regs.getS (b.reg + 1)).live
    | _ => false
  if both then
    let (z, c2) ← readS (pairSrc b) c1
    .ok (f y z odd, freeS (pairSrc b) (freeS b (freeS a c2)))
  else .ok (f y 0 odd, freeS b (freeS a c1))

def execLds (d : BitVec 6) (a : Src) (scope : Scope) (t : Ty) (s : State) : Out :=
  strong .mem d a (t.width / 8) scope (fun _ => .ok ()) (fun _ c => .ok (.lds t, freeS a c)) s

def execSts (a b : Src) (scope : Scope) (t : Ty) (s : State) : Out :=
  strong .mem 0 a (t.width / 8) scope (pre1 b)
    (buildPair a b (fun c k off => (c.bank k).pairs? true off) fun y z odd => .sts t y z odd) s

def execAadd (d : BitVec 6) (a b : Src) (scope : Scope) (t : Ty) (s : State) : Out :=
  strong .atom d a (t.width / 8) scope (pre1 b) (build1 a b (.aadd t)) s

def execAmnx (d : BitVec 6) (a b : Src) (isMax : Bool) (scope : Scope) (t : Ty) (s : State) : Out :=
  strong .atom d a (t.width / 8) scope (pre1 b) (build1 a b (.amnx isMax t)) s

def execAlog (d : BitVec 6) (a b : Src) (op : LogOp) (scope : Scope) (t : Ty) (s : State) : Out :=
  strong .atom d a (t.width / 8) scope (pre1 b) (build1 a b (.alog op t)) s

def execAswp (d : BitVec 6) (a b : Src) (scope : Scope) (t : Ty) (s : State) : Out :=
  strong .atom d a (t.width / 8) scope (pre1 b) (build1 a b (.aswp t)) s

def execAcas (d : BitVec 6) (a b e : Src) (scope : Scope) (t : Ty) (s : State) : Out :=
  strong .atom d a (t.width / 8) scope (pre2 b e) (fun _ c => do
    let (y, c) ← readS b c
    let (z, c) ← readS e c
    .ok (.acas t y z, freeS e (freeS b (freeS a c)))) s

def execWaitm (d : BitVec 6) (a b : Src) (cc : Cond) (scope : Scope) (t : Ty) (s : State) : Out :=
  strong .atom d a (t.width / 8) scope (pre1 b) (build1 a b (.waitm cc t)) s

def execXch (d : BitVec 6) (a b : Src) (op : XchOp) (s : State) : Out :=
  strong .xch d a 1 .cluster (pre1 b)
    (buildPair a b (fun c k _ => op == .deckey && (match (c.bank k).data with | .heap .. => true | _ => false))
      fun y z odd => .xch op y z odd) s

def execBari (d : BitVec 6) (a b : Src) (scope : Scope) (s : State) : Out :=
  strong .bar d a 16 scope (pre1 b) (fun _ c => do
    let (y, c1) ← readS b c
    need (decide (1 ≤ y.toNat) && decide (y.toNat < 65536)) (.trap (precise c 0x002 y (ofNat (reloadMask y)) 1))
    .ok (.bari y, freeS b (freeS a c1))) s
where
  /-- The bits of a reload count that no count from 1 to 65,535 has; all of them for zero. -/
  reloadMask (y : W64) : Nat := if y = 0 then 2 ^ 64 - 1 else y.toNat / 65536 * 65536

def execBarx (d : BitVec 6) (a b : Src) (scope : Scope) (s : State) : Out :=
  strong .bar d a 16 scope (pre1 b) (build1 a b .barx) s

def execBarw (d : BitVec 6) (a b : Src) (scope : Scope) (s : State) : Out :=
  strong .bar d a 16 scope (pre1 b) (build1 a b .barw) s

/-! ### LOOPF (spec/06 R158, spec/07 R190) -/

/-- The commit notice of a segment of the core in focus to the core itself is not served yet. -/
def State.noticeOut (s : State) (seg : Nat) : Bool :=
  s.chan.any fun p => p.src == s.cur && p.dst == s.cur && p.body == .notice seg

/-- The home that a reply to a weak read answers for. -/
def Rep.readHome : Rep → Option Home
  | .line h _ => some h
  | .trap h _ => some h
  | _ => none

/-- The home of a weak read of the core in focus has served it: its line is here, or the reply to a read that stands is on the way. -/
def State.readServed (s : State) (h : Home) : Bool :=
  s.me.rcache.any (fun x => x.1 == h) || s.chan.any fun p => p.src == s.cur && (match p.body with
    | .reply id _ r => r.readHome == some h && s.me.reads.any fun x => x.id == id
    | _ => false)

/-- No loop-back entry of a closed segment is unpublished, and every loop-back read has been served. -/
def State.loopDone (s : State) : Bool :=
  let own := fun (g : Seg) => g.d.out.any fun i => match i.e with
    | .store (.local k _) _ _ _ _ => k == s.cur
    | _ => false
  !(s.me.closing.any own || s.me.pubs.any (fun g => own g && s.noticeOut g.d.id)) &&
    s.me.reads.all fun r => r.need.all fun h => match h with
      | .local k _ => k != s.cur || s.readServed h
      | _ => true

def execLoopf (s : State) : Out := finish s do
  need s.loopDone (.wait .commit)
  .ok { s with me := s.me.retire }

end Sys2Proof.Machine
end

