-- ==== Sys2Proof/Machine/BankOps.lean ====
section
/-! DEFINITION. Instructions that change or query an own bank: BCFG, BQRY, BHEAP, BSPAN, BCLR (spec/07 R177 to R180). -/

namespace Sys2Proof.Machine

/-! ### Items (spec/07 R179) -/

/-- The items of a bank in order: words, or pairs. -/
inductive Items where
  | words (l : List W64)
  | pairs (l : List (W64 × W64))
deriving DecidableEq, Repr

def pairUp : List W64 → List (W64 × W64)
  | [] => []
  | [x] => [(x, 0)]
  | x :: y :: l => (x, y) :: pairUp l

def Items.toPairs : Items → List (W64 × W64)
  | .words l => pairUp l
  | .pairs l => l

def Items.toWords : Items → List W64
  | .words l => l
  | .pairs l => l.flatMap fun p => [p.1, p.2]

/-- Q reads pairs. -/
def pairDest (q : Nat) : Bool := q == 3 || q == 4

/-- The items of bank b for a destination of code q. -/
def Core.items (c : Core) (b q count : Nat) : Items :=
  match (c.bank b).data with
  | .array =>
    if pairDest q then .pairs ((List.range count).map fun i => (Mem.word c.mem (65536 * b + 16 * i), Mem.word c.mem (65536 * b + 16 * i + 8)))
    else .words ((List.range count).map fun i => Mem.word c.mem (65536 * b + 8 * i))
  | .queue _ ring lent => .words (ring ++ lent.flatMap (·.2.2))
  | .stack ws => .words ws
  | .map slots => .pairs (slots.map (·.2))
  | .heap es _ => .pairs (es.map fun e => (e.1, e.2.1))
  | .hist bins =>
    if pairDest q then .pairs (bins.map fun x => (ofNat x.1, ofNat x.2))
    else .words ((List.range (c.bank b).bins).map fun i => ofNat (anat bins i))
  | _ => .words []

def Items.isEmpty : Items → Bool
  | .words l => l.isEmpty
  | .pairs l => l.isEmpty

/-- A bank holds items, for a POOL destination. A HIST whose bins are all zero holds none: DESIGN CHOICE, log 66. -/
def Core.holdsItems (c : Core) (b count : Nat) : Bool :=
  match (c.bank b).data with
  | .array => decide (0 < count)
  | .pool _ => false
  | _ => decide (0 < Bank.count c b)

def buildMap : List (W64 × W64) → List (Nat × W64 × W64) → Option (List (Nat × W64 × W64))
  | [], l => some l
  | (k, v) :: ps, l =>
    let r := mapInsert l k v 1
    if r.2 = .full then none else buildMap ps r.1

/-- Bins of a word list, capped. -/
def binsOf (cap : Nat) (ws : List W64) : List (Nat × Nat) :=
  (ws.zipIdx.map fun x => (x.2, min x.1.toNat cap)).filter fun x => x.2 != 0

def buildBins (cap n : Nat) : List (W64 × W64) → List (Nat × Nat) → Option (List (Nat × Nat))
  | [], l => some l
  | (k, v) :: ps, l =>
    if n ≤ k.toNat then none
    else
      let x := min (anat l k.toNat + v.toNat) cap
      buildBins cap n ps (if x = 0 then l else aset l k.toNat x)

/-- The structure of code q, or the status of its refusal. -/
def build (q : Nat) (hw32 : Bool) (kfmt : BitVec 2) (items : Items) (holds : Bool) : Except StsCode Struct :=
  match q with
  | 0 => .ok .array
  | 1 => if 8192 < items.toWords.length then .error .full else .ok (.queue 0 items.toWords [])
  | 2 => if 8192 < items.toWords.length then .error .full else .ok (.stack items.toWords)
  | 3 => match buildMap items.toPairs [] with
    | some l => .ok (.map l)
    | none => .error .full
  | 4 =>
    let ps := items.toPairs
    if 4096 < ps.length then .error .full
    else .ok (.heap (heapify kfmt (ps.zipIdx.map fun x => (x.1.1, x.1.2, x.2))) ps.length)
  | 5 =>
    let n := if hw32 then 16384 else 8192
    let cap := if hw32 then 2 ^ 32 - 1 else 2 ^ 64 - 1
    match items with
    | .words l => if n < l.length then .error .full else .ok (.hist (binsOf cap l))
    | .pairs l => match buildBins cap n l [] with
      | some l => .ok (.hist l)
      | none => .error .absent
  | _ => if holds then .error .full else .ok (.pool [])

/-! ### Checks at issue (spec/07 R178, R179) -/

def resvIssue {α : Type} (c : Core) (x : W64) (mask : Nat) : Res α := trap c 0x002 x (ofNat mask) 1

def maskIf (b : Bool) (m : Nat) : Nat := if b then m else 0

/-- The offending bits of a BCFG operand, for a bank of personality p. -/
def cfgMask (w : W64) (p : Struct) : Nat :=
  let q := bits w 3 0
  let count := bits w 55 32
  let pool := bits w 31 28
  let array := p.isArray
  (w.toNat &&& 0xFF0000000FF1FFF0) |||
    maskIf (decide (7 ≤ q)) 0xF |||
    maskIf (pool != 0xF && (q != 1 || pool == 14)) (put 0xF 28) |||
    maskIf (q != 4) (put (bits w 19 18) 18) |||
    maskIf (q != 5) (put (bits w 17 17) 17) |||
    maskIf (if array then decide ((if pairDest q then 4096 else 8192) < count) else count != 0) (put 0xFFFFFF 32)

/-! ### Bank-wide operations (spec/07 R177) -/

/-- A line of bank b, or all of it, is held by a closed segment. -/
def heldByClosed (c : Core) (b : Nat) : Bool :=
  c.closing.any fun g => g.d.hbanks.contains b || g.d.holds.any fun n => n / 1024 == b

/-- The conditions under which a bank-wide operation on bank b starts. -/
def bankFree (c : Core) (b : Nat) : Res Unit := do
  (match lockOn c.locks (65536 * b) 65536 with
    | some l => trap c 0x205 (ofNat (65536 * b)) l.kind
    | none => .ok ())
  need (!heldByClosed c b) (.wait .commit)
  match c.imgSlot with
  | none => .ok ()
  | some (_, g) =>
    if g ≠ c.seg.id then wait .commit
    else if c.acmt then .error .phase else trap c 0x207 0

/-- The new image of bank b is in place; the old one fills the slot until the segment commits. -/
def bankWide (old new : Core) (b : Nat) : Core :=
  { ((new.logBank b old).holdBank b) with imgSlot := some (b, old.seg.id) }

/-- The bank's data lines read zero. -/
def Core.zeroBank (c : Core) (b : Nat) : Core :=
  { c with mem := Mem.clear c.mem (65536 * b) 65536, poison := c.poison.filter fun n => decide (n / 1024 ≠ b) }

/-- The chunks that a queue has borrowed return. -/
def Core.returnChunks (c : Core) (b : Nat) : Core :=
  match (c.bank b).data with
  | .queue _ _ lent => match c.poolOf (c.bank b) with
    | some (p, used) => c.setPool p (used.filter fun n => !(lent.any fun x => x.1 == n))
    | none => c
  | _ => c

/-- The pool whose metadata the operation changes. -/
def poolTouched (c : Core) (b : Nat) : List Nat :=
  match (c.bank b).data with
  | .queue _ _ (_ :: _) => match c.poolOf (c.bank b) with
    | some (p, _) => [p]
    | none => []
  | _ => []

/-- The rebuilt bank: its structure, and the bytes of an ARRAY. Words beyond the 64 KiB of an ARRAY, which a queue with lent chunks may
hold, are lost: the manual never refuses the change and names no place for them. DESIGN CHOICE, log 66. -/
def Core.rebuilt (c : Core) (b : Nat) (w : W64) (d : Struct) (items : Items) : Core :=
  let raw : List (Nat × W64) := match (c.bank b).data with
    | .hist _ => (c.rawBank b).map fun x => (65536 * b + 8 * x.1, x.2)
    | _ => (items.toWords.take 8192).zipIdx.map fun x => (65536 * b + 8 * x.2, x.1)
  let c' := ((c.returnChunks b).zeroBank b).setBank b
    ⟨d, w.extractLsb' 28 4, w.extractLsb' 18 2, w.getLsbD 17, 1, (c.bank b).owner⟩
  if d.isArray then { c' with mem := raw.foldl (fun m x => Mem.putNat m x.1 8 x.2.toNat) c'.mem } else c'

/-- Re-heapify in a new key format; the ranks stay. With the same format nothing changes (spec/07 R178). -/
def Core.rekey (c : Core) (b : Nat) (f : BitVec 2) : Core :=
  match (c.bank b).data with
  | .heap es next => if (c.bank b).kfmt = f then c else c.setBank b { c.bank b with data := .heap (heapify f es) next, kfmt := f }
  | _ => c

/-- The state word that these instructions return. -/
def Core.bankState (c : Core) (b : Nat) : W64 := c.bankWord b (Bank.count c (c.leader b))

/-- A bank is ready for a bank-wide change to `new`, which may touch a pool as well. -/
def changeBank (c new : Core) (b : Nat) : Res Core := do
  bankFree c b
  let ps := poolTouched c b
  needLines c (ps.map metaLine)
  let c' := ps.foldl (fun c' p => { ((c'.logBank p c).holdBank p) with
    seg := { ((c'.logBank p c).holdBank p).seg with lines := nset ((c'.logBank p c).holdBank p).seg.lines (metaLine p) } }) new
  .ok (bankWide c c' b)

/-- An operation that leaves its banks as they are still logs and holds their metadata (spec/03 R75). -/
def touchOnly (c : Core) (bs : List Nat) : Res Core := revocable c c bs (bs.map metaLine)

/-- Lines that a bank-wide change to personality q reads: the items of the source (spec/07 R163, R179). -/
def sourceLines (c : Core) (b q count : Nat) : List Nat :=
  if q = 6 then []
  else match (c.bank b).data with
    | .array => linesOf (65536 * b) ((if pairDest q then 16 else 8) * count)
    | .hist _ => (c.spanOf b).flatMap fun j => (List.range 1024).map (1024 * j + ·)
    | _ => c.itemLines b

/-- BCFG of bank b on the core that has claimed it: the core after it and the status. -/
def bankConfig (c : Core) (b : Nat) (w : W64) : Res (Core × StsCode) := do
  let k := c.bank b
  let q := bits w 3 0
  if k.data.isArray ∧ q = 0 then (changeBank c c b).map fun c => (c, .ok)
  else if k.data.code = 4 ∧ q = 4 then do
    (if k.kfmt = w.extractLsb' 18 2 then .ok () else notPoisoned c (c.itemLines b))
    (changeBank c (c.rekey b (w.extractLsb' 18 2)) b).map fun c => (c, .ok)
  else
    let count := bits w 55 32
    notPoisoned c (sourceLines c b q count)
    bankFree c b
    let lent := match k.data with | .pool (_ :: _) => true | _ => false
    let items := c.items b q count
    match (if lent then .error .full else build q (w.getLsbD 17) (w.extractLsb' 18 2) items (c.holdsItems b count)) with
    | .error e => (touchOnly c [b]).map fun c => (c, e)
    | .ok d => (changeBank c (c.rebuilt b w d items) b).map fun c => (c, .ok)

/-- The common shape: operand a names a bank, and b, where there is one, holds a value; d takes the word that the operation returns; the read cache empties. -/
def bankOp (d : BitVec 6) (a : Src) (b : Option Src) (limit : Nat) (f : W64 → Nat → W64 → Core → Res (Core × StsCode × W64))
    (s : State) : Out :=
  finish s do
    let c := s.me
    readsDone c
    destS d c
    let (x, c1) ← readS a c
    let (w, c2) ← (match b with | some b => readS b c1 | none => .ok (0, c1))
    need (x.toNat < limit) (.trap (precise c 0x002 x (ofNat (x.toNat / limit * limit)) 1))
    let (c2, sts, v) ← f x (bits x 3 0) w (b.elim id freeS (freeS a c2))
    let c3 ← writeS d v (c2.setSts sts)
    .ok { s with me := c3.served1 }

def rangeUnless (c : Core) (b : Bool) (x : W64) : Res Unit := need b (.trap (precise c 0x202 x 0 0))

/-- Not bank 14 or 15, and no member of a span, its leader included. -/
def singleBank (c : Core) (b : Nat) : Bool :=
  decide (b < 14) && decide (c.leader b = b) && decide ((c.bank b).span = 1)

def execBcfg (d : BitVec 6) (a b : Src) (s : State) : Out :=
  bankOp d a (some b) 16 (fun x k w c => do
    let c' := if k < 14 then c.claimLines c.act.ctx k else c
    let m := cfgMask w (if k < 14 then (c'.bank k).data else .queue 0 [] [])
    need (m = 0) (.trap (precise s.me 0x002 w (ofNat m) 1))
    rangeUnless s.me (singleBank c' k) x
    let prev := c'.bankState k
    let (c2, sts) ← bankConfig c' k w
    .ok (c2, sts, prev)) s

def execBqry (d : BitVec 6) (a : Src) (s : State) : Out :=
  bankOp d a none 16 (fun _ k _ c =>
    let c := c.claimBank c.act.ctx k
    (touchOnly c [c.leader k]).map fun c' => (c', .ok, c.bankState k)) s

def execBheap (d : BitVec 6) (a b : Src) (s : State) : Out :=
  bankOp d a (some b) 16 (fun x k w c => do
    need (w.toNat < 4) (.trap (precise s.me 0x002 w (ofNat (w.toNat / 4 * 4)) 1))
    let c := if k < 14 then c.claimLines c.act.ctx k else c
    rangeUnless s.me (singleBank c k && (c.bank k).data.code == 4) x
    let prev := c.bankState k
    (if (c.bank k).kfmt = w.setWidth 2 then .ok () else notPoisoned c (c.itemLines k))
    (changeBank c (c.rekey k (w.setWidth 2)) k).map fun c => (c, .ok, prev)) s

/-- An empty structure of the same personality. -/
def Struct.emptied : Struct → Struct
  | .queue .. => .queue 0 [] []
  | .stack _ => .stack []
  | .map _ => .map []
  | .heap .. => .heap [] 0
  | .hist _ => .hist []
  | d => d

/-- Banks of a span of n led by b. -/
def spanBanks (b n : Nat) : List Nat := (List.range n).map (b + ·)

/-- The span led by b gets n banks: those that join and those that leave become zeroed (spec/07 R180). -/
def Core.respan (c : Core) (b n : Nat) : Core :=
  let old := (c.bank b).span
  let x := c.act.ctx
  let c := (spanBanks (b + 1) (max old n - 1)).foldl (fun c k =>
    (c.zeroBank k).setBank k { Bank.reset (if k < b + n then .member b else .array) with owner := x }) c
  c.setBank b { c.bank b with span := n }

def execBspan (d : BitVec 6) (a : Src) (s : State) : Out :=
  bankOp d a none 256 (fun x k _ c => do
    let n := bits x 7 4 + 1
    let c := if k < 14 then c.claimLines c.act.ctx k else c
    let pers := (c.bank k).data.code
    need (!(n ≠ 1 && k < 14 && pers == 3 && n != 2 && n != 4 && n != 8 && n != 16)) (.trap (precise s.me 0x002 x 0xF0 1))
    rangeUnless s.me (decide (k < 14) && decide (c.leader k = k)) x
    rangeUnless s.me (n == 1 || (decide (1 ≤ pers) && decide (pers ≤ 5))) x
    rangeUnless s.me (decide (k + n - 1 ≤ 13)) x
    let fresh := fun (j : Nat) => match (c.bank j).data with
      | .member l => l == k
      | _ => c.isArray j && !(c.uncommitted.any fun g => g.hbanks.contains j || g.holds.any fun m => m / 1024 == j) &&
        (lockOn c.locks (65536 * j) 65536).isNone
    rangeUnless s.me ((spanBanks (k + 1) (n - 1)).all fresh) x
    let prev := c.bankState k
    if (c.bank k).span = n then (touchOnly c (c.spanOf k)).map fun c' => (c', if Bank.count c k = 0 ∨ n = 1 then .ok else .present, prev)
    else if Bank.count c k ≠ 0 then (touchOnly c (c.spanOf k)).map fun c' => (c', .present, prev)
    else
      let all := spanBanks k (max (c.bank k).span n)
      let c := all.foldl (fun c j => c.claimLines c.act.ctx j) c
      let c ← revocable c (c.respan k n) all (all.map metaLine)
      .ok (c, .ok, prev)) s

def execBclr (d : BitVec 6) (a : Src) (s : State) : Out :=
  bankOp d a none 16 (fun x k _ c => do
    rangeUnless s.me (decide (k < 14)) x
    let c := c.claimLines c.act.ctx k
    let l := c.leader k
    if (c.bank k).data.isArray then
      (changeBank c (c.zeroBank k) k).map fun c => (c, .ok, 0)
    else
      let n := Bank.count c l
      let c' := (c.returnChunks l).setBank l { c.bank l with data := (c.bank l).data.emptied }
      let bs := touched c c' l
      let c ← revocable c c' bs (bs.map metaLine)
      .ok (c, .ok, ofNat n)) s

end Sys2Proof.Machine
end

