-- ==== Sys2Proof/Machine/Engine.lean ====
section
/-! DEFINITION. Engine operations of a core: numbers, range locks, the undo ring, completion (spec/09 R221 to R224, R452,
spec/02 R31, spec/14 R295). -/

namespace Sys2Proof.Machine

/-! ### Steps of other agents -/

/-- A step that core k takes, where it is enabled (spec/01 R16). -/
def coreEvent (k : Nat) (f : State → Option State) (s : State) : Out :=
  if k < Config.nCores then .next (((f (s.focus k).caughtUp).map (·.focus s.cur)).getD s) else .fault .noSuchUnit

/-- A halted core, or one that the thermal trip stopped: its engines stand still (spec/20 R393, spec/21 R423). -/
def Core.frozen (c : Core) : Bool := c.halted.isSome || c.stopped

/-- A step of the engines of core k. -/
def engineEvent (k : Nat) (f : State → Option State) (s : State) : Out :=
  coreEvent k (fun s => if s.me.frozen then none else f s) s

/-- A core that BKPT stops, while its engines still move to their boundaries: within 96 clk (spec/20 R393, log 26). -/
def Core.stopping (c : Core) : Bool := c.halted == some .bkpt && !c.stopped && decide (c.clk ≤ c.haltClk + 96)

/-- A step of an engine of core k that works in parts: `part` stops it at some boundary. -/
def stoppingEvent (k : Nat) (part : State → State) (f : State → Option State) (s : State) : Out :=
  coreEvent k (fun s => if s.me.stopping then some (part s) else if s.me.frozen then none else f s) s

/-! ### The in-flight list -/

def EngKind.isPress : EngKind → Bool
  | .pload .. | .pswap | .prun .. | .follow .. | .ptest => true
  | _ => false

def EngOp.pending (o : EngOp) : Bool := o.st == .queued || o.st == .running
def EngOp.inFlight (o : EngOp) : Bool := o.st != .complete

/-- The Press queue, oldest first (spec/09 R229). -/
def Core.pressQueue (c : Core) : List EngOp := c.ops.filter fun o => o.kind.isPress && o.pending

/-- The segment that issued the operation has committed, and no report has gone back across it since whose rerun is not committed; a
follow-on run has none (spec/14 R320). -/
def Core.opCommitted (c : Core) (o : EngOp) : Bool :=
  c.uncommitted.all (fun d => d.id != o.seg) && c.again.all fun x => x.op != some o.ord

/-- A rerun ends: what the operation wrote stands. -/
def Core.rerun (c : Core) (o : EngOp) : Core :=
  { c with ops := c.ops.map fun p => if p.ord = o.ord then { p with st := .finished, redo := false } else p }

def Core.op? (c : Core) (seq : Nat) : Option EngOp := c.ops.find? fun o => o.seq == seq
def Core.mapOp (c : Core) (seq : Nat) (f : EngOp → EngOp) : Core :=
  { c with ops := c.ops.map fun o => if o.seq = seq then f o else o }

/-- The sequence number that the next operation takes (spec/09 R221). -/
def Core.nextSeq (c : Core) : Nat := if c.engSeq = 2 ^ 63 - 1 then 1 else c.engSeq + 1

/-- The number of a follow-on run, apart from the receiver's own; its low half is the Pour's (spec/14 R320). -/
def followKey (core seq : Nat) : Nat := 2 ^ 80 + core * 2 ^ 64 + seq

/-- The value of a stamp, bit 63 set after a failure (spec/14 R321, spec/09 R452). -/
def EngOp.stampValue (o : EngOp) : Nat := o.seq % 2 ^ 63 + (if o.failed then 2 ^ 63 else 0)

/-- A new operation of the open segment (spec/02 R31). -/
def Core.newOp (c : Core) (kind : EngKind) (seq : Nat) (stamp : Option Nat) (room : Nat) : EngOp :=
  { seq := seq, kind := kind, head := c.pc, seg := c.seg.id, ctx := c.act.ctx, lnch := c.act.lnch, tid := c.ctl.tid
    no := c.act.no, stamp := stamp, st := .queued, flags := 0, failed := false, ord := c.nord, doneAt := 0, row := 0
    room := room, mates := [], took := false, redo := false, g0 := none, pre := [], pushed := [] }

def Core.addOp (c : Core) (o : EngOp) : Core := { c with ops := c.ops ++ [o], nord := c.nord + 1 }

/-! ### The undo ring (spec/09 R224) -/

def PreWhat.size : PreWhat → Nat
  | .row _ _ bs _ => bs.length
  | .line .. => 64

/-- Bytes held, and bytes that operations in flight will still fill. -/
def Core.ringUsed (c : Core) : Nat := (c.ring.map fun p => p.what.size).sum + (c.ops.map (·.room)).sum

/-- An operation of the open segment holds space. -/
def Core.ringOpen (c : Core) : Bool :=
  c.ring.any (fun p => p.core == c.id && p.seg == c.seg.id) || c.ops.any fun o => o.seg == c.seg.id && o.room != 0

def needRing (c : Core) (n : Nat) : Res Unit :=
  if n = 0 ∨ c.ringUsed + n ≤ Config.ringCap then .ok ()
  else if Config.ringCap < n then trap c 0x207 0 3
  else if c.ringOpen then (if c.acmt then .error .phase else trap c 0x207 0 3)
  else wait .space

/-- A pre-image taken before its bytes are overwritten. -/
def Core.save (c : Core) (core seq seg ord : Nat) (w : PreWhat) : Core :=
  { c with ring := c.ring ++ [⟨core, seq, seg, ord, w, true, 0⟩] }

/-- The pre-image of n bytes at off of an accumulator row. -/
def Core.rowImage (c : Core) (r off n : Nat) : PreWhat :=
  .row r off (Mem.bytes c.acc (256 * r + off) n) ((quarters off n).filter fun q => c.accPoison.contains (4 * r + q))

/-- The pre-image of the bytes of line n that the mask names. -/
def Core.lineImage (c : Core) (n : Nat) (mask : W64) : PreWhat := .line n (Mem.line c.mem (64 * n)) mask (c.poison.contains n) []

/-! ### Range locks (spec/09 R223, spec/14 R295) -/

/-- A trap where a new range conflicts with a registered lock, or a wait for a table entry. -/
def needLock (s : State) (dst : Bool) (ranges : List (Nat × Nat)) : Res Unit := do
  match lockConflict s.me.locks dst ranges with
  | some z => trap s.me 0x205 (ofNat z) (((lockOn s.me.locks z 1).map Lock.kind).getD 0)
  | none => need s.lockFree (.wait .lock)

def Core.addLock (c : Core) (l : Lock) : Core := { c with locks := c.locks ++ [l] }

/-- An own ARRAY word that a stamp goes to: ALIGN, then RANGE. -/
def stampAlign (c : Core) (z : W64) : Res Unit := need (z.toNat % 8 = 0) (.trap (precise c 0x201 z 8 0))
def stampRange (c : Core) (z : W64) : Res Unit := need (c.ownArray z 8) (.trap (precise c 0x202 z 0 0))

/-- The stamp operand, read only where a stamp is wanted. -/
def readStamp (c : Core) (nstp : Bool) (e : Src) : Res (Option W64 × Core) :=
  if nstp then .ok (none, c) else (readS e c).map fun r => (some r.1, r.2)

/-- The stamp operand is freed where it was read. -/
def freeStamp (z : Option W64) (e : Src) (c : Core) : Core := if z.isSome then freeS e c else c

def stampChecks (f : Core → W64 → Res Unit) (c : Core) (z : Option W64) : Res Unit := z.elim (.ok ()) (f c)

/-! ### Completion (spec/09 R222) -/

/-- A published store of the machine to own memory; none while its line is held (spec/03 R70). -/
def Core.stampWrite (c : Core) (ctx : BitVec 8) (a v : Nat) : Option Core :=
  if c.held (a / 64) then none
  else some (c.publish ctx (a / 64) (lineAt (a % 64) 8 v) (byteMask (a % 64) 8))

/-- Flags ORed into an activation's control words, wherever the core keeps them. -/
def orFlags (no : Nat) (f : Fl) (a : Act) (k : Ctl) : Ctl :=
  if a.no = no then { k with flg := k.flg ||| f.setWidth 64 } else k

def Saved.orFlags (no : Nat) (f : Fl) (v : Saved) : Saved := { v with ctl := Machine.orFlags no f v.act v.ctl }
def Ckpt.orFlags (no : Nat) (f : Fl) (k : Ckpt) : Ckpt :=
  { k with ctl := if k.running then Machine.orFlags no f k.act k.ctl else k.ctl, frame := k.frame.map (·.orFlags no f) }

def Snap.orFlags (f : Fl) (n : Snap) : Snap := { n with ctl := { n.ctl with flg := n.ctl.flg ||| f.setWidth 64 } }

/-- The activation is running, stopped under a handler, or parked. -/
def Core.runs (c : Core) (no : Nat) : Bool :=
  (c.running && c.act.no == no) || c.frame.any (fun f => f.act.no == no) || c.parks.any fun p => p.saved.act.no == no

/-- The flags of a completed operation (spec/02 R31), in every checkpoint and every state that a reply may bring back too (R30). -/
def State.engFlags (s : State) (o : EngOp) : State :=
  let c := s.me
  if o.seg ≠ 0 ∧ c.runs o.no then
    { s with me := { c with
      ctl := if c.running then orFlags o.no o.flags c.act c.ctl else c.ctl
      frame := c.frame.map (·.orFlags o.no o.flags)
      parks := c.parks.map fun p => { p with saved := p.saved.orFlags o.no o.flags }
      reads := if c.running && c.act.no == o.no then c.reads.map fun r => { r with snap := r.snap.orFlags o.flags } else c.reads
      marks := if c.running && c.act.no == o.no then c.marks.map fun r => { r with snap := r.snap.orFlags o.flags } else c.marks
      past := c.past.map (·.orFlags o.no o.flags)
      confirmed := c.confirmed.orFlags o.no o.flags
      closing := c.closing.map fun g => { g with ckpt := g.ckpt.orFlags o.no o.flags } } }
  else
    let x := s.ctx o.ctx.toNat
    if o.flags = 0 then s else s.setCtx o.ctx.toNat (x.setW 10 (x.w 10 ||| o.flags.setWidth 64))

/-- The operation leaves the in-flight list; its pre-images are freed W later. -/
def State.opDone (s : State) (o : EngOp) : State :=
  let s := s.engFlags o
  let now := s.me.clk
  let k := s.cur
  let age := fun (c : Core) => { c with
    ring := c.ring.map fun p => if p.core = k ∧ p.seq = o.seq then { p with live := false, at_ := now } else p }
  let c := (age s.me).mapOp o.seq fun o => { o with st := .complete, doneAt := now, room := 0, took := true }
  let x := s.ctx o.ctx.toNat
  ({ s with me := c, others := s.others.map fun (x : Nat × Core) => (x.1, age x.2) }).setCtx o.ctx.toNat { x with last9 := s.el9 }

/-- Locks, then the stamp, then the list; the stamp waits while its line is held. A rerun only releases its locks. -/
def State.complete (s : State) (o : EngOp) : State :=
  let s := s.unlock s.cur (· == o.seq)
  if o.took then s.opDone { o with flags := 0 }
  else match o.stamp with
  | none => s.opDone o
  | some a => match s.me.stampWrite o.ctx a o.stampValue with
    | none => s
    | some c => ({ s with me := c }).opDone o

/-- The entry of a rank map that names a core of this package (spec/24 R442). -/
def State.entryOf (s : State) (core : Nat) : Nat := put s.pkgid.toNat 24 + put core 11

/-- Entries of the rank map that the core in focus has read for round k of a group id. -/
def Core.entriesFor (c : Core) (ctx : BitVec 8) (gid k : Nat) : List (Nat × Nat) :=
  c.ops.flatMap fun o => match o.kind with
    | .coll m j map => if o.ctx = ctx ∧ bits (m.toList.getD 2 0) 49 42 = gid ∧ j = k then map else []
    | _ => []

/-- A group is named by its id together with its rank map (spec/24 R442): the round is that of the core in focus where it knows the core, or an
entry that the core has read. -/
def State.isRound (s : State) (ctx : BitVec 8) (gid k : Nat) (r : CRound) : Bool :=
  r.ctx == ctx && r.gid == gid && r.round == k && r.known.any fun x => x.2 == s.entryOf s.cur || (s.me.entriesFor ctx gid k).contains x

/-- The round of a COLL, which stands at its combining point until that drops it (spec/24 R446). -/
def State.roundStands (s : State) (o : EngOp) : Bool :=
  match o.kind with
  | .coll m k _ => s.rounds.any (s.isRound o.ctx (bits (m.toList.getD 2 0) 49 42) k)
  | _ => false

def execEnginePreimageFree (core seq : Nat) (s : State) : Out := coreEvent core (fun s =>
  let now := s.me.clk
  let k := s.cur
  let gone := fun (o : EngOp) => decide (o.seq = seq) && o.st == .complete && decide (o.doneAt + Config.W ≤ now) && s.me.opCommitted o &&
    !s.roundStands o
  let old := fun (p : PreImage) => decide (p.core = k) && decide (p.seq = seq) && !p.live && decide (p.at_ + Config.W ≤ now)
  let strip := fun (c : Core) => { c with ring := c.ring.filter fun p => !old p }
  let c := strip s.me
  some { s with
    me := { c with ops := c.ops.filter fun o => !gone o }
    others := s.others.map fun (x : Nat × Core) => (x.1, strip x.2) }) s

/-! ### Poison and failures (spec/09 R452, R237) -/

/-- Closed segments that a rollback of segment id takes with it. -/
def Core.closedFrom (c : Core) (id : Nat) : Nat := (c.closing.filter fun g => decide (id ≤ g.d.id)).length

/-- UNCORR in the operation's issuing segment. -/
def State.opUncorr (s : State) (o : EngOp) (a kind : W64) : State :=
  s.takeBack (s.me.closedFrom o.seg) ⟨0x501, 2, o.head, a, kind, 0, s.me.clk, s.gt⟩

/-- The notice of an operation whose segment has committed. Word 1 holds the TID of the activation that issued it: R275 gives it as the stopped
activation's, or 0, and an engine operation has none that stopped. DESIGN CHOICE, log 66. -/
def State.opNotice (s : State) (o : EngOp) (a kind : W64) : State :=
  s.notice s.cur o.ctx (some o.lnch) 0x501 o.tid 0 a kind (ofNat (o.seq % 2 ^ 64))

end Sys2Proof.Machine
end

