-- ==== Sys2Proof/Machine/Int.lean ====
section
/-! DEFINITION. Integer instructions of the scalar unit (spec/05 R118 to R126). -/

namespace Sys2Proof.Machine

/-! ### The operations of row 0x1_, on narrowed operands (spec/05 R119) -/

/-- The shift count: the low bits of y, modulo the width. -/
def shiftOf (y : W64) (t : Ty) : Nat := patBits y t % t.width

def intDiv (x y : Int) (t : Ty) : Int :=
  if y = 0 then (if t.isSInt then -1 else 2 ^ t.width - 1) else Int.tdiv x y

def intRem (x y : Int) : Int := if y = 0 then x else Int.tmod x y

/-- The w-bit pattern rotated left. -/
def rotl (x w k : Nat) : Nat := (x * 2 ^ k % 2 ^ w) + x / 2 ^ (w - k)

def aluAdd (t : Ty) (x y : W64) : W64 := widen (narrow x t + narrow y t) t
def aluSub (t : Ty) (x y : W64) : W64 := widen (narrow x t - narrow y t) t
def aluMul (t : Ty) (x y : W64) : W64 := widen (narrow x t * narrow y t) t
def aluMulh (t : Ty) (x y : W64) : W64 := widen (narrow x t * narrow y t / 2 ^ t.width) t
def aluDivW (t : Ty) (x y : W64) : W64 := widen (intDiv (narrow x t) (narrow y t) t) t
def aluRemW (t : Ty) (x y : W64) : W64 := widen (intRem (narrow x t) (narrow y t)) t
def aluAnd (t : Ty) (x y : W64) : W64 := widen ((patBits x t &&& patBits y t : Nat)) t
def aluOr (t : Ty) (x y : W64) : W64 := widen ((patBits x t ||| patBits y t : Nat)) t
def aluXor (t : Ty) (x y : W64) : W64 := widen ((patBits x t ^^^ patBits y t : Nat)) t
def aluShl (t : Ty) (x y : W64) : W64 := widen ((patBits x t * 2 ^ shiftOf y t : Nat)) t
def aluShr (t : Ty) (x y : W64) : W64 := widen (narrow x t / 2 ^ shiftOf y t) t
def aluRot (t : Ty) (x y : W64) : W64 := widen ((rotl (patBits x t) t.width (shiftOf y t) : Nat)) t
def aluMin (t : Ty) (x y : W64) : W64 := widen (min (narrow x t) (narrow y t)) t
def aluMax (t : Ty) (x y : W64) : W64 := widen (max (narrow x t) (narrow y t)) t
def aluSlt (t : Ty) (x y : W64) : W64 := if narrow x t < narrow y t then 1 else 0

/-- A result within w/2 + 4 clk (spec/05 R120). -/
def longOp2 (d : BitVec 6) (a b : Src) (f : W64 → W64 → W64) (lat : Nat) (c : Core) : Res Core := do
  destS d c
  let (x, c) ← readS a c
  let (y, c) ← readS b c
  produce d (f x y) lat (freeS b (freeS a c))

def execAdd (d : BitVec 6) (a b : Src) (s : State) : Out := coreOp s (op2 d a b (aluAdd .i64))
def execAddAbcm (d : BitVec 6) (a b : Src) (t : Ty) (s : State) : Out := coreOp s (op2 d a b (aluAdd t))
def execSub (d : BitVec 6) (a b : Src) (s : State) : Out := coreOp s (op2 d a b (aluSub .i64))
def execSubAbcm (d : BitVec 6) (a b : Src) (t : Ty) (s : State) : Out := coreOp s (op2 d a b (aluSub t))
def execMul (d : BitVec 6) (a b : Src) (s : State) : Out := coreOp s (op2 d a b (aluMul .i64))
def execMulAbcm (d : BitVec 6) (a b : Src) (t : Ty) (s : State) : Out := coreOp s (op2 d a b (aluMul t))
def execMulh (d : BitVec 6) (a b : Src) (s : State) : Out := coreOp s (op2 d a b (aluMulh .i64))
def execMulhAbcm (d : BitVec 6) (a b : Src) (t : Ty) (s : State) : Out := coreOp s (op2 d a b (aluMulh t))
def execDiv (d : BitVec 6) (a b : Src) (s : State) : Out := coreOp s (longOp2 d a b (aluDivW .i64) 36)
def execDivAbcm (d : BitVec 6) (a b : Src) (t : Ty) (s : State) : Out :=
  coreOp s (longOp2 d a b (aluDivW t) (t.width / 2 + 4))
def execRem (d : BitVec 6) (a b : Src) (s : State) : Out := coreOp s (longOp2 d a b (aluRemW .i64) 36)
def execRemAbcm (d : BitVec 6) (a b : Src) (t : Ty) (s : State) : Out :=
  coreOp s (longOp2 d a b (aluRemW t) (t.width / 2 + 4))
def execAnd (d : BitVec 6) (a b : Src) (s : State) : Out := coreOp s (op2 d a b (aluAnd .i64))
def execAndAbcm (d : BitVec 6) (a b : Src) (t : Ty) (s : State) : Out := coreOp s (op2 d a b (aluAnd t))
def execOr (d : BitVec 6) (a b : Src) (s : State) : Out := coreOp s (op2 d a b (aluOr .i64))
def execOrAbcm (d : BitVec 6) (a b : Src) (t : Ty) (s : State) : Out := coreOp s (op2 d a b (aluOr t))
def execXor (d : BitVec 6) (a b : Src) (s : State) : Out := coreOp s (op2 d a b (aluXor .i64))
def execXorAbcm (d : BitVec 6) (a b : Src) (t : Ty) (s : State) : Out := coreOp s (op2 d a b (aluXor t))
def execShl (d : BitVec 6) (a b : Src) (s : State) : Out := coreOp s (op2 d a b (aluShl .i64))
def execShlAbcm (d : BitVec 6) (a b : Src) (t : Ty) (s : State) : Out := coreOp s (op2 d a b (aluShl t))
def execShr (d : BitVec 6) (a b : Src) (s : State) : Out := coreOp s (op2 d a b (aluShr .i64))
def execShrAbcm (d : BitVec 6) (a b : Src) (t : Ty) (s : State) : Out := coreOp s (op2 d a b (aluShr t))
def execRot (d : BitVec 6) (a b : Src) (s : State) : Out := coreOp s (op2 d a b (aluRot .i64))
def execRotAbcm (d : BitVec 6) (a b : Src) (t : Ty) (s : State) : Out := coreOp s (op2 d a b (aluRot t))
def execMin (d : BitVec 6) (a b : Src) (s : State) : Out := coreOp s (op2 d a b (aluMin .i64))
def execMinAbcm (d : BitVec 6) (a b : Src) (t : Ty) (s : State) : Out := coreOp s (op2 d a b (aluMin t))
def execMax (d : BitVec 6) (a b : Src) (s : State) : Out := coreOp s (op2 d a b (aluMax .i64))
def execMaxAbcm (d : BitVec 6) (a b : Src) (t : Ty) (s : State) : Out := coreOp s (op2 d a b (aluMax t))
def execSlt (d : BitVec 6) (a b : Src) (s : State) : Out := coreOp s (op2 d a b (aluSlt .i64))
def execSltAbcm (d : BitVec 6) (a b : Src) (t : Ty) (s : State) : Out := coreOp s (op2 d a b (aluSlt t))

/-- SEL moves all 64 bits of b or of c; all three sources are read. -/
def execSel (d : BitVec 6) (a b e : Src) (s : State) : Out := coreOp s (op3 d a b e fun x y z => if x != 0 then y else z)

/-! ### Immediates (spec/05 R121 to R123) -/

def execAddi (d : BitVec 6) (a : Src) (imm : BitVec 24) (s : State) : Out := coreOp s (op1 d a fun x => x + imm.signExtend 64)
def execAddiAbi32 (d : BitVec 6) (a : Src) (imm : BitVec 32) (s : State) : Out := coreOp s (op1 d a fun x => x + imm.signExtend 64)
def execAndi (d : BitVec 6) (a : Src) (imm : BitVec 24) (s : State) : Out := coreOp s (op1 d a fun x => x &&& imm.signExtend 64)
def execAndiAbi32 (d : BitVec 6) (a : Src) (imm : BitVec 32) (s : State) : Out := coreOp s (op1 d a fun x => x &&& imm.signExtend 64)
def execOri (d : BitVec 6) (a : Src) (imm : BitVec 24) (s : State) : Out := coreOp s (op1 d a fun x => x ||| imm.zeroExtend 64)
def execOriAbi32 (d : BitVec 6) (a : Src) (imm : BitVec 32) (s : State) : Out := coreOp s (op1 d a fun x => x ||| imm.zeroExtend 64)
def execXori (d : BitVec 6) (a : Src) (imm : BitVec 24) (s : State) : Out := coreOp s (op1 d a fun x => x ^^^ imm.zeroExtend 64)
def execXoriAbi32 (d : BitVec 6) (a : Src) (imm : BitVec 32) (s : State) : Out := coreOp s (op1 d a fun x => x ^^^ imm.zeroExtend 64)
def execMuli (d : BitVec 6) (a : Src) (imm : BitVec 24) (s : State) : Out := coreOp s (op1 d a fun x => x * imm.signExtend 64)
def execMuliAbi32 (d : BitVec 6) (a : Src) (imm : BitVec 32) (s : State) : Out := coreOp s (op1 d a fun x => x * imm.signExtend 64)

def execShli (d : BitVec 6) (a : Src) (k : BitVec 6) (t : Ty) (s : State) : Out :=
  coreOp s (op1 d a fun x => aluShl t x (k.setWidth 64))
def execShri (d : BitVec 6) (a : Src) (k : BitVec 6) (t : Ty) (s : State) : Out :=
  coreOp s (op1 d a fun x => aluShr t x (k.setWidth 64))

/-- d receives a value that no operand gives. -/
def op0 (d : BitVec 6) (x : W64) (c : Core) : Res Core := do
  destS d c
  writeS d x c

def execLi (d : BitVec 6) (imm : BitVec 32) (s : State) : Out := coreOp s (op0 d (imm.signExtend 64))
def execLiI48 (d : BitVec 6) (imm : BitVec 48) (s : State) : Out := coreOp s (op0 d (imm.signExtend 64))

/-! ### Bit operations (spec/05 R124, R125) -/

/-- Leading zeros of p in w bits. -/
def clzNat (w p : Nat) : Nat := if p = 0 then w else w - 1 - log2 p

/-- Trailing zeros, from bit k on. -/
def ctzGo (p : Nat) : Nat → Nat → Nat
  | 0, _ => 0
  | w + 1, k => if p.testBit k then 0 else 1 + ctzGo p w (k + 1)

def popcNat (p : Nat) : Nat → Nat
  | 0 => 0
  | w + 1 => popcNat p w + if p.testBit w then 1 else 0

def aluClz (t : Ty) (x : W64) : W64 := ofNat (clzNat t.width (patBits x t))
def aluCtz (t : Ty) (x : W64) : W64 := ofNat (ctzGo (patBits x t) t.width 0)
def aluPopc (t : Ty) (x : W64) : W64 := ofNat (popcNat (patBits x t) t.width)
def aluAbs (t : Ty) (x : W64) : W64 := widen ((narrow x t).natAbs : Nat) t

def execClz (d : BitVec 6) (a : Src) (s : State) : Out := coreOp s (op1 d a (aluClz .i64))
def execClzAbcm (d : BitVec 6) (a : Src) (t : Ty) (s : State) : Out := coreOp s (op1 d a (aluClz t))
def execCtz (d : BitVec 6) (a : Src) (s : State) : Out := coreOp s (op1 d a (aluCtz .i64))
def execCtzAbcm (d : BitVec 6) (a : Src) (t : Ty) (s : State) : Out := coreOp s (op1 d a (aluCtz t))
def execPopc (d : BitVec 6) (a : Src) (s : State) : Out := coreOp s (op1 d a (aluPopc .i64))
def execPopcAbcm (d : BitVec 6) (a : Src) (t : Ty) (s : State) : Out := coreOp s (op1 d a (aluPopc t))
def execAbs (d : BitVec 6) (a : Src) (s : State) : Out := coreOp s (op1 d a (aluAbs .i64))
def execAbsAbcm (d : BitVec 6) (a : Src) (t : Ty) (s : State) : Out := coreOp s (op1 d a (aluAbs t))

/-- The field of n bits at pos, sign- or zero-extended. -/
def extract (x : W64) (pos n : Nat) (uns : Bool) : W64 :=
  let f := (x.toNat >>> pos) % 2 ^ n
  if uns then ofNat f else BitVec.ofInt 64 (sext f n)

def execBfx (d : BitVec 6) (a : Src) (pos lenM1 : BitVec 6) (uns : Bool) (s : State) : Out :=
  coreOp s (op1 d a fun x => extract x pos.toNat (lenM1.toNat + 1) uns)

/-- The field of n bits at pos replaced by the low bits of f. -/
def insertField (x f : W64) (pos n : Nat) : W64 :=
  ofNat (x.toNat - ((x.toNat >>> pos) % 2 ^ n) * 2 ^ pos + f.toNat % 2 ^ n * 2 ^ pos)

def execBfi (d : BitVec 6) (a b : Src) (pos lenM1 : BitVec 6) (s : State) : Out :=
  coreOp s (op2 d a b fun x f => insertField x f pos.toNat (lenM1.toNat + 1))

/-! ### Work identifiers (spec/05 R126) -/

/-- Width of level j in WLAY of the running launch's record (spec/17 R363). -/
def State.level (s : State) (j : Nat) : Nat :=
  match s.launch? s.me.act.ctx s.me.act.lnch with
  | none => 0
  | some l => bits (l.record.toList.getD 0 0) (6 * j + 5) (6 * j)

def State.levelAt (s : State) (j : Nat) : Nat := ((List.range j).map s.level).sum

def execWfld (d : BitVec 6) (a : Src) (level : BitVec 3) (s : State) : Out :=
  coreOp s (op1 d a fun x => ofNat ((x.toNat >>> s.levelAt level.toNat) % 2 ^ s.level level.toNat))

end Sys2Proof.Machine
end

