-- ==== Sys2Proof/Machine/Float.lean ====
section
/-! DEFINITION. Scalar floating point (spec/05 R127 to R135). -/

namespace Sys2Proof.Machine

/-! ### Shapes: operands, flags or their trap, result (spec/05 R128) -/

def fop1 (d : BitVec 6) (a : Src) (f : Nat → Nat × Fl) (c : Core) : Res Core := do
  destS d c
  let (x, c) ← readS a c
  let r := f x.toNat
  let c ← c.raiseFlags r.2
  writeS d (ofNat r.1) (freeS a c)

def fop2 (d : BitVec 6) (a b : Src) (f : Nat → Nat → Nat × Fl) (c : Core) : Res Core := do
  destS d c
  let (x, c) ← readS a c
  let (y, c) ← readS b c
  let r := f x.toNat y.toNat
  let c ← c.raiseFlags r.2
  writeS d (ofNat r.1) (freeS b (freeS a c))

def fop3 (d : BitVec 6) (a b e : Src) (f : Nat → Nat → Nat → Nat × Fl) (c : Core) : Res Core := do
  destS d c
  let (x, c) ← readS a c
  let (y, c) ← readS b c
  let (z, c) ← readS e c
  let r := f x.toNat y.toNat z.toNat
  let c ← c.raiseFlags r.2
  writeS d (ofNat r.1) (freeS e (freeS b (freeS a c)))

/-- The clk within which FDIV and FSQRT deliver. -/
def divLat : Ty → Nat
  | .f64 => 24
  | .f32 => 14
  | _ => 10

def sqrtLat : Ty → Nat
  | .f64 => 28
  | .f32 => 16
  | _ => 10

def execFadd (d : BitVec 6) (a b : Src) (rm : Rnd) (t : Ty) (s : State) : Out := coreOp s (fop2 d a b (fadd t rm))
def execFsub (d : BitVec 6) (a b : Src) (rm : Rnd) (t : Ty) (s : State) : Out := coreOp s (fop2 d a b (fsub t rm))
def execFmul (d : BitVec 6) (a b : Src) (rm : Rnd) (t : Ty) (s : State) : Out := coreOp s (fop2 d a b (fmul t rm))
def execFfma (d : BitVec 6) (a b e : Src) (rm : Rnd) (t : Ty) (s : State) : Out := coreOp s (fop3 d a b e (ffma t rm))

def execFdiv (d : BitVec 6) (a b : Src) (rm : Rnd) (t : Ty) (s : State) : Out := coreOp s fun c => do
  destS d c
  let (x, c) ← readS a c
  let (y, c) ← readS b c
  let r := fdiv t rm x.toNat y.toNat
  let c ← c.raiseFlags r.2
  produce d (ofNat r.1) (divLat t) (freeS b (freeS a c))

def execFsqrt (d : BitVec 6) (a : Src) (rm : Rnd) (t : Ty) (s : State) : Out := coreOp s fun c => do
  destS d c
  let (x, c) ← readS a c
  let r := fsqrt t rm x.toNat
  let c ← c.raiseFlags r.2
  produce d (ofNat r.1) (sqrtLat t) (freeS a c)

def execFmin (d : BitVec 6) (a b : Src) (t : Ty) (s : State) : Out := coreOp s (fop2 d a b (fminmax t false))
def execFmax (d : BitVec 6) (a b : Src) (t : Ty) (s : State) : Out := coreOp s (fop2 d a b (fminmax t true))

def execFcmp (d : BitVec 6) (a b : Src) (p : Pred) (t : Ty) (s : State) : Out :=
  coreOp s (fop2 d a b fun x y => let r := fcmp t p x y; (if r.1 then 1 else 0, r.2))

/-- A conversion's result as a register holds it: Widen for integers, zero-extended otherwise (spec/05 R133, R107). -/
def resultBits (t : Ty) (r : Nat) : Nat :=
  if t == .i4 then (BitVec.ofInt 64 (sext r 4)).toNat else if t.isInt then (widen (r : Int) t).toNat else r

def execFcvt (d : BitVec 6) (a : Src) (src : Ty) (rm : Rnd) (sat : Bool) (t : Ty) (s : State) : Out :=
  coreOp s (fop1 d a fun x => let r := convert x src t rm sat; (resultBits t r.1, r.2))

def execFclass (d : BitVec 6) (a : Src) (t : Ty) (s : State) : Out := coreOp s (op1 d a fun x => ofNat (fclass t x.toNat))

def execFsgn (d : BitVec 6) (a b : Src) (op : SgnOp) (t : Ty) (s : State) : Out :=
  coreOp s (op2 d a b fun x y => ofNat (fsgn t op x.toNat y.toNat))

def execFrnd (d : BitVec 6) (a : Src) (x : Bool) (rm : Rnd) (t : Ty) (s : State) : Out := coreOp s (fop1 d a (frnd t rm x))

end Sys2Proof.Machine
end

