-- ==== Sys2Proof/Machine/Weak.lean ====
section
/-! DEFINITION. Weak accesses: LD, ST, LDV, STV, GATH, SCAT (spec/05 R136 to R140, spec/06 R153, R154, spec/08 R199 to R201). -/

namespace Sys2Proof.Machine

/-! ### Lines of a home -/

/-- The line of a home, and the byte within it. -/
def Home.lineOf : Home → Home × Nat
  | .local k off => (.local k (off / 64 * 64), off % 64)
  | .dev pa => (.dev (pa / 64 * 64), pa % 64)
  | .host pa => (.host (pa / 64 * 64), pa % 64)
  | .farCore p k off => (.farCore p k (off / 64 * 64), off % 64)
  | .farDev pa => (.farDev (pa / 64 * 64), pa % 64)

/-- The tag that an access carries: none for the window and for host memory (spec/17 R349). -/
def tagFor (h : Home) (e : W64) : BitVec 4 :=
  match h with
  | .dev _ | .farDev _ => e.extractLsb' 56 4
  | _ => 0

def Core.cachedLine (c : Core) (h : Home) : Option Line := (c.rcache.find? fun x => x.1 == h).map (·.2)

/-- The line is being read. -/
def Core.awaited (c : Core) (h : Home) : Bool := c.reads.any fun r => r.need.contains h

/-- The value of a remote weak read once its lines are in the read cache (spec/06 R153). -/
def Core.readValue (c : Core) (w : ReadWhat) : Line :=
  let get := fun (h : Home) => c.overlay h ((c.cachedLine h).getD 0)
  match w with
  | .ld _ ty h off => (extend (lineNat (get h) off (ty.width / 8)) ty).setWidth 512
  | .ldv _ h base mask => mergeLine base (get h) mask
  | .gath _ ty lanes base =>
    let n := ty.width / 8
    lanes.foldl (fun l x => mergeLine l (lineAt (x.1 * n) n (lineNat (get x.2.1) x.2.2 n)) (byteMask (x.1 * n) n)) base
  | .fill _ => 0

/-- The write of the register that a remote weak read names. -/
def Core.writeRead (c : Core) (w : ReadWhat) : Res Core :=
  match w with
  | .ld d .. => writeS (BitVec.ofNat 6 d) ((c.readValue w).setWidth 64) c
  | .ldv d .. | .gath d .. => writeV (BitVec.ofNat 5 d) (c.readValue w) c
  | .fill _ => .ok c

/-- The delivery of a remote weak read: its register is no stream. -/
def Core.deliverRead (c : Core) (w : ReadWhat) : Core :=
  match c.writeRead w with
  | .ok c => c
  | .error _ => c

def Core.markEmptyRead (c : Core) (w : ReadWhat) : Core :=
  match w with
  | .ld d .. => c.markEmpty (BitVec.ofNat 6 d)
  | .ldv d .. | .gath d .. => c.setV (BitVec.ofNat 5 d) .empty
  | .fill _ => c

/-- The destination is an output stream: the push is made when the instruction retires, so the head waits for its lines (spec/14 R308,
R309). -/
def Core.readBound (c : Core) (w : ReadWhat) : Bool :=
  match w with
  | .ld d .. => (c.stream? (scode (BitVec.ofNat 6 d))).isSome
  | .ldv d .. | .gath d .. => (c.stream? d).isSome
  | .fill _ => false

/-- The lanes of a gather, with the line of each. -/
def ReadWhat.lanes : ReadWhat → List (Nat × Home × Nat)
  | .gath _ _ lanes _ => lanes
  | .fill lanes => lanes
  | _ => []

/-- Requests of read `id` leave, in order, while permits towards their homes are free; those that stay (spec/17 R343). -/
def sendReads (id : Nat) : List (Home × W64) → State → List (Home × W64) × State
  | [], s => ([], s)
  | h :: hs, s =>
    if s.permit h.1.target then sendReads id hs (s.send h.1.target (.request id 0 (.read h.1 (tagFor h.1 h.2)))) else (h :: hs, s)

/-- Requests of the reads in flight that wait for a permit leave; whether none waits any longer. -/
def State.sendUnsent (s : State) : Bool × State :=
  match s.me.reads.find? fun r => !r.unsent.isEmpty with
  | none => (true, s)
  | some r =>
    let x := sendReads r.id r.unsent s
    (x.1.isEmpty, { x.2 with me := { x.2.me with reads := x.2.me.reads.map fun q => if q.id = r.id then { q with unsent := x.1 } else q } })

/-- A remote weak read of the lines hs, with the addresses that name them, from the core `c` whose operands are freed
(spec/05 R138, R139). A line that an earlier read has asked for is not asked for again: its one reply serves both, where spec/06 R155
lets a later read be served on its own. DESIGN CHOICE, log 66. -/
def remoteRead (s : State) (c : Core) (w : ReadWhat) (hs : List (Home × W64)) : Res State := do
  let miss : List (Home × W64) := (hs.filter fun h => (c.cachedLine h.1).isNone).foldl (fun l h => if l.any (fun x => x.1 == h.1) then l else l ++ [h]) []
  if miss.isEmpty then (c.writeRead w).map fun c => ({ s with me := c.retire } : State).filled (hs.map (·.2))
  else
    let bound := c.readBound w
    let new := miss.filter fun h => !c.awaited h.1
    let pending := (c.reads.flatMap (·.need)).foldl (fun l h => if (c.cachedLine h).isSome || l.contains h then l else h :: l) []
    (if c.rcache.length + pending.length + new.length ≤ Config.readCap then .ok ()
      else if c.acmt then .error .phase else trap c 0x207 0 2)
    need ((new.head?.map fun h => s.permit h.1.target).getD true) (.wait .permit)
    let fill := fun (s : State) => s.filled (hs.map (·.2))
    let id := c.nord
    let r : RRead := ⟨id, c.pc, hs, if bound then .fill w.lanes else w, hs.map (·.1), new, ⟨s.me.regs, s.me.ctl, s.me.streams, s.me.pend⟩⟩
    if bound then
      need (!new.isEmpty) (.wait .reads)
      .ok (State.sendUnsent (fill { s with me := { s.me with nord := id + 1, reads := c.reads ++ [r], wait := some .reads } })).2
    else .ok (State.sendUnsent (fill { s with me := { (c.markEmptyRead w) with nord := id + 1, reads := c.reads ++ [r] }.retire })).2

/-! ### Addresses -/

/-- The traps that an address raises before its access, with word 7 of the record. -/
def addrTrap {α : Type} (c : Core) (cause : Nat) (e w6 w7 : W64) : Res α := trap c cause e w6 w7

/-- A place that a weak access reaches: own bytes, the raw storage of a structure bank, or a home. -/
inductive Reach where
  | own (off : Nat)
  | raw (off : Nat)
  | home (h : Home)
deriving DecidableEq, Repr

/-- The rows of spec/05 R137 for an access that no structure operation serves. -/
def reach (s : State) (e : W64) (n : Nat) (write : Bool) (w7 : W64) : Res Reach :=
  let c := s.me
  if e.toNat % n ≠ 0 then addrTrap c 0x201 e (ofNat n) w7
  else match s.place e with
    | .own off => .ok (.own off)
    | .window .. => addrTrap c 0x206 e 0 w7
    | .raw off =>
      if c.isArray (off / 65536) then .ok (.own off)
      else if write then addrTrap c 0x202 e 0 w7 else .ok (.raw off)
    | .core k off => .ok (.home (.local k off))
    | .far p k off => .ok (.home (.farCore p k off))
    | .none => addrTrap c 0x202 e 0 w7
    | .virt => match s.pa e write with
      | .ok pa => .ok (.home (s.home pa))
      | .error w => .error (s.unmapped e w7 w)

/-- n own bytes as the core reads them (spec/05 R140, spec/07 R162, R163). -/
def ownRead (c : Core) (e : W64) (off n : Nat) : Res (Nat × Core) := do
  notLocked c e off n
  let c := c.claimAll c.act.ctx off n
  notPoisoned c (linesOf off n)
  .ok (Mem.nat c.mem off n, c)

/-- n bytes of the raw storage of a structure bank (spec/07 R174). -/
def rawRead (c : Core) (e : W64) (off n : Nat) : Res (Nat × Core) := do
  let b := off / 65536
  notLocked c e off n
  let c := c.claimAll c.act.ctx off n
  notPoisoned c (linesOf off n)
  .ok (natOf (c.rawBytes b (off % 65536) n), c)

/-! ### LD and ST -/

/-- A structure operation by LD or ST: strong and revocable (spec/07 R167). -/
def weakWin (s : State) (e : W64) (b off : Nat) (op : WordOp) (d : BitVec 6) (c : Core) : Res State := do
  readsDone s.me
  (if (s.me.bank b).pairs? false off && (match op with | .lds _ => true | _ => false) then destS (d + 1) s.me else .ok ())
  let (c, v, v1) ← ownWin e b off op (d.getLsbD 0) c
  let c ← writeS d v c
  let c ← (match v1 with | some x => writeS (d + 1) x c | none => .ok c)
  .ok { s with me := c.served1 }

def execLd (d : BitVec 6) (a : Src) (t : Ty) (off : BitVec 32) (s : State) : Out := finish s do
  let c := s.me
  destS d c
  let (x, c1) ← readS a c
  let e := x + off.signExtend 64
  let c2 := freeS a c1
  let n := t.width / 8
  need (e.toNat % n = 0) (.trap (precise c 0x201 e (ofNat n) 0))
  match s.place e with
  | .window b o => weakWin s e b o (.lds t) d c2
  | _ => match ← reach s e n false 0 with
    | .own o => do
      let (v, c3) ← ownRead c2 e o n
      let c4 ← writeS d (extend v t) c3
      .ok { s with me := c4.retire }
    | .raw o => do
      let (v, c3) ← rawRead c2 e o n
      let c4 ← writeS d (extend v t) c3
      .ok { s with me := c4.retire }
    | .home h => remoteRead s c2 (.ld d.toNat t h.lineOf.1 h.lineOf.2) [(h.lineOf.1, e)]

/-- The address of the line that holds address e. -/
def lineAddr (e : W64) : W64 := ofNat (64 * (e.toNat / 64))

/-- A remote store of part of a line (spec/03 R64). -/
def remoteStore (c : Core) (h : Home) (e : W64) (data : Line) (mask : W64) : Res Core := do
  let tag := tagFor h e
  needOut c (if (c.outLine? h tag).isNone then 1 else 0)
  .ok (c.outStore h data mask tag (lineAddr e))

def execSt (t : Ty) (a b : Src) (off : BitVec 32) (s : State) : Out := finish s do
  let c := s.me
  readsDone c
  let (x, c1) ← readS a c
  let (y, c2) ← readS b c1
  let e := x + off.signExtend 64
  let c3 := freeS b (freeS a c2)
  let n := t.width / 8
  need (e.toNat % n = 0) (.trap (precise c 0x201 e (ofNat n) 0))
  match s.place e with
  | .window k o => do
    let (op, c4) ← buildPair a b (fun c k o => (c.bank k).pairs? true o) (fun y z odd => .sts t y z odd) (.window k o) c1
    weakWin s e k o op 0 c4
  | _ => match ← reach s e n true 0 with
    | .own o => do
      let c4 ← c3.ownStore o (bytesOf y.toNat n)
      .ok { s with me := c4.retire }
    | .raw _ => trap c 0x202 e
    | .home h => do
      let c4 ← remoteStore c3 h.lineOf.1 e (lineAt h.lineOf.2 n y.toNat) (byteMask h.lineOf.2 n)
      .ok (({ s with me := c4.retire } : State).fillFor e)

/-! ### Masks and the old contents of d (spec/08 R193 to R195) -/

/-- The active lanes of n: bit i for lane i. -/
def activeLanes (mk : VMask) (n : Nat) (c : Core) : Res (Nat × Core) :=
  if !mk.men then .ok (2 ^ n - 1, c)
  else do
    let (m, c) ← readM (plainM mk.mreg) c
    .ok ((if mk.minv then (2 ^ n - 1) ^^^ (m.toNat % 2 ^ n) else m.toNat % 2 ^ n), c)

/-- The lanes of d that keep their value: the implicit source of a merge; zero where d is vacant or bound. -/
def oldV (d : BitVec 5) (c : Core) : Res Line :=
  if (c.stream? d.toNat).isSome then .ok 0
  else match c.regs.getV d with
    | .full x => .ok x
    | .vacant => .ok 0
    | .empty => wait .dest

/-- What inactive lanes receive. -/
def baseV (d : BitVec 5) (mk : VMask) (c : Core) : Res Line := if mk.mz then .ok 0 else oldV d c

/-- The byte mask of the active lanes of w bytes each. -/
def laneBytes (act n w : Nat) : W64 :=
  (List.range n).foldl (fun m i => if act.testBit i then m ||| byteMask (i * w) w else m) 0

/-! ### LDV and STV -/

def execLdv (d : BitVec 5) (a : Src) (t : Ty) (off : BitVec 24) (mk : VMask) (s : State) : Out := finish s do
  let c := s.me
  destV d c
  let (x, c1) ← readS a c
  let (act, c1) ← activeLanes mk t.lanes c1
  let base ← baseV d mk c
  let e := x + off.signExtend 64
  let c2 := freeS a c1
  let mask := laneBytes act t.lanes (t.width / 8)
  let put := fun (v : Nat) (c : Core) => (writeV d (mergeLine base (BitVec.ofNat 512 v) mask) c).map fun c => { s with me := c.retire }
  match ← reach s e 64 false 0 with
  | .own o => do
    let (v, c3) ← ownRead c2 e o 64
    put v c3
  | .raw o => do
    let (v, c3) ← rawRead c2 e o 64
    put v c3
  | .home h => remoteRead s c2 (.ldv d.toNat h base mask) [(h, e)]

/-- A weak store of part of an own line; a locked line is not written and counts as refused (spec/05 R140). The bytes that it writes decide whether
a lock covers it. DESIGN CHOICE, log 66. -/
def ownStoreMask (c : Core) (off : Nat) (data : Line) (mask : W64) : Res Core :=
  if mask = BitVec.allOnes 64 then c.ownStore off (lineBytes data)
  else do
    needLines c [off / 64]
    match (List.range 64).findSome? fun k => if mask.getLsbD k then lockOn c.locks (off + k) 1 else none with
    | some l => .ok { c with seg := { c.seg with bad := some (c.seg.bad.getD ⟨0x205, 1, 0, ofNat off, l.kind, 0, 0, 0⟩) } }
    | none =>
      let c := (c.claimAll c.act.ctx off 64).logLine (off / 64)
      .ok { c with mem := Mem.put c.mem off (lineBytes (mergeLine (Mem.line c.mem off) data mask)) }

def execStv (t : Ty) (a : Src) (b : VSrc) (off : BitVec 24) (mk : VMask) (s : State) : Out := finish s do
  let c := s.me
  readsDone c
  let (x, c1) ← readS a c
  let (y, c1) ← readV b c1
  let (act, c1) ← activeLanes mk t.lanes c1
  let e := x + off.signExtend 64
  let c2 := freeV b (freeS a c1)
  let mask := laneBytes act t.lanes (t.width / 8)
  let r ← reach s e 64 true 0
  if act = 0 then .ok { s with me := c2.retire }
  else match r with
  | .own o => do
    let c3 ← ownStoreMask c2 o y mask
    .ok { s with me := c3.retire }
  | .raw _ => trap c 0x202 e
  | .home h => do
    let c3 ← remoteStore c2 h e y mask
    .ok (({ s with me := c3.retire } : State).fillFor e)

/-! ### GATH and SCAT -/

/-- The address of lane i (spec/08 R201). -/
def laneAddr (base : W64) (idx : Line) (w i : Nat) : W64 :=
  base + BitVec.ofInt 64 (sext (lineNat idx (i * w) w) (8 * w) * w)

/-- Word 7 of a lane's trap. -/
def laneWord (i : Nat) : W64 := ofNat (2 ^ 63 + i)

/-- Every active lane's place, checked in ascending order. -/
def reachLanes (s : State) (base : W64) (idx : Line) (w act : Nat) (write : Bool) : List Nat → Res (List (Nat × W64 × Reach))
  | [] => .ok []
  | i :: is =>
    if act.testBit i then do
      let e := laneAddr base idx w i
      let r ← reach s e w write (laneWord i)
      (match r with
        | .own o => if write then .ok () else notLocked s.me e o w
        | .raw o => notLocked s.me e o w
        | _ => .ok ())
      let l ← reachLanes s base idx w act write is
      .ok ((i, e, r) :: l)
    else reachLanes s base idx w act write is

/-- The own lanes of a gather laid over the lanes that it does not read. -/
def gatherOwn (w : Nat) : List (Nat × W64 × Reach) → Line → Core → Res (Line × Core)
  | [], l, c => .ok (l, c)
  | (i, e, r) :: xs, l, c => do
    let (l, c) ← (match r with
      | .own o => (ownRead c e o w).map fun v => (mergeLine l (lineAt (i * w) w v.1) (byteMask (i * w) w), v.2)
      | .raw o => (rawRead c e o w).map fun v => (mergeLine l (lineAt (i * w) w v.1) (byteMask (i * w) w), v.2)
      | .home _ => .ok (l, c))
    gatherOwn w xs l c

def gather (d : BitVec 5) (a : Src) (b : VSrc) (t : Ty) (mk : VMask) (s : State) : Out := finish s do
  let c := s.me
  destV d c
  let (x, c1) ← readS a c
  let (idx, c1) ← readV b c1
  let (act, c1) ← activeLanes mk t.lanes c1
  let old ← baseV d mk c
  let w := t.width / 8
  let ls ← reachLanes s x idx w act false (List.range t.lanes)
  let (own, c2) ← gatherOwn w ls old (freeV b (freeS a c1))
  let far := ls.filterMap fun y => match y.2.2 with | .home h => some (y.1, h, y.2.1) | _ => none
  if far.isEmpty then (writeV d own c2).map fun c => { s with me := c.retire }
  else
    remoteRead s c2 (.gath d.toNat t (far.map fun y => (y.1, y.2.1.lineOf)) own) (far.map fun y => (y.2.1.lineOf.1, y.2.2))

def execGath (d : BitVec 5) (a : Src) (b : VSrc) (t : Ty) (s : State) : Out := gather d a b t VMask.all s
def execGathVx (d : BitVec 5) (a : Src) (b : VSrc) (t : Ty) (mk : VMask) (s : State) : Out := gather d a b t mk s

/-- The lanes stored in ascending order, so that the higher one wins. -/
def scatterLanes (w : Nat) (y : Line) : List (Nat × W64 × Reach) → Core → Res Core
  | [], c => .ok c
  | (i, e, r) :: xs, c => do
    let v := lineNat y (i * w) w
    let c ← (match r with
      | .own o => c.ownStore o (bytesOf v w)
      | .raw _ => .ok c
      | .home h => .ok (c.outStore h.lineOf.1 (lineAt h.lineOf.2 w v) (byteMask h.lineOf.2 w) (tagFor h e) (lineAddr e)))
    scatterLanes w y xs c

def scatter (a : Src) (b v : VSrc) (t : Ty) (mk : VMask) (s : State) : Out := finish s do
  let c := s.me
  readsDone c
  let (x, c1) ← readS a c
  let (idx, c1) ← readV b c1
  let (y, c1) ← readV v c1
  let (act, c1) ← activeLanes mk t.lanes c1
  let w := t.width / 8
  let ls ← reachLanes s x idx w act true (List.range t.lanes)
  needLines c (ls.filterMap fun z => match z.2.2 with | .own o => some (o / 64) | _ => none)
  let new := (ls.filterMap fun z => match z.2.2 with | .home h => some (h.lineOf.1, tagFor h z.2.1) | _ => none).foldl
    (fun l h => if (c.outLine? h.1 h.2).isSome || l.contains h then l else h :: l) []
  needOut c new.length
  let c2 ← scatterLanes w y ls (freeV v (freeV b (freeS a c1)))
  .ok (({ s with me := c2.retire } : State).filled (ls.map (·.2.1)))

def execScat (a : Src) (b c : VSrc) (t : Ty) (s : State) : Out := scatter a b c t VMask.all s
def execScatVx (a : Src) (b c : VSrc) (t : Ty) (mk : VMask) (s : State) : Out := scatter a b c t mk s

end Sys2Proof.Machine
end

