-- ==== Sys2Proof/Machine/Vector.lean ====
section
/-! DEFINITION. The vector unit: lanes, masks, element-wise arithmetic, movement, reductions, scans (spec/08 R192 to R210). -/

namespace Sys2Proof.Machine

/-! ### Lanes and packed elements, by width in bits (spec/08 R192, R212) -/

def laneAt (l : Line) (w i : Nat) : Nat := (l.toNat >>> (w * i)) % 2 ^ w

def setLane (l : Line) (w i v : Nat) : Line :=
  BitVec.ofNat 512 (l.toNat - laneAt l w i * 2 ^ (w * i) + v % 2 ^ w * 2 ^ (w * i))

def setLanes (l : Line) (w : Nat) (xs : List (Nat × Nat)) : Line := xs.foldl (fun l x => setLane l w x.1 x.2) l

def lanesOf (l : Line) (t : Ty) : List Nat := (List.range t.lanes).map fun i => laneAt l t.width i

/-- The numbers of the active lanes. -/
def actives (act n : Nat) : List Nat := (List.range n).filter fun i => act.testBit i

/-- The flags of a vector instruction, by lane: ORed into FLG, or trapped with the lanes that raised them (spec/08 R196). -/
def Core.vecFlags (c : Core) (fs : List (Nat × Fl)) : Res Core :=
  let f := fs.foldl (fun f x => f ||| x.2) 0
  let lanes := fs.foldl (fun m x => if enabled c.ctl.mode x.2 = 0 then m else m ||| (1#64 <<< x.1)) (0 : W64)
  c.raiseFlags f lanes

/-- Values for the active lanes of d, the others by MZ: d is read before the operands are freed (spec/08 R195). -/
def finishV (d : BitVec 5) (mk : VMask) (t : Ty) (rs : List (Nat × Nat × Fl)) (free : Core → Core) (c : Core) : Res Core := do
  let base ← baseV d mk c
  let base := if mk.men then base else 0
  let c ← (free c).vecFlags (rs.map fun r => (r.1, r.2.2))
  writeV d (setLanes base t.width (rs.map fun r => (r.1, r.2.1))) c

/-! ### Shapes: d ← f of one, two or three v sources, lane by lane -/

def vop1 (d : BitVec 5) (a : VSrc) (t : Ty) (mk : VMask) (f : Nat → Nat × Fl) (c : Core) : Res Core := do
  destV d c
  let (x, c) ← readV a c
  let (act, c) ← activeLanes mk t.lanes c
  finishV d mk t ((actives act t.lanes).map fun i => (i, f (laneAt x t.width i))) (fun c => freeV a c) c

def vop2 (d : BitVec 5) (a b : VSrc) (t : Ty) (mk : VMask) (f : Nat → Nat → Nat × Fl) (c : Core) : Res Core := do
  destV d c
  let (x, c) ← readV a c
  let (y, c) ← readV b c
  let (act, c) ← activeLanes mk t.lanes c
  finishV d mk t ((actives act t.lanes).map fun i => (i, f (laneAt x t.width i) (laneAt y t.width i))) (fun c => freeV b (freeV a c)) c

def vop3 (d : BitVec 5) (a b e : VSrc) (t : Ty) (mk : VMask) (f : Nat → Nat → Nat → Nat × Fl) (c : Core) : Res Core := do
  destV d c
  let (x, c) ← readV a c
  let (y, c) ← readV b c
  let (z, c) ← readV e c
  let (act, c) ← activeLanes mk t.lanes c
  finishV d mk t ((actives act t.lanes).map fun i => (i, f (laneAt x t.width i) (laneAt y t.width i) (laneAt z t.width i)))
    (fun c => freeV e (freeV b (freeV a c))) c

/-! ### Floating point, element by element (spec/08 R202) -/

def execVadd (d : BitVec 5) (a b : VSrc) (rm : Rnd) (t : Ty) (s : State) : Out := coreOp s (vop2 d a b t .all (fadd t rm))
def execVaddVx (d : BitVec 5) (a b : VSrc) (rm : Rnd) (t : Ty) (mk : VMask) (s : State) : Out := coreOp s (vop2 d a b t mk (fadd t rm))
def execVsub (d : BitVec 5) (a b : VSrc) (rm : Rnd) (t : Ty) (s : State) : Out := coreOp s (vop2 d a b t .all (fsub t rm))
def execVsubVx (d : BitVec 5) (a b : VSrc) (rm : Rnd) (t : Ty) (mk : VMask) (s : State) : Out := coreOp s (vop2 d a b t mk (fsub t rm))
def execVmul (d : BitVec 5) (a b : VSrc) (rm : Rnd) (t : Ty) (s : State) : Out := coreOp s (vop2 d a b t .all (fmul t rm))
def execVmulVx (d : BitVec 5) (a b : VSrc) (rm : Rnd) (t : Ty) (mk : VMask) (s : State) : Out := coreOp s (vop2 d a b t mk (fmul t rm))
def execVfma (d : BitVec 5) (a b c : VSrc) (rm : Rnd) (t : Ty) (s : State) : Out := coreOp s (vop3 d a b c t .all (ffma t rm))
def execVfmaVx (d : BitVec 5) (a b c : VSrc) (rm : Rnd) (t : Ty) (mk : VMask) (s : State) : Out := coreOp s (vop3 d a b c t mk (ffma t rm))
def execVdiv (d : BitVec 5) (a b : VSrc) (rm : Rnd) (t : Ty) (s : State) : Out := coreOp s (vop2 d a b t .all (fdiv t rm))
def execVdivVx (d : BitVec 5) (a b : VSrc) (rm : Rnd) (t : Ty) (mk : VMask) (s : State) : Out := coreOp s (vop2 d a b t mk (fdiv t rm))
def execVsqrt (d : BitVec 5) (a : VSrc) (rm : Rnd) (t : Ty) (s : State) : Out := coreOp s (vop1 d a t .all (fsqrt t rm))
def execVsqrtVx (d : BitVec 5) (a : VSrc) (rm : Rnd) (t : Ty) (mk : VMask) (s : State) : Out := coreOp s (vop1 d a t mk (fsqrt t rm))
def execVmin (d : BitVec 5) (a b : VSrc) (t : Ty) (s : State) : Out := coreOp s (vop2 d a b t .all (fminmax t false))
def execVminVx (d : BitVec 5) (a b : VSrc) (t : Ty) (mk : VMask) (s : State) : Out := coreOp s (vop2 d a b t mk (fminmax t false))
def execVmax (d : BitVec 5) (a b : VSrc) (t : Ty) (s : State) : Out := coreOp s (vop2 d a b t .all (fminmax t true))
def execVmaxVx (d : BitVec 5) (a b : VSrc) (t : Ty) (mk : VMask) (s : State) : Out := coreOp s (vop2 d a b t mk (fminmax t true))

/-- VSGN; the abs form has no second source. -/
def vsgn (d : BitVec 5) (a b : VSrc) (op : SgnOp) (t : Ty) (mk : VMask) : Core → Res Core :=
  if op = .abs then vop1 d a t mk fun x => (fsgn t op x 0, 0) else vop2 d a b t mk fun x y => (fsgn t op x y, 0)

def execVsgn (d : BitVec 5) (a b : VSrc) (op : SgnOp) (t : Ty) (s : State) : Out := coreOp s (vsgn d a b op t .all)
def execVsgnVx (d : BitVec 5) (a b : VSrc) (op : SgnOp) (t : Ty) (mk : VMask) (s : State) : Out := coreOp s (vsgn d a b op t mk)

/-! ### Compare (spec/08 R203) -/

/-- The predicate on lanes of an integer type or of a floating type. -/
def laneCmp (t : Ty) (p : Pred) (x y : Nat) : Bool × Fl :=
  if t.isInt then
    let a := narrow (ofNat x) t
    let b := narrow (ofNat y) t
    (match p with
      | .eq => decide (a = b)
      | .ne => decide (a ≠ b)
      | .lt => decide (a < b)
      | .le => decide (a ≤ b)
      | .un => false
      | .ord => true, 0)
  else fcmp t p x y

def vcmp (d : BitVec 3) (a b : VSrc) (p : Pred) (t : Ty) (mk : VMask) (c : Core) : Res Core := do
  destM d c
  let (x, c) ← readV a c
  let (y, c) ← readV b c
  let (act, c) ← activeLanes mk t.lanes c
  let old : W64 := match c.regs.getM d with
    | .full v => if mk.mz || !mk.men then 0 else v
    | _ => 0
  let rs := (actives act t.lanes).map fun i => (i, laneCmp t p (laneAt x t.width i) (laneAt y t.width i))
  let c ← (freeV b (freeV a c)).vecFlags (rs.map fun r => (r.1, r.2.2))
  let keep := old.toNat &&& ((2 ^ t.lanes - 1) ^^^ act)
  .ok (writeM d (ofNat (rs.foldl (fun m r => if r.2.1 then m ||| 2 ^ r.1 else m) keep)) c)

def execVcmp (d : BitVec 3) (a b : VSrc) (p : Pred) (t : Ty) (s : State) : Out := coreOp s (vcmp d a b p t .all)
def execVcmpVx (d : BitVec 3) (a b : VSrc) (p : Pred) (t : Ty) (mk : VMask) (s : State) : Out := coreOp s (vcmp d a b p t mk)

/-! ### Special functions (spec/08 R204) -/

def execVexp2 (d : BitVec 5) (a : VSrc) (rm : Rnd) (t : Ty) (s : State) : Out := coreOp s (vop1 d a t .all (special .exp2 t rm))
def execVexp2Vx (d : BitVec 5) (a : VSrc) (rm : Rnd) (t : Ty) (mk : VMask) (s : State) : Out := coreOp s (vop1 d a t mk (special .exp2 t rm))
def execVlog2 (d : BitVec 5) (a : VSrc) (rm : Rnd) (t : Ty) (s : State) : Out := coreOp s (vop1 d a t .all (special .log2 t rm))
def execVlog2Vx (d : BitVec 5) (a : VSrc) (rm : Rnd) (t : Ty) (mk : VMask) (s : State) : Out := coreOp s (vop1 d a t mk (special .log2 t rm))
def execVrcp (d : BitVec 5) (a : VSrc) (rm : Rnd) (t : Ty) (s : State) : Out := coreOp s (vop1 d a t .all (special .rcp t rm))
def execVrcpVx (d : BitVec 5) (a : VSrc) (rm : Rnd) (t : Ty) (mk : VMask) (s : State) : Out := coreOp s (vop1 d a t mk (special .rcp t rm))
def execVrsq (d : BitVec 5) (a : VSrc) (rm : Rnd) (t : Ty) (s : State) : Out := coreOp s (vop1 d a t .all (special .rsq t rm))
def execVrsqVx (d : BitVec 5) (a : VSrc) (rm : Rnd) (t : Ty) (mk : VMask) (s : State) : Out := coreOp s (vop1 d a t mk (special .rsq t rm))
def execVtrig (d : BitVec 5) (a : VSrc) (cos : Bool) (rm : Rnd) (t : Ty) (s : State) : Out :=
  coreOp s (vop1 d a t .all (special (if cos then .cos else .sin) t rm))
def execVtrigVx (d : BitVec 5) (a : VSrc) (cos : Bool) (rm : Rnd) (t : Ty) (mk : VMask) (s : State) : Out :=
  coreOp s (vop1 d a t mk (special (if cos then .cos else .sin) t rm))
def execVtanh (d : BitVec 5) (a : VSrc) (rm : Rnd) (t : Ty) (s : State) : Out := coreOp s (vop1 d a t .all (special .tanh t rm))
def execVtanhVx (d : BitVec 5) (a : VSrc) (rm : Rnd) (t : Ty) (mk : VMask) (s : State) : Out := coreOp s (vop1 d a t mk (special .tanh t rm))

/-! ### Integer and logic (spec/08 R207) -/

/-- The lane result of a scalar operation of row 0x1_, whose low bits it is. -/
def intLane (f : Ty → W64 → W64 → W64) (t : Ty) (x y : Nat) : Nat × Fl := (patBits (f t (ofNat x) (ofNat y)) t, 0)

def vint (f : Ty → W64 → W64 → W64) (d : BitVec 5) (a b : VSrc) (t : Ty) (mk : VMask) : Core → Res Core :=
  vop2 d a b t mk (intLane f t)

def execViadd (d : BitVec 5) (a b : VSrc) (s : State) : Out := coreOp s (vint aluAdd d a b .i64 .all)
def execViaddAbcm (d : BitVec 5) (a b : VSrc) (t : Ty) (s : State) : Out := coreOp s (vint aluAdd d a b t .all)
def execViaddVx (d : BitVec 5) (a b : VSrc) (t : Ty) (mk : VMask) (s : State) : Out := coreOp s (vint aluAdd d a b t mk)
def execVisub (d : BitVec 5) (a b : VSrc) (s : State) : Out := coreOp s (vint aluSub d a b .i64 .all)
def execVisubAbcm (d : BitVec 5) (a b : VSrc) (t : Ty) (s : State) : Out := coreOp s (vint aluSub d a b t .all)
def execVisubVx (d : BitVec 5) (a b : VSrc) (t : Ty) (mk : VMask) (s : State) : Out := coreOp s (vint aluSub d a b t mk)
def execVimul (d : BitVec 5) (a b : VSrc) (s : State) : Out := coreOp s (vint aluMul d a b .i64 .all)
def execVimulAbcm (d : BitVec 5) (a b : VSrc) (t : Ty) (s : State) : Out := coreOp s (vint aluMul d a b t .all)
def execVimulVx (d : BitVec 5) (a b : VSrc) (t : Ty) (mk : VMask) (s : State) : Out := coreOp s (vint aluMul d a b t mk)
def execVand (d : BitVec 5) (a b : VSrc) (s : State) : Out := coreOp s (vint aluAnd d a b .i64 .all)
def execVandAbcm (d : BitVec 5) (a b : VSrc) (t : Ty) (s : State) : Out := coreOp s (vint aluAnd d a b t .all)
def execVandVx (d : BitVec 5) (a b : VSrc) (t : Ty) (mk : VMask) (s : State) : Out := coreOp s (vint aluAnd d a b t mk)
def execVor (d : BitVec 5) (a b : VSrc) (s : State) : Out := coreOp s (vint aluOr d a b .i64 .all)
def execVorAbcm (d : BitVec 5) (a b : VSrc) (t : Ty) (s : State) : Out := coreOp s (vint aluOr d a b t .all)
def execVorVx (d : BitVec 5) (a b : VSrc) (t : Ty) (mk : VMask) (s : State) : Out := coreOp s (vint aluOr d a b t mk)
def execVxor (d : BitVec 5) (a b : VSrc) (s : State) : Out := coreOp s (vint aluXor d a b .i64 .all)
def execVxorAbcm (d : BitVec 5) (a b : VSrc) (t : Ty) (s : State) : Out := coreOp s (vint aluXor d a b t .all)
def execVxorVx (d : BitVec 5) (a b : VSrc) (t : Ty) (mk : VMask) (s : State) : Out := coreOp s (vint aluXor d a b t mk)
def execVshl (d : BitVec 5) (a b : VSrc) (s : State) : Out := coreOp s (vint aluShl d a b .i64 .all)
def execVshlAbcm (d : BitVec 5) (a b : VSrc) (t : Ty) (s : State) : Out := coreOp s (vint aluShl d a b t .all)
def execVshlVx (d : BitVec 5) (a b : VSrc) (t : Ty) (mk : VMask) (s : State) : Out := coreOp s (vint aluShl d a b t mk)
def execVshr (d : BitVec 5) (a b : VSrc) (s : State) : Out := coreOp s (vint aluShr d a b .i64 .all)
def execVshrAbcm (d : BitVec 5) (a b : VSrc) (t : Ty) (s : State) : Out := coreOp s (vint aluShr d a b t .all)
def execVshrVx (d : BitVec 5) (a b : VSrc) (t : Ty) (mk : VMask) (s : State) : Out := coreOp s (vint aluShr d a b t mk)

/-! ### Selection and movement (spec/08 R208) -/

/-- Lane i of d is f i, for the active lanes. -/
def moved (d : BitVec 5) (t : Ty) (mk : VMask) (act : Nat) (f : Nat → Nat) (free : Core → Core) (c : Core) : Res Core :=
  finishV d mk t ((actives act t.lanes).map fun i => (i, f i, 0)) free c

def vsel (d : BitVec 5) (a b : VSrc) (e : MSrc) (t : Ty) (mk : VMask) (c : Core) : Res Core := do
  destV d c
  let (x, c) ← readV a c
  let (y, c) ← readV b c
  let (m, c) ← readM e c
  let (act, c) ← activeLanes mk t.lanes c
  moved d t mk act (fun i => if m.getLsbD i then laneAt x t.width i else laneAt y t.width i) (fun c => freeM e (freeV b (freeV a c))) c

def execVsel (d : BitVec 5) (a b : VSrc) (c : MSrc) (t : Ty) (s : State) : Out := coreOp s (vsel d a b c t .all)
def execVselVx (d : BitVec 5) (a b : VSrc) (c : MSrc) (t : Ty) (mk : VMask) (s : State) : Out := coreOp s (vsel d a b c t mk)

def vperm (d : BitVec 5) (a b e : VSrc) (t : Ty) (mk : VMask) (c : Core) : Res Core := do
  destV d c
  let (x, c) ← readV a c
  let (ix, c) ← readV b c
  let (z, c) ← readV e c
  let (act, c) ← activeLanes mk t.lanes c
  let n := t.lanes
  moved d t mk act (fun i =>
    let j := laneAt ix t.width i
    if j < n then laneAt x t.width j else if j < 2 * n then laneAt z t.width (j - n) else 0) (fun c => freeV e (freeV b (freeV a c))) c

def execVperm (d : BitVec 5) (a b c : VSrc) (t : Ty) (s : State) : Out := coreOp s (vperm d a b c t .all)
def execVpermVx (d : BitVec 5) (a b c : VSrc) (t : Ty) (mk : VMask) (s : State) : Out := coreOp s (vperm d a b c t mk)

def vbcast (d : BitVec 5) (a : Src) (t : Ty) (mk : VMask) (c : Core) : Res Core := do
  destV d c
  let (x, c) ← readS a c
  let (act, c) ← activeLanes mk t.lanes c
  moved d t mk act (fun _ => patBits x t) (fun c => freeS a c) c

def execVbcast (d : BitVec 5) (a : Src) (t : Ty) (s : State) : Out := coreOp s (vbcast d a t .all)
def execVbcastVx (d : BitVec 5) (a : Src) (t : Ty) (mk : VMask) (s : State) : Out := coreOp s (vbcast d a t mk)

def vslide (d : BitVec 5) (a b : VSrc) (e : Src) (t : Ty) (mk : VMask) (c : Core) : Res Core := do
  destV d c
  let (x, c) ← readV a c
  let (y, c) ← readV b c
  let (k, c) ← readS e c
  let (act, c) ← activeLanes mk t.lanes c
  let n := t.lanes
  moved d t mk act (fun i =>
    let j := i + k.toNat
    if j < n then laneAt x t.width j else if j < 2 * n then laneAt y t.width (j - n) else 0) (fun c => freeS e (freeV b (freeV a c))) c

def execVslide (d : BitVec 5) (a b : VSrc) (c : Src) (t : Ty) (s : State) : Out := coreOp s (vslide d a b c t .all)
def execVslideVx (d : BitVec 5) (a b : VSrc) (c : Src) (t : Ty) (mk : VMask) (s : State) : Out := coreOp s (vslide d a b c t mk)

/-! ### Compaction, indices, lane access (spec/08 R209) -/

def execVcmpr (d : BitVec 5) (a : VSrc) (b : MSrc) (t : Ty) (s : State) : Out := coreOp s fun c => do
  destV d c
  let (x, c) ← readV a c
  let (m, c) ← readM b c
  let kept := (actives m.toNat t.lanes).map fun i => laneAt x t.width i
  writeV d (setLanes 0 t.width (kept.zipIdx.map fun y => (y.2, y.1))) (freeM b (freeV a c))

def execVexpd (d : BitVec 5) (a : VSrc) (b : MSrc) (t : Ty) (s : State) : Out := coreOp s fun c => do
  destV d c
  let (x, c) ← readV a c
  let (m, c) ← readM b c
  let at_ := (actives m.toNat t.lanes).zipIdx.map fun y => (y.1, laneAt x t.width y.2)
  writeV d (setLanes 0 t.width at_) (freeM b (freeV a c))

def execViota (d : BitVec 5) (a : MSrc) (pfx : Bool) (t : Ty) (s : State) : Out := coreOp s fun c => do
  destV d c
  if pfx then
    let (m, c) ← readM a c
    writeV d (setLanes 0 t.width ((List.range t.lanes).map fun i => (i, popcNat (m.toNat % 2 ^ i) i))) (freeM a c)
  else writeV d (setLanes 0 t.width ((List.range t.lanes).map fun i => (i, i))) c

def execVlane (d : BitVec 6) (a : VSrc) (b : Src) (k : BitVec 6) (set : Bool) (t : Ty) (s : State) : Out := coreOp s fun c =>
  if set then do
    destV (d.setWidth 5) c
    let (x, c) ← readV a c
    let (y, c) ← readS b c
    writeV (d.setWidth 5) (setLane x t.width k.toNat (patBits y t)) (freeS b (freeV a c))
  else do
    destS d c
    let (x, c) ← readV a c
    writeS d (extend (laneAt x t.width k.toNat) t) (freeV a c)

/-! ### Masks as words (spec/08 R210) -/

def mlogBits (op : MlogOp) (x y : W64) : W64 :=
  match op with
  | .and => x &&& y
  | .or => x ||| y
  | .xor => x ^^^ y
  | .andn => x &&& ~~~y
  | .not => ~~~x
  | .ones => BitVec.allOnes 64

def execMlog (d : BitVec 3) (a b : MSrc) (op : MlogOp) (s : State) : Out := coreOp s fun c => do
  destM d c
  match op with
  | .ones => .ok (writeM d (mlogBits op 0 0) c)
  | .not =>
    let (x, c) ← readM a c
    .ok (writeM d (mlogBits op x 0) (freeM a c))
  | _ =>
    let (x, c) ← readM a c
    let (y, c) ← readM b c
    .ok (writeM d (mlogBits op x y) (freeM b (freeM a c)))

/-- The m register that an operand byte names. -/
def maskSrc (a : Src) : MSrc := ⟨a.last, a.trap, a.reg.setWidth 3⟩

def mpopOf (op : MpopOp) (x : W64) : W64 :=
  match op with
  | .pop => aluPopc .i64 x
  | .first => aluCtz .i64 x
  | _ => x

def execMpop (d : BitVec 6) (a : Src) (op : MpopOp) (s : State) : Out := coreOp s fun c =>
  if op = .set then do
    destM (d.setWidth 3) c
    let (x, c) ← readS a c
    .ok (writeM (d.setWidth 3) x (freeS a c))
  else do
    destS d c
    let (x, c) ← readM (maskSrc a) c
    writeS d (mpopOf op x) (freeM (maskSrc a) c)

/-! ### Reductions and scans (spec/08 R205, R206, spec/02 R35, R36) -/

/-- A node of the tree. -/
def redNode (op : RedOp) (t : Ty) (rm : Rnd) (x y : Nat) : Nat × Fl :=
  match op with
  | .add | .addl => if t.isInt then intLane aluAdd t x y else fadd t rm x y
  | .min | .minl => if t.isInt then intLane aluMin t x y else fminmax t false x y
  | .max | .maxl => if t.isInt then intLane aluMax t x y else fminmax t true x y

/-- What an inactive lane contributes. -/
def redIdentity (op : RedOp) (t : Ty) : Nat :=
  match op with
  | .add | .addl => if t.isInt then 0 else zeroBits t true
  | .min | .minl => if t.isInt then intBits t (intMax t) else infBits t false
  | .max | .maxl => if t.isInt then intBits t (intMin t) else infBits t true

/-- One level of the pairwise tree. -/
def redLevel (op : RedOp) (t : Ty) (rm : Rnd) : List Nat → List Nat × Fl
  | x :: y :: l =>
    let r := redNode op t rm x y
    let s := redLevel op t rm l
    (r.1 :: s.1, r.2 ||| s.2)
  | l => (l, 0)

/-- The tree over a list whose length is at most 2^fuel. -/
def redTree (op : RedOp) (t : Ty) (rm : Rnd) : Nat → List Nat → Nat × Fl
  | 0, l => (l.headD 0, 0)
  | n + 1, l =>
    let r := redLevel op t rm l
    let q := redTree op t rm n r.1
    (q.1, r.2 ||| q.2)

/-- The inclusive prefix; `y` is the running value once a lane has been seen. An inactive lane is `none`. -/
def scanFrom (op : RedOp) (t : Ty) (rm : Rnd) : Option Nat → List (Option Nat) → List (Nat × Fl)
  | _, [] => []
  | none, none :: l => (redIdentity op t, 0) :: scanFrom op t rm (some (redIdentity op t)) l
  | some y, none :: l => (y, 0) :: scanFrom op t rm (some y) l
  | none, some x :: l => (x, 0) :: scanFrom op t rm (some x) l
  | some y, some x :: l =>
    let r := redNode op t rm y x
    r :: scanFrom op t rm (some r.1) l

/-- Gang-wide operations. -/
def redWide : RedOp → Bool
  | .add | .min | .max => true
  | _ => false

/-- The lanes that one core contributes, none for an inactive one, and the core with its operands freed. -/
def redLanes (d : BitVec 5) (a : VSrc) (t : Ty) (mk : VMask) (c : Core) : Res (List (Option Nat) × Core) := do
  destV d c
  let (x, c) ← readV a c
  let (act, c) ← activeLanes mk t.lanes c
  .ok ((List.range t.lanes).map (fun i => if act.testBit i then some (laneAt x t.width i) else none), freeV a c)

/-- An operation whose lanes combine across the members ms, at the member in focus: `f` gives each member's v register and its flags by
lane from all the lanes. The flags of every node are in every member's FLG, and word 7 of a trap record (spec/08 R205). -/
def combine (s : State) (ms : List Nat) (d : BitVec 5) (a : VSrc) (t : Ty) (mk : VMask)
    (f : List (List (Option Nat)) → List (Line × List (Nat × Fl))) : Out := finish s do
  let (own, c) ← redLanes d a t mk s.me
  let ls ← (ms.mapM fun k => if k = s.cur then .ok own else match redLanes d a t mk (s.core k) with
    | .ok r => .ok r.1
    | .error _ => .error (.wait .gang) : Res (List (List (Option Nat))))
  let rs := f ls
  let union := (rs.flatMap fun r => r.2.map (·.2)).foldl (· ||| ·) 0
  let mine := rs.getD (ms.idxOf s.cur) (0, [])
  let c ← (match c.vecFlags ((64, union) :: mine.2) with
    | .error (.trap r) => .error (.trap { r with w7 := union.setWidth 64 })
    | x => x)
  let c ← writeV d mine.1 c
  .ok { s with me := c.retire }

/-- The cores that take part: every member for a gang-wide operation. -/
def reducers (s : State) (op : RedOp) : List Nat := if redWide op then s.gangOf else [s.cur]

def vred (d : BitVec 5) (a : VSrc) (op : RedOp) (rm : Rnd) (t : Ty) (mk : VMask) (s : State) : Out :=
  combine s (reducers s op) d a t mk fun ls =>
    let xs := ls.flatten.map fun x => x.getD (redIdentity op t)
    let r := redTree op t rm 12 xs
    ls.map fun _ => (setLane 0 t.width 0 r.1, [(0, r.2)])

def execVred (d : BitVec 5) (a : VSrc) (op : RedOp) (rm : Rnd) (t : Ty) (s : State) : Out := vred d a op rm t .all s
def execVredVx (d : BitVec 5) (a : VSrc) (op : RedOp) (rm : Rnd) (t : Ty) (mk : VMask) (s : State) : Out := vred d a op rm t mk s

/-- The list in pieces of n. -/
def chunks {α : Type} (n : Nat) : Nat → List α → List (List α)
  | 0, _ => []
  | k + 1, l => l.take n :: chunks n k (l.drop n)

def vscan (d : BitVec 5) (a : VSrc) (op : RedOp) (rm : Rnd) (t : Ty) (mk : VMask) (s : State) : Out :=
  combine s (reducers s op) d a t mk fun ls =>
    (chunks t.lanes ls.length (scanFrom op t rm none ls.flatten)).map fun ys =>
      (setLanes 0 t.width (ys.zipIdx.map fun y => (y.2, y.1.1)), ys.zipIdx.map fun y => (y.2, y.1.2))

def execVscan (d : BitVec 5) (a : VSrc) (op : RedOp) (rm : Rnd) (t : Ty) (s : State) : Out := vscan d a op rm t .all s
def execVscanVx (d : BitVec 5) (a : VSrc) (op : RedOp) (rm : Rnd) (t : Ty) (mk : VMask) (s : State) : Out := vscan d a op rm t mk s

end Sys2Proof.Machine
end

