-- ==== Sys2Proof/Machine/VecConv.lean ====
section
/-! DEFINITION. Conversion, packing and scaling of lanes, and the complex instructions (spec/08 R211 to R220). -/

namespace Sys2Proof.Machine

/-! ### Conversion between lane types (spec/08 R211) -/

/-- The bits that Convert puts into a lane or an element. -/
def convBits (src dst : Ty) (rm : Rnd) (sat : Bool) (x : Nat) : Nat × Fl :=
  let r := convert x src dst rm sat
  (r.1 % 2 ^ dst.width, r.2)

/-- Destination lane and source lane of each lane that a conversion writes. -/
def cvtLanes (src dst : Ty) (p : Nat) : List (Nat × Nat) :=
  if dst.lanes ≤ src.lanes then (List.range dst.lanes).map fun i => (i, p * dst.lanes + i)
  else (List.range src.lanes).map fun j => (p * src.lanes + j, j)

/-- The lanes or elements of d that an operation writes: those of `ws` that are active from `r`, the inactive ones zero under
zeroing (`zero` their +0); all others keep the value of d (spec/08 R195). `ws` gives (element, mask bit). -/
def partial_ (d : BitVec 5) (mk : VMask) (act w zero : Nat) (ws : List (Nat × Nat)) (r : Nat → Nat) (c : Core) : Res Line := do
  let old ← oldV d c
  .ok (setLanes old w (ws.filterMap fun x =>
    if act.testBit x.2 then some (x.1, r x.1) else if mk.mz then some (x.1, zero) else none))

def vcvt (d : BitVec 5) (a : VSrc) (src : Ty) (p : BitVec 4) (rm : Rnd) (sat : Bool) (t : Ty) (mk : VMask) (c : Core) : Res Core := do
  destV d c
  let (x, c) ← readV a c
  let (act, c) ← activeLanes mk t.lanes c
  let ls := cvtLanes src t p.toNat
  let rs := (ls.filter fun l => act.testBit l.1).map fun l => (l.1, convBits src t rm sat (laneAt x src.width l.2))
  let get := fun (i : Nat) => ((rs.find? fun r => r.1 == i).map (·.2.1)).getD 0
  let v ← partial_ d mk act t.width 0 (ls.map fun l => (l.1, l.1)) get c
  let c ← (freeV a c).vecFlags (rs.map fun r => (r.1, r.2.2))
  writeV d v c

def execVcvt (d : BitVec 5) (a : VSrc) (src : Ty) (p : BitVec 4) (rm : Rnd) (sat : Bool) (t : Ty) (s : State) : Out :=
  coreOp s (vcvt d a src p rm sat t .all)
def execVcvtVx (d : BitVec 5) (a : VSrc) (src : Ty) (p : BitVec 4) (rm : Rnd) (sat : Bool) (t : Ty) (mk : VMask) (s : State) : Out :=
  coreOp s (vcvt d a src p rm sat t mk)

/-! ### Packing and unpacking (spec/08 R212 to R214) -/

def vunpk (d : BitVec 5) (a : VSrc) (src : Ty) (p : BitVec 4) (rm : Rnd) (t : Ty) (mk : VMask) (c : Core) : Res Core := do
  destV d c
  let (x, c) ← readV a c
  let (act, c) ← activeLanes mk t.lanes c
  finishV d mk t ((actives act t.lanes).map fun i =>
    (i, convBits src t rm false (laneAt x src.width (p.toNat * t.lanes + i)))) (fun c => freeV a c) c

def execVunpk (d : BitVec 5) (a : VSrc) (src : Ty) (p : BitVec 4) (rm : Rnd) (t : Ty) (s : State) : Out :=
  coreOp s (vunpk d a src p rm t .all)
def execVunpkVx (d : BitVec 5) (a : VSrc) (src : Ty) (p : BitVec 4) (rm : Rnd) (t : Ty) (mk : VMask) (s : State) : Out :=
  coreOp s (vunpk d a src p rm t mk)

/-- A lane's magnitude in binary64, exactly; none for a NaN (spec/02 R45). -/
def magnitude (t : Ty) (x : Nat) : Option W64 :=
  match decodeF t x with
  | .nan .. => none
  | _ => some (ofNat ((convert x t .f64 .rne false).1 % 2 ^ 63))

/-- UpdateAMX for lanes of a floating type; integer lanes of a pack to i4 are taken as exact integers. -/
def amxLanes (t : Ty) (amx : W64) (xs : List Nat) : W64 :=
  xs.foldl (fun m x => updateAmx m (if isIntTy t then some (ofNat ((convert x t .f64 .rne false).1 % 2 ^ 63)) else magnitude t x)) amx

/-- `t` is the packed format, `src` the lane type. -/
def vpack (d : BitVec 5) (a : VSrc) (src : Ty) (p : BitVec 4) (rm : Rnd) (sat : Bool) (t : Ty) (mk : VMask) (c : Core) : Res Core := do
  destV d c
  let (x, c) ← readV a c
  let n := src.lanes
  let (act, c) ← activeLanes mk n c
  let rs := (actives act n).map fun i => (i, convBits src t rm sat (laneAt x src.width i))
  let get := fun (e : Nat) => ((rs.find? fun r => p.toNat * n + r.1 == e).map (·.2.1)).getD 0
  let v ← partial_ d mk act t.width (if t == .ds8 then 0x77 else 0) ((List.range n).map fun i => (p.toNat * n + i, i)) get c
  let v := if t.width = 6 then v &&& BitVec.ofNat 512 (2 ^ 384 - 1) else v
  let c ← (freeV a c).vecFlags (rs.map fun r => (r.1, r.2.2))
  let c := { c with ctl := { c.ctl with amx := amxLanes src c.ctl.amx ((actives act n).map fun i => laneAt x src.width i) } }
  writeV d v c

def execVpack (d : BitVec 5) (a : VSrc) (src : Ty) (p : BitVec 4) (rm : Rnd) (sat : Bool) (t : Ty) (s : State) : Out :=
  coreOp s (vpack d a src p rm sat t .all)
def execVpackVx (d : BitVec 5) (a : VSrc) (src : Ty) (p : BitVec 4) (rm : Rnd) (sat : Bool) (t : Ty) (mk : VMask) (s : State) : Out :=
  coreOp s (vpack d a src p rm sat t mk)

/-! ### Scaling and magnitudes (spec/08 R215, R216) -/

/-- One lane of VSCALE, E the e8m0 code. -/
def scaleLane (t : Ty) (rm : Rnd) (inv : Bool) (code x : Nat) : Nat × Fl :=
  let v := decodeF t x
  (propagate t [v]).getD (if code = 0xFF then (canonNan t, 0) else match v with
    | .fin n m e => roundMag t rm n m (if inv then e + 127 - code else e + code - 127)
    | v => roundV t rm v)

def vscale (d : BitVec 5) (a : VSrc) (b : Src) (k : BitVec 3) (inv : Bool) (rm : Rnd) (t : Ty) (mk : VMask) (c : Core) : Res Core := do
  destV d c
  let (x, c) ← readV a c
  let (y, c) ← readS b c
  let (act, c) ← activeLanes mk t.lanes c
  let code := bits y (8 * k.toNat + 7) (8 * k.toNat)
  finishV d mk t ((actives act t.lanes).map fun i => (i, scaleLane t rm inv code (laneAt x t.width i))) (fun c => freeS b (freeV a c)) c

def execVscale (d : BitVec 5) (a : VSrc) (b : Src) (k : BitVec 3) (inv : Bool) (rm : Rnd) (t : Ty) (s : State) : Out :=
  coreOp s (vscale d a b k inv rm t .all)
def execVscaleVx (d : BitVec 5) (a : VSrc) (b : Src) (k : BitVec 3) (inv : Bool) (rm : Rnd) (t : Ty) (mk : VMask) (s : State) : Out :=
  coreOp s (vscale d a b k inv rm t mk)

def vamax (d : BitVec 6) (a : VSrc) (t : Ty) (mk : VMask) (c : Core) : Res Core := do
  destS d c
  let (x, c) ← readV a c
  let (act, c) ← activeLanes mk t.lanes c
  let xs := (actives act t.lanes).map fun i => laneAt x t.width i
  let c := { freeV a c with ctl := { c.ctl with amx := amxLanes t c.ctl.amx xs } }
  writeS d (amxLanes t 0 xs) c

def execVamax (d : BitVec 6) (a : VSrc) (t : Ty) (s : State) : Out := coreOp s (vamax d a t .all)
def execVamaxVx (d : BitVec 6) (a : VSrc) (t : Ty) (mk : VMask) (s : State) : Out := coreOp s (vamax d a t mk)

/-! ### Complex numbers (spec/08 R217 to R219) -/

/-- The sum of values that are no NaN, rounded once: NaN where opposite infinities meet, an infinity where one stands. -/
def sumOnce (t : Ty) (rm : Rnd) (ts : List FV) : Nat × Fl :=
  let infs := ts.filter FV.isInf
  match infs with
  | x :: xs => if xs.all (fun y => y.neg == x.neg) then (infBits t x.neg, 0) else invalid t
  | [] =>
    let zneg := match ts with
      | x :: xs => if ts.all FV.isZero && xs.all (fun y => y.neg == x.neg) then x.neg else rm == .rdn
      | [] => false
    roundDy t rm ((ts.map FV.dy).foldl Dy.add ⟨0, 0⟩) zneg

/-- OneRound of spec/08 R217: operands in order, and the terms of the expression, none for a product ∞ × 0. -/
def oneRound (t : Ty) (rm : Rnd) (ops : List FV) (terms : List (Option FV)) : Nat × Fl :=
  (propagate t ops).getD (if terms.any Option.isNone then invalid t else sumOnce t rm (terms.filterMap id))

def flipIf (b : Bool) (x : FV) : FV := if b then x.flip else x

/-- The complex element j of a register: real and imaginary part. -/
def elemAt (l : Line) (t : Ty) (j : Nat) : FV × FV :=
  (decodeF t (laneAt l t.width (2 * j)), decodeF t (laneAt l t.width (2 * j + 1)))

/-- The outputs of elements as lanes. -/
def elemLanes (rs : List (Nat × (Nat × Fl) × (Nat × Fl))) : List (Nat × Nat × Fl) :=
  rs.flatMap fun r => [(2 * r.1, r.2.1), (2 * r.1 + 1, r.2.2)]

/-- Complex results for the active elements of d. -/
def baseC (d : BitVec 5) (mk : VMask) (c : Core) : Res Line := if mk.men then baseV d mk c else .ok 0

def bflyElem (t : Ty) (rm : Rnd) (sub : Bool) (a b w : FV × FV) : (Nat × Fl) × (Nat × Fl) :=
  let f := fun (x : Option FV) => x.map (flipIf sub)
  (oneRound t rm [a.1, w.1, b.1, w.2, b.2] [some a.1, f (mulV w.1 b.1), f ((mulV w.2 b.2).map FV.flip)],
    oneRound t rm [a.2, w.1, b.2, w.2, b.1] [some a.2, f (mulV w.1 b.2), f (mulV w.2 b.1)])

def bfly (d : BitVec 5) (a b e : VSrc) (rm : Rnd) (t : Ty) (mk : VMask) (c : Core) : Res Core := do
  destV d c
  destV (d + 1) c
  let (x, c) ← readV a c
  let (y, c) ← readV b c
  let (z, c) ← readV e c
  let n := t.lanes / 2
  let (act, c) ← activeLanes mk n c
  let run := fun (sub : Bool) => elemLanes ((actives act n).map fun j => (j, bflyElem t rm sub (elemAt x t j) (elemAt y t j) (elemAt z t j)))
  let r0 := run false
  let r1 := run true
  let b0 ← baseC d mk c
  let b1 ← baseC (d + 1) mk c
  let c ← (freeV e (freeV b (freeV a c))).vecFlags ((r0 ++ r1).map fun r => (r.1, r.2.2))
  let c ← writeV d (setLanes b0 t.width (r0.map fun r => (r.1, r.2.1))) c
  writeV (d + 1) (setLanes b1 t.width (r1.map fun r => (r.1, r.2.1))) c

def execBfly (d : BitVec 5) (a b c : VSrc) (rm : Rnd) (t : Ty) (s : State) : Out := coreOp s (bfly d a b c rm t .all)
def execBflyVx (d : BitVec 5) (a b c : VSrc) (rm : Rnd) (t : Ty) (mk : VMask) (s : State) : Out := coreOp s (bfly d a b c rm t mk)

/-- The active elements of d from their results. -/
def finishC (d : BitVec 5) (mk : VMask) (t : Ty) (rs : List (Nat × Nat × Fl)) (free : Core → Core) (c : Core) : Res Core := do
  let base ← baseC d mk c
  let c ← (free c).vecFlags (rs.map fun r => (r.1, r.2.2))
  writeV d (setLanes base t.width (rs.map fun r => (r.1, r.2.1))) c

def cmulElem (t : Ty) (rm : Rnd) (conj : Bool) (a b : FV × FV) : (Nat × Fl) × (Nat × Fl) :=
  let bi := flipIf conj b.2
  (oneRound t rm [a.1, b.1, a.2, bi] [mulV a.1 b.1, (mulV a.2 bi).map FV.flip],
    oneRound t rm [a.1, bi, a.2, b.1] [mulV a.1 bi, mulV a.2 b.1])

def cmul (d : BitVec 5) (a b : VSrc) (conj : Bool) (rm : Rnd) (t : Ty) (mk : VMask) (c : Core) : Res Core := do
  destV d c
  let (x, c) ← readV a c
  let (y, c) ← readV b c
  let n := t.lanes / 2
  let (act, c) ← activeLanes mk n c
  finishC d mk t (elemLanes ((actives act n).map fun j => (j, cmulElem t rm conj (elemAt x t j) (elemAt y t j)))) (fun c => freeV b (freeV a c)) c

def execCmul (d : BitVec 5) (a b : VSrc) (conj : Bool) (rm : Rnd) (t : Ty) (s : State) : Out := coreOp s (cmul d a b conj rm t .all)
def execCmulVx (d : BitVec 5) (a b : VSrc) (conj : Bool) (rm : Rnd) (t : Ty) (mk : VMask) (s : State) : Out :=
  coreOp s (cmul d a b conj rm t mk)

/-! ### Twiddle factors (spec/08 R220) -/

/-- Lane j of a, read at the width of the type, is the index of element j. -/
def twid (d : BitVec 5) (a : VSrc) (n : BitVec 5) (rm : Rnd) (t : Ty) (mk : VMask) (c : Core) : Res Core := do
  destV d c
  let (x, c) ← readV a c
  let m := t.lanes / 2
  let (act, c) ← activeLanes mk m c
  finishC d mk t (elemLanes ((actives act m).map fun j => (j, twiddle t rm n.toNat (laneAt x t.width j)))) (fun c => freeV a c) c

def execTwid (d : BitVec 5) (a : VSrc) (n : BitVec 5) (rm : Rnd) (t : Ty) (s : State) : Out := coreOp s (twid d a n rm t .all)
def execTwidVx (d : BitVec 5) (a : VSrc) (n : BitVec 5) (rm : Rnd) (t : Ty) (mk : VMask) (s : State) : Out :=
  coreOp s (twid d a n rm t mk)

end Sys2Proof.Machine
end

