-- ==== Sys2Proof/Machine/Press.lean ====
section
/-! DEFINITION. The Press: planes, runs, the self-test and the accumulator (spec/09 R225 to R242, spec/02 R37 to R41). -/

namespace Sys2Proof.Machine

/-! ### Tiles and rows (spec/09 R225 to R227) -/

/-- K × N, the bytes of the tile and the accumulator element of a weight format. -/
structure Tile where
  k   : Nat
  n   : Nat
  acc : Ty
deriving DecidableEq, Repr

def tileOf : Ty → Option Tile
  | .f64 => some ⟨8, 8, .f64⟩
  | .f32 => some ⟨16, 16, .f32⟩
  | .bf16 | .f16 => some ⟨32, 32, .f32⟩
  | .e4m3 | .e5m2 => some ⟨64, 32, .f32⟩
  | .i8 => some ⟨64, 32, .i32⟩
  | .e3m2 | .e2m3 | .e2m1 | .ds8 => some ⟨64, 64, .f32⟩
  | .i4 => some ⟨64, 64, .i32⟩
  | _ => none

def tileFor (t : Ty) : Tile := (tileOf t).getD ⟨8, 8, .f64⟩

/-- Packed bytes of n elements. -/
def packedBytes (t : Ty) (n : Nat) : Nat := n * t.width / 8
def tileBytes (t : Ty) : Nat := packedBytes t ((tileFor t).k * (tileFor t).n)
def accBytes (t : Ty) : Nat := (tileFor t).acc.width / 8
/-- Bytes that a run writes in each row. -/
def rowOut (t : Ty) : Nat := accBytes t * (tileFor t).n

/-- A format that scales may accompany (spec/09 R226). -/
def scalable (t : Ty) : Bool := !(t == .f64 || t == .f32 || isIntTy t)
def scaleBytes (t : Ty) : Nat := ((tileFor t).k / 32) * (tileFor t).n

/-- Whether an activation format suits a weight format. -/
def suits (w a : Ty) : Bool :=
  let narrow := fun (t : Ty) => t == .e4m3 || t == .e5m2 || t == .e3m2 || t == .e2m3 || t == .e2m1
  match w with
  | .f64 | .f32 | .i8 | .i4 => a == w
  | .bf16 | .f16 => a == .bf16 || a == .f16
  | _ => narrow a

/-- Bytes of an activation row: fixed by its format (spec/09 R226). -/
def actRow : Ty → Nat
  | .e3m2 | .e2m3 => 48
  | .e2m1 | .i4 => 32
  | _ => 64

/-! ### The arithmetic (spec/02 R37 to R40) -/

/-- A product of a group: a NaN, signalling or not, ∞ × 0, or a value. -/
inductive Prod where
  | nan (sig : Bool)
  | bad
  | val (x : FV)
deriving DecidableEq, Repr

/-- a·Xa·w·Xw; a scale is an e8m0 byte. -/
def scaledProd (a w : FV) (xa xw : Nat) : Prod :=
  if a.isNan || w.isNan || xa == 255 || xw == 255 then .nan (a.isSnan || w.isSnan)
  else match mulV a w with
    | none => .bad
    | some (.fin n m e) => .val (.fin n m (e + ((xa : Int) - 127) + ((xw : Int) - 127)))
    | some x => .val x

/-- Window28 of spec/02 R39 on the products and the incoming value. -/
def window28 (ps : List Prod) (cbits : Nat) : Nat × Fl :=
  let c := decodeF .f32 cbits
  let nan := fun (b : Bool) => (canonNan .f32, if b then Fl.inv else (0 : Fl))
  if ps.any fun p => match p with | .nan _ => true | _ => false then
    nan (ps.any fun p => match p with | .nan s => s | _ => false)
  else if ps.any fun p => match p with | .bad => true | _ => false then nan true
  else if c.isNan then nan c.isSnan
  else
    let ts := c :: ps.filterMap fun p => match p with | .val x => some x | _ => none
    match ts.filter FV.isInf with
    | x :: xs => if xs.all fun y => y.neg == x.neg then (infBits .f32 x.neg, 0) else nan true
    | [] =>
      match ts.filter fun t => !t.isZero with
      | [] => (zeroBits .f32 (ts.all FV.neg), 0)
      | z :: zs =>
        let top := fun (t : FV) => match t with | .fin _ m e => (log2 m : Int) + e | _ => 0
        let q := (zs.foldl (fun l t => max l (top t)) (top z)) - 27
        let cut : List (Int × Bool) := (z :: zs).map fun t => match t with
          | .fin n m e => let r := quantize m e q .rtz n; ((if n then -(r.1 : Int) else (r.1 : Int)), r.2)
          | _ => (0, false)
        let lost : Fl := if cut.any (·.2) then Fl.inx else 0
        let sum : Int := (cut.map (·.1)).sum
        if sum = 0 then (0, lost)
        else let r := roundMag .f32 .rne (decide (sum < 0)) sum.natAbs q; (r.1, r.2 ||| lost)

/-- Two products and the running value in f32 (spec/02 R38). -/
def pairStep (a w a' w' c : Nat) : Nat × Fl :=
  let x := decodeF .f32 a
  let y := decodeF .f32 w
  let x' := decodeF .f32 a'
  let y' := decodeF .f32 w'
  let z := decodeF .f32 c
  if x.isNan || y.isNan || x'.isNan || y'.isNan then (propagate .f32 [x, y, x', y', z]).getD (0, 0)
  else match mulV x y, mulV x' y' with
    | some p, some p' => (propagate .f32 [z]).getD (sumOnce .f32 .rne [p, p', z])
    | _, _ => invalid .f32

def pairRun : List (Nat × Nat) → Nat × Fl → Nat × Fl
  | (a, w) :: (a', w') :: l, (c, f) => let r := pairStep a w a' w' c; pairRun l (r.1, f ||| r.2)
  | _, r => r

/-- One output element after one K-block: activation row xs with its two scales, column ws with its scales, incoming value c. -/
def blockStep (wt at_ : Ty) (xs ws : List Nat) (xsc : Nat → Nat) (wsc : Nat → Nat) (c : Nat) : Nat × Fl :=
  let ps := xs.zip ws
  match wt with
  | .f64 => ps.foldl (fun r p => let q := ffma .f64 .rne p.1 p.2 r.1; (q.1, r.2 ||| q.2)) (c, 0)
  | .f32 => pairRun ps (c, 0)
  | .i8 | .i4 => (intBits .i32 ((c : Int) + (ps.map fun p => sext p.1 wt.width * sext p.2 wt.width).sum), 0)
  | _ => window28 (ps.zipIdx.map fun p => scaledProd (decodeF at_ p.1.1) (decodeF wt p.1.2) (xsc (p.2 / 32)) (wsc (p.2 / 32))) c

/-! ### The run command word (spec/09 R232) -/

structure RunCmd where
  soff : Nat
  astr : Nat
  nstp : Bool
  fuse : Bool
  asc  : Bool
  acc  : Bool
  afmt : Option Ty
  row0 : Nat
  m    : Nat
deriving DecidableEq, Repr

def RunCmd.of (w : W64) : RunCmd :=
  ⟨bits w 55 40, bits w 39 32, w.getLsbD 24, w.getLsbD 23, w.getLsbD 22, w.getLsbD 21, Ty.ofCode (w.extractLsb' 16 5),
    bits w 15 8, bits w 7 0 + 1⟩

def RunCmd.ty (r : RunCmd) : Ty := r.afmt.getD .f64

/-- The checks of spec/09 R233 that do not depend on the plane: the offending bits. -/
def cmdMask (w : W64) : Nat :=
  let r := RunCmd.of w
  let rowBytes := actRow r.ty
  (w.toNat &&& (0xFF00000000000000 + 0xFE000000)) |||
    maskIf (decide (16 * r.astr < rowBytes) || r.astr == 0) (put 0xFF 32) |||
    maskIf (r.soff % 2 == 1 || (!r.asc && r.soff != 0)) (put 0xFFFF 40) |||
    maskIf (r.afmt.isNone || r.afmt == some .ds8 || r.afmt == some .e8m0) (put 0x1F 16) |||
    maskIf (r.asc && !scalable r.ty) (put 1 22)

/-- Checks 1 and 2 against the weight format: the offending bits. -/
def planeMask (r : RunCmd) (wt : Ty) : Nat :=
  maskIf (!suits wt r.ty) (put 0x1F 16) ||| maskIf (decide (32768 < r.m * rowOut wt)) 0xFF

/-- The activation rows and scales of a run from a (spec/09 R227). -/
def actRanges (a : Nat) (r : RunCmd) : List (Nat × Nat) :=
  ((List.range r.m).map fun i => (a + 16 * r.astr * i, actRow r.ty)) ++ (if r.asc then [(a + r.soff, 2 * r.m)] else [])

def Core.arrayRanges (c : Core) (rs : List (Nat × Nat)) : Bool := rs.all fun r => c.ownArray (ofNat r.1) r.2

/-- The active and the shadow format once the queue is done (spec/09 R229); what runs again after a strike has had its effect. -/
def Core.fmtsAhead (c : Core) : Ty × Ty :=
  (c.pressQueue.filter fun o => !o.redo).foldl (fun p o => match o.kind with
    | .pload _ w => (p.1, (Ty.ofCode (w.extractLsb' 0 5)).getD .f64)
    | .pswap => (p.2, p.1)
    | _ => p) (c.active.fmt, c.shadow.fmt)

def queueRoom (c : Core) : Res Unit := need (decide (c.pressQueue.length < 8)) (.wait .engine)

/-- The common end of an issue: the sequence number goes to d, the operation and its locks are in place. -/
def issueOp (s : State) (d : BitVec 6) (c : Core) (o : EngOp) (dst : Bool) (ranges : List (Nat × Nat)) : Res State := do
  let c := { (c.addOp o) with engSeq := o.seq }
  let c := if ranges.isEmpty then c else c.addLock ⟨s.cur, o.seq, dst, ranges⟩
  let c ← writeS d (ofNat o.seq) c
  .ok { s with me := c.retire }

/-! ### PLOAD, PSWAP, PTEST, PQRY -/

/-- The offending bits of a weight descriptor (spec/09 R230, R225, R226). -/
def loadMask (w : W64) : Nat :=
  let t := Ty.ofCode (w.extractLsb' 0 5)
  (w.toNat / 128 * 128) ||| maskIf ((t.bind tileOf).isNone) 0x1F ||| maskIf (w.getLsbD 5 && t.elim false (!scalable ·)) 0x20

/-- Tile and scale bytes of a descriptor. -/
def loadBytes (w : W64) : Nat :=
  let t := tyOf (w.setWidth 8)
  tileBytes t + (if w.getLsbD 5 then scaleBytes t else 0)

def execPload (d : BitVec 6) (a b e : Src) (s : State) : Out := finish s do
  let c := s.me
  readsDone c
  destS d c
  let (x, c1) ← readS a c
  let (w, c2) ← readS b c1
  let (z, c3) ← readStamp c2 (w.getLsbD 6) e
  let c3 := freeStamp z e (freeS b (freeS a c3))
  need (loadMask w = 0) (.trap (precise c 0x002 w (ofNat (loadMask w)) 1))
  need (x.toNat % 64 = 0) (.trap (precise c 0x201 x 64 0))
  stampChecks stampAlign c z
  let n := loadBytes w
  need (c.ownArray x n) (.trap (precise c 0x202 x 0 0))
  stampChecks stampRange c z
  queueRoom c
  needLock s false [(x.toNat, n)]
  issueOp s d c3 (c.newOp (.pload x.toNat w) c.nextSeq (z.map (·.toNat)) 0) false [(x.toNat, n)]

/-- PSWAP takes no number, lock or stamp (spec/09 R231). -/
def execPswap (s : State) : Out := finish s do
  readsDone s.me
  queueRoom s.me
  .ok { s with me := (s.me.addOp (s.me.newOp .pswap 0 none 0)).retire }

def execPtest (d : BitVec 6) (s : State) : Out := finish s do
  let c := s.me
  readsDone c
  destS d c
  queueRoom c
  issueOp s d c (c.newOp .ptest c.nextSeq none 0) false []

def execPtestStamp (d : BitVec 6) (a : Src) (s : State) : Out := finish s do
  let c := s.me
  readsDone c
  destS d c
  let (z, c1) ← readS a c
  stampAlign c z
  stampRange c z
  queueRoom c
  issueOp s d (freeS a c1) (c.newOp .ptest c.nextSeq (some z.toNat) 0) false []

/-- The Press status (spec/09 R239). -/
def Core.pressStatus (c : Core) : W64 :=
  let b := fun (x : Bool) (k : Nat) => if x then 2 ^ k else 0
  let q := c.pressQueue
  let rows := (q.head?.map (·.row)).getD 0
  ofNat (b c.fenced 63 + b (!q.isEmpty) 62 + put q.length 56 + b c.active.scaled 55 + put c.active.fmt.code.toNat 50 +
    b c.shadow.scaled 49 + put c.shadow.fmt.code.toNat 44 + put rows 32 + c.lseq)

def execPqry (d : BitVec 6) (s : State) : Out := coreOp s fun c => do
  destS d c
  writeS d c.pressStatus c

/-! ### PRUN (spec/09 R232 to R236) -/

/-- Columns of a gang, K-block and N-block of a member (spec/09 R236). -/
def gangCols (n : Nat) : Nat := if n = 8 then 4 else if n = 1 then 1 else 2

/-- Member i of n writes accumulator rows. -/
def lastBlock (n i : Nat) : Bool := i / gangCols n + 1 == n / gangCols n

structure RunIssue where
  a    : Nat
  cmd  : W64
  z    : Option Nat
  core : Core              -- operands freed

/-- PRUN at one core: operands and checks 1 to 5. -/
def runIssue (c : Core) (d : BitVec 6) (a b e : Src) (fenced : W64 → Bool) : Res RunIssue := do
  readsDone c
  destS d c
  let (x, c1) ← readS a c
  let (w, c2) ← readS b c1
  let (z, c3) ← readStamp c2 (w.getLsbD 24) e
  let c3 := freeStamp z e (freeS b (freeS a c3))
  let r := RunCmd.of w
  let wt := c.fmtsAhead.1
  let m1 := cmdMask w ||| maskIf (!suits wt r.ty) (put 0x1F 16)
  need (m1 = 0) (.trap (precise c 0x002 w (ofNat m1) 1))
  need (planeMask r wt = 0) (.trap (precise c 0x002 w (ofNat (planeMask r wt)) 1))
  need (r.row0 + r.m ≤ 256) (.trap (precise c 0x202 w 0 0))
  need (x.toNat % 16 = 0) (.trap (precise c 0x201 x 16 0))
  stampChecks stampAlign c z
  need (c.arrayRanges (actRanges x.toNat r)) (.trap (precise c 0x202 x 0 0))
  stampChecks stampRange c z
  need (!fenced w) (.trap (precise c 0x404 w 0 0))
  queueRoom c
  .ok ⟨x.toNat, w, z.map (·.toNat), c3⟩

/-- Check 6 and the issue; `i` of `n`: the member, one of one where the run is not fused. -/
def runStart (s : State) (d : BitVec 6) (q : RunIssue) (n i : Nat) (mates : List (Nat × Nat)) : Res State := do
  let c := s.me
  let r := RunCmd.of q.cmd
  let wt := c.fmtsAhead.1
  let ranges := actRanges q.a r
  let room := if lastBlock n i then r.m * rowOut wt else 0
  needLock s false ranges
  needRing c room
  let o := c.newOp (.prun q.a q.cmd) c.nextSeq q.z room
  issueOp s d q.core { o with mates := mates } false ranges

/-- The operations of a fused head by member, in member order: those of members before the one in focus have issued in this clk. -/
def State.mates (s : State) (ms : List Nat) : List (Nat × Nat) :=
  ms.zipIdx.map fun k => (k.1, if k.2 < ms.idxOf s.cur then (s.core k.1).engSeq else (s.core k.1).nextSeq)

/-- PRUN, at one member; the operations of a fused run join (spec/09 R236). -/
def execPrun (d : BitVec 6) (a b e : Src) (s : State) : Out := finish s do
  let ms := s.gangOf
  let fused := fun (w : W64) => w.getLsbD 23 && decide (1 < ms.length)
  let q ← runIssue s.me d a b e fun w => s.me.fenced || (fused w && ms.any fun k => (s.core k).fenced)
  if fused q.cmd then runStart s d q ms.length (ms.idxOf s.cur) (s.mates ms) else runStart s d q 1 0 []

/-! ### Turns of the queue -/

/-- The planes before the first PLOAD or PSWAP of an uncommitted segment are kept (spec/09 R241). -/
def Core.keepPlanes (c : Core) (o : EngOp) : Core :=
  if c.opCommitted o || (aget c.planes0 o.seg).isSome then c
  else { c with planes0 := aset c.planes0 o.seg (c.active, c.shadow) }

/-- The operation has finished. -/
def Core.opFinish (c : Core) (o : EngOp) (flags : Fl) (failed : Bool) : Core :=
  let c := c.mapOp o.seq fun o => { o with st := .finished, flags := flags, failed := failed, room := 0 }
  { c with lseq := o.seq % 2 ^ 32 }

/-- The head of the Press queue. -/
def Core.turn (c : Core) : Option EngOp := c.pressQueue.head?

def firstPoison (c : Core) (rs : List (Nat × Nat)) : Option Nat :=
  (rs.flatMap fun r => linesOf r.1 r.2).find? c.poison.contains

/-- What the turn of the head of the queue does, by `f`; where that runs again, its bits stand (spec/15 R337). -/
def State.pressTurn (s : State) (f : EngOp → Option State) : Option State :=
  match s.me.turn with
  | none => none
  | some o => if o.redo then (f o).map fun _ => { s with me := s.me.rerun o } else f o

def execPloadExecute (core : Nat) (s : State) : Out := engineEvent core (fun s =>
  s.pressTurn fun o => match o.kind with
    | .pload a w =>
      let s := s.charge o.ctx.toNat 2 (linesOf a (loadBytes w)).length
      let c := (s.me.claimAll o.ctx a (loadBytes w)).keepPlanes o
      let load := fun (p : Bool) => { c with shadow := ⟨tyOf (w.setWidth 8), w.getLsbD 5, Mem.bytes c.mem a (loadBytes w), p⟩ }
      match firstPoison c [(a, loadBytes w)] with
      | none => some { s with me := (load false).opFinish o 0 false }
      | some n =>
        if c.opCommitted o then some (({ s with me := (load true).opFinish o 0 true }).opNotice o (ofNat (64 * n)) 0)
        else some (s.opUncorr o (ofNat (64 * n)) 0)
    | _ => none) s

def execPswapExecute (core : Nat) (s : State) : Out := engineEvent core (fun s =>
  match s.me.turn with
  | some o => match o.kind with
    | .pswap =>
      let c := s.me.keepPlanes o
      -- it stays on the list, done, while a rollback or a report may come back to the head that issued it
      let ran := fun (p : EngOp) => if p.ord = o.ord then { p with st := .complete, doneAt := c.clk } else p
      some { s with me := { c with active := c.shadow, shadow := c.active, ops := c.ops.map ran } }
    | _ => none
  | none => none) s

/-- A self-test product; its stored answer is not in the manual (log 22). A fenced Press fails (spec/09 R237). -/
def State.selfTest (s : State) : Bool × State :=
  let ok := Config.selfTestPasses s.nchoice && !s.me.fenced
  (ok, { s with nchoice := s.nchoice + 1, me := { s.me with fenced := s.me.fenced || !ok } })

def execPtestFinish (core : Nat) (s : State) : Out := engineEvent core (fun s =>
  s.pressTurn fun o => match o.kind with
    | .ptest => let s := s.selfTest.2; some { s with me := s.me.opFinish o 0 false }
    | _ => none) s

/-! ### Runs -/

/-- Element i of a packed sequence. -/
def packedAt (x w i : Nat) : Nat := (x >>> (w * i)) % 2 ^ w

/-- The operands of one K-block of a run: the plane, and the run of the member that holds it. -/
structure Block where
  core  : Nat
  plane : Plane
  mem   : Mem
  a     : Nat
  cmd   : RunCmd
deriving DecidableEq, Repr

/-- Element n of row i after the block. -/
def Block.step (k : Block) (i n c : Nat) : Nat × Fl :=
  let wt := k.plane.fmt
  let t := tileFor wt
  let at_ := k.cmd.ty
  let x := Mem.nat k.mem (k.a + 16 * k.cmd.astr * i) (packedBytes at_ t.k)
  let w := natOf k.plane.bytes
  let xs := (List.range t.k).map fun j => packedAt x at_.width j
  let ws := (List.range t.k).map fun j => packedAt w wt.width (j * t.n + n)
  let xsc := fun (g : Nat) => if k.cmd.asc then (Mem.byte k.mem (k.a + k.cmd.soff + 2 * i + g)).toNat else 127
  let wsc := fun (g : Nat) => if k.plane.scaled then (k.plane.bytes.getD (tileBytes wt + g * t.n + n) 0).toNat else 127
  blockStep wt at_ xs ws xsc wsc c

/-- An element through every block in ascending order, with each block's flags. -/
def chain (i n : Nat) : List Block → Nat → Nat × List Fl
  | [], c => (c, [])
  | k :: ks, c => let r := k.step i n c; let q := chain i n ks r.1; (q.1, r.2 :: q.2)

def orFls (a b : List Fl) : List Fl := if a.isEmpty then b else (a.zip b).map fun p => p.1 ||| p.2

/-- Row i of a run in the store of the output member: its bytes and each block's flags. -/
def runRow (blocks : List Block) (acc : Mem) (r : RunCmd) (wt : Ty) (i : Nat) : List Byte × List Fl :=
  let n := (tileFor wt).n
  let b := accBytes wt
  let at_ := fun (j : Nat) => if r.acc then Mem.nat acc (256 * (r.row0 + i) + b * j) b else 0
  let es := (List.range n).map fun j => chain i j blocks (at_ j)
  (es.flatMap fun e => bytesOf e.1 b, es.foldl (fun f e => orFls f e.2) [])

/-- An access by context x to accumulator row r claims it first (spec/09 R228). -/
def Core.claimRow (c : Core) (x : BitVec 8) (r : Nat) : Core :=
  if (aget c.accOwner r).getD 0 = x then c
  else { c with
    acc := Mem.clear c.acc (256 * r) 256, accOwner := aset c.accOwner r x
    accPoison := c.accPoison.filter fun q => decide (q / 4 ≠ r) }

/-- Row i of the run of operation o, at the output member in focus; `bad`: every quarter of it becomes poisoned (spec/09 R237, R452). -/
def Core.doRow (c : Core) (o : EngOp) (r : RunCmd) (bad : Bool) (i : Nat) (bs : List Byte) : Core :=
  let j := r.row0 + i
  let len := bs.length
  let c := c.save c.id o.seq o.seg o.ord (c.rowImage j 0 (if bad then 256 else len))
  let old := (quarters 0 len).filter fun q => c.accPoison.contains (4 * j + q)
  let whole := fun (q : Nat) => !r.acc && decide (64 * q + 64 ≤ len)
  let all := (List.range 4).map (4 * j + ·)
  let c := c.putRow j 0 bs (old.filter fun q => !whole q)
  let c := if bad then { c with accPoison := nunion c.accPoison all, derived := nunion c.derived (all.map (16384 + ·)) } else c
  c.mapOp o.seq fun o => { o with row := i + 1, st := .running, room := o.room - len }

/-- The members whose presses a run joins: (core, operation), in member order. -/
def State.runMates (s : State) (o : EngOp) : List (Nat × EngOp) :=
  if o.mates.isEmpty then [(s.cur, o)] else o.mates.filterMap fun m => ((s.core m.1).op? m.2).map fun p => (m.1, p)

def EngKind.run? : EngKind → Option (Nat × W64)
  | .prun a w | .follow a w => some (a, w)
  | _ => none

def State.blockOf (s : State) (m : Nat × EngOp) : Block :=
  let q := m.2.kind.run?.getD (0, 0)
  ⟨m.1, (s.core m.1).active, (s.core m.1).mem, q.1, RunCmd.of q.2⟩

/-- The column chains of a run: the blocks in ascending K, and the member that writes. -/
def chainsOf (ms : List (Nat × EngOp)) : List (List (Nat × EngOp)) :=
  let c := gangCols ms.length
  (List.range c).map fun nb => (ms.zipIdx.filter fun m => m.2 % c == nb).map (·.1)

/-- The members claim the lines of their activations, and the rows that they accumulate into (spec/07 R162, spec/09 R228). -/
def State.claimRun (s : State) (ms : List (Nat × EngOp)) : State :=
  ms.zipIdx.foldl (fun s x => onCore x.1.1 (fun s =>
    let q := x.1.2.kind.run?.getD (0, 0)
    let r := RunCmd.of q.2
    let c := (actRanges q.1 r).foldl (fun (c : Core) a => c.claimAll x.1.2.ctx a.1 a.2) s.me
    { s with me := if r.acc && lastBlock ms.length x.2 then (List.range r.m).foldl (fun c i => c.claimRow x.1.2.ctx (r.row0 + i)) c else c }) s) s

/-- The first poisoned thing that the runs meet: the member, the address, and its kind (spec/09 R452, R228). -/
def State.runPoison (s : State) (ms : List (Nat × EngOp)) : Option (Nat × W64 × W64) :=
  ms.zipIdx.findSome? fun x =>
    let m := x.1
    let c := s.core m.1
    let q := m.2.kind.run?.getD (0, 0)
    let r := RunCmd.of q.2
    match firstPoison c (actRanges q.1 r) with
    | some n => some (m.1, ofNat (64 * n), 0)
    | none =>
      let rows := if r.acc && lastBlock ms.length x.2 then (List.range r.m).map (r.row0 + ·) else []
      (rows.find? fun j => (quarters 0 (rowOut c.active.fmt)).any fun p => c.accPoison.contains (4 * j + p)).map fun j =>
        (m.1, ofNat (256 * j), 1)

/-- Rows from those done up to `upto` of every chain: the state, and the flags of each member. -/
def State.runRows (s : State) (ms : List (Nat × EngOp)) (bad : Bool) (upto : Nat) : State × List (Nat × Fl) :=
  (chainsOf ms).foldl (fun acc ch =>
    match ch.getLast? with
    | none => acc
    | some out =>
      let blocks := ch.map s.blockOf
      let r := (s.blockOf out).cmd
      let wt := (s.core out.1).active.fmt
      let from_ := ((s.core out.1).op? out.2.seq |>.map (·.row)).getD 0
      let s1 := onCore out.1 (fun s => { s with
        me := (List.range r.m).foldl (fun c i => c.claimRow out.2.ctx (r.row0 + i)) s.me }) acc.1
      let res := ((List.range (min upto r.m)).filter (from_ ≤ ·)).foldl (fun (p : State × List Fl) i =>
        let row := runRow blocks (p.1.core out.1).acc r wt i
        ((onCore out.1 (fun s => { s with me := s.me.doRow out.2 r bad i row.1 }) p.1).charge out.2.ctx.toNat 4 blocks.length,
          orFls p.2 row.2)) (s1, [])
      (res.1, acc.2 ++ (ch.zip res.2).map fun x => (x.1.1, x.2))) (s, [])

/-- The flags of the rows that a run had done before, with new ones. -/
def memberFlags (fs : List (Nat × Fl)) (k : Nat) : Fl := (fs.filter fun f => f.1 == k).foldl (fun a f => a ||| f.2) 0

/-- A follow-on run that its members do not perform (spec/14 R320): 0 a fenced Press, 1 a plane that does not suit. -/
def State.skipFollow (s : State) (ms : List (Nat × EngOp)) (cmd why : W64) : State :=
  ms.foldl (fun s m =>
    let s := onCore m.1 (fun s => { s with me := s.me.opFinish m.2 0 true }) s
    s.notice m.1 m.2.ctx (some m.2.lnch) 0x404 m.2.tid 0 cmd (ofNat (m.2.seq % 2 ^ 64)) why) s

/-- What the turn of a follow-on run at the core in focus does: its members, with word 7 of the notice where they do not perform it. -/
def State.followMates (s : State) (o : EngOp) (r : RunCmd) : Option (Option W64 × List (Nat × EngOp)) :=
  let ms := s.gangOf
  let why := fun (l : List (Nat × EngOp)) =>
    if l.any fun m => (s.core m.1).fenced then some 0
    else if l.any fun m => planeMask r (s.core m.1).active.fmt != 0 then some (1 : W64) else none
  if r.fuse ∧ 1 < ms.length then
    let pour := s.pours.any fun p => followKey p.core p.seq == o.seq
    let got := ms.map fun k => ((s.core k).op? o.seq).map fun p => (k, p)
    if got.all Option.isSome then
      if ms.all fun k => ((s.core k).turn.map (·.seq)) == some o.seq then
        let l := got.filterMap fun x => x
        some (why l, l)
      else none
    else if pour then none
    else some (some 0, [(s.cur, o)])
  else some (why [(s.cur, o)], [(s.cur, o)])

/-- The members' self-tests after a run, all of them. -/
def State.selfTests (s : State) : List Nat → Bool × State
  | [] => (true, s)
  | k :: ks =>
    let r := (s.focus k).selfTest
    let q := (r.2.focus s.cur).selfTests ks
    (r.1 && q.1, q.2)

/-- Every member's operation has finished. -/
def State.finishRun (s : State) (ms : List (Nat × EngOp)) (fs : List (Nat × Fl)) (failed : Bool) : State :=
  ms.foldl (fun s m => onCore m.1 (fun s =>
    { s with me := s.me.opFinish m.2 (m.2.flags ||| memberFlags fs m.1) failed }) s) s

/-- The members that perform the run at the Press's turn, once each of them has reached it. -/
def State.atTurn (s : State) (o : EngOp) : Option (List (Nat × EngOp)) :=
  match o.kind with
  | .prun .. =>
    let ms := s.runMates o
    if ms.all fun m => ((s.core m.1).turn.map (·.ord)) == some m.2.ord then some ms else none
  | .follow _ cmd =>
    let r := RunCmd.of cmd
    match s.followMates o r with
    | some (none, ms) =>
      let room := fun (c : Core) => r.m * rowOut c.active.fmt
      if ms.zipIdx.all fun m => !lastBlock ms.length m.2 || decide ((s.core m.1.1).ringUsed + room (s.core m.1.1) ≤ Config.ringCap) then some ms
      else none
    | _ => none
  | _ => none

/-- A halt stops the run in progress at a row boundary, the machine's choice which, in every member alike (spec/09 R242). -/
def State.pressHalt (s : State) : State :=
  match s.me.turn with
  | none => s
  | some o =>
    match (if o.redo then none else s.atTurn o) with
    | none => s
    | some ms =>
      let s := s.claimRun ms
      let p := s.pick
      let m := (RunCmd.of (o.kind.run?.getD (0, 0)).2).m
      let row := (ms.map (·.2.row)).foldl max 0
      if (s.runPoison ms).isNone && (ms.all fun k => !(s.core k.1).fenced && !(s.core k.1).active.poison) && decide (row < m) then
        let upto := row + p.1 % (m - row)
        let r := p.2.runRows ms false upto
        ms.foldl (fun s k => onCore k.1 (fun s => { s with
          me := s.me.mapOp k.2.seq fun o => { o with flags := o.flags ||| memberFlags r.2 k.1, row := upto } }) s) r.1
      else s

/-- The notice of member k of a fused operation, under its own number, or of the one operation (spec/09 R452). -/
def State.memberNotice (s : State) (ms : List (Nat × EngOp)) (k : Nat) (a kind : W64) : State :=
  match ms.find? fun m => m.1 == k with
  | some m => onCore k (fun s => s.opNotice m.2 a kind) s
  | none => s

/-- The PFENCED records of a run, of every member in the same way (spec/09 R237). -/
def State.fencedNotices (s : State) (ms : List (Nat × EngOp)) : State :=
  ms.foldl (fun s m => s.notice m.1 m.2.ctx (some m.2.lnch) 0x404 m.2.tid 0 (m.2.kind.run?.getD (0, 0)).2 (ofNat (m.2.seq % 2 ^ 64)) 0) s

/-- The rows of a run, its self-tests, and what follows poison or a failed test (spec/09 R237, R452). A run whose segment has not committed is
cancelled with it. A run over a poisoned plane, which holds no line or row that was poisoned, names its first row: the manual does not say
which address its notice holds. DESIGN CHOICE, log 66. -/
def State.runTurn (s : State) (o : EngOp) (ms : List (Nat × EngOp)) : State :=
  let committed := ms.all fun m => (s.core m.1).opCommitted m.2
  let plane := ms.any fun m => (s.core m.1).active.poison
  let s := s.claimRun ms
  match s.runPoison ms, committed with
  | some (k, a, kind), false => onCore k (fun s => s.opUncorr (((ms.find? fun m => m.1 == k).map (·.2)).getD o) a kind) s
  | poison, _ =>
    let (ok, s) := s.selfTests (ms.map (·.1))
    if !ok && !committed then s.rollGang (s.me.closedFrom o.seg) false
    else
      let failed := plane || poison.isSome
      let r := s.runRows ms (failed || !ok) 256
      let s := r.1.finishRun ms r.2 failed
      let s := match poison with
        | some (k, a, kind) => s.memberNotice ms k a kind
        | none => match ms.find? fun m => (s.core m.1).active.poison with
          | some m => s.memberNotice ms m.1 (ofNat (256 * (RunCmd.of (m.2.kind.run?.getD (0, 0)).2).row0)) 1
          | none => s
      if ok then s else s.fencedNotices ms

def execPrunFinish (core : Nat) (s : State) : Out := stoppingEvent core State.pressHalt (fun s =>
  match s.me.turn with
  | none => none
  | some o => if o.redo && o.kind.run?.isSome then some { s with me := s.me.rerun o } else match o.kind with
    | .prun .. => (s.atTurn o).map (s.runTurn o)
    | .follow _ cmd =>
      match s.followMates o (RunCmd.of cmd) with
      | some (some why, ms) => some (s.skipFollow ms cmd why)
      | _ => (s.atTurn o).map (s.runTurn o)
    | _ => none) s

/-! ### PACC (spec/09 R235) -/

/-- Every earlier run that writes one of the rows has finished. -/
def rowsDone (c : Core) (row0 n : Nat) : Res Unit :=
  need (c.pressQueue.all fun o => match o.kind.run? with
    | some (_, w) => let r := RunCmd.of w; !overlaps row0 n r.row0 r.m
    | none => true) (.wait .engine)

/-- Bytes of accumulator rows zeroed by the open segment, their pre-images kept. -/
def Core.zeroRow (c : Core) (r off n : Nat) (clearPoison : Bool) : Core :=
  let p := if clearPoison then [] else (quarters off n).filter fun q => c.accPoison.contains (4 * r + q)
  let c' := c.save c.id 0 c.seg.id c.nord (c.rowImage r off n)
  { (c'.putRow r off (List.replicate n 0) p) with nord := c.nord + 1 }

/-- PACC reads quarters qs of row r (spec/09 R228, spec/17 R355). -/
def rowClean (c : Core) (r : Nat) (qs : List Nat) : Res Unit :=
  match qs.find? fun q => c.accPoison.contains (4 * r + q) with
  | none => .ok ()
  | some q => .error (.uncorr (ofNat (256 * r)) 1 (!c.rowFresh r && !c.derived.contains (16384 + 4 * r + q)))

def execPaccReg (d : BitVec 5) (a : Src) (s : State) : Out := coreOp s fun c => do
  readsDone c
  destV d c
  let (x, c1) ← readS a c
  need (x.toNat < 4096) (.trap (precise c 0x002 x (ofNat (x.toNat / 4096 * 4096)) 1))
  let r := bits x 7 0
  let q := bits x 9 8
  let drop := x.getLsbD 11
  rowsDone c r 1
  let zero := drop || x.getLsbD 10
  needRing c (if zero then 64 else 0)
  let c2 := (freeS a c1).claimRow c.act.ctx r
  rowClean c2 r (if drop then [] else [q])
  let v : Line := if drop then 0 else BitVec.ofNat 512 (Mem.nat c2.acc (256 * r + 64 * q) 64)
  writeV d v (if zero then c2.zeroRow r (64 * q) 64 drop else c2)

/-- The offending bits of a drain descriptor. -/
def drainMask (w : W64) (src dst : Ty) : Nat :=
  let n := bits w 21 16 + 1
  (w.toNat / 2 ^ 31 * 2 ^ 31) ||| maskIf (decide (16 * bits w 30 23 < n * (dst.width / 8))) (put 0xFF 23) |||
    maskIf (src == .f64 && decide (32 < n)) (put 0x3F 16)

/-- An own store of one element; an undo line is already there (spec/09 R235, spec/05 R140). -/
def storeEls (c : Core) : List (Nat × List Byte) → Res Core
  | [] => .ok c
  | e :: es => do
    let c ← c.ownStore e.1 e.2
    storeEls c es

def execPaccMem (a b : Src) (src : Ty) (rm : Rnd) (sat : Bool) (t : Ty) (s : State) : Out := coreOp s fun c => do
  readsDone c
  let (x, c1) ← readS a c
  let (w, c2) ← readS b c1
  need (drainMask w src t = 0) (.trap (precise c 0x002 w (ofNat (drainMask w src t)) 1))
  let row0 := bits w 7 0
  let count := bits w 15 8 + 1
  let n := bits w 21 16 + 1
  let sz := t.width / 8
  let from_ := src.width / 8
  let stride := 16 * bits w 30 23
  need (row0 + count ≤ 256) (.trap (precise c 0x202 w 0 0))
  need (x.toNat % sz = 0) (.trap (precise c 0x201 x (ofNat sz) 0))
  let out := (List.range count).map fun r => (x.toNat + stride * r, n * sz)
  need (c.arrayRanges out) (.trap (precise c 0x202 x 0 0))
  rowsDone c row0 count
  let clr := w.getLsbD 22
  needRing c (if clr then count * n * from_ else 0)
  needLines c (out.flatMap fun r => linesOf r.1 r.2)
  let c3 := (List.range count).foldl (fun c r => c.claimRow c.act.ctx (row0 + r)) (freeS b (freeS a c2))
  ((List.range count).map fun r => rowClean c3 (row0 + r) (quarters 0 (n * from_))).foldr (fun x y => do x; y) (.ok ())
  let els : List (Nat × Nat × Fl) := (List.range count).flatMap fun r => (List.range n).map fun j =>
    (x.toNat + stride * r + sz * j, convert (Mem.nat c3.acc (256 * (row0 + r) + from_ * j) from_) src t rm sat)
  let c4 ← c3.raiseFlags (els.foldl (fun f e => f ||| e.2.2) 0)
  let c5 ← storeEls c4 (els.map fun e => (e.1, bytesOf e.2.1 sz))
  .ok (if clr then (List.range count).foldl (fun c r => c.zeroRow (row0 + r) 0 (n * from_) false) c5 else c5)

end Sys2Proof.Machine
end

