-- ==== Sys2Proof/Machine/Grinder.lean ====
section
/-! DEFINITION. The Grinder: GSORT, GQRY and the phases of a sort (spec/09 R243 to R248). -/

namespace Sys2Proof.Machine

/-- A pair with its hidden original position. -/
abbrev GCell := W64 × W64 × Nat

/-- Before of spec/09 R243. -/
def gBefore (kfmt : BitVec 2) (desc : Bool) (x y : GCell) : Bool :=
  let a := orderKey x.1 kfmt
  let b := orderKey y.1 kfmt
  if a ≠ b then (if desc then decide (b < a) else decide (a < b)) else decide (x.2.2 < y.2.2)

def gInsert (lt : GCell → GCell → Bool) (x : GCell) : List GCell → List GCell
  | [] => [x]
  | y :: l => if lt x y then x :: y :: l else y :: gInsert lt x l

/-- A line after its odd-even transpositions, as many steps as it has pairs: in Before order. -/
def gSort (lt : GCell → GCell → Bool) (l : List GCell) : List GCell := l.foldr (gInsert lt) []

/-- Rows of eight. -/
def gRows (cells : List GCell) : List (List GCell) := (List.range (cells.length / 8)).map fun r => (cells.drop (8 * r)).take 8

/-- T of spec/09 R244, for P pairs. -/
def gTotal (p : Nat) : Nat := 2 * log2 (p / 8) + 2

/-- Phase t on the whole grid. -/
def gPhase (lt : GCell → GCell → Bool) (t : Nat) (cells : List GCell) : List GCell :=
  let rows := gRows cells
  if t + 1 = gTotal cells.length then rows.flatMap (gSort lt)
  else if t % 2 = 0 then
    rows.zipIdx.flatMap fun r => if r.2 % 2 = 0 then gSort lt r.1 else (gSort lt r.1).reverse
  else
    let cols := (List.range 8).map fun j => gSort lt (rows.filterMap fun r => r[j]?)
    (List.range rows.length).flatMap fun r => cols.filterMap fun l => l[r]?

/-- Phases from `t` on, n of them. -/
def gRun (lt : GCell → GCell → Bool) : Nat → Nat → List GCell → List GCell
  | 0, _, cells => cells
  | n + 1, t, cells => gRun lt n (t + 1) (gPhase lt t cells)

/-! ### GSORT -/

/-- The offending bits of a sort command word (spec/09 R245). -/
def sortMask (w : W64) : Nat := w.toNat &&& 0xFFFFFFFFFFFFF0C0

/-- log2 of the members that share the tile. -/
def gSize (n : Nat) : Nat := log2 n

def EngKind.sort? : EngKind → Option (Nat × W64)
  | .gsort a w => some (a, w)
  | _ => none

structure SortIssue where
  a    : Nat
  cmd  : W64
  z    : Option Nat
  core : Core

def sortIssue (c : Core) (d : BitVec 6) (a b e : Src) : Res SortIssue := do
  readsDone c
  destS d c
  let (x, c1) ← readS a c
  let (w, c2) ← readS b c1
  let (z, c3) ← readStamp c2 (w.getLsbD 5) e
  let c3 := freeStamp z e (freeS b (freeS a c3))
  need (sortMask w = 0) (.trap (precise c 0x002 w (ofNat (sortMask w)) 1))
  need (x.toNat % 64 = 0) (.trap (precise c 0x201 x 64 0))
  stampChecks stampAlign c z
  need (c.ownArray x 1024 && decide (x.toNat % 65536 + 1024 ≤ 65536)) (.trap (precise c 0x202 x 0 0))
  stampChecks stampRange c z
  need (c.ops.all fun o => o.kind.sort?.isNone || !o.inFlight) (.wait .engine)
  .ok ⟨x.toNat, w, z.map (·.toNat), c3⟩

/-- The Grinder once an operation has issued: running, and for a new sort its latched fields. -/
def Grinder.start (g : Grinder) (a : Nat) (w : W64) (n : Nat) : Grinder :=
  if w.getLsbD 3 then { g with st := .running }
  else ⟨.running, w.extractLsb' 0 2, w.getLsbD 2, gSize n, 0, gTotal (64 * n), a, []⟩

/-- R223, R224 and the RANGE of a continuation, then the issue, at one of n members. -/
def sortStart (s : State) (d : BitVec 6) (q : SortIssue) (n : Nat) (mates : List (Nat × Nat)) : Res State := do
  let c := s.me
  let g := c.grinder
  needLock s true [(q.a, 1024)]
  needRing c 1024
  need (!q.cmd.getLsbD 3 || (g.st == .held && g.base == q.a && g.gsz == gSize n)) (.trap (precise c 0x202 (ofNat q.a) 0 0))
  let o := c.newOp (.gsort q.a q.cmd) c.nextSeq q.z 1024
  let keep := if (aget c.grind0 c.seg.id).isSome then c.grind0 else aset c.grind0 c.seg.id g
  issueOp s d { q.core with grind0 := keep, grinder := g.start q.a q.cmd n } { o with mates := mates, g0 := some (g.start q.a q.cmd n) } true [(q.a, 1024)]

/-- GSORT, at one member; the operations of a fused sort join (spec/09 R243). -/
def execGsort (d : BitVec 6) (a b e : Src) (s : State) : Out := finish s do
  let ms := s.gangOf
  let q ← sortIssue s.me d a b e
  if q.cmd.getLsbD 4 && decide (1 < ms.length) then sortStart s d q ms.length (s.mates ms) else sortStart s d q 1 []

/-- The Grinder status (spec/09 R247). -/
def Grinder.status (g : Grinder) : W64 :=
  let st := match g.st with | .idle => 0 | .held => 1 | .running => 2
  ofNat (put st 62 + put g.kfmt.toNat 60 + put (if g.desc then 1 else 0) 59 + put g.gsz 56 + put g.phase 52 + put g.total 48 +
    g.base)

def execGqry (d : BitVec 6) (s : State) : Out := coreOp s fun c => do
  destS d c
  writeS d c.grinder.status c

/-! ### A slice (spec/09 R246) -/

/-- The pairs of a member's tile, numbered from p. -/
def tilePairs (m : Mem) (a p : Nat) : List GCell :=
  (List.range 64).map fun i => (Mem.word m (a + 16 * i), Mem.word m (a + 16 * i + 8), p + i)

def pairBytes (l : List GCell) : List Byte := l.flatMap fun c => bytesOf c.1.toNat 8 ++ bytesOf c.2.1.toNat 8

/-- The members of a sort in order. -/
def State.sortMates (s : State) (o : EngOp) : List (Nat × EngOp) :=
  if o.mates.isEmpty then [(s.cur, o)] else o.mates.filterMap fun m => ((s.core m.1).op? m.2).map fun p => (m.1, p)

/-- The cells write back to the tile in focus, their lines' pre-images saved; `bad`: every line poisoned. -/
def Core.writeTile (c : Core) (o : EngOp) (a : Nat) (cells : List GCell) (bad : Bool) : Core :=
  let ns := linesOf a 1024
  let c := ns.foldl (fun (c : Core) n => c.save c.id o.seq o.seg o.ord (c.lineImage n (BitVec.allOnes 64))) c
  let c := c.poke a (pairBytes cells)
  if bad then { (ns.foldl (fun (c : Core) n => c.setPoison n true) c) with derived := nunion c.derived ns } else c

def Core.sortFinish (c : Core) (o : EngOp) (failed : Bool) : Core :=
  c.mapOp o.seq fun o => { o with st := .finished, failed := failed, room := 0 }

/-- Steps of phase p of a sort of `total` phases (spec/09 R244). -/
def phaseSteps (total p : Nat) : Nat := if p % 2 = 0 ∨ p + 1 = total then 8 else 2 ^ ((total - 2) / 2)

/-- The slice of a sort, up to phase `last` of it (all of the slice where none is given). -/
def State.sortSlice (s : State) (o : EngOp) (ms : List (Nat × EngOp)) (w : W64) (stopAt : Option Nat) : State :=
  let g := s.me.grinder
  let begin_ := !w.getLsbD 3 && decide (g.phase = 0) && g.cells.isEmpty
  let cells := ms.zipIdx.flatMap fun m =>
    let c := s.core m.1.1
    if begin_ then tilePairs c.mem (m.1.2.kind.sort?.getD (0, 0)).1 (64 * m.2) else c.grinder.cells
  let lim := bits w 11 8
  let from_ := o.row
  let goal := if lim = 0 then g.total else min g.total (g.phase - from_ + lim)
  let last := min goal (stopAt.getD goal)
  let s := (s.charge o.ctx.toNat 5 (((List.range (last - g.phase)).map fun i => phaseSteps g.total (g.phase + i)).sum * ms.length)).charge o.ctx.toNat 2
    (16 * ms.length * ((if begin_ then 1 else 0) + if stopAt.isNone then 1 else 0))
  let out := gRun (gBefore g.kfmt g.desc) (last - g.phase) g.phase cells
  ms.zipIdx.foldl (fun s m => onCore m.1.1 (fun s =>
    let c := s.me
    let mine := (out.drop (64 * m.2)).take 64
    let gr := { c.grinder with cells := mine, phase := last }
    if stopAt.isSome then
      { s with me := ({ c with grinder := gr } : Core).mapOp m.1.2.seq fun o => { o with row := o.row + (last - g.phase) } }
    else
      let c := { c with grinder := { gr with st := if last = g.total then .idle else .held } }
      { s with me := (c.writeTile m.1.2 (m.1.2.kind.sort?.getD (0, 0)).1 mine false).sortFinish m.1.2 false }) s) s

/-- A poisoned tile line that the load meets: the member and the line. -/
def State.sortPoison (s : State) (ms : List (Nat × EngOp)) : Option (Nat × Nat) :=
  ms.findSome? fun m =>
    let q := m.2.kind.sort?.getD (0, 0)
    if q.2.getLsbD 3 || !(s.core m.1).grinder.cells.isEmpty then none
    else (firstPoison (s.core m.1) [(q.1, 1024)]).map fun n => (m.1, n)

/-- Every member claims the lines of its tile (spec/07 R162). -/
def State.claimTiles (s : State) (ms : List (Nat × EngOp)) : State :=
  ms.foldl (fun s m => onCore m.1 (fun s => { s with me := s.me.claimAll m.2.ctx (m.2.kind.sort?.getD (0, 0)).1 1024 }) s) s

/-- A halt stops the sort at a phase boundary, the machine's choice which (spec/09 R248). -/
def State.grinderHalt (s : State) : State :=
  match s.me.ops.find? fun o => o.kind.sort?.isSome && o.pending with
  | none => s
  | some o => if o.redo then s else
    let ms := s.sortMates o
    let s := s.claimTiles ms
    if (s.sortPoison ms).isSome then s
    else let p := s.pick; p.2.sortSlice o ms (o.kind.sort?.getD (0, 0)).2 (some (s.me.grinder.phase + p.1 % (s.me.grinder.total + 1)))

def execGrinderSliceFinish (core : Nat) (s : State) : Out := stoppingEvent core State.grinderHalt (fun s =>
  match s.me.ops.find? fun o => o.kind.sort?.isSome && o.pending with
  | none => none
  | some o =>
    if o.redo then some { s with me := s.me.rerun o } else
    let w := (o.kind.sort?.getD (0, 0)).2
    let ms := s.sortMates o
    let s := s.claimTiles ms
    match s.sortPoison ms with
    | none => some (s.sortSlice o ms w none)
    | some (k, n) =>
      if ms.all fun m => (s.core m.1).opCommitted m.2 then
        let s := ms.foldl (fun s m => onCore m.1 (fun s =>
          let a := (m.2.kind.sort?.getD (0, 0)).1
          let c := s.me.writeTile m.2 a (tilePairs s.me.mem a 0) true
          { s with me := ({ c with grinder := { c.grinder with st := .idle } } : Core).sortFinish m.2 true }) s) s
        some (s.memberNotice ms k (ofNat (64 * n)) 0)
      else some (onCore k (fun s => s.opUncorr (((ms.find? fun m => m.1 == k).map (·.2)).getD o) (ofNat (64 * n)) 0) s)) s

/-- The engines of a core stop at their boundaries (spec/20 R387, step 4, R393). -/
def State.stopEngines (s : State) : State := s.pressHalt.grinderHalt

end Sys2Proof.Machine
end

