-- ==== Sys2Proof/Machine/Streams.lean ====
section
/-! DEFINITION. Stream registers: SBIND, SUNB, SQRY (spec/14 R304 to R313). -/

namespace Sys2Proof.Machine

/-- A 64-byte block of own ARRAY memory that an instruction reads at issue: ALIGN, then RANGE (spec/14 R307, R317). -/
def ownBlock (c : Core) (a : W64) : Res (Msg × Core) := do
  need (a.toNat % 64 = 0) (.trap (precise c 0x201 a 64 0))
  need (c.ownArray a 64) (.trap (precise c 0x202 a 0 0))
  let c' := c.claimAll c.act.ctx a.toNat 64
  notPoisoned c' (linesOf a.toNat 64)
  .ok (Mem.msg c'.mem a.toNat, c')

/-- A stream descriptor (spec/14 R305). -/
structure StreamDesc where
  base : W64
  sgn  : Bool
  hdl  : Bool
  out  : Bool
  esz  : Nat
  dims : List (Nat × Int)
deriving DecidableEq, Repr

def StreamDesc.of (m : Msg) : StreamDesc :=
  let w := fun (i : Nat) => m.toList.getD i 0
  ⟨w 0, (w 1).getLsbD 7, (w 1).getLsbD 6, (w 1).getLsbD 5, 2 ^ bits (w 1) 1 0,
    (List.range (bits (w 1) 3 2 + 1)).map fun k => (bits (w (k + 2)) 23 0, sext (bits (w (k + 2)) 63 32) 32)⟩

/-- Elements of the pattern. -/
def StreamDesc.total (x : StreamDesc) : Nat := (x.dims.map (·.1)).foldl (· * ·) 1

/-- Lowest and highest element address, counted from the base offset. -/
def StreamDesc.extent (x : StreamDesc) : Int × Int :=
  x.dims.foldl (fun e d => let k : Int := ((d.1 - 1 : Nat) : Int) * d.2; (e.1 + min 0 k, e.2 + max 0 k)) (0, 0)

/-- The reserved bits that a descriptor sets, and its forbidden values, by the first word that holds one (spec/14 R307). -/
def descMask (m : Msg) (v : Bool) : Nat :=
  let w := fun (i : Nat) => (m.toList.getD i 0)
  let x := StreamDesc.of m
  let m1 := ((w 1).toNat &&& (2 ^ 64 - 256 + 16)) ||| maskIf (v && x.sgn) 0x80
  let dim := fun (k : Nat) =>
    if k < x.dims.length then
      ((w (k + 2)).toNat &&& 0xFF000000) ||| maskIf (bits (w (k + 2)) 23 0 == 0) 0xFFFFFF |||
        maskIf (bits (w (k + 2)) 63 32 % x.esz != 0) (2 ^ 64 - 2 ^ 32)
    else (w (k + 2)).toNat
  let parts := [maskIf (x.base.toNat % x.esz != 0) (x.esz - 1), m1, dim 0, dim 1, dim 2, dim 3, (w 6).toNat, (w 7).toNat]
  match parts.find? (· != 0) with
  | some p => p
  | none => maskIf (v && x.total % (64 / x.esz) != 0) 0xFFFFFF

/-- Kind of the first lock that a range meets. -/
def lockKindAt (ls : List Lock) (a : Nat) : W64 := ((lockOn ls a 1).map Lock.kind).getD 0

def execSbind (d : BitVec 6) (a : Src) (s : State) : Out := finish s do
  let c := s.me
  readsDone c
  (if d.toNat < 32 then destV (d.setWidth 5) c else destS d c)
  let (x, c1) ← readS a c
  let (m, c2) ← ownBlock (freeS a c1) x
  let v := decide (d.toNat < 32)
  let q := StreamDesc.of m
  let mask := descMask m v
  need (mask = 0) (.trap (precise c 0x002 x (ofNat mask) 1))
  need (c.stream? d.toNat).isNone (.trap (precise c 0x202 (ofNat d.toNat) 0 0))
  let off : Int := if q.hdl then (bits q.base 47 0 : Nat) else (q.base.toNat : Nat)
  let lo := off + q.extent.1
  let len := (q.extent.2 - q.extent.1).toNat + q.esz
  if q.hdl then
    let h := bits q.base 63 48
    need (c.closing.isEmpty && c.pubs.isEmpty) (.wait .commit)
    let bad := if lo < 0 then some (match s.handle c.act.ctx.toNat h with | none => 1 | some _ => 2)
      else s.handleFault c.act.ctx.toNat h lo.toNat len q.out
    (match bad with
      | some k => trap c 0x405 q.base 0 (ofNat k)
      | none => .ok ())
    match s.handle c.act.ctx.toNat h with
    | none => trap c 0x405 q.base 0 1
    | some e =>
      let pa := e.base + lo.toNat
      (match lockConflict s.dlocks q.out [(pa, len)] with
        | some z => trap c 0x205 (ofNat (put h 48 + (z - e.base))) (lockKindAt s.dlocks z)
        | none => .ok ())
      let t : Stream := ⟨d.toNat, e.base + off.toNat, some h, !e.host && !s.ownPa e.base, e.tag, pa, len, q.out, q.esz, q.sgn, q.dims, 0, [], false⟩
      .ok (({ s with me := (bindTo d v t c2).retire }).relockStreams)
  else
    need (decide (0 ≤ lo) && c.ownArray (ofNat lo.toNat) len) (.trap (precise c 0x202 q.base 0 0))
    (match lockConflict c.locks q.out [(lo.toNat, len)] with
      | some z => trap c 0x205 (ofNat z) (lockKindAt c.locks z)
      | none => .ok ())
    need s.lockFree (.wait .lock)
    let t : Stream := ⟨d.toNat, off.toNat, none, false, 0, lo.toNat, len, q.out, q.esz, q.sgn, q.dims, 0, [], false⟩
    .ok (({ s with me := (bindTo d v t c2).retire }).relockStreams)
where
  /-- The binding takes the register, whose value is discarded. -/
  bindTo (d : BitVec 6) (v : Bool) (t : Stream) (c : Core) : Core :=
    let c := if v then c.setV (d.setWidth 5) .vacant else c.setS d .vacant
    { c with streams := c.streams ++ [t] }

def execSunb (d : BitVec 6) (s : State) : Out := finish s do
  let c := s.me
  readsDone c
  .ok (({ s with me := ({ c with streams := c.streams.filter fun t => t.code != d.toNat }).retire }).relockStreams)

/-- The status word of a binding (spec/14 R313). -/
def Stream.status (t : Stream) : W64 :=
  let b := fun (x : Bool) (k : Nat) => if x then 2 ^ k else 0
  let esz := match t.esz with | 1 => 0 | 2 => 1 | 4 => 2 | _ => 3
  ofNat (2 ^ 63 + b t.out 62 + b t.hdl.isSome 61 + b t.done 60 + put t.buf.length 54 + put esz 48 + t.pos)

def execSqry (d : BitVec 6) (a : Src) (s : State) : Out := coreOp s fun c => do
  destS d c
  let (x, c1) ← readS a c
  need (decide (x.toNat < 64)) (.trap (precise c 0x002 x (ofNat (x.toNat / 64 * 64)) 1))
  need (streamCode (x.setWidth 6)) (.trap (precise c 0x002 x 0x3F 1))
  writeS d ((c1.stream? x.toNat).elim 0 Stream.status) (freeS a c1)

end Sys2Proof.Machine
end

