-- ==== Sys2Proof/Machine/Pour.lean ====
section
/-! DEFINITION. Pours: POUR, POURQ, HNDQ, and the steps of the hub's Pour engine (spec/14 R314 to R324, spec/15 R328). -/

namespace Sys2Proof.Machine

/-! ### The command block (spec/14 R315, R316) -/

structure PourDesc where
  src    : W64
  dst    : W64
  rbytes : Nat
  rows   : Nat
  dstr   : Int
  sstr   : Int
  fstmp  : Nat
  ch     : Nat
  dk     : Nat
  sh     : Bool
  cmode  : Nat
  follow : Bool
  bar    : Nat
  stamp  : Nat
  mask   : W64
  fcmd   : W64
deriving DecidableEq, Repr

def PourDesc.of (m : Msg) : PourDesc :=
  let w := fun (i : Nat) => m.toList.getD i 0
  { src := w 0, dst := w 1, rbytes := bits (w 2) 43 24, rows := bits (w 2) 15 0 + 1, dstr := sext (bits (w 3) 63 32) 32
    sstr := sext (bits (w 3) 31 0) 32, fstmp := bits (w 4) 63 44, ch := bits (w 4) 43 40, dk := bits (w 4) 39 38
    sh := (w 4).getLsbD 37, cmode := bits (w 4) 36 35, follow := (w 4).getLsbD 34, bar := bits (w 5) 39 20
    stamp := bits (w 5) 19 0, mask := w 6, fcmd := w 7 }

/-- A byte barrier is named; a stamp is wanted. -/
def PourDesc.hasBar (p : PourDesc) : Bool := p.cmode == 1 || p.cmode == 2
def PourDesc.hasStamp (p : PourDesc) : Bool := p.cmode == 0 || p.cmode == 2
def PourDesc.hasFstmp (p : PourDesc) : Bool := p.follow && !p.fcmd.getLsbD 24
def PourDesc.total (p : PourDesc) : Nat := p.rbytes * p.rows

/-- First bytes of the rows read and of the rows written, from a base. -/
def rowsFrom (base : Nat) (stride : Int) (n : Nat) : List Int := (List.range n).map fun (r : Nat) => (base : Int) + r * stride

/-- The bases as offsets: private, of a handle, or in the named core's memory. -/
def PourDesc.srcOff (p : PourDesc) : Nat := if p.sh then bits p.src 47 0 else p.src.toNat
def PourDesc.dstOff (p : PourDesc) : Nat := if p.dk = 1 then bits p.dst 47 0 else bits p.dst 19 0

/-- Lowest byte and length of a pattern of rows. -/
def span (base : Nat) (stride : Int) (n len : Nat) : Int × Nat :=
  let last := (base : Int) + ((n - 1 : Nat) : Int) * stride
  (min base last, (max (base : Int) last - min (base : Int) last).toNat + len)

/-- The first word of the block that breaks check 2, with its offending bits (spec/14 R317). -/
def pourMask (m : Msg) : Option (W64 × Nat) :=
  let w := fun (i : Nat) => m.toList.getD i 0
  let n := fun (i : Nat) => (w i).toNat
  let p := PourDesc.of m
  let r := RunCmd.of p.fcmd
  let high := fun (x : Nat) => x / 2 ^ 20 * 2 ^ 20
  let win := (n 1 &&& (put 0xF 60 + put 0x7F 20)) ||| maskIf (bits (w 1) 55 48 != 0xFE) (put 0xFF 48)
  let d := span p.dstOff p.dstr p.rows p.rbytes
  let act := (p.dstOff : Int) + (16 * r.astr * (r.m - 1) + actRow r.ty : Nat)
  let f := cmdMask p.fcmd ||| maskIf (decide (256 < r.row0 + r.m)) (put 0xFF 8) |||
    maskIf (decide (d.1 + d.2 < act)) (put 0xFF 32 + 0xFF)
  let parts := [
    (n 0 &&& 7) ||| maskIf (!p.sh) (high (n 0)),
    (n 1 &&& 7) ||| (if p.dk = 2 then win else maskIf (p.dk != 1) (high (n 1))),
    (n 2 &&& (put 0xFFFFF 44 + put 0xFF 16)) ||| maskIf (p.rbytes == 0 || p.rbytes % 8 != 0) (put 0xFFFFF 24),
    n 3 &&& (put 7 32 + 7),
    (n 4 &&& (2 ^ 34 - 1 + put 7 44)) ||| maskIf (p.cmode == 3 || (p.dk == 1 && p.hasBar)) (put 3 35) |||
      maskIf (p.dk == 1 && p.follow) (put 1 34),
    n 5 &&& (put 0xFFFFFF 40 + put 0xF 20 + 7),
    if p.dk = 3 then maskIf (p.mask == 0) (2 ^ 64 - 1) else n 6,
    if p.follow then f else n 7]
  match parts.zipIdx.find? fun x => x.1 != 0 with
  | some x => some (w x.2, x.1)
  | none => none

/-! ### Places -/

/-- The receivers: cores, or 8,192 for a handle. -/
def PourDesc.recvs (p : PourDesc) (core : Nat) : List Nat :=
  match p.dk with
  | 0 => [core]
  | 1 => [8192]
  | 2 => [winCore p.dst]
  | _ => ((List.range 64).filter fun k => p.mask.getLsbD k).map (64 * clusterOf core + ·)

/-- Rows as byte ranges; empty where one starts below zero. -/
def rangesOf (base : Nat) (stride : Int) (n len : Nat) : List (Nat × Nat) :=
  (rowsFrom base stride n).map fun x => (x.toNat, len)

def PourDesc.srcRanges (p : PourDesc) : List (Nat × Nat) := rangesOf p.srcOff p.sstr p.rows p.rbytes
def PourDesc.dstRanges (p : PourDesc) : List (Nat × Nat) := rangesOf p.dstOff p.dstr p.rows p.rbytes

/-- The rows lie in ARRAY banks of core c, as context x sees them. -/
def arrayAt (c : Core) (x : BitVec 8) (a : Int) (n : Nat) : Bool :=
  decide (0 ≤ a) && decide (a.toNat + n ≤ 2 ^ 20) &&
    (List.range ((a.toNat + n - 1) / 65536 + 1 - a.toNat / 65536)).all fun i => c.isArrayFor x (a.toNat / 65536 + i)

def rowsArray (c : Core) (x : BitVec 8) (base : Nat) (stride : Int) (n len : Nat) : Bool :=
  (rowsFrom base stride n).all fun a => arrayAt c x a len

/-- The address of check 3, where one fails. -/
def State.pourRange (s : State) (p : PourDesc) : Option W64 :=
  let x := s.me.act.ctx
  let rs := p.recvs s.cur
  let at_ := fun (a n : Nat) => rs.all fun k => arrayAt (s.core k) x a n
  if !p.sh && !rowsArray s.me x p.srcOff p.sstr p.rows p.rbytes then some p.src
  else if p.dk = 2 && !(winPkg p.dst == s.pkgid.toNat && (s.ctx x.toNat).hasCluster (clusterOf (winCore p.dst))) then some p.dst
  else if p.dk != 1 && !(rs.all fun k => rowsArray (s.core k) x p.dstOff p.dstr p.rows p.rbytes) then some p.dst
  else if p.hasBar && !at_ p.bar 16 then some (ofNat p.bar)
  else if p.hasStamp && !arrayAt s.me x p.stamp 8 then some (ofNat p.stamp)
  else if p.hasFstmp && !at_ p.fstmp 8 then some (ofNat p.fstmp)
  else none

/-- POURERR code of a handle range whose lowest byte may lie below the handle. -/
def State.pourHandle (s : State) (w : W64) (stride : Int) (n len : Nat) (write : Bool) : Option Nat :=
  let r := span (bits w 47 0) stride n len
  let h := bits w 63 48
  let x := s.me.act.ctx.toNat
  if r.1 < 0 then some (if (s.handle x h).isNone then 1 else 2) else s.handleFault x h r.1.toNat r.2 write

/-- The PA of offset 0 of a handle. -/
def State.hbase (s : State) (ctx : Nat) (w : W64) : Nat := ((s.handle ctx (bits w 63 48)).map (·.base)).getD 0

/-- Byte ranges moved to the addresses of a handle. -/
def shiftRanges (n : Nat) (rs : List (Nat × Nat)) : List (Nat × Nat) := rs.map fun r => (r.1 + n, r.2)

/-- The first address at which two lists of ranges meet. -/
def meet (xs ys : List (Nat × Nat)) : Option Nat :=
  (xs.flatMap fun x => (ys.filter fun y => overlaps x.1 x.2 y.1 y.2).map fun y => max x.1 y.1).min?

/-- A conflict of check 5: the address for word 3, and the kind of lock. -/
def State.pourConflict (s : State) (p : PourDesc) : Option (W64 × W64) :=
  let x := s.me.act.ctx.toNat
  let sbase := s.hbase x p.src
  let dbase := s.hbase x p.dst
  let src := if p.sh then shiftRanges sbase p.srcRanges else p.srcRanges
  let dst := if p.dk = 1 then shiftRanges dbase p.dstRanges else p.dstRanges
  let saddr := fun (z : Nat) => if p.sh then ofNat (put (bits p.src 63 48) 48 + (z - sbase)) else ofNat z
  let daddr := fun (z : Nat) => if p.dk = 1 then ofNat (put (bits p.dst 63 48) 48 + (z - dbase))
    else if p.dk = 2 then winAddr s.pkgid.toNat (winCore p.dst) z else ofNat z
  let same := if p.sh then p.dk == 1 else p.dk != 1 && (p.recvs s.cur).contains s.cur
  match (if same then meet src dst else none) with
  | some z => some (saddr z, 0)
  | none =>
    let sl := if p.sh then s.dlocks else s.me.locks
    match lockConflict sl false src with
    | some z => some (saddr z, lockKindAt sl z)
    | none =>
      if p.dk = 1 then (lockConflict s.dlocks true dst).map fun z => (daddr z, lockKindAt s.dlocks z)
      else (p.recvs s.cur).findSome? fun k =>
        (lockConflict (s.core k).locks true dst).map fun z => (daddr z, lockKindAt (s.core k).locks z)

/-- Lock-table entries that the Pour needs in each cluster are free (spec/14 R295). -/
def State.pourEntries (s : State) (p : PourDesc) : Bool :=
  let ks := (if p.sh then [] else [s.cur]) ++ (p.recvs s.cur).filter (· < 8192)
  ks.all fun k => decide (s.lockEntries (clusterOf k) + (ks.filter fun j => clusterOf j == clusterOf k).length ≤ lockTable)

/-- Commands queued on a channel. -/
def State.chanQueue (s : State) (cl ch : Nat) : List Pour := s.pours.filter fun q => q.cluster == cl && q.ch == ch && !q.moving

/-- The locks of a Pour (spec/14 R317). -/
def State.pourLocks (s : State) (p : PourDesc) (seq : Nat) : State :=
  let x := s.me.act.ctx.toNat
  let l := fun (dst : Bool) (rs : List (Nat × Nat)) => (⟨s.cur, seq, dst, rs⟩ : Lock)
  let s := if p.sh then { s with dlocks := s.dlocks ++ [l false (shiftRanges (s.hbase x p.src) p.srcRanges)] }
    else { s with me := s.me.addLock (l false p.srcRanges) }
  if p.dk = 1 then { s with dlocks := s.dlocks ++ [l true (shiftRanges (s.hbase x p.dst) p.dstRanges)] }
  else onCores (p.recvs s.cur) (fun t => { t with me := t.me.addLock (l true p.dstRanges) }) s

def execPour (d : BitVec 6) (a : Src) (s : State) : Out := finish s do
  let c := s.me
  readsDone c
  destS d c
  let (x, c1) ← readS a c
  need (x.toNat % 64 = 0) (.trap (precise c 0x201 x 64 0))
  need (c.ownArray x 64) (.trap (precise c 0x202 x 0 0))
  notLocked c x x.toNat 64
  let (m, c2) ← ownBlock (freeS a c1) x
  (match pourMask m with
    | some (w, k) => trap c 0x002 w (ofNat k) 1
    | none => .ok ())
  let p := PourDesc.of m
  need (!(p.sh || p.dk != 0) || (c.closing.isEmpty && c.pubs.isEmpty)) (.wait .commit)
  (match s.pourRange p with
    | some w => trap c 0x202 w
    | none => .ok ())
  (match (if p.sh then s.pourHandle p.src p.sstr p.rows p.rbytes false else none) with
    | some k => trap c 0x405 p.src 0 (ofNat k)
    | none => .ok ())
  (match (if p.dk = 1 then s.pourHandle p.dst p.dstr p.rows p.rbytes true else none) with
    | some k => trap c 0x405 p.dst 0 (ofNat k)
    | none => .ok ())
  (match s.pourConflict p with
    | some (w, k) => trap c 0x205 w k
    | none => .ok ())
  need (s.pourEntries p) (.wait .lock)
  need (decide ((s.chanQueue (clusterOf s.cur) p.ch).length < 16)) (.wait .engine)
  let room := if p.dk = 0 then 64 * (nunion [] (p.dstRanges.flatMap fun r => linesOf r.1 r.2)).length else 0
  needRing c room
  let seq := c.nextSeq
  let o := c.newOp (.pour m) seq (if p.hasStamp then some p.stamp else none) room
  let c3 := { (c2.addOp o) with engSeq := seq, pours := (c2.pours ++ [(seq, m, none)]).drop (c2.pours.length - 63) }
  let c4 ← writeS d (ofNat seq) c3
  let s := ({ s with me := c4.retire }).pourLocks p seq
  .ok { s with pours := s.pours ++ [⟨s.cur, seq, clusterOf s.cur, p.ch, m, false, (p.recvs s.cur).map fun k => (k, []), [], [], none, false, []⟩] }

/-! ### The steps of the Pour engine (spec/14 R318 to R321) -/

def Pour.desc (q : Pour) : PourDesc := PourDesc.of q.block

/-- A range of bytes, first and end, put among rising ranges that do not touch. -/
def addRange (a b : Nat) : List (Nat × Nat) → List (Nat × Nat)
  | [] => [(a, b)]
  | (x, y) :: l => if b < x then (a, b) :: (x, y) :: l else if y < a then (x, y) :: addRange a b l else addRange (min a x) (max b y) l

/-- How many bytes from the first on the ranges hold without a gap. -/
def prefixOf : List (Nat × Nat) → Nat
  | (0, b) :: _ => b
  | _ => 0

/-- Bytes of the tile, in row order, that have landed at every receiver (spec/14 R323). -/
def Pour.landedAll (q : Pour) : Nat := (q.landed.map fun r => prefixOf r.2).min?.getD 0

/-- Every receiver has all its bytes, or the Pour is aborted. -/
def Pour.allLanded (q : Pour) : Bool := q.abort.isSome || q.landed.all fun r => decide (q.desc.total ≤ prefixOf r.2)

def State.mapPour (s : State) (core seq : Nat) (f : Pour → Pour) : State :=
  { s with pours := s.pours.map fun q => if q.core = core ∧ q.seq = seq then f q else q }

/-- The Pour that moves on a channel. -/
def State.movingPour (s : State) (cl ch : Nat) : Option Pour :=
  s.pours.find? fun q => q.cluster == cl && q.ch == ch && q.moving && !q.allLanded

/-- A step of a channel of a cluster's hub. -/
def hubEvent (cl ch : Nat) (f : State → Option State) (s : State) : Out :=
  if cl < Config.nClusters ∧ ch < 16 then .next ((f s).getD s) else .fault .noSuchUnit

def execPourStart (cluster ch : Nat) (s : State) : Out := hubEvent cluster ch (fun s =>
  if (s.movingPour cluster ch).isSome then none
  else match (s.chanQueue cluster ch).head? with
    | none => none
    | some q =>
      if (s.core q.core).frozen then none else
      let s := onCore q.core (fun s => { s with me := s.me.mapOp q.seq fun o => { o with st := .running } }) s
      some (s.mapPour q.core q.seq fun q => { q with moving := true })) s

/-- The abort of a Pour: the notice, and what it does not deliver any more (spec/14 R321). -/
def State.abortPour (s : State) (q : Pour) (code : Nat) : State :=
  let c := s.core q.core
  match c.op? q.seq with
  | none => s
  | some o =>
    let p := q.desc
    let s := onCore q.core (fun s => { s with me :=
      { (s.me.mapOp q.seq fun o => { o with failed := true }) with
        pours := s.me.pours.map fun x => if x.1 = q.seq then (x.1, x.2.1, some q.landedAll) else x } }) s
    let s := s.notice q.core o.ctx (some o.lnch) 0x405 o.tid 0 (if p.sh then p.src else if p.dk = 1 then p.dst else 0) (ofNat q.seq) (ofNat code)
    s.mapPour q.core q.seq fun q => { q with abort := some code }

/-- Where byte n of the tile stands: the row, the byte of the row. -/
def PourDesc.at (p : PourDesc) (n : Nat) : Nat × Nat := (n / p.rbytes, n % p.rbytes)

/-- Byte n of the tile at its destination, rows counted from a base. -/
def PourDesc.dstAt (p : PourDesc) (base n : Nat) : Nat := ((base : Int) + p.dstOff + (p.at n).1 * p.dstr).toNat + (p.at n).2

/-- The flit of the tile that carries byte n: the bytes of its row in one destination line. First byte and length. -/
def PourDesc.flit (p : PourDesc) (base n : Nat) : Nat × Nat :=
  let d := p.dstAt base n
  let back := min (p.at n).2 (d % 64)
  (n - back, min (p.rbytes - ((p.at n).2 - back)) (64 - (d - back) % 64))

/-- What a Pour finds at its source: bytes, what is uncorrectable behind a handle, a poisoned own line. -/
inductive PourRead where
  | bytes (bs : List Byte)
  | bad
  | poison (n : Nat)
deriving DecidableEq, Repr

/-- Source bytes of a Pour, own lines claimed and sectors read; those of another package's memory are free (spec/24 R433, log 64). -/
def State.pourSource (s : State) (q : Pour) (o : EngOp) (n len : Nat) : State × PourRead :=
  let p := q.desc
  let x := p.at n
  let a := ((p.srcOff : Int) + x.1 * p.sstr).toNat + x.2
  if p.sh then
    let ctx := o.ctx.toNat
    let pa := s.hbase ctx p.src + a
    match s.home pa with
    | .farDev _ => (s, .bytes (s.farBytes pa len))
    | .host _ => (s, .bytes (s.physBytes pa len))
    | _ =>
      let s := s.readHandle ctx p.src pa len
      (s.charge ctx 9 (sectorsOf pa len).length, if s.physBad pa len || !s.tagsOk ctx p.src pa len then .bad else .bytes (s.physBytes pa len))
  else
    let c := (s.core q.core).claimAll o.ctx a len
    ((s.setCore q.core c).charge o.ctx.toNat 2 (linesOf a len).length, match (linesOf a len).find? c.poison.contains with
      | some n => .poison n
      | none => .bytes (Mem.bytes c.mem a len))

/-- An operation's pre-image of line n of a core. -/
def PreImage.isLine (p : PreImage) (core seq n : Nat) : Bool :=
  decide (p.core = core) && decide (p.seq = seq) && (match p.what with | .line k _ _ _ _ => k == n | _ => false)

/-- The bytes of the mask join the pre-image of the line that an operation took before. -/
def PreWhat.grow (w : PreWhat) (cur : Line) (images : List (Nat × Line)) (mask : W64) : PreWhat :=
  match w with
  | .line n l m b u => .line n (mergeLine l cur mask) (m ||| mask) b
      (images.foldl (fun u x => aset u x.1 (mergeLine ((aget u x.1).getD (mergeLine x.2 l m)) x.2 mask)) u)
  | _ => w

/-- Bytes of a tile land in line n of the core, with what was there kept; saved pre-images of the line that a rollback of the core puts
back after them hold them too. -/
def Core.landLine (c : Core) (core : Nat) (o : EngOp) (n : Nat) (data : Line) (mask : W64) : Core :=
  let far := decide (core ≠ c.id)
  let images := if far then c.imagesOf n else []
  let cur := Mem.line c.mem (64 * n)
  let c := if c.ring.any fun p => p.isLine core o.seq n then
      { c with ring := c.ring.map fun p => if p.isLine core o.seq n then { p with what := p.what.grow cur images mask } else p }
    else c.save core o.seq o.seg o.ord ((PreWhat.line n cur 0 (c.poison.contains n) []).grow cur images mask)
  ({ c with
    mem := Mem.put c.mem (64 * n) (lineBytes (mergeLine cur data mask))
    poison := if mask = BitVec.allOnes 64 then c.poison.filter (· != n) else c.poison } : Core).mapImages n
      (fun ord => far || decide (o.ord < ord)) (fun _ l => mergeLine l data mask) (fun b => b && mask != BitVec.allOnes 64)

/-- Bytes of an operation's output land at a of the core, line by line. -/
def Core.landBytes (c : Core) (core : Nat) (o : EngOp) (a : Nat) (bs : List Byte) : Core :=
  (linesOf a bs.length).foldl (fun c n =>
    let lo := max a (64 * n)
    let hi := min (a + bs.length) (64 * n + 64)
    c.landLine core o n (lineAt (lo % 64) (hi - lo) (natOf ((bs.drop (lo - a)).take (hi - lo)))) (byteMask (lo % 64) (hi - lo))) c

/-- The flit that carries byte pos lands at a core. -/
def State.landAt (s : State) (q : Pour) (o : EngOp) (recv d : Nat) (bs : List Byte) : Option State :=
  let c := (s.core recv).claimAll o.ctx d bs.length
  let new := !(c.ring.any fun p => p.isLine q.core o.seq (d / 64))
  if new && q.desc.dk != 0 && decide (Config.ringCap < c.ringUsed + 64) then none
  else
    let c := c.landBytes q.core o d bs
    let c := if new && q.desc.dk == 0 then c.mapOp q.seq fun o => { o with room := o.room - 64 } else c
    some (((s.setCore recv c).charge o.ctx.toNat 2 1).charge o.ctx.toNat 7 (hubHops recv))

/-- The flit lands behind a handle, whose slice keeps the line's pre-image. -/
def State.landBehind (s : State) (q : Pour) (o : EngOp) (pa : Nat) (bs : List Byte) : Option State :=
  let ctx := o.ctx.toNat
  let w := q.desc.dst
  let line := pa / 64 * 64
  match s.home pa with
  | h =>
    let s := match h with | .farDev _ => s | _ => s.readHandle ctx w pa bs.length
    let new := !q.pre.any fun y => y.1 == line
    if (match h with | .dev _ => !s.tagsOk ctx w pa bs.length | _ => false) then some (s.abortPour q 5)
    else if new && (match h with | .dev _ => decide (sliceBuffer ≤ s.bufferUsed (8192 + sliceOf pa)) | _ => false) then none
    else
      let img : Line := lineOf (s.physBytes line 64)
      let s := if new then s.mapPour q.core q.seq fun q => { q with pre := q.pre ++ [(line, img)] } else s
      let s := s.physPut pa bs
      let s := match h with | .farDev _ => s | _ => s.clearPoison pa bs.length
      some (match h with | .dev _ => s.charge ctx 10 1 | _ => s)

/-- The flit that carries byte pos of the tile lands at a receiver; rows and flits land in any order (spec/14 R318). -/
def State.landFlit (s : State) (q : Pour) (recv pos : Nat) : Option State :=
  let p := q.desc
  match (s.core q.core).op? q.seq, aget q.landed recv with
  | some o, some got =>
    let base := if recv = 8192 then s.hbase o.ctx.toNat p.dst else 0
    let f := p.flit base pos
    if p.total ≤ pos || got.any (fun r => decide (r.1 ≤ pos) && decide (pos < r.2)) then none
    else match s.pourSource q o f.1 f.2 with
      | (s, .bad) => some (s.abortPour q 5)
      | (s, .poison n) =>
        if (s.core q.core).opCommitted o then some (s.abortPour q 5) else some (onCore q.core (fun s => s.opUncorr o (ofNat (64 * n)) 0) s)
      | (s, .bytes bs) =>
        let d := p.dstAt base f.1
        ((if recv = 8192 then s.landBehind q o d bs else s.landAt q o recv d bs)).map fun s =>
          (s.mapPour q.core q.seq fun q => if q.abort.isSome then q
            else { q with landed := aset q.landed recv (addRange f.1 (f.1 + f.2) got) }).charge o.ctx.toNat 6 1
  | _, _ => none

def execPourFlitLand (cluster ch : Nat) (f : TileFlit) (s : State) : Out := hubEvent cluster ch (fun s =>
  match s.movingPour cluster ch with
  | none => none
  | some q =>
    match (if (s.core q.core).frozen then none else s.landFlit q f.recv f.pos) with
    | none => none
    | some s' =>
      let whole := (s'.pours.find? fun r => r.core == q.core && r.seq == q.seq).any Pour.allLanded
      some (if whole then onCore q.core (fun s => { s with me := s.me.mapOp q.seq fun o => { o with st := .finished } }) s' else s')) s

/-- Engine delivery to the barrier of 16 bytes as one number (spec/15 R328); none below −2^47. -/
def deliverTo (x n : Nat) : Option Nat :=
  let b := Barrier.of x
  if b.pend - (n : Int) < -(2 ^ 47 : Int) then none else some ({ b with pend := b.pend - (n : Int) }.complete.bits)

/-- A delivery to the line of the barrier and to every saved pre-image of it, held or not. -/
def Core.deliverBar (c : Core) (x : BitVec 8) (off n : Nat) : Option Core :=
  let c := c.claim x (off / 64)
  match deliverTo (Mem.nat c.mem off 16) n with
  | none => none
  | some v =>
    let img := fun (l : Line) =>
      match deliverTo (lineNat l (off % 64) 16) n with
      | some v => mergeLine l (lineAt (off % 64) 16 v) (byteMask (off % 64) 16)
      | none => l
    some (({ c with mem := Mem.putNat c.mem off 16 v } : Core).mapImages (off / 64) (fun _ => true) (fun _ l => img l) fun b => b)

/-- The follow-on run of a Pour at a receiver (spec/14 R320). -/
def followOp (q : Pour) (o : EngOp) (ord : Nat) : EngOp :=
  let p := q.desc
  { o with
    seq := followKey q.core q.seq, kind := .follow p.dstOff p.fcmd, seg := 0, no := 0, st := .queued
    stamp := if p.hasFstmp then some p.fstmp else none, flags := 0, failed := false, ord := ord, row := 0, room := 0, mates := []
    took := false, redo := false, g0 := none, pre := [], pushed := [] }

/-- The receiver in focus takes its completion step. -/
def State.receiverDone (s : State) (q : Pour) (o : EngOp) : Option State :=
  let p := q.desc
  let c := s.me
  let c := { c with locks := c.locks.filter fun l => !(decide (l.core = q.core) && decide (l.seq = q.seq) && l.dst) }
  let run := p.follow && q.abort.isNone
  let ranges := actRanges p.dstOff (RunCmd.of p.fcmd)
  if run && !(decide (c.pressQueue.length < 8) && (lockConflict c.locks false ranges).isNone && s.lockFree) then none
  else
    let s := { s with me := c }
    let s := if !p.hasBar then s
      else match c.deliverBar o.ctx p.bar p.total with
        | some c => { s with me := c }
        | none => s.notice q.core o.ctx (some o.lnch) 0x405 o.tid 0 (winAddr s.pkgid.toNat s.cur p.bar) (ofNat q.seq) 6
    let c := s.me
    let c := if run then (c.addOp (followOp q o c.nord)).addLock ⟨s.cur, followKey q.core q.seq, false, ranges⟩ else c
    some { s with me := c }

/-- The completion step of a Pour at a receiver, once its issuing segment has committed. -/
def State.receiverStep (s : State) (q : Pour) (recv : Nat) : Option State :=
  match (s.core q.core).op? q.seq with
  | none => none
  | some o =>
    if !(s.core q.core).opCommitted o || q.taken.contains recv then none
    else
      let take := fun (s : State) =>
        (s.mapPour q.core q.seq fun q => { q with taken := q.taken ++ [recv] }).setCtx o.ctx.toNat { s.ctx o.ctx.toNat with last9 := s.el9 }
      let dst := fun (ls : List Lock) => ls.filter fun l => !(decide (l.core = q.core) && decide (l.seq = q.seq) && l.dst)
      if recv ≠ 8192 ∧ q.again.contains recv then
        let c := s.core recv
        some (take (s.setCore recv { c with locks := dst c.locks }))
      else if recv = 8192 then
        some (take { s with dlocks := dst s.dlocks })
      else ((s.focus recv).receiverDone q o).map fun s' => take (s'.focus s.cur)

def execPourReceiverCompletion (cluster ch recv : Nat) (s : State) : Out := hubEvent cluster ch (fun s =>
  let ready := fun (q : Pour) => q.cluster == cluster && q.ch == ch && q.moving && !q.taken.contains recv &&
    (match aget q.landed recv with | some l => q.abort.isSome || decide (q.desc.total ≤ prefixOf l) | none => false)
  (s.pours.find? ready).bind fun q => s.receiverStep q recv) s

/-- Every receiver of the Pour of operation o, at the core in focus, has taken its step. -/
def State.pourOver (s : State) (o : EngOp) : Bool :=
  s.pours.any fun q => decide (q.core = s.cur) && decide (q.seq = o.seq) && q.taken.length == q.landed.length

/-- The Pour's own completion step: the source lock, the stamp, the list (spec/14 R319). -/
def State.completePour (s : State) (o : EngOp) : State :=
  let s' := s.complete o
  if (s'.me.op? o.seq).any fun o => o.st == .complete then
    let pre := ((s.pours.find? fun q => decide (q.core = s.cur) && decide (q.seq = o.seq)).map (·.pre)).getD []
    { s' with
      me := s'.me.mapOp o.seq fun o => { o with pre := pre }
      pours := s'.pours.filter fun q => !(decide (q.core = s.cur) && decide (q.seq = o.seq)) }
  else s'

/-! ### POURQ and HNDQ (spec/14 R323, R324) -/

/-- The status of a Pour. One that has landed as a whole reads STATE 3 until its last receiver has taken its completion step, also where the segment
that issued it has committed by then: the manual gives 3 as awaiting that commit only. DESIGN CHOICE, log 66 (spec/14 R323). -/
def State.pourStatus (s : State) (seq : Nat) : W64 :=
  match s.me.pours.find? fun p => p.1 == seq with
  | none => 0
  | some (_, m, aborted) =>
    let p := PourDesc.of m
    let base := put (if p.dk = 3 then 1 else 0) 56 + put p.ch 52
    match s.pours.find? fun q => q.core == s.cur && q.seq == seq with
    | none => ofNat (put (if aborted.isSome then 5 else 4) 61 + base + aborted.getD p.total)
    | some q =>
      let st := if q.abort.isSome then 5 else if q.saved then 6 else if !q.moving then 1 else if q.allLanded then 3 else 2
      ofNat (put st 61 + base + q.landedAll)

def execPourq (d : BitVec 6) (a : Src) (s : State) : Out := coreOp s fun c => do
  destS d c
  let (x, c1) ← readS a c
  writeS d (s.pourStatus x.toNat) (freeS a c1)

def execHndq (d : BitVec 6) (a : Src) (s : State) : Out := coreOp s fun c => do
  destS d c
  let (x, c1) ← readS a c
  need (x.toNat < 65536) (.trap (precise c 0x002 x (ofNat (x.toNat / 65536 * 65536)) 1))
  let n := c.act.ctx.toNat
  let w := if bits ((s.ctx n).w 0) 15 0 ≤ x.toNat then 0 else (s.handleEntry n x.toNat).1
  writeS d (w &&& ofNat (put 0x1F 59 + (2 ^ 48 - 1))) (freeS a c1)

end Sys2Proof.Machine
end

