-- ==== Sys2Proof/Machine/Coll.lean ====
section
/-! DEFINITION. Collectives: COLL, COLLW, the combining points, and the completion step of every engine operation
(spec/24 R442 to R451, spec/09 R222). -/

namespace Sys2Proof.Machine

/-! ### The command block (spec/24 R443) -/

structure CollDesc where
  buf   : W64
  map   : W64
  gid   : Nat
  rank  : Nat
  n     : Nat
  len   : Nat
  nstp  : Bool
  rnd   : Nat
  ty    : Option Ty
  op    : Nat
  kind  : Nat
  stamp : W64
deriving DecidableEq, Repr

def CollDesc.of (m : Msg) : CollDesc :=
  let w := fun (i : Nat) => m.toList.getD i 0
  { buf := w 0, map := w 1, gid := bits (w 2) 49 42, rank := bits (w 2) 41 21, n := bits (w 2) 20 0 + 1
    len := 8 * (bits (w 3) 17 13 + 1), nstp := (w 3).getLsbD 12, rnd := bits (w 3) 11 10, ty := Ty.ofCode ((w 3).extractLsb' 5 5)
    op := bits (w 3) 4 2, kind := bits (w 3) 1 0, stamp := w 4 }

def CollDesc.t (q : CollDesc) : Ty := q.ty.getD .i64

/-- The member's buffer is read; a result is written to it (spec/24 R445). -/
def CollDesc.reads (q : CollDesc) : Bool := q.kind != 2 || q.rank == 0
def CollDesc.writes (q : CollDesc) : Bool := q.kind == 0 || (q.kind == 1 && q.rank == 0) || (q.kind == 2 && q.rank != 0)

def collTy (t : Ty) : Bool := t == .i64 || t == .i32 || t == .n64 || t == .n32 || t == .f64 || t == .f32 || t == .bf16

/-- The first word that breaks check 2, with its offending bits (spec/24 R444). -/
def collMask (m : Msg) : Option (W64 × Nat) :=
  let w := fun (i : Nat) => m.toList.getD i 0
  let n := fun (i : Nat) => (w i).toNat
  let q := CollDesc.of m
  let tyOk := q.ty.elim false collTy
  let opOk := if q.kind = 2 then q.op == 0 else decide (q.op < 6) && (decide (q.op < 3) || q.t.isInt)
  let parts := [
    (n 0 / 2 ^ 20 * 2 ^ 20) ||| (n 0 &&& 7),
    n 1 &&& 3,
    (n 2 / 2 ^ 50 * 2 ^ 50) ||| maskIf (decide (q.n ≤ q.rank)) (put (2 ^ 21 - 1) 21),
    (n 3 / 2 ^ 18 * 2 ^ 18) ||| maskIf (!tyOk) (put 0x1F 5) ||| maskIf (!opOk) (put 7 2) ||| maskIf (q.kind == 3) 3 |||
      maskIf (tyOk && q.len % (q.t.width / 8) != 0) (put 0x1F 13) |||
      maskIf (q.rnd != 0 && !(q.kind != 2 && q.op == 0 && tyOk && !q.t.isInt)) (put 3 10),
    (n 4 / 2 ^ 20 * 2 ^ 20) ||| (n 4 &&& 7),
    n 5, n 6, n 7]
  match parts.zipIdx.find? fun x => x.1 != 0 with
  | some x => some (w x.2, x.1)
  | none => none

/-! ### The rank tree (spec/24 R445) -/

/-- Levels of the tree: log2 of the least power of two at or above n. -/
def treeLevels (n : Nat) : Nat := Nat.log2 (2 * n - 1)

/-- The rank that takes rank r's subtotal. -/
def rankParent (r : Nat) : Nat := r - 2 ^ (((List.range 22).find? fun k => r.testBit k).getD 0)

/-- The ranks whose subtotals rank r takes. -/
def rankChildren (n r : Nat) : List Nat :=
  ((List.range (treeLevels n)).takeWhile fun k => !r.testBit k).filterMap fun k => if r + 2 ^ k < n then some (r + 2 ^ k) else none

/-- Entries of the rank map that COLL reads. -/
def CollDesc.entries (q : CollDesc) : List Nat :=
  q.rank :: (if q.rank = 0 then [] else [rankParent q.rank]) ++ rankChildren q.n q.rank

/-- The PA of entry r of the rank map. -/
def State.mapPa (s : State) (q : CollDesc) (r : Nat) : Nat := s.hbase s.me.act.ctx.toNat q.map + bits q.map 47 0 + 4 * r

def State.mapEntry (s : State) (q : CollDesc) (r : Nat) : Nat := natOf (s.physBytes (s.mapPa q r) 4)

/-- Package and core that a map entry names. -/
def entryPkg (e : Nat) : Nat := e / 2 ^ 24
def entryCore (e : Nat) : Nat := e / 2 ^ 11 % 2 ^ 13

/-- The sectors of the map entries are read under the tag of the handle. -/
def State.readMap (s : State) (q : CollDesc) : State :=
  q.entries.foldl (fun s r => s.readHandle s.me.act.ctx.toNat q.map (s.mapPa q r) 4) s

/-- A map entry that is uncorrectable, or whose sector has another tag; the manual names no trap for the latter (log 43). -/
def State.mapClean (s : State) (q : CollDesc) : Res Unit :=
  let pas := q.entries.map (s.mapPa q)
  if pas.any fun pa => s.physBad pa 4 then .error (.uncorr q.map 2 true)
  else if pas.any fun pa => decide (pa < hostBit) && !s.tagsOk s.me.act.ctx.toNat q.map pa 4 then .error (.uncorr q.map 2 false)
  else .ok ()

/-- POURERR code of the map. -/
def State.mapFault (s : State) (q : CollDesc) : Option Nat :=
  q.entries.findSome? fun r => s.handleFault s.me.act.ctx.toNat (bits q.map 63 48) (bits q.map 47 0 + 4 * r) 4 false

/-- An entry that does not name this core where it should, or names one outside the partition, which reaches into other packages
(spec/24 R432, log 64). -/
def State.badEntryOf (s : State) (q : CollDesc) : Option Nat :=
  q.entries.find? fun r =>
    let e := s.mapEntry q r
    let ctx := s.me.act.ctx.toNat
    let cl := clusterOf (entryCore e)
    if r = q.rank then e != put s.pkgid.toNat 24 + put s.cur 11
    else !(if entryPkg e = s.pkgid.toNat then (s.ctx ctx).hasCluster cl else Config.farCluster ctx (entryPkg e) cl s.el9)

/-- One ARRAY bank holds n bytes at a. -/
def inOneBank (c : Core) (a : W64) (n : Nat) : Bool := c.ownArray a n && decide (a.toNat / 65536 = (a.toNat + n - 1) / 65536)

def execColl (d : BitVec 6) (a : Src) (s : State) : Out := finish s do
  let c := s.me
  readsDone c
  destS d c
  let (x, c1) ← readS a c
  need (x.toNat % 64 = 0) (.trap (precise c 0x201 x 64 0))
  need (c.ownArray x 64) (.trap (precise c 0x202 x 0 0))
  notLocked c x x.toNat 64
  let (m, c2) ← ownBlock (freeS a c1) x
  (match collMask m with
    | some (w, k) => trap c 0x002 w (ofNat k) 1
    | none => .ok ())
  let q := CollDesc.of m
  need (inOneBank c q.buf q.len) (.trap (precise c 0x202 q.buf 0 0))
  need (q.nstp || inOneBank c q.stamp 8) (.trap (precise c 0x202 q.stamp 0 0))
  (match s.mapFault q with
    | some k => trap c 0x405 q.map (ofNat c.nextSeq) (ofNat k)
    | none => .ok ())
  let s := s.readMap q
  s.mapClean q
  (match s.badEntryOf q with
    | some r => trap c 0x202 (ofNat (bits q.map 47 0 + 4 * r))
    | none => .ok ())
  let range := [(q.buf.toNat, q.len)]
  needLock s q.writes range
  let room := if q.writes then 64 * (linesOf q.buf.toNat q.len).length else 0
  needRing c room
  let seq := c.nextSeq
  let round := anat c.rounds q.gid
  let o := c.newOp (.coll m round (q.entries.map fun r => (r, s.mapEntry q r))) seq (if q.nstp then none else some q.stamp.toNat) room
  let c3 := { (c2.addOp { o with pushed := c2.colls.take (c2.colls.length - 15) }) with
    engSeq := seq, rounds := aset c2.rounds q.gid ((round + 1) % 2 ^ 32)
    colls := (c2.colls ++ [(seq, 0)]).drop (c2.colls.length - 15) }
  let c4 ← writeS d (ofNat seq) (c3.addLock ⟨s.cur, seq, q.writes, range⟩)
  .ok { s with me := c4.retire }

/-- COLLW (spec/24 R450): 0 in the list stands for a COLL that has not taken its completion step. -/
def execCollw (d : BitVec 6) (a : Src) (s : State) : Out := coreOp s fun c => do
  destS d c
  let (x, c1) ← readS a c
  match c.colls.find? fun p => p.1 == x.toNat with
  | none => writeS d 0 (freeS a c1)
  | some (q, v) =>
    if (c.op? q).any fun o => o.seg == c.seg.id then writeS d (ofNat (2 ^ 62)) (freeS a c1)
    else if v = 0 then wait .coll
    else writeS d (ofNat v) (freeS a c1)

/-! ### Combining points (spec/24 R445 to R447) -/

/-- A list with what another adds to it. -/
def nunion' (a b : List (Nat × Nat)) : List (Nat × Nat) := b.foldl (fun l x => if l.contains x then l else l ++ [x]) a

def EngKind.coll? : EngKind → Option (CollDesc × Nat)
  | .coll m r _ => some (CollDesc.of m, r)
  | _ => none

/-- Ranks of other packages among the map entries that an operation read, with their nodes. -/
def State.awayOf (s : State) (o : EngOp) : List (Nat × Nat) :=
  match o.kind with
  | .coll _ _ map => (map.filter fun x => entryPkg x.2 != s.pkgid.toNat).map fun x => (x.1, farNode (entryPkg x.2) (entryCore x.2))
  | _ => []

/-- What must agree between members: N, and KIND, OP, TYPE, RND and L. -/
def agree2 (w : W64) : Nat := bits w 49 42 * 2 ^ 21 + bits w 20 0
def agree3 (w : W64) : Nat := bits w 17 13 * 2 ^ 12 + bits w 11 0

/-- Round k of the group of the core in focus. -/
def State.round? (s : State) (ctx : BitVec 8) (gid k : Nat) : Option CRound := s.rounds.find? (s.isRound ctx gid k)

def State.setRound (s : State) (r : CRound) : State :=
  { s with rounds := s.rounds.filter (fun p => !s.isRound r.ctx r.gid r.round p) ++ [r] }

def CRound.sub? (r : CRound) (rank level : Nat) : Option (List Byte) :=
  (r.subs.find? fun x => x.1 == rank && x.2.1 == level).map (·.2.2)

/-- The COLL of a core by its number, with its round once a member has contributed. -/
def State.collOp (s : State) (seq : Nat) : Option (EngOp × CollDesc × Nat) :=
  match s.me.op? seq with
  | some o => o.kind.coll?.map fun q => (o, q.1, q.2)
  | none => none

/-- Entries of the rank map that the operation read. -/
def collMap : EngKind → List (Nat × Nat)
  | .coll _ _ map => map
  | _ => []

def collBlock : EngKind → Msg
  | .coll m _ _ => m
  | _ => Msg.zero

/-- A round that nothing has reached yet. -/
def CRound.new (ctx : BitVec 8) (gid k : Nat) (w2 w3 : W64) : CRound := ⟨ctx, gid, k, [], w2, w3, [], [], [], [], 0, [], [], none, 0⟩

/-- The code of R447 where blocks do not agree. -/
def CRound.disagrees (r : CRound) (w2 w3 : W64) : Option Nat :=
  if agree2 r.word2 ≠ agree2 w2 ∨ agree3 r.word3 ≠ agree3 w3 then some 7 else none

def CRound.failWith (r : CRound) (code : Option Nat) : CRound := { r with fail := r.fail.or code }

/-- Two parts of a round that turn out to be of one group. -/
def CRound.join (r p : CRound) : CRound :=
  ({ r with
    known := nunion' r.known p.known, subs := r.subs ++ p.subs.filter fun (x : Nat × Nat × List Byte) => (r.sub? x.1 x.2.1).isNone, ups := nunion r.ups p.ups
    told := nunion r.told p.told, got := p.got.foldl (fun l (x : Nat × List Byte) => if (aget l x.1).isSome then l else aset l x.1 x.2) r.got
    flags := r.flags ||| p.flags, done := nunion r.done p.done, took := nunion r.took p.took, fail := r.fail.or p.fail
    lastAt := max r.lastAt p.lastAt }).failWith (r.disagrees p.word2 p.word3)

/-- The round of the core in focus, its parts joined, with what is known of its rank map; a new one where nothing has reached it. -/
def State.joined (s : State) (ctx : BitVec 8) (gid k : Nat) (known : List (Nat × Nat)) (w2 w3 : W64) : CRound :=
  let r := match s.rounds.filter (s.isRound ctx gid k) with
    | [] => CRound.new ctx gid k w2 w3
    | r :: l => l.foldl CRound.join r
  { r with known := nunion' r.known known }

/-- The result, or the failure, goes to the children of a member that lie in other packages; no result of a reduction goes down. -/
def State.tellDown (s : State) (o : EngOp) (q : CollDesc) (k : Nat) (data : List Byte) (r : CRound) : State :=
  let m := collBlock o.kind
  if q.kind = 1 then s
  else ((s.awayOf o).filter fun x => decide (q.rank < x.1)).foldl (fun s x =>
    s.sendFor o.ctx x.2 (.res q.gid k x.1 (m.toList.getD 2 0) (m.toList.getD 3 0) data r.flags r.fail)) s

/-- The subtotal of a member, or its failure, goes to a parent in another package. -/
def State.tellUp (s : State) (o : EngOp) (q : CollDesc) (k : Nat) (data : List Byte) (r : CRound) : State :=
  let m := collBlock o.kind
  match (s.awayOf o).find? fun x => decide (x.1 < q.rank) with
  | none => s
  | some x => (s.setRound { r with told := nset r.told q.rank }).sendFor o.ctx x.2
      (.sub q.gid k q.rank (m.toList.getD 2 0) (m.toList.getD 3 0) data r.flags r.fail)

/-- The level of a rank's subtotal that its parent takes. -/
def topLevel (rank : Nat) : Nat := ((List.range 22).find? fun k => rank.testBit k).getD 0

/-- A subtotal that another package sends to the core in focus; `alive`: the context is there to take part. One contribution of a rank is accepted
(spec/24 R446). -/
def State.takeSub (s : State) (ctx : BitVec 8) (alive : Bool) (gid k rank : Nat) (w2 w3 : W64) (data : List Byte) (flags : Fl)
    (fail : Option Nat) : State × Body :=
  if !alive then (s, .subAck gid k rank (some 8))
  else
    let r := s.joined ctx gid k [(rankParent rank, s.entryOf s.cur)] w2 w3
    let r := (r.failWith fail).failWith (r.disagrees w2 w3)
    let r := if fail.isSome || (r.sub? rank (topLevel rank)).isSome then r
      else { r with subs := r.subs ++ [(rank, topLevel rank, data)], flags := r.flags ||| flags }
    (s.setRound r, .subAck gid k rank r.fail)

/-- A result that another package sends down to the core in focus; it stays at the combining point while the context is out (spec/24 R448). -/
def State.takeRes (s : State) (ctx : BitVec 8) (alive : Bool) (gid k rank : Nat) (w2 w3 : W64) (data : List Byte) (flags : Fl)
    (fail : Option Nat) : State × Body :=
  if !alive then (s, .resAck gid k rank (some 8))
  else
    let r := s.joined ctx gid k [(rank, s.entryOf s.cur)] w2 w3
    let r := (r.failWith fail).failWith (r.disagrees w2 w3)
    let r := if fail.isSome then r else { r with got := aset r.got rank data, flags := r.flags ||| flags }
    (s.setRound r, .resAck gid k rank r.fail)

/-- A round's failure is known to the core in focus, or a parent in another package has accepted a reduction's contribution. -/
def State.collAnswer (s : State) (ctx : BitVec 8) (gid k rank : Nat) (fail : Option Nat) : State :=
  let s := match s.round? ctx gid k with
    | some r => s.setRound (r.failWith fail)
    | none => s
  let hit := fun (o : EngOp) => o.st == .running && o.ctx == ctx && (match o.kind.coll? with
    | some (q, j) => j == k && q.gid == gid && q.rank == rank && q.kind == 1 && !q.writes
    | none => false)
  { s with me := { s.me with ops := s.me.ops.map fun o => if fail.isNone && hit o then { o with st := .finished } else o } }

/-- A member's contribution is accepted; one that reads nothing only joins. -/
def State.contribute (s : State) (o : EngOp) (q : CollDesc) (k : Nat) : State :=
  let m := collBlock o.kind
  let w2 := m.toList.getD 2 0
  let w3 := m.toList.getD 3 0
  let r := s.joined o.ctx q.gid k ((q.rank, s.entryOf s.cur) :: collMap o.kind) w2 w3
  let c := s.me.claimAll o.ctx q.buf.toNat q.len
  let bad := (r.disagrees w2 w3).or (if q.reads && (linesOf q.buf.toNat q.len).any c.poison.contains then some 8 else none)
  let data := Mem.bytes c.mem q.buf.toNat q.len
  let up := (s.awayOf o).any fun x => decide (x.1 < q.rank)
  let r := { r.failWith bad with
    subs := if q.reads && (r.sub? q.rank 0).isNone then r.subs ++ [(q.rank, 0, data)] else r.subs
    ups := if up then nset r.ups q.rank else r.ups }
  let c := c.mapOp o.seq fun o => { o with st := if q.writes || (q.kind == 1 && up) then .running else .finished }
  let s := ({ s with me := c }).setRound r
  if q.kind = 2 ∧ q.rank = 0 then s.tellDown o q k data r else s

def execCollContribute (core seq : Nat) (s : State) : Out := engineEvent core (fun s =>
  match s.collOp seq with
  | some (o, q, k) =>
    if o.st == .queued && s.me.opCommitted o then some (if o.redo then { s with me := s.me.rerun o } else s.contribute o q k) else none
  | none => none) s

/-- A node of the tree for OP, on the bytes of one element. -/
def collNode (op : Nat) (t : Ty) (rm : Rnd) (x y : Nat) : Nat × Fl :=
  match op with
  | 0 => redNode .add t rm x y
  | 1 => redNode .min t rm x y
  | 2 => redNode .max t rm x y
  | 3 => (x &&& y, 0)
  | 4 => (x ||| y, 0)
  | _ => (x ^^^ y, 0)

def collIdentity (op : Nat) (t : Ty) : Nat :=
  match op with
  | 0 => redIdentity .add t
  | 1 => redIdentity .min t
  | 2 => redIdentity .max t
  | 3 => 2 ^ t.width - 1
  | _ => 0

/-- Elements of a byte list. -/
def elementsOf (bs : List Byte) (n : Nat) : List Nat := (List.range (bs.length / n)).map fun i => natOf ((bs.drop (i * n)).take n)

def combineBytes (q : CollDesc) (x : List Byte) (y : Option (List Byte)) : List Byte × Fl :=
  let n := q.t.width / 8
  let xs := elementsOf x n
  let ys := match y with
    | some b => elementsOf b n
    | none => xs.map fun _ => collIdentity q.op q.t
  let rm := (Rnd.ofCode (BitVec.ofNat 2 q.rnd)).getD .rne
  let rs := (xs.zip ys).map fun p => collNode q.op q.t rm p.1 p.2
  (rs.flatMap fun r => bytesOf r.1 n, rs.foldl (fun f r => f ||| r.2) 0)

/-- The first pair that is ready: rank, level, the left subtotal and the right one, none where no rank is present. -/
def CRound.ready (r : CRound) (n : Nat) : Option (Nat × Nat × List Byte × Option (List Byte)) :=
  r.subs.findSome? fun x =>
    let (rank, level, bs) := x
    if treeLevels n ≤ level ∨ rank % 2 ^ (level + 1) ≠ 0 ∨ (r.sub? rank (level + 1)).isSome then none
    else if rank + 2 ^ level < n then (r.sub? (rank + 2 ^ level) level).map fun y => (rank, level, bs, some y)
    else some (rank, level, bs, none)

def execCollCombine (core seq : Nat) (s : State) : Out := coreEvent core (fun s =>
  match s.collOp seq with
  | none => none
  | some (o, q, k) => match s.round? o.ctx q.gid k with
    | none => none
    | some r =>
      let mine := if q.kind = 2 then some [] else if r.fail.isSome then some [] else r.sub? q.rank (topLevel q.rank)
      if r.ups.contains q.rank && !r.told.contains q.rank && mine.isSome && (q.kind != 2 || r.fail.isSome) then
        some (s.tellUp o q k (mine.getD []) r)
      else if q.kind = 2 ∨ r.fail.isSome then none
      else match r.ready q.n with
        | none => none
        | some (rank, level, x, y) =>
          let v := combineBytes q x y
          some (s.setRound { r with subs := r.subs ++ [(rank, level + 1, v.1)], flags := r.flags ||| v.2 })) s

/-- The result of a round, once it is known at the member: from the hub of rank 0, or from the parent in another package that a rank
above it has. -/
def CRound.result (r : CRound) (q : CollDesc) : Option (List Byte) :=
  match (List.range 22).findSome? fun j => let a := q.rank / 2 ^ j * 2 ^ j; if r.ups.contains a then some a else none with
  | some a => aget r.got a
  | none => if q.kind = 2 then r.sub? 0 0 else r.sub? 0 (treeLevels q.n)

/-- A member of a failed round: its buffer restored, its stamp to have bit 63 set, the notice (spec/24 R447). -/
def State.collFail (s : State) (o : EngOp) (code : Nat) : State :=
  let c := s.me
  let pre := c.ring.filter fun p => decide (p.core = s.cur) && decide (p.seq = o.seq)
  let c := (sortDesc (pre.map fun p => (p.ord, p.what))).foldl (fun c x => c.restore1 (.inr x.2)) c
  let c := c.mapOp o.seq fun o => { o with st := .finished, failed := true, flags := 0, room := 0 }
  let c := { c with colls := c.colls.map fun p => if p.1 = o.seq then (p.1, 0) else p }
  ({ s with me := c }).notice s.cur o.ctx (some o.lnch) 0x405 o.tid 0 0 (ofNat o.seq) (ofNat code)

def execCollResultLand (core seq : Nat) (s : State) : Out := engineEvent core (fun s =>
  match s.collOp seq with
  | none => none
  | some (o, q, k) => match s.round? o.ctx q.gid k with
    | none => none
    | some r =>
      match r.fail with
      | some code => if s.me.opCommitted o && (o.pending || (o.st == .finished && !o.failed)) then some ((s.collFail o code).tellDown o q k [] r) else none
      | none =>
        if o.st != .running || (linesOf q.buf.toNat q.len).any s.me.held then none
        else (r.result q).map fun bs =>
          let c := (s.me.claimAll o.ctx q.buf.toNat q.len).landBytes s.cur o q.buf.toNat bs
          let c := c.mapOp seq fun o => { o with st := .finished, flags := r.flags, room := 0 }
          (({ s with me := c }).setRound { r with done := nset r.done q.rank }).tellDown o q k bs r) s

/-- A combining point drops the round W after every member's completion step, in clk of the partition's slowest core; one that has members in
other packages, which complete out of its sight, stays (log 43). -/
def execCollOutputExpiry (core seq : Nat) (s : State) : Out := coreEvent core (fun s =>
  match s.collOp seq with
  | none => none
  | some (o, q, k) => match s.round? o.ctx q.gid k with
    | none => none
    | some r =>
      if decide (q.n ≤ r.took.length) && decide (r.lastAt + Config.W * s.slowest (s.ctx o.ctx.toNat) ≤ s.el9) then
        some { s with rounds := s.rounds.filter fun p => !s.isRound o.ctx q.gid k p }
      else none) s

/-- The completion step of a COLL, as COLLW reports it afterwards. -/
def State.completeColl (s : State) (o : EngOp) (q : CollDesc) (k : Nat) : State :=
  let s' := s.complete o
  if !o.took && (s'.me.op? o.seq).any fun o => o.st == .complete then
    let fail := (s.round? o.ctx q.gid k).bind (·.fail)
    let v := match fail with
      | some code => 3 * 2 ^ 62 + code
      | none => 2 ^ 63 + put o.flags.toNat 16
    let put := fun (l : List (Nat × Nat)) => l.map fun (p : Nat × Nat) => if p.1 = o.seq then (p.1, v) else p
    let s' := { s' with me := { s'.me with
      colls := put s'.me.colls, ops := s'.me.ops.map fun (p : EngOp) => { p with pushed := put p.pushed } } }
    match s'.round? o.ctx q.gid k with
    | some r => s'.setRound { r with took := nset r.took q.rank, lastAt := s'.el9 }
    | none => s'
  else s'

/-! ### The completion step of an engine operation (spec/09 R222, spec/14 R319, spec/24 R446) -/

def execEngineCompletion (core seq : Nat) (s : State) : Out := coreEvent core (fun s =>
  match s.me.op? seq with
  | none => none
  | some o => match o.kind with
    | .pour _ => if o.inFlight && s.me.opCommitted o && s.pourOver o then some (s.completePour o) else none
    | .coll m k _ => if o.st == .finished && s.me.opCommitted o then some (s.completeColl o (CollDesc.of m) k) else none
    | _ => if o.st == .finished && s.me.opCommitted o then some (s.complete o) else none) s

end Sys2Proof.Machine
end

