-- ==== Sys2Proof/Machine/Fabric.lean ====
section
/-! DEFINITION. Rencia ports: flits, link retry, training, the exchange of time (spec/24 R435 to R441). -/

namespace Sys2Proof.Machine

/-! ### Ports -/

/-- Saturating 16-bit count. -/
def up16 (n : BitVec 16) : BitVec 16 := if n = BitVec.allOnes 16 then n else n + 1

/-- The link is lost with the flits that wait to be acknowledged (spec/24 R436, R438). -/
def State.portDown (s : State) (q : Nat) : State :=
  let p := s.port q
  (s.setPort q { p with
    up := false, downs := up16 p.downs, tx := [], resend := [], times := 0, asked := none, owed := none }).interrupt 1

/-- A port that has passed its self-test: bit 6 + q of RDYC (spec/21 R424). -/
def State.portReady (s : State) (q : Nat) : Bool := (s.ready.toList.getD 2 0).getLsbD (6 + q)

/-! ### Flits (spec/24 R435) -/

/-- Bytes 0 to 59, the header word in little-endian order. -/
def flitBytes (f : Flit) : List Byte :=
  bytesOf (put f.seq.toNat 20 + put f.kind.toNat 16 + put f.cred.toNat 8 + put f.vcl.toNat 6 + f.resv.toNat) 4 ++
    (List.range 56).map fun i => f.payload.getD i 0

/-- One bit of the reflected polynomial 0x1EDC_6F41 (log 51). -/
def crcBit (x : BitVec 32) : BitVec 32 := if x.getLsbD 0 then (x >>> 1) ^^^ 0x82F63B78#32 else x >>> 1

def crcByte (x : BitVec 32) (b : Byte) : BitVec 32 :=
  crcBit (crcBit (crcBit (crcBit (crcBit (crcBit (crcBit (crcBit (x ^^^ b.setWidth 32))))))))

/-- CRC-32C (log 51). -/
def crc32c (bs : List Byte) : BitVec 32 := ~~~(bs.foldl crcByte (BitVec.allOnes 32))

/-- Kinds that take a place in the link's sequence: packet heads and bodies, time exchange (log 52). -/
def sequenced (kind : BitVec 4) : Bool := kind == 1 || kind == 2 || kind == 5

/-- Sequence number a stands at or before b, modulo 4,096. -/
def upTo (a b : BitVec 12) : Bool := decide ((b - a).toNat < 2048)

/-- A flit whose CRC holds, at a port that is up. -/
def Port.take (p : Port) (f : Flit) : Port :=
  if f.kind = 3 then { p with tx := p.tx.filter fun g => !upTo g.seq f.seq, times := 0 }
  else if f.kind = 4 then
    { p with naks := up16 p.naks, asked := some f.seq, tx := p.tx.filter fun g => !upTo g.seq (f.seq - 1) }
  else if !sequenced f.kind then p
  else if f.seq = p.rxNext then { p with rx := p.rx ++ [f], rxNext := p.rxNext + 1, owed := some (true, f.seq) }
  else { p with owed := some (false, p.rxNext) }

/-- A flit of some kind leaves, with the next SEQ; payload and credits are free (log 65). -/
def Port.emit1 (p : Port) (kind : BitVec 4) (v : BitVec 2) (id : Nat) : Port :=
  let f : Flit := ⟨p.txNext, kind, Config.creditByte id, v, 0, (List.range 56).map (Config.payloadByte id), 0⟩
  { p with txNext := p.txNext + 1, tx := p.tx ++ [{ f with crc := crc32c (flitBytes f) }] }

/-- The flits of a packet that leaves through a port in class v: a head, then bodies. -/
def Port.emit (p : Port) (v : BitVec 2) (id n : Nat) : Port :=
  if n = 0 then p else (List.range (n - 1)).foldl (fun (p : Port) i => p.emit1 2 v (id + i + 1)) (p.emit1 1 v id)

/-- The sender replays from the flit that the nak names: the flits leave again in this step. After 16 consecutive replays of one flit the port
goes down. -/
def execLinkReplay (port : Nat) (first : BitVec 12) (s : State) : Out :=
  if port < Config.nPorts then
    let p := s.port port
    if p.up && p.asked == some first then
      let n := if p.first = first then p.times + 1 else 1
      if 16 < n then .next (s.portDown port)
      else .next (s.setPort port { p with
        resend := p.tx.filter fun g => upTo first g.seq, times := n, first := first, asked := none })
    else .next s
  else .fault .noSuchUnit

/-- A port that is down trains; it stays down against a neighbour of its own package id (spec/24 R431, R438). -/
def execPortTrain (port : Nat) (pkg : BitVec 8) (nport : BitVec 4) (s : State) : Out :=
  if port < Config.nPorts then
    let p := s.port port
    if p.up || !s.portReady port then .next s
    else if pkg = s.pkgid then .next (s.setPort port { p with dup := true, npkg := pkg, nport := nport })
    else .next ((s.setPort port { p with
      up := true, dup := false, npkg := pkg, nport := nport, rxNext := 0, rx := [], txNext := 0, tx := [], resend := [], times := 0
      asked := none, owed := none }).interrupt 1)
  else .fault .noSuchUnit

/-! ### Global time (spec/24 R441) -/

/-- Half of the two-way difference, in gt. -/
def timeOffset (t1 t2 t3 t4 : Nat) : Int := (((t2 : Int) - t1) - ((t4 : Int) - t3)) / 2

/-- The port through which the package exchanges time: that of its route toward the TMASTER package, which no register of it names. -/
def State.timePort (s : State) : Option Nat := s.egress Config.masterPkg

/-- The answer of a time exchange has arrived, as a flit of KIND 5, at the own count t4; t1 is the own count at which the request left. The first
exchange steps the counter, which never decreases; a later one sets what the rate has to make up (log 53). -/
def execTimeExchange (t1 t2 t3 t4 : Nat) (s : State) : Out :=
  if s.tmaster then .next s
  else match s.timePort with
    | none => .next s
    | some q =>
      let p := s.port q
      if !(p.rx.any fun f => f.kind == 5) || t4 != s.gt || decide (t4 < t1) then .next s
      else
        let s := s.setPort q { p with rx := p.rx.filter fun f => f.kind != 5 }
        let off := timeOffset t1 t2 t3 t4
        if s.sync then .next { s with skew := 9 * off }
        else .next { s with gt9 := s.gt9 + 9 * off.toNat, skew := 9 * min off 0, sync := true }

end Sys2Proof.Machine
end

