-- ==== Sys2Proof/Machine/Msg.lean ====
section
/-! DEFINITION. Messages and tasks: SEND, SENDM, SPAWN, LAUNCH, STEALC (spec/05 R141 to R143, spec/17 R370 to R372). -/

namespace Sys2Proof.Machine

/-- Reserved bits of a send descriptor (spec/05 R141). -/
def descBits : Nat := put 0xFF 56 + put 0xF 32 + 0x7FF
def descPkg (w : W64) : Nat := bits w 31 24
def descCore (w : W64) : Nat := bits w 23 11

/-- A 64-byte block of own memory, unlocked (spec/05 R142). -/
def sendBlock (c : Core) (x : W64) : Res (Msg × Core) := do
  need (x.toNat % 64 = 0) (.trap (precise c 0x201 x 64 0))
  need (c.ownArray x 64) (.trap (precise c 0x202 x 0 0))
  notLocked c x x.toNat 64
  ownBlock c x

/-- The header of a message: CTX, SPKG, SCORE and SSEQ by the interface. -/
def State.head (s : State) (desc : W64) : W64 := header desc s.me.act.ctx s.pkgid s.cur s.me.mseq

/-- A message enters the outbox and takes the counter's value (spec/03 R49, R64). -/
def outMsg (s : State) (c : Core) (m : Msg) (pkg core : Nat) (look : Option (BitVec 48)) : State :=
  { s with me := { (c.outAdd (.msg m pkg core look)) with mseq := c.mseq + 1 }.retire }

def execSend (a b : Src) (s : State) : Out := finish s do
  let c := s.me
  readsDone c
  let (w, c1) ← readS a c
  let (x, c2) ← readS b c1
  need (w.toNat &&& descBits = 0) (.trap (precise c 0x002 w (ofNat (w.toNat &&& descBits)) 1))
  needOut c 1
  .ok (outMsg s (freeS b (freeS a c2)) (msgOf [s.head w, c.ctl.tid, c.ctl.wid, x, 0, 0, 0, 0]) (descPkg w) (descCore w) none)

def execSendm (a b : Src) (s : State) : Out := finish s do
  let c := s.me
  readsDone c
  let (w, c1) ← readS a c
  let (x, c2) ← readS b c1
  need (w.toNat &&& descBits = 0) (.trap (precise c 0x002 w (ofNat (w.toNat &&& descBits)) 1))
  let (m, c3) ← sendBlock (freeS b (freeS a c2)) x
  needOut c 1
  .ok (outMsg s c3 (msgOf (s.head w :: c.ctl.tid :: m.toList.drop 2)) (descPkg w) (descCore w) none)

/-! ### SPAWN (spec/17 R370) -/

/-- A task identifier of this core (spec/03 R50). -/
def State.taskId (s : State) (seq : BitVec 43) : W64 := ofNat (put s.pkgid.toNat 56 + put s.cur 43 + seq.toNat)

/-- A new task record: header, identifier, and the words of its block. -/
def State.taskRecord (s : State) (desc : W64) (m : Msg) : Msg :=
  msgOf (header desc s.me.act.ctx s.pkgid s.cur 0 :: s.taskId (s.me.tseq + 1) :: m.toList.drop 2)

/-- Lines of bank 14 and of its metadata that a push at the bottom touches. -/
def Core.dequeLines (c : Core) : List Nat := [14 * 1024 + (c.dqTop + c.deque.length) % 1024, dequeMeta]

/-- The push onto the core's own deque: revocable (spec/03 R75). -/
def ownSpawn (s : State) (d : BitVec 6) (m : Msg) (c : Core) : Res State := do
  let c := c.claimBank c.act.ctx 14
  if 1024 ≤ c.deque.length then
    needLines c [dequeMeta]
    let c ← writeS d 0 ((c.holdDeque [dequeMeta]).setSts .full)
    .ok { s with me := c.served1 }
  else
    needLines c c.dequeLines
    let r : TaskRec := ⟨m, some c.seg.id, s.gt, false⟩
    let c := { c.holdDeque c.dequeLines with deque := c.deque ++ [r], tseq := c.tseq + 1 }
    let c ← writeS d (m.toList.getD 1 0) (c.setSts .ok)
    .ok { s with me := c.served1 }

def execSpawn (d : BitVec 6) (a b : Src) (scope : Scope) (s : State) : Out :=
  match s.me.irrev with
  | some (.sent _) => .next (s.waiting .reply)
  | _ => finish s do
    let c := s.me
    readsDone c
    destS d c
    let (w, c1) ← readS a c
    let (x, c2) ← readS b c1
    need (w.toNat &&& descBits = 0) (.trap (precise c 0x002 w (ofNat (w.toNat &&& descBits)) 1))
    let k := descCore w
    let l := s.lease (rowId k)
    need (w.extractLsb' 48 8 == c.act.lnch && decide (descPkg w = s.pkgid.toNat) && s.inScope scope (.local k 0) &&
      (s.ctx c.act.ctx.toNat).hasCluster (clusterOf k) && l.st == .running && l.ctx == c.act.ctx && l.cur == c.act.lnch)
      (.trap (precise c 0x202 w 0 0))
    let (m, c3) ← sendBlock (freeS b (freeS a c2)) x
    let r := s.taskRecord w m
    -- in a gang each member pushes onto its own deque, whatever core the descriptor names
    if k = s.cur ∨ c.gang.isSome then ownSpawn s d r c3 else irrevocable s d c3 (.ok (.local k 0, .spawn k r))

/-! ### LAUNCH (spec/17 R363, R371) -/

/-- Widths of WLAY. -/
def wlay (w : W64) (j : Nat) : Nat := bits w (6 * j + 5) (6 * j)

/-- Clusters of a launch record, by number. -/
def launchClusters (m : Msg) : List Nat :=
  (List.range 128).filter fun k => ((m.toList.getD (2 + k / 64) 0)).getLsbD (k % 64)

/-- Offending bits of the reserved fields of a launch record; a CTX other than x counts. -/
def launchMask (m : Msg) (x : BitVec 8) : Nat :=
  let w := fun (i : Nat) => m.toList.getD i 0
  let m0 := ((w 0).toNat &&& (put 3 46 + put 3 42)) ||| maskIf (bits (w 0) 45 44 == 3) (put 3 44) |||
    maskIf ((w 0).extractLsb' 56 8 != x) (put 0xFF 56)
  let m1 := (w 1).toNat &&& put (2 ^ 32 - 1) 32
  let m6 := (w 6).toNat / 2 ^ 20 * 2 ^ 20
  if m0 ≠ 0 then m0 else if m1 ≠ 0 then m1 else m6

def execLaunch (a : Src) (s : State) : Out := finish s do
  let c := s.me
  readsDone c
  let (x, c1) ← readS a c
  let (m, c2) ← sendBlock (freeS a c1) x
  need (launchMask m c.act.ctx = 0) (.trap (precise c 0x002 x (ofNat (launchMask m c.act.ctx)) 1))
  need ((launchClusters m).all fun k => (s.ctx c.act.ctx.toNat).hasCluster k) (.trap (precise c 0x202 x 0 0))
  needOut c 1
  let n := bits (m.toList.getD 6 0) 19 0
  let c3 := c2.outAdd (.launch m (dieOf s.cur) c.tseq.toNat)
  .ok { s with me := { c3 with tseq := c3.tseq + BitVec.ofNat 43 n }.retire }

/-! ### STEALC (spec/17 R372): counters by selector -/

def Core.counter (c : Core) (sel : Nat) : W64 := (aget c.stealCtr sel).getD 0
def Core.setCounter (c : Core) (sel : Nat) (v : W64) : Core := { c with stealCtr := aset c.stealCtr sel v }
def Core.count (c : Core) (sel n : Nat) : Core := c.setCounter sel (c.counter sel + ofNat n)

def execStealc (d : BitVec 6) (which : BitVec 3) (clr : Bool) (s : State) : Out := coreOp s fun c => do
  destS d c
  need (which != 7) (.trap (precise c 0x002 (encWord (.stealc d which clr)) 7 0))
  let v := c.counter which.toNat
  writeS d v (if clr then c.setCounter which.toNat 0 else c)

end Sys2Proof.Machine
end

