-- ==== Sys2Proof/Machine/Local.lean ====
section
/-! DEFINITION. Local-time mode: the offer of the mailbox and the instructions of row 0xC_ (spec/10). -/

namespace Sys2Proof.Machine

/-! ### Events and their order (spec/10 R251, R252) -/

def isStamped (m : Msg) : Bool := (m.toList.getD 0 0).getLsbD 35
/-- A stamped event; a MIGR record is none, whatever its header says. -/
def MailItem.stamped (i : MailItem) : Bool := isStamped i.msg && i.migr.isNone
def stampOf (m : Msg) : W64 := m.toList.getD 7 0

/-- The key comparison: stamp, sender, sequence modulo 2,048. -/
def keyLt (a b : Msg) : Bool :=
  let ha := a.toList.getD 0 0
  let hb := b.toList.getD 0 0
  if stampOf a ≠ stampOf b then (stampOf a).ult (stampOf b)
  else if bits ha 31 11 ≠ bits hb 31 11 then decide (bits ha 31 11 < bits hb 31 11)
  else decide (1 ≤ (bits hb 10 0 + 2048 - bits ha 10 0) % 2048) && decide ((bits hb 10 0 + 2048 - bits ha 10 0) % 2048 ≤ 1023)

/-- The item of lowest key among those of a list, by index. -/
def lowest : List (Nat × MailItem) → Option (Nat × MailItem)
  | [] => none
  | x :: l => match lowest l with
    | none => some x
    | some y => if keyLt y.2.msg x.2.msg then some y else some x

/-- The bounds of every valid input slot exceed t. -/
def LocalTime.safe (lt : LocalTime) (t : W64) : Bool := lt.ins.all fun x => t.ult x.2.b

/-- What a mailbox in local-time mode offers, by index (spec/10 R256); `mine` selects the launch. -/
def Core.offerLT (c : Core) (mine : Msg → Bool) : Option Nat :=
  let all := (c.mailbox.zipIdx.map fun x => (x.2, x.1)).filter fun x => mine x.2.msg
  match all.find? fun x => !x.2.stamped with
  | some x => some x.1
  | none =>
    let rel := all.filter fun x => x.2.rel
    match lowest rel with
    | some x => some x.1
    | none => match lowest all with
      | some x => if c.lt.safe (stampOf x.2.msg) then some x.1 else none
      | none => none

/-- Lowest pending stamp, 2^64 − 1 when none. -/
def Core.minStamp (c : Core) : W64 :=
  (c.mailbox.filter MailItem.stamped).foldl (fun t i => if (stampOf i.msg).ult t then stampOf i.msg else t) (BitVec.allOnes 64)

def slotBits (l : List Nat) : Nat := (l.map fun i => 2 ^ i).sum

/-- The state word (spec/10 R272). Out of the mode it is 0 as a whole, though bank 15 may hold messages: the manual says there of EN alone that it
is 0. DESIGN CHOICE, log 66. -/
def Core.ltState (c : Core) : W64 :=
  let b := fun (x : Bool) (k : Nat) => if x then 2 ^ k else 0
  let mine := fun (m : Msg) => msgLnch m == c.act.lnch && msgCtx m == c.act.ctx
  if !c.lt.en then 0
  else ofNat (2 ^ 63 + b (c.offerLT mine).isNone 62 + b c.lt.lerr 61 + b (c.mailbox.any (·.rel)) 60 + put c.mailbox.length 48 +
    put c.lt.dper.toNat 32 + put (slotBits (c.lt.ins.map (·.1))) 16 + slotBits (c.lt.outs.map (·.1)))

/-! ### Instructions -/

/-- Row 0xC_ outside the mode or in a gang (spec/10 R266). -/
def ltMode (c : Core) (i : Instr) (inMode : Bool) : Res Unit :=
  need (c.gang.isNone && (!inMode || c.lt.en)) (.trap (precise c 0x001 (encWord i) 0 0))

def linkLine : Nat := 17408

/-- The link table is one metadata line, logged before it changes (spec/10 R254). -/
def Core.logLinks (c : Core) : Core := if c.seg.lines.contains linkLine then c else c.log [linkLine] (.links c.lt)

/-- The bank-wide change of LTCFG, with the local-time state as it was. The mailbox keeps its messages: an undo does not take back what
dispatches and commits of older segments did to it. -/
def changeMail (c new : Core) : Res Core := do
  let c' ← changeBank c new 15
  .ok (c'.log [] (.links c.lt))

/-- A stamped event is staged for core k. -/
def Staged.stampedFor (g : Staged) (k : Nat) : Bool := g.dst == k && g.spill.isNone && (match g.e with
  | .msg m _ _ _ => isStamped m
  | _ => false)

/-- A stamped event is held, or staged here. -/
def State.stampedHere (s : State) : Bool :=
  s.me.mailbox.any MailItem.stamped || s.staged.any fun g => g.stampedFor s.cur

/-- LTCFG's effect on the core (spec/10 R267). -/
def ltConfig (s : State) (w : W64) (c : Core) : Res (Core × StsCode) := do
  let en := w.getLsbD 0
  let dper := w.extractLsb' 32 16
  if !c.lt.en && en then
    if c.mailbox.isEmpty then
      (changeMail c { c with lt := ⟨true, 0, 0, dper, false, [], [], c.nord + 1⟩ }).map fun c => (c, .ok)
    else (touchOnly c [15]).map fun c => (c, .full)
  else if c.lt.en && en then
    (changeMail c { c with lt := { c.lt with dper := dper, lerr := false } }).map fun c => (c, .ok)
  else if c.lt.en then
    if s.stampedHere then (touchOnly c [15]).map fun c => (c, .full)
    else (changeMail c { c with lt := LocalTime.reset, mbHead := 0 }).map fun c => (c, .ok)
  else (touchOnly c [15]).map fun c => (c, .ok)

def execLtcfg (d : BitVec 6) (a : Src) (s : State) : Out := finish s do
  let c := s.me
  ltMode c (.ltcfg d a) false
  readsDone c
  destS d c
  let (w, c1) ← readS a c
  let m := w.toNat &&& (put 0xFFFF 48 + (2 ^ 32 - 2))
  need (m = 0) (.trap (precise c 0x002 w (ofNat m) 1))
  let c2 := (freeS a c1).claimBank c.act.ctx 15
  let (c3, sts) ← ltConfig s w c2
  let c4 ← writeS d c2.ltState (c3.setSts sts)
  .ok { s with me := c4.served1 }

/-- The slots of a direction name the peer. -/
def LocalTime.names (lt : LocalTime) (out : Bool) (peer slot : Nat) : Bool :=
  if out then lt.outs.any fun x => x.1 != slot && x.2.peer == peer else lt.ins.any fun x => x.1 != slot && x.2.peer == peer

def execLtlink (out : Bool) (slot : BitVec 4) (a b : Src) (s : State) : Out := coreOp s fun c => do
  ltMode c (.ltlink out slot a b) true
  readsDone c
  let (x, c1) ← readS a c
  let (w, c2) ← readS b c1
  let clr := w.getLsbD 63
  let mx := if clr then x.toNat else x.toNat - put (bits x 31 24) 24 - put (bits x 23 11) 11
  let mw := (w.toNat &&& put 0x7FFF 48) ||| (if clr then w.toNat &&& (2 ^ 48 - 1) else 0)
  need (mx = 0) (.trap (precise c 0x002 x (ofNat mx) 1))
  need (mw = 0) (.trap (precise c 0x002 w (ofNat mw) 1))
  let peer := bits x 23 11
  let n := slot.toNat
  need (clr || (decide (bits x 31 24 = s.pkgid.toNat) && (s.ctx c.act.ctx.toNat).hasCluster (clusterOf peer) &&
    !c.lt.names out peer n)) (.trap (precise c 0x202 x 0 0))
  needLines c [linkLine]
  let c3 := (freeS b (freeS a c2)).logLinks
  let lt := c3.lt
  let lt := if out then { lt with outs := if clr then adel lt.outs n else aset lt.outs n ⟨peer, w.setWidth 48, 0, 0, true, c3.nord⟩ }
    else { lt with ins := if clr then adel lt.ins n else aset lt.ins n ⟨peer, w.setWidth 48, 0⟩ }
  .ok { c3 with lt := lt, nord := c3.nord + 1 }

/-- Reserved bits of the descriptor of LTSEND: those of SEND, with the destination. -/
def ltDescBits : Nat := descBits + (2 ^ 32 - 2 ^ 11)

def execLtsend (slot : BitVec 4) (a b e : Src) (s : State) : Out := finish s do
  let c := s.me
  ltMode c (.ltsend slot a b e) true
  readsDone c
  let (w, c1) ← readS a c
  let (t, c2) ← readS b c1
  let (x, c3) ← readS e c2
  need (w.toNat &&& ltDescBits = 0) (.trap (precise c 0x002 w (ofNat (w.toNat &&& ltDescBits)) 1))
  match aget c.lt.outs slot.toNat with
  | none => trap c 0x202 (ofNat slot.toNat)
  | some o =>
    let bound := if t = BitVec.allOnes 64 then 2 ^ 64 - 1 else max (c.lt.ltc.toNat + o.look.toNat) o.f.toNat
    need (t != BitVec.allOnes 64 && decide (bound ≤ t.toNat))
      (.trap (precise c 0x402 t (ofNat (min bound (2 ^ 64 - 1))) (ofNat slot.toNat)))
    needOut c 1
    let m := msgOf [s.head w ||| ofNat (2 ^ 35), c.ctl.tid, c.ctl.wid, x, 0, 0, 0, t]
    .ok (outMsg s (freeS e (freeS b (freeS a c3))) m s.pkgid.toNat o.peer (some o.look))

def execLtdrip (all : Bool) (slot : BitVec 4) (a : Src) (s : State) : Out := coreOp s fun c => do
  ltMode c (.ltdrip all slot a) true
  readsDone c
  let (x, c1) ← readS a c
  need (all || (aget c.lt.outs slot.toNat).isSome) (.trap (precise c 0x202 (ofNat slot.toNat) 0 0))
  let js := if all then c.lt.outs.map (·.1) else [slot.toNat]
  needOut c js.length
  needLines c (if js.isEmpty then [] else [linkLine])
  let c2 := if js.isEmpty then freeS a c1 else (freeS a c1).logLinks
  .ok (js.foldl (fun c j => match aget c.lt.outs j with
    | none => c
    | some o =>
      let v := satAdd (max c.lt.ltc.toNat x.toNat) o.look.toNat
      { (c.outAdd (.drip o.decl v)) with lt := { c.lt with outs := aset c.lt.outs j { o with f := if o.f.ult v then v else o.f } } }) c2)

def execLtclk (d : BitVec 6) (s : State) : Out := coreOp s fun c => do
  ltMode c (.ltclk d) true
  destS d c
  produce d c.lt.ltc 2 c

/-- The item that a selector names; none for a reserved one (spec/10 R272). -/
def Core.ltItem (c : Core) (sel : Nat) : Option W64 :=
  let lt := c.lt
  if sel = 0 then some c.ltState
  else if 4 ≤ sel ∧ sel ≤ 15 then none
  else if !lt.en then some 0
  else if sel = 1 then some lt.ltc
  else if sel = 2 then some lt.a
  else if sel = 3 then some c.minStamp
  else if sel < 32 then some (((aget lt.ins (sel - 16)).map (·.b)).getD 0)
  else if sel < 48 then some (((aget lt.outs (sel - 32)).map (·.d)).getD 0)
  else some (((aget lt.outs (sel - 48)).map (·.f)).getD 0)

def execLtqry (d : BitVec 6) (a : Src) (s : State) : Out := coreOp s fun c => do
  ltMode c (.ltqry d a) false
  destS d c
  let (x, c1) ← readS a c
  need (x.toNat < 64) (.trap (precise c 0x002 x (ofNat (x.toNat / 64 * 64)) 1))
  match c.ltItem x.toNat with
  | none => trap c 0x002 x 0x3F 1
  | some v => writeS d v (freeS a c1)

end Sys2Proof.Machine
end

