-- ==== Sys2Proof/Machine/System.lean ====
section
/-! DEFINITION. Control words and system instructions, and the heads that no instruction stands at (spec/05 R144 to R149,
spec/04 R87, R100). -/

namespace Sys2Proof.Machine

/-! ### GETC and SETC (spec/05 R144) -/

def Ctl.get (k : Ctl) : Cw → W64
  | .tid => k.tid
  | .wid => k.wid
  | .msg => k.msg
  | .flg => k.flg
  | .amx => k.amx
  | .sts => k.sts
  | .bud => k.bud
  | .mix => k.mix
  | .mode => k.mode

/-- The offending bits of a value for a control word; none for a word that SETC does not write. -/
def cwMask (w : Cw) (x : W64) : Option Nat :=
  match w with
  | .flg => some (x.toNat / 32 * 32)
  | .amx => some (if 0x7FF0000000000000 < bits x 62 0 then 2 ^ 63 - 1 else 0)
  | .sts => some ((x.toNat / 8 * 8) ||| (if 4 < bits x 2 0 then 7 else 0))
  | .bud => some (x.toNat / 2 ^ 33 * 2 ^ 33)
  | .mode => some (x.toNat &&& (2 ^ 64 - 2 ^ 18 + 0xFEE0))
  | _ => none

def Ctl.put (k : Ctl) (w : Cw) (x : W64) : Ctl :=
  match w with
  | .flg => { k with flg := x }
  | .amx => { k with amx := x }
  | .sts => { k with sts := x }
  | .bud => { k with bud := if x.ult k.bud then x else k.bud }
  | .mode => { k with mode := x }
  | _ => k

def execGetc (d : BitVec 6) (w : Cw) (s : State) : Out := coreOp s fun c => do
  destS d c
  writeS d (c.ctl.get w) c

/-- A word that is only read raises RESV at decode (spec/03 R57). -/
def execSetc (w : Cw) (a : Src) (s : State) : Out := coreOp s fun c => do
  need (cwMask w 0).isSome (.trap (precise c 0x002 (encWord (.setc w a)) 0x3F 0))
  readsDone c
  let (x, c1) ← readS a c
  let m := (cwMask w x).getD 0
  need (m = 0) (.trap (precise c 0x002 x (ofNat m) 1))
  .ok { (freeS a c1) with ctl := c.ctl.put w x }

/-! ### The clock of a core -/

/-- Results on their way whose latest time has come arrive, in order (spec/03 R55). -/
def Core.deliverDue (c : Core) : Core :=
  let due := fun (r : Pend) => decide (r.due ≤ c.clk)
  (c.pend.filter due).foldl (fun c r => c.deliver (BitVec.ofNat 6 r.d) r.val) { c with pend := c.pend.filter fun r => !due r }

/-- n clk of the core in focus pass: BUD, counters, results that are due, energy. -/
def State.passClk (s : State) (n : Nat) : State :=
  let c := s.me
  let bud := if c.running then ofNat (c.ctl.bud.toNat - n) else c.ctl.bud
  let c := { c with clk := c.clk + n, at9 := c.at9 + n * s.rate, ctl := { c.ctl with bud := bud } }
  let c := if c.running then c.count 2 n else c
  ({ s with me := c.deliverDue } : State).chargeClk (if c.running then 12 else 13) n

/-- The clk by which the core in focus lags behind the package pass. -/
def State.catchUp (s : State) : State :=
  let n := (s.el9 - s.me.at9) / s.rate
  if n = 0 then s else s.passClk n

/-! ### Readings (spec/05 R145, R146) -/

/-- The reading is that of issue, within the bounds of spec/05 R145 (log 45). -/
def execTime (d : BitVec 6) (s : State) : Out := coreOp s fun c => do
  destS d c
  produce d (ofNat s.gt) 48 c

def execCyc (d : BitVec 6) (s : State) : Out := coreOp s fun c => do
  destS d c
  writeS d (ofNat c.clk) c

/-- The total, with the clk of every core of the partition up to now (spec/20 R403). -/
def execEnrg (d : BitVec 6) (s : State) : Out :=
  let ctx := s.me.act.ctx.toNat
  let s := onCores (s.ctx ctx).coreList State.catchUp s
  coreOp s fun c => do
    destS d c
    writeS d ((s.ctx ctx).w 11) c

/-! ### ERET (spec/05 R147) -/

/-- The handler's segment closes as END closes one; the stopped activation resumes when it commits. Until then the frame keeps the choice,
for a rollback that reaches back across that commit (spec/11 R280). -/
def State.endHandler (s : State) (skip : Bool) : State :=
  let c := { s.me with frame := s.me.frame.map fun (f : Saved) => { f with choice := some skip } }
  ({ s with me := c.close .eret c.pc (.resume skip) }).endIdle

def execEret (skip : Bool) (s : State) : Out := finish s do
  let c := s.me
  need c.act.isTrap (.trap (precise c 0x001 (encWord (.eret skip)) 0 0))
  let ms := s.gangOf
  gangReady s ms
  need (ms.length ≤ 1 || fusedDone s ms false) (.wait .engine)
  let s := onCores (ms.filter (· != s.cur)) (fun s => s.endBy .endAct) s
  let s := { s with me := { s.me with gang := none } }
  .ok (if ms.length ≤ 1 then s.endHandler skip else (s.endHandler skip).linkMates ms)

/-! ### BKPT (spec/05 R148, spec/20 R393) -/

/-- The core stops, unless it has stopped already. -/
def Core.halt (c : Core) (why : Why) : Core :=
  { c with halted := some why, steps := none, haltClk := if c.halted.isSome && c.steps.isNone then c.haltClk else c.clk
           haltPc := if c.halted.isSome && c.steps.isNone then c.haltPc else c.pc }

/-- The partition of a context stops, with its engines; core k stops for a reason of its own. Where that is BKPT, the engines come to their
boundaries in steps of their own (stoppingEvent). A core that nothing has reached yet stands still by itself, but
one at least is marked, and a row that loads while its partition is halted stops its cores then (State.rowLoaded). -/
def State.haltAll (s : State) (ctx : Nat) (k : Nat) (why : Why) : State :=
  let x := s.ctx ctx
  let ks := x.coreList.zipIdx.filter fun j => j.2 == 0 || s.cores.contains j.1 || (s.lease (rowId j.1)).ctx.toNat == ctx
  onCores (ks.map (·.1)) (fun s =>
    let s := if why == .bkpt || s.me.halted.isSome then s else s.stopEngines
    { s with me := s.me.halt (if s.cur = k then why else s.me.halted.getD .halt) }) s

/-- Word w of breakpoint register r of a context (spec/20 R397). -/
def State.bkptWord (s : State) (ctx r w : Nat) : W64 := (aget s.bkpts (32 * ctx + 4 * r + w)).getD 0

/-- The conditions on head and task of register r hold; an unknown head matches no address (spec/20 R398). -/
def State.bkptHead (s : State) (ctx r : Nat) (pc : Option W64) (tid : W64) : Bool :=
  let e := s.bkptWord ctx r 0
  (!e.getLsbD 62 || pc == some (s.bkptWord ctx r 1)) && (!e.getLsbD 61 || tid == s.bkptWord ctx r 2)

/-- The bank of core k serves n bytes at off to a thread access of core src: registers with LEN (spec/20 R397, R398). A core that a STEP lets
issue halts on it too; one that stands halted already keeps its reason. -/
def State.lineBreak (s : State) (src : Nat) (pc : Option W64) (k off n : Nat) : State :=
  if s.bkpts.isEmpty then s
  else
    let c := s.core src
    let ctx := c.act.ctx.toNat
    let on := fun (r : Nat) => let e := s.bkptWord ctx r 0
      e.getLsbD 63 && e.getLsbD 60 && s.bkptHead ctx r pc c.ctl.tid &&
        (linesOf off n).any fun l => winAddr s.pkgid.toNat k (64 * l) == ofNat (64 * ((s.bkptWord ctx r 3).toNat / 64))
    match (List.range 8).find? on with
    | none => s
    | some r => if c.held? then s else s.haltAll ctx src (.breakpoint r true)

def execBkpt (code : BitVec 6) (s : State) : Out :=
  let x := s.ctx s.me.act.ctx.toNat
  if x.bkhalt then
    if s.me.passing = some .bkpt then .next { s with me := { s.me.retire with passing := none } }
    else .next (s.haltAll s.me.act.ctx.toNat s.cur .bkpt)
  else finish s (trap s.me 0x601 0 (code.setWidth 64))

/-! ### TRACE (spec/05 R149) -/

def execTrace (a : Src) (tag : BitVec 24) (s : State) : Out := coreOp s fun c => do
  readsDone c
  let (x, c1) ← readS a c
  let w := ofNat (put 1 56 + put tag.toNat 32 + put c.act.ctx.toNat 24 + put s.cur 11 + put (bits c.ctl.mix 2 0) 8)
  let c2 := freeS a c1
  .ok { c2 with seg := { c2.seg with traces := c2.seg.traces ++ [[w, x, c2.ctl.tid]] } }

/-! ### No instruction (spec/04 R87, R100) -/

/-- A reserved opcode, with its encoding. -/
def execIllop (enc : W64) (s : State) : Out := finish s (trap s.me 0x001 enc)

/-- Sequential flow has reached an address that no instruction starts at. Where HLINE itself names an empty line the handler stands at its
dispatch, and word 7 is 2. -/
def badFlow (c : Core) : Report := precise c 0x003 c.pc 0 (if c.pc == ofNat (64 * bits (c.handler c.act.hidx).2 8 0) then 2 else 1)

def execSequentialFlowBadtgt (core : Nat) (s : State) : Out :=
  if core < Config.nCores then
    let t := s.focus core
    if t.me.running && t.me.report.isNone && !t.me.validPc t.me.pc then
      .next ((t.takeTrap [(core, badFlow t.me)]).focus s.cur)
    else .next s
  else .fault .noSuchUnit

end Sys2Proof.Machine
end

