-- ==== Sys2Proof/Machine/Replay.lean ====
section
/-! DEFINITION. Record and replay of the dispatch order (spec/20 R399, R400). -/

namespace Sys2Proof.Machine

/-- Where a dispatch takes its work from, as records name it. -/
inductive Source where
  | mailbox | deque | steal | parked
deriving DecidableEq, Repr

def Source.code : Source → Nat
  | .mailbox => 0
  | .deque => 1
  | .steal => 2
  | .parked => 3

/-- The replay buffer of a core: the PA of its entries and their number. -/
def State.replayBuf (s : State) (ctx core : Nat) : Option (Nat × Nat) :=
  let x := s.ctx ctx
  if !x.rpl then none
  else match s.hptr ctx (x.w 13 + ofNat (16 * x.coreList.idxOf core)) 16 with
    | none => none
    | some pa =>
      let n := (s.physWord (pa + 8)).toNat
      (s.hptr ctx (s.physWord pa) (16 * n)).map fun b => (b, n)

/-- Entry j of the buffer. -/
def State.replayAt (s : State) (ctx core j : Nat) : Option (W64 × W64) :=
  match s.replayBuf ctx core with
  | none => none
  | some (pa, n) => if j < n then some (s.physWord (pa + 16 * j), s.physWord (pa + 16 * j + 8)) else none

/-- The entry at the head; none in free run. -/
def State.replayHead (s : State) (ctx core : Nat) : Option (W64 × W64) := s.replayAt ctx core (s.core core).rpos

/-- Word 0 of the entry of a message or task. -/
def replayWord (src : Source) (m : Msg) : W64 := ofNat (put src.code 62 + bits (m.toList.getD 0 0) 31 0)

/-- The entry that a dispatch matches: a message by its sender and sequence, anything else by its TID. -/
def replayMatches (src : Source) (m : Msg) (tid : W64) (e : W64 × W64) : Bool :=
  match src with
  | .mailbox => bits e.1 63 62 == 0 && bits e.1 31 0 == bits (m.toList.getD 0 0) 31 0
  | .parked => bits e.1 63 62 == 3 && e.2 == tid
  | _ => (bits e.1 63 62 == 1 || bits e.1 63 62 == 2) && e.2 == tid

/-- A core in replay dispatches only what the entry at the head names; a core in free run anything. -/
def State.mayDispatch (s : State) (ctx : Nat) (src : Source) (m : Msg) (tid : W64) : Bool :=
  match s.replayHead ctx s.cur with
  | none => true
  | some e => replayMatches src m tid e

/-- DIVERGE at a core: the notice, which counts for the launch of an arrival, and the halt of its partition. -/
def State.diverge (s : State) (ctx : BitVec 8) (lnch : Option (BitVec 8)) (core : Nat) (w7 : W64) : State :=
  let e := (s.replayHead ctx.toNat core).getD (0, 0)
  (s.notice core ctx lnch 0x602 0 0 0 e.1 w7).haltAll ctx.toNat core .diverge

/-- A message or task that lands at core k must be among the next 64 entries of its buffer. -/
def State.arrive (s : State) (k : Nat) (task : Bool) (m : Msg) : State :=
  let ctx := (msgCtx m).toNat
  let src := if task then Source.deque else Source.mailbox
  match s.replayHead ctx k with
  | none => s
  | some _ =>
    let known := (List.range 64).any fun j => match s.replayAt ctx k ((s.core k).rpos + j) with
      | none => false
      | some e => replayMatches src m (m.toList.getD 1 0) e
    if known then s else s.diverge (msgCtx m) (some (msgLnch m)) k (replayWord src m)

/-- The first core of a context whose buffer is not exhausted. -/
def State.replaying (s : State) (ctx : Nat) : Option Nat :=
  if (s.ctx ctx).rpl then s.cores.find? fun k => (s.ctx ctx).hasCluster (clusterOf k) && (s.replayHead ctx k).isSome else none

/-- The record of a dispatch (spec/20 R399); none where the trace ring is full. -/
def State.recordDispatch (s : State) (src : Source) (m : Msg) (ctx : BitVec 8) (tid : W64) : Option State :=
  let s := { s with me := { s.me with rpos := s.me.rpos + (if (s.replayHead ctx.toNat s.cur).isSome then 1 else 0) } }
  if (s.ctx ctx.toNat).recording then
    s.tracePut ctx.toNat [ofNat (put 3 56 + put src.code 32 + put ctx.toNat 24 + put s.cur 11),
      ofNat (bits (m.toList.getD 0 0) 31 0), tid, ofNat s.gt]
  else some s

end Sys2Proof.Machine
end

