-- ==== Sys2Proof/Machine/Launch.lean ====
section
/-! DEFINITION. The launch sequencer: records and refusals, leases, images, completion waves, done blocks
(spec/17 R363 to R367, spec/15 R332 to R334, spec/10 R250, R261). -/

namespace Sys2Proof.Machine

/-! ### Bytes behind a handle -/

/-- PA of n bytes at an offset of a handle-and-offset word, with the right that the access needs. -/
def State.hread (s : State) (ctx : Nat) (w : W64) (off n : Nat) (write : Bool) : Option Nat :=
  match s.handle ctx (bits w 63 48) with
  | none => none
  | some x =>
    if (if write then x.wr else x.rd) && decide (bits w 47 0 + off + n ≤ x.len) then some (x.base + bits w 47 0 + off) else none

/-! ### The code image (spec/17 R365, spec/03 R51) -/

inductive DataBlock where
  | data (off : Nat) (bs : List Byte)
  | bank (b : Nat) (w : W64)
deriving DecidableEq, Repr

/-- The blocks of the data part from an offset on, or a refusal code. Bytes that are uncorrectable, or whose tag
is not the handle's, are contents that are not valid, which the manual does not say (log 46). -/
def State.dataPart (s : State) (ctx : Nat) (img : W64) : Nat → Nat → Except Nat (List DataBlock)
  | 0, _ => .error 5
  | fuel + 1, off =>
    match s.hread ctx img off 8 false with
    | none => .error 5
    | some pa =>
      let h := s.physWord pa
      if s.sourceBad ctx img pa 8 then .error 4
      else if h = 0 then .ok []
      else if h.getLsbD 63 then
        if bits h 62 4 ≠ 0 then .error 4
        else match s.hread ctx img (off + 8) 8 false with
          | none => .error 5
          | some q => if s.sourceBad ctx img q 8 then .error 4 else (s.dataPart ctx img fuel (off + 16)).map (.bank (bits h 3 0) (s.physWord q) :: ·)
      else
        let n := bits h 39 20
        if n % 8 ≠ 0 ∨ bits h 62 40 ≠ 0 ∨ 2 ^ 20 < bits h 19 0 + n then .error 4
        else match s.hread ctx img (off + 8) n false with
          | none => .error 5
          | some q => if s.sourceBad ctx img q n then .error 4 else (s.dataPart ctx img fuel (off + 8 + n)).map (.data (bits h 19 0) (s.physBytes q n) :: ·)

/-- Words of the data part that an image of the longest handle could hold. -/
def blockFuel : Nat := 2 ^ 45

def State.blocks (s : State) (ctx : Nat) (img : W64) : Except Nat (List DataBlock) := s.dataPart ctx img blockFuel 49152

/-- Bytes of a data part in memory. -/
def blockBytes (l : List DataBlock) : Nat := 8 + (l.map fun b => match b with | .data _ bs => 8 + bs.length | .bank .. => 16).sum

/-- The sectors of an image are read (spec/17 R348). -/
def State.readImage (s : State) (ctx : Nat) (img : W64) : State :=
  match s.hread ctx img 0 49152 false with
  | none => s
  | some pa => s.readHandle ctx img pa (49152 + match s.blocks ctx img with | .ok bs => blockBytes bs | .error _ => 0)

/-- The handler table of an image at pa, entries that are not zero. -/
def State.imageTable (s : State) (pa : Nat) : List (Nat × W64 × W64) :=
  (List.range 1024).filterMap fun h =>
    let e := (s.physWord (pa + 16 * h), s.physWord (pa + 16 * h + 8))
    if e = (0, 0) then none else some (h, e)

/-- The instruction lines of an image at pa. -/
def State.imageLines (s : State) (pa : Nat) : Mem := Mem.put [] 0 (s.physBytes (pa + 16384) 32768)

/-- The loader refuses an entry with a reserved bit set. -/
def entryReserved (e : W64 × W64) : Bool := bits e.1 42 32 != 0 || bits e.2 63 9 != 0

/-- The instruction store and the handler table of a core take the image (spec/15 R333). -/
def State.loadCode (s : State) (pa : Nat) (k : Nat) : State :=
  let c := s.core k
  s.setCore k { c with imem := s.imageLines pa, handlers := s.imageTable pa, loaded := true }

/-- Bytes of a data block that fall in ARRAY banks are written; false where some are left out. -/
def Core.applyData (c : Core) (x : BitVec 8) (off : Nat) (bs : List Byte) : Core × Bool :=
  (bs.zipIdx.foldl (fun (r : Core × Bool) y =>
    let a := off + y.2
    if (r.1.claimBank x (a / 65536)).isArrayFor x (a / 65536) then
      ((r.1.claimAll x a 1).poke a [y.1], r.2)
    else (r.1, false)) (c, true))

/-- Every bank that a bank block names starts as an empty ARRAY; its span is dissolved. -/
def Core.emptyBank (c : Core) (x : BitVec 8) (b : Nat) : Core :=
  if 14 ≤ b then c
  else
    let c := c.claimLines x b
    let l := c.leader b
    let c := if (c.bank l).span = 1 then c else { (c.respan l 1) with act := c.act }
    (c.zeroBank b).setBank b { Bank.reset .array with owner := x }

/-- A bank block as BCFG from ARRAY; false where BCFG refuses it (spec/17 R365), so where SPANN is not zero (spec/07 R164): the assembler writes
`.bank n, span=m` (R165), and the manual gives it no form in the block's one word. DESIGN CHOICE, log 66. -/
def Core.applyBank (c : Core) (x : BitVec 8) (b : Nat) (w : W64) : Core × Bool :=
  if 14 ≤ b ∨ cfgMask w .array ≠ 0 then (c, false)
  else
    let c := c.claimLines x b
    let q := bits w 3 0
    let count := bits w 55 32
    let items := c.items b q count
    if q = 0 then (c, true)
    else match build q (w.getLsbD 17) (w.extractLsb' 18 2) items (decide (0 < count)) with
      | .error _ => (c, false)
      | .ok d => (c.rebuilt b w d items, true)

/-- A core applies the data part of an image; false where an error flag is owed. -/
def Core.applyBlocks (c : Core) (x : BitVec 8) (bs : List DataBlock) : Core × Bool :=
  let c := bs.foldl (fun c b => match b with | .bank k _ => c.emptyBank x k | _ => c) { c with act := { c.act with ctx := x } }
  let r := bs.foldl (fun (r : Core × Bool) b => match b with
    | .data off ds => let r' := r.1.applyData x off ds; (r'.1, r.2 && r'.2)
    | _ => r) (c, true)
  bs.foldl (fun (r : Core × Bool) b => match b with
    | .bank k w => let r' := r.1.applyBank x k w; (r'.1, r.2 && r'.2)
    | _ => r) r

/-! ### Leaving local-time mode at a change of launch (spec/10 R250) -/

/-- The destination descriptor of a message (spec/05 R141). -/
def destWord (m : Msg) (pkg core : Nat) : W64 := ofNat (put (bits (m.toList.getD 0 0) 55 36) 36 + put pkg 24 + put core 11)

/-- UNDELIV as a notice of the target core. -/
def State.undeliv (s : State) (core : Nat) (m : Msg) (reason : Nat) : State :=
  s.notice core (msgCtx m) (some (msgLnch m)) 0x406 (m.toList.getD 1 0) 0 (destWord m s.pkgid.toNat core) (m.toList.getD 0 0) (ofNat reason)

/-- The core in focus leaves local-time mode; its stamped events retire, those that are staged as they are published. -/
def State.leaveLT (s : State) : State :=
  if !s.me.lt.en then s
  else
    let gone := s.me.mailbox.filter MailItem.stamped
    let c := { s.me with lt := LocalTime.reset, mbHead := 0, mailbox := s.me.mailbox.filter fun i => !i.stamped }
    let s := { s with
      me := c
      staged := s.staged.map fun g => if g.stampedFor s.cur then { g with late := true } else g }
    gone.foldl (fun s i => s.undeliv s.cur i.msg 4) s

/-! ### Leases (spec/15 R333) -/

/-- The row starts to load launch l of a context. -/
def State.startLoading (s : State) (row : Nat) (ctx l : BitVec 8) : State :=
  let x := s.lease row
  let s := s.setLease row { x with st := .loading, cur := l, next := none, ctx := ctx }
  onCores (rowCores row) (fun s => ({ s with me := { s.me with loaded := false } }).leaveLT) s

/-- Assignments that wait are made when the row is FREE or RUNNING. -/
def State.nextAssign (s : State) (row : Nat) (ctx : BitVec 8) : State :=
  let x := s.lease row
  match x.queue with
  | [] => s
  | l :: q => match x.st with
    | .free => (s.setLease row { x with queue := q }).startLoading row ctx l
    | .running => if x.next.isNone then s.setLease row { x with st := .draining, next := some l, queue := q } else s
    | _ => s

/-- The sequencer assigns a row to a launch. -/
def State.assign (s : State) (ctx l : BitVec 8) (row : Nat) : State :=
  let x := s.lease row
  (s.setLease row { x with queue := x.queue ++ [l] }).nextAssign row ctx

/-- Nothing of a launch is left at core k (spec/15 R333). -/
def State.coreDrained (s : State) (ctx lnch : BitVec 8) (k : Nat) : Bool :=
  let c := s.core k
  let mine := fun (a : Act) => a.ctx == ctx && a.lnch == lnch
  let msg := fun (m : Msg) => msgCtx m == ctx && msgLnch m == lnch
  !(c.running && mine c.act) && !(c.frame.any fun f => mine f.act) && !(c.parks.any fun p => mine p.saved.act) &&
    !(c.closing.any fun g => mine g.ckpt.act) && !(c.mailbox.any fun i => msg i.msg) && !(c.deque.any fun r => msg r.msg) &&
    !(c.ops.any fun o => o.inFlight && o.ctx == ctx && o.lnch == lnch) && c.gang.isNone

def execLeaseDrained (cluster row : Nat) (s : State) : Out :=
  if cluster < Config.nClusters ∧ row < 8 then
    let r := 8 * cluster + row
    let l := s.lease r
    let done := (rowCores r).all (s.coreDrained l.ctx l.cur)
    match l.st, l.next with
    | .draining, some n => if done then .next (s.startLoading r l.ctx n) else .next s
    | .running, _ =>
      if done && ((s.launch? l.ctx l.cur).any (·.term)) then
        .next ((s.setLease r { l with st := .free, cur := 0, next := none }).nextAssign r l.ctx)
      else .next s
    | _, _ => .next s
  else .fault .noSuchUnit

/-- A core of the partition is halted. -/
def State.haltedCtx (s : State) (ctx : Nat) : Bool :=
  s.coreList.any fun p => (s.ctx ctx).hasCluster (clusterOf p.1) && p.2.halted.isSome

/-- Every core of the row holds the image and has applied its data part (spec/17 R365); it issues nothing while its partition is halted
(spec/20 R393). -/
def State.rowLoaded (s : State) (r : Nat) (l : Lease) (pa : Nat) (bs : List DataBlock) : State :=
  let still := s.haltedCtx l.ctx.toNat
  let s := (rowCores r).foldl (fun s k => s.loadCode pa k) s
  let s := (rowCores r).foldl (fun (s : State) k =>
    let c := s.core k
    let y := c.applyBlocks l.ctx bs
    let s := s.setCore k { y.1 with act := { y.1.act with lnch := l.cur }, halted := if still then y.1.halted.or (some .halt) else y.1.halted }
    if y.2 then s else s.mapLaunch l.ctx l.cur fun x => { x with err := x.err ||| 4 }) s
  (s.setLease r { l with st := .running }).nextAssign r l.ctx

/-- A row loads its launch's image; one that has become uncorrectable since the launch was accepted ends the context (log 46). -/
def execLeaseLoaded (cluster row : Nat) (s : State) : Out :=
  if cluster < Config.nClusters ∧ row < 8 then
    let r := 8 * cluster + row
    let l := s.lease r
    if l.st = .loading ∧ (s.ctx l.ctx.toNat).here then
      match s.launch? l.ctx l.cur with
      | none => .next ((s.setLease r { l with st := .free, cur := 0 }).nextAssign r l.ctx)
      | some x =>
        let img := x.record.toList.getD 4 0
        let s := s.readImage l.ctx.toNat img
        match s.hread l.ctx.toNat img 0 49152 false, s.blocks l.ctx.toNat img with
        | some pa, .ok bs => .next (if s.sourceBad l.ctx.toNat img pa 49152 then s.killFor (8 * r) l.ctx (ofNat pa) 2 else s.rowLoaded r l pa bs)
        | some pa, .error 4 => .next (s.killFor (8 * r) l.ctx (ofNat pa) 2)
        | _, _ => .next s
    else .next s
  else .fault .noSuchUnit

/-! ### Launch records (spec/17 R363, R364) -/

def sumTo (w : W64) (j : Nat) : Nat := ((List.range j).map (wlay w)).sum

/-- The launch's core that the spread levels of a WID name: S and Ws of R364. -/
def placeCore (w0 : W64) (wid : W64) (cores : List Nat) : Nat :=
  let r := (List.range 6).foldl (fun (r : Nat × Nat) j =>
    if w0.getLsbD (36 + j) then
      (r.1 + ((wid.toNat >>> sumTo w0 j) % 2 ^ wlay w0 j) * 2 ^ r.2, r.2 + wlay w0 j)
    else r) (0, 0)
  cores.getD (r.1 * cores.length / 2 ^ r.2) 0

/-- Bits of word 0 of an initial task record that must be zero. -/
def taskBits : Nat := 2 ^ 64 - 1 - (put 0x3FF 38 + put 3 36 + put 0x1FFF 11 + put 1 10)

/-- Target cores of the initial task records; none where one is not valid. -/
def taskCores (m : Msg) (recs : List Msg) : Option (List Nat) :=
  let w0 := m.toList.getD 0 0
  let cores := (launchClusters m).flatMap fun cl => (List.range 64).map (64 * cl + ·)
  recs.foldr (fun (t : Msg) (r : Option (List Nat)) => match r with
    | none => none
    | some l =>
      let h := t.toList.getD 0 0
      if h.toNat &&& taskBits ≠ 0 ∨ t.toList.getD 1 (0 : W64) ≠ 0 then none
      else if h.getLsbD 10 then some (placeCore w0 (t.toList.getD 2 0) cores :: l)
      else if cores.contains (bits h 23 11) then some (bits h 23 11 :: l)
      else none) (some [])

/-- A launch id that a row of the context holds or waits for. -/
def State.idInUse (s : State) (ctx lnch : BitVec 8) : Bool :=
  (s.leases ++ s.leases0).any fun p => p.2.ctx == ctx &&
    ((p.2.st != .free && p.2.cur == lnch) || p.2.next == some lnch || p.2.queue.contains lnch)

/-- A refusal code, or the initial task records with their cores (log 46). -/
def State.checkLaunch (s : State) (m : Msg) : Except Nat (List (Nat × Msg)) :=
  let w := fun (i : Nat) => m.toList.getD i 0
  let ctx := (w 0).extractLsb' 56 8
  let lnch := (w 0).extractLsb' 48 8
  let x := s.ctx ctx.toNat
  let n := bits (w 6) 19 0
  if launchMask m ctx ≠ 0 ∨ n = 0 ∨ (w 7).toNat % 8 ≠ 0 then .error 1
  else if 64 < sumTo (w 0) 6 then .error 6
  else if (launchClusters m).isEmpty || !((launchClusters m).all x.hasCluster) || !x.here then .error 2
  else if s.idInUse ctx lnch || (s.launch? ctx lnch).isSome then .error 3
  else if (s.trapRing ctx.toNat).isNone then .error 7
  else match s.hread ctx.toNat (w 4) 0 49152 false, s.blocks ctx.toNat (w 4), s.hread ctx.toNat (w 5) 0 (64 * n) false with
    | some pa, .ok _, some ta =>
      if s.sourceBad ctx.toNat (w 4) pa 49152 || s.sourceBad ctx.toNat (w 5) ta (64 * n) || (s.imageTable pa).any fun e => entryReserved e.2 then .error 4
      else
        let recs := (List.range n).map fun i => s.physMsg (ta + 64 * i)
        match taskCores m recs with
        | none => .error 4
        | some ks => .ok (ks.zip recs)
    | some _, .error e, some _ => .error e
    | _, _, _ => .error 5

/-- The task record of an initial record, with its identifier (spec/17 R360, R364). -/
def firstTask (m t : Msg) (pkg core : Nat) (seq : Nat) : Msg :=
  let h := t.toList.getD 0 0
  let w0 := m.toList.getD 0 0
  msgOf (ofNat (put (bits w0 63 48) 48 + put (bits h 47 36) 36 + put pkg 24 + put core 11) ::
    ofNat (put pkg 56 + put core 43 + seq % 2 ^ 43) :: t.toList.drop 2)

/-- A launch record at the sequencer of a die; `core` and `seq` name the creator of its tasks and its counter before them.
The totals of R367 start at zero. False: refused. -/
def State.submit (s : State) (die : Nat) (m : Msg) (core seq : Nat) : State × Bool :=
  let w := fun (i : Nat) => m.toList.getD i 0
  let ctx := (w 0).extractLsb' 56 8
  let lnch := (w 0).extractLsb' 48 8
  let s := s.readImage ctx.toNat (w 4)
  let n := 64 * bits (w 6) 19 0
  let s := (s.hread ctx.toNat (w 5) 0 n false).elim s fun pa => s.readHandle ctx.toNat (w 5) pa n
  match s.hread ctx.toNat (w 7) 0 32 true with
  | none => (s, false)
  | some _ => match s.checkLaunch m with
    | .error k => (s.doneBlock ctx.toNat (w 7) (2 ^ 62) 0 0 k, false)
    | .ok ts =>
      let rows := (launchClusters m).flatMap fun cl => (List.range 8).map (8 * cl + ·)
      let tasks := ts.zipIdx.map fun x => (x.1.1, firstTask m x.1.2 s.pkgid.toNat core (seq + 1 + x.2))
      let l : Launch :=
        { ctx := ctx, lnch := lnch, die := die, record := m, rows := rows, tasks := tasks, base := tasks.length, err := 0
          wave := none, last := none, rel := none, acks := [], term := false, killed := false }
      let zero := fun (c : Core) => { c with sent := adel c.sent (cntKey ctx lnch), recv := adel c.recv (cntKey ctx lnch) }
      let s := { s with
        launches := s.launches ++ [l], me := zero s.me, others := s.others.map fun (x : Nat × Core) => (x.1, zero x.2)
        images := s.images.map fun (x : Nat × Core) => (x.1, zero x.2) }
      (rows.foldl (fun s r => s.assign ctx lnch r) s, true)

/-- The deque's metadata are held by an operation whose commit is not complete: other agents wait or fail (spec/07 R184). -/
def Core.dequeHeld (c : Core) : Bool :=
  c.uncommitted.any (fun d => d.lines.contains dequeMeta) || c.pubs.any fun g => g.d.lines.contains dequeMeta

/-- The first record whose core has a place: one that waits holds up the later ones of its core alone (spec/17 R364). -/
def execTaskRecordPush (ctx lnch : Nat) (s : State) : Out :=
  let k := BitVec.ofNat 8 ctx
  let l := BitVec.ofNat 8 lnch
  match s.launch? k l with
  | none => .next s
  | some x =>
    let room := fun (core : Nat) => let c := (s.core core).claimBank k 14; decide (c.deque.length < 1024) && !c.dequeHeld
    match (if (s.ctx ctx).here then x.tasks.findIdx? fun t => room t.1 else none) with
    | none => .next s
    | some j =>
      let (core, m) := x.tasks.getD j (0, Msg.zero)
      let c := (s.core core).claimBank k 14
      let c : Core := { c with deque := c.deque ++ [⟨m, none, s.gt, true⟩] }
      .next (((s.setCore core (c.countRecv k l 1)).mapLaunch k l fun x => { x with tasks := ldel x.tasks j }).arrive core true m)

/-! ### Completion waves (spec/17 R366, R367, spec/10 R261) -/

/-- A core is busy for a launch. -/
def Core.busyFor (c : Core) (ctx lnch : BitVec 8) : Bool :=
  let mine := fun (a : Act) => a.ctx == ctx && a.lnch == lnch
  let msg := fun (m : Msg) => msgCtx m == ctx && msgLnch m == lnch
  (c.running && mine c.act) || c.frame.any (fun f => mine f.act) || c.parks.any (fun p => mine p.saved.act) ||
    c.closing.any (fun g => mine g.ckpt.act) || c.deque.any (fun r => msg r.msg) ||
    c.ops.any (fun o => o.inFlight && o.ctx == ctx && o.lnch == lnch) ||
    (if c.lt.en then (c.offerLT msg).isSome else c.mailbox.any fun i => msg i.msg)

/-- The lowest pending stamp of a launch at a core. -/
def Core.minFor (c : Core) (ctx lnch : BitVec 8) : Nat :=
  c.mailbox.foldl (fun t i => if i.stamped && msgCtx i.msg == ctx && msgLnch i.msg == lnch then min t (stampOf i.msg).toNat else t)
    (2 ^ 64 - 1)

def execWaveStart (ctx lnch : Nat) (s : State) : Out :=
  let k := BitVec.ofNat 8 ctx
  let l := BitVec.ofNat 8 lnch
  if (s.ctx ctx).here && !s.haltedCtx ctx then
    .next (s.mapLaunch k l fun x =>
      if x.term || x.wave.isSome || x.rel.isSome then x
      else { x with wave := some ⟨false, x.base, 0, 2 ^ 64 - 1, (s.ctx ctx).clusters⟩ })
  else .next s

/-- The status of a cluster's cores, added to a wave. -/
def State.addCluster (s : State) (ctx lnch : BitVec 8) (w : Wave) (cl : Nat) : Wave :=
  ((s.coreList.filter fun p => clusterOf p.1 == cl).map (·.2)).foldl (fun w c =>
    { w with
      busy := w.busy || c.busyFor ctx lnch
      sent := w.sent + anat c.sent (cntKey ctx lnch)
      recv := w.recv + anat c.recv (cntKey ctx lnch)
      minst := min w.minst (c.minFor ctx lnch) }) w

/-- Two waves in a row agree that nothing moves: termination, or release of the lowest pending stamp. -/
def Launch.conclude (x : Launch) (w : Wave) (members : List Nat) : Launch :=
  if w.minst = 2 ^ 64 - 1 then { x with wave := none, last := some w, term := true }
  else { x with wave := none, last := none, rel := if members.isEmpty then none else some w.minst, acks := members }

/-- Cores of the launch's rows that are in local-time mode. -/
def State.group (s : State) (x : Launch) : List Nat :=
  (s.cores.filter fun k => x.rows.contains (rowId k)).filter fun k => (s.core k).lt.en

def execWaveCombine (ctx lnch : Nat) (s : State) : Out :=
  let k := BitVec.ofNat 8 ctx
  let l := BitVec.ofNat 8 lnch
  match s.launch? k l with
  | none => .next s
  | some x => match x.wave with
    | none => .next s
    | some w => match w.left with
      | cl :: cs => .next (s.mapLaunch k l fun x => { x with wave := some { (s.addCluster k l w cl) with left := cs } })
      | [] =>
        let stalled := !w.busy && (x.last.map fun v => !v.busy).getD false
        let s := match (if stalled then s.replaying ctx else none) with
          | some j => s.diverge k none j 0
          | none => s
        .next (s.mapLaunch k l fun x =>
        if x.last == some w && !w.busy && w.sent == w.recv then x.conclude w (s.group x)
        else { x with wave := none, last := some w })

def execReleaseMark (core : Nat) (s : State) : Out := coreEvent core (fun s =>
  match s.launches.find? fun x => x.rel.isSome && x.acks.contains s.cur && (s.ctx x.ctx.toNat).here with
  | none => none
  | some x =>
    let t := ofNat (x.rel.getD 0)
    let mark := fun (i : MailItem) => if i.stamped && stampOf i.msg == t && msgLnch i.msg == x.lnch && msgCtx i.msg == x.ctx
      then { i with rel := true } else i
    let acks := x.acks.filter (· != s.cur)
    let s := { s with me := { s.me with mailbox := s.me.mailbox.map mark } }
    some (s.mapLaunch x.ctx x.lnch fun x => { x with acks := acks, rel := if acks.isEmpty then none else x.rel })) s

/-- No row holds the launch or waits for it any more, so that its id is free for the next (spec/23 R430): words 1 to 3 of the done block, then
word 0. -/
def execDoneBlockWrite (ctx lnch : Nat) (s : State) : Out :=
  let k := BitVec.ofNat 8 ctx
  let l := BitVec.ofNat 8 lnch
  match s.launch? k l with
  | none => .next s
  | some x =>
    if x.term && !s.idInUse k l then
      let t := s.totals x
      let s := s.doneBlock ctx (x.record.toList.getD 7 0) (2 ^ 63 + x.err.toNat) t.1 t.2 0
      .next { s with launches := s.launches.filter fun y => !(y.ctx == k && y.lnch == l) }
    else .next s

end Sys2Proof.Machine
end

