-- ==== Sys2Proof/Machine/Network.lean ====
section
/-! DEFINITION. Channels: entries, acknowledgements, commit and abort notices, drips, the duplicate filter
(spec/03 R67 to R72, spec/17 R343, R344, R346, R368, R369, spec/10 R253, R255). -/

namespace Sys2Proof.Machine

/-! ### The duplicate filter (spec/17 R344) -/

/-- Number a is newer than b, modulo 2^16. -/
def newer (a b : Nat) : Bool := decide (a ≠ b) && decide ((a + 65536 - b) % 65536 < 32768)

inductive Arrival where
  | fresh | again (b : Body) | stale
deriving DecidableEq, Repr

def filterKey (p : Packet) : Nat := pairKey p.src p.dst

/-- A number that is neither recorded nor older than 64 recorded ones is performed (log 47). -/
def State.arrival (s : State) (p : Packet) : Arrival :=
  let l := (aget s.filter (filterKey p)).getD []
  match l.find? fun x => x.1 == p.seq with
  | some x => .again x.2
  | none => if 64 ≤ l.length ∧ l.all (fun x => newer x.1 p.seq) then .stale else .fresh

/-- The oldest of 65 records is dropped. -/
def dropOldest (l : List (Nat × Body)) : List (Nat × Body) :=
  if l.length ≤ 64 then l else l.filter fun x => !(l.all fun y => y.1 == x.1 || newer y.1 x.1)

/-- The reply is recorded and takes the packet's place in the channel. -/
def State.answer (s : State) (k : Nat) (p : Packet) (b : Body) : State :=
  let l := (aget s.filter (filterKey p)).getD []
  let s := s.chargeHops p.ctx p.src p.dst
  { s with
    filter := if p.body.numbered then aset s.filter (filterKey p) (dropOldest (l ++ [(p.seq, b)])) else s.filter
    chan := lset s.chan k { p with body := b } }

/-! ### Packets of other packages (spec/24 R437 to R440) -/

def Body.isReply : Body → Bool
  | .ack .. | .noticeAck .. | .abortAck _ | .reply .. | .subAck .. | .resAck .. => true
  | _ => false

/-- The package that a packet is bound for; none for this one. -/
def Packet.leaves (p : Packet) : Option Nat := nodePkg (if p.body.isReply then p.src else p.dst)

/-- Packets that carry one number, its copies and its replies. -/
def Packet.same (p q : Packet) : Bool :=
  p.body.numbered && q.body.numbered && p.src == q.src && p.dst == q.dst && p.seq == q.seq

/-- A head, and a body for each 64 bytes of data or message that follow (log 65). -/
def Body.flits : Body → Nat
  | .entry .. | .reply _ _ (.line ..) => 2
  | .sub _ _ _ _ _ data _ _ | .res _ _ _ _ _ data _ _ => 1 + (data.length + 63) / 64
  | _ => 1

/-- The class VCL of a packet (spec/24 R435). -/
def Body.vcl : Body → BitVec 2
  | .notice _ | .abort _ => 2
  | b => if b.isReply then 1 else 0

/-- A packet from another package holds a permit of its egress here: it is among the first four of its source towards the slice
(spec/24 R437); one that needs no permit always does. -/
def State.transitPermit (s : State) (k : Nat) (p : Packet) : Bool :=
  !p.body.needsPermit || p.body.isReply || decide (p.src < nodeSpan) ||
    decide (((s.chan.take k).filter fun q => q.src == p.src && q.body.needsPermit && !q.body.isReply && q.leaves.isSome &&
      s.permitClass q.dst == s.permitClass p.dst).length < 4)

/-- Packet k leaves through the egress port of its route, or waits: without a route, with both ports down, without room in the replay
buffer of 1,024 flits. A request of this package stays listed until its answer comes (spec/24 R436, R437, R439). -/
def State.depart (s : State) (k : Nat) (p : Packet) (pkg : Nat) : State :=
  if p.away then s
  else match s.egress pkg with
    | none => s
    | some q =>
      let port := s.port q
      if 1024 < port.tx.length + p.body.flits || !s.transitPermit k p then s
      else
        let s := { (s.setPort q (port.emit p.body.vcl s.nchoice p.body.flits)) with nchoice := s.nchoice + p.body.flits }
        let s := s.charge p.ctx.toNat 11 p.body.flits
        { s with chan := if decide (p.src < nodeSpan) && !p.body.isReply then lset s.chan k { p with away := true } else ldel s.chan k }

/-- A home of this package that node dst serves to other packages. -/
def State.homeAt (s : State) (dst : Nat) : Home → Bool
  | .local k off => k == dst && decide (k < 8192) && decide (off < 2 ^ 20)
  | .dev pa => s.ownPa pa && 8192 + sliceOf pa == dst
  | _ => false

/-- What another package may ask of this one (spec/24 R433, R434). -/
def State.mayAsk (s : State) (p : Packet) : Bool :=
  (match nodePkg p.src with
    | some q => q != s.pkgid.toNat && decide (p.src % nodeSpan < 8192)
    | none => false) &&
  match p.body with
  | .entry _ _ (.store (.local k off) ..) => s.homeAt p.dst (.local k off) && off % 64 == 0
  | .entry _ _ (.store (.dev pa) ..) => s.homeAt p.dst (.dev pa) && pa % 64 == 0
  | .entry _ _ (.msg _ q k none) => q == s.pkgid.toNat && k == p.dst && decide (k < 8192)
  | .notice _ | .abort _ => decide (p.dst < 8256)
  | .request _ _ (.read h _) => s.homeAt p.dst h
  | .request _ _ (.word h ..) => s.homeAt p.dst h
  | .sub .. | .res .. => decide (p.dst < 8192)
  | _ => false

/-- The reply that a request expects. -/
def Body.answers (r q : Body) : Bool :=
  match q, r with
  | .entry i j _, .ack i' j' .. => i == i' && j == j'
  | .notice i, .noticeAck i' _ => i == i'
  | .abort i, .abortAck i' => i == i'
  | .request i d (.read h _), .reply i' d' (.line h' _) | .request i d (.read h _), .reply i' d' (.trap h' _) => i == i' && d == d' && h == h'
  | .request i d (.word ..), .reply i' d' (.val ..) | .request i d (.word ..), .reply i' d' (.trap ..) => i == i' && d == d'
  | .sub g k r .., .subAck g' k' r' _ | .res g k r .., .resAck g' k' r' _ => g == g' && k == k' && r == r'
  | _, _ => false

/-- WAKE of a message that crossed a port (spec/24 R440). -/
def isWake (m : Msg) : Bool := (m.toList.getD 0 0).getLsbD 34
def Body.wake : Body → Body
  | .entry i j (.msg m p k l) => .entry i j (.msg (m.setIfInBounds 0 ((m.toList.getD 0 0) ||| ofNat (2 ^ 34))) p k l)
  | b => b

/-- A packet that arrives from a port: on its way to another package, a reply to a request that waits for one, a request to this
package; a second reply is discarded (spec/24 R437, R439), and so is what no rule lets cross. -/
def State.incoming (s : State) (p : Packet) : State :=
  let p := { p with away := false, since := s.gt }
  if p.leaves.isSome then
    if (nodePkg p.src).isSome then { s with chan := s.chan ++ [p] } else s
  else if p.body.isReply then
    if s.chan.any fun q => q.away && q.same p && p.body.answers q.body
    then { s with chan := (s.chan.filter fun q => !(q.same p && !q.body.isReply)) ++ [p] } else s
  else if s.mayAsk p then { s with chan := s.chan ++ [{ p with body := p.body.wake }] }
  else s

/-- The flit is accepted, or a nak is owed. The packet is the one whose last flit this is, as the neighbour sent it (log 65). -/
def execFlitReceive (port : Nat) (x : FlitIn) (s : State) : Out :=
  if port < Config.nPorts then
    let f := x.flit
    let q := s.port port
    if !q.up then .next s
    else if crc32c (flitBytes f) ≠ f.crc then .next (s.setPort port { q with owed := some (false, q.rxNext) })
    else
      let t := s.setPort port (q.take f)
      match x.packet with
      | some p => if (f.kind = 1 ∨ f.kind = 2) ∧ f.seq = q.rxNext then
          .next ((t.setPort port { (q.take f) with rx := (q.take f).rx.filter fun g => g.kind == 5 }).incoming p)
        else .next t
      | none => .next t
  else .fault .noSuchUnit

/-- A packet that arrives: `f` performs it and gives its reply, or none while it waits. -/
def State.receive (s : State) (k : Nat) (p : Packet) (f : State → Option (State × Body)) : State :=
  match s.arrival p with
  | .again b => { s with chan := lset s.chan k { p with body := b } }
  | .stale => { s with chan := ldel s.chan k }
  | .fresh => match f s with
    | none => s
    | some r => r.1.answer k p r.2

/-- A step on packet k of the channels: one that is bound for another package moves towards its port. -/
def packetEvent (k : Nat) (f : Packet → State → State) (s : State) : Out :=
  match s.chan[k]? with
  | none => .next s
  | some p => match p.leaves with
    | some q => .next (s.depart k p q)
    | none => .next (f p s)

/-! ### Release (spec/03 R67) -/

/-- The waiting entries of a segment leave, each that finds a permit. -/
def releaseFrom (pkg : Nat) (seg : Nat) : List OutItem → Nat → State → List OutItem × State
  | [], _, s => ([], s)
  | i :: l, k, s =>
    match i.st, entryTarget pkg i.e with
    | .waiting, some t =>
      if s.permit t then
        let r := releaseFrom pkg seg l (k + 1) (s.send t (.entry seg k i.e))
        ({ i with st := .sent } :: r.1, r.2)
      else
        let r := releaseFrom pkg seg l (k + 1) s
        (i :: r.1, r.2)
    | _, _ =>
      let r := releaseFrom pkg seg l (k + 1) s
      (i :: r.1, r.2)

def execReleaseEntries (core : Nat) (s : State) : Out := coreEvent core (fun s =>
  match s.me.closing with
  | [] => none
  | g :: gs =>
    if s.me.pubs.isEmpty then
      let (out, s') := releaseFrom s.pkgid.toNat g.d.id g.d.out 0 s
      some { s' with me := { s'.me with closing := { g with d := { g.d with out := out } } :: gs } }
    else none) s

/-! ### What a target says to an entry -/

def refuse (cause : Nat) (w3 w6 w7 : W64) : Report := ⟨cause, 1, 0, w3, w6, w7, 0, 0⟩

/-- A store that lands: refused by the bank, the tag or a lock (spec/03 R67, spec/07 R167, spec/17 R349). -/
def State.landStore (s : State) (ctx : BitVec 8) (h : Home) (mask : W64) (tag : BitVec 4) (a : W64) : Option Report :=
  let hit := fun (ls : List Lock) (off : Nat) => (List.range 64).findSome? fun k =>
    if mask.getLsbD k then lockOn ls (off + k) 1 else none
  let locked := fun (ls : List Lock) (off : Nat) => (hit ls off).map fun l => refuse 0x205 a l.kind 0
  match h with
  | .local k off =>
    let c := s.core k
    if !c.isArrayFor ctx (off / 65536) then some (refuse 0x206 a 0 0) else locked c.locks off
  | .dev pa =>
    if s.tagAt pa ≠ tag then some (refuse 0x203 a (tag.setWidth 64) ((s.tagAt pa).setWidth 64)) else locked s.dlocks pa
  | .host pa => locked s.dlocks (pa + hostBit)
  | .farCore .. | .farDev _ => none

/-- What happens to a message at its target (spec/17 R368). -/
inductive Fate where
  | accept | spill | refuse (reason : Nat)
deriving DecidableEq, Repr

/-- Entries of a context's spill queue that hold a message, staged or published (spec/17 R369). -/
def State.spillUsed (s : State) (ctx : Nat) : List Nat :=
  (s.ctx ctx).spill.map (·.pa) ++ (s.staged.filter fun g => (match g.e with
    | .msg m _ _ _ => (msgCtx m).toNat == ctx
    | .migr r _ _ => (msgCtx r.hdr).toNat == ctx
    | _ => false)).filterMap (·.spill)

/-- The first of n free entries of 128 bytes from p on. -/
def freeEntry (used : List Nat) : Nat → Nat → Option Nat
  | 0, _ => none
  | n + 1, p => if used.contains p then freeEntry used n (p + 128) else some p

/-- A free entry of a context's spill queue, which starts at its offset of the handle. Which one an arriving message takes the manual
leaves open: the lowest. DESIGN CHOICE, log 48. -/
def State.spillEntry (s : State) (ctx : Nat) : Option Nat :=
  let x := s.ctx ctx
  let n := 2 ^ bits (x.w 9) 4 0
  match s.hptr ctx (x.w 7) (128 * n) with
  | none => none
  | some pa => freeEntry (s.spillUsed ctx) (min n ((s.spillUsed ctx).length + 1)) pa

/-- An entry as it stands in DRAM: the message, then the target core in a word of its own (log 48). -/
def spillBytes (core : Nat) (m : Msg) : List Byte := wordBytes (m.toList ++ ofNat core :: List.replicate 7 0)

def State.stagedAt (s : State) (k : Nat) : Nat := (s.staged.filter fun g => g.dst == k && g.spill.isNone && (match g.e with
    | .msg .. | .migr .. => true
    | _ => false)).length

/-- The mailbox of core k, which context x claims, has a place for one more message. -/
def State.mailRoom (s : State) (x : BitVec 8) (k : Nat) : Bool :=
  decide (((s.core k).claimBank x 15).mailbox.length + s.stagedAt k < 1024)

/-- The rules of local time for a stamped event (spec/10 R253). -/
def ltFate (c : Core) (m : Msg) (look : Option (BitVec 48)) : Fate :=
  if !isStamped m then .accept
  else if !c.lt.en then .refuse 4
  else match c.lt.ins.find? fun x => x.2.peer == bits (m.toList.getD 0 0) 23 11 with
    | none => .refuse 2
    | some x => if some x.2.look = look then .accept else .refuse 3

/-- The rows of spec/17 R368 up to the mailbox; `last` says what the rows after it do. -/
def State.fateBy (s : State) (k : Nat) (m : Msg) (last : Fate) : Fate :=
  let ctx := (msgCtx m).toNat
  let x := s.ctx ctx
  let l := s.lease (rowId k)
  if s.curCtx (clusterOf k) ≠ some ctx then
    if !x.hasCluster (clusterOf k) ∨ x.state = 0 ∨ x.state = 5 then .refuse 0
    else if (s.spillEntry ctx).isSome then .spill else .refuse 7
  else if !((l.st != .free && l.ctx == msgCtx m && l.cur == msgLnch m) || (l.st == .draining && l.next == some (msgLnch m))) then .refuse 6
  else if !s.mailRoom (msgCtx m) k then .refuse 1
  else last

def State.fate (s : State) (k : Nat) (m : Msg) (look : Option (BitVec 48)) : Fate :=
  s.fateBy k m (ltFate ((s.core k).claimBank (msgCtx m) 15) m look)

/-- A migration record whose launch the lease rules let wait is still one of another launch (spec/03 R80, log 48). -/
def State.migrFate (s : State) (k : Nat) (m : Msg) : Fate :=
  s.fateBy k m (if (s.lease (rowId k)).cur = msgLnch m then .accept else .refuse 5)

def refuseMigr (r : MigrRec) (pkg core k : Nat) : Report :=
  refuse 0x406 (ofNat (put pkg 24 + put core 11)) (r.hdr.toList.getD 0 0) (ofNat k)

/-- A message or MIGR record lands at core k by its fate. -/
def State.landMail (s : State) (p : Packet) (seg idx k : Nat) (m : Msg) (e : OutEntry) (f : Fate) (no : Nat → Report) : Option (State × Body) :=
  let ok := fun (s : State) (spill : Option Nat) =>
    some ({ s with staged := s.staged ++ [⟨p.src, seg, p.dst, p.ctx, spill, false, e⟩] }, Body.ack seg idx true (refuse 0 0 0 0))
  match f with
  | .accept => ok (s.setCore k ((s.core k).claimBank (msgCtx m) 15)) none
  | .spill => match s.spillEntry (msgCtx m).toNat with
    | none => none
    | some pa =>
      if sliceBuffer ≤ s.bufferUsed (8192 + sliceOf pa) then none
      else ok ((s.physPut pa (spillBytes k m)).clearPoison pa 128) (some pa)
  | .refuse r => some (s, Body.ack seg idx false (no r))

/-- An entry lands: staged and accepted, refused, or not yet taken. -/
def State.land (s : State) (p : Packet) (seg idx : Nat) (e : OutEntry) : Option (State × Body) :=
  let ok := fun (s : State) =>
    some ({ s with staged := s.staged ++ [⟨p.src, seg, p.dst, p.ctx, none, false, e⟩] }, Body.ack seg idx true (refuse 0 0 0 0))
  match e with
  | .store h _ mask tag a =>
    if 8192 ≤ p.dst ∧ sliceBuffer ≤ s.bufferUsed p.dst then none
    else
      let s := s.readHome h 64 tag
      match s.landStore p.ctx h mask tag a with
      | some r => some (s, Body.ack seg idx false r)
      | none => ok s
  | .msg m pkg core look =>
    if (s.core core).heldBank 15 then none
    else
      let f := s.fate core m look
      (s.landMail p seg idx core m e f (fun r => refuse 0x406 (destWord m pkg core) (m.toList.getD 0 0) (ofNat r))).map fun x =>
        (if f == .accept then x.1.arrive core false m else x.1, x.2)
  | .migr r pkg core =>
    if (s.core core).heldBank 15 then none
    else
      let f := s.migrFate core r.hdr
      (s.landMail p seg idx core r.hdr e f (refuseMigr r pkg core)).map fun x =>
        (if f == .accept then x.1.arrive core false r.hdr else x.1, x.2)
  | .launch .. => ok s
  | .own _ | .drip .. => none

def execLandEntry (k : Nat) (s : State) : Out :=
  match s.chan[k]? with
  | none => .next s
  | some p => match p.body with
    | .entry seg idx (.migr r pkg core) =>
      if p.leaves.isSome then .next (s.answer k p (.ack seg idx false (refuseMigr r pkg core 5)))
      else .next (s.receive k p fun s => s.land p seg idx (.migr r pkg core))
    | .entry seg idx e => packetEvent k (fun p s => s.receive k p fun s => s.land p seg idx e) s
    | _ => .next s

/-! ### Acknowledgement and refusal (spec/03 R67, R71, R80) -/

def SegData.setItem (d : SegData) (idx : Nat) (st : ItemState) : SegData :=
  match d.out[idx]? with
  | none => d
  | some i => { d with out := lset d.out idx { i with st := st } }

/-- A refused migration record: its segment is undone, and the activation goes on after MIGR with STS FULL. -/
def State.migrRefused (s : State) (n : Nat) (r : Report) : State :=
  let s := s.rollBack (s.me.closing.length - n) true
  let c := s.me
  let c : Core := { c with pc := c.succ c.pc, ctl := { c.ctl with sts := ofNat StsCode.full.code } }
  ({ s with me := c.begun }).notice s.cur c.act.ctx (some c.act.lnch) 0x406 c.ctl.tid 0 r.w3 r.w6 r.w7

/-- An entry of segment seg of the core in focus is refused. -/
def State.refused (s : State) (seg : Nat) (migr : Bool) (r : Report) : State :=
  let n := s.me.closedFrom seg
  match s.me.closing.find? fun g => g.d.id == seg with
  | none => s
  | some g => if migr && g.kind == .migr then s.migrRefused n r else s.takeBack n { r with head := g.closer }

def execEntryAck (k : Nat) (s : State) : Out := packetEvent k (fun p s =>
  match p.body with
  | .abortAck _ => { s with chan := ldel s.chan k }
  | .ack seg idx ok r =>
    let s := { s with chan := ldel s.chan k }
    onCore p.src (fun s =>
      match s.me.closing.find? fun g => g.d.id == seg with
      | none => s
      | some g =>
        let c := s.me
        let c := { c with closing := c.closing.map fun g =>
          if g.d.id = seg then { g with d := g.d.setItem idx (if ok then .accepted else .refused) } else g }
        let s := { s with me := c }
        if ok then s
        else s.refused seg (match g.d.out[idx]? with | some ⟨.migr .., _⟩ => true | _ => false) r) s
  | _ => s) s

/-! ### Publication (spec/03 R69, R70) -/

/-- A message becomes dispatchable at core k. A wake write takes the launch of the row, is counted in no total, and is discarded with a
notice where the row is FREE or LOADING (spec/24 R440). -/
def State.deliverMail (s : State) (k : Nat) (m : Msg) (migr : Option MigrRec) : State :=
  let c := s.core k
  if isWake m && migr.isNone then
    let l := s.lease (rowId k)
    if (l.st == .running || l.st == .draining) && l.ctx == msgCtx m then
      let m := m.setIfInBounds 0 ((m.toList.getD 0 0) &&& ~~~(ofNat (put 0xFF 48)) ||| ofNat (put l.cur.toNat 48))
      s.setCore k { c with mailbox := c.mailbox ++ [⟨m, migr, false, s.gt⟩] }
    else s.undeliv k m 6
  else
  let c := c.countRecv (msgCtx m) (msgLnch m) 1
  if isStamped m && migr.isNone && !c.lt.en then (s.setCore k c).undeliv k m 4
  else s.setCore k { c with mailbox := c.mailbox ++ [⟨m, migr, false, s.gt⟩] }

/-- The store lands on a held line. -/
def State.storeHeld (s : State) (g : Staged) : Bool :=
  match g.e with
  | .store (.local k off) _ _ _ _ => (s.core k).held (off / 64) || (s.core k).heldBank (off / 65536)
  | .msg _ _ k _ | .migr _ _ k => g.spill.isNone && (s.core k).heldBank 15
  | _ => false

/-- An entry of a context's spill queue is published. -/
def State.spilled (s : State) (ctx : Nat) (e : Spilled) : State :=
  s.setCtx ctx { s.ctx ctx with spill := (s.ctx ctx).spill ++ [e] }

/-- A staged entry of core src takes effect at its home. -/
def State.publishEntry (s : State) (g : Staged) : State :=
  let ctx := g.ctx
  match g.e with
  | .store (.local k off) data mask _ _ =>
    ((s.setCore k (((s.core k).claimBank ctx (off / 65536)).publish ctx (off / 64) data mask)).charge ctx.toNat 2 1).lineBreak
      g.src none k off 64
  | .store (.dev pa) data mask _ _ =>
    let s := if mask = BitVec.allOnes 64 then s else s.readSectors pa 64 none
    let l := lineOf (s.physBytes pa 64)
    let s := s.physPut pa (lineBytes (mergeLine l data mask))
    (if mask = BitVec.allOnes 64 then s.clearPoison pa 64 else s).charge ctx.toNat 10 1
  | .store (.host pa) data mask _ _ =>
    s.physPut (pa + hostBit) (lineBytes (mergeLine (lineOf (s.physBytes (pa + hostBit) 64)) data mask))
  | .store (.farCore ..) .. | .store (.farDev _) .. => s
  | .msg m _ k _ =>
    match g.spill with
    | some pa => s.spilled (msgCtx m).toNat ⟨pa, none, s.gt⟩
    | none => if g.late then (s.setCore k ((s.core k).countRecv (msgCtx m) (msgLnch m) 1)).undeliv k m 4
    else s.deliverMail k m none
  | .migr r _ k => match g.spill with
    | some pa => s.spilled (msgCtx r.hdr).toNat ⟨pa, some r, s.gt⟩
    | none => s.deliverMail k r.hdr (some r)
  | .launch m die tseq => (s.submit die m g.src tseq).1
  | .own _ | .drip .. => s

/-- The bytes of one segment's store entries laid over a line. -/
def SegData.over (d : SegData) (h : Home) (l : Line) : Line :=
  d.out.foldl (fun l i => match i.e with | .store h' x m _ _ => if h' == h then mergeLine l x m else l | _ => l) l

/-- Core k has published d at a home of this package: the lines of d that it was served before then keep d's bytes, in its read cache and
in replies on their way. The manual leaves open what a hit on such a line gives once the commit is complete: by the table of R153 and by R154
the bytes first served; by the sentence that a core always reads its own writes, these bytes. DESIGN CHOICE, log 66: its own writes. A line
served after the notice keeps what it was served with. Lines of another package, of which this one does not see when they were served, take
the bytes when the commit is complete, which waits for the reads of them (spec/06 R153, R154). -/
def State.foldOut (s : State) (k : Nat) (d : SegData) : State :=
  let fix := fun (b : Body) => match b with
    | .reply i e (.line h l) => Body.reply i e (.line h (d.over h l))
    | b => b
  let c := s.core k
  let s := s.setCore k { c with rcache := c.rcache.map fun x => (x.1, d.over x.1 x.2) }
  { s with
    chan := s.chan.map fun p => if p.src = k then { p with body := fix p.body } else p
    filter := s.filter.map fun x => if x.1 / 2 ^ 24 = k then (x.1, x.2.map fun y => (y.1, fix y.2)) else x }

/-- What was staged, as the stores of a segment. -/
def storesOf (gs : List Staged) : SegData := ⟨0, [], [], gs.map fun g => ⟨g.e, .accepted⟩, [], [], [], none⟩

def execCommitNoticeServe (k : Nat) (s : State) : Out := packetEvent k (fun p s =>
  match p.body with
  | .notice seg => s.receive k p fun s =>
    let mine := fun (g : Staged) => g.src == p.src && g.seg == seg && g.dst == p.dst
    let gs := s.staged.filter mine
    if gs.any s.storeHeld then none
    else
      let s := gs.foldl (fun s g => s.publishEntry g) { s with staged := s.staged.filter fun g => !mine g }
      some (if p.src < nodeSpan then s.foldOut p.src (storesOf gs) else s, .noticeAck seg p.dst)
  | _ => s) s

/-- The acknowledgement of a notice for segment seg of core k from target t is in the channel. -/
def State.acked (s : State) (k seg t : Nat) : Bool :=
  s.chan.any fun p => p.src == k && p.body == .noticeAck seg t

/-- A home in another package: that package says what it holds, and when (spec/24 R433, log 64). -/
def Home.isFar : Home → Bool
  | .farCore .. | .farDev _ => true
  | _ => false

/-- A weak read of the core in focus awaits a line of another package to which the segment stores: its reply may have been served before
the segment's notice or after it. -/
def State.farAwaited (s : State) (d : SegData) : Bool :=
  d.out.any fun i => match i.e with | .store h .. => h.isFar && s.me.awaited h | _ => false

def execCommitComplete (core : Nat) (s : State) : Out := coreEvent core (fun s =>
  match s.me.pubs with
  | [] => none
  | g :: gs =>
    if g.waiting.all (s.acked s.cur g.d.id) && !s.farAwaited g.d then
      let c := s.me
      some { s with
        me := { c with pubs := gs, rcache := c.rcache.map fun x => if x.1.isFar then (x.1, g.d.over x.1 x.2) else x }
        chan := s.chan.filter fun p => !(p.src == s.cur && (match p.body with | .noticeAck i _ => i == g.d.id | _ => false)) }
    else none) s

/-- What an aborted segment staged, or has still on its way to the target, is discarded. -/
def execAbortNoticeServe (k : Nat) (s : State) : Out := packetEvent k (fun p s =>
  match p.body with
  | .abort seg => s.receive k p fun s =>
    let late := fun (q : Packet) => q.src == p.src && q.dst == p.dst && (match q.body with | .entry i _ _ => i == seg | _ => false)
    some ({ s with
      staged := s.staged.filter fun g => !(g.src == p.src && g.seg == seg && g.dst == p.dst)
      chan := s.chan.map fun q => if late q then { q with body := .abortAck seg } else q }, .abortAck seg)
  | _ => s) s

/-! ### Drips (spec/10 R255, R265) -/

def LocalTime.drip (lt : LocalTime) (peer : Nat) (look : BitVec 48) (v : W64) : LocalTime :=
  if lt.ins.any fun x => x.2.peer == peer && x.2.look == look then
    { lt with ins := lt.ins.map fun x =>
      if x.2.peer = peer ∧ x.2.look = look then (x.1, { x.2 with b := if x.2.b.ult v then v else x.2.b }) else x }
  else { lt with lerr := true }

def execDripLand (k : Nat) (s : State) : Out := packetEvent k (fun p s =>
  match p.body with
  | .drip ctx look v =>
    let s := { s with chan := ldel s.chan k }
    if s.curCtx (clusterOf p.dst) = some ctx.toNat then
      s.setCore p.dst ((s.core p.dst).mapLT fun lt => lt.drip p.src look v)
    else s
  | _ => s) s

end Sys2Proof.Machine
end

