-- ==== Sys2Proof/Machine/Commit.lean ====
section
/-! DEFINITION. The Commit step (spec/03 R68, spec/14 R301). -/

namespace Sys2Proof.Machine

/-- Checkpoints that no later strike report can reach are dropped; `last` follows the list (spec/15 R336). -/
def prune (now : Nat) : List Ckpt → Ckpt → List Ckpt
  | [], _ => []
  | k :: l, last =>
    if ((l.head?.getD last).takenAt) + Config.W ≤ now then prune now l last else k :: l

/-- The boundary ends an activation: no strike goes back across it once it has committed (spec/15 R336). -/
def Boundary.final : Boundary → Bool
  | .endAct | .yield | .migr => true
  | _ => false

/-- The segment was open when a strike hit the core's row whose report has not come: that report covers it (spec/03 R68, spec/15 R335,
R336). -/
def State.struck (s : State) (k closedAt : Nat) : Bool :=
  s.strikes.any fun x => x.1 == clusterOf k && x.2.1 == rowOf k && decide (anat x.2.2 k ≤ closedAt)

/-- A message that enters the own mailbox at the Commit step. -/
def OutItem.own? (i : OutItem) : Bool := match i.e with | .own _ => true | _ => false

/-- The segments that commit in one step with segment g of core k (spec/14 R301). -/
def Seg.together (k : Nat) (g : Seg) : List (Nat × Nat) := if g.mates.isEmpty then [(k, g.d.id)] else g.mates

/-- The oldest closed segment of core k may commit; one that puts a message into the own mailbox, not before every earlier commit is
complete (spec/06 R151). -/
def State.mayCommit (s : State) (k : Nat) : Bool :=
  let c := s.core k
  match c.closing with
  | [] => false
  | g :: _ =>
    g.commitReady c.clk && (c.pubs.isEmpty || !(g.d.out.any OutItem.own?)) && !s.struck k g.closedAt && c.traceOut.isEmpty

/-- Messages and tasks that the segment publishes count for their launches (spec/17 R367). -/
def Core.countSeg (c : Core) (g : SegData) : Core :=
  let c := g.out.foldl (fun c i => match i.e.lnch? with | some l => c.countSent l 1 | none => c) c
  let mine := fun (r : TaskRec) => r.seg == some g.id
  let c := (c.deque.filter mine).foldl (fun c r => (c.countSent (msgLnch r.msg) 1).countRecv (msgCtx r.msg) (msgLnch r.msg) 1) c
  { c with deque := c.deque.map fun r => if mine r then { r with seg := none } else r }

/-- Engine pre-images and saved images that belong to committed segments. A pre-image of PACC, which has no completion step, is freed W after
the commit of its segment: the manual counts W from an operation's completion step (R224) and gives PACC none. DESIGN CHOICE, log 66. What the
segment came to again becomes its own. -/
def Core.settleSeg (c : Core) (id : Nat) : Core :=
  let mine := fun (x : Repeat) => x.met == some id
  { c with
    again := c.again.filter fun x => !mine x
    ops := c.ops.map fun o =>
      if c.again.any fun x => mine x && x.op == some o.ord then { o with seg := id }
      else if o.seg = id ∧ o.st = .complete then { o with doneAt := c.clk } else o
    imgSlot := c.imgSlot.filter fun p => p.2 != id
    planes0 := c.planes0.filter fun p => decide (id < p.1)
    grind0 := c.grind0.filter fun p => decide (id < p.1)
    ring := c.ring.map fun p => if p.core = c.id ∧ p.seq = 0 ∧ p.seg = id then { p with live := false, at_ := c.clk } else p }

/-- How far core k searches for the launch that its row serves: STEAL. -/
def State.stealArea (s : State) (k : Nat) : Nat :=
  let l := s.lease (rowId k)
  ((s.launch? l.ctx l.cur).map fun x => bits (x.record.toList.getD 0 0) 45 44).getD 0

/-- A push that commits ends the wait of thieves in whose search area it lies (spec/17 R361). -/
def State.wakeThieves (s : State) : State :=
  let near := fun (k : Nat) => clusterOf k == clusterOf s.cur || dieOf k == dieOf s.cur && s.stealArea k == 2
  { s with others := s.others.map fun (x : Nat × Core) => if near x.1 then (x.1, { x.2 with stealWait := 0 }) else x }

/-- The core in focus commits its oldest closed segment; what it held stays closed until its commit and the earlier ones are complete
(spec/07 R184). -/
def State.commitOne (s : State) : State :=
  match s.me.closing with
  | [] => s
  | g :: gs =>
    let c := s.me
    let ts := g.d.targets s.pkgid.toNat
    let before := c.confirmed
    let pushed := c.deque.any fun r => r.seg == some g.d.id
    let c := (c.countSeg g.d).settleSeg g.d.id
    let c := { c with
      closing := gs
      confirmed := g.ckpt
      past := if g.kind.final then [] else prune c.clk (c.past ++ [before]) g.ckpt
      pubs := if ts.isEmpty && (c.pubs.isEmpty || (g.d.holds.isEmpty && g.d.hbanks.isEmpty)) then c.pubs
        else c.pubs ++ [{ g with waiting := ts }] }
    let ctx := c.act.ctx
    let s := ({ s with me := c }).putTraces g.d
    let s := ts.foldl (fun s t => s.send t (.notice g.d.id)) s
    let s := g.d.out.foldl (fun s i => match i.e with | .own m => ({ s with me := s.me.claimBank ctx 15 } : State).deliverMail s.cur m none | _ => s) s
    let s := s.sendDrips g.d
    let s := if before.running && before.act.fresh && before.act.no == g.no && before.act.stamped && s.me.ltCommitted.en
      then s.raiseA (stampOf before.act.trig) else s
    let s := if pushed then s.wakeThieves else s
    let ctx := ctx.toNat
    let s := (s.setCtx ctx { s.ctx ctx with last9 := s.el9 }).charge ctx 15 1
    match g.atCommit with
    | .nothing => s
    | .retire l => s.retire l
    | .resume skip => s.returnFrame skip

/-- A closed segment with a refused own store is rolled back (spec/05 R140). -/
def State.rollBad (s : State) : Option State :=
  match s.me.closing.find? fun g => g.d.bad.isSome with
  | none => none
  | some g => g.d.bad.map fun r => s.takeBack (s.me.closedFrom g.d.id) { r with head := g.closer }

/-- The segments that one boundary closed in a gang commit in one step. -/
def execCommit (core : Nat) (s : State) : Out := coreEvent core (fun s =>
  match s.rollBad with
  | some s => some s
  | none => match s.me.closing with
    | [] => none
    | g :: _ =>
      let ms := g.together s.cur
      if ms.all fun m => s.mayCommit m.1 && ((s.core m.1).closing.head?.map (·.d.id)) == some m.2 then
        some (onCores (ms.map (·.1)) State.commitOne s)
      else none) s

end Sys2Proof.Machine
end

