-- ==== Sys2Proof/Machine/Gangs.lean ====
section
/-! DEFINITION. Gangs: GANG, DISB, the forming of a gang (spec/14 R296 to R303). -/

namespace Sys2Proof.Machine

/-- Width and height of a size code. -/
def gangShape (size : Nat) : Nat × Nat := if size = 1 then (2, 1) else if size = 2 then (2, 2) else (4, 2)

/-- The members of a gang in member order; none where the core is at no origin. -/
def gangMembers (core size : Nat) : Option (List Nat) :=
  let x := core % 8
  let y := core % 64 / 8
  let (w, h) := gangShape size
  if size = 0 ∨ x % w ≠ 0 ∨ y % h ≠ 0 then none
  else some ((List.range (w * h)).map fun m => core + m / w * 8 + m % w)

/-- Idle for a gang (spec/14 R298), and out of local-time mode, in which no core joins one (spec/10 R249): a GANG whose follower enters the
mode while it waits goes on waiting. -/
def Core.gangIdle (c : Core) : Bool := !c.running && c.parks.isEmpty && c.frame.isNone && c.report.isNone && !c.lt.en

/-- What a bound s register gives the followers: its next element; an undefined value where it has none (an output stream, an exhausted
pattern), of which R299 says nothing (log 3). -/
def Core.boundValue (c : Core) (t : Stream) : W64 :=
  match t.out, t.buf with
  | false, x :: _ => x.setWidth 64
  | _, _ => (Config.undefined c.id (c.nund + t.code)).setWidth 64

/-- The live s registers of the leader, with their values, FULL (spec/14 R299). -/
def Core.gangRegs (c : Core) : Regs :=
  { Regs.reset with
    s := (c.streams.filter fun t => !t.isV).foldl (fun v t =>
      let i := BitVec.ofNat 6 t.code; v.set i.toNat (.full (c.boundValue t)) i.isLt) c.regs.s }

/-- An s register of the leader is EMPTY: a bound one while its next element is not buffered (spec/14 R304). -/
def Core.gangWaits (c : Core) : Bool :=
  anyEmpty c.regs.s || c.streams.any (fun t => !t.isV && (!t.full || !c.locked t)) || !c.pend.isEmpty || !c.reads.isEmpty

/-- The gang forms around the leader in focus: the followers are set up, the leader keeps its state. -/
def State.formGang (s : State) (size : Nat) (ms : List Nat) : State :=
  let l := s.me
  let s := onCores (ms.filter (· != s.cur)) (fun s =>
    let c := s.me
    let m := ms.idxOf s.cur
    let c := { c with
      running := true
      act := { l.act with origin := .follower, no := c.nact + 1, fresh := true, parked := false, stamped := false }
      nact := c.nact + 1, regs := l.gangRegs
      ctl := ⟨l.ctl.tid, l.ctl.wid, l.ctl.msg, 0, 0, 0, 0, ofNat m, l.ctl.mode⟩
      pc := l.pc, streams := [], wait := none, spin := 0, reserved := none
      gang := some ⟨size, ms, m, c.seg.id⟩ }
    { s with me := c.begun }) s
  { s with me := { s.me with
    gang := some ⟨size, ms, 0, s.me.seg.id⟩, gangWait := none, reserved := none, ctl := { s.me.ctl with mix := 0 }
    nund := if l.streams.any fun t => !t.isV then l.nund + 64 else l.nund } }

/-- The outcome of a GANG: its operand is used, and d and STS are written. -/
def gangResult (s : State) (d : BitVec 6) (a : Src) (v : W64) (sts : StsCode) : Res State := do
  let (_, c1) ← readS a s.me
  let c ← writeS d v ((freeS a c1).setSts sts)
  .ok { s with me := c.retire }

/-- The gang forms and the followers stand at the leader's next head. Where an s register of the leader is EMPTY the members are reserved
and the wait has no limit any more, so that the gang that is decided does form (spec/14 R297, R299). -/
def gangStart (s : State) (d : BitVec 6) (a : Src) (size : Nat) (ms : List Nat) : Res State :=
  if s.me.gangWaits then
    let s := onCores ms (fun s' => { s' with me := { s'.me with reserved := some s.me.id } }) s
    .ok { s with me := { s.me with gangWait := some ⟨ms, 0, (s.me.gangWait.map (·.since)).getD s.me.clk⟩, wait := some .gang } }
  else do
    let s ← gangResult (s.formGang size ms) d a (ofNat ms.length) .ok
    let pc := s.me.pc
    .ok (onCores (ms.filter (· != s.cur)) (fun s => { s with me := ({ s.me with pc := pc } : Core).begun }) s)

def execGang (d : BitVec 6) (a : Src) (size : BitVec 2) (s : State) : Out := finish s do
  let c := s.me
  need (c.entry.getLsbD 61) (.trap (precise c 0x001 (encWord (.gang d a size)) 0 0))
  need (size != 0) (.trap (precise c 0x002 (encWord (.gang d a size)) 3 0))
  destS d c
  let (x, _) ← readS a c
  let range : Stop := .trap (precise c 0x202 (size.setWidth 64) 0 0)
  match gangMembers s.cur size.toNat with
  | none => .error range
  | some ms =>
    -- the checks at issue and the first row are those of the GANG that is not waiting yet
    need (c.gangWait.isSome || c.gang.isNone && ms.all fun k => !(s.core k).lt.en &&
      (let l := s.lease (rowId k); l.ctx == c.act.ctx && l.cur == c.act.lnch && l.st != .free && l.st != .loading)) range
    let followers := ms.filter (· != s.cur)
    let taken := (c.reserved.isSome && c.reserved != some c.id) ||
      followers.any fun k => (s.core k).gang.isSome || ((s.core k).reserved.isSome && (s.core k).reserved != some s.cur)
    if taken && c.gangWait.isNone then gangResult s d a 0 .full
    else if followers.all fun k => (s.core k).gangIdle then gangStart s d a size.toNat ms
    else
      let s := onCores ms (fun s => { s with me := { s.me with reserved := some c.id } }) s
      let w : GangWait := c.gangWait.getD ⟨ms, x.toNat, c.clk⟩
      .ok { s with me := { s.me with gangWait := some w, wait := some .gang } }

/-- The instruction at which a core waits. -/
def Core.atHead (c : Core) : Decoded :=
  match c.fetch c.pc with
  | some r => decode r
  | none => .illop

def execGangForm (core : Nat) (s : State) : Out := coreEvent core (fun s =>
  match s.me.gangWait, s.me.atHead with
  | some w, .instr (.gang d a size) =>
    if (w.members.filter (· != s.cur)).all fun k => (s.core k).gangIdle then
      match gangStart s d a size.toNat w.members with
      | .ok s => some s
      | .error _ => none
    else none
  | _, _ => none) s

def execGangWaitTimeout (core : Nat) (s : State) : Out := coreEvent core (fun s =>
  match s.me.gangWait, s.me.atHead with
  | some w, .instr (.gang d a _) =>
    if w.limit ≠ 0 ∧ w.since + w.limit ≤ s.me.clk then
      match gangResult s.dropGangWait d a 0 .empty with
      | .ok s => some s
      | .error _ => none
    else none
  | _, _ => none) s

/-- DISB: a PHASE for the leader, an END for each follower, in one step (spec/14 R303). -/
def execDisb (s : State) : Out := finish s do
  let ms := s.gangOf
  if ms.length ≤ 1 then .ok { s with me := s.me.retire }
  else
    gangReady s ms
    need (fusedDone s ms false) (.wait .engine)
    let s := onCores (ms.filter (· != s.cur)) (fun s => s.endBy .endAct) s
    let s := { s with me := { (({ s.me.retire with gang := none } : Core).close .phase s.me.pc .nothing) with wait := none } }
    .ok (s.linkMates ms)

end Sys2Proof.Machine
end

