-- ==== Sys2Proof/Machine/Serve.lean ====
section
/-! DEFINITION. Requests at their homes and their replies (spec/07 R183 to R189, spec/05 R138, R139, spec/17 R344, R352, R370). -/

namespace Sys2Proof.Machine

/-! ### Serving -/

def noReport (cause : Nat) (w3 w6 w7 : W64) : Report := ⟨cause, 0, 0, w3, w6, w7, 0, 0⟩

/-- Other agents wait at the bank for n bytes at off (spec/03 R75). -/
def Core.blocked (c : Core) (off n : Nat) : Bool := (linesOf off n).any fun l => c.held l || c.heldBank (l / 1024)

/-- Something of bank b is held. -/
def Core.bankBlocked (c : Core) (b : Nat) : Bool :=
  c.heldBank b || c.uncommitted.any (fun d => d.holds.any fun n => n / 1024 == b) || c.pubs.any fun g => g.d.holds.any fun n => n / 1024 == b

/-- The traps of n bytes of physical memory (spec/17 R348, R349, spec/09 R223). -/
def State.physTrap (s : State) (pa n : Nat) (tag : BitVec 4) (a : W64) : Option Report :=
  if s.physBadAs tag pa n then some (noReport 0x501 a 2 0)
  else if pa < hostBit ∧ s.tagAt pa ≠ tag then some (noReport 0x203 a (tag.setWidth 64) ((s.tagAt pa).setWidth 64))
  else (lockOn s.dlocks pa n).map fun l => noReport 0x205 a l.kind 0

/-- The served bytes of an own ARRAY range that lies in one line (spec/06 R150). -/
def Core.servedNat (c : Core) (off n : Nat) : Nat := lineNat (c.served (off / 64)).1 (off % 64) n

/-- A weak read of one line. -/
def State.serveRead (s : State) (src : Nat) (ctx : BitVec 8) (pc : Option W64) (h : Home) (tag : BitVec 4) : Option (State × Rep) :=
  match h with
  | .local k off =>
    let c := s.core k
    if c.blocked off 64 then none
    else if !c.isArrayFor ctx (off / 65536) then some (s, .trap h (noReport 0x206 0 0 0))
    else match lockOn c.locks off 64 with
      | some l => some (s, .trap h (noReport 0x205 0 l.kind 0))
      | none =>
        let c := (c.claimBank ctx (off / 65536)).claim ctx (off / 64)
        let s := ((s.setCore k c).charge ctx.toNat 2 1).lineBreak src pc k off 64
        some (s, if (c.served (off / 64)).2 then .trap h (noReport 0x501 0 0 0) else .line h (c.served (off / 64)).1)
  | .dev pa => match s.physTrap pa 64 tag 0 with
    | some r => some (s, .trap h r)
    | none => some (s.charge ctx.toNat 9 1, .line h (lineOf (s.physBytes pa 64)))
  | .host pa => match s.physTrap (pa + hostBit) 64 tag 0 with
    | some r => some (s, .trap h r)
    | none => some (s, .line h (lineOf (s.physBytes (pa + hostBit) 64)))
  | .farCore .. | .farDev _ => none

/-- A strong access to bytes of core k. -/
def State.serveOwn (s : State) (ctx : BitVec 8) (k off : Nat) (h : Home) (a : W64) (op : WordOp) (mode : W64) : Option (State × Rep) :=
  let n := op.size
  match lockOn (s.core k).locks off n with
  | some l => some (s, .trap h (noReport 0x205 a l.kind 0))
  | none =>
    let c := ((s.core k).claimBank ctx (off / 65536)).claim ctx (off / 64)
    let s := (s.setCore k c).charge ctx.toNat 2 1
    if op.reads && (c.served (off / 64)).2 then some (s, .trap h (noReport 0x501 a 0 0))
    else match op.run a (c.servedNat off n) mode with
      | .poll => none
      | .trap cause w3 w6 w7 => some (s, .trap h (noReport cause w3 w6 w7))
      | .ok none v f => some (s, .val v none none f)
      | .ok (some x) v f =>
        some (s.setCore k (c.publish ctx (off / 64) (lineAt (off % 64) n x) (byteMask (off % 64) n)), .val v none none f)

/-- A structure operation through the window of core k: the home decides whether it pairs (spec/07 R167). -/
def State.serveWin (s : State) (ctx : BitVec 8) (k off : Nat) (h : Home) (a : W64) (op : WordOp) (odd : Bool) : Option (State × Rep) :=
  let b := off / 65536
  let c := ((s.core k).claimBank ctx b).claimPool ctx b
  let s := (s.setCore k c).charge ctx.toNat 3 1
  match winOp c b (off % 65536) op odd with
  | .bad => some (s, .trap h (noReport 0x206 a 0 0))
  | .ok c' v v1 sts =>
    if (op.winReads (c.bank b) b off).any c.poison.contains then some (s, .trap h (noReport 0x501 a 0 0))
    else if (touched c c' (c.leader b)).any c.bankBlocked then none
    else some (s.setCore k c', .val v v1 (some (BitVec.ofNat 3 sts.code)) 0)

/-- A strong access to physical memory. -/
def State.servePhys (s : State) (pa : Nat) (h : Home) (a : W64) (op : WordOp) (tag : BitVec 4) (mode : W64) : Option (State × Rep) :=
  match s.physTrap pa op.size tag a with
  | some r => some (s, .trap h r)
  | none => match op.run a (natOf (s.physBytes pa op.size)) mode with
    | .poll => none
    | .trap cause w3 w6 w7 => some (s, .trap h (noReport cause w3 w6 w7))
    | .ok none v f => some (s, .val v none none f)
    | .ok (some x) v f => some (s.physPut pa (bytesOf x op.size), .val v none none f)

def State.serveWord (s : State) (src : Nat) (ctx : BitVec 8) (pc : Option W64) (d : Nat) (h : Home) (a : W64) (op : WordOp) (tag : BitVec 4) (mode : W64) : Option (State × Rep) :=
  match h with
  | .local k off =>
    let c := s.core k
    if c.isArrayFor ctx (off / 65536) then
      if c.blocked off op.size then none
      else (s.serveOwn ctx k off h a op mode).map fun r => (r.1.lineBreak src pc k off op.size, r.2)
    else if c.bankBlocked (off / 65536) then none
    else s.serveWin ctx k off h a op (d % 2 == 1)
  | .dev pa => (s.servePhys pa h a op tag mode).map fun r => (r.1.charge ctx.toNat (if op.writes then 10 else 9) 1, r.2)
  | .host pa => s.servePhys (pa + hostBit) h a op tag mode
  | .farCore .. | .farDev _ => none

/-- A remote SPAWN: refused with RANGE where a message would be refused (spec/17 R368, R370). -/
def State.serveSpawn (s : State) (src k : Nat) (m : Msg) : Option (State × Rep) :=
  let l := s.lease (rowId k)
  if s.curCtx (clusterOf k) ≠ some (msgCtx m).toNat ∨ !(l.st == .running && l.ctx == msgCtx m && l.cur == msgLnch m) then
    some (s, .trap (.local k 0) (noReport 0x202 (destWord m s.pkgid.toNat k) 0 0))
  else
    let c := (s.core k).claimBank (msgCtx m) 14
    if c.dequeHeld then none
    else if 1024 ≤ c.deque.length then some (s.setCore k c, .task 0 false)
    else
      let c : Core := { c with deque := c.deque ++ [⟨m, none, s.gt, true⟩] }
      let s := s.setCore k (c.countRecv (msgCtx m) (msgLnch m) 1)
      let s := s.setCore src ((s.core src).countSent (msgLnch m) 1)
      some ((onCore k State.wakeThieves s).arrive k true m, .task (m.toList.getD 1 0) true)

def State.serve (s : State) (p : Packet) (id d : Nat) (r : Req) : Option (State × Body) :=
  (match r with
    | .read h tag => (s.readHome h 64 tag).serveRead p.src p.ctx (((s.core p.src).reads.find? fun (x : RRead) => x.id == id).map fun (x : RRead) => x.pc) h tag
    | .word h a op tag mode => (s.readHome h op.size tag).serveWord p.src p.ctx (if p.src < nodeSpan then some (s.core p.src).pc else none) d h a op tag mode
    | .spawn k m => s.serveSpawn p.src k m).map fun (x : State × Rep) => (x.1, Body.reply id d x.2)

/-- The context of a packet takes part at the core it is for. -/
def State.takesPart (s : State) (p : Packet) : Bool :=
  let x := s.ctx p.ctx.toNat
  x.hasCluster (clusterOf p.dst) && x.state != 0 && x.state != 5

/-- What core k does and answers. -/
def State.atCore (s : State) (k : Nat) (f : State → State × Body) : State × Body :=
  let r := f (s.focus k)
  (r.1.focus s.cur, r.2)

def servePacket (k : Nat) (p : Packet) (s : State) : State :=
  match p.body with
  | .request id d r => s.receive k p fun s => s.serve p id d r
  | .sub g n r w2 w3 l f e => s.receive k p fun s => some (s.atCore p.dst fun t => t.takeSub p.ctx (s.takesPart p) g n r w2 w3 l f e)
  | .res g n r w2 w3 l f e => s.receive k p fun s => some (s.atCore p.dst fun t => t.takeRes p.ctx (s.takesPart p) g n r w2 w3 l f e)
  | _ => s

def execRequestServe (k : Nat) (s : State) : Out := packetEvent k (servePacket k) s

/-- The request of a WAITM or BARW that waits at its home. -/
def Body.polls : Body → Bool
  | .request _ _ (.word _ _ op _ _) => op.waits
  | _ => false

def Packet.waitsFor (core : Nat) (p : Packet) : Bool := p.src == core && p.body.polls

def execWaitmRetest (core : Nat) (s : State) : Out :=
  if core < Config.nCores then
    match s.chan.findIdx? (Packet.waitsFor core) with
    | none => .next s
    | some k => packetEvent k (servePacket k) s
  else .fault .noSuchUnit

/-! ### Replies -/

/-- A delivered read stands in the states that a later read's trap would bring back. -/
def Snap.deliver (n : Snap) (w : ReadWhat) (x : Line) : Snap :=
  match w with
  | .ld d .. =>
    let i := BitVec.ofNat 6 d
    if i = 0 then n else { n with regs := { n.regs with s := n.regs.s.set i.toNat (.full (x.setWidth 64)) i.isLt } }
  | .ldv d .. | .gath d .. => let i := BitVec.ofNat 5 d; { n with regs := { n.regs with v := n.regs.v.set i.toNat (.full x) i.isLt } }
  | .fill _ => n

/-- Reads whose lines have all arrived are delivered in order (spec/05 R138). -/
def Core.deliverReads (c : Core) : Core :=
  c.reads.foldl (fun c r =>
    if r.need.all fun h => (c.cachedLine h).isSome then
      let x := c.readValue r.what
      let later := fun (k : Nat) (n : Snap) => if r.id < k then n.deliver r.what x else n
      ({ c with
        reads := (c.reads.filter (·.id != r.id)).map fun q => { q with snap := later q.id q.snap }
        marks := c.marks.map fun m => { m with snap := later m.ord m.snap } } : Core).deliverRead r.what
    else c) c

/-- Marks of a gang whose head has all its reads resolved go. -/
def State.dropMarks (s : State) : State :=
  let open_ := fun (x : Nat × Nat) => (s.core x.1).reads.any fun r => r.id == x.2
  onCores s.gangOf (fun s => { s with me := { s.me with marks := s.me.marks.filter fun m => m.hold.any open_ } }) s

/-- The core in focus goes back to the state before a head that sent reads: what later instructions did in registers, control words and
streams is withdrawn. Reads before number `ord` stand. -/
def State.withdraw (s : State) (pc : W64) (n : Snap) (ord : Nat) : State :=
  let c := s.me
  ({ s with me := { c with
    regs := n.regs, ctl := { n.ctl with bud := c.ctl.bud }, streams := n.streams, pend := n.pend
    reads := c.reads.filter fun x => decide (x.id < ord), marks := c.marks.filter fun m => decide (m.ord < ord)
    pc := pc, wait := none, spin := 0 } }).dropGangWait.relockStreams

/-- Word 7 of a reply's trap: the lane for BADWIN at a gather (spec/08 R201), the reply's own otherwise. -/
def RRead.word7 (r : RRead) (h : Home) (q : Report) : W64 :=
  if q.cause = 0x206 then ((r.what.lanes.find? fun x => x.2.1 == h).map fun x => ofNat (2 ^ 63 + x.1)).getD q.w7 else q.w7

/-- A remote weak read resolves in a trap: every effect of the later instructions is withdrawn, in every member of a gang
(spec/05 R139, spec/14 R283). -/
def State.readTrap (s : State) (r : RRead) (h : Home) (q : Report) : State :=
  let a := ((r.addrs.find? fun x => x.1 == h).map (·.2)).getD 0
  let s := match s.me.marks.find? fun m => m.ord == r.id with
    | some m => onCores s.gangOf (fun s => match s.me.marks.find? fun (x : Mark) => x.gno == m.gno with
        | some x => s.withdraw x.pc x.snap x.ord
        | none => s) s
    | none => s.withdraw r.pc r.snap r.id
  if q.cause = 0x501 then s.uncorrectable a q.w6 true
  else s.takeTrap [(s.cur, { q with head := r.pc, w3 := a, w7 := r.word7 h q })]

/-- The irrevocable access is done: its result, and the checkpoint that holds it, confirmed at once (spec/03 R76). -/
def Core.accessDone (c : Core) (d : Nat) (v : W64) (v1 : Option W64) (sts : Option (BitVec 3)) (flags : BitVec 5) : Core :=
  let c := c.deliver (BitVec.ofNat 6 d) v
  let c := v1.elim c fun x => c.deliver (BitVec.ofNat 6 d + 1) x
  let ctl := { c.ctl with flg := c.ctl.flg ||| flags.setWidth 64, sts := (sts.map fun x => x.setWidth 64).getD c.ctl.sts }
  let c := { (({ c with ctl := ctl } : Core).retire) with irrev := none, rcache := [], past := [] }
  { c with confirmed := c.checkpoint }

/-- The irrevocable access traps: the state before it issued comes back. -/
def State.accessTrap (s : State) (q : Report) : State :=
  let c := s.me
  let k := c.confirmed
  let s := ({ s with me := { c with
    regs := k.regs, ctl := { k.ctl with bud := c.ctl.bud }, streams := (k.streams.map fun (t : Stream) => { t with buf := [] })
    irrev := none, wait := none, spin := 0 } }).relockStreams
  if q.cause = 0x501 then s.uncorrectable q.w3 q.w6 true
  else s.takeTrap [(s.cur, { q with head := c.pc })]

/-- A reply at the core in focus. -/
def State.reply (s : State) (id d : Nat) (r : Rep) : State :=
  let c := s.me
  match c.reads.find? fun x => x.id == id, r with
  | some _, .line h l =>
    let c := if (c.cachedLine h).isSome then c else { c with rcache := c.rcache ++ [(h, l)] }
    State.dropMarks { s with me := c.deliverReads }
  | some x, .trap h q => s.readTrap x h q
  | some _, _ => s
  | none, r =>
    if c.irrev = some (.sent id) then
      match r with
      | .val v v1 sts f => { s with me := c.accessDone d v v1 sts f }
      | .task v ok =>
        let c := if ok then { c with tseq := c.tseq + 1 } else c
        { s with me := c.accessDone d v none (some (BitVec.ofNat 3 (if ok then StsCode.ok else StsCode.full).code)) 0 }
      | .trap _ q => s.accessTrap q
      | .line .. => s
    else s

def execReplyArrival (k : Nat) (s : State) : Out := packetEvent k (fun p s =>
  match p.body with
  | .reply id d r => onCore p.src (fun s => s.reply id d r) { s with chan := ldel s.chan k }
  | .subAck g n r e | .resAck g n r e => onCore p.src (fun s => s.collAnswer p.ctx g n r e) { s with chan := ldel s.chan k }
  | _ => s) s

def execResultDelivery (core k : Nat) (s : State) : Out := coreEvent core (fun s =>
  match s.me.pend[k]? with
  | none => none
  | some r => some { s with me := { (s.me.deliver (BitVec.ofNat 6 r.d) r.val) with pend := ldel s.me.pend k } }) s

/-! ### Translation (spec/17 R350, R352) -/

/-- A walk on its own fills the core's table of 64 entries and the cluster's of 2,048; one that faults leaves it to the access. -/
def execPageWalk (core : Nat) (va : W64) (s : State) : Out := coreEvent core (fun s => some (s.walkFill va)) s

/-! ### Retransmission (spec/17 R344) -/

/-- The address that a packet carries. -/
def Body.address : Body → W64
  | .entry _ _ (.store _ _ _ _ a) => a
  | .request _ _ (.word _ a _ _ _) => a
  | _ => 0

/-- The eighth try has timed out: the packet counts as answered with an uncorrectable error (spec/17 R355, spec/24 R447, log 50). -/
def State.lostPacket (s : State) (p : Packet) : State :=
  match p.body with
  | .entry seg _ _ | .ack seg _ _ _ => onCore p.src (fun s =>
      match s.me.closing.find? fun g => g.d.id == seg with
      | none => s
      | some g => s.takeBack (s.me.closedFrom seg) ⟨0x501, 2, g.closer, p.body.address, 2, 0, s.me.clk, s.gt⟩) s
  | .request id _ _ | .reply id _ _ => onCore p.src (fun s =>
      match s.me.reads.find? fun x => x.id == id with
      | some r => s.takeBack 0 ⟨0x501, 2, r.pc, ((r.addrs.head?).map (·.2)).getD 0, 2, 0, s.me.clk, s.gt⟩
      | none => if s.me.irrev = some (.sent id) then s.takeBack 0 ⟨0x501, 2, s.me.pc, p.body.address, 2, 0, s.me.clk, s.gt⟩ else s) s
  | .notice _ | .noticeAck .. => s.killFor p.src p.ctx 0 2
  | .abort _ | .abortAck _ => onCore p.src (fun s =>
      if s.me.running && s.me.act.ctx == p.ctx then s.takeBack 0 ⟨0x501, 2, s.me.pc, 0, 2, 0, s.me.clk, s.gt⟩ else s) s
  | .sub gid k .. | .subAck gid k .. | .res gid k .. | .resAck gid k .. =>
    let here := s.focus (if p.src < 8192 then p.src else p.dst)
    { s with rounds := s.rounds.map fun r => if here.isRound p.ctx gid k r then { r with fail := some (r.fail.getD 8) } else r }
  | .drip .. => s

/-- The wait for a reply, in gt: 16 µs on the package, 64 µs to another (spec/17 R344, spec/24 R439). -/
def Packet.patience (p : Packet) : Nat := if (nodePkg p.dst).isSome then 64 * 16000 else 16 * 16000

/-- No reply has come in time: the core retransmits under the same number, or gives up after the eighth try. The polls of a WAITM or BARW
are answered one by one at its home, so its wait there is no missing reply (log 50). -/
def execRetransmitTimeout (k : Nat) (s : State) : Out :=
  match s.chan[k]? with
  | none => .next s
  | some p =>
    let waits := p.body.polls
    if !p.body.numbered || nodeSpan ≤ p.src || s.gt < p.since + p.patience || (waits && !p.away) then .next s
    else if p.tries < 8 then
      let up := fun (q : Packet) => if q.same p then { q with tries := if waits then p.tries else p.tries + 1, since := s.gt } else q
      let chan := s.chan.map up
      .next { s with chan := if p.body.isReply then chan else chan ++ [{ (up p) with away := false }] }
    else .next (({ s with chan := s.chan.filter fun q => !q.same p }).lostPacket p)

end Sys2Proof.Machine
end

