-- ==== Sys2Proof/Machine/Work.lean ====
section
/-! DEFINITION. What a core takes up next: parked activations, messages, tasks, steals; parking; budget; the policy steps of a
report; streams; local time of an idle core (spec/17 R356 to R362, spec/03 R52, R53, R77, spec/11 R279, R286, spec/14 R310,
spec/10 R257, R258). -/

namespace Sys2Proof.Machine

/-! ### Whether a core may take up work (spec/17 R356, R359, spec/14 R298, spec/20 R387, R393) -/

/-- No activation, no report, no gang, and nothing stops the core. -/
def Core.free (c : Core) : Bool :=
  !c.running && c.report.isNone && c.gang.isNone && c.halted.isNone && !c.stopped && c.traceOut.isEmpty

/-- The core may dispatch a message or a task: it is not reserved, its row serves a launch and is loaded; nothing starts after the thermal
trip (spec/21 R423). -/
def State.canStart (s : State) : Bool :=
  let c := s.me
  let l := s.lease (rowId s.cur)
  !s.trip && c.free && c.frame.isNone && c.reserved.isNone && (l.st == .running || l.st == .draining) &&
    (s.ctx l.ctx.toNat).state == 1 && !s.reload.contains (rowId s.cur)

/-- A parked activation of the launch that the row serves, whose condition holds: the oldest; a handler alone while a frame stands. -/
def State.readyPark (s : State) : Option Parked :=
  let c := s.me
  let l := s.lease (rowId s.cur)
  if !s.trip && c.free && (s.ctx l.ctx.toNat).here && !s.reload.contains (rowId s.cur) then
    c.parks.find? fun p => p.ready && l.serves p.saved.act.ctx p.saved.act.lnch && (c.frame.isNone || p.saved.act.isTrap)
  else none

/-! ### The choice of a message (spec/17 R357, spec/10 R256) -/

def priOf (m : Msg) : Nat := bits (m.toList.getD 0 0) 37 36

def prioGet (p : Nat × Nat × Nat) (k : Nat) : Nat := if k = 0 then p.1 else if k = 1 then p.2.1 else p.2.2
def prioSet (p : Nat × Nat × Nat) (k n : Nat) : Nat × Nat × Nat :=
  if k = 0 then (n, p.2.1, p.2.2) else if k = 1 then (p.1, n, p.2.2) else if k = 2 then (p.1, p.2.1, n) else p

/-- Pick() over the priorities present: the priority taken, and the counters after it. -/
def pickPri (n : Nat × Nat × Nat) (present : List Nat) : Option (Nat × (Nat × Nat × Nat)) :=
  match present with
  | [] => none
  | [h] => some (h, prioSet n h 0)
  | h :: l :: _ => if prioGet n h = 64 then some (l, prioSet n h 0) else some (h, prioSet n h (prioGet n h + 1))

/-- The message that the mailbox offers to a launch, by index, with the counters after it. -/
def Core.offer (c : Core) (mine : Msg → Bool) : Option (Nat × (Nat × Nat × Nat)) :=
  if c.lt.en then (c.offerLT mine).map fun k => (k, c.prio)
  else
    let present := (List.range 4).filter fun k => c.mailbox.any fun i => mine i.msg && priOf i.msg == k
    match pickPri c.prio present with
    | none => none
    | some (p, n) => (c.mailbox.findIdx? fun i => mine i.msg && priOf i.msg == p).map fun k => (k, n)

/-! ### Forming an activation (spec/03 R53, R80) -/

/-- What the activation of a message or record starts from. -/
structure Start where
  msg    : Msg
  migr   : Option MigrRec
  origin : Origin
  rel    : Bool
  born   : Nat
  other  : Bool
deriving DecidableEq, Repr

def hidxOf (m : Msg) : Nat := bits (m.toList.getD 0 0) 47 38

/-- clk between two global times (spec/17 R372). -/
def clkOf (gt : Nat) : Nat := gt * 9 / 240

/-- The core in focus starts the activation. -/
def State.start (s : State) (x : Start) : State :=
  let c := s.me
  let ctx := msgCtx x.msg
  let e := c.handler (hidxOf x.msg)
  let lt := x.origin == .mailbox && isStamped x.msg && c.lt.en
  let act : Act :=
    { ctx := ctx, lnch := msgLnch x.msg, hidx := hidxOf x.msg, trig := x.msg, migr := x.migr, stamped := lt, origin := x.origin
      isTrap := false, ltc0 := c.lt.ltc, rel := x.rel, fresh := true, parked := false, born := x.born, begun := s.gt
      other := x.other, no := c.nact + 1 }
  let c := { c with
    running := true, act := act, nact := c.nact + 1, wait := none, passing := none, spin := 0, streams := [], irrev := none, rcache := []
    lt := if lt then { c.lt with ltc := stampOf x.msg } else c.lt }
  let c := match x.migr with
    | some r => { c with regs := r.regs, ctl := r.ctl, pc := r.pc }
    | none => { c with regs := Regs.start x.msg, ctl := Ctl.start x.msg (s.budget e.1 ctx (msgLnch x.msg)), pc := ofNat (64 * bits e.2 8 0) }
  { s with me := ((c.count 0 (clkOf (s.gt - x.born))).count 6 1).begun }

/-- The message names no entry, or a wake write one that is not persistent: it retires without running (spec/03 R52). -/
def Core.refuses (c : Core) (m : Msg) : Bool :=
  let e := (c.handler (hidxOf m)).1
  !entryValid e || ((m.toList.getD 0 0).getLsbD 34 && !e.getLsbD 62)

/-- The BADTGT notice of R52. -/
def State.badEntryNotice (s : State) (m : Msg) : State :=
  s.notice s.cur (msgCtx m) (some (msgLnch m)) 0x003 (m.toList.getD 1 0) 0 (ofNat (hidxOf m)) (m.toList.getD 0 0) 3

/-- The message or record starts an activation, or retires by R52; none where the trace ring is full. -/
def State.take (s : State) (src : Source) (x : Start) : Option State :=
  if s.me.refuses x.msg then some (s.badEntryNotice x.msg)
  else (s.recordDispatch src x.msg (msgCtx x.msg) (x.msg.toList.getD 1 0)).map fun s => s.start x

/-- The mailbox gives its message. Its place is free from the dispatch on, so that a redelivery may be the 1,025th; the manual does not say
whether a dispatched message keeps its place until its activation commits. DESIGN CHOICE, log 66. -/
def State.takeMail (s : State) (k : Nat) (n : Nat × Nat × Nat) : Option State :=
  match s.me.mailbox[k]? with
  | none => none
  | some i =>
    if !s.mayDispatch (msgCtx i.msg).toNat .mailbox i.msg 0 then none
    else
      let c := { s.me with mailbox := ldel s.me.mailbox k, mbHead := (s.me.mbHead + 8) % 8192, prio := n }
      ({ s with me := c }).take .mailbox ⟨i.msg, i.migr, if i.migr.isSome then .migr else .mailbox, i.rel, i.born, false⟩

/-- The bottom-most record of the launch, unless an uncommitted segment pushed it (spec/17 R360, R370). -/
def Core.bottom (c : Core) (ctx lnch : BitVec 8) : Option (Nat × TaskRec) :=
  let mine := fun (r : TaskRec) => msgCtx r.msg == ctx && msgLnch r.msg == lnch
  match ((c.deque.zipIdx.map fun x => (x.2, x.1)).filter fun x => mine x.2).getLast? with
  | none => none
  | some x => if x.2.seg.isSome then none else some x

/-- The topmost record of the launch. -/
def Core.top (c : Core) (ctx lnch : BitVec 8) : Option (Nat × TaskRec) :=
  let mine := fun (r : TaskRec) => msgCtx r.msg == ctx && msgLnch r.msg == lnch
  match (c.deque.zipIdx.map fun x => (x.2, x.1)).find? fun x => mine x.2 with
  | none => none
  | some x => if x.2.seg.isSome then none else some x

/-- The core's own deque gives its record, which returns there if the activation is discarded: a revocable operation of its first segment
(spec/17 R360, spec/03 R74, R75). -/
def State.takeTask (s : State) (k : Nat) (r : TaskRec) : Option State :=
  let c := s.me
  if !s.mayDispatch (msgCtx r.msg).toNat .deque r.msg (r.msg.toList.getD 1 0) then none
  else (({ s with me := { c with deque := ldel c.deque k } }).take .deque ⟨r.msg, none, .deque, false, r.born, r.other⟩).map fun (s : State) =>
    if s.me.running then { s with me := s.me.holdDeque [14 * 1024 + (c.dqTop + k) % 1024, dequeMeta] } else s

/-- The instruction that stands at the core's pc polls a word of the core's own memory. -/
def State.pollsOwn (s : State) : Bool :=
  match s.me.atHead with
  | .instr (.waitm _ a _ _ _ _) | .instr (.barw _ a _ _) => match readS a s.me with
    | .ok (e, _) => (match s.place e with | .own _ => true | _ => false)
    | .error _ => false
  | _ => false

/-- A parked activation is taken up again (spec/17 R358): its wait issues from the first poll, without a new boundary. -/
def State.resumePark (s : State) (p : Parked) : Option State :=
  let v := p.saved
  if !s.mayDispatch v.act.ctx.toNat .parked v.act.trig v.ctl.tid then none
  else (s.recordDispatch .parked v.act.trig v.act.ctx v.ctl.tid).map fun s =>
    let c := s.me
    let c := { c with
      parks := c.parks.filter fun q => q.saved.act.no != v.act.no
      running := true, act := { v.act with fresh := true, parked := true }, regs := v.regs, ctl := v.ctl, pc := v.pc
      streams := v.streams.map fun (t : Stream) => { t with buf := [] }
      wait := none, spin := 0, irrev := none, rcache := [] }
    let s := { s with me := (c.count 6 1).begun }
    if s.pollsOwn then s else { s with me := { s.me with irrev := some .bounded } }

/-- The record of the launch with a TID, which a core in replay takes, wherever it stands (spec/20 R400). -/
def Core.recordOf (c : Core) (ctx lnch : BitVec 8) (e : W64 × W64) : Option (Nat × TaskRec) :=
  (c.deque.zipIdx.map fun x => (x.2, x.1)).find? fun x => msgCtx x.2.msg == ctx && msgLnch x.2.msg == lnch && x.2.seg.isNone &&
    replayMatches .deque x.2.msg (x.2.msg.toList.getD 1 0) e

/-- What the entry at the head of the replay buffer names, where it does not stand first (spec/20 R400). -/
def State.dispatchNamed (s : State) : Option State :=
  let c := s.me
  let l := s.lease (rowId s.cur)
  match s.replayHead l.ctx.toNat s.cur with
  | none => none
  | some e =>
    if bits e.1 63 62 = 3 then
      if !s.trip && c.free && (s.ctx l.ctx.toNat).here && !s.reload.contains (rowId s.cur) then
        (c.parks.find? fun p => p.ready && l.serves p.saved.act.ctx p.saved.act.lnch && (c.frame.isNone || p.saved.act.isTrap) &&
          p.saved.ctl.tid == e.2).bind s.resumePark
      else none
    else if !s.canStart then none
    else if bits e.1 63 62 = 0 then
      (c.mailbox.findIdx? fun i => msgCtx i.msg == l.ctx && msgLnch i.msg == l.cur && replayMatches .mailbox i.msg 0 e).bind fun k => s.takeMail k c.prio
    else (c.recordOf l.ctx l.cur e).bind fun x => s.takeTask x.1 x.2

/-- The first source of R356 that has some work, steals apart; in replay, what the head of the buffer names. -/
def State.dispatch (s : State) : Option State :=
  match s.readyPark with
  | some p => if s.mayDispatch p.saved.act.ctx.toNat .parked p.saved.act.trig p.saved.ctl.tid then s.resumePark p else s.dispatchNamed
  | none =>
    if !s.canStart then none
    else
      let l := s.lease (rowId s.cur)
      let mine := fun (m : Msg) => msgCtx m == l.ctx && msgLnch m == l.cur
      match s.me.offer mine with
      | some (k, n) =>
        let may := (s.me.mailbox[k]?.map fun i => s.mayDispatch (msgCtx i.msg).toNat .mailbox i.msg 0).getD true
        if may then s.takeMail k n else s.dispatchNamed
      | none => match s.me.bottom l.ctx l.cur with
        | some (k, r) => if s.mayDispatch (msgCtx r.msg).toNat .deque r.msg (r.msg.toList.getD 1 0) then s.takeTask k r else s.dispatchNamed
        | none => none

def AtCommit.resumes : AtCommit → Bool
  | .resume _ => true
  | _ => false

/-- The stopped activation resumes from the frame before anything else, after a pre-emption or a rollback (spec/03 R81, spec/11 R280). -/
def State.resumeChoice (s : State) : Option State :=
  match s.me.frame with
  | none => none
  | some f => match f.choice with
    | none => none
    | some skip =>
      let l := s.lease (rowId s.cur)
      if s.me.free && !(s.me.closing.any fun g => g.atCommit.resumes) && (s.ctx l.ctx.toNat).state == 1 && !s.reload.contains (rowId s.cur) then
        some (({ s with me := { s.me with frame := some { f with choice := none } } } : State).returnFrame skip)
      else none

def execDispatch (core : Nat) (s : State) : Out := coreEvent core (fun s =>
  match s.resumeChoice with
  | some s => some s
  | none => s.dispatch) s

/-! ### Steals (spec/17 R361) -/

/-- The thief is idle, no parked activation stands there (spec/17 R359), and its launch lets it steal. -/
def State.canSteal (s : State) : Bool :=
  let l := s.lease (rowId s.cur)
  s.canStart && s.me.parks.isEmpty && l.st == .running && s.stealArea s.cur != 0 && s.me.stealWait == 0 && s.dispatch.isNone

/-- A victim that a steal may take from. -/
def State.qualifies (s : State) (v : Nat) (l : Lease) : Bool :=
  let c := s.core v
  let m := s.lease (rowId v)
  m.st == .running && m.ctx == l.ctx && m.cur == l.cur && c.reserved.isNone && c.gang.isNone && !c.dequeHeld &&
    (c.top l.ctx l.cur).isSome

/-- The victims in search order: the other cores of the cluster, then one of each other cluster of the die. -/
def State.searchOrder (s : State) (l : Lease) : List Nat :=
  let cl := clusterOf s.cur
  let own := (List.range 63).map fun i => 64 * cl + (s.cur + 1 + i) % 64
  let wide := s.stealArea s.cur == 2
  let others := (List.range 31).map fun i => cl / 32 * 32 + (cl + 1 + i) % 32
  own ++ (if wide then others.map fun x => (((List.range 64).map (64 * x + ·)).find? fun v => s.qualifies v l).getD (64 * x) else [])

/-- A failed attempt: the search goes on, or its round ends and the thief waits 256 clk. -/
def State.missed (s : State) (n : Nat) : State :=
  let c := (s.me.count 1 (if s.me.victims < 63 then 4 else 40)).count 3 1
  if c.victims + 1 < n then { s with me := { c with victims := c.victims + 1 } }
  else { s with me := { c with victims := 0, stealWait := c.clk + 256 } }

/-- The record that a thief takes: the topmost of the launch; in replay, the one with the TID of the entry at the head (spec/20 R400). -/
def State.stolen (s : State) (v : Nat) (l : Lease) : Option (Nat × TaskRec) :=
  match s.replayHead l.ctx.toNat s.cur, (s.core v).top l.ctx l.cur with
  | some e, some x => if replayMatches .steal x.2.msg (x.2.msg.toList.getD 1 0) e then some x else (s.core v).recordOf l.ctx l.cur e
  | _, x => x

/-- The record goes to the thief, which starts it; in replay, a victim that has not the record named fails the attempt. -/
def State.steal (s : State) (v : Nat) (l : Lease) (n : Nat) : Option State :=
  match s.stolen v l with
  | none => some (s.missed n)
  | some (k, r) =>
    if !s.mayDispatch l.ctx.toNat .steal r.msg (r.msg.toList.getD 1 0) then some (s.missed n)
    else
      let c := s.core v
      let c := { c with deque := ldel c.deque k, dqTop := if k = 0 then (c.dqTop + 1) % 1024 else c.dqTop }
      let s := s.setCore v (c.count 5 1)
      let s := { s with me := (s.me.count 4 1).count 1 (if s.me.victims < 63 then 4 else 40) }
      ({ s with me := { s.me with victims := 0 } }).take .steal ⟨r.msg, none, .steal, false, r.born, r.other⟩

def execStealAttempt (core victim : Nat) (s : State) : Out :=
  if victim < Config.nCores then coreEvent core (fun s =>
    let l := s.lease (rowId s.cur)
    if s.canSteal then
      let order := s.searchOrder l
      if order[s.me.victims]? = some victim then
        if s.qualifies victim l then s.steal victim l order.length else some (s.missed order.length)
      else none
    else none) s
  else .fault .noSuchUnit

def execStealWaitExpiry (core : Nat) (s : State) : Out := coreEvent core (fun s =>
  if s.me.stealWait ≠ 0 ∧ s.me.stealWait ≤ s.me.clk then some { s with me := { s.me with stealWait := 0 } } else none) s

/-! ### Parking (spec/17 R358) -/

/-- The word that the waiting head of the core in focus watches. -/
def State.watched (s : State) : Option (Home × WordOp) :=
  let get := fun (a b : Src) (f : W64 → WordOp) => match readS a s.me with
    | .error _ => none
    | .ok (e, c) => match readS b c with
      | .error _ => none
      | .ok (y, _) => match s.place e with
        | .own off => some (Home.local s.cur off, f y)
        | _ => match s.homeOf e true with
          | .ok h => some (h, f y)
          | .error _ => none
  match s.me.atHead with
  | .instr (.waitm _ a b cc _ t) => get a b (.waitm cc t)
  | .instr (.barw _ a b _) => get a b .barw
  | _ => none

/-- The registers of the waiting head: those before its request left. -/
def Core.unasked (c : Core) : Core :=
  match c.irrev with
  | some (.sent _) => { c with regs := c.confirmed.regs, irrev := none, wait := none }
  | _ => { c with irrev := none, wait := none }

def execPark (core : Nat) (s : State) : Out := coreEvent core (fun s =>
  let c := s.me
  if c.running && !c.held? && c.gang.isNone && decide (Config.parkAfter ≤ c.spin) && decide (c.parks.length < Config.parkSlots) && c.report.isNone then
    let s' := { s with me := c.unasked }
    match s'.watched, boundaryReady s'.me with
    | some (h, op), .ok _ =>
      let c := s'.me.close .park s'.me.pc .nothing
      let v : Saved := ⟨{ c.act with parked := false }, c.regs, c.ctl, c.pc, c.streams, false, none, false⟩
      let c : Core := { c with parks := c.parks ++ [⟨v, false, h, op⟩], streams := [] }
      let s := { s' with
        me := c.idle.setLast c.idle.checkpoint
        chan := s'.chan.filter fun p => !p.waitsFor s'.cur }
      some s.relockStreams
    | _, _ => none
  else none) s

/-- What the bytes at a home are to other agents. -/
def State.homeNat (s : State) (h : Home) (n : Nat) : Nat :=
  match h with
  | .local k off => (s.core k).servedNat off n
  | .dev pa => natOf (s.physBytes pa n)
  | .host pa => natOf (s.physBytes (pa + hostBit) n)
  | .farCore .. | .farDev _ => 0

def execWatchReady (core slot : Nat) (s : State) : Out := coreEvent core (fun s =>
  match s.me.parks[slot]? with
  | none => none
  | some p =>
    if !p.watch.isFar && p.op.run 0 (s.homeNat p.watch p.op.size) 0 == .poll then none
    else some { s with me := { s.me with parks := lset s.me.parks slot { p with ready := true } } }) s

/-! ### Budget (spec/03 R77) -/

/-- An access of core k whose request has left is still to be answered; a poll that fails is not one (spec/07 R189). -/
def State.asked (s : State) (k : Nat) : Bool :=
  (match (s.core k).irrev with | some (.sent _) => true | _ => false) && !s.chan.any (Packet.waitsFor k)

/-- BUD is spent, outside a follower, and no access is out. -/
def State.spent (s : State) : Bool :=
  s.me.ctl.bud == 0 && (s.me.gang.all fun g => g.idx == 0) && s.gangOf.all fun k => !s.asked k

/-- Polls that wait at their homes are withdrawn with the open segment. -/
def execBudgetExhausted (core : Nat) (s : State) : Out := coreEvent core (fun s =>
  let c := s.me
  let ms := s.gangOf
  if c.running && s.spent && c.report.isNone && c.halted.isNone &&
      (ms.all fun k => (s.core k).closing.isEmpty && (s.core k).reads.isEmpty) then
    let s := { s with chan := s.chan.filter fun p => !(ms.any fun k => p.waitsFor k) }
    some (s.takeBack 0 ⟨0x401, 2, c.pc, ofNat (bits c.entry 31 0), 0, 0, c.clk, s.gt⟩)
  else none) s

/-! ### Reports (spec/11 R279, R286) -/

def execTrapHandlerDispatch (core : Nat) (s : State) : Out := coreEvent core (fun s =>
  if s.me.report.isSome then some s.settle else none) s

def execTrapRingResume (core : Nat) (s : State) : Out := coreEvent core (fun s =>
  let s := (s.flush (clusterOf s.cur)).drainTraces
  some (if s.me.report.isSome && s.me.wait == some .ring then s.settle else s)) s

/-! ### Streams (spec/14 R307, R308, R310) -/

/-- Elements or strips that the unit buffers. -/
def Stream.room (t : Stream) : Nat := if t.isV then 4 else 32

/-- The bytes of one element, or the address and kind of an error with whether it lies in committed data. The unit reads own lines as the
core does; those of another package are free (log 64), and a sector that has another tag is one that it cannot read (spec/17 R349). -/
def State.streamByte (s : State) (t : Stream) (a : Nat) : Except (W64 × W64 × Bool) Nat :=
  match t.hdl with
  | none => if (linesOf a t.esz).any s.me.poison.contains then .error (ofNat (64 * (a / 64)), 0, s.me.poisonKills (a / 64)) else .ok (Mem.nat s.me.mem a t.esz)
  | some _ =>
    if t.far then .ok (natOf (s.farBytes a t.esz))
    else if s.physBad a t.esz then .error (ofNat a, 2, true)
    else if a < hostBit ∧ s.tagAt a ≠ t.tag then .error (ofNat a, 2, false)
    else .ok (natOf (s.physBytes a t.esz))

/-- Elements that an s stream extends. -/
def Stream.extend (t : Stream) (x : Nat) : Nat := if t.sgn then (BitVec.ofInt 64 (sext x (8 * t.esz))).toNat else x

/-- The first elements that the unit has not buffered. -/
def Stream.ahead (t : Stream) : List Nat := (List.range t.unit).map fun j => t.addr ((t.pos + t.buf.length) * t.unit + j)

/-- The next element or strip of an input stream. -/
def State.nextElement (s : State) (t : Stream) : Except (W64 × W64 × Bool) Line :=
  t.ahead.zipIdx.foldl (fun r x => match r with
    | .error x => .error x
    | .ok l => (s.streamByte t x.1).map fun y =>
      if t.isV then mergeLine l (lineAt (x.2 * t.esz) t.esz y) (byteMask (x.2 * t.esz) t.esz) else BitVec.ofNat 512 (t.extend y)) (.ok 0)

/-- Own lines are claimed, sectors are read, before the unit takes their bytes (spec/07 R162, spec/17 R348). -/
def State.streamReads (s : State) (t : Stream) : State :=
  let ctx := s.me.act.ctx.toNat
  let units := (nunion [] (t.ahead.flatMap fun a => linesOf a t.esz)).length
  match t.hdl with
  | none => ({ s with me := t.ahead.foldl (fun c a => c.claimAll c.act.ctx a t.esz) s.me } : State).charge ctx 2 units
  | some _ =>
    if t.far then s
    else
      let s := t.ahead.foldl (fun s a => s.readSectors a t.esz (some t.tag)) s
      if hostBit ≤ t.lo then s else s.charge ctx 9 units

def execStreamFill (core code : Nat) (s : State) : Out := engineEvent core (fun s =>
  match s.me.stream? code with
  | none => none
  | some t =>
    if !s.me.locked t then (if s.lockFree then some (s.lockStream t) else none)
    else if t.out || t.revoked || decide (t.count ≤ t.pos + t.buf.length) || decide (t.room ≤ t.buf.length) then none
    else
      let s := s.streamReads t
      match s.nextElement t with
      | .ok x => some { s with me := s.me.setStream { t with buf := t.buf ++ [x] } }
      | .error (a, k, kill) => some (s.uncorrectable a k kill)) s

/-! ### Local time of an idle core (spec/10 R257, R258) -/

/-- No activation runs or is parked, nothing is uncommitted, and the mailbox offers nothing. -/
def State.ltIdle (s : State) : Bool :=
  let c := s.me
  let l := s.lease (rowId s.cur)
  c.lt.en && !c.running && c.parks.isEmpty && c.frame.isNone && c.closing.isEmpty && c.halted.isNone && !c.stopped &&
    (c.offerLT fun m => msgCtx m == l.ctx && msgLnch m == l.cur).isNone

/-- The lowest bound of the input slots. -/
def LocalTime.minBound (lt : LocalTime) : Option Nat := (lt.ins.map fun x => x.2.b.toNat).min?

/-- The lowest pending stamp. -/
def Core.minEvent (c : Core) : Option Nat := ((c.mailbox.filter MailItem.stamped).map fun i => (stampOf i.msg).toNat).min?

def execIdleAdvance (core : Nat) (s : State) : Out := coreEvent core (fun s =>
  if !s.ltIdle then none
  else match s.me.minEvent, s.me.lt.minBound with
    | none, none => none
    | some t, none => some (s.raiseA (ofNat t))
    | none, some m => some (s.raiseA (ofNat m))
    | some t, some m => some (s.raiseA (ofNat (min t m)))) s

def execIdleDripPeriod (core : Nat) (s : State) : Out := coreEvent core (fun s =>
  if s.ltIdle && s.me.lt.dper != 0 then some s.dripAll else none) s

end Sys2Proof.Machine
end

