-- ==== Sys2Proof/Machine/Strike.lean ====
section
/-! DEFINITION. Strikes and their reports, the restart of engine operations, the scrubber (spec/15 R335 to R337,
spec/17 R354, R355). -/

namespace Sys2Proof.Machine

/-! ### Strikes (spec/15 R335) -/

/-- The cores of a strike region: a row; none where the region is the hub. -/
def regionCores (cluster region : Nat) : List Nat := if region < 8 then rowCores (8 * cluster + region) else []

def execStrike (cluster region : Nat) (s : State) : Out :=
  if cluster < Config.nClusters ∧ region < 9 then
    let at_ := (regionCores cluster region).map fun k => (k, (s.focus k).caughtUp.me.clk)
    .next { s with strikes := s.strikes ++ [(cluster, region, at_)] }
  else .fault .noSuchUnit

/-! ### The point that a report goes back to (spec/15 R336) -/

/-- Register checkpoints that a report may go back to, oldest first. -/
def Core.points (c : Core) : List Ckpt := c.past ++ [c.confirmed] ++ c.closing.map (·.ckpt)

/-- How many checkpoints are newer than the newest one taken no later than W ago; all of them where none is as old. -/
def Core.depth (c : Core) : Nat :=
  let old := c.points.filter fun k => decide (k.takenAt + Config.W ≤ c.clk)
  c.points.length - max 1 old.length

/-- A segment that held nothing, committed within the window. -/
def emptySeg (id : Nat) (k : Ckpt) : Seg :=
  ⟨SegData.new id, .phase, k.pc, k, k.takenAt, k.closed.bud, k.closed.no, [], [], .nothing⟩

/-- What of the engine operations and TRACE records of a committed segment stands when a report goes back across it (spec/05 R149, spec/15
R337). -/
def Core.repeats (c : Core) (x : Closed) : List Repeat :=
  ((c.ops.filter fun o => o.seg == x.seg).map fun o => ⟨some o.ord, none⟩) ++ List.replicate x.traces ⟨none, none⟩

/-- The core in focus goes back n checkpoints, across segments without effects that have committed. -/
def State.backPast (s : State) (n : Nat) : State :=
  let c := s.me
  let m := c.closing.length
  if n ≤ m then s.rollBack (m - n) false
  else
    let j := c.past.length - (n - m)
    match c.past[j]? with
    | none => s.rollBack 0 false
    | some k =>
      let gone := c.past.drop (j + 1) ++ [c.confirmed]
      let nos := ((k :: gone).filter (·.running)).map (·.act.no)
      let id := (c.closing.head?.map (·.d.id)).getD c.seg.id
      let c := { c with
        past := c.past.take j, confirmed := k, closing := gone.map (emptySeg id) ++ c.closing
        again := gone.flatMap (fun g => c.repeats g.closed) ++ c.again.map fun x => { x with met := none }
        parks := c.parks.filter fun p => !nos.contains p.saved.act.no }
      ({ s with me := c }).rollBack 0 false

/-- How far a member of a gang can go back in step with the others: to its forming for a follower. -/
def State.memberLimit (s : State) (lead k : Nat) (n : Nat) : Nat :=
  let ps := (s.core k).points
  let formed := (ps.head?.map fun p => p.running && p.act.fresh && p.act.origin == .follower).getD false
  if k ≠ lead ∧ formed then n else min n (ps.length - 1)

/-- The core in focus goes back n checkpoints, with every member of its gang (spec/14 R301, R302). -/
def State.strikeBack (s : State) (n : Nat) : State :=
  if n ≤ s.me.closing.length then s.rollGang n false
  else
    let ms := s.gangOf
    let lead := ms.headD s.cur
    let n := ms.foldl (fun n k => s.memberLimit lead k n) n
    onCores ms (fun s => s.backPast (min n (s.me.points.length - 1))) s

/-- The packet of the irrevocable access in flight. -/
def Body.accessId : Body → Option Nat
  | .request id _ _ | .reply id _ _ => some id
  | _ => none

/-- An irrevocable access in flight is never repeated (spec/03 R76): one that was served gives its result first, one that was
not is withdrawn. -/
def State.endAccess (s : State) : State :=
  match s.me.irrev with
  | some (.sent id) =>
    match s.chan.find? fun p => p.src == s.cur && p.body.accessId == some id with
    | none => s
    | some p =>
      let served := match p.body with
        | .reply .. => some p.body
        | _ => (((aget s.filter (filterKey p)).getD []).find? fun (x : Nat × Body) => x.1 == p.seq).map fun (x : Nat × Body) => x.2
      let s := { s with chan := s.chan.filter fun q => !(q.src == s.cur && q.body.accessId == some id) }
      match served with
      | some (.reply i d r) => s.reply i d r
      | _ => s
  | _ => s

/-- The report at the core in focus. A report of its own that stands is withdrawn with the segment. -/
def State.struckCore (s : State) : State :=
  let s := s.endAccess
  let s := onCores s.gangOf (fun s => { s with me := { s.me with report := none } }) s
  s.strikeBack s.me.depth

/-! ### Engine operations that touch the region (spec/15 R337) -/

/-- The range lock of an operation that is no Pour. -/
def EngKind.lock? : EngKind → Option (Bool × List (Nat × Nat))
  | .pload a w => some (false, [(a, loadBytes w)])
  | .prun a w | .follow a w => some (false, actRanges a (RunCmd.of w))
  | .gsort a _ => some (true, [(a, 1024)])
  | .coll m _ _ => let q := CollDesc.of m; some (q.writes, [(q.buf.toNat, q.len)])
  | _ => none

/-- The operation is unfinished, or took its completion step less than W ago. -/
def Core.restarts (c : Core) (o : EngOp) : Bool :=
  o.inFlight || decide (c.clk < o.doneAt + Config.W)

/-- Both pre-images are of one accumulator row, or of one line. -/
def PreWhat.same : PreWhat → PreWhat → Bool
  | .row r .., .row r' .. => r == r'
  | .line n .., .line n' .. => n == n'
  | _, _ => false

/-- What operation o of the core wrote has been written over since, by something that stands. -/
def Core.covered (c : Core) (o : EngOp) : Bool :=
  c.ring.any fun p => decide (p.core = c.id) && decide (p.seq = o.seq) && c.ring.any fun q => decide (o.ord < q.ord) && q.what.same p.what

/-- The operation can run again from restored outputs on inputs that its locks kept: it is not complete, and nothing newer stands on its
outputs; a PLOAD or a COLL that has finished keeps what it has, which a rerun writes again bit for bit (log 16). -/
def Core.fromStart (c : Core) (o : EngOp) : Bool :=
  (o.pending && !o.redo) || (o.st == .finished && (o.kind.run?.isSome || o.kind.sort?.isSome) && !o.took && !c.covered o)

/-- Operation o of the core starts over: `whole`, from its beginning, on outputs restored; else what it wrote stands, it registers its lock
again and writes the same bits. -/
def Core.restartOp (c : Core) (o : EngOp) (whole : Bool) : Core :=
  if whole then
      let mine := fun (p : PreImage) => decide (p.core = c.id) && decide (p.seq = o.seq) && o.kind != .pswap
      let n := ((c.ring.filter mine).map (·.what.size)).sum
      let c := (c.putBack mine).mapOp o.seq fun p => if p.ord = o.ord then { p with st := .queued, row := 0, flags := 0, failed := false, room := p.room + n } else p
      match o.g0 with
      | some g => { c with grinder := g }
      | none => c
  else if o.redo then c
  else
    let c := c.mapOp o.seq fun p => { p with st := .queued, redo := true }
    match o.kind.lock? with
    | some (dst, rs) =>
      if c.locks.any fun l => decide (l.core = c.id) && decide (l.seq = o.seq) then c else c.addLock ⟨c.id, o.seq, dst, rs⟩
    | none => c

/-- Operations of core k that restart, Pours apart; a COLL only while its round stands. -/
def State.restartsOf (s : State) (k : Nat) : List EngOp :=
  let c := s.core k
  c.ops.filter fun o => c.restarts o && (match o.kind with
    | .pour _ => false
    | .pswap => o.pending
    | .coll m r _ => o.pending || ((s.focus k).round? o.ctx (CollDesc.of m).gid r).isSome
    | _ => true)

/-- The Pour runs again from its beginning: its destinations restored, its locks registered again. -/
def State.restartPour (s : State) (q : Pour) : State :=
  let p := q.desc
  match (s.core q.core).op? q.seq with
  | none => s
  | some o =>
    let ctx := o.ctx.toNat
    let lock := fun (ls : List Lock) (rs : List (Nat × Nat)) =>
      if ls.any fun l => decide (l.core = q.core) && decide (l.seq = q.seq) && l.dst then ls else ls ++ [⟨q.core, q.seq, true, rs⟩]
    let s := (q.landed.map (·.1)).foldl (fun (s : State) r =>
      if r = 8192 then
        let s := q.pre.foldl (fun s x => s.physPut x.1 (lineBytes x.2)) s
        { s with dlocks := lock s.dlocks (shiftRanges (s.hbase ctx p.dst) p.dstRanges) }
      else
        let c := s.core r
        let mine := fun (x : PreImage) => decide (x.core = q.core) && decide (x.seq = q.seq)
        let n := if p.dk = 0 then ((c.ring.filter mine).map (·.what.size)).sum else 0
        let c := (c.putBack mine).mapOp q.seq fun o => if p.dk = 0 then { o with room := o.room + n } else o
        s.setCore r { c with locks := lock c.locks p.dstRanges }) s
    let s := s.mapPour q.core q.seq fun q => { q with
      landed := q.landed.map fun x => (x.1, []), taken := [], again := nunion q.again q.taken, pre := [] }
    onCore q.core (fun s => { s with me := s.me.mapOp q.seq fun o => { o with st := if q.moving then .running else o.st } }) s

/-- A Pour whose record has gone with its completion step. -/
def State.pourAgain (s : State) (k : Nat) (o : EngOp) (m : Msg) : State :=
  let p := PourDesc.of m
  let rs := p.recvs k
  let lock : Lock := ⟨k, o.seq, false, if p.sh then shiftRanges (s.hbase o.ctx.toNat p.src) p.srcRanges else p.srcRanges⟩
  let s := if p.sh then { s with dlocks := s.dlocks ++ [lock] } else s.setCore k ((s.core k).addLock lock)
  { s with pours := s.pours ++ [⟨k, o.seq, clusterOf k, p.ch, m, true, rs.map fun r => (r, [(0, p.total)]), rs, rs, none, false, o.pre⟩] }

/-- Pours of completed operations that touch the region stand in the channels again. -/
def State.reviveAt (s : State) (touch : Nat → List Nat → Bool) : State :=
  s.coreList.foldl (fun s x => x.2.ops.foldl (fun s o => match o.kind with
    | .pour m =>
      if o.st == .complete && x.2.restarts o && !o.failed && touch x.1 ((PourDesc.of m).recvs x.1) then s.pourAgain x.1 o m else s
    | _ => s) s) s

/-- Operations that a report restarts, Pours apart: those at the cores of a row, or those whose combining runs in the hub (spec/24 R446). -/
def State.restartCores (s : State) (ks : List Nat) (p : EngOp → Bool) : State :=
  let hit := ks.flatMap fun k => ((s.restartsOf k).filter p).reverse.map fun o => if o.mates.isEmpty then [(k, o.ord)] else
    o.mates.filterMap fun m => ((s.core m.1).op? m.2).map fun q => (m.1, q.ord)
  hit.eraseDups.foldl (fun s ms =>
    let at_ := fun (m : Nat × Nat) => (s.core m.1).ops.find? fun o => o.ord == m.2
    let whole := ms.all fun m => ((at_ m).map (s.core m.1).fromStart).getD true
    ms.foldl (fun s m => match at_ m with
      | none => s
      | some o => s.setCore m.1 ((s.core m.1).restartOp o whole)) s) s

/-- The restarts that a report brings: operations at the cores of a row, Pours that deliver there; at a hub, its Pours and COLLs. -/
def State.restartRegion (s : State) (cluster region : Nat) : State :=
  let ks := (regionCores cluster region).filter s.cores.contains
  let touch := fun (k : Nat) (rs : List Nat) => if region < 8 then rs.any ks.contains else clusterOf k == cluster
  let s := if region < 8 then s.restartCores ks fun _ => true
    else s.restartCores (s.cores.filter fun k => clusterOf k == cluster) fun o => match o.kind with | .coll .. => true | _ => false
  let s := s.reviveAt touch
  let qs := s.pours.filter fun q => q.abort.isNone && (q.moving || q.taken != []) && touch q.core (q.landed.map (·.1))
  qs.foldl State.restartPour s

/-- A report in the partition of a context that is leaving restarts its settle wait (spec/20 R392). -/
def State.settleAgain (s : State) (cluster : Nat) : State :=
  match s.curCtx cluster with
  | some k => if (s.ctx k).drain.isSome then s.setCtx k { s.ctx k with last9 := s.el9 } else s
  | none => s

def execStrikeReport (k : Nat) (s : State) : Out :=
  match s.strikes[k]? with
  | none => .next s
  | some (cluster, region, _) =>
    let s := { s with strikes := ldel s.strikes k }
    let ks := (regionCores cluster region).filter s.cores.contains
    .next (((onCores ks (fun s => s.caughtUp.struckCore) s).restartRegion cluster region).settleAgain cluster)

/-! ### The scrubber (spec/17 R354, R355) -/

/-- Where an entry's data belongs, with the kind of word 6. -/
def OutEntry.addr : OutEntry → W64 × W64
  | .store (.local _ off) .. => (ofNat (off / 64 * 64), 0)
  | .store (.dev pa) .. => (ofNat (pa / 64 * 64), 2)
  | _ => (0, 0)

/-- An entry of segment g of core k is uncorrectable, in its outbox or staged: the segment rolls back; once it has committed, its context
is killed; where it has gone back already, nothing is lost. -/
def State.entryBad (s : State) (k g : Nat) (ctx : BitVec 8) (a kind : W64) : State :=
  let c := s.core k
  if c.uncommitted.any fun d => d.id == g then
    onCore k (fun s => s.endAccess.takeBack (s.me.closedFrom g) ⟨0x501, 2, s.me.pc, a, kind, 0, s.me.clk, s.gt⟩) s
  else if c.pubs.any fun q => q.d.id == g then s.killOwner k ctx a kind
  else s

/-- What cannot be corrected is poisoned; committed data ends its context, what an uncommitted segment wrote does not. -/
def State.scrubBad (s : State) : ScrubTarget → State
  | .line k n =>
    let c := s.core k
    let s := s.setCore k { (c.setPoison n true) with derived := c.derived.filter (· != n) }
    if c.wroteLine n false then s else s.killOwner k (c.lineOwner n) (ofNat (64 * n)) 0
  | .row k r =>
    let c := s.core k
    let s := s.setCore k { c with
      accPoison := nunion c.accPoison ((List.range 4).map (4 * r + ·)), derived := c.derived.filter fun x => x < 16384 || (x - 16384) / 4 != r }
    if c.rowFresh r then s else s.killOwner k (BitVec.ofNat 8 (((aget c.accOwner r).getD 0).toNat)) (ofNat (256 * r)) 1
  | .sector pa =>
    let s := { s with dpois := nset s.dpois (pa / 64) }
    match s.sectorOwner pa with
    | none => s
    | some x => s.killOwner ((s.ctx x).coreList.headD 0) (BitVec.ofNat 8 x) (ofNat (pa / 64 * 64)) 2
  | .regs k => onCore k (fun s =>
      if s.me.running && s.me.report.isNone then s.endAccess.takeBack 0 ⟨0x501, 2, s.me.pc, 0, 3, 0, s.me.clk, s.gt⟩ else s) s
  | .code k n =>
    -- the address is the line's; word 6 has no code for it, and is free (log 4)
    let (w, s) := s.pick
    let l := s.lease (rowId k)
    if l.st = .free then s else s.killOwner k l.ctx (ofNat (64 * n)) (ofNat w)
  | .shadow x k n =>
    match aget s.images (8192 * x + k) with
    | none => s
    | some c => ({ s with images := aset s.images (8192 * x + k) (c.setPoison n true) }).killOwner k (BitVec.ofNat 8 x) (ofNat (64 * n)) 0
  | .staged j =>
    match s.staged[j]? with
    | none => s
    | some g =>
      let at_ := g.e.addr
      s.entryBad g.src g.seg g.ctx at_.1 at_.2
  | .outbox k i =>
    let c := s.core k
    match (c.uncommitted.flatMap fun d => d.out.map fun x => (d.id, x.e))[i]? with
    | none => s
    | some x => let at_ := x.2.addr; s.entryBad k x.1 c.act.ctx at_.1 at_.2

/-- The scrubber reads a sector with upset symbols under its own tag: its decoder decides (spec/17 R348). -/
def State.scrubSector (s : State) (pa : Nat) : State :=
  let t := s.readSectors (pa / 64 * 64) 64 none
  if s.sectorBad (pa / 64) && !t.dpois.contains (pa / 64) then t.scrubBad (.sector pa) else t

/-- Stored symbols of a sector change: what is added to each, by position, joins what was added before (spec/17 R347). -/
def State.upset (s : State) (x : Nat) (flips : List (Nat × Byte)) : State :=
  if !s.ownPa (64 * x) then s
  else
  let es := (flips.filter fun e => decide (e.1 < 80)).foldl (fun l e => aset l e.1 ((aget l e.1).getD 0 ^^^ e.2)) ((aget s.derr x).getD [])
  let es := es.filter fun e => e.2 != 0
  { s with derr := if es.isEmpty then adel s.derr x else aset s.derr x es }

def scrubbable : ScrubTarget → Bool
  | .line k n => decide (k < Config.nCores) && decide (n < 16384)
  | .row k r => decide (k < Config.nCores) && decide (r < 256)
  | .sector pa => devPa pa
  | .regs k => decide (k < Config.nCores)
  | .code k n => decide (k < Config.nCores) && decide (n < 512)
  | .shadow x k n => decide (x < 256) && decide (k < Config.nCores) && decide (n < 16384)
  | .staged _ => true
  | .outbox k _ => decide (k < Config.nCores)

def execScrub (what : ScrubTarget) (err : ScrubFinding) (s : State) : Out :=
  if scrubbable what then
    .next (match err, what with
      | _, .sector pa =>
        if (aget s.derr (pa / 64)).isSome then s.scrubSector pa
        else match err with
        | .clean => s
        | .correctable => { s with corrected := aadd s.corrected (sliceOf pa) 1 }
        | _ => s.scrubBad (.sector pa)
      | .clean, _ => s
      | .correctable, _ => s
      | _, w => s.scrubBad w)
  else .fault .noSuchUnit

end Sys2Proof.Machine
end

