-- ==== Sys2Proof/Machine/HostCmd.lean ====
section
/-! DEFINITION. Commands of the host: contexts, pre-emption, halts, steps, revocation, kills, tags, translations, power
(spec/20 R383 to R404, spec/21 R408 to R410, R422, R423). -/

namespace Sys2Proof.Machine

/-! ### Command channels (spec/21 R408, R409) -/

def State.chan? (s : State) (ch : Nat) : Channel := s.chans.toList.getD ch Channel.reset
def State.setChan (s : State) (ch : Nat) (x : Channel) : State := { s with chans := s.chans.setIfInBounds ch x }
def Channel.w (x : Channel) (i : Nat) : W64 := x.ops.toList.getD i 0

/-- The opcodes of the commands. -/
def commandCodes : List Nat := [1, 2, 3, 4, 5, 6, 7, 8, 9, 10, 0x10, 0x11, 0x12, 0x13, 0x14]

/-- The command of channel ch completes: STATUS, and MSI-X vector 1. -/
def State.complete1 (s : State) (ch code : Nat) : State :=
  (s.setChan ch { s.chan? ch with busy := false, work := false, code := BitVec.ofNat 8 code }).interrupt 1

/-- The command has done its work, and its completion comes later. -/
def State.worked (s : State) (ch : Nat) : State := s.setChan ch { s.chan? ch with code := 0, work := true }

/-- A step of the command with opcode op on channel ch: `f` performs it, or gives a refusal code; none while it waits. -/
def command (ch op : Nat) (f : Channel → State → Option (Except Nat State)) (s : State) : Out :=
  if ch < 4 then
    let x := s.chan? ch
    if x.busy && !x.work && x.opcode.toNat == op then
      match f x s with
      | none => .next s
      | some (.ok s) => .next s
      | some (.error k) => .next (s.complete1 ch k)
    else .next s
  else .fault .noSuchUnit

/-! ### Partitions -/

/-- The cluster is ready, and no part of it has failed (spec/21 R424). -/
def State.clusterReady (s : State) (cl : Nat) : Bool :=
  ((s.ready.toList.getD (cl / 64) 0).getLsbD (cl % 64)) && !((s.fails.toList.getD (cl / 64) 0).getLsbD (cl % 64))

def Ctx.mask (x : Ctx) : W64 × W64 := (x.w 1, x.w 2)

/-- Two masks name a common cluster. -/
def sharesMask (a b : W64 × W64) : Bool := (a.1 &&& b.1) != 0 || (a.2 &&& b.2) != 0

/-- The context in a state that a partition names: code 1 where one in that state shares clusters with another mask, else `none_`. -/
def State.inState (s : State) (p : Ctx → Bool) (mask : W64 × W64) (none_ : Nat) : Except Nat Nat :=
  match s.ctxs.find? fun x => p x.2 && x.2.mask == mask with
  | some x => .ok x.1
  | none => if s.ctxs.any fun x => p x.2 && sharesMask x.2.mask mask then .error 1 else .error none_

/-! ### CONFIG, LOADSH, SPILLSH, FREE (spec/20 R386) -/

/-- A descriptor field that is reserved or inconsistent; SPLOG matters where there is a spill queue (log 62). -/
def State.badDescriptor (s : State) (x : Ctx) : Bool :=
  (bits (x.w 0) 52 52 != 0) || bits (x.w 0) 47 16 != 0 || bits (x.w 9) 63 5 != 0 || bits (x.w 10) 63 5 != 0 || x.w 14 != 0 ||
    x.w 15 != 0 || bits (x.w 3) 11 0 != 0 || !s.ownPa (x.w 3).toNat || bits (x.w 4) 11 0 != 0 || !devPa (x.w 4).toNat ||
    (s.hasSpill (bits (x.w 0) 63 56) && (decide (bits (x.w 9) 4 0 < 4) || decide (20 < bits (x.w 9) 4 0)))

/-- SIZE of the context's trap ring (spec/11 R284), 0 without a ring; none where it lies outside 4 to 16. -/
def State.ringSize (s : State) (ctx : Nat) : Option Nat :=
  match s.trapRing ctx with
  | none => some 0
  | some pa => let n := bits (s.physWord (pa + 24)) 4 0; if 4 ≤ n ∧ n ≤ 16 then some n else none

def execConfig (ch : Nat) (s : State) : Out := command ch 0x01 (fun c s =>
  let k := (c.w 0).toNat
  if k = 0 ∨ 255 < k then some (.error 1)
  else
    let x := s.ctx k
    if x.state ≠ 0 then some (.error 7)
    else if !(x.clusters.all s.clusterReady) then some (.error 10)
    else if s.badDescriptor x then some (.error 1)
    else match s.ringSize k with
      | none => some (.error 1)
      | some n => some (.ok ((s.setCtx k { x.setState 3 with rsize := n, spill := [], drain := none, out := false }).complete1 ch 0))) s

/-- What a core's share of a save area is made of, one after the other (spec/20 R388): local memory, metadata, accumulator rows, context
buffer; the order of the parts is log 23. -/
def saveShare : Nat := 1212416
def accAt : Nat := 1114112
def bufAt : Nat := 1179648

/-- Bytes of the save area: 1.125 MiB and 32 KiB for each core of the partition. -/
def Ctx.saveBytes (x : Ctx) : Nat := saveShare * x.coreList.length

/-- The save area of a context; none where word 8 names no valid range of that length. -/
def State.saveArea (s : State) (k : Nat) : Option Nat := s.hptr k ((s.ctx k).w 8) (s.ctx k).saveBytes

/-- Bytes of physical memory become those of a sparse image. -/
def State.physSplice (s : State) (pa n : Nat) (m : Mem) : State :=
  if hostBit ≤ pa then { s with host := Mem.splice s.host (pa - hostBit) n m } else { s with dram := Mem.splice s.dram pa n m }
def State.physSlice (s : State) (pa n : Nat) : Mem :=
  if hostBit ≤ pa then Mem.slice s.host (pa - hostBit) n else Mem.slice s.dram pa n

/-- Local memory as it is stored: ARRAY bytes, and the raw layout of every structure (spec/07 R174). -/
def Core.stored (c : Core) : Mem :=
  (List.range 16).foldl (fun m b =>
    if (c.bank b).data.isArray then m else (c.rawBank b).foldl (fun m w => Mem.putNat m (65536 * b + 8 * w.1) 8 w.2.toNat) (Mem.clear m (65536 * b) 65536)) c.mem

/-- Sectors that hold poison codewords, in place of the n sectors at pa. -/
def State.setPois (s : State) (pa n : Nat) (l : List Nat) : State :=
  if hostBit ≤ pa then s
  else { s with dpois := nunion (s.dpois.filter fun x => !(decide (pa / 64 ≤ x) && decide (x < pa / 64 + n))) (l.map (pa / 64 + ·)) }

/-- Core j of the partition, the i-th, writes its image to the save area. -/
def State.saveCore (s : State) (k pa i : Nat) (c : Core) : State :=
  let p := pa + saveShare * i
  let free := fun (s : State) (at_ n : Nat) =>
    ({ (s.physPut (p + at_) ((List.range n).map (Config.savedByte s.nchoice))) with nchoice := s.nchoice + 1 } : State)
  let s := (s.physSplice p 1048576 c.stored).physSplice (p + accAt) 65536 c.acc
  let s := (s.setPois p 16384 c.poison).setPois (p + accAt) 1024 c.accPoison
  let s := free (free s 1048576 65536) bufAt 32768
  { s with images := aset s.images (8192 * k + c.id) c }

/-- Words of a structure read again from a stored image, in place of those it holds. -/
def Bank.reread (k : Bank) (b : Nat) (m : Mem) : Bank :=
  let word := fun (j : Nat) => Mem.word m (65536 * b + 8 * j)
  match k.data with
  | .queue h ring lent =>
    let chunk := fun (x : Nat × Nat × List W64) =>
      (x.1, x.2.1, (List.range x.2.2.length).map fun i => Mem.word m (65536 * k.poolb.toNat + 64 * x.1 + 8 * (x.2.1 + i)))
    { k with data := .queue h ((List.range ring.length).map fun i => word ((h + i) % k.words)) (lent.map chunk) }
  | .stack ws => { k with data := .stack ((List.range ws.length).map word) }
  | .map slots => { k with data := .map (slots.map fun x => (x.1, word (2 * x.1), word (2 * x.1 + 1))) }
  | .heap es n => { k with data := .heap (es.zipIdx.map fun x => (word (2 * x.2), word (2 * x.2 + 1), x.1.2.2)) n }
  | .hist _ =>
    let w := k.binWidth / 8
    let at_ := fun (i : Nat) => Mem.nat m (65536 * (b + i % k.span) + w * (i / k.span)) w
    { k with data := .hist (((List.range k.bins).map fun i => (i, at_ i)).filter fun x => x.2 != 0) }
  | _ => k

/-- A core's image with the local memory and the accumulator rows that the save area holds; the rest of an image stands as SPILLSH left it
(log 23). -/
def State.loadCore (s : State) (k pa i : Nat) (c : Core) : Core :=
  let p := pa + saveShare * i
  let x := BitVec.ofNat 8 k
  let m := s.physSlice p 1048576
  let acc := s.physSlice (p + accAt) 65536
  let bad := fun (q n : Nat) => if hostBit ≤ q then []
    else ((nunion s.dpois (s.derr.map (·.1))).filter fun y => decide (q / 64 ≤ y) && decide (y < q / 64 + n) && s.sectorBad y).map (· - q / 64)
  let own := fun (l : List (Nat × BitVec 8)) (ns : List Nat) => ns.foldl (fun l n => if (aget l n) = some x then l else aset l n x) l
  let arr := fun (n : Nat) => (c.bank (n / 1024)).data.isArray
  let msg := fun (b j : Nat) => Mem.msg m (65536 * b + 64 * (j % 1024))
  let c := (List.range 16).foldl (fun c b => c.setBank b ((c.bank b).reread b m)) c
  { c with
    mem := m.filter fun y => arr (y.1 / 64), owner := own c.owner (nunion [] (m.map fun y => y.1 / 64)), poison := bad p 16384
    acc := acc, accOwner := own c.accOwner (nunion [] (acc.map fun y => y.1 / 256)), accPoison := bad (p + accAt) 1024
    deque := c.deque.zipIdx.map fun y => { y.1 with msg := msg 14 (c.dqTop + y.2) }
    mailbox := if c.lt.en then
        let ms := c.mailbox.map (·.msg)
        let at_ := fun (j : Nat) => ((mailSlots (ms.flatMap (·.toList)) ms (List.range 1024))[j]?).map (·.1)
        c.mailbox.zipIdx.map fun y => { y.1 with msg := ((at_ y.2).map (msg 15)).getD y.1.msg }
      else c.mailbox.zipIdx.map fun y => { y.1 with msg := msgOf ((List.range 8).map fun i => Mem.word m (65536 * 15 + 8 * ((c.mbHead + 8 * y.2 + i) % 8192))) } }

/-- The image is written to the save area of the context. -/
def State.writeSave (s : State) (k pa : Nat) : State :=
  (s.ctx k).coreList.zipIdx.foldl (fun s y => s.saveCore k pa y.2 ((aget s.images (8192 * k + y.1)).getD { Core.reset with id := y.1 })) s

/-- The save area is copied into the shadow store, sector by sector. -/
def State.readSave (s : State) (k pa : Nat) : State :=
  let n := (s.ctx k).saveBytes
  let s := if hostBit ≤ pa then s
    else (s.derr.filter fun e => decide (pa / 64 ≤ e.1) && decide (64 * e.1 < pa + n)).foldl (fun (s : State) e => s.readSectors (64 * e.1) 64 none) s
  { s with images := (s.ctx k).coreList.zipIdx.foldl (fun l y =>
      aset l (8192 * k + y.1) (s.loadCore k pa y.2 ((aget s.images (8192 * k + y.1)).getD { Core.reset with id := y.1 }))) s.images }

/-- The DRAM of the die is ready, and its power is on (spec/21 R422, R424). -/
def State.dramReady (s : State) (die : Nat) : Bool := (s.ready.toList.getD 2 0).getLsbD (2 + die) && s.power.toList.getD die 0 != 3

/-- A part of n bytes of device memory at pa lies in a die whose DRAM is not ready; host memory needs none. -/
def State.dramDark (s : State) (pa n : Nat) : Bool :=
  decide (pa < hostBit) && (List.range 4).any fun d => !s.dramReady d && decide (pa % 2 ^ 39 < (d + 1) * 2 ^ 37) && decide (d * 2 ^ 37 < pa % 2 ^ 39 + n)

/-- Without a valid save area LOADSH and SPILLSH are refused with code 1, an inconsistent field (log 23). -/
def execLoadsh (ch : Nat) (s : State) : Out := command ch 0x02 (fun c s =>
  let k := (c.w 0).toNat
  let x := s.ctx k
  if x.mask ≠ (c.w 1, c.w 2) then some (.error 1)
  else if x.state ≠ 3 then some (.error 7)
  else if s.ctxs.any fun y => y.2.state == 2 && sharesMask y.2.mask x.mask then some (.error 2)
  else if !(x.clusters.all s.clusterReady) then some (.error 10)
  else match s.saveArea k with
    | none => some (.error 1)
    | some pa => if s.dramDark pa x.saveBytes then some (.error 10) else some (.ok (((s.readSave k pa).setCtx k (x.setState 2)).worked ch))) s

def execSpillsh (ch : Nat) (s : State) : Out := command ch 0x03 (fun c s =>
  match s.inState (fun x => x.state == 2 && x.drain.isNone) (c.w 0, c.w 1) 2 with
  | .error k => some (.error k)
  | .ok k => match s.saveArea k with
    | none => some (.error 1)
    | some pa => if s.dramDark pa (s.ctx k).saveBytes then some (.error 10) else some (.ok (((s.writeSave k pa).setCtx k ((s.ctx k).setState 3)).worked ch))) s

def execFree (ch : Nat) (s : State) : Out := command ch 0x0A (fun c s =>
  let k := (c.w 0).toNat
  let x := s.ctx k
  if (x.state = 3 ∨ x.state = 5) ∧ x.drain.isNone then
    let s := s.setCtx k { x.setState 0 with spill := [], tstop := false }
    some (.ok ({ s with
      images := s.images.filter fun p => p.1 / 8192 != k
      leases0 := s.leases0.filter fun p => p.1 / 1024 != k
      rounds := s.rounds.filter fun r => r.ctx.toNat != k }.complete1 ch 0))
  else some (.error 7)) s

/-! ### SWAP (spec/20 R387 to R390) -/

/-- A core of the partition is halted. -/
def State.haltedMask (s : State) (mask : W64 × W64) : Bool :=
  s.ctxs.any fun x => x.2.mask == mask && x.2.here && s.haltedCtx x.1

/-- The context that comes in must have a ring of a valid size, and not both record and replay. -/
def State.entryOk (s : State) (k : Nat) : Bool := (s.ringSize k).isSome && !((s.ctx k).recording && (s.ctx k).rpl)

/-- The context waits for its exchange on channel ch, or with ch + 4 to enter a partition where none runs. -/
def Ctx.switching (x : Ctx) (ch : Nat) (out : Bool) : Ctx := { x.setState 4 with drain := some ch, out := out }

/-- The rows of a context that hold a launch are reloaded while the context enters (spec/20 R388). -/
def State.startReload (s : State) (k : Nat) : State :=
  let rows := (s.leases0.filter fun p => p.1 / 1024 == k && p.2.st != .free).map fun p => p.1 % 1024
  { s with reload := nunion s.reload rows }

/-- The SWAP of channel ch is in progress: SWAP_ENTER completes it. -/
def State.swapping (s : State) (ch : Nat) : Bool := s.ctxs.any fun x => x.2.drain == some ch || x.2.drain == some (ch + 4)

def execSwap (ch : Nat) (s : State) : Out := command ch 0x04 (fun c s =>
  let mask := (c.w 0, c.w 1)
  if s.swapping ch then none
  else if s.ctxs.any fun x => x.2.drain.isSome && sharesMask x.2.mask mask then some (.error 4)
  else if s.haltedMask mask then some (.error 3)
  else match s.inState (fun x => x.state == 2) mask 2 with
    | .error k => some (.error k)
    | .ok j =>
      if !s.entryOk j then some (.error 1)
      else match s.ctxs.find? fun x => x.2.state == 1 && sharesMask x.2.mask mask with
        | none => some (.ok ((s.setCtx j ((s.ctx j).switching (ch + 4) true)).startReload j))
        | some x => if x.2.mask ≠ mask then some (.error 1) else some (.ok (s.setCtx x.1 (x.2.switching ch false)))) s

/-- Nothing of core k is left to settle (step 3). -/
def Core.settledOut (c : Core) : Bool :=
  !c.running && c.closing.isEmpty && c.pubs.isEmpty && c.report.isNone && c.gang.isNone && c.seg.undo.isEmpty && c.seg.out.isEmpty &&
    c.reads.isEmpty && c.pend.isEmpty && c.halted.isNone && c.frame.all fun f => f.choice.isSome

/-- The core as a context takes it away (spec/20 R388): lines and rows of other owners are zeros. -/
def Core.image (c : Core) (x : BitVec 8) : Core :=
  let mine := fun (n : Nat) => c.lineOwner n == x
  let row := fun (r : Nat) => (aget c.accOwner r).getD 0 == x
  let c := (List.range 16).foldl (fun c b => c.claimBank x b) c
  { c with
    mem := c.mem.filter fun p => mine (p.1 / 64), owner := c.owner.filter fun p => p.2 == x, poison := c.poison.filter mine
    acc := c.acc.filter fun p => row (p.1 / 256), accOwner := c.accOwner.filter fun p => p.2 == x
    accPoison := c.accPoison.filter fun q => row (q / 4), locks := c.locks.filter (fun l => !(decide (2 ^ 64 ≤ l.seq))), tlb := [], rcache := [], past := [] }

/-- A core without a context: what stays with the hardware. -/
def Core.blank (c : Core) : Core :=
  { Core.reset with
    id := c.id, clk := c.clk, at9 := c.at9, nact := c.nact, nord := c.nord, nund := c.nund, seg := c.seg, fenced := c.fenced
    imem := c.imem, handlers := c.handlers, stopped := c.stopped }

/-- The image of a context enters a core. -/
def Core.enter (c i : Core) : Core :=
  let c := { i with
    id := c.id, clk := c.clk, at9 := c.at9, nact := c.nact, nord := c.nord, nund := c.nund, seg := c.seg, fenced := c.fenced
    imem := c.imem, handlers := c.handlers, loaded := false, stopped := c.stopped, halted := none, steps := none }
  { c with confirmed := c.checkpoint, past := [] }

/-- The locks of bindings end with the pre-emption (spec/14 R311); the entry registers them again. -/
def Lock.ofStream (l : Lock) : Bool := decide (2 ^ 64 ≤ l.seq)

/-- Slice locks stay registered while their context is out, under numbers of its own (spec/20 R389). -/
def outKey (ctx : Nat) : Nat := 2 ^ 20 * ctx

/-- The context leaves its partition: engines stop, its cores and lease words are taken away, the exchange begins. -/
def State.takeOut (s : State) (k : Nat) : State :=
  let x := s.ctx k
  let s := onCores x.coreList State.catchUp s
  let ks := s.cores.filter fun c => x.hasCluster (clusterOf c)
  let s := onCores ks State.stopEngines s
  let s := ks.foldl (fun (s : State) c =>
    let s := { s with images := aset s.images (8192 * k + c) ((s.core c).image (BitVec.ofNat 8 k)) }
    s.setCore c (s.core c).blank) s
  let mine := fun (p : Nat × Lease) => p.2.ctx.toNat == k
  let gone := s.pours.filter fun q => ks.contains q.core
  { s with
    pours := s.pours.filter fun q => !ks.contains q.core
    pours0 := s.pours0 ++ gone.map fun (q : Pour) => (k, { q with saved := true })
    dlocks := (s.dlocks.filter fun l => !(ks.contains l.core && l.ofStream)).map fun (l : Lock) =>
      if ks.contains l.core then { l with core := l.core + outKey k } else l
    leases0 := (s.leases.filter mine).foldl (fun l (p : Nat × Lease) => aset l (1024 * k + p.1) p.2) s.leases0
    leases := s.leases.filter fun p => !mine p }

/-- The shadow context that a switch of this partition brings in. -/
def State.comingIn (s : State) (mask : W64 × W64) (not : Nat) : Option Nat :=
  (s.ctxs.find? fun x => x.2.state == 2 && x.2.mask == mask && x.1 != not).map (·.1)

/-- 128-byte exchanges of the shadow shares of a partition. -/
def exchanges (x : Ctx) : Nat := 9216 * 64 * x.clusters.length

def execSwapSettle (ctx : Nat) (s : State) : Out :=
  let x := s.ctx ctx
  let ks := s.cores.filter fun c => x.hasCluster (clusterOf c)
  let quiet := ks.all (fun k => (s.core k).settledOut) && decide (x.last9 + Config.W * s.slowest x ≤ s.el9)
  if x.drain.isSome && !x.out && (x.state == 5 || quiet) then
    let s := if x.state = 5 then s else (s.takeOut ctx).charge ctx 14 (exchanges x)
    let s := s.setCtx ctx { s.ctx ctx with out := true }
    .next ((s.comingIn x.mask ctx).elim s s.startReload)
  else .next s

/-- Published messages of the spill queue are read from their entries and go to their mailboxes, oldest first (spec/17 R369); an entry that is
uncorrectable ends the context. -/
def State.unspill (s : State) (k : Nat) : State :=
  let s := (s.ctx k).spill.foldl (fun (s : State) e =>
    let s := s.readSectors e.pa 128 none
    let core := (s.physWord (e.pa + 64)).toNat % Config.nCores
    if s.physBad e.pa 128 then s.consume k e.pa 128
    else
      let c := (s.core core).claimBank (BitVec.ofNat 8 k) 15
      (s.setCore core c).deliverMail core (s.physMsg e.pa) e.migr) s
  s.setCtx k { s.ctx k with spill := [] }

/-- A core of the entering context repeats its drips (spec/10 R265). -/
def State.redrip (s : State) : State :=
  s.me.lt.outs.foldl (fun s x => s.sendDrip x.2.peer x.2.look x.2.d) s

/-- Pours of the entering context that were aborted while it was out take their completion steps first (spec/20 R392). -/
def State.endAborted (s : State) (ks : List Nat) : State :=
  (s.pours.filter fun q => q.abort.isSome && ks.contains q.core).foldl (fun s q =>
    let s := (q.landed.map (·.1)).foldl (fun (s : State) r => (s.receiverStep q r).getD s) s
    onCore q.core (fun s => match s.me.op? q.seq with | some o => s.completePour o | none => s) s) s

/-- The context enters its partition and runs (step 6). -/
def State.bringIn (s : State) (k : Nat) : State :=
  let x := s.ctx k
  let imgs := s.images.filter fun p => p.1 / 8192 == k
  let s := imgs.foldl (fun (s : State) p => s.setCore (p.1 % 8192) ((s.core (p.1 % 8192)).enter p.2)) s
  let back := s.leases0.filter fun p => p.1 / 1024 == k
  let s := { s with
    images := s.images.filter fun p => p.1 / 8192 != k
    pours := s.pours ++ (s.pours0.filter fun (p : Nat × Pour) => p.1 == k).map fun (p : Nat × Pour) => ({ p.2 with saved := false } : Pour)
    pours0 := s.pours0.filter fun (p : Nat × Pour) => p.1 != k
    dlocks := s.dlocks.map fun (l : Lock) => if l.core / 2 ^ 20 = k then { l with core := l.core - outKey k } else l
    leases := back.foldl (fun l (p : Nat × Lease) => aset l (p.1 % 1024) p.2) s.leases
    leases0 := s.leases0.filter fun p => p.1 / 1024 != k }
  let s := s.setCtx k { x.setState 1 with rsize := (s.ringSize k).getD x.rsize, drain := none, out := false, since9 := s.el9 }
  let ks := imgs.map fun p => p.1 % 8192
  let s := (onCores ks State.relockStreams s).endAborted ks
  (onCores ks State.redrip s).unspill k

def execSwapEnter (ctx : Nat) (s : State) : Out :=
  let x := s.ctx ctx
  match x.drain with
  | none => .next s
  | some ch =>
    if !x.out then .next s
    else
      let gone := s.setCtx ctx { (if x.state = 5 then x else x.setState 2) with drain := none, out := false }
      let s := if ch < 4 then (s.comingIn x.mask ctx).elim gone gone.bringIn else if x.state = 5 then gone else s.bringIn ctx
      .next (s.complete1 (ch % 4) 0)

/-- A row of an entering context holds its image again (spec/20 R388). -/
def execRowReloadDone (cluster row : Nat) (s : State) : Out :=
  if cluster < Config.nClusters ∧ row < 8 then
    let r := 8 * cluster + row
    let l := s.lease r
    if s.reload.contains r ∧ (s.ctx l.ctx.toNat).state = 1 then
      let s := { s with reload := s.reload.filter (· != r) }
      match (s.launch? l.ctx l.cur).bind fun x => s.hread l.ctx.toNat (x.record.toList.getD 4 0) 0 49152 false with
      | none => .next s
      | some pa => .next ((rowCores r).foldl (fun s k => s.loadCode pa k) s)
    else .next s
  else .fault .noSuchUnit

/-! ### HALT, RESUME, STEP (spec/20 R393 to R396) -/

/-- The context that runs in a partition. -/
def State.runningIn (s : State) (mask : W64 × W64) : Except Nat Nat := s.inState (fun x => x.here) mask 5

/-- An exchange is in progress in the partition. -/
def State.exchanging (s : State) (mask : W64 × W64) : Bool :=
  s.ctxs.any fun x => x.2.drain.isSome && x.2.out && sharesMask x.2.mask mask

def execHalt (ch : Nat) (s : State) : Out := command ch 0x05 (fun c s =>
  if s.exchanging (c.w 0, c.w 1) then none
  else match s.runningIn (c.w 0, c.w 1) with
    | .error k => some (.error k)
    | .ok k =>
      let s := s.haltAll k 8192 .halt
      some (.ok ({ s with haltBufs := aset s.haltBufs k (c.w 2) }.complete1 ch 0))) s

/-- A core issues again; the head before which a breakpoint stopped it issues without a match (log 44). A register with LEN stopped it
after its match. -/
def Core.unhalt (c : Core) : Core :=
  { c with
    halted := none, steps := none
    passing := match c.halted with | some (.breakpoint _ false) | some .bkpt => if c.running && c.pc == c.haltPc then c.halted else none | _ => none }

/-- Drips that the halt kept back leave (spec/10 R265). -/
def State.payDrips (s : State) : State :=
  let s' := s.me.owed.foldl (fun s x => s.send x.1 (.drip s.me.act.ctx x.2.1 x.2.2)) s
  { s' with me := { s'.me with owed := [] } }

def execResume (ch : Nat) (s : State) : Out := command ch 0x06 (fun c s =>
  match s.runningIn (c.w 0, c.w 1) with
  | .error k => some (.error k)
  | .ok k =>
    let x := s.ctx k
    let diverged := s.coreList.any fun p => x.hasCluster (clusterOf p.1) && p.2.halted == some .diverge
    if x.rpl && (x.recording || diverged) then some (.error 1)
    else
      let f := fun (j : Nat) (c : Core) => if x.hasCluster (clusterOf j) then c.unhalt else c
      let s : State := { s with me := f s.cur s.me, others := s.others.map fun (p : Nat × Core) => (p.1, f p.1 p.2) }
      let ks := s.cores.filter fun j => x.hasCluster (clusterOf j) && (s.core j).halted.isNone && !(s.core j).owed.isEmpty
      some (.ok ((onCores ks State.payDrips s).complete1 ch 0))) s

def execStep (ch : Nat) (s : State) : Out := command ch 0x07 (fun c s =>
  match s.runningIn (c.w 0, c.w 1) with
  | .error k => some (.error k)
  | .ok k =>
    let j := (c.w 2).toNat
    let n := (c.w 3).toNat
    if Config.nCores ≤ j ∨ !(s.ctx k).hasCluster (clusterOf j) ∨ n = 0 ∨ 65535 < n then some (.error 1)
    else
      let t := s.core j
      if t.halted.isNone then some (.error 5)
      else if t.gang.any fun g => g.idx != 0 then some (.error 1)
      else some (.ok ((s.setCore j { t with steps := some n, passing := t.unhalt.passing }).complete1 ch 0))) s

def execStepDone (core : Nat) (s : State) : Out := coreEvent core (fun s =>
  let c := s.me
  match c.steps with
  | none => none
  | some n =>
    if n = 0 ∨ !c.running then some { s with me := { (c.halt .stepDone) with passing := none } }
    else none) s

/-! ### Halt records (spec/20 R394) -/

def Why.code : Why → Nat
  | .halt => 1
  | .breakpoint .. => 2
  | .bkpt => 3
  | .diverge => 4
  | .stepDone => 5

/-- KIND and PROG of an operation. -/
def EngOp.haltEntry (c : Core) (o : EngOp) : Option (Nat × Nat) :=
  match o.kind with
  | .pload .. => some (1, 0)
  | .pswap => some (2, 0)
  | .prun .. => some (3, o.row)
  | .ptest => some (4, 0)
  | .gsort .. => some (5, if o.st == .queued then 0 else c.grinder.phase)
  | .coll m _ _ => some (7, if o.st == .finished && (CollDesc.of m).writes then (CollDesc.of m).len else 0)
  | .follow .. => some (8, o.row)
  | .pour _ => none

/-- The entries of a core: operations in flight, then streams. -/
def Core.haltEntries (c : Core) : List (W64 × W64) :=
  let ops := (c.ops.filter (·.inFlight)).filterMap fun o => (o.haltEntry c).map fun k =>
    let st := if o.st == .queued then 0 else if o.st == .running then 1 else 2
    (ofNat (put k.1 60 + put st 48 + k.2), ofNat (o.seq % 2 ^ 64))
  let streams := c.allStreams.map fun t => (ofNat (put 6 60 + put t.code 52 + put 1 48 + t.pos % 2 ^ 48), (0 : W64))
  (ops ++ streams).take 28

/-- The 64 words of a core's record. -/
def Core.haltRecord (c : Core) (ctx core : Nat) : List W64 :=
  let why := c.halted.getD .halt
  let mine := fun (l : List (Nat × Nat)) => ((l.filter fun p => p.1 / 256 == ctx).map (·.2)).sum
  let es := c.haltEntries
  let head := [
    ofNat (put ctx 56 + put core 43 + put c.parks.length 40 + put (if c.running then 1 else 0) 39 +
      put (if c.gang.isSome then 1 else 0) 38 + put ((c.gang.map (·.idx)).getD 0) 35 + why.code),
    if c.running then c.pc else 0, ofNat (if c.halted.isSome then c.haltClk else c.clk), ofNat (mine c.sent), ofNat (mine c.recv), if c.running then c.ctl.tid else 0,
    ofNat es.length, match why with | .breakpoint k _ => ofNat k | _ => 0]
  let ws := head ++ es.flatMap fun e => [e.1, e.2]
  ws ++ List.replicate (64 - ws.length) 0

/-- The record of a hub: the Pours in its channels. -/
def State.hubRecord (s : State) (cl : Nat) : List W64 :=
  let qs := (s.pours.filter fun q => q.cluster == cl).take 256
  ofNat qs.length :: List.replicate 7 0 ++ qs.flatMap fun q => [(s.focus q.core).pourStatus q.seq, ofNat q.seq]

def execHaltRecordWrite (core : Nat) (s : State) : Out :=
  if core < Config.nCores then
    match s.curCtx (clusterOf core) with
    | none => .next s
    | some k =>
      let x := s.ctx k
      let c := s.core core
      match aget s.haltBufs k with
      | none => .next s
      | some buf =>
        if s.haltedCtx k && (c.halted.isSome || !c.running) && c.closing.isEmpty then
          let put1 := fun (s : State) (off : Nat) (ws : List W64) => match s.hread k buf off (8 * ws.length) true with
            | none => s
            | some pa => s.physPut pa (wordBytes ws)
          let ks := x.coreList
          let s := put1 s (512 * ks.idxOf core) (c.haltRecord k core)
          let cl := clusterOf core
          .next (if core % 64 = 0 then put1 s (512 * ks.length + 4160 * x.clusters.idxOf cl) (s.hubRecord cl) else s)
        else .next s
  else .fault .noSuchUnit

/-! ### KILL and REVOKE (spec/20 R402, R404) -/

def execKill (ch : Nat) (s : State) : Out := command ch 0x08 (fun c s =>
  let k := (c.w 0).toNat
  if k = 0 ∨ 255 < k then some (.error 1) else some (.ok ((s.killContext k).complete1 ch 0))) s

/-- A stream under handle h is revoked. -/
def revokeStreams (h : Nat) (l : List Stream) : List Stream :=
  l.map fun t => if t.hdl = some h then { t with revoked := true } else t

def Saved.revoke (h : Nat) (v : Saved) : Saved := { v with streams := revokeStreams h v.streams }

/-- Every binding of the core, in its checkpoints too. -/
def Core.revoke (c : Core) (h : Nat) : Core :=
  let k := fun (k : Ckpt) => { k with streams := revokeStreams h k.streams, frame := k.frame.map (Saved.revoke h) }
  { c with
    streams := revokeStreams h c.streams, frame := c.frame.map (Saved.revoke h)
    parks := c.parks.map fun (p : Parked) => { p with saved := p.saved.revoke h }
    confirmed := k c.confirmed, past := c.past.map k
    closing := c.closing.map fun (g : Seg) => { g with ckpt := k g.ckpt }
    reads := c.reads.map fun (r : RRead) => { r with snap := { r.snap with streams := revokeStreams h r.snap.streams } }
    marks := c.marks.map fun (m : Mark) => { m with snap := { m.snap with streams := revokeStreams h m.snap.streams } } }

/-- The Pour reads or writes under handle h of the context. -/
def Pour.under (q : Pour) (h : Nat) : Bool :=
  let p := q.desc
  (p.sh && bits p.src 63 48 == h) || (p.dk == 1 && bits p.dst 63 48 == h)

/-- A Pour of context k, which is out, is aborted at once, with its notice (spec/20 R392). -/
def State.abortSaved (s : State) (k : Nat) (q : Pour) (code : Nat) : State :=
  match (aget s.images (8192 * k + q.core)).bind fun c => c.op? q.seq with
  | none => s
  | some o =>
    let p := q.desc
    let f := fun (c : Core) => { (c.mapOp q.seq fun o => { o with failed := true }) with
      pours := c.pours.map fun x => if x.1 = q.seq then (x.1, x.2.1, some q.landedAll) else x }
    let stop := fun (y : Nat × Pour) =>
      if y.1 = k ∧ y.2.core = q.core ∧ y.2.seq = q.seq then (k, { y.2 with abort := some code }) else y
    let s := { s with
      images := s.images.map fun (x : Nat × Core) => if x.1 = 8192 * k + q.core then (x.1, f x.2) else x
      pours0 := s.pours0.map stop }
    s.notice q.core o.ctx (some o.lnch) 0x405 o.tid 0 (if p.sh then p.src else if p.dk = 1 then p.dst else 0) (ofNat q.seq) (ofNat code)

/-- Records that the context's cores have accepted for the trace ring and not written. -/
def State.tracesHeld (s : State) (ctx : Nat) : Nat :=
  ((s.coreList.filter fun p => (s.ctx ctx).hasCluster (clusterOf p.1)).map fun p =>
    (p.2.uncommitted.map fun d => d.traces.length).sum + p.2.traceOut.length).sum

/-- They are lost: the notice counts them, and no commit counts them again. -/
def Core.loseTraces (c : Core) : Core :=
  { c with
    seg := { c.seg with traces := [] }, closing := c.closing.map fun g => { g with d := { g.d with traces := [] } }, traceOut := [] }

/-- Tracing stops: STOP in the control block, and the TRACELOST notice. No core raises it: it carries the number and the CYC of the lowest core
of the partition, of which R275 says nothing. DESIGN CHOICE, log 66. -/
def State.stopTrace (s : State) (ctx h : Nat) : State :=
  let x := s.ctx ctx
  let n := s.tracesHeld ctx
  let s := match s.hptr ctx (x.w 6) 64 with
    | none => s
    | some pa => s.physPut (pa + 16) (bytesOf ((s.physWord (pa + 16)).toNat ||| 2 ^ 63) 8)
  let s := s.setCtx ctx { x with tstop := true }
  let s := onCores (s.cores.filter fun k => x.hasCluster (clusterOf k)) (fun s => { s with me := s.me.loseTraces }) s
  s.notice (x.coreList.headD 0) (BitVec.ofNat 8 ctx) none 0x603 0 0 (ofNat h) (ofNat n) 0

/-- A launch of the context that holds or waits for a row with the row given to it. -/
def State.holdsRow (s : State) (l : Launch) : Bool :=
  (s.leases ++ s.leases0).any fun p => p.2.ctx == l.ctx && p.2.st != .free && p.2.cur == l.lnch

/-- A launch without a row whose image or task records lie under the handle is refused with code 5. -/
def State.refuseLaunch (s : State) (l : Launch) : State :=
  let s := s.doneBlock l.ctx.toNat (l.record.toList.getD 7 0) (2 ^ 62) 0 0 5
  { s with
    launches := s.launches.filter fun y => !(y.ctx == l.ctx && y.lnch == l.lnch)
    leases := s.leases.map fun p => if p.2.ctx = l.ctx ∨ p.2.st = .free then
        (p.1, { p.2 with
          queue := p.2.queue.filter (· != l.lnch), next := if p.2.ctx = l.ctx ∧ p.2.next = some l.lnch then none else p.2.next }) else p }

/-- Pours of a context in its partition that read or write under handle h. -/
def State.poursAt (s : State) (k h : Nat) : List Pour :=
  s.pours.filter fun q => q.under h && q.abort.isNone && (((s.core q.core).op? q.seq).map (·.ctx.toNat)) == some k

/-- Stores that output streams pushed under handle h of context k and that have not landed: entries that the streams formed carry the
physical address (log 66). -/
def State.pushedUnder (s : State) (k h : Nat) : Bool :=
  let w := s.handleEntry k h
  let base := bits w.2 55 0
  let hit := fun (e : OutEntry) => match e with
    | .store (.dev pa) _ _ _ a => a == ofNat pa && overlaps pa 64 base (bits w.1 47 0)
    | .store (.host pa) _ _ _ a => a == ofNat (pa + hostBit) && overlaps (pa + hostBit) 64 base (bits w.1 47 0)
    | .store (.farDev pa) _ _ _ a => a == ofNat pa && overlaps pa 64 base (bits w.1 47 0)
    | _ => false
  s.staged.any (fun g => g.ctx.toNat == k && hit g.e) || s.coreList.any fun p => (s.ctx k).here && (s.ctx k).hasCluster (clusterOf p.1) &&
    (p.2.uncommitted ++ p.2.pubs.map (·.d)).any fun d => d.out.any fun i => hit i.e

/-- What still lands under handle h of context k: the numbers of its Pours, and 0 where stores of its output streams are on their way (spec/20
R402). -/
def State.poursUnder (s : State) (k h : Nat) : List Nat :=
  (s.poursAt k h).map (·.seq) ++ if s.pushedUnder k h then [0] else []

def underHandle (h : Nat) (w : W64) : Bool := bits w 63 48 == h

def execRevoke (ch : Nat) (s : State) : Out := command ch 0x09 (fun c s =>
  let k := (c.w 0).toNat
  let h := bits (c.w 1) 15 0
  let x := s.ctx k
  let named := [5, 7, 8, 13].any fun i => underHandle h (x.w i)
  let mine := s.launches.filter fun l => l.ctx.toNat == k
  if named || mine.any fun l => underHandle h (l.record.toList.getD 4 0) && s.holdsRow l then some (.error 6)
  else
    let pours := s.poursAt k h
    let saved := (s.pours0.filter fun p => p.1 == k && p.2.under h && p.2.abort.isNone).map (·.2)
    let live := fun (p : Nat × Core) => x.here && x.hasCluster (clusterOf p.1)
    let bound := (s.coreList.any fun p => live p && p.2.allStreams.any fun t => t.hdl == some h) ||
      s.images.any fun p => p.1 / 8192 == k && p.2.allStreams.any fun t => t.hdl == some h
    let trace := underHandle h (x.w 6) && h != 0xFFFF && !x.tstop
    let late := mine.filter fun l => !s.holdsRow l && (underHandle h (l.record.toList.getD 4 0) || underHandle h (l.record.toList.getD 5 0))
    let s := pours.foldl (fun s q => s.abortPour q 4) s
    let s := saved.foldl (fun s q => s.abortSaved k q 4) s
    let f := fun (j : Nat) (c : Core) => if live (j, c) then c.revoke h else c
    let s := { s with
      me := f s.cur s.me, others := s.others.map fun (p : Nat × Core) => (p.1, f p.1 p.2)
      images := s.images.map fun p => if p.1 / 8192 = k then (p.1, p.2.revoke h) else p }
    let s := if trace then s.stopTrace k h else s
    let s := late.foldl State.refuseLaunch s
    let stopped := !pours.isEmpty || !saved.isEmpty || bound || trace || !late.isEmpty
    let pa := (x.w 4).toNat + 16 * h
    let w := (s.physWord pa).toNat % 2 ^ 63
    let s := if h < bits (x.w 0) 15 0 then s.physPut pa (bytesOf (if stopped then w ||| 2 ^ 59 else w) 8) else s
    some (.ok (s.worked ch))) s

/-- The Pours under the handle are aborted and take no further access. -/
def execRevokeDone (ch : Nat) (s : State) : Out :=
  if ch < 4 then
    let x := s.chan? ch
    if x.busy && x.work && x.opcode == 0x09 then
      let h := bits (x.w 1) 15 0
      if (s.poursUnder (x.w 0).toNat h).isEmpty then .next (s.complete1 ch 0) else .next s
    else .next s
  else .fault .noSuchUnit

/-- An opcode that names no command. -/
def execUnknownOpcode (ch : Nat) (s : State) : Out :=
  if ch < 4 then
    let x := s.chan? ch
    if x.busy && !x.work && !commandCodes.contains x.opcode.toNat then .next (s.complete1 ch 9) else .next s
  else .fault .noSuchUnit

/-! ### TAGSET and TLBINV (spec/21 R410) -/

/-- The sector at pa takes the tag: its home decodes it under the old one first. -/
def State.retag (s : State) (pa : Nat) (t : BitVec 4) : State :=
  let s := s.readSectors pa 64 none
  { s with dtag := if t = 0 then adel s.dtag (pa / 64) else aset s.dtag (pa / 64) t }

/-- Each sector takes a step of its own, in rising order. -/
def execTagset (ch : Nat) (s : State) : Out := command ch 0x12 (fun c s =>
  let pa := (c.w 0).toNat
  let n := (c.w 1).toNat
  if pa % 64 ≠ 0 ∨ n % 64 ≠ 0 ∨ 15 < (c.w 2).toNat ∨ !s.ownPa pa ∨ (n ≠ 0 ∧ !s.ownPa (pa + n - 1)) then some (.error 1)
  else if s.dramDark pa n then some (.error 10)
  else
    let t := if 64 * c.pos < n then s.retag (pa + 64 * c.pos) (BitVec.ofNat 4 (c.w 2).toNat) else s
    some (.ok (if 64 * (c.pos + 1) < n then t.setChan ch { t.chan? ch with pos := c.pos + 1 } else t.worked ch))) s

def execTlbinv (ch : Nat) (s : State) : Out := command ch 0x13 (fun c s =>
  let x := s.ctx (c.w 0).toNat
  let f := fun (j : Nat) (c : Core) => if x.here && x.hasCluster (clusterOf j) then { c with tlb := [] } else c
  some (.ok ({ s with
    me := f s.cur s.me
    others := s.others.map fun (p : Nat × Core) => (p.1, f p.1 p.2)
    tables := s.tables.filter fun e => e.ctx.toNat != (c.w 0).toNat }.worked ch))) s

/-! ### POWER (spec/21 R422, R423) -/

/-- Clusters 32 × die to 32 × die + 31. -/
def dieClusters (die : Nat) : List Nat := (List.range 32).map (32 * die + ·)

/-- What a core keeps in PS2: its local memory with the banks. -/
def Core.sleep (c : Core) : Core :=
  { Core.reset with
    id := c.id, mem := c.mem, owner := c.owner, poison := c.poison, banks := c.banks, mailbox := c.mailbox, deque := c.deque
    dqTop := c.dqTop, mbHead := c.mbHead, clk := c.clk, at9 := c.at9, nact := c.nact, nord := c.nord, nund := c.nund, seg := c.seg }

/-- Bits of RDYA, RDYB and RDYC that belong to a die. -/
def dieBits (die i : Nat) : Nat := if i < 2 then (if die / 2 = i then put (2 ^ 32 - 1) (32 * (die % 2)) else 0) else put 1 (2 + die)

/-- The die's functions are not ready any more. -/
def State.unready (s : State) (die : Nat) : State :=
  { s with ready := Vector.ofFn fun (i : Fin 3) => s.ready[i] &&& ~~~ofNat (dieBits die i.val)
           fails := Vector.ofFn fun (i : Fin 3) => s.fails[i] &&& ~~~ofNat (dieBits die i.val) }

/-- A core whose die was off: as at reset. Its counters, which name what it sent and did, go on, so that nothing left of it elsewhere is taken
for what comes later. -/
def Core.dark (c : Core) (at9 : Nat) : Core :=
  { Core.reset with id := c.id, at9 := at9, nact := c.nact, nord := c.nord, nund := c.nund, seg := { Core.reset.seg with id := c.seg.id } }

/-- The die of a node: a core, a slice, a sequencer; host memory and other packages have none. -/
def nodeDie (n : Nat) : Option Nat :=
  if n < 8192 then some (dieOf n) else if n < 8256 then some ((n - 8192) / 16) else if 16386 ≤ n ∧ n < 16390 then some (n - 16386) else none

/-- Nothing of the die is retained in PS3: of its DRAM, its slices and their locks, its hubs, its sequencer with the graph slots, and its ends of
the channels (spec/21 R422). -/
def State.blackout (s : State) (die : Nat) : State :=
  let here := fun (pa : Nat) => decide (pa / 2 ^ 37 % 4 = die)
  let node := fun (n : Nat) => nodeDie n == some die
  let area := fun (p : Nat × Core) => (s.ctx (p.1 / 8192)).state == 3 && (s.saveArea (p.1 / 8192)).any fun pa => decide (pa < hostBit) && here pa
  { s with
    dram := s.dram.filter fun p => !here p.1, dtag := s.dtag.filter fun p => !here (64 * p.1)
    dpois := s.dpois.filter fun x => !here (64 * x), derr := s.derr.filter fun x => !here (64 * x.1)
    dlocks := s.dlocks.filter fun l => !(l.ranges.any fun r => here r.1)
    corrected := s.corrected.filter fun p => p.1 / 16 != die
    chan := s.chan.filter fun p => !(node p.src || node p.dst), staged := s.staged.filter fun g => !(node g.src || node g.dst)
    seqs := s.seqs.filter fun p => !(node (p.1 / 2 ^ 24) || node (p.1 % 2 ^ 24)), filter := s.filter.filter fun p => !(node (p.1 / 2 ^ 24) || node (p.1 % 2 ^ 24))
    notices := s.notices.filter fun p => p.1 / 32 != die, strikes := s.strikes.filter fun x => x.1 / 32 != die
    reload := s.reload.filter fun r => r / 256 != die, pours := s.pours.filter fun q => q.cluster / 32 != die
    launches := s.launches.filter fun l => l.die != die, slots := s.slots.filter fun p => p.1 / 16 != die
    images := s.images.filter fun p => !area p }

/-- The die loses its cores, and all else in PS3. -/
def State.darken (s : State) (die : Nat) (off : Bool) : State :=
  let f := fun (j : Nat) (c : Core) => if dieOf j = die then (if off then { c with id := j }.dark s.el9 else c.sleep) else c
  let s := { s with
    me := f s.cur s.me
    others := s.others.map fun (p : Nat × Core) => (p.1, f p.1 p.2)
    leases := s.leases.filter fun p => p.1 / 256 != die
    tables := s.tables.filter fun e => e.cluster / 32 != die }
  if off then s.blackout die else s

def execPower (ch : Nat) (s : State) : Out := command ch 0x14 (fun c s =>
  let die := (c.w 0).toNat
  let st := (c.w 1).toNat
  if 4 ≤ die ∨ 4 ≤ st then some (.error 8)
  else
    let covers := fun (x : Ctx) => (dieClusters die).any x.hasCluster
    if 2 ≤ st ∧ s.ctxs.any (fun x => (x.2.state == 1 || x.2.state == 2 || x.2.state == 4 || x.2.drain.isSome) && covers x.2) then
      some (.error 8)
    else
      let old := (s.power.toList.getD die 0).toNat
      let s := if old = st then s else if st = 3 then s.darken die true else if st = 2 ∧ old < 2 then s.darken die false else s
      let s := if old = 3 ∧ st ≠ 3 then (s.unready die).interrupt 1 else s
      let s := if old = st then s else { s with ctxs := s.ctxs.map fun x => if covers x.2 then (x.1, { x.2 with last9 := s.el9 }) else x }
      some (.ok ({ s with power := s.power.setIfInBounds die (BitVec.ofNat 2 st) }.worked ch))) s

/-- A command that took time completes; REVOKE has a step of its own. -/
def execCommandCompletion (ch : Nat) (s : State) : Out :=
  if ch < 4 then
    let x := s.chan? ch
    if x.busy && x.work && x.opcode != 0x09 then .next (s.complete1 ch x.code.toNat) else .next s
  else .fault .noSuchUnit

/-! ### The thermal trip (spec/21 R423) -/

def execThermalTrip (s : State) : Out :=
  let s := (s.ctxs.filter fun x => x.2.state != 0).foldl (fun s x => s.killContext x.1) s
  .next ({ s with
    me := { s.me with stopped := true }, others := s.others.map fun (p : Nat × Core) => (p.1, { p.2 with stopped := true })
    trip := true }.interrupt 0)

end Sys2Proof.Machine
end

