-- ==== Sys2Proof/Machine/Graph.lean ====
section
/-! DEFINITION. Command graphs and the records of host rings (spec/21 R413 to R417, R418 to R421). -/

namespace Sys2Proof.Machine

/-! ### Slots (spec/21 R413) -/

def State.slot (s : State) (k : Nat) : Slot := (aget s.slots k).getD Slot.reset
def State.setSlot (s : State) (k : Nat) (x : Slot) : State := { s with slots := aset s.slots k x }

/-- Dies × 16 slots, by number. -/
def slotKey (die slot : Nat) : Nat := 16 * die + slot

/-- The slot stops in error, with MSI-X vector 1. -/
def State.slotError (s : State) (k code : Nat) : State :=
  (s.setSlot k { s.slot k with st := .error, err := BitVec.ofNat 8 code }).interrupt 1

/-- The node at which the slot stands has completed; its successor starts at GRAPH_NODE_DONE. -/
def State.slotDone (s : State) (k succ : Nat) : State := s.setSlot k { s.slot k with done := some succ }

def execGrun (ch : Nat) (s : State) : Out := command ch 0x10 (fun c s =>
  let die := (c.w 0).toNat
  let n := (c.w 1).toNat
  if 4 ≤ die ∨ 16 ≤ n then some (.error 1)
  else
    let k := slotKey die n
    if (s.slot k).st = .running then some (.error 11)
    else if !s.dramReady die then some (.error 10)
    else
      let x : Slot :=
        { st := .running, err := 0, ctx := BitVec.ofNat 8 (c.w 2).toNat, gh := bits (c.w 3) 15 0, node := bits (c.w 4) 47 0
          iter := 0, cur := none, done := none, since := s.gt, sub := false }
      some (.ok ((s.setSlot k x).complete1 ch 0))) s

def execGstop (ch : Nat) (s : State) : Out := command ch 0x11 (fun c s =>
  let die := (c.w 0).toNat
  let n := (c.w 1).toNat
  if 4 ≤ die ∨ 16 ≤ n then some (.error 1)
  else
    let k := slotKey die n
    some (.ok ((if (s.slot k).st = .running then s.slotError k 5 else s).complete1 ch 0))) s

/-! ### Nodes (spec/21 R414) -/

def Msg.w (m : Msg) (i : Nat) : W64 := m.toList.getD i 0

def nodeNext (m : Msg) : Nat := bits (m.w 0) 47 0

/-- Words 1 to 7 from i on are zero. -/
def unused (m : Msg) (i : Nat) : Bool := (m.toList.drop i).all (· == 0)

/-- The condition of WAIT and COND. -/
def nodeCond (m : Msg) : Option Cond := Cond.ofCode (BitVec.ofNat 6 (bits (m.w 3) 2 0))

/-- Error 1: a reserved code, or a bit that must be zero. -/
def badNode (m : Msg) : Bool :=
  bits (m.w 0) 59 48 != 0 || (match bits (m.w 0) 63 60 with
    | 1 => bits (m.w 2) 63 1 != 0 || !unused m 3
    | 2 => bits (m.w 3) 63 40 != 0 || bits (m.w 3) 5 0 != 0 || !unused m 5
    | 3 => bits (m.w 3) 63 5 != 0 || (nodeCond m).isNone || bits (m.w 5) 63 48 != 0 || !unused m 6
    | 4 => ((m.w 3).toNat &&& (put (2 ^ 32 - 1) 32 + put 0x7F 9 + put 7 5 + 8)) != 0 || (nodeCond m).isNone ||
        bits (m.w 4) 63 48 != 0 || !unused m 6
    | 5 => bits (m.w 1) 63 6 != 0 || !unused m 4
    | 6 => ((m.w 3).toNat &&& (2 ^ 64 - 1 - 17)) != 0 || !unused m 4
    | 7 => bits (m.w 1) 63 1 != 0 || bits (m.w 2) 63 6 != 0 || !unused m 3
    | _ => true)

/-- The decoder reads n bytes under a handle's tag (spec/17 R348, R349). -/
def State.nodeSectors (s : State) (ctx : Nat) (w : W64) (n : Nat) : State :=
  (s.hread ctx w 0 n false).elim (s.consume ctx (((s.ctx ctx).w 4).toNat + 16 * bits w 63 48) 16) fun pa => s.readHandle ctx w pa n

/-- n bytes at pa cannot be taken under a handle: one is uncorrectable, or a sector's tag differs (spec/17 R349, R354). The sequencer has
no code for such data but 2, that of the handle: DEDUCED, log 24. -/
def State.nodeBad (s : State) (ctx : Nat) (w : W64) (pa n : Nat) (write : Bool) : Bool :=
  (!write && s.physBad pa n) || (s.ownPa pa && !s.tagsOk ctx w pa n)

/-- Where a slot's node lies, in the words of a node. -/
def Slot.addr (x : Slot) : W64 := ofNat (put x.gh 48 + x.node)

/-- The decoder reads the node that a slot has just reached. -/
def State.atNode (s : State) (x : Slot) : State := if x.cur.isSome then s else s.nodeSectors x.ctx.toNat x.addr 64

/-- The node at which a slot stands: read whole when it is reached. -/
def State.nodeOf (s : State) (x : Slot) : Except Nat Msg :=
  match x.cur with
  | some m => .ok m
  | none =>
    if x.node % 64 ≠ 0 then .error 1
    else match s.hread x.ctx.toNat x.addr 0 64 false with
      | none => .error 2
      | some pa => if s.nodeBad x.ctx.toNat x.addr pa 64 false then .error 2 else .ok (s.physMsg pa)

/-- What a node does: it goes on, it waits, or it stops the slot with an error. -/
abbrev NodeRes (α : Type) := Except (Option Nat) α

/-- A node of type `ty` at a running slot. -/
def nodeEvent (die slot ty : Nat) (f : Nat → Slot → Msg → State → NodeRes State) (s : State) : Out :=
  if die < 4 ∧ slot < 16 then
    let k := slotKey die slot
    let x := s.slot k
    if x.st ≠ .running ∨ x.done.isSome then .next s
    else
      let s := s.atNode x
      match s.nodeOf x with
      | .error e => .next (s.slotError k e)
      | .ok m =>
        if badNode m then .next (s.slotError k 1)
        else if bits (m.w 0) 63 60 ≠ ty then .next s
        else
          let x := { x with cur := some m }
          let s := s.setSlot k x
          match f k x m s with
          | .ok s => .next s
          | .error none => .next s
          | .error (some e) => .next (s.slotError k e)
  else .fault .noSuchUnit

/-- Where a word of a node lies. -/
def State.nodeHome (s : State) (ctx : Nat) (w : W64) (win write : Bool) (n : Nat) : NodeRes Home :=
  if win then
    let core := winCore w
    if bits w 63 60 ≠ 0 ∨ bits w 55 48 ≠ 0xFE ∨ bits w 26 20 ≠ 0 ∨ bits w 19 0 % n ≠ 0 then .error (some 2)
    else if winPkg w ≠ s.pkgid.toNat then
      if Config.farCluster ctx (winPkg w) (clusterOf core) s.el9 then .ok (.farCore (winPkg w) core (bits w 19 0)) else .error (some 2)
    else if (s.ctx ctx).hasCluster (clusterOf core) then
      if (s.core core).isArrayFor (BitVec.ofNat 8 ctx) (bits w 19 0 / 65536) then .ok (.local core (bits w 19 0)) else .error (some 2)
    else .error (some 2)
  else match s.hread ctx w 0 n write with
    | none => .error (some 2)
    | some pa =>
      if pa % n ≠ 0 then .error (some 2)
      else if s.nodeBad ctx w pa n write then .error (some 2)
      else .ok (s.home pa)

/-- A strong access of the sequencer to n bytes in package p, which hold what that package says (log 64); what it writes leaves for there.
It waits while no route leads there. -/
def State.nodeFar (s : State) (p pa n : Nat) (f : Nat → Option Nat) : NodeRes (State × Nat) :=
  if (s.egress p).isNone then .error none
  else
    let v := natOf (s.farBytes pa n)
    .ok ((f v).elim s fun x => { s with dram := Mem.put s.dram pa (bytesOf x n) }, v)

/-- A strong access of the sequencer to n bytes, in place of which `f` puts the new value: it waits while the bytes are held,
locked or away. -/
def State.nodeAccess (s : State) (ctx : Nat) (h : Home) (n : Nat) (f : Nat → Option Nat) : NodeRes (State × Nat) :=
  let phys := fun (pa : Nat) =>
    if s.physBad pa n then .error (some 2)
    else if (lockOn s.dlocks pa n).isSome then .error none
    else
      let v := natOf (s.physBytes pa n)
      .ok ((f v).elim s fun x => s.physPut pa (bytesOf x n), v)
  match h with
  | .local k off =>
    let x := BitVec.ofNat 8 ctx
    let c := s.core k
    if c.blocked off n || (lockOn c.locks off n).isSome then .error none
    else
      let c := (c.claimBank x (off / 65536)).claim x (off / 64)
      if (c.served (off / 64)).2 then .error (some 2)
      else
        let v := c.servedNat off n
        .ok (s.setCore k ((f v).elim c fun y => c.publish x (off / 64) (lineAt (off % 64) n y) (byteMask (off % 64) n)), v)
  | .dev pa => phys pa
  | .host pa => phys (pa + hostBit)
  | .farCore p core off => s.nodeFar p (2 ^ 60 + (winAddr p core off).toNat) n f
  | .farDev pa => s.nodeFar (pa / 2 ^ 39) pa n f

def State.nodeRead (s : State) (ctx : Nat) (w : W64) (win : Bool) (n : Nat) : NodeRes (State × Nat) := do
  let h ← s.nodeHome ctx w win false n
  s.nodeAccess ctx h n fun _ => none

def State.nodeWrite (s : State) (ctx : Nat) (w : W64) (win : Bool) (f : Nat → Nat) : NodeRes State := do
  let h ← s.nodeHome ctx w win true 8
  let r ← s.nodeAccess ctx h 8 fun v => some (f v)
  .ok r.1

/-! ### LAUNCH and COPY -/

/-- Tasks that the sequencer creates advance the core's counter between two activations (spec/17 R364). -/
def Core.advanceTasks (c : Core) (n : Nat) : Core :=
  let up := fun (k : Ckpt) => { k with tseq := k.tseq + BitVec.ofNat 43 n }
  { c with
    tseq := c.tseq + BitVec.ofNat 43 n, confirmed := up c.confirmed, past := c.past.map up
    closing := c.closing.map fun (g : Seg) => { g with ckpt := up g.ckpt } }

def execGraphLaunchNode (die slot : Nat) (s : State) : Out := nodeEvent die slot 1 (fun k x m s => do
  if x.sub then .error none
  else match s.hread x.ctx.toNat (m.w 1) 0 64 false with
    | none => .error (some 2)
    | some pa =>
      let s := s.nodeSectors x.ctx.toNat (m.w 1) 64
      let r := s.physMsg pa
      let ctx := (r.w 0).extractLsb' 56 8
      let lead := 64 * (launchClusters r).headD 0
      if s.nodeBad x.ctx.toNat (m.w 1) pa 64 false then .error (some 2)
      else if (s.ctx ctx.toNat).state ≠ 1 then .error none
      else if (s.core lead).running then .error none
      else
        let seq := (s.core lead).tseq.toNat
        match s.submit die r lead seq with
        | (s, false) => .ok (s.slotError k 3)
        | (s, true) =>
          let s := s.setCore lead ((s.core lead).advanceTasks (bits (r.w 6) 19 0))
          .ok (s.setSlot k { s.slot k with sub := true, sent := some r })) s

/-- TERM of the done block of a launch record. -/
def State.launchOver (s : State) (r : Msg) : Bool :=
  match s.hptr ((r.w 0).extractLsb' 56 8).toNat (r.w 7) 32 with
  | none => false
  | some pa => (s.physWord pa).getLsbD 63

/-- Ranges and rights of a COPY node, or the stamp's place. -/
def State.copyRanges (s : State) (ctx : Nat) (m : Msg) : NodeRes (Nat × Nat × Nat) :=
  let n := (m.w 3).toNat
  match s.hread ctx (m.w 1) 0 n false, s.hread ctx (m.w 2) 0 n true with
  | some a, some b => .ok (a, b, n)
  | _, _ => .error (some 2)

def noStamp (m : Msg) : Bool := bits (m.w 4) 63 48 == 0xFFFF

def execGraphCopyNode (die slot : Nat) (s : State) : Out := nodeEvent die slot 2 (fun k x m s => do
  if x.sub then .error none
  else
    let _ ← s.copyRanges x.ctx.toNat m
    if noStamp m then .ok (s.setSlot k { x with sub := true })
    else
      let _ ← s.nodeHome x.ctx.toNat (m.w 4) false true 8
      .ok (s.setSlot k { x with sub := true })) s

/-- Every byte has landed, and then the stamp. -/
def State.copyLand (s : State) (x : Slot) (m : Msg) : NodeRes State := do
  let (a, b, n) ← s.copyRanges x.ctx.toNat m
  let s := s.nodeSectors x.ctx.toNat (m.w 1) n
  if s.nodeBad x.ctx.toNat (m.w 1) a n false || s.nodeBad x.ctx.toNat (m.w 2) b n true then .error (some 2)
  let away := fun (pa : Nat) => match s.home pa with | .farDev _ => true | _ => false
  let bs := if away a then s.farBytes a n else s.physBytes a n
  let s := s.physPut b bs
  let s := if away b then s else s.clearPoison b n
  let dev := fun (pa : Nat) => decide (pa < hostBit) && !away pa
  let s := (s.charge x.ctx.toNat 9 (if dev a then n / 64 else 0)).charge x.ctx.toNat 10 (if dev b then n / 64 else 0)
  if noStamp m then .ok s else s.nodeWrite x.ctx.toNat (m.w 4) false fun _ => x.iter.toNat

/-! ### WAIT and COND (spec/21 R415 to R417) -/

/-- The condition of a WAIT. -/
def State.waitHolds (s : State) (x : Slot) (m : Msg) : NodeRes (State × Bool) := do
  let win := (m.w 3).getLsbD 4
  if (m.w 3).getLsbD 3 then
    let r ← s.nodeRead x.ctx.toNat (m.w 1) win 16
    .ok (r.1, (Barrier.of r.2).gen != (m.w 2).toNat)
  else
    let r ← s.nodeRead x.ctx.toNat (m.w 1) win 8
    .ok (r.1, (nodeCond m).any fun cc => condHolds cc (ofNat r.2) (m.w 2))

def execGraphWaitNode (die slot : Nat) (s : State) : Out := nodeEvent die slot 3 (fun k x m s => do
  let r ← s.waitHolds x m
  if r.2 then .ok (r.1.slotDone k (nodeNext m)) else .ok r.1) s

/-- Global time of n microseconds, in gt (spec/00 R3). -/
def microGt (n : Nat) : Nat := 16000 * n

def execGraphWaitTimeout (die slot : Nat) (s : State) : Out := nodeEvent die slot 3 (fun k x m s => do
  if m.w 4 = 0 ∨ s.gt < x.since + microGt (m.w 4).toNat then .error none
  else if m.w 5 = 0 then .error (some 4)
  else .ok (s.slotDone k (m.w 5).toNat)) s

def execGraphCondNode (die slot : Nat) (s : State) : Out := nodeEvent die slot 4 (fun k x m s => do
  let ctx := x.ctx.toNat
  let win := (m.w 3).getLsbD 4
  let r ← s.nodeRead ctx (m.w 1) win 8
  let s := r.1
  let holds := (nodeCond m).any fun cc => condHolds cc (ofNat r.2) (m.w 2)
  let rearm := (m.w 3).getLsbD 8
  if !holds then .ok (s.slotDone k (m.w 4).toNat)
  else if !rearm then .ok (s.slotDone k (nodeNext m))
  else if x.iter.toNat = bits (m.w 3) 31 16 then .ok (s.slotDone k (m.w 4).toNat)
  else
    let i := x.iter + 1
    let s ← if m.w 5 = 0 then .ok s else s.nodeWrite ctx (m.w 5) win fun _ => i.toNat
    .ok ((s.setSlot k { x with iter := i }).slotDone k (nodeNext m))) s

/-! ### Host rings (spec/21 R418 to R421) -/

def State.ring (s : State) (j : Nat) : HRing := (aget s.rings j).getD HRing.reset
def State.setRing (s : State) (j : Nat) (r : HRing) : State := { s with rings := aset s.rings j r }

def HRing.en (r : HRing) : Bool := r.cfg.getLsbD 63
def HRing.vec (r : HRing) : Nat := bits r.cfg 26 16
def HRing.size (r : HRing) : Nat := bits r.cfg 4 0
def HRing.threshold (r : HRing) : Nat := bits r.thr 15 0
def HRing.timer (r : HRing) : Nat := bits r.thr 47 32

/-- Ring j has no place for a record. -/
def State.hringFull (s : State) (j : Nat) : Bool :=
  let r := s.ring j
  decide (2 ^ r.size ≤ (s.physWord r.base.toNat - ofNat r.cons).toNat)

/-- A record is published: its words, then PROD, then the interrupt of the threshold. -/
def State.publishRecord (s : State) (j : Nat) (ws : List W64) : State :=
  let r := s.ring j
  let prod := (s.physWord r.base.toNat).toNat
  let s := (s.physPut (r.base.toNat + 64 + 32 * (prod % 2 ^ r.size)) (wordBytes ws)).physPut r.base.toNat (bytesOf (prod + 1) 8)
  let r := { r with u := r.u + 1, since := if r.u = 0 then s.gt else r.since }
  if r.threshold ≤ r.u then (s.setRing j { r with u := 0 }).interrupt r.vec else s.setRing j r

/-- The words of a record of slot k (spec/21 R420). -/
def recordOf (kind k : Nat) (x : Slot) (p q : W64) : List W64 :=
  [ofNat (put kind 56 + put x.ctx.toNat 48 + put (k / 16) 44 + put (k % 16) 40 + x.iter.toNat), ofNat x.node, p, q]

/-- The record goes to ring j: error 1 where the ring is not in use, a wait where it is full. -/
def State.notify (s : State) (j : Nat) (ws : List W64) : NodeRes State :=
  if 64 ≤ j ∨ !(s.ring j).en then .error (some 1)
  else if s.hringFull j then .error none
  else .ok (s.publishRecord j ws)

def execGraphNotifyNode (die slot : Nat) (s : State) : Out := nodeEvent die slot 5 (fun k x m s => do
  let s ← s.notify (m.w 1).toNat (recordOf 0x10 k x (m.w 2) (m.w 3))
  .ok (s.slotDone k (nodeNext m))) s

/-! ### SIGNAL, END, and the step to the next node -/

def execGraphSignalNode (die slot : Nat) (s : State) : Out := nodeEvent die slot 6 (fun k x m s => do
  let add := (m.w 3).getLsbD 0
  let s ← s.nodeWrite x.ctx.toNat (m.w 1) ((m.w 3).getLsbD 4) fun v =>
    if add then (v + (m.w 2).toNat) % 2 ^ 64 else (m.w 2).toNat
  .ok (s.slotDone k (nodeNext m))) s

def execGraphEndNode (die slot : Nat) (s : State) : Out := nodeEvent die slot 7 (fun k x m s => do
  let s ← if (m.w 1).getLsbD 0 then s.notify (m.w 2).toNat (recordOf 0x11 k x 0 0) else .ok s
  .ok ((s.setSlot k { s.slot k with st := .ended }).interrupt 1)) s

/-- The slot reaches its next node. -/
def State.nextNode (s : State) (k n : Nat) : State :=
  s.setSlot k { s.slot k with node := n, cur := none, done := none, since := s.gt, sub := false }

/-- A LAUNCH or COPY node that has started completes by its condition; any other node has completed already. -/
def execGraphNodeDone (die slot : Nat) (s : State) : Out :=
  if die < 4 ∧ slot < 16 then
    let k := slotKey die slot
    let x := s.slot k
    if x.st ≠ .running then .next s
    else match x.done, x.cur with
      | some n, _ => .next (s.nextNode k n)
      | none, some m =>
        if !x.sub then .next s
        else if bits (m.w 0) 63 60 = 1 then
          let done := !(m.w 2).getLsbD 0 || x.sent.any s.launchOver
          .next (if done then s.nextNode k (nodeNext m) else s)
        else match s.copyLand x m with
          | .ok s => .next (s.nextNode k (nodeNext m))
          | .error none => .next s
          | .error (some e) => .next (s.slotError k e)
      | none, none => .next s
  else .fault .noSuchUnit

/-- A full ring's copy of CONS is read again, at most once for each microsecond. -/
def execRingConsReread (j : Nat) (s : State) : Out :=
  if j < 64 then
    let r := s.ring j
    if r.en && s.hringFull j && decide (r.reread + microGt 1 ≤ s.gt) then
      .next (s.setRing j { r with cons := (s.physWord (r.base.toNat + 8)).toNat, reread := s.gt })
    else .next s
  else .fault .noSuchUnit

/-- The coalescing timer runs out. -/
def execRingInterruptTimer (j : Nat) (s : State) : Out :=
  if j < 64 then
    let r := s.ring j
    if r.en && decide (r.timer ≠ 0) && decide (r.u ≠ 0) && decide (r.since + microGt r.timer ≤ s.gt) then
      .next ((s.setRing j { r with u := 0 }).interrupt r.vec)
    else .next s
  else .fault .noSuchUnit

end Sys2Proof.Machine
end

