-- ==== Sys2Proof/Machine/HostIf.lean ====
section
/-! DEFINITION. Control space, BAR2, the debugger's window, reset and the security engine (spec/20 R395, R397,
spec/21 R406, R407, R411, R418, R424, R425, spec/24 R431, R437, R438). -/

namespace Sys2Proof.Machine

/-! ### Control space (spec/21 R406, R407) -/

/-- Bits of a written value that a register keeps. -/
def keep (v : W64) (mask : Nat) : W64 := v &&& ofNat mask

/-- A word of a command channel: operands, and OPCODE, which starts the command (spec/21 R408). -/
def State.writeChannel (s : State) (ch i : Nat) (v : W64) : State :=
  let x := s.chan? ch
  if i < 6 then s.setChan ch { x with regs := x.regs.setIfInBounds i v }
  else if i = 7 then
    if x.busy then s.setChan ch { x with ovr := true }
    else s.setChan ch { x with busy := true, ovr := false, code := 0, opcode := v, ops := x.regs, work := false, pos := 0 }
  else s

/-- Bits of descriptor word i that the host may write (spec/20 R384). -/
def descriptorMask (i : Nat) : Nat :=
  if i = 0 then put 15 48 + 0xFFFF else if i = 9 then 31 else if i ≤ 8 ∨ i = 13 then 2 ^ 64 - 1 else 0

/-- A new TRACER clears TDROP, which a TRACELOST notice carries (spec/20 R402). -/
def State.newTracer (s : State) (n : Nat) : State :=
  let x := s.ctx n
  if x.w 12 = 0 then s.setCtx n { x with tstop := false }
  else
    let s := s.notice (x.coreList.headD 0) (BitVec.ofNat 8 n) none 0x603 0 0 (ofNat (bits (x.w 6) 63 48)) (x.w 12) 0
    s.setCtx n { ((s.ctx n).setW 12 0) with tstop := false }

/-- A field may be written while its context is FREE or SAVED; the debugger may clear RPL while it is halted (log 54). -/
def State.writeDescriptor (s : State) (n i : Nat) (v : W64) : State :=
  let x := s.ctx n
  let m := descriptorMask i
  if n = 0 then s
  else if x.state = 0 ∨ x.state = 3 then
    let s := if i = 6 then s.newTracer n else s
    let x := s.ctx n
    s.setCtx n (x.setW i ((x.w i &&& ofNat (2 ^ 64 - 1 - m)) ||| keep v m))
  else if i = 0 ∧ s.haltedCtx n ∧ !v.getLsbD 48 then s.setCtx n (x.setW 0 (x.w 0 &&& ofNat (2 ^ 64 - 1 - 2 ^ 48)))
  else s

/-- A word of ring configuration j: fields stand still while EN is 1, which may itself be cleared (spec/21 R419). -/
def State.writeRing (s : State) (j i : Nat) (v : W64) : State :=
  let r := s.ring j
  if r.en then (if i = 1 ∧ !v.getLsbD 63 then s.setRing j { r with cfg := keep r.cfg (2 ^ 63 - 1) } else s)
  else if i = 0 then s.setRing j { r with base := v }
  else if i = 1 then
    s.setRing j { r with cfg := keep v (2 ^ 63 + put 0x7FF 16 + 31), cons := (s.physWord (r.base.toNat + 8)).toNat, u := 0 }
  else if i = 2 then s.setRing j { r with thr := keep v (put 0xFFFF 32 + 0xFFFF) }
  else s

def State.portsDown (s : State) : Bool := s.ports.all fun p => !p.2.up

/-- PKGID may be written only while every port is down (spec/24 R431). -/
def State.writeRencia (s : State) (v : W64) : State :=
  { s with tmaster := v.getLsbD 63, pkgid := if s.portsDown then v.setWidth 8 else s.pkgid }

/-- A write to EFLG clears the bits written 1 (spec/20 R384). -/
def State.clearEflg (s : State) (n : Nat) (v : W64) : State :=
  let x := s.ctx n
  s.setCtx n (x.setW 10 (x.w 10 &&& ~~~v))

/-- A write of 0 clears the BAR2 counts (spec/21 R424). -/
def State.clearCount (s : State) (uncorr : Bool) : State := if uncorr then { s with uncCnt := 0 } else { s with misCnt := 0 }

/-- A field of a port's status that is written 0 is cleared (spec/24 R438). -/
def Port.clearCount (p : Port) (downs : Bool) : Port := if downs then { p with downs := 0 } else { p with naks := 0 }

/-- The register at a word-aligned offset takes a value; other offsets discard it. The writes that clear EFLG, the BAR2 counts and the ports'
counts are steps of their own (EFLG_CLEAR, MISMATCH_COUNT_CLEAR, PORT_COUNT_CLEAR). -/
def State.controlWrite (s : State) (off : Nat) (v : W64) : State :=
  if off = 0x40 then { s with barTag := keep v 15 }
  else if 0x1000 ≤ off ∧ off < 0x1100 then s.writeChannel ((off - 0x1000) / 64) (off % 64 / 8) v
  else if 0x10000 ≤ off ∧ off < 0x18000 then s.writeDescriptor ((off - 0x10000) / 128) (off % 128 / 8) v
  else if 0x20000 ≤ off ∧ off < 0x30000 then
    { s with bkpts := aset s.bkpts ((off - 0x20000) / 8) (if off % 32 = 0 then keep v (put 15 60) else v) }
  else if 0x32000 ≤ off ∧ off < 0x32020 then { s with weights := s.weights.setIfInBounds ((off - 0x32000) / 8) v }
  else if 0x41000 ≤ off ∧ off < 0x42000 then s.writeRing ((off - 0x41000) / 64) (off % 64 / 8) v
  else if 0x60000 ≤ off ∧ off < 0x68000 then { s with msixTab := aset s.msixTab ((off - 0x60000) / 8) v }
  else if off = 0x70000 then s.writeRencia v
  else if 0x70100 ≤ off ∧ off < 0x70900 then { s with routes := aset s.routes ((off - 0x70100) / 8) (keep v (put 3 62 + 0xFF)) }
  else s


/-! What the host reads there. -/

def Channel.status (x : Channel) : W64 :=
  ofNat (put (if x.busy then 1 else 0) 63 + put (if x.ovr then 1 else 0) 62 + x.code.toNat)

/-- Words of a graph slot (spec/21 R413). -/
def Slot.word (x : Slot) (i : Nat) : W64 :=
  let st := match x.st with | .idle => 0 | .running => 1 | .ended => 2 | .error => 3
  ofNat (if i = 0 then put st 62 + x.err.toNat else if i = 1 then put x.ctx.toNat 56 + x.gh else if i = 2 then x.node
    else if i = 3 then x.iter.toNat else 0)

def HRing.word (r : HRing) (i : Nat) : W64 := if i = 0 then r.base else if i = 1 then r.cfg else if i = 2 then r.thr else 0

/-- The status word of a port (spec/24 R438). -/
def Port.status (p : Port) : W64 :=
  ofNat (put (if p.up then 1 else 0) 63 + put (if p.dup then 1 else 0) 62 + put p.npkg.toNat 54 + put p.nport.toNat 50 +
    put p.naks.toNat 16 + p.downs.toNat)

def State.identWord (s : State) (i : Nat) : W64 :=
  if i = 0 then ofNat (put 0x5A04 16 + Config.archVersion % 2 ^ 16)
  else if i = 1 then ofNat (Config.stepping % 2 ^ 8)
  else if i < 5 then s.ready.toList.getD (i - 2) 0
  else if i < 8 then s.fails.toList.getD (i - 5) 0
  else if i = 8 then s.barTag
  else if i = 9 then s.misCnt
  else if i = 10 then s.uncCnt else 0

/-- The register at an offset. -/
def State.controlRead (s : State) (off : Nat) : W64 :=
  if off % 8 ≠ 0 then 0
  else if off < 0x1000 then s.identWord (off / 8)
  else if off < 0x1100 then
    let x := s.chan? ((off - 0x1000) / 64)
    let i := off % 64 / 8
    if i = 6 then x.status else if i = 7 then x.opcode else x.regs.toList.getD i 0
  else if off < 0x10000 then 0
  else if off < 0x18000 then (s.ctx ((off - 0x10000) / 128)).w (off % 128 / 8)
  else if off < 0x20000 then 0
  else if off < 0x30000 then (aget s.bkpts ((off - 0x20000) / 8)).getD 0
  else if off < 0x32000 then (s.lease ((off - 0x30000) / 8)).word
  else if off < 0x32020 then s.weights.toList.getD ((off - 0x32000) / 8) 0
  else if off < 0x40000 then 0
  else if off < 0x41000 then (s.slot ((off - 0x40000) / 64)).word (off % 64 / 8)
  else if off < 0x42000 then (s.ring ((off - 0x41000) / 64)).word (off % 64 / 8)
  else if off < 0x50000 then 0
  else if off < 0x60000 then Config.powerWord ((off - 0x50000) / 8) s.trip (s.power.toList.map (·.toNat)) s.gt
  else if off < 0x68000 then (aget s.msixTab ((off - 0x60000) / 8)).getD 0
  else if off < 0x70000 then 0
  else if off = 0x70000 then ofNat (put (if s.tmaster then 1 else 0) 63 + put (if s.sync then 1 else 0) 62 + s.pkgid.toNat)
  else if off < 0x70100 then 0
  else if off < 0x70900 then (aget s.routes ((off - 0x70100) / 8)).getD 0
  else if off < 0x70980 then (s.port ((off - 0x70900) / 8)).status
  else 0

/-- A read of n bytes; one that is not 8 bytes, 8-aligned, completes with Unsupported Request. No row of the opcode table reads control space:
a read changes nothing. -/
def State.controlAccess (s : State) (off n : Nat) : Option W64 := if n = 8 ∧ off % 8 = 0 then some (s.controlRead off) else none

/-! ### BAR2 (spec/21 R406, R407, R411) -/

/-- Saturating count. -/
def up64 (n : W64) : W64 := if n = BitVec.allOnes 64 then n else n + 1

/-- The device PA of a BAR2 offset. -/
def State.barPa (s : State) (off : Nat) : Nat := put s.pkgid.toNat 39 + off

/-- The tag of BAR2 accesses. -/
def State.barTag4 (s : State) : BitVec 4 := s.barTag.setWidth 4

/-- A sector that does not decode under the tag of BAR2. -/
def State.barBad (s : State) (x : Nat) : Bool := s.sectorBadAs s.barTag4 x

/-- A sector that decodes, and whose tag is not that of BAR2. -/
def State.barMismatch (s : State) (x : Nat) : Bool := !s.barBad x && s.tagAt (64 * x) != s.barTag4

/-- A read waits for the posted writes (log 55), and aborts where the DRAM is not ready (log 66); it completes with data, or with an abort that is counted. The decoder reads the sectors
first; a misdirected write that it detects ends the owner (spec/17 R348, R355), the host's access to a poisoned sector nobody. -/
def execBar2Read (off n : Nat) (s : State) : Out :=
  let pa := s.barPa off
  let xs := sectorsOf pa n
  let abort := fun (s : State) => { s with readData := [], readOk := false }
  .next (
    if !s.posted.isEmpty then s
    else if s.barSize < off + n ∨ s.dramDark pa n then abort s
    else
      let s := s.readSectors pa n (some s.barTag4)
      if xs.any s.barBad then abort { s with uncCnt := up64 s.uncCnt }
      else if xs.any s.barMismatch then abort { s with misCnt := up64 s.misCnt }
      else { s with readData := s.physBytes pa n, readOk := true })

/-- A posted write stands at its requester's ordering point. -/
def execBar2Write (req off : Nat) (data : List Byte) (s : State) : Out :=
  .next (if off + data.length ≤ s.barSize then { s with posted := s.posted ++ [⟨req, off, data⟩] } else s)

/-- The write at its home; where the DRAM is not ready it is discarded (log 66). -/
def State.barServe (s : State) (w : HWrite) : State :=
  let pa := s.barPa w.off
  let n := w.data.length
  if s.dramDark pa n then s
  else
  let xs := sectorsOf pa n
  let whole := fun (x : Nat) => decide (pa ≤ 64 * x) && decide (64 * x + 64 ≤ pa + n)
  let s := (xs.filter fun x => !whole x).foldl (fun (s : State) x => s.decodeSector s.barTag4 x) s
  if xs.any fun x => s.barBad x && !whole x then { s with uncCnt := up64 s.uncCnt }
  else if xs.any s.barMismatch then { s with misCnt := up64 s.misCnt }
  else (s.physPut pa w.data).clearPoison pa n

/-- The oldest write of a requester is released and served. -/
def execBar2WriteRelease (req : Nat) (s : State) : Out :=
  match s.posted.findIdx? fun w => w.req == req with
  | none => .next s
  | some k => match s.posted[k]? with
    | none => .next s
    | some w => .next (({ s with posted := ldel s.posted k }).barServe w)

/-! ### Writes to control space (spec/21 R407, R411) -/

/-- Every posted write is released and served, each requester's in its order. A write to control space, which names no requester here, comes
after them all, so that it never overtakes one of its own requester; the manual orders it after those alone. DESIGN CHOICE, log 55. -/
def State.servePosted (s : State) : State := s.posted.foldl State.barServe { s with posted := [] }

/-- A write of 8 bytes, 8-aligned; any other has no effect. -/
def execControlRegisterWrite (off : Nat) (value : W64) (s : State) : Out :=
  .next (if off % 8 = 0 then s.servePosted.controlWrite off value else s)

/-- A host write to EFLG clears the bits written 1 (spec/20 R384). -/
def execEflgClear (ctx : Nat) (value : W64) (s : State) : Out :=
  if 0 < ctx ∧ ctx < 256 then .next (s.servePosted.clearEflg ctx value) else .fault .noSuchUnit

def execMismatchCountClear (uncorr : Bool) (s : State) : Out :=
  .next (s.servePosted.clearCount uncorr)

def execPortCountClear (port : Nat) (downs : Bool) (s : State) : Out :=
  if port < Config.nPorts then
    let s := s.servePosted
    .next (s.setPort port ((s.port port).clearCount downs))
  else .fault .noSuchUnit

/-! ### The debugger (spec/20 R395) -/

/-- The core as other agents are served it: the pre-images of its uncommitted segments stand. -/
def Core.committedView (c : Core) : Core :=
  let us := c.uncommitted.flatMap fun d => d.undo.map fun u => (u.ord, Sum.inl u.what)
  (sortDesc us).foldl (fun c x => c.restore1 x.2) c

/-- A byte of local memory, zero in a line of another context. -/
def Core.debugByte (c : Core) (x : BitVec 8) (a : Nat) : Byte :=
  if c.lineOwner (a / 64) ≠ x then 0
  else if c.isArrayFor x (a / 65536) then Mem.byte c.mem a
  else (c.rawBytes (a / 65536) (a % 65536) 1).getD 0 0

/-- A register as bytes and then its state: 0 vacant, 1 EMPTY, 2 FULL (log 58). -/
def cellBytes {n : Nat} (x : Cell n) : List Byte :=
  match x with
  | .vacant => [0]
  | .empty => bytesOf 0 (n / 8) ++ [1]
  | .full v => bytesOf v.toNat (n / 8) ++ [2]

/-- The core belongs to a halted partition. -/
def State.underDebug (s : State) (core : Nat) : Option (BitVec 8) :=
  match s.curCtx (clusterOf core) with
  | none => none
  | some k => if s.haltedCtx k then some (BitVec.ofNat 8 k) else none

def execDebugRead (core : Nat) (what : DebugTarget) (committed : Bool) (s : State) : Out :=
  if core < Config.nCores then
    match s.underDebug core with
    | none => .next s
    | some x =>
      let c := s.core core
      let give := fun (bs : List Byte) => Host.Outcome.next { s with readData := bs, readOk := true }
      let none_ := Host.Outcome.next { s with readData := [], readOk := false }
      match what with
      | .s n => if n < 64 then give (cellBytes (c.regs.getS (BitVec.ofNat 6 n))) else none_
      | .v n => if n < 32 then give (cellBytes (c.regs.getV (BitVec.ofNat 5 n))) else none_
      | .m n => if n < 8 then give (cellBytes (c.regs.getM (BitVec.ofNat 3 n))) else none_
      | .local off n =>
        if off + n ≤ 2 ^ 20 then
          let c := if committed then c.committedView else c
          give ((List.range n).map fun i => c.debugByte x (off + i))
        else none_
  else .fault .noSuchUnit

/-- A published store, or status LOCKED with nothing written. -/
def execDebugWrite (core off : Nat) (data : List Byte) (s : State) : Out :=
  if core < Config.nCores then
    match s.underDebug core with
    | none => .next s
    | some x =>
      let c := s.core core
      let ns := linesOf off data.length
      let locked := ns.any (fun n => c.held n || c.heldBank (n / 1024) || c.seg.lines.contains n) || (lockOn c.locks off data.length).isSome
      if 2 ^ 20 < off + data.length || locked || !(ns.all fun n => c.isArrayFor x (n / 1024)) then
        .next { s with readData := [], readOk := false }
      else
        let part := fun (n : Nat) => ((List.range 64).filterMap fun i =>
          if off ≤ 64 * n + i then (data[64 * n + i - off]?).map fun b => (i, b) else none)
        let c := ns.foldl (fun (c : Core) n =>
          let bs := part n
          let l := lineOf ((List.range 64).map fun i => (aget bs i).getD 0)
          c.publish x n l (ofNat ((bs.map fun b => 2 ^ b.1).sum))) (ns.foldl (fun c n => c.claimBank x (n / 1024)) c)
        .next { (s.setCore core c) with readData := [], readOk := true }
  else .fault .noSuchUnit

/-! ### Start-up (spec/21 R424) -/

/-- A Conventional Reset: what lies outside the device, and its anti-rollback counter, stay (log 56). -/
def execConventionalReset (s : State) : Out :=
  .next { State.reset with
    agenda := s.agenda, host := s.host, nchoice := s.nchoice, sec := { State.reset.sec with rollback := s.sec.rollback } }

/-- Function fn of the ready map: word and bit. -/
def readyBit (fn : Nat) : Nat × Nat := if fn < 128 then (fn / 64, fn % 64) else (2, fn - 128)

def State.isReady (s : State) (fn : Nat) : Bool := (s.ready.toList.getD (readyBit fn).1 0).getLsbD (readyBit fn).2
def State.isFailed (s : State) (fn : Nat) : Bool := (s.fails.toList.getD (readyBit fn).1 0).getLsbD (readyBit fn).2

/-- Functions by number: clusters, then the bits of RDYC: host interface, security engine, DRAM of four dies, ports. -/
def nFunctions : Nat := 150

def setBit (v : Vector W64 3) (w b : Nat) : Vector W64 3 := v.setIfInBounds w (v.toList.getD w 0 ||| ofNat (2 ^ b))

/-- The die of a function that needs its power. -/
def fnDie (fn : Nat) : Option Nat := if fn < 128 then some (fn / 32) else if 130 ≤ fn ∧ fn < 134 then some (fn - 130) else none

def State.powered (s : State) (fn : Nat) : Bool := (fnDie fn).all fun d => s.power.toList.getD d 0 != 3

def execSelfTestDone (fn : Nat) (pass : Bool) (s : State) : Out :=
  if fn < nFunctions then
    if s.isReady fn || s.isFailed fn || (decide (fn < 128) && !s.sec.verified) || !s.powered fn then .next s
    else
      let b := readyBit fn
      if pass then .next ({ s with ready := setBit s.ready b.1 b.2 }.interrupt 1)
      else .next { s with fails := setBit s.fails b.1 b.2 }
  else .fault .noSuchUnit

/-! ### The security engine (spec/21 R425) -/

/-- RDYC bit 1. -/
def State.secReady (s : State) : Bool := s.isReady 129

/-- Both signatures verify and the version is at least the anti-rollback counter; else the image is refused. -/
def execFirmwareVerify (image version : Nat) (s : State) : Out :=
  .next (
    if s.secReady && Config.rsaVerifies image && Config.slhVerifies image && decide (s.sec.rollback ≤ version) then
      { s with sec := { s.sec with verified := true, version := version, image := image } }
    else s)

/-- Measurement blocks 1 to 4: the firmware, the ROM of the security engine, the fuses with the stepping, and the SLH-DSA signature over a
transcript hash. -/
def Security.measure (x : Security) (hash : Nat) : List Nat :=
  [Config.measurement 1 x.image, Config.measurement 2 0, Config.measurement 3 Config.stepping, Config.slhSign hash]

/-- A request of SPDM enters the transcript and is answered; every answer is signed with RSA, and GET_MEASUREMENTS carries the blocks (log
41). -/
def State.spdm (s : State) (kind req : Nat) : State :=
  if s.secReady then
    let x := s.sec
    let log := x.log ++ [(kind, req)]
    let hash := Config.transcriptHash log
    { s with sec := { x with
        log := log, answer := Config.spdmAnswer kind req x.log, sign := Config.rsaSign hash, blocks := if kind = 6 then x.measure hash else [] } }
  else s

def execGetVersion (req : Nat) (s : State) : Out := .next (s.spdm 0 req)
def execGetCapabilities (req : Nat) (s : State) : Out := .next (s.spdm 1 req)
def execNegotiateAlgorithms (req : Nat) (s : State) : Out := .next (s.spdm 2 req)
def execGetDigests (req : Nat) (s : State) : Out := .next (s.spdm 3 req)
def execGetCertificate (req : Nat) (s : State) : Out := .next (s.spdm 4 req)
def execChallenge (req : Nat) (s : State) : Out := .next (s.spdm 5 req)
def execGetMeasurements (req : Nat) (s : State) : Out := .next (s.spdm 6 req)

end Sys2Proof.Machine
end

