-- ==== Sys2Proof/Machine/Dispatch.lean ====
section
/-! DEFINITION. One arm for each step of the opcode table: a call of its meaning. -/

namespace Sys2Proof.Machine

def exec (i : Instr) (s : State) : Host.Outcome State Fault Refusal :=
  match i with
  | .nop => Sys2Proof.Machine.execNop s
  | .jmp target => Sys2Proof.Machine.execJmp target s
  | .jmpr a => Sys2Proof.Machine.execJmpr a s
  | .call target => Sys2Proof.Machine.execCall target s
  | .callr a => Sys2Proof.Machine.execCallr a s
  | .ret a => Sys2Proof.Machine.execRet a s
  | .br cc a b target => Sys2Proof.Machine.execBr cc a b target s
  | .bri cc a k target => Sys2Proof.Machine.execBri cc a k target s
  | .bst cc target => Sys2Proof.Machine.execBst cc target s
  | .loop d a target => Sys2Proof.Machine.execLoop d a target s
  | .endAct => Sys2Proof.Machine.execEndAct s
  | .phase => Sys2Proof.Machine.execPhase s
  | .yield => Sys2Proof.Machine.execYield s
  | .migr a => Sys2Proof.Machine.execMigr a s
  | .trap code => Sys2Proof.Machine.execTrap code s
  | .trapReg code a => Sys2Proof.Machine.execTrapReg code a s
  | .add d a b => Sys2Proof.Machine.execAdd d a b s
  | .addAbcm d a b ty => Sys2Proof.Machine.execAddAbcm d a b ty s
  | .sub d a b => Sys2Proof.Machine.execSub d a b s
  | .subAbcm d a b ty => Sys2Proof.Machine.execSubAbcm d a b ty s
  | .mul d a b => Sys2Proof.Machine.execMul d a b s
  | .mulAbcm d a b ty => Sys2Proof.Machine.execMulAbcm d a b ty s
  | .mulh d a b => Sys2Proof.Machine.execMulh d a b s
  | .mulhAbcm d a b ty => Sys2Proof.Machine.execMulhAbcm d a b ty s
  | .div d a b => Sys2Proof.Machine.execDiv d a b s
  | .divAbcm d a b ty => Sys2Proof.Machine.execDivAbcm d a b ty s
  | .rem d a b => Sys2Proof.Machine.execRem d a b s
  | .remAbcm d a b ty => Sys2Proof.Machine.execRemAbcm d a b ty s
  | .and d a b => Sys2Proof.Machine.execAnd d a b s
  | .andAbcm d a b ty => Sys2Proof.Machine.execAndAbcm d a b ty s
  | .or d a b => Sys2Proof.Machine.execOr d a b s
  | .orAbcm d a b ty => Sys2Proof.Machine.execOrAbcm d a b ty s
  | .xor d a b => Sys2Proof.Machine.execXor d a b s
  | .xorAbcm d a b ty => Sys2Proof.Machine.execXorAbcm d a b ty s
  | .shl d a b => Sys2Proof.Machine.execShl d a b s
  | .shlAbcm d a b ty => Sys2Proof.Machine.execShlAbcm d a b ty s
  | .shr d a b => Sys2Proof.Machine.execShr d a b s
  | .shrAbcm d a b ty => Sys2Proof.Machine.execShrAbcm d a b ty s
  | .rot d a b => Sys2Proof.Machine.execRot d a b s
  | .rotAbcm d a b ty => Sys2Proof.Machine.execRotAbcm d a b ty s
  | .min d a b => Sys2Proof.Machine.execMin d a b s
  | .minAbcm d a b ty => Sys2Proof.Machine.execMinAbcm d a b ty s
  | .max d a b => Sys2Proof.Machine.execMax d a b s
  | .maxAbcm d a b ty => Sys2Proof.Machine.execMaxAbcm d a b ty s
  | .slt d a b => Sys2Proof.Machine.execSlt d a b s
  | .sltAbcm d a b ty => Sys2Proof.Machine.execSltAbcm d a b ty s
  | .sel d a b c => Sys2Proof.Machine.execSel d a b c s
  | .addi d a imm => Sys2Proof.Machine.execAddi d a imm s
  | .addiAbi32 d a imm => Sys2Proof.Machine.execAddiAbi32 d a imm s
  | .andi d a imm => Sys2Proof.Machine.execAndi d a imm s
  | .andiAbi32 d a imm => Sys2Proof.Machine.execAndiAbi32 d a imm s
  | .ori d a imm => Sys2Proof.Machine.execOri d a imm s
  | .oriAbi32 d a imm => Sys2Proof.Machine.execOriAbi32 d a imm s
  | .xori d a imm => Sys2Proof.Machine.execXori d a imm s
  | .xoriAbi32 d a imm => Sys2Proof.Machine.execXoriAbi32 d a imm s
  | .muli d a imm => Sys2Proof.Machine.execMuli d a imm s
  | .muliAbi32 d a imm => Sys2Proof.Machine.execMuliAbi32 d a imm s
  | .shli d a k ty => Sys2Proof.Machine.execShli d a k ty s
  | .shri d a k ty => Sys2Proof.Machine.execShri d a k ty s
  | .li d imm => Sys2Proof.Machine.execLi d imm s
  | .liI48 d imm => Sys2Proof.Machine.execLiI48 d imm s
  | .clz d a => Sys2Proof.Machine.execClz d a s
  | .clzAbcm d a ty => Sys2Proof.Machine.execClzAbcm d a ty s
  | .ctz d a => Sys2Proof.Machine.execCtz d a s
  | .ctzAbcm d a ty => Sys2Proof.Machine.execCtzAbcm d a ty s
  | .popc d a => Sys2Proof.Machine.execPopc d a s
  | .popcAbcm d a ty => Sys2Proof.Machine.execPopcAbcm d a ty s
  | .abs d a => Sys2Proof.Machine.execAbs d a s
  | .absAbcm d a ty => Sys2Proof.Machine.execAbsAbcm d a ty s
  | .bfx d a pos lenM1 uns => Sys2Proof.Machine.execBfx d a pos lenM1 uns s
  | .bfi d a b pos lenM1 => Sys2Proof.Machine.execBfi d a b pos lenM1 s
  | .wfld d a level => Sys2Proof.Machine.execWfld d a level s
  | .fadd d a b rnd ty => Sys2Proof.Machine.execFadd d a b rnd ty s
  | .fsub d a b rnd ty => Sys2Proof.Machine.execFsub d a b rnd ty s
  | .fmul d a b rnd ty => Sys2Proof.Machine.execFmul d a b rnd ty s
  | .ffma d a b c rnd ty => Sys2Proof.Machine.execFfma d a b c rnd ty s
  | .fdiv d a b rnd ty => Sys2Proof.Machine.execFdiv d a b rnd ty s
  | .fsqrt d a rnd ty => Sys2Proof.Machine.execFsqrt d a rnd ty s
  | .fmin d a b ty => Sys2Proof.Machine.execFmin d a b ty s
  | .fmax d a b ty => Sys2Proof.Machine.execFmax d a b ty s
  | .fcmp d a b p ty => Sys2Proof.Machine.execFcmp d a b p ty s
  | .fcvt d a src rnd sat ty => Sys2Proof.Machine.execFcvt d a src rnd sat ty s
  | .fclass d a ty => Sys2Proof.Machine.execFclass d a ty s
  | .fsgn d a b op ty => Sys2Proof.Machine.execFsgn d a b op ty s
  | .frnd d a x rnd ty => Sys2Proof.Machine.execFrnd d a x rnd ty s
  | .ld d a ty off => Sys2Proof.Machine.execLd d a ty off s
  | .st ty a b off => Sys2Proof.Machine.execSt ty a b off s
  | .ldv d a ty off mk => Sys2Proof.Machine.execLdv d a ty off mk s
  | .stv ty a b off mk => Sys2Proof.Machine.execStv ty a b off mk s
  | .lds d a scope ty => Sys2Proof.Machine.execLds d a scope ty s
  | .sts a b scope ty => Sys2Proof.Machine.execSts a b scope ty s
  | .aadd d a b scope ty => Sys2Proof.Machine.execAadd d a b scope ty s
  | .amnx d a b isMax scope ty => Sys2Proof.Machine.execAmnx d a b isMax scope ty s
  | .alog d a b op scope ty => Sys2Proof.Machine.execAlog d a b op scope ty s
  | .aswp d a b scope ty => Sys2Proof.Machine.execAswp d a b scope ty s
  | .acas d a b c scope ty => Sys2Proof.Machine.execAcas d a b c scope ty s
  | .waitm d a b cc scope ty => Sys2Proof.Machine.execWaitm d a b cc scope ty s
  | .loopf => Sys2Proof.Machine.execLoopf s
  | .gath d a b ty => Sys2Proof.Machine.execGath d a b ty s
  | .gathVx d a b ty mk => Sys2Proof.Machine.execGathVx d a b ty mk s
  | .scat a b c ty => Sys2Proof.Machine.execScat a b c ty s
  | .scatVx a b c ty mk => Sys2Proof.Machine.execScatVx a b c ty mk s
  | .bcfg d a b => Sys2Proof.Machine.execBcfg d a b s
  | .bqry d a => Sys2Proof.Machine.execBqry d a s
  | .xch d a b op => Sys2Proof.Machine.execXch d a b op s
  | .bheap d a b => Sys2Proof.Machine.execBheap d a b s
  | .bspan d a => Sys2Proof.Machine.execBspan d a s
  | .bclr d a => Sys2Proof.Machine.execBclr d a s
  | .vadd d a b rnd ty => Sys2Proof.Machine.execVadd d a b rnd ty s
  | .vaddVx d a b rnd ty mk => Sys2Proof.Machine.execVaddVx d a b rnd ty mk s
  | .vsub d a b rnd ty => Sys2Proof.Machine.execVsub d a b rnd ty s
  | .vsubVx d a b rnd ty mk => Sys2Proof.Machine.execVsubVx d a b rnd ty mk s
  | .vmul d a b rnd ty => Sys2Proof.Machine.execVmul d a b rnd ty s
  | .vmulVx d a b rnd ty mk => Sys2Proof.Machine.execVmulVx d a b rnd ty mk s
  | .vfma d a b c rnd ty => Sys2Proof.Machine.execVfma d a b c rnd ty s
  | .vfmaVx d a b c rnd ty mk => Sys2Proof.Machine.execVfmaVx d a b c rnd ty mk s
  | .vdiv d a b rnd ty => Sys2Proof.Machine.execVdiv d a b rnd ty s
  | .vdivVx d a b rnd ty mk => Sys2Proof.Machine.execVdivVx d a b rnd ty mk s
  | .vsqrt d a rnd ty => Sys2Proof.Machine.execVsqrt d a rnd ty s
  | .vsqrtVx d a rnd ty mk => Sys2Proof.Machine.execVsqrtVx d a rnd ty mk s
  | .vmin d a b ty => Sys2Proof.Machine.execVmin d a b ty s
  | .vminVx d a b ty mk => Sys2Proof.Machine.execVminVx d a b ty mk s
  | .vmax d a b ty => Sys2Proof.Machine.execVmax d a b ty s
  | .vmaxVx d a b ty mk => Sys2Proof.Machine.execVmaxVx d a b ty mk s
  | .vcmp d a b p ty => Sys2Proof.Machine.execVcmp d a b p ty s
  | .vcmpVx d a b p ty mk => Sys2Proof.Machine.execVcmpVx d a b p ty mk s
  | .vsgn d a b op ty => Sys2Proof.Machine.execVsgn d a b op ty s
  | .vsgnVx d a b op ty mk => Sys2Proof.Machine.execVsgnVx d a b op ty mk s
  | .vred d a op rnd ty => Sys2Proof.Machine.execVred d a op rnd ty s
  | .vredVx d a op rnd ty mk => Sys2Proof.Machine.execVredVx d a op rnd ty mk s
  | .vscan d a op rnd ty => Sys2Proof.Machine.execVscan d a op rnd ty s
  | .vscanVx d a op rnd ty mk => Sys2Proof.Machine.execVscanVx d a op rnd ty mk s
  | .vexp2 d a rnd ty => Sys2Proof.Machine.execVexp2 d a rnd ty s
  | .vexp2Vx d a rnd ty mk => Sys2Proof.Machine.execVexp2Vx d a rnd ty mk s
  | .vlog2 d a rnd ty => Sys2Proof.Machine.execVlog2 d a rnd ty s
  | .vlog2Vx d a rnd ty mk => Sys2Proof.Machine.execVlog2Vx d a rnd ty mk s
  | .vrcp d a rnd ty => Sys2Proof.Machine.execVrcp d a rnd ty s
  | .vrcpVx d a rnd ty mk => Sys2Proof.Machine.execVrcpVx d a rnd ty mk s
  | .vrsq d a rnd ty => Sys2Proof.Machine.execVrsq d a rnd ty s
  | .vrsqVx d a rnd ty mk => Sys2Proof.Machine.execVrsqVx d a rnd ty mk s
  | .viadd d a b => Sys2Proof.Machine.execViadd d a b s
  | .viaddAbcm d a b ty => Sys2Proof.Machine.execViaddAbcm d a b ty s
  | .viaddVx d a b ty mk => Sys2Proof.Machine.execViaddVx d a b ty mk s
  | .visub d a b => Sys2Proof.Machine.execVisub d a b s
  | .visubAbcm d a b ty => Sys2Proof.Machine.execVisubAbcm d a b ty s
  | .visubVx d a b ty mk => Sys2Proof.Machine.execVisubVx d a b ty mk s
  | .vimul d a b => Sys2Proof.Machine.execVimul d a b s
  | .vimulAbcm d a b ty => Sys2Proof.Machine.execVimulAbcm d a b ty s
  | .vimulVx d a b ty mk => Sys2Proof.Machine.execVimulVx d a b ty mk s
  | .vand d a b => Sys2Proof.Machine.execVand d a b s
  | .vandAbcm d a b ty => Sys2Proof.Machine.execVandAbcm d a b ty s
  | .vandVx d a b ty mk => Sys2Proof.Machine.execVandVx d a b ty mk s
  | .vor d a b => Sys2Proof.Machine.execVor d a b s
  | .vorAbcm d a b ty => Sys2Proof.Machine.execVorAbcm d a b ty s
  | .vorVx d a b ty mk => Sys2Proof.Machine.execVorVx d a b ty mk s
  | .vxor d a b => Sys2Proof.Machine.execVxor d a b s
  | .vxorAbcm d a b ty => Sys2Proof.Machine.execVxorAbcm d a b ty s
  | .vxorVx d a b ty mk => Sys2Proof.Machine.execVxorVx d a b ty mk s
  | .vshl d a b => Sys2Proof.Machine.execVshl d a b s
  | .vshlAbcm d a b ty => Sys2Proof.Machine.execVshlAbcm d a b ty s
  | .vshlVx d a b ty mk => Sys2Proof.Machine.execVshlVx d a b ty mk s
  | .vshr d a b => Sys2Proof.Machine.execVshr d a b s
  | .vshrAbcm d a b ty => Sys2Proof.Machine.execVshrAbcm d a b ty s
  | .vshrVx d a b ty mk => Sys2Proof.Machine.execVshrVx d a b ty mk s
  | .vsel d a b c ty => Sys2Proof.Machine.execVsel d a b c ty s
  | .vselVx d a b c ty mk => Sys2Proof.Machine.execVselVx d a b c ty mk s
  | .vperm d a b c ty => Sys2Proof.Machine.execVperm d a b c ty s
  | .vpermVx d a b c ty mk => Sys2Proof.Machine.execVpermVx d a b c ty mk s
  | .vbcast d a ty => Sys2Proof.Machine.execVbcast d a ty s
  | .vbcastVx d a ty mk => Sys2Proof.Machine.execVbcastVx d a ty mk s
  | .vslide d a b c ty => Sys2Proof.Machine.execVslide d a b c ty s
  | .vslideVx d a b c ty mk => Sys2Proof.Machine.execVslideVx d a b c ty mk s
  | .vcmpr d a b ty => Sys2Proof.Machine.execVcmpr d a b ty s
  | .vexpd d a b ty => Sys2Proof.Machine.execVexpd d a b ty s
  | .viota d a pfx ty => Sys2Proof.Machine.execViota d a pfx ty s
  | .vlane d a b k set ty => Sys2Proof.Machine.execVlane d a b k set ty s
  | .vcvt d a src p rnd sat ty => Sys2Proof.Machine.execVcvt d a src p rnd sat ty s
  | .vcvtVx d a src p rnd sat ty mk => Sys2Proof.Machine.execVcvtVx d a src p rnd sat ty mk s
  | .vunpk d a src p rnd ty => Sys2Proof.Machine.execVunpk d a src p rnd ty s
  | .vunpkVx d a src p rnd ty mk => Sys2Proof.Machine.execVunpkVx d a src p rnd ty mk s
  | .vpack d a src p rnd sat ty => Sys2Proof.Machine.execVpack d a src p rnd sat ty s
  | .vpackVx d a src p rnd sat ty mk => Sys2Proof.Machine.execVpackVx d a src p rnd sat ty mk s
  | .vscale d a b k inv rnd ty => Sys2Proof.Machine.execVscale d a b k inv rnd ty s
  | .vscaleVx d a b k inv rnd ty mk => Sys2Proof.Machine.execVscaleVx d a b k inv rnd ty mk s
  | .vamax d a ty => Sys2Proof.Machine.execVamax d a ty s
  | .vamaxVx d a ty mk => Sys2Proof.Machine.execVamaxVx d a ty mk s
  | .bfly d a b c rnd ty => Sys2Proof.Machine.execBfly d a b c rnd ty s
  | .bflyVx d a b c rnd ty mk => Sys2Proof.Machine.execBflyVx d a b c rnd ty mk s
  | .twid d a n rnd ty => Sys2Proof.Machine.execTwid d a n rnd ty s
  | .twidVx d a n rnd ty mk => Sys2Proof.Machine.execTwidVx d a n rnd ty mk s
  | .cmul d a b conj rnd ty => Sys2Proof.Machine.execCmul d a b conj rnd ty s
  | .cmulVx d a b conj rnd ty mk => Sys2Proof.Machine.execCmulVx d a b conj rnd ty mk s
  | .vtrig d a cos rnd ty => Sys2Proof.Machine.execVtrig d a cos rnd ty s
  | .vtrigVx d a cos rnd ty mk => Sys2Proof.Machine.execVtrigVx d a cos rnd ty mk s
  | .vtanh d a rnd ty => Sys2Proof.Machine.execVtanh d a rnd ty s
  | .vtanhVx d a rnd ty mk => Sys2Proof.Machine.execVtanhVx d a rnd ty mk s
  | .mlog d a b op => Sys2Proof.Machine.execMlog d a b op s
  | .mpop d a op => Sys2Proof.Machine.execMpop d a op s
  | .sbind d a => Sys2Proof.Machine.execSbind d a s
  | .sunb d => Sys2Proof.Machine.execSunb d s
  | .sqry d a => Sys2Proof.Machine.execSqry d a s
  | .pour d a => Sys2Proof.Machine.execPour d a s
  | .bari d a b scope => Sys2Proof.Machine.execBari d a b scope s
  | .barx d a b scope => Sys2Proof.Machine.execBarx d a b scope s
  | .barw d a b scope => Sys2Proof.Machine.execBarw d a b scope s
  | .pourq d a => Sys2Proof.Machine.execPourq d a s
  | .hndq d a => Sys2Proof.Machine.execHndq d a s
  | .pload d a b c => Sys2Proof.Machine.execPload d a b c s
  | .pswap => Sys2Proof.Machine.execPswap s
  | .prun d a b c => Sys2Proof.Machine.execPrun d a b c s
  | .paccReg d a => Sys2Proof.Machine.execPaccReg d a s
  | .paccMem a b src rnd sat ty => Sys2Proof.Machine.execPaccMem a b src rnd sat ty s
  | .ptest d => Sys2Proof.Machine.execPtest d s
  | .ptestStamp d a => Sys2Proof.Machine.execPtestStamp d a s
  | .pqry d => Sys2Proof.Machine.execPqry d s
  | .gsort d a b c => Sys2Proof.Machine.execGsort d a b c s
  | .gqry d => Sys2Proof.Machine.execGqry d s
  | .send a b => Sys2Proof.Machine.execSend a b s
  | .sendm a b => Sys2Proof.Machine.execSendm a b s
  | .spawn d a b scope => Sys2Proof.Machine.execSpawn d a b scope s
  | .launch a => Sys2Proof.Machine.execLaunch a s
  | .stealc d which clr => Sys2Proof.Machine.execStealc d which clr s
  | .ltcfg d a => Sys2Proof.Machine.execLtcfg d a s
  | .ltlink out slot a b => Sys2Proof.Machine.execLtlink out slot a b s
  | .ltsend slot a b c => Sys2Proof.Machine.execLtsend slot a b c s
  | .ltclk d => Sys2Proof.Machine.execLtclk d s
  | .ltdrip all slot a => Sys2Proof.Machine.execLtdrip all slot a s
  | .ltqry d a => Sys2Proof.Machine.execLtqry d a s
  | .gang d a size => Sys2Proof.Machine.execGang d a size s
  | .disb => Sys2Proof.Machine.execDisb s
  | .coll d a => Sys2Proof.Machine.execColl d a s
  | .collw d a => Sys2Proof.Machine.execCollw d a s
  | .getc d w => Sys2Proof.Machine.execGetc d w s
  | .setc w a => Sys2Proof.Machine.execSetc w a s
  | .time d => Sys2Proof.Machine.execTime d s
  | .cyc d => Sys2Proof.Machine.execCyc d s
  | .eret skip => Sys2Proof.Machine.execEret skip s
  | .bkpt code => Sys2Proof.Machine.execBkpt code s
  | .trace a tag => Sys2Proof.Machine.execTrace a tag s
  | .enrg d => Sys2Proof.Machine.execEnrg d s
  | .illop enc => Sys2Proof.Machine.execIllop enc s
  | .sequentialFlowBadtgt core => Sys2Proof.Machine.execSequentialFlowBadtgt core s
  | .releaseEntries core => Sys2Proof.Machine.execReleaseEntries core s
  | .landEntry k => Sys2Proof.Machine.execLandEntry k s
  | .entryAck k => Sys2Proof.Machine.execEntryAck k s
  | .commit core => Sys2Proof.Machine.execCommit core s
  | .commitNoticeServe k => Sys2Proof.Machine.execCommitNoticeServe k s
  | .commitComplete core => Sys2Proof.Machine.execCommitComplete core s
  | .abortNoticeServe k => Sys2Proof.Machine.execAbortNoticeServe k s
  | .requestServe k => Sys2Proof.Machine.execRequestServe k s
  | .replyArrival k => Sys2Proof.Machine.execReplyArrival k s
  | .resultDelivery core k => Sys2Proof.Machine.execResultDelivery core k s
  | .pageWalk core va => Sys2Proof.Machine.execPageWalk core va s
  | .retransmitTimeout k => Sys2Proof.Machine.execRetransmitTimeout k s
  | .strike cluster region => Sys2Proof.Machine.execStrike cluster region s
  | .strikeReport k => Sys2Proof.Machine.execStrikeReport k s
  | .budgetExhausted core => Sys2Proof.Machine.execBudgetExhausted core s
  | .dispatch core => Sys2Proof.Machine.execDispatch core s
  | .stealAttempt core victim => Sys2Proof.Machine.execStealAttempt core victim s
  | .stealWaitExpiry core => Sys2Proof.Machine.execStealWaitExpiry core s
  | .park core => Sys2Proof.Machine.execPark core s
  | .watchReady core slot => Sys2Proof.Machine.execWatchReady core slot s
  | .waitmRetest core => Sys2Proof.Machine.execWaitmRetest core s
  | .trapHandlerDispatch core => Sys2Proof.Machine.execTrapHandlerDispatch core s
  | .trapRingResume core => Sys2Proof.Machine.execTrapRingResume core s
  | .ploadExecute core => Sys2Proof.Machine.execPloadExecute core s
  | .pswapExecute core => Sys2Proof.Machine.execPswapExecute core s
  | .prunFinish core => Sys2Proof.Machine.execPrunFinish core s
  | .ptestFinish core => Sys2Proof.Machine.execPtestFinish core s
  | .grinderSliceFinish core => Sys2Proof.Machine.execGrinderSliceFinish core s
  | .engineCompletion core seq => Sys2Proof.Machine.execEngineCompletion core seq s
  | .enginePreimageFree core seq => Sys2Proof.Machine.execEnginePreimageFree core seq s
  | .pourStart cluster ch => Sys2Proof.Machine.execPourStart cluster ch s
  | .pourFlitLand cluster ch f => Sys2Proof.Machine.execPourFlitLand cluster ch f s
  | .pourReceiverCompletion cluster ch recv => Sys2Proof.Machine.execPourReceiverCompletion cluster ch recv s
  | .streamFill core code => Sys2Proof.Machine.execStreamFill core code s
  | .gangForm core => Sys2Proof.Machine.execGangForm core s
  | .gangWaitTimeout core => Sys2Proof.Machine.execGangWaitTimeout core s
  | .dripLand k => Sys2Proof.Machine.execDripLand k s
  | .idleAdvance core => Sys2Proof.Machine.execIdleAdvance core s
  | .idleDripPeriod core => Sys2Proof.Machine.execIdleDripPeriod core s
  | .releaseMark core => Sys2Proof.Machine.execReleaseMark core s
  | .waveStart ctx lnch => Sys2Proof.Machine.execWaveStart ctx lnch s
  | .waveCombine ctx lnch => Sys2Proof.Machine.execWaveCombine ctx lnch s
  | .doneBlockWrite ctx lnch => Sys2Proof.Machine.execDoneBlockWrite ctx lnch s
  | .taskRecordPush ctx lnch => Sys2Proof.Machine.execTaskRecordPush ctx lnch s
  | .leaseDrained cluster row => Sys2Proof.Machine.execLeaseDrained cluster row s
  | .leaseLoaded cluster row => Sys2Proof.Machine.execLeaseLoaded cluster row s
  | .scrub what err => Sys2Proof.Machine.execScrub what err s
  | .flitReceive port f => Sys2Proof.Machine.execFlitReceive port f s
  | .linkReplay port first => Sys2Proof.Machine.execLinkReplay port first s
  | .portTrain port pkg nport => Sys2Proof.Machine.execPortTrain port pkg nport s
  | .timeExchange t1 t2 t3 t4 => Sys2Proof.Machine.execTimeExchange t1 t2 t3 t4 s
  | .collContribute core seq => Sys2Proof.Machine.execCollContribute core seq s
  | .collCombine core seq => Sys2Proof.Machine.execCollCombine core seq s
  | .collResultLand core seq => Sys2Proof.Machine.execCollResultLand core seq s
  | .collOutputExpiry core seq => Sys2Proof.Machine.execCollOutputExpiry core seq s
  | .config ch => Sys2Proof.Machine.execConfig ch s
  | .loadsh ch => Sys2Proof.Machine.execLoadsh ch s
  | .spillsh ch => Sys2Proof.Machine.execSpillsh ch s
  | .swap ch => Sys2Proof.Machine.execSwap ch s
  | .swapSettle ctx => Sys2Proof.Machine.execSwapSettle ctx s
  | .swapEnter ctx => Sys2Proof.Machine.execSwapEnter ctx s
  | .rowReloadDone cluster row => Sys2Proof.Machine.execRowReloadDone cluster row s
  | .halt ch => Sys2Proof.Machine.execHalt ch s
  | .haltRecordWrite core => Sys2Proof.Machine.execHaltRecordWrite core s
  | .resume ch => Sys2Proof.Machine.execResume ch s
  | .step ch => Sys2Proof.Machine.execStep ch s
  | .stepDone core => Sys2Proof.Machine.execStepDone core s
  | .kill ch => Sys2Proof.Machine.execKill ch s
  | .revoke ch => Sys2Proof.Machine.execRevoke ch s
  | .revokeDone ch => Sys2Proof.Machine.execRevokeDone ch s
  | .free ch => Sys2Proof.Machine.execFree ch s
  | .unknownOpcode ch => Sys2Proof.Machine.execUnknownOpcode ch s
  | .grun ch => Sys2Proof.Machine.execGrun ch s
  | .gstop ch => Sys2Proof.Machine.execGstop ch s
  | .tagset ch => Sys2Proof.Machine.execTagset ch s
  | .tlbinv ch => Sys2Proof.Machine.execTlbinv ch s
  | .power ch => Sys2Proof.Machine.execPower ch s
  | .graphLaunchNode die slot => Sys2Proof.Machine.execGraphLaunchNode die slot s
  | .graphCopyNode die slot => Sys2Proof.Machine.execGraphCopyNode die slot s
  | .graphWaitNode die slot => Sys2Proof.Machine.execGraphWaitNode die slot s
  | .graphWaitTimeout die slot => Sys2Proof.Machine.execGraphWaitTimeout die slot s
  | .graphCondNode die slot => Sys2Proof.Machine.execGraphCondNode die slot s
  | .graphNotifyNode die slot => Sys2Proof.Machine.execGraphNotifyNode die slot s
  | .graphSignalNode die slot => Sys2Proof.Machine.execGraphSignalNode die slot s
  | .graphEndNode die slot => Sys2Proof.Machine.execGraphEndNode die slot s
  | .graphNodeDone die slot => Sys2Proof.Machine.execGraphNodeDone die slot s
  | .ringConsReread j => Sys2Proof.Machine.execRingConsReread j s
  | .ringInterruptTimer j => Sys2Proof.Machine.execRingInterruptTimer j s
  | .bar2Read off n => Sys2Proof.Machine.execBar2Read off n s
  | .bar2Write req off data => Sys2Proof.Machine.execBar2Write req off data s
  | .bar2WriteRelease req => Sys2Proof.Machine.execBar2WriteRelease req s
  | .controlRegisterWrite off value => Sys2Proof.Machine.execControlRegisterWrite off value s
  | .eflgClear ctx value => Sys2Proof.Machine.execEflgClear ctx value s
  | .mismatchCountClear uncorr => Sys2Proof.Machine.execMismatchCountClear uncorr s
  | .portCountClear port downs => Sys2Proof.Machine.execPortCountClear port downs s
  | .debugRead core what committed => Sys2Proof.Machine.execDebugRead core what committed s
  | .debugWrite core off data => Sys2Proof.Machine.execDebugWrite core off data s
  | .thermalTrip => Sys2Proof.Machine.execThermalTrip s
  | .conventionalReset => Sys2Proof.Machine.execConventionalReset s
  | .selfTestDone fn pass => Sys2Proof.Machine.execSelfTestDone fn pass s
  | .firmwareVerify image version => Sys2Proof.Machine.execFirmwareVerify image version s
  | .getVersion req => Sys2Proof.Machine.execGetVersion req s
  | .getCapabilities req => Sys2Proof.Machine.execGetCapabilities req s
  | .negotiateAlgorithms req => Sys2Proof.Machine.execNegotiateAlgorithms req s
  | .getDigests req => Sys2Proof.Machine.execGetDigests req s
  | .getCertificate req => Sys2Proof.Machine.execGetCertificate req s
  | .challenge req => Sys2Proof.Machine.execChallenge req s
  | .getMeasurements req => Sys2Proof.Machine.execGetMeasurements req s
  | .commandCompletion ch => Sys2Proof.Machine.execCommandCompletion ch s

end Sys2Proof.Machine
end

