-- ==== Sys2Proof/Machine/Issue.lean ====
section
/-! DEFINITION. The turn of a core: its clk, the head it issues, gangs, breakpoints, stepping; and what moves when nothing is
scheduled (spec/01 R13, R17, spec/03 R77, spec/04 R100, R101, spec/14 R300, R301, spec/20 R393 to R398). -/

namespace Sys2Proof.Machine

/-! ### The clock of a core -/

/-- Ninths that correct global time while the running time goes from a to b: at most one for each 21 clk (spec/24 R439). -/
def slew (skew : Int) (a b : Nat) : Int :=
  let n : Int := (b / 5040 : Nat) - (a / 5040 : Nat)
  if 0 ≤ skew then min n skew else max (-n) skew

/-- The clk of the core in focus passes, with those by which it lags behind the package. -/
def State.tick (s : State) : State :=
  let c := s.me
  let n := max 1 ((s.el9 - c.at9) / s.rate)
  let at9 := max s.el9 (c.at9 + n * s.rate)
  let adj := slew s.skew s.el9 at9
  ({ s with gt9 := (s.gt9 + (at9 - s.el9) + adj).toNat, skew := s.skew - adj, el9 := at9 } : State).passClk n

/-! ### Whether the head at pc may issue -/

/-- A follower issues in the turns of its leader (spec/14 R300). -/
def Core.isFollower (c : Core) : Bool := c.gang.any fun g => g.idx != 0

/-- The breakpoint register that stops the core before the head at pc. -/
def State.headBreak (s : State) : Option Nat :=
  if s.bkpts.isEmpty || s.me.passing.isSome then none
  else
    let ctx := s.me.act.ctx.toNat
    (List.range 8).find? fun r =>
      let e := s.bkptWord ctx r 0
      e.getLsbD 63 && !e.getLsbD 60 && (e.getLsbD 62 || e.getLsbD 61) && s.bkptHead ctx r (some s.me.pc) s.me.ctl.tid

/-! ### Own lines that a thread access touches (spec/20 R398) -/

/-- Bytes of own local memory at an address. -/
def State.ownBytes (s : State) (e : W64) (n : Nat) : List (Nat × Nat) :=
  match s.place e with
  | .own off | .raw off => [(off, n)]
  | .core k off => if k = s.cur then [(off, n)] else []
  | _ => []

/-- Bytes of an own structure window that an access names. -/
def State.windowBytes (s : State) (e : W64) (n : Nat) : List (Nat × Nat) :=
  match s.strongPlace e with
  | .window b off => [(65536 * b + off, n)]
  | _ => []

def operandOf (a : Src) (c : Core) : W64 := match readS a c with | .ok (x, _) => x | .error _ => BitVec.allOnes 64
def operandV (a : VSrc) (c : Core) : Line := match readV a c with | .ok (x, _) => x | .error _ => 0

/-- The lanes of a gather or scatter. -/
def State.laneBytesOf (s : State) (a : Src) (b : VSrc) (t : Ty) : List (Nat × Nat) :=
  (List.range t.lanes).flatMap fun i =>
    s.ownBytes (laneAddr (operandOf a s.me) (operandV b s.me) (t.width / 8) i) (t.width / 8)

/-- Own lines that an instruction reads or writes, blocks that it reads at issue among them. -/
def State.touches (s : State) (i : Instr) : List (Nat × Nat) :=
  let at_ := fun (a : Src) (off : W64) (n : Nat) => s.ownBytes (operandOf a s.me + off) n
  match i with
  | .ld _ a t off => at_ a (off.signExtend 64) (t.width / 8)
  | .st t a _ off => at_ a (off.signExtend 64) (t.width / 8)
  | .ldv _ a _ off _ => at_ a (off.signExtend 64) 64
  | .stv _ a _ off _ => at_ a (off.signExtend 64) 64
  | .lds _ a _ t | .sts a _ _ t | .aadd _ a _ _ t | .amnx _ a _ _ _ t | .alog _ a _ _ _ t | .aswp _ a _ _ t | .acas _ a _ _ _ t
  | .waitm _ a _ _ _ t => at_ a 0 (t.width / 8)
  | .bari _ a _ _ | .barx _ a _ _ | .barw _ a _ _ => at_ a 0 16
  | .sendm _ a | .spawn _ _ a _ | .launch a | .sbind _ a | .pour _ a | .coll _ a => at_ a 0 64
  | .gath _ a b t | .gathVx _ a b t _ => s.laneBytesOf a b t
  | .scat a b _ t | .scatVx a b _ t _ => s.laneBytesOf a b t
  | .paccMem a b _ _ _ t =>
    let w := operandOf b s.me
    (List.range (bits w 15 8 + 1)).flatMap fun r =>
      s.ownBytes (operandOf a s.me + ofNat (16 * bits w 30 23 * r)) ((bits w 21 16 + 1) * (t.width / 8))
  | _ => []

/-- The instruction acts on a structure: a window, or a bank as a whole. -/
def State.structural (s : State) (i : Instr) : Bool :=
  match i with
  | .bheap .. | .bcfg .. | .bspan .. | .bclr .. | .bqry .. => true
  | .ld _ a _ off => (match s.place (operandOf a s.me + off.signExtend 64) with | .window .. => true | _ => false)
  | .st _ a _ off => (match s.place (operandOf a s.me + off.signExtend 64) with | .window .. => true | _ => false)
  | .lds _ a _ _ | .sts a _ _ _ | .aadd _ a _ _ _ | .amnx _ a _ _ _ _ | .alog _ a _ _ _ _ | .aswp _ a _ _ _ | .acas _ a _ _ _ _
  | .waitm _ a _ _ _ _ | .xch _ a _ _ => (match s.place (operandOf a s.me) with | .window .. => true | _ => false)
  | _ => false

/-- Own structure windows that an instruction names. -/
def State.windows (s : State) (i : Instr) : List (Nat × Nat) :=
  match i with
  | .ld _ a t off => s.windowBytes (operandOf a s.me + off.signExtend 64) (t.width / 8)
  | .st t a _ off => s.windowBytes (operandOf a s.me + off.signExtend 64) (t.width / 8)
  | .lds _ a _ t | .sts a _ _ t => s.windowBytes (operandOf a s.me) (t.width / 8)
  | .xch _ a _ _ => s.windowBytes (operandOf a s.me) 8
  | _ => []

/-- Own bytes of the stream elements that the core in focus has popped or pushed between s and t (log 12). -/
def State.elements (s t : State) (out : Bool) : List (Nat × Nat) :=
  (s.me.streams.filter fun u => u.out == out && u.hdl.isNone).flatMap fun u =>
    let n := ((t.me.stream? u.code).map fun v => v.pos - u.pos).getD 0
    (List.range (n * u.unit)).map fun j => (u.addr (u.pos * u.unit + j), u.esz)

/-- What breakpoints and the energy meter see of the instruction that led from s to t at the core in focus, where it has retired
(spec/20 R398, R403). -/
def State.observe1 (s : State) (i : Instr) (t : State) : State :=
  if t.me.wait.isSome || t.me.report.isSome || !t.me.running || t.me.act.no != s.me.act.no then t
  else
    let x := s.touches i ++ s.elements t true
    let ctx := s.me.act.ctx.toNat
    let maps := match i with | .coll _ a => (CollDesc.of (Mem.msg s.me.mem (operandOf a s.me).toNat)).entries.length | _ => 0
    let t' := ((t.charge ctx 9 maps).charge ctx 2 (nunion [] (x.flatMap fun y => linesOf y.1 y.2)).length).charge ctx 3 (if s.structural i then 1 else 0)
    (x ++ s.windows i ++ s.elements t false).foldl (fun (t : State) y => t.lineBreak s.cur (some s.me.pc) s.cur y.1 y.2) t'

/-- The same for every member of a gang. -/
def State.observe (s : State) (i : Instr) (t : State) : State :=
  if s.bkpts.isEmpty && s.weights.toList.all (· == 0) || t.cur != s.cur then t
  else s.gangOf.foldl (fun t k => ((s.focus k).observe1 i (t.focus k)).focus s.cur) t

/-! ### Gangs (spec/14 R300, R301, spec/05 R108) -/

/-- Instructions that the leader performs for every member: ends, and those that its decode refuses (spec/04 R101, spec/05 R108,
spec/10 R266). -/
def leads (i : Instr) : Bool :=
  match i with
  | .endAct | .disb | .eret _ | .yield | .migr _ => true
  | .setc w _ => (cwMask w 0).isNone
  | .ltcfg .. | .ltlink .. | .ltsend .. | .ltdrip .. | .ltclk .. | .ltqry .. => true
  | _ => false

/-- Lanes that combine across the members: each takes the others' registers as they stood before the head (spec/08 R205, R206). -/
def combines (i : Instr) : Bool :=
  match i with
  | .vred _ _ op _ _ | .vredVx _ _ op _ _ _ | .vscan _ _ op _ _ | .vscanVx _ _ op _ _ _ => redWide op
  | _ => false

/-- A follower takes the leader's direction whatever its own condition says (spec/05 R108): it branches, if at all, to its own head, which is
valid, before it goes on with the leader. -/
def follow (i : Instr) (pc : W64) : Instr :=
  let t := BitVec.ofNat 14 (pc.toNat / 2)
  match i with
  | .br cc a b _ => .br cc a b t
  | .bri cc a k _ => .bri cc a k t
  | .bst cc _ => .bst cc t
  | .loop d a _ => .loop d a t
  | i => i

/-- What one member would do at the head: it issues, waits, takes a boundary first, raises a cause, or something takes it back. -/
inductive Try where
  | issues | waits (w : Wait) | bounds (kind : Boundary) | traps (r : Report) | other
deriving DecidableEq, Repr

/-- Member k, seen alone: a stopped core settles no report. -/
def State.try1 (exec : Instr → State → Out) (i : Instr) (s : State) (k : Nat) : Try × State :=
  let s := s.focus k
  let s := { s with me := { s.me with stopped := true } }
  match exec i s with
  | .next t =>
    let c := t.core k
    let x := match c.report with
      | some r => if r.point = 0 then Try.traps r else .other
      | none =>
        if !c.running then .other
        else if s.me.closing.length < c.closing.length ∧ c.wait.isSome then .bounds ((c.closing.getLast?.map (·.kind)).getD .phase)
        else match c.wait with
          | some .reads => if c.nord = s.me.nord then .waits .reads else .other
          | some .reply => if c.irrev = s.me.irrev then .waits .reply else .issues
          | some w => .waits w
          | none => .issues
    (x, t)
  | _ => (.other, s)

/-- The instruction in member k. -/
def State.inMember (exec : Instr → State → Out) (i : Instr) (s : State) (k : Nat) : State :=
  match exec i (s.focus k) with
  | .next t => t.focus s.cur
  | _ => s

def Try.wait? : Try → Option Wait
  | .waits w => some w
  | _ => none
def Try.bound? : Try → Option Boundary
  | .bounds k => some k
  | _ => none
def Try.trap? : Try → Option Report
  | .traps r => some r
  | _ => none

/-- Every member takes the boundary that one of them needs, and the segments commit together. -/
def State.gangBound (s : State) (ms : List Nat) (tries : List (Nat × Try)) (kind : Boundary) : State :=
  match gangReady s ms with
  | .error (.wait w) => s.waiting w
  | .error _ => s
  | .ok _ =>
    let needs := fun (k : Nat) => tries.any fun x => x.1 == k && x.2.bound?.isSome
    let s := onCores ms (fun s =>
      let c := s.me.close kind s.me.pc .nothing
      let c := if kind = .irrevocable ∧ needs s.cur then { c with irrev := some .bounded } else c
      { s with me := { c with wait := some .commit } }) s
    s.linkMates ms

/-- The head in the members of the list, each on what those before it left; `apart`: each on the state s₀ before the head. A member that
cannot issue after others have stops them all: none has issued then. -/
def State.runMembers (exec : Instr → State → Out) (form : Nat → Instr) (apart : Bool) (s0 : State) : List Nat → State → Except (Nat × Try) State
  | [], s => .ok s
  | k :: ks, s =>
    if apart then State.runMembers exec form apart s0 ks (s.setCore k ((s0.inMember exec (form k) k).core k))
    else match (s.try1 exec (form k) k).1 with
      | .issues => State.runMembers exec form apart s0 ks (s.inMember exec (form k) k)
      | x => .error (k, x)

/-- A head that sent remote weak reads in some member leaves a mark in each: their state before it (spec/05 R139, spec/11 R283). -/
def State.markHead (s t : State) (ms : List Nat) : State :=
  let hold := ms.flatMap fun k => ((t.core k).reads.filter fun r => decide ((s.core k).nord ≤ r.id)).map fun r => (k, r.id)
  if hold.isEmpty then t
  else
    let gno := (ms.flatMap fun k => (t.core k).marks.map (·.gno)).foldl max 0 + 1
    onCores ms (fun t =>
      let c := s.core t.cur
      { t with me := { t.me with marks := t.me.marks ++ [⟨gno, c.nord, c.pc, ⟨c.regs, c.ctl, c.streams, c.pend⟩, hold⟩] } }) t

/-- The request of the core's access is out. -/
def Core.awaits (c : Core) : Bool := match c.irrev with | some (.sent _) => true | _ => false

/-- Every member of the gang stands at the leader's head, those that wait for a reply apart. -/
def State.alignGang (s : State) (ms : List Nat) : State :=
  if s.me.awaits then s
  else onCores (ms.filter (· != s.cur)) (fun t => if t.me.awaits then t else { t with me := { t.me with pc := s.me.pc } }) s

/-- The leader's instruction in every member, in one clk, once it can issue in each. -/
def gangIssue (exec : Instr → State → Out) (i : Instr) (s : State) : Out :=
  let ms := s.gangOf
  if ms.any fun k => (s.core k).awaits then .next (s.waiting .reply)
  else if leads i then exec i s
  else
    let s := s.alignGang ms
    let form := fun (k : Nat) => if k = s.cur then i else follow i s.me.pc
    let tries := ms.map fun k => (k, (s.try1 exec (form k) k).1)
    match tries.find? fun x => x.2 == .other with
    | some x => .next (s.inMember exec (form x.1) x.1)
    | none =>
      let traps := tries.filterMap fun x => x.2.trap?.map fun r => (x.1, r)
      if !traps.isEmpty then .next (s.takeTrap traps)
      else match tries.findSome? fun x => x.2.bound?, tries.findSome? fun x => x.2.wait? with
        | some k, _ => .next (s.gangBound ms tries k)
        | none, some w => .next (s.waiting w)
        | none, none =>
          match State.runMembers exec form (combines i) s ms s with
          | .error (_, .waits w) => .next (s.waiting w)
          | .error (k, .bounds kind) => .next (s.gangBound ms [(k, .bounds kind)] kind)
          | .error (k, .traps r) => .next (s.takeTrap [(k, r)])
          | .error (k, _) => .next (s.inMember exec (form k) k)
          | .ok t =>
            let t := s.markHead (t.alignGang ms) ms
            let grew := ms.all fun k => decide ((s.core k).closing.length < (t.core k).closing.length)
            .next (if grew then t.linkMates ms else t)

/-! ### The order of a head's causes (spec/11 R277) -/

/-- A source operand. -/
inductive Operand where
  | s (a : Src) | v (a : VSrc) | m (a : MSrc)

/-- The source operands that an instruction always reads, in their order. -/
def sources (i : Instr) : List Operand :=
  match i with
  | .jmpr a | .callr a | .ret a | .bri _ a _ _ | .loop _ a _ | .migr a | .trapReg _ a | .addi _ a _ | .addiAbi32 _ a _ | .andi _ a _ |
    .andiAbi32 _ a _ | .ori _ a _ | .oriAbi32 _ a _ | .xori _ a _ | .xoriAbi32 _ a _ | .muli _ a _ | .muliAbi32 _ a _ | .shli _ a _ _ |
    .shri _ a _ _ | .clz _ a | .clzAbcm _ a _ | .ctz _ a | .ctzAbcm _ a _ | .popc _ a | .popcAbcm _ a _ | .abs _ a | .absAbcm _ a _ |
    .bfx _ a _ _ _ | .wfld _ a _ | .fsqrt _ a _ _ | .fcvt _ a _ _ _ _ | .fclass _ a _ | .frnd _ a _ _ _ | .ld _ a _ _ | .ldv _ a _ _ _ |
    .lds _ a _ _ | .bqry _ a | .bspan _ a | .bclr _ a | .vbcast _ a _ | .vbcastVx _ a _ _ | .mpop _ a _ | .sbind _ a | .sqry _ a |
    .pour _ a | .pourq _ a | .hndq _ a | .paccReg _ a | .ptestStamp _ a | .launch a | .ltcfg _ a | .ltdrip _ _ a | .ltqry _ a |
    .gang _ a _ | .coll _ a | .collw _ a | .setc _ a | .trace a _ => [.s a]
  | .br _ a b _ | .add _ a b | .addAbcm _ a b _ | .sub _ a b | .subAbcm _ a b _ | .mul _ a b | .mulAbcm _ a b _ | .mulh _ a b |
    .mulhAbcm _ a b _ | .div _ a b | .divAbcm _ a b _ | .rem _ a b | .remAbcm _ a b _ | .and _ a b | .andAbcm _ a b _ | .or _ a b |
    .orAbcm _ a b _ | .xor _ a b | .xorAbcm _ a b _ | .shl _ a b | .shlAbcm _ a b _ | .shr _ a b | .shrAbcm _ a b _ | .rot _ a b |
    .rotAbcm _ a b _ | .min _ a b | .minAbcm _ a b _ | .max _ a b | .maxAbcm _ a b _ | .slt _ a b | .sltAbcm _ a b _ | .bfi _ a b _ _ |
    .fadd _ a b _ _ | .fsub _ a b _ _ | .fmul _ a b _ _ | .fdiv _ a b _ _ | .fmin _ a b _ | .fmax _ a b _ | .fcmp _ a b _ _ |
    .fsgn _ a b _ _ | .st _ a b _ | .sts a b _ _ | .aadd _ a b _ _ | .amnx _ a b _ _ _ | .alog _ a b _ _ _ | .aswp _ a b _ _ |
    .waitm _ a b _ _ _ | .bcfg _ a b | .xch _ a b _ | .bheap _ a b | .bari _ a b _ | .barx _ a b _ | .barw _ a b _ |
    .paccMem a b _ _ _ _ | .pload _ a b _ | .prun _ a b _ | .gsort _ a b _ | .send a b | .sendm a b | .spawn _ a b _ | .ltlink _ _ a b => [.s a, .s b]
  | .vadd _ a b _ _ | .vaddVx _ a b _ _ _ | .vsub _ a b _ _ | .vsubVx _ a b _ _ _ | .vmul _ a b _ _ | .vmulVx _ a b _ _ _ |
    .vdiv _ a b _ _ | .vdivVx _ a b _ _ _ | .vmin _ a b _ | .vminVx _ a b _ _ | .vmax _ a b _ | .vmaxVx _ a b _ _ | .vcmp _ a b _ _ |
    .vcmpVx _ a b _ _ _ | .vsgn _ a b _ _ | .vsgnVx _ a b _ _ _ | .viadd _ a b | .viaddAbcm _ a b _ | .viaddVx _ a b _ _ | .visub _ a b |
    .visubAbcm _ a b _ | .visubVx _ a b _ _ | .vimul _ a b | .vimulAbcm _ a b _ | .vimulVx _ a b _ _ | .vand _ a b | .vandAbcm _ a b _ |
    .vandVx _ a b _ _ | .vor _ a b | .vorAbcm _ a b _ | .vorVx _ a b _ _ | .vxor _ a b | .vxorAbcm _ a b _ | .vxorVx _ a b _ _ |
    .vshl _ a b | .vshlAbcm _ a b _ | .vshlVx _ a b _ _ | .vshr _ a b | .vshrAbcm _ a b _ | .vshrVx _ a b _ _ | .cmul _ a b _ _ _ |
    .cmulVx _ a b _ _ _ _ => [.v a, .v b]
  | .vsqrt _ a _ _ | .vsqrtVx _ a _ _ _ | .vred _ a _ _ _ | .vredVx _ a _ _ _ _ | .vscan _ a _ _ _ | .vscanVx _ a _ _ _ _ |
    .vexp2 _ a _ _ | .vexp2Vx _ a _ _ _ | .vlog2 _ a _ _ | .vlog2Vx _ a _ _ _ | .vrcp _ a _ _ | .vrcpVx _ a _ _ _ | .vrsq _ a _ _ |
    .vrsqVx _ a _ _ _ | .vcvt _ a _ _ _ _ _ | .vcvtVx _ a _ _ _ _ _ _ | .vunpk _ a _ _ _ _ | .vunpkVx _ a _ _ _ _ _ |
    .vpack _ a _ _ _ _ _ | .vpackVx _ a _ _ _ _ _ _ | .vamax _ a _ | .vamaxVx _ a _ _ | .twid _ a _ _ _ | .twidVx _ a _ _ _ _ |
    .vtrig _ a _ _ _ | .vtrigVx _ a _ _ _ _ | .vtanh _ a _ _ | .vtanhVx _ a _ _ _ => [.v a]
  | .sel _ a b c | .ffma _ a b c _ _ | .acas _ a b c _ _ | .ltsend _ a b c => [.s a, .s b, .s c]
  | .vfma _ a b c _ _ | .vfmaVx _ a b c _ _ _ | .vperm _ a b c _ | .vpermVx _ a b c _ _ | .bfly _ a b c _ _ |
    .bflyVx _ a b c _ _ _ => [.v a, .v b, .v c]
  | .stv _ a b _ _ | .gath _ a b _ | .gathVx _ a b _ _ => [.s a, .v b]
  | .vlane _ a b _ _ _ | .vscale _ a b _ _ _ _ | .vscaleVx _ a b _ _ _ _ _ => [.v a, .s b]
  | .scat a b c _ | .scatVx a b c _ _ => [.s a, .v b, .v c]
  | .vsel _ a b c _ | .vselVx _ a b c _ _ => [.v a, .v b, .m c]
  | .vslide _ a b c _ | .vslideVx _ a b c _ _ => [.v a, .v b, .s c]
  | .vcmpr _ a b _ | .vexpd _ a b _ => [.v a, .m b]
  | .viota _ a _ _ => [.m a]
  | .mlog _ a b _ => [.m a, .m b]
  | _ => []

def Operand.read (x : Operand) (c : Core) : Res Core :=
  match x with
  | .s a => (readS a c).map (·.2)
  | .v a => (readV a c).map (·.2)
  | .m a => (readM a c).map (·.2)

/-- What ReadOp itself decides: an EMPTY or a vacant register (spec/01 R13). -/
def Stop.ofReadOp : Stop → Bool
  | .wait _ => true
  | .trap r => r.cause == 0x101 || r.cause == 0x102
  | _ => false

/-- The first operand at which ReadOp waits or traps, where an earlier one names a stream that gives nothing (spec/14 R308). -/
def readFirst (late : Bool) : List Operand → Core → Option Stop
  | [], _ => none
  | x :: l, c => match x.read c with
    | .ok c => readFirst late l c
    | .error e => if e.ofReadOp then (if late then some e else none) else readFirst true l c

/-- The causes of R13 at any operand come before those of R308 at an earlier one, which are the instruction's own. -/
def State.byOrder (exec : Instr → State → Out) (i : Instr) (s : State) : Out :=
  match if s.me.streams.any fun (t : Stream) => t.out || t.done || t.revoked then readFirst false (sources i) s.me else none with
  | none => exec i s
  | some e => match (s.try1 exec i s.cur).1 with
    | .traps r => if r.cause = 0x202 ∨ r.cause = 0x405 then finish s (.error e) else exec i s
    | _ => exec i s

/-! ### Heads that a report has brought back (spec/15 R336, R337) -/

/-- The first thing owed to the rerun of the core that an instruction would do a second time. -/
def Core.owed? (c : Core) (i : Instr) : Option Repeat :=
  let hit := fun (p : EngKind → Bool) =>
    (c.again.find? fun x => x.met.isNone && x.op.isSome).bind fun x =>
      if c.ops.any fun o => x.op == some o.ord && o.head == c.pc && p o.kind then some x else none
  match i with
  | .pload .. => hit fun k => match k with | .pload .. => true | _ => false
  | .pswap => hit fun k => k == .pswap
  | .prun .. => hit fun k => match k with | .prun .. => true | _ => false
  | .ptest .. | .ptestStamp .. => hit fun k => k == .ptest
  | .gsort .. => hit fun k => match k with | .gsort .. => true | _ => false
  | .pour .. => hit fun k => match k with | .pour .. => true | _ => false
  | .coll .. => hit fun k => match k with | .coll .. => true | _ => false
  | .trace .. => c.again.find? fun x => x.met.isNone && x.op.isNone
  | _ => none

/-- The state as if operation o of the core in focus had never issued: what the head saw that issued it. -/
def State.before (s : State) (o : EngOp) : State :=
  let mine := fun (p : PreImage) => decide (p.core = s.cur) && decide (p.seq = o.seq) && o.seq != 0
  let s := if o.seq = 0 then s else s.unlock s.cur (· == o.seq)
  { s with
    me := { s.me with
      ops := s.me.ops.filter fun p => p.ord != o.ord, ring := s.me.ring.filter fun p => !mine p
      engSeq := if o.kind = .pswap then s.me.engSeq else o.seq - 1 }
    pours := s.pours.filter fun q => !(decide (q.core = s.cur) && decide (q.seq = o.seq)) }

/-- The core in focus has met x again, and goes on as t does: the operation belongs to the activation that runs now, which has its flags too
where it was complete before (spec/02 R30, R31). -/
def State.meet (s t : State) (x : Repeat) : State :=
  let c := s.me
  let old := c.ops.find? fun o => x.op == some o.ord
  let late : Fl := (old.map fun o => if o.st = .complete ∧ o.no ≠ c.act.no then o.flags else 0).getD 0
  { s with me := { c with
      regs := t.me.regs, ctl := { t.me.ctl with flg := t.me.ctl.flg ||| late.setWidth 64 }, pc := t.me.pc, streams := t.me.streams
      rounds := t.me.rounds, wait := none, spin := 0
      again := c.again.replace x { x with met := some c.seg.id }
      ops := c.ops.map fun o => if x.op = some o.ord then { o with no := c.act.no, tid := c.ctl.tid } else o } }

/-- An instruction at the core in focus. One that would issue an engine operation or hold a TRACE record that stands from before a report
leaves the registers as it did then, and issues nothing (spec/05 R149, spec/15 R337); a rerun that takes another way issues its own. -/
def State.perform (exec : Instr → State → Out) (i : Instr) (s : State) : Out :=
  let exec := State.byOrder exec
  match s.me.owed? i with
  | none => exec i s
  | some x =>
    let s0 := (s.me.ops.find? fun o => x.op == some o.ord).elim s s.before
    match exec i s0 with
    | .next t =>
      if t.me.report.isSome || !t.me.running || t.me.act.no != s.me.act.no then exec i s
      else if s.me.closing.length < t.me.closing.length then .next s.implicitPhase
      else match t.me.wait with
        | some w => .next (s.waiting w)
        | none => .next (s.meet t x)
    | _ => exec i s

/-! ### A head (spec/04 R87, R100, R101) -/

/-- A reserved field holds a value that the manual reserves: RESV with the encoding and the mask (spec/04 R100). -/
def takeResv (r : Raw) (mask : W64) (s : State) : Out := finish s (trap s.me 0x002 r.enc mask 0)

/-- GANG's first check, of the handler's GANGOK, comes before that of its reserved fields (spec/14 R297), and after that of its tail
length (spec/04 R100). -/
def gangIllop (c : Core) (r : Raw) (mask : W64) : Bool := r.opc == 0xD0 && (mask &&& 0xC0) == 0 && !c.entry.getLsbD 61

def State.issue (exec : Instr → State → Out) (s : State) : Out :=
  match s.me.fetch s.me.pc with
  | none => execSequentialFlowBadtgt s.cur s
  | some r => match decode r with
    | .illop => exec (.illop r.enc) s
    | .resv mask => if gangIllop s.me r mask then exec (.illop r.enc) s else takeResv r mask s
    | .instr i =>
      match (if s.me.gang.isSome then gangIssue (State.perform exec) i s else s.perform exec i) with
      | .next t => .next (s.observe i t)
      | x => x

/-- The head has issued: it is done, or its request has left. -/
def Core.issued (c : Core) (before : Core) : Bool :=
  match c.wait with
  | none => true
  | some .reply => c.irrev != before.irrev
  | _ => false

/-- The wait is one that spins (spec/17 R358). -/
def State.spins (s : State) : Bool :=
  match s.me.wait with
  | some .poll => true
  | some .reply => s.chan.any (Packet.waitsFor s.cur)
  | _ => false

/-- Energy class of an issued head: vector rows 0x60 to 0x8F (spec/20 R403). -/
def energyClass (c : Core) : Nat :=
  match c.fetch c.pc with
  | some r => if 0x60 ≤ r.opc.toNat ∧ r.opc.toNat < 0x90 then 1 else 0
  | none => 0

/-- What follows at the core that took the turn: a step counts, a breakpoint is behind, a spin goes on. -/
def State.after (s t : State) : State :=
  if t.cur ≠ s.cur then t
  else if t.me.issued s.me then
    let t := { t with me := { t.me with steps := t.me.steps.map (· - 1), passing := none } }
    t.charge s.me.act.ctx.toNat (energyClass s.me) s.gangOf.length
  else { t with me := { t.me with spin := if t.spins then t.me.spin + 1 else 0 } }

/-- Requests of reads that wait for a permit leave, in every member (spec/17 R343); whether none waits any longer. -/
def State.sendAll (s : State) : List Nat → Bool × State
  | [] => (true, s)
  | k :: ks =>
    let x := (s.focus k).sendUnsent
    let y := State.sendAll (x.2.focus s.cur) ks
    (x.1 && y.1, y.2)

/-- The turn of the core in focus. -/
def State.turn (exec : Instr → State → Out) (s : State) : Out :=
  if 2 ≤ (s.power.toList.getD (dieOf s.cur) 0).toNat then .next { s with me := { s.me with at9 := s.el9 } }
  else if s.me.isFollower then .next s
  else
    let s := s.gangOf.foldl (fun s k => onCore k State.tick s) s
    let s := onCores s.gangOf State.drainTraces s
    if s.gangOf.any (fun k => (s.core k).report.isSome) then .next s.settle
    else if s.gangOf.any (fun k => !(s.core k).traceOut.isEmpty) then .next (s.waiting .ring)
    else match s.rollBad with
      | some t => .next t
      | none =>
        if !s.me.running || s.me.held? || s.spent then .next s
        else match s.sendAll s.gangOf with
        | (false, s) => .next (s.waiting .permit)
        | (true, s) => match s.headBreak with
          | some r => .next (s.haltAll s.me.act.ctx.toNat s.cur (.breakpoint r false))
          | none => match s.issue exec with
            | .next t => .next (s.after t)
            | x => x

/-! ### A program from outside (log 61) -/

/-- A line of one instruction: its head first, its tail at the end (spec/04 R83, R84). -/
def lineWith (r : Raw) : List Byte :=
  [r.tlen ++ r.dst, r.opc] ++ List.replicate (62 - 2 * r.tlen.toNat) 0 ++ [r.b0, r.b1, r.b2, r.b3, r.b4, r.b5].take (2 * r.tlen.toNat)

/-- The activation that stands at line 0: the running one, or one that a dispatch of a zero message would form. -/
def Core.placed (c : Core) : Core :=
  let c := if c.running then c
    else { c with running := true, act := { c.act with fresh := true }, regs := Regs.start Msg.zero, ctl := Ctl.start Msg.zero 0 }
  { c with
    pc := 0, wait := none, irrev := none, report := none, halted := none, stopped := false, gang := none, passing := some (.breakpoint 0 false), again := []
    ctl := { c.ctl with bud := ofNat (2 ^ 32) } }

def State.placeFirst (s : State) (r : Raw) : State :=
  { s with
    me := { s.me.placed with imem := Mem.put s.me.imem 0 (lineWith r) }
    power := s.power.setIfInBounds (dieOf s.cur) 0
    agenda := [.issue s.cur] }

end Sys2Proof.Machine
end

