-- ==== Sys2Proof/Machine/Round.lean ====
section
/-! DEFINITION. What moves when no turn is scheduled: a round, in which every running core and every agent has its turn, so that a step that
stays enabled is taken (spec/01 R17, log 8). -/

namespace Sys2Proof.Machine

/-! ### The package's own steps -/

/-- The command of channel ch, by its opcode (spec/21 R409). -/
def commandStep (ch : Nat) (s : State) : Out :=
  match (s.chan? ch).opcode.toNat with
  | 0x01 => execConfig ch s
  | 0x02 => execLoadsh ch s
  | 0x03 => execSpillsh ch s
  | 0x04 => execSwap ch s
  | 0x05 => execHalt ch s
  | 0x06 => execResume ch s
  | 0x07 => execStep ch s
  | 0x08 => execKill ch s
  | 0x09 => execRevoke ch s
  | 0x0A => execFree ch s
  | 0x10 => execGrun ch s
  | 0x11 => execGstop ch s
  | 0x12 => execTagset ch s
  | 0x13 => execTlbinv ch s
  | 0x14 => execPower ch s
  | _ => execUnknownOpcode ch s

/-- The node at which a graph slot stands, by its type; one that cannot be read stops the slot at any of them. -/
def graphStep (die slot : Nat) (s : State) : Out :=
  match ((s.nodeOf (s.slot (slotKey die slot))).toOption.map fun m => bits (m.w 0) 63 60).getD 0 with
  | 2 => execGraphCopyNode die slot s
  | 3 => execGraphWaitNode die slot s
  | 4 => execGraphCondNode die slot s
  | 5 => execGraphNotifyNode die slot s
  | 6 => execGraphSignalNode die slot s
  | 7 => execGraphEndNode die slot s
  | _ => execGraphLaunchNode die slot s

/-- A step that the package takes of itself. -/
def runAuto (n : Auto) (a b c : Nat) (s : State) : Out :=
  match n with
  | .releaseEntries => execReleaseEntries a s
  | .landEntry => execLandEntry a s
  | .entryAck => execEntryAck a s
  | .commit => execCommit a s
  | .commitNoticeServe => execCommitNoticeServe a s
  | .commitComplete => execCommitComplete a s
  | .abortNoticeServe => execAbortNoticeServe a s
  | .requestServe => execRequestServe a s
  | .replyArrival => execReplyArrival a s
  | .resultDelivery => execResultDelivery a b s
  | .retransmitTimeout => execRetransmitTimeout a s
  | .strikeReport => execStrikeReport a s
  | .budgetExhausted => execBudgetExhausted a s
  | .dispatch => execDispatch a s
  | .stealAttempt => execStealAttempt a b s
  | .stealWaitExpiry => execStealWaitExpiry a s
  | .park => execPark a s
  | .watchReady => execWatchReady a b s
  | .trapHandlerDispatch => execTrapHandlerDispatch a s
  | .trapRingResume => execTrapRingResume a s
  | .ploadExecute => execPloadExecute a s
  | .pswapExecute => execPswapExecute a s
  | .prunFinish => execPrunFinish a s
  | .ptestFinish => execPtestFinish a s
  | .grinderSliceFinish => execGrinderSliceFinish a s
  | .engineCompletion => execEngineCompletion a b s
  | .enginePreimageFree => execEnginePreimageFree a b s
  | .pourStart => execPourStart a b s
  | .pourFlitLand => execPourFlitLand (a / 16) (a % 16) ⟨b, c⟩ s
  | .pourReceiverCompletion => execPourReceiverCompletion (a / 16) (a % 16) b s
  | .streamFill => execStreamFill a b s
  | .gangForm => execGangForm a s
  | .gangWaitTimeout => execGangWaitTimeout a s
  | .dripLand => execDripLand a s
  | .idleAdvance => execIdleAdvance a s
  | .idleDripPeriod => execIdleDripPeriod a s
  | .releaseMark => execReleaseMark a s
  | .waveStart => execWaveStart a b s
  | .waveCombine => execWaveCombine a b s
  | .doneBlockWrite => execDoneBlockWrite a b s
  | .taskRecordPush => execTaskRecordPush a b s
  | .leaseDrained => execLeaseDrained a b s
  | .leaseLoaded => execLeaseLoaded a b s
  | .linkReplay => (match (s.port a).asked with | some x => execLinkReplay a x s | none => .next s)
  | .collContribute => execCollContribute a b s
  | .collCombine => execCollCombine a b s
  | .collResultLand => execCollResultLand a b s
  | .collOutputExpiry => execCollOutputExpiry a b s
  | .command => commandStep a s
  | .swapSettle => execSwapSettle a s
  | .swapEnter => execSwapEnter a s
  | .rowReloadDone => execRowReloadDone a b s
  | .haltRecordWrite => execHaltRecordWrite a s
  | .stepDone => execStepDone a s
  | .revokeDone => execRevokeDone a s
  | .graphNode => graphStep a b s
  | .graphWaitTimeout => execGraphWaitTimeout a b s
  | .graphNodeDone => execGraphNodeDone a b s
  | .ringConsReread => execRingConsReread a s
  | .ringInterruptTimer => execRingInterruptTimer a s
  | .postedRelease => execBar2WriteRelease a s
  | .commandCompletion => execCommandCompletion a s

/-! ### A round -/

/-- The steps on packet k: what its kind lets land, and its timeout. -/
def packetTurns (k : Nat) (p : Packet) : List Turn :=
  let n : Auto := match p.body with
    | .entry .. => .landEntry
    | .ack .. => .entryAck
    | .notice _ | .noticeAck .. => .commitNoticeServe
    | .abortAck _ => .entryAck
    | .abort _ => .abortNoticeServe
    | .request .. | .sub .. | .res .. => .requestServe
    | .reply .. | .subAck .. | .resAck .. => .replyArrival
    | .drip .. => .dripLand
  [.own n k 0 0, .own .retransmitTimeout k 0 0]

/-- The steps of core k. -/
def State.coreTurns (s : State) (k : Nat) : List Turn :=
  let c := s.core k
  let at_ := fun (n : Auto) => Turn.own n k 0 0
  let on := fun (n : Auto) (x : Nat) => Turn.own n k x 0
  let s' := s.focus k
  let victim := (s'.searchOrder (s'.lease (rowId k)))[c.victims]?
  [at_ .trapRingResume, at_ .trapHandlerDispatch, at_ .releaseEntries, at_ .commit, at_ .commitComplete, at_ .releaseMark, at_ .ploadExecute,
    at_ .pswapExecute, at_ .prunFinish, at_ .ptestFinish, at_ .grinderSliceFinish] ++
  c.ops.flatMap (fun o => [on .collContribute o.seq, on .collCombine o.seq, on .collResultLand o.seq, on .engineCompletion o.seq,
    on .enginePreimageFree o.seq]) ++ [on .enginePreimageFree 0] ++
  c.colls.map (fun x => on .collOutputExpiry x.1) ++
  c.streams.map (fun t => on .streamFill t.code) ++
  (List.range c.parks.length).map (on .watchReady) ++
  (List.range c.pend.length).reverse.map (on .resultDelivery) ++
  [at_ .gangForm, at_ .gangWaitTimeout, at_ .haltRecordWrite, at_ .stepDone, at_ .dispatch, at_ .park, at_ .budgetExhausted, at_ .idleAdvance,
    at_ .idleDripPeriod, at_ .stealWaitExpiry] ++ (victim.map (on .stealAttempt)).toList

/-- The steps of the hubs, the launch sequencers, the host interface and the ports. -/
def State.unitTurns (s : State) : List Turn :=
  s.pours.flatMap (fun p =>
    let h := 16 * p.cluster + p.ch
    [.own .pourStart p.cluster p.ch 0] ++ p.landed.flatMap fun x => [.own .pourFlitLand h x.1 (prefixOf x.2), .own .pourReceiverCompletion h x.1 0]) ++
  s.leases.flatMap (fun x =>
    let at_ := fun (n : Auto) => Turn.own n (x.1 / 8) (x.1 % 8) 0
    [at_ .leaseLoaded, at_ .leaseDrained, at_ .rowReloadDone]) ++
  s.launches.flatMap (fun l =>
    let at_ := fun (n : Auto) => Turn.own n l.ctx.toNat l.lnch.toNat 0
    [at_ .taskRecordPush, at_ .waveCombine, at_ .waveStart, at_ .doneBlockWrite]) ++
  (List.range s.strikes.length).reverse.map (fun k => .own .strikeReport k 0 0) ++
  (List.range 4).flatMap (fun ch =>
    if (s.chan? ch).busy then [.own .command ch 0 0, .own .revokeDone ch 0 0, .own .commandCompletion ch 0 0] else []) ++
  (s.ctxs.filter fun x => x.2.drain.isSome).flatMap (fun x => [.own .swapSettle x.1 0 0, .own .swapEnter x.1 0 0]) ++
  (s.slots.filter fun x => x.2.st == .running).flatMap (fun x =>
    let at_ := fun (n : Auto) => Turn.own n (x.1 / 16) (x.1 % 16) 0
    [at_ .graphNode, at_ .graphWaitTimeout, at_ .graphNodeDone]) ++
  s.rings.flatMap (fun x => [.own .ringConsReread x.1 0 0, .own .ringInterruptTimer x.1 0 0]) ++
  (nunion [] (s.posted.map (·.req))).map (fun q => .own .postedRelease q 0 0) ++
  s.ports.map (fun x => .own .linkReplay x.1 0 0)

/-- Cores that have left their reset state, or whose row serves a launch. -/
def State.awake (s : State) : List Nat := nunion s.cores ((s.leases.filter fun x => x.2.st != .free).flatMap fun x => rowCores x.1)

/-- Every other running core's turn, and then every step of the package's own; a turn of a step that is not enabled changes nothing. -/
def State.round (s : State) : List Turn :=
  ((s.cores.filter fun k => k != s.cur && (s.core k).running).map .issue) ++
  (s.chan.zipIdx.reverse.flatMap fun x => packetTurns x.2 x.1) ++ s.awake.flatMap s.coreTurns ++ s.unitTurns

/-- The turn of the core in focus; a round follows it. -/
def State.moveOn (exec : Instr → State → Out) (s : State) : Out :=
  match s.turn exec with
  | .next t => .next { t with agenda := t.round }
  | x => x

end Sys2Proof.Machine
end

