-- ==== Sys2Proof/Machine/Step.lean ====
section
/-! DEFINITION. One step of the package, by the turn at the head of the agenda (spec/01 R17), and an instruction placed where the
core in focus issues next. -/

namespace Sys2Proof.Machine

/-- A scheduled turn, or, with nothing scheduled, the turn of the core in focus, which a round of the others follows (log 8). -/
def step (s : State) : Host.Outcome State Fault Refusal :=
  match s.agenda with
  | [] => s.moveOn exec
  | .issue k :: l =>
    if k < Config.nCores then (({ s with agenda := l } : State).focus k).turn exec else .fault .noSuchUnit
  | .event i :: l => exec i { s with agenda := l }
  | .own n a b c :: l => runAuto n a b c { s with agenda := l }
  | .upset x flips :: l => .next (({ s with agenda := l } : State).upset x flips)

/-- An activation of the core in focus that stands at line 0, whose only instruction has the nbits bits of w (log 61). -/
def State.withFetchWord (s : State) (nbits w : Nat) : State := s.placeFirst (Raw.ofEnc (BitVec.ofNat 64 (w % 2 ^ nbits)))

end Sys2Proof.Machine
end

