-- ==== Sys2Proof/Safety.lean ====
section
/-! DEFINITION. The terms in which statements speak of a safe machine: what holds of every state that the machine means, and the
tables of spec/05 and spec/08 written out by instruction. -/

namespace Sys2Proof

open Machine

/-- Memory lists rising addresses and no zero byte (log 6). -/
def Machine.Core.memWf (c : Core) : Bool := c.mem.wf && c.imem.wf && c.acc.wf

namespace Safety

/-! ### The scalar integer tables (spec/05 R119, R121, R124) -/

/-- The w-bit pattern of a value. -/
def pat (t : Ty) (x : Int) : Nat := (x % (2 ^ t.width : Int)).toNat

/-- k of R119: the pattern of y modulo w. -/
def count (t : Ty) (y : Int) : Nat := pat t y % t.width

/-- An instruction of row 0x1_: its AB form, its ABCM form, and r on the narrowed operands. -/
structure AluRow where
  ab   : BitVec 6 → Src → Src → Instr
  abcm : BitVec 6 → Src → Src → Ty → Instr
  r    : Ty → Int → Int → Int

def aluRows : List AluRow :=
  [⟨.add, .addAbcm, fun _ x y => x + y⟩,
   ⟨.sub, .subAbcm, fun _ x y => x - y⟩,
   ⟨.mul, .mulAbcm, fun _ x y => x * y⟩,
   ⟨.mulh, .mulhAbcm, fun t x y => x * y / 2 ^ t.width⟩,
   ⟨.and, .andAbcm, fun t x y => ((pat t x &&& pat t y : Nat) : Int)⟩,
   ⟨.or, .orAbcm, fun t x y => ((pat t x ||| pat t y : Nat) : Int)⟩,
   ⟨.xor, .xorAbcm, fun t x y => ((pat t x ^^^ pat t y : Nat) : Int)⟩,
   ⟨.shl, .shlAbcm, fun t x y => ((pat t x * 2 ^ count t y : Nat) : Int)⟩,
   ⟨.shr, .shrAbcm, fun t x y => x / 2 ^ count t y⟩,
   ⟨.rot, .rotAbcm, fun t x y => ((pat t x * 2 ^ count t y % 2 ^ t.width + pat t x / 2 ^ (t.width - count t y) : Nat) : Int)⟩,
   ⟨.min, .minAbcm, fun _ x y => if x ≤ y then x else y⟩,
   ⟨.max, .maxAbcm, fun _ x y => if x ≤ y then y else x⟩,
   ⟨.slt, .sltAbcm, fun _ x y => if x < y then 1 else 0⟩]

/-- The quotient and the remainder of R120. -/
def quotient (t : Ty) (x y : Int) : Int := if y = 0 then (if t.isSInt then -1 else 2 ^ t.width - 1) else x.tdiv y
def remainder (x y : Int) : Int := if y = 0 then x else x - y * x.tdiv y

def divRows : List AluRow := [⟨.div, .divAbcm, quotient⟩, ⟨.rem, .remAbcm, fun _ => remainder⟩]

/-- The same row on 64-bit registers, in the arithmetic of words. -/
def wordRows : List ((BitVec 6 → Src → Src → Instr) × (W64 → W64 → W64)) :=
  [(.add, fun x y => x + y), (.sub, fun x y => x - y), (.mul, fun x y => x * y),
   (.mulh, fun x y => (x.signExtend 128 * y.signExtend 128).extractLsb' 64 64),
   (.and, fun x y => x &&& y), (.or, fun x y => x ||| y), (.xor, fun x y => x ^^^ y),
   (.shl, fun x y => x <<< (y.toNat % 64)), (.shr, fun x y => x.sshiftRight (y.toNat % 64)),
   (.rot, fun x y => x.rotateLeft (y.toNat % 64)),
   (.min, fun x y => if x.slt y then x else y), (.max, fun x y => if x.slt y then y else x),
   (.slt, fun x y => if x.slt y then 1 else 0)]

/-- An immediate instruction: its AI24 form, its ABI32 form, whether its literal is sign-extended, and r. -/
structure ImmRow where
  ai24  : BitVec 6 → Src → BitVec 24 → Instr
  abi32 : BitVec 6 → Src → BitVec 32 → Instr
  sext  : Bool
  r     : W64 → W64 → W64

def immRows : List ImmRow :=
  [⟨.addi, .addiAbi32, true, fun x m => x + m⟩,
   ⟨.andi, .andiAbi32, true, fun x m => x &&& m⟩,
   ⟨.ori, .oriAbi32, false, fun x m => x ||| m⟩,
   ⟨.xori, .xoriAbi32, false, fun x m => x ^^^ m⟩,
   ⟨.muli, .muliAbi32, true, fun x m => x * m⟩]

def literal {n : Nat} (signed : Bool) (m : BitVec n) : W64 := if signed then m.signExtend 64 else m.zeroExtend 64

/-- A bit count of R124 on the pattern p of w bits. -/
structure CountRow where
  ab   : BitVec 6 → Src → Instr
  abcm : BitVec 6 → Src → Ty → Instr
  is   : Nat → Nat → Nat → Prop

def countRows : List CountRow :=
  [⟨.clz, .clzAbcm, fun w p n => n ≤ w ∧ p < 2 ^ (w - n) ∧ (n < w → 2 ^ (w - n - 1) ≤ p)⟩,
   ⟨.ctz, .ctzAbcm, fun w p n => n ≤ w ∧ p % 2 ^ n = 0 ∧ (n < w → p.testBit n = true)⟩,
   ⟨.popc, .popcAbcm, fun w p n => n = ((List.range w).filter fun i => p.testBit i).length⟩]

/-! ### Conditions of a branch (spec/04 R97, R98, spec/05 R111) -/

def holds : Cond → W64 → W64 → Prop
  | .eq, x, y => x = y
  | .ne, x, y => x ≠ y
  | .lt, x, y => x.toInt < y.toInt
  | .ge, x, y => y.toInt ≤ x.toInt
  | .ltn, x, y => x.toNat < y.toNat
  | .gen, x, y => y.toNat ≤ x.toNat

/-! ### Operands of an instruction that completes

Each predicate says that the sources can be read and the destination is not EMPTY, names the values read, and gives the core
once the last uses have freed their registers: what an instruction of that shape needs of the state and of its operands. -/

def Reads1 (d : BitVec 6) (a : Src) (c0 : Core) (x : W64) (c : Core) : Prop :=
  destS d c0 = .ok () ∧ ∃ c1, readS a c0 = .ok (x, c1) ∧ c = freeS a c1

def Reads2 (d : BitVec 6) (a b : Src) (c0 : Core) (x y : W64) (c : Core) : Prop :=
  destS d c0 = .ok () ∧ ∃ c1 c2, readS a c0 = .ok (x, c1) ∧ readS b c1 = .ok (y, c2) ∧ c = freeS b (freeS a c2)

def Reads3 (d : BitVec 6) (a b e : Src) (c0 : Core) (x y z : W64) (c : Core) : Prop :=
  destS d c0 = .ok () ∧ ∃ c1 c2 c3, readS a c0 = .ok (x, c1) ∧ readS b c1 = .ok (y, c2) ∧ readS e c2 = .ok (z, c3) ∧
    c = freeS e (freeS b (freeS a c3))

/-- The core in focus has completed its instruction as c and stands at the successor; nothing else of the package changes. -/
def done (s : State) (c : Core) : Out := .next { s with me := c.retire }

/-- The core in focus has completed a jump as c and stands at t. -/
def jumped (s : State) (c : Core) (t : W64) : Out := .next { s with me := { c with pc := t, wait := none, spin := 0 } }

/-- The instruction at the head of the core in focus raises a precise trap. -/
def traps (s : State) (cause : Nat) (w3 w6 w7 : W64) : Out := .next (s.takeTrap [(s.cur, ⟨cause, 0, s.me.pc, w3, w6, w7, 0, 0⟩)])

/-- The byte address that a target field names (spec/04 R86). -/
def headAddr (t : BitVec 14) : W64 := BitVec.ofNat 64 (2 * t.toNat)

/-! ### Boundaries and control words (spec/03 R56, R57, R62) -/

/-- No result is on its way, no register is EMPTY, and fewer than two segments are closed and uncommitted. -/
def atBoundary (c : Core) : Prop := c.settled = true ∧ c.closing.length < 2

/-- The activation whose message an END of c retires: the stopped one where a trap handler ends, else its own; a gang's followers have
none. -/
def ended (c : Core) : List Act := [(c.frame.map (·.act)).getD c.act].filter fun a => a.origin != .follower

def word (c : Core) : Cw → W64
  | .tid => c.ctl.tid
  | .wid => c.ctl.wid
  | .msg => c.ctl.msg
  | .flg => c.ctl.flg
  | .amx => c.ctl.amx
  | .sts => c.ctl.sts
  | .bud => c.ctl.bud
  | .mix => c.ctl.mix
  | .mode => c.ctl.mode

/-! ### Raised flags (spec/02 R29, spec/11 R274) -/

/-- The flags f ORed into FLG. -/
def flagged (c : Core) (f : Fl) : Core := { c with ctl := { c.ctl with flg := c.ctl.flg ||| f.setWidth 64 } }

/-- The instruction raises the flags f, which MODE of c0 lets pass or makes trap: with none enabled it writes v to d of c and is done;
else it traps with the cause of the first enabled flag, the lanes in word 6 and the flags in word 7, and writes nothing. -/
def floatEnd (s : State) (f : Fl) (lanesOk : W64 → Prop) (write : Core → Res Core) (c : Core) (o : Out) : Prop :=
  (s.me.ctl.mode.setWidth 5 &&& f = 0 → ∀ c', write (flagged c f) = .ok c' → o = done s c') ∧
  (s.me.ctl.mode.setWidth 5 &&& f ≠ 0 → ∃ k : Nat, k < 5 ∧ (s.me.ctl.mode.setWidth 5 &&& f).getLsbD k = true ∧
    (∀ j < k, (s.me.ctl.mode.setWidth 5 &&& f).getLsbD j = false) ∧ ∃ lanes, lanesOk lanes ∧ o = traps s (0x301 + k) 0 lanes (f.setWidth 64))

/-- A scalar floating-point instruction of two sources, and its result with the flags. -/
structure FloatRow2 where
  op : BitVec 6 → Src → Src → Rnd → Ty → Instr
  f  : Ty → Rnd → Nat → Nat → Nat × Fl

def floatRows2 : List FloatRow2 :=
  [⟨.fadd, fadd⟩, ⟨.fsub, fsub⟩, ⟨.fmul, fmul⟩, ⟨fun d a b _ t => .fmin d a b t, fun t _ => fminmax t false⟩,
   ⟨fun d a b _ t => .fmax d a b t, fun t _ => fminmax t true⟩]

/-! ### Correct rounding (spec/02 R20, R27, R28) -/

/-- The magnitude m × 2^e. -/
def mag (m : Nat) (e : Int) : Rat := (m : Rat) * (2 : Rat) ^ e

/-- A finite value and the number that it stands for. -/
def IsValue (v : FV) (x : Rat) : Prop := ∃ n m e, v = .fin n m e ∧ x = if n then -mag m e else mag m e

/-- Where a magnitude x stands to a number. -/
def sideOf (x q : Rat) : Ordering := if x < q then .lt else if x = q then .eq else .gt

/-- Where the square root of x stands to a number that is not negative. -/
def rootSide (x q : Rat) : Ordering := sideOf x (q * q)

/-- m × 2^e is a magnitude of the format with its exponent unbounded above: every bit of the mantissa is used but at the least exponent. -/
def OnGrid (f : Fmt) (m : Nat) (e : Int) : Prop :=
  let least := 1 - (f.bias : Int) - f.mb
  m < 2 ^ (f.mb + 1) ∧ least ≤ e ∧ (e = least ∨ 2 ^ f.mb ≤ m)

/-- The same with the exponent unbounded below too. -/
def OnWideGrid (f : Fmt) (m : Nat) (_ : Int) : Prop := 2 ^ f.mb ≤ m ∧ m < 2 ^ (f.mb + 1)

/-- m × 2^e is the magnitude of a grid to which a mode rounds the exact one that stands to numbers as `side` says: the nearest, with an even
mantissa between two that are as near; the largest that is not above it; the least that is not below it. -/
def RoundsTo (grid : Nat → Int → Prop) (rm : Rnd) (neg : Bool) (side : Rat → Ordering) (m : Nat) (e : Int) : Prop :=
  grid m e ∧
    (rm = .rne → ∀ m' e', grid m' e' → let mid := (mag m e + mag m' e') / 2
      (mag m' e' < mag m e → side mid ≠ .lt) ∧ (mag m e < mag m' e' → side mid ≠ .gt) ∧
      (mag m' e' ≠ mag m e → side mid = .eq → m % 2 = 0)) ∧
    (rm = .rtz ∨ rm = .rup ∧ neg = true ∨ rm = .rdn ∧ neg = false →
      side (mag m e) ≠ .lt ∧ ∀ m' e', grid m' e' → mag m e < mag m' e' → side (mag m' e') = .lt) ∧
    (rm = .rup ∧ neg = false ∨ rm = .rdn ∧ neg = true →
      side (mag m e) ≠ .gt ∧ ∀ m' e', grid m' e' → mag m' e' < mag m e → side (mag m' e') = .gt)

/-- The largest finite magnitude of a format. -/
def maxMag (f : Fmt) : Rat := mag (2 ^ f.mb + f.mmax) ((f.emax : Int) - f.bias - f.mb)

/-- r is the correctly rounded result, with its flags, of an exact number of that sign: the rounded magnitude, inexact where it is not the exact
one, tiny where the one rounded without a least exponent lies below the normal ones; past the largest finite one, the table of R28. -/
def Rounded (t : Ty) (rm : Rnd) (sat neg : Bool) (side : Rat → Ordering) (r : Nat × Fl) : Prop :=
  let f := Machine.Ty.fmt t
  let is := fun (x : Rat) => ∃ m e, decodeF t r.1 = .fin neg m e ∧ mag m e = x
  let toward := rm = .rtz ∨ rm = .rup ∧ neg = true ∨ rm = .rdn ∧ neg = false
  r.1 < 2 ^ t.width ∧ ∃ m e, RoundsTo (OnGrid f) rm neg side m e ∧
    (mag m e ≤ maxMag f → is (mag m e) ∧ (side (mag m e) = .eq → r.2 = 0) ∧
      (side (mag m e) ≠ .eq → ∃ m' e', RoundsTo (OnWideGrid f) rm neg side m' e' ∧
        r.2 = if mag m' e' < mag 1 (1 - (f.bias : Int)) then Fl.ufl ||| Fl.inx else Fl.inx)) ∧
    (maxMag f < mag m e → r.2 = Fl.ofl ||| Fl.inx ∧
      (t ∈ [Ty.e3m2, .e2m3, .e2m1] ∨ sat = true ∨ toward → is (maxMag f)) ∧
      (t ∉ [Ty.e3m2, .e2m3, .e2m1] → sat = false → ¬toward →
        if t = .e4m3 then r.1 = if neg then 0xFF else 0x7F else decodeF t r.1 = .inf neg))

/-- The same of an exact number that is not zero. -/
def RoundedFrom (t : Ty) (rm : Rnd) (sat : Bool) (x : Rat) (r : Nat × Fl) : Prop :=
  x ≠ 0 → Rounded t rm sat (decide (x < 0)) (sideOf (if x < 0 then -x else x)) r

/-! ### Vector instructions (spec/08 R193 to R195) -/

/-- The sources of a vector instruction can be read and its destination can be written; `act` are its active lanes, `old` what the
destination held, c the core once the last uses have freed their registers. -/
def VReads1 (d : BitVec 5) (a : VSrc) (mk : VMask) (n : Nat) (c0 : Core) (x : Line) (act : Nat) (old : Line) (c : Core) : Prop :=
  destV d c0 = .ok () ∧ ∃ c1 c2, readV a c0 = .ok (x, c1) ∧ activeLanes mk n c1 = .ok (act, c2) ∧ oldV d c2 = .ok old ∧ c = freeV a c2

def VReads2 (d : BitVec 5) (a b : VSrc) (mk : VMask) (n : Nat) (c0 : Core) (x y : Line) (act : Nat) (old : Line) (c : Core) : Prop :=
  destV d c0 = .ok () ∧ ∃ c1 c2 c3, readV a c0 = .ok (x, c1) ∧ readV b c1 = .ok (y, c2) ∧ activeLanes mk n c2 = .ok (act, c3) ∧
    oldV d c3 = .ok old ∧ c = freeV b (freeV a c3)

def VReads3 (d : BitVec 5) (a b e : VSrc) (mk : VMask) (n : Nat) (c0 : Core) (x y z : Line) (act : Nat) (old : Line) (c : Core) : Prop :=
  destV d c0 = .ok () ∧ ∃ c1 c2 c3 c4, readV a c0 = .ok (x, c1) ∧ readV b c1 = .ok (y, c2) ∧ readV e c2 = .ok (z, c3) ∧
    activeLanes mk n c3 = .ok (act, c4) ∧ oldV d c4 = .ok old ∧ c = freeV e (freeV b (freeV a c4))

/-- The lanes of v: f where active; inactive lanes keep the old value under merging and are zero under zeroing (R195). -/
def Lanes (t : Ty) (mk : VMask) (act : Nat) (old : Line) (f : Nat → Nat) (v : Line) : Prop :=
  ∀ i < t.lanes, laneAt v t.width i =
    if act.testBit i then f i % 2 ^ t.width else if mk.men && !mk.mz then laneAt old t.width i else 0

/-- The flags that the active lanes raise. -/
def laneFlags (act n : Nat) (f : Nat → Fl) : Fl := ((List.range n).filter fun i => act.testBit i).foldl (fun g i => g ||| f i) 0

/-- The end of a lane-wise instruction with values f: the lanes of d, and the flags or their trap. -/
def laneEnd (s : State) (d : BitVec 5) (t : Ty) (mk : VMask) (act : Nat) (old : Line) (f : Nat → Nat × Fl) (c : Core) (o : Out) : Prop :=
  ∃ v, Lanes t mk act old (fun i => (f i).1) v ∧
    floatEnd s (laneFlags act t.lanes fun i => (f i).2)
      (fun w => ∀ i < 64, w.getLsbD i = (decide (i < t.lanes) && act.testBit i && s.me.ctl.mode.setWidth 5 &&& (f i).2 != 0)) (writeV d v) c o

structure VecRow1 where
  abcm : BitVec 5 → VSrc → Rnd → Ty → Instr
  vx   : BitVec 5 → VSrc → Rnd → Ty → VMask → Instr
  f    : Ty → Rnd → Nat → Nat × Fl

def vecRows1 : List VecRow1 :=
  [⟨.vsqrt, .vsqrtVx, fsqrt⟩, ⟨.vexp2, .vexp2Vx, special .exp2⟩, ⟨.vlog2, .vlog2Vx, special .log2⟩, ⟨.vrcp, .vrcpVx, special .rcp⟩,
   ⟨.vrsq, .vrsqVx, special .rsq⟩, ⟨.vtanh, .vtanhVx, special .tanh⟩,
   ⟨fun d a r t => .vtrig d a false r t, fun d a r t mk => .vtrigVx d a false r t mk, special .sin⟩,
   ⟨fun d a r t => .vtrig d a true r t, fun d a r t mk => .vtrigVx d a true r t mk, special .cos⟩,
   ⟨fun d a _ t => .vsgn d a ⟨false, false, 0⟩ .abs t, fun d a _ t mk => .vsgnVx d a ⟨false, false, 0⟩ .abs t mk,
    fun t _ x => (x % 2 ^ (t.width - 1), 0)⟩]

structure VecRow2 where
  abcm : BitVec 5 → VSrc → VSrc → Rnd → Ty → Instr
  vx   : BitVec 5 → VSrc → VSrc → Rnd → Ty → VMask → Instr
  f    : Ty → Rnd → Nat → Nat → Nat × Fl

/-- The low w bits of r on the lanes x and y at their type. -/
def intLanes (r : Ty → Int → Int → Int) (t : Ty) (x y : Nat) : Nat × Fl :=
  (pat t (r t (narrow (BitVec.ofNat 64 x) t) (narrow (BitVec.ofNat 64 y) t)), 0)

def vecFloatRows : List VecRow2 :=
  [⟨.vadd, .vaddVx, fadd⟩, ⟨.vsub, .vsubVx, fsub⟩, ⟨.vmul, .vmulVx, fmul⟩, ⟨.vdiv, .vdivVx, fdiv⟩,
   ⟨fun d a b _ t => .vmin d a b t, fun d a b _ t mk => .vminVx d a b t mk, fun t _ => fminmax t false⟩,
   ⟨fun d a b _ t => .vmax d a b t, fun d a b _ t mk => .vmaxVx d a b t mk, fun t _ => fminmax t true⟩]

/-- An integer or logic instruction of R207: its AB, ABCM and VX forms. -/
structure VecIntRow where
  ab   : BitVec 5 → VSrc → VSrc → Instr
  abcm : BitVec 5 → VSrc → VSrc → Ty → Instr
  vx   : BitVec 5 → VSrc → VSrc → Ty → VMask → Instr
  r    : Ty → Int → Int → Int

def vecIntRows : List VecIntRow :=
  [⟨.viadd, .viaddAbcm, .viaddVx, fun _ x y => x + y⟩, ⟨.visub, .visubAbcm, .visubVx, fun _ x y => x - y⟩,
   ⟨.vimul, .vimulAbcm, .vimulVx, fun _ x y => x * y⟩,
   ⟨.vand, .vandAbcm, .vandVx, fun t x y => ((pat t x &&& pat t y : Nat) : Int)⟩,
   ⟨.vor, .vorAbcm, .vorVx, fun t x y => ((pat t x ||| pat t y : Nat) : Int)⟩,
   ⟨.vxor, .vxorAbcm, .vxorVx, fun t x y => ((pat t x ^^^ pat t y : Nat) : Int)⟩,
   ⟨.vshl, .vshlAbcm, .vshlVx, fun t x y => ((pat t x * 2 ^ count t y : Nat) : Int)⟩,
   ⟨.vshr, .vshrAbcm, .vshrVx, fun t x y => x / 2 ^ count t y⟩]

/-- The source lane that VCVT converts into lane i of part p, none for a lane outside the part (R211). -/
def cvtSource (src t : Ty) (p i : Nat) : Option Nat :=
  if t.lanes ≤ src.lanes then some (p * t.lanes + i)
  else if p * src.lanes ≤ i ∧ i < (p + 1) * src.lanes then some (i - p * src.lanes) else none

/-! ### Memory of the core (spec/05 R137 to R140, spec/07 R162, R163) -/

/-- n bytes at e are an aligned own ARRAY range no byte of which a lock covers (that locks are met byte by byte is log 66's choice). -/
def OwnRange (s : State) (e : W64) (n : Nat) : Prop :=
  e.toNat % n = 0 ∧ e.toNat < 2 ^ 20 ∧ s.me.isArray (e.toNat / 65536) = true ∧ lockOn s.me.locks e.toNat n = none

/-- The context owns every line of n bytes at a, with the metadata of their banks. -/
def Owned (c : Core) (a n : Nat) : Prop :=
  ∀ l ∈ linesOf a n, c.lineOwner l = c.act.ctx ∧ (c.bank (l / 1024)).owner = c.act.ctx

/-- No line of n bytes at a is poisoned. -/
def Clean (c : Core) (a n : Nat) : Prop := ∀ l ∈ linesOf a n, c.poison.contains l = false

/-- n bytes at e are an own range that can be read; cc is c once the context has claimed them. -/
def OwnAt (s : State) (c : Core) (e : W64) (n : Nat) (cc : Core) : Prop :=
  OwnRange s e n ∧ cc = c.claimAll s.me.act.ctx e.toNat n ∧ Clean cc e.toNat n

/-- n own bytes at o, which address e names to a strong access: private bytes or those of the own window (spec/07 R160), aligned, without
a lock, clean, and cc is c once the context has claimed them. -/
def StrongAt (s : State) (c : Core) (e : W64) (o n : Nat) (cc : Core) : Prop :=
  e.toNat % n = 0 ∧ (s.place e = .own o ∨ s.place e = .core s.cur o ∧ s.me.isArray (o / 65536) = true) ∧ lockOn s.me.locks o n = none ∧
    cc = c.claimAll s.me.act.ctx o n ∧ Clean cc o n

/-- The value of the bytes m at a type: sign-extended for the i types, else zero-extended (R138). -/
def loaded (t : Ty) (m : Nat) : W64 := if t.isSInt then widen (m : Int) t else BitVec.ofNat 64 m

/-- The core in focus has completed a strong access as c: its read cache is empty (spec/06 R154). -/
def doneStrong (s : State) (c : Core) : Out := .next { s with me := { c.retire with rcache := [] } }

/-- The strong accesses of one data operand, with what each does at its home (spec/07 R186). -/
structure StrongRow where
  op : BitVec 6 → Src → Src → Scope → Ty → Instr
  at_ : Ty → W64 → WordOp

def strongRows : List StrongRow :=
  [⟨.aadd, fun t b => .aadd t b⟩, ⟨fun d a b => .amnx d a b false, fun t b => .amnx false t b⟩,
   ⟨fun d a b => .amnx d a b true, fun t b => .amnx true t b⟩, ⟨fun d a b => .alog d a b .and, fun t b => .alog .and t b⟩,
   ⟨fun d a b => .alog d a b .or, fun t b => .alog .or t b⟩, ⟨fun d a b => .alog d a b .xor, fun t b => .alog .xor t b⟩,
   ⟨fun d a b => .alog d a b .lse, fun t b => .alog .lse t b⟩, ⟨.aswp, fun t b => .aswp t b⟩] ++
  [Cond.eq, .ne, .lt, .ge, .ltn, .gen].map fun cc => ⟨fun d a b => .waitm d a b cc, fun t b => .waitm cc t b⟩

/-- The byte barriers (spec/15 R326). -/
def barrierRows : List ((BitVec 6 → Src → Src → Scope → Instr) × (W64 → WordOp)) := [(.bari, .bari), (.barx, .barx), (.barw, .barw)]

/-- An operation on the own window of bank b, which address e names, ends for the core c whose operands are freed: BADWIN is precise (spec/07 R166);
else, with no poison in what it reads, the banks it touches are logged and held (spec/03 R75), d has the value and, of a pair, d+1 the second word,
and STS has the code. -/
def WindowEnd (s : State) (d : BitVec 6) (e : W64) (b off : Nat) (op : WordOp) (c : Core) (o : Out) : Prop :=
  let c := (c.claimBank c.act.ctx b).claimPool c.act.ctx b
  let reads := op.winReads (c.bank b) b off
  (winOp c b off op (d.getLsbD 0) = .bad → o = traps s 0x206 e 0 0) ∧
  ∀ q v v1 sts r c1 c2, winOp c b off op (d.getLsbD 0) = .ok q v v1 sts → (∀ n ∈ reads, c.poison.contains n = false) →
    revocable c q (touched c q b) (nunion reads (changedLines c q (touched c q b))) = .ok r → writeS d v (r.setSts sts) = .ok c1 →
    (match v1 with | some x => writeS (d + 1) x c1 | none => .ok c1) = .ok c2 → o = doneStrong s c2

/-! ### Undo (spec/03 R72, spec/09 R241) -/

/-- The byte of own memory at a that a saved pre-image holds, none where it does not reach. -/
def savedByte (a : Nat) : UndoWhat ⊕ PreWhat → Option Byte
  | .inl (.line n l _) => if a / 64 = n then some (lineByte l (a % 64)) else none
  | .inl (.bank b _ cells _) => if a / 65536 = b then some (Mem.byte cells (a % 65536)) else none
  | .inl (.links _) => none
  | .inr (.row ..) => none
  | .inr (.line n l mask _ _) => if a / 64 = n ∧ mask.getLsbD (a % 64) = true then some (lineByte l (a % 64)) else none

/-- The number of the first segment that a rollback of the closed segments from index i on takes back. -/
def firstGone (c : Core) (i : Nat) : Nat := (((c.closing.drop i).head?).map (·.d.id)).getD c.seg.id

/-- What the segments from number id on of core `self` have saved, by their undo logs and by the engine operations that they issued, with the place of
each in the core's order of writes. -/
def undone (c : Core) (self id : Nat) : List (Nat × (UndoWhat ⊕ PreWhat)) :=
  ((c.uncommitted.filter fun d => decide (id ≤ d.id)).flatMap fun d => d.undo.map fun u => (u.ord, .inl u.what)) ++
    (c.ring.filter fun p => decide (p.core = self) && decide (id ≤ p.seg)).map fun p => (p.ord, .inr p.what)

/-! ### Engine operations (spec/09 R221 to R223) -/

/-- o is a new operation of the core in focus: it has the next number, waits its turn and belongs to the open segment. -/
def OpOf (s : State) (k : EngKind) (stamp : Option Nat) (o : EngOp) : Prop :=
  o.seq = s.me.nextSeq ∧ o.kind = k ∧ o.stamp = stamp ∧ o.st = .queued ∧ o.seg = s.me.seg.id ∧ o.ctx = s.me.act.ctx ∧ o.failed = false

/-- c with the operation on its list, its number taken and its ranges locked. -/
def opIssued (s : State) (c : Core) (o : EngOp) (dst : Bool) (ranges : List (Nat × Nat)) : Core :=
  { c with
    ops := c.ops ++ [o], nord := c.nord + 1, engSeq := o.seq
    locks := c.locks ++ if ranges.isEmpty then [] else [⟨s.cur, o.seq, dst, ranges⟩] }

/-- The instruction hands an operation to its engine and is done; d receives the number. -/
def Accepts (s : State) (k : EngKind) (stamp : Option Nat) (d : BitVec 6) (c : Core) (dst : Bool) (ranges : List (Nat × Nat)) (o : Out) : Prop :=
  ∃ op, OpOf s k stamp op ∧ ∀ c', writeS d (BitVec.ofNat 64 s.me.nextSeq) (opIssued s c op dst ranges) = .ok c' → o = done s c'

/-! ### Banks (spec/07 R164 to R180) -/

/-- Bank k can take a bank-wide operation now: no lock on it, nothing of it held by a closed segment, the bank-image slot free. -/
def ImageReady (c : Core) (k : Nat) : Prop :=
  lockOn c.locks (65536 * k) 65536 = none ∧ heldByClosed c k = false ∧ c.imgSlot = none

/-- No entry of a heap is less than its parent (R172). -/
def HeapOrdered (f : BitVec 2) (l : List HEntry) : Prop := ∀ i, 0 < i → i < l.length → hLessAt f l i ((i - 1) / 2) = false

/-! ### Frames (spec/01 R13, spec/04 R90) -/

/-- Registers of the three files. -/
structure Names where
  s : List (BitVec 6)
  v : List (BitVec 5)
  m : List (BitVec 3)

/-- The registers that the last uses among the sources free. -/
def lastS (l : List Src) : List (BitVec 6) := (l.filter (·.last)).map (·.reg)
def lastV (l : List VSrc) : List (BitVec 5) := (l.filter (·.last)).map (·.reg)
def lastM (l : List MSrc) : List (BitVec 3) := (l.filter (·.last)).map (·.reg)

/-- For an instruction that acts on registers only: its destination, and the sources it frees. -/
def written : Instr → Option Names
  | .add d a b | .addAbcm d a b _ | .sub d a b | .subAbcm d a b _ | .mul d a b | .mulAbcm d a b _ | .mulh d a b | .mulhAbcm d a b _
  | .div d a b | .divAbcm d a b _ | .rem d a b | .remAbcm d a b _ | .and d a b | .andAbcm d a b _ | .or d a b | .orAbcm d a b _
  | .xor d a b | .xorAbcm d a b _ | .shl d a b | .shlAbcm d a b _ | .shr d a b | .shrAbcm d a b _ | .rot d a b | .rotAbcm d a b _
  | .min d a b | .minAbcm d a b _ | .max d a b | .maxAbcm d a b _ | .slt d a b | .sltAbcm d a b _ | .bfi d a b _ _ | .fadd d a b _ _
  | .fsub d a b _ _ | .fmul d a b _ _ | .fdiv d a b _ _ | .fmin d a b _ | .fmax d a b _ | .fcmp d a b _ _ | .fsgn d a b _ _ => some ⟨d :: lastS [a, b], [], []⟩
  | .sel d a b e | .ffma d a b e _ _ => some ⟨d :: lastS [a, b, e], [], []⟩
  | .addi d a _ | .addiAbi32 d a _ | .andi d a _ | .andiAbi32 d a _ | .ori d a _ | .oriAbi32 d a _ | .xori d a _ | .xoriAbi32 d a _
  | .muli d a _ | .muliAbi32 d a _ | .shli d a _ _ | .shri d a _ _ | .clz d a | .clzAbcm d a _ | .ctz d a | .ctzAbcm d a _ | .popc d a
  | .popcAbcm d a _ | .abs d a | .absAbcm d a _ | .bfx d a _ _ _ | .wfld d a _ | .fsqrt d a _ _ | .fcvt d a _ _ _ _ | .fclass d a _
  | .frnd d a _ _ _ => some ⟨d :: lastS [a], [], []⟩
  | .li d _ | .liI48 d _ | .getc d _ | .time d | .cyc d => some ⟨[d], [], []⟩
  | .vadd d a b _ _ | .vaddVx d a b _ _ _ | .vsub d a b _ _ | .vsubVx d a b _ _ _ | .vmul d a b _ _ | .vmulVx d a b _ _ _
  | .vdiv d a b _ _ | .vdivVx d a b _ _ _ | .vmin d a b _ | .vminVx d a b _ _ | .vmax d a b _ | .vmaxVx d a b _ _ | .vsgn d a b _ _
  | .vsgnVx d a b _ _ _ | .viadd d a b | .viaddAbcm d a b _ | .viaddVx d a b _ _ | .visub d a b | .visubAbcm d a b _ | .visubVx d a b _ _
  | .vimul d a b | .vimulAbcm d a b _ | .vimulVx d a b _ _ | .vand d a b | .vandAbcm d a b _ | .vandVx d a b _ _ | .vor d a b
  | .vorAbcm d a b _ | .vorVx d a b _ _ | .vxor d a b | .vxorAbcm d a b _ | .vxorVx d a b _ _ | .vshl d a b | .vshlAbcm d a b _
  | .vshlVx d a b _ _ | .vshr d a b | .vshrAbcm d a b _ | .vshrVx d a b _ _ | .cmul d a b _ _ _ | .cmulVx d a b _ _ _ _ => some ⟨[], d :: lastV [a, b], []⟩
  | .vfma d a b e _ _ | .vfmaVx d a b e _ _ _ | .vperm d a b e _ | .vpermVx d a b e _ _ | .bfly d a b e _ _ | .bflyVx d a b e _ _ _ => some ⟨[], d :: lastV [a, b, e], []⟩
  | .vsqrt d a _ _ | .vsqrtVx d a _ _ _ | .vexp2 d a _ _ | .vexp2Vx d a _ _ _ | .vlog2 d a _ _ | .vlog2Vx d a _ _ _ | .vrcp d a _ _
  | .vrcpVx d a _ _ _ | .vrsq d a _ _ | .vrsqVx d a _ _ _ | .vcvt d a _ _ _ _ _ | .vcvtVx d a _ _ _ _ _ _ | .vunpk d a _ _ _ _
  | .vunpkVx d a _ _ _ _ _ | .vpack d a _ _ _ _ _ | .vpackVx d a _ _ _ _ _ _ | .twid d a _ _ _ | .twidVx d a _ _ _ _ | .vtrig d a _ _ _
  | .vtrigVx d a _ _ _ _ | .vtanh d a _ _ | .vtanhVx d a _ _ _ => some ⟨[], d :: lastV [a], []⟩
  | .vcmp d a b _ _ | .vcmpVx d a b _ _ _ => some ⟨[], lastV [a, b], [d]⟩
  | .vred d a op _ _ | .vredVx d a op _ _ _ | .vscan d a op _ _ | .vscanVx d a op _ _ _ => if redWide op then none else some ⟨[], d :: lastV [a], []⟩
  | .vsel d a b e _ | .vselVx d a b e _ _ => some ⟨[], d :: lastV [a, b], lastM [e]⟩
  | .vbcast d a _ | .vbcastVx d a _ _ => some ⟨lastS [a], [d], []⟩
  | .vslide d a b e _ | .vslideVx d a b e _ _ => some ⟨lastS [e], d :: lastV [a, b], []⟩
  | .vcmpr d a b _ | .vexpd d a b _ => some ⟨[], d :: lastV [a], lastM [b]⟩
  | .viota d a _ _ => some ⟨[], [d], lastM [a]⟩
  | .vscale d a b _ _ _ _ | .vscaleVx d a b _ _ _ _ _ => some ⟨lastS [b], d :: lastV [a], []⟩
  | .mlog d a b _ => some ⟨[], [], d :: lastM [a, b]⟩
  | _ => none

/-- The instruction waits, traps, or is done; done, it has changed the named registers, FLG, results on their way and nothing else. -/
def Framed (s : State) (n : Names) (o : Out) : Prop :=
  (∃ w, o = .next (s.waiting w)) ∨ (∃ k w3 w6 w7, o = traps s k w3 w6 w7) ∨
  ∃ c, o = done s c ∧
    { c with regs := s.me.regs, ctl := { c.ctl with flg := s.me.ctl.flg }, pend := s.me.pend, nund := s.me.nund } = s.me ∧
    (∀ r, r ∉ n.s → c.regs.getS r = s.me.regs.getS r) ∧ (∀ r, r ∉ n.v → c.regs.getV r = s.me.regs.getV r) ∧
    (∀ r, r ∉ n.m → c.regs.getM r = s.me.regs.getM r) ∧ s.me.ctl.flg &&& c.ctl.flg = s.me.ctl.flg ∧ s.me.pend <+: c.pend

/-- No entry of a handle table is poisoned. -/
def HandlesReadable (s : State) : Prop :=
  ∀ c h : Nat, c < 256 → h < 65536 → s.physBad (((s.ctx c).w 4).toNat + 16 * h) 16 = false

/-- Every memory of the package is in its canonical form. -/
def Canonical (s : State) : Prop :=
  s.me.memWf = true ∧ (∀ p ∈ s.others, p.2.memWf = true) ∧ (∀ p ∈ s.images, p.2.memWf = true) ∧ s.dram.wf = true ∧ s.host.wf = true

end Safety

end Sys2Proof
end

