-- ==== Sys2Proof/Certificates/Slice0/Obligations.lean ====
section
/-! DEFINITION. The statements for the provers. Each names in its docstring the rules of spec/ that it formalises; where a clause is the
model's own choice, the docstring names the log entry. -/

open Sys2Proof Sys2Proof.Machine Sys2Proof.Safety

/-! ### Integer instructions of the scalar unit -/

/-- Narrow and Widen of R106: the value of a register at an integer type, and the 64-bit pattern of a result. -/
def Obligations.IntegerTypes : Prop :=
  ∀ t : Ty, t.isInt = true →
    (∀ x : W64, narrow x t = if t.isSInt then (x.setWidth t.width).toInt else ((x.setWidth t.width).toNat : Int)) ∧
    (∀ r : Int, widen r t = if t.isSInt then (BitVec.ofInt t.width r).signExtend 64 else (BitVec.ofInt t.width r).setWidth 64)

/-- Row 0x1_ (R119) at every type, in both layouts: d receives Widen of r on the narrowed operands, and the instruction changes nothing
else. DIV and REM (R120) make d EMPTY and deliver within w/2 + 4 clk. SEL moves all 64 bits.
Row 0x1_ on 64-bit registers is the arithmetic of words: modular sums and products, the high half of the signed product, shifts and
rotations by the low six bits of y, signed order. -/
def Obligations.IntegerRow : Prop :=
  ((∀ row ∈ aluRows, ∀ (t : Ty) (d : BitVec 6) (a b : Src) (s : State) (x y : W64) (c c' : Core), t.isInt = true →
     Reads2 d a b s.me x y c → writeS d (widen (row.r t (narrow x t) (narrow y t)) t) c = .ok c' →
     exec (row.abcm d a b t) s = done s c' ∧ (t = .i64 → exec (row.ab d a b) s = done s c')) ∧
   (∀ row ∈ divRows, ∀ (t : Ty) (d : BitVec 6) (a b : Src) (s : State) (x y : W64) (c c' : Core), t.isInt = true →
     Reads2 d a b s.me x y c → produce d (widen (row.r t (narrow x t) (narrow y t)) t) (t.width / 2 + 4) c = .ok c' →
     exec (row.abcm d a b t) s = done s c' ∧ (t = .i64 → exec (row.ab d a b) s = done s c')) ∧
   (∀ (d : BitVec 6) (a b e : Src) (s : State) (x y z : W64) (c c' : Core),
     Reads3 d a b e s.me x y z c → writeS d (if x = 0 then z else y) c = .ok c' → exec (.sel d a b e) s = done s c')) ∧
  (∀ row ∈ wordRows, ∀ (d : BitVec 6) (a b : Src) (s : State) (x y : W64) (c c' : Core),
     Reads2 d a b s.me x y c → writeS d (row.2 x y) c = .ok c' → exec (row.1 d a b) s = done s c')

/-- The immediate instructions in both layouts (R121), the shifts by a constant (R122), LI (R123). -/
def Obligations.IntegerImmediates : Prop :=
  (∀ row ∈ immRows, ∀ (d : BitVec 6) (a : Src) (s : State) (x : W64) (c : Core), Reads1 d a s.me x c →
    (∀ (m : BitVec 24) (c' : Core), writeS d (row.r x (literal row.sext m)) c = .ok c' → exec (row.ai24 d a m) s = done s c') ∧
    (∀ (m : BitVec 32) (c' : Core), writeS d (row.r x (literal row.sext m)) c = .ok c' → exec (row.abi32 d a m) s = done s c')) ∧
  (∀ (t : Ty) (k : BitVec 6) (d : BitVec 6) (a : Src) (s : State) (x : W64) (c c' : Core), t.isInt = true → k.toNat < t.width →
    Reads1 d a s.me x c →
    (writeS d (widen (narrow x t * 2 ^ k.toNat) t) c = .ok c' → exec (.shli d a k t) s = done s c') ∧
    (writeS d (widen (narrow x t / 2 ^ k.toNat) t) c = .ok c' → exec (.shri d a k t) s = done s c')) ∧
  (∀ (d : BitVec 6) (s : State) (c' : Core), destS d s.me = .ok () →
    (∀ m : BitVec 32, writeS d (m.signExtend 64) s.me = .ok c' → exec (.li d m) s = done s c') ∧
    (∀ m : BitVec 48, writeS d (m.signExtend 64) s.me = .ok c' → exec (.liI48 d m) s = done s c'))

/-- CLZ, CTZ and POPC count the bits of the w-bit pattern, ABS is the magnitude (R124), at every type and in both layouts.
BFX extracts len bits at pos, extended by the type; BFI replaces them and no others (R125).
WFLD reads the level at the sum of the widths below it (R126); the layout is that of the activation's launch. -/
def Obligations.BitInstructions : Prop :=
  ((∀ row ∈ countRows, ∀ (t : Ty) (d : BitVec 6) (a : Src) (s : State) (x : W64) (c : Core), t.isInt = true → Reads1 d a s.me x c →
     ∃ n : Nat, row.is t.width (x.toNat % 2 ^ t.width) n ∧ ∀ c', writeS d (BitVec.ofNat 64 n) c = .ok c' →
       exec (row.abcm d a t) s = done s c' ∧ (t = .i64 → exec (row.ab d a) s = done s c')) ∧
   (∀ (t : Ty) (d : BitVec 6) (a : Src) (s : State) (x : W64) (c c' : Core), t.isSInt = true → Reads1 d a s.me x c →
     writeS d (widen (if narrow x t < 0 then -narrow x t else narrow x t) t) c = .ok c' →
     exec (.absAbcm d a t) s = done s c' ∧ (t = .i64 → exec (.abs d a) s = done s c'))) ∧
  ((∀ (d : BitVec 6) (a : Src) (pos lenM1 : BitVec 6) (uns : Bool) (s : State) (x : W64) (c c' : Core),
     pos.toNat + lenM1.toNat < 64 → Reads1 d a s.me x c →
     writeS d (if uns then (x.extractLsb' pos.toNat (lenM1.toNat + 1)).setWidth 64
       else (x.extractLsb' pos.toNat (lenM1.toNat + 1)).signExtend 64) c = .ok c' →
     exec (.bfx d a pos lenM1 uns) s = done s c') ∧
   (∀ (d : BitVec 6) (a b : Src) (pos lenM1 : BitVec 6) (s : State) (x f r : W64) (c c' : Core),
     pos.toNat + lenM1.toNat < 64 → Reads2 d a b s.me x f c →
     (∀ j : Nat, j < 64 → r.getLsbD j =
       if pos.toNat ≤ j ∧ j ≤ pos.toNat + lenM1.toNat then f.getLsbD (j - pos.toNat) else x.getLsbD j) →
     writeS d r c = .ok c' → exec (.bfi d a b pos lenM1) s = done s c')) ∧
  (∀ (d : BitVec 6) (a : Src) (level : BitVec 3) (s : State) (x : W64) (c c' : Core) (l : Launch), level.toNat < 6 →
     s.launch? s.me.act.ctx s.me.act.lnch = some l → Reads1 d a s.me x c →
     (let w := fun (j : Nat) => bits (l.record.toList.getD 0 0) (6 * j + 5) (6 * j)
      let o := ((List.range level.toNat).map w).sum
      writeS d (BitVec.ofNat 64 (x.toNat / 2 ^ o % 2 ^ w level.toNat)) c = .ok c') →
     exec (.wfld d a level) s = done s c')

/-! ### Control flow, boundaries and software traps -/

/-- NOP has no effect (R114). Jumps, calls and returns go to a valid target, the calls with Succ(pc) in s62; an invalid one raises BADTGT
at the jump, with the address in word 3, and a call then writes no link (R86, R87, R110).
The branches (R111, R112) and LOOP (R113): a taken branch goes to its target, or raises BADTGT where that is not valid; a branch not
taken goes on at the successor. LOOP writes d first and branches while it is not zero. -/
def Obligations.JumpsAndBranches : Prop :=
  ((∀ s : State, exec .nop s = done s s.me) ∧
   (∀ (t : BitVec 14) (s : State), exec (.jmp t) s =
     if s.me.validPc (headAddr t) then jumped s s.me (headAddr t) else traps s 0x003 (headAddr t) 0 0) ∧
   (∀ (a : Src) (s : State) (x : W64) (c : Core), readS a s.me = .ok (x, c) →
     let r := if s.me.validPc x then jumped s (freeS a c) x else traps s 0x003 x 0 0
     exec (.jmpr a) s = r ∧ exec (.ret a) s = r) ∧
   (∀ (t : BitVec 14) (s : State), destS 62 s.me = .ok () →
     (s.me.validPc (headAddr t) = true → ∀ c', writeS 62 (s.me.succ s.me.pc) s.me = .ok c' →
       exec (.call t) s = jumped s c' (headAddr t)) ∧
     (s.me.validPc (headAddr t) = false → exec (.call t) s = traps s 0x003 (headAddr t) 0 0)) ∧
   (∀ (a : Src) (s : State) (x : W64) (c : Core), destS 62 s.me = .ok () → readS a s.me = .ok (x, c) →
     (s.me.validPc x = true → ∀ c', writeS 62 (s.me.succ s.me.pc) (freeS a c) = .ok c' → exec (.callr a) s = jumped s c' x) ∧
     (s.me.validPc x = false → exec (.callr a) s = traps s 0x003 x 0 0))) ∧
  (let go := fun (s : State) (c : Core) (taken : Prop) (t : BitVec 14) (o : Out) =>
     (¬taken → o = done s c) ∧ (taken → s.me.validPc (headAddr t) = true → o = jumped s c (headAddr t)) ∧
     (taken → s.me.validPc (headAddr t) = false → o = traps s 0x003 (headAddr t) 0 0)
   (∀ (cc : Cond) (a b : Src) (t : BitVec 14) (s : State) (x y : W64) (c1 c2 : Core), readS a s.me = .ok (x, c1) → readS b c1 = .ok (y, c2) →
     go s (freeS b (freeS a c2)) (holds cc x y) t (exec (.br cc a b t) s)) ∧
   (∀ (cc : Cond) (a : Src) (k : BitVec 8) (t : BitVec 14) (s : State) (x : W64) (c : Core), readS a s.me = .ok (x, c) →
     go s (freeS a c) (holds cc x (if cc = .ltn ∨ cc = .gen then k.zeroExtend 64 else k.signExtend 64)) t (exec (.bri cc a k t) s)) ∧
   (∀ (cc : BstCond) (t : BitVec 14) (s : State),
     go s s.me (if cc.neg then s.me.ctl.sts.extractLsb' 0 3 ≠ cc.code else s.me.ctl.sts.extractLsb' 0 3 = cc.code) t (exec (.bst cc t) s)) ∧
   (∀ (d : BitVec 6) (a : Src) (t : BitVec 14) (s : State) (x : W64) (c c' : Core), Reads1 d a s.me x c → writeS d (x - 1) c = .ok c' →
     go s c' (x ≠ 1) t (exec (.loop d a t) s)))

/-- PHASE, END, YIELD and MIGR close the open segment (R115) once R56 and R62 hold: its record joins the closed segments, the next
segment opens empty, and PHASE goes on at Succ(pc) with its registers while the others leave the core idle. YIELD's message (R79) and
MIGR's record (R80, R116) stand in the outbox of a segment that closes; beside one closed segment MIGR takes its first boundary alone.
Local memory is unchanged. Until then the core waits. -/
def Obligations.Boundaries : Prop :=
  (∀ s : State, atBoundary s.me → ∃ t, exec .phase s = .next t ∧ t.me.closing.map (·.d) = s.me.closing.map (·.d) ++ [s.me.seg] ∧
    t.me.closing.getLast?.map (fun g => (g.kind, g.closer, g.ckpt.pc, g.ckpt.regs)) =
      some (.phase, s.me.pc, s.me.succ s.me.pc, s.me.regs) ∧
    t.me.seg = SegData.new (s.me.seg.id + 1) ∧ t.me.pc = s.me.succ s.me.pc ∧ t.me.regs = s.me.regs ∧ t.me.ctl = s.me.ctl ∧
    t.me.running = s.me.running ∧ t.me.mem = s.me.mem ∧ t.others = s.others) ∧
  (∀ s : State, s.me.settled = false → exec .phase s = .next (s.waiting .operand) ∧
    (s.me.gang = none → exec .endAct s = .next (s.waiting .operand))) ∧
  (∀ s : State, s.me.settled = true → 2 ≤ s.me.closing.length → exec .phase s = .next (s.waiting .boundary) ∧
    (s.me.gang = none → exec .endAct s = .next (s.waiting .boundary))) ∧
  (∀ s : State, atBoundary s.me → s.me.gang = none → ∃ t, exec .endAct s = .next t ∧
    t.me.closing.map (·.d) = s.me.closing.map (·.d) ++ [s.me.seg] ∧
    t.me.closing.getLast?.map (fun g => (g.kind, g.closer, g.atCommit)) = some (.endAct, s.me.pc, .retire (ended s.me)) ∧
    t.me.seg = SegData.new (s.me.seg.id + 1) ∧ t.me.running = false ∧ t.me.regs = Regs.reset ∧ t.me.streams = [] ∧
    t.me.frame = none ∧ t.me.mem = s.me.mem) ∧
  (∀ s : State, s.me.gang = none → s.me.lt.en = false → atBoundary s.me → needOut s.me 1 = .ok () → ∃ t m, exec .yield s = .next t ∧
    t.me.closing.map (·.d) = s.me.closing.map (·.d) ++ [{ s.me.seg with out := s.me.seg.out ++ [⟨.own m, .waiting⟩] }] ∧
    m.toList.drop 1 = [s.me.ctl.tid, s.me.ctl.wid] ++ [4, 5, 6, 7, 8].map (fun i => s.me.regs.orZero i) ∧
    t.me.mseq = s.me.mseq + 1 ∧ t.me.running = false ∧ t.me.mem = s.me.mem) ∧
  (∀ (a : Src) (s : State) (x : W64) (c : Core), s.me.gang = none → s.me.lt.en = false → readS a s.me = .ok (x, c) →
    x &&& 0xFFFFFFFF000007FF = 0 → atBoundary s.me →
    (s.me.closing.length = 1 → s.me.irrev = none → ∃ t, exec (.migr a) s = .next t ∧
      t.me.closing.map (fun g => (g.kind, g.d)) = s.me.closing.map (fun g => (g.kind, g.d)) ++ [(.phase, s.me.seg)] ∧
      t.me.irrev = some .migr ∧ t.me.wait = some .boundary ∧ t.me.pc = s.me.pc ∧ t.me.regs = s.me.regs ∧ t.me.mem = s.me.mem) ∧
    (s.me.closing = [] → s.me.irrev = none → needOut s.me 1 = .ok () → ∃ t, exec (.migr a) s = .next t ∧ (∃ r, r.regs = (freeS a c).regs ∧ r.ctl = s.me.ctl ∧ r.pc = s.me.succ s.me.pc ∧
      t.me.closing.map (fun g => (g.kind, g.d.out)) = [(.phase, s.me.seg.out),
        (.migr, [⟨.migr r (x.extractLsb' 24 8).toNat (x.extractLsb' 11 13).toNat, .waiting⟩])]) ∧
      t.me.running = false ∧ t.me.mem = s.me.mem)) ∧
  (∀ (a : Src) (s : State), s.me.gang.isSome ∨ s.me.lt.en = true →
    exec .yield s = traps s 0x001 (encWord .yield) 0 0 ∧ exec (.migr a) s = traps s 0x001 (encWord (.migr a)) 0 0)

/-- The instructions whose effect is a precise trap: TRAP in both forms (R117), a reserved opcode (R100), and a head that no
instruction starts at, among them that of a handler whose HLINE names an empty line (R87). BKPT traps unless a debugger has armed halting for the context; then the core halts at the head (R148). Word 7 of the record of such a head is 2 at the handler's own HLINE and 1
elsewhere (R273 gives the two; that a handler that comes back to its HLINE reads 2 again is log 31's reading).
The model's own readings or choices in this are those of log 31, 44. -/
def Obligations.SoftwareTraps : Prop :=
  (∀ (k : BitVec 6) (s : State), exec (.trap k) s = traps s 0x604 0 (k.setWidth 64) 0) ∧
  (∀ (k : BitVec 6) (a : Src) (s : State) (x : W64) (c : Core), readS a s.me = .ok (x, c) →
    exec (.trapReg k a) s = traps s 0x604 x (k.setWidth 64) 0) ∧
  (∀ (e : W64) (s : State), exec (.illop e) s = traps s 0x001 e 0 0) ∧
  (∀ s : State, s.cur < Config.nCores → s.me.running = true → s.me.report = none → s.me.validPc s.me.pc = false →
    exec (.sequentialFlowBadtgt s.cur) s = traps s 0x003 s.me.pc 0
      (if s.me.pc = BitVec.ofNat 64 (64 * bits (s.me.handler s.me.act.hidx).2 8 0) then 2 else 1)) ∧
  (∀ (k : BitVec 6) (s : State), (s.ctx s.me.act.ctx.toNat).bkhalt = false → exec (.bkpt k) s = traps s 0x601 0 (k.setWidth 64) 0) ∧
  (∀ (k : BitVec 6) (s : State), (s.ctx s.me.act.ctx.toNat).bkhalt = true → s.cur < Config.nCores →
    (s.ctx s.me.act.ctx.toNat).hasCluster (clusterOf s.cur) = true → s.me.passing ≠ some .bkpt →
    ∃ t, exec (.bkpt k) s = .next t ∧ t.me.halted = some .bkpt ∧ t.me.pc = s.me.pc ∧ t.me.regs = s.me.regs ∧ t.me.mem = s.me.mem)

/-! ### Control words and system instructions -/

/-- GETC writes any control word (R144). SETC writes FLG, AMX, STS, MODE as given and BUD only downwards; a value with a reserved bit or
code raises RESV at issue, with the value in word 3 and the offending bits in word 6, and changes nothing (R144, R57 to R59). SETC and
TRACE wait for the remote weak reads before them (R139).
TIME delivers global time within 48 clk; the value is that of issue (R145, log 45). CYC reads the core's clk at once; ENRG the
energy total of the running context with the clk of its partition's cores up to now (R146). TRACE hands a record to the open segment,
word 3 still to come (R149). -/
def Obligations.ControlWordsAndReadings : Prop :=
  ((∀ (d : BitVec 6) (w : Cw) (s : State) (c' : Core), destS d s.me = .ok () → writeS d (word s.me w) s.me = .ok c' →
     exec (.getc d w) s = done s c') ∧
   (∀ (a : Src) (tag : BitVec 24) (w : Cw) (s : State), s.me.reads ≠ [] →
     ((w = .flg ∨ w = .bud ∨ w = .mode ∨ w = .sts ∨ w = .amx) → exec (.setc w a) s = .next (s.waiting .reads)) ∧
     exec (.trace a tag) s = .next (s.waiting .reads)) ∧
   (∀ (a : Src) (s : State) (x : W64) (c : Core), s.me.reads = [] → readS a s.me = .ok (x, c) →
     let set := fun (k : Ctl) => done s { (freeS a c) with ctl := k }
     exec (.setc .flg a) s = (if x &&& 0xFFFFFFFFFFFFFFE0 = 0 then set { s.me.ctl with flg := x }
       else traps s 0x002 x (x &&& 0xFFFFFFFFFFFFFFE0) 1) ∧
     exec (.setc .bud a) s = (if x &&& 0xFFFFFFFE00000000 = 0 then set { s.me.ctl with bud := if x.toNat < s.me.ctl.bud.toNat then x else s.me.ctl.bud }
       else traps s 0x002 x (x &&& 0xFFFFFFFE00000000) 1) ∧
     exec (.setc .mode a) s = (if x &&& 0xFFFFFFFFFFFCFEE0 = 0 then set { s.me.ctl with mode := x }
       else traps s 0x002 x (x &&& 0xFFFFFFFFFFFCFEE0) 1) ∧
     (x.toNat < 5 → exec (.setc .sts a) s = set { s.me.ctl with sts := x }) ∧
     (5 ≤ x.toNat → ∃ m, exec (.setc .sts a) s = traps s 0x002 x m 1) ∧
     ((x &&& 0x7FFFFFFFFFFFFFFF).toNat ≤ 0x7FF0000000000000 → exec (.setc .amx a) s = set { s.me.ctl with amx := x }) ∧
     (0x7FF0000000000000 < (x &&& 0x7FFFFFFFFFFFFFFF).toNat → exec (.setc .amx a) s = traps s 0x002 x 0x7FFFFFFFFFFFFFFF 1))) ∧
  ((∀ (d : BitVec 6) (s : State) (c' : Core), destS d s.me = .ok () → produce d (BitVec.ofNat 64 (s.gt9 / 9)) 48 s.me = .ok c' →
     exec (.time d) s = done s c') ∧
   (∀ (d : BitVec 6) (s : State) (c' : Core), destS d s.me = .ok () → writeS d (BitVec.ofNat 64 s.me.clk) s.me = .ok c' →
     exec (.cyc d) s = done s c') ∧
   (∀ (d : BitVec 6) (s : State) (c' : Core),
     let x := s.me.act.ctx.toNat
     let s' := onCores (s.ctx x).coreList State.catchUp s
     destS d s'.me = .ok () → writeS d ((s'.ctx x).w 11) s'.me = .ok c' → exec (.enrg d) s = done s' c') ∧
   (∀ (a : Src) (tag : BitVec 24) (s : State) (x : W64) (c : Core), s.me.reads = [] → readS a s.me = .ok (x, c) → s.cur < 8192 →
     ∃ w0 : W64, exec (.trace a tag) s = done s { (freeS a c) with
       seg := { (freeS a c).seg with traces := (freeS a c).seg.traces ++ [[w0, x, s.me.ctl.tid]] } } ∧
     w0.extractLsb' 56 8 = 1 ∧ w0.extractLsb' 32 24 = tag ∧ w0.extractLsb' 24 8 = s.me.act.ctx ∧
     (w0.extractLsb' 11 13).toNat = s.cur ∧ w0.extractLsb' 8 3 = s.me.ctl.mix.extractLsb' 0 3 ∧ w0.extractLsb' 0 8 = 0))

/-! ### Taking an exception and returning from it -/

/-- A precise trap of a core outside a gang whose handler-table entry sends the class to a valid trap handler (R273 to R280): the boundary
closes the open segment, the frame keeps the stopped activation, its registers, control words and pc, and the handler starts at its line
with the record in s1 to s8, a fresh budget and MODE 0.
ERET outside a trap handler raises ILLOP; in one it closes the handler's segment with a boundary whose commit resumes the stopped
activation by the choice (R147).
A trap whose class the entry sends to no handler, one in a handler, and one whose handler's entry is not valid end the activation (R278, R279,
R281): the open segment is undone, the activation's message retires with the closed segments before it, the core is idle. -/
def Obligations.TrapsAndReturns : Prop :=
  (∀ (s : State) (r r' : Report), s.me.gang = none → s.me.held? = false → s.me.act.isTrap = false →
     r' = { r with cyc := s.me.clk, gt := s.gt } → s.me.entry.getLsbD (53 + r.cause / 256) = true →
     entryValid (s.me.handler (bits s.me.entry 52 43)).1 = true →
     fusedDone s [s.cur] false = true → atBoundary s.me →
     ((s.raise s.cur r).putRecord r').isSome = true →
     let t := s.takeTrap [(s.cur, r)]
     let thix := bits s.me.entry 52 43
     let h := s.me.handler thix
     t.me.frame = some ⟨{ s.me.act with fresh := false }, s.me.regs, s.me.ctl, s.me.pc, s.me.streams, r.point != 0, none, r.cause == 0x401⟩ ∧
     t.me.act.isTrap = true ∧ t.me.act.hidx = thix ∧ t.me.act.ctx = s.me.act.ctx ∧
     t.me.pc = BitVec.ofNat 64 (64 * bits h.2 8 0) ∧ t.me.regs = Regs.start (msgOf (s.record r')) ∧
     t.me.ctl.tid = s.me.ctl.tid ∧ t.me.ctl.wid = s.me.ctl.wid ∧ t.me.ctl.msg = s.me.ctl.msg ∧ t.me.ctl.mode = 0 ∧ t.me.ctl.flg = 0 ∧
     t.me.ctl.sts = 0 ∧ t.me.ctl.amx = 0 ∧
     t.me.ctl.bud.toNat = min (if bits h.1 31 0 = 0 then 2 ^ 32 else bits h.1 31 0) (s.ceiling s.me.act.ctx s.me.act.lnch) ∧
     t.me.closing.map (·.d) = s.me.closing.map (·.d) ++ [s.me.seg] ∧ t.me.report = none ∧ t.me.mem = s.me.mem) ∧
  (∀ (s : State) (r r' : Report), s.me.gang = none → s.me.held? = false → r' = { r with cyc := s.me.clk, gt := s.gt } →
     s.me.act.isTrap = true ∨ s.me.entry.getLsbD (53 + r.cause / 256) = false ∨ entryValid (s.me.handler (bits s.me.entry 52 43)).1 = false →
     fusedDone s [s.cur] true = true → ((s.raise s.cur r).putRecord r').isSome = true →
     let t := s.takeTrap [(s.cur, r)]
     t.me.running = false ∧ t.me.regs = Regs.reset ∧ t.me.streams = [] ∧ t.me.frame = none ∧ t.me.report = none ∧
     t.me.closing.map (·.d) = s.me.closing.map (·.d) ∧ t.me.seg = SegData.new s.me.seg.id ∧
     (∀ g, s.me.closing.getLast? = some g → g.ckpt.act.fresh = false ∨ g.ckpt.act.origin ≠ .follower →
       t.me.closing.getLast?.map (·.atCommit.acts) =
         some (g.atCommit.acts ++ [(g.ckpt.frame.map (·.act)).getD g.ckpt.act].filter fun a => a.origin != .follower))) ∧
  ((∀ (skip : Bool) (s : State), s.me.act.isTrap = false → exec (.eret skip) s = traps s 0x001 (encWord (.eret skip)) 0 0) ∧
   (∀ (skip : Bool) (s : State), s.me.act.isTrap = true → s.me.gang = none → atBoundary s.me → ∃ t, exec (.eret skip) s = .next t ∧
     t.me.closing.map (·.d) = s.me.closing.map (·.d) ++ [s.me.seg] ∧
     t.me.closing.getLast?.map (fun g => (g.kind, g.atCommit)) = some (.eret, .resume skip) ∧
     t.me.frame = s.me.frame.map (fun (f : Saved) => { f with choice := some skip }) ∧
     t.me.running = false ∧ t.me.mem = s.me.mem) ∧
   (∀ (c : Core) (f : Saved) (skip : Bool), c.frame = some f → let r := c.resumeFrame c.succ skip
     r.running = true ∧ r.act = f.act ∧ r.regs = f.regs ∧ r.ctl = f.ctl ∧ r.streams = f.streams ∧ r.frame = none ∧
     r.pc = (if skip = true ∧ f.rolled = false then c.succ f.pc else f.pc) ∧ r.mem = c.mem))

/-! ### Scalar floating point -/

/-- FADD, FSUB, FMUL, FMIN, FMAX, FFMA, FRND, FCVT and FCMP write the result of their operation and OR its flags into FLG; an
enabled flag traps, and then nothing is written (R128 to R134, R29).
FDIV and FSQRT are long-latency producers with the bounds of R128.
FSGN replaces the sign bit by that of b, its inverse or the exclusive or of the two signs; FCLASS sets the bit of a's class, by its sign, its
exponent field and its mantissa. Neither raises a flag (R131, R135). -/
def Obligations.ScalarFloat : Prop :=
  ((∀ row ∈ floatRows2, ∀ (d : BitVec 6) (a b : Src) (rm : Rnd) (t : Ty) (s : State) (x y : W64) (c : Core), t.isArith = true →
     Reads2 d a b s.me x y c →
     floatEnd s (row.f t rm x.toNat y.toNat).2 (· = 0) (writeS d (BitVec.ofNat 64 (row.f t rm x.toNat y.toNat).1)) c (exec (row.op d a b rm t) s)) ∧
   (∀ (d : BitVec 6) (a b e : Src) (rm : Rnd) (t : Ty) (s : State) (x y z : W64) (c : Core), t.isArith = true → Reads3 d a b e s.me x y z c →
     let r := ffma t rm x.toNat y.toNat z.toNat
     floatEnd s r.2 (· = 0) (writeS d (BitVec.ofNat 64 r.1)) c (exec (.ffma d a b e rm t) s)) ∧
   (∀ (d : BitVec 6) (a b : Src) (p : Pred) (t : Ty) (s : State) (x y : W64) (c : Core), t.isArith = true → Reads2 d a b s.me x y c →
     let r := fcmp t p x.toNat y.toNat
     floatEnd s r.2 (· = 0) (writeS d (if r.1 then 1 else 0)) c (exec (.fcmp d a b p t) s)) ∧
   (∀ (d : BitVec 6) (a : Src) (exact : Bool) (rm : Rnd) (t : Ty) (s : State) (x : W64) (c : Core), t.isArith = true → Reads1 d a s.me x c →
     let r := frnd t rm exact x.toNat
     floatEnd s r.2 (· = 0) (writeS d (BitVec.ofNat 64 r.1)) c (exec (.frnd d a exact rm t) s)) ∧
   (∀ (d : BitVec 6) (a : Src) (src : Ty) (rm : Rnd) (sat : Bool) (t : Ty) (s : State) (x : W64) (c : Core), Reads1 d a s.me x c →
     let r := convert x.toNat src t rm sat
     floatEnd s r.2 (· = 0) (writeS d (if t.isInt then widen (r.1 : Int) t else if t = .i4 then (BitVec.ofNat 4 r.1).signExtend 64
       else BitVec.ofNat 64 r.1)) c (exec (.fcvt d a src rm sat t) s))) ∧
  ((∀ (d : BitVec 6) (a b : Src) (rm : Rnd) (t : Ty) (s : State) (x y : W64) (c : Core), t.isArith = true → Reads2 d a b s.me x y c →
     let r := fdiv t rm x.toNat y.toNat
     floatEnd s r.2 (· = 0) (produce d (BitVec.ofNat 64 r.1) (if t = .f64 then 24 else if t = .f32 then 14 else 10)) c (exec (.fdiv d a b rm t) s)) ∧
   (∀ (d : BitVec 6) (a : Src) (rm : Rnd) (t : Ty) (s : State) (x : W64) (c : Core), t.isArith = true → Reads1 d a s.me x c →
     let r := fsqrt t rm x.toNat
     floatEnd s r.2 (· = 0) (produce d (BitVec.ofNat 64 r.1) (if t = .f64 then 28 else if t = .f32 then 16 else 10)) c (exec (.fsqrt d a rm t) s))) ∧
  ((∀ (d : BitVec 6) (a b : Src) (op : SgnOp) (t : Ty) (s : State) (x y : W64) (c c' : Core), t.isArith = true → op ≠ .abs →
     Reads2 d a b s.me x y c →
     (let w := t.width
      let sx := x.getLsbD (w - 1)
      let sy := y.getLsbD (w - 1)
      let sign := if op = .cpy then sy else if op = .neg then !sy else sx != sy
      writeS d (BitVec.ofNat 64 (x.toNat % 2 ^ (w - 1) + if sign then 2 ^ (w - 1) else 0)) c = .ok c') →
     exec (.fsgn d a b op t) s = done s c') ∧
   (∀ (d : BitVec 6) (a : Src) (t : Ty) (s : State) (x : W64) (c c' : Core), t.isArith = true → Reads1 d a s.me x c →
     (let f := Machine.Ty.fmt t
      let neg := x.getLsbD (t.width - 1)
      let e := x.toNat / 2 ^ f.mb % 2 ^ f.eb
      let m := x.toNat % 2 ^ f.mb
      let k := if e = 2 ^ f.eb - 1 then (if m = 0 then (if neg then 0 else 7) else if 2 ^ (f.mb - 1) ≤ m then 9 else 8)
        else if e = 0 then (if m = 0 then (if neg then 3 else 4) else if neg then 2 else 5)
        else if neg then 1 else 6
      writeS d (BitVec.ofNat 64 (2 ^ k)) c = .ok c') → exec (.fclass d a t) s = done s c'))

/-- Every floating-point result is correctly rounded (R27, R28): the sum, the difference, the product, the fused product and sum, the quotient and
the square root of finite operands, a conversion of a finite value to a floating format, and the components of CMUL and BFLY (R217 to R219), are the
exact number rounded once: the magnitude of the format that the mode picks, INX where it is not the exact one, UFL where it is tiny besides, and
past the largest finite one the result of R28 with OFL and INX. An exact zero sum of opposite signs is −0 in rdn and +0 else.
A finite value of a floating format rounds to itself in that format, whatever the mode, and raises no flag. -/
def Obligations.FloatFormats : Prop :=
  (∀ (t : Ty) (rm : Rnd) (sat neg : Bool) (b m : Nat) (e : Int), t.isArith = true ∨ t = .f16 → b < 2 ^ t.width → m ≠ 0 →
     decodeF t b = .fin neg m e → roundMag t rm neg m e sat = (b, 0)) ∧
  (∀ (t : Ty) (rm : Rnd) (sat neg : Bool) (m : Nat) (e : Int), isFloat t = true → m ≠ 0 →
     Rounded t rm sat neg (sideOf (mag m e)) (roundMag t rm neg m e sat)) ∧
  (∀ (t : Ty) (rm : Rnd) (a b c : Nat) (x y z : Rat), t.isArith = true →
     IsValue (decodeF t a) x → IsValue (decodeF t b) y → IsValue (decodeF t c) z →
     RoundedFrom t rm false (x + y) (fadd t rm a b) ∧ RoundedFrom t rm false (x - y) (fsub t rm a b) ∧
     RoundedFrom t rm false (x * y) (fmul t rm a b) ∧ RoundedFrom t rm false (x * y + z) (ffma t rm a b c) ∧
     (y ≠ 0 → RoundedFrom t rm false (x / y) (fdiv t rm a b)) ∧
     (0 < x → Rounded t rm false false (rootSide x) (fsqrt t rm a)) ∧
     (x + y = 0 → (decodeF t a).neg ≠ (decodeF t b).neg → (fadd t rm a b).2 = 0 ∧
       ∃ e, decodeF t (fadd t rm a b).1 = .fin (decide (rm = .rdn)) 0 e)) ∧
  (∀ (src t : Ty) (rm : Rnd) (sat : Bool) (a : Nat) (x : Rat), isFloat t = true → IsValue (decodeF src a) x →
     RoundedFrom t rm sat x (convert a src t rm sat)) ∧
  (∀ (t : Ty) (rm : Rnd) (opp : Bool) (a b w : FV × FV) (ar ai br bi wr wi : Rat), t.isCplx = true → IsValue a.1 ar → IsValue a.2 ai →
     IsValue b.1 br → IsValue b.2 bi → IsValue w.1 wr → IsValue w.2 wi →
     let bi' := if opp then -bi else bi
     let re := wr * br - wi * bi
     let im := wr * bi + wi * br
     RoundedFrom t rm false (ar * br - ai * bi') (cmulElem t rm opp a b).1 ∧ RoundedFrom t rm false (ar * bi' + ai * br) (cmulElem t rm opp a b).2 ∧
     RoundedFrom t rm false (if opp then ar - re else ar + re) (bflyElem t rm opp a b w).1 ∧
     RoundedFrom t rm false (if opp then ai - im else ai + im) (bflyElem t rm opp a b w).2)

/-! ### The vector unit -/

/-- Element-wise floating point, special functions and VFMA (R202, R204) at every mask: active lanes receive the operation's result, inactive
lanes are kept or zeroed, the union of the active lanes' flags is raised (R195, R196). ABCM is VX with every lane active.
VSGN with a second source: each active lane takes the sign of R202.
The model's own readings or choices in this are those of log 14. -/
def Obligations.VectorFloat : Prop :=
  ((∀ row ∈ vecRows1, ∀ (d : BitVec 5) (a : VSrc) (rm : Rnd) (t : Ty) (mk : VMask) (s : State) (x old : Line) (act : Nat) (c : Core),
     t.isArith = true → VReads1 d a mk t.lanes s.me x act old c →
     let r := fun i => row.f t rm (laneAt x t.width i)
     laneEnd s d t mk act old r c (exec (row.vx d a rm t mk) s) ∧ (mk = VMask.all → exec (row.abcm d a rm t) s = exec (row.vx d a rm t mk) s)) ∧
   (∀ row ∈ vecFloatRows, ∀ (d : BitVec 5) (a b : VSrc) (rm : Rnd) (t : Ty) (mk : VMask) (s : State) (x y old : Line) (act : Nat) (c : Core),
     t.isArith = true → VReads2 d a b mk t.lanes s.me x y act old c →
     let r := fun i => row.f t rm (laneAt x t.width i) (laneAt y t.width i)
     laneEnd s d t mk act old r c (exec (row.vx d a b rm t mk) s) ∧ (mk = VMask.all → exec (row.abcm d a b rm t) s = exec (row.vx d a b rm t mk) s)) ∧
   (∀ (d : BitVec 5) (a b e : VSrc) (rm : Rnd) (t : Ty) (mk : VMask) (s : State) (x y z old : Line) (act : Nat) (c : Core),
     t.isArith = true → VReads3 d a b e mk t.lanes s.me x y z act old c →
     let r := fun i => ffma t rm (laneAt x t.width i) (laneAt y t.width i) (laneAt z t.width i)
     laneEnd s d t mk act old r c (exec (.vfmaVx d a b e rm t mk) s) ∧
       (mk = VMask.all → exec (.vfma d a b e rm t) s = exec (.vfmaVx d a b e rm t mk) s))) ∧
  (∀ (d : BitVec 5) (a b : VSrc) (op : SgnOp) (t : Ty) (mk : VMask) (s : State) (x y old : Line) (act : Nat) (c : Core), t.isArith = true →
     op ≠ .abs → VReads2 d a b mk t.lanes s.me x y act old c →
     let w := t.width
     let r := fun i =>
       let sx := (laneAt x w i).testBit (w - 1)
       let sy := (laneAt y w i).testBit (w - 1)
       let sign := if op = .cpy then sy else if op = .neg then !sy else sx != sy
       (laneAt x w i % 2 ^ (w - 1) + (if sign then 2 ^ (w - 1) else 0), (0 : Fl))
     laneEnd s d t mk act old r c (exec (.vsgnVx d a b op t mk) s) ∧
       (mk = VMask.all → exec (.vsgn d a b op t) s = exec (.vsgnVx d a b op t mk) s))

/-- Integer and logic lanes (R207): the low bits of the scalar operation of row 0x1_ at the lane type; no flag is raised.
VCMP (R203): bit i of the mask is the predicate on lane i; inactive lanes give 0 under zeroing and keep d's bit under merging, and bits
above the lanes are zero. -/
def Obligations.VectorIntegerAndCompare : Prop :=
  (∀ row ∈ vecIntRows, ∀ (d : BitVec 5) (a b : VSrc) (t : Ty) (mk : VMask) (s : State) (x y old : Line) (act : Nat) (c : Core),
     t.isInt = true → VReads2 d a b mk t.lanes s.me x y act old c →
     let r := fun i => intLanes row.r t (laneAt x t.width i) (laneAt y t.width i)
     laneEnd s d t mk act old r c (exec (row.vx d a b t mk) s) ∧
       (mk = VMask.all → exec (row.abcm d a b t) s = exec (row.vx d a b t mk) s ∧ (t = .i64 → exec (row.ab d a b) s = exec (row.vx d a b t mk) s))) ∧
  (∀ (d : BitVec 3) (a b : VSrc) (p : Pred) (t : Ty) (mk : VMask) (s : State) (x y : Line) (act : Nat) (c1 c2 c3 : Core),
     t.isCmpTy = true → cmpPredOk p t = true → destM d s.me = .ok () →
     readV a s.me = .ok (x, c1) → readV b c1 = .ok (y, c2) → activeLanes mk t.lanes c2 = .ok (act, c3) →
     let w := t.width
     let lane := fun i => if t.isInt then
         (let u := narrow (BitVec.ofNat 64 (laneAt x w i)) t
          let v := narrow (BitVec.ofNat 64 (laneAt y w i)) t
          (match p with
           | .eq => decide (u = v)
           | .ne => decide (u ≠ v)
           | .lt => decide (u < v)
           | _ => decide (u ≤ v), (0 : Fl)))
       else fcmp t p (laneAt x w i) (laneAt y w i)
     (∃ m : W64, (∀ i < 64, m.getLsbD i = if t.lanes ≤ i then false else if act.testBit i then (lane i).1
         else mk.men && !mk.mz && (match s.me.regs.getM d with
           | .full v => v.getLsbD i
           | _ => false)) ∧
       floatEnd s (laneFlags act t.lanes fun i => (lane i).2) (fun _ => True) (fun c => .ok (writeM d m c)) (freeV b (freeV a c3))
         (exec (.vcmpVx d a b p t mk) s)) ∧
     (mk = VMask.all → exec (.vcmp d a b p t) s = exec (.vcmpVx d a b p t mk) s))

/-- Selection and movement (R208): VSEL by the mask c, VPERM by the index lanes of b over a and then c, VBCAST, VSLIDE over a and then b. -/
def Obligations.VectorMoves : Prop :=
  (∀ (d : BitVec 5) (a b e : VSrc) (t : Ty) (mk : VMask) (s : State) (x y z old : Line) (act : Nat) (c : Core),
    VReads3 d a b e mk t.lanes s.me x y z act old c →
    let n := t.lanes
    let r := fun i =>
      let j := laneAt y t.width i
      (if j < n then laneAt x t.width j else if j < 2 * n then laneAt z t.width (j - n) else 0, (0 : Fl))
    laneEnd s d t mk act old r c (exec (.vpermVx d a b e t mk) s) ∧ (mk = VMask.all → exec (.vperm d a b e t) s = exec (.vpermVx d a b e t mk) s)) ∧
  (∀ (d : BitVec 5) (a b : VSrc) (e : MSrc) (t : Ty) (mk : VMask) (s : State) (x y old : Line) (m : W64) (act : Nat) (c1 c2 c3 c4 : Core),
    destV d s.me = .ok () → readV a s.me = .ok (x, c1) → readV b c1 = .ok (y, c2) → readM e c2 = .ok (m, c3) →
    activeLanes mk t.lanes c3 = .ok (act, c4) → oldV d c4 = .ok old →
    laneEnd s d t mk act old (fun i => (if m.getLsbD i then laneAt x t.width i else laneAt y t.width i, 0)) (freeM e (freeV b (freeV a c4)))
      (exec (.vselVx d a b e t mk) s) ∧ (mk = VMask.all → exec (.vsel d a b e t) s = exec (.vselVx d a b e t mk) s)) ∧
  (∀ (d : BitVec 5) (a : Src) (t : Ty) (mk : VMask) (s : State) (x : W64) (old : Line) (act : Nat) (c1 c2 : Core),
    destV d s.me = .ok () → readS a s.me = .ok (x, c1) → activeLanes mk t.lanes c1 = .ok (act, c2) → oldV d c2 = .ok old →
    laneEnd s d t mk act old (fun _ => (x.toNat % 2 ^ t.width, 0)) (freeS a c2) (exec (.vbcastVx d a t mk) s) ∧
      (mk = VMask.all → exec (.vbcast d a t) s = exec (.vbcastVx d a t mk) s)) ∧
  (∀ (d : BitVec 5) (a b : VSrc) (e : Src) (t : Ty) (mk : VMask) (s : State) (x y old : Line) (k : W64) (act : Nat) (c1 c2 c3 c4 : Core),
    destV d s.me = .ok () → readV a s.me = .ok (x, c1) → readV b c1 = .ok (y, c2) → readS e c2 = .ok (k, c3) →
    activeLanes mk t.lanes c3 = .ok (act, c4) → oldV d c4 = .ok old →
    let n := t.lanes
    let r := fun i =>
      let j := i + k.toNat
      (if j < n then laneAt x t.width j else if j < 2 * n then laneAt y t.width (j - n) else 0, (0 : Fl))
    laneEnd s d t mk act old r (freeS e (freeV b (freeV a c4))) (exec (.vslideVx d a b e t mk) s) ∧
      (mk = VMask.all → exec (.vslide d a b e t) s = exec (.vslideVx d a b e t mk) s))

/-- Compaction, expansion, indices, lane access (R209) and masks as words (R210). -/
def Obligations.LanesAndMasks : Prop :=
  (∀ (d : BitVec 5) (a : VSrc) (b : MSrc) (t : Ty) (s : State) (x : Line) (m : W64) (c1 c2 : Core), t.isMem = true → destV d s.me = .ok () →
    readV a s.me = .ok (x, c1) → readM b c1 = .ok (m, c2) →
    let set := (List.range t.lanes).filter fun i => m.getLsbD i
    (∃ v, (∀ i < t.lanes, laneAt v t.width i = ((set[i]?).map fun j => laneAt x t.width j).getD 0) ∧
      ∀ c', writeV d v (freeM b (freeV a c2)) = .ok c' → exec (.vcmpr d a b t) s = done s c') ∧
    (∃ v, (∀ i < t.lanes, laneAt v t.width i =
        if m.getLsbD i then laneAt x t.width ((List.range i).filter fun j => m.getLsbD j).length else 0) ∧
      ∀ c', writeV d v (freeM b (freeV a c2)) = .ok c' → exec (.vexpd d a b t) s = done s c')) ∧
  (∀ (d : BitVec 5) (a : MSrc) (t : Ty) (s : State), t.isInt = true → destV d s.me = .ok () →
    (∃ v, (∀ i < t.lanes, laneAt v t.width i = i) ∧ ∀ c', writeV d v s.me = .ok c' → exec (.viota d a false t) s = done s c') ∧
    (∀ m c1, readM a s.me = .ok (m, c1) → ∃ v, (∀ i < t.lanes, laneAt v t.width i = ((List.range i).filter fun j => m.getLsbD j).length) ∧
      ∀ c', writeV d v (freeM a c1) = .ok c' → exec (.viota d a true t) s = done s c')) ∧
  (∀ (d : BitVec 6) (a : VSrc) (b : Src) (k : BitVec 6) (t : Ty) (s : State) (x : Line) (c1 : Core), t.isMem = true → k.toNat < t.lanes →
    readV a s.me = .ok (x, c1) →
    (destS d s.me = .ok () → ∀ c', writeS d (if t.isSInt then widen (laneAt x t.width k.toNat : Int) t
        else BitVec.ofNat 64 (laneAt x t.width k.toNat)) (freeV a c1) = .ok c' → exec (.vlane d a b k false t) s = done s c') ∧
    (destV (d.setWidth 5) s.me = .ok () → ∀ y c2, readS b c1 = .ok (y, c2) →
      ∃ v, (∀ i < t.lanes, laneAt v t.width i = if i = k.toNat then y.toNat % 2 ^ t.width else laneAt x t.width i) ∧
        ∀ c', writeV (d.setWidth 5) v (freeS b (freeV a c2)) = .ok c' → exec (.vlane d a b k true t) s = done s c')) ∧
  (∀ (d : BitVec 3) (a b : MSrc) (s : State) (x y : W64) (c1 c2 : Core), destM d s.me = .ok () → readM a s.me = .ok (x, c1) →
    readM b c1 = .ok (y, c2) →
    (∀ p ∈ [(MlogOp.and, x &&& y), (.or, x ||| y), (.xor, x ^^^ y), (.andn, x &&& ~~~y)],
      exec (.mlog d a b p.1) s = done s (writeM d p.2 (freeM b (freeM a c2)))) ∧
    exec (.mlog d a b .not) s = done s (writeM d (~~~x) (freeM a c1)) ∧
    exec (.mlog d a b .ones) s = done s (writeM d 0xFFFFFFFFFFFFFFFF s.me)) ∧
  (∀ (d : BitVec 6) (a : Src) (s : State) (c' : Core),
    (destM (d.setWidth 3) s.me = .ok () → ∀ x c1, readS a s.me = .ok (x, c1) →
      exec (.mpop d a .set) s = done s (writeM (d.setWidth 3) x (freeS a c1))) ∧
    (destS d s.me = .ok () → ∀ x c1, readM ⟨a.last, a.trap, a.reg.setWidth 3⟩ s.me = .ok (x, c1) →
      let c := freeM ⟨a.last, a.trap, a.reg.setWidth 3⟩ c1
      (writeS d x c = .ok c' → exec (.mpop d a .get) s = done s c') ∧
      (writeS d (BitVec.ofNat 64 ((List.range 64).filter fun i => x.getLsbD i).length) c = .ok c' → exec (.mpop d a .pop) s = done s c') ∧
      (∀ n, n ≤ 64 → (∀ i < n, x.getLsbD i = false) → (n < 64 → x.getLsbD n = true) → writeS d (BitVec.ofNat 64 n) c = .ok c' →
        exec (.mpop d a .first) s = done s c')))

/-- Conversion, unpacking and scaling (R211, R213, R215): the lanes of part p, the lanes outside it kept.
The model's own readings or choices in this are those of log 28. -/
def Obligations.VectorConversion : Prop :=
  (∀ (d : BitVec 5) (a : VSrc) (src t : Ty) (p : BitVec 4) (rm : Rnd) (sat : Bool) (mk : VMask) (s : State) (x old : Line) (act : Nat) (c : Core),
    src.isCvt = true → t.isCvt = true → p.toNat < cvtParts src t → VReads1 d a mk t.lanes s.me x act old c →
    let conv := fun j => convert (laneAt x src.width j) src t rm sat
    (∃ v, (∀ i < t.lanes, laneAt v t.width i = match cvtSource src t p.toNat i with
        | none => laneAt old t.width i
        | some j => if act.testBit i then (conv j).1 % 2 ^ t.width else if mk.mz then 0 else laneAt old t.width i) ∧
      floatEnd s (laneFlags act t.lanes fun i => match cvtSource src t p.toNat i with
        | none => 0
        | some j => (conv j).2) (fun _ => True) (writeV d v) c (exec (.vcvtVx d a src p rm sat t mk) s)) ∧
    (mk = VMask.all → exec (.vcvt d a src p rm sat t) s = exec (.vcvtVx d a src p rm sat t mk) s)) ∧
  (∀ (d : BitVec 5) (a : VSrc) (src t : Ty) (p : BitVec 4) (rm : Rnd) (mk : VMask) (s : State) (x old : Line) (act : Nat) (c : Core),
    VReads1 d a mk t.lanes s.me x act old c →
    laneEnd s d t mk act old (fun i => convert (laneAt x src.width (p.toNat * t.lanes + i)) src t rm false) c (exec (.vunpkVx d a src p rm t mk) s) ∧
    (mk = VMask.all → exec (.vunpk d a src p rm t) s = exec (.vunpkVx d a src p rm t mk) s)) ∧
  (∀ (d : BitVec 5) (a : VSrc) (b : Src) (k : BitVec 3) (inv : Bool) (rm : Rnd) (t : Ty) (mk : VMask) (s : State) (x old : Line) (y : W64)
    (act : Nat) (c1 c2 c3 : Core), destV d s.me = .ok () → readV a s.me = .ok (x, c1) → readS b c1 = .ok (y, c2) →
    activeLanes mk t.lanes c2 = .ok (act, c3) → oldV d c3 = .ok old →
    laneEnd s d t mk act old (fun i => scaleLane t rm inv (bits y (8 * k.toNat + 7) (8 * k.toNat)) (laneAt x t.width i)) (freeS b (freeV a c3))
      (exec (.vscaleVx d a b k inv rm t mk) s) ∧
    (mk = VMask.all → exec (.vscale d a b k inv rm t) s = exec (.vscaleVx d a b k inv rm t mk) s))

/-- VPACK (R214) converts the lanes into the elements of part p of the packed format t and raises AMX to the largest magnitude of its
active lanes (R45); VAMAX writes that magnitude and raises AMX (R216).
UpdateAMX (R45) over lanes is a running maximum of magnitudes that remembers a NaN: bits 62:0 become the largest of what they held and of the
magnitudes, read exactly as binary64, and bit 63 is set once a lane is a NaN.
That the elements outside part p keep the old contents under zeroing too is log 28's reading.
The model's own readings or choices in this are those of log 28. -/
def Obligations.PackAndMagnitude : Prop :=
  ((∀ (d : BitVec 5) (a : VSrc) (src t : Ty) (p : BitVec 4) (rm : Rnd) (sat : Bool) (mk : VMask) (s : State) (x old : Line) (act : Nat) (c : Core),
     src.isUnpk = true → t.isPacked = true → unpkPair t src = true → p.toNat < packParts t src → VReads1 d a mk src.lanes s.me x act old c →
     let n := src.lanes
     let conv := fun j => convert (laneAt x src.width j) src t rm sat
     let xs := ((List.range n).filter fun i => act.testBit i).map fun i => laneAt x src.width i
     (∃ v, (∀ e < t.packed, laneAt v t.width e =
         if p.toNat * n ≤ e ∧ e < (p.toNat + 1) * n then
           (if act.testBit (e - p.toNat * n) then (conv (e - p.toNat * n)).1 % 2 ^ t.width
            else if mk.mz then (if t = .ds8 then 0x77 else 0) else laneAt old t.width e)
         else laneAt old t.width e) ∧
       floatEnd s (laneFlags act n fun i => (conv i).2) (fun _ => True)
         (fun c => writeV d v { c with ctl := { c.ctl with amx := amxLanes src c.ctl.amx xs } }) c (exec (.vpackVx d a src p rm sat t mk) s)) ∧
     (mk = VMask.all → exec (.vpack d a src p rm sat t) s = exec (.vpackVx d a src p rm sat t mk) s)) ∧
   (∀ (d : BitVec 6) (a : VSrc) (t : Ty) (mk : VMask) (s : State) (x : Line) (act : Nat) (c1 c2 c' : Core), t.isArith = true →
     destS d s.me = .ok () → readV a s.me = .ok (x, c1) → activeLanes mk t.lanes c1 = .ok (act, c2) →
     let xs := ((List.range t.lanes).filter fun i => act.testBit i).map fun i => laneAt x t.width i
     (writeS d (amxLanes t 0 xs) { (freeV a c2) with ctl := { (freeV a c2).ctl with amx := amxLanes t (freeV a c2).ctl.amx xs } } = .ok c' →
       exec (.vamaxVx d a t mk) s = done s c') ∧
     (mk = VMask.all → exec (.vamax d a t) s = exec (.vamaxVx d a t mk) s))) ∧
  (∀ (t : Ty) (amx : W64) (xs : List Nat), t.isArith = true →
     bits amx 62 0 ≤ bits (amxLanes t amx xs) 62 0 ∧
     (∀ x ∈ xs, (decodeF t x).isNan = false → (convert x t .f64 .rne false).1 % 2 ^ 63 ≤ bits (amxLanes t amx xs) 62 0) ∧
     (bits (amxLanes t amx xs) 62 0 = bits amx 62 0 ∨
       ∃ x ∈ xs, (decodeF t x).isNan = false ∧ bits (amxLanes t amx xs) 62 0 = (convert x t .f64 .rne false).1 % 2 ^ 63) ∧
     ((amxLanes t amx xs).getLsbD 63 = (amx.getLsbD 63 || xs.any fun x => (decodeF t x).isNan)))

/-- The complex instructions (R217 to R220): element j of the result from elements j of the sources, two elements' registers for BFLY. -/
def Obligations.ComplexNumbers : Prop :=
  let out := fun (t : Ty) (mk : VMask) (act : Nat) (old : Line) (f : Nat → (Nat × Fl) × (Nat × Fl)) (v : Line) =>
    ∀ j < t.lanes / 2, (laneAt v t.width (2 * j) = if act.testBit j then (f j).1.1 % 2 ^ t.width
        else if mk.men && !mk.mz then laneAt old t.width (2 * j) else 0) ∧
      (laneAt v t.width (2 * j + 1) = if act.testBit j then (f j).2.1 % 2 ^ t.width
        else if mk.men && !mk.mz then laneAt old t.width (2 * j + 1) else 0)
  let flags := fun (t : Ty) (act : Nat) (f : Nat → (Nat × Fl) × (Nat × Fl)) => laneFlags act (t.lanes / 2) fun j => (f j).1.2 ||| (f j).2.2
  (∀ (d : BitVec 5) (a b : VSrc) (conj : Bool) (rm : Rnd) (t : Ty) (mk : VMask) (s : State) (x y old : Line) (act : Nat) (c : Core),
    t.isCplx = true → VReads2 d a b mk (t.lanes / 2) s.me x y act old c →
    let f := fun j => cmulElem t rm conj (elemAt x t j) (elemAt y t j)
    (∃ v, out t mk act old f v ∧ floatEnd s (flags t act f) (fun _ => True) (writeV d v) c (exec (.cmulVx d a b conj rm t mk) s)) ∧
    (mk = VMask.all → exec (.cmul d a b conj rm t) s = exec (.cmulVx d a b conj rm t mk) s)) ∧
  (∀ (d : BitVec 5) (a : VSrc) (n : BitVec 5) (rm : Rnd) (t : Ty) (mk : VMask) (s : State) (x old : Line) (act : Nat) (c : Core),
    t.isCplx = true → VReads1 d a mk (t.lanes / 2) s.me x act old c →
    let f := fun j => twiddle t rm n.toNat (laneAt x t.width j)
    (∃ v, out t mk act old f v ∧ floatEnd s (flags t act f) (fun _ => True) (writeV d v) c (exec (.twidVx d a n rm t mk) s)) ∧
    (mk = VMask.all → exec (.twid d a n rm t) s = exec (.twidVx d a n rm t mk) s)) ∧
  (∀ (d : BitVec 5) (a b e : VSrc) (rm : Rnd) (t : Ty) (mk : VMask) (s : State) (x y z old old1 : Line) (act : Nat)
    (c1 c2 c3 c4 : Core), t.isCplx = true → destV d s.me = .ok () → destV (d + 1) s.me = .ok () → readV a s.me = .ok (x, c1) →
    readV b c1 = .ok (y, c2) → readV e c2 = .ok (z, c3) → activeLanes mk (t.lanes / 2) c3 = .ok (act, c4) → oldV d c4 = .ok old →
    oldV (d + 1) c4 = .ok old1 →
    let f := fun sub j => bflyElem t rm sub (elemAt x t j) (elemAt y t j) (elemAt z t j)
    (∃ v v1, out t mk act old (f false) v ∧ out t mk act old1 (f true) v1 ∧
      floatEnd s (flags t act (f false) ||| flags t act (f true)) (fun _ => True) (fun c => (writeV d v c).bind (writeV (d + 1) v1))
        (freeV e (freeV b (freeV a c4)))
        (exec (.bflyVx d a b e rm t mk) s)) ∧
    (mk = VMask.all → exec (.bfly d a b e rm t) s = exec (.bflyVx d a b e rm t mk) s))

/-- VRED and VSCAN of a core outside a gang (R205, R206). VRED puts the tree over all lanes, inactive ones at the identity, into lane 0
and zero elsewhere; the tree of integer sums is their sum modulo 2^w. VSCAN puts the inclusive prefix into the lanes.
The model's own readings or choices in this are those of log 27. -/
def Obligations.ReductionsAndScans : Prop :=
  (∀ (d : BitVec 5) (a : VSrc) (op : RedOp) (rm : Rnd) (t : Ty) (mk : VMask) (s : State) (x : Line) (act : Nat) (c1 c2 : Core),
    t.isRedTy = true → s.me.gang = none → destV d s.me = .ok () → readV a s.me = .ok (x, c1) → activeLanes mk t.lanes c1 = .ok (act, c2) →
    let r := redTree op t rm 12 ((List.range t.lanes).map fun i => if act.testBit i then laneAt x t.width i else redIdentity op t)
    (∃ v, (∀ i < t.lanes, laneAt v t.width i = if i = 0 then r.1 % 2 ^ t.width else 0) ∧
      floatEnd s r.2 (fun _ => True) (writeV d v) (freeV a c2) (exec (.vredVx d a op rm t mk) s)) ∧
    (mk = VMask.all → exec (.vred d a op rm t) s = exec (.vredVx d a op rm t mk) s) ∧
    (t.isInt = true → op = .add ∨ op = .addl → r.2 = 0 ∧
      r.1 % 2 ^ t.width = (((List.range t.lanes).filter fun i => act.testBit i).map fun i => laneAt x t.width i).sum % 2 ^ t.width)) ∧
  (∀ (d : BitVec 5) (a : VSrc) (op : RedOp) (rm : Rnd) (t : Ty) (mk : VMask) (s : State) (x : Line) (act : Nat) (c1 c2 : Core),
    t.isRedTy = true → s.me.gang = none → destV d s.me = .ok () → readV a s.me = .ok (x, c1) → activeLanes mk t.lanes c1 = .ok (act, c2) →
    let ys := scanFrom op t rm none ((List.range t.lanes).map fun i => if act.testBit i then some (laneAt x t.width i) else none)
    (∃ v, (∀ i < t.lanes, laneAt v t.width i = ((ys[i]?).map fun y => y.1 % 2 ^ t.width).getD 0) ∧
      floatEnd s (ys.foldl (fun g y => g ||| y.2) 0) (fun _ => True) (writeV d v) (freeV a c2) (exec (.vscanVx d a op rm t mk) s)) ∧
    (mk = VMask.all → exec (.vscan d a op rm t) s = exec (.vscanVx d a op rm t mk) s))

/-! ### Memory of the core and weak accesses -/

/-- Memory in its canonical form: bytes put are read back and no other byte changes (R11, R63); the form is kept (log 6).
Equal contents are equal memories: two canonical memories that read alike at every address are the same list. -/
def Obligations.MemoryReadAfterWrite : Prop :=
  (∀ (m : Mem) (a : Nat) (bs : List Byte), m.wf = true → (Mem.put m a bs).wf = true ∧ Mem.bytes (Mem.put m a bs) a bs.length = bs ∧
     ∀ k, k < a ∨ a + bs.length ≤ k → Mem.byte (Mem.put m a bs) k = Mem.byte m k) ∧
  (∀ m m' : Mem, m.wf = true → m'.wf = true → (∀ a, Mem.byte m a = Mem.byte m' a) → m = m')

/-- An access of a context claims its lines first (R162): a line of another owner reads zero and belongs to the context from then on; a
line it owns already, in a bank it owns, is unchanged.
A weak own store writes its bytes in place and no other byte (R63): with the lines owned, memory outside them reads as before; every
line touched is in the open segment's log, a new one with its pre-image. -/
def Obligations.OwnWrite : Prop :=
  ((∀ (c : Core) (x : BitVec 8) (n : Nat), c.lineOwner n = x → c.claim x n = c) ∧
   (∀ (c : Core) (x : BitVec 8) (n : Nat), c.lineOwner n ≠ x → (c.claim x n).lineOwner n = x ∧
     (∀ a, a / 64 = n → Mem.byte (c.claim x n).mem a = 0) ∧ (c.claim x n).poison.contains n = false ∧
     (∀ a, a / 64 ≠ n → c.mem.wf = true → Mem.byte (c.claim x n).mem a = Mem.byte c.mem a) ∧
     (∀ k, k ≠ n → (c.claim x n).lineOwner k = c.lineOwner k)) ∧
   (∀ (c : Core) (a n : Nat), Owned c a n → c.claimAll c.act.ctx a n = c)) ∧
  (∀ (c : Core) (a : Nat) (bs : List Byte), c.mem.wf = true → bs ≠ [] →
     Owned c a bs.length →
     let c' := c.ownWrite a bs
     Mem.bytes c'.mem a bs.length = bs ∧ (∀ k, k < a ∨ a + bs.length ≤ k → Mem.byte c'.mem k = Mem.byte c.mem k) ∧ c'.mem.wf = true ∧
     (∀ l ∈ linesOf a bs.length, c'.seg.lines.contains l = true ∧
       (c.seg.lines.contains l = false → ∃ u ∈ c'.seg.undo, u.what = .line l (Mem.line c.mem (64 * l)) (c.poison.contains l))) ∧
     c'.regs = c.regs ∧ c'.ctl = c.ctl ∧ c'.seg.out = c.seg.out ∧ c'.closing = c.closing ∧ c'.acc = c.acc ∧ c'.banks = c.banks)

/-- LD of own ARRAY bytes (R137, R138): d receives them, extended by the type; a misaligned address raises ALIGN, an address that names
nothing raises RANGE, a locked one RANGELOCK, all precise with the address in word 3 (R137, R140).
ST to own ARRAY bytes (R137, R140): the low bytes of b in place at e = ReadOp(a) + off, and no register but the last uses changes. A
locked range is not written; the segment then counts it as a refused entry. The traps are those of LD.
That a lock is met where it covers one of the bytes accessed, not where it covers another byte of their lines, is log 66's choice. -/
def Obligations.LoadAndStoreOwn : Prop :=
  (∀ (d : BitVec 6) (a : Src) (t : Ty) (off : BitVec 32) (s : State) (x : W64) (c1 : Core), t.isMem = true → destS d s.me = .ok () →
     readS a s.me = .ok (x, c1) →
     let e := x + off.signExtend 64
     let n := t.width / 8
     (∀ cc c', OwnAt s (freeS a c1) e n cc → writeS d (loaded t (Mem.nat cc.mem e.toNat n)) cc = .ok c' →
       exec (.ld d a t off) s = done s c') ∧
     (e.toNat % n ≠ 0 → exec (.ld d a t off) s = traps s 0x201 e (BitVec.ofNat 64 n) 0) ∧
     (e.toNat % n = 0 → s.place e = .none → exec (.ld d a t off) s = traps s 0x202 e 0 0) ∧
     (∀ l, e.toNat % n = 0 → s.place e = .own e.toNat → lockOn s.me.locks e.toNat n = some l →
       exec (.ld d a t off) s = traps s 0x205 e l.kind 0)) ∧
  (∀ (t : Ty) (a b : Src) (off : BitVec 32) (s : State) (x y : W64) (c1 c2 : Core), t.isMem = true → s.me.reads = [] →
     readS a s.me = .ok (x, c1) → readS b c1 = .ok (y, c2) →
     let e := x + off.signExtend 64
     let n := t.width / 8
     let c := freeS b (freeS a c2)
     (OwnRange s e n → needLines c (linesOf e.toNat n) = .ok () →
       exec (.st t a b off) s = done s (c.ownWrite e.toNat (bytesOf y.toNat n))) ∧
     (e.toNat % n ≠ 0 → exec (.st t a b off) s = traps s 0x201 e (BitVec.ofNat 64 n) 0) ∧
     (e.toNat % n = 0 → s.place e = .none → exec (.st t a b off) s = traps s 0x202 e 0 0) ∧
     (∀ l, e.toNat % n = 0 → s.place e = .own e.toNat → needLines c (linesOf e.toNat n) = .ok () → lockOn s.me.locks e.toNat n = some l →
       ∃ t', exec (.st t a b off) s = .next t' ∧ t'.me.mem = s.me.mem ∧ t'.me.seg.bad.isSome = true ∧ t'.me.pc = s.me.succ s.me.pc))

/-- Remote weak accesses (R64, R138): a store enters the outbox as a line with a byte mask and changes no memory; a load whose line is not
in the read cache makes d EMPTY and asks the home for the line; one that hits is served at issue, under the core's own outbox entries. Where
d is bound to a stream (R308) the head waits for the line and pushes once it has come. No stored symbol of a page table is upset here. -/
def Obligations.RemoteWeak : Prop :=
  (∀ (t : Ty) (a b : Src) (off : BitVec 32) (s : State) (x y : W64) (c1 c2 : Core) (h : Home), t.isMem = true → s.derr = [] → s.me.reads = [] →
    readS a s.me = .ok (x, c1) → readS b c1 = .ok (y, c2) →
    let e := x + off.signExtend 64
    let n := t.width / 8
    (∀ k o, s.place e ≠ .window k o) → reach s e n true 0 = .ok (.home h) →
    (freeS b (freeS a c2)).outLine? h.lineOf.1 (tagFor h.lineOf.1 e) = none → needOut (freeS b (freeS a c2)) 1 = .ok () →
    ∃ t', exec (.st t a b off) s = .next t' ∧ t'.me.mem = s.me.mem ∧ t'.me.pc = s.me.succ s.me.pc ∧
      t'.me.seg.out = s.me.seg.out ++ [⟨.store h.lineOf.1 (lineAt h.lineOf.2 n y.toNat) (byteMask h.lineOf.2 n) (tagFor h.lineOf.1 e)
        (BitVec.ofNat 64 (64 * (e.toNat / 64))), .waiting⟩]) ∧
  (∀ (d : BitVec 6) (a : Src) (t : Ty) (off : BitVec 32) (s : State) (x : W64) (c1 : Core) (h : Home), t.isMem = true → s.derr = [] →
    destS d s.me = .ok () → readS a s.me = .ok (x, c1) →
    let e := x + off.signExtend 64
    let n := t.width / 8
    (∀ k o, s.place e ≠ .window k o) → reach s e n false 0 = .ok (.home h) →
    (∀ v c', (freeS a c1).cachedLine h.lineOf.1 = some v →
      writeS d (loaded t (lineNat ((freeS a c1).overlay h.lineOf.1 v) h.lineOf.2 n)) (freeS a c1) = .ok c' →
      ∃ t', exec (.ld d a t off) s = .next t' ∧ t'.chan = s.chan ∧ t'.me = { c'.retire with tlb := t'.me.tlb }) ∧
    ((freeS a c1).cachedLine h.lineOf.1 = none → (freeS a c1).reads = [] → (freeS a c1).rcache.length < Config.readCap →
      s.permit h.lineOf.1.target = true → ∃ t' p, exec (.ld d a t off) s = .next t' ∧ t'.chan = s.chan ++ [p] ∧ p.src = s.cur ∧
        p.dst = h.lineOf.1.target ∧ p.body = .request s.me.nord 0 (.read h.lineOf.1 (tagFor h.lineOf.1 e)) ∧
        t'.me.reads.length = 1 ∧ t'.me.mem = s.me.mem ∧
        ((freeS a c1).stream? (scode d) = none → t'.me.pc = s.me.succ s.me.pc ∧ (d ≠ 0 → t'.me.regs.getS d = .empty)) ∧
        ((freeS a c1).stream? (scode d) ≠ none → t'.me.pc = s.me.pc ∧ t'.me.wait = some .reads ∧ t'.me.regs = s.me.regs)))

/-- LDV and STV of an own 64-byte line (R199, R200): LDV gives the active lanes the line's bytes and the others the old ones or zero, STV
writes the bytes of the active lanes and no others.
GATH and SCAT of own lanes (R201): lane i is the element at base plus the scaled signed index of lane i; SCAT stores its lanes in
ascending order, so that where two lanes meet the higher one stays.
That a lock is met where it covers one of the bytes accessed, of a masked store one of the bytes it writes, is log 66's choice. -/
def Obligations.VectorMemory : Prop :=
  ((∀ (d : BitVec 5) (a : Src) (t : Ty) (off : BitVec 24) (mk : VMask) (s : State) (x : W64) (act : Nat) (old : Line) (c1 c2 cc : Core),
     t.isMem = true → destV d s.me = .ok () → readS a s.me = .ok (x, c1) → activeLanes mk t.lanes c1 = .ok (act, c2) →
     oldV d s.me = .ok old → OwnAt s (freeS a c2) (x + off.signExtend 64) 64 cc →
     ∃ v, (∀ i < t.lanes, laneAt v t.width i = if act.testBit i then laneAt (Mem.line cc.mem (x + off.signExtend 64).toNat) t.width i
         else if mk.mz then 0 else laneAt old t.width i) ∧
       ∀ c', writeV d v cc = .ok c' → exec (.ldv d a t off mk) s = done s c') ∧
   (∀ (t : Ty) (a : Src) (b : VSrc) (off : BitVec 24) (mk : VMask) (s : State) (x : W64) (y : Line) (act : Nat) (c1 c2 c3 : Core),
     t.isMem = true → s.me.reads = [] → readS a s.me = .ok (x, c1) → readV b c1 = .ok (y, c2) → activeLanes mk t.lanes c2 = .ok (act, c3) →
     let e := (x + off.signExtend 64).toNat
     OwnRange s (x + off.signExtend 64) 64 → Owned s.me e 64 → s.me.mem.wf = true → needLines s.me [e / 64] = .ok () →
     ∃ t', exec (.stv t a b off mk) s = .next t' ∧ t'.me.pc = s.me.succ s.me.pc ∧
       (∀ i < t.lanes, laneAt (Mem.line t'.me.mem e) t.width i = laneAt (if act.testBit i then y else Mem.line s.me.mem e) t.width i) ∧
       (∀ k, k < e ∨ e + 64 ≤ k → Mem.byte t'.me.mem k = Mem.byte s.me.mem k))) ∧
  (let ea := fun (t : Ty) (x : W64) (idx : Line) (i : Nat) =>
     x + BitVec.ofInt 64 ((BitVec.ofNat t.width (laneAt idx t.width i)).toInt * (t.width / 8 : Nat))
   (∀ (d : BitVec 5) (a : Src) (b : VSrc) (t : Ty) (mk : VMask) (s : State) (x : W64) (idx old : Line) (act : Nat) (c1 c2 c3 : Core),
     t.isMem = true → destV d s.me = .ok () → readS a s.me = .ok (x, c1) → readV b c1 = .ok (idx, c2) →
     activeLanes mk t.lanes c2 = .ok (act, c3) → oldV d s.me = .ok old →
     let c := freeV b (freeS a c3)
     let n := t.width / 8
     (∀ i < t.lanes, act.testBit i = true → OwnRange s (ea t x idx i) n ∧ Owned s.me (ea t x idx i).toNat n ∧
       Clean s.me (ea t x idx i).toNat n) →
     (∃ v, (∀ i < t.lanes, laneAt v t.width i = if act.testBit i then Mem.nat s.me.mem (ea t x idx i).toNat (t.width / 8)
         else if mk.mz then 0 else laneAt old t.width i) ∧
       ∀ c', writeV d v c = .ok c' → exec (.gathVx d a b t mk) s = done s c') ∧
     (mk = VMask.all → exec (.gath d a b t) s = exec (.gathVx d a b t mk) s)) ∧
   (∀ (a : Src) (b v : VSrc) (t : Ty) (mk : VMask) (s : State) (x : W64) (idx y : Line) (act : Nat) (c1 c2 c3 c4 : Core),
     t.isMem = true → s.me.reads = [] → s.me.mem.wf = true → readS a s.me = .ok (x, c1) → readV b c1 = .ok (idx, c2) → readV v c2 = .ok (y, c3) →
     activeLanes mk t.lanes c3 = .ok (act, c4) →
     (∀ i < t.lanes, act.testBit i = true → OwnRange s (ea t x idx i) (t.width / 8) ∧ Owned s.me (ea t x idx i).toNat (t.width / 8)) →
     s.me.seg.lines.length + 64 ≤ Config.undoCap →
     s.me.closing = [] →
     (∃ t', exec (.scatVx a b v t mk) s = .next t' ∧ t'.me.pc = s.me.succ s.me.pc ∧
       (∀ i < t.lanes, act.testBit i = true → (∀ j, i < j → j < t.lanes → act.testBit j = true → ea t x idx j ≠ ea t x idx i) →
         Mem.nat t'.me.mem (ea t x idx i).toNat (t.width / 8) = laneAt y t.width i) ∧
       (∀ k, (∀ i < t.lanes, act.testBit i = true → k < (ea t x idx i).toNat ∨ (ea t x idx i).toNat + t.width / 8 ≤ k) →
         Mem.byte t'.me.mem k = Mem.byte s.me.mem k)) ∧
     (mk = VMask.all → exec (.scat a b v t) s = exec (.scatVx a b v t mk) s)))

/-! ### Strong accesses -/

/-- What a home does for a strong access to the n bytes m (R186 to R189): the value returned and the new contents. Integer atomics wrap;
WAITM answers only when its condition holds.
A byte barrier (R325 to R327): BARI sets count and reload, BARX counts an arrival and adds bytes, and the last one completes the phase:
the generation rises and the count is reloaded. BARW answers once the generation differs. -/
def Obligations.AtomicsAtTheHome : Prop :=
  (∀ (t : Ty) (a b c : W64) (m : Nat) (mode : W64), t.isInt = true → m < 2 ^ t.width →
     let old := loaded t m
     let p := b.toNat % 2 ^ t.width
     let le := if t.isSInt then (BitVec.ofNat t.width m).toInt ≤ (BitVec.ofNat t.width p).toInt else m ≤ p
     WordOp.run (.lds t) a m mode = .ok none old 0 ∧
     (∀ b1 odd, WordOp.run (.sts t b b1 odd) a m mode = .ok (some p) 0 0) ∧
     WordOp.run (.aadd t b) a m mode = .ok (some ((m + p) % 2 ^ t.width)) old 0 ∧
     WordOp.run (.aswp t b) a m mode = .ok (some p) old 0 ∧
     WordOp.run (.acas t b c) a m mode = .ok (some (if m = p then c.toNat % 2 ^ t.width else m)) old 0 ∧
     WordOp.run (.alog .and t b) a m mode = .ok (some (m &&& p)) old 0 ∧
     WordOp.run (.alog .or t b) a m mode = .ok (some (m ||| p)) old 0 ∧
     WordOp.run (.alog .xor t b) a m mode = .ok (some (m ^^^ p)) old 0 ∧
     (le → WordOp.run (.amnx false t b) a m mode = .ok (some m) old 0 ∧ WordOp.run (.amnx true t b) a m mode = .ok (some p) old 0) ∧
     (¬le → WordOp.run (.amnx false t b) a m mode = .ok (some p) old 0 ∧ WordOp.run (.amnx true t b) a m mode = .ok (some m) old 0) ∧
     (∀ cc, (holds cc old (loaded t p) → WordOp.run (.waitm cc t b) a m mode = .ok none old 0) ∧
       (¬holds cc old (loaded t p) → WordOp.run (.waitm cc t b) a m mode = .poll))) ∧
  (let make := fun (arr : Nat) (pend : Int) (rld gen : Nat) => (pend % 2 ^ 48).toNat + arr * 2 ^ 48 + gen * 2 ^ 64 + rld * 2 ^ 96
   ∀ (arr rld gen : Nat) (pend : Int) (a b : W64) (mode : W64), arr < 2 ^ 16 → rld < 2 ^ 16 → gen < 2 ^ 32 →
     -2 ^ 47 ≤ pend → pend < 2 ^ 47 →
     (1 ≤ b.toNat → b.toNat < 65536 → WordOp.run (.bari b) a (make arr pend rld gen) mode =
       .ok (some (make b.toNat 0 b.toNat gen)) (BitVec.ofNat 64 gen) 0) ∧
     (0 < arr → b.toNat < 2 ^ 47 → pend + b.toNat < 2 ^ 47 → WordOp.run (.barx b) a (make arr pend rld gen) mode =
       .ok (some (if arr = 1 ∧ pend + b.toNat = 0 then make rld 0 rld ((gen + 1) % 2 ^ 32) else make (arr - 1) (pend + b.toNat) rld gen))
         (BitVec.ofNat 64 gen) 0) ∧
     (arr = 0 ∨ 2 ^ 47 ≤ b.toNat → WordOp.run (.barx b) a (make arr pend rld gen) mode = .trap 0x403 a b 0) ∧
     (b.toNat % 2 ^ 32 ≠ gen → WordOp.run (.barw b) a (make arr pend rld gen) mode = .ok none (BitVec.ofNat 64 gen) 0) ∧
     (b.toNat % 2 ^ 32 = gen → WordOp.run (.barw b) a (make arr pend rld gen) mode = .poll))

/-- A strong access to an own ARRAY word, by its private address or through the own window (R160), is served at issue (R75): d receives the
value, the new bytes are in place, and the line is logged and held until the segment commits; a condition that does not hold waits.
A strong access outside own memory is irrevocable (R76): LDS, STS, the atomics, ACAS, WAITM, the byte barriers at another core's memory and XCH
at another core's window each first close the open segment and wait; once every segment has committed, the request leaves for its home, d is
EMPTY until the reply (a bound d is pushed by it), and the core waits; a home outside the scope raises RANGE. LOOPF waits for the core's own
loop-back traffic (R190).
The model's own readings or choices in this are those of log 35, 39 and 66: a lock is met by the bytes of the access, where R140 and R185 speak
of a locked line (log 66), and every strong access needs a writable page (log 39). -/
def Obligations.StrongAccesses : Prop :=
  (let served := fun (s : State) (e : W64) (k n : Nat) (op : WordOp) (d : BitVec 6) (cc : Core) (o : Out) =>
     (∀ v f c', op.run e (Mem.nat cc.mem k n) s.me.ctl.mode = .ok none v f → needLines cc (linesOf k n) = .ok () →
       writeS d v (((linesOf k n).foldl Core.logLine (flagged cc f)).hold (linesOf k n)) = .ok c' → o = doneStrong s c') ∧
     (∀ new v f c', op.run e (Mem.nat cc.mem k n) s.me.ctl.mode = .ok (some new) v f → needLines cc (linesOf k n) = .ok () →
       writeS d v (((flagged cc f).ownWrite k (bytesOf new n)).hold (linesOf k n)) = .ok c' → o = doneStrong s c') ∧
     (op.run e (Mem.nat cc.mem k n) s.me.ctl.mode = .poll → o = .next (s.waiting .poll))
   let ready := fun (s : State) (d : BitVec 6) => s.me.irrev = none ∧ s.me.reads = [] ∧ destS d s.me = .ok ()
   (∀ (d : BitVec 6) (a : Src) (sc : Scope) (t : Ty) (s : State) (e : W64) (k : Nat) (c1 cc : Core), t.isMem = true → ready s d → readS a s.me = .ok (e, c1) →
     StrongAt s (freeS a c1) e k (t.width / 8) cc → served s e k (t.width / 8) (.lds t) d cc (exec (.lds d a sc t) s)) ∧
   (∀ (a b : Src) (sc : Scope) (t : Ty) (s : State) (e y : W64) (k : Nat) (c1 c2 cc : Core), t.isMem = true → ready s 0 → readS a s.me = .ok (e, c1) →
     readS b c1 = .ok (y, c2) → StrongAt s (freeS b (freeS a c2)) e k (t.width / 8) cc →
     served s e k (t.width / 8) (.sts t y 0 (b.reg.getLsbD 0)) 0 cc (exec (.sts a b sc t) s)) ∧
   (∀ row ∈ strongRows, ∀ (d : BitVec 6) (a b : Src) (sc : Scope) (t : Ty) (s : State) (e y : W64) (k : Nat) (c1 c2 cc : Core), t.isAmo = true → ready s d →
     readS a s.me = .ok (e, c1) → readS b c1 = .ok (y, c2) → StrongAt s (freeS b (freeS a c2)) e k (t.width / 8) cc →
     served s e k (t.width / 8) (row.at_ t y) d cc (exec (row.op d a b sc t) s)) ∧
   (∀ (d : BitVec 6) (a b e2 : Src) (sc : Scope) (t : Ty) (s : State) (e y z : W64) (k : Nat) (c1 c2 c3 cc : Core), t.isAmo = true → ready s d →
     readS a s.me = .ok (e, c1) → readS b c1 = .ok (y, c2) → readS e2 c2 = .ok (z, c3) →
     StrongAt s (freeS e2 (freeS b (freeS a c3))) e k (t.width / 8) cc →
     served s e k (t.width / 8) (.acas t y z) d cc (exec (.acas d a b e2 sc t) s)) ∧
   (∀ row ∈ barrierRows, ∀ (d : BitVec 6) (a b : Src) (sc : Scope) (s : State) (e y : W64) (k : Nat) (c1 c2 cc : Core), ready s d →
     readS a s.me = .ok (e, c1) → readS b c1 = .ok (y, c2) → (row.2 y = .bari y → 1 ≤ y.toNat ∧ y.toNat < 65536) → StrongAt s (freeS b (freeS a c2)) e k 16 cc →
     served s e k 16 (row.2 y) d cc (exec (row.1 d a b sc) s))) ∧
  (let target := fun (s : State) (e : W64) => (∃ k off, s.place e = .core k off ∧ k ≠ s.cur) ∨ ∃ p k off, s.place e = .far p k off
   let outside := fun (s : State) (e : W64) => target s e ∨ s.place e = .virt
   let asks := fun (s : State) (d : BitVec 6) (e : W64) (sc : Scope) (op : WordOp) (c : Core) (o : Out) =>
     (∀ id, s.me.irrev = some (.sent id) → o = .next (s.waiting .reply)) ∧
     (s.me.irrev = none → atBoundary s.me → ∃ t, o = .next t ∧ t.me.closing.map (·.d) = s.me.closing.map (·.d) ++ [s.me.seg] ∧
       t.me.irrev = some .bounded ∧ t.me.wait = some .commit ∧ t.me.pc = s.me.pc ∧ t.me.regs = s.me.regs ∧ t.me.mem = s.me.mem) ∧
     (s.me.irrev = some .bounded → s.me.closing = [] → s.me.pubs = [] → ∀ h, s.homeOf e true = .ok h →
       (s.inScope sc h = true → pushOk d c = .ok () → s.permit h.target = true → (s.place e = .virt → s.derr = []) →
         ∃ t p, o = .next t ∧ t.chan = s.chan ++ [p] ∧ p.src = s.cur ∧ p.dst = h.target ∧
           p.body = .request s.me.nord d.toNat (.word h e op (e.extractLsb' 56 4) s.me.ctl.mode) ∧
           t.me.irrev = some (.sent s.me.nord) ∧ t.me.wait = some .reply ∧ t.me.pc = s.me.pc ∧ t.me.mem = s.me.mem ∧
           ∀ r, t.me.regs.getS r = if r = d ∧ d ≠ 0 ∧ c.stream? (scode d) = none then .empty else c.regs.getS r) ∧
       (s.inScope sc h = false → o = traps s 0x202 e 0 0))
   let starts := fun (s : State) (d : BitVec 6) => s.me.reads = [] ∧ destS d s.me = .ok ()
   -- the second word of a pair goes along where the register after an even b can be read (R167)
   let paired := fun (s : State) (e : W64) (b : Src) (c1 : Core) => target s e ∧ b.reg.getLsbD 0 = false ∧ (c1.regs.getS (b.reg + 1)).live = true
   (∀ (d : BitVec 6) (a : Src) (sc : Scope) (t : Ty) (s : State) (e : W64) (c1 : Core), t.isMem = true → starts s d → readS a s.me = .ok (e, c1) →
     e.toNat % (t.width / 8) = 0 → outside s e → asks s d e sc (.lds t) (freeS a c1) (exec (.lds d a sc t) s)) ∧
   (∀ (a b : Src) (sc : Scope) (t : Ty) (s : State) (e y : W64) (c1 c2 : Core), t.isMem = true → starts s 0 → readS a s.me = .ok (e, c1) →
     readS b c1 = .ok (y, c2) → e.toNat % (t.width / 8) = 0 → outside s e →
     (¬paired s e b c1 → asks s 0 e sc (.sts t y 0 (b.reg.getLsbD 0)) (freeS b (freeS a c2)) (exec (.sts a b sc t) s)) ∧
     (∀ z c3, paired s e b c1 → readS (pairSrc b) c2 = .ok (z, c3) →
       asks s 0 e sc (.sts t y z false) (freeS (pairSrc b) (freeS b (freeS a c3))) (exec (.sts a b sc t) s))) ∧
   (∀ row ∈ strongRows, ∀ (d : BitVec 6) (a b : Src) (sc : Scope) (t : Ty) (s : State) (e y : W64) (c1 c2 : Core), t.isAmo = true → starts s d →
     readS a s.me = .ok (e, c1) → readS b c1 = .ok (y, c2) → e.toNat % (t.width / 8) = 0 → outside s e →
     asks s d e sc (row.at_ t y) (freeS b (freeS a c2)) (exec (row.op d a b sc t) s)) ∧
   (∀ (d : BitVec 6) (a b e2 : Src) (sc : Scope) (t : Ty) (s : State) (e y z : W64) (c1 c2 c3 : Core), t.isAmo = true → starts s d →
     readS a s.me = .ok (e, c1) → readS b c1 = .ok (y, c2) → readS e2 c2 = .ok (z, c3) → e.toNat % (t.width / 8) = 0 → outside s e →
     asks s d e sc (.acas t y z) (freeS e2 (freeS b (freeS a c3))) (exec (.acas d a b e2 sc t) s)) ∧
   (∀ row ∈ barrierRows, ∀ (d : BitVec 6) (a b : Src) (sc : Scope) (s : State) (e y : W64) (c1 c2 : Core), starts s d →
     readS a s.me = .ok (e, c1) → readS b c1 = .ok (y, c2) → (row.2 y = .bari y → 1 ≤ y.toNat ∧ y.toNat < 65536) → e.toNat % 16 = 0 →
     target s e → asks s d e sc (row.2 y) (freeS b (freeS a c2)) (exec (row.1 d a b sc) s)) ∧
   (∀ (d : BitVec 6) (a b : Src) (op : XchOp) (s : State) (e y : W64) (c1 c2 : Core), starts s d → readS a s.me = .ok (e, c1) →
     readS b c1 = .ok (y, c2) → target s e → bits e 15 0 = 0x20 →
     (¬paired s e b c1 → asks s d e .cluster (.xch op y 0 (b.reg.getLsbD 0)) (freeS b (freeS a c2)) (exec (.xch d a b op) s)) ∧
     (∀ z c3, paired s e b c1 → readS (pairSrc b) c2 = .ok (z, c3) →
       asks s d e .cluster (.xch op y z false) (freeS (pairSrc b) (freeS b (freeS a c3))) (exec (.xch d a b op) s))) ∧
   (∀ s : State, s.loopDone = true → exec .loopf s = done s s.me) ∧
   (∀ s : State, s.loopDone = false → exec .loopf s = .next (s.waiting .commit)))

/-! ### Banks -/

/-- A MAP (R171): the probe window of a key is eight slots from its home on, with the spec's values for the keys 1, 2 and 3. An insert replaces the
value of a key that the window holds, with PRESENT; else the first free slot takes the pair, with OK; with no free slot it changes nothing, with
FULL. A lookup finds a key exactly where its window holds it. A delete frees the slot of its key, and no entry moves.
A HEAP (R172) of up to 57,344 entries: an insert adds exactly the new pair, with the next rank, and an extraction takes exactly the root, both
keep the order, and the root is an entry that no other is less than, so that the least key leaves first and equal keys leave in insertion order.
A deckey (R176) looks for the first payload in level order: a smaller key replaces the old one in that entry alone, which keeps its rank and
rises; another key leaves the heap as it is. -/
def Obligations.MapsAndHeaps : Prop :=
  ((∀ k : W64, mapWindow k 1 = (List.range 8).map fun i => ((k * 0x9E3779B97F4A7C15).toNat / 2 ^ 52 + i) % 4096) ∧
   ((mapWindow 1 1).head? = some 0x9E3 ∧ (mapWindow 2 1).head? = some 0x3C6 ∧ (mapWindow 3 1).head? = some 0xDAA) ∧
   (∀ (slots : List (Nat × W64 × W64)) (k v : W64) (span : Nat),
     let r := mapInsert slots k v span
     let w := mapWindow k span
     (∀ n x, mapFind slots k span = some (n, x) → r.2 = .present ∧ mapFind r.1 k span = some (n, v)) ∧
     (mapFind slots k span = none → (∀ n, w.find? (fun n => (aget slots n).isNone) = some n → r.2 = .ok ∧ aget r.1 n = some (k, v) ∧ (mapFind r.1 k span).map (·.2) = some v) ∧
       ((∀ n ∈ w, (aget slots n).isSome = true) → r.2 = .full ∧ r.1 = slots)) ∧
     (∀ k', k' ≠ k → mapFind r.1 k' span = mapFind slots k' span) ∧
     (∀ n x, mapFind slots k span = some (n, x) → n ∈ w ∧ aget slots n = some (k, x)) ∧
     (mapFind slots k span = none → ∀ n ∈ w, ∀ x, aget slots n ≠ some (k, x)) ∧
     (∀ n x, mapFind slots k span = some (n, x) → ∀ (c : Core) (b : Nat) (y : W64), (c.bank b).data = .map slots → (c.bank b).span = span →
       winXch c b .lookup k y = .ok c x none .ok ∧
       ∃ l, winXch c b .delete k y = .ok (c.setBank b { c.bank b with data := .map l }) x none .ok ∧ ∀ m, aget l m = if m = n then none else aget slots m) ∧
     (mapFind slots k span = none → ∀ (c : Core) (b : Nat) (y : W64), (c.bank b).data = .map slots → (c.bank b).span = span →
       winXch c b .lookup k y = .ok c 0 none .absent ∧ winXch c b .delete k y = .ok c 0 none .absent))) ∧
  (∀ (f : BitVec 2) (l : List HEntry) (next : Nat) (k p : W64), l.length < 57344 → HeapOrdered f l → next + 1 < 2 ^ 32 →
     HeapOrdered f (hInsert f l next k p).1 ∧ (hInsert f l next k p).1.Perm (l ++ [(k, p, next)]) ∧ (hInsert f l next k p).2 = next + 1 ∧
     (hInsert f l next k p).1.length = l.length + 1 ∧
     HeapOrdered f (hExtract f l next).1 ∧ (hExtract f l next).1.Perm l.tail ∧ (hExtract f l next).1.length = l.length - 1 ∧
     (1 < l.length → (hExtract f l next).2 = next) ∧ (l.length = 1 → (hExtract f l next).2 = 0) ∧
     (∀ e ∈ l, ∀ r, l.head? = some r → hLess f e r = false)) ∧
  (∀ (c : Core) (b : Nat) (es : List HEntry) (next : Nat) (x x1 : W64), (c.bank b).data = .heap es next → es.length ≤ 57344 →
     let f := (c.bank b).kfmt
     HeapOrdered f es →
     ((∀ e ∈ es, e.2.1 ≠ x) → winXch c b .deckey x x1 = .ok c 0 none .absent) ∧
     (∀ i e, es[i]? = some e → e.2.1 = x → (∀ j g, j < i → es[j]? = some g → g.2.1 ≠ x) →
       (orderKey x1 f < orderKey e.1 f → ∃ l, winXch c b .deckey x x1 = .ok (c.setBank b { c.bank b with data := .heap l next }) e.1 none .ok ∧
         HeapOrdered f l ∧ l.Perm (es.set i (x1, e.2))) ∧
       (orderKey e.1 f ≤ orderKey x1 f → winXch c b .deckey x x1 = .ok c e.1 none .present)))

/-- The structure window (R166 to R176). What each structure does at each offset: a QUEUE takes at its back, gives its front, and shows it, an empty one
gives 0 and EMPTY, a full ring borrows a chunk of its pool and answers FULL with no pool or no free chunk, and a dequeue moves the oldest lent
word up; a STACK pushes, pops and shows its top; a MAP inserts; a HEAP inserts, extracts and shows its root as a pair; a HIST adds to a bin up to
its cap; +0x10 gives the count and +0x18 the capacity; XCH finds and deletes in a HIST as in a MAP. Every other operation is BADWIN.
LD, ST, LDS, STS and XCH at an own window make that operation at issue: it is logged and held (R75), d, and d+1 of a pair, receive what it gives, and
STS its code; BADWIN is precise. At another core's window the home does it (R167, R176) and the reply carries both words and the status.
The model's own readings or choices in this are those of log 10 and 66: the lines that a bank's metadata takes (log 10); a chunk is full once its
eight positions have been filled, and a delete of a bin out of range gives 0 (log 66). -/
def Obligations.OwnWindows : Prop :=
  (∀ (c : Core) (b : Nat),
    let k := c.bank b
    let put := fun (d : Struct) => c.setBank b { k with data := d }
    -- QUEUE
    (∀ h x ring, k.data = .queue h (x :: ring) [] → winLoad c b 0 = .ok (put (.queue ((h + 1) % (8192 * k.span)) ring [])) x none .ok) ∧
    (∀ h x ring n m w w' ws l, k.data = .queue h (x :: ring) ((n, m, w :: w' :: ws) :: l) →
      winLoad c b 0 = .ok (put (.queue ((h + 1) % (8192 * k.span)) (ring ++ [w]) ((n, m + 1, w' :: ws) :: l))) x none .ok) ∧
    (∀ h x ring n m w l used, b < 16 → k.data = .queue h (x :: ring) ((n, m, [w]) :: l) → (c.bank k.poolb.toNat).data = .pool used →
      ∃ q, winLoad c b 0 = .ok q x none .ok ∧ (q.bank b).data = .queue ((h + 1) % (8192 * k.span)) (ring ++ [w]) l ∧
        (q.bank k.poolb.toNat).data = .pool (used.filter (· != n))) ∧
    (∀ h x ring lent, k.data = .queue h (x :: ring) lent → winLoad c b 8 = .ok c x none .ok) ∧
    (∀ h lent, k.data = .queue h [] lent → winLoad c b 0 = .ok c 0 none .empty ∧ winLoad c b 8 = .ok c 0 none .empty) ∧
    (∀ h ring x x1, k.data = .queue h ring [] → ring.length < 8192 * k.span → winStore c b 0 x x1 = .ok (put (.queue h (ring ++ [x]) [])) 0 none .ok) ∧
    (∀ h ring x x1, k.data = .queue h ring [] → 8192 * k.span ≤ ring.length →
      ((∀ used, (c.bank k.poolb.toNat).data ≠ .pool used) → winStore c b 0 x x1 = .ok c 0 none .full) ∧
      (∀ used, (c.bank k.poolb.toNat).data = .pool used → (∀ n < 1024, n ∈ used) → winStore c b 0 x x1 = .ok c 0 none .full) ∧
      (∀ used n, b < 16 → (c.bank k.poolb.toNat).data = .pool used → n < 1024 → n ∉ used → (∀ m < n, m ∈ used) → ∃ q, winStore c b 0 x x1 = .ok q 0 none .ok ∧
        (q.bank b).data = .queue h ring [(n, 0, [x])] ∧ ∃ l, (q.bank k.poolb.toNat).data = .pool l ∧ ∀ m, m ∈ l ↔ m = n ∨ m ∈ used)) ∧
    (∀ h ring n m ws x x1, k.data = .queue h ring [(n, m, ws)] → m + ws.length < 8 → winStore c b 0 x x1 = .ok (put (.queue h ring [(n, m, ws ++ [x])])) 0 none .ok) ∧
    -- STACK
    (∀ ws x x1, k.data = .stack ws → (ws.length < 8192 * k.span → winStore c b 0 x x1 = .ok (put (.stack (ws ++ [x]))) 0 none .ok) ∧
      (8192 * k.span ≤ ws.length → winStore c b 0 x x1 = .ok c 0 none .full)) ∧
    (∀ ws x, k.data = .stack (ws ++ [x]) → winLoad c b 0 = .ok (put (.stack ws)) x none .ok ∧ winLoad c b 8 = .ok c x none .ok) ∧
    (k.data = .stack [] → winLoad c b 0 = .ok c 0 none .empty ∧ winLoad c b 8 = .ok c 0 none .empty) ∧
    -- MAP, HEAP
    (∀ slots x x1, k.data = .map slots → winStore c b 0 x x1 = .ok (put (.map (mapInsert slots x x1 k.span).1)) 0 none (mapInsert slots x x1 k.span).2) ∧
    (∀ es next x x1, k.data = .heap es next →
      (es.length < 4096 * k.span → winStore c b 0 x x1 = .ok (put (.heap (hInsert k.kfmt es next x x1).1 (hInsert k.kfmt es next x x1).2)) 0 none .ok) ∧
      (4096 * k.span ≤ es.length → winStore c b 0 x x1 = .ok c 0 none .full)) ∧
    (∀ e es next, k.data = .heap (e :: es) next → winLoad c b 8 = .ok c e.1 (some e.2.1) .ok ∧
      winLoad c b 0 = .ok (put (.heap (hExtract k.kfmt (e :: es) next).1 (hExtract k.kfmt (e :: es) next).2)) e.1 (some e.2.1) .ok) ∧
    (∀ next, k.data = .heap [] next → winLoad c b 0 = .ok c 0 (some 0) .empty ∧ winLoad c b 8 = .ok c 0 (some 0) .empty) ∧
    -- HIST
    (∀ bins x x1, k.data = .hist bins →
      let i := bits x 63 46
      let cap := if k.hw32 then 2 ^ 32 - 1 else 2 ^ 64 - 1
      let n := (if k.hw32 then 16384 else 8192) * k.span
      let v := min (anat bins i + bits x 45 0) cap
      (n ≤ i → ∃ q, winStore c b 0 x x1 = .ok q 0 none .absent ∧ (q.bank b).data = k.data) ∧
      (i < n → b < 16 → ∃ q l, winStore c b 0 x x1 = .ok q 0 none (if v = cap then .full else .ok) ∧ (q.bank b).data = .hist l ∧
        ∀ j, anat l j = if j = i then v else anat bins j) ∧
      (x.toNat < n → winXch c b .lookup x x1 = .ok c (BitVec.ofNat 64 (anat bins x.toNat)) none .ok ∧
        ∃ l, winXch c b .delete x x1 = .ok (put (.hist l)) (BitVec.ofNat 64 (anat bins x.toNat)) none .ok ∧
          ∀ j, anat l j = if j = x.toNat then 0 else anat bins j) ∧
      (n ≤ x.toNat → winXch c b .lookup x x1 = .ok c 0 none .absent ∧ winXch c b .delete x x1 = .ok c 0 none .absent)) ∧
    -- count and capacity
    (k.data ≠ .array → (∀ l, k.data ≠ .member l) → winLoad c b 0x10 = .ok c (BitVec.ofNat 64 (Bank.count c b)) none .ok ∧
      winLoad c b 0x18 = .ok c (c.bankWord b k.capacity) none .ok) ∧
    (∀ h ring lent, k.data = .queue h ring lent → Bank.count c b = ring.length + (lent.map (·.2.2.length)).sum ∧ k.capacity = 8192 * k.span + 8 * lent.length) ∧
    (∀ ws, k.data = .stack ws → Bank.count c b = ws.length ∧ k.capacity = 8192 * k.span) ∧
    (∀ slots, k.data = .map slots → Bank.count c b = slots.length ∧ k.capacity = 4096 * k.span) ∧
    (∀ es next, k.data = .heap es next → Bank.count c b = es.length ∧ k.capacity = 4096 * k.span) ∧
    (∀ bins, k.data = .hist bins → Bank.count c b = bins.length ∧ k.capacity = (if k.hw32 then 16384 else 8192) * k.span) ∧
    (∀ used, k.data = .pool used → Bank.count c b = 1024 - used.length ∧ k.capacity = 1024) ∧
    (k.data = .deque → Bank.count c b = c.deque.length ∧ k.capacity = 1024) ∧
    (k.data = .mailbox → Bank.count c b = c.mailbox.length ∧ k.capacity = 1024) ∧
    -- BADWIN
    (∀ off, off ≠ 0 → off ≠ 8 → off ≠ 0x10 → off ≠ 0x18 → winLoad c b off = .bad) ∧ (∀ off x x1, off ≠ 0 → winStore c b off x x1 = .bad) ∧
    (k.data.code ∈ [0, 3, 5, 6, 7] ∨ k.data = .mailbox → winLoad c b 0 = .bad ∧ winLoad c b 8 = .bad) ∧
    (k.data.code ∈ [0, 6, 7] ∨ k.data = .mailbox → ∀ x x1, winStore c b 0 x x1 = .bad) ∧
    (k.data.code ∈ [0, 1, 2, 6, 7] → ∀ op x x1, winXch c b op x x1 = .bad) ∧ (k.data.code ∈ [3, 5] → ∀ x x1, winXch c b .deckey x x1 = .bad) ∧
    (k.data.code = 4 → ∀ op x x1, op ≠ .deckey → winXch c b op x x1 = .bad) ∧
    (∀ off t odd, t ∉ [Ty.i64, .n64, .f64] → winOp c b off (.lds t) odd = .bad ∧ ∀ x x1 o, winOp c b off (.sts t x x1 o) odd = .bad) ∧
    (∀ off t odd, t ∈ [Ty.i64, .n64, .f64] → winOp c b off (.lds t) odd = (if k.data.code = 4 ∧ (off = 0 ∨ off = 8) ∧ odd = true then .bad else winLoad c b off) ∧
      ∀ x x1 o, winOp c b off (.sts t x x1 o) odd = if k.data.code ∈ [3, 4] ∧ off = 0 ∧ o = true then .bad else winStore c b off x x1) ∧
    (∀ off odd op x x1 o, winOp c b off (.xch op x x1 o) odd = if off ≠ 0x20 ∨ op = .deckey ∧ o = true then .bad else winXch c b op x x1)) ∧
  -- at the own window
  (∀ (d : BitVec 6) (a : Src) (t : Ty) (off : BitVec 32) (s : State) (x : W64) (c1 : Core) (b o : Nat), t.isMem = true → s.me.reads = [] →
    destS d s.me = .ok () → readS a s.me = .ok (x, c1) →
    let e := x + off.signExtend 64
    e.toNat % (t.width / 8) = 0 → s.place e = .window b o → ((s.me.bank b).pairs? false o = true → destS (d + 1) s.me = .ok ()) →
    WindowEnd s d e b o (.lds t) (freeS a c1) (exec (.ld d a t off) s)) ∧
  (∀ (d : BitVec 6) (a : Src) (sc : Scope) (t : Ty) (s : State) (e : W64) (c1 : Core) (b o : Nat), t.isMem = true → s.me.irrev = none → s.me.reads = [] →
    destS d s.me = .ok () → readS a s.me = .ok (e, c1) → e.toNat % (t.width / 8) = 0 → s.strongPlace e = .window b o →
    ((s.me.bank b).pairs? false o = true → destS (d + 1) s.me = .ok ()) → WindowEnd s d e b o (.lds t) (freeS a c1) (exec (.lds d a sc t) s)) ∧
  (∀ (a y : Src) (t : Ty) (off : BitVec 32) (sc : Scope) (s : State) (x v : W64) (c1 c2 : Core) (b o : Nat), t.isMem = true → s.me.reads = [] →
    readS a s.me = .ok (x, c1) → readS y c1 = .ok (v, c2) →
    let pair := (c1.bank b).pairs? true o = true ∧ y.reg.getLsbD 0 = false
    let made := fun (e : W64) (out : Out) =>
      (¬pair → WindowEnd s 0 e b o (.sts t v 0 (y.reg.getLsbD 0)) (freeS y (freeS a c2)) out) ∧
      (∀ z c3, pair → readS (pairSrc y) c2 = .ok (z, c3) → WindowEnd s 0 e b o (.sts t v z false) (freeS (pairSrc y) (freeS y (freeS a c3))) out)
    (let e := x + off.signExtend 64; e.toNat % (t.width / 8) = 0 → s.place e = .window b o → made e (exec (.st t a y off) s)) ∧
    (s.me.irrev = none → x.toNat % (t.width / 8) = 0 → s.strongPlace x = .window b o → made x (exec (.sts a y sc t) s))) ∧
  (∀ (d : BitVec 6) (a y : Src) (op : XchOp) (s : State) (e v : W64) (c1 c2 : Core) (b o : Nat), s.me.irrev = none → s.me.reads = [] →
    destS d s.me = .ok () → readS a s.me = .ok (e, c1) → readS y c1 = .ok (v, c2) → s.strongPlace e = .window b o →
    let pair := op = .deckey ∧ (c1.bank b).data.code = 4 ∧ y.reg.getLsbD 0 = false
    (¬pair → WindowEnd s d e b o (.xch op v 0 (y.reg.getLsbD 0)) (freeS y (freeS a c2)) (exec (.xch d a y op) s)) ∧
    (∀ z c3, pair → readS (pairSrc y) c2 = .ok (z, c3) →
      WindowEnd s d e b o (.xch op v z false) (freeS (pairSrc y) (freeS y (freeS a c3))) (exec (.xch d a y op) s))) ∧
  (∀ row ∈ strongRows, ∀ (d : BitVec 6) (a y : Src) (sc : Scope) (t : Ty) (s : State) (e v : W64) (c1 c2 : Core) (b o : Nat), s.me.irrev = none → s.me.reads = [] →
    destS d s.me = .ok () → readS a s.me = .ok (e, c1) → readS y c1 = .ok (v, c2) → e.toNat % (t.width / 8) = 0 → s.strongPlace e = .window b o →
    exec (row.op d a y sc t) s = traps s 0x206 e 0 0) ∧
  -- at another core's window
  (∀ (k : Nat) (s : State) (p : Packet) (id d n off : Nat) (a : W64) (op : WordOp) (tag : BitVec 4) (mode : W64), s.chan[k]? = some p →
    p.body = .request id d (.word (.local n off) a op tag mode) → p.leaves = none → s.arrival p = .fresh →
    let b := off / 65536
    (s.core n).isArrayFor p.ctx b = false → (s.core n).bankBlocked b = false →
    let c := ((s.core n).claimBank p.ctx b).claimPool p.ctx b
    let replies := fun (r : Rep) => ∃ t q, exec (.requestServe k) s = .next t ∧ t.chan[k]? = some q ∧ q.src = p.src ∧ q.body = .reply id d r
    (winOp c b (off % 65536) op (d % 2 == 1) = .bad → replies (.trap (.local n off) ⟨0x206, 0, 0, a, 0, 0, 0, 0⟩)) ∧
    (∀ c' v v1 sts, winOp c b (off % 65536) op (d % 2 == 1) = .ok c' v v1 sts → (∀ l ∈ op.winReads (c.bank b) b (off % 65536), c.poison.contains l = false) →
      (∀ j ∈ touched c c' (c.leader b), c.bankBlocked j = false) →
      replies (.val v v1 (some (BitVec.ofNat 3 sts.code)) 0) ∧ ∀ t, exec (.requestServe k) s = .next t → ∀ j, (t.core n).bank j = c'.bank j)) ∧
  (∀ (k : Nat) (s : State) (p : Packet) (id d : Nat) (v v1 : W64) (sts : BitVec 3), s.chan[k]? = some p → p.body = .reply id d (.val v (some v1) (some sts) 0) →
    p.leaves = none → 0 < d → d + 1 < 64 → (s.core p.src).reads = [] → (s.core p.src).irrev = some (.sent id) → (s.core p.src).streams = [] →
    ∃ t, exec (.replyArrival k) s = .next t ∧ (t.core p.src).regs.getS (BitVec.ofNat 6 d) = .full v ∧ (t.core p.src).regs.getS (BitVec.ofNat 6 (d + 1)) = .full v1 ∧
      (t.core p.src).ctl.sts = sts.setWidth 64 ∧ (t.core p.src).irrev = none ∧ (t.core p.src).pc = (s.core p.src).succ (s.core p.src).pc) ∧
  (∀ (d : BitVec 6) (a : Src) (off : BitVec 32) (s : State) (e : W64) (c1 c' : Core) (b h : Nat) (x : W64) (ring : List W64),
    s.me.reads = [] → destS d s.me = .ok () → readS a s.me = .ok (e, c1) → e + off.signExtend 64 = BitVec.ofNat 64 (65536 * b) → b < 14 →
    (s.me.bank b).owner = s.me.act.ctx → (s.me.bank b).data = .queue h (x :: ring) [] → s.me.poison = [] →
    let c := (freeS a c1).claimPool s.me.act.ctx b
    let q := c.setBank b { c.bank b with data := .queue ((h + 1) % (c.bank b).words) ring [] }
    ∀ r, revocable c q (touched c q b) (nunion (loadReads (c.bank b) b 0) (changedLines c q (touched c q b))) = .ok r → writeS d x (r.setSts .ok) = .ok c' → exec (.ld d a .i64 off) s = doneStrong s c') ∧
  (∀ (a y : Src) (off : BitVec 32) (s : State) (e x : W64) (c1 c2 : Core) (b h : Nat) (ring : List W64),
    s.me.reads = [] → s.me.streams = [] → readS a s.me = .ok (e, c1) → readS y c1 = .ok (x, c2) →
    e + off.signExtend 64 = BitVec.ofNat 64 (65536 * b) → b < 14 → (s.me.bank b).owner = s.me.act.ctx →
    (s.me.bank b).data = .queue h ring [] → ring.length < (s.me.bank b).words → s.me.poison = [] →
    let c := freeS y (freeS a c2)
    let q := c.setBank b { c.bank b with data := .queue h (ring ++ [x]) [] }
    ∀ r, revocable c q (touched c q b) (changedLines c q (touched c q b)) = .ok r → exec (.st .i64 a y off) s = doneStrong s (r.setSts .ok)) ∧
  (∀ (d : BitVec 6) (a y : Src) (s : State) (e x : W64) (c1 c2 c' : Core) (b : Nat) (slots : List (Nat × W64 × W64)),
    s.me.irrev = none → s.me.reads = [] → destS d s.me = .ok () → readS a s.me = .ok (e, c1) → readS y c1 = .ok (x, c2) →
    e = BitVec.ofNat 64 (65536 * b + 0x20) → b < 14 → (s.me.bank b).owner = s.me.act.ctx → (s.me.bank b).data = .map slots →
    s.me.poison = [] →
    let c := freeS y (freeS a c2)
    let after := fun (q : Core) => revocable c q (touched c q b) (nunion (xchReads (c.bank b) b x) (changedLines c q (touched c q b)))
    (∀ n v r, mapFind slots x (s.me.bank b).span = some (n, v) → after c = .ok r →
      writeS d v (r.setSts .ok) = .ok c' → exec (.xch d a y .lookup) s = doneStrong s c') ∧
    (∀ n v r, mapFind slots x (s.me.bank b).span = some (n, v) →
      after (c.setBank b { c.bank b with data := .map (adel slots n) }) = .ok r →
      writeS d v (r.setSts .ok) = .ok c' → exec (.xch d a y .delete) s = doneStrong s c') ∧
    (∀ r, mapFind slots x (s.me.bank b).span = none → after c = .ok r →
      writeS d 0 (r.setSts .absent) = .ok c' → exec (.xch d a y .lookup) s = doneStrong s c' ∧ exec (.xch d a y .delete) s = doneStrong s c') ∧
    exec (.xch d a y .deckey) s = traps s 0x206 e 0 0)

/-- BCFG, BQRY, BHEAP, BSPAN and BCLR (R178 to R180). Each returns the word its entry names and sets STS; BCFG exchanges the bank with its
new image, which fills the bank-image slot until the segment commits (R177).
The model's own readings or choices in this are those of log 10, 30. -/
def Obligations.BankInstructions : Prop :=
  (∀ (d : BitVec 6) (a : Src) (s : State) (x : W64) (c1 r c' : Core), s.me.reads = [] → destS d s.me = .ok () → readS a s.me = .ok (x, c1) →
    x.toNat < 16 →
    let cc := (freeS a c1).claimBank s.me.act.ctx x.toNat
    touchOnly cc [cc.leader x.toNat] = .ok r →
    writeS d (cc.bankWord x.toNat (Bank.count cc (cc.leader x.toNat))) (r.setSts .ok) = .ok c' →
    exec (.bqry d a) s = doneStrong s c') ∧
  (∀ (d : BitVec 6) (a b : Src) (s : State) (x w : W64) (c1 c2 : Core) (D : Struct), s.me.reads = [] → s.me.streams = [] → destS d s.me = .ok () →
    readS a s.me = .ok (x, c1) → readS b c1 = .ok (w, c2) → x.toNat < 14 →
    let k := x.toNat
    let cc := (freeS b (freeS a c2)).claimLines s.me.act.ctx k
    let q := bits w 3 0
    cfgMask w (cc.bank k).data = 0 → singleBank cc k = true → ImageReady cc k → poolTouched cc k = [] →
    ¬((cc.bank k).data.isArray = true ∧ q = 0) → ¬((cc.bank k).data.code = 4 ∧ q = 4) → (∀ l, (cc.bank k).data = .pool l → l = []) →
    cc.poison = [] → build q (w.getLsbD 17) (w.extractLsb' 18 2) (cc.items k q (bits w 55 32)) (cc.holdsItems k (bits w 55 32)) = .ok D →
    ∃ t, exec (.bcfg d a b) s = .next t ∧ (t.me.bank k).data = D ∧ (t.me.bank k).span = 1 ∧ t.me.imgSlot = some (k, s.me.seg.id) ∧
      t.me.ctl.sts = 0 ∧ (d ≠ 0 → t.me.regs.getS d = .full (cc.bankState k)) ∧ t.me.pc = s.me.succ s.me.pc ∧
      (∀ j, j < 16 → j ≠ k → t.me.bank j = s.me.bank j)) ∧
  (∀ (d : BitVec 6) (a b : Src) (s : State) (x w : W64) (c1 c2 : Core) (es : List HEntry) (next : Nat), s.me.reads = [] → s.me.streams = [] →
    destS d s.me = .ok () → readS a s.me = .ok (x, c1) → readS b c1 = .ok (w, c2) → x.toNat < 14 → w.toNat < 4 →
    let k := x.toNat
    let cc := (freeS b (freeS a c2)).claimLines s.me.act.ctx k
    singleBank cc k = true → ImageReady cc k → cc.poison = [] → (cc.bank k).data = .heap es next → (cc.bank k).kfmt ≠ w.setWidth 2 →
    ∃ t, exec (.bheap d a b) s = .next t ∧ (t.me.bank k).data = .heap (heapify (w.setWidth 2) es) next ∧ (t.me.bank k).kfmt = w.setWidth 2 ∧
      t.me.ctl.sts = 0 ∧ (d ≠ 0 → t.me.regs.getS d = .full (cc.bankState k)) ∧ t.me.imgSlot = some (k, s.me.seg.id)) ∧
  (∀ (d : BitVec 6) (a : Src) (s : State) (x : W64) (c1 : Core), s.me.reads = [] → s.me.streams = [] → destS d s.me = .ok () →
    readS a s.me = .ok (x, c1) → x.toNat < 14 →
    let k := x.toNat
    let cc := (freeS a c1).claimLines s.me.act.ctx k
    (cc.bank k).data = .array → ImageReady cc k → s.me.mem.wf = true →
    ∃ t, exec (.bclr d a) s = .next t ∧ (∀ i, i < 65536 → Mem.byte t.me.mem (65536 * k + i) = 0) ∧
      (∀ i, i < 65536 * k ∨ 65536 * k + 65536 ≤ i → Mem.byte t.me.mem i = Mem.byte s.me.mem i) ∧
      t.me.ctl.sts = 0 ∧ (d ≠ 0 → t.me.regs.getS d = .full 0) ∧ t.me.imgSlot = some (k, s.me.seg.id)) ∧
  (∀ (d : BitVec 6) (a : Src) (s : State) (x : W64) (c1 r c' : Core), s.me.reads = [] → destS d s.me = .ok () → readS a s.me = .ok (x, c1) →
    x.toNat < 256 →
    let k := bits x 3 0
    let n := bits x 7 4 + 1
    let cc := (freeS a c1).claimLines s.me.act.ctx k
    k < 14 → cc.leader k = k → k + n ≤ 14 → 1 ≤ (cc.bank k).data.code → (cc.bank k).data.code ≤ 5 → (cc.bank k).data.code ≠ 3 ∨ n ∈ [1, 2, 4, 8] →
    (∀ j, k < j → j < k + n → (cc.bank j).data = .member k) → (cc.bank k).span = n →
    touchOnly cc (cc.spanOf k) = .ok r →
    writeS d (cc.bankState k) (r.setSts (if Bank.count cc k = 0 ∨ n = 1 then .ok else .present)) = .ok c' →
    exec (.bspan d a) s = doneStrong s c') ∧
  (∀ (d : BitVec 6) (a : Src) (s : State) (x : W64) (c1 r : Core), s.me.reads = [] → s.me.streams = [] → destS d s.me = .ok () →
    readS a s.me = .ok (x, c1) → x.toNat < 256 → s.me.closing = [] → s.me.pubs = [] → s.me.seg.holds = [] → s.me.seg.hbanks = [] →
    s.me.locks = [] →
    let k := bits x 3 0
    let n := bits x 7 4 + 1
    let cc := (freeS a c1).claimLines s.me.act.ctx k
    1 < n → k + n ≤ 14 → cc.leader k = k → 1 ≤ (cc.bank k).data.code → (cc.bank k).data.code ≤ 5 → (cc.bank k).data.code ≠ 3 ∨ n ∈ [2, 4, 8] →
    (∀ j, k < j → j < k + n → cc.isArray j = true) → (cc.bank k).span = 1 → Bank.count cc k = 0 →
    (let all := spanBanks k n
     let c := all.foldl (fun c j => c.claimLines c.act.ctx j) cc
     revocable c (c.respan k n) all (all.map metaLine) = .ok r) →
    ∃ t, exec (.bspan d a) s = .next t ∧ (t.me.bank k).span = n ∧ (∀ j, k < j → j < k + n → (t.me.bank j).data = .member k) ∧
      t.me.ctl.sts = 0 ∧ (d ≠ 0 → t.me.regs.getS d = .full (cc.bankState k)))

/-! ### Messages, tasks, streams -/

/-- SEND and SENDM (R141, R142) put a message into the open segment's outbox; SPAWN (R370) pushes a task record onto the core's own deque,
in a gang whatever core it names, or asks another core irrevocably; LAUNCH (R371) hands a launch record to the outbox; STEALC (R372) reads a counter.
The model's own readings or choices in this are those of log 29. -/
def Obligations.MessagesAndTasks : Prop :=
  let sent := fun (s : State) (c : Core) (w : W64) (ws : List W64) (o : Out) => ∃ t m h, o = .next t ∧
    t.me.seg.out = s.me.seg.out ++ [⟨.msg m (bits w 31 24) (bits w 23 11) none, .waiting⟩] ∧ m.toList = h :: s.me.ctl.tid :: ws ∧
    h.extractLsb' 56 8 = s.me.act.ctx ∧ bits h 55 32 = bits w 55 32 ∧ h.extractLsb' 24 8 = s.pkgid ∧ bits h 23 11 = s.cur ∧
    h.setWidth 11 = s.me.mseq ∧ t.me.mseq = s.me.mseq + 1 ∧ t.me.pc = s.me.succ s.me.pc ∧ t.me.regs = c.regs ∧ t.me.mem = c.mem
  (∀ (a b : Src) (s : State) (w x : W64) (c1 c2 : Core), s.cur < 8192 → s.me.reads = [] → readS a s.me = .ok (w, c1) → readS b c1 = .ok (x, c2) →
    let c := freeS b (freeS a c2)
    let bad := w &&& 0xFF00000F000007FF
    (bad ≠ 0 → exec (.send a b) s = traps s 0x002 w bad 1 ∧ exec (.sendm a b) s = traps s 0x002 w bad 1) ∧
    (bad = 0 → needOut s.me 1 = .ok () → sent s c w [s.me.ctl.wid, x, 0, 0, 0, 0] (exec (.send a b) s)) ∧
    (bad = 0 → x.toNat % 64 ≠ 0 → exec (.sendm a b) s = traps s 0x201 x 64 0) ∧
    (∀ cc, bad = 0 → needOut s.me 1 = .ok () → OwnAt s c x 64 cc → sent s cc w ((Mem.msg cc.mem x.toNat).toList.drop 2) (exec (.sendm a b) s))) ∧
  (∀ (d : BitVec 6) (a b : Src) (sc : Scope) (s : State) (w x : W64) (c1 c2 : Core), s.cur < 8192 → s.me.irrev = none → s.me.reads = [] →
    s.me.streams = [] → destS d s.me = .ok () → readS a s.me = .ok (w, c1) → readS b c1 = .ok (x, c2) → w &&& 0xFF00000F000007FF = 0 →
    let k := bits w 23 11
    let l := s.lease (rowId k)
    let ok := w.extractLsb' 48 8 = s.me.act.lnch ∧ w.extractLsb' 24 8 = s.pkgid ∧ s.inScope sc (.local k 0) = true ∧
      (s.ctx s.me.act.ctx.toNat).hasCluster (clusterOf k) = true ∧ l.st = .running ∧ l.ctx = s.me.act.ctx ∧ l.cur = s.me.act.lnch
    (¬ok → exec (.spawn d a b sc) s = traps s 0x202 w 0 0) ∧
    (∀ cc, ok → OwnAt s (freeS b (freeS a c2)) x 64 cc → k = s.cur ∨ s.me.gang.isSome = true → s.me.deque.length < 1024 → (s.me.bank 14).owner = s.me.act.ctx →
      needLines cc cc.dequeLines = .ok () →
      ∃ t r tid, exec (.spawn d a b sc) s = .next t ∧ t.me.deque = s.me.deque ++ [r] ∧
        r.msg.toList.drop 1 = tid :: (Mem.msg cc.mem x.toNat).toList.drop 2 ∧ tid.extractLsb' 56 8 = s.pkgid ∧
        bits tid 55 43 = s.cur ∧ tid.setWidth 43 = s.me.tseq + 1 ∧ t.me.tseq = s.me.tseq + 1 ∧ t.me.ctl.sts = 0 ∧
        (d ≠ 0 → t.me.regs.getS d = .full tid) ∧ t.me.pc = s.me.succ s.me.pc ∧ t.me.mem = cc.mem) ∧
    (∀ cc, ok → OwnAt s (freeS b (freeS a c2)) x 64 cc → k = s.cur ∨ s.me.gang.isSome = true → 1024 ≤ s.me.deque.length → (s.me.bank 14).owner = s.me.act.ctx →
      needLines cc [dequeMeta] = .ok () →
      ∀ c', writeS d 0 ((cc.holdDeque [dequeMeta]).setSts .full) = .ok c' → exec (.spawn d a b sc) s = doneStrong s c') ∧
    (∀ cc, ok → OwnAt s (freeS b (freeS a c2)) x 64 cc → k ≠ s.cur → s.me.gang = none → atBoundary s.me →
      ∃ t, exec (.spawn d a b sc) s = .next t ∧ t.me.closing.map (·.d) = s.me.closing.map (·.d) ++ [s.me.seg] ∧ t.me.irrev = some .bounded ∧
        t.me.wait = some .commit ∧ t.me.pc = s.me.pc ∧ t.me.mem = s.me.mem ∧ t.me.deque = s.me.deque)) ∧
  (∀ (a : Src) (s : State) (x : W64) (c1 cc : Core), s.me.reads = [] → readS a s.me = .ok (x, c1) → OwnAt s (freeS a c1) x 64 cc →
    let m := Mem.msg cc.mem x.toNat
    launchMask m s.me.act.ctx = 0 → needOut s.me 1 = .ok () →
    (((launchClusters m).all fun k => (s.ctx s.me.act.ctx.toNat).hasCluster k) = true → ∃ t, exec (.launch a) s = .next t ∧
      t.me.seg.out = s.me.seg.out ++ [⟨.launch m (dieOf s.cur) s.me.tseq.toNat, .waiting⟩] ∧
      t.me.tseq = s.me.tseq + BitVec.ofNat 43 (bits (m.toList.getD 6 0) 19 0) ∧ t.me.pc = s.me.succ s.me.pc ∧ t.me.regs = cc.regs) ∧
    (((launchClusters m).all fun k => (s.ctx s.me.act.ctx.toNat).hasCluster k) = false → exec (.launch a) s = traps s 0x202 x 0 0)) ∧
  (∀ (d : BitVec 6) (k : BitVec 3) (clr : Bool) (s : State) (c' : Core), destS d s.me = .ok () → k ≠ 7 →
    writeS d ((aget s.me.stealCtr k.toNat).getD 0)
      (if clr then { s.me with stealCtr := aset s.me.stealCtr k.toNat 0 } else s.me) = .ok c' → exec (.stealc d k clr) s = done s c')

/-- SBIND (R305 to R307, R311) binds a stream register, which is not EMPTY, by the descriptor in own memory: its value is discarded, and element e of the pattern
stands at base + Σ index × stride. SUNB (R312) unbinds. A bound source pops, a bound destination pushes (R308): the element, or the strip of a v stream,
is written in place and logged, or enters the outbox behind a handle, when the instruction issues (R310), so nothing waits in the unit's buffer;
a register bound the other way or exhausted raises RANGE.
The queries: each writes d at issue with the word its entry lays out. PQRY (R239), GQRY (R247), SQRY (R313), POURQ (R323) of a Pour not in
the list, HNDQ (R324), COLLW (R450) of a finished COLL and of an unknown one.
The model's own readings or choices in this are those of log 29. -/
def Obligations.StreamsAndQueries : Prop :=
  ((∀ (d : BitVec 6) (a : Src) (s : State) (x : W64) (c1 cc : Core), s.me.reads = [] → (d.toNat < 32 → destV (d.setWidth 5) s.me = .ok ()) → (32 ≤ d.toNat → destS d s.me = .ok ()) →
     readS a s.me = .ok (x, c1) → OwnAt s (freeS a c1) x 64 cc →
     let m := Mem.msg cc.mem x.toNat
     let w := fun (i : Nat) => m.toList.getD i 0
     let q := StreamDesc.of m
     let dims := (List.range (bits (w 1) 3 2 + 1)).map fun k => (bits (w (k + 2)) 23 0, ((w (k + 2)).extractLsb' 32 32).toInt)
     let bound := fun (pa : Int) (o : Out) => ∃ t b, o = .next t ∧ t.me.streams = cc.streams ++ [b] ∧ b.code = d.toNat ∧ b.pos = 0 ∧ b.buf = [] ∧
       b.out = (w 1).getLsbD 5 ∧ b.esz = 2 ^ bits (w 1) 1 0 ∧ b.dims = dims ∧ (∀ e, b.addr e = (patternAddr pa dims e).toNat) ∧
       (d.toNat < 32 → t.me.regs.getV (d.setWidth 5) = .vacant) ∧ (32 ≤ d.toNat → t.me.regs.getS d = .vacant) ∧
       t.me.pc = s.me.succ s.me.pc ∧ t.me.mem = cc.mem
     descMask m (decide (d.toNat < 32)) = 0 →
     (s.me.streams.all (fun b => b.code != d.toNat) = false → exec (.sbind d a) s = traps s 0x202 (BitVec.ofNat 64 d.toNat) 0 0) ∧
     (∀ lo len : Nat, (lo : Int) = ((if q.hdl then bits (w 0) 47 0 else (w 0).toNat : Nat) : Int) + q.extent.1 →
       len = (q.extent.2 - q.extent.1).toNat + q.esz → s.me.streams.all (fun b => b.code != d.toNat) = true →
       ((w 1).getLsbD 6 = false → s.me.ownArray (BitVec.ofNat 64 lo) len = true → lockConflict s.me.locks ((w 1).getLsbD 5) [(lo, len)] = none →
         s.lockEntries (clusterOf s.cur) < 1024 → bound (w 0).toNat (exec (.sbind d a) s)) ∧
       (∀ e, (w 1).getLsbD 6 = true → s.me.closing = [] → s.me.pubs = [] → s.handle s.me.act.ctx.toNat (bits (w 0) 63 48) = some e →
         lo + len ≤ e.len → (if (w 1).getLsbD 5 then e.wr else e.rd) = true → lockConflict s.dlocks ((w 1).getLsbD 5) [(e.base + lo, len)] = none →
         bound ((e.base + bits (w 0) 47 0 : Nat) : Int) (exec (.sbind d a) s)))) ∧
   (∀ (d : BitVec 6) (s : State), s.me.reads = [] → ∃ t, exec (.sunb d) s = .next t ∧ t.me.streams = s.me.streams.filter (·.code != d.toNat) ∧
     t.me.regs = s.me.regs ∧ t.me.pc = s.me.succ s.me.pc ∧ t.me.mem = s.me.mem) ∧
   (∀ (a : Src) (c : Core) (b : Stream), c.stream? (scode a.reg) = some b → b.revoked = false →
     (b.out = true ∨ b.done = true → ∃ r, readS a c = .error (.trap r) ∧ r.cause = 0x202 ∧ r.w3 = BitVec.ofNat 64 b.code) ∧
     (∀ v l, b.out = false → b.done = false → b.buf = v :: l → ∃ c', readS a c = .ok (v.setWidth 64, c') ∧ c'.regs = c.regs ∧ freeS a c' = c' ∧
       c'.mem = c.mem) ∧
     (b.out = false → b.done = false → b.buf = [] → a.trap = false → readS a c = .error (.wait .operand))) ∧
   (∀ (d : BitVec 6) (x : W64) (c : Core) (b : Stream), c.stream? (scode d) = some b → b.revoked = false →
     (b.out = false ∨ b.done = true → ∃ r, writeS d x c = .error (.trap r) ∧ r.cause = 0x202 ∧ r.w3 = BitVec.ofNat 64 b.code) ∧
     (b.out = true → b.done = false → c.locked b = false → writeS d x c = .error (.wait .operand)) ∧
     (32 ≤ d.toNat → b.esz ∈ [1, 2, 4, 8] → b.out = true → b.done = false → c.locked b = true → c.reads = [] →
       let a := b.addr b.pos
       let v := x.toNat % 2 ^ (8 * b.esz)
       (b.hdl = none → Owned c a b.esz → needLines c (linesOf a b.esz) = .ok () →
         ∃ c', writeS d x c = .ok c' ∧ c'.mem = Mem.put c.mem a (bytesOf v b.esz) ∧ (∀ l ∈ linesOf a b.esz, c'.seg.lines.contains l = true) ∧
           c'.stream? (scode d) = some { b with pos := b.pos + 1 } ∧ c'.regs = c.regs ∧ c'.seg.out = c.seg.out) ∧
       (b.hdl ≠ none → c.outLine? (b.home a) b.tag = none → needOut c 1 = .ok () →
         ∃ c', writeS d x c = .ok c' ∧ c'.seg.out = c.seg.out ++ [⟨.store (b.home a) (lineAt (a % 64) b.esz v) (byteMask (a % 64) b.esz) b.tag
             (BitVec.ofNat 64 (64 * (a / 64))), .waiting⟩] ∧
           c'.stream? (scode d) = some { b with pos := b.pos + 1 } ∧ c'.regs = c.regs ∧ c'.mem = c.mem))) ∧
   (∀ (d : BitVec 5) (x : Line) (c : Core) (b : Stream), c.stream? d.toNat = some b → b.revoked = false → b.esz ∈ [1, 2, 4, 8] → b.out = true → b.done = false →
     c.locked b = true → c.reads = [] → b.hdl = none →
     let q := 64 / b.esz
     let at_ := fun (j : Nat) => b.addr (b.pos * q + j)
     (∀ j < q, Owned c (at_ j) b.esz) → needLines c ((List.range q).flatMap fun j => linesOf (at_ j) b.esz) = .ok () →
     ∃ c', writeV d x c = .ok c' ∧ c'.mem = (List.range q).foldl (fun m j => Mem.put m (at_ j) (bytesOf (laneAt x (8 * b.esz) j) b.esz)) c.mem ∧
       c'.stream? d.toNat = some { b with pos := b.pos + 1 } ∧ c'.regs = c.regs)) ∧
  (let bit := fun (b : Bool) (k : Nat) => if b then 2 ^ k else 0
   ∀ (d : BitVec 6) (s : State), destS d s.me = .ok () →
     (∀ c', (let c := s.me
       writeS d (BitVec.ofNat 64 (bit c.fenced 63 + bit (decide (0 < c.pressQueue.length)) 62 + c.pressQueue.length * 2 ^ 56 + bit c.active.scaled 55 +
         c.active.fmt.code.toNat * 2 ^ 50 + bit c.shadow.scaled 49 + c.shadow.fmt.code.toNat * 2 ^ 44 +
         ((c.pressQueue.head?.map (·.row)).getD 0) * 2 ^ 32 + c.lseq)) c = .ok c') → exec (.pqry d) s = done s c') ∧
     (∀ c', (let g := s.me.grinder
       let st := if g.st = .idle then 0 else if g.st = .held then 1 else 2
       writeS d (BitVec.ofNat 64 (st * 2 ^ 62 + g.kfmt.toNat * 2 ^ 60 + bit g.desc 59 + g.gsz * 2 ^ 56 + g.phase * 2 ^ 52 + g.total * 2 ^ 48 + g.base))
         s.me = .ok c') → exec (.gqry d) s = done s c') ∧
     (∀ (a : Src) (x : W64) (c1 : Core), readS a s.me = .ok (x, c1) →
       (∀ c', x.toNat < 64 → streamCode (x.setWidth 6) = true →
         writeS d (match c1.streams.find? (·.code == x.toNat) with
           | none => 0
           | some b => BitVec.ofNat 64 (2 ^ 63 + bit b.out 62 + bit b.hdl.isSome 61 + bit b.done 60 + b.buf.length * 2 ^ 54 +
               (if b.esz = 1 then 0 else if b.esz = 2 then 1 else if b.esz = 4 then 2 else 3) * 2 ^ 48 + b.pos)) (freeS a c1) = .ok c' →
         exec (.sqry d a) s = done s c') ∧
       (64 ≤ x.toNat → ∃ m, exec (.sqry d a) s = traps s 0x002 x m 1) ∧
       (∀ c', s.me.pours.find? (fun p => p.1 == x.toNat) = none → writeS d 0 (freeS a c1) = .ok c' → exec (.pourq d a) s = done s c') ∧
       (∀ c' m ab, s.me.pours.find? (fun p => p.1 == x.toNat) = some (x.toNat, m, ab) → s.pours = [] →
         writeS d (BitVec.ofNat 64 ((if ab.isSome then 5 else 4) * 2 ^ 61 + (if (PourDesc.of m).dk = 3 then 2 ^ 56 else 0) +
           (PourDesc.of m).ch * 2 ^ 52 + ab.getD (PourDesc.of m).total)) (freeS a c1) = .ok c' → exec (.pourq d a) s = done s c') ∧
       (∀ c', x.toNat < 65536 → writeS d (if bits ((s.ctx s.me.act.ctx.toNat).w 0) 15 0 ≤ x.toNat then 0 else
           s.physWord (((s.ctx s.me.act.ctx.toNat).w 4).toNat + 16 * x.toNat) &&& 0xF800FFFFFFFFFFFF) (freeS a c1) = .ok c' →
         exec (.hndq d a) s = done s c') ∧
       (65536 ≤ x.toNat → ∃ m, exec (.hndq d a) s = traps s 0x002 x m 1) ∧
       (∀ c', s.me.colls.find? (fun p => p.1 == x.toNat) = none → writeS d 0 (freeS a c1) = .ok c' → exec (.collw d a) s = done s c') ∧
       (∀ c' v, s.me.colls.find? (fun p => p.1 == x.toNat) = some (x.toNat, v) →
         ((s.me.op? x.toNat).any fun o => o.seg == s.me.seg.id) = false → v ≠ 0 → writeS d (BitVec.ofNat 64 v) (freeS a c1) = .ok c' →
         exec (.collw d a) s = done s c') ∧
       (∀ v, s.me.colls.find? (fun p => p.1 == x.toNat) = some (x.toNat, v) →
         ((s.me.op? x.toNat).any fun o => o.seg == s.me.seg.id) = false → v = 0 → exec (.collw d a) s = .next (s.waiting .coll))))

/-- SBIND, SUNB and the queries complete (R307, R312, R313, R323, R324, R239, R247, R450). SBIND of a register that is not EMPTY and not bound, with a
descriptor that its checks let pass and no lock in its way, binds it, for a pattern in own memory or behind a handle. SUNB always unbinds. A query
of unbound registers, its destination not EMPTY and its operand FULL and in range, writes its word to the destination and to nothing else, and goes
on to the successor: PQRY and GQRY the status of the Press and of the Grinder, SQRY that of a binding or 0, POURQ that of a Pour or 0, HNDQ the words of a
handle's entry that it shows or 0, COLLW 0 for an unknown COLL, 2^62 for one of the open segment, and the outcome of a finished one.
The model's own readings or choices in this are those of log 29. -/
def Obligations.StreamAndQueryCompletion : Prop :=
  ((∀ (d : BitVec 6) (s : State), s.me.reads = [] → ∃ t, exec (.sunb d) s = .next t ∧ t.me.stream? d.toNat = none ∧ t.me.pc = s.me.succ s.me.pc) ∧
   (∀ (d : BitVec 6) (a : Src) (s : State) (x : W64) (cc : Core), s.me.reads = [] → (d.toNat < 32 → s.me.regs.getV (d.setWidth 5) ≠ .empty) →
     (32 ≤ d.toNat → s.me.regs.getS d ≠ .empty) → s.me.stream? d.toNat = none → s.me.stream? (scode a.reg) = none → s.me.regs.getS a.reg = .full x →
     OwnAt s (freeS a s.me) x 64 cc →
     let m := Mem.msg cc.mem x.toNat
     let w := fun (i : Nat) => m.toList.getD i 0
     let q := StreamDesc.of m
     let at_ := fun (off : Nat) => (off : Int) + q.extent.1
     let len := (q.extent.2 - q.extent.1).toNat + q.esz
     let completes := ∃ t b, exec (.sbind d a) s = .next t ∧ t.me.stream? d.toNat = some b ∧ b.pos = 0 ∧ b.out = q.out ∧ b.dims = q.dims ∧ t.me.pc = s.me.succ s.me.pc
     descMask m (decide (d.toNat < 32)) = 0 →
     (∀ lo : Nat, q.hdl = false → (lo : Int) = at_ (w 0).toNat → s.me.ownArray (BitVec.ofNat 64 lo) len = true → lockConflict s.me.locks q.out [(lo, len)] = none →
       s.lockEntries (clusterOf s.cur) < 1024 → completes) ∧
     (∀ (lo : Nat) (h : Handle), q.hdl = true → (lo : Int) = at_ (bits (w 0) 47 0) → s.me.closing = [] → s.me.pubs = [] →
       s.handle s.me.act.ctx.toNat (bits (w 0) 63 48) = some h → lo + len ≤ h.len → (if q.out then h.wr else h.rd) = true →
       lockConflict s.dlocks q.out [(h.base + lo, len)] = none → completes))) ∧
  (∀ (d : BitVec 6) (a : Src) (s : State) (x : W64), s.me.regs.getS d ≠ .empty → s.me.stream? (scode d) = none →
    let gives := fun (i : Instr) (v : W64) => ∃ t, exec i s = .next t ∧ (d ≠ 0 → t.me.regs.getS d = .full v) ∧ t.me.pc = s.me.succ s.me.pc ∧ t.me.mem = s.me.mem ∧
      ∀ r, r ≠ d → r ≠ a.reg → t.me.regs.getS r = s.me.regs.getS r
    gives (.pqry d) s.me.pressStatus ∧ gives (.gqry d) s.me.grinder.status ∧
    (s.me.regs.getS a.reg = .full x → s.me.stream? (scode a.reg) = none →
      (x.toNat < 64 → streamCode (x.setWidth 6) = true → gives (.sqry d a) ((s.me.stream? x.toNat).elim 0 Stream.status)) ∧
      gives (.pourq d a) (s.pourStatus x.toNat) ∧
      (x.toNat < 65536 → gives (.hndq d a) (if bits ((s.ctx s.me.act.ctx.toNat).w 0) 15 0 ≤ x.toNat then 0 else
        s.physWord (((s.ctx s.me.act.ctx.toNat).w 4).toNat + 16 * x.toNat) &&& 0xF800FFFFFFFFFFFF)) ∧
      (s.me.colls.find? (fun p => p.1 == x.toNat) = none → gives (.collw d a) 0) ∧
      (∀ v, s.me.colls.find? (fun p => p.1 == x.toNat) = some (x.toNat, v) →
        (((s.me.op? x.toNat).any fun o => o.seg == s.me.seg.id) = true → gives (.collw d a) (BitVec.ofNat 64 (2 ^ 62))) ∧
        (((s.me.op? x.toNat).any fun o => o.seg == s.me.seg.id) = false → v ≠ 0 → gives (.collw d a) (BitVec.ofNat 64 v)))))

/-! ### Engines of a core -/

/-- The instructions that hand an operation to the Press, the Grinder, a hub or a combining point: PLOAD, PSWAP, PRUN, PTEST (R230 to R233,
R238), GSORT (R245), COLL (R444). Each takes the next number (R221), which goes to d, joins the in-flight list as an operation of
the open segment, and locks its ranges (R223); the data moves later. A PRUN whose Press is fenced raises ENGTEST.
POUR (R314 to R317) of a command block in own memory whose ranges are ARRAY bytes of reachable cores: the command joins its channel's
queue, its ranges are locked, its number goes to d, and no data has moved. A reserved field raises RESV with the word.
The model's own readings or choices in this are those of log 29, 32. -/
def Obligations.EngineIssue : Prop :=
  ((∀ (d : BitVec 6) (a b e : Src) (s : State) (x w : W64) (z : Option W64) (c1 c2 c3 : Core), s.me.reads = [] → destS d s.me = .ok () →
     readS a s.me = .ok (x, c1) → readS b c1 = .ok (w, c2) → readStamp c2 (w.getLsbD 6) e = .ok (z, c3) → loadMask w = 0 →
     x.toNat % 64 = 0 → (∀ v, z = some v → v.toNat % 8 = 0 ∧ s.me.ownArray v 8 = true) → s.me.ownArray x (loadBytes w) = true →
     s.me.pressQueue.length < 8 → lockConflict s.me.locks false [(x.toNat, loadBytes w)] = none → s.lockEntries (clusterOf s.cur) < 1024 →
     Accepts s (.pload x.toNat w) (z.map (·.toNat)) d (freeStamp z e (freeS b (freeS a c3))) false [(x.toNat, loadBytes w)] (exec (.pload d a b e) s)) ∧
   (∀ s : State, s.me.reads = [] → (s.me.pressQueue.length < 8 → ∃ o, o.kind = .pswap ∧ o.st = .queued ∧ o.seg = s.me.seg.id ∧
       exec .pswap s = done s { s.me with ops := s.me.ops ++ [o], nord := s.me.nord + 1 }) ∧
     (8 ≤ s.me.pressQueue.length → exec .pswap s = .next (s.waiting .engine))) ∧
   (∀ (d : BitVec 6) (s : State), s.me.reads = [] → destS d s.me = .ok () → s.me.pressQueue.length < 8 →
     Accepts s .ptest none d s.me false [] (exec (.ptest d) s) ∧
     (∀ (a : Src) (z : W64) (c1 : Core), readS a s.me = .ok (z, c1) → z.toNat % 8 = 0 → s.me.ownArray z 8 = true →
       Accepts s .ptest (some z.toNat) d (freeS a c1) false [] (exec (.ptestStamp d a) s))) ∧
   (∀ (d : BitVec 6) (a b e : Src) (s : State) (x w : W64) (z : Option W64) (c1 c2 c3 : Core), s.me.gang = none → s.me.reads = [] →
     destS d s.me = .ok () → readS a s.me = .ok (x, c1) → readS b c1 = .ok (w, c2) → readStamp c2 (w.getLsbD 24) e = .ok (z, c3) →
     let r := RunCmd.of w
     let wt := s.me.fmtsAhead.1
     cmdMask w = 0 → suits wt r.ty = true → r.m * rowOut wt ≤ 32768 → r.row0 + r.m ≤ 256 → x.toNat % 16 = 0 →
     (∀ v, z = some v → v.toNat % 8 = 0 ∧ s.me.ownArray v 8 = true) → s.me.arrayRanges (actRanges x.toNat r) = true →
     (s.me.fenced = true → exec (.prun d a b e) s = traps s 0x404 w 0 0) ∧
     (s.me.fenced = false → s.me.pressQueue.length < 8 → lockConflict s.me.locks false (actRanges x.toNat r) = none →
       s.lockEntries (clusterOf s.cur) < 1024 → s.me.ringUsed + r.m * rowOut wt ≤ Config.ringCap →
       Accepts s (.prun x.toNat w) (z.map (·.toNat)) d (freeStamp z e (freeS b (freeS a c3))) false (actRanges x.toNat r) (exec (.prun d a b e) s))) ∧
   (∀ (d : BitVec 6) (a b e : Src) (s : State) (x w : W64) (z : Option W64) (c1 c2 c3 : Core), s.me.gang = none → s.me.reads = [] →
     destS d s.me = .ok () → readS a s.me = .ok (x, c1) → readS b c1 = .ok (w, c2) → readStamp c2 (w.getLsbD 5) e = .ok (z, c3) →
     w &&& 0xFFFFFFFFFFFFF0C0 = 0 → x.toNat % 64 = 0 → (∀ v, z = some v → v.toNat % 8 = 0 ∧ s.me.ownArray v 8 = true) →
     s.me.ownArray x 1024 = true → x.toNat % 65536 + 1024 ≤ 65536 →
     ((∃ o ∈ s.me.ops, o.kind.sort?.isSome = true ∧ o.st ≠ .complete) → exec (.gsort d a b e) s = .next (s.waiting .engine)) ∧
     ((∀ o ∈ s.me.ops, o.kind.sort?.isSome = true → o.st = .complete) → lockConflict s.me.locks true [(x.toNat, 1024)] = none → s.lockEntries (clusterOf s.cur) < 1024 →
       s.me.ringUsed + 1024 ≤ Config.ringCap → w.getLsbD 3 = false → ∃ g, g.st = .running ∧ g.kfmt = w.extractLsb' 0 2 ∧ g.desc = w.getLsbD 2 ∧
         g.phase = 0 ∧ g.total = 8 ∧ g.base = x.toNat ∧ ∃ k,
         Accepts s (.gsort x.toNat w) (z.map (·.toNat)) d { (freeStamp z e (freeS b (freeS a c3))) with grinder := g, grind0 := k } true [(x.toNat, 1024)]
           (exec (.gsort d a b e) s))) ∧
   (∀ (d : BitVec 6) (a : Src) (s : State) (x : W64) (c1 cc : Core), s.me.reads = [] → destS d s.me = .ok () → readS a s.me = .ok (x, c1) →
     OwnAt s (freeS a c1) x 64 cc →
     let m := Mem.msg cc.mem x.toNat
     let q := CollDesc.of m
     collMask m = none → inOneBank s.me q.buf q.len = true → (q.nstp = true ∨ inOneBank s.me q.stamp 8 = true) → s.mapFault q = none → s.derr = [] → s.mapClean q = .ok () →
     s.badEntryOf q = none →
     lockConflict s.me.locks q.writes [(q.buf.toNat, q.len)] = none → s.lockEntries (clusterOf s.cur) < 1024 →
     s.me.ringUsed + 320 ≤ Config.ringCap → ∃ rounds colls,
     Accepts s (.coll m ((aget s.me.rounds q.gid).getD 0) (q.entries.map fun r => (r, s.mapEntry q r))) (if q.nstp then none else some q.stamp.toNat) d { cc with rounds := rounds, colls := colls } q.writes
       [(q.buf.toNat, q.len)] (exec (.coll d a) s) ∧ (aget rounds q.gid).getD 0 = (((aget s.me.rounds q.gid).getD 0) + 1) % 2 ^ 32 ∧
       colls.getLast? = some (s.me.nextSeq, 0))) ∧
  (∀ (d : BitVec 6) (a : Src) (s : State) (x : W64) (c1 cc : Core), s.me.reads = [] → s.me.streams = [] → destS d s.me = .ok () →
     readS a s.me = .ok (x, c1) → OwnAt s (freeS a c1) x 64 cc →
     let m := Mem.msg cc.mem x.toNat
     let p := PourDesc.of m
     (∀ w k, pourMask m = some (w, k) → exec (.pour d a) s = traps s 0x002 w (BitVec.ofNat 64 k) 1) ∧
     (pourMask m = none → (p.sh = true ∨ p.dk ≠ 0) → s.me.closing ≠ [] → exec (.pour d a) s = .next (s.waiting .commit)) ∧
     (pourMask m = none → s.me.closing = [] → s.me.pubs = [] → s.pourRange p = none →
       (p.sh = true → s.pourHandle p.src p.sstr p.rows p.rbytes false = none) → (p.dk = 1 → s.pourHandle p.dst p.dstr p.rows p.rbytes true = none) →
       s.pourConflict p = none → s.pourEntries p = true → (s.pours.filter fun q => q.cluster == clusterOf s.cur && q.ch == p.ch && !q.moving).length < 16 →
       (p.dk = 0 → s.me.ringUsed + 64 * (nunion [] (p.dstRanges.flatMap fun r => linesOf r.1 r.2)).length ≤ Config.ringCap) →
       ∃ t q, exec (.pour d a) s = .next t ∧ t.pours = s.pours ++ [q] ∧ q.core = s.cur ∧ q.seq = s.me.nextSeq ∧ q.ch = p.ch ∧ q.block = m ∧
         q.moving = false ∧ q.landed = (p.recvs s.cur).map (fun k => (k, [])) ∧ t.me.engSeq = s.me.nextSeq ∧ t.cur = s.cur ∧
         (d ≠ 0 → t.me.regs.getS d = .full (BitVec.ofNat 64 s.me.nextSeq)) ∧ t.me.pc = s.me.succ s.me.pc ∧ t.me.mem = cc.mem ∧
         (∀ k, (t.core k).mem = if k = s.cur then cc.mem else (s.core k).mem) ∧ t.dram = s.dram ∧
         (p.sh = false → t.me.locks.contains ⟨s.cur, s.me.nextSeq, false, p.srcRanges⟩ = true) ∧
         (∀ k ∈ p.recvs s.cur, p.dk ≠ 1 → (t.core k).locks.contains ⟨s.cur, s.me.nextSeq, true, p.dstRanges⟩ = true)))

/-- PACC (R235), once the runs that write its rows have finished: the register form moves a quarter of an accumulator row to d, and CLR or
DROP zeroes it; the memory form converts elements to memory, row by row, with the flags of the conversions.
The model's own readings or choices in this are those of log 32. -/
def Obligations.AccumulatorDrain : Prop :=
  (∀ (d : BitVec 5) (a : Src) (s : State) (x : W64) (c1 : Core), s.me.reads = [] → destV d s.me = .ok () → readS a s.me = .ok (x, c1) →
    let r := bits x 7 0
    let q := bits x 9 8
    let zero := x.getLsbD 10 || x.getLsbD 11
    let c2 := (freeS a c1).claimRow s.me.act.ctx r
    (4096 ≤ x.toNat → ∃ m, exec (.paccReg d a) s = traps s 0x002 x m 1) ∧
    (x.toNat < 4096 → rowsDone s.me r 1 = .ok () → (zero = true → s.me.ringUsed + 64 ≤ Config.ringCap) →
      (x.getLsbD 11 = false → c2.accPoison.contains (4 * r + q) = false) → c2.acc.wf = true →
      ∃ c3, (zero = false → c3 = c2) ∧ c3.regs = c2.regs ∧ c3.mem = c2.mem ∧
        (∀ i, Mem.byte c3.acc i = if zero ∧ 256 * r + 64 * q ≤ i ∧ i < 256 * r + 64 * q + 64 then 0 else Mem.byte c2.acc i) ∧
        ∀ c', writeV d (if x.getLsbD 11 then 0 else BitVec.ofNat 512 (Mem.nat c2.acc (256 * r + 64 * q) 64)) c3 = .ok c' →
          exec (.paccReg d a) s = done s c')) ∧
  (∀ (a b : Src) (src : Ty) (rm : Rnd) (sat : Bool) (t : Ty) (s : State) (x w : W64) (c1 c2 : Core), s.me.reads = [] →
    readS a s.me = .ok (x, c1) → readS b c1 = .ok (w, c2) → t.isMem = true → src = .f64 ∨ src = .f32 ∨ src = .i32 →
    let row0 := bits w 7 0
    let count := bits w 15 8 + 1
    let n := bits w 21 16 + 1
    let sz := t.width / 8
    let stride := 16 * bits w 30 23
    let from_ := src.width / 8
    let out := (List.range count).map fun r => (x.toNat + stride * r, n * sz)
    drainMask w src t = 0 → row0 + count ≤ 256 → x.toNat % sz = 0 → s.me.arrayRanges out = true → rowsDone s.me row0 count = .ok () →
    (w.getLsbD 22 = true → s.me.ringUsed + count * n * from_ ≤ Config.ringCap) → needLines s.me (out.flatMap fun o => linesOf o.1 o.2) = .ok () →
    s.me.ctl.mode.setWidth 5 = (0 : BitVec 5) → s.me.mem.wf = true → s.me.acc.wf = true →
    (∀ r < count, Owned s.me (x.toNat + stride * r) (n * sz) ∧ lockOn s.me.locks (x.toNat + stride * r) (n * sz) = none ∧
      (aget s.me.accOwner (row0 + r)).getD 0 = s.me.act.ctx ∧ ∀ q ∈ quarters 0 (n * from_), s.me.accPoison.contains (4 * (row0 + r) + q) = false) →
    let el := fun (r j : Nat) => convert (Mem.nat s.me.acc (256 * (row0 + r) + from_ * j) from_) src t rm sat
    ∃ u, exec (.paccMem a b src rm sat t) s = .next u ∧
      (∀ r j, r < count → j < n → Mem.nat u.me.mem (x.toNat + stride * r + sz * j) sz = (el r j).1 % 2 ^ t.width) ∧
      (∀ k, (∀ r < count, k < x.toNat + stride * r ∨ x.toNat + stride * r + sz * n ≤ k) → Mem.byte u.me.mem k = Mem.byte s.me.mem k) ∧
      (∀ i, u.me.ctl.flg.getLsbD i = (s.me.ctl.flg.getLsbD i || decide (i < 5 ∧ ∃ r < count, ∃ j < n, (el r j).2.getLsbD i = true))) ∧
      (w.getLsbD 22 = false → u.me.acc = s.me.acc) ∧
      (w.getLsbD 22 = true → (∀ r < count, ∀ i < n * from_, Mem.byte u.me.acc (256 * (row0 + r) + i) = 0) ∧
        ∀ k, (∀ r < count, k < 256 * (row0 + r) ∨ 256 * (row0 + r) + n * from_ ≤ k) → Mem.byte u.me.acc k = Mem.byte s.me.acc k) ∧
      u.me.regs = (freeS b (freeS a c2)).regs ∧ u.me.pc = s.me.succ s.me.pc)

/-! ### Local time and gangs -/

/-- Row 0xC_ outside a gang (spec/10). Outside the mode every instruction but LTCFG and LTQRY raises ILLOP (R266). LTCFG enters and leaves
the mode (R267), LTLINK sets and clears a slot (R268), LTSEND stamps a message or raises a causality trap (R269), LTDRIP promises a
bound (R270), LTCLK and LTQRY read (R271, R272). That an LTCFG which stays in the mode clears the error word, that one which ends with
FULL changes nothing, and what selector 0 reads out of the mode are the model's own readings or choices, of log 42 and 66. -/
def Obligations.LocalTimeRow : Prop :=
  (∀ s : State, s.me.gang.isSome = true ∨ s.me.lt.en = false →
    (∀ out slot a b, exec (.ltlink out slot a b) s = traps s 0x001 (encWord (.ltlink out slot a b)) 0 0) ∧
    (∀ slot a b e, exec (.ltsend slot a b e) s = traps s 0x001 (encWord (.ltsend slot a b e)) 0 0) ∧
    (∀ all slot a, exec (.ltdrip all slot a) s = traps s 0x001 (encWord (.ltdrip all slot a)) 0 0) ∧
    (∀ d, exec (.ltclk d) s = traps s 0x001 (encWord (.ltclk d)) 0 0) ∧
    (s.me.gang.isSome = true → ∀ d a, exec (.ltcfg d a) s = traps s 0x001 (encWord (.ltcfg d a)) 0 0 ∧
      exec (.ltqry d a) s = traps s 0x001 (encWord (.ltqry d a)) 0 0)) ∧
  (∀ (d : BitVec 6) (a : Src) (s : State) (w : W64) (c1 : Core), s.me.gang = none → s.me.reads = [] → s.me.streams = [] → destS d s.me = .ok () →
    readS a s.me = .ok (w, c1) → w &&& 0xFFFF0000FFFFFFFE = 0 → (s.me.bank 15).owner = s.me.act.ctx → ImageReady s.me 15 → poolTouched s.me 15 = [] →
    needLines s.me [metaLine 15] = .ok () →
    let now := fun (lt : LocalTime) (st : W64) => ∃ t, exec (.ltcfg d a) s = .next t ∧ t.me.lt = lt ∧ t.me.mailbox = s.me.mailbox ∧ t.me.ctl.sts = st ∧
      (d ≠ 0 → t.me.regs.getS d = .full (freeS a c1).ltState) ∧ t.me.pc = s.me.succ s.me.pc ∧ t.me.mem = s.me.mem
    (s.me.lt.en = false → w.getLsbD 0 = true → s.me.mailbox = [] → now ⟨true, 0, 0, w.extractLsb' 32 16, false, [], [], s.me.nord + 1⟩ 0) ∧
    (s.me.lt.en = false → w.getLsbD 0 = true → s.me.mailbox ≠ [] → now s.me.lt 1) ∧
    (s.me.lt.en = true → w.getLsbD 0 = true → now { s.me.lt with dper := w.extractLsb' 32 16, lerr := false } 0) ∧
    (s.me.lt.en = true → w.getLsbD 0 = false → s.stampedHere = false → ∃ lt, lt.en = false ∧ lt.ins = [] ∧ lt.outs = [] ∧ now lt 0) ∧
    (s.me.lt.en = true → w.getLsbD 0 = false → s.stampedHere = true → now s.me.lt 1) ∧
    (s.me.lt.en = false → w.getLsbD 0 = false → now s.me.lt 0)) ∧
  (∀ (slot : BitVec 4) (a b : Src) (s : State) (x w : W64) (c1 c2 : Core), s.me.gang = none → s.me.lt.en = true → s.me.reads = [] →
    readS a s.me = .ok (x, c1) → readS b c1 = .ok (w, c2) → needLines s.me [17408] = .ok () →
    let linked := fun (lt : LocalTime) (o : Out) => ∃ t, o = .next t ∧ t.me.lt = lt ∧ t.me.seg.lines.contains 17408 = true ∧ t.me.pc = s.me.succ s.me.pc ∧
      t.me.regs = (freeS b (freeS a c2)).regs ∧ t.me.mem = s.me.mem
    let peer := bits x 23 11
    (x &&& 0xFFFFFFFF000007FF = 0 → w &&& 0xFFFF000000000000 = 0 → x.extractLsb' 24 8 = s.pkgid →
      (s.ctx s.me.act.ctx.toNat).hasCluster (clusterOf peer) = true →
      ((∀ y ∈ s.me.lt.ins, y.1 = slot.toNat ∨ y.2.peer ≠ peer) →
        linked { s.me.lt with ins := aset s.me.lt.ins slot.toNat ⟨peer, w.setWidth 48, 0⟩ } (exec (.ltlink false slot a b) s)) ∧
      ((∀ y ∈ s.me.lt.outs, y.1 = slot.toNat ∨ y.2.peer ≠ peer) →
        ∃ decl, linked { s.me.lt with outs := aset s.me.lt.outs slot.toNat ⟨peer, w.setWidth 48, 0, 0, true, decl⟩ } (exec (.ltlink true slot a b) s))) ∧
    (x = 0 → w = 0x8000000000000000 →
      linked { s.me.lt with ins := adel s.me.lt.ins slot.toNat } (exec (.ltlink false slot a b) s) ∧
      linked { s.me.lt with outs := adel s.me.lt.outs slot.toNat } (exec (.ltlink true slot a b) s))) ∧
  (∀ (slot : BitVec 4) (a b e : Src) (s : State) (w st x : W64) (c1 c2 c3 : Core) (o : OutSlot), s.me.gang = none → s.me.lt.en = true → s.me.reads = [] →
    readS a s.me = .ok (w, c1) → readS b c1 = .ok (st, c2) → readS e c2 = .ok (x, c3) → w &&& 0xFF00000FFFFFFFFF = 0 →
    (aget s.me.lt.outs slot.toNat = none → exec (.ltsend slot a b e) s = traps s 0x202 (slot.setWidth 64) 0 0) ∧
    (aget s.me.lt.outs slot.toNat = some o →
      (st.toNat ≠ 2 ^ 64 - 1 → s.me.lt.ltc.toNat + o.look.toNat ≤ st.toNat → o.f.toNat ≤ st.toNat → needOut s.me 1 = .ok () →
        ∃ t m, exec (.ltsend slot a b e) s = .next t ∧ t.me.seg.out = s.me.seg.out ++ [⟨.msg m s.pkgid.toNat o.peer (some o.look), .waiting⟩] ∧
          m.toList.drop 1 = [s.me.ctl.tid, s.me.ctl.wid, x, 0, 0, 0, st] ∧ (m.toList.getD 0 0).getLsbD 35 = true ∧
          t.me.mseq = s.me.mseq + 1 ∧ t.me.pc = s.me.succ s.me.pc ∧ t.me.regs = (freeS e (freeS b (freeS a c3))).regs) ∧
      (st.toNat < s.me.lt.ltc.toNat + o.look.toNat ∨ st.toNat < o.f.toNat ∨ st.toNat = 2 ^ 64 - 1 →
        ∃ v, exec (.ltsend slot a b e) s = traps s 0x402 st v (slot.setWidth 64)))) ∧
  (∀ (slot : BitVec 4) (a : Src) (s : State) (x : W64) (c1 : Core) (o : OutSlot), s.me.gang = none → s.me.lt.en = true → s.me.reads = [] →
    readS a s.me = .ok (x, c1) → aget s.me.lt.outs slot.toNat = some o → needOut s.me 1 = .ok () → needLines s.me [17408] = .ok () →
    ∃ t v, exec (.ltdrip false slot a) s = .next t ∧ v.toNat = min (max s.me.lt.ltc.toNat x.toNat + o.look.toNat) (2 ^ 64 - 1) ∧
      t.me.seg.out = s.me.seg.out ++ [⟨.drip o.decl v, .waiting⟩] ∧
      t.me.lt = { s.me.lt with outs := aset s.me.lt.outs slot.toNat { o with f := if o.f.toNat < v.toNat then v else o.f } } ∧
      t.me.pc = s.me.succ s.me.pc ∧ t.me.regs = (freeS a c1).regs ∧ t.me.mem = s.me.mem) ∧
  (∀ (slot : BitVec 4) (a : Src) (s : State) (x : W64) (c1 : Core), s.me.gang = none → s.me.lt.en = true → s.me.reads = [] →
    readS a s.me = .ok (x, c1) → s.me.lt.outs = [] → exec (.ltdrip true slot a) s = done s (freeS a c1)) ∧
  (∀ (d : BitVec 6) (s : State) (c' : Core), s.me.gang = none → s.me.lt.en = true → destS d s.me = .ok () → produce d s.me.lt.ltc 2 s.me = .ok c' →
    exec (.ltclk d) s = done s c') ∧
  (∀ (d : BitVec 6) (a : Src) (s : State) (x : W64) (c1 c' : Core), s.me.gang = none → Reads1 d a s.me x c1 →
    let lt := s.me.lt
    let gives := fun (v : W64) => writeS d v c1 = .ok c' → exec (.ltqry d a) s = done s c'
    (64 ≤ x.toNat → ∃ m, exec (.ltqry d a) s = traps s 0x002 x m 1) ∧
    (4 ≤ x.toNat → x.toNat ≤ 15 → exec (.ltqry d a) s = traps s 0x002 x 0x3F 1) ∧
    (x.toNat < 4 ∨ 16 ≤ x.toNat → x.toNat < 64 → lt.en = false → gives 0) ∧
    (lt.en = true → (x.toNat = 1 → gives lt.ltc) ∧ (x.toNat = 2 → gives lt.a) ∧
      (16 ≤ x.toNat → x.toNat < 32 → gives (((aget lt.ins (x.toNat - 16)).map (·.b)).getD 0)) ∧
      (32 ≤ x.toNat → x.toNat < 48 → gives (((aget lt.outs (x.toNat - 32)).map (·.d)).getD 0)) ∧
      (48 ≤ x.toNat → x.toNat < 64 → gives (((aget lt.outs (x.toNat - 48)).map (·.f)).getD 0))))

/-- GANG (R296 to R299) with every follower idle forms the gang: each member runs from the leader's successor with the leader's s registers, its
index in MIX, its v and m registers vacant; the leader's d receives the size. A member that is running makes the leader wait, with all
members reserved; a core that another gang holds makes d zero and STS FULL. DISB (R303) leaves the leader alone.
A waiting GANG forms its gang once every follower is idle, or gives up at its limit with d zero and STS EMPTY (R297).
An instruction of a gang issues in every member at once, each on its own registers and memory (R108, R300): shown for the integer instructions on
64-bit registers; a member that cannot issue holds all of them. The gang-wide VRED puts the tree over the lanes of all members, member 0's first,
into d of each, and VSCAN each member's part of the prefix through all of them (R205, R206); both take the members' registers as they stood before
the head. A fused PRUN or GSORT is one operation of each member, which name each other (R236, R243); a fenced Press in one member traps in all.
An idle core in local-time mode raises its announce base to the least of its pending stamp and its bounds (R257), and drips by DPER (R258). -/
def Obligations.Gangs : Prop :=
  ((∀ (d : BitVec 6) (a : Src) (size : BitVec 2) (s : State) (x : W64) (c1 : Core) (ms : List Nat), s.me.entry.getLsbD 61 = true → size ≠ 0 →
     destS d s.me = .ok () → s.me.streams = [] → readS a s.me = .ok (x, c1) → gangMembers s.cur size.toNat = some ms → s.me.gang = none →
     (∀ k ∈ ms, (s.core k).lt.en = false ∧ (s.lease (rowId k)).ctx = s.me.act.ctx ∧ (s.lease (rowId k)).cur = s.me.act.lnch ∧
       (s.lease (rowId k)).st ≠ .free ∧ (s.lease (rowId k)).st ≠ .loading) →
     (s.me.reserved = none → (∀ k ∈ ms, k ≠ s.cur → (s.core k).gang = none ∧ ((s.core k).reserved = none ∨ (s.core k).reserved = some s.cur)) →
       ((∀ k ∈ ms, k ≠ s.cur → (s.core k).gangIdle = true) → s.me.settled = true → s.me.reads = [] →
         ∃ t, exec (.gang d a size) s = .next t ∧ t.cur = s.cur ∧ t.me.gang.map (fun g => (g.members, g.idx)) = some (ms, 0) ∧ t.me.ctl.mix = 0 ∧
           t.me.ctl.sts = 0 ∧ t.me.pc = s.me.succ s.me.pc ∧ (d ≠ 0 → t.me.regs.getS d = .full (BitVec.ofNat 64 ms.length)) ∧ t.me.mem = s.me.mem ∧
           (∀ k ∈ ms, k ≠ s.cur → (t.core k).gang.map (fun g => (g.members, g.idx)) = some (ms, ms.idxOf k) ∧ (t.core k).running = true ∧
             (t.core k).pc = s.me.succ s.me.pc ∧ (t.core k).regs = { Regs.reset with s := s.me.regs.s } ∧
             (t.core k).ctl.mix = BitVec.ofNat 64 (ms.idxOf k) ∧ (t.core k).ctl.mode = s.me.ctl.mode ∧ (t.core k).mem = (s.core k).mem)) ∧
       (∀ k ∈ ms, k ≠ s.cur → (s.core k).gangIdle = false → ∃ t, exec (.gang d a size) s = .next t ∧ t.me.wait = some .gang ∧ t.me.pc = s.me.pc ∧
         t.me.regs = s.me.regs ∧ ∀ j ∈ ms, (t.core j).reserved = some s.me.id)) ∧
     (∀ k ∈ ms, k ≠ s.cur → (s.core k).gang.isSome = true → s.me.gangWait = none → ∀ c', writeS d 0 ((freeS a c1).setSts .full) = .ok c' →
       exec (.gang d a size) s = done s c')) ∧
   (∀ (d : BitVec 6) (a : Src) (size : BitVec 2) (s : State), s.me.entry.getLsbD 61 = false →
     exec (.gang d a size) s = traps s 0x001 (encWord (.gang d a size)) 0 0) ∧
   (∀ s : State, s.me.gang = none → exec .disb s = done s s.me) ∧
   (∀ (s : State) (g : Gang), s.me.gang = some g → 1 < g.members.length → s.cur ∈ g.members → g.members.Nodup → (∀ k ∈ g.members, atBoundary (s.core k)) →
     (∀ k ∈ g.members, ∀ o ∈ (s.core k).ops, o.mates = []) →
     ∃ t, exec .disb s = .next t ∧ t.cur = s.cur ∧ t.me.gang = none ∧ t.me.running = s.me.running ∧ t.me.pc = s.me.succ s.me.pc ∧
       t.me.regs = s.me.regs ∧ t.me.mem = s.me.mem ∧ (∀ k ∈ g.members, (t.core k).closing.map (·.d) = (s.core k).closing.map (·.d) ++ [(s.core k).seg]) ∧
       (∀ k ∈ g.members, k ≠ s.cur → (t.core k).gang = none ∧ (t.core k).running = false))) ∧
  ((∀ (k : Nat) (s : State) (wt : GangWait) (d : BitVec 6) (a : Src) (size : BitVec 2), k < Config.nCores →
     let u := (s.focus k).caughtUp
     u.me.gangWait = some wt → u.me.atHead = .instr (.gang d a size) → u.me.streams = [] → (∃ x, readS a u.me = .ok x) →
     ((wt.members.filter (· != k)).all (fun j => (u.core j).gangIdle) = true → u.me.settled = true → k ∈ wt.members → wt.members.Nodup →
       ∃ w, exec (.gangForm k) s = .next (State.focus w s.cur) ∧ w.me.gang.map (fun g => (g.members, g.idx)) = some (wt.members, 0) ∧ w.me.gangWait = none ∧
         w.me.ctl.sts = 0 ∧ (d ≠ 0 → w.me.regs.getS d = .full (BitVec.ofNat 64 wt.members.length)) ∧ w.me.pc = u.me.succ u.me.pc ∧
         (∀ j ∈ wt.members, j ≠ k → (w.core j).running = true ∧ (w.core j).pc = u.me.succ u.me.pc ∧ (w.core j).regs.s = u.me.regs.s)) ∧
     (∀ j ∈ wt.members, j ≠ k → (u.core j).gangIdle = false → exec (.gangForm k) s = .next s) ∧
     (wt.limit ≠ 0 → wt.since + wt.limit ≤ u.me.clk → ∃ w, exec (.gangWaitTimeout k) s = .next (State.focus w s.cur) ∧ w.me.gangWait = none ∧ w.me.gang = u.me.gang ∧
       w.me.ctl.sts = 2 ∧ (d ≠ 0 → w.me.regs.getS d = .full 0) ∧ w.me.pc = u.me.succ u.me.pc) ∧
     (u.me.clk < wt.since + wt.limit → exec (.gangWaitTimeout k) s = .next s)) ∧
   (∀ (k : Nat) (s : State), k < Config.nCores →
     let u := (s.focus k).caughtUp
     (∀ m, u.ltIdle = true → u.me.ltCommitted = u.me.lt → u.me.lt.minBound = some m → u.me.minEvent = none ∨ (∃ t, u.me.minEvent = some t ∧ m ≤ t) → m < 2 ^ 64 → u.me.lt.a.toNat < m →
       ∃ w, exec (.idleAdvance k) s = .next (State.focus w s.cur) ∧ w.me.lt.a = BitVec.ofNat 64 m ∧ w.me.lt.ltc = u.me.lt.ltc ∧ w.me.mailbox = u.me.mailbox) ∧
     (∀ t, u.ltIdle = true → u.me.ltCommitted = u.me.lt → u.me.minEvent = some t → (∀ m, u.me.lt.minBound = some m → t ≤ m) → u.me.lt.a.toNat < t →
       ∃ w, exec (.idleAdvance k) s = .next (State.focus w s.cur) ∧ w.me.lt.a = BitVec.ofNat 64 t ∧ w.me.lt.ltc = u.me.lt.ltc ∧ w.me.mailbox = u.me.mailbox) ∧
     (u.ltIdle = false → exec (.idleAdvance k) s = .next s ∧ exec (.idleDripPeriod k) s = .next s) ∧
     (u.ltIdle = true → u.me.lt.dper ≠ 0 → exec (.idleDripPeriod k) s = .next (u.dripAll.focus s.cur) ∧
       (∀ j o, u.me.ltCommitted.outs = [(j, o)] → u.me.ltCommitted.a = u.me.lt.a → o.d.toNat < min (u.me.lt.a.toNat + o.look.toNat) (2 ^ 64 - 1) →
         ∃ p, u.dripAll.chan = u.chan ++ [p] ∧ p.src = k ∧ p.dst = o.peer ∧
           p.body = .drip u.me.act.ctx o.look (BitVec.ofNat 64 (min (u.me.lt.a.toNat + o.look.toNat) (2 ^ 64 - 1))))))) ∧
  -- an instruction of a gang in its members
  (∀ row ∈ wordRows, ∀ (d : BitVec 6) (a b : Src) (w : State) (ms : List Nat) (x y : Nat → W64) (c : Nat → Core), w.gangOf = ms → w.me.gang.isSome = true → w.cur ∈ ms →
     ms.Nodup → (∀ k ∈ ms, let q := w.core k
       q.running = true ∧ q.report = none ∧ q.irrev = none ∧ q.reads = [] ∧ q.streams = [] ∧ q.again = [] ∧ q.pc = w.me.pc) →
     ((∀ k ∈ ms, Reads2 d a b (w.core k) (x k) (y k) (c k)) →
       ∃ t, gangIssue (State.perform exec) (row.1 d a b) w = .next t ∧ t.cur = w.cur ∧ ∀ k ∈ ms, (t.core k).pc = w.me.succ w.me.pc ∧ (t.core k).wait = none ∧
         (d ≠ 0 → (t.core k).regs.getS d = .full (row.2 (x k) (y k))) ∧ (∀ j, j ≠ d → (t.core k).regs.getS j = (c k).regs.getS j) ∧
         (t.core k).ctl = (w.core k).ctl ∧ (t.core k).mem = (w.core k).mem) ∧
     ((∀ k ∈ ms, (w.core k).regs.getS d = .empty ∨ Reads2 d a b (w.core k) (x k) (y k) (c k)) → (∃ k ∈ ms, (w.core k).regs.getS d = .empty) →
       ∃ t, gangIssue (State.perform exec) (row.1 d a b) w = .next t ∧ t.me.wait = some .dest ∧ ∀ k ∈ ms, (t.core k).pc = w.me.pc ∧
         (t.core k).regs = (w.core k).regs ∧ (t.core k).mem = (w.core k).mem)) ∧
  (∀ (i : Instr) (w : State) (ms : List Nat), combines i = true → w.gangOf = ms → w.me.gang.isSome = true → w.cur ∈ ms → ms.Nodup →
     (∀ k ∈ ms, (w.core k).irrev = none ∧ (w.core k).again = [] ∧ (w.core k).streams = [] ∧ (w.core k).pc = w.me.pc) →
     (∀ k ∈ ms, (w.try1 (State.perform exec) i k).1 = .issues) →
     ∃ t, gangIssue (State.perform exec) i w = .next t ∧ ∀ k ∈ ms, ∃ u, exec i (w.focus k) = .next u ∧ (t.core k).regs = (u.core k).regs ∧ (t.core k).ctl = (u.core k).ctl) ∧
  (∀ (d : BitVec 5) (a : VSrc) (op : RedOp) (rm : Rnd) (t : Ty) (mk : VMask) (s : State) (ms : List Nat) (x : Nat → Line) (act : Nat → Nat) (c1 c2 : Nat → Core),
     t.isRedTy = true → redWide op = true → s.gangOf = ms → s.cur ∈ ms → ms.Nodup →
     (∀ k ∈ ms, destV d (s.core k) = .ok () ∧ readV a (s.core k) = .ok (x k, c1 k) ∧ activeLanes mk t.lanes (c1 k) = .ok (act k, c2 k)) →
     let lanes := ms.flatMap fun k => (List.range t.lanes).map fun i => if (act k).testBit i then some (laneAt (x k) t.width i) else none
     let r := redTree op t rm 12 (lanes.map fun y => y.getD (redIdentity op t))
     let ys := scanFrom op t rm none lanes
     (∃ v, (∀ i < t.lanes, laneAt v t.width i = if i = 0 then r.1 % 2 ^ t.width else 0) ∧
       floatEnd s r.2 (fun _ => True) (writeV d v) (freeV a (c2 s.cur)) (exec (.vredVx d a op rm t mk) s)) ∧
     (∃ v, (∀ i < t.lanes, laneAt v t.width i = ((ys[t.lanes * ms.idxOf s.cur + i]?).map fun y => y.1 % 2 ^ t.width).getD 0) ∧
       floatEnd s (ys.foldl (fun g y => g ||| y.2) 0) (fun _ => True) (writeV d v) (freeV a (c2 s.cur)) (exec (.vscanVx d a op rm t mk) s))) ∧
  -- fused operations, at one member
  (∀ (d : BitVec 6) (a b e : Src) (s : State) (x w : W64) (z : Option W64) (c1 c2 c3 : Core) (ms : List Nat), s.gangOf = ms → 1 < ms.length → s.cur ∈ ms →
     s.me.reads = [] → destS d s.me = .ok () → readS a s.me = .ok (x, c1) → readS b c1 = .ok (w, c2) →
     let mates := ms.zipIdx.map fun k => (k.1, if k.2 < ms.idxOf s.cur then (s.core k.1).engSeq else (s.core k.1).nextSeq)
     (readStamp c2 (w.getLsbD 24) e = .ok (z, c3) → w.getLsbD 23 = true →
       let r := RunCmd.of w
       let wt := s.me.fmtsAhead.1
       let cols := if ms.length = 8 then 4 else 2
       cmdMask w = 0 → suits wt r.ty = true → r.m * rowOut wt ≤ 32768 → r.row0 + r.m ≤ 256 → x.toNat % 16 = 0 →
       (∀ v, z = some v → v.toNat % 8 = 0 ∧ s.me.ownArray v 8 = true) → s.me.arrayRanges (actRanges x.toNat r) = true →
       ((∃ k ∈ ms, (s.core k).fenced = true) → exec (.prun d a b e) s = traps s 0x404 w 0 0) ∧
       ((∀ k ∈ ms, (s.core k).fenced = false) → s.me.pressQueue.length < 8 → lockConflict s.me.locks false (actRanges x.toNat r) = none →
         s.lockEntries (clusterOf s.cur) < 1024 →
         (ms.idxOf s.cur / cols + 1 = ms.length / cols → s.me.ringUsed + r.m * rowOut wt ≤ Config.ringCap) →
         ∃ o, OpOf s (.prun x.toNat w) (z.map (·.toNat)) o ∧ o.mates = mates ∧
           ∀ c', writeS d (BitVec.ofNat 64 s.me.nextSeq) (opIssued s (freeStamp z e (freeS b (freeS a c3))) o false (actRanges x.toNat r)) = .ok c' →
             exec (.prun d a b e) s = done s c')) ∧
     (readStamp c2 (w.getLsbD 5) e = .ok (z, c3) → w.getLsbD 4 = true → w.getLsbD 3 = false →
       w &&& 0xFFFFFFFFFFFFF0C0 = 0 → x.toNat % 64 = 0 → (∀ v, z = some v → v.toNat % 8 = 0 ∧ s.me.ownArray v 8 = true) →
       s.me.ownArray x 1024 = true → x.toNat % 65536 + 1024 ≤ 65536 → (∀ o ∈ s.me.ops, o.kind.sort?.isSome = true → o.st = .complete) →
       lockConflict s.me.locks true [(x.toNat, 1024)] = none → s.lockEntries (clusterOf s.cur) < 1024 → s.me.ringUsed + 1024 ≤ Config.ringCap →
       ∃ o g k, OpOf s (.gsort x.toNat w) (z.map (·.toNat)) o ∧ o.mates = mates ∧ g.st = .running ∧ g.gsz = Nat.log2 ms.length ∧ g.phase = 0 ∧
         g.total = 2 * Nat.log2 (8 * ms.length) + 2 ∧ g.base = x.toNat ∧
         ∀ c', writeS d (BitVec.ofNat 64 s.me.nextSeq)
             (opIssued s { (freeStamp z e (freeS b (freeS a c3))) with grinder := g, grind0 := k } o true [(x.toNat, 1024)]) = .ok c' →
           exec (.gsort d a b e) s = done s c'))

/-! ### Steps of the channels, of commits and of homes -/

/-- Release and landing (R67, R344, R346, R368): a waiting entry of the oldest closed segment leaves where a permit is free; at its target it is
staged and accepted, or refused and not staged; a packet seen before gets its recorded reply and is not performed again; the
acknowledgement marks the entry. A MIGR record for another package is refused with reason 5 (R434). A reply that does not come in time makes
the source send again, at most eight times (R344); after the eighth the source takes the packet as answered with an uncorrectable error (R355): an
entry takes back its segment and all later ones, a request or an abort notice the open segment, and a commit notice, whose stores no
rollback reaches, ends the context. Packets here are bound for this package, and no stored symbol of the memory that they
reach is upset.
The model's own readings or choices in this are those of log 47, 48, 50. -/
def Obligations.EntriesTravel : Prop :=
  (∀ (k : Nat) (s : State) (g : Seg) (gs : List Seg), k < Config.nCores →
    let u := (s.focus k).caughtUp
    u.me.closing = g :: gs → u.me.pubs = [] → ∃ (w : State) (out : List OutItem), exec (.releaseEntries k) s = .next (w.focus s.cur) ∧
      w.me.closing = { g with d := { g.d with out := out } } :: gs ∧ out.map (·.e) = g.d.out.map (·.e) ∧ w.me.mem = u.me.mem ∧
      (∀ (j : Nat) (i : OutItem) (t : Nat), g.d.out[j]? = some i → i.st = .waiting → entryTarget s.pkgid.toNat i.e = some t → u.permit t = true →
        (∀ j' < j, ∀ i' : OutItem, g.d.out[j']? = some i' → i'.st ≠ .waiting ∨ entryTarget s.pkgid.toNat i'.e = none) →
        out[j]? = some { i with st := .sent } ∧ ∃ p, w.chan[u.chan.length]? = some p ∧ p.src = k ∧ p.dst = t ∧ p.body = .entry g.d.id j i.e) ∧
      (∀ (j : Nat) (i : OutItem), g.d.out[j]? = some i → i.st ≠ .waiting → out[j]? = some i)) ∧
  (∀ (k : Nat) (s : State) (p : Packet) (seg idx : Nat) (e : OutEntry), s.chan[k]? = some p → p.body = .entry seg idx e → p.leaves = none →
    let answered := fun (b : Body → Prop) (staged : List Staged) => ∃ t q, exec (.landEntry k) s = .next t ∧ t.chan[k]? = some q ∧ q.src = p.src ∧
      q.dst = p.dst ∧ q.seq = p.seq ∧ b q.body ∧ t.staged = staged
    let accept := fun (spill : Option Nat) => answered (fun b => ∃ r, b = .ack seg idx true r) (s.staged ++ [⟨p.src, seg, p.dst, p.ctx, spill, false, e⟩])
    let refusal := fun (cause : Nat) (w7 : Option W64) => answered (fun b => ∃ r, b = .ack seg idx false r ∧ r.cause = cause ∧ ∀ v, w7 = some v → r.w7 = v) s.staged
    (∀ b, s.arrival p = .again b → exec (.landEntry k) s = .next { s with chan := lset s.chan k { p with body := b } }) ∧
    (s.arrival p = .stale → exec (.landEntry k) s = .next { s with chan := ldel s.chan k }) ∧
    (s.arrival p = .fresh →
      (∀ m die n, e = .launch m die n → accept none) ∧
      (∀ h dat mask tag a, e = .store h dat mask tag a → p.dst < 8192 ∨ s.bufferUsed p.dst < 4 * 2 ^ 20 → s.derr = [] →
        (s.landStore p.ctx h mask tag a = none → accept none) ∧ (∀ r, s.landStore p.ctx h mask tag a = some r → refusal r.cause none)) ∧
      (∀ m pkg core look, e = .msg m pkg core look → (s.core core).heldBank 15 = false →
        (s.fate core m look = .accept → s.replayHead (msgCtx m).toNat core = none → accept none) ∧
        (∀ pa, s.fate core m look = .spill → s.spillEntry (msgCtx m).toNat = some pa → s.bufferUsed (8192 + sliceOf pa) < 4 * 2 ^ 20 → accept (some pa)) ∧
        (∀ r, s.fate core m look = .refuse r → refusal 0x406 (some (BitVec.ofNat 64 r)))) ∧
      (∀ m pkg core, e = .migr m pkg core → (s.core core).heldBank 15 = false →
        (s.migrFate core m.hdr = .accept → s.replayHead (msgCtx m.hdr).toNat core = none → accept none) ∧
        (∀ r, s.migrFate core m.hdr = .refuse r → refusal 0x406 (some (BitVec.ofNat 64 r)))))) ∧
  (∀ (k : Nat) (s : State) (p : Packet) (seg idx : Nat) (r : MigrRec) (pkg core : Nat), s.chan[k]? = some p →
    p.body = .entry seg idx (.migr r pkg core) → p.leaves.isSome = true →
    ∃ t q rep, exec (.landEntry k) s = .next t ∧ t.chan[k]? = some q ∧ q.body = .ack seg idx false rep ∧ rep.cause = 0x406 ∧ rep.w7 = 5 ∧
      t.staged = s.staged) ∧
  (∀ (k : Nat) (s : State) (p : Packet) (seg idx : Nat) (r : Report) (g : Seg) (i : OutItem), s.chan[k]? = some p → p.body = .ack seg idx true r → p.leaves = none →
    (s.core p.src).closing.find? (fun g => g.d.id == seg) = some g → g.d.out[idx]? = some i →
    ∃ t, exec (.entryAck k) s = .next t ∧ t.chan = ldel s.chan k ∧
      (t.core p.src).closing = (s.core p.src).closing.map fun h => if h.d.id = seg then { h with d := h.d.setItem idx .accepted } else h) ∧
  (∀ (k : Nat) (s : State) (p : Packet) (seg : Nat), s.chan[k]? = some p → p.body = .abort seg → p.leaves = none → s.arrival p = .fresh →
    ∃ t, exec (.abortNoticeServe k) s = .next t ∧
    t.staged = s.staged.filter (fun g => !(g.src == p.src && g.seg == seg && g.dst == p.dst)) ∧ t.me = s.me ∧ t.dram = s.dram) ∧
  (∀ (k : Nat) (s : State) (p : Packet), s.chan[k]? = some p → p.body.numbered = true → p.src < nodeSpan → p.body.polls = false →
    (s.gt < p.since + p.patience → exec (.retransmitTimeout k) s = .next s) ∧
    (p.since + p.patience ≤ s.gt →
      (p.tries < 8 → ∃ t, exec (.retransmitTimeout k) s = .next t ∧ t.me = s.me ∧ t.others = s.others ∧ t.staged = s.staged ∧
        (p.body.isReply = false → t.chan.getLast? = some { p with tries := p.tries + 1, since := s.gt, away := false }) ∧
        ∀ q ∈ t.chan, q.same p = true → q.tries = p.tries + 1) ∧
      (8 ≤ p.tries → ∀ seg, p.body = .abort seg → (s.core p.src).running = false → ∃ t, exec (.retransmitTimeout k) s = .next t ∧
        t.chan = s.chan.filter (fun q => !q.same p) ∧ t.staged = s.staged) ∧
      (8 ≤ p.tries →
        let u := ({ s with chan := s.chan.filter fun q => !q.same p } : State).focus p.src
        let back := fun (n : Nat) (head a : W64) => exec (.retransmitTimeout k) s =
          .next ((u.takeBack n ⟨0x501, 2, head, a, 2, 0, u.me.clk, u.gt⟩).focus s.cur)
        (∀ seg idx e g, p.body = .entry seg idx e → u.me.closing.find? (fun g => g.d.id == seg) = some g → back (u.me.closedFrom seg) g.closer p.body.address) ∧
        (∀ seg idx e, p.body = .entry seg idx e → u.me.closing.find? (fun g => g.d.id == seg) = none → exec (.retransmitTimeout k) s = .next (u.focus s.cur)) ∧
        (∀ id d q r, p.body = .request id d q → u.me.reads.find? (fun x => x.id == id) = some r → back 0 r.pc (((r.addrs.head?).map (·.2)).getD 0)) ∧
        (∀ id d q, p.body = .request id d q → u.me.reads.find? (fun x => x.id == id) = none → u.me.irrev = some (.sent id) → back 0 u.me.pc p.body.address) ∧
        (∀ seg, p.body = .abort seg → u.me.running = true → u.me.act.ctx = p.ctx → back 0 u.me.pc 0) ∧
        (∀ seg, p.body = .notice seg → ∃ t, exec (.retransmitTimeout k) s = .next t ∧
          t = ({ s with chan := s.chan.filter fun q => !q.same p } : State).killFor p.src p.ctx 0 2 ∧ (t.ctx p.ctx.toNat).state = 5)))) ∧
  (∀ (k : Nat) (s : State) (p : Packet) (ctx : BitVec 8) (look : BitVec 48) (v : W64), s.chan[k]? = some p → p.body = .drip ctx look v → p.leaves = none →
    ∃ t, exec (.dripLand k) s = .next t ∧ t.chan = ldel s.chan k ∧
      (t.core p.dst).lt = (if s.curCtx (clusterOf p.dst) = some ctx.toNat then
        (let lt := (s.core p.dst).lt
         if lt.ins.any (fun x => x.2.peer == p.src && x.2.look == look) then
           { lt with ins := lt.ins.map fun x => if x.2.peer = p.src ∧ x.2.look = look then (x.1, { x.2 with b := if x.2.b.toNat < v.toNat then v else x.2.b }) else x }
         else { lt with lerr := true }) else (s.core p.dst).lt))

/-- Commit and publication (R68 to R70): a segment commits when its entries are accepted and W has passed, the oldest first; its checkpoint is
then confirmed. A commit notice makes the staged entries of the segment visible at its target and is acknowledged; the operation
leaves the core when every target has answered and no read awaits a line of another package to which it stored (log 66); what a segment
holds stays closed until then (R184).
The model's own readings or choices in this are those of log 49, 66. -/
def Obligations.SegmentsCommit : Prop :=
  (∀ (k : Nat) (s : State) (g : Seg) (gs : List Seg), k < Config.nCores →
    let u := (s.focus k).caughtUp
    u.rollBad = none → u.me.closing = g :: gs → g.mates = [] →
    (u.mayCommit u.cur = false → exec (.commit k) s = .next s) ∧
    (u.mayCommit u.cur = true → g.atCommit = .nothing → ∃ w : State, exec (.commit k) s = .next (w.focus s.cur) ∧ w.me.closing.map (·.d.id) = gs.map (·.d.id) ∧
      w.me.confirmed = g.ckpt ∧ w.me.mem = u.me.mem ∧ w.me.regs = u.me.regs ∧
      (∀ t ∈ g.d.targets u.pkgid.toNat, ∃ p ∈ w.chan, p.src = k ∧ p.dst = t ∧ p.body = .notice g.d.id) ∧
      (let bare := g.d.targets u.pkgid.toNat = [] ∧ (u.me.pubs = [] ∨ g.d.holds = [] ∧ g.d.hbanks = [])
       (bare → w.me.pubs = u.me.pubs) ∧ (¬bare → w.me.pubs.map (·.d.id) = u.me.pubs.map (·.d.id) ++ [g.d.id])))) ∧
  (∀ (s : State) (k : Nat) (g : Seg) (gs : List Seg), (s.core k).closing = g :: gs → s.mayCommit k = true →
    (∀ i ∈ g.d.out, i.st = .accepted ∨ entryTarget s.pkgid.toNat i.e = none) ∧
    (g.d.out ≠ [] ∨ g.d.lines ≠ [] → g.closedAt + Config.W ≤ (s.core k).clk)) ∧
  (∀ (k : Nat) (s : State) (p : Packet) (seg : Nat), s.chan[k]? = some p → p.body = .notice seg → p.leaves = none → s.arrival p = .fresh → s.derr = [] →
    let mine := fun (g : Staged) => g.src == p.src && g.seg == seg && g.dst == p.dst
    (∀ g ∈ s.staged, mine g = true → s.storeHeld g = true → exec (.commitNoticeServe k) s = .next s) ∧
    (∀ g, s.staged.filter mine = [g] → s.storeHeld g = false →
      (∀ pa dat mask tag a, g.e = .store (.dev pa) dat mask tag a → pa < 2 ^ 55 → s.dram.wf = true → ∃ t q, exec (.commitNoticeServe k) s = .next t ∧
        t.staged = s.staged.filter (fun g => !mine g) ∧ t.chan[k]? = some q ∧ q.body = .noticeAck seg p.dst ∧
        (∀ i < 64, Mem.byte t.dram (pa + i) = if mask.getLsbD i then dat.extractLsb' (8 * i) 8 else Mem.byte s.dram (pa + i)) ∧
        (∀ j, j < pa ∨ pa + 64 ≤ j → Mem.byte t.dram j = Mem.byte s.dram j)) ∧
      (∀ m pkg c look, g.e = .msg m pkg c look → g.spill = none → g.late = false → isStamped m = false → isWake m = false → ∃ t q, exec (.commitNoticeServe k) s = .next t ∧
        t.staged = s.staged.filter (fun g => !mine g) ∧ t.chan[k]? = some q ∧ q.body = .noticeAck seg p.dst ∧
        (t.core c).mailbox = (s.core c).mailbox ++ [⟨m, none, false, s.gt⟩]))) ∧
  (∀ (k : Nat) (s : State) (g : Seg) (gs : List Seg), k < Config.nCores →
    let u := (s.focus k).caughtUp
    u.me.pubs = g :: gs → (g.waiting.all (u.acked u.cur g.d.id) = true → u.farAwaited g.d = false → ∃ w : State, exec (.commitComplete k) s = .next (w.focus s.cur) ∧ w.me.pubs = gs ∧
      w.me.closing = u.me.closing ∧ w.me.mem = u.me.mem ∧ w.me.regs = u.me.regs) ∧
    (g.waiting.all (u.acked u.cur g.d.id) = false ∨ u.farAwaited g.d = true → exec (.commitComplete k) s = .next s))

/-- Requests at their homes (R138, R183, R187): a word of device memory is served in one step and the reply takes the packet's place, a
condition that does not hold leaves everything; a waiting WAITM is tested again by the same step. The reply completes the access: d
receives the value and the head goes on (R76, R187). Long-latency results arrive (R55); a walk fills the core's table and the cluster's (R350, R352).
The model's own readings or choices in this are those of log 38. -/
def Obligations.HomesServe : Prop :=
  (let served := fun (s : State) (p : Packet) (k id d : Nat) (pa : Nat) (a : W64) (op : WordOp) (tag : BitVec 4) (mode : W64) (o : Out) =>
      s.physTrap pa op.size tag a = none → pa < 2 ^ 55 → s.derr = [] →
      (∀ v f, op.run a (natOf (Mem.bytes s.dram pa op.size)) mode = .ok none v f → ∃ t q, o = .next t ∧ t.chan[k]? = some q ∧ q.src = p.src ∧
        q.body = .reply id d (.val v none none f) ∧ t.dram = s.dram) ∧
      (∀ x v f, op.run a (natOf (Mem.bytes s.dram pa op.size)) mode = .ok (some x) v f → ∃ t q, o = .next t ∧ t.chan[k]? = some q ∧ q.src = p.src ∧
        q.body = .reply id d (.val v none none f) ∧ t.dram = Mem.put s.dram pa (bytesOf x op.size)) ∧
      (op.run a (natOf (Mem.bytes s.dram pa op.size)) mode = .poll → o = .next s)
   ∀ (k : Nat) (s : State) (p : Packet) (id d pa : Nat) (a : W64) (op : WordOp) (tag : BitVec 4) (mode : W64), s.chan[k]? = some p →
     p.body = .request id d (.word (.dev pa) a op tag mode) → p.leaves = none → s.arrival p = .fresh →
     served s p k id d pa a op tag mode (exec (.requestServe k) s) ∧
     (∀ c, c < Config.nCores → s.chan.findIdx? (Packet.waitsFor c) = some k → served s p k id d pa a op tag mode (exec (.waitmRetest c) s))) ∧
  (∀ (k : Nat) (s : State) (p : Packet) (id d pa : Nat) (tag : BitVec 4), s.chan[k]? = some p → p.body = .request id d (.read (.dev pa) tag) →
    p.leaves = none → s.derr = [] → s.arrival p = .fresh → s.physTrap pa 64 tag 0 = none → pa < 2 ^ 55 → ∃ t q, exec (.requestServe k) s = .next t ∧ t.chan[k]? = some q ∧
      q.body = .reply id d (.line (.dev pa) (lineOf (Mem.bytes s.dram pa 64))) ∧ t.dram = s.dram) ∧
  (∀ (k : Nat) (s : State) (p : Packet) (id d : Nat) (v : W64) (f : Fl), s.chan[k]? = some p → p.body = .reply id d (.val v none none f) → p.leaves = none → d < 64 →
    (s.core p.src).reads = [] → (s.core p.src).irrev = some (.sent id) → (s.core p.src).streams = [] →
    ∃ t, exec (.replyArrival k) s = .next t ∧ t.chan = ldel s.chan k ∧ (t.core p.src).irrev = none ∧ (t.core p.src).wait = none ∧
      (t.core p.src).pc = (s.core p.src).succ (s.core p.src).pc ∧ (t.core p.src).ctl.flg = (s.core p.src).ctl.flg ||| f.setWidth 64 ∧
      (d ≠ 0 → (t.core p.src).regs.getS (BitVec.ofNat 6 d) = .full v) ∧ (t.core p.src).rcache = [] ∧ (t.core p.src).mem = (s.core p.src).mem) ∧
  (∀ (k j : Nat) (s : State) (r : Pend), k < Config.nCores →
    let u := (s.focus k).caughtUp
    u.me.pend[j]? = some r → u.me.streams = [] → r.d < 64 → ∃ w : State, exec (.resultDelivery k j) s = .next (w.focus s.cur) ∧ w.me.pend = ldel u.me.pend j ∧
      (r.d ≠ 0 → w.me.regs.getS (BitVec.ofNat 6 r.d) = .full r.val) ∧ w.me.pc = u.me.pc ∧ w.me.mem = u.me.mem) ∧
  (∀ (k : Nat) (va : W64) (s : State) (pa : Nat), k < Config.nCores →
    let u := (s.focus k).caughtUp
    u.derr = [] → u.translate u.me.act.ctx.toNat va false = .ok pa → u.me.tlb.length ≤ 64 → ∃ w : State, exec (.pageWalk k va) s = .next (w.focus s.cur) ∧
      w.me.tlb.length ≤ 64 ∧ (∃ wr, w.me.tlb.getLast? = some (bits va 55 21, pa / 2 ^ 21, wr) ∧ w.tables.getLast? = some ⟨clusterOf k, u.me.act.ctx, bits va 55 21, pa / 2 ^ 21, wr⟩) ∧
      w.me.regs = u.me.regs ∧ w.me.mem = u.me.mem)

/-! ### What a core takes up, budgets, strikes -/

/-- The choice of a message outside local-time mode (R357): the first of the highest priority present, unless that priority was taken 64 times
in a row. Dispatch (R52, R53, R356): the message or task leaves its place and the activation starts at its handler with words 0 to 7 in s1
to s8, vacant registers elsewhere and zero status; a parked activation resumes where it waited; a message without an entry retires.
A steal takes the victim's topmost record (R361); a missed attempt goes on with the next victim.
Parking (R358): a core whose WAITM or BARW has polled long enough stores the activation in a park slot and is idle; the watched
word's condition makes the slot ready. A standing report is settled (R279, R286); the notices of a full ring follow when it has room. BUD
at zero takes back the open segment and reports BUDGET with the ceiling (R77).
That the message leaves the mailbox at dispatch, and not when END's segment commits and retires it (R78), is log 66's choice; that each step takes
the core's clk is log 2's. -/
def Obligations.CoresTakeWork : Prop :=
  (let started := fun (s : State) (u w : State) (m : Msg) (o : Out) =>
     let e := u.me.handler (bits (m.toList.getD 0 0) 47 38)
     o = .next (w.focus s.cur) ∧ w.me.running = true ∧ w.me.act.trig = m ∧ w.me.act.ctx = (m.toList.getD 0 0).extractLsb' 56 8 ∧
     w.me.act.lnch = (m.toList.getD 0 0).extractLsb' 48 8 ∧ w.me.pc = BitVec.ofNat 64 (64 * bits e.2 8 0) ∧
     (∀ j < 8, w.me.regs.getS (BitVec.ofNat 6 (j + 1)) = .full (m.toList.getD j 0)) ∧ (∀ j < 64, 9 ≤ j → w.me.regs.getS (BitVec.ofNat 6 j) = .vacant) ∧
     (∀ j < 32, w.me.regs.getV (BitVec.ofNat 5 j) = .vacant) ∧ w.me.ctl.tid = m.toList.getD 1 0 ∧ w.me.ctl.wid = m.toList.getD 2 0 ∧
     w.me.ctl.msg = m.toList.getD 0 0 ∧ w.me.ctl.flg = 0 ∧ w.me.ctl.sts = 0 ∧ w.me.ctl.mode = 0 ∧ w.me.mem = u.me.mem
   (∀ (c : Core) (mine : Msg → Bool) (k : Nat) (n : Nat × Nat × Nat), c.lt.en = false → (∀ h < 3, prioGet c.prio h < 64) → c.offer mine = some (k, n) →
     ∃ i, c.mailbox[k]? = some i ∧ mine i.msg = true ∧
       (∀ j x, c.mailbox[j]? = some x → mine x.msg = true → priOf i.msg ≤ priOf x.msg ∧ (priOf x.msg = priOf i.msg → k ≤ j))) ∧
   (∀ (k : Nat) (s : State), k < Config.nCores →
     let u := (s.focus k).caughtUp
     let l := u.lease (rowId k)
     let mine := fun (m : Msg) => msgCtx m == l.ctx && msgLnch m == l.cur
     (∀ p, u.resumeChoice = none → u.readyPark = some p → u.mayDispatch p.saved.act.ctx.toNat .parked p.saved.act.trig p.saved.ctl.tid = true →
       (u.ctx p.saved.act.ctx.toNat).recording = false → u.me.gang = none → ∃ w, exec (.dispatch k) s = .next (State.focus w s.cur) ∧ w.me.running = true ∧
         w.me.regs = p.saved.regs ∧ w.me.pc = p.saved.pc ∧ w.me.ctl = p.saved.ctl ∧ w.me.parks = u.me.parks.filter (fun q => q.saved.act.no != p.saved.act.no) ∧
         w.me.mem = u.me.mem) ∧
     (u.resumeChoice = none → u.readyPark = none → u.canStart = true →
       (∀ j n i, u.me.offer mine = some (j, n) → u.me.mailbox[j]? = some i → u.mayDispatch (msgCtx i.msg).toNat .mailbox i.msg 0 = true →
         (u.me.refuses i.msg = false → i.migr = none → (u.ctx (msgCtx i.msg).toNat).recording = false →
           ∃ w, started s u w i.msg (exec (.dispatch k) s) ∧ w.me.mailbox = ldel u.me.mailbox j) ∧
         (u.me.refuses i.msg = true → ∃ w, exec (.dispatch k) s = .next (State.focus w s.cur) ∧ w.me.running = u.me.running ∧ w.me.mailbox = ldel u.me.mailbox j ∧
           w.me.regs = u.me.regs)) ∧
       (∀ j r, u.me.offer mine = none → u.me.bottom l.ctx l.cur = some (j, r) → u.mayDispatch (msgCtx r.msg).toNat .deque r.msg (r.msg.toList.getD 1 0) = true →
         u.me.refuses r.msg = false → (u.ctx (msgCtx r.msg).toNat).recording = false →
         ∃ w, started s u w r.msg (exec (.dispatch k) s) ∧ w.me.deque = ldel u.me.deque j) ∧
       (u.me.offer mine = none → u.me.bottom l.ctx l.cur = none → exec (.dispatch k) s = .next s))) ∧
   (∀ (k v : Nat) (s : State), k < Config.nCores → v < Config.nCores → v ≠ k →
     let u := (s.focus k).caughtUp
     let l := u.lease (rowId k)
     u.canSteal = true → (u.searchOrder l)[u.me.victims]? = some v →
     (∀ j r, u.qualifies v l = true → (u.core v).top l.ctx l.cur = some (j, r) → u.mayDispatch l.ctx.toNat .steal r.msg (r.msg.toList.getD 1 0) = true →
       u.me.refuses r.msg = false → (u.ctx (msgCtx r.msg).toNat).recording = false →
       ∃ w, started s u w r.msg (exec (.stealAttempt k v) s) ∧ (w.core v).deque = ldel (u.core v).deque j ∧ w.me.deque = u.me.deque) ∧
     (u.qualifies v l = false → ∃ w, exec (.stealAttempt k v) s = .next (State.focus w s.cur) ∧ w.me.running = u.me.running ∧ w.me.deque = u.me.deque ∧
       (u.me.victims + 1 < (u.searchOrder l).length → w.me.victims = u.me.victims + 1 ∧ w.me.stealWait = u.me.stealWait) ∧
       ((u.searchOrder l).length ≤ u.me.victims + 1 → w.me.victims = 0 ∧ w.me.stealWait = u.me.clk + 256))) ∧
   (∀ (k : Nat) (s : State), k < Config.nCores →
     let u := (s.focus k).caughtUp
     (u.me.stealWait ≠ 0 → u.me.stealWait ≤ u.me.clk → exec (.stealWaitExpiry k) s = .next (({ u with me := { u.me with stealWait := 0 } } : State).focus s.cur)) ∧
     (u.me.clk < u.me.stealWait → exec (.stealWaitExpiry k) s = .next s))) ∧
  ((∀ (k : Nat) (s : State), k < Config.nCores →
     let u := (s.focus k).caughtUp
     let c := u.me.unasked
     (∀ h op, u.me.running = true → u.me.held? = false → u.me.gang = none → Config.parkAfter ≤ u.me.spin → u.me.parks.length < Config.parkSlots → u.me.report = none →
       ({ u with me := c } : State).watched = some (h, op) → atBoundary c → ∃ w p, exec (.park k) s = .next (State.focus w s.cur) ∧ w.me.running = false ∧
         w.me.parks = u.me.parks ++ [p] ∧ p.saved.regs = c.regs ∧ p.saved.pc = u.me.pc ∧ p.saved.ctl = u.me.ctl ∧ p.watch = h ∧ p.op = op ∧ p.ready = false ∧
         w.me.closing.map (·.d) = u.me.closing.map (·.d) ++ [u.me.seg] ∧ w.me.regs = Regs.reset ∧ w.me.mem = u.me.mem) ∧
     (u.me.spin < Config.parkAfter → exec (.park k) s = .next s) ∧
     (∀ j p, u.me.parks[j]? = some p →
       (p.watch.isFar = false → p.op.run 0 (u.homeNat p.watch p.op.size) 0 = .poll → exec (.watchReady k j) s = .next s) ∧
       (p.op.run 0 (u.homeNat p.watch p.op.size) 0 ≠ .poll →
         exec (.watchReady k j) s = .next (({ u with me := { u.me with parks := lset u.me.parks j { p with ready := true } } } : State).focus s.cur))) ∧
     (u.me.report.isSome = true → exec (.trapHandlerDispatch k) s = .next (u.settle.focus s.cur)) ∧
     (u.me.report = none → exec (.trapHandlerDispatch k) s = .next s) ∧
     (∀ n pa v, aget u.notices (clusterOf k) = some [n] → n.late = false → u.me.traceOut = [] → u.me.report = none → u.trapRing n.ctx.toNat = some pa →
       u.ringPut pa (u.ctx n.ctx.toNat).rsize 64 n.words = some v →
       let x : State := (n.lnch.map fun l => v.noteErr n.ctx l n.cls).getD v
       exec (.trapRingResume k) s = .next (({ x with notices := adel x.notices (clusterOf k) } : State).focus s.cur)) ∧
     (u.me.running = true → u.me.ctl.bud = 0 → u.me.gang = none → u.me.report = none → u.asked k = false → u.me.halted = none → u.me.closing = [] →
       u.me.reads = [] →
       let x : State := { u with chan := u.chan.filter fun p => !p.waitsFor k }
       exec (.budgetExhausted k) s = .next ((x.takeBack 0 ⟨0x401, 2, u.me.pc, BitVec.ofNat 64 (bits u.me.entry 31 0), 0, 0, u.me.clk, u.gt⟩).focus s.cur)) ∧
     (u.me.ctl.bud ≠ 0 → exec (.budgetExhausted k) s = .next s)))

/-- Rollback (R72) gives the core the checkpoint before the segments that go, an empty open segment and no result on its way. Whatever the undo
logs of those segments and the pre-images of their engine operations hold, each byte of own memory that one of them saved takes the value of the
oldest that saved it, and every other byte stays; a weak write that comes before the rollback makes no difference to what memory then is.
An activation whose dispatch state the rollback meets is discarded and its message goes back to the front of the mailbox, the earlier one before
the later ones, whether the segments that go reach back across an END to an activation that resumes (R73) or not (R74); a task's record goes
back to the top of the deque.
A strike is only registered when it hits (R335); its report takes each present core of the row back to the newest checkpoint that is W old (R336),
across committed segments too. The scrubber counts corrected errors of device memory and poisons what it cannot correct (R354).
The model's own readings or choices in this are those of log 16, 17, 18, 49 and 66: what a report goes back across (log 49), and that a line that the
segment only read counts as committed data (log 66). -/
def Obligations.RollbacksAndStrikes : Prop :=
  (∀ (s : State) (i : Nat) (keep : Bool), i ≤ s.me.closing.length →
    let k := s.me.pointBefore i
    let t := s.rollBack i keep
    k.running = true → (k.act.fresh = false ∨ keep = true ∧ k.act.origin ≠ .follower) →
    t.me.running = true ∧ t.me.regs = k.regs ∧ t.me.pc = k.pc ∧ t.me.act = k.act ∧ t.me.mseq = k.mseq ∧ t.me.tseq = k.tseq ∧ t.me.frame = k.frame ∧
    t.me.ctl = { k.ctl with bud := s.me.budOf k } ∧ t.me.closing.map (·.d.id) = (s.me.closing.take i).map (·.d.id) ∧
    t.me.seg = SegData.new s.me.seg.id ∧ t.me.pend = [] ∧ t.me.reads = [] ∧ t.me.irrev = none) ∧
  (∀ (s : State) (a : Nat) (bs : List Byte), s.me.closing = [] → s.me.seg.undo = [] → s.me.seg.lines = [] → s.me.ring = [] → s.me.ops = [] →
    s.me.mem.wf = true → bs ≠ [] → a + bs.length ≤ 917504 → Owned s.me a bs.length →
    let t := ({ s with me := s.me.ownWrite a bs } : State).rollBack 0 true
    ∀ j, Mem.byte t.me.mem j = Mem.byte s.me.mem j) ∧
  -- own memory, for any logs
  (∀ (s : State) (i : Nat) (keep : Bool), i ≤ s.me.closing.length → s.me.mem.wf = true →
    let gone := undone s.me s.cur (firstGone s.me i)
    (∀ x ∈ gone, ∀ b img cells ps, x.2 = .inl (.bank b img cells ps) → cells.wf = true) →
    let t := s.rollBack i keep
    ∀ a, (∀ x ∈ gone, ∀ v, savedByte a x.2 = some v → (∀ y ∈ gone, savedByte a y.2 ≠ none → x.1 < y.1 ∨ y = x) → Mem.byte t.me.mem a = v) ∧
      ((∀ x ∈ gone, savedByte a x.2 = none) → Mem.byte t.me.mem a = Mem.byte s.me.mem a)) ∧
  (∀ (s : State) (i : Nat) (keep : Bool) (a : Nat) (bs : List Byte), i ≤ s.me.closing.length → s.me.mem.wf = true → bs ≠ [] → Owned s.me a bs.length →
    let gone := undone s.me s.cur (firstGone s.me i)
    firstGone s.me i ≤ s.me.seg.id → (∀ x ∈ gone, x.1 < s.me.nord) →
    (∀ x ∈ gone, ∀ b img cells ps, x.2 = .inl (.bank b img cells ps) → cells.wf = true) →
    (∀ n ∈ s.me.seg.lines, n < 16384 → ∃ u ∈ s.me.seg.undo, ∀ j, j / 64 = n → savedByte j (.inl u.what) ≠ none) →
    ∀ j, Mem.byte (({ s with me := s.me.ownWrite a bs } : State).rollBack i keep).me.mem j = Mem.byte (s.rollBack i keep).me.mem j) ∧
  -- messages and tasks of activations that go
  (∀ (s : State) (i : Nat), i ≤ s.me.closing.length →
    let k := s.me.pointBefore i
    let starts := (if k.running && k.act.fresh then [k] else []) ++ ((s.me.closing.drop i).map (·.ckpt)).filter (fun x => x.running && x.act.fresh)
    let t := s.rollBack i false
    (∀ d ∈ s.me.uncommitted, ∀ u ∈ d.undo, ∀ b img cells ps, u.what = .bank b img cells ps → b < 14) →
    ((∀ x ∈ starts, x.act.origin = .mailbox ∧ x.act.parked = false ∧ (s.me.bank 15).owner = x.act.ctx) →
      t.me.mailbox = starts.map (fun x => ⟨x.act.trig, none, x.act.rel, x.act.born⟩) ++ s.me.mailbox) ∧
    (∀ x, starts = [x] → x.act.origin = .deque ∨ x.act.origin = .steal → x.act.parked = false → (s.me.bank 14).owner = x.act.ctx →
      t.me.deque = s.me.deque.filter (fun r => (r.seg.map fun g => !decide (firstGone s.me i ≤ g)).getD true) ++ [⟨x.act.trig, none, x.act.born, x.act.other⟩]) ∧
    (k.running = true → k.act.fresh = true → t.me.running = false ∧ t.me.regs = Regs.reset ∧ t.me.streams = [] ∧ t.me.frame = none) ∧
    (k.running = true → k.act.fresh = false → t.me.running = true ∧ t.me.act = k.act ∧ t.me.regs = k.regs ∧ t.me.pc = k.pc)) ∧
  (∀ (cl rg : Nat) (s : State), cl < Config.nClusters → rg < 9 →
    exec (.strike cl rg) s = .next { s with strikes := s.strikes ++ [(cl, rg, (regionCores cl rg).map fun k => (k, (s.focus k).caughtUp.me.clk))] }) ∧
  (∀ (j cl rg : Nat) (l : List (Nat × Nat)) (s : State), s.strikes[j]? = some (cl, rg, l) → rg < 8 →
    s.pours = [] → s.me.ops = [] → (∀ x ∈ s.others, x.2.ops = []) →
    let ks := (regionCores cl rg).filter s.cores.contains
    (∀ c ∈ ks, (s.core c).gang = none ∧ (∀ g ∈ (s.core c).closing, g.mates = []) ∧ ∀ id, (s.core c).irrev ≠ some (.sent id)) →
    ∃ t, exec (.strikeReport j) s = .next t ∧ t.strikes = ldel s.strikes j ∧ ∀ c ∈ ks,
      let u := (s.focus c).caughtUp.me
      ∀ k, u.points[u.points.length - 1 - u.depth]? = some k → k.running = true → k.act.fresh = false →
        (t.core c).running = true ∧ (t.core c).regs = k.regs ∧ (t.core c).pc = k.pc ∧ (t.core c).act = k.act ∧ (t.core c).report = none ∧
        (u.depth ≤ u.closing.length → (t.core c).closing.map (·.d.id) = (u.closing.take (u.closing.length - u.depth)).map (·.d.id)) ∧
        (u.closing.length ≤ u.depth → (t.core c).closing = [])) ∧
  (∀ (x : ScrubTarget) (s : State), scrubbable x = true → (∀ pa, x = .sector pa → aget s.derr (pa / 64) = none) →
    exec (.scrub x .clean) s = .next s ∧
    (∀ pa, x = .sector pa → exec (.scrub x .correctable) s = .next { s with corrected := aset s.corrected (sliceOf pa) (anat s.corrected (sliceOf pa) + 1) }) ∧
    (∀ e, e = .uncorrectable ∨ e = .misdirected → ∃ t, exec (.scrub x e) s = .next t ∧
      (∀ pa, x = .sector pa → s.sectorOwner pa = none → t.dpois.contains (pa / 64) = true) ∧
      (∀ k n, x = .line k n → (s.core k).wroteLine n false = true → (t.core k).poison.contains n = true)))

/-! ### Steps of the engines -/

/-- The turns of the Press queue (R229 to R231, R237, R238): a PLOAD fills the shadow plane, a PSWAP exchanges the planes, a PTEST and every run
make the self-test, which passes as the machine's stored answer decides (log 22), and whose failure fences the Press; a run writes its rows of the accumulator, each element through the K-block of the
active plane. A slice of the Grinder rearranges the tile's pairs (R243, R244).
Completion (R222): a finished operation of a committed segment releases its locks, writes its number to its stamp and leaves the
in-flight list; while the stamp's line is held its locks are released and it keeps its place. Its pre-images are freed W later (R224).
The model's own readings or choices in this are those of log 22 and 33. -/
def Obligations.EngineSteps : Prop :=
  ((∀ (k : Nat) (s : State) (o : EngOp), k < Config.nCores →
     let u := (s.focus k).caughtUp
     u.me.frozen = false → u.me.turn = some o → o.redo = false → (o.kind ≠ .pswap → ∀ p ∈ u.me.ops, p.seq = o.seq → p = o) →
     let finished := fun (w : State) (failed : Bool) => ∃ p, w.me.op? o.seq = some p ∧ p.st = .finished ∧ p.failed = failed ∧ p.kind = o.kind
     (∀ a d, o.kind = .pload a d →
       let c := u.me.claimAll o.ctx a (loadBytes d)
       firstPoison c [(a, loadBytes d)] = none → ∃ w, exec (.ploadExecute k) s = .next (State.focus w s.cur) ∧ w.me.active = u.me.active ∧
         w.me.shadow = ⟨tyOf (d.setWidth 8), d.getLsbD 5, Mem.bytes c.mem a (loadBytes d), false⟩ ∧ w.me.regs = u.me.regs ∧ w.me.acc = u.me.acc ∧ finished w false) ∧
     (o.kind = .pswap → ∃ w, exec (.pswapExecute k) s = .next (State.focus w s.cur) ∧ w.me.active = u.me.shadow ∧ w.me.shadow = u.me.active ∧
       w.me.ops = u.me.ops.map (fun p => if p.ord = o.ord then { p with st := .complete, doneAt := u.me.clk } else p) ∧ w.me.acc = u.me.acc ∧ w.me.mem = u.me.mem) ∧
     (o.kind = .ptest → ∃ w, exec (.ptestFinish k) s = .next (State.focus w s.cur) ∧ w.me.fenced = (u.me.fenced || !Config.selfTestPasses u.nchoice) ∧
       w.nchoice = u.nchoice + 1 ∧ w.me.acc = u.me.acc ∧ finished w false) ∧
     (∀ a d, o.kind = .prun a d → o.mates = [] → o.row = 0 →
       let r := RunCmd.of d
       let wt := u.me.active.fmt
       let b := accBytes wt
       let v := u.claimRun [(k, o)]
       (tileOf wt).isSome = true → r.row0 + r.m ≤ 256 → v.runPoison [(k, o)] = none → u.me.active.poison = false → u.me.fenced = false → u.me.acc.wf = true →
       (∀ i < r.m, (aget u.me.accOwner (r.row0 + i)).getD 0 = o.ctx) → u.me.opCommitted o = true →
       ∃ w, exec (.prunFinish k) s = .next (State.focus w s.cur) ∧ w.me.fenced = !Config.selfTestPasses u.nchoice ∧ finished w false ∧
         (∀ i j, i < r.m → j < (tileFor wt).n → Mem.nat w.me.acc (256 * (r.row0 + i) + b * j) b =
           ((v.blockOf (k, o)).step i j (if r.acc then Mem.nat u.me.acc (256 * (r.row0 + i) + b * j) b else 0)).1 % 2 ^ (8 * b)) ∧
         (∀ x, x < 256 * r.row0 ∨ 256 * (r.row0 + r.m) ≤ x → Mem.byte w.me.acc x = Mem.byte u.me.acc x) ∧ w.me.mem = v.me.mem)) ∧
   (∀ (k : Nat) (s : State) (o : EngOp) (a : Nat) (d : W64), k < Config.nCores →
     let u := (s.focus k).caughtUp
     u.me.frozen = false → u.me.ops.find? (fun o => o.kind.sort?.isSome && o.pending) = some o → o.kind = .gsort a d → o.redo = false → o.mates = [] → o.row = 0 →
     (∀ p ∈ u.me.ops, p.seq = o.seq → p = o) → d.getLsbD 3 = false → bits d 11 8 = 0 → u.me.grinder.phase = 0 → u.me.grinder.cells = [] → u.me.grinder.total = 8 →
     a % 64 = 0 → a + 1024 ≤ 917504 → u.me.mem.wf = true → (∀ l ∈ linesOf a 1024, u.me.lineOwner l = o.ctx ∧ (u.me.bank (l / 1024)).owner = o.ctx) → Clean u.me a 1024 →
     let pairs := fun (m : Mem) => (List.range 64).map fun i => (Mem.word m (a + 16 * i), Mem.word m (a + 16 * i + 8))
     ∃ w, exec (.grinderSliceFinish k) s = .next (State.focus w s.cur) ∧ w.me.grinder.st = .idle ∧ w.me.grinder.phase = 8 ∧ (pairs w.me.mem).Perm (pairs u.me.mem) ∧
       (∀ x, x < a ∨ a + 1024 ≤ x → Mem.byte w.me.mem x = Mem.byte u.me.mem x) ∧ ∃ p, w.me.op? o.seq = some p ∧ p.st = .finished ∧ p.failed = false)) ∧
  ((∀ (k : Nat) (s : State) (o : EngOp), k < Config.nCores →
     let u := (s.focus k).caughtUp
     u.me.op? o.seq = some o → (∀ b, o.kind ≠ .pour b) → (∀ b r x, o.kind ≠ .coll b r x) → o.st = .finished → o.took = false → (∀ p ∈ u.me.ops, p.seq = o.seq → p = o) →
     (u.me.opCommitted o = false → exec (.engineCompletion k o.seq) s = .next s) ∧
     (u.me.opCommitted o = true → (∀ a, o.stamp = some a → u.me.held (a / 64) = false ∧ a % 8 = 0 ∧ a + 8 ≤ 917504 ∧ u.me.mem.wf = true) →
       ∃ w p, exec (.engineCompletion k o.seq) s = .next (State.focus w s.cur) ∧ w.me.op? o.seq = some p ∧ p.st = .complete ∧ p.doneAt = u.me.clk ∧
         w.me.locks = u.me.locks.filter (fun l => !(decide (l.core = k) && l.seq == o.seq)) ∧
         (∀ a, o.stamp = some a → Mem.nat w.me.mem a 8 = o.seq % 2 ^ 63 + (if o.failed then 2 ^ 63 else 0)) ∧
         (o.stamp = none → w.me.mem = u.me.mem) ∧ w.me.regs = u.me.regs) ∧
     (u.me.opCommitted o = true → (∃ a, o.stamp = some a ∧ u.me.held (a / 64) = true) →
       ∃ w, exec (.engineCompletion k o.seq) s = .next (State.focus w s.cur) ∧ w.me.op? o.seq = some o ∧ w.me.mem = u.me.mem ∧ w.me.regs = u.me.regs ∧
         w.me.locks = u.me.locks.filter (fun l => !(decide (l.core = k) && l.seq == o.seq)))) ∧
   (∀ (k seq : Nat) (s : State), k < Config.nCores →
     let u := (s.focus k).caughtUp
     ∃ w, exec (.enginePreimageFree k seq) s = .next (State.focus w s.cur) ∧
       w.me.ring = u.me.ring.filter (fun p => !(decide (p.core = k) && decide (p.seq = seq) && !p.live && decide (p.at_ + Config.W ≤ u.me.clk))) ∧
       w.me.mem = u.me.mem ∧ w.me.acc = u.me.acc ∧ w.me.regs = u.me.regs))

/-- The hub (R318 to R320): the oldest command of a channel starts, its flits put the tile's bytes at each receiver in any order, and a receiver
that has them all takes its completion step and releases the destination lock. An input stream is filled in pattern order (R308, R310); an output
stream has nothing to drain, its pushes being made where they issue (R310), and STREAM_FILL changes nothing for it.
Collectives (R445 to R449): a member's contribution joins its round, a combining point combines two neighbours of the rank tree, the result
lands in the buffer of a member that takes it, and the point drops the round W after the last completion step.
The model's own readings or choices in this are those of log 34, 43. -/
def Obligations.HubAndCollectiveSteps : Prop :=
  ((∀ (cl ch : Nat) (s : State), cl < Config.nClusters → ch < 16 →
     (s.movingPour cl ch = none → ∀ q, (s.chanQueue cl ch).head? = some q → (s.core q.core).frozen = false → ∃ t, exec (.pourStart cl ch) s = .next t ∧
       t.pours = s.pours.map (fun p => if p.core = q.core ∧ p.seq = q.seq then { p with moving := true } else p) ∧ t.me.mem = s.me.mem ∧ t.me.regs = s.me.regs) ∧
     ((s.movingPour cl ch).isSome = true → exec (.pourStart cl ch) s = .next s)) ∧
   (∀ (cl ch r n : Nat) (s : State) (q : Pour) (o : EngOp) (got : List (Nat × Nat)), cl < Config.nClusters → ch < 16 → s.movingPour cl ch = some q →
     (s.core q.core).frozen = false → (s.core q.core).op? q.seq = some o → r < 8192 → aget q.landed r = some got →
     (∀ g ∈ got, ¬ (g.1 ≤ n ∧ n < g.2)) → (∀ p ∈ s.pours, p.core = q.core → p.seq = q.seq → p = q) →
     let p := q.desc
     let row := n / p.rbytes
     let col := n % p.rbytes
     let dn := ((p.dstOff : Int) + row * p.dstr).toNat + col
     let first := n - min col (dn % 64)
     let a := ((p.srcOff : Int) + row * p.sstr).toNat + (col - min col (dn % 64))
     let d := ((p.dstOff : Int) + row * p.dstr).toNat + (col - min col (dn % 64))
     let len := min (p.rbytes - (col - min col (dn % 64))) (64 - d % 64)
     let c := (s.core q.core).claimAll o.ctx a len
     p.sh = false → n < p.total → 0 < p.rbytes → Clean c a len → (s.core r).ringUsed + 64 ≤ Config.ringCap → (s.core r).mem.wf = true →
     ∃ t, exec (.pourFlitLand cl ch ⟨r, n⟩) s = .next t ∧ (∀ j < len, Mem.byte (t.core r).mem (d + j) = Mem.byte c.mem (a + j)) ∧
       (∃ q', t.pours.find? (fun x => x.core == q.core && x.seq == q.seq) = some q' ∧ aget q'.landed r = some (addRange first (first + len) got))) ∧
   (∀ (cl ch r : Nat) (got : List (Nat × Nat)) (s : State) (q : Pour) (o : EngOp), cl < Config.nClusters → ch < 16 → q ∈ s.pours → q.cluster = cl → q.ch = ch → q.moving = true →
     (∀ x ∈ s.pours, x.cluster = cl → x.ch = ch → x.moving = true → x = q) → r < 8192 → q.taken.contains r = false → q.again = [] → aget q.landed r = some got →
     q.desc.total ≤ prefixOf got → (s.core q.core).op? q.seq = some o → (s.core q.core).opCommitted o = true → q.desc.follow = false → q.desc.hasBar = false →
     ∃ t, exec (.pourReceiverCompletion cl ch r) s = .next t ∧
       t.pours = s.pours.map (fun x => if x.core = q.core ∧ x.seq = q.seq then { x with taken := x.taken ++ [r] } else x) ∧
       (t.core r).locks = (s.core r).locks.filter (fun l => !(decide (l.core = q.core) && decide (l.seq = q.seq) && l.dst)) ∧ (t.core r).mem = (s.core r).mem) ∧
   (∀ (k code : Nat) (s : State) (b : Stream), k < Config.nCores →
     let u := (s.focus k).caughtUp
     (u.me.stream? code = some b → b.out = true → u.me.locked b = true → exec (.streamFill k code) s = .next s) ∧
     (u.me.frozen = false → u.me.stream? code = some b → b.out = false → b.revoked = false → b.far = false → b.pos + b.buf.length < b.count → b.buf.length < b.room →
     b.isV = false → b.hdl = none → u.me.locked b = true →
     (let n := b.addr (b.pos + b.buf.length)
      let c := u.me.claimAll u.me.act.ctx n b.esz
      let x := Mem.nat c.mem n b.esz
      Clean c n b.esz → ∃ w, exec (.streamFill k code) s = .next (State.focus w s.cur) ∧
        w.me = c.setStream { b with buf := b.buf ++ [BitVec.ofNat 512 (if b.sgn then (BitVec.ofInt 64 (sext x (8 * b.esz))).toNat else x)] })))) ∧
  (∀ (k seq : Nat) (s : State) (o : EngOp) (m : Msg) (r : Nat) (map : List (Nat × Nat)), k < Config.nCores →
     let u := (s.focus k).caughtUp
     let q := CollDesc.of m
     u.me.op? seq = some o → o.kind = .coll m r map → u.awayOf o = [] → (∀ p ∈ u.me.ops, p.seq = o.seq → p = o) →
     (let c := u.me.claimAll o.ctx q.buf.toNat q.len
      u.me.frozen = false → o.st = .queued → o.redo = false → u.me.opCommitted o = true → u.round? o.ctx q.gid r = none → Clean c q.buf.toNat q.len →
      ∃ w x p, exec (.collContribute k seq) s = .next (State.focus w s.cur) ∧ w.round? o.ctx q.gid r = some x ∧ x.fail = none ∧
        x.subs = (if q.reads then [(q.rank, 0, Mem.bytes c.mem q.buf.toNat q.len)] else []) ∧ w.me.op? seq = some p ∧ p.st = (if q.writes then .running else .finished)) ∧
     (∀ x rank level bs y, u.round? o.ctx q.gid r = some x → q.kind ≠ 2 → x.fail = none → x.ups = [] → x.ready q.n = some (rank, level, bs, y) →
       ∃ w, exec (.collCombine k seq) s = .next (State.focus w s.cur) ∧ w.me = u.me ∧
         (w.round? o.ctx q.gid r).map (·.subs) = some (x.subs ++ [(rank, level + 1, (combineBytes q bs y).1)])) ∧
     (∀ x bs, u.round? o.ctx q.gid r = some x → u.me.frozen = false → x.fail = none → o.st = .running → x.result q = some bs → bs.length = q.len →
       (∀ l ∈ linesOf q.buf.toNat q.len, u.me.held l = false) → u.me.mem.wf = true →
       ∃ w p, exec (.collResultLand k seq) s = .next (State.focus w s.cur) ∧ Mem.bytes w.me.mem q.buf.toNat q.len = bs ∧
         w.me.op? seq = some p ∧ p.st = .finished ∧ p.flags = x.flags) ∧
     (∀ x, u.round? o.ctx q.gid r = some x → q.n ≤ x.took.length → x.lastAt + Config.W * u.slowest (u.ctx o.ctx.toNat) ≤ u.el9 → ∃ w, exec (.collOutputExpiry k seq) s = .next (State.focus w s.cur) ∧
       w.me = u.me ∧ w.round? o.ctx q.gid r = none) ∧
     (∀ x, u.round? o.ctx q.gid r = some x → u.el9 < x.lastAt + Config.W * u.slowest (u.ctx o.ctx.toNat) → exec (.collOutputExpiry k seq) s = .next s))

/-! ### Launches -/

/-- The sequencer (R333, R363 to R367). A task record enters its core's deque, whose received count rises; a full deque makes it wait. A wave adds
each cluster's counts in turn (a full deque makes only its own core's records wait); two waves in a row that agree on equal counts and no busy core end the launch, or release the least pending
stamp to the cores of the group, each of which marks its events and acknowledges. The end of the launch is written to its done block once no row holds its id (R430).
Leases (R333, R388): a draining row on which nothing of its launch is left starts to load the next one, a running row of a launch that
has ended is freed, a loaded row runs with the image's lines and handlers at each of its cores, and so does a reloaded one.
The model's own readings or choices in this are those of log 36. -/
def Obligations.LaunchSequencer : Prop :=
  (∀ (c n : Nat) (s : State) (x : Launch),
     let k := BitVec.ofNat 8 c
     let l := BitVec.ofNat 8 n
     s.launch? k l = some x →
     let becomes := fun (i : Instr) (p : Launch → Prop) => ∃ t y, exec i s = .next t ∧ t.launch? k l = some y ∧ y.record = x.record ∧ y.rows = x.rows ∧ p y
     (∀ core m ts, x.tasks = (core, m) :: ts → (s.ctx c).here = true → s.replayHead (msgCtx m).toNat core = none →
       let d := (s.core core).claimBank k 14
       (d.deque.length < 1024 → d.dequeHeld = false → ∃ t y, exec (.taskRecordPush c n) s = .next t ∧ (t.core core).deque = d.deque ++ [⟨m, none, s.gt, true⟩] ∧
         anat (t.core core).recv (cntKey k l) = anat d.recv (cntKey k l) + 1 ∧ (t.core core).mem = d.mem ∧ t.launch? k l = some y ∧ y.tasks = ts) ∧
       ((∀ z ∈ x.tasks, 1024 ≤ ((s.core z.1).claimBank k 14).deque.length) → exec (.taskRecordPush c n) s = .next s) ∧
       (∀ core' m' ts', ts = (core', m') :: ts' → 1024 ≤ d.deque.length → s.replayHead (msgCtx m').toNat core' = none →
         let d' := (s.core core').claimBank k 14
         d'.deque.length < 1024 → d'.dequeHeld = false → ∃ t y, exec (.taskRecordPush c n) s = .next t ∧ (t.core core').deque = d'.deque ++ [⟨m', none, s.gt, true⟩] ∧
           t.launch? k l = some y ∧ y.tasks = (core, m) :: ts')) ∧
     ((s.ctx c).here = true → s.haltedCtx c = false → x.term = false → x.wave = none → x.rel = none →
       becomes (.waveStart c n) fun y => y.wave = some ⟨false, x.base, 0, 2 ^ 64 - 1, (s.ctx c).clusters⟩ ∧ y.last = x.last) ∧
     (s.haltedCtx c = true → exec (.waveStart c n) s = .next s) ∧
     (∀ w cl cs, x.wave = some w → w.left = cl :: cs →
       let here := (s.coreList.filter fun p => clusterOf p.1 == cl).map (·.2)
       becomes (.waveCombine c n) fun y => ∃ w', y.wave = some w' ∧ w'.left = cs ∧ w'.sent = w.sent + (here.map fun j => anat j.sent (cntKey k l)).sum ∧
         w'.recv = w.recv + (here.map fun j => anat j.recv (cntKey k l)).sum ∧ (w'.busy = true ↔ w.busy = true ∨ ∃ j ∈ here, j.busyFor k l = true)) ∧
     (∀ w, x.wave = some w → w.left = [] → s.replaying c = none →
       let agree := x.last = some w ∧ w.busy = false ∧ w.sent = w.recv
       (¬agree → becomes (.waveCombine c n) fun y => y.wave = none ∧ y.last = some w ∧ y.term = x.term ∧ y.rel = x.rel) ∧
       (agree → w.minst = 2 ^ 64 - 1 → becomes (.waveCombine c n) fun y => y.term = true ∧ y.wave = none) ∧
       (agree → w.minst < 2 ^ 64 - 1 → s.group x ≠ [] → becomes (.waveCombine c n) fun y => y.rel = some w.minst ∧ y.acks = s.group x ∧ y.wave = none ∧ y.term = x.term)) ∧
     (∀ j, j < Config.nCores →
       let u := (s.focus j).caughtUp
       (∀ y ∈ u.launches, y ≠ x → ¬(y.ctx = k ∧ y.lnch = l) ∧ ¬(y.rel.isSome = true ∧ j ∈ y.acks)) → (u.ctx k.toNat).here = true → ∀ T, x.rel = some T → j ∈ x.acks →
       ∃ w y, exec (.releaseMark j) s = .next (State.focus w s.cur) ∧ w.me.mailbox = u.me.mailbox.map (fun i =>
           if i.stamped = true ∧ stampOf i.msg = ofNat T ∧ msgLnch i.msg = l ∧ msgCtx i.msg = k then { i with rel := true } else i) ∧
         w.launch? k l = some y ∧ y.acks = x.acks.filter (· != j) ∧ (y.acks = [] → y.rel = none) ∧ w.me.regs = u.me.regs) ∧
     (s.idInUse k l = true ∨ x.term = false → exec (.doneBlockWrite c n) s = .next s) ∧
     (∀ pa, s.idInUse k l = false → x.term = true → s.hptr c (x.record.toList.getD 7 0) 32 = some pa →
       pa + 32 ≤ hostBit ∨ hostBit ≤ pa → s.dram.wf = true → s.host.wf = true →
       ∃ t, exec (.doneBlockWrite c n) s = .next t ∧ t.launches = s.launches.filter (fun y => !(y.ctx == k && y.lnch == l)) ∧
         t.physWord pa = ofNat (2 ^ 63 + x.err.toNat) ∧ t.physWord (pa + 8) = ofNat (s.totals x).1 ∧ t.physWord (pa + 16) = ofNat (s.totals x).2 ∧
         t.physWord (pa + 24) = 0 ∧ t.me = s.me ∧ t.others = s.others)) ∧
  (∀ (cl row : Nat) (s : State), cl < Config.nClusters → row < 8 →
     let r := 8 * cl + row
     let l := s.lease r
     let gone := (rowCores r).all (s.coreDrained l.ctx l.cur)
     (∀ n, l.st = .draining → l.next = some n →
       (gone = true → ∃ t, exec (.leaseDrained cl row) s = .next t ∧ t.lease r = { l with st := .loading, cur := n, next := none }) ∧
       (gone = false → exec (.leaseDrained cl row) s = .next s)) ∧
     (∀ x, l.st = .running → gone = true → l.queue = [] → s.launch? l.ctx l.cur = some x →
       (x.term = true → ∃ t, exec (.leaseDrained cl row) s = .next t ∧ t.lease r = { l with st := .free, cur := 0, next := none } ∧ t.me = s.me) ∧
       (x.term = false → exec (.leaseDrained cl row) s = .next s)) ∧
     (∀ x pa, s.launch? l.ctx l.cur = some x → s.hread l.ctx.toNat (x.record.toList.getD 4 0) 0 49152 false = some pa →
       let loadedAt := fun (t : State) => ∀ j ∈ rowCores r, (t.core j).imem = s.imageLines pa ∧ (t.core j).handlers = s.imageTable pa ∧ (t.core j).loaded = true
       (∀ bs, l.st = .loading → (s.ctx l.ctx.toNat).here = true → l.queue = [] → s.derr = [] → s.sourceBad l.ctx.toNat (x.record.toList.getD 4 0) pa 49152 = false →
         s.blocks l.ctx.toNat (x.record.toList.getD 4 0) = .ok bs →
         ∃ t, exec (.leaseLoaded cl row) s = .next t ∧ t.lease r = { l with st := .running } ∧ loadedAt t) ∧
       (s.reload.contains r = true → (s.ctx l.ctx.toNat).state = 1 →
         ∃ t, exec (.rowReloadDone cl row) s = .next t ∧ t.reload = s.reload.filter (· != r) ∧ t.leases = s.leases ∧ loadedAt t)))

/-! ### The fabric -/

/-- Rencia ports (R435, R436, R438): a flit whose CRC fails is answered with a nak of the expected number, one in sequence is taken and acknowledged,
one out of sequence is answered with a nak; an ack ends the wait of the flits up to it; a nak makes the port replay from its flit, and after
sixteen replays of one flit in a row the port goes down; a port that is down trains, unless its neighbour has its own package id. The last flit of a packet
of another package that may ask for what it asks (R433) brings the packet to its home here, with WAKE set in a message (R440); that FLIT_RECEIVE
names the packet beside its last flit is log 65's choice.
Global time (R441): a package that is not the master, and to whose port toward the master a flit of KIND 5 has come, steps its counter at its first
exchange and never lets it decrease; a later exchange leaves the counter and sets the correction that its rate makes up. The offset is half of the
difference of the ways, by the own count.
The model's own readings or choices in this are those of log 51, 52, 53, 65. -/
def Obligations.LinksAndGlobalTime : Prop :=
  (∀ (q : Nat) (s : State), q < Config.nPorts →
     let p := s.port q
     (∀ f, p.up = true → crc32c (flitBytes f) ≠ f.crc → exec (.flitReceive q ⟨f, none⟩) s = .next (s.setPort q { p with owed := some (false, p.rxNext) })) ∧
     (∀ f, p.up = true → crc32c (flitBytes f) = f.crc →
       (f.kind = 1 ∨ f.kind = 2 ∨ f.kind = 5 → f.seq = p.rxNext → exec (.flitReceive q ⟨f, none⟩) s =
         .next (s.setPort q { p with rx := p.rx ++ [f], rxNext := p.rxNext + 1, owed := some (true, f.seq) })) ∧
       (f.kind = 1 ∨ f.kind = 2 ∨ f.kind = 5 → f.seq ≠ p.rxNext → exec (.flitReceive q ⟨f, none⟩) s = .next (s.setPort q { p with owed := some (false, p.rxNext) })) ∧
       (f.kind = 3 → ∃ t, exec (.flitReceive q ⟨f, none⟩) s = .next t ∧ (t.port q).rx = p.rx ∧ ∀ g, g ∈ (t.port q).tx ↔ g ∈ p.tx ∧ 2048 ≤ (f.seq - g.seq).toNat) ∧
       (f.kind = 4 → ∃ t, exec (.flitReceive q ⟨f, none⟩) s = .next t ∧ (t.port q).asked = some f.seq ∧ (t.port q).rx = p.rx)) ∧
     (∀ f m, p.up = true → crc32c (flitBytes f) = f.crc → f.kind = 1 ∨ f.kind = 2 → f.seq = p.rxNext → m.leaves = none → m.body.isReply = false → s.mayAsk m = true →
       ∃ t, exec (.flitReceive q ⟨f, some m⟩) s = .next t ∧ t.chan = s.chan ++ [{ m with away := false, since := s.gt, body := m.body.wake }] ∧
         (t.port q).rxNext = p.rxNext + 1 ∧ (t.port q).owed = some (true, f.seq) ∧ t.me = s.me ∧ t.dram = s.dram) ∧
     (∀ f, p.up = false → exec (.flitReceive q ⟨f, none⟩) s = .next s) ∧
     (∀ a, p.up = true → p.asked = some a →
       ((p.first ≠ a ∨ p.times < 16) → ∃ t, exec (.linkReplay q a) s = .next t ∧ (t.port q).up = true ∧ (t.port q).asked = none ∧ (t.port q).first = a ∧
         (t.port q).times = (if p.first = a then p.times + 1 else 1) ∧ ∀ g, g ∈ (t.port q).resend ↔ g ∈ p.tx ∧ (g.seq - a).toNat < 2048) ∧
       (p.first = a → 16 ≤ p.times → ∃ t, exec (.linkReplay q a) s = .next t ∧ (t.port q).up = false ∧ (t.port q).tx = [] ∧ t.msix = s.msix ++ [1] ∧
         (t.port q).downs.toNat = min (p.downs.toNat + 1) 65535)) ∧
     (∀ g b, p.up = false → s.portReady q = true →
       (g ≠ s.pkgid → ∃ t, exec (.portTrain q g b) s = .next t ∧ (t.port q).up = true ∧ (t.port q).dup = false ∧ (t.port q).npkg = g ∧ (t.port q).nport = b ∧ t.msix = s.msix ++ [1]) ∧
       (g = s.pkgid → ∃ t, exec (.portTrain q g b) s = .next t ∧ (t.port q).up = false ∧ (t.port q).dup = true ∧ t.msix = s.msix))) ∧
  (∀ (t1 t2 t3 : Nat) (s : State) (q : Nat),
     let t4 := s.gt
     let p := s.port q
     let u := s.setPort q { p with rx := p.rx.filter fun f => f.kind != 5 }
     let off := (((t2 : Int) - t1) - ((t4 : Int) - t3)) / 2
     s.tmaster = false → s.timePort = some q → t1 ≤ t4 → (∃ f ∈ p.rx, f.kind = 5) →
       (s.sync = false → ∃ t, exec (.timeExchange t1 t2 t3 t4) s = .next t ∧ t.sync = true ∧ s.gt9 ≤ t.gt9 ∧ (0 ≤ off → (t.gt9 : Int) = s.gt9 + 9 * off ∧ t.skew = 0) ∧
         (off < 0 → t.gt9 = s.gt9 ∧ t.skew = 9 * off) ∧ t.ports = u.ports ∧ t.me = s.me) ∧
       (s.sync = true → exec (.timeExchange t1 t2 t3 t4) s = .next { u with skew := 9 * off })) ∧
  (∀ (t1 t2 t3 t4 : Nat) (s : State), s.tmaster = true ∨ s.timePort = none ∨ t4 ≠ s.gt ∨ t4 < t1 ∨
     (∀ q, s.timePort = some q → ∀ f ∈ (s.port q).rx, f.kind ≠ 5) → exec (.timeExchange t1 t2 t3 t4) s = .next s)

/-! ### Commands of the host -/

/-- Contexts (R386, R404, R408): CONFIG, LOADSH, SPILLSH, FREE and KILL move a context between its states, or are refused by their codes; a command
whose opcode names none is refused with 9; a completion clears BUSY, sets the code and sends vector 1.
The model's own readings or choices in this are those of log 19, 20, 23. -/
def Obligations.ContextCommands : Prop :=
  ∀ (ch : Nat) (s : State), ch < 4 →
    let x := s.chan? ch
    let k := (x.w 0).toNat
    let c := s.ctx k
    let fails := fun (i : Instr) (code : BitVec 8) =>
      exec i s = .next { s.setChan ch { x with busy := false, work := false, code := code } with msix := s.msix ++ [1] }
    let ends := fun (i : Instr) (p : State → Prop) => ∃ t l, exec i s = .next t ∧ t.chan? ch = { x with busy := false, work := false, code := 0 } ∧ t.msix = s.msix ++ l ++ [1] ∧ p t
    let goes := fun (i : Instr) (p : State → Prop) => ∃ t, exec i s = .next t ∧ t.chan? ch = { x with code := 0, work := true } ∧ t.msix = s.msix ∧ p t
    (x.busy = true → x.work = false →
      (x.opcode = 1 →
        (k = 0 ∨ 255 < k → fails (.config ch) 1) ∧
        (0 < k → k ≤ 255 → c.state ≠ 0 → fails (.config ch) 7) ∧
        (0 < k → k ≤ 255 → c.state = 0 → (∃ cl ∈ c.clusters, s.clusterReady cl = false) → fails (.config ch) 10) ∧
        (0 < k → k ≤ 255 → c.state = 0 → (∀ cl ∈ c.clusters, s.clusterReady cl = true) →
          (s.badDescriptor c = true ∨ s.ringSize k = none → fails (.config ch) 1) ∧
          (∀ n, s.badDescriptor c = false → s.ringSize k = some n → ends (.config ch) fun t => (t.ctx k).state = 3 ∧ (t.ctx k).rsize = n ∧ (t.ctx k).spill = [] ∧ t.me = s.me ∧ t.others = s.others))) ∧
      (x.opcode = 2 →
        (c.mask ≠ (x.w 1, x.w 2) → fails (.loadsh ch) 1) ∧
        (c.mask = (x.w 1, x.w 2) → c.state ≠ 3 → fails (.loadsh ch) 7) ∧
        (c.mask = (x.w 1, x.w 2) → c.state = 3 → (s.ctxs.any fun y => y.2.state == 2 && sharesMask y.2.mask c.mask) = true → fails (.loadsh ch) 2) ∧
        (c.mask = (x.w 1, x.w 2) → c.state = 3 → (s.ctxs.any fun y => y.2.state == 2 && sharesMask y.2.mask c.mask) = false →
          (∃ cl ∈ c.clusters, s.clusterReady cl = false) → fails (.loadsh ch) 10) ∧
        (c.mask = (x.w 1, x.w 2) → c.state = 3 → (s.ctxs.any fun y => y.2.state == 2 && sharesMask y.2.mask c.mask) = false →
          (∀ cl ∈ c.clusters, s.clusterReady cl = true) →
          (s.saveArea k = none → fails (.loadsh ch) 1) ∧
          (∀ pa, s.saveArea k = some pa → s.dramDark pa c.saveBytes = true → fails (.loadsh ch) 10) ∧
          (∀ pa, s.saveArea k = some pa → s.dramDark pa c.saveBytes = false → s.derr = [] → goes (.loadsh ch) fun t => (t.ctx k).state = 2 ∧ t.images = (s.readSave k pa).images ∧ t.me = s.me ∧ t.dram = s.dram ∧ t.host = s.host))) ∧
      (x.opcode = 3 →
        (∀ e, s.inState (fun y => y.state == 2 && y.drain.isNone) (x.w 0, x.w 1) 2 = .error e → fails (.spillsh ch) (BitVec.ofNat 8 e)) ∧
        (∀ j, s.inState (fun y => y.state == 2 && y.drain.isNone) (x.w 0, x.w 1) 2 = .ok j →
          (s.saveArea j = none → fails (.spillsh ch) 1) ∧
          (∀ pa, s.saveArea j = some pa → s.dramDark pa (s.ctx j).saveBytes = true → fails (.spillsh ch) 10) ∧
          (∀ pa, s.saveArea j = some pa → s.dramDark pa (s.ctx j).saveBytes = false → goes (.spillsh ch) fun t => (t.ctx j).state = 3 ∧ t.me = s.me ∧ (t.dram, t.host) = ((s.writeSave j pa).dram, (s.writeSave j pa).host)))) ∧
      (x.opcode = 10 →
        ((c.state = 3 ∨ c.state = 5) → c.drain = none → ends (.free ch) fun t => (t.ctx k).state = 0 ∧ (t.ctx k).spill = [] ∧ (∀ p ∈ t.images, p.1 / 8192 ≠ k) ∧ t.me = s.me) ∧
        (c.state ≠ 3 ∧ c.state ≠ 5 ∨ c.drain ≠ none → fails (.free ch) 7)) ∧
      (x.opcode = 8 →
        (k = 0 ∨ 255 < k → fails (.kill ch) 1) ∧
        (0 < k → k ≤ 255 → ends (.kill ch) fun t => (t.ctx k).state = 5 ∧ (∀ l ∈ t.launches, l.ctx.toNat ≠ k) ∧ (∀ p ∈ t.leases, p.2.ctx.toNat ≠ k) ∧
          ∀ j ∈ s.cores, c.here = true → c.hasCluster (clusterOf j) = true → (t.core j).running = false ∧ (t.core j).ops = [] ∧ (t.core j).parks = [])) ∧
      (commandCodes.contains x.opcode.toNat = false → fails (.unknownOpcode ch) 9)) ∧
    (x.busy = true → x.work = true → x.opcode ≠ 9 → fails (.commandCompletion ch) x.code) ∧
    (x.busy = true → x.work = true → x.opcode = 9 →
      ((s.poursUnder k (bits (x.w 1) 15 0)) = [] → fails (.revokeDone ch) 0) ∧
      ((s.poursUnder k (bits (x.w 1) 15 0)) ≠ [] → exec (.revokeDone ch) s = .next s)) ∧
    (x.busy = false → ∀ i, i ∈ [Instr.config ch, .loadsh ch, .spillsh ch, .swap ch, .halt ch, .resume ch, .step ch, .kill ch, .revoke ch, .free ch, .grun ch, .gstop ch, .tagset ch,
      .tlbinv ch, .power ch, .unknownOpcode ch, .commandCompletion ch, .revokeDone ch] → exec i s = .next s)

/-- Pre-emption (R387, R388): SWAP makes the shadow context, or the one that runs, switch, and its channel stays BUSY meanwhile; once its cores are
settled the one that runs leaves them, with an image of each; then the shadow context runs there, its spilled messages delivered, and the command
completes.
The model's own readings or choices in this are those of log 23. -/
def Obligations.SwitchOfContexts : Prop :=
  (∀ (ch : Nat) (s : State), ch < 4 →
    let x := s.chan? ch
    let mask := (x.w 0, x.w 1)
    let shadow := s.inState (fun y => y.state == 2) mask 2
    let fails := fun (code : BitVec 8) => exec (.swap ch) s = .next { s.setChan ch { x with busy := false, work := false, code := code } with msix := s.msix ++ [1] }
    x.busy = true → x.work = false → x.opcode = 4 →
    (s.swapping ch = true → exec (.swap ch) s = .next s) ∧
    (s.swapping ch = false → (s.ctxs.any fun y => y.2.drain.isSome && sharesMask y.2.mask mask) = true → fails 4) ∧
    (s.swapping ch = false → (s.ctxs.any fun y => y.2.drain.isSome && sharesMask y.2.mask mask) = false →
      (s.haltedMask mask = true → fails 3) ∧
      (s.haltedMask mask = false →
        (∀ e, shadow = .error e → fails (BitVec.ofNat 8 e)) ∧
        (∀ j, shadow = .ok j → s.entryOk j = false → fails 1) ∧
        (∀ j, shadow = .ok j → s.entryOk j = true →
          (s.ctxs.find? (fun y => y.2.state == 1 && sharesMask y.2.mask mask) = none → ∃ t, exec (.swap ch) s = .next t ∧
            (t.ctx j).state = 4 ∧ (t.ctx j).drain = some (ch + 4) ∧ (t.ctx j).out = true ∧ t.chans = s.chans ∧ t.me = s.me) ∧
          (∀ y, s.ctxs.find? (fun y => y.2.state == 1 && sharesMask y.2.mask mask) = some y → (y.2.mask ≠ mask → fails 1) ∧
            (y.2.mask = mask → ∃ t, exec (.swap ch) s = .next t ∧ (t.ctx y.1).state = 4 ∧ (t.ctx y.1).drain = some ch ∧ (t.ctx y.1).out = false ∧ t.chans = s.chans ∧ t.me = s.me)))))) ∧
  (∀ (k : Nat) (s : State),
    let x := s.ctx k
    let ks := s.cores.filter fun c => x.hasCluster (clusterOf c)
    let quiet := (∀ j ∈ ks, (s.core j).settledOut = true) ∧ x.last9 + Config.W * s.slowest x ≤ s.el9
    x.drain.isSome = true → x.out = false → x.state = 4 →
    (quiet → ∃ t, exec (.swapSettle k) s = .next t ∧ (t.ctx k).out = true ∧ (t.ctx k).drain = x.drain ∧
      (∀ j ∈ ks, (t.core j).mem = [] ∧ (t.core j).running = false ∧ (t.core j).parks = [] ∧
        ∃ i, aget t.images (8192 * k + j) = some i ∧ i.parks = (s.core j).parks ∧ i.regs = (s.core j).regs) ∧
      (∀ p ∈ t.leases, p.2.ctx.toNat ≠ k)) ∧
    (¬quiet → exec (.swapSettle k) s = .next s)) ∧
  (∀ (k ch : Nat) (s : State),
    let x := s.ctx k
    x.drain = some ch → x.out = true → x.state = 4 → ch < 8 →
    let ended := fun (t : State) => (t.chan? (ch % 4)).busy = false ∧ (t.chan? (ch % 4)).code = 0 ∧ t.msix = s.msix ++ [1] ∧ (t.ctx k).drain = none
    s.derr = [] →
    let spilled := fun (j : Nat) => ∀ e ∈ (s.ctx j).spill, s.physBad e.pa 128 = false
    (∀ j, ch < 4 → s.comingIn x.mask k = some j → spilled j → ∃ t, exec (.swapEnter k) s = .next t ∧ ended t ∧ (t.ctx j).state = 1 ∧ (t.ctx k).state = 2 ∧ (t.ctx j).spill = []) ∧
    (4 ≤ ch → spilled k → ∃ t, exec (.swapEnter k) s = .next t ∧ ended t ∧ (t.ctx k).state = 1 ∧ (t.ctx k).spill = []))

/-- The debugger's commands (R393 to R396): HALT halts the partition's cores, RESUME lets them issue again, STEP arms a count at a halted core, which
halts again when it is used up; a halted core's record goes to the buffer that HALT named.
The model's own readings or choices in this are those of log 20, 26, 44. -/
def Obligations.HaltsAndSteps : Prop :=
  (∀ (ch : Nat) (s : State), ch < 4 →
    let x := s.chan? ch
    let mask := (x.w 0, x.w 1)
    let fails := fun (i : Instr) (code : BitVec 8) =>
      exec i s = .next { s.setChan ch { x with busy := false, work := false, code := code } with msix := s.msix ++ [1] }
    let ends := fun (i : Instr) (p : State → Prop) => ∃ t, exec i s = .next t ∧ t.chan? ch = { x with busy := false, work := false, code := 0 } ∧ p t
    x.busy = true → x.work = false →
    (∀ e, s.runningIn mask = .error e →
      (x.opcode = 5 → s.exchanging mask = false → fails (.halt ch) (BitVec.ofNat 8 e)) ∧ (x.opcode = 6 → fails (.resume ch) (BitVec.ofNat 8 e)) ∧
      (x.opcode = 7 → fails (.step ch) (BitVec.ofNat 8 e))) ∧
    (x.opcode = 5 → s.exchanging mask = true → exec (.halt ch) s = .next s) ∧
    (∀ k, s.runningIn mask = .ok k →
      let mine := fun (j : Nat) => (s.ctx k).hasCluster (clusterOf j)
      let diverged := s.coreList.any fun p => mine p.1 && p.2.halted == some .diverge
      (x.opcode = 5 → s.exchanging mask = false → ends (.halt ch) fun t => aget t.haltBufs k = some (x.w 2) ∧
        ∀ j ∈ (s.ctx k).coreList, (j ∈ s.cores ∨ (s.lease (rowId j)).ctx.toNat = k) → (t.core j).halted.isSome = true ∧ (t.core j).steps = none) ∧
      (x.opcode = 6 → (s.ctx k).rpl = true → ((s.ctx k).recording || diverged) = true → fails (.resume ch) 1) ∧
      (x.opcode = 6 → ((s.ctx k).rpl && ((s.ctx k).recording || diverged)) = false → ends (.resume ch) fun t => ∀ j, mine j = true → (t.core j).halted = none ∧ (t.core j).steps = none ∧
        (t.core j).regs = (s.core j).regs ∧ (t.core j).pc = (s.core j).pc) ∧
      (x.opcode = 7 →
        let j := (x.w 2).toNat
        let n := (x.w 3).toNat
        let named := j < Config.nCores ∧ mine j = true ∧ 0 < n ∧ n ≤ 65535
        (¬named → fails (.step ch) 1) ∧
        (named → (s.core j).halted = none → fails (.step ch) 5) ∧
        (named → (s.core j).halted ≠ none → (∀ g, (s.core j).gang = some g → g.idx = 0) → ends (.step ch) fun t => (t.core j).steps = some n ∧ (t.core j).halted = (s.core j).halted) ∧
        (named → (s.core j).halted ≠ none → (∀ g, (s.core j).gang = some g → g.idx ≠ 0) → (s.core j).gang ≠ none → fails (.step ch) 1)))) ∧
  (∀ (k : Nat) (s : State), k < Config.nCores →
    let u := (s.focus k).caughtUp
    (∀ n, u.me.steps = some n → (n = 0 ∨ u.me.running = false) → ∃ w, exec (.stepDone k) s = .next (State.focus w s.cur) ∧ w.me.halted = some .stepDone ∧ w.me.steps = none ∧
      w.me.regs = u.me.regs ∧ w.me.pc = u.me.pc) ∧
    (∀ n, u.me.steps = some n → n ≠ 0 → u.me.running = true → exec (.stepDone k) s = .next s)) ∧
  (∀ (core k : Nat) (s : State) (buf : W64) (pa : Nat), core < Config.nCores → s.curCtx (clusterOf core) = some k → aget s.haltBufs k = some buf → core % 64 ≠ 0 →
    s.haltedCtx k = true → (s.core core).halted.isSome = true → (s.core core).closing = [] →
    s.hread k buf (512 * (s.ctx k).coreList.idxOf core) 512 true = some pa → pa + 512 ≤ hostBit ∨ hostBit ≤ pa → s.dram.wf = true → s.host.wf = true →
    ∃ t, exec (.haltRecordWrite core) s = .next t ∧ t.physBytes pa 512 = wordBytes ((s.core core).haltRecord k core) ∧ t.me = s.me ∧ t.others = s.others)

/-- REVOKE (R402), TAGSET, TLBINV (R410) and POWER (R422): the handle's entry loses its V bit, and streams under it are revoked; a handle that the
descriptor or a launch with a row names is refused; the sectors of the range take the tag, one after the other; the context's translations are dropped; a die in use keeps
its power.
The model's own readings or choices in this are those of log 20, 21, 38. -/
def Obligations.DeviceCommands : Prop :=
  ∀ (ch : Nat) (s : State), ch < 4 →
    let x := s.chan? ch
    let fails := fun (i : Instr) (code : BitVec 8) =>
      exec i s = .next { s.setChan ch { x with busy := false, work := false, code := code } with msix := s.msix ++ [1] }
    let goes := fun (i : Instr) (p : State → Prop) => ∃ t, exec i s = .next t ∧ t.chan? ch = { x with code := 0, work := true } ∧ p t
    x.busy = true → x.work = false →
    (x.opcode = 9 →
      let k := (x.w 0).toNat
      let h := bits (x.w 1) 15 0
      let d := s.ctx k
      let mine := s.launches.filter fun l => l.ctx.toNat == k
      let named := ([5, 7, 8, 13].any fun i => underHandle h (d.w i)) || mine.any fun l => underHandle h (l.record.toList.getD 4 0) && s.holdsRow l
      let pa := (d.w 4).toNat + 16 * h
      (named = true → fails (.revoke ch) 6) ∧
      (named = false → goes (.revoke ch) fun t =>
        (h < bits (d.w 0) 15 0 → s.dram.wf = true → s.host.wf = true → pa + 8 ≤ hostBit ∨ hostBit ≤ pa → (t.physWord pa).getLsbD 63 = false) ∧
        ∀ j, j ∈ s.cores → d.here = true → d.hasCluster (clusterOf j) = true → (t.core j).streams = revokeStreams h (s.core j).streams ∧ (t.core j).mem = (s.core j).mem)) ∧
    (x.opcode = 0x12 →
      let pa := (x.w 0).toNat
      let n := (x.w 1).toNat
      let bad := pa % 64 ≠ 0 ∨ n % 64 ≠ 0 ∨ 15 < (x.w 2).toNat ∨ s.ownPa pa = false ∨ (n ≠ 0 ∧ s.ownPa (pa + n - 1) = false)
      let dark := ∃ d < 4, s.dramReady d = false ∧ pa % 2 ^ 39 < (d + 1) * 2 ^ 37 ∧ d * 2 ^ 37 < pa % 2 ^ 39 + n
      (bad → fails (.tagset ch) 1) ∧ (¬bad → dark → fails (.tagset ch) 10) ∧
      (¬bad → ¬dark → s.derr = [] → ∃ t, exec (.tagset ch) s = .next t ∧ (x.pos < n / 64 → t.tagAt (pa + 64 * x.pos) = (x.w 2).setWidth 4) ∧
        (∀ a, a / 64 ≠ pa / 64 + x.pos ∨ n / 64 ≤ x.pos → t.tagAt a = s.tagAt a) ∧ t.dram = s.dram ∧ t.me = s.me ∧
        t.chan? ch = (if x.pos + 1 < n / 64 then { x with pos := x.pos + 1 } else { x with code := 0, work := true }))) ∧
    (x.opcode = 0x13 → goes (.tlbinv ch) fun t => (∀ e, e ∈ t.tables ↔ e ∈ s.tables ∧ e.ctx.toNat ≠ (x.w 0).toNat) ∧ ∀ j, j ∈ s.cores →
      (((s.ctx (x.w 0).toNat).here && (s.ctx (x.w 0).toNat).hasCluster (clusterOf j)) = true → t.core j = { s.core j with tlb := [] }) ∧
      (((s.ctx (x.w 0).toNat).here && (s.ctx (x.w 0).toNat).hasCluster (clusterOf j)) = false → t.core j = s.core j)) ∧
    (x.opcode = 0x14 →
      let die := (x.w 0).toNat
      let p := (x.w 1).toNat
      let used := s.ctxs.any fun y => (y.2.state == 1 || y.2.state == 2 || y.2.state == 4 || y.2.drain.isSome) && (dieClusters die).any y.2.hasCluster
      (4 ≤ die ∨ 4 ≤ p → fails (.power ch) 8) ∧
      (die < 4 → 2 ≤ p → p < 4 → used = true → fails (.power ch) 8) ∧
      (die < 4 → p < 4 → (2 ≤ p → used = false) → goes (.power ch) fun t => t.power = s.power.setIfInBounds die (BitVec.ofNat 2 p) ∧
        (∀ j ∈ s.cores, dieOf j ≠ die → t.core j = s.core j) ∧
        (p = 3 → (s.power.toList.getD die 0) ≠ 3 → ∀ a, a / 2 ^ 37 % 4 = die → aget t.dram a = none)))

/-! ### Command graphs and host rings -/

/-- GRUN and GSTOP (R408, R413): a slot that runs refuses a second run with 11, one of a die without ready DRAM a run with 10 (R424); a stop puts a running slot in error 5.
Host rings (R418 to R421): a record lands at its place and PROD advances by one; the record that brings the count to the threshold, or the timer,
sends the ring's vector; a full ring reads CONS again, at most once each microsecond.
The model's own readings or choices in this are those of log 20. -/
def Obligations.GraphCommandsAndRings : Prop :=
  (∀ (ch : Nat) (s : State), ch < 4 →
     let x := s.chan? ch
     let k := slotKey (x.w 0).toNat (x.w 1).toNat
     let named := (x.w 0).toNat < 4 ∧ (x.w 1).toNat < 16
     let fails := fun (i : Instr) (code : BitVec 8) =>
       exec i s = .next { s.setChan ch { x with busy := false, work := false, code := code } with msix := s.msix ++ [1] }
     let ends := fun (i : Instr) (p : State → Prop) => ∃ t l, exec i s = .next t ∧ t.chan? ch = { x with busy := false, work := false, code := 0 } ∧ t.msix = s.msix ++ l ++ [1] ∧
       t.me = s.me ∧ t.dram = s.dram ∧ t.host = s.host ∧ (∀ j, j ≠ k → t.slot j = s.slot j) ∧ p t
     x.busy = true → x.work = false →
     (x.opcode = 0x10 →
       (¬named → fails (.grun ch) 1) ∧ (named → (s.slot k).st = .running → fails (.grun ch) 11) ∧
       (named → (s.slot k).st ≠ .running → s.dramReady (x.w 0).toNat = false → fails (.grun ch) 10) ∧
       (named → (s.slot k).st ≠ .running → s.dramReady (x.w 0).toNat = true → ends (.grun ch) fun t => t.slot k =
         { st := .running, err := 0, ctx := (x.w 2).setWidth 8, gh := bits (x.w 3) 15 0, node := bits (x.w 4) 47 0, iter := 0, cur := none, done := none, since := s.gt, sub := false })) ∧
     (x.opcode = 0x11 →
       (¬named → fails (.gstop ch) 1) ∧
       (named → (s.slot k).st = .running → ends (.gstop ch) fun t => t.slot k = { s.slot k with st := .error, err := 5 }) ∧
       (named → (s.slot k).st ≠ .running → ends (.gstop ch) fun t => t.slot k = s.slot k))) ∧
  (∀ (j : Nat) (s : State), j < 64 →
     let r := s.ring j
     let base := r.base.toNat
     (∀ w0 w1 w2 w3, s.dram.wf = true → s.host.wf = true → base + 64 + 32 * 2 ^ r.size ≤ hostBit ∨ hostBit ≤ base →
       let t := s.publishRecord j [w0, w1, w2, w3]
       let at_ := base + 64 + 32 * ((s.physWord base).toNat % 2 ^ r.size)
       t.physWord base = s.physWord base + 1 ∧ t.physWord at_ = w0 ∧ t.physWord (at_ + 8) = w1 ∧ t.physWord (at_ + 16) = w2 ∧ t.physWord (at_ + 24) = w3 ∧
       (r.threshold ≤ r.u + 1 → (t.ring j).u = 0 ∧ t.msix = s.msix ++ [r.vec]) ∧ (r.u + 1 < r.threshold → (t.ring j).u = r.u + 1 ∧ t.msix = s.msix)) ∧
     (r.en = true → s.hringFull j = true → r.reread + 16000 ≤ s.gt →
       exec (.ringConsReread j) s = .next (s.setRing j { r with cons := (s.physWord (base + 8)).toNat, reread := s.gt })) ∧
     (r.en = false ∨ s.hringFull j = false ∨ s.gt < r.reread + 16000 → exec (.ringConsReread j) s = .next s) ∧
     (r.en = true → r.timer ≠ 0 → r.u ≠ 0 →
       (r.since + 16000 * r.timer ≤ s.gt → exec (.ringInterruptTimer j) s = .next { s.setRing j { r with u := 0 } with msix := s.msix ++ [r.vec] }) ∧
       (s.gt < r.since + 16000 * r.timer → exec (.ringInterruptTimer j) s = .next s)))

/-- Nodes of a graph (R413 to R417), where no entry of a handle table is poisoned: a node that cannot be read, or with a reserved bit set, stops its slot in error. LAUNCH submits its record and
COPY starts; WAIT goes on when its condition holds or its time is up; COND goes on, leaves, or counts an iteration; SIGNAL writes its word, NOTIFY and END
their records. A node that is done passes the slot to its successor.
The model's own readings or choices in this are those of log 24. -/
def Obligations.GraphNodes : Prop :=
  ∀ (die n : Nat) (s : State), die < 4 → n < 16 → s.derr = [] → HandlesReadable s →
    let k := slotKey die n
    let x := s.slot k
    let stops := fun (i : Instr) (code : Nat) => ∃ t, exec i s = .next t ∧ (t.slot k).st = .error ∧ (t.slot k).err = BitVec.ofNat 8 code ∧ t.msix.getLast? = some 1 ∧ t.me.regs = s.me.regs
    let nodes := [Instr.graphLaunchNode die n, .graphCopyNode die n, .graphWaitNode die n, .graphWaitTimeout die n, .graphCondNode die n, .graphNotifyNode die n,
      .graphSignalNode die n, .graphEndNode die n]
    (x.st ≠ .running → (∀ i ∈ nodes, exec i s = .next s) ∧ exec (.graphNodeDone die n) s = .next s) ∧
    (x.st = .running → x.done = none → ∀ e, s.nodeOf x = .error e → ∀ i ∈ nodes, stops i e) ∧
    (x.st = .running → ∀ w, x.done = some w → (∀ i ∈ nodes, exec i s = .next s) ∧
      exec (.graphNodeDone die n) s = .next (s.setSlot k { x with node := w, cur := none, done := none, since := s.gt, sub := false })) ∧
    (x.st = .running → x.done = none → ∀ m, s.nodeOf x = .ok m →
      let ty := bits (m.w 0) 63 60
      let ctx := x.ctx.toNat
      let u := s.setSlot k { x with cur := some m }
      let win := (m.w 3).getLsbD 4
      let holds := fun (v : Nat) => (nodeCond m).any fun cc => condHolds cc (ofNat v) (m.w 2)
      let goesOn := fun (i : Instr) (succ : Nat) => ∃ t, exec i s = .next t ∧ (t.slot k).st = .running ∧ (t.slot k).done = some succ ∧ t.msix = s.msix ∧ t.me.regs = s.me.regs
      let waits := fun (i : Instr) => ∃ t, exec i s = .next t ∧ t.slot k = { x with cur := some m } ∧ t.msix = s.msix ∧ t.me.regs = s.me.regs
      (badNode m = true → ∀ i ∈ nodes, stops i 1) ∧
      (badNode m = false →
        (ty = 1 → x.sub = false →
          (s.hread ctx (m.w 1) 0 64 false = none → stops (.graphLaunchNode die n) 2) ∧
          (∀ pa, s.hread ctx (m.w 1) 0 64 false = some pa → s.nodeBad ctx (m.w 1) pa 64 false = true → stops (.graphLaunchNode die n) 2) ∧
          (∀ pa, s.hread ctx (m.w 1) 0 64 false = some pa → s.nodeBad ctx (m.w 1) pa 64 false = false →
            let r := s.physMsg pa
            let lead := 64 * (launchClusters r).headD 0
            let y := (u.submit die r lead (s.core lead).tseq.toNat).2
            let free := (s.ctx ((r.w 0).extractLsb' 56 8).toNat).state = 1 ∧ (s.core lead).running = false
            (¬free → waits (.graphLaunchNode die n)) ∧ (free → y = false → stops (.graphLaunchNode die n) 3) ∧
            (free → y = true → ∃ t, exec (.graphLaunchNode die n) s = .next t ∧ (t.slot k).sub = true ∧ (t.slot k).done = none ∧ t.launches.length = s.launches.length + 1 ∧
              (t.core lead).tseq = (s.core lead).tseq + BitVec.ofNat 43 (bits (r.w 6) 19 0)))) ∧
        (ty = 2 → x.sub = false →
          (∀ e, s.copyRanges ctx m = .error (some e) → stops (.graphCopyNode die n) e) ∧
          (∀ r, s.copyRanges ctx m = .ok r → noStamp m = true → ∃ t, exec (.graphCopyNode die n) s = .next t ∧ (t.slot k).sub = true ∧ t.dram = s.dram ∧ t.host = s.host)) ∧
        (ty = 3 → (m.w 3).getLsbD 3 = false →
          (∀ e, u.nodeRead ctx (m.w 1) win 8 = .error (some e) → stops (.graphWaitNode die n) e) ∧
          (∀ t v, u.nodeRead ctx (m.w 1) win 8 = .ok (t, v) → (holds v = true → goesOn (.graphWaitNode die n) (nodeNext m)) ∧ (holds v = false → waits (.graphWaitNode die n)))) ∧
        (ty = 3 → (m.w 3).getLsbD 3 = true → ∀ t v, u.nodeRead ctx (m.w 1) win 16 = .ok (t, v) →
          ((Barrier.of v).gen ≠ (m.w 2).toNat → goesOn (.graphWaitNode die n) (nodeNext m)) ∧ ((Barrier.of v).gen = (m.w 2).toNat → waits (.graphWaitNode die n))) ∧
        (ty = 3 →
          let up := m.w 4 ≠ 0 ∧ x.since + 16000 * (m.w 4).toNat ≤ s.gt
          (¬up → waits (.graphWaitTimeout die n)) ∧ (up → m.w 5 = 0 → stops (.graphWaitTimeout die n) 4) ∧ (up → m.w 5 ≠ 0 → goesOn (.graphWaitTimeout die n) (m.w 5).toNat)) ∧
        (ty = 4 →
          (∀ e, u.nodeRead ctx (m.w 1) win 8 = .error (some e) → stops (.graphCondNode die n) e) ∧
          (∀ t v, u.nodeRead ctx (m.w 1) win 8 = .ok (t, v) →
            let again := (m.w 3).getLsbD 8
            (holds v = false → goesOn (.graphCondNode die n) (m.w 4).toNat) ∧
            (holds v = true → again = false → goesOn (.graphCondNode die n) (nodeNext m)) ∧
            (holds v = true → again = true → x.iter.toNat = bits (m.w 3) 31 16 → goesOn (.graphCondNode die n) (m.w 4).toNat) ∧
            (holds v = true → again = true → x.iter.toNat ≠ bits (m.w 3) 31 16 → m.w 5 = 0 → ∃ t, exec (.graphCondNode die n) s = .next t ∧ (t.slot k).iter = x.iter + 1 ∧
              (t.slot k).done = some (nodeNext m)))) ∧
        (ty = 5 →
          let j := (m.w 1).toNat
          (64 ≤ j ∨ (s.ring j).en = false → stops (.graphNotifyNode die n) 1) ∧ (j < 64 → (s.ring j).en = true → s.hringFull j = true → waits (.graphNotifyNode die n)) ∧
          (j < 64 → (s.ring j).en = true → s.hringFull j = false → ∃ t, exec (.graphNotifyNode die n) s = .next t ∧ (t.slot k).done = some (nodeNext m) ∧
            (t.dram, t.host) = ((u.publishRecord j (recordOf 0x10 k x (m.w 2) (m.w 3))).dram, (u.publishRecord j (recordOf 0x10 k x (m.w 2) (m.w 3))).host))) ∧
        (ty = 6 →
          (∀ e, u.nodeHome ctx (m.w 1) win true 8 = .error (some e) → stops (.graphSignalNode die n) e) ∧
          (∀ pa, u.nodeHome ctx (m.w 1) win true 8 = .ok (.dev pa) → s.dpois.contains (pa / 64) = false → pa + 8 ≤ hostBit → s.dram.wf = true →
            (lockOn s.dlocks pa 8 = none → ∃ t, exec (.graphSignalNode die n) s = .next t ∧ (t.slot k).done = some (nodeNext m) ∧
              t.physWord pa = (if (m.w 3).getLsbD 0 then s.physWord pa + m.w 2 else m.w 2) ∧ (∀ a, a < pa ∨ pa + 8 ≤ a → Mem.byte t.dram a = Mem.byte s.dram a)) ∧
            (lockOn s.dlocks pa 8 ≠ none → waits (.graphSignalNode die n)))) ∧
        (ty = 7 → (m.w 1).getLsbD 0 = false → ∃ t, exec (.graphEndNode die n) s = .next t ∧ (t.slot k).st = .ended ∧ t.msix = s.msix ++ [1] ∧ t.me = s.me) ∧
        (x.cur = some m → x.sub = true → ty = 1 → (m.w 2).getLsbD 0 = false →
          exec (.graphNodeDone die n) s = .next (s.setSlot k { x with node := nodeNext m, cur := none, done := none, since := s.gt, sub := false })) ∧
        (x.cur = some m → x.sub = true → ty = 2 → noStamp m = true → ∀ a b len, s.copyRanges ctx m = .ok (a, b, len) → s.dram.wf = true → s.host.wf = true →
          s.nodeBad ctx (m.w 1) a len false = false → s.nodeBad ctx (m.w 2) b len true = false → (∀ z, s.home a ≠ .farDev z ∧ s.home b ≠ .farDev z) →
          (a + len ≤ hostBit ∨ hostBit ≤ a) → (b + len ≤ hostBit ∨ hostBit ≤ b) → ∃ t, exec (.graphNodeDone die n) s = .next t ∧ t.physBytes b len = s.physBytes a len ∧
          (t.slot k).node = nodeNext m ∧ (t.slot k).cur = none ∧ (t.slot k).sub = false ∧ t.me = s.me)))

/-! ### The host interface -/

/-- Control space (R384, R406, R407, R419, R431): an aligned write sets the register of its offset, and a write that starts a command takes its operands;
a misaligned one has no effect. EFLG and the counters are cleared by writes of their own. Each of these comes after the posted writes to BAR2.
BAR2 (R406, R411): a write stands at its requester's ordering point until it is released, oldest first; a sector of another tag aborts the access
and counts; a read waits for the posted writes and completes with the bytes. Beyond the size that the host has chosen, and where the DRAM is not
ready, a read aborts and a write is lost.
The model's own readings or choices in this are those of log 54, 55, 66. -/
def Obligations.ControlSpaceAndBars : Prop :=
  ((∀ (off : Nat) (v : W64) (s : State), off % 8 ≠ 0 → exec (.controlRegisterWrite off v) s = .next s) ∧
   (∀ (off : Nat) (v : W64) (s : State), off % 8 = 0 → exec (.controlRegisterWrite off v) s = .next (s.servePosted.controlWrite off v)) ∧
   (∀ (s : State), s.servePosted.posted = [] ∧ (s.posted = [] → s.servePosted = s) ∧
     (∀ w, s.posted = [w] → exec (.bar2WriteRelease w.req) s = .next s.servePosted) ∧
     (∀ k v b q d, ∀ i ∈ [Instr.eflgClear k v, .mismatchCountClear b, .portCountClear q d], exec i s = exec i s.servePosted)) ∧
   (∀ (v : W64) (s : State),
     (s.controlWrite 0x40 v).controlRead 0x40 = v &&& 15 ∧
     (∀ ch i, ch < 4 → i < 6 → (s.controlWrite (0x1000 + 64 * ch + 8 * i) v).controlRead (0x1000 + 64 * ch + 8 * i) = v) ∧
     (∀ ch, ch < 4 →
       let t := s.controlWrite (0x1000 + 64 * ch + 56) v
       let x := s.chan? ch
       (x.busy = false → t.chan? ch = { x with busy := true, ovr := false, code := 0, opcode := v, ops := x.regs, work := false, pos := 0 }) ∧
       (x.busy = true → t.chan? ch = { x with ovr := true })) ∧
     (∀ k i, 0 < k → k < 256 → i < 16 →
       let t := s.controlWrite (0x10000 + 128 * k + 8 * i) v
       ((s.ctx k).state = 0 ∨ (s.ctx k).state = 3 → i ≠ 6 →
         (t.ctx k).w i = ((s.ctx k).w i &&& ofNat (2 ^ 64 - 1 - descriptorMask i)) ||| (v &&& ofNat (descriptorMask i))) ∧
       ((s.ctx k).state ≠ 0 → (s.ctx k).state ≠ 3 → i ≠ 0 → t = s) ∧ (t.me.regs = s.me.regs)) ∧
     (∀ i < 8192, i % 4 ≠ 0 → (s.controlWrite (0x20000 + 8 * i) v).controlRead (0x20000 + 8 * i) = v) ∧
     (∀ i < 4, (s.controlWrite (0x32000 + 8 * i) v).controlRead (0x32000 + 8 * i) = v) ∧
     (∀ i < 4096, (s.controlWrite (0x60000 + 8 * i) v).controlRead (0x60000 + 8 * i) = v) ∧
     (s.portsDown = true → (s.controlWrite 0x70000 v).pkgid = v.setWidth 8) ∧ (s.portsDown = false → (s.controlWrite 0x70000 v).pkgid = s.pkgid)) ∧
   (∀ (k : Nat) (v : W64) (s : State), s.posted = [] → 0 < k → k < 256 → ∃ t, exec (.eflgClear k v) s = .next t ∧ (t.ctx k).w 10 = (s.ctx k).w 10 &&& ~~~v ∧ (∀ i, i ≠ 10 → (t.ctx k).w i = (s.ctx k).w i) ∧ t.me = s.me) ∧
   (∀ s : State, s.posted = [] → exec (.mismatchCountClear false) s = .next { s with misCnt := 0 } ∧ exec (.mismatchCountClear true) s = .next { s with uncCnt := 0 }) ∧
   (∀ (q : Nat) (d : Bool) (s : State), s.posted = [] → q < Config.nPorts →
     exec (.portCountClear q d) s = .next (s.setPort q (if d then { s.port q with downs := 0 } else { s.port q with naks := 0 })))) ∧
  ((∀ (req off : Nat) (bs : List Byte) (s : State), (off + bs.length ≤ s.barSize → exec (.bar2Write req off bs) s = .next { s with posted := s.posted ++ [⟨req, off, bs⟩] }) ∧
     (s.barSize < off + bs.length → exec (.bar2Write req off bs) s = .next s)) ∧
   (∀ (req : Nat) (w : HWrite) (l l' : List HWrite) (s : State), s.posted = l ++ w :: l' → (∀ x ∈ l, x.req ≠ req) → w.req = req →
     let pa := put s.pkgid.toNat 39 + w.off
     let n := w.data.length
     let xs := sectorsOf pa n
     (s.dramDark pa n = true → exec (.bar2WriteRelease req) s = .next { s with posted := l ++ l' }) ∧
     (s.dramDark pa n = false → (∀ x ∈ xs, s.dpois.contains x = false) → s.derr = [] → s.dram.wf = true → pa + n ≤ hostBit →
     ((∀ x ∈ xs, s.tagAt (64 * x) = s.barTag.setWidth 4) → ∃ t, exec (.bar2WriteRelease req) s = .next t ∧ t.posted = l ++ l' ∧ t.physBytes pa n = w.data ∧
       (∀ a, a < pa ∨ pa + n ≤ a → Mem.byte t.dram a = Mem.byte s.dram a) ∧ t.me = s.me) ∧
     ((∃ x ∈ xs, s.tagAt (64 * x) ≠ s.barTag.setWidth 4) → ∃ t, exec (.bar2WriteRelease req) s = .next t ∧ t.posted = l ++ l' ∧ t.dram = s.dram ∧
       t.misCnt.toNat = min (s.misCnt.toNat + 1) (2 ^ 64 - 1)))) ∧
   (∀ (req : Nat) (s : State), (∀ x ∈ s.posted, x.req ≠ req) → exec (.bar2WriteRelease req) s = .next s) ∧
   (∀ (off n : Nat) (s : State), s.posted ≠ [] → exec (.bar2Read off n) s = .next s) ∧
   (∀ (off n : Nat) (s : State), s.posted = [] → s.barSize < off + n ∨ s.dramDark (put s.pkgid.toNat 39 + off) n = true →
     exec (.bar2Read off n) s = .next { s with readOk := false, readData := [] }) ∧
   (∀ (off n : Nat) (s : State), s.posted = [] → off + n ≤ s.barSize → s.derr = [] →
     let pa := put s.pkgid.toNat 39 + off
     let xs := sectorsOf pa n
     s.dramDark pa n = false →
     ((∃ x ∈ xs, s.dpois.contains x = true) → ∃ t, exec (.bar2Read off n) s = .next t ∧ t.readOk = false ∧ t.readData = [] ∧ t.uncCnt.toNat = min (s.uncCnt.toNat + 1) (2 ^ 64 - 1)) ∧
     ((∀ x ∈ xs, s.dpois.contains x = false) →
       ((∃ x ∈ xs, s.tagAt (64 * x) ≠ s.barTag.setWidth 4) → ∃ t, exec (.bar2Read off n) s = .next t ∧ t.readOk = false ∧ t.readData = [] ∧ t.misCnt.toNat = min (s.misCnt.toNat + 1) (2 ^ 64 - 1)) ∧
       ((∀ x ∈ xs, s.tagAt (64 * x) = s.barTag.setWidth 4) → exec (.bar2Read off n) s = .next { s with readData := s.physBytes pa n, readOk := true }))))

/-- The debugger's window (R395): a register with its state, or bytes of local memory, of a core in a halted partition; a write of held or locked
bytes is turned away with nothing written.
Start-up, the security engine and the trip (R423 to R425): a Conventional Reset leaves the reset state but for host memory and the anti-rollback
counter; a function that passes its test is ready, one that fails is marked; an image runs if both signatures verify and its version is not older; an
SPDM request enters the transcript and gets a signed answer, one for measurements the four blocks too; the thermal trip stops every core and kills every context.
A failed self-test raises no interrupt (log 66); that a lock or a hold turns the debugger's write away where it covers one of the bytes written
is log 66's reading of R395's range-locked line.
The model's own readings or choices in this are those of log 40, 41, 56, 58, 66. -/
def Obligations.DebuggerAndStartUp : Prop :=
  (∀ (k : Nat) (s : State), k < Config.nCores →
     let c := s.core k
     (s.underDebug k = none → ∀ w b off bs, exec (.debugRead k w b) s = .next s ∧ exec (.debugWrite k off bs) s = .next s) ∧
     (∀ x, s.underDebug k = some x →
       (∀ n b, n < 64 → exec (.debugRead k (.s n) b) s = .next { s with readOk := true, readData := (match c.regs.getS (BitVec.ofNat 6 n) with
         | .vacant => [0] | .empty => bytesOf 0 8 ++ [1] | .full v => bytesOf v.toNat 8 ++ [2]) }) ∧
       (∀ off n, off + n ≤ 2 ^ 20 → (∀ i, off ≤ i → i < off + n → c.lineOwner (i / 64) = x ∧ c.isArrayFor x (i / 65536) = true) →
         exec (.debugRead k (.local off n) false) s = .next { s with readOk := true, readData := Mem.bytes c.mem off n }) ∧
       (∀ off bs, off + bs.length ≤ 2 ^ 20 →
         let ns := linesOf off bs.length
         let stuck := (∃ l ∈ ns, c.held l = true ∨ c.heldBank (l / 1024) = true ∨ c.seg.lines.contains l = true) ∨ (lockOn c.locks off bs.length).isSome = true ∨
           (∃ l ∈ ns, c.isArrayFor x (l / 1024) = false)
         (stuck → exec (.debugWrite k off bs) s = .next { s with readData := [], readOk := false }) ∧
         (¬stuck → bs ≠ [] → c.mem.wf = true → (∀ l ∈ ns, c.lineOwner l = x ∧ (c.bank (l / 1024)).owner = x) → ∃ t, exec (.debugWrite k off bs) s = .next t ∧ t.readOk = true ∧ t.readData = [] ∧
           Mem.bytes (t.core k).mem off bs.length = bs ∧ (∀ a, a < off ∨ off + bs.length ≤ a → Mem.byte (t.core k).mem a = Mem.byte c.mem a) ∧ (t.core k).regs = c.regs)))) ∧
  ((∀ s : State, ∃ t, exec .conventionalReset s = .next t ∧ t = { State.reset with
     agenda := s.agenda, host := s.host, nchoice := s.nchoice, sec := { State.reset.sec with rollback := s.sec.rollback } }) ∧
   (∀ (fn : Nat) (s : State), fn < 150 → s.isReady fn = false → s.isFailed fn = false → (fn < 128 → s.sec.verified = true) → s.powered fn = true →
     (∃ t, exec (.selfTestDone fn true) s = .next t ∧ t.isReady fn = true ∧ t.fails = s.fails ∧ t.msix = s.msix ++ [1] ∧ t.me = s.me) ∧
     (∃ t, exec (.selfTestDone fn false) s = .next t ∧ t.isFailed fn = true ∧ t.ready = s.ready ∧ t.msix = s.msix ∧ t.me = s.me)) ∧
   (∀ (fn : Nat) (b : Bool) (s : State), fn < 128 → s.sec.verified = false → exec (.selfTestDone fn b) s = .next s) ∧
   (∀ (image version : Nat) (s : State),
     let good := s.secReady = true ∧ Config.rsaVerifies image = true ∧ Config.slhVerifies image = true ∧ s.sec.rollback ≤ version
     (good → exec (.firmwareVerify image version) s = .next { s with sec := { s.sec with verified := true, version := version, image := image } }) ∧
     (¬good → exec (.firmwareVerify image version) s = .next s)) ∧
   (∀ (r i : Nat) (e : Instr) (s : State), [Instr.getVersion r, .getCapabilities r, .negotiateAlgorithms r, .getDigests r, .getCertificate r, .challenge r, .getMeasurements r][i]? = some e →
     (s.secReady = true → ∃ t, exec e s = .next t ∧ t.sec.log = s.sec.log ++ [(i, r)] ∧ t.sec.answer = Config.spdmAnswer i r s.sec.log ∧
       t.sec.sign = Config.rsaSign (Config.transcriptHash (s.sec.log ++ [(i, r)])) ∧ t.sec.blocks.length = (if i = 6 then 4 else 0) ∧ t.sec.verified = s.sec.verified ∧ t.sec.rollback = s.sec.rollback ∧ t.me = s.me) ∧
     (s.secReady = false → exec e s = .next s)) ∧
   (∀ s : State, ∃ t, exec .thermalTrip s = .next t ∧ t.trip = true ∧ t.msix.getLast? = some 0 ∧ t.me.stopped = true ∧ (∀ p ∈ t.others, p.2.stopped = true) ∧
     ∀ p ∈ s.ctxs, p.2.state ≠ 0 → (t.ctx p.1).state = 5))

/-! ### Registers, frames, decoding, steps -/

/-- ReadOp, last use, WriteReg and MarkEmpty (R12, R13, R54, R55, R90) of registers without a stream. s0 reads zero, FULL, and discards what is
written; a FULL register reads its value; a VACANT one traps with NAMES set, else gives a free value (log 3); an EMPTY one makes the instruction wait, or
traps where the operand says so. A last use makes its register VACANT; a write makes its destination FULL. No other register changes. -/
def Obligations.Operands : Prop :=
  (∀ (c : Core), c.regs.getS 0 = .full 0 ∧ ∀ x, c.setS 0 x = c) ∧
  (∀ (a : Src) (c : Core), c.stream? (scode a.reg) = none →
    (∀ v, c.regs.getS a.reg = .full v → readS a c = .ok (v, c)) ∧
    (c.regs.getS a.reg = .vacant → (c.ctl.mode.getLsbD 8 = true → readS a c = trap c 0x101 (a.reg.setWidth 64) 0) ∧
      (c.ctl.mode.getLsbD 8 = false → ∃ v, readS a c = .ok (v, { c with nund := c.nund + 1 }))) ∧
    (c.regs.getS a.reg = .empty → readS a c = if a.trap ∧ a.reg ≠ 0 then trap c 0x102 (a.reg.setWidth 64) 0 else .error (.wait .operand)) ∧
    (∀ r, (freeS a c).regs.getS r = if r = a.reg ∧ a.last = true ∧ r ≠ 0 then .vacant else c.regs.getS r) ∧
    (freeS a c).regs.v = c.regs.v ∧ (freeS a c).regs.m = c.regs.m ∧ { freeS a c with regs := c.regs } = c) ∧
  (∀ (d : BitVec 6) (x : W64) (c : Core), c.stream? (scode d) = none →
    (∃ c', writeS d x c = .ok c' ∧ (∀ r, c'.regs.getS r = if r = d ∧ r ≠ 0 then .full x else c.regs.getS r) ∧ c'.regs.v = c.regs.v ∧ c'.regs.m = c.regs.m ∧
      { c' with regs := c.regs } = c) ∧
    (destS d c = if c.regs.getS d = .empty then .error (.wait .dest) else .ok ()) ∧
    (∀ n, d ≠ 0 → ∃ c', produce d x n c = .ok c' ∧ (∀ r, c'.regs.getS r = if r = d then .empty else c.regs.getS r) ∧ c'.pend = c.pend ++ [⟨d.toNat, x, c.clk + n⟩] ∧
      { c' with regs := c.regs, pend := c.pend } = c) ∧
    (∀ n, d = 0 → produce d x n c = .ok c)) ∧
  (∀ (a : VSrc) (c : Core), c.stream? a.reg.toNat = none →
    (∀ v, c.regs.getV a.reg = .full v → readV a c = .ok (v, c)) ∧ (c.regs.getV a.reg = .empty → readV a c = if a.trap then trap c 0x102 (a.reg.setWidth 64) 1 else .error (.wait .operand)) ∧
    (∀ r, (freeV a c).regs.getV r = if r = a.reg ∧ a.last = true then .vacant else c.regs.getV r) ∧ (freeV a c).regs.s = c.regs.s) ∧
  (∀ (d : BitVec 5) (x : Line) (c : Core), c.stream? d.toNat = none → ∃ c', writeV d x c = .ok c' ∧
    (∀ r, c'.regs.getV r = if r = d then .full x else c.regs.getV r) ∧ c'.regs.s = c.regs.s ∧ c'.regs.m = c.regs.m ∧ { c' with regs := c.regs } = c) ∧
  (∀ (a : MSrc) (c : Core), (∀ v, c.regs.getM a.reg = .full v → readM a c = .ok (v, c)) ∧
    (∀ r, (freeM a c).regs.getM r = if r = a.reg ∧ a.last = true then .vacant else c.regs.getM r)) ∧
  (∀ (d : BitVec 3) (x : W64) (c : Core) (r : BitVec 3), (writeM d x c).regs.getM r = if r = d then .full x else c.regs.getM r)

/-- The frame of the instructions that act on registers only, in every state without bound streams: whatever the operands, such an instruction
waits, traps, or completes; when it completes, nothing of the package has changed but its destination, the sources that it frees, flags that it adds
to FLG, a result on its way, and pc. -/
def Obligations.RegisterFrame : Prop :=
  ∀ (i : Instr) (n : Names) (s : State), written i = some n → s.me.streams = [] → Framed s n (exec i s)

/-- The decoder on words that the spec writes out: the line of the worked example after R104, and the words of the examples of spec/07 to spec/24.
An opcode without an instruction is ILLOP, a reserved bit is RESV with its mask (R100, R101). -/
def Obligations.EncodedWords : Prop :=
  (decodeLine [0x8A, 0x26, 0x89, 0x26, 0x4A, 0x10, 0x89, 0x20, 0xC1, 0x07, 0xC0, 0x41, 0x00, 0x0B, 0x00, 0x00, 0, 0, 0, 0, 0, 0, 0, 0, 0, 0, 0, 0, 0, 0, 0, 0,
      0, 0, 0, 0, 0, 0, 0x04, 0x8A, 0, 0, 0, 0, 0x09, 0x00, 0x02, 0, 0, 0, 0x89, 0xFF, 0xFF, 0xFF, 0x0A, 0x09, 0x0A, 0, 0, 0, 0, 0, 0, 0]).map decode =
    [.instr (.li 10 0), .instr (.li 9 10), .instr (.add 10 ⟨false, false, 10⟩ ⟨false, false, 9⟩), .instr (.addi 9 ⟨true, false, 9⟩ 0xFFFFFF),
      .instr (.br .ne ⟨false, false, 9⟩ ⟨false, false, 0⟩ 2), .instr (.st .i64 ⟨false, false, 4⟩ ⟨true, false, 10⟩ 0), .instr .endAct] ∧
  decode (Raw.ofEnc 0x00000000_0915_52CC) = .instr (.xch 12 ⟨false, false, 21⟩ ⟨false, false, 9⟩ .lookup) ∧
  decode (Raw.ofEnc 0x450C0B14_4A8A) = .instr (.acas 10 ⟨false, false, 20⟩ ⟨false, false, 11⟩ ⟨false, false, 12⟩ .die .n32) ∧
  decode (Raw.ofEnc 0x220000408914_43D1) = .instr (.stv .f32 ⟨false, false, 20⟩ ⟨true, false, 9⟩ 0x40 ⟨true, false, false, 2⟩) ∧
  decode (Raw.ofEnc 0x11000004_6A86) = .instr (.vred 6 ⟨false, false, 4⟩ .add .rne .f32) ∧
  decode (Raw.ofEnc 0x34001186_8287) = .instr (.vpack 7 ⟨true, false, 6⟩ .f32 0 .rne true .e4m3) ∧
  decode (Raw.ofEnc 0x00961514_C280) = .instr (.ltsend 0 ⟨false, false, 20⟩ ⟨false, false, 21⟩ ⟨true, false, 22⟩) ∧
  decode (Raw.ofEnc 0x00000000_010A_40C7) = .instr (.ld 7 ⟨false, false, 10⟩ .i32 0) ∧
  decode (Raw.ofEnc 0xE401) = .instr (.eret true) ∧ decode (Raw.ofEnc 0x0F01) = .instr (.trap 1) ∧
  decode (Raw.ofEnc 0x008C_C151) = .instr (.ltlink true 1 ⟨true, false, 12⟩ ⟨false, false, 0⟩) ∧
  decode (Raw.ofEnc 0x0000020A_D089) = .instr (.gang 9 ⟨false, false, 10⟩ 2) ∧
  decode (Raw.ofEnc 0x0094_9078) = .instr (.sbind 56 ⟨true, false, 20⟩) ∧ decode (Raw.ofEnc 0x0015_934B) = .instr (.pour 11 ⟨false, false, 21⟩) ∧
  decode (Raw.ofEnc 0x20000C18_958A) = .instr (.barx 10 ⟨false, false, 24⟩ ⟨false, false, 12⟩ .cluster) ∧
  decode (Raw.ofEnc 0x20001514_B28A) = .instr (.spawn 10 ⟨false, false, 20⟩ ⟨false, false, 21⟩ .cluster) ∧
  decode (Raw.ofEnc 0x00108F8D_A891) = .instr (.gsort 17 ⟨true, false, 13⟩ ⟨true, false, 15⟩ ⟨false, false, 16⟩) ∧
  decode (Raw.ofEnc 0x40008B95_4580) = .instr (.sts ⟨true, false, 21⟩ ⟨true, false, 11⟩ .die .i64) ∧
  decode (Raw.ofEnc 0x0015_D24B) = .instr (.coll 11 ⟨false, false, 21⟩) ∧
  decode (Raw.ofEnc 0x0000) = .illop ∧ decode (Raw.ofEnc 0x00004002_0009_07C1) = .resv 0x0000_4000_0000_0000

/-- Decoding what the encoder writes gives the instruction back, for every well-formed instruction that has an encoding, with every operand at
every value that the encoding admits. -/
def Obligations.DecodeOfEncode : Prop :=
  ∀ i : Instr, i.isCore = true → i.wf = true → ∃ r, encode i = some r ∧ decode r = .instr i

/-- A step runs the decoded instruction (R13, R17, R87, R100): the turn of a core that may issue takes its clk and performs the instruction at pc,
with the observations of R398 and R403 after it; a reserved opcode, a reserved field and an address that is not valid raise their traps. The
leader of a gang issues its head in every member, and a follower issues in no turn of its own (R300). A core whose die sleeps, that has a
standing report, that waits for its trace ring, or that is idle or held does what its row says and issues nothing.
An instruction is performed as exec gives it where the core has nothing to meet again from before a report and binds no stream.
A scheduled step of another agent is executed as it stands. A step that nobody has scheduled is the turn of the core in focus, and leaves a round
in which every other running core and every agent that has something to do takes its turn: packets land, are served and time out, the cores,
their engines, parks and streams move, and so do the hubs, the sequencers, the host interface, the rings and the ports; so nothing that stays
enabled waits for ever (R17).
The model's own readings or choices in this are those of log 2 (what a turn's clk covers), log 8 (the order of a round) and log 16 and 49 (what is met
again). -/
def Obligations.StepRunsDecoded : Prop :=
  -- the turn of a core outside a gang
  (∀ v : State, v.me.gang = none → (v.power.toList.getD (dieOf v.cur) 0).toNat < 2 →
    let u := v.tick.drainTraces
    (u.me.report.isSome = true → State.turn exec v = .next u.settle) ∧
    (u.me.report = none → u.me.traceOut ≠ [] → State.turn exec v = .next (u.waiting .ring)) ∧
    (u.me.report = none → u.me.traceOut = [] → u.rollBad = none →
      (u.me.running = false ∨ u.me.held? = true ∨ u.spent = true → State.turn exec v = .next u) ∧
      (u.me.running = true → u.me.held? = false → u.spent = false → ∀ w, State.sendAll u [v.cur] = (true, w) → w.headBreak = none →
        let ends := fun (seen : State → State) (o : Out) => State.turn exec v = match o with | .next t => .next (w.after (seen t)) | o => o
        (∀ r i, w.me.fetch w.me.pc = some r → decode r = .instr i → ends (w.observe i) (State.perform exec i w)) ∧
        (∀ r, w.me.fetch w.me.pc = some r → decode r = .illop → ends id (exec (.illop r.enc) w)) ∧
        (∀ r mask, w.me.fetch w.me.pc = some r → decode r = .resv mask → gangIllop w.me r mask = false → ends id (traps w 0x002 r.enc mask 0)) ∧
        (w.me.fetch w.me.pc = none → ends id (exec (.sequentialFlowBadtgt v.cur) w))))) ∧
  (∀ (i : Instr) (w : State), w.me.again = [] → w.me.streams = [] → State.perform exec i w = exec i w) ∧
  (∀ v : State, 2 ≤ (v.power.toList.getD (dieOf v.cur) 0).toNat → State.turn exec v = .next { v with me := { v.me with at9 := v.el9 } }) ∧
  -- the turns of a gang
  (∀ (v : State) (g : Gang), v.me.gang = some g → (v.power.toList.getD (dieOf v.cur) 0).toNat < 2 →
    (g.idx ≠ 0 → State.turn exec v = .next v) ∧
    (g.idx = 0 →
      let u := onCores v.gangOf State.drainTraces (v.gangOf.foldl (fun s k => onCore k State.tick s) v)
      (∀ k ∈ u.gangOf, (u.core k).report = none ∧ (u.core k).traceOut = []) → u.rollBad = none → u.me.running = true → u.me.held? = false → u.spent = false →
      ∀ w r i, State.sendAll u u.gangOf = (true, w) → w.headBreak = none → w.me.gang.isSome = true → w.me.fetch w.me.pc = some r → decode r = .instr i →
        State.turn exec v = match gangIssue (State.perform exec) i w with | .next t => .next (w.after (w.observe i t)) | o => o)) ∧
  -- steps
  (∀ (k : Nat) (l : List Turn) (s : State), s.agenda = .issue k :: l → k < Config.nCores → step s = State.turn exec (({ s with agenda := l } : State).focus k)) ∧
  (∀ (k : Nat) (l : List Turn) (s : State), s.agenda = .issue k :: l → Config.nCores ≤ k → step s = .fault .noSuchUnit) ∧
  (∀ (i : Instr) (l : List Turn) (s : State), s.agenda = .event i :: l → step s = exec i { s with agenda := l }) ∧
  (∀ (x : Nat) (flips : List (Nat × Byte)) (l : List Turn) (s : State), s.agenda = .upset x flips :: l → step s = .next (({ s with agenda := l } : State).upset x flips)) ∧
  (∀ (j m : Nat) (l : List Turn) (s : State), let s' : State := { s with agenda := l }
    (∀ x ∈ [(Auto.releaseEntries, Instr.releaseEntries), (.landEntry, .landEntry), (.entryAck, .entryAck), (.commit, .commit),
         (.commitNoticeServe, .commitNoticeServe), (.commitComplete, .commitComplete), (.abortNoticeServe, .abortNoticeServe),
         (.requestServe, .requestServe), (.replyArrival, .replyArrival), (.retransmitTimeout, .retransmitTimeout), (.strikeReport, .strikeReport),
         (.budgetExhausted, .budgetExhausted), (.dispatch, .dispatch), (.stealWaitExpiry, .stealWaitExpiry), (.park, .park),
         (.trapHandlerDispatch, .trapHandlerDispatch), (.trapRingResume, .trapRingResume), (.ploadExecute, .ploadExecute),
         (.pswapExecute, .pswapExecute), (.prunFinish, .prunFinish), (.ptestFinish, .ptestFinish), (.grinderSliceFinish, .grinderSliceFinish),
         (.gangForm, .gangForm), (.gangWaitTimeout, .gangWaitTimeout), (.dripLand, .dripLand), (.idleAdvance, .idleAdvance),
         (.idleDripPeriod, .idleDripPeriod), (.releaseMark, .releaseMark), (.swapSettle, .swapSettle), (.swapEnter, .swapEnter),
         (.haltRecordWrite, .haltRecordWrite), (.stepDone, .stepDone), (.revokeDone, .revokeDone), (.ringConsReread, .ringConsReread),
         (.ringInterruptTimer, .ringInterruptTimer), (.commandCompletion, .commandCompletion)],
      s.agenda = .own x.1 j 0 0 :: l → step s = exec (x.2 j) s') ∧
    (∀ x ∈ [(Auto.resultDelivery, Instr.resultDelivery), (.stealAttempt, .stealAttempt), (.watchReady, .watchReady),
         (.engineCompletion, .engineCompletion), (.enginePreimageFree, .enginePreimageFree), (.pourStart, .pourStart), (.streamFill, .streamFill),
         (.waveStart, .waveStart), (.waveCombine, .waveCombine), (.doneBlockWrite, .doneBlockWrite), (.taskRecordPush, .taskRecordPush),
         (.leaseDrained, .leaseDrained), (.leaseLoaded, .leaseLoaded), (.collContribute, .collContribute), (.collCombine, .collCombine),
         (.collResultLand, .collResultLand), (.collOutputExpiry, .collOutputExpiry), (.rowReloadDone, .rowReloadDone),
         (.graphWaitTimeout, .graphWaitTimeout), (.graphNodeDone, .graphNodeDone)],
      s.agenda = .own x.1 j m 0 :: l → step s = exec (x.2 j m) s') ∧
    (∀ b c, s.agenda = .own .pourFlitLand j b c :: l → step s = exec (.pourFlitLand (j / 16) (j % 16) ⟨b, c⟩) s') ∧
    (s.agenda = .own .pourReceiverCompletion j m 0 :: l → step s = exec (.pourReceiverCompletion (j / 16) (j % 16) m) s') ∧
    (∀ x, s.agenda = .own .linkReplay j 0 0 :: l → (s.port j).asked = some x → step s = exec (.linkReplay j x) s') ∧
    (s.agenda = .own .postedRelease j 0 0 :: l → step s = exec (.bar2WriteRelease j) s')) ∧
  -- a round
  (∀ s : State, s.agenda = [] → step s = match State.turn exec s with | .next t => .next { t with agenda := t.round } | o => o) ∧
  (∀ t : State,
    let has := fun (n : Auto) (a b : Nat) => Turn.own n a b 0 ∈ t.round
    (∀ k ∈ t.cores, k ≠ t.cur → (t.core k).running = true → .issue k ∈ t.round) ∧
    (∀ (j : Nat) (p : Packet), t.chan[j]? = some p → has .retransmitTimeout j 0 ∧ (match p.body with
      | .entry .. => has .landEntry j 0
      | .ack .. | .abortAck _ => has .entryAck j 0
      | .notice _ | .noticeAck .. => has .commitNoticeServe j 0
      | .abort _ => has .abortNoticeServe j 0
      | .request .. | .sub .. | .res .. => has .requestServe j 0
      | .reply .. | .subAck .. | .resAck .. => has .replyArrival j 0
      | .drip .. => has .dripLand j 0)) ∧
    (∀ k, k ∈ t.cores ∨ (∃ x ∈ t.leases, x.2.st ≠ .free ∧ k ∈ rowCores x.1) →
      (∀ n ∈ [Auto.trapRingResume, .trapHandlerDispatch, .releaseEntries, .commit, .commitComplete, .releaseMark, .ploadExecute, .pswapExecute, .prunFinish,
          .ptestFinish, .grinderSliceFinish, .gangForm, .gangWaitTimeout, .haltRecordWrite, .stepDone, .dispatch, .park, .budgetExhausted, .idleAdvance,
          .idleDripPeriod, .stealWaitExpiry], has n k 0) ∧
      (∀ o ∈ (t.core k).ops, ∀ n ∈ [Auto.collContribute, .collCombine, .collResultLand, .engineCompletion, .enginePreimageFree], has n k o.seq) ∧
      has .enginePreimageFree k 0 ∧ (∀ x ∈ (t.core k).colls, has .collOutputExpiry k x.1) ∧ (∀ x ∈ (t.core k).streams, has .streamFill k x.code) ∧
      (∀ j < (t.core k).parks.length, has .watchReady k j) ∧ (∀ j < (t.core k).pend.length, has .resultDelivery k j) ∧
      (∀ j, ((t.focus k).searchOrder ((t.focus k).lease (rowId k)))[(t.core k).victims]? = some j → has .stealAttempt k j)) ∧
    (∀ p ∈ t.pours, has .pourStart p.cluster p.ch ∧ ∀ x ∈ p.landed, .own .pourFlitLand (16 * p.cluster + p.ch) x.1 (prefixOf x.2) ∈ t.round ∧
      has .pourReceiverCompletion (16 * p.cluster + p.ch) x.1) ∧
    (∀ x ∈ t.leases, ∀ n ∈ [Auto.leaseLoaded, .leaseDrained, .rowReloadDone], has n (x.1 / 8) (x.1 % 8)) ∧
    (∀ x ∈ t.launches, ∀ n ∈ [Auto.taskRecordPush, .waveCombine, .waveStart, .doneBlockWrite], has n x.ctx.toNat x.lnch.toNat) ∧
    (∀ j < t.strikes.length, has .strikeReport j 0) ∧
    (∀ ch < 4, (t.chan? ch).busy = true → ∀ n ∈ [Auto.command, .revokeDone, .commandCompletion], has n ch 0) ∧
    (∀ x ∈ t.ctxs, x.2.drain.isSome = true → has .swapSettle x.1 0 ∧ has .swapEnter x.1 0) ∧
    (∀ x ∈ t.slots, x.2.st = .running → ∀ n ∈ [Auto.graphNode, .graphWaitTimeout, .graphNodeDone], has n (x.1 / 16) (x.1 % 16)) ∧
    (∀ x ∈ t.rings, has .ringConsReread x.1 0 ∧ has .ringInterruptTimer x.1 0) ∧ (∀ x ∈ t.posted, has .postedRelease x.req 0) ∧
    (∀ x ∈ t.ports, has .linkReplay x.1 0))

/-- What reset leaves (R165, R332, R384, R406 to R408, R413, R424, R438): every core idle with its banks in their reset personalities, every
row FREE, every context FREE without a trace ring, no function ready, no command, no graph and no ring in progress, every port down. Every memory is
canonical (that it lists nothing is the model's choice, log 6). That the state with no reset value of its own is zero or empty
(gt9, the parks, the locks, the streams, the mailbox and the deque) is the model's choice, log 5. -/
def Obligations.ResetState : Prop :=
  let s := State.reset
  (∀ k, let c := s.core k
    c.running = false ∧ c.closing = [] ∧ c.mailbox = [] ∧ c.deque = [] ∧ c.parks = [] ∧ c.ops = [] ∧ c.locks = [] ∧ c.halted = none ∧ c.gang = none ∧ c.streams = [] ∧
    (∀ b < 14, (c.bank b).data = .array) ∧ (c.bank 14).data = .deque ∧ (c.bank 15).data = .mailbox) ∧
  (∀ r, (s.lease r).st = .free) ∧ (∀ k, (s.ctx k).state = 0 ∧ (s.ctx k).w 6 = 0xFFFF000000000000) ∧
  (∀ fn, s.isReady fn = false ∧ s.isFailed fn = false) ∧ (∀ ch, (s.chan? ch).busy = false) ∧ (∀ k, (s.slot k).st = .idle) ∧ (∀ j, (s.ring j).en = false) ∧
  (∀ q, (s.port q).up = false) ∧ s.barTag = 0 ∧ s.misCnt = 0 ∧ s.uncCnt = 0 ∧ s.sec.verified = false ∧ s.trip = false ∧ s.gt9 = 0 ∧ Canonical s

/-- Every memory of the package stays in its canonical form: local memory, instruction store and accumulator rows of every core and of every image, device
DRAM and host memory, through every step from any state in which they are. -/
def Obligations.MemoryStaysCanonical : Prop :=
  ∀ s t : State, Canonical s → step s = .next t → Canonical t
end

