-- ==== Sys2Proof/Laws/Memory.lean ====
section
/-! SUPPORT. Memory keeps its canonical form under every operation, one byte is set and read, and maps by number. -/

namespace Sys2Proof.Machine

/-! ### The canonical form -/

theorem Mem.wfFrom_mono {m : Mem} {a b : Nat} (h : b ≤ a) (hm : Mem.wfFrom a m = true) : Mem.wfFrom b m = true := by
  cases m with
  | nil => rfl
  | cons c m => simp [Mem.wfFrom] at hm ⊢; exact ⟨⟨by omega, hm.1.2⟩, hm.2⟩

theorem Mem.wfFrom_cons (a k : Nat) (x : Byte) (m : Mem) :
    Mem.wfFrom a ((k, x) :: m) = true ↔ a ≤ k ∧ x ≠ 0 ∧ Mem.wfFrom (k + 1) m = true := by
  simp only [Mem.wfFrom, Bool.and_eq_true, decide_eq_true_eq, and_assoc]

theorem Mem.wfFrom_set {m : Mem} {a k : Nat} {x : Byte} (hk : a ≤ k) (hm : Mem.wfFrom a m = true) :
    Mem.wfFrom a (Mem.set m k x) = true := by
  induction m generalizing a with
  | nil =>
    simp only [Mem.set]; split
    · rfl
    · rename_i hx; exact (Mem.wfFrom_cons ..).2 ⟨hk, hx, rfl⟩
  | cons c m ih =>
    obtain ⟨j, y⟩ := c
    have h := (Mem.wfFrom_cons ..).1 hm
    simp only [Mem.set]
    split
    · split
      · exact hm
      · rename_i hlt hx; exact (Mem.wfFrom_cons ..).2 ⟨hk, hx, (Mem.wfFrom_cons ..).2 ⟨hlt, h.2⟩⟩
    · split
      · rename_i heq; subst heq
        split
        · exact Mem.wfFrom_mono (by omega) h.2.2
        · rename_i hx; exact (Mem.wfFrom_cons ..).2 ⟨hk, hx, h.2.2⟩
      · exact (Mem.wfFrom_cons ..).2 ⟨h.1, h.2.1, ih (by omega) h.2.2⟩

theorem Mem.wf_set {m : Mem} (a : Nat) (x : Byte) (h : m.wf = true) : (Mem.set m a x).wf = true :=
  Mem.wfFrom_set (Nat.zero_le _) h

theorem Mem.wf_put {m : Mem} (a : Nat) (bs : List Byte) (h : m.wf = true) : (Mem.put m a bs).wf = true := by
  induction bs generalizing m a with
  | nil => exact h
  | cons x bs ih => exact ih (a + 1) (Mem.wf_set a x h)

theorem Mem.wf_putNat {m : Mem} (a n x : Nat) (h : m.wf = true) : (Mem.putNat m a n x).wf = true := Mem.wf_put a _ h

theorem Mem.wfFrom_filter (p : Nat × Byte → Bool) {m : Mem} {a : Nat} (h : Mem.wfFrom a m = true) :
    Mem.wfFrom a (m.filter p) = true := by
  induction m generalizing a with
  | nil => rfl
  | cons c m ih =>
    simp [Mem.wfFrom] at h
    simp only [List.filter]
    split
    · simp [Mem.wfFrom, h]; exact ih h.2
    · exact ih (Mem.wfFrom_mono (by omega) h.2)

theorem Mem.wf_filter (p : Nat × Byte → Bool) {m : Mem} (h : m.wf = true) : Mem.wf (m.filter p) = true := Mem.wfFrom_filter p h

theorem Mem.wf_clear {m : Mem} (a n : Nat) (h : m.wf = true) : (Mem.clear m a n).wf = true := Mem.wf_filter _ h

theorem Mem.wf_foldl {α : Type} (f : Mem → α → Mem) (hf : ∀ m x, m.wf = true → (f m x).wf = true) (l : List α) {m : Mem}
    (h : m.wf = true) : (l.foldl f m).wf = true := by
  induction l generalizing m with
  | nil => exact h
  | cons x l ih => exact ih (hf m x h)

theorem Mem.wf_splice {m : Mem} (a n : Nat) (img : Mem) (h : m.wf = true) : (Mem.splice m a n img).wf = true := by
  refine Mem.wf_foldl _ (fun m c hm => ?_) img (Mem.wf_clear a n h)
  split
  · exact Mem.wf_set _ _ hm
  · exact hm

/-! ### One byte -/

theorem Mem.byte_lt {m : Mem} {a k : Nat} (h : Mem.wfFrom a m = true) (hk : k < a) : Mem.byte m k = 0 := by
  cases m with
  | nil => rfl
  | cons c m => simp [Mem.wfFrom] at h; simp [Mem.byte, show k < c.1 by omega]

theorem Mem.byte_set_from {m : Mem} {a k : Nat} (x : Byte) (j : Nat) (h : Mem.wfFrom a m = true) :
    Mem.byte (Mem.set m k x) j = if j = k then x else Mem.byte m j := by
  induction m generalizing a with
  | nil =>
    by_cases hx : x = 0#8 <;> simp [Mem.set, Mem.byte, hx]
    by_cases hj : j = k <;> simp [hj]
  | cons c m ih =>
    obtain ⟨i, y⟩ := c
    simp [Mem.wfFrom] at h
    have ih := ih h.2
    simp only [Mem.set]
    by_cases hki : k < i
    · by_cases hx : x = 0#8
      · by_cases hj : j = k
        · simp [hki, hx, hj, Mem.byte]
        · simp [hki, hx, hj]
      · by_cases hj : j = k
        · simp [hki, hx, hj, Mem.byte]
        · by_cases hjk : j < k
          · simp [hki, hx, hj, Mem.byte, hjk, show j < i by omega]
          · simp [hki, hx, hj, Mem.byte, hjk]
    · by_cases hk : k = i
      · subst hk
        by_cases hx : x = 0#8
        · by_cases hj : j = k
          · subst hj; simp [hx, Mem.byte_lt h.2]
          · by_cases hjk : j < k
            · simp [hx, hj, Mem.byte, hjk, Mem.byte_lt h.2 (show j < k + 1 by omega)]
            · simp [hx, hj, Mem.byte, hjk]
        · by_cases hj : j = k
          · simp [hx, hj, Mem.byte]
          · simp [hx, hj, Mem.byte]
      · simp only [hki, hk, if_false, Mem.byte, ih]
        by_cases hj : j = k
        · subst hj; simp [show ¬ j < i by omega, hk]
        · simp [hj]

theorem Mem.byte_set {m : Mem} (k : Nat) (x : Byte) (j : Nat) (h : m.wf = true) :
    Mem.byte (Mem.set m k x) j = if j = k then x else Mem.byte m j := Mem.byte_set_from x j h

/-! ### Maps by number -/

theorem aget_aset {α : Type} (l : List (Nat × α)) (a b : Nat) (x : α) : aget (aset l a x) b = if b = a then some x else aget l b := by
  induction l with
  | nil => by_cases h : b = a <;> simp [aset, aget, h]
  | cons p l ih =>
    obtain ⟨k, y⟩ := p
    simp only [aset]
    split
    · by_cases h : b = a <;> simp [aget, h]
    · split
      · rename_i h1 h2; subst h2; by_cases h : b = a <;> simp [aget, h]
      · rename_i h1 h2
        by_cases h : b = a
        · subst h; simp [aget, h2, ih]
        · simp [aget, ih, h]

theorem aget_adel {α : Type} (l : List (Nat × α)) (a b : Nat) : aget (adel l a) b = if b = a then none else aget l b := by
  induction l with
  | nil => simp [adel, aget]
  | cons p l ih =>
    obtain ⟨k, y⟩ := p
    have e : adel ((k, y) :: l) a = if k = a then adel l a else (k, y) :: adel l a := by
      by_cases h : k = a <;> simp [adel, h]
    rw [e]
    by_cases h : k = a
    · subst h; rw [if_pos rfl, ih]; by_cases hb : b = k <;> simp [hb, aget]
    · by_cases hb : b = k
      · subst hb; simp [aget, h]
      · simp [aget, hb, ih, h]

end Sys2Proof.Machine
end

