-- ==== Sys2Proof/Laws/State.lean ====
section
/-! SUPPORT. One lemma for each field and each update of a core or of the package. -/

namespace Sys2Proof.Machine

/-! ### Core.setS -/

@[simp] theorem Core.setS_id (c : Core) (d : BitVec 6) (x : Cell 64) : (c.setS d x).id = c.id := by unfold Core.setS; split <;> rfl
@[simp] theorem Core.setS_running (c : Core) (d : BitVec 6) (x : Cell 64) : (c.setS d x).running = c.running := by unfold Core.setS; split <;> rfl
@[simp] theorem Core.setS_act (c : Core) (d : BitVec 6) (x : Cell 64) : (c.setS d x).act = c.act := by unfold Core.setS; split <;> rfl
@[simp] theorem Core.setS_ctl (c : Core) (d : BitVec 6) (x : Cell 64) : (c.setS d x).ctl = c.ctl := by unfold Core.setS; split <;> rfl
@[simp] theorem Core.setS_pc (c : Core) (d : BitVec 6) (x : Cell 64) : (c.setS d x).pc = c.pc := by unfold Core.setS; split <;> rfl
@[simp] theorem Core.setS_wait (c : Core) (d : BitVec 6) (x : Cell 64) : (c.setS d x).wait = c.wait := by unfold Core.setS; split <;> rfl
@[simp] theorem Core.setS_spin (c : Core) (d : BitVec 6) (x : Cell 64) : (c.setS d x).spin = c.spin := by unfold Core.setS; split <;> rfl
@[simp] theorem Core.setS_pend (c : Core) (d : BitVec 6) (x : Cell 64) : (c.setS d x).pend = c.pend := by unfold Core.setS; split <;> rfl
@[simp] theorem Core.setS_reads (c : Core) (d : BitVec 6) (x : Cell 64) : (c.setS d x).reads = c.reads := by unfold Core.setS; split <;> rfl
@[simp] theorem Core.setS_marks (c : Core) (d : BitVec 6) (x : Cell 64) : (c.setS d x).marks = c.marks := by unfold Core.setS; split <;> rfl
@[simp] theorem Core.setS_irrev (c : Core) (d : BitVec 6) (x : Cell 64) : (c.setS d x).irrev = c.irrev := by unfold Core.setS; split <;> rfl
@[simp] theorem Core.setS_report (c : Core) (d : BitVec 6) (x : Cell 64) : (c.setS d x).report = c.report := by unfold Core.setS; split <;> rfl
@[simp] theorem Core.setS_raised (c : Core) (d : BitVec 6) (x : Cell 64) : (c.setS d x).raised = c.raised := by unfold Core.setS; split <;> rfl
@[simp] theorem Core.setS_frame (c : Core) (d : BitVec 6) (x : Cell 64) : (c.setS d x).frame = c.frame := by unfold Core.setS; split <;> rfl
@[simp] theorem Core.setS_parks (c : Core) (d : BitVec 6) (x : Cell 64) : (c.setS d x).parks = c.parks := by unfold Core.setS; split <;> rfl
@[simp] theorem Core.setS_streams (c : Core) (d : BitVec 6) (x : Cell 64) : (c.setS d x).streams = c.streams := by unfold Core.setS; split <;> rfl
@[simp] theorem Core.setS_seg (c : Core) (d : BitVec 6) (x : Cell 64) : (c.setS d x).seg = c.seg := by unfold Core.setS; split <;> rfl
@[simp] theorem Core.setS_closing (c : Core) (d : BitVec 6) (x : Cell 64) : (c.setS d x).closing = c.closing := by unfold Core.setS; split <;> rfl
@[simp] theorem Core.setS_pubs (c : Core) (d : BitVec 6) (x : Cell 64) : (c.setS d x).pubs = c.pubs := by unfold Core.setS; split <;> rfl
@[simp] theorem Core.setS_confirmed (c : Core) (d : BitVec 6) (x : Cell 64) : (c.setS d x).confirmed = c.confirmed := by unfold Core.setS; split <;> rfl
@[simp] theorem Core.setS_past (c : Core) (d : BitVec 6) (x : Cell 64) : (c.setS d x).past = c.past := by unfold Core.setS; split <;> rfl
@[simp] theorem Core.setS_again (c : Core) (d : BitVec 6) (x : Cell 64) : (c.setS d x).again = c.again := by unfold Core.setS; split <;> rfl
@[simp] theorem Core.setS_rcache (c : Core) (d : BitVec 6) (x : Cell 64) : (c.setS d x).rcache = c.rcache := by unfold Core.setS; split <;> rfl
@[simp] theorem Core.setS_mseq (c : Core) (d : BitVec 6) (x : Cell 64) : (c.setS d x).mseq = c.mseq := by unfold Core.setS; split <;> rfl
@[simp] theorem Core.setS_tseq (c : Core) (d : BitVec 6) (x : Cell 64) : (c.setS d x).tseq = c.tseq := by unfold Core.setS; split <;> rfl
@[simp] theorem Core.setS_mem (c : Core) (d : BitVec 6) (x : Cell 64) : (c.setS d x).mem = c.mem := by unfold Core.setS; split <;> rfl
@[simp] theorem Core.setS_owner (c : Core) (d : BitVec 6) (x : Cell 64) : (c.setS d x).owner = c.owner := by unfold Core.setS; split <;> rfl
@[simp] theorem Core.setS_poison (c : Core) (d : BitVec 6) (x : Cell 64) : (c.setS d x).poison = c.poison := by unfold Core.setS; split <;> rfl
@[simp] theorem Core.setS_banks (c : Core) (d : BitVec 6) (x : Cell 64) : (c.setS d x).banks = c.banks := by unfold Core.setS; split <;> rfl
@[simp] theorem Core.setS_imgSlot (c : Core) (d : BitVec 6) (x : Cell 64) : (c.setS d x).imgSlot = c.imgSlot := by unfold Core.setS; split <;> rfl
@[simp] theorem Core.setS_mailbox (c : Core) (d : BitVec 6) (x : Cell 64) : (c.setS d x).mailbox = c.mailbox := by unfold Core.setS; split <;> rfl
@[simp] theorem Core.setS_deque (c : Core) (d : BitVec 6) (x : Cell 64) : (c.setS d x).deque = c.deque := by unfold Core.setS; split <;> rfl
@[simp] theorem Core.setS_dqTop (c : Core) (d : BitVec 6) (x : Cell 64) : (c.setS d x).dqTop = c.dqTop := by unfold Core.setS; split <;> rfl
@[simp] theorem Core.setS_mbHead (c : Core) (d : BitVec 6) (x : Cell 64) : (c.setS d x).mbHead = c.mbHead := by unfold Core.setS; split <;> rfl
@[simp] theorem Core.setS_imem (c : Core) (d : BitVec 6) (x : Cell 64) : (c.setS d x).imem = c.imem := by unfold Core.setS; split <;> rfl
@[simp] theorem Core.setS_handlers (c : Core) (d : BitVec 6) (x : Cell 64) : (c.setS d x).handlers = c.handlers := by unfold Core.setS; split <;> rfl
@[simp] theorem Core.setS_loaded (c : Core) (d : BitVec 6) (x : Cell 64) : (c.setS d x).loaded = c.loaded := by unfold Core.setS; split <;> rfl
@[simp] theorem Core.setS_acc (c : Core) (d : BitVec 6) (x : Cell 64) : (c.setS d x).acc = c.acc := by unfold Core.setS; split <;> rfl
@[simp] theorem Core.setS_accOwner (c : Core) (d : BitVec 6) (x : Cell 64) : (c.setS d x).accOwner = c.accOwner := by unfold Core.setS; split <;> rfl
@[simp] theorem Core.setS_accPoison (c : Core) (d : BitVec 6) (x : Cell 64) : (c.setS d x).accPoison = c.accPoison := by unfold Core.setS; split <;> rfl
@[simp] theorem Core.setS_derived (c : Core) (d : BitVec 6) (x : Cell 64) : (c.setS d x).derived = c.derived := by unfold Core.setS; split <;> rfl
@[simp] theorem Core.setS_active (c : Core) (d : BitVec 6) (x : Cell 64) : (c.setS d x).active = c.active := by unfold Core.setS; split <;> rfl
@[simp] theorem Core.setS_shadow (c : Core) (d : BitVec 6) (x : Cell 64) : (c.setS d x).shadow = c.shadow := by unfold Core.setS; split <;> rfl
@[simp] theorem Core.setS_fenced (c : Core) (d : BitVec 6) (x : Cell 64) : (c.setS d x).fenced = c.fenced := by unfold Core.setS; split <;> rfl
@[simp] theorem Core.setS_lseq (c : Core) (d : BitVec 6) (x : Cell 64) : (c.setS d x).lseq = c.lseq := by unfold Core.setS; split <;> rfl
@[simp] theorem Core.setS_grinder (c : Core) (d : BitVec 6) (x : Cell 64) : (c.setS d x).grinder = c.grinder := by unfold Core.setS; split <;> rfl
@[simp] theorem Core.setS_engSeq (c : Core) (d : BitVec 6) (x : Cell 64) : (c.setS d x).engSeq = c.engSeq := by unfold Core.setS; split <;> rfl
@[simp] theorem Core.setS_ops (c : Core) (d : BitVec 6) (x : Cell 64) : (c.setS d x).ops = c.ops := by unfold Core.setS; split <;> rfl
@[simp] theorem Core.setS_ring (c : Core) (d : BitVec 6) (x : Cell 64) : (c.setS d x).ring = c.ring := by unfold Core.setS; split <;> rfl
@[simp] theorem Core.setS_planes0 (c : Core) (d : BitVec 6) (x : Cell 64) : (c.setS d x).planes0 = c.planes0 := by unfold Core.setS; split <;> rfl
@[simp] theorem Core.setS_grind0 (c : Core) (d : BitVec 6) (x : Cell 64) : (c.setS d x).grind0 = c.grind0 := by unfold Core.setS; split <;> rfl
@[simp] theorem Core.setS_locks (c : Core) (d : BitVec 6) (x : Cell 64) : (c.setS d x).locks = c.locks := by unfold Core.setS; split <;> rfl
@[simp] theorem Core.setS_traceOut (c : Core) (d : BitVec 6) (x : Cell 64) : (c.setS d x).traceOut = c.traceOut := by unfold Core.setS; split <;> rfl
@[simp] theorem Core.setS_pours (c : Core) (d : BitVec 6) (x : Cell 64) : (c.setS d x).pours = c.pours := by unfold Core.setS; split <;> rfl
@[simp] theorem Core.setS_colls (c : Core) (d : BitVec 6) (x : Cell 64) : (c.setS d x).colls = c.colls := by unfold Core.setS; split <;> rfl
@[simp] theorem Core.setS_rounds (c : Core) (d : BitVec 6) (x : Cell 64) : (c.setS d x).rounds = c.rounds := by unfold Core.setS; split <;> rfl
@[simp] theorem Core.setS_lt (c : Core) (d : BitVec 6) (x : Cell 64) : (c.setS d x).lt = c.lt := by unfold Core.setS; split <;> rfl
@[simp] theorem Core.setS_owed (c : Core) (d : BitVec 6) (x : Cell 64) : (c.setS d x).owed = c.owed := by unfold Core.setS; split <;> rfl
@[simp] theorem Core.setS_prio (c : Core) (d : BitVec 6) (x : Cell 64) : (c.setS d x).prio = c.prio := by unfold Core.setS; split <;> rfl
@[simp] theorem Core.setS_stealCtr (c : Core) (d : BitVec 6) (x : Cell 64) : (c.setS d x).stealCtr = c.stealCtr := by unfold Core.setS; split <;> rfl
@[simp] theorem Core.setS_stealWait (c : Core) (d : BitVec 6) (x : Cell 64) : (c.setS d x).stealWait = c.stealWait := by unfold Core.setS; split <;> rfl
@[simp] theorem Core.setS_victims (c : Core) (d : BitVec 6) (x : Cell 64) : (c.setS d x).victims = c.victims := by unfold Core.setS; split <;> rfl
@[simp] theorem Core.setS_sent (c : Core) (d : BitVec 6) (x : Cell 64) : (c.setS d x).sent = c.sent := by unfold Core.setS; split <;> rfl
@[simp] theorem Core.setS_recv (c : Core) (d : BitVec 6) (x : Cell 64) : (c.setS d x).recv = c.recv := by unfold Core.setS; split <;> rfl
@[simp] theorem Core.setS_gang (c : Core) (d : BitVec 6) (x : Cell 64) : (c.setS d x).gang = c.gang := by unfold Core.setS; split <;> rfl
@[simp] theorem Core.setS_gangWait (c : Core) (d : BitVec 6) (x : Cell 64) : (c.setS d x).gangWait = c.gangWait := by unfold Core.setS; split <;> rfl
@[simp] theorem Core.setS_reserved (c : Core) (d : BitVec 6) (x : Cell 64) : (c.setS d x).reserved = c.reserved := by unfold Core.setS; split <;> rfl
@[simp] theorem Core.setS_tlb (c : Core) (d : BitVec 6) (x : Cell 64) : (c.setS d x).tlb = c.tlb := by unfold Core.setS; split <;> rfl
@[simp] theorem Core.setS_stopped (c : Core) (d : BitVec 6) (x : Cell 64) : (c.setS d x).stopped = c.stopped := by unfold Core.setS; split <;> rfl
@[simp] theorem Core.setS_halted (c : Core) (d : BitVec 6) (x : Cell 64) : (c.setS d x).halted = c.halted := by unfold Core.setS; split <;> rfl
@[simp] theorem Core.setS_haltClk (c : Core) (d : BitVec 6) (x : Cell 64) : (c.setS d x).haltClk = c.haltClk := by unfold Core.setS; split <;> rfl
@[simp] theorem Core.setS_haltPc (c : Core) (d : BitVec 6) (x : Cell 64) : (c.setS d x).haltPc = c.haltPc := by unfold Core.setS; split <;> rfl
@[simp] theorem Core.setS_steps (c : Core) (d : BitVec 6) (x : Cell 64) : (c.setS d x).steps = c.steps := by unfold Core.setS; split <;> rfl
@[simp] theorem Core.setS_rpos (c : Core) (d : BitVec 6) (x : Cell 64) : (c.setS d x).rpos = c.rpos := by unfold Core.setS; split <;> rfl
@[simp] theorem Core.setS_passing (c : Core) (d : BitVec 6) (x : Cell 64) : (c.setS d x).passing = c.passing := by unfold Core.setS; split <;> rfl
@[simp] theorem Core.setS_clk (c : Core) (d : BitVec 6) (x : Cell 64) : (c.setS d x).clk = c.clk := by unfold Core.setS; split <;> rfl
@[simp] theorem Core.setS_at9 (c : Core) (d : BitVec 6) (x : Cell 64) : (c.setS d x).at9 = c.at9 := by unfold Core.setS; split <;> rfl
@[simp] theorem Core.setS_nact (c : Core) (d : BitVec 6) (x : Cell 64) : (c.setS d x).nact = c.nact := by unfold Core.setS; split <;> rfl
@[simp] theorem Core.setS_nord (c : Core) (d : BitVec 6) (x : Cell 64) : (c.setS d x).nord = c.nord := by unfold Core.setS; split <;> rfl
@[simp] theorem Core.setS_nund (c : Core) (d : BitVec 6) (x : Cell 64) : (c.setS d x).nund = c.nund := by unfold Core.setS; split <;> rfl

/-! ### Core.setV -/

@[simp] theorem Core.setV_id (c : Core) (d : BitVec 5) (x : Cell 512) : (c.setV d x).id = c.id := rfl
@[simp] theorem Core.setV_running (c : Core) (d : BitVec 5) (x : Cell 512) : (c.setV d x).running = c.running := rfl
@[simp] theorem Core.setV_act (c : Core) (d : BitVec 5) (x : Cell 512) : (c.setV d x).act = c.act := rfl
@[simp] theorem Core.setV_ctl (c : Core) (d : BitVec 5) (x : Cell 512) : (c.setV d x).ctl = c.ctl := rfl
@[simp] theorem Core.setV_pc (c : Core) (d : BitVec 5) (x : Cell 512) : (c.setV d x).pc = c.pc := rfl
@[simp] theorem Core.setV_wait (c : Core) (d : BitVec 5) (x : Cell 512) : (c.setV d x).wait = c.wait := rfl
@[simp] theorem Core.setV_spin (c : Core) (d : BitVec 5) (x : Cell 512) : (c.setV d x).spin = c.spin := rfl
@[simp] theorem Core.setV_pend (c : Core) (d : BitVec 5) (x : Cell 512) : (c.setV d x).pend = c.pend := rfl
@[simp] theorem Core.setV_reads (c : Core) (d : BitVec 5) (x : Cell 512) : (c.setV d x).reads = c.reads := rfl
@[simp] theorem Core.setV_marks (c : Core) (d : BitVec 5) (x : Cell 512) : (c.setV d x).marks = c.marks := rfl
@[simp] theorem Core.setV_irrev (c : Core) (d : BitVec 5) (x : Cell 512) : (c.setV d x).irrev = c.irrev := rfl
@[simp] theorem Core.setV_report (c : Core) (d : BitVec 5) (x : Cell 512) : (c.setV d x).report = c.report := rfl
@[simp] theorem Core.setV_raised (c : Core) (d : BitVec 5) (x : Cell 512) : (c.setV d x).raised = c.raised := rfl
@[simp] theorem Core.setV_frame (c : Core) (d : BitVec 5) (x : Cell 512) : (c.setV d x).frame = c.frame := rfl
@[simp] theorem Core.setV_parks (c : Core) (d : BitVec 5) (x : Cell 512) : (c.setV d x).parks = c.parks := rfl
@[simp] theorem Core.setV_streams (c : Core) (d : BitVec 5) (x : Cell 512) : (c.setV d x).streams = c.streams := rfl
@[simp] theorem Core.setV_seg (c : Core) (d : BitVec 5) (x : Cell 512) : (c.setV d x).seg = c.seg := rfl
@[simp] theorem Core.setV_closing (c : Core) (d : BitVec 5) (x : Cell 512) : (c.setV d x).closing = c.closing := rfl
@[simp] theorem Core.setV_pubs (c : Core) (d : BitVec 5) (x : Cell 512) : (c.setV d x).pubs = c.pubs := rfl
@[simp] theorem Core.setV_confirmed (c : Core) (d : BitVec 5) (x : Cell 512) : (c.setV d x).confirmed = c.confirmed := rfl
@[simp] theorem Core.setV_past (c : Core) (d : BitVec 5) (x : Cell 512) : (c.setV d x).past = c.past := rfl
@[simp] theorem Core.setV_again (c : Core) (d : BitVec 5) (x : Cell 512) : (c.setV d x).again = c.again := rfl
@[simp] theorem Core.setV_rcache (c : Core) (d : BitVec 5) (x : Cell 512) : (c.setV d x).rcache = c.rcache := rfl
@[simp] theorem Core.setV_mseq (c : Core) (d : BitVec 5) (x : Cell 512) : (c.setV d x).mseq = c.mseq := rfl
@[simp] theorem Core.setV_tseq (c : Core) (d : BitVec 5) (x : Cell 512) : (c.setV d x).tseq = c.tseq := rfl
@[simp] theorem Core.setV_mem (c : Core) (d : BitVec 5) (x : Cell 512) : (c.setV d x).mem = c.mem := rfl
@[simp] theorem Core.setV_owner (c : Core) (d : BitVec 5) (x : Cell 512) : (c.setV d x).owner = c.owner := rfl
@[simp] theorem Core.setV_poison (c : Core) (d : BitVec 5) (x : Cell 512) : (c.setV d x).poison = c.poison := rfl
@[simp] theorem Core.setV_banks (c : Core) (d : BitVec 5) (x : Cell 512) : (c.setV d x).banks = c.banks := rfl
@[simp] theorem Core.setV_imgSlot (c : Core) (d : BitVec 5) (x : Cell 512) : (c.setV d x).imgSlot = c.imgSlot := rfl
@[simp] theorem Core.setV_mailbox (c : Core) (d : BitVec 5) (x : Cell 512) : (c.setV d x).mailbox = c.mailbox := rfl
@[simp] theorem Core.setV_deque (c : Core) (d : BitVec 5) (x : Cell 512) : (c.setV d x).deque = c.deque := rfl
@[simp] theorem Core.setV_dqTop (c : Core) (d : BitVec 5) (x : Cell 512) : (c.setV d x).dqTop = c.dqTop := rfl
@[simp] theorem Core.setV_mbHead (c : Core) (d : BitVec 5) (x : Cell 512) : (c.setV d x).mbHead = c.mbHead := rfl
@[simp] theorem Core.setV_imem (c : Core) (d : BitVec 5) (x : Cell 512) : (c.setV d x).imem = c.imem := rfl
@[simp] theorem Core.setV_handlers (c : Core) (d : BitVec 5) (x : Cell 512) : (c.setV d x).handlers = c.handlers := rfl
@[simp] theorem Core.setV_loaded (c : Core) (d : BitVec 5) (x : Cell 512) : (c.setV d x).loaded = c.loaded := rfl
@[simp] theorem Core.setV_acc (c : Core) (d : BitVec 5) (x : Cell 512) : (c.setV d x).acc = c.acc := rfl
@[simp] theorem Core.setV_accOwner (c : Core) (d : BitVec 5) (x : Cell 512) : (c.setV d x).accOwner = c.accOwner := rfl
@[simp] theorem Core.setV_accPoison (c : Core) (d : BitVec 5) (x : Cell 512) : (c.setV d x).accPoison = c.accPoison := rfl
@[simp] theorem Core.setV_derived (c : Core) (d : BitVec 5) (x : Cell 512) : (c.setV d x).derived = c.derived := rfl
@[simp] theorem Core.setV_active (c : Core) (d : BitVec 5) (x : Cell 512) : (c.setV d x).active = c.active := rfl
@[simp] theorem Core.setV_shadow (c : Core) (d : BitVec 5) (x : Cell 512) : (c.setV d x).shadow = c.shadow := rfl
@[simp] theorem Core.setV_fenced (c : Core) (d : BitVec 5) (x : Cell 512) : (c.setV d x).fenced = c.fenced := rfl
@[simp] theorem Core.setV_lseq (c : Core) (d : BitVec 5) (x : Cell 512) : (c.setV d x).lseq = c.lseq := rfl
@[simp] theorem Core.setV_grinder (c : Core) (d : BitVec 5) (x : Cell 512) : (c.setV d x).grinder = c.grinder := rfl
@[simp] theorem Core.setV_engSeq (c : Core) (d : BitVec 5) (x : Cell 512) : (c.setV d x).engSeq = c.engSeq := rfl
@[simp] theorem Core.setV_ops (c : Core) (d : BitVec 5) (x : Cell 512) : (c.setV d x).ops = c.ops := rfl
@[simp] theorem Core.setV_ring (c : Core) (d : BitVec 5) (x : Cell 512) : (c.setV d x).ring = c.ring := rfl
@[simp] theorem Core.setV_planes0 (c : Core) (d : BitVec 5) (x : Cell 512) : (c.setV d x).planes0 = c.planes0 := rfl
@[simp] theorem Core.setV_grind0 (c : Core) (d : BitVec 5) (x : Cell 512) : (c.setV d x).grind0 = c.grind0 := rfl
@[simp] theorem Core.setV_locks (c : Core) (d : BitVec 5) (x : Cell 512) : (c.setV d x).locks = c.locks := rfl
@[simp] theorem Core.setV_traceOut (c : Core) (d : BitVec 5) (x : Cell 512) : (c.setV d x).traceOut = c.traceOut := rfl
@[simp] theorem Core.setV_pours (c : Core) (d : BitVec 5) (x : Cell 512) : (c.setV d x).pours = c.pours := rfl
@[simp] theorem Core.setV_colls (c : Core) (d : BitVec 5) (x : Cell 512) : (c.setV d x).colls = c.colls := rfl
@[simp] theorem Core.setV_rounds (c : Core) (d : BitVec 5) (x : Cell 512) : (c.setV d x).rounds = c.rounds := rfl
@[simp] theorem Core.setV_lt (c : Core) (d : BitVec 5) (x : Cell 512) : (c.setV d x).lt = c.lt := rfl
@[simp] theorem Core.setV_owed (c : Core) (d : BitVec 5) (x : Cell 512) : (c.setV d x).owed = c.owed := rfl
@[simp] theorem Core.setV_prio (c : Core) (d : BitVec 5) (x : Cell 512) : (c.setV d x).prio = c.prio := rfl
@[simp] theorem Core.setV_stealCtr (c : Core) (d : BitVec 5) (x : Cell 512) : (c.setV d x).stealCtr = c.stealCtr := rfl
@[simp] theorem Core.setV_stealWait (c : Core) (d : BitVec 5) (x : Cell 512) : (c.setV d x).stealWait = c.stealWait := rfl
@[simp] theorem Core.setV_victims (c : Core) (d : BitVec 5) (x : Cell 512) : (c.setV d x).victims = c.victims := rfl
@[simp] theorem Core.setV_sent (c : Core) (d : BitVec 5) (x : Cell 512) : (c.setV d x).sent = c.sent := rfl
@[simp] theorem Core.setV_recv (c : Core) (d : BitVec 5) (x : Cell 512) : (c.setV d x).recv = c.recv := rfl
@[simp] theorem Core.setV_gang (c : Core) (d : BitVec 5) (x : Cell 512) : (c.setV d x).gang = c.gang := rfl
@[simp] theorem Core.setV_gangWait (c : Core) (d : BitVec 5) (x : Cell 512) : (c.setV d x).gangWait = c.gangWait := rfl
@[simp] theorem Core.setV_reserved (c : Core) (d : BitVec 5) (x : Cell 512) : (c.setV d x).reserved = c.reserved := rfl
@[simp] theorem Core.setV_tlb (c : Core) (d : BitVec 5) (x : Cell 512) : (c.setV d x).tlb = c.tlb := rfl
@[simp] theorem Core.setV_stopped (c : Core) (d : BitVec 5) (x : Cell 512) : (c.setV d x).stopped = c.stopped := rfl
@[simp] theorem Core.setV_halted (c : Core) (d : BitVec 5) (x : Cell 512) : (c.setV d x).halted = c.halted := rfl
@[simp] theorem Core.setV_haltClk (c : Core) (d : BitVec 5) (x : Cell 512) : (c.setV d x).haltClk = c.haltClk := rfl
@[simp] theorem Core.setV_haltPc (c : Core) (d : BitVec 5) (x : Cell 512) : (c.setV d x).haltPc = c.haltPc := rfl
@[simp] theorem Core.setV_steps (c : Core) (d : BitVec 5) (x : Cell 512) : (c.setV d x).steps = c.steps := rfl
@[simp] theorem Core.setV_rpos (c : Core) (d : BitVec 5) (x : Cell 512) : (c.setV d x).rpos = c.rpos := rfl
@[simp] theorem Core.setV_passing (c : Core) (d : BitVec 5) (x : Cell 512) : (c.setV d x).passing = c.passing := rfl
@[simp] theorem Core.setV_clk (c : Core) (d : BitVec 5) (x : Cell 512) : (c.setV d x).clk = c.clk := rfl
@[simp] theorem Core.setV_at9 (c : Core) (d : BitVec 5) (x : Cell 512) : (c.setV d x).at9 = c.at9 := rfl
@[simp] theorem Core.setV_nact (c : Core) (d : BitVec 5) (x : Cell 512) : (c.setV d x).nact = c.nact := rfl
@[simp] theorem Core.setV_nord (c : Core) (d : BitVec 5) (x : Cell 512) : (c.setV d x).nord = c.nord := rfl
@[simp] theorem Core.setV_nund (c : Core) (d : BitVec 5) (x : Cell 512) : (c.setV d x).nund = c.nund := rfl

/-! ### Core.setM -/

@[simp] theorem Core.setM_id (c : Core) (d : BitVec 3) (x : Cell 64) : (c.setM d x).id = c.id := rfl
@[simp] theorem Core.setM_running (c : Core) (d : BitVec 3) (x : Cell 64) : (c.setM d x).running = c.running := rfl
@[simp] theorem Core.setM_act (c : Core) (d : BitVec 3) (x : Cell 64) : (c.setM d x).act = c.act := rfl
@[simp] theorem Core.setM_ctl (c : Core) (d : BitVec 3) (x : Cell 64) : (c.setM d x).ctl = c.ctl := rfl
@[simp] theorem Core.setM_pc (c : Core) (d : BitVec 3) (x : Cell 64) : (c.setM d x).pc = c.pc := rfl
@[simp] theorem Core.setM_wait (c : Core) (d : BitVec 3) (x : Cell 64) : (c.setM d x).wait = c.wait := rfl
@[simp] theorem Core.setM_spin (c : Core) (d : BitVec 3) (x : Cell 64) : (c.setM d x).spin = c.spin := rfl
@[simp] theorem Core.setM_pend (c : Core) (d : BitVec 3) (x : Cell 64) : (c.setM d x).pend = c.pend := rfl
@[simp] theorem Core.setM_reads (c : Core) (d : BitVec 3) (x : Cell 64) : (c.setM d x).reads = c.reads := rfl
@[simp] theorem Core.setM_marks (c : Core) (d : BitVec 3) (x : Cell 64) : (c.setM d x).marks = c.marks := rfl
@[simp] theorem Core.setM_irrev (c : Core) (d : BitVec 3) (x : Cell 64) : (c.setM d x).irrev = c.irrev := rfl
@[simp] theorem Core.setM_report (c : Core) (d : BitVec 3) (x : Cell 64) : (c.setM d x).report = c.report := rfl
@[simp] theorem Core.setM_raised (c : Core) (d : BitVec 3) (x : Cell 64) : (c.setM d x).raised = c.raised := rfl
@[simp] theorem Core.setM_frame (c : Core) (d : BitVec 3) (x : Cell 64) : (c.setM d x).frame = c.frame := rfl
@[simp] theorem Core.setM_parks (c : Core) (d : BitVec 3) (x : Cell 64) : (c.setM d x).parks = c.parks := rfl
@[simp] theorem Core.setM_streams (c : Core) (d : BitVec 3) (x : Cell 64) : (c.setM d x).streams = c.streams := rfl
@[simp] theorem Core.setM_seg (c : Core) (d : BitVec 3) (x : Cell 64) : (c.setM d x).seg = c.seg := rfl
@[simp] theorem Core.setM_closing (c : Core) (d : BitVec 3) (x : Cell 64) : (c.setM d x).closing = c.closing := rfl
@[simp] theorem Core.setM_pubs (c : Core) (d : BitVec 3) (x : Cell 64) : (c.setM d x).pubs = c.pubs := rfl
@[simp] theorem Core.setM_confirmed (c : Core) (d : BitVec 3) (x : Cell 64) : (c.setM d x).confirmed = c.confirmed := rfl
@[simp] theorem Core.setM_past (c : Core) (d : BitVec 3) (x : Cell 64) : (c.setM d x).past = c.past := rfl
@[simp] theorem Core.setM_again (c : Core) (d : BitVec 3) (x : Cell 64) : (c.setM d x).again = c.again := rfl
@[simp] theorem Core.setM_rcache (c : Core) (d : BitVec 3) (x : Cell 64) : (c.setM d x).rcache = c.rcache := rfl
@[simp] theorem Core.setM_mseq (c : Core) (d : BitVec 3) (x : Cell 64) : (c.setM d x).mseq = c.mseq := rfl
@[simp] theorem Core.setM_tseq (c : Core) (d : BitVec 3) (x : Cell 64) : (c.setM d x).tseq = c.tseq := rfl
@[simp] theorem Core.setM_mem (c : Core) (d : BitVec 3) (x : Cell 64) : (c.setM d x).mem = c.mem := rfl
@[simp] theorem Core.setM_owner (c : Core) (d : BitVec 3) (x : Cell 64) : (c.setM d x).owner = c.owner := rfl
@[simp] theorem Core.setM_poison (c : Core) (d : BitVec 3) (x : Cell 64) : (c.setM d x).poison = c.poison := rfl
@[simp] theorem Core.setM_banks (c : Core) (d : BitVec 3) (x : Cell 64) : (c.setM d x).banks = c.banks := rfl
@[simp] theorem Core.setM_imgSlot (c : Core) (d : BitVec 3) (x : Cell 64) : (c.setM d x).imgSlot = c.imgSlot := rfl
@[simp] theorem Core.setM_mailbox (c : Core) (d : BitVec 3) (x : Cell 64) : (c.setM d x).mailbox = c.mailbox := rfl
@[simp] theorem Core.setM_deque (c : Core) (d : BitVec 3) (x : Cell 64) : (c.setM d x).deque = c.deque := rfl
@[simp] theorem Core.setM_dqTop (c : Core) (d : BitVec 3) (x : Cell 64) : (c.setM d x).dqTop = c.dqTop := rfl
@[simp] theorem Core.setM_mbHead (c : Core) (d : BitVec 3) (x : Cell 64) : (c.setM d x).mbHead = c.mbHead := rfl
@[simp] theorem Core.setM_imem (c : Core) (d : BitVec 3) (x : Cell 64) : (c.setM d x).imem = c.imem := rfl
@[simp] theorem Core.setM_handlers (c : Core) (d : BitVec 3) (x : Cell 64) : (c.setM d x).handlers = c.handlers := rfl
@[simp] theorem Core.setM_loaded (c : Core) (d : BitVec 3) (x : Cell 64) : (c.setM d x).loaded = c.loaded := rfl
@[simp] theorem Core.setM_acc (c : Core) (d : BitVec 3) (x : Cell 64) : (c.setM d x).acc = c.acc := rfl
@[simp] theorem Core.setM_accOwner (c : Core) (d : BitVec 3) (x : Cell 64) : (c.setM d x).accOwner = c.accOwner := rfl
@[simp] theorem Core.setM_accPoison (c : Core) (d : BitVec 3) (x : Cell 64) : (c.setM d x).accPoison = c.accPoison := rfl
@[simp] theorem Core.setM_derived (c : Core) (d : BitVec 3) (x : Cell 64) : (c.setM d x).derived = c.derived := rfl
@[simp] theorem Core.setM_active (c : Core) (d : BitVec 3) (x : Cell 64) : (c.setM d x).active = c.active := rfl
@[simp] theorem Core.setM_shadow (c : Core) (d : BitVec 3) (x : Cell 64) : (c.setM d x).shadow = c.shadow := rfl
@[simp] theorem Core.setM_fenced (c : Core) (d : BitVec 3) (x : Cell 64) : (c.setM d x).fenced = c.fenced := rfl
@[simp] theorem Core.setM_lseq (c : Core) (d : BitVec 3) (x : Cell 64) : (c.setM d x).lseq = c.lseq := rfl
@[simp] theorem Core.setM_grinder (c : Core) (d : BitVec 3) (x : Cell 64) : (c.setM d x).grinder = c.grinder := rfl
@[simp] theorem Core.setM_engSeq (c : Core) (d : BitVec 3) (x : Cell 64) : (c.setM d x).engSeq = c.engSeq := rfl
@[simp] theorem Core.setM_ops (c : Core) (d : BitVec 3) (x : Cell 64) : (c.setM d x).ops = c.ops := rfl
@[simp] theorem Core.setM_ring (c : Core) (d : BitVec 3) (x : Cell 64) : (c.setM d x).ring = c.ring := rfl
@[simp] theorem Core.setM_planes0 (c : Core) (d : BitVec 3) (x : Cell 64) : (c.setM d x).planes0 = c.planes0 := rfl
@[simp] theorem Core.setM_grind0 (c : Core) (d : BitVec 3) (x : Cell 64) : (c.setM d x).grind0 = c.grind0 := rfl
@[simp] theorem Core.setM_locks (c : Core) (d : BitVec 3) (x : Cell 64) : (c.setM d x).locks = c.locks := rfl
@[simp] theorem Core.setM_traceOut (c : Core) (d : BitVec 3) (x : Cell 64) : (c.setM d x).traceOut = c.traceOut := rfl
@[simp] theorem Core.setM_pours (c : Core) (d : BitVec 3) (x : Cell 64) : (c.setM d x).pours = c.pours := rfl
@[simp] theorem Core.setM_colls (c : Core) (d : BitVec 3) (x : Cell 64) : (c.setM d x).colls = c.colls := rfl
@[simp] theorem Core.setM_rounds (c : Core) (d : BitVec 3) (x : Cell 64) : (c.setM d x).rounds = c.rounds := rfl
@[simp] theorem Core.setM_lt (c : Core) (d : BitVec 3) (x : Cell 64) : (c.setM d x).lt = c.lt := rfl
@[simp] theorem Core.setM_owed (c : Core) (d : BitVec 3) (x : Cell 64) : (c.setM d x).owed = c.owed := rfl
@[simp] theorem Core.setM_prio (c : Core) (d : BitVec 3) (x : Cell 64) : (c.setM d x).prio = c.prio := rfl
@[simp] theorem Core.setM_stealCtr (c : Core) (d : BitVec 3) (x : Cell 64) : (c.setM d x).stealCtr = c.stealCtr := rfl
@[simp] theorem Core.setM_stealWait (c : Core) (d : BitVec 3) (x : Cell 64) : (c.setM d x).stealWait = c.stealWait := rfl
@[simp] theorem Core.setM_victims (c : Core) (d : BitVec 3) (x : Cell 64) : (c.setM d x).victims = c.victims := rfl
@[simp] theorem Core.setM_sent (c : Core) (d : BitVec 3) (x : Cell 64) : (c.setM d x).sent = c.sent := rfl
@[simp] theorem Core.setM_recv (c : Core) (d : BitVec 3) (x : Cell 64) : (c.setM d x).recv = c.recv := rfl
@[simp] theorem Core.setM_gang (c : Core) (d : BitVec 3) (x : Cell 64) : (c.setM d x).gang = c.gang := rfl
@[simp] theorem Core.setM_gangWait (c : Core) (d : BitVec 3) (x : Cell 64) : (c.setM d x).gangWait = c.gangWait := rfl
@[simp] theorem Core.setM_reserved (c : Core) (d : BitVec 3) (x : Cell 64) : (c.setM d x).reserved = c.reserved := rfl
@[simp] theorem Core.setM_tlb (c : Core) (d : BitVec 3) (x : Cell 64) : (c.setM d x).tlb = c.tlb := rfl
@[simp] theorem Core.setM_stopped (c : Core) (d : BitVec 3) (x : Cell 64) : (c.setM d x).stopped = c.stopped := rfl
@[simp] theorem Core.setM_halted (c : Core) (d : BitVec 3) (x : Cell 64) : (c.setM d x).halted = c.halted := rfl
@[simp] theorem Core.setM_haltClk (c : Core) (d : BitVec 3) (x : Cell 64) : (c.setM d x).haltClk = c.haltClk := rfl
@[simp] theorem Core.setM_haltPc (c : Core) (d : BitVec 3) (x : Cell 64) : (c.setM d x).haltPc = c.haltPc := rfl
@[simp] theorem Core.setM_steps (c : Core) (d : BitVec 3) (x : Cell 64) : (c.setM d x).steps = c.steps := rfl
@[simp] theorem Core.setM_rpos (c : Core) (d : BitVec 3) (x : Cell 64) : (c.setM d x).rpos = c.rpos := rfl
@[simp] theorem Core.setM_passing (c : Core) (d : BitVec 3) (x : Cell 64) : (c.setM d x).passing = c.passing := rfl
@[simp] theorem Core.setM_clk (c : Core) (d : BitVec 3) (x : Cell 64) : (c.setM d x).clk = c.clk := rfl
@[simp] theorem Core.setM_at9 (c : Core) (d : BitVec 3) (x : Cell 64) : (c.setM d x).at9 = c.at9 := rfl
@[simp] theorem Core.setM_nact (c : Core) (d : BitVec 3) (x : Cell 64) : (c.setM d x).nact = c.nact := rfl
@[simp] theorem Core.setM_nord (c : Core) (d : BitVec 3) (x : Cell 64) : (c.setM d x).nord = c.nord := rfl
@[simp] theorem Core.setM_nund (c : Core) (d : BitVec 3) (x : Cell 64) : (c.setM d x).nund = c.nund := rfl

/-! ### Core.retire -/

@[simp] theorem Core.retire_id (c : Core) : (c.retire).id = c.id := rfl
@[simp] theorem Core.retire_running (c : Core) : (c.retire).running = c.running := rfl
@[simp] theorem Core.retire_act (c : Core) : (c.retire).act = c.act := rfl
@[simp] theorem Core.retire_regs (c : Core) : (c.retire).regs = c.regs := rfl
@[simp] theorem Core.retire_ctl (c : Core) : (c.retire).ctl = c.ctl := rfl
@[simp] theorem Core.retire_pend (c : Core) : (c.retire).pend = c.pend := rfl
@[simp] theorem Core.retire_reads (c : Core) : (c.retire).reads = c.reads := rfl
@[simp] theorem Core.retire_marks (c : Core) : (c.retire).marks = c.marks := rfl
@[simp] theorem Core.retire_irrev (c : Core) : (c.retire).irrev = c.irrev := rfl
@[simp] theorem Core.retire_report (c : Core) : (c.retire).report = c.report := rfl
@[simp] theorem Core.retire_raised (c : Core) : (c.retire).raised = c.raised := rfl
@[simp] theorem Core.retire_frame (c : Core) : (c.retire).frame = c.frame := rfl
@[simp] theorem Core.retire_parks (c : Core) : (c.retire).parks = c.parks := rfl
@[simp] theorem Core.retire_streams (c : Core) : (c.retire).streams = c.streams := rfl
@[simp] theorem Core.retire_seg (c : Core) : (c.retire).seg = c.seg := rfl
@[simp] theorem Core.retire_closing (c : Core) : (c.retire).closing = c.closing := rfl
@[simp] theorem Core.retire_pubs (c : Core) : (c.retire).pubs = c.pubs := rfl
@[simp] theorem Core.retire_confirmed (c : Core) : (c.retire).confirmed = c.confirmed := rfl
@[simp] theorem Core.retire_past (c : Core) : (c.retire).past = c.past := rfl
@[simp] theorem Core.retire_again (c : Core) : (c.retire).again = c.again := rfl
@[simp] theorem Core.retire_rcache (c : Core) : (c.retire).rcache = c.rcache := rfl
@[simp] theorem Core.retire_mseq (c : Core) : (c.retire).mseq = c.mseq := rfl
@[simp] theorem Core.retire_tseq (c : Core) : (c.retire).tseq = c.tseq := rfl
@[simp] theorem Core.retire_mem (c : Core) : (c.retire).mem = c.mem := rfl
@[simp] theorem Core.retire_owner (c : Core) : (c.retire).owner = c.owner := rfl
@[simp] theorem Core.retire_poison (c : Core) : (c.retire).poison = c.poison := rfl
@[simp] theorem Core.retire_banks (c : Core) : (c.retire).banks = c.banks := rfl
@[simp] theorem Core.retire_imgSlot (c : Core) : (c.retire).imgSlot = c.imgSlot := rfl
@[simp] theorem Core.retire_mailbox (c : Core) : (c.retire).mailbox = c.mailbox := rfl
@[simp] theorem Core.retire_deque (c : Core) : (c.retire).deque = c.deque := rfl
@[simp] theorem Core.retire_dqTop (c : Core) : (c.retire).dqTop = c.dqTop := rfl
@[simp] theorem Core.retire_mbHead (c : Core) : (c.retire).mbHead = c.mbHead := rfl
@[simp] theorem Core.retire_imem (c : Core) : (c.retire).imem = c.imem := rfl
@[simp] theorem Core.retire_handlers (c : Core) : (c.retire).handlers = c.handlers := rfl
@[simp] theorem Core.retire_loaded (c : Core) : (c.retire).loaded = c.loaded := rfl
@[simp] theorem Core.retire_acc (c : Core) : (c.retire).acc = c.acc := rfl
@[simp] theorem Core.retire_accOwner (c : Core) : (c.retire).accOwner = c.accOwner := rfl
@[simp] theorem Core.retire_accPoison (c : Core) : (c.retire).accPoison = c.accPoison := rfl
@[simp] theorem Core.retire_derived (c : Core) : (c.retire).derived = c.derived := rfl
@[simp] theorem Core.retire_active (c : Core) : (c.retire).active = c.active := rfl
@[simp] theorem Core.retire_shadow (c : Core) : (c.retire).shadow = c.shadow := rfl
@[simp] theorem Core.retire_fenced (c : Core) : (c.retire).fenced = c.fenced := rfl
@[simp] theorem Core.retire_lseq (c : Core) : (c.retire).lseq = c.lseq := rfl
@[simp] theorem Core.retire_grinder (c : Core) : (c.retire).grinder = c.grinder := rfl
@[simp] theorem Core.retire_engSeq (c : Core) : (c.retire).engSeq = c.engSeq := rfl
@[simp] theorem Core.retire_ops (c : Core) : (c.retire).ops = c.ops := rfl
@[simp] theorem Core.retire_ring (c : Core) : (c.retire).ring = c.ring := rfl
@[simp] theorem Core.retire_planes0 (c : Core) : (c.retire).planes0 = c.planes0 := rfl
@[simp] theorem Core.retire_grind0 (c : Core) : (c.retire).grind0 = c.grind0 := rfl
@[simp] theorem Core.retire_locks (c : Core) : (c.retire).locks = c.locks := rfl
@[simp] theorem Core.retire_traceOut (c : Core) : (c.retire).traceOut = c.traceOut := rfl
@[simp] theorem Core.retire_pours (c : Core) : (c.retire).pours = c.pours := rfl
@[simp] theorem Core.retire_colls (c : Core) : (c.retire).colls = c.colls := rfl
@[simp] theorem Core.retire_rounds (c : Core) : (c.retire).rounds = c.rounds := rfl
@[simp] theorem Core.retire_lt (c : Core) : (c.retire).lt = c.lt := rfl
@[simp] theorem Core.retire_owed (c : Core) : (c.retire).owed = c.owed := rfl
@[simp] theorem Core.retire_prio (c : Core) : (c.retire).prio = c.prio := rfl
@[simp] theorem Core.retire_stealCtr (c : Core) : (c.retire).stealCtr = c.stealCtr := rfl
@[simp] theorem Core.retire_stealWait (c : Core) : (c.retire).stealWait = c.stealWait := rfl
@[simp] theorem Core.retire_victims (c : Core) : (c.retire).victims = c.victims := rfl
@[simp] theorem Core.retire_sent (c : Core) : (c.retire).sent = c.sent := rfl
@[simp] theorem Core.retire_recv (c : Core) : (c.retire).recv = c.recv := rfl
@[simp] theorem Core.retire_gang (c : Core) : (c.retire).gang = c.gang := rfl
@[simp] theorem Core.retire_gangWait (c : Core) : (c.retire).gangWait = c.gangWait := rfl
@[simp] theorem Core.retire_reserved (c : Core) : (c.retire).reserved = c.reserved := rfl
@[simp] theorem Core.retire_tlb (c : Core) : (c.retire).tlb = c.tlb := rfl
@[simp] theorem Core.retire_stopped (c : Core) : (c.retire).stopped = c.stopped := rfl
@[simp] theorem Core.retire_halted (c : Core) : (c.retire).halted = c.halted := rfl
@[simp] theorem Core.retire_haltClk (c : Core) : (c.retire).haltClk = c.haltClk := rfl
@[simp] theorem Core.retire_haltPc (c : Core) : (c.retire).haltPc = c.haltPc := rfl
@[simp] theorem Core.retire_steps (c : Core) : (c.retire).steps = c.steps := rfl
@[simp] theorem Core.retire_rpos (c : Core) : (c.retire).rpos = c.rpos := rfl
@[simp] theorem Core.retire_passing (c : Core) : (c.retire).passing = c.passing := rfl
@[simp] theorem Core.retire_clk (c : Core) : (c.retire).clk = c.clk := rfl
@[simp] theorem Core.retire_at9 (c : Core) : (c.retire).at9 = c.at9 := rfl
@[simp] theorem Core.retire_nact (c : Core) : (c.retire).nact = c.nact := rfl
@[simp] theorem Core.retire_nord (c : Core) : (c.retire).nord = c.nord := rfl
@[simp] theorem Core.retire_nund (c : Core) : (c.retire).nund = c.nund := rfl

/-! ### Core.setBank -/

@[simp] theorem Core.setBank_id (c : Core) (b : Nat) (x : Bank) : (c.setBank b x).id = c.id := rfl
@[simp] theorem Core.setBank_running (c : Core) (b : Nat) (x : Bank) : (c.setBank b x).running = c.running := rfl
@[simp] theorem Core.setBank_act (c : Core) (b : Nat) (x : Bank) : (c.setBank b x).act = c.act := rfl
@[simp] theorem Core.setBank_regs (c : Core) (b : Nat) (x : Bank) : (c.setBank b x).regs = c.regs := rfl
@[simp] theorem Core.setBank_ctl (c : Core) (b : Nat) (x : Bank) : (c.setBank b x).ctl = c.ctl := rfl
@[simp] theorem Core.setBank_pc (c : Core) (b : Nat) (x : Bank) : (c.setBank b x).pc = c.pc := rfl
@[simp] theorem Core.setBank_wait (c : Core) (b : Nat) (x : Bank) : (c.setBank b x).wait = c.wait := rfl
@[simp] theorem Core.setBank_spin (c : Core) (b : Nat) (x : Bank) : (c.setBank b x).spin = c.spin := rfl
@[simp] theorem Core.setBank_pend (c : Core) (b : Nat) (x : Bank) : (c.setBank b x).pend = c.pend := rfl
@[simp] theorem Core.setBank_reads (c : Core) (b : Nat) (x : Bank) : (c.setBank b x).reads = c.reads := rfl
@[simp] theorem Core.setBank_marks (c : Core) (b : Nat) (x : Bank) : (c.setBank b x).marks = c.marks := rfl
@[simp] theorem Core.setBank_irrev (c : Core) (b : Nat) (x : Bank) : (c.setBank b x).irrev = c.irrev := rfl
@[simp] theorem Core.setBank_report (c : Core) (b : Nat) (x : Bank) : (c.setBank b x).report = c.report := rfl
@[simp] theorem Core.setBank_raised (c : Core) (b : Nat) (x : Bank) : (c.setBank b x).raised = c.raised := rfl
@[simp] theorem Core.setBank_frame (c : Core) (b : Nat) (x : Bank) : (c.setBank b x).frame = c.frame := rfl
@[simp] theorem Core.setBank_parks (c : Core) (b : Nat) (x : Bank) : (c.setBank b x).parks = c.parks := rfl
@[simp] theorem Core.setBank_streams (c : Core) (b : Nat) (x : Bank) : (c.setBank b x).streams = c.streams := rfl
@[simp] theorem Core.setBank_seg (c : Core) (b : Nat) (x : Bank) : (c.setBank b x).seg = c.seg := rfl
@[simp] theorem Core.setBank_closing (c : Core) (b : Nat) (x : Bank) : (c.setBank b x).closing = c.closing := rfl
@[simp] theorem Core.setBank_pubs (c : Core) (b : Nat) (x : Bank) : (c.setBank b x).pubs = c.pubs := rfl
@[simp] theorem Core.setBank_confirmed (c : Core) (b : Nat) (x : Bank) : (c.setBank b x).confirmed = c.confirmed := rfl
@[simp] theorem Core.setBank_past (c : Core) (b : Nat) (x : Bank) : (c.setBank b x).past = c.past := rfl
@[simp] theorem Core.setBank_again (c : Core) (b : Nat) (x : Bank) : (c.setBank b x).again = c.again := rfl
@[simp] theorem Core.setBank_rcache (c : Core) (b : Nat) (x : Bank) : (c.setBank b x).rcache = c.rcache := rfl
@[simp] theorem Core.setBank_mseq (c : Core) (b : Nat) (x : Bank) : (c.setBank b x).mseq = c.mseq := rfl
@[simp] theorem Core.setBank_tseq (c : Core) (b : Nat) (x : Bank) : (c.setBank b x).tseq = c.tseq := rfl
@[simp] theorem Core.setBank_mem (c : Core) (b : Nat) (x : Bank) : (c.setBank b x).mem = c.mem := rfl
@[simp] theorem Core.setBank_owner (c : Core) (b : Nat) (x : Bank) : (c.setBank b x).owner = c.owner := rfl
@[simp] theorem Core.setBank_poison (c : Core) (b : Nat) (x : Bank) : (c.setBank b x).poison = c.poison := rfl
@[simp] theorem Core.setBank_imgSlot (c : Core) (b : Nat) (x : Bank) : (c.setBank b x).imgSlot = c.imgSlot := rfl
@[simp] theorem Core.setBank_mailbox (c : Core) (b : Nat) (x : Bank) : (c.setBank b x).mailbox = c.mailbox := rfl
@[simp] theorem Core.setBank_deque (c : Core) (b : Nat) (x : Bank) : (c.setBank b x).deque = c.deque := rfl
@[simp] theorem Core.setBank_dqTop (c : Core) (b : Nat) (x : Bank) : (c.setBank b x).dqTop = c.dqTop := rfl
@[simp] theorem Core.setBank_mbHead (c : Core) (b : Nat) (x : Bank) : (c.setBank b x).mbHead = c.mbHead := rfl
@[simp] theorem Core.setBank_imem (c : Core) (b : Nat) (x : Bank) : (c.setBank b x).imem = c.imem := rfl
@[simp] theorem Core.setBank_handlers (c : Core) (b : Nat) (x : Bank) : (c.setBank b x).handlers = c.handlers := rfl
@[simp] theorem Core.setBank_loaded (c : Core) (b : Nat) (x : Bank) : (c.setBank b x).loaded = c.loaded := rfl
@[simp] theorem Core.setBank_acc (c : Core) (b : Nat) (x : Bank) : (c.setBank b x).acc = c.acc := rfl
@[simp] theorem Core.setBank_accOwner (c : Core) (b : Nat) (x : Bank) : (c.setBank b x).accOwner = c.accOwner := rfl
@[simp] theorem Core.setBank_accPoison (c : Core) (b : Nat) (x : Bank) : (c.setBank b x).accPoison = c.accPoison := rfl
@[simp] theorem Core.setBank_derived (c : Core) (b : Nat) (x : Bank) : (c.setBank b x).derived = c.derived := rfl
@[simp] theorem Core.setBank_active (c : Core) (b : Nat) (x : Bank) : (c.setBank b x).active = c.active := rfl
@[simp] theorem Core.setBank_shadow (c : Core) (b : Nat) (x : Bank) : (c.setBank b x).shadow = c.shadow := rfl
@[simp] theorem Core.setBank_fenced (c : Core) (b : Nat) (x : Bank) : (c.setBank b x).fenced = c.fenced := rfl
@[simp] theorem Core.setBank_lseq (c : Core) (b : Nat) (x : Bank) : (c.setBank b x).lseq = c.lseq := rfl
@[simp] theorem Core.setBank_grinder (c : Core) (b : Nat) (x : Bank) : (c.setBank b x).grinder = c.grinder := rfl
@[simp] theorem Core.setBank_engSeq (c : Core) (b : Nat) (x : Bank) : (c.setBank b x).engSeq = c.engSeq := rfl
@[simp] theorem Core.setBank_ops (c : Core) (b : Nat) (x : Bank) : (c.setBank b x).ops = c.ops := rfl
@[simp] theorem Core.setBank_ring (c : Core) (b : Nat) (x : Bank) : (c.setBank b x).ring = c.ring := rfl
@[simp] theorem Core.setBank_planes0 (c : Core) (b : Nat) (x : Bank) : (c.setBank b x).planes0 = c.planes0 := rfl
@[simp] theorem Core.setBank_grind0 (c : Core) (b : Nat) (x : Bank) : (c.setBank b x).grind0 = c.grind0 := rfl
@[simp] theorem Core.setBank_locks (c : Core) (b : Nat) (x : Bank) : (c.setBank b x).locks = c.locks := rfl
@[simp] theorem Core.setBank_traceOut (c : Core) (b : Nat) (x : Bank) : (c.setBank b x).traceOut = c.traceOut := rfl
@[simp] theorem Core.setBank_pours (c : Core) (b : Nat) (x : Bank) : (c.setBank b x).pours = c.pours := rfl
@[simp] theorem Core.setBank_colls (c : Core) (b : Nat) (x : Bank) : (c.setBank b x).colls = c.colls := rfl
@[simp] theorem Core.setBank_rounds (c : Core) (b : Nat) (x : Bank) : (c.setBank b x).rounds = c.rounds := rfl
@[simp] theorem Core.setBank_lt (c : Core) (b : Nat) (x : Bank) : (c.setBank b x).lt = c.lt := rfl
@[simp] theorem Core.setBank_owed (c : Core) (b : Nat) (x : Bank) : (c.setBank b x).owed = c.owed := rfl
@[simp] theorem Core.setBank_prio (c : Core) (b : Nat) (x : Bank) : (c.setBank b x).prio = c.prio := rfl
@[simp] theorem Core.setBank_stealCtr (c : Core) (b : Nat) (x : Bank) : (c.setBank b x).stealCtr = c.stealCtr := rfl
@[simp] theorem Core.setBank_stealWait (c : Core) (b : Nat) (x : Bank) : (c.setBank b x).stealWait = c.stealWait := rfl
@[simp] theorem Core.setBank_victims (c : Core) (b : Nat) (x : Bank) : (c.setBank b x).victims = c.victims := rfl
@[simp] theorem Core.setBank_sent (c : Core) (b : Nat) (x : Bank) : (c.setBank b x).sent = c.sent := rfl
@[simp] theorem Core.setBank_recv (c : Core) (b : Nat) (x : Bank) : (c.setBank b x).recv = c.recv := rfl
@[simp] theorem Core.setBank_gang (c : Core) (b : Nat) (x : Bank) : (c.setBank b x).gang = c.gang := rfl
@[simp] theorem Core.setBank_gangWait (c : Core) (b : Nat) (x : Bank) : (c.setBank b x).gangWait = c.gangWait := rfl
@[simp] theorem Core.setBank_reserved (c : Core) (b : Nat) (x : Bank) : (c.setBank b x).reserved = c.reserved := rfl
@[simp] theorem Core.setBank_tlb (c : Core) (b : Nat) (x : Bank) : (c.setBank b x).tlb = c.tlb := rfl
@[simp] theorem Core.setBank_stopped (c : Core) (b : Nat) (x : Bank) : (c.setBank b x).stopped = c.stopped := rfl
@[simp] theorem Core.setBank_halted (c : Core) (b : Nat) (x : Bank) : (c.setBank b x).halted = c.halted := rfl
@[simp] theorem Core.setBank_haltClk (c : Core) (b : Nat) (x : Bank) : (c.setBank b x).haltClk = c.haltClk := rfl
@[simp] theorem Core.setBank_haltPc (c : Core) (b : Nat) (x : Bank) : (c.setBank b x).haltPc = c.haltPc := rfl
@[simp] theorem Core.setBank_steps (c : Core) (b : Nat) (x : Bank) : (c.setBank b x).steps = c.steps := rfl
@[simp] theorem Core.setBank_rpos (c : Core) (b : Nat) (x : Bank) : (c.setBank b x).rpos = c.rpos := rfl
@[simp] theorem Core.setBank_passing (c : Core) (b : Nat) (x : Bank) : (c.setBank b x).passing = c.passing := rfl
@[simp] theorem Core.setBank_clk (c : Core) (b : Nat) (x : Bank) : (c.setBank b x).clk = c.clk := rfl
@[simp] theorem Core.setBank_at9 (c : Core) (b : Nat) (x : Bank) : (c.setBank b x).at9 = c.at9 := rfl
@[simp] theorem Core.setBank_nact (c : Core) (b : Nat) (x : Bank) : (c.setBank b x).nact = c.nact := rfl
@[simp] theorem Core.setBank_nord (c : Core) (b : Nat) (x : Bank) : (c.setBank b x).nord = c.nord := rfl
@[simp] theorem Core.setBank_nund (c : Core) (b : Nat) (x : Bank) : (c.setBank b x).nund = c.nund := rfl

/-! ### Core.close -/

@[simp] theorem Core.close_id (c : Core) (k : Boundary) (p : W64) (a : AtCommit) : (c.close k p a).id = c.id := rfl
@[simp] theorem Core.close_running (c : Core) (k : Boundary) (p : W64) (a : AtCommit) : (c.close k p a).running = c.running := rfl
@[simp] theorem Core.close_regs (c : Core) (k : Boundary) (p : W64) (a : AtCommit) : (c.close k p a).regs = c.regs := rfl
@[simp] theorem Core.close_ctl (c : Core) (k : Boundary) (p : W64) (a : AtCommit) : (c.close k p a).ctl = c.ctl := rfl
@[simp] theorem Core.close_pc (c : Core) (k : Boundary) (p : W64) (a : AtCommit) : (c.close k p a).pc = c.pc := rfl
@[simp] theorem Core.close_wait (c : Core) (k : Boundary) (p : W64) (a : AtCommit) : (c.close k p a).wait = c.wait := rfl
@[simp] theorem Core.close_spin (c : Core) (k : Boundary) (p : W64) (a : AtCommit) : (c.close k p a).spin = c.spin := rfl
@[simp] theorem Core.close_pend (c : Core) (k : Boundary) (p : W64) (a : AtCommit) : (c.close k p a).pend = c.pend := rfl
@[simp] theorem Core.close_reads (c : Core) (k : Boundary) (p : W64) (a : AtCommit) : (c.close k p a).reads = c.reads := rfl
@[simp] theorem Core.close_marks (c : Core) (k : Boundary) (p : W64) (a : AtCommit) : (c.close k p a).marks = c.marks := rfl
@[simp] theorem Core.close_irrev (c : Core) (k : Boundary) (p : W64) (a : AtCommit) : (c.close k p a).irrev = c.irrev := rfl
@[simp] theorem Core.close_report (c : Core) (k : Boundary) (p : W64) (a : AtCommit) : (c.close k p a).report = c.report := rfl
@[simp] theorem Core.close_raised (c : Core) (k : Boundary) (p : W64) (a : AtCommit) : (c.close k p a).raised = c.raised := rfl
@[simp] theorem Core.close_frame (c : Core) (k : Boundary) (p : W64) (a : AtCommit) : (c.close k p a).frame = c.frame := rfl
@[simp] theorem Core.close_parks (c : Core) (k : Boundary) (p : W64) (a : AtCommit) : (c.close k p a).parks = c.parks := rfl
@[simp] theorem Core.close_streams (c : Core) (k : Boundary) (p : W64) (a : AtCommit) : (c.close k p a).streams = c.streams := rfl
@[simp] theorem Core.close_pubs (c : Core) (k : Boundary) (p : W64) (a : AtCommit) : (c.close k p a).pubs = c.pubs := rfl
@[simp] theorem Core.close_confirmed (c : Core) (k : Boundary) (p : W64) (a : AtCommit) : (c.close k p a).confirmed = c.confirmed := rfl
@[simp] theorem Core.close_past (c : Core) (k : Boundary) (p : W64) (a : AtCommit) : (c.close k p a).past = c.past := rfl
@[simp] theorem Core.close_again (c : Core) (k : Boundary) (p : W64) (a : AtCommit) : (c.close k p a).again = c.again := rfl
@[simp] theorem Core.close_mseq (c : Core) (k : Boundary) (p : W64) (a : AtCommit) : (c.close k p a).mseq = c.mseq := rfl
@[simp] theorem Core.close_tseq (c : Core) (k : Boundary) (p : W64) (a : AtCommit) : (c.close k p a).tseq = c.tseq := rfl
@[simp] theorem Core.close_mem (c : Core) (k : Boundary) (p : W64) (a : AtCommit) : (c.close k p a).mem = c.mem := rfl
@[simp] theorem Core.close_owner (c : Core) (k : Boundary) (p : W64) (a : AtCommit) : (c.close k p a).owner = c.owner := rfl
@[simp] theorem Core.close_poison (c : Core) (k : Boundary) (p : W64) (a : AtCommit) : (c.close k p a).poison = c.poison := rfl
@[simp] theorem Core.close_banks (c : Core) (k : Boundary) (p : W64) (a : AtCommit) : (c.close k p a).banks = c.banks := rfl
@[simp] theorem Core.close_imgSlot (c : Core) (k : Boundary) (p : W64) (a : AtCommit) : (c.close k p a).imgSlot = c.imgSlot := rfl
@[simp] theorem Core.close_mailbox (c : Core) (k : Boundary) (p : W64) (a : AtCommit) : (c.close k p a).mailbox = c.mailbox := rfl
@[simp] theorem Core.close_deque (c : Core) (k : Boundary) (p : W64) (a : AtCommit) : (c.close k p a).deque = c.deque := rfl
@[simp] theorem Core.close_dqTop (c : Core) (k : Boundary) (p : W64) (a : AtCommit) : (c.close k p a).dqTop = c.dqTop := rfl
@[simp] theorem Core.close_mbHead (c : Core) (k : Boundary) (p : W64) (a : AtCommit) : (c.close k p a).mbHead = c.mbHead := rfl
@[simp] theorem Core.close_imem (c : Core) (k : Boundary) (p : W64) (a : AtCommit) : (c.close k p a).imem = c.imem := rfl
@[simp] theorem Core.close_handlers (c : Core) (k : Boundary) (p : W64) (a : AtCommit) : (c.close k p a).handlers = c.handlers := rfl
@[simp] theorem Core.close_loaded (c : Core) (k : Boundary) (p : W64) (a : AtCommit) : (c.close k p a).loaded = c.loaded := rfl
@[simp] theorem Core.close_acc (c : Core) (k : Boundary) (p : W64) (a : AtCommit) : (c.close k p a).acc = c.acc := rfl
@[simp] theorem Core.close_accOwner (c : Core) (k : Boundary) (p : W64) (a : AtCommit) : (c.close k p a).accOwner = c.accOwner := rfl
@[simp] theorem Core.close_accPoison (c : Core) (k : Boundary) (p : W64) (a : AtCommit) : (c.close k p a).accPoison = c.accPoison := rfl
@[simp] theorem Core.close_derived (c : Core) (k : Boundary) (p : W64) (a : AtCommit) : (c.close k p a).derived = c.derived := rfl
@[simp] theorem Core.close_active (c : Core) (k : Boundary) (p : W64) (a : AtCommit) : (c.close k p a).active = c.active := rfl
@[simp] theorem Core.close_shadow (c : Core) (k : Boundary) (p : W64) (a : AtCommit) : (c.close k p a).shadow = c.shadow := rfl
@[simp] theorem Core.close_fenced (c : Core) (k : Boundary) (p : W64) (a : AtCommit) : (c.close k p a).fenced = c.fenced := rfl
@[simp] theorem Core.close_lseq (c : Core) (k : Boundary) (p : W64) (a : AtCommit) : (c.close k p a).lseq = c.lseq := rfl
@[simp] theorem Core.close_grinder (c : Core) (k : Boundary) (p : W64) (a : AtCommit) : (c.close k p a).grinder = c.grinder := rfl
@[simp] theorem Core.close_engSeq (c : Core) (k : Boundary) (p : W64) (a : AtCommit) : (c.close k p a).engSeq = c.engSeq := rfl
@[simp] theorem Core.close_ops (c : Core) (k : Boundary) (p : W64) (a : AtCommit) : (c.close k p a).ops = c.ops := rfl
@[simp] theorem Core.close_ring (c : Core) (k : Boundary) (p : W64) (a : AtCommit) : (c.close k p a).ring = c.ring := rfl
@[simp] theorem Core.close_planes0 (c : Core) (k : Boundary) (p : W64) (a : AtCommit) : (c.close k p a).planes0 = c.planes0 := rfl
@[simp] theorem Core.close_grind0 (c : Core) (k : Boundary) (p : W64) (a : AtCommit) : (c.close k p a).grind0 = c.grind0 := rfl
@[simp] theorem Core.close_locks (c : Core) (k : Boundary) (p : W64) (a : AtCommit) : (c.close k p a).locks = c.locks := rfl
@[simp] theorem Core.close_traceOut (c : Core) (k : Boundary) (p : W64) (a : AtCommit) : (c.close k p a).traceOut = c.traceOut := rfl
@[simp] theorem Core.close_pours (c : Core) (k : Boundary) (p : W64) (a : AtCommit) : (c.close k p a).pours = c.pours := rfl
@[simp] theorem Core.close_colls (c : Core) (k : Boundary) (p : W64) (a : AtCommit) : (c.close k p a).colls = c.colls := rfl
@[simp] theorem Core.close_rounds (c : Core) (k : Boundary) (p : W64) (a : AtCommit) : (c.close k p a).rounds = c.rounds := rfl
@[simp] theorem Core.close_lt (c : Core) (k : Boundary) (p : W64) (a : AtCommit) : (c.close k p a).lt = c.lt := rfl
@[simp] theorem Core.close_owed (c : Core) (k : Boundary) (p : W64) (a : AtCommit) : (c.close k p a).owed = c.owed := rfl
@[simp] theorem Core.close_prio (c : Core) (k : Boundary) (p : W64) (a : AtCommit) : (c.close k p a).prio = c.prio := rfl
@[simp] theorem Core.close_stealCtr (c : Core) (k : Boundary) (p : W64) (a : AtCommit) : (c.close k p a).stealCtr = c.stealCtr := rfl
@[simp] theorem Core.close_stealWait (c : Core) (k : Boundary) (p : W64) (a : AtCommit) : (c.close k p a).stealWait = c.stealWait := rfl
@[simp] theorem Core.close_victims (c : Core) (k : Boundary) (p : W64) (a : AtCommit) : (c.close k p a).victims = c.victims := rfl
@[simp] theorem Core.close_sent (c : Core) (k : Boundary) (p : W64) (a : AtCommit) : (c.close k p a).sent = c.sent := rfl
@[simp] theorem Core.close_recv (c : Core) (k : Boundary) (p : W64) (a : AtCommit) : (c.close k p a).recv = c.recv := rfl
@[simp] theorem Core.close_gang (c : Core) (k : Boundary) (p : W64) (a : AtCommit) : (c.close k p a).gang = c.gang := rfl
@[simp] theorem Core.close_gangWait (c : Core) (k : Boundary) (p : W64) (a : AtCommit) : (c.close k p a).gangWait = c.gangWait := rfl
@[simp] theorem Core.close_reserved (c : Core) (k : Boundary) (p : W64) (a : AtCommit) : (c.close k p a).reserved = c.reserved := rfl
@[simp] theorem Core.close_tlb (c : Core) (k : Boundary) (p : W64) (a : AtCommit) : (c.close k p a).tlb = c.tlb := rfl
@[simp] theorem Core.close_stopped (c : Core) (k : Boundary) (p : W64) (a : AtCommit) : (c.close k p a).stopped = c.stopped := rfl
@[simp] theorem Core.close_halted (c : Core) (k : Boundary) (p : W64) (a : AtCommit) : (c.close k p a).halted = c.halted := rfl
@[simp] theorem Core.close_haltClk (c : Core) (k : Boundary) (p : W64) (a : AtCommit) : (c.close k p a).haltClk = c.haltClk := rfl
@[simp] theorem Core.close_haltPc (c : Core) (k : Boundary) (p : W64) (a : AtCommit) : (c.close k p a).haltPc = c.haltPc := rfl
@[simp] theorem Core.close_steps (c : Core) (k : Boundary) (p : W64) (a : AtCommit) : (c.close k p a).steps = c.steps := rfl
@[simp] theorem Core.close_rpos (c : Core) (k : Boundary) (p : W64) (a : AtCommit) : (c.close k p a).rpos = c.rpos := rfl
@[simp] theorem Core.close_passing (c : Core) (k : Boundary) (p : W64) (a : AtCommit) : (c.close k p a).passing = c.passing := rfl
@[simp] theorem Core.close_clk (c : Core) (k : Boundary) (p : W64) (a : AtCommit) : (c.close k p a).clk = c.clk := rfl
@[simp] theorem Core.close_at9 (c : Core) (k : Boundary) (p : W64) (a : AtCommit) : (c.close k p a).at9 = c.at9 := rfl
@[simp] theorem Core.close_nact (c : Core) (k : Boundary) (p : W64) (a : AtCommit) : (c.close k p a).nact = c.nact := rfl
@[simp] theorem Core.close_nord (c : Core) (k : Boundary) (p : W64) (a : AtCommit) : (c.close k p a).nord = c.nord := rfl
@[simp] theorem Core.close_nund (c : Core) (k : Boundary) (p : W64) (a : AtCommit) : (c.close k p a).nund = c.nund := rfl

/-! ### Core.outAdd -/

@[simp] theorem Core.outAdd_id (c : Core) (e : OutEntry) : (c.outAdd e).id = c.id := rfl
@[simp] theorem Core.outAdd_running (c : Core) (e : OutEntry) : (c.outAdd e).running = c.running := rfl
@[simp] theorem Core.outAdd_act (c : Core) (e : OutEntry) : (c.outAdd e).act = c.act := rfl
@[simp] theorem Core.outAdd_regs (c : Core) (e : OutEntry) : (c.outAdd e).regs = c.regs := rfl
@[simp] theorem Core.outAdd_ctl (c : Core) (e : OutEntry) : (c.outAdd e).ctl = c.ctl := rfl
@[simp] theorem Core.outAdd_pc (c : Core) (e : OutEntry) : (c.outAdd e).pc = c.pc := rfl
@[simp] theorem Core.outAdd_wait (c : Core) (e : OutEntry) : (c.outAdd e).wait = c.wait := rfl
@[simp] theorem Core.outAdd_spin (c : Core) (e : OutEntry) : (c.outAdd e).spin = c.spin := rfl
@[simp] theorem Core.outAdd_pend (c : Core) (e : OutEntry) : (c.outAdd e).pend = c.pend := rfl
@[simp] theorem Core.outAdd_reads (c : Core) (e : OutEntry) : (c.outAdd e).reads = c.reads := rfl
@[simp] theorem Core.outAdd_marks (c : Core) (e : OutEntry) : (c.outAdd e).marks = c.marks := rfl
@[simp] theorem Core.outAdd_irrev (c : Core) (e : OutEntry) : (c.outAdd e).irrev = c.irrev := rfl
@[simp] theorem Core.outAdd_report (c : Core) (e : OutEntry) : (c.outAdd e).report = c.report := rfl
@[simp] theorem Core.outAdd_raised (c : Core) (e : OutEntry) : (c.outAdd e).raised = c.raised := rfl
@[simp] theorem Core.outAdd_frame (c : Core) (e : OutEntry) : (c.outAdd e).frame = c.frame := rfl
@[simp] theorem Core.outAdd_parks (c : Core) (e : OutEntry) : (c.outAdd e).parks = c.parks := rfl
@[simp] theorem Core.outAdd_streams (c : Core) (e : OutEntry) : (c.outAdd e).streams = c.streams := rfl
@[simp] theorem Core.outAdd_closing (c : Core) (e : OutEntry) : (c.outAdd e).closing = c.closing := rfl
@[simp] theorem Core.outAdd_pubs (c : Core) (e : OutEntry) : (c.outAdd e).pubs = c.pubs := rfl
@[simp] theorem Core.outAdd_confirmed (c : Core) (e : OutEntry) : (c.outAdd e).confirmed = c.confirmed := rfl
@[simp] theorem Core.outAdd_past (c : Core) (e : OutEntry) : (c.outAdd e).past = c.past := rfl
@[simp] theorem Core.outAdd_again (c : Core) (e : OutEntry) : (c.outAdd e).again = c.again := rfl
@[simp] theorem Core.outAdd_rcache (c : Core) (e : OutEntry) : (c.outAdd e).rcache = c.rcache := rfl
@[simp] theorem Core.outAdd_mseq (c : Core) (e : OutEntry) : (c.outAdd e).mseq = c.mseq := rfl
@[simp] theorem Core.outAdd_tseq (c : Core) (e : OutEntry) : (c.outAdd e).tseq = c.tseq := rfl
@[simp] theorem Core.outAdd_mem (c : Core) (e : OutEntry) : (c.outAdd e).mem = c.mem := rfl
@[simp] theorem Core.outAdd_owner (c : Core) (e : OutEntry) : (c.outAdd e).owner = c.owner := rfl
@[simp] theorem Core.outAdd_poison (c : Core) (e : OutEntry) : (c.outAdd e).poison = c.poison := rfl
@[simp] theorem Core.outAdd_banks (c : Core) (e : OutEntry) : (c.outAdd e).banks = c.banks := rfl
@[simp] theorem Core.outAdd_imgSlot (c : Core) (e : OutEntry) : (c.outAdd e).imgSlot = c.imgSlot := rfl
@[simp] theorem Core.outAdd_mailbox (c : Core) (e : OutEntry) : (c.outAdd e).mailbox = c.mailbox := rfl
@[simp] theorem Core.outAdd_deque (c : Core) (e : OutEntry) : (c.outAdd e).deque = c.deque := rfl
@[simp] theorem Core.outAdd_dqTop (c : Core) (e : OutEntry) : (c.outAdd e).dqTop = c.dqTop := rfl
@[simp] theorem Core.outAdd_mbHead (c : Core) (e : OutEntry) : (c.outAdd e).mbHead = c.mbHead := rfl
@[simp] theorem Core.outAdd_imem (c : Core) (e : OutEntry) : (c.outAdd e).imem = c.imem := rfl
@[simp] theorem Core.outAdd_handlers (c : Core) (e : OutEntry) : (c.outAdd e).handlers = c.handlers := rfl
@[simp] theorem Core.outAdd_loaded (c : Core) (e : OutEntry) : (c.outAdd e).loaded = c.loaded := rfl
@[simp] theorem Core.outAdd_acc (c : Core) (e : OutEntry) : (c.outAdd e).acc = c.acc := rfl
@[simp] theorem Core.outAdd_accOwner (c : Core) (e : OutEntry) : (c.outAdd e).accOwner = c.accOwner := rfl
@[simp] theorem Core.outAdd_accPoison (c : Core) (e : OutEntry) : (c.outAdd e).accPoison = c.accPoison := rfl
@[simp] theorem Core.outAdd_derived (c : Core) (e : OutEntry) : (c.outAdd e).derived = c.derived := rfl
@[simp] theorem Core.outAdd_active (c : Core) (e : OutEntry) : (c.outAdd e).active = c.active := rfl
@[simp] theorem Core.outAdd_shadow (c : Core) (e : OutEntry) : (c.outAdd e).shadow = c.shadow := rfl
@[simp] theorem Core.outAdd_fenced (c : Core) (e : OutEntry) : (c.outAdd e).fenced = c.fenced := rfl
@[simp] theorem Core.outAdd_lseq (c : Core) (e : OutEntry) : (c.outAdd e).lseq = c.lseq := rfl
@[simp] theorem Core.outAdd_grinder (c : Core) (e : OutEntry) : (c.outAdd e).grinder = c.grinder := rfl
@[simp] theorem Core.outAdd_engSeq (c : Core) (e : OutEntry) : (c.outAdd e).engSeq = c.engSeq := rfl
@[simp] theorem Core.outAdd_ops (c : Core) (e : OutEntry) : (c.outAdd e).ops = c.ops := rfl
@[simp] theorem Core.outAdd_ring (c : Core) (e : OutEntry) : (c.outAdd e).ring = c.ring := rfl
@[simp] theorem Core.outAdd_planes0 (c : Core) (e : OutEntry) : (c.outAdd e).planes0 = c.planes0 := rfl
@[simp] theorem Core.outAdd_grind0 (c : Core) (e : OutEntry) : (c.outAdd e).grind0 = c.grind0 := rfl
@[simp] theorem Core.outAdd_locks (c : Core) (e : OutEntry) : (c.outAdd e).locks = c.locks := rfl
@[simp] theorem Core.outAdd_traceOut (c : Core) (e : OutEntry) : (c.outAdd e).traceOut = c.traceOut := rfl
@[simp] theorem Core.outAdd_pours (c : Core) (e : OutEntry) : (c.outAdd e).pours = c.pours := rfl
@[simp] theorem Core.outAdd_colls (c : Core) (e : OutEntry) : (c.outAdd e).colls = c.colls := rfl
@[simp] theorem Core.outAdd_rounds (c : Core) (e : OutEntry) : (c.outAdd e).rounds = c.rounds := rfl
@[simp] theorem Core.outAdd_lt (c : Core) (e : OutEntry) : (c.outAdd e).lt = c.lt := rfl
@[simp] theorem Core.outAdd_owed (c : Core) (e : OutEntry) : (c.outAdd e).owed = c.owed := rfl
@[simp] theorem Core.outAdd_prio (c : Core) (e : OutEntry) : (c.outAdd e).prio = c.prio := rfl
@[simp] theorem Core.outAdd_stealCtr (c : Core) (e : OutEntry) : (c.outAdd e).stealCtr = c.stealCtr := rfl
@[simp] theorem Core.outAdd_stealWait (c : Core) (e : OutEntry) : (c.outAdd e).stealWait = c.stealWait := rfl
@[simp] theorem Core.outAdd_victims (c : Core) (e : OutEntry) : (c.outAdd e).victims = c.victims := rfl
@[simp] theorem Core.outAdd_sent (c : Core) (e : OutEntry) : (c.outAdd e).sent = c.sent := rfl
@[simp] theorem Core.outAdd_recv (c : Core) (e : OutEntry) : (c.outAdd e).recv = c.recv := rfl
@[simp] theorem Core.outAdd_gang (c : Core) (e : OutEntry) : (c.outAdd e).gang = c.gang := rfl
@[simp] theorem Core.outAdd_gangWait (c : Core) (e : OutEntry) : (c.outAdd e).gangWait = c.gangWait := rfl
@[simp] theorem Core.outAdd_reserved (c : Core) (e : OutEntry) : (c.outAdd e).reserved = c.reserved := rfl
@[simp] theorem Core.outAdd_tlb (c : Core) (e : OutEntry) : (c.outAdd e).tlb = c.tlb := rfl
@[simp] theorem Core.outAdd_stopped (c : Core) (e : OutEntry) : (c.outAdd e).stopped = c.stopped := rfl
@[simp] theorem Core.outAdd_halted (c : Core) (e : OutEntry) : (c.outAdd e).halted = c.halted := rfl
@[simp] theorem Core.outAdd_haltClk (c : Core) (e : OutEntry) : (c.outAdd e).haltClk = c.haltClk := rfl
@[simp] theorem Core.outAdd_haltPc (c : Core) (e : OutEntry) : (c.outAdd e).haltPc = c.haltPc := rfl
@[simp] theorem Core.outAdd_steps (c : Core) (e : OutEntry) : (c.outAdd e).steps = c.steps := rfl
@[simp] theorem Core.outAdd_rpos (c : Core) (e : OutEntry) : (c.outAdd e).rpos = c.rpos := rfl
@[simp] theorem Core.outAdd_passing (c : Core) (e : OutEntry) : (c.outAdd e).passing = c.passing := rfl
@[simp] theorem Core.outAdd_clk (c : Core) (e : OutEntry) : (c.outAdd e).clk = c.clk := rfl
@[simp] theorem Core.outAdd_at9 (c : Core) (e : OutEntry) : (c.outAdd e).at9 = c.at9 := rfl
@[simp] theorem Core.outAdd_nact (c : Core) (e : OutEntry) : (c.outAdd e).nact = c.nact := rfl
@[simp] theorem Core.outAdd_nord (c : Core) (e : OutEntry) : (c.outAdd e).nord = c.nord := rfl
@[simp] theorem Core.outAdd_nund (c : Core) (e : OutEntry) : (c.outAdd e).nund = c.nund := rfl

/-! ### Core.idle -/

@[simp] theorem Core.idle_id (c : Core) : (c.idle).id = c.id := rfl
@[simp] theorem Core.idle_pend (c : Core) : (c.idle).pend = c.pend := rfl
@[simp] theorem Core.idle_reads (c : Core) : (c.idle).reads = c.reads := rfl
@[simp] theorem Core.idle_marks (c : Core) : (c.idle).marks = c.marks := rfl
@[simp] theorem Core.idle_report (c : Core) : (c.idle).report = c.report := rfl
@[simp] theorem Core.idle_raised (c : Core) : (c.idle).raised = c.raised := rfl
@[simp] theorem Core.idle_frame (c : Core) : (c.idle).frame = c.frame := rfl
@[simp] theorem Core.idle_parks (c : Core) : (c.idle).parks = c.parks := rfl
@[simp] theorem Core.idle_streams (c : Core) : (c.idle).streams = c.streams := rfl
@[simp] theorem Core.idle_seg (c : Core) : (c.idle).seg = c.seg := rfl
@[simp] theorem Core.idle_closing (c : Core) : (c.idle).closing = c.closing := rfl
@[simp] theorem Core.idle_pubs (c : Core) : (c.idle).pubs = c.pubs := rfl
@[simp] theorem Core.idle_confirmed (c : Core) : (c.idle).confirmed = c.confirmed := rfl
@[simp] theorem Core.idle_past (c : Core) : (c.idle).past = c.past := rfl
@[simp] theorem Core.idle_again (c : Core) : (c.idle).again = c.again := rfl
@[simp] theorem Core.idle_rcache (c : Core) : (c.idle).rcache = c.rcache := rfl
@[simp] theorem Core.idle_mseq (c : Core) : (c.idle).mseq = c.mseq := rfl
@[simp] theorem Core.idle_tseq (c : Core) : (c.idle).tseq = c.tseq := rfl
@[simp] theorem Core.idle_mem (c : Core) : (c.idle).mem = c.mem := rfl
@[simp] theorem Core.idle_owner (c : Core) : (c.idle).owner = c.owner := rfl
@[simp] theorem Core.idle_poison (c : Core) : (c.idle).poison = c.poison := rfl
@[simp] theorem Core.idle_banks (c : Core) : (c.idle).banks = c.banks := rfl
@[simp] theorem Core.idle_imgSlot (c : Core) : (c.idle).imgSlot = c.imgSlot := rfl
@[simp] theorem Core.idle_mailbox (c : Core) : (c.idle).mailbox = c.mailbox := rfl
@[simp] theorem Core.idle_deque (c : Core) : (c.idle).deque = c.deque := rfl
@[simp] theorem Core.idle_dqTop (c : Core) : (c.idle).dqTop = c.dqTop := rfl
@[simp] theorem Core.idle_mbHead (c : Core) : (c.idle).mbHead = c.mbHead := rfl
@[simp] theorem Core.idle_imem (c : Core) : (c.idle).imem = c.imem := rfl
@[simp] theorem Core.idle_handlers (c : Core) : (c.idle).handlers = c.handlers := rfl
@[simp] theorem Core.idle_loaded (c : Core) : (c.idle).loaded = c.loaded := rfl
@[simp] theorem Core.idle_acc (c : Core) : (c.idle).acc = c.acc := rfl
@[simp] theorem Core.idle_accOwner (c : Core) : (c.idle).accOwner = c.accOwner := rfl
@[simp] theorem Core.idle_accPoison (c : Core) : (c.idle).accPoison = c.accPoison := rfl
@[simp] theorem Core.idle_derived (c : Core) : (c.idle).derived = c.derived := rfl
@[simp] theorem Core.idle_active (c : Core) : (c.idle).active = c.active := rfl
@[simp] theorem Core.idle_shadow (c : Core) : (c.idle).shadow = c.shadow := rfl
@[simp] theorem Core.idle_fenced (c : Core) : (c.idle).fenced = c.fenced := rfl
@[simp] theorem Core.idle_lseq (c : Core) : (c.idle).lseq = c.lseq := rfl
@[simp] theorem Core.idle_grinder (c : Core) : (c.idle).grinder = c.grinder := rfl
@[simp] theorem Core.idle_engSeq (c : Core) : (c.idle).engSeq = c.engSeq := rfl
@[simp] theorem Core.idle_ops (c : Core) : (c.idle).ops = c.ops := rfl
@[simp] theorem Core.idle_ring (c : Core) : (c.idle).ring = c.ring := rfl
@[simp] theorem Core.idle_planes0 (c : Core) : (c.idle).planes0 = c.planes0 := rfl
@[simp] theorem Core.idle_grind0 (c : Core) : (c.idle).grind0 = c.grind0 := rfl
@[simp] theorem Core.idle_locks (c : Core) : (c.idle).locks = c.locks := rfl
@[simp] theorem Core.idle_traceOut (c : Core) : (c.idle).traceOut = c.traceOut := rfl
@[simp] theorem Core.idle_pours (c : Core) : (c.idle).pours = c.pours := rfl
@[simp] theorem Core.idle_colls (c : Core) : (c.idle).colls = c.colls := rfl
@[simp] theorem Core.idle_rounds (c : Core) : (c.idle).rounds = c.rounds := rfl
@[simp] theorem Core.idle_lt (c : Core) : (c.idle).lt = c.lt := rfl
@[simp] theorem Core.idle_owed (c : Core) : (c.idle).owed = c.owed := rfl
@[simp] theorem Core.idle_prio (c : Core) : (c.idle).prio = c.prio := rfl
@[simp] theorem Core.idle_stealCtr (c : Core) : (c.idle).stealCtr = c.stealCtr := rfl
@[simp] theorem Core.idle_stealWait (c : Core) : (c.idle).stealWait = c.stealWait := rfl
@[simp] theorem Core.idle_victims (c : Core) : (c.idle).victims = c.victims := rfl
@[simp] theorem Core.idle_sent (c : Core) : (c.idle).sent = c.sent := rfl
@[simp] theorem Core.idle_recv (c : Core) : (c.idle).recv = c.recv := rfl
@[simp] theorem Core.idle_gang (c : Core) : (c.idle).gang = c.gang := rfl
@[simp] theorem Core.idle_gangWait (c : Core) : (c.idle).gangWait = c.gangWait := rfl
@[simp] theorem Core.idle_reserved (c : Core) : (c.idle).reserved = c.reserved := rfl
@[simp] theorem Core.idle_tlb (c : Core) : (c.idle).tlb = c.tlb := rfl
@[simp] theorem Core.idle_stopped (c : Core) : (c.idle).stopped = c.stopped := rfl
@[simp] theorem Core.idle_halted (c : Core) : (c.idle).halted = c.halted := rfl
@[simp] theorem Core.idle_haltClk (c : Core) : (c.idle).haltClk = c.haltClk := rfl
@[simp] theorem Core.idle_haltPc (c : Core) : (c.idle).haltPc = c.haltPc := rfl
@[simp] theorem Core.idle_steps (c : Core) : (c.idle).steps = c.steps := rfl
@[simp] theorem Core.idle_rpos (c : Core) : (c.idle).rpos = c.rpos := rfl
@[simp] theorem Core.idle_passing (c : Core) : (c.idle).passing = c.passing := rfl
@[simp] theorem Core.idle_clk (c : Core) : (c.idle).clk = c.clk := rfl
@[simp] theorem Core.idle_at9 (c : Core) : (c.idle).at9 = c.at9 := rfl
@[simp] theorem Core.idle_nact (c : Core) : (c.idle).nact = c.nact := rfl
@[simp] theorem Core.idle_nord (c : Core) : (c.idle).nord = c.nord := rfl
@[simp] theorem Core.idle_nund (c : Core) : (c.idle).nund = c.nund := rfl

/-! ### State.waiting -/

@[simp] theorem State.waiting_cur (s : State) (w : Wait) : (s.waiting w).cur = s.cur := rfl
@[simp] theorem State.waiting_others (s : State) (w : Wait) : (s.waiting w).others = s.others := rfl
@[simp] theorem State.waiting_agenda (s : State) (w : Wait) : (s.waiting w).agenda = s.agenda := rfl
@[simp] theorem State.waiting_chan (s : State) (w : Wait) : (s.waiting w).chan = s.chan := rfl
@[simp] theorem State.waiting_staged (s : State) (w : Wait) : (s.waiting w).staged = s.staged := rfl
@[simp] theorem State.waiting_seqs (s : State) (w : Wait) : (s.waiting w).seqs = s.seqs := rfl
@[simp] theorem State.waiting_filter (s : State) (w : Wait) : (s.waiting w).filter = s.filter := rfl
@[simp] theorem State.waiting_dram (s : State) (w : Wait) : (s.waiting w).dram = s.dram := rfl
@[simp] theorem State.waiting_dtag (s : State) (w : Wait) : (s.waiting w).dtag = s.dtag := rfl
@[simp] theorem State.waiting_dpois (s : State) (w : Wait) : (s.waiting w).dpois = s.dpois := rfl
@[simp] theorem State.waiting_derr (s : State) (w : Wait) : (s.waiting w).derr = s.derr := rfl
@[simp] theorem State.waiting_dlocks (s : State) (w : Wait) : (s.waiting w).dlocks = s.dlocks := rfl
@[simp] theorem State.waiting_host (s : State) (w : Wait) : (s.waiting w).host = s.host := rfl
@[simp] theorem State.waiting_corrected (s : State) (w : Wait) : (s.waiting w).corrected = s.corrected := rfl
@[simp] theorem State.waiting_tables (s : State) (w : Wait) : (s.waiting w).tables = s.tables := rfl
@[simp] theorem State.waiting_leases (s : State) (w : Wait) : (s.waiting w).leases = s.leases := rfl
@[simp] theorem State.waiting_leases0 (s : State) (w : Wait) : (s.waiting w).leases0 = s.leases0 := rfl
@[simp] theorem State.waiting_pours (s : State) (w : Wait) : (s.waiting w).pours = s.pours := rfl
@[simp] theorem State.waiting_pours0 (s : State) (w : Wait) : (s.waiting w).pours0 = s.pours0 := rfl
@[simp] theorem State.waiting_notices (s : State) (w : Wait) : (s.waiting w).notices = s.notices := rfl
@[simp] theorem State.waiting_strikes (s : State) (w : Wait) : (s.waiting w).strikes = s.strikes := rfl
@[simp] theorem State.waiting_reload (s : State) (w : Wait) : (s.waiting w).reload = s.reload := rfl
@[simp] theorem State.waiting_launches (s : State) (w : Wait) : (s.waiting w).launches = s.launches := rfl
@[simp] theorem State.waiting_rounds (s : State) (w : Wait) : (s.waiting w).rounds = s.rounds := rfl
@[simp] theorem State.waiting_ctxs (s : State) (w : Wait) : (s.waiting w).ctxs = s.ctxs := rfl
@[simp] theorem State.waiting_images (s : State) (w : Wait) : (s.waiting w).images = s.images := rfl
@[simp] theorem State.waiting_chans (s : State) (w : Wait) : (s.waiting w).chans = s.chans := rfl
@[simp] theorem State.waiting_slots (s : State) (w : Wait) : (s.waiting w).slots = s.slots := rfl
@[simp] theorem State.waiting_rings (s : State) (w : Wait) : (s.waiting w).rings = s.rings := rfl
@[simp] theorem State.waiting_bkpts (s : State) (w : Wait) : (s.waiting w).bkpts = s.bkpts := rfl
@[simp] theorem State.waiting_weights (s : State) (w : Wait) : (s.waiting w).weights = s.weights := rfl
@[simp] theorem State.waiting_power (s : State) (w : Wait) : (s.waiting w).power = s.power := rfl
@[simp] theorem State.waiting_trip (s : State) (w : Wait) : (s.waiting w).trip = s.trip := rfl
@[simp] theorem State.waiting_ready (s : State) (w : Wait) : (s.waiting w).ready = s.ready := rfl
@[simp] theorem State.waiting_fails (s : State) (w : Wait) : (s.waiting w).fails = s.fails := rfl
@[simp] theorem State.waiting_barSize (s : State) (w : Wait) : (s.waiting w).barSize = s.barSize := rfl
@[simp] theorem State.waiting_barTag (s : State) (w : Wait) : (s.waiting w).barTag = s.barTag := rfl
@[simp] theorem State.waiting_misCnt (s : State) (w : Wait) : (s.waiting w).misCnt = s.misCnt := rfl
@[simp] theorem State.waiting_uncCnt (s : State) (w : Wait) : (s.waiting w).uncCnt = s.uncCnt := rfl
@[simp] theorem State.waiting_msix (s : State) (w : Wait) : (s.waiting w).msix = s.msix := rfl
@[simp] theorem State.waiting_msixTab (s : State) (w : Wait) : (s.waiting w).msixTab = s.msixTab := rfl
@[simp] theorem State.waiting_posted (s : State) (w : Wait) : (s.waiting w).posted = s.posted := rfl
@[simp] theorem State.waiting_readData (s : State) (w : Wait) : (s.waiting w).readData = s.readData := rfl
@[simp] theorem State.waiting_readOk (s : State) (w : Wait) : (s.waiting w).readOk = s.readOk := rfl
@[simp] theorem State.waiting_sec (s : State) (w : Wait) : (s.waiting w).sec = s.sec := rfl
@[simp] theorem State.waiting_haltBufs (s : State) (w : Wait) : (s.waiting w).haltBufs = s.haltBufs := rfl
@[simp] theorem State.waiting_pkgid (s : State) (w : Wait) : (s.waiting w).pkgid = s.pkgid := rfl
@[simp] theorem State.waiting_tmaster (s : State) (w : Wait) : (s.waiting w).tmaster = s.tmaster := rfl
@[simp] theorem State.waiting_sync (s : State) (w : Wait) : (s.waiting w).sync = s.sync := rfl
@[simp] theorem State.waiting_routes (s : State) (w : Wait) : (s.waiting w).routes = s.routes := rfl
@[simp] theorem State.waiting_ports (s : State) (w : Wait) : (s.waiting w).ports = s.ports := rfl
@[simp] theorem State.waiting_skew (s : State) (w : Wait) : (s.waiting w).skew = s.skew := rfl
@[simp] theorem State.waiting_gt9 (s : State) (w : Wait) : (s.waiting w).gt9 = s.gt9 := rfl
@[simp] theorem State.waiting_el9 (s : State) (w : Wait) : (s.waiting w).el9 = s.el9 := rfl
@[simp] theorem State.waiting_nchoice (s : State) (w : Wait) : (s.waiting w).nchoice = s.nchoice := rfl

/-! ### State.setCtx -/

@[simp] theorem State.setCtx_cur (s : State) (k : Nat) (x : Ctx) : (s.setCtx k x).cur = s.cur := rfl
@[simp] theorem State.setCtx_me (s : State) (k : Nat) (x : Ctx) : (s.setCtx k x).me = s.me := rfl
@[simp] theorem State.setCtx_others (s : State) (k : Nat) (x : Ctx) : (s.setCtx k x).others = s.others := rfl
@[simp] theorem State.setCtx_agenda (s : State) (k : Nat) (x : Ctx) : (s.setCtx k x).agenda = s.agenda := rfl
@[simp] theorem State.setCtx_chan (s : State) (k : Nat) (x : Ctx) : (s.setCtx k x).chan = s.chan := rfl
@[simp] theorem State.setCtx_staged (s : State) (k : Nat) (x : Ctx) : (s.setCtx k x).staged = s.staged := rfl
@[simp] theorem State.setCtx_seqs (s : State) (k : Nat) (x : Ctx) : (s.setCtx k x).seqs = s.seqs := rfl
@[simp] theorem State.setCtx_filter (s : State) (k : Nat) (x : Ctx) : (s.setCtx k x).filter = s.filter := rfl
@[simp] theorem State.setCtx_dram (s : State) (k : Nat) (x : Ctx) : (s.setCtx k x).dram = s.dram := rfl
@[simp] theorem State.setCtx_dtag (s : State) (k : Nat) (x : Ctx) : (s.setCtx k x).dtag = s.dtag := rfl
@[simp] theorem State.setCtx_dpois (s : State) (k : Nat) (x : Ctx) : (s.setCtx k x).dpois = s.dpois := rfl
@[simp] theorem State.setCtx_derr (s : State) (k : Nat) (x : Ctx) : (s.setCtx k x).derr = s.derr := rfl
@[simp] theorem State.setCtx_dlocks (s : State) (k : Nat) (x : Ctx) : (s.setCtx k x).dlocks = s.dlocks := rfl
@[simp] theorem State.setCtx_host (s : State) (k : Nat) (x : Ctx) : (s.setCtx k x).host = s.host := rfl
@[simp] theorem State.setCtx_corrected (s : State) (k : Nat) (x : Ctx) : (s.setCtx k x).corrected = s.corrected := rfl
@[simp] theorem State.setCtx_tables (s : State) (k : Nat) (x : Ctx) : (s.setCtx k x).tables = s.tables := rfl
@[simp] theorem State.setCtx_leases (s : State) (k : Nat) (x : Ctx) : (s.setCtx k x).leases = s.leases := rfl
@[simp] theorem State.setCtx_leases0 (s : State) (k : Nat) (x : Ctx) : (s.setCtx k x).leases0 = s.leases0 := rfl
@[simp] theorem State.setCtx_pours (s : State) (k : Nat) (x : Ctx) : (s.setCtx k x).pours = s.pours := rfl
@[simp] theorem State.setCtx_pours0 (s : State) (k : Nat) (x : Ctx) : (s.setCtx k x).pours0 = s.pours0 := rfl
@[simp] theorem State.setCtx_notices (s : State) (k : Nat) (x : Ctx) : (s.setCtx k x).notices = s.notices := rfl
@[simp] theorem State.setCtx_strikes (s : State) (k : Nat) (x : Ctx) : (s.setCtx k x).strikes = s.strikes := rfl
@[simp] theorem State.setCtx_reload (s : State) (k : Nat) (x : Ctx) : (s.setCtx k x).reload = s.reload := rfl
@[simp] theorem State.setCtx_launches (s : State) (k : Nat) (x : Ctx) : (s.setCtx k x).launches = s.launches := rfl
@[simp] theorem State.setCtx_rounds (s : State) (k : Nat) (x : Ctx) : (s.setCtx k x).rounds = s.rounds := rfl
@[simp] theorem State.setCtx_images (s : State) (k : Nat) (x : Ctx) : (s.setCtx k x).images = s.images := rfl
@[simp] theorem State.setCtx_chans (s : State) (k : Nat) (x : Ctx) : (s.setCtx k x).chans = s.chans := rfl
@[simp] theorem State.setCtx_slots (s : State) (k : Nat) (x : Ctx) : (s.setCtx k x).slots = s.slots := rfl
@[simp] theorem State.setCtx_rings (s : State) (k : Nat) (x : Ctx) : (s.setCtx k x).rings = s.rings := rfl
@[simp] theorem State.setCtx_bkpts (s : State) (k : Nat) (x : Ctx) : (s.setCtx k x).bkpts = s.bkpts := rfl
@[simp] theorem State.setCtx_weights (s : State) (k : Nat) (x : Ctx) : (s.setCtx k x).weights = s.weights := rfl
@[simp] theorem State.setCtx_power (s : State) (k : Nat) (x : Ctx) : (s.setCtx k x).power = s.power := rfl
@[simp] theorem State.setCtx_trip (s : State) (k : Nat) (x : Ctx) : (s.setCtx k x).trip = s.trip := rfl
@[simp] theorem State.setCtx_ready (s : State) (k : Nat) (x : Ctx) : (s.setCtx k x).ready = s.ready := rfl
@[simp] theorem State.setCtx_fails (s : State) (k : Nat) (x : Ctx) : (s.setCtx k x).fails = s.fails := rfl
@[simp] theorem State.setCtx_barSize (s : State) (k : Nat) (x : Ctx) : (s.setCtx k x).barSize = s.barSize := rfl
@[simp] theorem State.setCtx_barTag (s : State) (k : Nat) (x : Ctx) : (s.setCtx k x).barTag = s.barTag := rfl
@[simp] theorem State.setCtx_misCnt (s : State) (k : Nat) (x : Ctx) : (s.setCtx k x).misCnt = s.misCnt := rfl
@[simp] theorem State.setCtx_uncCnt (s : State) (k : Nat) (x : Ctx) : (s.setCtx k x).uncCnt = s.uncCnt := rfl
@[simp] theorem State.setCtx_msix (s : State) (k : Nat) (x : Ctx) : (s.setCtx k x).msix = s.msix := rfl
@[simp] theorem State.setCtx_msixTab (s : State) (k : Nat) (x : Ctx) : (s.setCtx k x).msixTab = s.msixTab := rfl
@[simp] theorem State.setCtx_posted (s : State) (k : Nat) (x : Ctx) : (s.setCtx k x).posted = s.posted := rfl
@[simp] theorem State.setCtx_readData (s : State) (k : Nat) (x : Ctx) : (s.setCtx k x).readData = s.readData := rfl
@[simp] theorem State.setCtx_readOk (s : State) (k : Nat) (x : Ctx) : (s.setCtx k x).readOk = s.readOk := rfl
@[simp] theorem State.setCtx_sec (s : State) (k : Nat) (x : Ctx) : (s.setCtx k x).sec = s.sec := rfl
@[simp] theorem State.setCtx_haltBufs (s : State) (k : Nat) (x : Ctx) : (s.setCtx k x).haltBufs = s.haltBufs := rfl
@[simp] theorem State.setCtx_pkgid (s : State) (k : Nat) (x : Ctx) : (s.setCtx k x).pkgid = s.pkgid := rfl
@[simp] theorem State.setCtx_tmaster (s : State) (k : Nat) (x : Ctx) : (s.setCtx k x).tmaster = s.tmaster := rfl
@[simp] theorem State.setCtx_sync (s : State) (k : Nat) (x : Ctx) : (s.setCtx k x).sync = s.sync := rfl
@[simp] theorem State.setCtx_routes (s : State) (k : Nat) (x : Ctx) : (s.setCtx k x).routes = s.routes := rfl
@[simp] theorem State.setCtx_ports (s : State) (k : Nat) (x : Ctx) : (s.setCtx k x).ports = s.ports := rfl
@[simp] theorem State.setCtx_skew (s : State) (k : Nat) (x : Ctx) : (s.setCtx k x).skew = s.skew := rfl
@[simp] theorem State.setCtx_gt9 (s : State) (k : Nat) (x : Ctx) : (s.setCtx k x).gt9 = s.gt9 := rfl
@[simp] theorem State.setCtx_el9 (s : State) (k : Nat) (x : Ctx) : (s.setCtx k x).el9 = s.el9 := rfl
@[simp] theorem State.setCtx_nchoice (s : State) (k : Nat) (x : Ctx) : (s.setCtx k x).nchoice = s.nchoice := rfl

/-! ### State.setLease -/

@[simp] theorem State.setLease_cur (s : State) (r : Nat) (x : Lease) : (s.setLease r x).cur = s.cur := rfl
@[simp] theorem State.setLease_me (s : State) (r : Nat) (x : Lease) : (s.setLease r x).me = s.me := rfl
@[simp] theorem State.setLease_others (s : State) (r : Nat) (x : Lease) : (s.setLease r x).others = s.others := rfl
@[simp] theorem State.setLease_agenda (s : State) (r : Nat) (x : Lease) : (s.setLease r x).agenda = s.agenda := rfl
@[simp] theorem State.setLease_chan (s : State) (r : Nat) (x : Lease) : (s.setLease r x).chan = s.chan := rfl
@[simp] theorem State.setLease_staged (s : State) (r : Nat) (x : Lease) : (s.setLease r x).staged = s.staged := rfl
@[simp] theorem State.setLease_seqs (s : State) (r : Nat) (x : Lease) : (s.setLease r x).seqs = s.seqs := rfl
@[simp] theorem State.setLease_filter (s : State) (r : Nat) (x : Lease) : (s.setLease r x).filter = s.filter := rfl
@[simp] theorem State.setLease_dram (s : State) (r : Nat) (x : Lease) : (s.setLease r x).dram = s.dram := rfl
@[simp] theorem State.setLease_dtag (s : State) (r : Nat) (x : Lease) : (s.setLease r x).dtag = s.dtag := rfl
@[simp] theorem State.setLease_dpois (s : State) (r : Nat) (x : Lease) : (s.setLease r x).dpois = s.dpois := rfl
@[simp] theorem State.setLease_derr (s : State) (r : Nat) (x : Lease) : (s.setLease r x).derr = s.derr := rfl
@[simp] theorem State.setLease_dlocks (s : State) (r : Nat) (x : Lease) : (s.setLease r x).dlocks = s.dlocks := rfl
@[simp] theorem State.setLease_host (s : State) (r : Nat) (x : Lease) : (s.setLease r x).host = s.host := rfl
@[simp] theorem State.setLease_corrected (s : State) (r : Nat) (x : Lease) : (s.setLease r x).corrected = s.corrected := rfl
@[simp] theorem State.setLease_tables (s : State) (r : Nat) (x : Lease) : (s.setLease r x).tables = s.tables := rfl
@[simp] theorem State.setLease_leases0 (s : State) (r : Nat) (x : Lease) : (s.setLease r x).leases0 = s.leases0 := rfl
@[simp] theorem State.setLease_pours (s : State) (r : Nat) (x : Lease) : (s.setLease r x).pours = s.pours := rfl
@[simp] theorem State.setLease_pours0 (s : State) (r : Nat) (x : Lease) : (s.setLease r x).pours0 = s.pours0 := rfl
@[simp] theorem State.setLease_notices (s : State) (r : Nat) (x : Lease) : (s.setLease r x).notices = s.notices := rfl
@[simp] theorem State.setLease_strikes (s : State) (r : Nat) (x : Lease) : (s.setLease r x).strikes = s.strikes := rfl
@[simp] theorem State.setLease_reload (s : State) (r : Nat) (x : Lease) : (s.setLease r x).reload = s.reload := rfl
@[simp] theorem State.setLease_launches (s : State) (r : Nat) (x : Lease) : (s.setLease r x).launches = s.launches := rfl
@[simp] theorem State.setLease_rounds (s : State) (r : Nat) (x : Lease) : (s.setLease r x).rounds = s.rounds := rfl
@[simp] theorem State.setLease_ctxs (s : State) (r : Nat) (x : Lease) : (s.setLease r x).ctxs = s.ctxs := rfl
@[simp] theorem State.setLease_images (s : State) (r : Nat) (x : Lease) : (s.setLease r x).images = s.images := rfl
@[simp] theorem State.setLease_chans (s : State) (r : Nat) (x : Lease) : (s.setLease r x).chans = s.chans := rfl
@[simp] theorem State.setLease_slots (s : State) (r : Nat) (x : Lease) : (s.setLease r x).slots = s.slots := rfl
@[simp] theorem State.setLease_rings (s : State) (r : Nat) (x : Lease) : (s.setLease r x).rings = s.rings := rfl
@[simp] theorem State.setLease_bkpts (s : State) (r : Nat) (x : Lease) : (s.setLease r x).bkpts = s.bkpts := rfl
@[simp] theorem State.setLease_weights (s : State) (r : Nat) (x : Lease) : (s.setLease r x).weights = s.weights := rfl
@[simp] theorem State.setLease_power (s : State) (r : Nat) (x : Lease) : (s.setLease r x).power = s.power := rfl
@[simp] theorem State.setLease_trip (s : State) (r : Nat) (x : Lease) : (s.setLease r x).trip = s.trip := rfl
@[simp] theorem State.setLease_ready (s : State) (r : Nat) (x : Lease) : (s.setLease r x).ready = s.ready := rfl
@[simp] theorem State.setLease_fails (s : State) (r : Nat) (x : Lease) : (s.setLease r x).fails = s.fails := rfl
@[simp] theorem State.setLease_barSize (s : State) (r : Nat) (x : Lease) : (s.setLease r x).barSize = s.barSize := rfl
@[simp] theorem State.setLease_barTag (s : State) (r : Nat) (x : Lease) : (s.setLease r x).barTag = s.barTag := rfl
@[simp] theorem State.setLease_misCnt (s : State) (r : Nat) (x : Lease) : (s.setLease r x).misCnt = s.misCnt := rfl
@[simp] theorem State.setLease_uncCnt (s : State) (r : Nat) (x : Lease) : (s.setLease r x).uncCnt = s.uncCnt := rfl
@[simp] theorem State.setLease_msix (s : State) (r : Nat) (x : Lease) : (s.setLease r x).msix = s.msix := rfl
@[simp] theorem State.setLease_msixTab (s : State) (r : Nat) (x : Lease) : (s.setLease r x).msixTab = s.msixTab := rfl
@[simp] theorem State.setLease_posted (s : State) (r : Nat) (x : Lease) : (s.setLease r x).posted = s.posted := rfl
@[simp] theorem State.setLease_readData (s : State) (r : Nat) (x : Lease) : (s.setLease r x).readData = s.readData := rfl
@[simp] theorem State.setLease_readOk (s : State) (r : Nat) (x : Lease) : (s.setLease r x).readOk = s.readOk := rfl
@[simp] theorem State.setLease_sec (s : State) (r : Nat) (x : Lease) : (s.setLease r x).sec = s.sec := rfl
@[simp] theorem State.setLease_haltBufs (s : State) (r : Nat) (x : Lease) : (s.setLease r x).haltBufs = s.haltBufs := rfl
@[simp] theorem State.setLease_pkgid (s : State) (r : Nat) (x : Lease) : (s.setLease r x).pkgid = s.pkgid := rfl
@[simp] theorem State.setLease_tmaster (s : State) (r : Nat) (x : Lease) : (s.setLease r x).tmaster = s.tmaster := rfl
@[simp] theorem State.setLease_sync (s : State) (r : Nat) (x : Lease) : (s.setLease r x).sync = s.sync := rfl
@[simp] theorem State.setLease_routes (s : State) (r : Nat) (x : Lease) : (s.setLease r x).routes = s.routes := rfl
@[simp] theorem State.setLease_ports (s : State) (r : Nat) (x : Lease) : (s.setLease r x).ports = s.ports := rfl
@[simp] theorem State.setLease_skew (s : State) (r : Nat) (x : Lease) : (s.setLease r x).skew = s.skew := rfl
@[simp] theorem State.setLease_gt9 (s : State) (r : Nat) (x : Lease) : (s.setLease r x).gt9 = s.gt9 := rfl
@[simp] theorem State.setLease_el9 (s : State) (r : Nat) (x : Lease) : (s.setLease r x).el9 = s.el9 := rfl
@[simp] theorem State.setLease_nchoice (s : State) (r : Nat) (x : Lease) : (s.setLease r x).nchoice = s.nchoice := rfl

/-! ### State.setPort -/

@[simp] theorem State.setPort_cur (s : State) (q : Nat) (p : Port) : (s.setPort q p).cur = s.cur := rfl
@[simp] theorem State.setPort_me (s : State) (q : Nat) (p : Port) : (s.setPort q p).me = s.me := rfl
@[simp] theorem State.setPort_others (s : State) (q : Nat) (p : Port) : (s.setPort q p).others = s.others := rfl
@[simp] theorem State.setPort_agenda (s : State) (q : Nat) (p : Port) : (s.setPort q p).agenda = s.agenda := rfl
@[simp] theorem State.setPort_chan (s : State) (q : Nat) (p : Port) : (s.setPort q p).chan = s.chan := rfl
@[simp] theorem State.setPort_staged (s : State) (q : Nat) (p : Port) : (s.setPort q p).staged = s.staged := rfl
@[simp] theorem State.setPort_seqs (s : State) (q : Nat) (p : Port) : (s.setPort q p).seqs = s.seqs := rfl
@[simp] theorem State.setPort_filter (s : State) (q : Nat) (p : Port) : (s.setPort q p).filter = s.filter := rfl
@[simp] theorem State.setPort_dram (s : State) (q : Nat) (p : Port) : (s.setPort q p).dram = s.dram := rfl
@[simp] theorem State.setPort_dtag (s : State) (q : Nat) (p : Port) : (s.setPort q p).dtag = s.dtag := rfl
@[simp] theorem State.setPort_dpois (s : State) (q : Nat) (p : Port) : (s.setPort q p).dpois = s.dpois := rfl
@[simp] theorem State.setPort_derr (s : State) (q : Nat) (p : Port) : (s.setPort q p).derr = s.derr := rfl
@[simp] theorem State.setPort_dlocks (s : State) (q : Nat) (p : Port) : (s.setPort q p).dlocks = s.dlocks := rfl
@[simp] theorem State.setPort_host (s : State) (q : Nat) (p : Port) : (s.setPort q p).host = s.host := rfl
@[simp] theorem State.setPort_corrected (s : State) (q : Nat) (p : Port) : (s.setPort q p).corrected = s.corrected := rfl
@[simp] theorem State.setPort_tables (s : State) (q : Nat) (p : Port) : (s.setPort q p).tables = s.tables := rfl
@[simp] theorem State.setPort_leases (s : State) (q : Nat) (p : Port) : (s.setPort q p).leases = s.leases := rfl
@[simp] theorem State.setPort_leases0 (s : State) (q : Nat) (p : Port) : (s.setPort q p).leases0 = s.leases0 := rfl
@[simp] theorem State.setPort_pours (s : State) (q : Nat) (p : Port) : (s.setPort q p).pours = s.pours := rfl
@[simp] theorem State.setPort_pours0 (s : State) (q : Nat) (p : Port) : (s.setPort q p).pours0 = s.pours0 := rfl
@[simp] theorem State.setPort_notices (s : State) (q : Nat) (p : Port) : (s.setPort q p).notices = s.notices := rfl
@[simp] theorem State.setPort_strikes (s : State) (q : Nat) (p : Port) : (s.setPort q p).strikes = s.strikes := rfl
@[simp] theorem State.setPort_reload (s : State) (q : Nat) (p : Port) : (s.setPort q p).reload = s.reload := rfl
@[simp] theorem State.setPort_launches (s : State) (q : Nat) (p : Port) : (s.setPort q p).launches = s.launches := rfl
@[simp] theorem State.setPort_rounds (s : State) (q : Nat) (p : Port) : (s.setPort q p).rounds = s.rounds := rfl
@[simp] theorem State.setPort_ctxs (s : State) (q : Nat) (p : Port) : (s.setPort q p).ctxs = s.ctxs := rfl
@[simp] theorem State.setPort_images (s : State) (q : Nat) (p : Port) : (s.setPort q p).images = s.images := rfl
@[simp] theorem State.setPort_chans (s : State) (q : Nat) (p : Port) : (s.setPort q p).chans = s.chans := rfl
@[simp] theorem State.setPort_slots (s : State) (q : Nat) (p : Port) : (s.setPort q p).slots = s.slots := rfl
@[simp] theorem State.setPort_rings (s : State) (q : Nat) (p : Port) : (s.setPort q p).rings = s.rings := rfl
@[simp] theorem State.setPort_bkpts (s : State) (q : Nat) (p : Port) : (s.setPort q p).bkpts = s.bkpts := rfl
@[simp] theorem State.setPort_weights (s : State) (q : Nat) (p : Port) : (s.setPort q p).weights = s.weights := rfl
@[simp] theorem State.setPort_power (s : State) (q : Nat) (p : Port) : (s.setPort q p).power = s.power := rfl
@[simp] theorem State.setPort_trip (s : State) (q : Nat) (p : Port) : (s.setPort q p).trip = s.trip := rfl
@[simp] theorem State.setPort_ready (s : State) (q : Nat) (p : Port) : (s.setPort q p).ready = s.ready := rfl
@[simp] theorem State.setPort_fails (s : State) (q : Nat) (p : Port) : (s.setPort q p).fails = s.fails := rfl
@[simp] theorem State.setPort_barSize (s : State) (q : Nat) (p : Port) : (s.setPort q p).barSize = s.barSize := rfl
@[simp] theorem State.setPort_barTag (s : State) (q : Nat) (p : Port) : (s.setPort q p).barTag = s.barTag := rfl
@[simp] theorem State.setPort_misCnt (s : State) (q : Nat) (p : Port) : (s.setPort q p).misCnt = s.misCnt := rfl
@[simp] theorem State.setPort_uncCnt (s : State) (q : Nat) (p : Port) : (s.setPort q p).uncCnt = s.uncCnt := rfl
@[simp] theorem State.setPort_msix (s : State) (q : Nat) (p : Port) : (s.setPort q p).msix = s.msix := rfl
@[simp] theorem State.setPort_msixTab (s : State) (q : Nat) (p : Port) : (s.setPort q p).msixTab = s.msixTab := rfl
@[simp] theorem State.setPort_posted (s : State) (q : Nat) (p : Port) : (s.setPort q p).posted = s.posted := rfl
@[simp] theorem State.setPort_readData (s : State) (q : Nat) (p : Port) : (s.setPort q p).readData = s.readData := rfl
@[simp] theorem State.setPort_readOk (s : State) (q : Nat) (p : Port) : (s.setPort q p).readOk = s.readOk := rfl
@[simp] theorem State.setPort_sec (s : State) (q : Nat) (p : Port) : (s.setPort q p).sec = s.sec := rfl
@[simp] theorem State.setPort_haltBufs (s : State) (q : Nat) (p : Port) : (s.setPort q p).haltBufs = s.haltBufs := rfl
@[simp] theorem State.setPort_pkgid (s : State) (q : Nat) (p : Port) : (s.setPort q p).pkgid = s.pkgid := rfl
@[simp] theorem State.setPort_tmaster (s : State) (q : Nat) (p : Port) : (s.setPort q p).tmaster = s.tmaster := rfl
@[simp] theorem State.setPort_sync (s : State) (q : Nat) (p : Port) : (s.setPort q p).sync = s.sync := rfl
@[simp] theorem State.setPort_routes (s : State) (q : Nat) (p : Port) : (s.setPort q p).routes = s.routes := rfl
@[simp] theorem State.setPort_skew (s : State) (q : Nat) (p : Port) : (s.setPort q p).skew = s.skew := rfl
@[simp] theorem State.setPort_gt9 (s : State) (q : Nat) (p : Port) : (s.setPort q p).gt9 = s.gt9 := rfl
@[simp] theorem State.setPort_el9 (s : State) (q : Nat) (p : Port) : (s.setPort q p).el9 = s.el9 := rfl
@[simp] theorem State.setPort_nchoice (s : State) (q : Nat) (p : Port) : (s.setPort q p).nchoice = s.nchoice := rfl

/-! ### State.setSlot -/

@[simp] theorem State.setSlot_cur (s : State) (k : Nat) (x : Slot) : (s.setSlot k x).cur = s.cur := rfl
@[simp] theorem State.setSlot_me (s : State) (k : Nat) (x : Slot) : (s.setSlot k x).me = s.me := rfl
@[simp] theorem State.setSlot_others (s : State) (k : Nat) (x : Slot) : (s.setSlot k x).others = s.others := rfl
@[simp] theorem State.setSlot_agenda (s : State) (k : Nat) (x : Slot) : (s.setSlot k x).agenda = s.agenda := rfl
@[simp] theorem State.setSlot_chan (s : State) (k : Nat) (x : Slot) : (s.setSlot k x).chan = s.chan := rfl
@[simp] theorem State.setSlot_staged (s : State) (k : Nat) (x : Slot) : (s.setSlot k x).staged = s.staged := rfl
@[simp] theorem State.setSlot_seqs (s : State) (k : Nat) (x : Slot) : (s.setSlot k x).seqs = s.seqs := rfl
@[simp] theorem State.setSlot_filter (s : State) (k : Nat) (x : Slot) : (s.setSlot k x).filter = s.filter := rfl
@[simp] theorem State.setSlot_dram (s : State) (k : Nat) (x : Slot) : (s.setSlot k x).dram = s.dram := rfl
@[simp] theorem State.setSlot_dtag (s : State) (k : Nat) (x : Slot) : (s.setSlot k x).dtag = s.dtag := rfl
@[simp] theorem State.setSlot_dpois (s : State) (k : Nat) (x : Slot) : (s.setSlot k x).dpois = s.dpois := rfl
@[simp] theorem State.setSlot_derr (s : State) (k : Nat) (x : Slot) : (s.setSlot k x).derr = s.derr := rfl
@[simp] theorem State.setSlot_dlocks (s : State) (k : Nat) (x : Slot) : (s.setSlot k x).dlocks = s.dlocks := rfl
@[simp] theorem State.setSlot_host (s : State) (k : Nat) (x : Slot) : (s.setSlot k x).host = s.host := rfl
@[simp] theorem State.setSlot_corrected (s : State) (k : Nat) (x : Slot) : (s.setSlot k x).corrected = s.corrected := rfl
@[simp] theorem State.setSlot_tables (s : State) (k : Nat) (x : Slot) : (s.setSlot k x).tables = s.tables := rfl
@[simp] theorem State.setSlot_leases (s : State) (k : Nat) (x : Slot) : (s.setSlot k x).leases = s.leases := rfl
@[simp] theorem State.setSlot_leases0 (s : State) (k : Nat) (x : Slot) : (s.setSlot k x).leases0 = s.leases0 := rfl
@[simp] theorem State.setSlot_pours (s : State) (k : Nat) (x : Slot) : (s.setSlot k x).pours = s.pours := rfl
@[simp] theorem State.setSlot_pours0 (s : State) (k : Nat) (x : Slot) : (s.setSlot k x).pours0 = s.pours0 := rfl
@[simp] theorem State.setSlot_notices (s : State) (k : Nat) (x : Slot) : (s.setSlot k x).notices = s.notices := rfl
@[simp] theorem State.setSlot_strikes (s : State) (k : Nat) (x : Slot) : (s.setSlot k x).strikes = s.strikes := rfl
@[simp] theorem State.setSlot_reload (s : State) (k : Nat) (x : Slot) : (s.setSlot k x).reload = s.reload := rfl
@[simp] theorem State.setSlot_launches (s : State) (k : Nat) (x : Slot) : (s.setSlot k x).launches = s.launches := rfl
@[simp] theorem State.setSlot_rounds (s : State) (k : Nat) (x : Slot) : (s.setSlot k x).rounds = s.rounds := rfl
@[simp] theorem State.setSlot_ctxs (s : State) (k : Nat) (x : Slot) : (s.setSlot k x).ctxs = s.ctxs := rfl
@[simp] theorem State.setSlot_images (s : State) (k : Nat) (x : Slot) : (s.setSlot k x).images = s.images := rfl
@[simp] theorem State.setSlot_chans (s : State) (k : Nat) (x : Slot) : (s.setSlot k x).chans = s.chans := rfl
@[simp] theorem State.setSlot_rings (s : State) (k : Nat) (x : Slot) : (s.setSlot k x).rings = s.rings := rfl
@[simp] theorem State.setSlot_bkpts (s : State) (k : Nat) (x : Slot) : (s.setSlot k x).bkpts = s.bkpts := rfl
@[simp] theorem State.setSlot_weights (s : State) (k : Nat) (x : Slot) : (s.setSlot k x).weights = s.weights := rfl
@[simp] theorem State.setSlot_power (s : State) (k : Nat) (x : Slot) : (s.setSlot k x).power = s.power := rfl
@[simp] theorem State.setSlot_trip (s : State) (k : Nat) (x : Slot) : (s.setSlot k x).trip = s.trip := rfl
@[simp] theorem State.setSlot_ready (s : State) (k : Nat) (x : Slot) : (s.setSlot k x).ready = s.ready := rfl
@[simp] theorem State.setSlot_fails (s : State) (k : Nat) (x : Slot) : (s.setSlot k x).fails = s.fails := rfl
@[simp] theorem State.setSlot_barSize (s : State) (k : Nat) (x : Slot) : (s.setSlot k x).barSize = s.barSize := rfl
@[simp] theorem State.setSlot_barTag (s : State) (k : Nat) (x : Slot) : (s.setSlot k x).barTag = s.barTag := rfl
@[simp] theorem State.setSlot_misCnt (s : State) (k : Nat) (x : Slot) : (s.setSlot k x).misCnt = s.misCnt := rfl
@[simp] theorem State.setSlot_uncCnt (s : State) (k : Nat) (x : Slot) : (s.setSlot k x).uncCnt = s.uncCnt := rfl
@[simp] theorem State.setSlot_msix (s : State) (k : Nat) (x : Slot) : (s.setSlot k x).msix = s.msix := rfl
@[simp] theorem State.setSlot_msixTab (s : State) (k : Nat) (x : Slot) : (s.setSlot k x).msixTab = s.msixTab := rfl
@[simp] theorem State.setSlot_posted (s : State) (k : Nat) (x : Slot) : (s.setSlot k x).posted = s.posted := rfl
@[simp] theorem State.setSlot_readData (s : State) (k : Nat) (x : Slot) : (s.setSlot k x).readData = s.readData := rfl
@[simp] theorem State.setSlot_readOk (s : State) (k : Nat) (x : Slot) : (s.setSlot k x).readOk = s.readOk := rfl
@[simp] theorem State.setSlot_sec (s : State) (k : Nat) (x : Slot) : (s.setSlot k x).sec = s.sec := rfl
@[simp] theorem State.setSlot_haltBufs (s : State) (k : Nat) (x : Slot) : (s.setSlot k x).haltBufs = s.haltBufs := rfl
@[simp] theorem State.setSlot_pkgid (s : State) (k : Nat) (x : Slot) : (s.setSlot k x).pkgid = s.pkgid := rfl
@[simp] theorem State.setSlot_tmaster (s : State) (k : Nat) (x : Slot) : (s.setSlot k x).tmaster = s.tmaster := rfl
@[simp] theorem State.setSlot_sync (s : State) (k : Nat) (x : Slot) : (s.setSlot k x).sync = s.sync := rfl
@[simp] theorem State.setSlot_routes (s : State) (k : Nat) (x : Slot) : (s.setSlot k x).routes = s.routes := rfl
@[simp] theorem State.setSlot_ports (s : State) (k : Nat) (x : Slot) : (s.setSlot k x).ports = s.ports := rfl
@[simp] theorem State.setSlot_skew (s : State) (k : Nat) (x : Slot) : (s.setSlot k x).skew = s.skew := rfl
@[simp] theorem State.setSlot_gt9 (s : State) (k : Nat) (x : Slot) : (s.setSlot k x).gt9 = s.gt9 := rfl
@[simp] theorem State.setSlot_el9 (s : State) (k : Nat) (x : Slot) : (s.setSlot k x).el9 = s.el9 := rfl
@[simp] theorem State.setSlot_nchoice (s : State) (k : Nat) (x : Slot) : (s.setSlot k x).nchoice = s.nchoice := rfl

/-! ### State.setChan -/

@[simp] theorem State.setChan_cur (s : State) (ch : Nat) (x : Channel) : (s.setChan ch x).cur = s.cur := rfl
@[simp] theorem State.setChan_me (s : State) (ch : Nat) (x : Channel) : (s.setChan ch x).me = s.me := rfl
@[simp] theorem State.setChan_others (s : State) (ch : Nat) (x : Channel) : (s.setChan ch x).others = s.others := rfl
@[simp] theorem State.setChan_agenda (s : State) (ch : Nat) (x : Channel) : (s.setChan ch x).agenda = s.agenda := rfl
@[simp] theorem State.setChan_chan (s : State) (ch : Nat) (x : Channel) : (s.setChan ch x).chan = s.chan := rfl
@[simp] theorem State.setChan_staged (s : State) (ch : Nat) (x : Channel) : (s.setChan ch x).staged = s.staged := rfl
@[simp] theorem State.setChan_seqs (s : State) (ch : Nat) (x : Channel) : (s.setChan ch x).seqs = s.seqs := rfl
@[simp] theorem State.setChan_filter (s : State) (ch : Nat) (x : Channel) : (s.setChan ch x).filter = s.filter := rfl
@[simp] theorem State.setChan_dram (s : State) (ch : Nat) (x : Channel) : (s.setChan ch x).dram = s.dram := rfl
@[simp] theorem State.setChan_dtag (s : State) (ch : Nat) (x : Channel) : (s.setChan ch x).dtag = s.dtag := rfl
@[simp] theorem State.setChan_dpois (s : State) (ch : Nat) (x : Channel) : (s.setChan ch x).dpois = s.dpois := rfl
@[simp] theorem State.setChan_derr (s : State) (ch : Nat) (x : Channel) : (s.setChan ch x).derr = s.derr := rfl
@[simp] theorem State.setChan_dlocks (s : State) (ch : Nat) (x : Channel) : (s.setChan ch x).dlocks = s.dlocks := rfl
@[simp] theorem State.setChan_host (s : State) (ch : Nat) (x : Channel) : (s.setChan ch x).host = s.host := rfl
@[simp] theorem State.setChan_corrected (s : State) (ch : Nat) (x : Channel) : (s.setChan ch x).corrected = s.corrected := rfl
@[simp] theorem State.setChan_tables (s : State) (ch : Nat) (x : Channel) : (s.setChan ch x).tables = s.tables := rfl
@[simp] theorem State.setChan_leases (s : State) (ch : Nat) (x : Channel) : (s.setChan ch x).leases = s.leases := rfl
@[simp] theorem State.setChan_leases0 (s : State) (ch : Nat) (x : Channel) : (s.setChan ch x).leases0 = s.leases0 := rfl
@[simp] theorem State.setChan_pours (s : State) (ch : Nat) (x : Channel) : (s.setChan ch x).pours = s.pours := rfl
@[simp] theorem State.setChan_pours0 (s : State) (ch : Nat) (x : Channel) : (s.setChan ch x).pours0 = s.pours0 := rfl
@[simp] theorem State.setChan_notices (s : State) (ch : Nat) (x : Channel) : (s.setChan ch x).notices = s.notices := rfl
@[simp] theorem State.setChan_strikes (s : State) (ch : Nat) (x : Channel) : (s.setChan ch x).strikes = s.strikes := rfl
@[simp] theorem State.setChan_reload (s : State) (ch : Nat) (x : Channel) : (s.setChan ch x).reload = s.reload := rfl
@[simp] theorem State.setChan_launches (s : State) (ch : Nat) (x : Channel) : (s.setChan ch x).launches = s.launches := rfl
@[simp] theorem State.setChan_rounds (s : State) (ch : Nat) (x : Channel) : (s.setChan ch x).rounds = s.rounds := rfl
@[simp] theorem State.setChan_ctxs (s : State) (ch : Nat) (x : Channel) : (s.setChan ch x).ctxs = s.ctxs := rfl
@[simp] theorem State.setChan_images (s : State) (ch : Nat) (x : Channel) : (s.setChan ch x).images = s.images := rfl
@[simp] theorem State.setChan_slots (s : State) (ch : Nat) (x : Channel) : (s.setChan ch x).slots = s.slots := rfl
@[simp] theorem State.setChan_rings (s : State) (ch : Nat) (x : Channel) : (s.setChan ch x).rings = s.rings := rfl
@[simp] theorem State.setChan_bkpts (s : State) (ch : Nat) (x : Channel) : (s.setChan ch x).bkpts = s.bkpts := rfl
@[simp] theorem State.setChan_weights (s : State) (ch : Nat) (x : Channel) : (s.setChan ch x).weights = s.weights := rfl
@[simp] theorem State.setChan_power (s : State) (ch : Nat) (x : Channel) : (s.setChan ch x).power = s.power := rfl
@[simp] theorem State.setChan_trip (s : State) (ch : Nat) (x : Channel) : (s.setChan ch x).trip = s.trip := rfl
@[simp] theorem State.setChan_ready (s : State) (ch : Nat) (x : Channel) : (s.setChan ch x).ready = s.ready := rfl
@[simp] theorem State.setChan_fails (s : State) (ch : Nat) (x : Channel) : (s.setChan ch x).fails = s.fails := rfl
@[simp] theorem State.setChan_barSize (s : State) (ch : Nat) (x : Channel) : (s.setChan ch x).barSize = s.barSize := rfl
@[simp] theorem State.setChan_barTag (s : State) (ch : Nat) (x : Channel) : (s.setChan ch x).barTag = s.barTag := rfl
@[simp] theorem State.setChan_misCnt (s : State) (ch : Nat) (x : Channel) : (s.setChan ch x).misCnt = s.misCnt := rfl
@[simp] theorem State.setChan_uncCnt (s : State) (ch : Nat) (x : Channel) : (s.setChan ch x).uncCnt = s.uncCnt := rfl
@[simp] theorem State.setChan_msix (s : State) (ch : Nat) (x : Channel) : (s.setChan ch x).msix = s.msix := rfl
@[simp] theorem State.setChan_msixTab (s : State) (ch : Nat) (x : Channel) : (s.setChan ch x).msixTab = s.msixTab := rfl
@[simp] theorem State.setChan_posted (s : State) (ch : Nat) (x : Channel) : (s.setChan ch x).posted = s.posted := rfl
@[simp] theorem State.setChan_readData (s : State) (ch : Nat) (x : Channel) : (s.setChan ch x).readData = s.readData := rfl
@[simp] theorem State.setChan_readOk (s : State) (ch : Nat) (x : Channel) : (s.setChan ch x).readOk = s.readOk := rfl
@[simp] theorem State.setChan_sec (s : State) (ch : Nat) (x : Channel) : (s.setChan ch x).sec = s.sec := rfl
@[simp] theorem State.setChan_haltBufs (s : State) (ch : Nat) (x : Channel) : (s.setChan ch x).haltBufs = s.haltBufs := rfl
@[simp] theorem State.setChan_pkgid (s : State) (ch : Nat) (x : Channel) : (s.setChan ch x).pkgid = s.pkgid := rfl
@[simp] theorem State.setChan_tmaster (s : State) (ch : Nat) (x : Channel) : (s.setChan ch x).tmaster = s.tmaster := rfl
@[simp] theorem State.setChan_sync (s : State) (ch : Nat) (x : Channel) : (s.setChan ch x).sync = s.sync := rfl
@[simp] theorem State.setChan_routes (s : State) (ch : Nat) (x : Channel) : (s.setChan ch x).routes = s.routes := rfl
@[simp] theorem State.setChan_ports (s : State) (ch : Nat) (x : Channel) : (s.setChan ch x).ports = s.ports := rfl
@[simp] theorem State.setChan_skew (s : State) (ch : Nat) (x : Channel) : (s.setChan ch x).skew = s.skew := rfl
@[simp] theorem State.setChan_gt9 (s : State) (ch : Nat) (x : Channel) : (s.setChan ch x).gt9 = s.gt9 := rfl
@[simp] theorem State.setChan_el9 (s : State) (ch : Nat) (x : Channel) : (s.setChan ch x).el9 = s.el9 := rfl
@[simp] theorem State.setChan_nchoice (s : State) (ch : Nat) (x : Channel) : (s.setChan ch x).nchoice = s.nchoice := rfl

/-! ### State.interrupt -/

@[simp] theorem State.interrupt_cur (s : State) (v : Nat) : (s.interrupt v).cur = s.cur := rfl
@[simp] theorem State.interrupt_me (s : State) (v : Nat) : (s.interrupt v).me = s.me := rfl
@[simp] theorem State.interrupt_others (s : State) (v : Nat) : (s.interrupt v).others = s.others := rfl
@[simp] theorem State.interrupt_agenda (s : State) (v : Nat) : (s.interrupt v).agenda = s.agenda := rfl
@[simp] theorem State.interrupt_chan (s : State) (v : Nat) : (s.interrupt v).chan = s.chan := rfl
@[simp] theorem State.interrupt_staged (s : State) (v : Nat) : (s.interrupt v).staged = s.staged := rfl
@[simp] theorem State.interrupt_seqs (s : State) (v : Nat) : (s.interrupt v).seqs = s.seqs := rfl
@[simp] theorem State.interrupt_filter (s : State) (v : Nat) : (s.interrupt v).filter = s.filter := rfl
@[simp] theorem State.interrupt_dram (s : State) (v : Nat) : (s.interrupt v).dram = s.dram := rfl
@[simp] theorem State.interrupt_dtag (s : State) (v : Nat) : (s.interrupt v).dtag = s.dtag := rfl
@[simp] theorem State.interrupt_dpois (s : State) (v : Nat) : (s.interrupt v).dpois = s.dpois := rfl
@[simp] theorem State.interrupt_derr (s : State) (v : Nat) : (s.interrupt v).derr = s.derr := rfl
@[simp] theorem State.interrupt_dlocks (s : State) (v : Nat) : (s.interrupt v).dlocks = s.dlocks := rfl
@[simp] theorem State.interrupt_host (s : State) (v : Nat) : (s.interrupt v).host = s.host := rfl
@[simp] theorem State.interrupt_corrected (s : State) (v : Nat) : (s.interrupt v).corrected = s.corrected := rfl
@[simp] theorem State.interrupt_tables (s : State) (v : Nat) : (s.interrupt v).tables = s.tables := rfl
@[simp] theorem State.interrupt_leases (s : State) (v : Nat) : (s.interrupt v).leases = s.leases := rfl
@[simp] theorem State.interrupt_leases0 (s : State) (v : Nat) : (s.interrupt v).leases0 = s.leases0 := rfl
@[simp] theorem State.interrupt_pours (s : State) (v : Nat) : (s.interrupt v).pours = s.pours := rfl
@[simp] theorem State.interrupt_pours0 (s : State) (v : Nat) : (s.interrupt v).pours0 = s.pours0 := rfl
@[simp] theorem State.interrupt_notices (s : State) (v : Nat) : (s.interrupt v).notices = s.notices := rfl
@[simp] theorem State.interrupt_strikes (s : State) (v : Nat) : (s.interrupt v).strikes = s.strikes := rfl
@[simp] theorem State.interrupt_reload (s : State) (v : Nat) : (s.interrupt v).reload = s.reload := rfl
@[simp] theorem State.interrupt_launches (s : State) (v : Nat) : (s.interrupt v).launches = s.launches := rfl
@[simp] theorem State.interrupt_rounds (s : State) (v : Nat) : (s.interrupt v).rounds = s.rounds := rfl
@[simp] theorem State.interrupt_ctxs (s : State) (v : Nat) : (s.interrupt v).ctxs = s.ctxs := rfl
@[simp] theorem State.interrupt_images (s : State) (v : Nat) : (s.interrupt v).images = s.images := rfl
@[simp] theorem State.interrupt_chans (s : State) (v : Nat) : (s.interrupt v).chans = s.chans := rfl
@[simp] theorem State.interrupt_slots (s : State) (v : Nat) : (s.interrupt v).slots = s.slots := rfl
@[simp] theorem State.interrupt_rings (s : State) (v : Nat) : (s.interrupt v).rings = s.rings := rfl
@[simp] theorem State.interrupt_bkpts (s : State) (v : Nat) : (s.interrupt v).bkpts = s.bkpts := rfl
@[simp] theorem State.interrupt_weights (s : State) (v : Nat) : (s.interrupt v).weights = s.weights := rfl
@[simp] theorem State.interrupt_power (s : State) (v : Nat) : (s.interrupt v).power = s.power := rfl
@[simp] theorem State.interrupt_trip (s : State) (v : Nat) : (s.interrupt v).trip = s.trip := rfl
@[simp] theorem State.interrupt_ready (s : State) (v : Nat) : (s.interrupt v).ready = s.ready := rfl
@[simp] theorem State.interrupt_fails (s : State) (v : Nat) : (s.interrupt v).fails = s.fails := rfl
@[simp] theorem State.interrupt_barSize (s : State) (v : Nat) : (s.interrupt v).barSize = s.barSize := rfl
@[simp] theorem State.interrupt_barTag (s : State) (v : Nat) : (s.interrupt v).barTag = s.barTag := rfl
@[simp] theorem State.interrupt_misCnt (s : State) (v : Nat) : (s.interrupt v).misCnt = s.misCnt := rfl
@[simp] theorem State.interrupt_uncCnt (s : State) (v : Nat) : (s.interrupt v).uncCnt = s.uncCnt := rfl
@[simp] theorem State.interrupt_msixTab (s : State) (v : Nat) : (s.interrupt v).msixTab = s.msixTab := rfl
@[simp] theorem State.interrupt_posted (s : State) (v : Nat) : (s.interrupt v).posted = s.posted := rfl
@[simp] theorem State.interrupt_readData (s : State) (v : Nat) : (s.interrupt v).readData = s.readData := rfl
@[simp] theorem State.interrupt_readOk (s : State) (v : Nat) : (s.interrupt v).readOk = s.readOk := rfl
@[simp] theorem State.interrupt_sec (s : State) (v : Nat) : (s.interrupt v).sec = s.sec := rfl
@[simp] theorem State.interrupt_haltBufs (s : State) (v : Nat) : (s.interrupt v).haltBufs = s.haltBufs := rfl
@[simp] theorem State.interrupt_pkgid (s : State) (v : Nat) : (s.interrupt v).pkgid = s.pkgid := rfl
@[simp] theorem State.interrupt_tmaster (s : State) (v : Nat) : (s.interrupt v).tmaster = s.tmaster := rfl
@[simp] theorem State.interrupt_sync (s : State) (v : Nat) : (s.interrupt v).sync = s.sync := rfl
@[simp] theorem State.interrupt_routes (s : State) (v : Nat) : (s.interrupt v).routes = s.routes := rfl
@[simp] theorem State.interrupt_ports (s : State) (v : Nat) : (s.interrupt v).ports = s.ports := rfl
@[simp] theorem State.interrupt_skew (s : State) (v : Nat) : (s.interrupt v).skew = s.skew := rfl
@[simp] theorem State.interrupt_gt9 (s : State) (v : Nat) : (s.interrupt v).gt9 = s.gt9 := rfl
@[simp] theorem State.interrupt_el9 (s : State) (v : Nat) : (s.interrupt v).el9 = s.el9 := rfl
@[simp] theorem State.interrupt_nchoice (s : State) (v : Nat) : (s.interrupt v).nchoice = s.nchoice := rfl

/-! ### What an update writes -/

@[simp] theorem Core.retire_pc (c : Core) : c.retire.pc = c.succ c.pc := rfl
@[simp] theorem Core.retire_wait (c : Core) : c.retire.wait = none := rfl
@[simp] theorem State.waiting_me (s : State) (w : Wait) : (s.waiting w).me = { s.me with wait := some w } := rfl
@[simp] theorem State.interrupt_msix (s : State) (v : Nat) : (s.interrupt v).msix = s.msix ++ [v] := rfl
@[simp] theorem Core.outAdd_out (c : Core) (e : OutEntry) : (c.outAdd e).seg.out = c.seg.out ++ [⟨e, .waiting⟩] := rfl
@[simp] theorem Core.close_seg (c : Core) (k : Boundary) (p : W64) (a : AtCommit) : (c.close k p a).seg = SegData.new (c.seg.id + 1) := rfl
@[simp] theorem Core.idle_running (c : Core) : c.idle.running = false := rfl
@[simp] theorem Core.idle_regs (c : Core) : c.idle.regs = Regs.reset := rfl

end Sys2Proof.Machine
end

