-- ==== Sys2Proof/Laws/Ops.lean ====
section
/-! SUPPORT. What the shared operations do: reading and writing registers, the end of an instruction, the core in focus, steps of agents. -/

namespace Sys2Proof.Machine

/-! ### Reads change no register -/

theorem readCell_frame {n : Nat} {x : Cell n} {b : Bool} {r : Nat} {f : W64} {c c' : Core} {v : BitVec n}
    (h : readCell x b r f c = .ok (v, c')) : ∃ k, c' = { c with nund := k } := by
  unfold readCell at h
  cases x with
  | full w => simp at h; obtain ⟨_, rfl⟩ := h; exact ⟨_, rfl⟩
  | vacant =>
    simp only at h
    split at h
    · cases h
    · simp [undef] at h; obtain ⟨_, rfl⟩ := h; exact ⟨_, rfl⟩
  | empty => simp only at h; split at h <;> cases h

theorem popStream_frame {c c' : Core} {t : Stream} {b : Bool} {f : W64} {r : Nat} {v : Line}
    (h : popStream c t b f r = .ok (v, c')) : ∃ l, c' = { c with streams := l } := by
  unfold popStream at h
  split at h
  · cases h
  · split at h
    · cases h
    · split at h
      · split at h <;> cases h
      · simp [Core.setStream] at h; obtain ⟨_, rfl⟩ := h; exact ⟨_, rfl⟩

/-- What a read of an s register changes: a popped stream, and the counter of free values. -/
theorem readS_frame {a : Src} {c c' : Core} {x : W64} (h : readS a c = .ok (x, c')) :
    ∃ l k, c' = { c with streams := l, nund := k } := by
  unfold readS at h
  split at h
  · rename_i t _
    cases hp : popStream c t a.trap 0 a.reg.toNat with
    | error e => rw [hp] at h; cases h
    | ok r =>
      rw [hp] at h
      simp [Except.map] at h
      obtain ⟨l, e⟩ := popStream_frame (c' := r.2) (v := r.1) hp
      exact ⟨l, c.nund, by rw [← h.2, e]⟩
  · obtain ⟨k, e⟩ := readCell_frame h
    exact ⟨c.streams, k, e⟩

theorem readV_frame {a : VSrc} {c c' : Core} {x : Line} (h : readV a c = .ok (x, c')) :
    ∃ l k, c' = { c with streams := l, nund := k } := by
  unfold readV at h
  split at h
  · obtain ⟨l, e⟩ := popStream_frame h
    exact ⟨l, c.nund, e⟩
  · obtain ⟨k, e⟩ := readCell_frame h
    exact ⟨c.streams, k, e⟩

theorem readM_frame {a : MSrc} {c c' : Core} {x : W64} (h : readM a c = .ok (x, c')) : ∃ k, c' = { c with nund := k } :=
  readCell_frame h

/-! ### Last uses and writes -/

theorem freeS_frame (a : Src) (c : Core) : { freeS a c with regs := c.regs } = c := by
  unfold freeS Core.setS; split <;> (try split) <;> rfl

theorem freeV_frame (a : VSrc) (c : Core) : { freeV a c with regs := c.regs } = c := by
  unfold freeV Core.setV; split <;> rfl

theorem freeM_frame (a : MSrc) (c : Core) : { freeM a c with regs := c.regs } = c := by
  unfold freeM Core.setM; split <;> rfl

/-- A write of a register without a stream. -/
theorem writeS_plain {d : BitVec 6} {c : Core} (x : W64) (h : c.stream? (scode d) = none) : writeS d x c = .ok (c.setS d (.full x)) := by
  simp [writeS, h]

theorem writeV_plain {d : BitVec 5} {c : Core} (x : Line) (h : c.stream? d.toNat = none) : writeV d x c = .ok (c.setV d (.full x)) := by
  simp [writeV, h]

theorem getS_setS (c : Core) (d r : BitVec 6) (x : Cell 64) :
    (c.setS d x).regs.getS r = if r = d ∧ r ≠ 0 then x else c.regs.getS r := by
  unfold Core.setS Regs.getS
  by_cases hd : d = 0#6
  · subst hd; by_cases hr : r = 0#6 <;> simp [hr]
  · by_cases hr : r = 0#6
    · simp [hr]
    · by_cases e : r = d
      · subst e; simp [hr]
      · have : ¬ d.toNat = r.toNat := fun q => e (BitVec.eq_of_toNat_eq q.symm)
        simp [hd, hr, e, this]

theorem getV_setV (c : Core) (d r : BitVec 5) (x : Cell 512) : (c.setV d x).regs.getV r = if r = d then x else c.regs.getV r := by
  unfold Core.setV Regs.getV
  by_cases e : r = d
  · subst e; simp
  · have : ¬ d.toNat = r.toNat := fun q => e (BitVec.eq_of_toNat_eq q.symm)
    simp [e, this]

theorem getM_setM (c : Core) (d r : BitVec 3) (x : Cell 64) : (c.setM d x).regs.getM r = if r = d then x else c.regs.getM r := by
  unfold Core.setM Regs.getM
  by_cases e : r = d
  · subst e; simp
  · have : ¬ d.toNat = r.toNat := fun q => e (BitVec.eq_of_toNat_eq q.symm)
    simp [e, this]

/-- Without bound streams no register has one. -/
theorem stream?_nil {c : Core} (h : c.streams = []) (k : Nat) : c.stream? k = none := by simp [Core.stream?, h]

/-! ### Code addresses rest on the instruction store alone -/

theorem validPc_congr {c e : Core} (h : c.imem = e.imem) (x : W64) : c.validPc x = e.validPc x := by
  simp [Core.validPc, Core.fetch, Core.line, h]

theorem succ_congr {c e : Core} (h : c.imem = e.imem) (x : W64) : c.succ x = e.succ x := by
  have e : c.line = e.line := by funext l; simp only [Core.line, h]
  simp only [Core.succ, e]

/-! ### The shapes of scalar instructions -/

theorem op1_ok {d : BitVec 6} {a : Src} {f : W64 → W64} {c c1 c2 : Core} {x : W64} (hd : destS d c = .ok ()) (ha : readS a c = .ok (x, c1))
    (hw : writeS d (f x) (freeS a c1) = .ok c2) : op1 d a f c = .ok c2 := by
  simp [op1, hd, ha, hw, bind, Except.bind]

theorem op2_ok {d : BitVec 6} {a b : Src} {f : W64 → W64 → W64} {c c1 c2 c3 : Core} {x y : W64} (hd : destS d c = .ok ())
    (ha : readS a c = .ok (x, c1)) (hb : readS b c1 = .ok (y, c2)) (hw : writeS d (f x y) (freeS b (freeS a c2)) = .ok c3) :
    op2 d a b f c = .ok c3 := by
  simp [op2, hd, ha, hb, hw, bind, Except.bind]

theorem op3_ok {d : BitVec 6} {a b e : Src} {f : W64 → W64 → W64 → W64} {c c1 c2 c3 c4 : Core} {x y z : W64} (hd : destS d c = .ok ())
    (ha : readS a c = .ok (x, c1)) (hb : readS b c1 = .ok (y, c2)) (he : readS e c2 = .ok (z, c3))
    (hw : writeS d (f x y z) (freeS e (freeS b (freeS a c3))) = .ok c4) : op3 d a b e f c = .ok c4 := by
  simp [op3, hd, ha, hb, he, hw, bind, Except.bind]

/-! ### The end of an instruction -/

theorem coreOp_ok {s : State} {f : Core → Res Core} {c : Core} (h : f s.me = .ok c) : coreOp s f = .next { s with me := c.retire } := by
  simp [coreOp, h, finish, Except.map]

/-- Everything that an instruction of one core can do. -/
theorem coreOp_cases {s t : State} {f : Core → Res Core} (h : coreOp s f = .next t) :
    (∃ c, f s.me = .ok c ∧ t = { s with me := c.retire }) ∨ (∃ r, f s.me = .error (.trap r) ∧ t = s.takeTrap [(s.cur, r)]) ∨
    (∃ w, f s.me = .error (.wait w) ∧ t = s.waiting w) ∨ (f s.me = .error .phase ∧ t = s.implicitPhase) ∨
    (∃ a k b, f s.me = .error (.uncorr a k b) ∧ t = s.uncorrectable a k b) := by
  unfold coreOp at h
  cases e : f s.me with
  | ok c => rw [e] at h; simp [Except.map, finish] at h; exact .inl ⟨c, rfl, h.symm⟩
  | error x =>
    rw [e] at h
    cases x with
    | trap r => exact .inr (.inl ⟨r, rfl, by simpa [Except.map, finish] using h.symm⟩)
    | wait w => exact .inr (.inr (.inl ⟨w, rfl, by simpa [Except.map, finish] using h.symm⟩))
    | phase => exact .inr (.inr (.inr (.inl ⟨rfl, by simpa [Except.map, finish] using h.symm⟩)))
    | uncorr a k b => exact .inr (.inr (.inr (.inr ⟨a, k, b, rfl, by simpa [Except.map, finish] using h.symm⟩)))

/-- Everything that an instruction with effects in the package can do. -/
theorem pkgOp_cases {s t : State} {f : State → Res State} (h : pkgOp s f = .next t) :
    (∃ u, f s = .ok u ∧ t = { u with me := u.me.retire }) ∨ (∃ r, f s = .error (.trap r) ∧ t = s.takeTrap [(s.cur, r)]) ∨
    (∃ w, f s = .error (.wait w) ∧ t = s.waiting w) ∨ (f s = .error .phase ∧ t = s.implicitPhase) ∨
    (∃ a k b, f s = .error (.uncorr a k b) ∧ t = s.uncorrectable a k b) := by
  unfold pkgOp at h
  cases e : f s with
  | ok u => rw [e] at h; simp [Except.map, finish] at h; exact .inl ⟨u, rfl, h.symm⟩
  | error x =>
    rw [e] at h
    cases x with
    | trap r => exact .inr (.inl ⟨r, rfl, by simpa [Except.map, finish] using h.symm⟩)
    | wait w => exact .inr (.inr (.inl ⟨w, rfl, by simpa [Except.map, finish] using h.symm⟩))
    | phase => exact .inr (.inr (.inr (.inl ⟨rfl, by simpa [Except.map, finish] using h.symm⟩)))
    | uncorr a k b => exact .inr (.inr (.inr (.inr ⟨a, k, b, rfl, by simpa [Except.map, finish] using h.symm⟩)))

/-! ### The core in focus -/

@[simp] theorem core_self (s : State) : s.core s.cur = s.me := by simp [State.core]
@[simp] theorem focus_self (s : State) : s.focus s.cur = s := by simp [State.focus]
@[simp] theorem onCore_self (s : State) (f : State → State) : onCore s.cur f s = f s := by simp [onCore]
@[simp] theorem onCores_self (s : State) (f : State → State) : onCores [s.cur] f s = f s := by simp [onCores]
@[simp] theorem focus_cur (s : State) (k : Nat) : (s.focus k).cur = k := by unfold State.focus; split <;> simp_all

/-- The core in focus is the core that was asked for. -/
theorem focus_me (s : State) (k : Nat) : (s.focus k).me = s.core k := by
  unfold State.focus
  split
  · rename_i h; subst h; simp
  · rfl

theorem core_setCore (s : State) (k j : Nat) (c : Core) : (s.setCore k c).core j = if j = k then c else s.core j := by
  unfold State.setCore State.core
  by_cases hk : k = s.cur
  · subst hk; by_cases hj : j = s.cur <;> simp [hj]
  · by_cases hj : j = s.cur
    · have : ¬ j = k := fun e => hk (e ▸ hj)
      simp [hk, hj]; intro e; exact absurd e.symm hk
    · by_cases h : j = k <;> simp [hk, hj, aget_aset, h]

/-! ### Steps of agents -/

/-- Everything that a step of core k can do. -/
theorem coreEvent_cases {k : Nat} {f : State → Option State} {s t : State} (h : coreEvent k f s = .next t) :
    k < Config.nCores ∧ ((∃ w, f (s.focus k).caughtUp = some w ∧ t = w.focus s.cur) ∨ (f (s.focus k).caughtUp = none ∧ t = s)) := by
  unfold coreEvent at h
  split at h
  · rename_i hk
    cases e : f (s.focus k).caughtUp with
    | none => simp [e] at h; exact ⟨hk, .inr ⟨rfl, h.symm⟩⟩
    | some w => simp [e] at h; exact ⟨hk, .inl ⟨w, rfl, h.symm⟩⟩
  · cases h

/-- Everything that a step of the engines of core k can do: a frozen core's stand still. -/
theorem engineEvent_cases {k : Nat} {f : State → Option State} {s t : State} (h : engineEvent k f s = .next t) :
    k < Config.nCores ∧
      ((∃ w, (s.focus k).caughtUp.me.frozen = false ∧ f (s.focus k).caughtUp = some w ∧ t = w.focus s.cur) ∨ t = s) := by
  obtain ⟨hk, h⟩ := coreEvent_cases h
  refine ⟨hk, ?_⟩
  rcases h with ⟨w, hw, rfl⟩ | ⟨_, rfl⟩
  · by_cases e : (s.focus k).caughtUp.me.frozen = true
    · simp [e] at hw
    · simp [e] at hw; exact .inl ⟨w, by simpa using e, hw, rfl⟩
  · exact .inr rfl

/-- Everything that a step of a command can do: it is not its turn, it waits, it is performed, or it is refused with a code. -/
theorem command_cases {ch op : Nat} {f : Channel → State → Option (Except Nat State)} {s t : State} (h : command ch op f s = .next t) :
    ch < 4 ∧ (t = s ∨ f (s.chan? ch) s = some (.ok t) ∨ ∃ k, f (s.chan? ch) s = some (.error k) ∧ t = s.complete1 ch k) := by
  unfold command at h
  split at h
  · rename_i hk
    refine ⟨hk, ?_⟩
    simp only at h
    split at h
    · split at h <;> simp_all
    · simp at h; exact .inl h.symm
  · cases h

/-- Everything that a node's step can do. -/
theorem nodeEvent_cases {die slot ty : Nat} {f : Nat → Slot → Msg → State → NodeRes State} {s t : State} (h : nodeEvent die slot ty f s = .next t) :
    let k := slotKey die slot
    let x := s.slot k
    let v := s.atNode x
    die < 4 ∧ slot < 16 ∧ (t = s ∨ t = v ∨ (∃ e, t = v.slotError k e) ∨ ∃ m, v.nodeOf x = .ok m ∧ badNode m = false ∧
      let u := v.setSlot k { x with cur := some m }
      (f k { x with cur := some m } m u = .ok t ∨ (f k { x with cur := some m } m u = .error none ∧ t = u) ∨
        ∃ e, f k { x with cur := some m } m u = .error (some e) ∧ t = u.slotError k e)) := by
  unfold nodeEvent at h
  split at h
  · rename_i hk
    refine ⟨hk.1, hk.2, ?_⟩
    simp only at h
    split at h
    · simp at h; exact .inl h.symm
    · split at h
      · simp at h; exact .inr (.inr (.inl ⟨_, h.symm⟩))
      · rename_i m hm
        split at h
        · simp at h; exact .inr (.inr (.inl ⟨_, h.symm⟩))
        · rename_i hb
          split at h
          · simp at h; exact .inr (.inl h.symm)
          · refine .inr (.inr (.inr ⟨m, hm, by simpa using hb, ?_⟩))
            split at h <;> simp_all
  · cases h

/-! ### Checkpoints -/

/-- The newest checkpoint is no part of the segments' data. -/
theorem setLast_closing (c : Core) (k : Ckpt) : (c.setLast k).closing.map (·.d) = c.closing.map (·.d) := by
  unfold Core.setLast
  split
  · rfl
  · rename_i g l h
    have : c.closing = l.reverse ++ [g] := by rw [← List.reverse_reverse (as := c.closing), h]; simp
    simp [this]

theorem setLast_frame (c : Core) (k : Ckpt) : { c.setLast k with closing := c.closing, confirmed := c.confirmed } = c := by
  unfold Core.setLast; split <;> rfl

end Sys2Proof.Machine
end

