-- ==== Sys2Proof/Laws/Canonical.lean ====
section
/-! SUPPORT. The shared operations keep every memory in its canonical form. -/

namespace Sys2Proof.Machine

open Safety

theorem memWf_iff (c : Core) : c.memWf = true ↔ c.mem.wf = true ∧ c.imem.wf = true ∧ c.acc.wf = true := by
  simp [Core.memWf, and_assoc]

/-- Equal memories are equally canonical. -/
theorem memWf_congr {c e : Core} (h : e.memWf = true) (h1 : c.mem = e.mem) (h2 : c.imem = e.imem) (h3 : c.acc = e.acc) :
    c.memWf = true := by
  rw [memWf_iff] at h ⊢; rw [h1, h2, h3]; exact h

theorem memWf_foldl {α : Type} (f : Core → α → Core) (hf : ∀ c x, c.memWf = true → (f c x).memWf = true) (l : List α) {c : Core}
    (h : c.memWf = true) : (l.foldl f c).memWf = true := by
  induction l generalizing c with
  | nil => exact h
  | cons x l ih => exact ih (hf c x h)

/-! ### Local memory -/

theorem claimBank_mem (c : Core) (x : BitVec 8) (b : Nat) :
    (c.claimBank x b).mem = c.mem ∧ (c.claimBank x b).imem = c.imem ∧ (c.claimBank x b).acc = c.acc := by
  unfold Core.claimBank
  simp only
  repeat' split
  all_goals exact ⟨rfl, rfl, rfl⟩

theorem claimBank_memWf {c : Core} (x : BitVec 8) (b : Nat) (h : c.memWf = true) : (c.claimBank x b).memWf = true :=
  have e := claimBank_mem c x b
  memWf_congr h e.1 e.2.1 e.2.2

theorem claim_memWf {c : Core} (x : BitVec 8) (n : Nat) (h : c.memWf = true) : (c.claim x n).memWf = true := by
  unfold Core.claim
  split
  · exact h
  · rw [memWf_iff] at h ⊢; exact ⟨Mem.wf_clear _ _ h.1, h.2⟩

theorem claimLines_memWf {c : Core} (x : BitVec 8) (b : Nat) (h : c.memWf = true) : (c.claimLines x b).memWf = true := by
  have h := claimBank_memWf x b h
  unfold Core.claimLines
  rw [memWf_iff] at h ⊢
  exact ⟨Mem.wf_filter _ h.1, h.2⟩

theorem claimAll_memWf {c : Core} (x : BitVec 8) (a n : Nat) (h : c.memWf = true) : (c.claimAll x a n).memWf = true :=
  memWf_foldl _ (fun _ _ h => claim_memWf _ _ (claimBank_memWf _ _ h)) _ h

theorem logLine_memWf {c : Core} (n : Nat) (h : c.memWf = true) : (c.logLine n).memWf = true := by
  unfold Core.logLine; split
  · exact h
  · exact memWf_congr h rfl rfl rfl

theorem poke_memWf {c : Core} (a : Nat) (bs : List Byte) (h : c.memWf = true) : (c.poke a bs).memWf = true := by
  rw [memWf_iff] at h ⊢; exact ⟨Mem.wf_put _ _ h.1, h.2⟩

theorem ownWrite_memWf {c : Core} (a : Nat) (bs : List Byte) (h : c.memWf = true) : (c.ownWrite a bs).memWf = true :=
  poke_memWf _ _ (memWf_foldl _ (fun _ n h => logLine_memWf n h) _ (claimAll_memWf _ _ _ h))

theorem zeroBank_memWf {c : Core} (b : Nat) (h : c.memWf = true) : (c.zeroBank b).memWf = true := by
  rw [memWf_iff] at h ⊢; exact ⟨Mem.wf_clear _ _ h.1, h.2⟩

/-- Local memory after an update that puts bytes in place, other memories as before. -/
theorem memWf_put {c e : Core} {a : Nat} {bs : List Byte} (h : e.memWf = true) (h1 : c.mem = Mem.put e.mem a bs) (h2 : c.imem = e.imem)
    (h3 : c.acc = e.acc) : c.memWf = true := by
  rw [memWf_iff] at h ⊢; rw [h1, h2, h3]; exact ⟨Mem.wf_put _ _ h.1, h.2⟩

/-- Saved images are no memory of the core. -/
theorem mapImages_mems (c : Core) (n : Nat) (p : Nat → Bool) (f : Nat → Line → Line) (g : Bool → Bool) :
    (c.mapImages n p f g).mem = c.mem ∧ (c.mapImages n p f g).imem = c.imem ∧ (c.mapImages n p f g).acc = c.acc := ⟨rfl, rfl, rfl⟩

theorem publish_memWf {c : Core} (x : BitVec 8) (n : Nat) (l : Line) (m : W64) (h : c.memWf = true) : (c.publish x n l m).memWf = true :=
  memWf_put (a := 64 * n) (bs := lineBytes (mergeLine (Mem.line (c.claim x n).mem (64 * n)) l m)) (claim_memWf x n h)
    (by simp only [Core.publish, mapImages_mems]) (by simp only [Core.publish, mapImages_mems]) (by simp only [Core.publish, mapImages_mems])

/-! ### Accumulator rows -/

theorem putRow_memWf {c : Core} (r off : Nat) (bs : List Byte) (p : List Nat) (h : c.memWf = true) : (c.putRow r off bs p).memWf = true := by
  rw [memWf_iff] at h ⊢; exact ⟨h.1, h.2.1, Mem.wf_put _ _ h.2.2⟩

theorem claimRow_memWf {c : Core} (x : BitVec 8) (r : Nat) (h : c.memWf = true) : (c.claimRow x r).memWf = true := by
  unfold Core.claimRow
  split
  · exact h
  · rw [memWf_iff] at h ⊢; exact ⟨h.1, h.2.1, Mem.wf_clear _ _ h.2.2⟩

/-! ### Rollback -/

theorem restore1_memWf {c : Core} (u : UndoWhat ⊕ PreWhat) (h : c.memWf = true) : (c.restore1 u).memWf = true := by
  have w := (memWf_iff c).1 h
  rcases u with u | u
  · cases u with
    | line n l p => simp only [Core.restore1, Core.setPoison, memWf_iff]; exact ⟨Mem.wf_put _ _ w.1, w.2⟩
    | bank b img cells ps => simp only [Core.restore1, Core.setBank, memWf_iff]; exact ⟨Mem.wf_splice _ _ _ w.1, w.2⟩
    | links lt => exact memWf_congr h rfl rfl rfl
  · cases u with
    | row r off bs p => exact putRow_memWf _ _ _ _ h
    | line n l mask p u =>
      simp only [Core.restore1]
      split <;> simp only [Core.setPoison, memWf_iff] <;> exact ⟨Mem.wf_put _ _ w.1, w.2⟩

theorem under_memWf {c : Core} (ord : Nat) (h : c.memWf = true) : (c.under ord).memWf = true := memWf_congr h rfl rfl rfl

theorem undo1_memWf {c : Core} (x : Nat × (UndoWhat ⊕ PreWhat)) (h : c.memWf = true) : (c.undo1 x).memWf = true := by
  unfold Core.undo1
  split
  · exact under_memWf _ (restore1_memWf _ h)
  · exact restore1_memWf _ h

theorem unland_memWf {c : Core} (p : PreImage) (h : c.memWf = true) : (c.unland p).memWf = true := by
  have := restore1_memWf (.inr p.what) h
  unfold Core.unland
  simp only
  repeat' split
  all_goals exact this

theorem undoFrom_memWf {c : Core} (k id : Nat) (h : c.memWf = true) : (c.undoFrom k id).memWf = true := by
  have := memWf_foldl Core.undo1 (fun _ x h => undo1_memWf x h)
    (sortDesc (((c.uncommitted.filter fun d => decide (id ≤ d.id)).flatMap fun d => d.undo.map fun u => (u.ord, Sum.inl u.what)) ++
      (c.ring.filter fun p => decide (p.core = k) && decide (id ≤ p.seg)).map fun p => (p.ord, Sum.inr p.what))) h
  exact memWf_congr this rfl rfl rfl

theorem putBack_memWf {c : Core} (mine : PreImage → Bool) (h : c.memWf = true) : (c.putBack mine).memWf = true := by
  have := memWf_foldl (fun c (x : Nat × PreImage) => c.unland x.2) (fun _ x h => unland_memWf x.2 h)
    (sortDesc ((c.ring.filter mine).map fun p => (p.ord, p))) h
  exact memWf_congr this rfl rfl rfl

theorem undoAway_memWf {c : Core} (k id : Nat) (h : c.memWf = true) : (c.undoAway k id).memWf = true := putBack_memWf _ h

/-! ### The package -/

theorem mem_aset {α : Type} {l : List (Nat × α)} {k : Nat} {x : α} {p : Nat × α} (h : p ∈ aset l k x) : p = (k, x) ∨ p ∈ l := by
  induction l with
  | nil => simp [aset] at h; exact .inl h
  | cons q l ih =>
    obtain ⟨i, y⟩ := q
    simp only [aset] at h
    split at h
    · simp at h ⊢; tauto
    · split at h
      · simp at h ⊢; tauto
      · simp at h ⊢
        rcases h with h | h
        · exact .inr (.inl h)
        · rcases ih h with h | h <;> tauto

theorem aget_mem {α : Type} {l : List (Nat × α)} {k : Nat} {x : α} (h : aget l k = some x) : (k, x) ∈ l := by
  induction l with
  | nil => simp [aget] at h
  | cons p l ih =>
    obtain ⟨i, y⟩ := p
    simp only [aget] at h
    split at h
    · rename_i e; subst e; simp at h; simp [h]
    · simp [ih h]

theorem canonical_reset : Canonical State.reset := by
  refine ⟨rfl, ?_, ?_, rfl, rfl⟩ <;> intro p hp <;> simp [State.reset] at hp

theorem core_memWf {s : State} (k : Nat) (h : Canonical s) : (s.core k).memWf = true := by
  unfold State.core
  split
  · exact h.1
  · cases e : aget s.others k with
    | none => rfl
    | some c => exact h.2.1 _ (aget_mem e)

theorem setCore_canonical {s : State} (k : Nat) {c : Core} (h : Canonical s) (hc : c.memWf = true) : Canonical (s.setCore k c) := by
  unfold State.setCore
  split
  · exact ⟨hc, h.2⟩
  · refine ⟨h.1, fun p hp => ?_, h.2.2⟩
    rcases mem_aset hp with rfl | hp
    · exact hc
    · exact h.2.1 p hp

theorem focus_canonical {s : State} (k : Nat) (h : Canonical s) : Canonical (s.focus k) := by
  have hk := core_memWf k h
  unfold State.focus
  split
  · exact h
  · refine ⟨hk, fun p hp => ?_, h.2.2⟩
    rcases mem_aset hp with rfl | hp
    · exact h.1
    · simp [adel] at hp; exact h.2.1 p hp.1

theorem onCore_canonical {s : State} (k : Nat) {f : State → State} (hf : ∀ s, Canonical s → Canonical (f s)) (h : Canonical s) :
    Canonical (onCore k f s) := by
  unfold onCore
  split
  · exact hf s h
  · exact focus_canonical _ (hf _ (focus_canonical k h))

theorem foldl_canonical {α : Type} (f : State → α → State) (hf : ∀ s x, Canonical s → Canonical (f s x)) (l : List α) {s : State}
    (h : Canonical s) : Canonical (l.foldl f s) := by
  induction l generalizing s with
  | nil => exact h
  | cons x l ih => exact ih (hf s x h)

theorem onCores_canonical {s : State} (ks : List Nat) {f : State → State} (hf : ∀ s, Canonical s → Canonical (f s)) (h : Canonical s) :
    Canonical (onCores ks f s) :=
  foldl_canonical _ (fun _ k h => onCore_canonical k hf h) ks h

theorem physPut_canonical {s : State} (pa : Nat) (bs : List Byte) (h : Canonical s) : Canonical (s.physPut pa bs) := by
  unfold State.physPut
  split
  · exact ⟨h.1, h.2.1, h.2.2.1, h.2.2.2.1, Mem.wf_put _ _ h.2.2.2.2⟩
  · exact ⟨h.1, h.2.1, h.2.2.1, Mem.wf_put _ _ h.2.2.2.1, h.2.2.2.2⟩

/-- An update of the core in focus that keeps its memories. -/
theorem setMe_canonical {s : State} {c : Core} (h : Canonical s) (hc : c.memWf = true) : Canonical { s with me := c } := ⟨hc, h.2⟩

theorem unlock_canonical {s : State} (k : Nat) (p : Nat → Bool) (h : Canonical s) : Canonical (s.unlock k p) := by
  refine ⟨memWf_congr h.1 rfl rfl rfl, fun q hq => ?_, h.2.2⟩
  simp [State.unlock] at hq
  obtain ⟨i, c, hc, rfl⟩ := hq
  exact memWf_congr (h.2.1 (i, c) hc) rfl rfl rfl

theorem relockStreams_canonical {s : State} (h : Canonical s) : Canonical s.relockStreams := by
  refine foldl_canonical _ (fun s t h => ?_) _ (unlock_canonical _ _ h)
  unfold State.lockStream
  simp only
  repeat' split
  all_goals exact h

end Sys2Proof.Machine
end

