-- ==== Sys2Proof/Laws/PerInstr.lean ====
section
/-! SUPPORT. The instructions that have an encoding, one lemma for each constructor. -/

namespace Sys2Proof.Laws.Coded

/-- An instruction has an encoding exactly if it is one of the core instructions; the steps of other agents have none. -/
def Statement (i : Instr) : Prop := (encode i).isSome = i.isCore

theorem nop : Statement (.nop) := rfl
theorem jmp (target : BitVec 14) : Statement (.jmp target) := rfl
theorem jmpr (a : Src) : Statement (.jmpr a) := rfl
theorem call (target : BitVec 14) : Statement (.call target) := rfl
theorem callr (a : Src) : Statement (.callr a) := rfl
theorem ret (a : Src) : Statement (.ret a) := rfl
theorem br (cc : Cond) (a : Src) (b : Src) (target : BitVec 14) : Statement (.br cc a b target) := rfl
theorem bri (cc : Cond) (a : Src) (k : BitVec 8) (target : BitVec 14) : Statement (.bri cc a k target) := rfl
theorem bst (cc : BstCond) (target : BitVec 14) : Statement (.bst cc target) := rfl
theorem loop (d : BitVec 6) (a : Src) (target : BitVec 14) : Statement (.loop d a target) := rfl
theorem endAct : Statement (.endAct) := rfl
theorem phase : Statement (.phase) := rfl
theorem yield : Statement (.yield) := rfl
theorem migr (a : Src) : Statement (.migr a) := rfl
theorem trap (code : BitVec 6) : Statement (.trap code) := rfl
theorem trapReg (code : BitVec 6) (a : Src) : Statement (.trapReg code a) := rfl
theorem add (d : BitVec 6) (a : Src) (b : Src) : Statement (.add d a b) := rfl
theorem addAbcm (d : BitVec 6) (a : Src) (b : Src) (ty : Ty) : Statement (.addAbcm d a b ty) := rfl
theorem sub (d : BitVec 6) (a : Src) (b : Src) : Statement (.sub d a b) := rfl
theorem subAbcm (d : BitVec 6) (a : Src) (b : Src) (ty : Ty) : Statement (.subAbcm d a b ty) := rfl
theorem mul (d : BitVec 6) (a : Src) (b : Src) : Statement (.mul d a b) := rfl
theorem mulAbcm (d : BitVec 6) (a : Src) (b : Src) (ty : Ty) : Statement (.mulAbcm d a b ty) := rfl
theorem mulh (d : BitVec 6) (a : Src) (b : Src) : Statement (.mulh d a b) := rfl
theorem mulhAbcm (d : BitVec 6) (a : Src) (b : Src) (ty : Ty) : Statement (.mulhAbcm d a b ty) := rfl
theorem div (d : BitVec 6) (a : Src) (b : Src) : Statement (.div d a b) := rfl
theorem divAbcm (d : BitVec 6) (a : Src) (b : Src) (ty : Ty) : Statement (.divAbcm d a b ty) := rfl
theorem rem (d : BitVec 6) (a : Src) (b : Src) : Statement (.rem d a b) := rfl
theorem remAbcm (d : BitVec 6) (a : Src) (b : Src) (ty : Ty) : Statement (.remAbcm d a b ty) := rfl
theorem and (d : BitVec 6) (a : Src) (b : Src) : Statement (.and d a b) := rfl
theorem andAbcm (d : BitVec 6) (a : Src) (b : Src) (ty : Ty) : Statement (.andAbcm d a b ty) := rfl
theorem or (d : BitVec 6) (a : Src) (b : Src) : Statement (.or d a b) := rfl
theorem orAbcm (d : BitVec 6) (a : Src) (b : Src) (ty : Ty) : Statement (.orAbcm d a b ty) := rfl
theorem xor (d : BitVec 6) (a : Src) (b : Src) : Statement (.xor d a b) := rfl
theorem xorAbcm (d : BitVec 6) (a : Src) (b : Src) (ty : Ty) : Statement (.xorAbcm d a b ty) := rfl
theorem shl (d : BitVec 6) (a : Src) (b : Src) : Statement (.shl d a b) := rfl
theorem shlAbcm (d : BitVec 6) (a : Src) (b : Src) (ty : Ty) : Statement (.shlAbcm d a b ty) := rfl
theorem shr (d : BitVec 6) (a : Src) (b : Src) : Statement (.shr d a b) := rfl
theorem shrAbcm (d : BitVec 6) (a : Src) (b : Src) (ty : Ty) : Statement (.shrAbcm d a b ty) := rfl
theorem rot (d : BitVec 6) (a : Src) (b : Src) : Statement (.rot d a b) := rfl
theorem rotAbcm (d : BitVec 6) (a : Src) (b : Src) (ty : Ty) : Statement (.rotAbcm d a b ty) := rfl
theorem min (d : BitVec 6) (a : Src) (b : Src) : Statement (.min d a b) := rfl
theorem minAbcm (d : BitVec 6) (a : Src) (b : Src) (ty : Ty) : Statement (.minAbcm d a b ty) := rfl
theorem max (d : BitVec 6) (a : Src) (b : Src) : Statement (.max d a b) := rfl
theorem maxAbcm (d : BitVec 6) (a : Src) (b : Src) (ty : Ty) : Statement (.maxAbcm d a b ty) := rfl
theorem slt (d : BitVec 6) (a : Src) (b : Src) : Statement (.slt d a b) := rfl
theorem sltAbcm (d : BitVec 6) (a : Src) (b : Src) (ty : Ty) : Statement (.sltAbcm d a b ty) := rfl
theorem sel (d : BitVec 6) (a : Src) (b : Src) (c : Src) : Statement (.sel d a b c) := rfl
theorem addi (d : BitVec 6) (a : Src) (imm : BitVec 24) : Statement (.addi d a imm) := rfl
theorem addiAbi32 (d : BitVec 6) (a : Src) (imm : BitVec 32) : Statement (.addiAbi32 d a imm) := rfl
theorem andi (d : BitVec 6) (a : Src) (imm : BitVec 24) : Statement (.andi d a imm) := rfl
theorem andiAbi32 (d : BitVec 6) (a : Src) (imm : BitVec 32) : Statement (.andiAbi32 d a imm) := rfl
theorem ori (d : BitVec 6) (a : Src) (imm : BitVec 24) : Statement (.ori d a imm) := rfl
theorem oriAbi32 (d : BitVec 6) (a : Src) (imm : BitVec 32) : Statement (.oriAbi32 d a imm) := rfl
theorem xori (d : BitVec 6) (a : Src) (imm : BitVec 24) : Statement (.xori d a imm) := rfl
theorem xoriAbi32 (d : BitVec 6) (a : Src) (imm : BitVec 32) : Statement (.xoriAbi32 d a imm) := rfl
theorem muli (d : BitVec 6) (a : Src) (imm : BitVec 24) : Statement (.muli d a imm) := rfl
theorem muliAbi32 (d : BitVec 6) (a : Src) (imm : BitVec 32) : Statement (.muliAbi32 d a imm) := rfl
theorem shli (d : BitVec 6) (a : Src) (k : BitVec 6) (ty : Ty) : Statement (.shli d a k ty) := rfl
theorem shri (d : BitVec 6) (a : Src) (k : BitVec 6) (ty : Ty) : Statement (.shri d a k ty) := rfl
theorem li (d : BitVec 6) (imm : BitVec 32) : Statement (.li d imm) := rfl
theorem liI48 (d : BitVec 6) (imm : BitVec 48) : Statement (.liI48 d imm) := rfl
theorem clz (d : BitVec 6) (a : Src) : Statement (.clz d a) := rfl
theorem clzAbcm (d : BitVec 6) (a : Src) (ty : Ty) : Statement (.clzAbcm d a ty) := rfl
theorem ctz (d : BitVec 6) (a : Src) : Statement (.ctz d a) := rfl
theorem ctzAbcm (d : BitVec 6) (a : Src) (ty : Ty) : Statement (.ctzAbcm d a ty) := rfl
theorem popc (d : BitVec 6) (a : Src) : Statement (.popc d a) := rfl
theorem popcAbcm (d : BitVec 6) (a : Src) (ty : Ty) : Statement (.popcAbcm d a ty) := rfl
theorem abs (d : BitVec 6) (a : Src) : Statement (.abs d a) := rfl
theorem absAbcm (d : BitVec 6) (a : Src) (ty : Ty) : Statement (.absAbcm d a ty) := rfl
theorem bfx (d : BitVec 6) (a : Src) (pos : BitVec 6) (lenM1 : BitVec 6) (uns : Bool) : Statement (.bfx d a pos lenM1 uns) := rfl
theorem bfi (d : BitVec 6) (a : Src) (b : Src) (pos : BitVec 6) (lenM1 : BitVec 6) : Statement (.bfi d a b pos lenM1) := rfl
theorem wfld (d : BitVec 6) (a : Src) (level : BitVec 3) : Statement (.wfld d a level) := rfl
theorem fadd (d : BitVec 6) (a : Src) (b : Src) (rnd : Rnd) (ty : Ty) : Statement (.fadd d a b rnd ty) := rfl
theorem fsub (d : BitVec 6) (a : Src) (b : Src) (rnd : Rnd) (ty : Ty) : Statement (.fsub d a b rnd ty) := rfl
theorem fmul (d : BitVec 6) (a : Src) (b : Src) (rnd : Rnd) (ty : Ty) : Statement (.fmul d a b rnd ty) := rfl
theorem ffma (d : BitVec 6) (a : Src) (b : Src) (c : Src) (rnd : Rnd) (ty : Ty) : Statement (.ffma d a b c rnd ty) := rfl
theorem fdiv (d : BitVec 6) (a : Src) (b : Src) (rnd : Rnd) (ty : Ty) : Statement (.fdiv d a b rnd ty) := rfl
theorem fsqrt (d : BitVec 6) (a : Src) (rnd : Rnd) (ty : Ty) : Statement (.fsqrt d a rnd ty) := rfl
theorem fmin (d : BitVec 6) (a : Src) (b : Src) (ty : Ty) : Statement (.fmin d a b ty) := rfl
theorem fmax (d : BitVec 6) (a : Src) (b : Src) (ty : Ty) : Statement (.fmax d a b ty) := rfl
theorem fcmp (d : BitVec 6) (a : Src) (b : Src) (p : Pred) (ty : Ty) : Statement (.fcmp d a b p ty) := rfl
theorem fcvt (d : BitVec 6) (a : Src) (src : Ty) (rnd : Rnd) (sat : Bool) (ty : Ty) : Statement (.fcvt d a src rnd sat ty) := rfl
theorem fclass (d : BitVec 6) (a : Src) (ty : Ty) : Statement (.fclass d a ty) := rfl
theorem fsgn (d : BitVec 6) (a : Src) (b : Src) (op : SgnOp) (ty : Ty) : Statement (.fsgn d a b op ty) := rfl
theorem frnd (d : BitVec 6) (a : Src) (x : Bool) (rnd : Rnd) (ty : Ty) : Statement (.frnd d a x rnd ty) := rfl
theorem ld (d : BitVec 6) (a : Src) (ty : Ty) (off : BitVec 32) : Statement (.ld d a ty off) := rfl
theorem st (ty : Ty) (a : Src) (b : Src) (off : BitVec 32) : Statement (.st ty a b off) := rfl
theorem ldv (d : BitVec 5) (a : Src) (ty : Ty) (off : BitVec 24) (mk : VMask) : Statement (.ldv d a ty off mk) := rfl
theorem stv (ty : Ty) (a : Src) (b : VSrc) (off : BitVec 24) (mk : VMask) : Statement (.stv ty a b off mk) := rfl
theorem lds (d : BitVec 6) (a : Src) (scope : Scope) (ty : Ty) : Statement (.lds d a scope ty) := rfl
theorem sts (a : Src) (b : Src) (scope : Scope) (ty : Ty) : Statement (.sts a b scope ty) := rfl
theorem aadd (d : BitVec 6) (a : Src) (b : Src) (scope : Scope) (ty : Ty) : Statement (.aadd d a b scope ty) := rfl
theorem amnx (d : BitVec 6) (a : Src) (b : Src) (isMax : Bool) (scope : Scope) (ty : Ty) : Statement (.amnx d a b isMax scope ty) := rfl
theorem alog (d : BitVec 6) (a : Src) (b : Src) (op : LogOp) (scope : Scope) (ty : Ty) : Statement (.alog d a b op scope ty) := rfl
theorem aswp (d : BitVec 6) (a : Src) (b : Src) (scope : Scope) (ty : Ty) : Statement (.aswp d a b scope ty) := rfl
theorem acas (d : BitVec 6) (a : Src) (b : Src) (c : Src) (scope : Scope) (ty : Ty) : Statement (.acas d a b c scope ty) := rfl
theorem waitm (d : BitVec 6) (a : Src) (b : Src) (cc : Cond) (scope : Scope) (ty : Ty) : Statement (.waitm d a b cc scope ty) := rfl
theorem loopf : Statement (.loopf) := rfl
theorem gath (d : BitVec 5) (a : Src) (b : VSrc) (ty : Ty) : Statement (.gath d a b ty) := rfl
theorem gathVx (d : BitVec 5) (a : Src) (b : VSrc) (ty : Ty) (mk : VMask) : Statement (.gathVx d a b ty mk) := rfl
theorem scat (a : Src) (b : VSrc) (c : VSrc) (ty : Ty) : Statement (.scat a b c ty) := rfl
theorem scatVx (a : Src) (b : VSrc) (c : VSrc) (ty : Ty) (mk : VMask) : Statement (.scatVx a b c ty mk) := rfl
theorem bcfg (d : BitVec 6) (a : Src) (b : Src) : Statement (.bcfg d a b) := rfl
theorem bqry (d : BitVec 6) (a : Src) : Statement (.bqry d a) := rfl
theorem xch (d : BitVec 6) (a : Src) (b : Src) (op : XchOp) : Statement (.xch d a b op) := rfl
theorem bheap (d : BitVec 6) (a : Src) (b : Src) : Statement (.bheap d a b) := rfl
theorem bspan (d : BitVec 6) (a : Src) : Statement (.bspan d a) := rfl
theorem bclr (d : BitVec 6) (a : Src) : Statement (.bclr d a) := rfl
theorem vadd (d : BitVec 5) (a : VSrc) (b : VSrc) (rnd : Rnd) (ty : Ty) : Statement (.vadd d a b rnd ty) := rfl
theorem vaddVx (d : BitVec 5) (a : VSrc) (b : VSrc) (rnd : Rnd) (ty : Ty) (mk : VMask) : Statement (.vaddVx d a b rnd ty mk) := rfl
theorem vsub (d : BitVec 5) (a : VSrc) (b : VSrc) (rnd : Rnd) (ty : Ty) : Statement (.vsub d a b rnd ty) := rfl
theorem vsubVx (d : BitVec 5) (a : VSrc) (b : VSrc) (rnd : Rnd) (ty : Ty) (mk : VMask) : Statement (.vsubVx d a b rnd ty mk) := rfl
theorem vmul (d : BitVec 5) (a : VSrc) (b : VSrc) (rnd : Rnd) (ty : Ty) : Statement (.vmul d a b rnd ty) := rfl
theorem vmulVx (d : BitVec 5) (a : VSrc) (b : VSrc) (rnd : Rnd) (ty : Ty) (mk : VMask) : Statement (.vmulVx d a b rnd ty mk) := rfl
theorem vfma (d : BitVec 5) (a : VSrc) (b : VSrc) (c : VSrc) (rnd : Rnd) (ty : Ty) : Statement (.vfma d a b c rnd ty) := rfl
theorem vfmaVx (d : BitVec 5) (a : VSrc) (b : VSrc) (c : VSrc) (rnd : Rnd) (ty : Ty) (mk : VMask) : Statement (.vfmaVx d a b c rnd ty mk) := rfl
theorem vdiv (d : BitVec 5) (a : VSrc) (b : VSrc) (rnd : Rnd) (ty : Ty) : Statement (.vdiv d a b rnd ty) := rfl
theorem vdivVx (d : BitVec 5) (a : VSrc) (b : VSrc) (rnd : Rnd) (ty : Ty) (mk : VMask) : Statement (.vdivVx d a b rnd ty mk) := rfl
theorem vsqrt (d : BitVec 5) (a : VSrc) (rnd : Rnd) (ty : Ty) : Statement (.vsqrt d a rnd ty) := rfl
theorem vsqrtVx (d : BitVec 5) (a : VSrc) (rnd : Rnd) (ty : Ty) (mk : VMask) : Statement (.vsqrtVx d a rnd ty mk) := rfl
theorem vmin (d : BitVec 5) (a : VSrc) (b : VSrc) (ty : Ty) : Statement (.vmin d a b ty) := rfl
theorem vminVx (d : BitVec 5) (a : VSrc) (b : VSrc) (ty : Ty) (mk : VMask) : Statement (.vminVx d a b ty mk) := rfl
theorem vmax (d : BitVec 5) (a : VSrc) (b : VSrc) (ty : Ty) : Statement (.vmax d a b ty) := rfl
theorem vmaxVx (d : BitVec 5) (a : VSrc) (b : VSrc) (ty : Ty) (mk : VMask) : Statement (.vmaxVx d a b ty mk) := rfl
theorem vcmp (d : BitVec 3) (a : VSrc) (b : VSrc) (p : Pred) (ty : Ty) : Statement (.vcmp d a b p ty) := rfl
theorem vcmpVx (d : BitVec 3) (a : VSrc) (b : VSrc) (p : Pred) (ty : Ty) (mk : VMask) : Statement (.vcmpVx d a b p ty mk) := rfl
theorem vsgn (d : BitVec 5) (a : VSrc) (b : VSrc) (op : SgnOp) (ty : Ty) : Statement (.vsgn d a b op ty) := rfl
theorem vsgnVx (d : BitVec 5) (a : VSrc) (b : VSrc) (op : SgnOp) (ty : Ty) (mk : VMask) : Statement (.vsgnVx d a b op ty mk) := rfl
theorem vred (d : BitVec 5) (a : VSrc) (op : RedOp) (rnd : Rnd) (ty : Ty) : Statement (.vred d a op rnd ty) := rfl
theorem vredVx (d : BitVec 5) (a : VSrc) (op : RedOp) (rnd : Rnd) (ty : Ty) (mk : VMask) : Statement (.vredVx d a op rnd ty mk) := rfl
theorem vscan (d : BitVec 5) (a : VSrc) (op : RedOp) (rnd : Rnd) (ty : Ty) : Statement (.vscan d a op rnd ty) := rfl
theorem vscanVx (d : BitVec 5) (a : VSrc) (op : RedOp) (rnd : Rnd) (ty : Ty) (mk : VMask) : Statement (.vscanVx d a op rnd ty mk) := rfl
theorem vexp2 (d : BitVec 5) (a : VSrc) (rnd : Rnd) (ty : Ty) : Statement (.vexp2 d a rnd ty) := rfl
theorem vexp2Vx (d : BitVec 5) (a : VSrc) (rnd : Rnd) (ty : Ty) (mk : VMask) : Statement (.vexp2Vx d a rnd ty mk) := rfl
theorem vlog2 (d : BitVec 5) (a : VSrc) (rnd : Rnd) (ty : Ty) : Statement (.vlog2 d a rnd ty) := rfl
theorem vlog2Vx (d : BitVec 5) (a : VSrc) (rnd : Rnd) (ty : Ty) (mk : VMask) : Statement (.vlog2Vx d a rnd ty mk) := rfl
theorem vrcp (d : BitVec 5) (a : VSrc) (rnd : Rnd) (ty : Ty) : Statement (.vrcp d a rnd ty) := rfl
theorem vrcpVx (d : BitVec 5) (a : VSrc) (rnd : Rnd) (ty : Ty) (mk : VMask) : Statement (.vrcpVx d a rnd ty mk) := rfl
theorem vrsq (d : BitVec 5) (a : VSrc) (rnd : Rnd) (ty : Ty) : Statement (.vrsq d a rnd ty) := rfl
theorem vrsqVx (d : BitVec 5) (a : VSrc) (rnd : Rnd) (ty : Ty) (mk : VMask) : Statement (.vrsqVx d a rnd ty mk) := rfl
theorem viadd (d : BitVec 5) (a : VSrc) (b : VSrc) : Statement (.viadd d a b) := rfl
theorem viaddAbcm (d : BitVec 5) (a : VSrc) (b : VSrc) (ty : Ty) : Statement (.viaddAbcm d a b ty) := rfl
theorem viaddVx (d : BitVec 5) (a : VSrc) (b : VSrc) (ty : Ty) (mk : VMask) : Statement (.viaddVx d a b ty mk) := rfl
theorem visub (d : BitVec 5) (a : VSrc) (b : VSrc) : Statement (.visub d a b) := rfl
theorem visubAbcm (d : BitVec 5) (a : VSrc) (b : VSrc) (ty : Ty) : Statement (.visubAbcm d a b ty) := rfl
theorem visubVx (d : BitVec 5) (a : VSrc) (b : VSrc) (ty : Ty) (mk : VMask) : Statement (.visubVx d a b ty mk) := rfl
theorem vimul (d : BitVec 5) (a : VSrc) (b : VSrc) : Statement (.vimul d a b) := rfl
theorem vimulAbcm (d : BitVec 5) (a : VSrc) (b : VSrc) (ty : Ty) : Statement (.vimulAbcm d a b ty) := rfl
theorem vimulVx (d : BitVec 5) (a : VSrc) (b : VSrc) (ty : Ty) (mk : VMask) : Statement (.vimulVx d a b ty mk) := rfl
theorem vand (d : BitVec 5) (a : VSrc) (b : VSrc) : Statement (.vand d a b) := rfl
theorem vandAbcm (d : BitVec 5) (a : VSrc) (b : VSrc) (ty : Ty) : Statement (.vandAbcm d a b ty) := rfl
theorem vandVx (d : BitVec 5) (a : VSrc) (b : VSrc) (ty : Ty) (mk : VMask) : Statement (.vandVx d a b ty mk) := rfl
theorem vor (d : BitVec 5) (a : VSrc) (b : VSrc) : Statement (.vor d a b) := rfl
theorem vorAbcm (d : BitVec 5) (a : VSrc) (b : VSrc) (ty : Ty) : Statement (.vorAbcm d a b ty) := rfl
theorem vorVx (d : BitVec 5) (a : VSrc) (b : VSrc) (ty : Ty) (mk : VMask) : Statement (.vorVx d a b ty mk) := rfl
theorem vxor (d : BitVec 5) (a : VSrc) (b : VSrc) : Statement (.vxor d a b) := rfl
theorem vxorAbcm (d : BitVec 5) (a : VSrc) (b : VSrc) (ty : Ty) : Statement (.vxorAbcm d a b ty) := rfl
theorem vxorVx (d : BitVec 5) (a : VSrc) (b : VSrc) (ty : Ty) (mk : VMask) : Statement (.vxorVx d a b ty mk) := rfl
theorem vshl (d : BitVec 5) (a : VSrc) (b : VSrc) : Statement (.vshl d a b) := rfl
theorem vshlAbcm (d : BitVec 5) (a : VSrc) (b : VSrc) (ty : Ty) : Statement (.vshlAbcm d a b ty) := rfl
theorem vshlVx (d : BitVec 5) (a : VSrc) (b : VSrc) (ty : Ty) (mk : VMask) : Statement (.vshlVx d a b ty mk) := rfl
theorem vshr (d : BitVec 5) (a : VSrc) (b : VSrc) : Statement (.vshr d a b) := rfl
theorem vshrAbcm (d : BitVec 5) (a : VSrc) (b : VSrc) (ty : Ty) : Statement (.vshrAbcm d a b ty) := rfl
theorem vshrVx (d : BitVec 5) (a : VSrc) (b : VSrc) (ty : Ty) (mk : VMask) : Statement (.vshrVx d a b ty mk) := rfl
theorem vsel (d : BitVec 5) (a : VSrc) (b : VSrc) (c : MSrc) (ty : Ty) : Statement (.vsel d a b c ty) := rfl
theorem vselVx (d : BitVec 5) (a : VSrc) (b : VSrc) (c : MSrc) (ty : Ty) (mk : VMask) : Statement (.vselVx d a b c ty mk) := rfl
theorem vperm (d : BitVec 5) (a : VSrc) (b : VSrc) (c : VSrc) (ty : Ty) : Statement (.vperm d a b c ty) := rfl
theorem vpermVx (d : BitVec 5) (a : VSrc) (b : VSrc) (c : VSrc) (ty : Ty) (mk : VMask) : Statement (.vpermVx d a b c ty mk) := rfl
theorem vbcast (d : BitVec 5) (a : Src) (ty : Ty) : Statement (.vbcast d a ty) := rfl
theorem vbcastVx (d : BitVec 5) (a : Src) (ty : Ty) (mk : VMask) : Statement (.vbcastVx d a ty mk) := rfl
theorem vslide (d : BitVec 5) (a : VSrc) (b : VSrc) (c : Src) (ty : Ty) : Statement (.vslide d a b c ty) := rfl
theorem vslideVx (d : BitVec 5) (a : VSrc) (b : VSrc) (c : Src) (ty : Ty) (mk : VMask) : Statement (.vslideVx d a b c ty mk) := rfl
theorem vcmpr (d : BitVec 5) (a : VSrc) (b : MSrc) (ty : Ty) : Statement (.vcmpr d a b ty) := rfl
theorem vexpd (d : BitVec 5) (a : VSrc) (b : MSrc) (ty : Ty) : Statement (.vexpd d a b ty) := rfl
theorem viota (d : BitVec 5) (a : MSrc) (pfx : Bool) (ty : Ty) : Statement (.viota d a pfx ty) := rfl
theorem vlane (d : BitVec 6) (a : VSrc) (b : Src) (k : BitVec 6) (set : Bool) (ty : Ty) : Statement (.vlane d a b k set ty) := rfl
theorem vcvt (d : BitVec 5) (a : VSrc) (src : Ty) (p : BitVec 4) (rnd : Rnd) (sat : Bool) (ty : Ty) : Statement (.vcvt d a src p rnd sat ty) := rfl
theorem vcvtVx (d : BitVec 5) (a : VSrc) (src : Ty) (p : BitVec 4) (rnd : Rnd) (sat : Bool) (ty : Ty) (mk : VMask) : Statement (.vcvtVx d a src p rnd sat ty mk) := rfl
theorem vunpk (d : BitVec 5) (a : VSrc) (src : Ty) (p : BitVec 4) (rnd : Rnd) (ty : Ty) : Statement (.vunpk d a src p rnd ty) := rfl
theorem vunpkVx (d : BitVec 5) (a : VSrc) (src : Ty) (p : BitVec 4) (rnd : Rnd) (ty : Ty) (mk : VMask) : Statement (.vunpkVx d a src p rnd ty mk) := rfl
theorem vpack (d : BitVec 5) (a : VSrc) (src : Ty) (p : BitVec 4) (rnd : Rnd) (sat : Bool) (ty : Ty) : Statement (.vpack d a src p rnd sat ty) := rfl
theorem vpackVx (d : BitVec 5) (a : VSrc) (src : Ty) (p : BitVec 4) (rnd : Rnd) (sat : Bool) (ty : Ty) (mk : VMask) : Statement (.vpackVx d a src p rnd sat ty mk) := rfl
theorem vscale (d : BitVec 5) (a : VSrc) (b : Src) (k : BitVec 3) (inv : Bool) (rnd : Rnd) (ty : Ty) : Statement (.vscale d a b k inv rnd ty) := rfl
theorem vscaleVx (d : BitVec 5) (a : VSrc) (b : Src) (k : BitVec 3) (inv : Bool) (rnd : Rnd) (ty : Ty) (mk : VMask) : Statement (.vscaleVx d a b k inv rnd ty mk) := rfl
theorem vamax (d : BitVec 6) (a : VSrc) (ty : Ty) : Statement (.vamax d a ty) := rfl
theorem vamaxVx (d : BitVec 6) (a : VSrc) (ty : Ty) (mk : VMask) : Statement (.vamaxVx d a ty mk) := rfl
theorem bfly (d : BitVec 5) (a : VSrc) (b : VSrc) (c : VSrc) (rnd : Rnd) (ty : Ty) : Statement (.bfly d a b c rnd ty) := rfl
theorem bflyVx (d : BitVec 5) (a : VSrc) (b : VSrc) (c : VSrc) (rnd : Rnd) (ty : Ty) (mk : VMask) : Statement (.bflyVx d a b c rnd ty mk) := rfl
theorem twid (d : BitVec 5) (a : VSrc) (n : BitVec 5) (rnd : Rnd) (ty : Ty) : Statement (.twid d a n rnd ty) := rfl
theorem twidVx (d : BitVec 5) (a : VSrc) (n : BitVec 5) (rnd : Rnd) (ty : Ty) (mk : VMask) : Statement (.twidVx d a n rnd ty mk) := rfl
theorem cmul (d : BitVec 5) (a : VSrc) (b : VSrc) (conj : Bool) (rnd : Rnd) (ty : Ty) : Statement (.cmul d a b conj rnd ty) := rfl
theorem cmulVx (d : BitVec 5) (a : VSrc) (b : VSrc) (conj : Bool) (rnd : Rnd) (ty : Ty) (mk : VMask) : Statement (.cmulVx d a b conj rnd ty mk) := rfl
theorem vtrig (d : BitVec 5) (a : VSrc) (cos : Bool) (rnd : Rnd) (ty : Ty) : Statement (.vtrig d a cos rnd ty) := rfl
theorem vtrigVx (d : BitVec 5) (a : VSrc) (cos : Bool) (rnd : Rnd) (ty : Ty) (mk : VMask) : Statement (.vtrigVx d a cos rnd ty mk) := rfl
theorem vtanh (d : BitVec 5) (a : VSrc) (rnd : Rnd) (ty : Ty) : Statement (.vtanh d a rnd ty) := rfl
theorem vtanhVx (d : BitVec 5) (a : VSrc) (rnd : Rnd) (ty : Ty) (mk : VMask) : Statement (.vtanhVx d a rnd ty mk) := rfl
theorem mlog (d : BitVec 3) (a : MSrc) (b : MSrc) (op : MlogOp) : Statement (.mlog d a b op) := rfl
theorem mpop (d : BitVec 6) (a : Src) (op : MpopOp) : Statement (.mpop d a op) := rfl
theorem sbind (d : BitVec 6) (a : Src) : Statement (.sbind d a) := rfl
theorem sunb (d : BitVec 6) : Statement (.sunb d) := rfl
theorem sqry (d : BitVec 6) (a : Src) : Statement (.sqry d a) := rfl
theorem pour (d : BitVec 6) (a : Src) : Statement (.pour d a) := rfl
theorem bari (d : BitVec 6) (a : Src) (b : Src) (scope : Scope) : Statement (.bari d a b scope) := rfl
theorem barx (d : BitVec 6) (a : Src) (b : Src) (scope : Scope) : Statement (.barx d a b scope) := rfl
theorem barw (d : BitVec 6) (a : Src) (b : Src) (scope : Scope) : Statement (.barw d a b scope) := rfl
theorem pourq (d : BitVec 6) (a : Src) : Statement (.pourq d a) := rfl
theorem hndq (d : BitVec 6) (a : Src) : Statement (.hndq d a) := rfl
theorem pload (d : BitVec 6) (a : Src) (b : Src) (c : Src) : Statement (.pload d a b c) := rfl
theorem pswap : Statement (.pswap) := rfl
theorem prun (d : BitVec 6) (a : Src) (b : Src) (c : Src) : Statement (.prun d a b c) := rfl
theorem paccReg (d : BitVec 5) (a : Src) : Statement (.paccReg d a) := rfl
theorem paccMem (a : Src) (b : Src) (src : Ty) (rnd : Rnd) (sat : Bool) (ty : Ty) : Statement (.paccMem a b src rnd sat ty) := rfl
theorem ptest (d : BitVec 6) : Statement (.ptest d) := rfl
theorem ptestStamp (d : BitVec 6) (a : Src) : Statement (.ptestStamp d a) := rfl
theorem pqry (d : BitVec 6) : Statement (.pqry d) := rfl
theorem gsort (d : BitVec 6) (a : Src) (b : Src) (c : Src) : Statement (.gsort d a b c) := rfl
theorem gqry (d : BitVec 6) : Statement (.gqry d) := rfl
theorem send (a : Src) (b : Src) : Statement (.send a b) := rfl
theorem sendm (a : Src) (b : Src) : Statement (.sendm a b) := rfl
theorem spawn (d : BitVec 6) (a : Src) (b : Src) (scope : Scope) : Statement (.spawn d a b scope) := rfl
theorem launch (a : Src) : Statement (.launch a) := rfl
theorem stealc (d : BitVec 6) (which : BitVec 3) (clr : Bool) : Statement (.stealc d which clr) := rfl
theorem ltcfg (d : BitVec 6) (a : Src) : Statement (.ltcfg d a) := rfl
theorem ltlink (out : Bool) (slot : BitVec 4) (a : Src) (b : Src) : Statement (.ltlink out slot a b) := rfl
theorem ltsend (slot : BitVec 4) (a : Src) (b : Src) (c : Src) : Statement (.ltsend slot a b c) := rfl
theorem ltclk (d : BitVec 6) : Statement (.ltclk d) := rfl
theorem ltdrip (all : Bool) (slot : BitVec 4) (a : Src) : Statement (.ltdrip all slot a) := rfl
theorem ltqry (d : BitVec 6) (a : Src) : Statement (.ltqry d a) := rfl
theorem gang (d : BitVec 6) (a : Src) (size : BitVec 2) : Statement (.gang d a size) := rfl
theorem disb : Statement (.disb) := rfl
theorem coll (d : BitVec 6) (a : Src) : Statement (.coll d a) := rfl
theorem collw (d : BitVec 6) (a : Src) : Statement (.collw d a) := rfl
theorem getc (d : BitVec 6) (w : Cw) : Statement (.getc d w) := rfl
theorem setc (w : Cw) (a : Src) : Statement (.setc w a) := rfl
theorem time (d : BitVec 6) : Statement (.time d) := rfl
theorem cyc (d : BitVec 6) : Statement (.cyc d) := rfl
theorem eret (skip : Bool) : Statement (.eret skip) := rfl
theorem bkpt (code : BitVec 6) : Statement (.bkpt code) := rfl
theorem trace (a : Src) (tag : BitVec 24) : Statement (.trace a tag) := rfl
theorem enrg (d : BitVec 6) : Statement (.enrg d) := rfl
theorem illop (enc : W64) : Statement (.illop enc) := rfl
theorem sequentialFlowBadtgt (core : Nat) : Statement (.sequentialFlowBadtgt core) := rfl
theorem releaseEntries (core : Nat) : Statement (.releaseEntries core) := rfl
theorem landEntry (k : Nat) : Statement (.landEntry k) := rfl
theorem entryAck (k : Nat) : Statement (.entryAck k) := rfl
theorem commit (core : Nat) : Statement (.commit core) := rfl
theorem commitNoticeServe (k : Nat) : Statement (.commitNoticeServe k) := rfl
theorem commitComplete (core : Nat) : Statement (.commitComplete core) := rfl
theorem abortNoticeServe (k : Nat) : Statement (.abortNoticeServe k) := rfl
theorem requestServe (k : Nat) : Statement (.requestServe k) := rfl
theorem replyArrival (k : Nat) : Statement (.replyArrival k) := rfl
theorem resultDelivery (core : Nat) (k : Nat) : Statement (.resultDelivery core k) := rfl
theorem pageWalk (core : Nat) (va : W64) : Statement (.pageWalk core va) := rfl
theorem retransmitTimeout (k : Nat) : Statement (.retransmitTimeout k) := rfl
theorem strike (cluster : Nat) (region : Nat) : Statement (.strike cluster region) := rfl
theorem strikeReport (k : Nat) : Statement (.strikeReport k) := rfl
theorem budgetExhausted (core : Nat) : Statement (.budgetExhausted core) := rfl
theorem dispatch (core : Nat) : Statement (.dispatch core) := rfl
theorem stealAttempt (core : Nat) (victim : Nat) : Statement (.stealAttempt core victim) := rfl
theorem stealWaitExpiry (core : Nat) : Statement (.stealWaitExpiry core) := rfl
theorem park (core : Nat) : Statement (.park core) := rfl
theorem watchReady (core : Nat) (slot : Nat) : Statement (.watchReady core slot) := rfl
theorem waitmRetest (core : Nat) : Statement (.waitmRetest core) := rfl
theorem trapHandlerDispatch (core : Nat) : Statement (.trapHandlerDispatch core) := rfl
theorem trapRingResume (core : Nat) : Statement (.trapRingResume core) := rfl
theorem ploadExecute (core : Nat) : Statement (.ploadExecute core) := rfl
theorem pswapExecute (core : Nat) : Statement (.pswapExecute core) := rfl
theorem prunFinish (core : Nat) : Statement (.prunFinish core) := rfl
theorem ptestFinish (core : Nat) : Statement (.ptestFinish core) := rfl
theorem grinderSliceFinish (core : Nat) : Statement (.grinderSliceFinish core) := rfl
theorem engineCompletion (core : Nat) (seq : Nat) : Statement (.engineCompletion core seq) := rfl
theorem enginePreimageFree (core : Nat) (seq : Nat) : Statement (.enginePreimageFree core seq) := rfl
theorem pourStart (cluster : Nat) (ch : Nat) : Statement (.pourStart cluster ch) := rfl
theorem pourFlitLand (cluster : Nat) (ch : Nat) (f : TileFlit) : Statement (.pourFlitLand cluster ch f) := rfl
theorem pourReceiverCompletion (cluster : Nat) (ch : Nat) (recv : Nat) : Statement (.pourReceiverCompletion cluster ch recv) := rfl
theorem streamFill (core : Nat) (code : Nat) : Statement (.streamFill core code) := rfl
theorem gangForm (core : Nat) : Statement (.gangForm core) := rfl
theorem gangWaitTimeout (core : Nat) : Statement (.gangWaitTimeout core) := rfl
theorem dripLand (k : Nat) : Statement (.dripLand k) := rfl
theorem idleAdvance (core : Nat) : Statement (.idleAdvance core) := rfl
theorem idleDripPeriod (core : Nat) : Statement (.idleDripPeriod core) := rfl
theorem releaseMark (core : Nat) : Statement (.releaseMark core) := rfl
theorem waveStart (ctx : Nat) (lnch : Nat) : Statement (.waveStart ctx lnch) := rfl
theorem waveCombine (ctx : Nat) (lnch : Nat) : Statement (.waveCombine ctx lnch) := rfl
theorem doneBlockWrite (ctx : Nat) (lnch : Nat) : Statement (.doneBlockWrite ctx lnch) := rfl
theorem taskRecordPush (ctx : Nat) (lnch : Nat) : Statement (.taskRecordPush ctx lnch) := rfl
theorem leaseDrained (cluster : Nat) (row : Nat) : Statement (.leaseDrained cluster row) := rfl
theorem leaseLoaded (cluster : Nat) (row : Nat) : Statement (.leaseLoaded cluster row) := rfl
theorem scrub (what : ScrubTarget) (err : ScrubFinding) : Statement (.scrub what err) := rfl
theorem flitReceive (port : Nat) (f : Machine.FlitIn) : Statement (.flitReceive port f) := rfl
theorem linkReplay (port : Nat) (first : BitVec 12) : Statement (.linkReplay port first) := rfl
theorem portTrain (port : Nat) (pkg : BitVec 8) (nport : BitVec 4) : Statement (.portTrain port pkg nport) := rfl
theorem timeExchange (t1 : Nat) (t2 : Nat) (t3 : Nat) (t4 : Nat) : Statement (.timeExchange t1 t2 t3 t4) := rfl
theorem collContribute (core : Nat) (seq : Nat) : Statement (.collContribute core seq) := rfl
theorem collCombine (core : Nat) (seq : Nat) : Statement (.collCombine core seq) := rfl
theorem collResultLand (core : Nat) (seq : Nat) : Statement (.collResultLand core seq) := rfl
theorem collOutputExpiry (core : Nat) (seq : Nat) : Statement (.collOutputExpiry core seq) := rfl
theorem config (ch : Nat) : Statement (.config ch) := rfl
theorem loadsh (ch : Nat) : Statement (.loadsh ch) := rfl
theorem spillsh (ch : Nat) : Statement (.spillsh ch) := rfl
theorem swap (ch : Nat) : Statement (.swap ch) := rfl
theorem swapSettle (ctx : Nat) : Statement (.swapSettle ctx) := rfl
theorem swapEnter (ctx : Nat) : Statement (.swapEnter ctx) := rfl
theorem rowReloadDone (cluster : Nat) (row : Nat) : Statement (.rowReloadDone cluster row) := rfl
theorem halt (ch : Nat) : Statement (.halt ch) := rfl
theorem haltRecordWrite (core : Nat) : Statement (.haltRecordWrite core) := rfl
theorem resume (ch : Nat) : Statement (.resume ch) := rfl
theorem step (ch : Nat) : Statement (.step ch) := rfl
theorem stepDone (core : Nat) : Statement (.stepDone core) := rfl
theorem kill (ch : Nat) : Statement (.kill ch) := rfl
theorem revoke (ch : Nat) : Statement (.revoke ch) := rfl
theorem revokeDone (ch : Nat) : Statement (.revokeDone ch) := rfl
theorem free (ch : Nat) : Statement (.free ch) := rfl
theorem unknownOpcode (ch : Nat) : Statement (.unknownOpcode ch) := rfl
theorem grun (ch : Nat) : Statement (.grun ch) := rfl
theorem gstop (ch : Nat) : Statement (.gstop ch) := rfl
theorem tagset (ch : Nat) : Statement (.tagset ch) := rfl
theorem tlbinv (ch : Nat) : Statement (.tlbinv ch) := rfl
theorem power (ch : Nat) : Statement (.power ch) := rfl
theorem graphLaunchNode (die : Nat) (slot : Nat) : Statement (.graphLaunchNode die slot) := rfl
theorem graphCopyNode (die : Nat) (slot : Nat) : Statement (.graphCopyNode die slot) := rfl
theorem graphWaitNode (die : Nat) (slot : Nat) : Statement (.graphWaitNode die slot) := rfl
theorem graphWaitTimeout (die : Nat) (slot : Nat) : Statement (.graphWaitTimeout die slot) := rfl
theorem graphCondNode (die : Nat) (slot : Nat) : Statement (.graphCondNode die slot) := rfl
theorem graphNotifyNode (die : Nat) (slot : Nat) : Statement (.graphNotifyNode die slot) := rfl
theorem graphSignalNode (die : Nat) (slot : Nat) : Statement (.graphSignalNode die slot) := rfl
theorem graphEndNode (die : Nat) (slot : Nat) : Statement (.graphEndNode die slot) := rfl
theorem graphNodeDone (die : Nat) (slot : Nat) : Statement (.graphNodeDone die slot) := rfl
theorem ringConsReread (j : Nat) : Statement (.ringConsReread j) := rfl
theorem ringInterruptTimer (j : Nat) : Statement (.ringInterruptTimer j) := rfl
theorem bar2Read (off : Nat) (n : Nat) : Statement (.bar2Read off n) := rfl
theorem bar2Write (req : Nat) (off : Nat) (data : List Byte) : Statement (.bar2Write req off data) := rfl
theorem bar2WriteRelease (req : Nat) : Statement (.bar2WriteRelease req) := rfl
theorem controlRegisterWrite (off : Nat) (value : W64) : Statement (.controlRegisterWrite off value) := rfl
theorem eflgClear (ctx : Nat) (value : W64) : Statement (.eflgClear ctx value) := rfl
theorem mismatchCountClear (uncorr : Bool) : Statement (.mismatchCountClear uncorr) := rfl
theorem portCountClear (port : Nat) (downs : Bool) : Statement (.portCountClear port downs) := rfl
theorem debugRead (core : Nat) (what : DebugTarget) (committed : Bool) : Statement (.debugRead core what committed) := rfl
theorem debugWrite (core : Nat) (off : Nat) (data : List Byte) : Statement (.debugWrite core off data) := rfl
theorem thermalTrip : Statement (.thermalTrip) := rfl
theorem conventionalReset : Statement (.conventionalReset) := rfl
theorem selfTestDone (fn : Nat) (pass : Bool) : Statement (.selfTestDone fn pass) := rfl
theorem firmwareVerify (image : Nat) (version : Nat) : Statement (.firmwareVerify image version) := rfl
theorem getVersion (req : Nat) : Statement (.getVersion req) := rfl
theorem getCapabilities (req : Nat) : Statement (.getCapabilities req) := rfl
theorem negotiateAlgorithms (req : Nat) : Statement (.negotiateAlgorithms req) := rfl
theorem getDigests (req : Nat) : Statement (.getDigests req) := rfl
theorem getCertificate (req : Nat) : Statement (.getCertificate req) := rfl
theorem challenge (req : Nat) : Statement (.challenge req) := rfl
theorem getMeasurements (req : Nat) : Statement (.getMeasurements req) := rfl
theorem commandCompletion (ch : Nat) : Statement (.commandCompletion ch) := rfl

end Sys2Proof.Laws.Coded
end

