-- ==== Sys2Proof/Tests/Slice0.lean ====
section
/-! SUPPORT. The model's own tests. Words and their instructions are written out from the layouts of spec/04 and of the chapter of each
instruction; expected results are from the spec's worked examples or worked by hand from its rules. A theorem witness_<Name> shows concrete
states and operands that meet the hypotheses of Obligations.<Name>, clause by clause. -/

open Sys2Proof Sys2Proof.Machine Sys2Proof.Safety

namespace Sys2Proof.Tests

set_option Elab.async false

/-! ### The state of the tests -/

/-- A core that runs, with 5 in every s register, 64 bytes of 0x11 in every v register and the mask 0b101 in every m register. -/
def c0 : Core :=
  { Core.reset with
    running := true
    regs := ⟨Vector.replicate 64 (.full 5), Vector.replicate 32 (.full (BitVec.ofNat 512 (natOf (List.replicate 64 0x11)))), Vector.replicate 8 (.full 5)⟩ }

def s0 : State := { State.reset with me := c0 }

def a2 : Src := ⟨false, false, 2⟩
def a3 : Src := ⟨true, false, 3⟩
def a4 : Src := ⟨false, true, 4⟩
def v2 : VSrc := ⟨false, false, 2⟩
def v3 : VSrc := ⟨true, false, 3⟩
def v4 : VSrc := ⟨false, true, 4⟩
def m2 : MSrc := ⟨true, false, 2⟩

/-- The core of the tests with x in register d. -/
def withS (d : BitVec 6) (x : W64) : State := { s0 with me := c0.setS d (.full x) }

/-! ### Words (spec/04 R83 to R105)

The words of each row of the opcode map, by the layout of each instruction, in the order of R101: head, then tail byte 0. -/

theorem test_words_row_0 : ∀ p ∈ ([(0x100, .nop),
     (0x2ABC0280, .jmp 10940),
     (0xA10340, .jmpr ⟨true, false, 33⟩),
     (0x2ABC0480, .call 10940),
     (0xA10540, .callr ⟨true, false, 33⟩),
     (0xA10640, .ret ⟨true, false, 33⟩),
     (0x2ABC9FA108C2, .bri .lt ⟨true, false, 33⟩ 0x9F 10940),
     (0x2ABC51A107C3, .br .ge ⟨true, false, 33⟩ ⟨false, true, 17⟩ 10940),
     (0x2ABC9FA108C4, .bri .ltn ⟨true, false, 33⟩ 0x9F 10940),
     (0x2ABC51A107C5, .br .gen ⟨true, false, 33⟩ ⟨false, true, 17⟩ 10940),
     (0x2ABC098A, .bst ⟨2, true⟩ 10940),
     (0x2ABC00A10AE8, .loop 40 ⟨true, false, 33⟩ 10940),
     (0xB00, .endAct),
     (0xC00, .phase),
     (0xD00, .yield),
     (0xA10E40, .migr ⟨true, false, 33⟩),
     (0xF3F, .trap 63),
     (0xA10F69, .trapReg 41 ⟨true, false, 33⟩)] : List (W64 × Instr)), decode (Raw.ofEnc p.1) = .instr p.2 := by decide +kernel

theorem test_words_row_1 : ∀ p ∈ ([(0x51A11068, .add 40 ⟨true, false, 33⟩ ⟨false, true, 17⟩),
     (0x51A11095, .addAbcm 21 ⟨true, false, 33⟩ ⟨false, true, 17⟩ .i64),
     (0x51A11168, .sub 40 ⟨true, false, 33⟩ ⟨false, true, 17⟩),
     (0x10051A11195, .subAbcm 21 ⟨true, false, 33⟩ ⟨false, true, 17⟩ .i32),
     (0x51A11268, .mul 40 ⟨true, false, 33⟩ ⟨false, true, 17⟩),
     (0x20051A11295, .mulAbcm 21 ⟨true, false, 33⟩ ⟨false, true, 17⟩ .i16),
     (0x51A11368, .mulh 40 ⟨true, false, 33⟩ ⟨false, true, 17⟩),
     (0x30051A11395, .mulhAbcm 21 ⟨true, false, 33⟩ ⟨false, true, 17⟩ .i8),
     (0x51A11468, .div 40 ⟨true, false, 33⟩ ⟨false, true, 17⟩),
     (0x40051A11495, .divAbcm 21 ⟨true, false, 33⟩ ⟨false, true, 17⟩ .n64),
     (0x51A11568, .rem 40 ⟨true, false, 33⟩ ⟨false, true, 17⟩),
     (0x50051A11595, .remAbcm 21 ⟨true, false, 33⟩ ⟨false, true, 17⟩ .n32),
     (0x51A11668, .and 40 ⟨true, false, 33⟩ ⟨false, true, 17⟩),
     (0x60051A11695, .andAbcm 21 ⟨true, false, 33⟩ ⟨false, true, 17⟩ .n16),
     (0x51A11768, .or 40 ⟨true, false, 33⟩ ⟨false, true, 17⟩),
     (0x70051A11795, .orAbcm 21 ⟨true, false, 33⟩ ⟨false, true, 17⟩ .n8),
     (0x51A11868, .xor 40 ⟨true, false, 33⟩ ⟨false, true, 17⟩),
     (0x51A11895, .xorAbcm 21 ⟨true, false, 33⟩ ⟨false, true, 17⟩ .i64),
     (0x51A11968, .shl 40 ⟨true, false, 33⟩ ⟨false, true, 17⟩),
     (0x10051A11995, .shlAbcm 21 ⟨true, false, 33⟩ ⟨false, true, 17⟩ .i32),
     (0x51A11A68, .shr 40 ⟨true, false, 33⟩ ⟨false, true, 17⟩),
     (0x20051A11A95, .shrAbcm 21 ⟨true, false, 33⟩ ⟨false, true, 17⟩ .i16),
     (0x51A11B68, .rot 40 ⟨true, false, 33⟩ ⟨false, true, 17⟩),
     (0x30051A11B95, .rotAbcm 21 ⟨true, false, 33⟩ ⟨false, true, 17⟩ .i8),
     (0x51A11C68, .min 40 ⟨true, false, 33⟩ ⟨false, true, 17⟩),
     (0x40051A11C95, .minAbcm 21 ⟨true, false, 33⟩ ⟨false, true, 17⟩ .n64),
     (0x51A11D68, .max 40 ⟨true, false, 33⟩ ⟨false, true, 17⟩),
     (0x50051A11D95, .maxAbcm 21 ⟨true, false, 33⟩ ⟨false, true, 17⟩ .n32),
     (0x51A11E68, .slt 40 ⟨true, false, 33⟩ ⟨false, true, 17⟩),
     (0x60051A11E95, .sltAbcm 21 ⟨true, false, 33⟩ ⟨false, true, 17⟩ .n16),
     (0xFE51A11FA8, .sel 40 ⟨true, false, 33⟩ ⟨false, true, 17⟩ ⟨true, true, 62⟩)] : List (W64 × Instr)), decode (Raw.ofEnc p.1) = .instr p.2 := by decide +kernel

theorem test_words_row_2 : ∀ p ∈ ([(0xFEDCBAA120A8, .addi 40 ⟨true, false, 33⟩ 0xFEDCBA),
     (0x89ABCDEF00A120E8, .addiAbi32 40 ⟨true, false, 33⟩ 0x89ABCDEF),
     (0xFEDCBAA121A8, .andi 40 ⟨true, false, 33⟩ 0xFEDCBA),
     (0x89ABCDEF00A121E8, .andiAbi32 40 ⟨true, false, 33⟩ 0x89ABCDEF),
     (0xFEDCBAA122A8, .ori 40 ⟨true, false, 33⟩ 0xFEDCBA),
     (0x89ABCDEF00A122E8, .oriAbi32 40 ⟨true, false, 33⟩ 0x89ABCDEF),
     (0xFEDCBAA123A8, .xori 40 ⟨true, false, 33⟩ 0xFEDCBA),
     (0x89ABCDEF00A123E8, .xoriAbi32 40 ⟨true, false, 33⟩ 0x89ABCDEF),
     (0xFEDCBAA127A8, .muli 40 ⟨true, false, 33⟩ 0xFEDCBA),
     (0x89ABCDEF00A127E8, .muliAbi32 40 ⟨true, false, 33⟩ 0x89ABCDEF),
     (0x308A248A, .shli 10 ⟨true, false, 10⟩ 48 .i64),
     (0x404832583, .shri 3 ⟨true, false, 3⟩ 4 .n64),
     (0x89ABCDEF26A8, .li 40 0x89ABCDEF),
     (0x876543210FED26E8, .liI48 40 0x876543210FED),
     (0xA12868, .clz 40 ⟨true, false, 33⟩),
     (0x70000A128A8, .clzAbcm 40 ⟨true, false, 33⟩ .n8),
     (0xA12968, .ctz 40 ⟨true, false, 33⟩),
     (0x20000A129A8, .ctzAbcm 40 ⟨true, false, 33⟩ .i16),
     (0xA12A68, .popc 40 ⟨true, false, 33⟩),
     (0x50000A12AA8, .popcAbcm 40 ⟨true, false, 33⟩ .n32),
     (0xA12E68, .abs 40 ⟨true, false, 33⟩),
     (0x30000A12EA8, .absAbcm 40 ⟨true, false, 33⟩ .i8),
     (0x1340AA12BA8, .bfx 40 ⟨true, false, 33⟩ 10 52 true),
     (0x3F51A12CE8, .bfi 40 ⟨true, false, 33⟩ ⟨false, true, 17⟩ 63 0),
     (0x1032D89, .wfld 9 ⟨false, false, 3⟩ 1)] : List (W64 × Instr)), decode (Raw.ofEnc p.1) = .instr p.2 := by decide +kernel

theorem test_words_row_3 : ∀ p ∈ ([(0x910051A130A8, .fadd 40 ⟨true, false, 33⟩ ⟨false, true, 17⟩ .rup .f32),
     (0x910051A131A8, .fsub 40 ⟨true, false, 33⟩ ⟨false, true, 17⟩ .rup .f32),
     (0x910051A132A8, .fmul 40 ⟨true, false, 33⟩ ⟨false, true, 17⟩ .rup .f32),
     (0x910051A134A8, .fdiv 40 ⟨true, false, 33⟩ ⟨false, true, 17⟩ .rup .f32),
     (0xD2FE51A133A8, .ffma 40 ⟨true, false, 33⟩ ⟨false, true, 17⟩ ⟨true, true, 62⟩ .rdn .bf16),
     (0x500000A135A8, .fsqrt 40 ⟨true, false, 33⟩ .rtz .f64),
     (0x110051A136A8, .fmin 40 ⟨true, false, 33⟩ ⟨false, true, 17⟩ .f32),
     (0x110051A137A8, .fmax 40 ⟨true, false, 33⟩ ⟨false, true, 17⟩ .f32),
     (0x100451A138A8, .fcmp 40 ⟨true, false, 33⟩ ⟨false, true, 17⟩ .un .f64),
     (0x340011A139A8, .fcvt 40 ⟨true, false, 33⟩ .f32 .rne true .e4m3),
     (0x120000A13AA8, .fclass 40 ⟨true, false, 33⟩ .bf16),
     (0x110251A13BA8, .fsgn 40 ⟨true, false, 33⟩ ⟨false, true, 17⟩ .xor .f32),
     (0xD10100A13CA8, .frnd 40 ⟨true, false, 33⟩ true .rdn .f32)] : List (W64 × Instr)), decode (Raw.ofEnc p.1) = .instr p.2 := by decide +kernel

theorem test_words_row_4 : ∀ p ∈ ([(0x89ABCDEF06A140E8, .ld 40 ⟨true, false, 33⟩ .n16 0x89ABCDEF),
     (0x89ABCDEF51A141D3, .st .f16 ⟨true, false, 33⟩ ⟨false, true, 17⟩ 0x89ABCDEF),
     (0x3DFEDCBA12A142C9, .ldv 9 ⟨true, false, 33⟩ .bf16 0xFEDCBA ⟨true, true, true, 5⟩),
     (0x22000040891443D1, .stv .f32 ⟨false, false, 20⟩ ⟨true, false, 9⟩ 0x40 ⟨true, false, false, 2⟩),
     (0x710000A144A8, .lds 40 ⟨true, false, 33⟩ .package .f32),
     (0x870051A14580, .sts ⟨true, false, 33⟩ ⟨false, true, 17⟩ .domain .n8),
     (0x100051A146A8, .aadd 40 ⟨true, false, 33⟩ ⟨false, true, 17⟩ .core .f64),
     (0x210151A147A8, .amnx 40 ⟨true, false, 33⟩ ⟨false, true, 17⟩ true .cluster .i32),
     (0x510351A148A8, .alog 40 ⟨true, false, 33⟩ ⟨false, true, 17⟩ .lse .die .f32),
     (0x460051A149A8, .aswp 40 ⟨true, false, 33⟩ ⟨false, true, 17⟩ .die .n16),
     (0x450C0B144A8A, .acas 10 ⟨false, false, 20⟩ ⟨false, false, 11⟩ ⟨false, false, 12⟩ .die .n32),
     (0x200390944B91, .waitm 17 ⟨true, false, 20⟩ ⟨true, false, 16⟩ .ge .cluster .i64),
     (0x4C00, .loopf),
     (0x5005EA14D89, .gath 9 ⟨true, false, 33⟩ ⟨false, true, 30⟩ .n32),
     (0x3D05005EA14DC9, .gathVx 9 ⟨true, false, 33⟩ ⟨false, true, 30⟩ .n32 ⟨true, true, true, 5⟩),
     (0x3025EA14E80, .scat ⟨true, false, 33⟩ ⟨false, true, 30⟩ ⟨false, false, 2⟩ .i8),
     (0x2603025EA14EC0, .scatVx ⟨true, false, 33⟩ ⟨false, true, 30⟩ ⟨false, false, 2⟩ .i8 ⟨true, false, false, 6⟩)] : List (W64 × Instr)), decode (Raw.ofEnc p.1) = .instr p.2 := by decide +kernel

theorem test_words_row_5 : ∀ p ∈ ([(0x51A15068, .bcfg 40 ⟨true, false, 33⟩ ⟨false, true, 17⟩),
     (0xA15168, .bqry 40 ⟨true, false, 33⟩),
     (0x51A15368, .bheap 40 ⟨true, false, 33⟩ ⟨false, true, 17⟩),
     (0xA15468, .bspan 40 ⟨true, false, 33⟩),
     (0xA15568, .bclr 40 ⟨true, false, 33⟩),
     (0x2091552CC, .xch 12 ⟨false, false, 21⟩ ⟨false, false, 9⟩ .deckey)] : List (W64 × Instr)), decode (Raw.ofEnc p.1) = .instr p.2 := by decide +kernel

theorem test_words_row_6 : ∀ p ∈ ([(0x90005E896087, .vadd 7 ⟨true, false, 9⟩ ⟨false, true, 30⟩ .rup .f64),
     (0x3D90005E8960C7, .vaddVx 7 ⟨true, false, 9⟩ ⟨false, true, 30⟩ .rup .f64 ⟨true, true, true, 5⟩),
     (0x90005E896187, .vsub 7 ⟨true, false, 9⟩ ⟨false, true, 30⟩ .rup .f64),
     (0x3D90005E8961C7, .vsubVx 7 ⟨true, false, 9⟩ ⟨false, true, 30⟩ .rup .f64 ⟨true, true, true, 5⟩),
     (0x90005E896287, .vmul 7 ⟨true, false, 9⟩ ⟨false, true, 30⟩ .rup .f64),
     (0x3D90005E8962C7, .vmulVx 7 ⟨true, false, 9⟩ ⟨false, true, 30⟩ .rup .f64 ⟨true, true, true, 5⟩),
     (0x90005E896487, .vdiv 7 ⟨true, false, 9⟩ ⟨false, true, 30⟩ .rup .f64),
     (0x3D90005E8964C7, .vdivVx 7 ⟨true, false, 9⟩ ⟨false, true, 30⟩ .rup .f64 ⟨true, true, true, 5⟩),
     (0xD2025E896387, .vfma 7 ⟨true, false, 9⟩ ⟨false, true, 30⟩ ⟨false, false, 2⟩ .rdn .bf16),
     (0x3DD2025E8963C7, .vfmaVx 7 ⟨true, false, 9⟩ ⟨false, true, 30⟩ ⟨false, false, 2⟩ .rdn .bf16 ⟨true, true, true, 5⟩),
     (0x510000896587, .vsqrt 7 ⟨true, false, 9⟩ .rtz .f32),
     (0x3D5100008965C7, .vsqrtVx 7 ⟨true, false, 9⟩ .rtz .f32 ⟨true, true, true, 5⟩),
     (0x510000896C87, .vexp2 7 ⟨true, false, 9⟩ .rtz .f32),
     (0x3D510000896CC7, .vexp2Vx 7 ⟨true, false, 9⟩ .rtz .f32 ⟨true, true, true, 5⟩),
     (0x510000896D87, .vlog2 7 ⟨true, false, 9⟩ .rtz .f32),
     (0x3D510000896DC7, .vlog2Vx 7 ⟨true, false, 9⟩ .rtz .f32 ⟨true, true, true, 5⟩),
     (0x510000896E87, .vrcp 7 ⟨true, false, 9⟩ .rtz .f32),
     (0x3D510000896EC7, .vrcpVx 7 ⟨true, false, 9⟩ .rtz .f32 ⟨true, true, true, 5⟩),
     (0x510000896F87, .vrsq 7 ⟨true, false, 9⟩ .rtz .f32),
     (0x3D510000896FC7, .vrsqVx 7 ⟨true, false, 9⟩ .rtz .f32 ⟨true, true, true, 5⟩),
     (0x12005E896687, .vmin 7 ⟨true, false, 9⟩ ⟨false, true, 30⟩ .bf16),
     (0x3D12005E8966C7, .vminVx 7 ⟨true, false, 9⟩ ⟨false, true, 30⟩ .bf16 ⟨true, true, true, 5⟩),
     (0x12005E896787, .vmax 7 ⟨true, false, 9⟩ ⟨false, true, 30⟩ .bf16),
     (0x3D12005E8967C7, .vmaxVx 7 ⟨true, false, 9⟩ ⟨false, true, 30⟩ .bf16 ⟨true, true, true, 5⟩),
     (0x6025E896886, .vcmp 6 ⟨true, false, 9⟩ ⟨false, true, 30⟩ .lt .n16),
     (0x3D06025E8968C6, .vcmpVx 6 ⟨true, false, 9⟩ ⟨false, true, 30⟩ .lt .n16 ⟨true, true, true, 5⟩),
     (0x11015E896987, .vsgn 7 ⟨true, false, 9⟩ ⟨false, true, 30⟩ .neg .f32),
     (0x3D11015E8969C7, .vsgnVx 7 ⟨true, false, 9⟩ ⟨false, true, 30⟩ .neg .f32 ⟨true, true, true, 5⟩),
     (0x10006896A87, .vred 7 ⟨true, false, 9⟩ .maxl .rne .i32),
     (0x2B010006896AC7, .vredVx 7 ⟨true, false, 9⟩ .maxl .rne .i32 ⟨true, false, true, 3⟩),
     (0x10004896B87, .vscan 7 ⟨true, false, 9⟩ .addl .rne .i32),
     (0x2B010004896BC7, .vscanVx 7 ⟨true, false, 9⟩ .addl .rne .i32 ⟨true, false, true, 3⟩)] : List (W64 × Instr)), decode (Raw.ofEnc p.1) = .instr p.2 := by decide +kernel

theorem test_words_row_7 : ∀ p ∈ ([(0x5E897047, .viadd 7 ⟨true, false, 9⟩ ⟨false, true, 30⟩),
     (0x1005E897087, .viaddAbcm 7 ⟨true, false, 9⟩ ⟨false, true, 30⟩ .i32),
     (0x3D01005E8970C7, .viaddVx 7 ⟨true, false, 9⟩ ⟨false, true, 30⟩ .i32 ⟨true, true, true, 5⟩),
     (0x5E897147, .visub 7 ⟨true, false, 9⟩ ⟨false, true, 30⟩),
     (0x4005E897187, .visubAbcm 7 ⟨true, false, 9⟩ ⟨false, true, 30⟩ .n64),
     (0x3D04005E8971C7, .visubVx 7 ⟨true, false, 9⟩ ⟨false, true, 30⟩ .n64 ⟨true, true, true, 5⟩),
     (0x5E897247, .vimul 7 ⟨true, false, 9⟩ ⟨false, true, 30⟩),
     (0x7005E897287, .vimulAbcm 7 ⟨true, false, 9⟩ ⟨false, true, 30⟩ .n8),
     (0x3D07005E8972C7, .vimulVx 7 ⟨true, false, 9⟩ ⟨false, true, 30⟩ .n8 ⟨true, true, true, 5⟩),
     (0x5E897347, .vand 7 ⟨true, false, 9⟩ ⟨false, true, 30⟩),
     (0x2005E897387, .vandAbcm 7 ⟨true, false, 9⟩ ⟨false, true, 30⟩ .i16),
     (0x3D02005E8973C7, .vandVx 7 ⟨true, false, 9⟩ ⟨false, true, 30⟩ .i16 ⟨true, true, true, 5⟩),
     (0x5E897447, .vor 7 ⟨true, false, 9⟩ ⟨false, true, 30⟩),
     (0x5005E897487, .vorAbcm 7 ⟨true, false, 9⟩ ⟨false, true, 30⟩ .n32),
     (0x3D05005E8974C7, .vorVx 7 ⟨true, false, 9⟩ ⟨false, true, 30⟩ .n32 ⟨true, true, true, 5⟩),
     (0x5E897547, .vxor 7 ⟨true, false, 9⟩ ⟨false, true, 30⟩),
     (0x5E897587, .vxorAbcm 7 ⟨true, false, 9⟩ ⟨false, true, 30⟩ .i64),
     (0x3D00005E8975C7, .vxorVx 7 ⟨true, false, 9⟩ ⟨false, true, 30⟩ .i64 ⟨true, true, true, 5⟩),
     (0x5E897647, .vshl 7 ⟨true, false, 9⟩ ⟨false, true, 30⟩),
     (0x3005E897687, .vshlAbcm 7 ⟨true, false, 9⟩ ⟨false, true, 30⟩ .i8),
     (0x3D03005E8976C7, .vshlVx 7 ⟨true, false, 9⟩ ⟨false, true, 30⟩ .i8 ⟨true, true, true, 5⟩),
     (0x5E897747, .vshr 7 ⟨true, false, 9⟩ ⟨false, true, 30⟩),
     (0x6005E897787, .vshrAbcm 7 ⟨true, false, 9⟩ ⟨false, true, 30⟩ .n16),
     (0x3D06005E8977C7, .vshrVx 7 ⟨true, false, 9⟩ ⟨false, true, 30⟩ .n16 ⟨true, true, true, 5⟩),
     (0x13855E897887, .vsel 7 ⟨true, false, 9⟩ ⟨false, true, 30⟩ ⟨true, false, 5⟩ .f16),
     (0x3D13855E8978C7, .vselVx 7 ⟨true, false, 9⟩ ⟨false, true, 30⟩ ⟨true, false, 5⟩ .f16 ⟨true, true, true, 5⟩),
     (0x7025E897987, .vperm 7 ⟨true, false, 9⟩ ⟨false, true, 30⟩ ⟨false, false, 2⟩ .n8),
     (0x3D07025E8979C7, .vpermVx 7 ⟨true, false, 9⟩ ⟨false, true, 30⟩ ⟨false, false, 2⟩ .n8 ⟨true, true, true, 5⟩),
     (0x110000A17A87, .vbcast 7 ⟨true, false, 33⟩ .f32),
     (0x3D110000A17AC7, .vbcastVx 7 ⟨true, false, 33⟩ .f32 ⟨true, true, true, 5⟩),
     (0x2FE5E897B87, .vslide 7 ⟨true, false, 9⟩ ⟨false, true, 30⟩ ⟨true, true, 62⟩ .i16),
     (0x3D02FE5E897BC7, .vslideVx 7 ⟨true, false, 9⟩ ⟨false, true, 30⟩ ⟨true, true, 62⟩ .i16 ⟨true, true, true, 5⟩),
     (0x10085897C87, .vcmpr 7 ⟨true, false, 9⟩ ⟨true, false, 5⟩ .i32),
     (0x100043897D87, .vexpd 7 ⟨true, false, 9⟩ ⟨false, true, 3⟩ .f64),
     (0x50100857E87, .viota 7 ⟨true, false, 5⟩ true .n32),
     (0x48751897F9B, .vlane 27 ⟨true, false, 9⟩ ⟨false, true, 17⟩ 7 true .n64)] : List (W64 × Instr)), decode (Raw.ofEnc p.1) = .instr p.2 := by decide +kernel

theorem test_words_row_8 : ∀ p ∈ ([(0x510000898987, .vtanh 7 ⟨true, false, 9⟩ .rtz .f32),
     (0x3D5100008989C7, .vtanhVx 7 ⟨true, false, 9⟩ .rtz .f32 ⟨true, true, true, 5⟩),
     (0xE10110898087, .vcvt 7 ⟨true, false, 9⟩ .f64 1 .rdn true .i32),
     (0x3DE101108980C7, .vcvtVx 7 ⟨true, false, 9⟩ .f64 1 .rdn true .i32 ⟨true, true, true, 5⟩),
     (0x910718898187, .vunpk 7 ⟨true, false, 9⟩ .e2m1 7 .rup .f32),
     (0x3D9107188981C7, .vunpkVx 7 ⟨true, false, 9⟩ .e2m1 7 .rup .f32 ⟨true, true, true, 5⟩),
     (0x340311898287, .vpack 7 ⟨true, false, 9⟩ .f32 3 .rne true .e4m3),
     (0x3D3403118982C7, .vpackVx 7 ⟨true, false, 9⟩ .f32 3 .rne true .e4m3 ⟨true, true, true, 5⟩),
     (0x508551898387, .vscale 7 ⟨true, false, 9⟩ ⟨false, true, 17⟩ 5 true .rtz .f64),
     (0x3D5085518983C7, .vscaleVx 7 ⟨true, false, 9⟩ ⟨false, true, 17⟩ 5 true .rtz .f64 ⟨true, true, true, 5⟩),
     (0x1200008984A8, .vamax 40 ⟨true, false, 9⟩ .bf16),
     (0x3D1200008984E8, .vamaxVx 40 ⟨true, false, 9⟩ .bf16 ⟨true, true, true, 5⟩),
     (0x91025E898586, .bfly 6 ⟨true, false, 9⟩ ⟨false, true, 30⟩ ⟨false, false, 2⟩ .rup .f32),
     (0x3D91025E8985C6, .bflyVx 6 ⟨true, false, 9⟩ ⟨false, true, 30⟩ ⟨false, false, 2⟩ .rup .f32 ⟨true, true, true, 5⟩),
     (0x101E00898687, .twid 7 ⟨true, false, 9⟩ 30 .rne .f64),
     (0x3D101E008986C7, .twidVx 7 ⟨true, false, 9⟩ 30 .rne .f64 ⟨true, true, true, 5⟩),
     (0x11015E898787, .cmul 7 ⟨true, false, 9⟩ ⟨false, true, 30⟩ true .rne .f32),
     (0x3D11015E8987C7, .cmulVx 7 ⟨true, false, 9⟩ ⟨false, true, 30⟩ true .rne .f32 ⟨true, true, true, 5⟩),
     (0xD20100898887, .vtrig 7 ⟨true, false, 9⟩ true .rdn .bf16),
     (0x3DD201008988C7, .vtrigVx 7 ⟨true, false, 9⟩ true .rdn .bf16 ⟨true, true, true, 5⟩),
     (0x343858A86, .mlog 6 ⟨true, false, 5⟩ ⟨false, true, 3⟩ .andn),
     (0x300858BA8, .mpop 40 ⟨true, false, 5⟩ .first)] : List (W64 × Instr)), decode (Raw.ofEnc p.1) = .instr p.2 := by decide +kernel

theorem test_words_row_9 : ∀ p ∈ ([(0x949078, .sbind 56 ⟨true, false, 20⟩),
     (0x911F, .sunb 31),
     (0xA19268, .sqry 40 ⟨true, false, 33⟩),
     (0x15934B, .pour 11 ⟨false, false, 21⟩),
     (0x400051A194A8, .bari 40 ⟨true, false, 33⟩ ⟨false, true, 17⟩ .die),
     (0x20000C18958A, .barx 10 ⟨false, false, 24⟩ ⟨false, false, 12⟩ .cluster),
     (0x800051A196A8, .barw 40 ⟨true, false, 33⟩ ⟨false, true, 17⟩ .domain),
     (0xA19768, .pourq 40 ⟨true, false, 33⟩),
     (0xA19868, .hndq 40 ⟨true, false, 33⟩)] : List (W64 × Instr)), decode (Raw.ofEnc p.1) = .instr p.2 := by decide +kernel

theorem test_words_row_A : ∀ p ∈ ([(0xFE51A1A0A8, .pload 40 ⟨true, false, 33⟩ ⟨false, true, 17⟩ ⟨true, true, 62⟩),
     (0xA100, .pswap),
     (0xFE51A1A2A8, .prun 40 ⟨true, false, 33⟩ ⟨false, true, 17⟩ ⟨true, true, 62⟩),
     (0xA1A347, .paccReg 7 ⟨true, false, 33⟩),
     (0x111051A1A380, .paccMem ⟨true, false, 33⟩ ⟨false, true, 17⟩ .f64 .rne false .f32),
     (0xA428, .ptest 40),
     (0xA1A468, .ptestStamp 40 ⟨true, false, 33⟩),
     (0xA528, .pqry 40),
     (0x108F8DA891, .gsort 17 ⟨true, false, 13⟩ ⟨true, false, 15⟩ ⟨false, false, 16⟩),
     (0xA928, .gqry 40)] : List (W64 × Instr)), decode (Raw.ofEnc p.1) = .instr p.2 := by decide +kernel

theorem test_words_row_B : ∀ p ∈ ([(0x51A1B040, .send ⟨true, false, 33⟩ ⟨false, true, 17⟩),
     (0x51A1B140, .sendm ⟨true, false, 33⟩ ⟨false, true, 17⟩),
     (0x20001514B28A, .spawn 10 ⟨false, false, 20⟩ ⟨false, false, 21⟩ .cluster),
     (0xA1B340, .launch ⟨true, false, 33⟩),
     (0x106B4A8, .stealc 40 6 true)] : List (W64 × Instr)), decode (Raw.ofEnc p.1) = .instr p.2 := by decide +kernel

theorem test_words_row_C : ∀ p ∈ ([(0xA1C068, .ltcfg 40 ⟨true, false, 33⟩),
     (0x51A1C15B, .ltlink true 11 ⟨true, false, 33⟩ ⟨false, true, 17⟩),
     (0xFE51A1C28F, .ltsend 15 ⟨true, false, 33⟩ ⟨false, true, 17⟩ ⟨true, true, 62⟩),
     (0xC328, .ltclk 40),
     (0x97C450, .ltdrip true 0 ⟨true, false, 23⟩),
     (0xA1C568, .ltqry 40 ⟨true, false, 33⟩)] : List (W64 × Instr)), decode (Raw.ofEnc p.1) = .instr p.2 := by decide +kernel

theorem test_words_row_D : ∀ p ∈ ([(0x20AD089, .gang 9 ⟨false, false, 10⟩ 2),
     (0xD100, .disb),
     (0x15D24B, .coll 11 ⟨false, false, 21⟩),
     (0x8BD34C, .collw 12 ⟨true, false, 11⟩)] : List (W64 × Instr)), decode (Raw.ofEnc p.1) = .instr p.2 := by decide +kernel

theorem test_words_row_E : ∀ p ∈ ([(0x6E0A8, .getc 40 .bud),
     (0xA1E148, .setc .mode ⟨true, false, 33⟩),
     (0xE228, .time 40),
     (0xE328, .cyc 40),
     (0xE401, .eret true),
     (0xE53F, .bkpt 63),
     (0xFEDCBAA1E680, .trace ⟨true, false, 33⟩ 0xFEDCBA),
     (0xE728, .enrg 40)] : List (W64 × Instr)), decode (Raw.ofEnc p.1) = .instr p.2 := by decide +kernel

/-- Reserved opcodes, tail lengths, fields and codes are refused by name (R88, R89, R92 to R95, R97, R100, R101). -/
theorem test_reserved_opcodes : ([0x2F00, 0x3D00, 0x4F00, 0x5600, 0x8C00, 0x9900, 0xA600, 0xAA00, 0xB500, 0xC600, 0xD400, 0xE800, 0xF000, 0x0001] : List W64).map
    (fun w => decode (Raw.ofEnc w)) = List.replicate 14 .illop := by decide +kernel

theorem test_refused_words : ([0x0140, 0x0101, 0x00004003_0340, 0x09000204_1080, 0xA0000004_4484, 0x07C6, 0xE402] : List W64).map (fun w => decode (Raw.ofEnc w)) =
    [.resv 0xC0, .resv 0x01, .resv 0x40000000, .resv 0x1F00_0000_0000, .resv 0xE000_0000_0000, .resv 0x3F, .resv 0x3F] := by decide +kernel

/-! ### Ill-formed terms (spec/04 R92, R94, and the entries of the instructions): each check of Instr.wf refuses one -/

theorem test_illFormed_1 : ([.bst ⟨5, false⟩ 0, .addAbcm 1 a2 a3 .f64, .subAbcm 1 a2 a3 .f64, .mulAbcm 1 a2 a3 .f64, .mulhAbcm 1 a2 a3 .f64, .divAbcm 1 a2 a3 .f64, .remAbcm 1 a2 a3 .f64, .andAbcm 1 a2 a3 .f64, .orAbcm 1 a2 a3 .f64, .xorAbcm 1 a2 a3 .f64, .shlAbcm 1 a2 a3 .f64, .shrAbcm 1 a2 a3 .f64, .rotAbcm 1 a2 a3 .f64, .minAbcm 1 a2 a3 .f64, .maxAbcm 1 a2 a3 .f64, .sltAbcm 1 a2 a3 .f64, .clzAbcm 1 a2 .f32, .ctzAbcm 1 a2 .f32, .popcAbcm 1 a2 .f32, .absAbcm 1 a2 .n64, .shli 1 a2 32 .i32, .shli 1 a2 0 .f64, .shri 1 a2 8 .n8, .shri 1 a2 0 .i4, .bfx 1 a2 1 63 false, .bfi 1 a2 a3 63 1, .wfld 1 a2 6, .fadd 1 a2 a3 .rne .i64, .fsub 1 a2 a3 .rne .i64, .fmul 1 a2 a3 .rne .i64, .fdiv 1 a2 a3 .rne .i64, .ffma 1 a2 a3 a4 .rne .f16, .fsqrt 1 a2 .rne .n32, .fmin 1 a2 a3 .i8, .fmax 1 a2 a3 .e4m3, .fcmp 1 a2 a3 .eq .i64, .fclass 1 a2 .f16, .fsgn 1 a2 a3 .abs .f64, .fsgn 1 a2 a3 .cpy .i64, .frnd 1 a2 false .rne .ds8] : List Instr).map Instr.wf = List.replicate 40 false := by decide +kernel

theorem test_illFormed_2 : ([.ld 1 a2 .i4 0, .st .e4m3 a2 a3 0, .ldv 1 a2 .i4 0 VMask.all, .ldv 1 a2 .i64 0 ⟨false, true, false, 0⟩, .stv .ds8 a2 v3 0 VMask.all, .stv .i64 a2 v3 0 ⟨false, false, true, 0⟩, .lds 1 a2 .core .e8m0, .sts a2 a3 .core .i4, .aadd 1 a2 a3 .core .bf16, .amnx 1 a2 a3 true .core .f16, .alog 1 a2 a3 .and .core .f64, .alog 1 a2 a3 .lse .core .i64, .alog 1 a2 a3 .xor .core .bf16, .aswp 1 a2 a3 .core .f16, .acas 1 a2 a3 a4 .core .bf16, .waitm 1 a2 a3 .eq .core .f64, .gath 1 a2 v3 .i4, .gathVx 1 a2 v3 .i4 VMask.all, .gathVx 1 a2 v3 .i64 ⟨false, false, false, 1⟩, .scat a2 v3 v4 .e2m1, .scatVx a2 v3 v4 .e2m1 VMask.all, .scatVx a2 v3 v4 .i8 ⟨false, true, false, 0⟩, .vadd 1 v2 v3 .rne .f16, .vaddVx 1 v2 v3 .rne .f16 VMask.all, .vaddVx 1 v2 v3 .rne .f32 ⟨false, true, false, 0⟩, .vsub 1 v2 v3 .rne .f16, .vsubVx 1 v2 v3 .rne .f16 VMask.all, .vsubVx 1 v2 v3 .rne .f32 ⟨false, true, false, 0⟩, .vmul 1 v2 v3 .rne .f16, .vmulVx 1 v2 v3 .rne .f16 VMask.all, .vmulVx 1 v2 v3 .rne .f32 ⟨false, true, false, 0⟩, .vdiv 1 v2 v3 .rne .f16, .vdivVx 1 v2 v3 .rne .f16 VMask.all, .vdivVx 1 v2 v3 .rne .f32 ⟨false, true, false, 0⟩, .vfma 1 v2 v3 v4 .rne .i32, .vfmaVx 1 v2 v3 v4 .rne .i32 VMask.all, .vfmaVx 1 v2 v3 v4 .rne .f64 ⟨false, true, false, 0⟩, .vsqrt 1 v2 .rne .i64, .vsqrtVx 1 v2 .rne .i64 VMask.all, .vsqrtVx 1 v2 .rne .bf16 ⟨false, true, false, 0⟩] : List Instr).map Instr.wf = List.replicate 40 false := by decide +kernel

theorem test_illFormed_3 : ([.vmin 1 v2 v3 .i64, .vminVx 1 v2 v3 .i64 VMask.all, .vminVx 1 v2 v3 .f32 ⟨false, true, false, 0⟩, .vmax 1 v2 v3 .i64, .vmaxVx 1 v2 v3 .i64 VMask.all, .vmaxVx 1 v2 v3 .f32 ⟨false, true, false, 0⟩, .vcmp 1 v2 v3 .eq .f16, .vcmpVx 1 v2 v3 .eq .f16 VMask.all, .vcmpVx 1 v2 v3 .eq .i8 ⟨false, true, false, 0⟩, .vcmp 1 v2 v3 .un .i8, .vcmpVx 1 v2 v3 .un .i8 VMask.all, .vcmpVx 1 v2 v3 .un .f64 ⟨false, true, false, 0⟩, .vsgn 1 v2 v3 .cpy .i64, .vsgnVx 1 v2 v3 .cpy .i64 VMask.all, .vsgnVx 1 v2 v3 .cpy .f32 ⟨false, true, false, 0⟩, .vsgn 1 v2 v3 .abs .f32, .vsgnVx 1 v2 v3 .abs .f32 VMask.all, .vsgnVx 1 v2 v3 .abs .f32 ⟨false, true, false, 0⟩, .vred 1 v2 .add .rne .i16, .vredVx 1 v2 .add .rne .i16 VMask.all, .vredVx 1 v2 .add .rne .i32 ⟨false, true, false, 0⟩, .vredVx 1 v2 .add .rne .i32 ⟨true, true, false, 1⟩, .vred 1 v2 .min .rtz .f32, .vredVx 1 v2 .addl .rup .i64 VMask.all, .vscan 1 v2 .add .rne .i16, .vscanVx 1 v2 .add .rne .i16 VMask.all, .vscanVx 1 v2 .add .rne .i32 ⟨false, true, false, 0⟩, .vscanVx 1 v2 .add .rne .i32 ⟨true, true, false, 1⟩, .vscan 1 v2 .min .rtz .f32, .vscanVx 1 v2 .addl .rup .i64 VMask.all, .vexp2 1 v2 .rne .f64, .vexp2Vx 1 v2 .rne .f64 VMask.all, .vexp2Vx 1 v2 .rne .f32 ⟨false, true, false, 0⟩, .vlog2 1 v2 .rne .f64, .vlog2Vx 1 v2 .rne .f64 VMask.all, .vlog2Vx 1 v2 .rne .f32 ⟨false, true, false, 0⟩, .vrcp 1 v2 .rne .f64, .vrcpVx 1 v2 .rne .f64 VMask.all, .vrcpVx 1 v2 .rne .f32 ⟨false, true, false, 0⟩, .vrsq 1 v2 .rne .f64] : List Instr).map Instr.wf = List.replicate 40 false := by decide +kernel

theorem test_illFormed_4 : ([.vrsqVx 1 v2 .rne .f64 VMask.all, .vrsqVx 1 v2 .rne .f32 ⟨false, true, false, 0⟩, .vtanh 1 v2 .rne .f64, .vtanhVx 1 v2 .rne .f64 VMask.all, .vtanhVx 1 v2 .rne .f32 ⟨false, true, false, 0⟩, .vtrig 1 v2 false .rne .f64, .vtrigVx 1 v2 false .rne .f64 VMask.all, .vtrigVx 1 v2 false .rne .bf16 ⟨false, true, false, 0⟩, .viaddAbcm 1 v2 v3 .f32, .viaddVx 1 v2 v3 .f32 VMask.all, .viaddVx 1 v2 v3 .i32 ⟨false, false, true, 0⟩, .visubAbcm 1 v2 v3 .f32, .visubVx 1 v2 v3 .f32 VMask.all, .visubVx 1 v2 v3 .i32 ⟨false, false, true, 0⟩, .vimulAbcm 1 v2 v3 .f32, .vimulVx 1 v2 v3 .f32 VMask.all, .vimulVx 1 v2 v3 .i32 ⟨false, false, true, 0⟩, .vandAbcm 1 v2 v3 .f32, .vandVx 1 v2 v3 .f32 VMask.all, .vandVx 1 v2 v3 .i32 ⟨false, false, true, 0⟩, .vorAbcm 1 v2 v3 .f32, .vorVx 1 v2 v3 .f32 VMask.all, .vorVx 1 v2 v3 .i32 ⟨false, false, true, 0⟩, .vxorAbcm 1 v2 v3 .f32, .vxorVx 1 v2 v3 .f32 VMask.all, .vxorVx 1 v2 v3 .i32 ⟨false, false, true, 0⟩, .vshlAbcm 1 v2 v3 .f32, .vshlVx 1 v2 v3 .f32 VMask.all, .vshlVx 1 v2 v3 .i32 ⟨false, false, true, 0⟩, .vshrAbcm 1 v2 v3 .f32, .vshrVx 1 v2 v3 .f32 VMask.all, .vshrVx 1 v2 v3 .i32 ⟨false, false, true, 0⟩, .vsel 1 v2 v3 m2 .i4, .vselVx 1 v2 v3 m2 .i4 VMask.all, .vselVx 1 v2 v3 m2 .i8 ⟨false, true, false, 0⟩, .vperm 1 v2 v3 v4 .e4m3, .vpermVx 1 v2 v3 v4 .e4m3 VMask.all, .vpermVx 1 v2 v3 v4 .i8 ⟨false, true, false, 0⟩, .vbcast 1 a2 .i4, .vbcastVx 1 a2 .i4 VMask.all] : List Instr).map Instr.wf = List.replicate 40 false := by decide +kernel

theorem test_illFormed_5 : ([.vbcastVx 1 a2 .f16 ⟨false, true, false, 0⟩, .vslide 1 v2 v3 a4 .e8m0, .vslideVx 1 v2 v3 a4 .e8m0 VMask.all, .vslideVx 1 v2 v3 a4 .i8 ⟨false, true, false, 0⟩, .vcmpr 1 v2 m2 .i4, .vexpd 1 v2 m2 .ds8, .viota 1 m2 true .f32, .viota 1 m2 false .i32, .vlane 1 v2 a3 0 true .i4, .vlane 1 v2 ⟨false, false, 0⟩ 8 false .i64, .vlane 32 v2 a3 0 true .i64, .vlane 1 v2 a3 0 false .i64, .vcvt 1 v2 .f16 0 .rne false .f32, .vcvt 1 v2 .f32 0 .rne false .f16, .vcvt 1 v2 .f32 2 .rne false .f64, .vcvtVx 1 v2 .i4 0 .rne false .f32 VMask.all, .vcvtVx 1 v2 .f32 0 .rne false .i4 VMask.all, .vcvtVx 1 v2 .f32 1 .rne false .i32 VMask.all, .vcvtVx 1 v2 .f32 0 .rne false .i32 ⟨false, true, false, 0⟩, .vunpk 1 v2 .f32 0 .rne .f64, .vunpk 1 v2 .e4m3 0 .rne .f16, .vunpk 1 v2 .e4m3 0 .rne .i32, .vunpk 1 v2 .e4m3 4 .rne .f32, .vunpkVx 1 v2 .f32 0 .rne .f64 VMask.all, .vunpkVx 1 v2 .e4m3 0 .rne .e5m2 VMask.all, .vunpkVx 1 v2 .e8m0 0 .rne .i8 VMask.all, .vunpkVx 1 v2 .e2m1 8 .rne .f32 VMask.all, .vunpkVx 1 v2 .i4 0 .rne .f32 ⟨false, false, false, 1⟩, .vpack 1 v2 .i64 0 .rne false .e4m3, .vpack 1 v2 .f32 0 .rne false .f64, .vpack 1 v2 .i32 0 .rne false .e4m3, .vpack 1 v2 .f32 4 .rne false .e4m3, .vpackVx 1 v2 .e4m3 0 .rne false .e4m3 VMask.all, .vpackVx 1 v2 .f32 0 .rne false .bf16 VMask.all, .vpackVx 1 v2 .i8 0 .rne false .e5m2 VMask.all, .vpackVx 1 v2 .f64 8 .rne false .ds8 VMask.all, .vpackVx 1 v2 .f32 0 .rne false .e4m3 ⟨false, true, false, 0⟩, .vscale 1 v2 a3 0 false .rne .f16, .vscaleVx 1 v2 a3 0 false .rne .f16 VMask.all, .vscaleVx 1 v2 a3 0 false .rne .f32 ⟨false, true, false, 0⟩] : List Instr).map Instr.wf = List.replicate 40 false := by decide +kernel

theorem test_illFormed_6 : ([.vamax 1 v2 .i64, .vamaxVx 1 v2 .i64 VMask.all, .vamaxVx 1 v2 .f64 ⟨false, true, false, 0⟩, .bfly 2 v2 v3 v4 .rne .bf16, .bflyVx 2 v2 v3 v4 .rne .bf16 VMask.all, .bflyVx 2 v2 v3 v4 .rne .f32 ⟨false, true, false, 0⟩, .bfly 1 v2 v3 v4 .rne .f32, .bflyVx 1 v2 v3 v4 .rne .f32 VMask.all, .bflyVx 1 v2 v3 v4 .rne .f32 ⟨false, true, false, 0⟩, .twid 1 v2 0 .rne .f32, .twidVx 1 v2 0 .rne .f32 VMask.all, .twidVx 1 v2 0 .rne .f32 ⟨false, true, false, 0⟩, .twid 1 v2 31 .rne .f64, .twidVx 1 v2 31 .rne .f64 VMask.all, .twidVx 1 v2 31 .rne .f64 ⟨false, true, false, 0⟩, .twid 1 v2 1 .rne .bf16, .twidVx 1 v2 1 .rne .bf16 VMask.all, .twidVx 1 v2 1 .rne .f64 ⟨false, true, false, 0⟩, .cmul 1 v2 v3 false .rne .bf16, .cmulVx 1 v2 v3 false .rne .bf16 VMask.all, .cmulVx 1 v2 v3 false .rne .f32 ⟨false, true, false, 0⟩, .mlog 1 m2 ⟨false, false, 0⟩ .ones, .mlog 1 m2 m2 .not, .mpop 8 a2 .set, .mpop 1 ⟨false, false, 8⟩ .pop, .sbind 23 a2, .sbind 32 a2, .sunb 55, .paccMem a2 a3 .i64 .rne false .f32, .paccMem a2 a3 .i32 .rne false .f64, .stealc 1 7 false, .ltdrip true 1 a2, .gang 1 a2 0, .setc .tid a2, .setc .mix a2] : List Instr).map Instr.wf = List.replicate 35 false := by decide +kernel

/-! ### Worked examples of the spec -/

/-- The e4m3 bytes of the packed block (spec/08 R215's example), with the flags of the last two lanes. -/
theorem test_packed_block : (List.range 16).map (fun i => (convert (convert (24 * i) .i64 .f32 .rne false).1 .f32 .e4m3 .rne true).1) =
    [0x00, 0x5C, 0x64, 0x69, 0x6C, 0x6F, 0x71, 0x72, 0x74, 0x76, 0x77, 0x78, 0x79, 0x7A, 0x7A, 0x7B] ∧
    (convert 0x43480000 .f32 .e4m3 .rne true).2 = 0x10 ∧ (convert 0x43400000 .f32 .e4m3 .rne true).2 = 0 := by decide +kernel

/-- R23 and R24's examples: 0x9A is −0.75 and 0x15 is 0.53125 in 64ths; 0.75 is written 0x12, zero 0x77, 2 0x00. -/
theorem test_ds8 : dsVal 0x9A = -48 ∧ dsVal 0x15 = 34 ∧ dsCanon 48 = 0x12 ∧ dsCanon 0 = 0x77 ∧ dsCanon 128 = 0x00 ∧ dsCanon (-128) = 0x88 ∧ dsCanon 32 = 0x17 := by decide +kernel

/-- R39's examples of the window: a term that falls out of it, and a cancellation that does not move the frame. -/
theorem test_window28 : blockStep .bf16 .bf16 [0x3980, 0x3880] [0x3980, 0x3880] (fun _ => 127) (fun _ => 127) 0x3F800000 = (0x3F800000, 0x10) ∧
    blockStep .bf16 .bf16 [0x3F80, 0x3800] [0xBF80, 0x3800] (fun _ => 127) (fun _ => 127) 0x3F800000 = (0, 0x10) := by decide +kernel

/-- R42's table of f32 keys, in rank order. -/
theorem test_orderKey : ([0xFFC00000, 0xFF800000, 0xBF800000, 0x80000001, 0x80000000, 0, 1, 0x3F800000, 0x7F800000, 0x7F800001, 0x7FC00000] : List W64).map (orderKey · 3) =
    [0x003FFFFF, 0x007FFFFF, 0x407FFFFF, 0x7FFFFFFE, 0x7FFFFFFF, 0x80000000, 0x80000001, 0xBF800000, 0xFF800000, 0xFF800001, 0xFFC00000] := by decide +kernel

/-- The heap of five inserts and two extracts (spec/07, equal keys in a heap). -/
def heap5 : List HEntry × Nat := [(7, 0xA), (3, 0xB), (9, 0xC), (3, 0xD), (1, 0xE)].foldl (fun (h : List HEntry × Nat) (e : W64 × W64) => hInsert 1 h.1 h.2 e.1 e.2) ([], 0)
theorem test_heap : heap5.1 = [(1, 0xE, 4), (3, 0xB, 1), (9, 0xC, 2), (7, 0xA, 0), (3, 0xD, 3)] ∧
    (hExtract 1 heap5.1 heap5.2).1 = [(3, 0xB, 1), (3, 0xD, 3), (9, 0xC, 2), (7, 0xA, 0)] ∧
    (hExtract 1 (hExtract 1 heap5.1 heap5.2).1 5).1 = [(3, 0xD, 3), (7, 0xA, 0), (9, 0xC, 2)] ∧
    heapify 1 [(7, 0xA, 0), (3, 0xB, 1), (9, 0xC, 2), (3, 0xD, 3), (1, 0xE, 4)] = [(1, 0xE, 4), (3, 0xB, 1), (9, 0xC, 2), (3, 0xD, 3), (7, 0xA, 0)] := by decide +kernel

/-- Home slots of keys in a bank of its own (spec/07 R171's hash, worked by hand). -/
theorem test_map_home : ([1, 2, 3] : List W64).map (fun k => (mapWindow k 1).headD 0) = [0x9E3, 0x3C6, 0xDAA] := by decide +kernel

/-- Twiddles of N = 8 in f32 (spec/08): k = 1 and k = 2. -/
theorem test_twiddle : (twiddle .f32 .rne 3 1).1.1 = 0x3F3504F3 ∧ (twiddle .f32 .rne 3 1).2.1 = 0xBF3504F3 ∧ (twiddle .f32 .rne 3 2).1 = (0, 0) ∧ (twiddle .f32 .rne 3 2).2 = (0xBF800000, 0) := by
  decide +kernel

/-- The message of the forwarded result (spec/06, worked example): core 0x8CA of package 2, context 7, message counter 0x015. -/
def sForward : State :=
  { s0 with
    cur := 0x8CA
    pkgid := 2
    me := { (c0.setS 5 (.full 0x0004025002465800)).setS 13 (.full 0x3FA00000) with act := { c0.act with ctx := 7 }, mseq := 0x15, ctl := { c0.ctl with tid := 0x11, wid := 0x22 } } }
theorem test_forward : (match exec (.send ⟨true, false, 5⟩ ⟨true, false, 13⟩) sForward with
    | .next t => t.me.seg.out.map fun p => match p.e with | .msg m _ _ _ => m.toList | _ => []
    | _ => []) = [[0x0704025002465015, 0x11, 0x22, 0x3FA00000, 0, 0, 0, 0]] ∧
    ffma .f64 .rne 0x3FB999999999999A 0x4004000000000000 0x3FF0000000000000 = (0x3FF4000000000000, 0x10) ∧ convert 0x3FF4000000000000 .f64 .f32 .rne false = (0x3FA00000, 0) := by
  decide +kernel

/-! ### States and operands that meet the hypotheses: the scalar unit -/

theorem witness_IntegerTypes : Ty.i8.isInt = true ∧ Ty.n64.isInt = true := by decide

theorem reads1_c0 (d : BitVec 6) : Reads1 d a2 c0 5 c0 ↔ destS d c0 = .ok () :=
  ⟨fun h => h.1, fun h => ⟨h, c0, rfl, rfl⟩⟩

theorem reads1 : ∃ c, Reads1 1 a3 c0 5 c := ⟨_, rfl, _, rfl, rfl⟩
theorem reads2 : ∃ c, Reads2 1 a2 a3 c0 5 5 c := ⟨_, rfl, _, _, rfl, rfl, rfl⟩

/-- Both sources of an instruction are the register that it frees and writes; s0 as destination. -/
theorem witness_IntegerRow :
    (∃ c c', Reads2 3 a3 a3 c0 5 5 c ∧ writeS 3 (widen (5 + 5) .i8) c = .ok c') ∧ (∃ c c', Reads2 0 a2 a4 c0 5 5 c ∧ writeS 0 (widen (5 - 5) .i64) c = .ok c') ∧
    (∃ c c', Reads2 3 a3 a2 c0 5 5 c ∧ produce 3 (widen (quotient .n32 5 5) .n32) 20 c = .ok c') ∧
    (∃ c c', Reads3 1 a2 a3 a4 c0 5 5 5 c ∧ writeS 1 5 c = .ok c') :=
  by
    and_intros <;> first | exact ⟨_, _, ⟨rfl, _, _, rfl, rfl, rfl⟩, rfl⟩ | exact ⟨_, _, ⟨rfl, _, _, _, rfl, rfl, rfl, rfl⟩, rfl⟩

theorem witness_IntegerImmediates : (∃ c c', Reads1 1 a3 c0 5 c ∧ writeS 1 (5 + literal true (0x800000 : BitVec 24)) c = .ok c') ∧
    (Ty.n8.isInt = true ∧ (7 : BitVec 6).toNat < Ty.n8.width) ∧ (Ty.i64.isInt = true ∧ (63 : BitVec 6).toNat < Ty.i64.width) ∧
    (destS 1 c0 = .ok () ∧ ∃ c', writeS 1 ((0x80000000 : BitVec 32).signExtend 64) c0 = .ok c') :=
  ⟨⟨_, _, ⟨rfl, _, rfl, rfl⟩, rfl⟩, by decide, by decide, rfl, _, rfl⟩

/-- A launch whose WID layout has six levels of six bits. -/
def launch0 : Launch := ⟨0, 0, 0, Vector.replicate 8 0x0000000186186186, [], [], 0, 0, none, none, none, [], false, false⟩

theorem witness_BitInstructions : (Ty.i16.isInt = true ∧ ∃ c c', Reads1 1 a3 c0 5 c ∧ writeS 1 13 c = .ok c') ∧
    (Ty.i8.isSInt = true ∧ ∃ c c', Reads1 1 a2 c0 5 c ∧ writeS 1 (widen 5 .i8) c = .ok c') ∧
    ((0 : BitVec 6).toNat + (63 : BitVec 6).toNat < 64 ∧ (63 : BitVec 6).toNat + (0 : BitVec 6).toNat < 64) ∧
    (∀ j : Nat, j < 64 → (0x25 : W64).getLsbD j = if 4 ≤ j ∧ j ≤ 4 + 3 then (2 : W64).getLsbD (j - 4) else (5 : W64).getLsbD j) ∧
    ((5 : BitVec 3).toNat < 6 ∧ ({ s0 with launches := [launch0] } : State).launch? s0.me.act.ctx s0.me.act.lnch = some launch0 ∧ Reads1 1 a2 c0 5 c0) :=
  by and_intros <;> first | decide | exact ⟨_, _, ⟨rfl, _, rfl, rfl⟩, rfl⟩ | exact ⟨_, rfl, rfl⟩

/-- A line with two heads, 0x0000 and 0x0002: NOP, END. -/
def sCode : State := { s0 with me := { c0 with imem := Mem.put [] 0 [0x00, 0x01, 0x00, 0x0B] } }

theorem witness_JumpsAndBranches : (readS a3 (withS 3 2).me = .ok (2, (withS 3 2).me)) ∧ (sCode.me.validPc (headAddr 1) = true ∧ sCode.me.validPc (headAddr 2) = false) ∧
    (destS 62 sCode.me = .ok () ∧ ∃ c', writeS 62 (sCode.me.succ sCode.me.pc) sCode.me = .ok c') ∧
    (∃ c1 c2, readS a2 sCode.me = .ok (5, c1) ∧ readS a3 c1 = .ok (5, c2) ∧ holds .eq 5 5 ∧ ¬holds .lt 5 5) ∧
    (∃ c c', Reads1 1 a3 sCode.me 5 c ∧ writeS 1 (5 - 1) c = .ok c' ∧ (5 : W64) ≠ 1) :=
  ⟨rfl, by decide +kernel, ⟨rfl, _, rfl⟩, ⟨_, _, rfl, rfl, rfl, by simp [holds]⟩, _, _, ⟨rfl, _, rfl, rfl⟩, rfl, by decide⟩

/-- A core with two closed segments. -/
def seg0 : Seg := ⟨SegData.new 0, .phase, 0, Ckpt.reset, 0, 0, 0, [], [], .nothing⟩
def sOne : State := { s0 with me := { c0 with closing := [seg0] } }
def sFull : State := { s0 with me := { c0 with closing := [seg0, seg0] } }
/-- A core that waits for a result. -/
def sPend : State := { s0 with me := { c0 with pend := [⟨1, 7, 4⟩] } }
def sGang : State := { s0 with me := { c0 with gang := some ⟨1, [0, 1], 0, 1⟩ } }
def sLt : State := { s0 with me := { c0 with lt := { LocalTime.reset with en := true } } }

theorem atBoundary_c0 : atBoundary c0 := by unfold atBoundary; decide +kernel

theorem witness_Boundaries : atBoundary s0.me ∧ sPend.me.settled = false ∧ sPend.me.gang = none ∧ (sFull.me.settled = true ∧ 2 ≤ sFull.me.closing.length ∧ sFull.me.gang = none) ∧
    (s0.me.gang = none ∧ s0.me.lt.en = false ∧ needOut s0.me 1 = .ok () ∧ s0.me.closing = []) ∧
    (readS a2 (withS 2 0x1F800).me = .ok (0x1F800, (withS 2 0x1F800).me) ∧ (0x1F800 : W64) &&& 0xFFFFFFFF000007FF = 0 ∧ atBoundary (withS 2 0x1F800).me) ∧
    (atBoundary sOne.me ∧ sOne.me.closing.length = 1 ∧ sOne.me.irrev = none) ∧
    sGang.me.gang.isSome = true ∧ sLt.me.lt.en = true :=
  ⟨atBoundary_c0, by decide +kernel, rfl, by decide +kernel, ⟨rfl, rfl, rfl, rfl⟩, ⟨rfl, by decide, by unfold atBoundary; decide +kernel⟩,
    by unfold atBoundary; decide +kernel, rfl, rfl⟩


/-- Context 0 owns cluster 0, with BKHALT set. -/
def sBk : State := { s0 with ctxs := [(0, { Ctx.reset 0 with d := ((Ctx.reset 0).d.setIfInBounds 0 0x0004000000000000).setIfInBounds 1 1 })] }

/-- A running activation at an address of no instruction: past its handler's line, or at it. -/
def sBad : State := { s0 with me := { c0 with pc := 64 } }

theorem witness_SoftwareTraps : readS a2 s0.me = .ok (5, s0.me) ∧
    (sBad.cur < Config.nCores ∧ sBad.me.running = true ∧ sBad.me.report = none ∧ sBad.me.validPc sBad.me.pc = false ∧
      sBad.me.pc ≠ BitVec.ofNat 64 (64 * bits (sBad.me.handler sBad.me.act.hidx).2 8 0)) ∧
    (s0.me.validPc s0.me.pc = false ∧ s0.me.pc = BitVec.ofNat 64 (64 * bits (s0.me.handler s0.me.act.hidx).2 8 0)) ∧
    (s0.ctx s0.me.act.ctx.toNat).bkhalt = false ∧
    ((sBk.ctx sBk.me.act.ctx.toNat).bkhalt = true ∧ sBk.cur < Config.nCores ∧ (sBk.ctx sBk.me.act.ctx.toNat).hasCluster (clusterOf sBk.cur) = true ∧
      sBk.me.passing ≠ some .bkpt) := by
  refine ⟨rfl, ?_⟩; decide +kernel

/-- A remote weak read on its way. -/
def read0 : RRead := ⟨0, 0, [], .ld 1 .i64 (.local 0 64) 0, [.local 0 64], [], ⟨Regs.reset, Ctl.reset, [], []⟩⟩

theorem witness_ControlWordsAndReadings : (destS 1 s0.me = .ok () ∧ ∃ c', writeS 1 (word s0.me .mode) s0.me = .ok c') ∧
    ({ s0 with me := { c0 with reads := [read0] } } : State).me.reads ≠ [] ∧
    (s0.me.reads = [] ∧ readS a2 s0.me = .ok (5, s0.me) ∧ (5 : W64) &&& 0xFFFFFFFFFFFFFFE0 = 0 ∧ (0x20 : W64) &&& 0xFFFFFFFFFFFFFFE0 ≠ 0 ∧ (0x100000000 : W64) &&& 0xFFFFFFFE00000000 = 0 ∧
      (0x30100 : W64) &&& 0xFFFFFFFFFFFCFEE0 = 0 ∧ (4 : W64).toNat < 5 ∧ 5 ≤ (5 : W64).toNat ∧
      ((0xFFF0000000000000 : W64) &&& 0x7FFFFFFFFFFFFFFF).toNat ≤ 0x7FF0000000000000 ∧ 0x7FF0000000000000 < ((0x7FF0000000000001 : W64) &&& 0x7FFFFFFFFFFFFFFF).toNat) ∧
    (∃ c', produce 1 (BitVec.ofNat 64 (s0.gt9 / 9)) 48 s0.me = .ok c') ∧ (∃ c', writeS 1 (BitVec.ofNat 64 s0.me.clk) s0.me = .ok c') ∧
    (let s' := onCores (s0.ctx s0.me.act.ctx.toNat).coreList State.catchUp s0
     destS 1 s'.me = .ok () ∧ ∃ c', writeS 1 ((s'.ctx s0.me.act.ctx.toNat).w 11) s'.me = .ok c') ∧ s0.cur < 8192 :=
  ⟨⟨rfl, _, rfl⟩, by simp, ⟨rfl, rfl, by decide⟩, ⟨_, rfl⟩, ⟨_, rfl⟩, ⟨rfl, _, rfl⟩, by decide⟩

/-- Handler 1 runs and sends class 6 to trap handler 2, whose line is 3. -/
def sTrap : State :=
  { s0 with me := { c0 with act := { Act.reset with hidx := 1 }, handlers := [(1, 0x8800100000000000, 0), (2, 0x8000000000000000, 3)] } }
/-- The same with no valid trap handler 2. -/
def sTrapBad : State := { s0 with me := { sTrap.me with handlers := [(1, 0x8800100000000000, 0)] } }
def repTrap : Report := ⟨0x604, 0, 0, 5, 0, 1, 0, 0⟩
def sHandler : State := { s0 with me := { c0 with act := { Act.reset with isTrap := true } } }
def saved0 : Saved := ⟨Act.reset, Regs.reset, Ctl.reset, 0, [], false, none, false⟩

theorem witness_TrapsAndReturns : (sTrap.me.gang = none ∧ sTrap.me.held? = false ∧ sTrap.me.act.isTrap = false ∧
      repTrap = { repTrap with cyc := sTrap.me.clk, gt := sTrap.gt } ∧ sTrap.me.entry.getLsbD (53 + repTrap.cause / 256) = true ∧
      entryValid (sTrap.me.handler (bits sTrap.me.entry 52 43)).1 = true ∧
      fusedDone sTrap [sTrap.cur] false = true ∧ atBoundary sTrap.me ∧ ((sTrap.raise sTrap.cur repTrap).putRecord repTrap).isSome = true) ∧
    (sHandler.me.gang = none ∧ sHandler.me.held? = false ∧ repTrap = { repTrap with cyc := sHandler.me.clk, gt := sHandler.gt } ∧
      sHandler.me.act.isTrap = true ∧ fusedDone sHandler [sHandler.cur] true = true ∧
      ((sHandler.raise sHandler.cur repTrap).putRecord repTrap).isSome = true) ∧
    (s0.me.entry.getLsbD (53 + repTrap.cause / 256) = false ∧ sTrapBad.me.entry.getLsbD (53 + repTrap.cause / 256) = true ∧
      entryValid (sTrapBad.me.handler (bits sTrapBad.me.entry 52 43)).1 = false) ∧
    (({ sHandler with me := { sHandler.me with closing := [seg0] } } : State).me.closing.getLast? = some seg0 ∧
      seg0.ckpt.act.origin ≠ .follower) ∧
    s0.me.act.isTrap = false ∧ (sHandler.me.act.isTrap = true ∧ sHandler.me.gang = none ∧ atBoundary sHandler.me) ∧
    ({ c0 with frame := some saved0 } : Core).frame = some saved0 := by
  unfold atBoundary
  and_intros <;> decide +kernel

/-- The core of the tests with every flag enabled in MODE. -/
def cMode : Core := { c0 with ctl := { Ctl.reset with mode := 0x1F } }

theorem witness_ScalarFloat : Ty.f32.isArith = true ∧ (∃ c, Reads2 1 a2 a3 c0 5 5 c) ∧ (∃ c, Reads3 1 a2 a3 a4 c0 5 5 5 c) ∧ (∃ c, Reads1 1 a3 c0 5 c) ∧
    (c0.ctl.mode.setWidth 5 &&& (fdiv .f32 .rne 0x3F800000 0).2 = 0 ∧ ∃ c', produce 1 0x7F800000 14 (flagged c0 (fdiv .f32 .rne 0x3F800000 0).2) = .ok c') ∧
    cMode.ctl.mode.setWidth 5 &&& (fdiv .f32 .rne 0x3F800000 0).2 ≠ 0 ∧ (∃ c', writeS 1 0 (flagged c0 0) = .ok c') ∧
    (SgnOp.xor ≠ SgnOp.abs ∧ ∃ c c', Reads2 1 a2 a3 c0 5 5 c ∧ writeS 1 5 c = .ok c') ∧
    (∃ c c', Reads1 1 a3 c0 5 c ∧ writeS 1 (BitVec.ofNat 64 (2 ^ 5)) c = .ok c') :=
  ⟨rfl, reads2, ⟨_, rfl, _, _, _, rfl, rfl, rfl, rfl⟩, reads1, ⟨by decide +kernel, _, rfl⟩, by decide +kernel, ⟨_, rfl⟩,
    ⟨by decide, _, _, ⟨rfl, _, _, rfl, rfl, rfl⟩, rfl⟩, _, _, ⟨rfl, _, rfl, rfl⟩, rfl⟩

/-- The smallest subnormal and the largest finite f32, and an f16 value. -/
theorem witness_FloatFormats :
    ((1 : Nat) < 2 ^ Ty.f32.width ∧ decodeF .f32 1 = .fin false 1 (-149)) ∧ ((0xFF7FFFFF : Nat) < 2 ^ Ty.f32.width ∧ decodeF .f32 0xFF7FFFFF = .fin true 0xFFFFFF 104) ∧
    ((0x3C00 : Nat) < 2 ^ Ty.f16.width ∧ decodeF .f16 0x3C00 = .fin false 1024 (-10)) ∧
    (isFloat .f32 = true ∧ Ty.f32.isArith = true ∧ Ty.f32.isCplx = true) := by
  and_intros <;> decide +kernel

/-- 1 and -1 of f32. -/
theorem one_f32 : IsValue (decodeF .f32 0x3F800000) 1 := ⟨false, 8388608, -23, by decide +kernel, by norm_num [mag]⟩
theorem minusOne_f32 : IsValue (decodeF .f32 0xBF800000) (-1) := ⟨true, 8388608, -23, by decide +kernel, by norm_num [mag]⟩

theorem witness_FloatFormats_values : IsValue (decodeF .f32 0x3F800000) 1 ∧ IsValue (decodeF .f32 0xBF800000) (-1) ∧
    ((-1 : Rat) ≠ 0 ∧ (0 : Rat) < 1 ∧ (1 : Rat) + -1 = 0 ∧ (decodeF .f32 0x3F800000).neg ≠ (decodeF .f32 0xBF800000).neg) :=
  ⟨one_f32, minusOne_f32, by norm_num, by norm_num, by norm_num, by decide +kernel⟩

/-! ### The vector unit -/

/-- Merging under m2 = 0b101, zeroing under its inverse. -/
def mk1 : VMask := ⟨true, false, false, 2⟩
def mk2 : VMask := ⟨true, true, true, 2⟩
def line0 : Line := BitVec.ofNat 512 (natOf (List.replicate 64 0x11))

theorem vreads1 (n : Nat) : VReads1 1 v3 VMask.all n c0 line0 (2 ^ n - 1) line0 (freeV v3 c0) := ⟨rfl, _, _, rfl, rfl, rfl, rfl⟩
theorem vreads2 : ∃ act old c, VReads2 3 v3 v2 mk1 16 c0 line0 line0 act old c := ⟨_, _, _, rfl, _, _, _, rfl, rfl, rfl, rfl, rfl⟩
theorem vreads3 : ∃ act old c, VReads3 1 v2 v3 v4 mk2 8 c0 line0 line0 line0 act old c := ⟨_, _, _, rfl, _, _, _, _, rfl, rfl, rfl, rfl, rfl, rfl⟩

/-- The mask selects lanes 0 and 2, and all others where it is inverted. -/
theorem test_activeLanes : (activeLanes mk1 16 c0).toOption.map (·.1) = some 5 ∧ (activeLanes mk2 8 c0).toOption.map (·.1) = some 0xFA := by decide +kernel

theorem witness_VectorFloat : Ty.f32.isArith = true ∧ (∃ act old c, VReads1 1 v3 VMask.all 16 c0 line0 act old c) ∧ (∃ act old c, VReads2 3 v3 v2 mk1 Ty.f32.lanes c0 line0 line0 act old c) ∧
    (∃ act old c, VReads3 1 v2 v3 v4 mk2 Ty.f64.lanes c0 line0 line0 line0 act old c) ∧ SgnOp.neg ≠ SgnOp.abs ∧ (∃ c', writeV 3 line0 (freeV v3 c0) = .ok c') :=
  ⟨rfl, ⟨_, _, _, vreads1 16⟩, vreads2, vreads3, by decide, _, rfl⟩

theorem witness_VectorIntegerAndCompare : (Ty.n32.isInt = true ∧ ∃ act old c, VReads2 3 v3 v2 mk1 Ty.n32.lanes c0 line0 line0 act old c) ∧
    (Ty.i8.isCmpTy = true ∧ cmpPredOk .lt .i8 = true ∧ Ty.f64.isCmpTy = true ∧ cmpPredOk .un .f64 = true ∧ destM 2 c0 = .ok () ∧
      ∃ c1 c2 c3 act, readV v2 c0 = .ok (line0, c1) ∧ readV v3 c1 = .ok (line0, c2) ∧ activeLanes mk2 8 c2 = .ok (act, c3)) :=
  ⟨⟨rfl, vreads2⟩, rfl, rfl, rfl, rfl, rfl, _, _, _, _, rfl, rfl, rfl⟩

theorem witness_VectorMoves : (∃ act old c, VReads3 1 v2 v3 v4 mk2 Ty.i64.lanes c0 line0 line0 line0 act old c) ∧
    (∃ c1 c2 c3 c4 act old, destV 1 c0 = .ok () ∧ readV v2 c0 = .ok (line0, c1) ∧ readV v3 c1 = .ok (line0, c2) ∧ readM m2 c2 = .ok (5, c3) ∧
      activeLanes mk1 16 c3 = .ok (act, c4) ∧ oldV 1 c4 = .ok old) ∧
    (∃ c1 c2 act old, readS a3 c0 = .ok (5, c1) ∧ activeLanes mk1 16 c1 = .ok (act, c2) ∧ oldV 1 c2 = .ok old) :=
  ⟨vreads3, ⟨_, _, _, _, _, _, rfl, rfl, rfl, rfl, rfl, rfl⟩, _, _, _, _, rfl, rfl, rfl⟩

theorem witness_LanesAndMasks : (Ty.f16.isMem = true ∧ destV 1 c0 = .ok () ∧ ∃ c1 c2, readV v2 c0 = .ok (line0, c1) ∧ readM m2 c1 = .ok (5, c2) ∧
      ∃ c', writeV 1 line0 (freeM m2 (freeV v2 c2)) = .ok c') ∧
    (Ty.i8.isInt = true ∧ (63 : BitVec 6).toNat < Ty.i8.lanes ∧ (7 : BitVec 6).toNat < Ty.f64.lanes ∧ destS 1 c0 = .ok () ∧ destV ((1 : BitVec 6).setWidth 5) c0 = .ok ()) ∧
    (destM 1 c0 = .ok () ∧ ∃ c1 c2, readM m2 c0 = .ok (5, c1) ∧ readM ⟨true, false, 3⟩ c1 = .ok (5, c2)) ∧
    (destM ((1 : BitVec 6).setWidth 3) c0 = .ok () ∧ ∃ c1, readS a3 c0 = .ok (5, c1)) ∧ (∃ c1, readM ⟨a3.last, a3.trap, a3.reg.setWidth 3⟩ c0 = .ok (5, c1)) ∧
    ((0 : Nat) ≤ 64 ∧ (∀ i < 0, (5 : W64).getLsbD i = false) ∧ (0 < 64 → (5 : W64).getLsbD 0 = true)) ∧ ((64 : Nat) ≤ 64 ∧ ∀ i < 64, (0 : W64).getLsbD i = false) :=
  ⟨⟨rfl, rfl, _, _, rfl, rfl, _, rfl⟩, by decide +kernel, ⟨rfl, _, _, rfl, rfl⟩, ⟨rfl, _, rfl⟩, ⟨_, rfl⟩, by decide, by decide⟩

theorem witness_VectorConversion : (Ty.f64.isCvt = true ∧ Ty.i32.isCvt = true ∧ (1 : BitVec 4).toNat < cvtParts .f64 .i32 ∧ ∃ act old c, VReads1 1 v3 VMask.all Ty.i32.lanes c0 line0 act old c) ∧
    (∃ c1 c2 c3 act old, destV 1 c0 = .ok () ∧ readV v2 c0 = .ok (line0, c1) ∧ readS a3 c1 = .ok (5, c2) ∧ activeLanes mk1 8 c2 = .ok (act, c3) ∧ oldV 1 c3 = .ok old) :=
  ⟨⟨rfl, rfl, by decide, _, _, _, vreads1 16⟩, _, _, _, _, _, rfl, rfl, rfl, rfl, rfl⟩

theorem witness_PackAndMagnitude : (Ty.f32.isUnpk = true ∧ Ty.e4m3.isPacked = true ∧ unpkPair .e4m3 .f32 = true ∧ (3 : BitVec 4).toNat < packParts .e4m3 .f32 ∧
      ∃ act old c, VReads1 1 v3 VMask.all Ty.f32.lanes c0 line0 act old c) ∧
    (Ty.f32.isArith = true ∧ destS 1 c0 = .ok () ∧ ∃ c1 c2 act, readV v2 c0 = .ok (line0, c1) ∧ activeLanes mk1 16 c1 = .ok (act, c2)) ∧
    ((0x3F800000 : Nat) ∈ [0x3F800000, 0x7FC00000] ∧ (decodeF .f32 0x3F800000).isNan = false ∧ (decodeF .f32 0x7FC00000).isNan = true) :=
  ⟨⟨rfl, rfl, rfl, by decide, _, _, _, vreads1 16⟩, ⟨rfl, rfl, _, _, _, rfl, rfl⟩, by decide +kernel⟩

theorem witness_ComplexNumbers : Ty.f32.isCplx = true ∧ Ty.f64.isCplx = true ∧ (∃ act old c, VReads2 1 v2 v3 VMask.all 8 c0 line0 line0 act old c) ∧
    (∃ act old c, VReads1 1 v3 VMask.all 4 c0 line0 act old c) ∧ (∃ c1 c2 c3 c4 act old old1, destV 2 c0 = .ok () ∧ destV (2 + 1) c0 = .ok () ∧ readV v2 c0 = .ok (line0, c1) ∧
      readV v3 c1 = .ok (line0, c2) ∧ readV v4 c2 = .ok (line0, c3) ∧ activeLanes mk1 8 c3 = .ok (act, c4) ∧ oldV 2 c4 = .ok old ∧ oldV (2 + 1) c4 = .ok old1) :=
  ⟨rfl, rfl, ⟨_, _, _, rfl, _, _, _, rfl, rfl, rfl, rfl, rfl⟩, ⟨_, _, _, vreads1 4⟩, _, _, _, _, _, _, _, rfl, rfl, rfl, rfl, rfl, rfl, rfl, rfl⟩

theorem witness_ReductionsAndScans : Ty.n32.isRedTy = true ∧ Ty.bf16.isRedTy = true ∧ s0.me.gang = none ∧ destV 1 s0.me = .ok () ∧ Ty.n32.isInt = true ∧
    ∃ c1 c2 act, readV v2 s0.me = .ok (line0, c1) ∧ activeLanes mk1 16 c1 = .ok (act, c2) :=
  ⟨rfl, rfl, rfl, rfl, rfl, _, _, _, rfl, rfl⟩


/-! ### Memory of the core and weak accesses -/

theorem witness_MemoryReadAfterWrite : Mem.wf [(8, 1), (9, 2)] = true ∧ Mem.wf [] = true ∧ ∀ a : Nat, Mem.byte [] a = Mem.byte [] a := ⟨rfl, rfl, fun _ => rfl⟩

/-- The last line of bank 13 of another context. -/
theorem witness_OwnWrite : c0.lineOwner 14335 = 0 ∧ c0.lineOwner 14335 ≠ 7 ∧ c0.mem.wf = true ∧ bytesOf 0x0102030405060708 8 ≠ [] ∧ Owned c0 60 (bytesOf 0x0102030405060708 8).length := by
  unfold Owned; decide +kernel

theorem ownAt_of (s : State) (c : Core) (e : W64) (n : Nat) (h : OwnRange s e n ∧ Clean (c.claimAll s.me.act.ctx e.toNat n) e.toNat n) :
    OwnAt s c e n (c.claimAll s.me.act.ctx e.toNat n) :=
  ⟨h.1, rfl, h.2⟩

/-- Own words of the core of the tests: the first and the last of the ARRAY banks, and one under a lock. -/
theorem ownAt_8 : OwnAt s0 c0 8 8 c0 := by unfold OwnAt OwnRange Clean; decide +kernel
theorem ownAt_64 : OwnAt s0 c0 64 64 c0 := by unfold OwnAt OwnRange Clean; decide +kernel
def sLock : State := { s0 with me := { c0 with locks := [⟨0, 3, true, [(8, 16)]⟩] } }
/-- Context 0 owns cluster 0; s2 names word 0x40 of core 1, and the first word that the table of context 0 could map. -/
def sRem : State := { withS 2 0x00FE000008000040 with ctxs := [(0, { Ctx.reset 0 with d := (Ctx.reset 0).d.setIfInBounds 1 1 })] }
def hRem : Home := .local 1 0x40

theorem witness_LoadAndStoreOwn : (Ty.i64.isMem = true ∧ destS 1 s0.me = .ok () ∧ readS a2 (withS 2 4).me = .ok (4, (withS 2 4).me)) ∧
    (∃ cc c', OwnAt (withS 2 4) (freeS a2 (withS 2 4).me) (4 + (4 : BitVec 32).signExtend 64) 8 cc ∧ writeS 1 (loaded .i64 0) cc = .ok c') ∧
    (∃ cc, OwnAt (withS 2 0xDFFFC) (freeS a2 (withS 2 0xDFFFC).me) (0xDFFFC + (0xFFFFFFFC : BitVec 32).signExtend 64) 8 cc) ∧
    (5 + (0 : BitVec 32).signExtend 64 : W64).toNat % 8 ≠ 0 ∧ ((0x00200000 : W64).toNat % 8 = 0 ∧ s0.place 0x00200000 = .none) ∧
    ((8 : W64).toNat % 8 = 0 ∧ sLock.place 8 = .own (8 : W64).toNat ∧ (lockOn sLock.me.locks (8 : W64).toNat 8).isSome = true) ∧
    (s0.me.reads = [] ∧ OwnRange s0 8 8 ∧ needLines s0.me (linesOf (8 : W64).toNat 8) = .ok () ∧ needLines sLock.me (linesOf (8 : W64).toNat 8) = .ok ()) :=
  ⟨⟨rfl, rfl, rfl⟩, ⟨_, _, ⟨by unfold OwnRange; decide +kernel, rfl, by unfold Clean; decide +kernel⟩, rfl⟩,
    ⟨_, by unfold OwnRange; decide +kernel, rfl, by unfold Clean; decide +kernel⟩, by decide, ⟨by decide, by decide +kernel⟩, by decide +kernel, ⟨rfl, ownAt_8.1, rfl, rfl⟩⟩

def outS : Stream := ⟨56, 64, none, false, 0, 64, 64, true, 8, false, [(8, 8)], 0, [], false⟩
def hitCore : Core := { sRem.me with rcache := [(.local 1 0x40, 7)] }

theorem witness_RemoteWeak : (sRem.derr = [] ∧ readS a2 sRem.me = .ok (0x00FE000008000040, sRem.me) ∧ (∀ k o, sRem.place 0x00FE000008000040 ≠ .window k o) ∧
      reach sRem 0x00FE000008000040 8 true 0 = .ok (.home hRem) ∧ reach sRem 0x00FE000008000040 8 false 0 = .ok (.home hRem) ∧
      (freeS a2 sRem.me).outLine? hRem.lineOf.1 (tagFor hRem.lineOf.1 0x00FE000008000040) = none ∧ needOut (freeS a2 sRem.me) 1 = .ok ()) ∧
    (hitCore.cachedLine hRem.lineOf.1 = some 7 ∧ destS 1 hitCore = .ok () ∧ ∃ c', writeS 1 (loaded .i64 (lineNat (hitCore.overlay hRem.lineOf.1 7) hRem.lineOf.2 8)) hitCore = .ok c') ∧
    (destS 56 { sRem.me with streams := [outS] } = .ok () ∧ ({ sRem.me with streams := [outS] } : Core).stream? (scode 56) ≠ none) ∧
    (sRem.me.cachedLine hRem.lineOf.1 = none ∧ sRem.me.reads = [] ∧ sRem.me.rcache.length < Config.readCap ∧ sRem.permit hRem.lineOf.1.target = true ∧
      sRem.me.stream? (scode 1) = none) :=
  ⟨⟨rfl, rfl, by rw [show sRem.place 0x00FE000008000040 = .core 1 0x40 by decide +kernel]; simp, by decide +kernel, by decide +kernel, by decide +kernel, rfl⟩, ⟨rfl, rfl, _, rfl⟩, by decide +kernel,
    by decide +kernel⟩

/-- A context that owns lines 1 and 2 and reads through an index vector of zeros. -/
def sVec : State := { s0 with me := { (c0.setS 2 (.full 64)).setV 4 (.full 0) with ctl := Ctl.reset } }

theorem witness_VectorMemory : (Ty.f32.isMem = true ∧ destV 1 sVec.me = .ok () ∧ ∃ c1 c2 act old cc, readS a2 sVec.me = .ok (64, c1) ∧ activeLanes mk1 16 c1 = .ok (act, c2) ∧
      oldV 1 sVec.me = .ok old ∧ OwnAt sVec (freeS a2 c2) (64 + (0 : BitVec 24).signExtend 64) 64 cc) ∧
    (OwnRange sVec 64 64 ∧ Owned sVec.me 64 64 ∧ sVec.me.mem.wf = true ∧ needLines sVec.me [1] = .ok ()) ∧
    (∃ c1 c2 c3 act, readS a2 sVec.me = .ok (64, c1) ∧ readV v4 c1 = .ok (0, c2) ∧ activeLanes mk1 8 c2 = .ok (act, c3)) ∧
    (∀ i < 8, OwnRange sVec (64 + BitVec.ofInt 64 ((BitVec.ofNat 64 (laneAt 0 64 i)).toInt * (8 : Nat))) 8 ∧ Owned sVec.me 64 8 ∧ Clean sVec.me 64 8) ∧
    (sVec.me.reads = [] ∧ sVec.me.closing = [] ∧ sVec.me.seg.lines.length + 64 ≤ Config.undoCap) :=
  ⟨⟨rfl, rfl, _, _, _, _, _, rfl, rfl, rfl, by unfold OwnRange; decide +kernel, rfl, by unfold Clean; decide +kernel⟩, by unfold OwnRange Owned; decide +kernel,
    ⟨_, _, _, _, rfl, rfl, rfl⟩, by unfold OwnRange Owned Clean; decide +kernel, ⟨rfl, rfl, by decide +kernel⟩⟩

/-! ### Strong accesses -/

theorem witness_AtomicsAtTheHome : (Ty.n32.isInt = true ∧ (0xFFFFFFFF : Nat) < 2 ^ Ty.n32.width) ∧ (holds .ltn 1 2 ∧ ¬holds .ltn 2 1) ∧
    ((0xFFFF : Nat) < 2 ^ 16 ∧ (0xFFFFFFFF : Nat) < 2 ^ 32 ∧ (-2 ^ 47 : Int) ≤ -2 ^ 47 ∧ (-2 ^ 47 : Int) < 2 ^ 47) ∧
    (1 ≤ (1 : W64).toNat ∧ (0xFFFF : W64).toNat < 65536) ∧ (0 < 1 ∧ (0x7FFFFFFFFFFF : W64).toNat < 2 ^ 47 ∧ (-0x7FFFFFFFFFFF : Int) + (0x7FFFFFFFFFFF : W64).toNat < 2 ^ 47) ∧
    2 ^ 47 ≤ (0x800000000000 : W64).toNat ∧ (3 : W64).toNat % 2 ^ 32 ≠ 4 ∧ (3 : W64).toNat % 2 ^ 32 = 3 := by
  refine ⟨by decide, by simp [holds], ?_⟩; decide

theorem strongAt_of (s : State) (c : Core) (e : W64) (o n : Nat)
    (h : e.toNat % n = 0 ∧ (s.place e = .own o ∨ s.place e = .core s.cur o ∧ s.me.isArray (o / 65536) = true) ∧ lockOn s.me.locks o n = none ∧
      Clean (c.claimAll s.me.act.ctx o n) o n) : StrongAt s c e o n (c.claimAll s.me.act.ctx o n) :=
  ⟨h.1, h.2.1, h.2.2.1, rfl, h.2.2.2⟩

/-- The core of the tests names word 0x40 of its own window. -/
def sAlias : State := { sRem with me := (sRem.me.setS 2 (.full 0x00FE000000000040)) }

/-- A core whose own table maps the first virtual page, and one whose s2 names offset 0x20 of bank 0 of core 1. -/
def sVirt : State := { sRem with me := { (sRem.me.setS 2 (.full 0x2000000)) with tlb := [(16, 1, true)] } }
def sWin : State := { sRem with me := (sRem.me.setS 2 (.full 0x00FE000008000020)) }
/-- The home of a write at e lies in the scope and has a permit free. -/
def servedIn (s : State) (e : W64) (sc : Scope) : Bool :=
  match s.homeOf e true with
  | .ok h => s.inScope sc h && s.permit h.target
  | .error _ => false

theorem witness_StrongAccesses : (s0.me.irrev = none ∧ s0.me.reads = [] ∧ destS 1 s0.me = .ok () ∧ destS 0 s0.me = .ok ()) ∧
    (∃ c1 cc, readS a2 (withS 2 8).me = .ok (8, c1) ∧ StrongAt (withS 2 8) (freeS a2 c1) 8 8 8 cc ∧ needLines cc (linesOf 8 8) = .ok ()) ∧
    (∃ c1 c2 cc, readS a2 (withS 2 8).me = .ok (8, c1) ∧ readS a3 c1 = .ok (5, c2) ∧ StrongAt (withS 2 8) (freeS a3 (freeS a2 c2)) 8 8 8 cc) ∧
    (∃ c1 c2 c3 cc, readS a2 (withS 2 16).me = .ok (16, c1) ∧ readS a3 c1 = .ok (5, c2) ∧ readS a4 c2 = .ok (5, c3) ∧ StrongAt (withS 2 16) (freeS a4 (freeS a3 (freeS a2 c3))) 16 16 16 cc) ∧
    (∃ c1 cc, readS a2 sAlias.me = .ok (0x00FE000000000040, c1) ∧ StrongAt sAlias (freeS a2 c1) 0x00FE000000000040 64 8 cc) ∧
    (∃ new, (WordOp.aadd .i64 5).run 8 3 0 = .ok (some new) 3 0) ∧ (WordOp.waitm .eq .i64 5).run 8 3 0 = .poll ∧ (WordOp.lds .i64).run 8 3 0 = .ok none 3 0 ∧
    (sRem.me.reads = [] ∧ destS 1 sRem.me = .ok () ∧ destS 0 sRem.me = .ok () ∧ readS a2 sRem.me = .ok (0x00FE000008000040, sRem.me) ∧
      (∀ n ∈ [1, 2, 4, 8, 16], (0x00FE000008000040 : W64).toNat % n = 0) ∧ sRem.place 0x00FE000008000040 = .core 1 0x40 ∧ 1 ≠ sRem.cur ∧
      sRem.homeOf 0x00FE000008000040 true = .ok hRem ∧ pushOk 1 sRem.me = .ok () ∧ pushOk 0 sRem.me = .ok () ∧ sRem.me.stream? (scode 1) = none ∧
      sRem.me.irrev = none ∧ atBoundary sRem.me ∧ ({ sRem.me with irrev := some .bounded } : Core).irrev = some .bounded ∧
      ({ sRem.me with irrev := some (.sent 3) } : Core).irrev = some (.sent 3) ∧ sRem.me.closing = [] ∧ sRem.me.pubs = [] ∧
      sRem.inScope .cluster hRem = true ∧ sRem.inScope .core hRem = false ∧ sRem.permit hRem.target = true) ∧
    (readS a2 sVirt.me = .ok (0x2000000, sVirt.me) ∧ (∀ n ∈ [1, 2, 4, 8], (0x2000000 : W64).toNat % n = 0) ∧ sVirt.place 0x2000000 = .virt ∧ sVirt.derr = [] ∧
      servedIn sVirt 0x2000000 .package = true ∧ servedIn sVirt 0x2000000 .cluster = false) ∧
    (let e : W64 := 0x00FE000008000020
     readS a2 sWin.me = .ok (e, sWin.me) ∧ sWin.place e = .core 1 0x20 ∧ bits e 15 0 = 0x20 ∧ sWin.homeOf e true = .ok (.local 1 0x20) ∧
       sWin.inScope .cluster (.local 1 0x20) = true ∧ sWin.permit 1 = true ∧ a3.reg.getLsbD 0 = true ∧
       a4.reg.getLsbD 0 = false ∧ (sWin.me.regs.getS (a4.reg + 1)).live = true ∧ (readS (pairSrc a4) sWin.me).isOk = true) ∧
    s0.loopDone = true ∧ ({ s0 with me := { c0 with reads := [read0] } } : State).loopDone = false :=
  ⟨⟨rfl, rfl, rfl, rfl⟩, ⟨_, _, rfl, strongAt_of _ _ _ _ _ (by unfold Clean; decide +kernel), rfl⟩, ⟨_, _, _, rfl, rfl, strongAt_of _ _ _ _ _ (by unfold Clean; decide +kernel)⟩,
    ⟨_, _, _, _, rfl, rfl, rfl, strongAt_of _ _ _ _ _ (by unfold Clean; decide +kernel)⟩, ⟨_, _, rfl, strongAt_of _ _ _ _ _ (by unfold Clean; decide +kernel)⟩,
    ⟨8, by decide +kernel⟩, by unfold atBoundary; and_intros <;> decide +kernel⟩

/-! ### Banks -/

def fullWindow : List (Nat × W64 × W64) := (mapWindow 1 1).map fun n => (n, 0xABC, 0)
/-- A heap of two entries: key 5 with payload 1, key 7 with payload 2. -/
def heap2 : List HEntry := [(5, 1, 0), (7, 2, 1)]
theorem heap2_ordered : HeapOrdered 0 heap2 := by
  intro i h0 h
  have h' : i < 2 := h
  obtain rfl : i = 1 := by omega
  decide +kernel
theorem witness_MapsAndHeaps : (mapFind [(0x9E3, 1, 70)] 1 1 = some (0x9E3, 70) ∧ mapFind [] 1 1 = none ∧ (mapWindow 1 1).find? (fun n => (aget ([] : List (Nat × W64 × W64)) n).isNone) = some 0x9E3) ∧
    (mapFind fullWindow 1 1 = none ∧ ∀ n ∈ mapWindow 1 1, (aget fullWindow n).isSome = true) ∧
    (let c := c0.setBank 3 (Bank.reset (.map [(0x9E3, 1, 70)]))
     (c.bank 3).data = .map [(0x9E3, 1, 70)] ∧ (c.bank 3).span = 1) ∧ (2 : W64) ≠ 1 ∧
    (([] : List HEntry).length < 57344 ∧ HeapOrdered 0 [] ∧ 0 + 1 < 2 ^ 32) ∧
    (let c := c0.setBank 3 (Bank.reset (.heap heap2 2))
     (c.bank 3).data = .heap heap2 2 ∧ heap2.length ≤ 57344 ∧ HeapOrdered (c.bank 3).kfmt heap2 ∧ (∀ e ∈ heap2, e.2.1 ≠ 9) ∧ heap2[1]? = some (7, 2, 1) ∧
       (∀ j < 1, ∀ g, heap2[j]? = some g → g.2.1 ≠ 2) ∧ orderKey 6 (c.bank 3).kfmt < orderKey 7 (c.bank 3).kfmt ∧ orderKey 7 (c.bank 3).kfmt ≤ orderKey 8 (c.bank 3).kfmt ∧
       1 < heap2.length ∧ heap2.tail.length = 1) :=
  ⟨by decide +kernel, by decide +kernel, by decide +kernel, by decide, ⟨by decide, fun i _ h => absurd h (by simp), by decide⟩,
    by decide +kernel, by decide, by rw [show (((c0.setBank 3 (Bank.reset (.heap heap2 2))).bank 3).kfmt) = 0 by decide +kernel]; exact heap2_ordered,
    by decide, by decide, fun j hj g h => by obtain rfl : j = 0 := by omega
                                             obtain rfl : (5, 1, 0) = g := by simpa [heap2] using h
                                             decide,
    by decide +kernel, by decide +kernel, by decide, by decide⟩

def bankOf (d : Struct) : Bank := Bank.reset d
def inBank (a : W64) (b : Nat) (d : Struct) : State := { withS 2 a with me := (withS 2 a).me.setBank b (bankOf d) }
def sQueue : State := inBank 0x30000 3 (.queue 0 [7] [])
def sMap : State := inBank 0x30020 3 (.map [(0x9E3, 1, 70)])
def q1 (s : State) (d : Struct) : Core := s.me.setBank 3 { s.me.bank 3 with data := d }

/-- What a window operation of bank 3 that leaves q makes, where it reads lines. -/
def winAfter (s : State) (q : Core) (lines : List Nat) : Res Core := revocable s.me q (touched s.me q 3) (nunion lines (changedLines s.me q (touched s.me q 3)))
def gives (o : Res Core) (v : W64) (st : StsCode) : Bool :=
  match o with
  | .ok r => match writeS 1 v (r.setSts st) with | .ok _ => true | .error _ => false
  | .error _ => false

theorem gives_ok (o : Res Core) (v : W64) (st : StsCode) (h : gives o v st = true) : ∃ r c', o = .ok r ∧ writeS 1 v (r.setSts st) = .ok c' := by
  unfold gives at h
  cases o with
  | error e => simp at h
  | ok r => simp only at h; split at h <;> simp_all

theorem witness_OwnWindows : (sQueue.me.reads = [] ∧ sQueue.me.streams = [] ∧ destS 1 sQueue.me = .ok () ∧ readS a2 sQueue.me = .ok (0x30000, sQueue.me) ∧
      0x30000 + (0 : BitVec 32).signExtend 64 = BitVec.ofNat 64 (65536 * 3) ∧ (sQueue.me.bank 3).owner = sQueue.me.act.ctx ∧ (sQueue.me.bank 3).data = .queue 0 (7 :: []) [] ∧
      sQueue.me.poison = [] ∧ [(7 : W64)].length < (sQueue.me.bank 3).words) ∧
    sQueue.me.claimPool sQueue.me.act.ctx 3 = sQueue.me ∧
    (∃ r c', winAfter sQueue (q1 sQueue (.queue ((0 + 1) % (sQueue.me.bank 3).words) [] [])) (loadReads (sQueue.me.bank 3) 3 0) = .ok r ∧ writeS 1 7 (r.setSts .ok) = .ok c') ∧
    (let q := q1 sQueue (.queue 0 [7, 5] [])
     ∃ r c', revocable sQueue.me q (touched sQueue.me q 3) (changedLines sQueue.me q (touched sQueue.me q 3)) = .ok r ∧ writeS 1 0 (r.setSts .ok) = .ok c') ∧
    (sMap.me.irrev = none ∧ readS a2 sMap.me = .ok (BitVec.ofNat 64 (65536 * 3 + 0x20), sMap.me) ∧ (sMap.me.bank 3).owner = sMap.me.act.ctx ∧ (sMap.me.bank 3).data = .map [(0x9E3, 1, 70)] ∧
      mapFind [(0x9E3, 1, 70)] 1 (sMap.me.bank 3).span = some (0x9E3, 70) ∧ mapFind [(0x9E3, 1, 70)] 2 (sMap.me.bank 3).span = none) ∧
    (∃ r c', winAfter sMap sMap.me (xchReads (sMap.me.bank 3) 3 1) = .ok r ∧ writeS 1 70 (r.setSts .ok) = .ok c') ∧
    (∃ r c', winAfter sMap sMap.me (xchReads (sMap.me.bank 3) 3 2) = .ok r ∧ writeS 1 0 (r.setSts .absent) = .ok c') ∧
    (∃ r c', winAfter sMap (q1 sMap (.map (adel [(0x9E3, 1, 70)] 0x9E3))) (xchReads (sMap.me.bank 3) 3 1) = .ok r ∧ writeS 1 70 (r.setSts .ok) = .ok c') :=
  ⟨by decide +kernel, by decide +kernel, gives_ok _ _ _ (by decide +kernel), gives_ok _ _ _ (by decide +kernel), by decide +kernel,
    gives_ok _ _ _ (by decide +kernel), gives_ok _ _ _ (by decide +kernel), gives_ok _ _ _ (by decide +kernel)⟩

/-- Bank 3 of the core of the tests holds d, and the register of its pool names bank 4, which holds p. -/
def cStruct (d p : Struct) : Core := (c0.setBank 4 (Bank.reset p)).setBank 3 { Bank.reset d with poolb := 4 }

theorem witness_OwnWindows_structures :
    (((cStruct (.queue 5 [7, 8] []) .array).bank 3).data = .queue 5 [7, 8] [] ∧ ((cStruct (.queue 5 [7] [(2, 1, [10, 11])]) .array).bank 3).data = .queue 5 [7] [(2, 1, [10, 11])] ∧
      ((cStruct (.queue 5 [7] [(2, 1, [10])]) (.pool [2])).bank 3).data = .queue 5 [7] [(2, 1, [10])] ∧ ((cStruct (.queue 5 [] []) .array).bank 3).data = .queue 5 [] [] ∧
      (let c := cStruct (.queue 5 [] [(2, 1, [10])]) (.pool [2, 0])
       (c.bank (c.bank 3).poolb.toNat).data = .pool [2, 0] ∧ 1 < 1024 ∧ 1 ∉ [2, 0] ∧ (∀ m < 1, m ∈ [2, 0]) ∧ 1 + ([10] : List W64).length < 8)) ∧
    ((∀ used, ((cStruct (.queue 5 [] []) .array).bank ((cStruct (.queue 5 [] []) .array).bank 3).poolb.toNat).data ≠ .pool used) ∧
      (∀ n, n < 1024 → n ∈ List.range 1024) ∧ ([] : List W64).length < 8192 * 1 ∧ 8192 * 1 ≤ (List.replicate 8192 (0 : W64)).length) ∧
    (((cStruct (.stack [7]) .array).bank 3).data = .stack ([] ++ [7]) ∧ ((cStruct (.stack []) .array).bank 3).data = .stack []) ∧
    (((cStruct (.map []) .array).bank 3).data = .map [] ∧ ((cStruct (.heap heap2 2) .array).bank 3).data = .heap ((5, 1, 0) :: [(7, 2, 1)]) 2 ∧
      ((cStruct (.heap [] 2) .array).bank 3).data = .heap [] 2 ∧ heap2.length < 4096 * 1 ∧ 4096 * 1 ≤ (List.replicate 4096 ((0, 0, 0) : HEntry)).length) ∧
    (((cStruct (.hist [(1, 5)]) .array).bank 3).data = .hist [(1, 5)] ∧ bits (0xFFFF : W64) 63 46 < 8192 * 1 ∧ 8192 * 1 ≤ bits (0x8000000000000000 : W64) 63 46 ∧
      (8191 : W64).toNat < 8192 * 1 ∧ 8192 * 1 ≤ (8192 : W64).toNat) ∧
    (((cStruct (.pool [5]) .array).bank 3).data = .pool [5] ∧ (c0.bank 14).data = .deque ∧ (c0.bank 15).data = .mailbox ∧ (∀ l, (c0.bank 14).data ≠ .member l) ∧
      (cStruct (.map []) .array).bank 3 ≠ c0.bank 3 ∧ Ty.i32 ∉ [Ty.i64, .n64, .f64]) := by
  refine ⟨by decide +kernel, ⟨fun used h => ?_, fun n h => List.mem_range.2 h, by decide, (List.length_replicate ..).ge⟩, by decide +kernel, ⟨by decide +kernel, by decide +kernel, by decide +kernel, by decide, (List.length_replicate ..).ge⟩,
    by decide +kernel, by decide +kernel, by decide +kernel, by decide +kernel, fun l h => ?_, by decide +kernel, by decide⟩
  · rw [show ((cStruct (.queue 5 [] []) .array).bank ((cStruct (.queue 5 [] []) .array).bank 3).poolb.toNat).data = .array by decide +kernel] at h; cases h
  · rw [show (c0.bank 14).data = .deque by decide +kernel] at h; cases h

/-- The operation on the window of bank b is served and d is written. -/
def winEnds (d : BitVec 6) (b off : Nat) (op : WordOp) (c : Core) : Bool :=
  let c := (c.claimBank c.act.ctx b).claimPool c.act.ctx b
  match winOp c b off op (d.getLsbD 0) with
  | .bad => false
  | .ok q v v1 sts =>
    (op.winReads (c.bank b) b off).all (fun n => !c.poison.contains n) &&
      match revocable c q (touched c q b) (nunion (op.winReads (c.bank b) b off) (changedLines c q (touched c q b))) with
      | .error _ => false
      | .ok r => match writeS d v (r.setSts sts) with
        | .error _ => false
        | .ok c1 => (match v1 with | some x => writeS (d + 1) x c1 | none => .ok c1).isOk

def sPairs (off : W64) : State := inBank (0x30000 + off) 3 (.heap heap2 2)

theorem witness_OwnWindows_own :
    (sQueue.me.reads = [] ∧ sQueue.me.irrev = none ∧ destS 1 sQueue.me = .ok () ∧ readS a2 sQueue.me = .ok (0x30000, sQueue.me) ∧ (0x30000 : W64).toNat % 8 = 0 ∧
      sQueue.place 0x30000 = .window 3 0 ∧ sQueue.strongPlace 0x30000 = .window 3 0 ∧ (sQueue.me.bank 3).pairs? false 0 = false ∧
      winEnds 1 3 0 (.lds .i64) (freeS a2 sQueue.me) = true ∧ winOp sQueue.me 3 0x28 (.lds .i64) true = .bad) ∧
    (let s := sPairs 0
     (s.me.bank 3).pairs? false 0 = true ∧ (s.me.bank 3).pairs? true 0 = true ∧ destS 2 s.me = .ok () ∧ destS 3 s.me = .ok () ∧ readS a2 s.me = .ok (0x30000, s.me) ∧
       winEnds 2 3 0 (.lds .i64) (freeS a2 s.me) = true ∧ readS a4 s.me = .ok (5, s.me) ∧ a4.reg.getLsbD 0 = false ∧ a3.reg.getLsbD 0 = true ∧ readS (pairSrc a4) s.me = .ok (5, s.me) ∧
       winEnds 0 3 0 (.sts .i64 5 5 false) (freeS (pairSrc a4) (freeS a4 (freeS a2 s.me))) = true ∧ winOp s.me 3 0 (.sts .i64 5 0 true) false = .bad) ∧
    (winEnds 0 3 0 (.sts .i64 5 0 true) (freeS a3 (freeS a2 sQueue.me)) = true ∧ (sQueue.me.bank 3).pairs? true 0 = false) ∧
    (let s := sPairs 0x20
     s.strongPlace 0x30020 = .window 3 0x20 ∧ (s.me.bank 3).data.code = 4 ∧ winEnds 1 3 0x20 (.xch .deckey 2 5 false) (freeS (pairSrc a4) (freeS a4 (freeS a2 s.me))) = true ∧
       winOp s.me 3 0x20 (.xch .lookup 2 0 false) true = .bad) ∧
    winEnds 1 3 0x20 (.xch .lookup 1 0 true) (freeS a3 (freeS a2 sMap.me)) = true := by
  and_intros <;> decide +kernel

/-- The core once it has claimed bank k. -/
def cl (s : State) (k : Nat) : Core := s.me.claimLines s.me.act.ctx k
/-- Bank 3 in ARRAY; a HEAP of two entries; a STACK over banks 2 and 3. -/
def sBank : State := withS 2 3
def sHeap : State := inBank 3 3 (.heap [(1, 10, 0), (2, 20, 1)] 2)
def sSpan : State :=
  { withS 2 0x12 with me := ((withS 2 0x12).me.setBank 2 { bankOf (.stack [9]) with span := 2 }).setBank 3 (bankOf (.member 2)) }
def sJoin : State := { withS 2 0x12 with me := (withS 2 0x12).me.setBank 2 (bankOf (.stack [])) }

theorem witness_BankInstructions : (sBank.me.reads = [] ∧ sBank.me.streams = [] ∧ destS 1 sBank.me = .ok () ∧ readS a2 sBank.me = .ok (3, sBank.me)) ∧
    (let cc := sBank.me.claimBank sBank.me.act.ctx 3
     ∃ r c', touchOnly cc [cc.leader 3] = .ok r ∧ writeS 1 (cc.bankWord 3 (Bank.count cc (cc.leader 3))) (r.setSts .ok) = .ok c') ∧
    (cfgMask 0xF0000004 ((cl sBank 3).bank 3).data = 0 ∧ singleBank (cl sBank 3) 3 = true ∧ ImageReady (cl sBank 3) 3 ∧ poolTouched (cl sBank 3) 3 = [] ∧
      ¬(((cl sBank 3).bank 3).data.isArray = true ∧ bits (0xF0000004 : W64) 3 0 = 0) ∧ ¬(((cl sBank 3).bank 3).data.code = 4 ∧ bits (0xF0000004 : W64) 3 0 = 4) ∧
      ((cl sBank 3).bank 3).data = .array ∧ (∀ l, ((cl sBank 3).bank 3).data = .pool l → l = []) ∧ (cl sBank 3).poison = [] ∧ build 4 false 0 ((cl sBank 3).items 3 4 0) ((cl sBank 3).holdsItems 3 0) = .ok (.heap [] 0)) ∧
    (singleBank (cl sHeap 3) 3 = true ∧ ImageReady (cl sHeap 3) 3 ∧ (cl sHeap 3).poison = [] ∧ ((cl sHeap 3).bank 3).data = .heap [(1, 10, 0), (2, 20, 1)] 2 ∧ ((cl sHeap 3).bank 3).kfmt ≠ (1 : W64).setWidth 2 ∧
      (1 : W64).toNat < 4 ∧ sHeap.me.mem.wf = true) ∧
    ((cl sSpan 2).leader 2 = 2 ∧ ((cl sSpan 2).bank 2).data.code = 2 ∧ (∀ j < 14, 2 < j → j < 2 + 2 → ((cl sSpan 2).bank j).data = .member 2) ∧ ((cl sSpan 2).bank 2).span = 2) ∧
    (∃ r c', touchOnly (cl sSpan 2) ((cl sSpan 2).spanOf 2) = .ok r ∧ writeS 1 ((cl sSpan 2).bankState 2) (r.setSts .present) = .ok c') ∧
    ((cl sJoin 2).leader 2 = 2 ∧ ((cl sJoin 2).bank 2).data.code = 2 ∧ (∀ j < 14, 2 < j → j < 2 + 2 → (cl sJoin 2).isArray j = true) ∧ ((cl sJoin 2).bank 2).span = 1 ∧
      Bank.count (cl sJoin 2) 2 = 0) ∧
    (let c := (spanBanks 2 2).foldl (fun c j => c.claimLines c.act.ctx j) (cl sJoin 2)
     ∃ r c', revocable c (c.respan 2 2) (spanBanks 2 2) ((spanBanks 2 2).map metaLine) = .ok r ∧ writeS 1 0 (r.setSts .ok) = .ok c') := by
  refine ⟨⟨rfl, rfl, rfl, rfl⟩, gives_ok _ _ _ (by decide +kernel), ⟨?_, ?_⟩, ?_, by decide +kernel, gives_ok _ _ _ (by decide +kernel), by decide +kernel,
    gives_ok _ _ _ (by decide +kernel)⟩
  · decide +kernel
  · have e : ((cl sBank 3).bank 3).data = .array := by decide +kernel
    unfold ImageReady
    simp only [e]
    and_intros <;> first | decide +kernel | (intro l h; cases h)
  · unfold ImageReady; decide +kernel

/-! ### Messages, tasks, streams -/

/-- Context 0 owns cluster 0, has one handle of 4 KiB at PA 1 MiB, and runs in every row of the cluster; the words ws stand at 64, which s2 names. -/
def withBlock (ws : List W64) : State :=
  { withS 2 64 with
    me := { (c0.setS 2 (.full 64)) with mem := Mem.put [] 64 (wordBytes ws) }
    ctxs := [(0, { Ctx.reset 0 with d := (((Ctx.reset 0).d.setIfInBounds 0 0x0020000000000001).setIfInBounds 1 1).setIfInBounds 4 0x1000 })]
    dram := Mem.put [] 0x1000 (wordBytes [0xE000000000001000, 0x100000])
    leases := [(0, ⟨.running, 0, none, 0, []⟩), (1, ⟨.running, 0, none, 0, []⟩)] }

def sMsg : State := withBlock [0, 0, 1, 0, 0, 0, 3, 0]
/-- Word w in s2 and 64 in s3. -/
def twoWords (w : W64) : State := { sMsg with me := ((sMsg.me.setS 2 (.full w)).setS 3 (.full 64)) }

theorem witness_MessagesAndTasks : (sMsg.cur < 8192 ∧ sMsg.me.reads = [] ∧ sMsg.me.irrev = none ∧ sMsg.me.streams = [] ∧ destS 1 sMsg.me = .ok () ∧ needOut sMsg.me 1 = .ok ()) ∧
    (∃ c1 c2 cc, readS a2 (twoWords 0x800).me = .ok (0x800, c1) ∧ readS a3 c1 = .ok (64, c2) ∧ OwnAt (twoWords 0x800) (freeS a3 (freeS a2 c2)) 64 64 cc) ∧
    ((0x800 : W64) &&& 0xFF00000F000007FF = 0 ∧ (0x1 : W64) &&& 0xFF00000F000007FF ≠ 0 ∧ (5 : W64).toNat % 64 ≠ 0) ∧
    (let s := twoWords 0
     let l := s.lease (rowId 0)
     (0 : W64).extractLsb' 48 8 = s.me.act.lnch ∧ (0 : W64).extractLsb' 24 8 = s.pkgid ∧ s.inScope .cluster (.local 0 0) = true ∧
       (s.ctx s.me.act.ctx.toNat).hasCluster (clusterOf 0) = true ∧ l.st = .running ∧ l.ctx = s.me.act.ctx ∧ l.cur = s.me.act.lnch ∧ s.me.deque.length < 1024 ∧
       (s.me.bank 14).owner = s.me.act.ctx ∧ needLines s.me s.me.dequeLines = .ok () ∧ s.inScope .core (.local 1 0) = false ∧ s.inScope .cluster (.local 1 0) = true ∧ rowId 1 = rowId 0) ∧
    atBoundary (twoWords 0x800).me ∧
    (let c : Core := { (twoWords 0).me with deque := List.replicate 1024 ⟨Msg.zero, none, 0, false⟩ }
     needLines c [dequeMeta] = .ok () ∧ ∃ c', writeS 1 0 ((c.holdDeque [dequeMeta]).setSts .full) = .ok c') ∧
    (∃ c1 cc, readS a2 sMsg.me = .ok (64, c1) ∧ OwnAt sMsg (freeS a2 c1) 64 64 cc ∧ launchMask (Mem.msg cc.mem 64) sMsg.me.act.ctx = 0 ∧
      ((launchClusters (Mem.msg cc.mem 64)).all fun k => (sMsg.ctx sMsg.me.act.ctx.toNat).hasCluster k) = true) ∧
    ((launchClusters (Mem.msg (withBlock [0, 0, 2, 0, 0, 0, 3, 0]).me.mem 64)).all fun k => (sMsg.ctx 0).hasCluster k) = false ∧
    ((6 : BitVec 3) ≠ 7 ∧ destS 1 sMsg.me = .ok () ∧ ∃ c', writeS 1 0 { sMsg.me with stealCtr := aset sMsg.me.stealCtr 6 0 } = .ok c') := by
  refine ⟨by decide +kernel, ⟨_, _, _, rfl, rfl, by unfold OwnRange; decide +kernel, rfl, by unfold Clean; decide +kernel⟩, by decide, by decide +kernel,
    by unfold atBoundary; decide +kernel, ⟨rfl, _, rfl⟩, ⟨_, _, rfl, ⟨by unfold OwnRange; decide +kernel, rfl, by unfold Clean; decide +kernel⟩, by decide +kernel, by decide +kernel⟩,
    by decide +kernel, by decide, rfl, _, rfl⟩

/-- An input stream of 4 words at 0x2000 for s56, and one through the handle. -/
def sBind : State := withBlock [0x2000, 3, 0x0000000800000004, 0, 0, 0, 0, 0]
def sBindH : State := withBlock [0x40, 0x43, 0x0000000800000004, 0, 0, 0, 0, 0]
def str0 : Stream := ⟨56, 0x2000, none, false, 0, 0x2000, 32, false, 8, false, [(4, 8)], 0, [], false⟩
def strOut : Stream := { str0 with code := 57, out := true }
def strEnd : Stream := { str0 with code := 58, pos := 4 }
def strBuf : Stream := { str0 with code := 59, buf := [7] }
def cStr : Core := { c0 with streams := [str0, strOut, strEnd, strBuf] }
/-- Pours 3 and 4 of the core, of which 4 was aborted; COLLs 5, running, and 6, done. -/
def sQry : State := { sMsg with me := { (sMsg.me.setS 2 (.full 4)) with pours := [(3, Msg.zero, none), (4, Msg.zero, some 64)], colls := [(4, 9), (6, 0)] } }

theorem witness_StreamsAndQueries : (∃ c1 cc, readS a2 sBind.me = .ok (64, c1) ∧ OwnAt sBind (freeS a2 c1) 64 64 cc ∧ descMask (Mem.msg cc.mem 64) false = 0) ∧
    (let q := StreamDesc.of (Mem.msg sBind.me.mem 64)
     ((0x2000 : Nat) : Int) = ((0x2000 : Nat) : Int) + q.extent.1 ∧ 32 = (q.extent.2 - q.extent.1).toNat + q.esz) ∧
    (sBind.me.streams.all (fun b => b.code != 56) = true ∧ cStr.streams.all (fun b => b.code != 56) = false ∧ sBind.me.ownArray 0x2000 32 = true ∧
      lockConflict sBind.me.locks false [(0x2000, 32)] = none ∧ sBind.lockEntries (clusterOf sBind.cur) < 1024 ∧ destS 56 sBind.me = .ok () ∧ destV 24 sBind.me = .ok ()) ∧
    (sBindH.me.closing = [] ∧ sBindH.me.pubs = [] ∧ (sBindH.handle 0 0).isSome = true ∧ (sBindH.handle 0 0).all (fun e => decide (0x40 + 32 ≤ e.len) && e.rd) = true ∧
      lockConflict sBindH.dlocks false [(0x100040, 32)] = none) ∧
    (cStr.stream? (scode 57) = some strOut ∧ strOut.revoked = false ∧ strOut.out = true) ∧ (cStr.stream? (scode 58) = some strEnd ∧ strEnd.done = true) ∧
    (cStr.stream? (scode 59) = some strBuf ∧ strBuf.out = false ∧ strBuf.done = false ∧ strBuf.buf = 7 :: []) ∧ (cStr.stream? (scode 56) = some str0 ∧ str0.buf = [] ∧ str0.done = false) ∧
    (destS 1 sQry.me = .ok () ∧ readS a2 sQry.me = .ok (4, sQry.me) ∧ streamCode ((24 : W64).setWidth 6) = true ∧ streamCode ((63 : W64).setWidth 6) = true ∧ (63 : W64).toNat < 64 ∧
      64 ≤ (64 : W64).toNat ∧ (0xFFFF : W64).toNat < 65536 ∧ 65536 ≤ (0x10000 : W64).toNat) ∧
    (sQry.me.pours.find? (fun p => p.1 == 5) = none ∧ sQry.me.pours.find? (fun p => p.1 == 4) = some (4, Msg.zero, some 64) ∧ sQry.pours = [] ∧
      sQry.me.colls.find? (fun p => p.1 == 5) = none ∧ sQry.me.colls.find? (fun p => p.1 == 4) = some (4, 9) ∧ sQry.me.colls.find? (fun p => p.1 == 6) = some (6, 0) ∧
      ((sQry.me.op? 4).any fun o => o.seg == sQry.me.seg.id) = false) ∧
    (∃ c', writeS 1 0 (freeS a2 sQry.me) = .ok c') := by
  refine ⟨⟨_, _, rfl, ownAt_of _ _ _ _ (by unfold OwnRange Clean; decide +kernel), by decide +kernel⟩, ?_⟩
  and_intros <;> first | decide +kernel | exact ⟨_, rfl⟩

/-- Output streams of words: of s57 and of v24 in own memory with their locks, and of s58 behind a handle; one that has no lock yet. -/
def strPush : Stream := { strOut with len := 64, dims := [(8, 8)] }
def strPushV : Stream := { strPush with code := 24, dims := [(4, 64), (8, 8)], len := 256 }
def strPushH : Stream := { strPush with code := 58, hdl := some 0, base := 0x100000, lo := 0x100000 }
def cPush : Core := { c0 with streams := [strPush, strPushV, strPushH], locks := [⟨0, streamKey 57, true, [(0x2000, 64)]⟩, ⟨0, streamKey 24, true, [(0x2000, 256)]⟩] }

theorem witness_StreamsAndQueries_pushes :
    (cPush.stream? (scode 57) = some strPush ∧ strPush.revoked = false ∧ 32 ≤ (57 : BitVec 6).toNat ∧ strPush.esz ∈ [1, 2, 4, 8] ∧ strPush.out = true ∧ strPush.done = false ∧
      cPush.locked strPush = true ∧ ({ cPush with locks := [] } : Core).locked strPush = false ∧ cPush.reads = [] ∧ strPush.hdl = none ∧ Owned cPush (strPush.addr strPush.pos) 8 ∧
      needLines cPush (linesOf (strPush.addr strPush.pos) 8) = .ok ()) ∧
    (cPush.stream? (scode 58) = some strPushH ∧ strPushH.done = false ∧ cPush.locked strPushH = true ∧ strPushH.hdl ≠ none ∧
      cPush.outLine? (strPushH.home (strPushH.addr strPushH.pos)) strPushH.tag = none ∧ needOut cPush 1 = .ok ()) ∧
    (cPush.stream? (24 : BitVec 5).toNat = some strPushV ∧ strPushV.done = false ∧ cPush.locked strPushV = true ∧ (∀ j < 64 / strPushV.esz, Owned cPush (strPushV.addr (strPushV.pos * 8 + j)) 8) ∧
      needLines cPush ((List.range 8).flatMap fun j => linesOf (strPushV.addr (strPushV.pos * 8 + j)) 8) = .ok ()) := by
  unfold Owned
  and_intros <;> decide +kernel

/-- A COLL of the open segment. -/
def sColl : State := { sQry with me := { sQry.me with ops := [{ c0.newOp .pswap 4 none 0 with kind := .coll Msg.zero 0 [] }] } }

theorem witness_StreamAndQueryCompletion : (∀ s ∈ [sBind, sBindH], s.me.reads = [] ∧ s.me.regs.getS 56 ≠ .empty ∧ s.me.regs.getV 24 ≠ .empty ∧ s.me.stream? (56 : BitVec 6).toNat = none ∧
      s.me.stream? (scode a2.reg) = none ∧ s.me.regs.getS a2.reg = .full 64 ∧ s.me.closing = [] ∧ s.me.pubs = []) ∧
    (∃ cc, OwnAt sBind (freeS a2 sBind.me) 64 64 cc ∧ descMask (Mem.msg cc.mem 64) false = 0 ∧
      let q := StreamDesc.of (Mem.msg cc.mem 64)
      let w := (Mem.msg cc.mem 64).toList.getD 0 0
      let len := (q.extent.2 - q.extent.1).toNat + q.esz
      q.hdl = false ∧ ((0x2000 : Nat) : Int) = (w.toNat : Int) + q.extent.1 ∧ sBind.me.ownArray (BitVec.ofNat 64 0x2000) len = true ∧
        lockConflict sBind.me.locks q.out [(0x2000, len)] = none ∧ sBind.lockEntries (clusterOf sBind.cur) < 1024) ∧
    (∃ cc h, OwnAt sBindH (freeS a2 sBindH.me) 64 64 cc ∧ descMask (Mem.msg cc.mem 64) false = 0 ∧
      let q := StreamDesc.of (Mem.msg cc.mem 64)
      let w := (Mem.msg cc.mem 64).toList.getD 0 0
      let len := (q.extent.2 - q.extent.1).toNat + q.esz
      q.hdl = true ∧ ((0x40 : Nat) : Int) = ((bits w 47 0 : Nat) : Int) + q.extent.1 ∧ sBindH.handle sBindH.me.act.ctx.toNat (bits w 63 48) = some h ∧ 0x40 + len ≤ h.len ∧
        (if q.out then h.wr else h.rd) = true ∧ lockConflict sBindH.dlocks q.out [(h.base + 0x40, len)] = none) ∧
    (∀ s ∈ [sQry, sColl], s.me.regs.getS 1 ≠ .empty ∧ s.me.stream? (scode 1) = none ∧ s.me.regs.getS a2.reg = .full 4 ∧ s.me.stream? (scode a2.reg) = none) ∧
    ((4 : W64).toNat < 65536 ∧ (24 : W64).toNat < 64 ∧ streamCode ((24 : W64).setWidth 6) = true ∧ sQry.me.colls.find? (fun p => p.1 == 5) = none) ∧
    (sColl.me.colls.find? (fun p => p.1 == (4 : W64).toNat) = some ((4 : W64).toNat, 9) ∧ ((sColl.me.op? (4 : W64).toNat).any fun o => o.seg == sColl.me.seg.id) = true ∧
      ((sQry.me.op? (4 : W64).toNat).any fun o => o.seg == sQry.me.seg.id) = false ∧ 9 ≠ 0) := by
  refine ⟨by decide +kernel, ⟨_, ownAt_of _ _ _ _ ?_, ?_⟩, ⟨_, (sBindH.handle 0 0).get (by decide +kernel), ownAt_of _ _ _ _ ?_, ?_⟩, ?_⟩
  · unfold OwnRange Clean; decide +kernel
  · decide +kernel
  · unfold OwnRange Clean; decide +kernel
  · decide +kernel
  · decide +kernel

/-! ### Engines of a core -/

/-- A tile at 0x2000 in s2, a descriptor in s3, a stamp address in s4. -/
def sEng (x w z : W64) : State := { sMsg with me := ((sMsg.me.setS 2 (.full x)).setS 3 (.full w)).setS 4 (.full z) }
/-- An f32 tile without a stamp; a run of one row on f64 with stamp 0x5000; a sort without a stamp. -/
def wLoad : W64 := 0x51
def wRun : W64 := 0x0000000400100000
def wSort : W64 := 0x20

/-- A GSORT in flight. -/
def cSorting : Core := { c0 with ops := [c0.newOp (.gsort 0x2000 wSort) 1 none 0] }

theorem witness_EngineIssue : (∃ c1 c2 c3, destS 1 (sEng 0x2000 wLoad 0).me = .ok () ∧ readS a2 (sEng 0x2000 wLoad 0).me = .ok (0x2000, c1) ∧ readS a3 c1 = .ok (wLoad, c2) ∧
      readStamp c2 (wLoad.getLsbD 6) a4 = .ok (none, c3)) ∧
    (loadMask wLoad = 0 ∧ (0x2000 : W64).toNat % 64 = 0 ∧ sMsg.me.ownArray 0x2000 (loadBytes wLoad) = true ∧ sMsg.me.pressQueue.length < 8 ∧
      lockConflict sMsg.me.locks false [(0x2000, loadBytes wLoad)] = none ∧ sMsg.lockEntries (clusterOf sMsg.cur) < 1024) ∧
    (∃ c1, readS a4 (sEng 0 0 0x5000).me = .ok (0x5000, c1) ∧ (0x5000 : W64).toNat % 8 = 0 ∧ (sEng 0 0 0x5000).me.ownArray 0x5000 8 = true) ∧
    (∃ c1 c2 c3, readS a2 (sEng 0x2000 wRun 0x5000).me = .ok (0x2000, c1) ∧ readS a3 c1 = .ok (wRun, c2) ∧ readStamp c2 (wRun.getLsbD 24) a4 = .ok (some 0x5000, c3)) ∧
    (let r := RunCmd.of wRun
     sMsg.me.gang = none ∧ cmdMask wRun = 0 ∧ suits sMsg.me.fmtsAhead.1 r.ty = true ∧ r.m * rowOut sMsg.me.fmtsAhead.1 ≤ 32768 ∧ r.row0 + r.m ≤ 256 ∧ (0x2000 : W64).toNat % 16 = 0 ∧
       sMsg.me.arrayRanges (actRanges 0x2000 r) = true ∧ sMsg.me.fenced = false ∧ lockConflict sMsg.me.locks false (actRanges 0x2000 r) = none ∧
       sMsg.me.ringUsed + r.m * rowOut sMsg.me.fmtsAhead.1 ≤ Config.ringCap) ∧
    (∃ c1 c2 c3, readS a2 (sEng 0x2000 wSort 0).me = .ok (0x2000, c1) ∧ readS a3 c1 = .ok (wSort, c2) ∧ readStamp c2 (wSort.getLsbD 5) a4 = .ok (none, c3)) ∧
    (wSort &&& 0xFFFFFFFFFFFFF0C0 = 0 ∧ sMsg.me.ownArray 0x2000 1024 = true ∧ (0x2000 : W64).toNat % 65536 + 1024 ≤ 65536 ∧ (∀ o ∈ sMsg.me.ops, o.kind.sort?.isSome = true → o.st = .complete) ∧ (∃ o ∈ cSorting.ops, o.kind.sort?.isSome = true ∧ o.st ≠ .complete) ∧ sMsg.lockEntries (clusterOf sMsg.cur) < 1024 ∧
      lockConflict sMsg.me.locks true [(0x2000, 1024)] = none ∧ sMsg.me.ringUsed + 1024 ≤ Config.ringCap ∧ wSort.getLsbD 3 = false) ∧
    (let s := withBlock [0x2000, 0, 0, 0x1000, 0, 0, 0, 0]
     let m := Mem.msg s.me.mem 64
     let q := CollDesc.of m
     (∃ c1 cc, readS a2 s.me = .ok (64, c1) ∧ OwnAt s (freeS a2 c1) 64 64 cc) ∧ collMask m = none ∧ inOneBank s.me q.buf q.len = true ∧ q.nstp = true ∧ s.mapFault q = none ∧ s.derr = [] ∧ s.mapClean q = .ok () ∧
       s.badEntryOf q = none ∧ lockConflict s.me.locks q.writes [(q.buf.toNat, q.len)] = none ∧ s.lockEntries (clusterOf s.cur) < 1024 ∧ s.me.ringUsed + 320 ≤ Config.ringCap) ∧
    (let s := withBlock [0x2000, 0x4000, 0x8000000, 0, 0, 0x5000, 0, 0]
     let m := Mem.msg s.me.mem 64
     let p := PourDesc.of m
     (∃ c1 cc, readS a2 s.me = .ok (64, c1) ∧ OwnAt s (freeS a2 c1) 64 64 cc) ∧ pourMask m = none ∧ s.me.closing = [] ∧ s.me.pubs = [] ∧ s.me.streams = [] ∧ s.pourRange p = none ∧
       p.sh = false ∧ p.dk = 0 ∧ s.pourConflict p = none ∧ s.pourEntries p = true ∧ (s.pours.filter fun q => q.cluster == clusterOf s.cur && q.ch == p.ch && !q.moving).length < 16 ∧
       s.me.ringUsed + 64 * (nunion [] (p.dstRanges.flatMap fun r => linesOf r.1 r.2)).length ≤ Config.ringCap) ∧
    ((pourMask (Mem.msg (withBlock [0x2001, 0x4000, 0x8000000, 0, 0, 0x5000, 0, 0]).me.mem 64)).isSome = true ∧
      (PourDesc.of (Mem.msg (withBlock [0x2000, 0x4000, 0x8000000, 0, 0x8000000000, 0x5000, 1, 0]).me.mem 64)).dk ≠ 0 ∧
      pourMask (Mem.msg (withBlock [0x40, 0x4000, 0x8000000, 0, 0x2000000000, 0x5000, 0, 0]).me.mem 64) = none) := by
  let l := (sEng 0x2000 wLoad 0).me
  let r := (sEng 0x2000 wRun 0x5000).me
  let g := (sEng 0x2000 wSort 0).me
  refine ⟨⟨l, l, l, rfl, rfl, rfl, rfl⟩, ?_, ⟨(sEng 0 0 0x5000).me, rfl, ?_⟩, ⟨r, r, r, rfl, rfl, rfl⟩, ?_, ⟨g, g, g, rfl, rfl, rfl⟩, ?_,
    ⟨⟨_, _, rfl, ownAt_of _ _ _ _ (by unfold OwnRange Clean; decide +kernel)⟩, ?_⟩, ⟨⟨_, _, rfl, ownAt_of _ _ _ _ (by unfold OwnRange Clean; decide +kernel)⟩, ?_⟩, ?_⟩
  all_goals decide +kernel


/-- Row 255, quarter 3, without a zeroing bit; the first row with CLR. -/
theorem witness_AccumulatorDrain : (sMsg.me.reads = [] ∧ destV 1 sMsg.me = .ok () ∧ (∃ c1, readS a2 (withS 2 0x3FF).me = .ok (0x3FF, c1)) ∧ 4096 ≤ (0x1000 : W64).toNat ∧ (0x3FF : W64).toNat < 4096 ∧
      rowsDone (withS 2 0x3FF).me 255 1 = .ok () ∧ ((withS 2 0x3FF).me.claimRow 0 255).accPoison.contains (4 * 255 + 3) = false ∧ ((withS 2 0x3FF).me.claimRow 0 255).acc.wf = true ∧
      (withS 2 0x3FF).me.ringUsed + 64 ≤ Config.ringCap) ∧
    (∃ c', writeV 1 0 ((withS 2 0x3FF).me.claimRow 0 255) = .ok c') ∧
    (let s := sEng 0x2000 0x00810100 0
     let w : W64 := 0x00810100
     (∃ c1 c2, readS a2 s.me = .ok (0x2000, c1) ∧ readS a3 c1 = .ok (w, c2)) ∧ Ty.f32.isMem = true ∧ drainMask w .f64 .f32 = 0 ∧ bits w 7 0 + (bits w 15 8 + 1) ≤ 256 ∧
       (0x2000 : W64).toNat % 4 = 0 ∧ s.me.arrayRanges ((List.range 2).map fun r => ((0x2000 : W64).toNat + 16 * bits w 30 23 * r, 2 * 4)) = true ∧
       rowsDone s.me 0 2 = .ok () ∧ w.getLsbD 22 = false ∧ needLines s.me (((List.range 2).map fun r => ((0x2000 : W64).toNat + 16 * r, 2 * 4)).flatMap fun o => linesOf o.1 o.2) = .ok () ∧
       s.me.ctl.mode.setWidth 5 = (0 : BitVec 5) ∧ s.me.mem.wf = true ∧ s.me.acc.wf = true ∧ s.me.ringUsed + 2 * 2 * 8 ≤ Config.ringCap ∧ (0x00C10100 : W64).getLsbD 22 = true ∧
       (∀ r < 2, Owned s.me (0x2000 + 16 * r) 8 ∧ lockOn s.me.locks (0x2000 + 16 * r) 8 = none ∧ (aget s.me.accOwner (0 + r)).getD 0 = s.me.act.ctx ∧
         ∀ q ∈ quarters 0 (2 * 8), s.me.accPoison.contains (4 * (0 + r) + q) = false)) := by
  refine ⟨⟨rfl, rfl, ⟨_, rfl⟩, by decide +kernel⟩, ⟨_, rfl⟩, ⟨_, _, rfl, rfl⟩, ?_⟩
  unfold Owned; decide +kernel

/-! ### Local time and gangs -/

/-- Local time 10; input slot 2 from core 3 with bound 20, output slot 1 to core 4 with lookahead 5, drip 8 and floor 12. -/
def lt0 : LocalTime := ⟨true, 10, 9, 7, false, [(2, ⟨3, 4, 20⟩)], [(1, ⟨4, 5, 8, 12, false, 0⟩)], 0⟩
def sLocal (x w : W64) : State := { sMsg with me := { (sMsg.me.setS 2 (.full x)).setS 3 (.full w) with lt := lt0 } }
def sNone : State := { sMsg with me := { sMsg.me with lt := { lt0 with outs := [] } } }
def out1 : OutSlot := ⟨4, 5, 8, 12, false, 0⟩
/-- A core outside local-time mode whose mailbox holds a message, and one in the mode that holds a stamped one. -/
def mail0 : MailItem := ⟨Msg.zero, none, false, 0⟩
def stamped0 : MailItem := ⟨(Msg.zero.setIfInBounds 0 0x0000000800000000).setIfInBounds 7 15, none, false, 0⟩
def sMail : State := { sMsg with me := { sMsg.me with mailbox := [mail0] } }
def sStamp : State := { sLocal 0 0 with me := { (sLocal 0 0).me with mailbox := [stamped0] } }

theorem witness_LocalTimeRow : (sGang.me.gang.isSome = true ∧ sMsg.me.lt.en = false) ∧
    ((sLocal 1 0).me.gang = none ∧ (sLocal 1 0).me.reads = [] ∧ (sLocal 1 0).me.streams = [] ∧ destS 1 (sLocal 1 0).me = .ok () ∧ readS a2 (sLocal 1 0).me = .ok (1, (sLocal 1 0).me) ∧
      (1 : W64) &&& 0xFFFF0000FFFFFFFE = 0 ∧ ((sLocal 1 0).me.bank 15).owner = (sLocal 1 0).me.act.ctx ∧ ImageReady (sLocal 1 0).me 15 ∧ poolTouched (sLocal 1 0).me 15 = [] ∧ needLines (sLocal 1 0).me [metaLine 15] = .ok ()) ∧
    (sMsg.me.lt.en = false ∧ sMsg.me.mailbox = [] ∧ sMail.me.mailbox ≠ [] ∧ sMail.me.lt.en = false ∧ (sLocal 0 0).me.lt.en = true ∧ (sLocal 0 0).stampedHere = false ∧ sStamp.stampedHere = true ∧
      (1 : W64).getLsbD 0 = true ∧ (0 : W64).getLsbD 0 = false) ∧
    (let s := sLocal 0x1800 5
     s.me.lt.en = true ∧ (∃ c1 c2, readS a2 s.me = .ok (0x1800, c1) ∧ readS a3 c1 = .ok (5, c2)) ∧ needLines s.me [17408] = .ok () ∧ (0x1800 : W64) &&& 0xFFFFFFFF000007FF = 0 ∧
       (5 : W64) &&& 0xFFFF000000000000 = 0 ∧ (0x1800 : W64).extractLsb' 24 8 = s.pkgid ∧ (s.ctx s.me.act.ctx.toNat).hasCluster (clusterOf (bits (0x1800 : W64) 23 11)) = true ∧
       (∀ y ∈ s.me.lt.ins, y.1 = (2 : BitVec 4).toNat ∨ y.2.peer ≠ bits (0x1800 : W64) 23 11) ∧ (∀ y ∈ s.me.lt.outs, y.1 = (15 : BitVec 4).toNat ∨ y.2.peer ≠ bits (0x1800 : W64) 23 11)) ∧
    (∃ c1 c2, readS a2 (sLocal 0 0x8000000000000000).me = .ok (0, c1) ∧ readS a3 c1 = .ok (0x8000000000000000, c2)) ∧
    (let s := sLocal 0 15
     (∃ c1 c2 c3, readS a2 s.me = .ok (0, c1) ∧ readS a3 c1 = .ok (15, c2) ∧ readS a4 c2 = .ok (5, c3)) ∧ (0 : W64) &&& 0xFF00000FFFFFFFFF = 0 ∧
       aget s.me.lt.outs (2 : BitVec 4).toNat = none ∧ aget s.me.lt.outs (1 : BitVec 4).toNat = some out1 ∧ (15 : W64).toNat ≠ 2 ^ 64 - 1 ∧ s.me.lt.ltc.toNat + out1.look.toNat ≤ (15 : W64).toNat ∧
       out1.f.toNat ≤ (15 : W64).toNat ∧ (14 : W64).toNat < s.me.lt.ltc.toNat + out1.look.toNat ∧ (0xFFFFFFFFFFFFFFFF : W64).toNat = 2 ^ 64 - 1 ∧ needOut s.me 1 = .ok ()) ∧
    (sNone.me.lt.en = true ∧ sNone.me.lt.outs = []) ∧ (∃ c', produce 1 (sLocal 0 0).me.lt.ltc 2 (sLocal 0 0).me = .ok c') ∧
    (Reads1 1 a2 (sLocal 48 0).me 48 (sLocal 48 0).me ∧ 64 ≤ (64 : W64).toNat ∧ 4 ≤ (15 : W64).toNat ∧ (15 : W64).toNat ≤ 15 ∧ 48 ≤ (48 : W64).toNat ∧ (63 : W64).toNat < 64 ∧
      ∃ c', writeS 1 out1.f (sLocal 48 0).me = .ok c') := by
  have lk : (∃ c1 c2, readS a2 (sLocal 0x1800 5).me = .ok (0x1800, c1) ∧ readS a3 c1 = .ok (5, c2)) := ⟨_, _, rfl, rfl⟩
  have nd : (∃ c1 c2 c3, readS a2 (sLocal 0 15).me = .ok (0, c1) ∧ readS a3 c1 = .ok (15, c2) ∧ readS a4 c2 = .ok (5, c3)) := ⟨_, _, _, rfl, rfl, rfl⟩
  unfold ImageReady
  refine ⟨?_, ?_, ?_, ⟨rfl, lk, ?_⟩, ⟨_, _, rfl, rfl⟩, ⟨nd, ?_⟩, ⟨rfl, rfl⟩, ⟨_, rfl⟩, ⟨rfl, _, rfl, rfl⟩, ?_⟩
  all_goals first | decide +kernel | (and_intros <;> first | decide +kernel | exact ⟨_, rfl⟩)

/-- The leader may form gangs (GANGOK), and its followers are idle cores of the launch. -/
def sLead : State := { sMsg with me := { sMsg.me with handlers := [(0, 0x2000000000000000, 0)] } }
def busyCore : Core := { c0 with id := 1 }
def sBusy : State := { sLead with others := [(1, busyCore)] }
def sHeldBy : State := { sLead with others := [(1, { busyCore with gang := some ⟨1, [1, 2], 0, 1⟩ })] }
def gangOf (i : Nat) : Gang := ⟨1, [0, 1], i, 1⟩
def sPair : State := { sLead with me := { sLead.me with gang := some (gangOf 0) }, others := [(1, { busyCore with gang := some (gangOf 1) })] }
/-- The head at 0 is gang.quad s9, s10 (spec/14). -/
def sWaits : State :=
  { sLead with me := { sLead.me with imem := Mem.put (Mem.put [] 0 [0x89, 0xD0]) 60 [0x0A, 2, 0, 0], gangWait := some ⟨[0, 1, 8, 9], 5, 0⟩, clk := 5 } }
/-- An idle core in local-time mode with an output slot, bounds and events. -/
def sIdle (b : W64) (l : List MailItem) : State :=
  { sMsg with me := { sMsg.me with running := false, lt := { lt0 with ins := [(2, ⟨3, 4, b⟩)] }, mailbox := l } }

/-- The pair with an EMPTY s1 in core 1, and with the operands of a fused run and of a fused sort in the leader. -/
def sPairEmpty : State := { sPair with others := [(1, (sPair.core 1).setS 1 .empty)] }
def sFused (w : W64) : State := { sPair with me := ((sPair.me.setS 2 (.full 0x2000)).setS 3 (.full w)).setS 4 (.full 0x5000) }
def wFuse : W64 := 0x10
def redMask : VMask := ⟨true, false, false, 2⟩

theorem witness_Gangs_members :
    (sPair.gangOf = [0, 1] ∧ sPair.me.gang.isSome = true ∧ sPair.cur ∈ [0, 1] ∧ ([0, 1] : List Nat).Nodup ∧ 1 < ([0, 1] : List Nat).length) ∧
    (∀ k ∈ [0, 1], let q := sPair.core k
       q.running = true ∧ q.report = none ∧ q.irrev = none ∧ q.reads = [] ∧ q.streams = [] ∧ q.again = [] ∧ q.pc = sPair.me.pc) ∧
    ((∃ x y c, Reads2 1 a2 a3 (sPair.core 0) x y c) ∧ (∃ x y c, Reads2 1 a2 a3 (sPair.core 1) x y c)) ∧
    ((sPairEmpty.core 1).regs.getS 1 = .empty ∧ ∃ x y c, Reads2 1 a2 a3 (sPairEmpty.core 0) x y c) ∧
    (combines (.vredVx 1 v3 .add .rne .i64 redMask) = true ∧ ∀ k ∈ [0, 1], (sPair.try1 (State.perform exec) (.vredVx 1 v3 .add .rne .i64 redMask) k).1 = .issues) ∧
    (Ty.i64.isRedTy = true ∧ redWide .add = true ∧ ∀ k ∈ [0, 1], destV 1 (sPair.core k) = .ok () ∧ (readV v3 (sPair.core k)).isOk = true ∧
      (activeLanes redMask Ty.i64.lanes (sPair.core k)).isOk = true) ∧
    (let w := wRun ||| 0x800000
     let s := sFused w
     let r := RunCmd.of w
     s.gangOf = [0, 1] ∧ s.me.reads = [] ∧ destS 1 s.me = .ok () ∧ (∃ c1 c2 c3, readS a2 s.me = .ok (0x2000, c1) ∧ readS a3 c1 = .ok (w, c2) ∧ readStamp c2 (w.getLsbD 24) a4 = .ok (some 0x5000, c3)) ∧
       w.getLsbD 23 = true ∧ cmdMask w = 0 ∧ suits s.me.fmtsAhead.1 r.ty = true ∧ r.m * rowOut s.me.fmtsAhead.1 ≤ 32768 ∧ r.row0 + r.m ≤ 256 ∧ (0x2000 : W64).toNat % 16 = 0 ∧
       (0x5000 : W64).toNat % 8 = 0 ∧ s.me.ownArray 0x5000 8 = true ∧ s.me.arrayRanges (actRanges 0x2000 r) = true ∧ (∀ k ∈ [0, 1], (s.core k).fenced = false) ∧
       (({ s with me := { s.me with fenced := true } } : State).core 0).fenced = true ∧ s.me.pressQueue.length < 8 ∧ lockConflict s.me.locks false (actRanges 0x2000 r) = none ∧
       s.lockEntries (clusterOf s.cur) < 1024 ∧ s.me.ringUsed + r.m * rowOut s.me.fmtsAhead.1 ≤ Config.ringCap) ∧
    (let w := wFuse
     let s := sFused w
     (∃ c1 c2 c3, readS a2 s.me = .ok (0x2000, c1) ∧ readS a3 c1 = .ok (w, c2) ∧ readStamp c2 (w.getLsbD 5) a4 = .ok (some 0x5000, c3)) ∧
       w.getLsbD 4 = true ∧ w.getLsbD 3 = false ∧ w &&& 0xFFFFFFFFFFFFF0C0 = 0 ∧ (0x2000 : W64).toNat % 64 = 0 ∧ s.me.ownArray 0x2000 1024 = true ∧ 0x2000 % 65536 + 1024 ≤ 65536 ∧
       s.me.ops = [] ∧ lockConflict s.me.locks true [(0x2000, 1024)] = none ∧ s.lockEntries (clusterOf s.cur) < 1024 ∧ s.me.ringUsed + 1024 ≤ Config.ringCap) := by
  refine ⟨by decide +kernel, by decide +kernel, ⟨⟨_, _, _, rfl, _, _, rfl, rfl, rfl⟩, ⟨_, _, _, rfl, _, _, rfl, rfl, rfl⟩⟩, ⟨by decide +kernel, ⟨_, _, _, rfl, _, _, rfl, rfl, rfl⟩⟩,
    by decide +kernel, by decide +kernel, ⟨rfl, rfl, rfl, ⟨_, _, _, rfl, rfl, rfl⟩, by decide +kernel⟩, ⟨⟨_, _, _, rfl, rfl, rfl⟩, by decide +kernel⟩⟩

theorem witness_Gangs : (let s := sLead
      s.me.entry.getLsbD 61 = true ∧ (1 : BitVec 2) ≠ 0 ∧ destS 1 s.me = .ok () ∧ s.me.streams = [] ∧ readS a2 s.me = .ok (64, s.me) ∧ gangMembers s.cur (1 : BitVec 2).toNat = some [0, 1] ∧
        s.me.gang = none ∧ (∀ k ∈ [0, 1], (s.core k).lt.en = false ∧ (s.lease (rowId k)).ctx = s.me.act.ctx ∧ (s.lease (rowId k)).cur = s.me.act.lnch ∧
          (s.lease (rowId k)).st ≠ .free ∧ (s.lease (rowId k)).st ≠ .loading) ∧
        s.me.reserved = none ∧ (∀ k ∈ [0, 1], k ≠ s.cur → (s.core k).gang = none ∧ ((s.core k).reserved = none ∨ (s.core k).reserved = some s.cur)) ∧
        (∀ k ∈ [0, 1], k ≠ s.cur → (s.core k).gangIdle = true) ∧ s.me.settled = true ∧ s.me.reads = []) ∧
    (sBusy.core 1).gangIdle = false ∧ ((sHeldBy.core 1).gang.isSome = true ∧ sHeldBy.me.gangWait = none ∧ ∃ c', writeS 1 0 ((freeS a2 sHeldBy.me).setSts .full) = .ok c') ∧
    sMsg.me.entry.getLsbD 61 = false ∧
    (sPair.me.gang = some (gangOf 0) ∧ 1 < (gangOf 0).members.length ∧ sPair.cur ∈ (gangOf 0).members ∧ (gangOf 0).members.Nodup ∧ (∀ k ∈ (gangOf 0).members, atBoundary (sPair.core k)) ∧
      ∀ k ∈ (gangOf 0).members, ∀ o ∈ (sPair.core k).ops, o.mates = []) ∧
    (let u := (sWaits.focus 0).caughtUp
     u.me.gangWait = some ⟨[0, 1, 8, 9], 5, 0⟩ ∧ u.me.atHead = .instr (.gang 9 ⟨false, false, 10⟩ 2) ∧ u.me.streams = [] ∧ readS ⟨false, false, 10⟩ u.me = .ok (5, u.me) ∧
       (([0, 1, 8, 9] : List Nat).filter (· != 0)).all (fun j => (u.core j).gangIdle) = true ∧ u.me.settled = true ∧ 0 ∈ ([0, 1, 8, 9] : List Nat) ∧ ([0, 1, 8, 9] : List Nat).Nodup ∧
       (5 : Nat) ≠ 0 ∧ 0 + 5 ≤ u.me.clk) ∧
    (({ sWaits with me := { sWaits.me with clk := 4 } } : State).focus 0).caughtUp.me.clk < 0 + 5 ∧
    (let u := ((sIdle 20 []).focus 0).caughtUp
     u.ltIdle = true ∧ u.me.ltCommitted = u.me.lt ∧ u.me.lt.minBound = some 20 ∧ u.me.minEvent = none ∧ 20 < 2 ^ 64 ∧ u.me.lt.a.toNat < 20 ∧ u.me.lt.dper ≠ 0 ∧ u.me.lt.outs = [(1, out1)] ∧
       out1.d.toNat < min (u.me.lt.a.toNat + out1.look.toNat) (2 ^ 64 - 1)) ∧
    (let u := ((sIdle 15 [stamped0]).focus 0).caughtUp
     u.ltIdle = true ∧ u.me.ltCommitted = u.me.lt ∧ u.me.minEvent = some 15 ∧ u.me.lt.minBound = some 15 ∧ u.me.lt.a.toNat < 15) ∧ (sMsg.focus 0).caughtUp.ltIdle = false := by
  unfold atBoundary
  and_intros <;> first | decide +kernel | exact ⟨_, rfl⟩


/-! ### Channels, commits, homes -/

/-- A closed segment with a message for core 1 that waits, and one with a line that stands at its end. -/
def segMsg (st : ItemState) : Seg := { seg0 with d := { SegData.new 3 with out := [⟨.msg Msg.zero 0 1 none, st⟩] } }
def sOut (st : ItemState) (clk : Nat) : State := { sMsg with me := { sMsg.me with closing := [segMsg st], clk := clk } }
def pkt (dst : Nat) (b : Body) : Packet := ⟨0, dst, 5, 1, 0, 0, false, b⟩
def sChan (dst : Nat) (b : Body) : State := { sMsg with chan := [pkt dst b] }
def sAgain : State := { sChan 1 (.notice 3) with filter := [(filterKey (pkt 1 (.notice 3)), [(5, .noticeAck 3 1)])] }
def sStale : State := { sChan 1 (.notice 3) with filter := [(filterKey (pkt 1 (.notice 3)), (List.range 64).map fun i => (i + 6, .noticeAck i 1))] }
/-- A message for context 7, which is SHADOW in cluster 0 and has a spill queue. -/
def msg7 : Msg := Msg.zero.setIfInBounds 0 0x0700000000000000
def sSpill : State :=
  { sMsg with ctxs := sMsg.ctxs ++ [(7, { Ctx.reset 7 with d := ((((((Ctx.reset 7).d.setIfInBounds 0 0x0740000000000001).setIfInBounds 1 1).setIfInBounds 4 0x1000).setIfInBounds 7 0x100).setIfInBounds 9 3) })] }
def migr0 : MigrRec := ⟨Regs.reset, Ctl.reset, 0, Msg.zero⟩

def drip0 : Packet := ⟨3, 0, 0, 0, 0, 0, false, .drip 0 4 30⟩
/-- A MIGR record for package 1. -/
def pktFar : Packet := pkt (nodeSpan + 1) (.entry 3 0 (.migr migr0 1 1))

theorem witness_EntriesTravel : (0 < Config.nCores ∧ (let u := ((sOut .waiting 0).focus 0).caughtUp
      u.me.closing = segMsg .waiting :: [] ∧ u.me.pubs = [] ∧ (segMsg .waiting).d.out[0]? = some ⟨.msg Msg.zero 0 1 none, .waiting⟩ ∧
        entryTarget sMsg.pkgid.toNat (.msg Msg.zero 0 1 none) = some 1 ∧ u.permit 1 = true)) ∧
    (segMsg .accepted).d.out[0]? = some ⟨.msg Msg.zero 0 1 none, .accepted⟩ ∧ (sAgain.chan[0]? = some (pkt 1 (.notice 3)) ∧ sAgain.arrival (pkt 1 (.notice 3)) = .again (.noticeAck 3 1)) ∧
    sStale.arrival (pkt 1 (.notice 3)) = .stale ∧
    (let p := pkt 8192 (.entry 3 0 (.store (.dev 64) 0 1 0 64))
     (sChan 8192 p.body).chan[0]? = some p ∧ (sChan 8192 p.body).arrival p = .fresh ∧ (sChan 8192 p.body).bufferUsed 8192 < 4 * 2 ^ 20 ∧ (sChan 8192 p.body).landStore 0 (.dev 64) 1 0 64 = none ∧
       ((sChan 8192 p.body).landStore 0 (.dev 64) 1 5 64).isSome = true) ∧
    (let p := pkt 1 (.entry 3 0 (.msg Msg.zero 0 1 none))
     let s := sChan 1 p.body
     s.arrival p = .fresh ∧ (s.core 1).heldBank 15 = false ∧ s.fate 1 Msg.zero none = .accept ∧ s.replayHead (msgCtx Msg.zero).toNat 1 = none ∧ s.fate 16 Msg.zero none = .refuse 6) ∧
    (sSpill.fate 1 msg7 none = .spill ∧ sSpill.spillEntry (msgCtx msg7).toNat = some 0x100100 ∧ sSpill.bufferUsed (8192 + sliceOf 0x100100) < 4 * 2 ^ 20 ∧ sMsg.migrFate 1 migr0.hdr = .accept ∧ sMsg.migrFate 16 migr0.hdr = .refuse 6) ∧
    (let s := { sOut .sent 0 with chan := [pkt 1 (.ack 3 0 true repTrap)] }
     (s.core 0).closing.find? (fun g => g.d.id == 3) = some (segMsg .sent)) ∧
    ((Body.notice 3).numbered = true ∧ (pkt 1 (.notice 3)).src < nodeSpan ∧ (Body.notice 3).polls = false ∧ sMsg.gt < (pkt 1 (.abort 3)).since + (pkt 1 (.abort 3)).patience ∧
      (pkt 1 (.abort 3)).src < nodeSpan ∧ (pkt 1 (.abort 3)).patience ≤ 64 * 16000 ∧ (sChan 1 (.abort 3)).arrival (pkt 1 (.abort 3)) = .fresh ∧ pktFar.leaves.isSome = true ∧ (pkt 1 (.abort 3)).leaves = none ∧ sMsg.derr = [] ∧ (pkt 1 (.abort 3)).tries < 8 ∧ 8 ≤ ({ pkt 1 (.abort 3) with tries := 8 } : Packet).tries) ∧
    (let s : State := { sMsg with chan := [drip0] }
     s.curCtx (clusterOf 0) = some (0 : BitVec 8).toNat ∧ s.chan[0]? = some drip0) := by
  and_intros <;> decide +kernel

def sNotice (g : Staged) : State := { sChan g.dst (.notice 3) with staged := [g] }
def stStore : Staged := ⟨0, 3, 8192, 0, none, false, .store (.dev 64) 7 0xFF 0 64⟩
def stMsg : Staged := ⟨0, 3, 1, 0, none, false, .msg Msg.zero 0 1 none⟩
def stHeld : Staged := ⟨0, 3, 1, 0, none, false, .store (.local 1 64) 7 0xFF 0 64⟩
def sHolds : State := { sNotice stHeld with others := [(1, { Core.reset with seg := { Core.reset.seg with holds := [1] } })] }
def sPub (l : List Packet) : State := { sMsg with me := { sMsg.me with pubs := [{ segMsg .accepted with waiting := [1] }] }, chan := l }

theorem witness_SegmentsCommit : (let u := ((sOut .accepted 10000).focus 0).caughtUp
      u.rollBad.isNone = true ∧ u.me.closing = segMsg .accepted :: [] ∧ (segMsg .accepted).mates = [] ∧ u.mayCommit u.cur = true ∧ (segMsg .accepted).atCommit = .nothing ∧
        (segMsg .accepted).d.targets u.pkgid.toNat = [1]) ∧
    (let u := ((sOut .sent 10000).focus 0).caughtUp
     u.mayCommit u.cur = false) ∧
    (((sOut .accepted 10000).core 0).closing = segMsg .accepted :: [] ∧ (sOut .accepted 10000).mayCommit 0 = true ∧ (segMsg .accepted).d.out ≠ []) ∧
    ((sNotice stStore).chan[0]? = some (pkt 8192 (.notice 3)) ∧ (sNotice stStore).arrival (pkt 8192 (.notice 3)) = .fresh ∧
      (sNotice stStore).staged.filter (fun g => g.src == 0 && g.seg == 3 && g.dst == 8192) = [stStore] ∧ (sNotice stStore).storeHeld stStore = false ∧ (64 : Nat) < 2 ^ 55 ∧ (sNotice stStore).dram.wf = true) ∧
    ((sNotice stMsg).staged.filter (fun g => g.src == 0 && g.seg == 3 && g.dst == 1) = [stMsg] ∧ (sNotice stMsg).storeHeld stMsg = false ∧ stMsg.spill = none ∧ stMsg.late = false ∧ isWake Msg.zero = false ∧ isStamped Msg.zero = false) ∧
    (stHeld ∈ sHolds.staged ∧ sHolds.storeHeld stHeld = true ∧ sHolds.arrival (pkt 1 (.notice 3)) = .fresh) ∧
    (let u := ((sPub [pkt 1 (.noticeAck 3 1)]).focus 0).caughtUp
     u.me.pubs = { segMsg .accepted with waiting := [1] } :: [] ∧ ([1] : List Nat).all (u.acked u.cur 3) = true ∧ u.farAwaited (segMsg .accepted).d = false) ∧
    (let u := ((sPub []).focus 0).caughtUp
     ([1] : List Nat).all (u.acked u.cur 3) = false) := by
  and_intros <;> decide +kernel

/-- Requests for a word of device memory; a table whose first GiB is a leaf at level 2. -/
def reqOf (op : WordOp) : Body := .request 9 1 (.word (.dev 64) 64 op 0 0)
def sReply : State := { sChan 8192 (.reply 9 1 (.val 7 none none 0)) with me := { sMsg.me with irrev := some (.sent 9) } }
def sTable : State :=
  { sMsg with
    ctxs := [(0, { Ctx.reset 0 with d := ((Ctx.reset 0).d.setIfInBounds 1 1).setIfInBounds 3 0x10000 })]
    dram := Mem.put (Mem.put (Mem.put [] 0x10000 (wordBytes [0x8000000000020000])) 0x20000 (wordBytes [0x8000000000030000])) 0x30000 (wordBytes [0xA000000000000000]) }

theorem witness_HomesServe : (let p := pkt 8192 (reqOf (.aadd .i64 5))
      (sChan 8192 p.body).chan[0]? = some p ∧ (sChan 8192 p.body).arrival p = .fresh ∧ (sChan 8192 p.body).physTrap 64 8 0 64 = none ∧ (64 : Nat) < 2 ^ 55 ∧
        (WordOp.aadd .i64 5).run 64 (natOf (Mem.bytes (sChan 8192 p.body).dram 64 8)) 0 = .ok (some 5) 0 0) ∧
    (let s := sChan 8192 (reqOf (.waitm .eq .i64 5))
     s.chan.findIdx? (Packet.waitsFor 0) = some 0 ∧ (WordOp.waitm .eq .i64 5).run 64 (natOf (Mem.bytes s.dram 64 8)) 0 = .poll ∧
       (WordOp.waitm .eq .i64 0).run 64 (natOf (Mem.bytes s.dram 64 8)) 0 = .ok none 0 0) ∧
    (let p := pkt 8192 (.request 9 1 (.read (.dev 64) 0))
     (sChan 8192 p.body).arrival p = .fresh ∧ (sChan 8192 p.body).physTrap 64 64 0 0 = none) ∧
    (sReply.chan[0]? = some (pkt 8192 (.reply 9 1 (.val 7 none none 0))) ∧ (sReply.core 0).reads = [] ∧ (sReply.core 0).irrev = some (.sent 9) ∧ (sReply.core 0).streams = []) ∧
    (let u := (sPend.focus 0).caughtUp
     u.me.pend[0]? = some ⟨1, 7, 4⟩ ∧ u.me.streams = []) ∧
    (let u := (sTable.focus 0).caughtUp
     u.translate u.me.act.ctx.toNat 0x2345678 false = .ok 0x2345678 ∧ u.me.tlb.length ≤ 64) := by
  and_intros <;> decide +kernel

/-- A dequeue of bank 3 of core 1, which holds a queue, at that core, and a reply with both words of a pair. -/
def winPkt (off : Nat) : Packet := pkt 1 (.request 9 2 (.word (.local 1 off) 0x00FE000008000000 (.lds .i64) 0 0))
def sWinAt (off : Nat) : State :=
  { sChan 1 (winPkt off).body with others := [(1, { Core.reset.setBank 3 (Bank.reset (.queue 0 [7] [])) with id := 1 })] }
def pairReply : Packet := pkt 1 (.reply 9 2 (.val 7 (some 8) (some 0) 0))

/-- Packets whose eighth timeout comes, and their sources. -/
def lastTry (b : Body) : Packet := { pkt 1 b with tries := 8 }
def sLate (b : Body) : State := { sMsg with chan := [lastTry b], gt9 := 2304000 }

theorem witness_EntriesTravel_timeouts :
    (∀ b ∈ [Body.entry 3 0 (.msg Msg.zero 0 1 none), (winPkt 0).body, .abort 3, .notice 3], b.numbered = true ∧ b.polls = false ∧ (lastTry b).src < nodeSpan ∧ 8 ≤ (lastTry b).tries ∧
      (lastTry b).since + (lastTry b).patience ≤ (sLate b).gt ∧ (sLate b).chan[0]? = some (lastTry b)) ∧
    ((sOut .sent 0).me.closing.find? (fun g => g.d.id == 3) = some (segMsg .sent) ∧ sMsg.me.closing.find? (fun g => g.d.id == 3) = none) ∧
    (({ sMsg.me with reads := [{ read0 with id := 9 }] } : Core).reads.find? (fun x => x.id == 9) = some { read0 with id := 9 } ∧ sMsg.me.reads.find? (fun x => x.id == 9) = none) ∧
    ({ sMsg.me with irrev := some (.sent 9) } : Core).irrev = some (.sent 9) ∧ (sMsg.me.running = true ∧ sMsg.me.act.ctx = (lastTry (.abort 3)).ctx) := by
  and_intros <;> decide +kernel

theorem witness_OwnWindows_remote :
    (∀ off ∈ [0x30000, 0x30028], (sWinAt off).chan[0]? = some (winPkt off) ∧ (winPkt off).leaves = none ∧ (sWinAt off).arrival (winPkt off) = .fresh ∧
      ((sWinAt off).core 1).isArrayFor (winPkt off).ctx 3 = false ∧ ((sWinAt off).core 1).bankBlocked 3 = false) ∧
    (let c := (((sWinAt 0x30000).core 1).claimBank 0 3).claimPool 0 3
     winOp c 3 0x28 (.lds .i64) false = .bad ∧
       winOp c 3 0 (.lds .i64) false = .ok (c.setBank 3 { c.bank 3 with data := .queue 1 [] [] }) 7 none .ok ∧ c.poison = [] ∧ (∀ j < 16, c.bankBlocked j = false)) ∧
    (let s : State := { sChan 1 pairReply.body with me := { sMsg.me with irrev := some (.sent 9) } }
     s.chan[0]? = some pairReply ∧ pairReply.leaves = none ∧ (s.core pairReply.src).reads = [] ∧ (s.core pairReply.src).irrev = some (.sent 9) ∧ (s.core pairReply.src).streams = []) := by
  and_intros <;> decide +kernel

/-! ### What a core takes up, strikes -/

/-- Core 0 is idle in a RUNNING row of context 0; handler 0 is valid. -/
def sWork (mb : List MailItem) (dq : List TaskRec) : State :=
  { sMsg with me := { Core.reset with handlers := [(0, 0x8000000000000000, 0)], loaded := true, mailbox := mb, deque := dq } }
def task0 : TaskRec := ⟨Msg.zero, none, 0, false⟩
/-- A message of PRI 2 before one of PRI 0; a handler that is not valid. -/
def high0 : MailItem := ⟨Msg.zero.setIfInBounds 0 0x0000002000000000, none, false, 0⟩
def sTwo : State := sWork [high0, mail0] []
def msgBad : MailItem := ⟨Msg.zero.setIfInBounds 0 0x0000004000000000, none, false, 0⟩
def park0 (r : Bool) : Parked := ⟨{ saved0 with act := { Act.reset with no := 7 } }, r, .local 0 64, .waitm .eq .i64 5⟩
def sPark : State := { sWork [] [] with me := { (sWork [] []).me with parks := [park0 true] } }
def sSteal : State :=
  { sWork [] [] with
    launches := [{ launch0 with record := Vector.replicate 8 0x0000100000000000 }]
    others := [(1, { Core.reset with id := 1, deque := [task0] })] }
/-- waitm.ge s17, [s20^], s16^ (spec/09) at 0, on an own word, polled long enough. -/
def sSpin : State :=
  { sMsg with me := { (sMsg.me.setS 20 (.full 128)) with imem := Mem.put (Mem.put [] 0 [0x91, 0x4B]) 60 [0x94, 0x90, 3, 0x20], spin := Config.parkAfter } }
def sReport : State := { sMsg with me := { sMsg.me with report := some repTrap } }
def notice0 : Notice := ⟨0, none, 0, List.replicate 8 1, false⟩
def sRing : State := { sMsg with notices := [(0, [notice0])] }

theorem witness_CoresTakeWork : (let c := sTwo.me
      c.lt.en = false ∧ prioGet c.prio 0 < 64 ∧ prioGet c.prio 1 < 64 ∧ prioGet c.prio 2 < 64 ∧ (c.offer fun _ => true).map (·.1) = some 1) ∧
    (let u := (sPark.focus 0).caughtUp
     u.resumeChoice = none ∧ u.readyPark = some (park0 true) ∧ u.mayDispatch 0 .parked Msg.zero 0 = true ∧ (u.ctx 0).recording = false ∧ u.me.gang = none) ∧
    (let u := ((sWork [mail0] []).focus 0).caughtUp
     u.resumeChoice = none ∧ u.readyPark = none ∧ u.canStart = true ∧ (u.me.offer fun m => msgCtx m == (u.lease (rowId 0)).ctx && msgLnch m == (u.lease (rowId 0)).cur).map (·.1) = some 0 ∧
       u.me.mailbox[0]? = some mail0 ∧ u.mayDispatch (msgCtx mail0.msg).toNat .mailbox mail0.msg 0 = true ∧ u.me.refuses mail0.msg = false ∧ mail0.migr = none ∧ (u.ctx 0).recording = false) ∧
    ((sWork [msgBad] []).me.refuses msgBad.msg = true) ∧
    (let u := ((sWork [] [task0]).focus 0).caughtUp
     u.canStart = true ∧ (u.me.offer fun m => msgCtx m == (u.lease (rowId 0)).ctx && msgLnch m == (u.lease (rowId 0)).cur) = none ∧ u.me.bottom 0 0 = some (0, task0) ∧
       u.mayDispatch 0 .deque task0.msg 0 = true ∧ u.me.refuses task0.msg = false) ∧
    (let u := ((sWork [] []).focus 0).caughtUp
     u.canStart = true ∧ u.me.bottom 0 0 = none) ∧
    (let u := (sSteal.focus 0).caughtUp
     u.canSteal = true ∧ (u.searchOrder (u.lease (rowId 0)))[u.me.victims]? = some 1 ∧ u.qualifies 1 (u.lease (rowId 0)) = true ∧ (u.core 1).top 0 0 = some (0, task0) ∧
       u.mayDispatch 0 .steal task0.msg 0 = true ∧ u.me.refuses task0.msg = false) ∧
    (let u := (({ sSteal with others := [] } : State).focus 0).caughtUp
     u.canSteal = true ∧ u.qualifies 1 (u.lease (rowId 0)) = false ∧ u.me.victims + 1 < (u.searchOrder (u.lease (rowId 0))).length) ∧
    (let u := (({ sSteal with others := [], me := { sSteal.me with victims := 62 } } : State).focus 0).caughtUp
     u.canSteal = true ∧ (u.searchOrder (u.lease (rowId 0)))[u.me.victims]? = some 63 ∧ u.qualifies 63 (u.lease (rowId 0)) = false ∧ (u.searchOrder (u.lease (rowId 0))).length ≤ u.me.victims + 1) ∧
    (let u := (({ s0 with me := { c0 with stealWait := 5, clk := 5 } } : State).focus 0).caughtUp
     u.me.stealWait ≠ 0 ∧ u.me.stealWait ≤ u.me.clk) ∧ (({ s0 with me := { c0 with stealWait := 5 } } : State).focus 0).caughtUp.me.clk < 5 ∧
    (let u := (sSpin.focus 0).caughtUp
     u.me.running = true ∧ u.me.held? = false ∧ u.me.gang = none ∧ Config.parkAfter ≤ u.me.spin ∧ u.me.parks.length < Config.parkSlots ∧ u.me.report = none ∧
       ({ u with me := u.me.unasked } : State).watched = some (.local 0 128, .waitm .ge .i64 5) ∧ u.me.unasked.settled = true ∧ u.me.unasked.closing.length < 2) ∧
    (sMsg.focus 0).caughtUp.me.spin < Config.parkAfter ∧ (park0 true).watch.isFar = false ∧
    (let u := (sPark.focus 0).caughtUp
     u.me.parks[0]? = some (park0 true) ∧ (park0 true).op.run 0 (u.homeNat (park0 true).watch (park0 true).op.size) 0 = .poll ∧
       (WordOp.waitm .eq .i64 0).run 0 (u.homeNat (park0 true).watch (park0 true).op.size) 0 ≠ .poll) ∧
    ((sReport.focus 0).caughtUp.me.report.isSome = true ∧ (sMsg.focus 0).caughtUp.me.report = none) ∧
    (let u := (sRing.focus 0).caughtUp
     aget u.notices (clusterOf 0) = some [notice0] ∧ notice0.late = false ∧ u.me.traceOut = [] ∧ u.me.report = none ∧ u.trapRing (0 : BitVec 8).toNat = some 0x100000 ∧
       (u.ringPut 0x100000 (u.ctx 0).rsize 64 (List.replicate 8 1)).isSome = true) ∧
    (let u := (sMsg.focus 0).caughtUp
     u.me.running = true ∧ u.me.ctl.bud = 0 ∧ u.me.gang = none ∧ u.me.report = none ∧ u.asked 0 = false ∧ u.me.halted = none ∧ u.me.closing = [] ∧ u.me.reads = []) ∧
    (({ s0 with me := { c0 with ctl := { Ctl.reset with bud := 1 } } } : State).focus 0).caughtUp.me.ctl.bud ≠ 0 := by
  refine ⟨by decide +kernel, ?_⟩
  and_intros <;> decide +kernel

/-- A core whose confirmed checkpoint runs; a strike on its row. -/
def ckptRun : Ckpt := { Ckpt.reset with running := true, act := { Act.reset with fresh := false } }
def sRoll : State := { sMsg with me := { sMsg.me with confirmed := ckptRun }, strikes := [(0, 0, [(0, 0)])] }

def sRoll2 : State :=
  { sRoll with others := [(1, { Core.reset with id := 1, running := true, confirmed := ckptRun })], strikes := [(0, 0, [(0, 0), (1, 0)])] }
/-- Two segments have written line 192, the closed one line 193 as well. -/
def undo192 : UndoWhat := .line 192 0x11 false
def sUndo : State :=
  { sMsg with
    me := { sMsg.me with
      nord := 5
      seg := { SegData.new 4 with undo := [⟨3, .line 192 0x22 false⟩], lines := [192] }
      closing := [{ seg0 with d := { SegData.new 3 with undo := [⟨1, undo192⟩, ⟨2, .line 193 0 false⟩], lines := [192, 193] } }] } }
/-- An activation of that origin in its dispatch state at the confirmed checkpoint, and the next one after a closed segment. -/
def ckptAt (o : Origin) : Ckpt := { Ckpt.reset with running := true, act := { Act.reset with origin := o, fresh := true } }
def sBack (o : Origin) : State := { sMsg with me := { sMsg.me with confirmed := ckptAt o, closing := [{ seg0 with ckpt := ckptAt o }] } }

theorem witness_RollbacksAndStrikes : (0 ≤ sRoll.me.closing.length ∧ (sRoll.me.pointBefore 0).running = true ∧ (sRoll.me.pointBefore 0).act.fresh = false) ∧
    (sMsg.me.closing = [] ∧ sMsg.me.seg.undo = [] ∧ sMsg.me.seg.lines = [] ∧ sMsg.me.ring = [] ∧ sMsg.me.ops = [] ∧ sMsg.me.mem.wf = true ∧ 917496 + (bytesOf 1 8).length ≤ 917504 ∧
      Owned sMsg.me 917496 (bytesOf 1 8).length) ∧
    (127 < Config.nClusters ∧ 8 < 9) ∧
    (sRoll2.strikes[0]? = some (0, 0, [(0, 0), (1, 0)]) ∧ sRoll2.pours = [] ∧ sRoll2.me.ops = [] ∧ (∀ x ∈ sRoll2.others, x.2.ops = []) ∧
      (regionCores 0 0).filter sRoll2.cores.contains = [0, 1] ∧
      (∀ c ∈ [0, 1], (sRoll2.core c).gang = none ∧ (∀ g ∈ (sRoll2.core c).closing, g.mates = []) ∧ ∀ id, (sRoll2.core c).irrev ≠ some (.sent id)) ∧
      (∀ c ∈ [0, 1], let u := (sRoll2.focus c).caughtUp.me
        u.points[u.points.length - 1 - u.depth]? = some ckptRun ∧ u.depth ≤ u.closing.length) ∧ ckptRun.running = true ∧ ckptRun.act.fresh = false) ∧
    (scrubbable (.sector 0) = true ∧ scrubbable (.line 8191 16383) = true ∧ sMsg.sectorOwner 0 = none ∧
      sUndo.me.wroteLine 192 false = true) := by
  unfold Owned
  have sent : ∀ c ∈ [0, 1], (sRoll2.core c).gang = none ∧ (∀ g ∈ (sRoll2.core c).closing, g.mates = []) ∧ ∀ id, (sRoll2.core c).irrev ≠ some (.sent id) := by
    have e : ∀ c ∈ [0, 1], (sRoll2.core c).gang = none ∧ (∀ g ∈ (sRoll2.core c).closing, g.mates = []) ∧ (sRoll2.core c).irrev = none := by decide +kernel
    exact fun c hc => ⟨(e c hc).1, (e c hc).2.1, fun id h => by rw [(e c hc).2.2] at h; cases h⟩
  and_intros <;> first | decide +kernel | exact sent

theorem witness_RollbacksAndStrikes_memory :
    (0 ≤ sUndo.me.closing.length ∧ sUndo.me.mem.wf = true ∧ undone sUndo.me sUndo.cur (firstGone sUndo.me 0) = [(1, .inl undo192), (2, .inl (.line 193 0 false)), (3, .inl (.line 192 0x22 false))] ∧
      (∀ b img cells ps, undo192 ≠ .bank b img cells ps) ∧ savedByte 12288 (.inl undo192) = some 0x11 ∧ savedByte 12416 (.inl undo192) = none ∧ savedByte 12416 (.inl (.line 193 0 false)) = none) ∧
    (Owned sUndo.me 12290 2 ∧ ([1, 2] : List Byte) ≠ [] ∧ firstGone sUndo.me 0 ≤ sUndo.me.seg.id ∧ (∀ x ∈ [1, 2, 3], x < sUndo.me.nord) ∧ sUndo.me.seg.lines = [192] ∧
      ∃ u ∈ sUndo.me.seg.undo, ∀ j, j / 64 = 192 → savedByte j (.inl u.what) ≠ none) ∧
    (let s := sBack .mailbox
     (0 ≤ s.me.closing.length ∧ (s.me.pointBefore 0).running = true ∧ (s.me.pointBefore 0).act.fresh = true ∧ (∀ d ∈ s.me.uncommitted, d.undo = []) ∧
       ((s.me.closing.drop 0).map (·.ckpt)).filter (fun x => x.running && x.act.fresh) = [ckptAt .mailbox]) ∧
     (ckptAt .mailbox).act.origin = .mailbox ∧ (ckptAt .mailbox).act.parked = false ∧ (s.me.bank 15).owner = (ckptAt .mailbox).act.ctx) ∧
    (let s := { sBack .deque with me := { (sBack .deque).me with closing := [] } }
     (s.me.pointBefore 0 = ckptAt .deque ∧ s.me.closing = []) ∧ (ckptAt .deque).act.origin = .deque ∧ (ckptAt .deque).act.parked = false ∧ (s.me.bank 14).owner = (ckptAt .deque).act.ctx) := by
  unfold Owned
  refine ⟨⟨by decide +kernel, by decide +kernel, by decide +kernel, (fun _ _ _ _ h => by cases h), by decide +kernel⟩, ⟨by decide +kernel, by decide, by decide +kernel, by decide +kernel, rfl, ?_⟩,
    by decide +kernel, by decide +kernel⟩
  exact ⟨⟨3, .line 192 0x22 false⟩, List.mem_singleton.2 rfl, fun j h => by simp [savedByte, h]⟩


/-! ### Steps of the engines -/

def opOf (k : EngKind) (st : OpState) : EngOp := ⟨1, k, 0, 0, 0, 0, 0, 0, none, st, 0, false, 1, 0, 0, 0, [], false, false, none, [], []⟩
def sOps (l : List EngOp) : State := { sMsg with me := { sMsg.me with ops := l, engSeq := 1 } }
/-- A sort of the tile at 0x2000 that has rearranged nothing yet. -/
def sSort : State :=
  { sOps [opOf (.gsort 0x2000 wSort) .queued] with me := { (sOps [opOf (.gsort 0x2000 wSort) .queued]).me with grinder := ⟨.running, 0, false, 0, 0, 8, 0x2000, []⟩ } }

theorem witness_EngineSteps : (let o := opOf (.pload 0x2000 wLoad) .queued
      let u := ((sOps [o]).focus 0).caughtUp
      u.me.frozen = false ∧ u.me.turn = some o ∧ o.redo = false ∧ (∀ p ∈ u.me.ops, p.seq = o.seq → p = o) ∧
        firstPoison (u.me.claimAll o.ctx 0x2000 (loadBytes wLoad)) [(0x2000, loadBytes wLoad)] = none) ∧
    (let o := opOf .pswap .queued
     ((sOps [o]).focus 0).caughtUp.me.turn = some o) ∧
    (let o := opOf .ptest .queued
     ((sOps [o]).focus 0).caughtUp.me.turn = some o) ∧
    (let o := opOf (.prun 0x2000 wRun) .queued
     let u := ((sOps [o]).focus 0).caughtUp
     u.me.turn = some o ∧ o.mates = [] ∧ o.row = 0 ∧ (tileOf u.me.active.fmt).isSome = true ∧ (RunCmd.of wRun).row0 + (RunCmd.of wRun).m ≤ 256 ∧ (u.claimRun [(0, o)]).runPoison [(0, o)] = none ∧
       u.me.active.poison = false ∧ u.me.fenced = false ∧ u.me.acc.wf = true ∧
       (∀ i < (RunCmd.of wRun).m, (aget u.me.accOwner ((RunCmd.of wRun).row0 + i)).getD 0 = o.ctx) ∧ u.me.opCommitted o = true) ∧
    (let o := opOf (.gsort 0x2000 wSort) .queued
     let u := (sSort.focus 0).caughtUp
     u.me.ops.find? (fun o => o.kind.sort?.isSome && o.pending) = some o ∧ o.redo = false ∧ o.mates = [] ∧ o.row = 0 ∧ wSort.getLsbD 3 = false ∧ bits wSort 11 8 = 0 ∧ u.me.grinder.phase = 0 ∧ u.me.grinder.cells = [] ∧
       u.me.grinder.total = 8 ∧ 0x2000 % 64 = 0 ∧ 0x2000 + 1024 ≤ 917504 ∧ u.me.mem.wf = true ∧
       (∀ l ∈ linesOf 0x2000 1024, u.me.lineOwner l = o.ctx ∧ (u.me.bank (l / 1024)).owner = o.ctx) ∧ Clean u.me 0x2000 1024) ∧
    (let o := { opOf (.pload 0x2000 wLoad) .finished with stamp := some 0x5000 }
     let u := ((sOps [o]).focus 0).caughtUp
     u.me.op? o.seq = some o ∧ o.st = .finished ∧ o.took = false ∧ u.me.opCommitted o = true ∧ u.me.held (0x5000 / 64) = false ∧ 0x5000 % 8 = 0 ∧ 0x5000 + 8 ≤ 917504 ∧ u.me.mem.wf = true) ∧
    (let o := { opOf (.pload 0x2000 wLoad) .finished with seg := 1 }
     ((sOps [o]).focus 0).caughtUp.me.opCommitted o = false) ∧
    (let o := { opOf (.pload 0x2000 wLoad) .finished with stamp := some 0x5000 }
     let s := { sOps [o] with me := { (sOps [o]).me with seg := { (sOps [o]).me.seg with holds := [0x140] } } }
     let u := (s.focus 0).caughtUp
     u.me.op? o.seq = some o ∧ o.st = .finished ∧ o.took = false ∧ u.me.opCommitted o = true ∧ u.me.held (0x5000 / 64) = true) := by
  unfold Clean
  and_intros <;> decide +kernel

/-- A Pour of one row of 8 bytes from 0x2000 to 0x4000 of the same core, on channel 0. -/
def pourBlock : Msg := msgOf [0x2000, 0x4000, 0x8000000, 0, 0, 0x5000, 0, 0]
def pour0 (moving : Bool) (got : List (Nat × Nat)) : Pour := ⟨0, 1, 0, 0, pourBlock, moving, [(0, got)], [], [], none, false, []⟩
def opPour : EngOp := opOf (.pour pourBlock) .running
def sPour (moving : Bool) (got : List (Nat × Nat)) : State := { sOps [opPour] with pours := [pour0 moving got] }
/-- A group of one member, whose contribution has been taken. -/
def collBlock : Msg := msgOf [0x2000, 0, 0, 0x1000, 0, 0, 0, 0]
def opColl (st : OpState) : EngOp := opOf (.coll collBlock 0 []) st
def round0 (took : List Nat) : CRound := ⟨0, 0, 0, [(0, 0)], 0, 0x1000, [(0, 0, bytesOf 7 8)], [], [], [], 0, [], took, none, 0⟩
def sCollOf (st : OpState) (rs : List CRound) (t : Nat) : State := { sOps [opColl st] with rounds := rs, el9 := t }
/-- A group of two, both of whose contributions have been taken. -/
def rate0 : Nat := (sCollOf .complete [] 0).slowest ((sCollOf .complete [] 0).ctx 0)
def round2 : CRound := { round0 [] with word2 := 1, subs := [(0, 0, bytesOf 7 8), (1, 0, bytesOf 8 8)] }

theorem witness_HubAndCollectiveSteps : (0 < Config.nClusters ∧ (sPour false []).movingPour 0 0 = none ∧ ((sPour false []).chanQueue 0 0).head? = some (pour0 false []) ∧
      ((sPour false []).core 0).frozen = false ∧ ((sPour true []).movingPour 0 0).isSome = true) ∧
    (let s := sPour true []
     let q := pour0 true []
     s.movingPour 0 0 = some q ∧ (s.core q.core).frozen = false ∧ (s.core q.core).op? q.seq = some opPour ∧ aget q.landed 0 = some [] ∧ (∀ p ∈ s.pours, p.core = q.core → p.seq = q.seq → p = q) ∧
       q.desc.sh = false ∧ 0 < q.desc.total ∧ 0 < q.desc.rbytes ∧ Clean (s.core 0) 0x2000 8 ∧ (s.core 0).ringUsed + 64 ≤ Config.ringCap ∧ (s.core 0).mem.wf = true) ∧
    (let s := sPour true [(0, 8)]
     let q := pour0 true [(0, 8)]
     q ∈ s.pours ∧ q.cluster = 0 ∧ q.ch = 0 ∧ q.moving = true ∧ (∀ x ∈ s.pours, x.cluster = 0 → x.ch = 0 → x.moving = true → x = q) ∧ q.taken.contains 0 = false ∧ q.again = [] ∧
       aget q.landed 0 = some [(0, 8)] ∧ q.desc.total ≤ prefixOf [(0, 8)] ∧ (s.core q.core).opCommitted opPour = true ∧ q.desc.follow = false ∧ q.desc.hasBar = false) ∧
    (let u := (({ sMsg with me := { sMsg.me with streams := [str0], locks := [⟨0, streamKey 56, false, [(0x2000, 32)]⟩] } } : State).focus 0).caughtUp
     u.me.frozen = false ∧ u.me.stream? 56 = some str0 ∧ str0.out = false ∧ str0.revoked = false ∧ str0.far = false ∧ str0.pos + str0.buf.length < str0.count ∧ str0.buf.length < str0.room ∧
       str0.isV = false ∧ str0.hdl = none ∧ u.me.locked str0 = true ∧ u.me.poison.contains (str0.addr (str0.pos + str0.buf.length) / 64) = false) ∧
    (let u := (({ sMsg with me := { sMsg.me with streams := cPush.streams, locks := cPush.locks } } : State).focus 0).caughtUp
     u.me.stream? 57 = some strPush ∧ strPush.out = true ∧ u.me.locked strPush = true) ∧
    (let o := opColl .queued
     let u := ((sCollOf .queued [] 0).focus 0).caughtUp
     let q := CollDesc.of collBlock
     u.me.op? 1 = some o ∧ u.awayOf o = [] ∧ (∀ p ∈ u.me.ops, p.seq = o.seq → p = o) ∧ u.me.frozen = false ∧ o.redo = false ∧ u.me.opCommitted o = true ∧ u.round? o.ctx q.gid 0 = none ∧
       Clean (u.me.claimAll o.ctx q.buf.toNat q.len) q.buf.toNat q.len) ∧
    (let u := ((sCollOf .running [round2] 0).focus 0).caughtUp
     u.round? 0 (CollDesc.of collBlock).gid 0 = some round2 ∧ round2.fail = none ∧ round2.ups = [] ∧ (round2.ready 2).isSome = true ∧ (CollDesc.of (msgOf [0x2000, 0, 1, 0x1000, 0, 0, 0, 0])).n = 2) ∧
    (let q := CollDesc.of collBlock
     let u := ((sCollOf .running [round0 []] 0).focus 0).caughtUp
     u.round? 0 q.gid 0 = some (round0 []) ∧ (round0 []).result q = some (bytesOf 7 8) ∧ (bytesOf 7 8).length = q.len ∧ (∀ l ∈ linesOf q.buf.toNat q.len, u.me.held l = false) ∧ u.me.mem.wf = true) ∧
    (let q := CollDesc.of collBlock
     let u := ((sCollOf .complete [round0 [0]] (Config.W * rate0)).focus 0).caughtUp
     u.round? 0 q.gid 0 = some (round0 [0]) ∧ q.n ≤ (round0 [0]).took.length ∧ (round0 [0]).lastAt + Config.W * u.slowest (u.ctx 0) ≤ u.el9) ∧
    (let u := ((sCollOf .complete [round0 [0]] 0).focus 0).caughtUp
     u.el9 < (round0 [0]).lastAt + Config.W * u.slowest (u.ctx 0)) := by
  unfold Clean
  and_intros <;> decide +kernel

/-! ### Launches and the fabric -/

/-- Launch 0 of context 0 holds row 0; its code image and its done block stand behind the handle. -/
def launch1 : Launch := { launch0 with record := msgOf [0, 0, 1, 0, 0, 0, 3, 0x200], rows := [0] }
def sLaunch (x : Launch) : State :=
  { sMsg with
    me := Core.reset
    launches := [x]
    dram := Mem.put [] 0x1000 (wordBytes [0xE000000000100000, 0x100000]) }
def wave0 (left : List Nat) (m : Nat) : Wave := ⟨false, 2, 2, m, left⟩
def sLocalIdle (x : Launch) : State := { sLaunch x with me := { Core.reset with lt := lt0 } }
def withLease (l : Lease) (x : Launch) : State := { sLaunch x with leases := [(0, l)] }

/-- Two task records, for core 0, whose deque is full, and for core 1. -/
def sFullDeque : State :=
  let s := sLaunch { launch1 with tasks := [(0, Msg.zero), (1, Msg.zero)] }
  { s with me := { s.me with deque := List.replicate 1024 ⟨Msg.zero, none, 0, false⟩ } }

theorem witness_LaunchSequencer : (1024 ≤ ((sFullDeque.core 0).claimBank 0 14).deque.length ∧ sFullDeque.replayHead (msgCtx Msg.zero).toNat 1 = none ∧
      ((sFullDeque.core 1).claimBank 0 14).deque.length < 1024 ∧ ((sFullDeque.core 1).claimBank 0 14).dequeHeld = false) ∧ (let x := { launch1 with tasks := [(0, Msg.zero)] }
      let s := sLaunch x
      s.launch? 0 0 = some x ∧ (s.ctx 0).here = true ∧ s.replayHead (msgCtx Msg.zero).toNat 0 = none ∧ ((s.core 0).claimBank 0 14).deque.length < 1024 ∧ ((s.core 0).claimBank 0 14).dequeHeld = false) ∧
    (let s := sLaunch launch1
     (s.ctx 0).here = true ∧ s.haltedCtx 0 = false ∧ launch1.term = false ∧ launch1.wave = none ∧ launch1.rel = none) ∧
    ({ sLaunch launch1 with me := { Core.reset with halted := some .halt } } : State).haltedCtx 0 = true ∧
    (({ launch1 with wave := some (wave0 [0] 5) } : Launch).wave = some (wave0 [0] 5) ∧ (wave0 [0] 5).left = 0 :: []) ∧
    ((sLaunch { launch1 with wave := some (wave0 [] 5), last := some (wave0 [] 5) }).replaying 0 = none ∧ (wave0 [] 5).left = [] ∧ (wave0 [] 5).busy = false ∧ (wave0 [] 5).sent = (wave0 [] 5).recv ∧
      (wave0 [] 5).minst < 2 ^ 64 - 1 ∧ (wave0 [] (2 ^ 64 - 1)).minst = 2 ^ 64 - 1 ∧ (sLocalIdle launch1).group launch1 ≠ []) ∧
    (let x := { launch1 with rel := some 5, acks := [0] }
     (∀ y ∈ ((sLocalIdle x).focus 0).caughtUp.launches, y ≠ x → ¬(y.ctx = 0 ∧ y.lnch = 0) ∧ ¬(y.rel.isSome = true ∧ 0 ∈ y.acks)) ∧ 0 ∈ x.acks ∧
       (((sLocalIdle x).focus 0).caughtUp.ctx 0).here = true) ∧
    (let x := { launch1 with term := true }
     let s := withLease Lease.reset x
     s.idInUse 0 0 = false ∧ (withLease ⟨.running, 0, none, 0, []⟩ x).idInUse 0 0 = true ∧ launch1.term = false ∧ s.hptr 0 (x.record.toList.getD 7 0) 32 = some 0x100200 ∧ 0x100200 + 32 ≤ hostBit ∧ s.dram.wf = true ∧
       s.host.wf = true) ∧
    ((withLease ⟨.draining, 0, some 1, 0, []⟩ launch1).lease 0 = ⟨.draining, 0, some 1, 0, []⟩ ∧ (rowCores 0).all ((withLease ⟨.draining, 0, some 1, 0, []⟩ launch1).coreDrained 0 0) = true) ∧
    (rowCores 0).all (sMsg.coreDrained 0 0) = false ∧
    (let s := withLease ⟨.running, 0, none, 0, []⟩ { launch1 with term := true }
     (s.lease 0).st = .running ∧ (s.lease 0).queue = [] ∧ (rowCores 0).all (s.coreDrained 0 0) = true ∧ s.launch? 0 0 = some { launch1 with term := true }) ∧
    (let s := withLease ⟨.loading, 0, none, 0, []⟩ launch1
     s.launch? 0 0 = some launch1 ∧ s.hread 0 (launch1.record.toList.getD 4 0) 0 49152 false = some 0x100000 ∧ (s.lease 0).st = .loading ∧ (s.ctx 0).here = true ∧ (s.lease 0).queue = [] ∧ s.derr = [] ∧ s.sourceBad 0 (launch1.record.toList.getD 4 0) 0x100000 49152 = false ∧
       (s.ctx 0).state = 1 ∧ ({ s with reload := [0] } : State).reload.contains 0 = true) := by
  and_intros <;> decide +kernel

theorem witness_blocks : (withLease ⟨.loading, 0, none, 0, []⟩ launch1).blocks 0 (launch1.record.toList.getD 4 0) = .ok [] := by decide +kernel

/-- The flit of number 5 whose payload is zero, with its CRC and with another. -/
def flit0 (kind : BitVec 4) (crc : BitVec 32) : Flit := ⟨5, kind, 0, 0, 0, [], crc⟩
def goodCrc (kind : BitVec 4) : BitVec 32 := crc32c (flitBytes (flit0 kind 0))
def port0 : Port := { Port.reset with up := true, rxNext := 5, asked := some 5 }
def sPort (p : Port) : State := { sMsg with ports := [(0, p)], ready := #v[0, 0, 64] }

/-- A message from core 0 of package 1 for core 1 of this package. -/
def pktIn : Packet := ⟨2 * nodeSpan, 1, 5, 1, 0, 0, false, .entry 3 0 (.msg Msg.zero 0 1 none)⟩

/-- Port 0 is on the route toward the master package and holds the answer of an exchange. -/
def sTime : State := { sPort { port0 with rx := [flit0 5 0] } with routes := [(Config.masterPkg, 0x8000000000000000)] }

theorem witness_LinksAndGlobalTime : (pktIn.leaves = none ∧ pktIn.body.isReply = false ∧ (sPort port0).mayAsk pktIn = true) ∧ (0 < Config.nPorts ∧ ((sPort port0).port 0).up = true ∧ crc32c (flitBytes (flit0 1 (goodCrc 1 + 1))) ≠ (flit0 1 (goodCrc 1 + 1)).crc) ∧
    (crc32c (flitBytes (flit0 1 (goodCrc 1))) = (flit0 1 (goodCrc 1)).crc ∧ (flit0 1 (goodCrc 1)).seq = port0.rxNext ∧ (flit0 1 (goodCrc 1)).seq ≠ ({ port0 with rxNext := 6 } : Port).rxNext ∧
      crc32c (flitBytes (flit0 3 (goodCrc 3))) = (flit0 3 (goodCrc 3)).crc ∧ crc32c (flitBytes (flit0 4 (goodCrc 4))) = (flit0 4 (goodCrc 4)).crc) ∧
    (port0.asked = some 5 ∧ port0.first ≠ 5 ∧ ({ port0 with first := 5, times := 16 } : Port).first = 5 ∧ ({ port0 with first := 5, times := 15 } : Port).times < 16) ∧
    (((sPort Port.reset).port 0).up = false ∧ (sPort Port.reset).portReady 0 = true ∧ (1 : BitVec 8) ≠ sMsg.pkgid ∧ (0 : BitVec 8) = sMsg.pkgid) ∧
    (sTime.tmaster = false ∧ sTime.timePort = some 0 ∧ 0 ≤ sTime.gt ∧ (∃ f ∈ (sTime.port 0).rx, f.kind = 5) ∧ sTime.sync = false ∧ ({ sTime with sync := true } : State).sync = true ∧
      sMsg.timePort = none) := by
  have up : (sTime.port 0).up = true := by decide +kernel
  have route : sTime.timePort = some 0 := by
    have e : sTime.routeTo Config.masterPkg = 0x8000000000000000 := by simp [State.routeTo, sTime, aget]
    unfold State.timePort State.egress
    rw [e]
    simp only [show bits (0x8000000000000000 : W64) 3 0 = 0 by decide, up]
    decide
  have none_ : sMsg.timePort = none := by
    have e : sMsg.routeTo Config.masterPkg = 0 := by simp [State.routeTo, sMsg, withBlock, withS, s0, State.reset, aget]
    unfold State.timePort State.egress
    rw [e]
    rfl
  and_intros <;> first | exact route | exact none_ | decide +kernel


/-! ### Commands of the host -/

/-- Context k in a state, with one cluster of the mask, its page table and its handle table in the package's DRAM. -/
def ctxOf (k st mask : Nat) : Ctx :=
  { Ctx.reset k with d := ((((Ctx.reset k).d.setIfInBounds 0 (BitVec.ofNat 64 (k * 2 ^ 56 + st * 2 ^ 53))).setIfInBounds 1 (BitVec.ofNat 64 mask)).setIfInBounds 4 0x1000) }
/-- Cluster 0 is ready, and the DRAM of die 0; a command of channel 0 has the operands ws. -/
def sCmd (op : Nat) (ws : List W64) (cs : List Ctx) : State :=
  { State.reset with
    ready := #v[1, 0, 4]
    ctxs := cs.map fun (c : Ctx) => ((c.w 0).toNat / 2 ^ 56, c)
    chans := State.reset.chans.setIfInBounds 0 { Channel.reset with ops := Vector.ofFn fun i => ws.getD i.val 0, busy := true, opcode := BitVec.ofNat 64 op } }
def halted (s : State) : State := { s with me := { s.me with halted := some .halt } }
def sharing (s : State) (mask : W64 × W64) : Bool := s.ctxs.any fun y => y.2.state == 2 && sharesMask y.2.mask mask
def drains (s : State) (mask : W64 × W64) : Bool := s.ctxs.any fun y => y.2.drain.isSome && sharesMask y.2.mask mask
def still (y : Ctx) : Bool := y.state == 2 && y.drain.isNone

/-- Context 1 in state st with a save area behind handle 0. -/
def saving (st : Nat) : Ctx :=
  { ctxOf 1 st 1 with d := ((ctxOf 1 st 1).d.setIfInBounds 0 ((ctxOf 1 st 1).w 0 + 1)).setIfInBounds 8 0 }
def sSaving (op st : Nat) (ws : List W64) : State :=
  { sCmd op ws [saving st] with dram := Mem.put [] 0x1000 (wordBytes [0xE000001000000000, 0x100000]) }

theorem witness_ContextCommands : (let x := (sCmd 1 [1] []).chan? 0
      x.busy = true ∧ x.work = false ∧ x.opcode = 1 ∧ (x.w 0).toNat = 1) ∧
    (let s := sCmd 1 [1] [ctxOf 1 0 1]
     (s.ctx 1).state = 0 ∧ (∀ cl ∈ (s.ctx 1).clusters, s.clusterReady cl = true) ∧ s.badDescriptor (s.ctx 1) = false ∧ s.ringSize 1 = some 0 ∧ (ctxOf 1 3 1).state ≠ 0 ∧
       s.badDescriptor ((s.ctx 1).setState 0 |> fun c => { c with d := c.d.setIfInBounds 14 1 }) = true ∧ (1 : Nat) ∈ (ctxOf 1 0 2).clusters ∧ s.clusterReady 1 = false) ∧
    (let s := sCmd 2 [1, 1, 0] [ctxOf 1 3 1]
     (s.ctx 1).mask = ((s.chan? 0).w 1, (s.chan? 0).w 2) ∧ (s.ctx 1).state = 3 ∧ sharing s (s.ctx 1).mask = false ∧ sharing (sCmd 2 [1, 1, 0] [ctxOf 1 3 1, ctxOf 2 2 1]) (s.ctx 1).mask = true ∧
       s.saveArea 1 = none ∧
       (sSaving 2 3 [1, 1, 0]).saveArea 1 = some 0x100000 ∧ ((sSaving 2 3 [1, 1, 0]).ctx 1).state = 3 ∧ ((sSaving 2 3 [1, 1, 0]).ctx 1).mask = (1, 0) ∧
       sharing (sSaving 2 3 [1, 1, 0]) (1, 0) = false ∧ (∀ cl ∈ (saving 3).clusters, (sSaving 2 3 [1, 1, 0]).clusterReady cl = true) ∧
       (sSaving 2 3 [1, 1, 0]).dramDark 0x100000 (saving 3).saveBytes = false ∧ (sSaving 2 3 [1, 1, 0]).derr = [] ∧
       ({ sSaving 2 3 [1, 1, 0] with ready := #v[1, 0, 0] } : State).dramDark 0x100000 (saving 3).saveBytes = true ∧
       (1 : Nat) ∈ (ctxOf 1 3 2).clusters ∧ (sCmd 2 [1, 2, 0] [ctxOf 1 3 2]).clusterReady 1 = false ∧ (ctxOf 1 3 2).mask ≠ (1, 0) ∧ (ctxOf 1 1 1).state ≠ 3) ∧
    (let s := sCmd 3 [1, 0] [ctxOf 1 2 1]
     s.inState still (1, 0) 2 = .ok 1 ∧ s.saveArea 1 = none ∧ (sSaving 3 2 [1, 0]).saveArea 1 = some 0x100000 ∧ (sSaving 3 2 [1, 0]).inState still (1, 0) 2 = .ok 1 ∧ (sSaving 3 2 [1, 0]).dramDark 0x100000 (saving 2).saveBytes = false ∧
       ({ sSaving 3 2 [1, 0] with ready := #v[1, 0, 0] } : State).dramDark 0x100000 (saving 2).saveBytes = true ∧ (sCmd 3 [1, 0] []).inState still (1, 0) 2 = .error 2 ∧ s.inState still (3, 0) 2 = .error 1) ∧
    (let s := sCmd 10 [1] [ctxOf 1 3 1]
     (s.ctx 1).state = 3 ∧ (s.ctx 1).drain = none ∧ (ctxOf 1 1 1).state ≠ 3 ∧ (ctxOf 1 1 1).state ≠ 5) ∧
    (let s := sCmd 8 [1] [ctxOf 1 1 1]
     ((s.chan? 0).w 0).toNat = 1 ∧ (s.ctx 1).here = true ∧ (s.ctx 1).hasCluster (clusterOf 0) = true ∧ 0 ∈ s.cores ∧ commandCodes.contains ((sCmd 11 [] []).chan? 0).opcode.toNat = false) ∧
    (let s := { sCmd 9 [1, 0] [ctxOf 1 1 1] with chans := (State.reset.chans.setIfInBounds 0 { Channel.reset with busy := true, work := true, opcode := 9 }) }
     (s.chan? 0).busy = true ∧ (s.chan? 0).work = true ∧ (s.chan? 0).opcode = 9 ∧ s.poursUnder 1 0 = []) ∧
    (State.reset.chan? 0).busy = false := by
  and_intros <;> decide +kernel

/-- Context 1 runs, context 2 waits in the shadow share. -/
def sSwap : State := sCmd 4 [1, 0] [ctxOf 1 1 1, ctxOf 2 2 1]
def sOutOf (l : List Ctx) : State := { sCmd 4 [1, 0] l with el9 := 320 * Config.W }

theorem witness_SwitchOfContexts : (let s := sSwap
      (s.chan? 0).opcode = 4 ∧ s.swapping 0 = false ∧ drains s (1, 0) = false ∧ s.haltedMask (1, 0) = false ∧ s.inState (fun y => y.state == 2) (1, 0) 2 = .ok 2 ∧ s.entryOk 2 = true ∧
        s.ctxs.find? (fun y => y.2.state == 1 && sharesMask y.2.mask (1, 0)) = some (1, ctxOf 1 1 1) ∧ (ctxOf 1 1 1).mask = (1, 0)) ∧
    (sCmd 4 [1, 0] [{ ctxOf 1 4 1 with drain := some 0 }]).swapping 0 = true ∧ (sCmd 4 [1, 0] [{ ctxOf 1 4 1 with drain := some 1 }]).swapping 0 = false ∧
    drains (sCmd 4 [1, 0] [{ ctxOf 1 4 1 with drain := some 1 }]) (1, 0) = true ∧ (halted sSwap).haltedMask (1, 0) = true ∧
    (sCmd 4 [1, 0] [ctxOf 1 1 1]).inState (fun y => y.state == 2) (1, 0) 2 = .error 2 ∧
    (sCmd 4 [1, 0] [ctxOf 2 2 1]).ctxs.find? (fun y => y.2.state == 1 && sharesMask y.2.mask (1, 0)) = none ∧ (ctxOf 1 1 3).mask ≠ (1, 0) ∧
    ({ ctxOf 2 2 1 with d := (ctxOf 2 2 1).d.setIfInBounds 0 0x0243000000000000 } : Ctx).state = 2 ∧
    (sCmd 4 [1, 0] [{ ctxOf 2 2 1 with d := (ctxOf 2 2 1).d.setIfInBounds 0 0x0243000000000000 }]).entryOk 2 = false ∧
    (let s := sOutOf [{ ctxOf 1 4 1 with drain := some 0 }, ctxOf 2 2 1]
     (s.ctx 1).drain.isSome = true ∧ (s.ctx 1).out = false ∧ (s.ctx 1).state = 4 ∧ (∀ j ∈ s.cores.filter fun c => (s.ctx 1).hasCluster (clusterOf c), (s.core j).settledOut = true) ∧
       (s.ctx 1).last9 + Config.W * s.slowest (s.ctx 1) ≤ s.el9 ∧ ({ s with el9 := 0 } : State).el9 < (s.ctx 1).last9 + Config.W * s.slowest (s.ctx 1)) ∧
    (let s := sOutOf [{ ctxOf 1 4 1 with drain := some 0, out := true }, ctxOf 2 2 1]
     (s.ctx 1).drain = some 0 ∧ (s.ctx 1).out = true ∧ s.comingIn (s.ctx 1).mask 1 = some 2 ∧ s.derr = [] ∧ (s.ctx 2).spill = [] ∧ (s.ctx 1).spill = []) ∧
    ((sOutOf [{ ctxOf 1 4 1 with drain := some 4, out := true }]).ctx 1).drain = some 4 := by
  and_intros <;> decide +kernel

/-- Core 1 of cluster 0 is halted, and its record goes to the buffer of handle 0. -/
def sHalted : State :=
  { sMsg with others := [(1, { Core.reset with id := 1, halted := some .halt, steps := some 0 })], haltBufs := [(0, 0)] }

theorem witness_HaltsAndSteps : (let s := sCmd 5 [1, 0] [ctxOf 1 1 1]
      (s.chan? 0).busy = true ∧ (s.chan? 0).work = false ∧ (s.chan? 0).opcode = 5 ∧ s.exchanging (1, 0) = false ∧ s.runningIn (1, 0) = .ok 1 ∧ s.runningIn (3, 0) = .error 1 ∧
        (sCmd 5 [1, 0] []).runningIn (1, 0) = .error 5 ∧ 0 ∈ (s.ctx 1).coreList ∧ 0 ∈ s.cores) ∧
    (sCmd 5 [1, 0] [{ ctxOf 1 4 1 with drain := some 0, out := true }]).exchanging (1, 0) = true ∧
    (let c := { ctxOf 1 1 1 with d := (ctxOf 1 1 1).d.setIfInBounds 0 0x0123000000000000 }
     (sCmd 6 [1, 0] [c]).runningIn (1, 0) = .ok 1 ∧ c.rpl = true ∧ c.recording = true ∧ (ctxOf 1 1 1).rpl = false) ∧
    (let s := halted (sCmd 7 [1, 0, 0, 3] [ctxOf 1 1 1])
     s.runningIn (1, 0) = .ok 1 ∧ ((s.chan? 0).w 2).toNat < Config.nCores ∧ (s.ctx 1).hasCluster (clusterOf 0) = true ∧ ((s.chan? 0).w 3).toNat = 3 ∧ (s.core 0).halted ≠ none ∧
       (s.core 0).gang = none ∧ ((sCmd 7 [1, 0, 0, 3] [ctxOf 1 1 1]).core 0).halted = none ∧ (gangOf 1).idx ≠ 0) ∧
    (((sHalted.focus 1).caughtUp.me.steps = some 0) ∧ (1 : Nat) < Config.nCores) ∧
    (({ s0 with me := { c0 with steps := some 2 } } : State).focus 0).caughtUp.me.steps = some 2 ∧
    (let s := sHalted
     s.curCtx (clusterOf 1) = some 0 ∧ aget s.haltBufs 0 = some 0 ∧ s.haltedCtx 0 = true ∧ (s.core 1).halted.isSome = true ∧ (s.core 1).closing = [] ∧
       s.hread 0 0 (512 * (s.ctx 0).coreList.idxOf 1) 512 true = some 0x100200 ∧ 0x100200 + 512 ≤ hostBit ∧ s.dram.wf = true ∧ s.host.wf = true) := by
  and_intros <;> decide +kernel

def usedDie (s : State) (die : Nat) : Bool :=
  s.ctxs.any fun y => (y.2.state == 1 || y.2.state == 2 || y.2.state == 4 || y.2.drain.isSome) && (dieClusters die).any y.2.hasCluster

/-- sMsg with a second handle, which the command revokes. -/
def sRevoke : State :=
  { sMsg with
    chans := (sCmd 9 [0, 1] []).chans
    ctxs := sMsg.ctxs.map fun (p : Nat × Ctx) => (p.1, { p.2 with d := p.2.d.setIfInBounds 0 0x0020000000000002 }) }

theorem witness_DeviceCommands : (let s := sRevoke
      (s.chan? 0).opcode = 9 ∧ ([5, 7, 8, 13].any fun i => underHandle 1 ((s.ctx 0).w i)) = false ∧ s.launches = [] ∧ 1 < bits ((s.ctx 0).w 0) 15 0 ∧
        ((s.ctx 0).w 4).toNat + 8 ≤ hostBit ∧ s.dram.wf = true ∧ s.host.wf = true ∧ 0 ∈ s.cores ∧ (s.ctx 0).here = true ∧ (s.ctx 0).hasCluster (clusterOf 0) = true) ∧
    underHandle 0 ((sRevoke.ctx 0).w 5) = true ∧
    (let s := sCmd 0x12 [0x1000, 128, 5] []
     (0x1000 : Nat) % 64 = 0 ∧ (128 : Nat) % 64 = 0 ∧ s.ownPa 0x1000 = true ∧ s.ownPa (0x1000 + 127) = true ∧ s.dramReady 0 = true ∧ s.dramReady 1 = false ∧ s.ownPa (2 ^ 39) = false) ∧
    (let s := { sMsg with chans := (sCmd 0x13 [0] []).chans }
     ((s.ctx ((s.chan? 0).w 0).toNat).here && (s.ctx ((s.chan? 0).w 0).toNat).hasCluster (clusterOf 0)) = true ∧ ((s.ctx 1).here && (s.ctx 1).hasCluster (clusterOf 0)) = false) ∧
    (usedDie (sCmd 0x14 [0, 3] []) 0 = false ∧ usedDie (sCmd 0x14 [0, 3] [ctxOf 1 1 1]) 0 = true ∧ (sCmd 0x14 [0, 3] []).power.toList.getD 0 0 ≠ 3 ∧ 4 ≤ (((sCmd 0x14 [4, 3] []).chan? 0).w 0).toNat) := by
  and_intros <;> decide +kernel

/-- Ring 0 at 0x4000 of DRAM: 16 records, threshold n, a timer of 1 microsecond, vector 3; with u records not yet told, and of which PROD is 16. -/
def ring1 (n u : Nat) : HRing := { HRing.reset with base := 0x4000, cfg := 0x8000000000030004, thr := BitVec.ofNat 64 (2 ^ 32 + n), u := u }
def sRings (n u : Nat) : State := { sMsg with rings := [(0, ring1 n u)], gt9 := 9 * 16000 }
def sRingFull : State := { sRings 2 1 with dram := Mem.put (sRings 2 1).dram 0x4000 [16] }

theorem witness_GraphCommandsAndRings : (((sCmd 0x10 [0, 1] []).chan? 0).opcode = 0x10 ∧ ((sCmd 0x10 [0, 1] []).slot (slotKey 0 1)).st ≠ .running ∧ (sCmd 0x10 [0, 1] []).dramReady 0 = true ∧
      ({ sCmd 0x10 [0, 1] [] with ready := #v[1, 0, 0] } : State).dramReady 0 = false ∧ (({ sMsg with slots := [(1, { Slot.reset with st := .running })] } : State).slot (slotKey 0 1)).st = .running) ∧
    ((ring1 2 1).base.toNat + 64 + 32 * 2 ^ (ring1 2 1).size ≤ hostBit ∧ (sRings 2 1).dram.wf = true ∧ (sRings 2 1).host.wf = true ∧ (ring1 2 1).threshold ≤ (ring1 2 1).u + 1 ∧
      (ring1 3 1).u + 1 < (ring1 3 1).threshold ∧ (sRings 2 1).ring 0 = ring1 2 1) ∧
    ((ring1 2 1).en = true ∧ sRingFull.hringFull 0 = true ∧ (ring1 2 1).reread + 16000 ≤ sRingFull.gt ∧ (sRings 2 1).hringFull 0 = false) ∧
    ((ring1 2 1).timer = 1 ∧ (ring1 2 1).u ≠ 0 ∧ (ring1 2 1).since + 16000 * (ring1 2 1).timer ≤ (sRings 2 1).gt ∧ sMsg.gt < (ring1 2 1).since + 16000 * (ring1 2 1).timer) := by
  and_intros <;> decide +kernel

/-- Slot 0 of die 0 stands at a node of the words ws, which lies at 0x40 behind the handle. -/
def slot1 : Slot := { Slot.reset with st := .running, node := 0x40 }
def sNode (ws : List W64) : State :=
  { sMsg with slots := [(0, slot1)], dram := Mem.put sMsg.dram 0x100040 (wordBytes ws), rings := [(0, ring1 2 1)], gt9 := 9 * 16000, me := Core.reset }
def nodeAt (ws : List W64) : Msg := msgOf (ws ++ List.replicate (8 - ws.length) 0)
/-- The slot has started its node. -/
def sSub (ws : List W64) : State := { sNode ws with slots := [(0, { slot1 with cur := some (nodeAt ws), sub := true })] }
def launchWs : List W64 := [0x1000000000000080, 0x200]
def copyWs : List W64 := [0x2000000000000080, 0x200, 0x300, 64, 0xFFFF000000000000]
def waitWs (v : W64) : List W64 := [0x3000000000000080, 0x200, v, 0, 1, 0x80]
def barWs (v : W64) : List W64 := [0x3000000000000080, 0x200, v, 8]
def condWs (v : W64) (n : W64) : List W64 := [0x4000000000000080, 0x200, v, n, 0x80]
def signalWs : List W64 := [0x6000000000000080, 0x200, 5, 1]
def condOf (m : Msg) (v : Nat) : Bool := (nodeCond m).any fun cc => condHolds cc (BitVec.ofNat 64 v) (m.w 2)
/-- The value that the read of the node's word gives. -/
def readOf (ws : List W64) (n : Nat) : Option Nat :=
  match ((sNode ws).setSlot 0 { slot1 with cur := some (nodeAt ws) }).nodeRead 0 ((nodeAt ws).w 1) false n with
  | .ok (_, v) => some v
  | .error _ => none
/-- The node is read, is as its words say, and has its type and no reserved bit. -/
def Stands (ws : List W64) (ty : Nat) : Prop :=
  (sNode ws).slot (slotKey 0 0) = slot1 ∧ (sNode ws).nodeOf slot1 = .ok (nodeAt ws) ∧ badNode (nodeAt ws) = false ∧ bits ((nodeAt ws).w 0) 63 60 = ty

theorem handlesReadable_sNode (ws : List W64) : HandlesReadable (sNode ws) := by
  intro c h _ _
  have e : (sNode ws).sectorBad = fun _ => false := by
    funext x
    simp [State.sectorBad, State.sectorBadAs, sNode, sMsg, withBlock, withS, s0, State.reset, aget]
  simp [State.physBad, e]

theorem witness_GraphNodes : (State.reset.slot 0).st ≠ .running ∧ (sNode []).nodeOf { slot1 with node := 0x41 } = .error 1 ∧ badNode (nodeAt []) = true ∧
    ({ slot1 with done := some 5 } : Slot).done = some 5 ∧
    (Stands launchWs 1 ∧ (sNode launchWs).hread 0 0x200 0 64 false = some 0x100200 ∧ (sNode launchWs).hread 0 0x1000 0 64 false = none ∧ ((sNode launchWs).ctx 0).state = 1 ∧
      ((sNode launchWs).core 0).running = false ∧ (sMsg.core 0).running = true ∧ (sNode launchWs).nodeBad 0 0x200 0x100200 64 false = false ∧ (sNode launchWs).derr = [] ∧
      (sNode launchWs).nodeBad 0 0x200 0x100200 64 true = false) ∧
    (Stands copyWs 2 ∧ (sNode copyWs).copyRanges 0 (nodeAt copyWs) = .ok (0x100200, 0x100300, 64) ∧ noStamp (nodeAt copyWs) = true ∧
      (sNode copyWs).copyRanges 0 (nodeAt [0x2000000000000080, 0x1000, 0x300, 64, 0xFFFF000000000000]) = .error (some 2)) ∧
    (Stands (waitWs 0) 3 ∧ ((nodeAt (waitWs 0)).w 3).getLsbD 3 = false ∧ readOf (waitWs 0) 8 = some 0 ∧ condOf (nodeAt (waitWs 0)) 0 = true ∧ condOf (nodeAt (waitWs 1)) 0 = false ∧ Stands (waitWs 1) 3) ∧
    ((nodeAt (waitWs 1)).w 4 ≠ 0 ∧ slot1.since + 16000 * ((nodeAt (waitWs 1)).w 4).toNat ≤ (sNode []).gt ∧ (nodeAt (waitWs 1)).w 5 ≠ 0) ∧
    (Stands (barWs 0) 3 ∧ ((nodeAt (barWs 0)).w 3).getLsbD 3 = true ∧ readOf (barWs 0) 16 = some 0 ∧ (Barrier.of 0).gen = ((nodeAt (barWs 0)).w 2).toNat ∧
      (Barrier.of 0).gen ≠ ((nodeAt (barWs 1)).w 2).toNat ∧ Stands (barWs 1) 3) := by
  unfold Stands
  and_intros <;> decide +kernel

theorem witness_GraphNodes2 : (Stands (condWs 0 0x100) 4 ∧ readOf (condWs 0 0x100) 8 = some 0 ∧ condOf (nodeAt (condWs 0 0x100)) 0 = true ∧ ((nodeAt (condWs 0 0x100)).w 3).getLsbD 8 = true ∧
      slot1.iter.toNat = bits ((nodeAt (condWs 0 0x100)).w 3) 31 16 ∧ Stands (condWs 0 0x20100) 4 ∧ slot1.iter.toNat ≠ bits ((nodeAt (condWs 0 0x20100)).w 3) 31 16 ∧
      (nodeAt (condWs 0 0x20100)).w 5 = 0 ∧ condOf (nodeAt (condWs 1 0)) 0 = false ∧ ((nodeAt (condWs 0 0)).w 3).getLsbD 8 = false) ∧
    (Stands [0x5000000000000080, 0] 5 ∧ ((sNode []).ring 0).en = true ∧ (sNode []).hringFull 0 = false ∧ ((sNode []).ring 1).en = false ∧ sRingFull.hringFull 0 = true) ∧
    (Stands signalWs 6 ∧ ((sNode signalWs).setSlot 0 { slot1 with cur := some (nodeAt signalWs) }).nodeHome 0 0x200 false true 8 = .ok (.dev 0x100200) ∧
      (sNode signalWs).dpois.contains (0x100200 / 64) = false ∧ 0x100200 + 8 ≤ hostBit ∧ (sNode signalWs).dram.wf = true ∧ lockOn (sNode signalWs).dlocks 0x100200 8 = none) ∧
    (Stands [0x7000000000000000] 7 ∧ ((nodeAt [0x7000000000000000]).w 1).getLsbD 0 = false) ∧
    (((sSub launchWs).slot 0).cur = some (nodeAt launchWs) ∧ ((sSub launchWs).slot 0).sub = true ∧ ((nodeAt launchWs).w 2).getLsbD 0 = false ∧ (sSub launchWs).nodeOf ((sSub launchWs).slot 0) = .ok (nodeAt launchWs)) ∧
    ((sSub copyWs).copyRanges 0 (nodeAt copyWs) = .ok (0x100200, 0x100300, 64) ∧ (sSub copyWs).dram.wf = true ∧ (sSub copyWs).host.wf = true ∧ 0x100300 + 64 ≤ hostBit ∧
      (sSub copyWs).nodeBad 0 ((nodeAt copyWs).w 1) 0x100200 64 false = false ∧ (sSub copyWs).nodeBad 0 ((nodeAt copyWs).w 2) 0x100300 64 true = false ∧
      (sSub copyWs).home 0x100200 = .dev 0x100200 ∧ (sSub copyWs).home 0x100300 = .dev 0x100300) := by
  unfold Stands
  and_intros <;> decide +kernel

/-! ### The host interface -/

def posted0 (off : Nat) : HWrite := ⟨0, off, [1, 2, 3]⟩

theorem witness_ControlSpaceAndBars : ((0x41 : Nat) % 8 ≠ 0 ∧ (0x40 : Nat) % 8 = 0) ∧ (State.reset.chan? 3).busy = false ∧ ((sCmd 1 [] []).chan? 0).busy = true ∧
    ((State.reset.ctx 1).state = 0 ∧ ((sCmd 1 [] [ctxOf 1 1 1]).ctx 1).state = 1) ∧ State.reset.portsDown = true ∧ (sPort port0).portsDown = false ∧ 0 < Config.nPorts ∧
    (let s := { State.reset with posted := [posted0 16], ready := #v[0, 0, 4] }
     s.posted = [] ++ posted0 16 :: [] ∧ put s.pkgid.toNat 39 + 16 + 3 ≤ hostBit ∧ s.dram.wf = true ∧ (∀ x ∈ sectorsOf (put s.pkgid.toNat 39 + 16) 3, s.dpois.contains x = false) ∧
       (∀ x ∈ sectorsOf (put s.pkgid.toNat 39 + 16) 3, s.tagAt (64 * x) = s.barTag.setWidth 4) ∧
       s.derr = [] ∧ s.dramDark (put s.pkgid.toNat 39 + 16) 3 = false ∧ ({ s with ready := #v[0, 0, 0] } : State).dramDark (put s.pkgid.toNat 39 + 16) 3 = true ∧ s.posted ≠ [] ∧
       (∃ x ∈ sectorsOf (put s.pkgid.toNat 39 + 16) 3, ({ s with barTag := 3 } : State).tagAt (64 * x) ≠ ({ s with barTag := 3 } : State).barTag.setWidth 4) ∧
       ∃ x ∈ sectorsOf (put s.pkgid.toNat 39 + 16) 3, ({ s with dpois := [0] } : State).dpois.contains x = true) ∧
    State.reset.posted = [] ∧ (16 : Nat) + 3 ≤ State.reset.barSize ∧ State.reset.barSize < 2 ^ 39 + 3 ∧ State.reset.servePosted.posted = [] := by
  and_intros <;> decide +kernel

theorem witness_DebuggerAndStartUp : (State.reset.underDebug 0 = none ∧ (0 : Nat) < Config.nCores) ∧
    (let s := sHalted
     let c := s.core 1
     s.underDebug 1 = some 0 ∧ (∀ l ∈ linesOf 64 8, c.lineOwner l = 0 ∧ c.isArrayFor 0 (l / 1024) = true ∧ c.held l = false ∧ c.heldBank (l / 1024) = false ∧ c.seg.lines.contains l = false ∧
       (c.bank (l / 1024)).owner = 0) ∧ lockOn c.locks 64 8 = none ∧ c.mem.wf = true ∧ c.isArrayFor 0 14 = false) ∧
    (let s := State.reset
     s.isReady 129 = false ∧ s.isFailed 129 = false ∧ s.powered 129 = true ∧ s.sec.verified = false ∧ s.secReady = false ∧
       ({ s with ready := #v[0, 0, 2], sec := { s.sec with verified := true } } : State).secReady = true ∧
       ({ s with ready := #v[0, 0, 2], sec := { s.sec with verified := true } } : State).isReady 5 = false ∧ s.powered 5 = true ∧ s.sec.rollback ≤ 0) ∧
    (∃ p ∈ (sCmd 1 [] [ctxOf 1 1 1]).ctxs, p.2.state ≠ 0) := by
  and_intros <;> decide +kernel

/-! ### Registers, decoding, steps -/

theorem witness_Operands : (c0.stream? (scode 2) = none ∧ c0.regs.getS 2 = .full 5 ∧ Core.reset.regs.getS 2 = .vacant ∧ Core.reset.ctl.mode.getLsbD 8 = false ∧
      ({ Core.reset with ctl := { Ctl.reset with mode := 0x100 } } : Core).ctl.mode.getLsbD 8 = true ∧ (c0.setS 2 .empty).regs.getS 2 = .empty) ∧
    (c0.stream? 2 = none ∧ (∃ x, c0.regs.getV 2 = .full x) ∧ (c0.setV 2 .empty).regs.getV 2 = .empty ∧ c0.regs.getM 2 = .full 5) := by
  refine ⟨by decide +kernel, by decide +kernel, ⟨_, rfl⟩, by decide +kernel, by decide +kernel⟩

theorem witness_RegisterFrame : ∃ n, written (.add 1 a2 a3) = some n ∧ s0.me.streams = [] := ⟨_, rfl, rfl⟩

theorem witness_DecodeOfEncode : (Instr.add 1 a2 a3).isCore = true ∧ (Instr.add 1 a2 a3).wf = true := by decide +kernel

/-- Core 0 stands at a line: its first head, and its last six bytes. -/
def sFetch (ws : List Byte) : State := { sMsg with me := { sMsg.me with imem := Mem.put (Mem.put [] 0 ws) 58 [9, 0, 2, 0x40, 0, 0], ctl := { sMsg.me.ctl with bud := 9 } }, agenda := [.issue 0] }

/-- The trace ring of context 0 is full, and the leader of a pair stands at a line. -/
def sTraced : State :=
  { sMsg with
    me := { sMsg.me with traceOut := [(0, [1])] }
    ctxs := [(0, { Ctx.reset 0 with d := ((((Ctx.reset 0).d.setIfInBounds 0 0x0020000000000001).setIfInBounds 1 1).setIfInBounds 4 0x1000).setIfInBounds 6 0x400 })]
    dram := Mem.put sMsg.dram 0x100400 (wordBytes [1]) }
def sGangFetch : State :=
  { sPair with me := { sPair.me with imem := (sFetch [0x05, 0]).me.imem, ctl := { sPair.me.ctl with bud := 9 } } }

theorem witness_StepRunsDecoded : (let v := ({ sFetch [0x05, 0] with agenda := [] } : State).focus 0
      let u := v.tick.drainTraces
      v.me.gang = none ∧ (v.power.toList.getD (dieOf 0) 0).toNat < 2 ∧ u.me.report = none ∧ u.me.traceOut = [] ∧ u.rollBad = none ∧ u.me.running = true ∧ u.me.held? = false ∧ u.spent = false ∧
        (State.sendAll u [0]).1 = true ∧ (State.sendAll u [0]).2.headBreak = none ∧ (State.sendAll u [0]).2.me.imem = u.me.imem ∧ (State.sendAll u [0]).2.me.pc = u.me.pc ∧
        (State.sendAll u [0]).2.me.again = [] ∧ (State.sendAll u [0]).2.me.streams = []) ∧
    (sReport.tick.drainTraces.me.report.isSome = true ∧ ({ sMsg with power := #v[2, 0, 0, 0] } : State).power.toList.getD (dieOf 0) 0 = 2) ∧
    ((let u := ({ sMsg with me := { sMsg.me with running := false } } : State).tick.drainTraces
      u.me.running = false ∧ u.me.report = none ∧ u.me.traceOut = [] ∧ u.rollBad = none) ∧
     (let u := sTraced.tick.drainTraces
      u.me.report = none ∧ u.me.traceOut ≠ [])) ∧
    (let v := sGangFetch
     let u := onCores v.gangOf State.drainTraces (v.gangOf.foldl (fun s k => onCore k State.tick s) v)
     v.me.gang = some (gangOf 0) ∧ (gangOf 0).idx = 0 ∧ (gangOf 1).idx ≠ 0 ∧ (v.power.toList.getD (dieOf v.cur) 0).toNat < 2 ∧
       (∀ k ∈ u.gangOf, (u.core k).report = none ∧ (u.core k).traceOut = []) ∧ u.rollBad = none ∧ u.me.running = true ∧ u.me.held? = false ∧ u.spent = false ∧
       (State.sendAll u u.gangOf).1 = true ∧ (State.sendAll u u.gangOf).2.headBreak = none ∧ (State.sendAll u u.gangOf).2.me.gang.isSome = true ∧
       ((State.sendAll u u.gangOf).2.me.fetch (State.sendAll u u.gangOf).2.me.pc).isSome = true) ∧
    (∃ r i, (sFetch [0x8A, 0x26]).tick.me.fetch 0 = some r ∧ decode r = .instr i) ∧ ((sFetch [0, 0xFF]).tick.me.fetch 0).map decode = some .illop ∧
    (∃ r x, (sFetch [0xC1, 0x07]).tick.me.fetch 0 = some r ∧ decode r = .resv x ∧ gangIllop (sFetch [0xC1, 0x07]).tick.me r x = false) ∧ sMsg.tick.me.fetch 960 = none ∧ Config.nCores ≤ 8192 := by
  refine ⟨by decide +kernel, by decide +kernel, by decide +kernel, by decide +kernel, ⟨_, _, rfl, rfl⟩, by decide +kernel, ⟨_, _, rfl, rfl, by decide +kernel⟩, by decide +kernel, by decide⟩

theorem witness_MemoryStaysCanonical : Canonical State.reset ∧ ∃ t, step State.reset = .next t := ⟨canonical_reset, _, rfl⟩

end Sys2Proof.Tests
end

