-- ==== Sys2Proof/Proofs/MemoryContents.lean ====
section
/-! What memory reads after a write, and when two memories are equal (spec/01 R11, spec/03 R63). -/

namespace Sys2Proof.Machine

/-! ### Reads after writes -/

/-- A write starts at its first byte: what lies below stays. -/
theorem Mem.byte_put_below {m : Mem} {a k : Nat} (bs : List Byte) (hm : m.wf = true) (hk : k < a) :
    Mem.byte (Mem.put m a bs) k = Mem.byte m k := by
  induction bs generalizing m a with
  | nil => rfl
  | cons x bs ih => rw [Mem.put, ih (Mem.wf_set a x hm) (by omega), Mem.byte_set a x k hm, if_neg (by omega)]

theorem Mem.byte_put_above {m : Mem} {a k : Nat} (bs : List Byte) (hm : m.wf = true) (hk : a + bs.length ≤ k) :
    Mem.byte (Mem.put m a bs) k = Mem.byte m k := by
  induction bs generalizing m a with
  | nil => rfl
  | cons x bs ih =>
    rw [List.length_cons] at hk
    rw [Mem.put, ih (Mem.wf_set a x hm) (by omega), Mem.byte_set a x k hm, if_neg (by omega)]

theorem Mem.bytes_put {m : Mem} (a : Nat) (bs : List Byte) (hm : m.wf = true) : Mem.bytes (Mem.put m a bs) a bs.length = bs := by
  induction bs generalizing m a with
  | nil => rfl
  | cons x bs ih =>
    have hx : Mem.byte (Mem.put (Mem.set m a x) (a + 1) bs) a = x := by
      rw [Mem.byte_put_below bs (Mem.wf_set a x hm) (Nat.lt_succ_self a), Mem.byte_set a x a hm, if_pos rfl]
    rw [List.length_cons, Mem.put, Mem.bytes, hx, ih (a + 1) (Mem.wf_set a x hm)]

/-! ### Equal contents -/

theorem Mem.byte_cons_self (k : Nat) (x : Byte) (m : Mem) : Mem.byte ((k, x) :: m) k = x := by simp [Mem.byte]

theorem Mem.byte_cons_below {a k : Nat} (x : Byte) (m : Mem) (h : a < k) : Mem.byte ((k, x) :: m) a = 0 := by simp [Mem.byte, h]

/-- Past its first byte a memory reads as its rest. -/
theorem Mem.byte_tail {k j : Nat} {x y : Byte} {m m' : Mem} (hm : Mem.wfFrom (k + 1) m = true) (hm' : Mem.wfFrom (k + 1) m' = true)
    (h : ∀ a, Mem.byte ((k, x) :: m) a = Mem.byte ((k, y) :: m') a) : Mem.byte m j = Mem.byte m' j := by
  by_cases hj : j ≤ k
  · rw [Mem.byte_lt hm (by omega), Mem.byte_lt hm' (by omega)]
  · have := h j
    simpa [Mem.byte, show ¬ j < k by omega, show ¬ j = k by omega] using this

/-- Canonical memories that read alike at every address are the same list: their first bytes agree, and so do their rests. -/
theorem Mem.eq_of_byte_eq {m m' : Mem} {a b : Nat} (hm : Mem.wfFrom a m = true) (hm' : Mem.wfFrom b m' = true)
    (h : ∀ k, Mem.byte m k = Mem.byte m' k) : m = m' := by
  induction m generalizing m' a b with
  | nil =>
    cases m' with
    | nil => rfl
    | cons c m' =>
      obtain ⟨_, hx, _⟩ := (Mem.wfFrom_cons ..).1 hm'
      exact absurd ((Mem.byte_cons_self ..).symm.trans (h c.1).symm) hx
  | cons c m ih =>
    obtain ⟨k, x⟩ := c
    obtain ⟨_, hx, hm⟩ := (Mem.wfFrom_cons ..).1 hm
    cases m' with
    | nil => exact absurd ((Mem.byte_cons_self ..).symm.trans (h k)) hx
    | cons c' m' =>
      obtain ⟨j, y⟩ := c'
      obtain ⟨_, hy, hm'⟩ := (Mem.wfFrom_cons ..).1 hm'
      have hjk : j = k := by
        rcases Nat.lt_trichotomy j k with hlt | heq | hgt
        · exact absurd ((Mem.byte_cons_self ..).symm.trans ((h j).symm.trans (Mem.byte_cons_below _ _ hlt))) hy
        · exact heq
        · exact absurd ((Mem.byte_cons_self ..).symm.trans ((h k).trans (Mem.byte_cons_below _ _ hgt))) hx
      subst hjk
      have hxy : x = y := (Mem.byte_cons_self ..).symm.trans ((h j).trans (Mem.byte_cons_self ..))
      rw [hxy, ih hm hm' fun i => Mem.byte_tail hm hm' h]

/-- Settles O20: a write is a fold of single-byte writes, and a canonical memory is determined by its first byte and its rest. -/
theorem memoryReadAfterWrite : Obligations.MemoryReadAfterWrite := by
  unfold Obligations.MemoryReadAfterWrite
  refine ⟨fun m a bs hm => ⟨Mem.wf_put a bs hm, Mem.bytes_put a bs hm, fun k hk => ?_⟩, fun m m' hm hm' h => Mem.eq_of_byte_eq hm hm' h⟩
  rcases hk with hk | hk
  · exact Mem.byte_put_below bs hm hk
  · exact Mem.byte_put_above bs hm hk

end Sys2Proof.Machine
end

