-- ==== Sys2Proof/Proofs/Registers.lean ====
section
/-! Reads, last uses and writes of registers that no stream is bound to (spec/01 R12, R13, spec/03 R54, R55, spec/04 R90). -/

namespace Sys2Proof.Machine

/-! ### ReadOp by the state of the register -/

theorem readS_plain {a : Src} {c : Core} (h : c.stream? (scode a.reg) = none) :
    readS a c = readCell (c.regs.getS a.reg) (a.trap && a.reg != 0) a.reg.toNat 0 c := by simp [readS, h]

theorem readV_plain {a : VSrc} {c : Core} (h : c.stream? a.reg.toNat = none) :
    readV a c = readCell (c.regs.getV a.reg) a.trap a.reg.toNat 1 c := by simp [readV, h]

@[simp] theorem readCell_full {n : Nat} (v : BitVec n) (b : Bool) (r : Nat) (f : W64) (c : Core) :
    readCell (.full v) b r f c = .ok (v, c) := rfl

@[simp] theorem readCell_empty {n : Nat} (b : Bool) (r : Nat) (f : W64) (c : Core) :
    readCell (.empty : Cell n) b r f c = if b then trap c 0x102 (ofNat r) f else .error (.wait .operand) := rfl

/-- With NAMES set a vacant register traps. -/
theorem readCell_vacant_names {n : Nat} {c : Core} (b : Bool) (r : Nat) (f : W64) (h : c.ctl.mode.getLsbD 8 = true) :
    readCell (.vacant : Cell n) b r f c = trap c 0x101 (ofNat r) f := by simp [readCell, h]

/-- Without NAMES it gives the core's next free value (log 3). -/
theorem readCell_vacant_free {n : Nat} {c : Core} (b : Bool) (r : Nat) (f : W64) (h : c.ctl.mode.getLsbD 8 = false) :
    readCell (.vacant : Cell n) b r f c = .ok ((Config.undefined c.id c.nund).setWidth n, { c with nund := c.nund + 1 }) := by
  simp only [readCell, h, undef]
  rfl

/-- The number of a register in word 3 of a record. -/
theorem ofNat_toNat {n : Nat} (x : BitVec n) : ofNat x.toNat = x.setWidth 64 := BitVec.ofNat_toNat ..

/-! ### Last uses -/

theorem freeS_plain {a : Src} {c : Core} (h : c.stream? (scode a.reg) = none) : freeS a c = if a.last then c.setS a.reg .vacant else c := by
  simp [freeS, h]

theorem freeV_plain {a : VSrc} {c : Core} (h : c.stream? a.reg.toNat = none) : freeV a c = if a.last then c.setV a.reg .vacant else c := by
  simp [freeV, h]

theorem getS_freeS {a : Src} {c : Core} (h : c.stream? (scode a.reg) = none) (r : BitVec 6) :
    (freeS a c).regs.getS r = if r = a.reg ∧ a.last = true ∧ r ≠ 0 then .vacant else c.regs.getS r := by
  rw [freeS_plain h]
  cases hl : a.last
  · simp
  · simp [getS_setS]

theorem getV_freeV {a : VSrc} {c : Core} (h : c.stream? a.reg.toNat = none) (r : BitVec 5) :
    (freeV a c).regs.getV r = if r = a.reg ∧ a.last = true then .vacant else c.regs.getV r := by
  rw [freeV_plain h]
  cases hl : a.last
  · simp
  · simp [getV_setV]

theorem getM_freeM (a : MSrc) (c : Core) (r : BitVec 3) :
    (freeM a c).regs.getM r = if r = a.reg ∧ a.last = true then .vacant else c.regs.getM r := by
  unfold freeM
  cases hl : a.last
  · simp
  · simp [getM_setM]

/-- A last use of one file leaves the other two as they are. -/
theorem freeS_files (a : Src) (c : Core) : (freeS a c).regs.v = c.regs.v ∧ (freeS a c).regs.m = c.regs.m := by
  unfold freeS Core.setS; split <;> (try split) <;> exact ⟨rfl, rfl⟩

theorem freeV_files (a : VSrc) (c : Core) : (freeV a c).regs.s = c.regs.s ∧ (freeV a c).regs.m = c.regs.m := by
  unfold freeV Core.setV; split <;> exact ⟨rfl, rfl⟩

/-! ### Writes -/

theorem setS_files (c : Core) (d : BitVec 6) (x : Cell 64) : (c.setS d x).regs.v = c.regs.v ∧ (c.setS d x).regs.m = c.regs.m := by
  unfold Core.setS; split <;> exact ⟨rfl, rfl⟩

theorem setS_frame (c : Core) (d : BitVec 6) (x : Cell 64) : { c.setS d x with regs := c.regs } = c := by
  unfold Core.setS; split <;> rfl

theorem setS_zero (c : Core) (x : Cell 64) : c.setS 0 x = c := by simp [Core.setS]

theorem getS_setS_of_ne_zero (c : Core) {d : BitVec 6} (r : BitVec 6) (x : Cell 64) (hd : d ≠ 0) :
    (c.setS d x).regs.getS r = if r = d then x else c.regs.getS r := by
  rw [getS_setS]
  by_cases e : r = d
  · rw [if_pos ⟨e, e ▸ hd⟩, if_pos e]
  · rw [if_neg fun q => e q.1, if_neg e]

theorem getS_zero (r : Regs) : r.getS 0 = .full 0 := by simp [Regs.getS]

theorem isEmpty_iff {n : Nat} (x : Cell n) : x.isEmpty = true ↔ x = .empty := by cases x <;> simp [Cell.isEmpty]

/-- An instruction waits for a destination that is EMPTY. -/
theorem destS_eq (d : BitVec 6) (c : Core) : destS d c = if c.regs.getS d = .empty then .error (.wait .dest) else .ok () := by
  unfold destS need
  by_cases h : c.regs.getS d = .empty
  · simp [h, Cell.isEmpty]
  · simp [h, mt (isEmpty_iff _).1 h]

/-- A long-latency producer leaves its destination EMPTY and its result on its way. -/
theorem produce_plain {d : BitVec 6} {c : Core} (x : W64) (n : Nat) (h : c.stream? (scode d) = none) (hd : d ≠ 0) :
    produce d x n c = .ok { c.setS d .empty with pend := c.pend ++ [⟨d.toNat, x, c.clk + n⟩] } := by
  simp only [produce, h, if_neg hd]

theorem produce_zero {c : Core} (x : W64) (n : Nat) (h : c.stream? (scode 0) = none) : produce 0 x n c = .ok c := by
  simp only [produce, h, if_true]

end Sys2Proof.Machine
end

