-- ==== Sys2Proof/Proofs/Operands.lean ====
section
/-! The clauses of O53, one for each kind of operand. -/

namespace Sys2Proof.Machine

/-- Reading an s register by its state. -/
theorem readS_cases {a : Src} {c : Core} (h : c.stream? (scode a.reg) = none) :
    (∀ v, c.regs.getS a.reg = .full v → readS a c = .ok (v, c)) ∧
    (c.regs.getS a.reg = .vacant → (c.ctl.mode.getLsbD 8 = true → readS a c = trap c 0x101 (a.reg.setWidth 64) 0) ∧
      (c.ctl.mode.getLsbD 8 = false → ∃ v, readS a c = .ok (v, { c with nund := c.nund + 1 }))) ∧
    (c.regs.getS a.reg = .empty →
      readS a c = if a.trap ∧ a.reg ≠ 0 then trap c 0x102 (a.reg.setWidth 64) 0 else .error (.wait .operand)) := by
  rw [readS_plain h]
  refine ⟨fun v e => ?_, fun e => ⟨fun hn => ?_, fun hn => ?_⟩, fun e => ?_⟩
  · rw [e, readCell_full]
  · rw [e, readCell_vacant_names _ _ _ hn, ofNat_toNat]
  · exact ⟨_, by rw [e, readCell_vacant_free _ _ _ hn]⟩
  · simp [e, ofNat_toNat]

/-- Reading a v register that holds a value or is EMPTY. -/
theorem readV_cases {a : VSrc} {c : Core} (h : c.stream? a.reg.toNat = none) :
    (∀ v, c.regs.getV a.reg = .full v → readV a c = .ok (v, c)) ∧
    (c.regs.getV a.reg = .empty → readV a c = if a.trap then trap c 0x102 (a.reg.setWidth 64) 1 else .error (.wait .operand)) := by
  rw [readV_plain h]
  refine ⟨fun v e => ?_, fun e => ?_⟩
  · rw [e, readCell_full]
  · rw [e, readCell_empty, ofNat_toNat]

theorem readM_full {a : MSrc} {c : Core} {v : W64} (e : c.regs.getM a.reg = .full v) : readM a c = .ok (v, c) := by
  rw [readM, e, readCell_full]

/-- Writes to an s register and the destinations of long-latency producers. -/
theorem writeS_cases {d : BitVec 6} {c : Core} (x : W64) (h : c.stream? (scode d) = none) :
    (∃ c', writeS d x c = .ok c' ∧ (∀ r, c'.regs.getS r = if r = d ∧ r ≠ 0 then .full x else c.regs.getS r) ∧ c'.regs.v = c.regs.v ∧
      c'.regs.m = c.regs.m ∧ { c' with regs := c.regs } = c) ∧
    (∀ n, d ≠ 0 → ∃ c', produce d x n c = .ok c' ∧ (∀ r, c'.regs.getS r = if r = d then .empty else c.regs.getS r) ∧
      c'.pend = c.pend ++ [⟨d.toNat, x, c.clk + n⟩] ∧ { c' with regs := c.regs, pend := c.pend } = c) ∧
    (∀ n, d = 0 → produce d x n c = .ok c) := by
  obtain ⟨hv, hm⟩ := setS_files c d (.full x)
  refine ⟨⟨_, writeS_plain x h, fun r => getS_setS c d r _, hv, hm, setS_frame c d _⟩,
    fun n hd => ⟨_, produce_plain x n h hd, fun r => ?_, rfl, ?_⟩, fun n hd => ?_⟩
  · exact getS_setS_of_ne_zero c r .empty hd
  · unfold Core.setS; split <;> rfl
  · subst hd; exact produce_zero x n h

/-- A write to a v register. -/
theorem writeV_cases {d : BitVec 5} {c : Core} (x : Line) (h : c.stream? d.toNat = none) :
    ∃ c', writeV d x c = .ok c' ∧ (∀ r, c'.regs.getV r = if r = d then .full x else c.regs.getV r) ∧ c'.regs.s = c.regs.s ∧
      c'.regs.m = c.regs.m ∧ { c' with regs := c.regs } = c :=
  ⟨_, writeV_plain x h, fun r => getV_setV c d r _, rfl, rfl, rfl⟩

/-- Settles O53: each operand is read, freed and written as its cell says. -/
theorem operands : Obligations.Operands := by
  unfold Obligations.Operands
  refine ⟨fun c => ⟨getS_zero _, setS_zero c⟩, fun a c h => ?_, fun d x c h => ?_, fun a c h => ?_, fun d x c h => writeV_cases x h,
    fun a c => ⟨fun v e => readM_full e, getM_freeM a c⟩, fun d x c r => getM_setM c d r _⟩
  · obtain ⟨hfull, hvacant, hempty⟩ := readS_cases h
    obtain ⟨hv, hm⟩ := freeS_files a c
    exact ⟨hfull, hvacant, hempty, getS_freeS h, hv, hm, freeS_frame a c⟩
  · obtain ⟨hwrite, hlong, hzero⟩ := writeS_cases x h
    exact ⟨hwrite, destS_eq d c, hlong, hzero⟩
  · obtain ⟨hfull, hempty⟩ := readV_cases h
    exact ⟨hfull, hempty, getV_freeV h, (freeV_files a c).1⟩

end Sys2Proof.Machine
end

