-- ==== Sys2Proof/Proofs/RegisterFrame.lean ====
section
/-! O54 fails: VPACK is one of its instructions and updates AMX (spec/02 R45), which its frame keeps. -/

namespace Sys2Proof.Machine

open Safety

/-! ### What the frame says of AMX at a core that is stopped -/

/-- A precise trap of a stopped core outside a gang waits for its policy: the report stands, and the control words are as before. -/
theorem takeTrap_ctl_of_stopped {s : State} (r : Report) (hg : s.me.gang = none) (hs : s.me.stopped = true) :
    (s.takeTrap [(s.cur, r)]).me.ctl = s.me.ctl := by
  simp [State.takeTrap, State.raise, State.raiseAs, onCore, State.settle, State.gangOf, hg, State.core, State.anyHeld, Core.held?, hs]

/-- Within the frame of O54, such a core keeps its running maximum. -/
theorem framed_amx {s t : State} {n : Names} (hg : s.me.gang = none) (hs : s.me.stopped = true) (h : Framed s n (.next t)) :
    t.me.ctl.amx = s.me.ctl.amx := by
  rcases h with ⟨w, hw⟩ | ⟨k, w3, w6, w7, ht⟩ | ⟨c, hd, hframe, -⟩
  · obtain rfl := Host.Outcome.next.inj hw; rfl
  · obtain rfl := Host.Outcome.next.inj ht
    rw [takeTrap_ctl_of_stopped _ hg hs]
  · obtain rfl := Host.Outcome.next.inj hd
    have hamx := congrArg (fun c : Core => c.ctl.amx) hframe
    exact hamx

/-! ### The counterexample -/

/-- v0 holds the binary32 number 1.0 in lane 0 and zero elsewhere; AMX is zero. -/
def packCore : Core :=
  { Core.reset with stopped := true, regs := { Regs.reset with v := Regs.reset.v.set 0 (.full 0x3F800000) } }

/-- AMX after `vpack v1, v0` from f32 to e4m3, where the instruction completes. -/
def packAmx (s : State) : Option W64 :=
  match exec (.vpack 1 ⟨false, false, 0⟩ .f32 0 .rne true .e4m3) s with
  | .next t => some t.me.ctl.amx
  | _ => none

/-- Packing 1.0 raises AMX to 1.0 in binary64. -/
theorem packAmx_packCore : packAmx { State.reset with me := packCore } = some 0x3FF0000000000000 := by decide +kernel

/-- Refutes O54: VPACK of a register that holds 1.0 completes with AMX changed. -/
theorem not_registerFrame : ¬ Obligations.RegisterFrame := by
  unfold Obligations.RegisterFrame
  intro h
  have hf := h (.vpack 1 ⟨false, false, 0⟩ .f32 0 .rne true .e4m3) _ { State.reset with me := packCore } rfl rfl
  have ha := packAmx_packCore
  unfold packAmx at ha
  split at ha
  next t ht =>
    rw [ht] at hf
    have hkeep : t.me.ctl.amx = 0 := framed_amx rfl rfl hf
    rw [hkeep] at ha
    exact absurd ha (by decide)
  next => exact absurd ha (by simp)

end Sys2Proof.Machine
end

