-- ==== Sys2Proof/Proofs/CanonicalPackage.lean ====
section
/-! Canonical memories through the operations of the package: descriptors, physical memory, rings, notices and records (log 6). -/

namespace Sys2Proof.Machine

open Safety

/-! ### What an answer gives, if it gives one -/

/-- The value of an answer, if there is one, satisfies P. -/
def OkAll {ε α : Type} (P : α → Prop) : Except ε α → Prop
  | .ok x => P x
  | .error _ => True

def SomeAll {α : Type} (P : α → Prop) : Option α → Prop
  | some x => P x
  | none => True

/-- The next state, if the step has one, is canonical. -/
def NextCanonical : Out → Prop
  | .next t => Canonical t
  | _ => True

theorem OkAll.bind {ε α β : Type} {P : α → Prop} {Q : β → Prop} {x : Except ε α} {f : α → Except ε β} (hx : OkAll P x)
    (hf : ∀ a, P a → OkAll Q (f a)) : OkAll Q (x >>= f) := by
  cases x with
  | ok a => exact hf a hx
  | error e => trivial

/-- A test before the rest, or a value of which nothing is known. -/
theorem OkAll.seq {ε α β : Type} {Q : β → Prop} {x : Except ε α} {f : α → Except ε β} (hf : ∀ a, OkAll Q (f a)) : OkAll Q (x >>= f) := by
  cases x with
  | ok a => exact hf a
  | error e => trivial

theorem OkAll.ite {ε α : Type} {P : α → Prop} {b : Prop} [Decidable b] {x y : Except ε α} (hx : OkAll P x) (hy : OkAll P y) :
    OkAll P (if b then x else y) := by
  split
  · exact hx
  · exact hy

theorem OkAll.map {ε α β : Type} {P : α → Prop} {Q : β → Prop} {x : Except ε α} {f : α → β} (hx : OkAll P x) (hf : ∀ a, P a → Q (f a)) :
    OkAll Q (x.map f) := by
  cases x with
  | ok a => exact hf a hx
  | error e => trivial

theorem OkAll.of_eq {ε α : Type} {P : α → Prop} {x : Except ε α} {a : α} (hx : OkAll P x) (e : x = .ok a) : P a := by subst e; exact hx

theorem SomeAll.map {α β : Type} {P : α → Prop} {Q : β → Prop} {x : Option α} {f : α → β} (hx : SomeAll P x) (hf : ∀ a, P a → Q (f a)) :
    SomeAll Q (x.map f) := by
  cases x with
  | some a => exact hf a hx
  | none => trivial

theorem SomeAll.of_eq {α : Type} {P : α → Prop} {x : Option α} {a : α} (hx : SomeAll P x) (e : x = some a) : P a := by subst e; exact hx

theorem SomeAll.getD {α : Type} {P : α → Prop} {x : Option α} {a : α} (hx : SomeAll P x) (ha : P a) : P (x.getD a) := by
  cases x with
  | some b => exact hx
  | none => exact ha

theorem NextCanonical.of_eq {o : Out} {t : State} (h : NextCanonical o) (e : o = .next t) : Canonical t := by subst e; exact h

/-! ### Lists of cores -/

/-- Every core of the list is canonical. -/
def AllWf (l : List (Nat × Core)) : Prop := ∀ p ∈ l, p.2.memWf = true

theorem AllWf.map {l : List (Nat × Core)} {f : Nat × Core → Core} (h : AllWf l) (hf : ∀ p, p.2.memWf = true → (f p).memWf = true) :
    AllWf (l.map fun p => (p.1, f p)) := by
  intro p hp
  obtain ⟨q, hq, rfl⟩ := List.mem_map.1 hp
  exact hf q (h q hq)

theorem AllWf.filter {l : List (Nat × Core)} (p : Nat × Core → Bool) (h : AllWf l) : AllWf (l.filter p) :=
  fun q hq => h q (List.mem_of_mem_filter hq)

theorem AllWf.aset {l : List (Nat × Core)} (k : Nat) {c : Core} (h : AllWf l) (hc : c.memWf = true) : AllWf (aset l k c) := by
  intro p hp
  rcases mem_aset hp with rfl | hp
  · exact hc
  · exact h p hp

theorem AllWf.aget {l : List (Nat × Core)} (k : Nat) (h : AllWf l) : SomeAll (fun c => c.memWf = true) (aget l k) := by
  cases e : Machine.aget l k with
  | none => trivial
  | some c => exact h _ (aget_mem e)

/-! ### Folds -/

/-- What every step of a fold keeps, the fold keeps. -/
theorem foldl_keeps {α β : Type} (P : β → Prop) {f : β → α → β} (hf : ∀ b a, P b → P (f b a)) (l : List α) {b : β} (hb : P b) :
    P (l.foldl f b) := by
  induction l generalizing b with
  | nil => exact hb
  | cons a l ih => exact ih (hf b a hb)

/-! ### Descriptors, device memory and ports -/

variable {s t : State}

theorem setCtx_canonical (k : Nat) (x : Ctx) (h : Canonical s) : Canonical (s.setCtx k x) := h

theorem setPort_canonical (q : Nat) (p : Port) (h : Canonical s) : Canonical (s.setPort q p) := h

theorem setLease_canonical (r : Nat) (l : Lease) (h : Canonical s) : Canonical (s.setLease r l) := h

theorem interrupt_canonical (v : Nat) (h : Canonical s) : Canonical (s.interrupt v) := h

theorem mapLaunch_canonical (x l : BitVec 8) (f : Launch → Launch) (h : Canonical s) : Canonical (s.mapLaunch x l f) := h

theorem pick_canonical (h : Canonical s) : Canonical s.pick.2 := h

/-- What a decoder corrects is written back over the sector. -/
theorem decode1_canonical (tag : BitVec 4) (x : Nat) (h : Canonical s) : Canonical (s.decode1 tag x).1 := by
  obtain ⟨hme, ho, hi, hd, hh⟩ := h
  unfold State.decode1
  split
  · exact ⟨hme, ho, hi, hd, hh⟩
  · simp only
    split
    · exact ⟨hme, ho, hi, hd, hh⟩
    · split
      · exact ⟨hme, ho, hi, hd, hh⟩
      · split <;> exact ⟨hme, ho, hi, Mem.wf_put _ _ hd, hh⟩

theorem readLine_canonical (pa : Nat) (h : Canonical s) : Canonical (s.readLine pa) := by
  unfold State.readLine
  split
  · exact h
  · exact decode1_canonical _ _ h

theorem clearPoison_canonical (pa n : Nat) (h : Canonical s) : Canonical (s.clearPoison pa n) := by
  unfold State.clearPoison
  simp only
  split <;> exact h

/-! ### Energy and time -/

theorem charge_canonical (x k n : Nat) (h : Canonical s) : Canonical (s.charge x k n) := by
  unfold State.charge
  simp only
  split <;> exact h

theorem chargeHops_canonical (x : BitVec 8) (a b : Nat) (h : Canonical s) : Canonical (s.chargeHops x a b) :=
  charge_canonical _ _ _ (charge_canonical _ _ _ h)

theorem chargeClk_canonical (k n : Nat) (h : Canonical s) : Canonical (s.chargeClk k n) := by
  unfold State.chargeClk
  split
  · exact h
  · exact charge_canonical _ _ _ h

theorem caughtUp_canonical (h : Canonical s) : Canonical s.caughtUp := by
  unfold State.caughtUp
  simp only
  split
  · exact h
  · exact chargeClk_canonical _ _ h

/-! ### Rings, notices and records -/

theorem ringPut_canonical (pa size unit : Nat) (r : List W64) (h : Canonical s) : SomeAll Canonical (s.ringPut pa size unit r) := by
  have h := readLine_canonical pa h
  unfold State.ringPut
  simp only
  split
  · exact h
  · split
    · trivial
    · exact physPut_canonical _ _ (physPut_canonical _ _ h)

theorem setLost_canonical (pa : Nat) (h : Canonical s) : Canonical (s.setLost pa) := physPut_canonical _ _ h

theorem drop_canonical (pa : Nat) (h : Canonical s) : Canonical (s.drop pa) := by
  unfold State.drop
  simp only
  split
  · exact h
  · exact physPut_canonical _ _ h

theorem trapPut_canonical (n : Notice) (h : Canonical s) : SomeAll Canonical (s.trapPut n) := by
  unfold State.trapPut
  split
  · exact h
  · refine (ringPut_canonical _ _ _ _ h).map fun t ht => ?_
    split
    · exact ht
    · exact ht

theorem flushNotices_canonical (l : List Notice) (h : Canonical s) : Canonical (flushNotices l s).2 := by
  induction l generalizing s with
  | nil => exact h
  | cons n l ih =>
    unfold flushNotices
    split
    next t ht =>
      split at ht
      · cases ht
      · exact ih ((trapPut_canonical n h).of_eq ht)
    next => exact ih h

theorem flush_canonical (cl : Nat) (h : Canonical s) : Canonical (s.flush cl) := flushNotices_canonical _ h

theorem ringFull_canonical (x : BitVec 8) (h : Canonical s) : Canonical (s.ringFull x) := by
  unfold State.ringFull
  split
  · exact h
  · exact setLost_canonical _ h

theorem putNotice_canonical (cl : Nat) (n : Notice) (h : Canonical s) : Canonical (s.putNotice cl n) := by
  have h := flush_canonical cl h
  unfold State.putNotice
  extract_lets u n'
  have hu : Canonical u := h
  clear_value u n'
  split
  next t ht =>
    split at ht
    · cases ht
    · exact (trapPut_canonical _ hu).of_eq ht
  next _ v _ _ =>
    have hv : Canonical v := by
      unfold v
      split
      · exact hu
      · exact ringFull_canonical _ hu
    clear_value v
    split
    · exact hv
    · split
      · exact hv
      · exact drop_canonical _ hv

theorem notice_canonical (k : Nat) (x : BitVec 8) (l : Option (BitVec 8)) (cause : Nat) (tid w2 w3 w6 w7 : W64) (h : Canonical s) :
    Canonical (s.notice k x l cause tid w2 w3 w6 w7) := putNotice_canonical _ _ h

theorem tracePut_canonical (x : Nat) (r : List W64) (h : Canonical s) : SomeAll Canonical (s.tracePut x r) := by
  unfold State.tracePut
  simp only
  split
  · exact h
  · split
    · exact h
    · split
      · exact h
      · exact ringPut_canonical _ _ _ _ h

theorem flushTraces_canonical (l : List (BitVec 8 × List W64)) (h : Canonical s) : Canonical (flushTraces l s).2 := by
  induction l generalizing s with
  | nil => exact h
  | cons x l ih =>
    unfold flushTraces
    split
    next t ht => exact ih ((tracePut_canonical _ _ h).of_eq ht)
    next => exact h

theorem drainTraces_canonical (h : Canonical s) : Canonical s.drainTraces := by
  unfold State.drainTraces
  split
  · exact h
  · have hf := flushTraces_canonical s.me.traceOut h
    exact hf

theorem putTrace_canonical (l : List (BitVec 8 × List W64)) (h : Canonical s) : Canonical (s.putTrace l) :=
  drainTraces_canonical (setMe_canonical h h.1)

end Sys2Proof.Machine
end

