-- ==== Sys2Proof/Proofs/CanonicalSegments.lean ====
section
/-! Canonical memories through segments: logs, boundaries, rollbacks, drips and the records of a commit (spec/03). -/

namespace Sys2Proof.Machine

open Safety

variable {c : Core} {s t : State}

/-! ### The core -/

theorem ownStore_memWf (a : Nat) (bs : List Byte) (h : c.memWf = true) : OkAll (fun c => c.memWf = true) (c.ownStore a bs) := by
  refine .seq fun _ => ?_
  split
  · exact h
  · exact ownWrite_memWf _ _ h

theorem outStore_memWf (x : Home) (l : Line) (m : W64) (tag : BitVec 4) (a : W64) (h : c.memWf = true) :
    (c.outStore x l m tag a).memWf = true := by
  unfold Core.outStore
  split <;> exact h

theorem close_memWf (k : Boundary) (pc : W64) (x : AtCommit) (h : c.memWf = true) : (c.close k pc x).memWf = true := h

theorem setLast_memWf (k : Ckpt) (h : c.memWf = true) : (c.setLast k).memWf = true := by
  unfold Core.setLast
  split <;> exact h

theorem begun_memWf (h : c.memWf = true) : c.begun.memWf = true := setLast_memWf _ h

theorem cancelFrom_memWf (id : Nat) (h : c.memWf = true) : (c.cancelFrom id).memWf = true := h

theorem oweFrom_memWf (id : Nat) (h : c.memWf = true) : (c.oweFrom id).memWf = true := h

theorem redeliver_memWf (k : Ckpt) (h : c.memWf = true) : (c.redeliver k).memWf = true := by
  unfold Core.redeliver
  extract_lets _ c' _ _ _ mail _
  have h : c'.memWf = true := by
    unfold c'
    split <;> exact h
  have hmail : ∀ m, (mail m).memWf = true := fun m => claimBank_memWf k.act.ctx 15 h
  split
  · exact h
  · split
    · exact hmail _
    · exact hmail _
    · exact claimBank_memWf k.act.ctx 14 h
    · exact claimBank_memWf k.act.ctx 14 h
    · exact h

theorem mapLT_memWf (f : LocalTime → LocalTime) (h : c.memWf = true) : (c.mapLT f).memWf = true := h

theorem resumeFrame_memWf (f : W64 → W64) (b : Bool) (h : c.memWf = true) : (c.resumeFrame f b).memWf = true := by
  unfold Core.resumeFrame
  split <;> exact h

/-! ### Engine effects under a rollback -/

theorem cancelAway_canonical (id : Nat) (h : Canonical s) : Canonical (s.cancelAway id) := by
  unfold State.cancelAway
  extract_lets k seqs mine u
  have hu : Canonical u := by
    refine foldl_keeps Canonical (fun s p h => ?_) _ h
    exact foldl_keeps Canonical (fun s x h => physPut_canonical _ _ h) _ h
  clear_value u
  obtain ⟨hme, ho, hrest⟩ := hu
  exact unlock_canonical _ _ ⟨hme, AllWf.map ho fun p hp => undoAway_memWf _ _ hp, hrest⟩

theorem lockStream_canonical (x : Stream) (h : Canonical s) : Canonical (s.lockStream x) := by
  unfold State.lockStream
  extract_lets l
  split
  · split <;> exact h
  · exact h

/-! ### Packets -/

theorem sendFor_canonical (x : BitVec 8) (dst : Nat) (b : Body) (h : Canonical s) : Canonical (s.sendFor x dst b) := by
  have h := chargeHops_canonical x s.cur dst h
  unfold State.sendFor
  extract_lets key q u
  split <;> exact h

theorem send_canonical (dst : Nat) (b : Body) (h : Canonical s) : Canonical (s.send dst b) := sendFor_canonical _ _ _ h

theorem sendAborts_canonical (d : SegData) (h : Canonical s) : Canonical (s.sendAborts d) :=
  foldl_keeps Canonical (fun _ _ h => send_canonical _ _ h) _ h

/-! ### Rollback -/

theorem dropGangWait_canonical (h : Canonical s) : Canonical s.dropGangWait := by
  unfold State.dropGangWait
  extract_lets k free
  have hfree : ∀ c : Core, c.memWf = true → (free c).memWf = true := by
    intro c hc
    unfold free
    split <;> exact hc
  split
  · exact h
  · exact ⟨hfree _ h.1, AllWf.map h.2.1 fun p hp => hfree _ hp, h.2.2⟩

theorem foldr_redeliver_memWf (l : List Ckpt) (h : c.memWf = true) : (l.foldr (fun k c => c.redeliver k) c).memWf = true := by
  induction l with
  | nil => exact h
  | cons k l ih => exact redeliver_memWf k ih

theorem rollBack_canonical (i : Nat) (keep : Bool) (h : Canonical s) : Canonical (s.rollBack i keep) := by
  unfold State.rollBack
  extract_lets c segs id k later bud s1 s2 c1 c2 c3 again k' c4 c5 frame _ c6
  have hs1 : Canonical s1 := foldl_keeps Canonical (fun _ g h => sendAborts_canonical g.d h) _ h
  have hs2 : Canonical s2 := cancelAway_canonical _ hs1
  have hc1 : c1.memWf = true := oweFrom_memWf _ (cancelFrom_memWf _ (undoFrom_memWf _ _ hs2.1))
  have hc2 : c2.memWf = true := memWf_congr hc1 rfl rfl rfl
  have hc3 : c3.memWf = true := foldr_redeliver_memWf _ hc2
  have hc4 : c4.memWf = true := by
    unfold c4
    split
    · exact redeliver_memWf _ hc3
    · exact hc3
  have hc5 : c5.memWf = true := by
    unfold c5
    split
    · exact setLast_memWf _ hc4
    · exact hc4
  have hc6 : c6.memWf = true := memWf_congr hc5 rfl rfl rfl
  exact relockStreams_canonical (dropGangWait_canonical (setMe_canonical hs2 hc6))

theorem rollOpen_canonical (keep : Bool) (h : Canonical s) : Canonical (s.rollOpen keep) := rollBack_canonical _ _ h

theorem rollGang_canonical (n : Nat) (keep : Bool) (h : Canonical s) : Canonical (s.rollGang n keep) :=
  rollBack_canonical _ _ (onCores_canonical _ (fun _ h => rollBack_canonical _ _ h) h)

/-! ### Drips and the records of a commit -/

theorem sendDrip_canonical (peer : Nat) (look : BitVec 48) (v : W64) (h : Canonical s) : Canonical (s.sendDrip peer look v) := by
  unfold State.sendDrip
  split
  · exact h
  · exact send_canonical _ _ h

theorem dripOn_canonical (decl : Nat) (v : W64) (h : Canonical s) : Canonical (s.dripOn decl v) := by
  unfold State.dripOn
  split
  · exact h
  · split
    · exact h
    · exact sendDrip_canonical _ _ _ (setMe_canonical h (mapLT_memWf _ h.1))

theorem evalDrips_canonical (l : List (Nat × OutSlot)) (h : Canonical s) : Canonical (s.evalDrips l) :=
  foldl_keeps Canonical (fun _ _ h => dripOn_canonical _ _ h) _ h

theorem dripAll_canonical (h : Canonical s) : Canonical s.dripAll := evalDrips_canonical _ h

theorem raiseA_canonical (t : W64) (h : Canonical s) : Canonical (s.raiseA t) := by
  unfold State.raiseA
  extract_lets now
  split
  · exact h
  · exact dripAll_canonical (setMe_canonical h (mapLT_memWf _ h.1))

theorem sendDrips_canonical (d : SegData) (h : Canonical s) : Canonical (s.sendDrips d) := by
  unfold State.sendDrips
  extract_lets s1 due s2
  have h1 : Canonical s1 := by
    refine foldl_keeps Canonical (fun s i h => ?_) _ h
    split
    · exact dripOn_canonical _ _ h
    · exact h
  have h2 : Canonical s2 := evalDrips_canonical _ h1
  exact setMe_canonical h2 (memWf_foldl _ (fun _ _ h => mapLT_memWf _ h) _ h2.1)

theorem schedRecord_canonical (a : Act) (h : Canonical s) : Canonical (s.schedRecord a) := by
  unfold State.schedRecord
  split
  · exact putTrace_canonical _ h
  · exact h

theorem retire_canonical (l : List Act) (h : Canonical s) : Canonical (s.retire l) :=
  foldl_keeps Canonical (fun _ a h => schedRecord_canonical a h) _ h

theorem putTraces_canonical (d : SegData) (h : Canonical s) : Canonical (s.putTraces d) := putTrace_canonical _ h

end Sys2Proof.Machine
end

