-- ==== Sys2Proof/Proofs/CanonicalOps.lean ====
section
/-! Canonical memories through ends of activations, kills, exceptions and reads of sectors (spec/11, spec/17 R354, R355). -/

namespace Sys2Proof.Machine

open Safety

variable {c : Core} {s t : State}

/-! ### Registers and code addresses -/

theorem setS_memWf (d : BitVec 6) (x : Cell 64) (h : c.memWf = true) : (c.setS d x).memWf = true := by
  unfold Core.setS
  split <;> exact h

theorem setM_memWf (d : BitVec 3) (x : Cell 64) (h : c.memWf = true) : (c.setM d x).memWf = true := h

theorem retireCore_memWf (h : c.memWf = true) : c.retire.memWf = true := h

theorem goto_memWf (a : W64) (h : c.memWf = true) : OkAll (fun c => c.memWf = true) (c.goto a) := by
  unfold Core.goto
  split
  · exact h
  · trivial

/-! ### The end of an activation -/

theorem retireLater_canonical (l : List Act) (h : Canonical s) : Canonical (s.retireLater l) := by
  unfold State.retireLater
  split
  · exact retire_canonical _ h
  · exact h

theorem unbindAll_canonical (h : Canonical s) : Canonical s.unbindAll := relockStreams_canonical (setMe_canonical h h.1)

theorem endIdle_canonical (h : Canonical s) : Canonical s.endIdle := by
  have h := unbindAll_canonical h
  exact setMe_canonical h (setLast_memWf (c := s.unbindAll.me.idle) _ h.1)

/-! ### Kills -/

theorem doneBlock_canonical (x : Nat) (w : W64) (w0 w1 w2 w3 : Nat) (h : Canonical s) : Canonical (s.doneBlock x w w0 w1 w2 w3) := by
  unfold State.doneBlock
  split
  · exact h
  · exact physPut_canonical _ _ (physPut_canonical _ _ h)

theorem endKilled_canonical (l : Launch) (h : Canonical s) : Canonical (s.endKilled l) := doneBlock_canonical _ _ _ _ _ _ h

theorem wipe_memWf (h : c.memWf = true) : c.wipe.memWf = true := by
  unfold Core.wipe
  extract_lets c'
  exact setLast_memWf _ h

theorem killSlots_canonical (x : Nat) (h : Canonical s) : Canonical (s.killSlots x) := by
  refine foldl_keeps Canonical (fun s x h => ?_) _ h
  split <;> exact h

theorem collLost_canonical (l : List EngOp) (h : Canonical s) : Canonical (s.collLost l) := by
  refine foldl_keeps Canonical (fun s o h => ?_) _ h
  split
  · simp only
    split
    · exact h
    · refine foldl_keeps Canonical (fun s x h => ?_) _ h
      split
      · exact h
      · split <;> exact sendFor_canonical _ _ _ h
  · exact h

theorem killContext_canonical (x : Nat) (h : Canonical s) : Canonical (s.killContext x) := by
  unfold State.killContext
  extract_lets ctx mine s1 s2 s3 s4
  have h1 : Canonical s1 := onCores_canonical _ (fun s h =>
    have h := collLost_canonical (s.rollBack 0 true).me.ops (rollBack_canonical 0 true h)
    setMe_canonical h (wipe_memWf h.1)) h
  have h2 : Canonical s2 := foldl_keeps Canonical (fun _ _ h => onCore_canonical _ (fun _ h => collLost_canonical _ h) h) _ h1
  have h3 : Canonical s3 := foldl_keeps Canonical (fun _ l h => endKilled_canonical l h) _ h2
  have h4 : Canonical s4 := by
    refine ⟨h3.1, h3.2.1, fun p hp => ?_, h3.2.2.2⟩
    obtain ⟨q, hq, rfl⟩ := List.mem_map.1 hp
    split
    · exact wipe_memWf (h3.2.2.1 q hq)
    · exact h3.2.2.1 q hq
  exact setCtx_canonical _ _ (killSlots_canonical x h4)

theorem killFor_canonical (k : Nat) (x : BitVec 8) (a kind : W64) (h : Canonical s) : Canonical (s.killFor k x a kind) :=
  killContext_canonical _ (notice_canonical _ _ _ _ _ _ _ _ _ h)

/-! ### Taking an exception -/

theorem putRecord_canonical (r : Report) (h : Canonical s) : SomeAll Canonical (s.putRecord r) := trapPut_canonical _ (flush_canonical _ h)

theorem putRecords_canonical (ks : List Nat) (h : Canonical s) : SomeAll Canonical (s.putRecords ks) := by
  induction ks generalizing s with
  | nil => exact h
  | cons k ks ih =>
    unfold State.putRecords
    split
    · exact ih h
    · split
      · trivial
      next t ht => exact ih (focus_canonical _ ((putRecord_canonical _ (focus_canonical k h)).of_eq ht))

theorem waiting_canonical (w : Wait) (h : Canonical s) : Canonical (s.waiting w) := h

theorem reportWait_canonical (ms : List Nat) (w : Wait) (h : Canonical s) : Canonical (s.reportWait ms w) :=
  onCores_canonical _ (fun _ h => waiting_canonical w h) h

theorem enterHandler_canonical (r : List W64) (x : Nat) (a b : Bool) (h : Canonical s) : Canonical (s.enterHandler r x a b) := by
  unfold State.enterHandler
  extract_lets c f e c'
  have hc : c.memWf = true := close_memWf _ _ _ h.1
  exact setMe_canonical h (begun_memWf hc)

theorem endFollower_canonical (h : Canonical s) : Canonical s.endFollower := endIdle_canonical (setMe_canonical h h.1)

theorem killAct_canonical (h : Canonical s) : Canonical s.killAct := by
  have h := retireLater_canonical (s.rollOpen true).me.messages (rollOpen_canonical true h)
  exact endIdle_canonical (setMe_canonical h h.1)

theorem linkMates_canonical (ms : List Nat) (h : Canonical s) : Canonical (s.linkMates ms) := by
  refine onCores_canonical _ (fun s h => ?_) h
  split
  · exact h
  · exact setMe_canonical h h.1

theorem raiseAs_canonical (k : Nat) (r : Report) (x : Option Raised) (h : Canonical s) : Canonical (s.raiseAs k r x) :=
  onCore_canonical _ (fun _ h => setMe_canonical h h.1) h

theorem raise_canonical (k : Nat) (r : Report) (h : Canonical s) : Canonical (s.raise k r) := raiseAs_canonical _ _ _ h

theorem settle_canonical (h : Canonical s) : Canonical s.settle := by
  unfold State.settle
  extract_lets ms lead
  split
  · exact h
  next m _ =>
    extract_lets c r lost e thix want handles
    split
    · exact h
    · split
      · exact reportWait_canonical _ _ h
      · split
        · exact reportWait_canonical _ _ (ringFull_canonical _ h)
        next u hu =>
          have hu := (putRecords_canonical ms h).of_eq hu
          split
          · exact killFor_canonical _ _ _ _ hu
          · split
            · have hv := onCore_canonical lead
                (fun _ h => enterHandler_canonical ((s.focus m).standing r) thix (r.point != 0) (r.cause == 0x401) h)
                (onCores_canonical (ms.filter (· != lead)) (fun _ h => endFollower_canonical h) hu)
              split
              · exact hv
              · exact linkMates_canonical _ hv
            · refine onCores_canonical _ (fun _ h => killAct_canonical h) ?_
              split
              · exact notice_canonical _ _ _ _ _ _ _ _ _ hu
              · exact hu

theorem takeTrap_canonical (rs : List (Nat × Report)) (h : Canonical s) : Canonical (s.takeTrap rs) :=
  settle_canonical (foldl_keeps Canonical (fun _ _ h => raise_canonical _ _ h) _ h)

theorem takeBackAs_canonical (n : Nat) (r : Report) (b : Bool) (h : Canonical s) : Canonical (s.takeBackAs n r b) :=
  settle_canonical (raiseAs_canonical _ _ _ (rollGang_canonical _ _ h))

theorem takeBack_canonical (n : Nat) (r : Report) (h : Canonical s) : Canonical (s.takeBack n r) := takeBackAs_canonical _ _ _ h

theorem returnFrame_canonical (b : Bool) (h : Canonical s) : Canonical (s.returnFrame b) := by
  unfold State.returnFrame
  split
  · exact h
  · extract_lets _ _ f _ u
    have hu : Canonical u := setMe_canonical h h.1
    split
    · exact setMe_canonical hu hu.1
    · exact relockStreams_canonical (setMe_canonical hu (resumeFrame_memWf _ _ hu.1))

/-! ### Sector reads -/

theorem killOwner_canonical (k : Nat) (x : BitVec 8) (a kind : W64) (h : Canonical s) : Canonical (s.killOwner k x a kind) := by
  unfold State.killOwner
  split
  · exact h
  · exact killFor_canonical _ _ _ _ h

theorem decodeSector_canonical (tag : BitVec 4) (x : Nat) (h : Canonical s) : Canonical (s.decodeSector tag x) := by
  have h := decode1_canonical tag x h
  unfold State.decodeSector
  extract_lets r
  split
  · cases r.1.sectorOwner (64 * x) with
    | none => exact h
    | some k => exact killOwner_canonical _ _ _ _ h
  · exact h

theorem readSectors_canonical (pa n : Nat) (tag : Option (BitVec 4)) (h : Canonical s) : Canonical (s.readSectors pa n tag) := by
  unfold State.readSectors
  split
  · exact h
  · exact foldl_keeps Canonical (fun _ _ h => decodeSector_canonical _ _ h) _ h

theorem consume_canonical (x pa n : Nat) (h : Canonical s) : Canonical (s.consume x pa n) := by
  have h := readSectors_canonical pa n none h
  unfold State.consume
  extract_lets t
  split
  · exact killOwner_canonical _ _ _ _ h
  · exact h

theorem readHandle_canonical (x : Nat) (w : W64) (pa n : Nat) (h : Canonical s) : Canonical (s.readHandle x w pa n) :=
  readSectors_canonical _ _ _ (consume_canonical _ _ _ h)

theorem readHome_canonical (x : Home) (n : Nat) (tag : BitVec 4) (h : Canonical s) : Canonical (s.readHome x n tag) := by
  unfold State.readHome
  split
  · exact readSectors_canonical _ _ _ h
  · exact h

/-! ### Translation tables -/

theorem fillOwn_canonical (va : W64) (page : Nat) (w : Bool) (h : Canonical s) : Canonical (s.fillOwn va page w) := setMe_canonical h h.1

theorem fillShared_canonical (va : W64) (page : Nat) (w : Bool) (h : Canonical s) : Canonical (s.fillShared va page w) := h

theorem walkFill_canonical (va : W64) (h : Canonical s) : Canonical (s.walkFill va) := by
  unfold State.walkFill
  extract_lets ctx
  split
  · exact h
  next _ _ u _ _ _ =>
    have hu : Canonical u := charge_canonical _ _ _ (foldl_keeps Canonical (fun _ _ h => readSectors_canonical _ _ _ h) _ h)
    exact fillShared_canonical _ _ _ (fillOwn_canonical _ _ _ hu)

theorem fillFor_canonical (e : W64) (h : Canonical s) : Canonical (s.fillFor e) := by
  unfold State.fillFor
  split
  · split
    · exact h
    · split
      · exact fillOwn_canonical _ _ _ h
      · exact walkFill_canonical _ h
  · exact h

theorem filled_canonical (es : List W64) (h : Canonical s) : Canonical (s.filled es) :=
  foldl_keeps Canonical (fun _ e h => fillFor_canonical e h) _ h

/-! ### Ending an instruction -/

theorem uncorrectable_canonical (a kind : W64) (b : Bool) (h : Canonical s) : Canonical (s.uncorrectable a kind b) := takeBackAs_canonical _ _ _ h

theorem implicitPhase_canonical (h : Canonical s) : Canonical s.implicitPhase := by
  unfold State.implicitPhase
  split
  · exact setMe_canonical h (close_memWf (c := s.me) .autoCommit s.me.pc .nothing h.1)
  · exact waiting_canonical _ h
  · exact h

/-- However an instruction ends, it ends in a canonical state where its result is one. -/
theorem finish_canonical {r : Res State} (h : Canonical s) (hr : OkAll Canonical r) : NextCanonical (finish s r) := by
  unfold finish
  split
  · exact hr
  · exact takeTrap_canonical _ h
  · exact waiting_canonical _ h
  · exact implicitPhase_canonical h
  · exact uncorrectable_canonical _ _ _ h

theorem coreOp_canonical {f : Core → Res Core} (h : Canonical s) (hf : OkAll (fun c => c.memWf = true) (f s.me)) :
    NextCanonical (coreOp s f) :=
  finish_canonical h (hf.map fun _ hc => setMe_canonical h (retireCore_memWf hc))

end Sys2Proof.Machine
end

