-- ==== Sys2Proof/Proofs/CanonicalOperands.lean ====
section
/-! Canonical memories through operands, structure banks, control flow and strong accesses (spec/01 R13, spec/05, spec/07). -/

namespace Sys2Proof.Machine

open Safety

variable {c : Core} {s t : State}

/-- The core that an operation of a core answers is canonical. -/
abbrev KeepsMem (x : Res Core) : Prop := OkAll (fun c => c.memWf = true) x

/-- The same beside a value that it has read. -/
abbrev ReadsMem {α : Type} (x : Res (α × Core)) : Prop := OkAll (fun r => r.2.memWf = true) x

/-! ### Reads, last uses and writes -/

theorem raiseFlags_memWf (f : Fl) (l : W64) (h : c.memWf = true) : KeepsMem (c.raiseFlags f l) := by
  unfold Core.raiseFlags
  split
  · exact h
  · trivial

theorem popStream_memWf (x : Stream) (b : Bool) (f : W64) (r : Nat) (h : c.memWf = true) : ReadsMem (popStream c x b f r) := by
  unfold popStream
  split
  · trivial
  · split
    · trivial
    · split
      · split <;> trivial
      · exact h

theorem pushStream_memWf (x : Stream) (l : Line) (h : c.memWf = true) : KeepsMem (pushStream c x l) := by
  unfold pushStream
  split
  · trivial
  · split
    · trivial
    · refine .seq fun _ => .seq fun _ => ?_
      split
      · exact .seq fun _ => memWf_foldl (fun c (e : Nat × List Byte) => c.ownWrite e.1 e.2) (fun _ _ h => ownWrite_memWf _ _ h) _ h
      · exact .seq fun _ => memWf_foldl _ (fun _ _ h => outStore_memWf _ _ _ _ _ h) _ h

theorem readCell_memWf {n : Nat} (x : Cell n) (b : Bool) (r : Nat) (f : W64) (h : c.memWf = true) : ReadsMem (readCell x b r f c) := by
  cases x with
  | full v => exact h
  | vacant =>
    simp only [readCell]
    split
    · trivial
    · exact h
  | empty =>
    simp only [readCell]
    split <;> trivial

theorem readS_memWf (a : Src) (h : c.memWf = true) : ReadsMem (readS a c) := by
  unfold readS
  split
  · exact (popStream_memWf _ _ _ _ h).map fun _ hr => hr
  · exact readCell_memWf _ _ _ _ h

theorem readV_memWf (a : VSrc) (h : c.memWf = true) : ReadsMem (readV a c) := by
  unfold readV
  split
  · exact popStream_memWf _ _ _ _ h
  · exact readCell_memWf _ _ _ _ h

theorem readM_memWf (a : MSrc) (h : c.memWf = true) : ReadsMem (readM a c) := readCell_memWf _ _ _ _ h

theorem freeS_memWf (a : Src) (h : c.memWf = true) : (freeS a c).memWf = true := by
  unfold freeS
  split
  · exact setS_memWf _ _ h
  · exact h

theorem freeV_memWf (a : VSrc) (h : c.memWf = true) : (freeV a c).memWf = true := by
  unfold freeV
  split <;> exact h

theorem freeM_memWf (a : MSrc) (h : c.memWf = true) : (freeM a c).memWf = true := by
  unfold freeM
  split <;> exact h

theorem writeS_memWf (d : BitVec 6) (x : W64) (h : c.memWf = true) : KeepsMem (writeS d x c) := by
  unfold writeS
  split
  · exact pushStream_memWf _ _ h
  · exact setS_memWf _ _ h

theorem writeV_memWf (d : BitVec 5) (x : Line) (h : c.memWf = true) : KeepsMem (writeV d x c) := by
  unfold writeV
  split
  · exact pushStream_memWf _ _ h
  · exact h

theorem deliver_memWf (d : BitVec 6) (x : W64) (h : c.memWf = true) : (c.deliver d x).memWf = true := by
  unfold Core.deliver
  split
  next hc => exact (writeS_memWf d x h).of_eq hc
  next => exact h

theorem produce_memWf (d : BitVec 6) (x : W64) (n : Nat) (h : c.memWf = true) : KeepsMem (produce d x n c) := by
  unfold produce
  split
  · exact pushStream_memWf _ _ h
  · split
    · exact h
    · exact setS_memWf d .empty h

theorem markEmpty_memWf (d : BitVec 6) (h : c.memWf = true) : (c.markEmpty d).memWf = true := by
  unfold Core.markEmpty
  split
  · exact h
  · exact setS_memWf _ _ h

/-! ### Shapes of scalar instructions -/

theorem op0_memWf (d : BitVec 6) (x : W64) (h : c.memWf = true) : KeepsMem (op0 d x c) := .seq fun _ => writeS_memWf _ _ h

theorem op1_memWf (d : BitVec 6) (a : Src) (f : W64 → W64) (h : c.memWf = true) : KeepsMem (op1 d a f c) :=
  .seq fun _ => .bind (readS_memWf a h) fun ⟨_, _⟩ h => writeS_memWf _ _ (freeS_memWf _ h)

theorem op2_memWf (d : BitVec 6) (a b : Src) (f : W64 → W64 → W64) (h : c.memWf = true) : KeepsMem (op2 d a b f c) :=
  .seq fun _ => .bind (readS_memWf a h) fun ⟨_, _⟩ h => .bind (readS_memWf b h) fun ⟨_, _⟩ h =>
    writeS_memWf _ _ (freeS_memWf _ (freeS_memWf _ h))

theorem op3_memWf (d : BitVec 6) (a b e : Src) (f : W64 → W64 → W64 → W64) (h : c.memWf = true) : KeepsMem (op3 d a b e f c) :=
  .seq fun _ => .bind (readS_memWf a h) fun ⟨_, _⟩ h => .bind (readS_memWf b h) fun ⟨_, _⟩ h => .bind (readS_memWf e h) fun ⟨_, _⟩ h =>
    writeS_memWf _ _ (freeS_memWf _ (freeS_memWf _ (freeS_memWf _ h)))

/-! ### Structure banks keep their items apart from local memory -/

theorem qEnqueue_memWf (b : Nat) (x : W64) (h : c.memWf = true) : (qEnqueue c b x).1.memWf = true := by
  unfold qEnqueue
  simp only
  repeat' split
  all_goals exact h

theorem qRefill_memWf (b : Nat) (h : c.memWf = true) : (qRefill c b).memWf = true := by
  unfold qRefill
  simp only
  repeat' split
  all_goals exact h

theorem qDequeue_memWf (b : Nat) (h : c.memWf = true) : (qDequeue c b).1.memWf = true := by
  unfold qDequeue
  simp only
  split
  · exact qRefill_memWf b (c := c.setBank _ _) h
  · exact h

theorem logBank_memWf (b : Nat) (old : Core) (h : c.memWf = true) : (c.logBank b old).memWf = true := by
  unfold Core.logBank
  split <;> exact h

theorem revocable_memWf (old : Core) (bs ls : List Nat) (h : c.memWf = true) : KeepsMem (revocable old c bs ls) := by
  refine .seq fun _ => ?_
  exact memWf_foldl (fun (c : Core) b => (c.logBank b old).holdBank b) (fun c b h => logBank_memWf b old h) bs
    (c := { c with seg := old.seg, nord := old.nord }) h

/-- The bank after a window operation, if the window takes it. -/
def WinWf : WinRes → Prop
  | .bad => True
  | .ok c _ _ _ => c.memWf = true

theorem winLoad_memWf (b off : Nat) (h : c.memWf = true) : WinWf (winLoad c b off) := by
  have hq := qDequeue_memWf b h
  unfold winLoad
  simp only
  split
  · trivial
  · trivial
  · split
    · exact h
    · split
      · exact h
      · trivial
  · split
    · exact h
    · split
      · exact h
      · split
        · split
          · split
            next e => rw [e] at hq; exact hq
            next e => rw [e] at hq; exact hq
          · split
            · split <;> exact h
            · trivial
        · split
          · split
            · split <;> exact h
            · exact h
          · trivial
        · split
          · split
            · split <;> exact h
            · exact h
          · trivial
        · trivial

theorem winStore_memWf (b off : Nat) (x x1 : W64) (h : c.memWf = true) : WinWf (winStore c b off x x1) := by
  unfold winStore
  simp only
  split
  · trivial
  · split
    · exact qEnqueue_memWf b x h
    · split <;> exact h
    · exact h
    · split <;> exact h
    · exact h
    · trivial

theorem winXch_memWf (b : Nat) (op : XchOp) (x x1 : W64) (h : c.memWf = true) : WinWf (winXch c b op x x1) := by
  unfold winXch
  simp only
  split
  · split <;> exact h
  · split <;> exact h
  · split <;> exact h
  · split <;> exact h
  · split
    · exact h
    · split
      · exact h
      · split <;> exact h
  · trivial

theorem winOp_memWf (b off : Nat) (op : WordOp) (o : Bool) (h : c.memWf = true) : WinWf (winOp c b off op o) := by
  unfold winOp
  simp only
  split
  · split
    · trivial
    · exact winLoad_memWf _ _ h
  · split
    · trivial
    · exact winStore_memWf _ _ _ _ h
  · split
    · trivial
    · exact winXch_memWf _ _ _ _ h
  · trivial

theorem claimPool_memWf (x : BitVec 8) (b : Nat) (h : c.memWf = true) : (c.claimPool x b).memWf = true := by
  unfold Core.claimPool
  simp only
  split
  · split
    · exact claimBank_memWf _ _ h
    · exact h
  · exact h

end Sys2Proof.Machine
end

