-- ==== Sys2Proof/Proofs/CanonicalControl.lean ====
section
/-! Canonical memories through control flow, boundaries and strong accesses (spec/05 R110 to R117, spec/07 R181 to R190). -/

namespace Sys2Proof.Machine

open Safety

variable {c : Core} {s t : State}

/-! ### Control flow -/

theorem flowOp_canonical {f : Core → Res Core} (h : Canonical s) (hf : KeepsMem (f s.me)) : NextCanonical (flowOp s f) :=
  finish_canonical h (hf.map fun _ hc => setMe_canonical h hc)

theorem branch_memWf (b : Bool) (t : W64) (h : c.memWf = true) : KeepsMem (branch b t c) := by
  unfold branch
  split
  · exact goto_memWf _ h
  · exact h

theorem jumpReg_memWf (a : Src) (h : c.memWf = true) : KeepsMem (jumpReg a c) :=
  .bind (readS_memWf a h) fun ⟨_, _⟩ h => goto_memWf _ (freeS_memWf _ h)

theorem linkTo_memWf (t : W64) (h : c.memWf = true) : KeepsMem (linkTo t c) :=
  .seq fun _ => .bind (writeS_memWf _ _ h) fun _ h => h

theorem execCall_canonical (x : BitVec 14) (h : Canonical s) : NextCanonical (execCall x s) :=
  flowOp_canonical h (.seq fun _ => linkTo_memWf _ h.1)

theorem execCallr_canonical (a : Src) (h : Canonical s) : NextCanonical (execCallr a s) :=
  flowOp_canonical h (.seq fun _ => .bind (readS_memWf a h.1) fun ⟨_, _⟩ h => linkTo_memWf _ (freeS_memWf _ h))

theorem execBr_canonical (cc : Cond) (a b : Src) (x : BitVec 14) (h : Canonical s) : NextCanonical (execBr cc a b x s) :=
  flowOp_canonical h (.bind (readS_memWf a h.1) fun ⟨_, _⟩ h => .bind (readS_memWf b h) fun ⟨_, _⟩ h =>
    branch_memWf _ _ (freeS_memWf _ (freeS_memWf _ h)))

theorem execBri_canonical (cc : Cond) (a : Src) (k : BitVec 8) (x : BitVec 14) (h : Canonical s) : NextCanonical (execBri cc a k x s) :=
  flowOp_canonical h (.bind (readS_memWf a h.1) fun ⟨_, _⟩ h => branch_memWf _ _ (freeS_memWf _ h))

theorem execLoop_canonical (d : BitVec 6) (a : Src) (x : BitVec 14) (h : Canonical s) : NextCanonical (execLoop d a x s) :=
  flowOp_canonical h (.seq fun _ => .bind (readS_memWf a h.1) fun ⟨_, _⟩ h => .bind (writeS_memWf _ _ (freeS_memWf _ h)) fun _ h =>
    branch_memWf _ _ h)

/-! ### Boundaries -/

theorem execPhase_canonical (h : Canonical s) : NextCanonical (execPhase s) :=
  finish_canonical h (.seq fun _ => setMe_canonical h (close_memWf (c := s.me.retire) .phase s.me.pc .nothing h.1))

theorem endBy_canonical (k : Boundary) (h : Canonical s) : Canonical (s.endBy k) := endIdle_canonical (setMe_canonical h h.1)

theorem execEndAct_canonical (h : Canonical s) : NextCanonical (execEndAct s) := by
  refine finish_canonical h (.seq fun _ => .seq fun _ => ?_)
  have he := endBy_canonical .endAct (onCores_canonical (s.gangOf.filter (· != s.cur)) (fun _ h => endBy_canonical .endAct h) h)
  show Canonical (if _ then _ else _)
  split
  · exact he
  · exact linkMates_canonical _ he

theorem execYield_canonical (h : Canonical s) : NextCanonical (execYield s) :=
  finish_canonical h (.seq fun _ => .seq fun _ => .seq fun _ => endBy_canonical .yield (setMe_canonical h h.1))

theorem outAdd_memWf (e : OutEntry) (h : c.memWf = true) : (c.outAdd e).memWf = true := h

theorem execMigr_canonical (a : Src) (h : Canonical s) : NextCanonical (execMigr a s) := by
  refine finish_canonical h (.seq fun _ => .seq fun ⟨x, c1⟩ => .seq fun _ => .seq fun _ => ?_)
  extract_lets first closed c2 r c3
  have hc2 : c2.memWf = true := by
    unfold c2
    split <;> exact h.1
  split
  · exact setMe_canonical h h.1
  · exact .seq fun _ => endBy_canonical .migr (setMe_canonical h (outAdd_memWf (.migr r _ _) hc2))

theorem execTrapReg_canonical (k : BitVec 6) (a : Src) (h : Canonical s) : NextCanonical (execTrapReg k a s) :=
  finish_canonical h (.seq fun ⟨_, _⟩ => trivial)

/-! ### Strong accesses -/

theorem ownWord_memWf (e : W64) (off : Nat) (op : WordOp) (h : c.memWf = true) :
    OkAll (fun r : Core × W64 => r.1.memWf = true) (ownWord e off op c) := by
  refine .seq fun _ => .seq fun _ => ?_
  have hc := claimAll_memWf c.act.ctx off op.size h
  split
  · trivial
  · trivial
  next new v f _ =>
    refine .seq fun _ => ?_
    cases new with
    | none => exact memWf_foldl Core.logLine (fun _ n h => logLine_memWf n h) _ hc
    | some x => exact ownWrite_memWf off (bytesOf x op.size) hc

theorem ownWin_memWf (e : W64) (b off : Nat) (op : WordOp) (o : Bool) (h : c.memWf = true) :
    OkAll (fun r : Core × W64 × Option W64 => r.1.memWf = true) (ownWin e b off op o c) := by
  unfold ownWin
  extract_lets c'
  have hw := winOp_memWf b off op o (claimPool_memWf c.act.ctx b (claimBank_memWf c.act.ctx b h))
  split
  · trivial
  next c2 v v1 sts hc =>
    have hc2 : c2.memWf = true := by rw [hc] at hw; exact hw
    exact .seq fun _ => .bind (revocable_memWf _ _ _ hc2) fun _ h => h

end Sys2Proof.Machine
end

