-- ==== Sys2Proof/Proofs/CanonicalStrong.lean ====
section
/-! Canonical memories through strong accesses at their issue (spec/07 R181 to R190). -/

namespace Sys2Proof.Machine

open Safety

variable {c : Core} {s t : State}

theorem ask_canonical (d : BitVec 6) (x : Home) (r : Req) (h : Canonical s) (hc : c.memWf = true) : Canonical (s.ask c d x r) := by
  unfold State.ask
  extract_lets id _ s1 s2
  have h1 : Canonical s1 := setMe_canonical h (markEmpty_memWf d hc)
  have h2 : Canonical s2 := by
    unfold s2
    split
    · exact fillFor_canonical _ h1
    · exact h1
  exact send_canonical _ _ h2

theorem irrevocable_canonical (d : BitVec 6) (go : Res (Home × Req)) (h : Canonical s) (hc : c.memWf = true) :
    OkAll Canonical (irrevocable s d c go) := by
  unfold irrevocable
  split
  · exact .seq fun _ => setMe_canonical h h.1
  · exact .seq fun _ => .seq fun ⟨_, _⟩ => .seq fun _ => .seq fun _ => ask_canonical _ _ _ h hc

theorem strong_canonical {cls : SClass} {d : BitVec 6} {a : Src} {n : Nat} {sc : Scope} {pre : Core → Res Unit}
    {build : Place → Core → Res (WordOp × Core)} (hb : ∀ p c, c.memWf = true → ReadsMem (build p c)) (h : Canonical s) :
    NextCanonical (strong cls d a n sc pre build s) := by
  unfold strong
  split
  · exact h
  · refine finish_canonical h (.seq fun _ => .seq fun _ => .bind (readS_memWf a h.1) fun ⟨e, c1⟩ h1 => .seq fun _ => .seq fun _ => ?_)
    simp only
    split
    · exact irrevocable_canonical d _ h h1
    · refine .seq fun _ => .bind (hb _ _ h1) fun ⟨op, c2⟩ h2 => ?_
      simp only
      split
      · exact .bind (ownWord_memWf _ _ _ h2) fun ⟨c3, v⟩ h3 => .bind (writeS_memWf d v h3) fun _ h4 => setMe_canonical h h4
      · have hsecond : ∀ (v1 : Option W64) (c4 : Core), c4.memWf = true →
            KeepsMem (match v1 with | some x => writeS (d + 1) x c4 | none => .ok c4) := by
          intro v1 c4 h4
          split
          · exact writeS_memWf _ _ h4
          · exact h4
        refine .ite (.seq fun _ => ?_) ?_
        all_goals
          exact .bind (ownWin_memWf _ _ _ _ _ h2) fun ⟨c3, v, v1⟩ h3 => .bind (writeS_memWf d v h3) fun c4 h4 =>
            .bind (hsecond v1 c4 h4) fun _ h5 => setMe_canonical h h5
      · exact irrevocable_canonical d _ h h2

theorem build1_memWf (a b : Src) (f : W64 → WordOp) (p : Place) (h : c.memWf = true) : ReadsMem (build1 a b f p c) :=
  .bind (readS_memWf b h) fun ⟨_, _⟩ h => freeS_memWf _ (freeS_memWf _ h)

theorem buildPair_memWf (a b : Src) (own : Core → Nat → Nat → Bool) (f : W64 → W64 → Bool → WordOp) (p : Place) (h : c.memWf = true) :
    ReadsMem (buildPair a b own f p c) := by
  exact .bind (readS_memWf b h) fun ⟨y, c1⟩ h =>
    .ite (.bind (readS_memWf _ h) fun ⟨_, _⟩ h => freeS_memWf _ (freeS_memWf _ (freeS_memWf _ h))) (freeS_memWf _ (freeS_memWf _ h))

theorem execAcas_canonical (d : BitVec 6) (a b e : Src) (sc : Scope) (x : Ty) (h : Canonical s) : NextCanonical (execAcas d a b e sc x s) :=
  strong_canonical (fun _ _ h => .bind (readS_memWf b h) fun ⟨_, _⟩ h => .bind (readS_memWf e h) fun ⟨_, _⟩ h =>
    freeS_memWf _ (freeS_memWf _ (freeS_memWf _ h))) h

theorem execBari_canonical (d : BitVec 6) (a b : Src) (sc : Scope) (h : Canonical s) : NextCanonical (execBari d a b sc s) :=
  strong_canonical (fun _ _ h => .bind (readS_memWf b h) fun ⟨_, _⟩ h => .seq fun _ => freeS_memWf _ (freeS_memWf _ h)) h

theorem execLoopf_canonical (h : Canonical s) : NextCanonical (execLoopf s) := finish_canonical h (.seq fun _ => setMe_canonical h h.1)

end Sys2Proof.Machine
end

