-- ==== Sys2Proof/Proofs/CanonicalBanks.lean ====
section
/-! Canonical memories through the instructions that change a bank, and through the operations of the engines (spec/07 R177 to R180,
spec/09 R221 to R224). -/

namespace Sys2Proof.Machine

open Safety

variable {c : Core} {s t : State}

/-! ### Bank-wide operations -/

theorem foldl_putNat_wf {α : Type} (a n v : α → Nat) (l : List α) {m : Mem} (h : m.wf = true) :
    (l.foldl (fun m x => Mem.putNat m (a x) (n x) (v x)) m).wf = true :=
  foldl_keeps (fun m => Mem.wf m = true) (fun _ _ h => Mem.wf_putNat _ _ _ h) l h

theorem bankWide_memWf (old : Core) (b : Nat) (h : c.memWf = true) : (bankWide old c b).memWf = true := logBank_memWf b old h

theorem returnChunks_memWf (b : Nat) (h : c.memWf = true) : (c.returnChunks b).memWf = true := by
  unfold Core.returnChunks
  split
  · split <;> exact h
  · exact h

theorem rebuilt_memWf (b : Nat) (w : W64) (d : Struct) (i : Items) (h : c.memWf = true) : (c.rebuilt b w d i).memWf = true := by
  unfold Core.rebuilt
  extract_lets raw e
  have he : e.memWf = true := zeroBank_memWf b (returnChunks_memWf b h)
  split
  · rw [memWf_iff] at he ⊢
    exact ⟨foldl_putNat_wf (fun x : Nat × W64 => x.1) (fun _ => 8) (fun x => x.2.toNat) raw he.1, he.2⟩
  · exact he

theorem rekey_memWf (b : Nat) (f : BitVec 2) (h : c.memWf = true) : (c.rekey b f).memWf = true := by
  unfold Core.rekey
  split
  · split <;> exact h
  · exact h

theorem changeBank_memWf (old : Core) (b : Nat) (h : c.memWf = true) : KeepsMem (changeBank old c b) := by
  refine .seq fun _ => .seq fun _ => bankWide_memWf _ _ ?_
  exact memWf_foldl (fun (c : Core) p => { ((c.logBank p old).holdBank p) with
    seg := { ((c.logBank p old).holdBank p).seg with lines := nset ((c.logBank p old).holdBank p).seg.lines (metaLine p) } })
    (fun c p h => memWf_congr (logBank_memWf p old h) rfl rfl rfl) _ h

theorem touchOnly_memWf (bs : List Nat) (h : c.memWf = true) : KeepsMem (touchOnly c bs) := revocable_memWf c _ _ h

theorem bankConfig_memWf (b : Nat) (w : W64) (h : c.memWf = true) : OkAll (fun r => r.1.memWf = true) (bankConfig c b w) := by
  unfold bankConfig
  extract_lets k q count lent items
  split
  · exact (changeBank_memWf c b h).map fun _ h => h
  · split
    · exact .seq fun _ => (changeBank_memWf c b (rekey_memWf _ _ h)).map fun _ h => h
    · refine .seq fun _ => .seq fun _ => ?_
      split
      · exact (touchOnly_memWf _ h).map fun _ h => h
      · exact (changeBank_memWf c b (rebuilt_memWf _ _ _ _ h)).map fun _ h => h

theorem bankOp_canonical {d : BitVec 6} {a : Src} {b : Option Src} {n : Nat} {f : W64 → Nat → W64 → Core → Res (Core × StsCode × W64)}
    (hf : ∀ x k w c, c.memWf = true → OkAll (fun r => r.1.memWf = true) (f x k w c)) (h : Canonical s) : NextCanonical (bankOp d a b n f s) := by
  refine finish_canonical h (.seq fun _ => .seq fun _ => .bind (readS_memWf a h.1) fun ⟨x, c1⟩ h1 => ?_)
  have hb : ReadsMem (match b with | some b => readS b c1 | none => .ok (0, c1)) := by
    split
    · exact readS_memWf _ h1
    · exact h1
  refine .bind hb fun ⟨w, c2⟩ h2 => .seq fun _ => ?_
  have hfree : (b.elim id freeS (freeS a c2)).memWf = true := by
    cases b with
    | none => exact freeS_memWf _ h2
    | some b => exact freeS_memWf _ (freeS_memWf _ h2)
  exact .bind (hf _ _ _ _ hfree) fun ⟨c3, sts, v⟩ h3 => .bind (writeS_memWf d v h3) fun _ h4 => setMe_canonical h h4

theorem claimLinesBelow_memWf (x : BitVec 8) (k : Nat) (h : c.memWf = true) : (if k < 14 then c.claimLines x k else c).memWf = true := by
  split
  · exact claimLines_memWf _ _ h
  · exact h

theorem execBcfg_canonical (d : BitVec 6) (a b : Src) (h : Canonical s) : NextCanonical (execBcfg d a b s) :=
  bankOp_canonical (fun _ k w _ h => .seq fun _ => .seq fun _ =>
    .bind (bankConfig_memWf k w (claimLinesBelow_memWf _ k h)) fun ⟨_, _⟩ h => h) h

theorem execBqry_canonical (d : BitVec 6) (a : Src) (h : Canonical s) : NextCanonical (execBqry d a s) :=
  bankOp_canonical (fun _ k _ _ h => (touchOnly_memWf _ (claimBank_memWf _ k h)).map fun _ h => h) h

theorem execBheap_canonical (d : BitVec 6) (a b : Src) (h : Canonical s) : NextCanonical (execBheap d a b s) :=
  bankOp_canonical (fun _ k _ _ h => .seq fun _ => .seq fun _ => .seq fun _ =>
    (changeBank_memWf _ k (rekey_memWf _ _ (claimLinesBelow_memWf _ k h))).map fun _ h => h) h

theorem respan_memWf (b n : Nat) (h : c.memWf = true) : (c.respan b n).memWf = true :=
  memWf_foldl (fun (e : Core) k => (e.zeroBank k).setBank k { Bank.reset (if k < b + n then .member b else .array) with owner := c.act.ctx })
    (fun _ k h => zeroBank_memWf k h) _ h

theorem execBspan_canonical (d : BitVec 6) (a : Src) (h : Canonical s) : NextCanonical (execBspan d a s) := by
  refine bankOp_canonical (fun x k _ c h => ?_) h
  have hc := claimLinesBelow_memWf c.act.ctx k h
  refine .seq fun _ => .seq fun _ => .seq fun _ => .seq fun _ => .seq fun _ => .ite ?_ (.ite ?_ ?_)
  · exact (touchOnly_memWf _ hc).map fun _ h => h
  · exact (touchOnly_memWf _ hc).map fun _ h => h
  · refine .bind (revocable_memWf _ _ _ (respan_memWf _ _ ?_)) fun _ h => h
    exact memWf_foldl (fun (c : Core) j => c.claimLines c.act.ctx j) (fun c j h => claimLines_memWf _ _ h) _ hc

theorem execBclr_canonical (d : BitVec 6) (a : Src) (h : Canonical s) : NextCanonical (execBclr d a s) := by
  refine bankOp_canonical (fun x k _ c h => .seq fun _ => .ite ?_ ?_) h
  · exact (changeBank_memWf _ _ (zeroBank_memWf _ (claimLines_memWf _ _ h))).map fun _ h => h
  · exact .bind (revocable_memWf _ _ _ (returnChunks_memWf _ (claimLines_memWf _ _ h))) fun _ h => h

/-! ### Steps of other agents -/

theorem coreEvent_canonical {k : Nat} {f : State → Option State} (hf : ∀ s, Canonical s → SomeAll Canonical (f s)) (h : Canonical s) :
    NextCanonical (coreEvent k f s) := by
  unfold coreEvent
  split
  · exact SomeAll.getD ((hf _ (caughtUp_canonical (focus_canonical k h))).map fun t ht => focus_canonical s.cur ht) h
  · trivial

theorem engineEvent_canonical {k : Nat} {f : State → Option State} (hf : ∀ s, Canonical s → SomeAll Canonical (f s)) (h : Canonical s) :
    NextCanonical (engineEvent k f s) := by
  refine coreEvent_canonical (fun s h => ?_) h
  split
  · trivial
  · exact hf s h

theorem stoppingEvent_canonical {k : Nat} {part : State → State} {f : State → Option State} (hp : ∀ s, Canonical s → Canonical (part s))
    (hf : ∀ s, Canonical s → SomeAll Canonical (f s)) (h : Canonical s) : NextCanonical (stoppingEvent k part f s) := by
  refine coreEvent_canonical (fun s h => ?_) h
  split
  · exact hp s h
  · split
    · trivial
    · exact hf s h

/-! ### Completion of engine operations -/

theorem freeStamp_memWf (z : Option W64) (a : Src) (h : c.memWf = true) : (freeStamp z a c).memWf = true := by
  unfold freeStamp
  split
  · exact freeS_memWf a h
  · exact h

theorem readStamp_memWf (b : Bool) (a : Src) (h : c.memWf = true) : ReadsMem (readStamp c b a) := by
  unfold readStamp
  split
  · exact h
  · exact (readS_memWf a h).map fun _ h => h

theorem stampWrite_memWf (x : BitVec 8) (a v : Nat) (h : c.memWf = true) : SomeAll (fun c => c.memWf = true) (c.stampWrite x a v) := by
  unfold Core.stampWrite
  split
  · trivial
  · exact publish_memWf _ _ _ _ h

theorem engFlags_canonical (o : EngOp) (h : Canonical s) : Canonical (s.engFlags o) := by
  unfold State.engFlags
  extract_lets c x
  split
  · exact setMe_canonical h h.1
  · split <;> exact h

theorem opDone_canonical (o : EngOp) (h : Canonical s) : Canonical (s.opDone o) := by
  obtain ⟨hme, ho, hr⟩ := engFlags_canonical o h
  exact ⟨hme, AllWf.map ho fun p hp => hp, hr⟩

theorem complete_canonical (o : EngOp) (h : Canonical s) : Canonical (s.complete o) := by
  have h := unlock_canonical s.cur (· == o.seq) h
  unfold State.complete
  simp only
  split
  · exact opDone_canonical _ h
  · split
    · exact opDone_canonical _ h
    · split
      · exact h
      next hc => exact opDone_canonical _ (setMe_canonical h ((stampWrite_memWf _ _ _ h.1).of_eq hc))

theorem execEnginePreimageFree_canonical (k q : Nat) (h : Canonical s) : NextCanonical (execEnginePreimageFree k q s) :=
  coreEvent_canonical (fun _ ⟨hme, ho, hr⟩ => ⟨hme, AllWf.map ho fun _ hp => hp, hr⟩) h

theorem opUncorr_canonical (o : EngOp) (a k : W64) (h : Canonical s) : Canonical (s.opUncorr o a k) := takeBack_canonical _ _ h

theorem opNotice_canonical (o : EngOp) (a k : W64) (h : Canonical s) : Canonical (s.opNotice o a k) := notice_canonical _ _ _ _ _ _ _ _ _ h

end Sys2Proof.Machine
end

