-- ==== Sys2Proof/Proofs/CanonicalWeak.lean ====
section
/-! Canonical memories through long and floating scalar operations and weak accesses (spec/05 R118 to R140, spec/08 R199 to R201). -/

namespace Sys2Proof.Machine

open Safety

variable {c : Core} {s t : State}

/-! ### Scalar shapes -/

theorem longOp2_memWf (d : BitVec 6) (a b : Src) (f : W64 → W64 → W64) (n : Nat) (h : c.memWf = true) : KeepsMem (longOp2 d a b f n c) :=
  .seq fun _ => .bind (readS_memWf a h) fun ⟨_, _⟩ h => .bind (readS_memWf b h) fun ⟨_, _⟩ h =>
    produce_memWf _ _ _ (freeS_memWf _ (freeS_memWf _ h))

theorem fop1_memWf (d : BitVec 6) (a : Src) (f : Nat → Nat × Fl) (h : c.memWf = true) : KeepsMem (fop1 d a f c) :=
  .seq fun _ => .bind (readS_memWf a h) fun ⟨_, _⟩ h => .bind (raiseFlags_memWf _ _ h) fun _ h => writeS_memWf _ _ (freeS_memWf _ h)

theorem fop2_memWf (d : BitVec 6) (a b : Src) (f : Nat → Nat → Nat × Fl) (h : c.memWf = true) : KeepsMem (fop2 d a b f c) :=
  .seq fun _ => .bind (readS_memWf a h) fun ⟨_, _⟩ h => .bind (readS_memWf b h) fun ⟨_, _⟩ h => .bind (raiseFlags_memWf _ _ h) fun _ h =>
    writeS_memWf _ _ (freeS_memWf _ (freeS_memWf _ h))

theorem fop3_memWf (d : BitVec 6) (a b e : Src) (f : Nat → Nat → Nat → Nat × Fl) (h : c.memWf = true) : KeepsMem (fop3 d a b e f c) :=
  .seq fun _ => .bind (readS_memWf a h) fun ⟨_, _⟩ h => .bind (readS_memWf b h) fun ⟨_, _⟩ h => .bind (readS_memWf e h) fun ⟨_, _⟩ h =>
    .bind (raiseFlags_memWf _ _ h) fun _ h => writeS_memWf _ _ (freeS_memWf _ (freeS_memWf _ (freeS_memWf _ h)))

theorem execFdiv_canonical (d : BitVec 6) (a b : Src) (rm : Rnd) (x : Ty) (h : Canonical s) : NextCanonical (execFdiv d a b rm x s) :=
  coreOp_canonical h <| .seq fun _ => .bind (readS_memWf a h.1) fun ⟨_, _⟩ h => .bind (readS_memWf b h) fun ⟨_, _⟩ h =>
    .bind (raiseFlags_memWf _ _ h) fun _ h => produce_memWf _ _ _ (freeS_memWf _ (freeS_memWf _ h))

theorem execFsqrt_canonical (d : BitVec 6) (a : Src) (rm : Rnd) (x : Ty) (h : Canonical s) : NextCanonical (execFsqrt d a rm x s) :=
  coreOp_canonical h <| .seq fun _ => .bind (readS_memWf a h.1) fun ⟨_, _⟩ h => .bind (raiseFlags_memWf _ _ h) fun _ h =>
    produce_memWf _ _ _ (freeS_memWf _ h)

/-! ### Remote weak reads -/

theorem writeRead_memWf (w : ReadWhat) (h : c.memWf = true) : KeepsMem (c.writeRead w) := by
  unfold Core.writeRead
  split
  · exact writeS_memWf _ _ h
  · exact writeV_memWf _ _ h
  · exact writeV_memWf _ _ h
  · exact h

theorem deliverRead_memWf (w : ReadWhat) (h : c.memWf = true) : (c.deliverRead w).memWf = true := by
  unfold Core.deliverRead
  split
  next hc => exact (writeRead_memWf w h).of_eq hc
  next => exact h

theorem markEmptyRead_memWf (w : ReadWhat) (h : c.memWf = true) : (c.markEmptyRead w).memWf = true := by
  unfold Core.markEmptyRead
  split
  · exact markEmpty_memWf _ h
  · exact h
  · exact h
  · exact h

theorem sendReads_canonical (id : Nat) (l : List (Home × W64)) (h : Canonical s) : Canonical (sendReads id l s).2 := by
  induction l generalizing s with
  | nil => exact h
  | cons x l ih =>
    unfold sendReads
    split
    · exact ih (send_canonical _ _ h)
    · exact h

theorem sendUnsent_canonical (h : Canonical s) : Canonical s.sendUnsent.2 := by
  unfold State.sendUnsent
  split
  · exact h
  next r _ =>
    have hr := sendReads_canonical r.id r.unsent h
    exact setMe_canonical hr hr.1

theorem remoteRead_canonical (w : ReadWhat) (hs : List (Home × W64)) (h : Canonical s) (hc : c.memWf = true) :
    OkAll Canonical (remoteRead s c w hs) := by
  unfold remoteRead
  extract_lets miss bound new pending fill id r
  have hfill : ∀ u, Canonical u → Canonical (fill u) := fun _ hu => filled_canonical _ hu
  clear_value fill r
  refine .ite ((writeRead_memWf w hc).map fun _ hc => filled_canonical _ (setMe_canonical h hc)) (.seq fun _ => .seq fun _ => .ite (.seq fun _ => ?_) ?_)
  · exact sendUnsent_canonical (hfill _ (setMe_canonical h h.1))
  · exact sendUnsent_canonical (hfill _ (setMe_canonical h (markEmptyRead_memWf w hc)))

/-! ### LD and ST -/

theorem ownRead_memWf (e : W64) (off n : Nat) (h : c.memWf = true) : ReadsMem (ownRead c e off n) :=
  .seq fun _ => .seq fun _ => claimAll_memWf _ _ _ h

theorem rawRead_memWf (e : W64) (off n : Nat) (h : c.memWf = true) : ReadsMem (rawRead c e off n) :=
  .seq fun _ => .seq fun _ => claimAll_memWf _ _ _ h

/-- The second register of a pair, where there is one. -/
theorem writeSecond_memWf (d : BitVec 6) (v : Option W64) (h : c.memWf = true) :
    KeepsMem (match v with | some x => writeS d x c | none => .ok c) := by
  cases v with
  | some x => exact writeS_memWf _ _ h
  | none => exact h

theorem weakWin_canonical (e : W64) (b off : Nat) (op : WordOp) (d : BitVec 6) (h : Canonical s) (hc : c.memWf = true) :
    OkAll Canonical (weakWin s e b off op d c) :=
  .seq fun _ => .seq fun _ => .bind (ownWin_memWf e b off op (d.getLsbD 0) hc) fun ⟨_, v, v1⟩ hc => .bind (writeS_memWf d v hc) fun _ hc =>
    .bind (writeSecond_memWf (d + 1) v1 hc) fun _ hc => setMe_canonical h hc

theorem execLd_canonical (d : BitVec 6) (a : Src) (x : Ty) (off : BitVec 32) (h : Canonical s) : NextCanonical (execLd d a x off s) := by
  refine finish_canonical h (.seq fun _ => .bind (readS_memWf a h.1) fun ⟨y, c1⟩ h1 => .seq fun _ => ?_)
  have h2 := freeS_memWf a h1
  simp only
  split
  · exact weakWin_canonical _ _ _ _ _ h h2
  · refine .seq fun r => ?_
    split
    · exact .bind (ownRead_memWf _ _ _ h2) fun ⟨_, _⟩ h3 => .bind (writeS_memWf _ _ h3) fun _ h4 => setMe_canonical h h4
    · exact .bind (rawRead_memWf _ _ _ h2) fun ⟨_, _⟩ h3 => .bind (writeS_memWf _ _ h3) fun _ h4 => setMe_canonical h h4
    · exact remoteRead_canonical _ _ h h2

theorem remoteStore_memWf (x : Home) (e : W64) (l : Line) (m : W64) (h : c.memWf = true) : KeepsMem (remoteStore c x e l m) :=
  .seq fun _ => outStore_memWf _ _ _ _ _ h

theorem execSt_canonical (x : Ty) (a b : Src) (off : BitVec 32) (h : Canonical s) : NextCanonical (execSt x a b off s) := by
  refine finish_canonical h (.seq fun _ => .bind (readS_memWf a h.1) fun ⟨y, c1⟩ h1 => .bind (readS_memWf b h1) fun ⟨z, c2⟩ h2 => .seq fun _ => ?_)
  have h3 := freeS_memWf b (freeS_memWf a h2)
  simp only
  split
  · exact .bind (buildPair_memWf _ _ _ _ _ h1) fun ⟨_, _⟩ h4 => weakWin_canonical _ _ _ _ _ h h4
  · refine .seq fun r => ?_
    split
    · exact .bind (ownStore_memWf _ _ h3) fun _ h4 => setMe_canonical h h4
    · trivial
    · exact .bind (remoteStore_memWf _ _ _ _ h3) fun _ h4 => fillFor_canonical _ (setMe_canonical h h4)

/-! ### LDV and STV -/

theorem activeLanes_memWf (m : VMask) (n : Nat) (h : c.memWf = true) : ReadsMem (activeLanes m n c) := by
  unfold activeLanes
  exact .ite h (.bind (readM_memWf _ h) fun ⟨_, _⟩ h => h)

theorem execLdv_canonical (d : BitVec 5) (a : Src) (x : Ty) (off : BitVec 24) (m : VMask) (h : Canonical s) :
    NextCanonical (execLdv d a x off m s) := by
  refine finish_canonical h (.seq fun _ => .bind (readS_memWf a h.1) fun ⟨y, c1⟩ h1 => .bind (activeLanes_memWf m _ h1) fun ⟨act, c1⟩ h1 =>
    .seq fun base => .seq fun r => ?_)
  have h2 := freeS_memWf a h1
  split
  · exact .bind (ownRead_memWf _ _ _ h2) fun ⟨_, _⟩ h3 => (writeV_memWf d _ h3).map fun _ hc => setMe_canonical h hc
  · exact .bind (rawRead_memWf _ _ _ h2) fun ⟨_, _⟩ h3 => (writeV_memWf d _ h3).map fun _ hc => setMe_canonical h hc
  · exact remoteRead_canonical _ _ h h2

theorem putMem_memWf (a : Nat) (bs : List Byte) (h : c.memWf = true) : Core.memWf { c with mem := Mem.put c.mem a bs } = true :=
  memWf_put h rfl rfl rfl

theorem ownStoreMask_memWf (off : Nat) (l : Line) (m : W64) (h : c.memWf = true) : KeepsMem (ownStoreMask c off l m) := by
  unfold ownStoreMask
  split
  · exact ownStore_memWf _ _ h
  · refine .seq fun _ => ?_
    split
    · exact h
    · extract_lets e
      have he : e.memWf = true := logLine_memWf (off / 64) (claimAll_memWf c.act.ctx off 64 h)
      clear_value e
      exact putMem_memWf _ _ he

theorem execStv_canonical (x : Ty) (a : Src) (b : VSrc) (off : BitVec 24) (m : VMask) (h : Canonical s) :
    NextCanonical (execStv x a b off m s) := by
  refine finish_canonical h (.seq fun _ => .bind (readS_memWf a h.1) fun ⟨y, c1⟩ h1 => .bind (readV_memWf b h1) fun ⟨z, c1⟩ h1 =>
    .bind (activeLanes_memWf m _ h1) fun ⟨act, c1⟩ h1 => .seq fun r => ?_)
  have h2 := freeV_memWf b (freeS_memWf a h1)
  refine .ite (setMe_canonical h h2) ?_
  split
  · exact .bind (ownStoreMask_memWf _ _ _ h2) fun _ h3 => setMe_canonical h h3
  · trivial
  · exact .bind (remoteStore_memWf _ _ _ _ h2) fun _ h3 => fillFor_canonical _ (setMe_canonical h h3)

/-! ### GATH and SCAT -/

theorem gatherOwn_memWf (w : Nat) (xs : List (Nat × W64 × Reach)) (l : Line) (h : c.memWf = true) : ReadsMem (gatherOwn w xs l c) := by
  induction xs generalizing l c with
  | nil => exact h
  | cons x xs ih =>
    obtain ⟨i, e, r⟩ := x
    refine .bind (P := fun r => r.2.memWf = true) ?_ fun ⟨l, c⟩ h => ih l h
    split
    · exact (ownRead_memWf _ _ _ h).map fun _ h => h
    · exact (rawRead_memWf _ _ _ h).map fun _ h => h
    · exact h

theorem gather_canonical (d : BitVec 5) (a : Src) (b : VSrc) (x : Ty) (m : VMask) (h : Canonical s) : NextCanonical (gather d a b x m s) := by
  refine finish_canonical h (.seq fun _ => .bind (readS_memWf a h.1) fun ⟨y, c1⟩ h1 => .bind (readV_memWf b h1) fun ⟨z, c1⟩ h1 =>
    .bind (activeLanes_memWf m _ h1) fun ⟨act, c1⟩ h1 => .seq fun old => .seq fun ls =>
    .bind (gatherOwn_memWf _ _ _ (freeV_memWf b (freeS_memWf a h1))) fun ⟨own, c2⟩ h2 => .ite ?_ ?_)
  · exact (writeV_memWf _ _ h2).map fun _ h3 => setMe_canonical h h3
  · exact remoteRead_canonical _ _ h h2

theorem scatterLanes_memWf (w : Nat) (l : Line) (xs : List (Nat × W64 × Reach)) (h : c.memWf = true) : KeepsMem (scatterLanes w l xs c) := by
  induction xs generalizing c with
  | nil => exact h
  | cons x xs ih =>
    obtain ⟨i, e, r⟩ := x
    refine .bind (P := fun c => c.memWf = true) ?_ fun c h => ih h
    split
    · exact ownStore_memWf _ _ h
    · exact h
    · exact outStore_memWf _ _ _ _ _ h

theorem scatter_canonical (a : Src) (b v : VSrc) (x : Ty) (m : VMask) (h : Canonical s) : NextCanonical (scatter a b v x m s) :=
  finish_canonical h <| .seq fun _ => .bind (readS_memWf a h.1) fun ⟨_, _⟩ h1 => .bind (readV_memWf b h1) fun ⟨_, _⟩ h1 =>
    .bind (readV_memWf v h1) fun ⟨_, _⟩ h1 => .bind (activeLanes_memWf m _ h1) fun ⟨_, _⟩ h1 => .seq fun _ => .seq fun _ => .seq fun _ =>
    .bind (scatterLanes_memWf _ _ _ (freeV_memWf v (freeV_memWf b (freeS_memWf a h1)))) fun _ h2 => filled_canonical _ (setMe_canonical h h2)

end Sys2Proof.Machine
end

