-- ==== Sys2Proof/Proofs/CanonicalVector.lean ====
section
/-! Canonical memories through the vector unit (spec/08 R192 to R220). -/

namespace Sys2Proof.Machine

open Safety

variable {c : Core} {s t : State}

theorem vecFlags_memWf (fs : List (Nat × Fl)) (h : c.memWf = true) : KeepsMem (c.vecFlags fs) := raiseFlags_memWf _ _ h

theorem finishV_memWf (d : BitVec 5) (m : VMask) (x : Ty) (rs : List (Nat × Nat × Fl)) {free : Core → Core}
    (hf : ∀ c, c.memWf = true → (free c).memWf = true) (h : c.memWf = true) : KeepsMem (finishV d m x rs free c) :=
  .seq fun _ => .bind (vecFlags_memWf _ (hf _ h)) fun _ h => writeV_memWf _ _ h

theorem finishC_memWf (d : BitVec 5) (m : VMask) (x : Ty) (rs : List (Nat × Nat × Fl)) {free : Core → Core}
    (hf : ∀ c, c.memWf = true → (free c).memWf = true) (h : c.memWf = true) : KeepsMem (finishC d m x rs free c) :=
  .seq fun _ => .bind (vecFlags_memWf _ (hf _ h)) fun _ h => writeV_memWf _ _ h

theorem moved_memWf (d : BitVec 5) (x : Ty) (m : VMask) (act : Nat) (f : Nat → Nat) {free : Core → Core}
    (hf : ∀ c, c.memWf = true → (free c).memWf = true) (h : c.memWf = true) : KeepsMem (moved d x m act f free c) :=
  finishV_memWf _ _ _ _ hf h

/-! ### Lane by lane -/

theorem vop1_memWf (d : BitVec 5) (a : VSrc) (x : Ty) (m : VMask) (f : Nat → Nat × Fl) (h : c.memWf = true) : KeepsMem (vop1 d a x m f c) :=
  .seq fun _ => .bind (readV_memWf a h) fun ⟨_, _⟩ h => .bind (activeLanes_memWf m _ h) fun ⟨_, _⟩ h =>
    finishV_memWf _ _ _ _ (fun _ h => freeV_memWf _ h) h

theorem vop2_memWf (d : BitVec 5) (a b : VSrc) (x : Ty) (m : VMask) (f : Nat → Nat → Nat × Fl) (h : c.memWf = true) :
    KeepsMem (vop2 d a b x m f c) :=
  .seq fun _ => .bind (readV_memWf a h) fun ⟨_, _⟩ h => .bind (readV_memWf b h) fun ⟨_, _⟩ h =>
    .bind (activeLanes_memWf m _ h) fun ⟨_, _⟩ h => finishV_memWf _ _ _ _ (fun _ h => freeV_memWf _ (freeV_memWf _ h)) h

theorem vop3_memWf (d : BitVec 5) (a b e : VSrc) (x : Ty) (m : VMask) (f : Nat → Nat → Nat → Nat × Fl) (h : c.memWf = true) :
    KeepsMem (vop3 d a b e x m f c) :=
  .seq fun _ => .bind (readV_memWf a h) fun ⟨_, _⟩ h => .bind (readV_memWf b h) fun ⟨_, _⟩ h => .bind (readV_memWf e h) fun ⟨_, _⟩ h =>
    .bind (activeLanes_memWf m _ h) fun ⟨_, _⟩ h => finishV_memWf _ _ _ _ (fun _ h => freeV_memWf _ (freeV_memWf _ (freeV_memWf _ h))) h

theorem vsgn_memWf (d : BitVec 5) (a b : VSrc) (op : SgnOp) (x : Ty) (m : VMask) (h : c.memWf = true) : KeepsMem (vsgn d a b op x m c) := by
  unfold vsgn
  split
  · exact vop1_memWf _ _ _ _ _ h
  · exact vop2_memWf _ _ _ _ _ _ h

theorem vcmp_memWf (d : BitVec 3) (a b : VSrc) (p : Pred) (x : Ty) (m : VMask) (h : c.memWf = true) : KeepsMem (vcmp d a b p x m c) :=
  .seq fun _ => .bind (readV_memWf a h) fun ⟨_, _⟩ h => .bind (readV_memWf b h) fun ⟨_, _⟩ h =>
    .bind (activeLanes_memWf m _ h) fun ⟨_, _⟩ h => .bind (vecFlags_memWf _ (freeV_memWf _ (freeV_memWf _ h))) fun _ h => setM_memWf _ _ h

theorem vint_memWf (f : Ty → W64 → W64 → W64) (d : BitVec 5) (a b : VSrc) (x : Ty) (m : VMask) (h : c.memWf = true) :
    KeepsMem (vint f d a b x m c) := vop2_memWf _ _ _ _ _ _ h

/-! ### Selection and movement -/

theorem vsel_memWf (d : BitVec 5) (a b : VSrc) (e : MSrc) (x : Ty) (m : VMask) (h : c.memWf = true) : KeepsMem (vsel d a b e x m c) :=
  .seq fun _ => .bind (readV_memWf a h) fun ⟨_, _⟩ h => .bind (readV_memWf b h) fun ⟨_, _⟩ h => .bind (readM_memWf e h) fun ⟨_, _⟩ h =>
    .bind (activeLanes_memWf m _ h) fun ⟨_, _⟩ h => moved_memWf _ _ _ _ _ (fun _ h => freeM_memWf _ (freeV_memWf _ (freeV_memWf _ h))) h

theorem vperm_memWf (d : BitVec 5) (a b e : VSrc) (x : Ty) (m : VMask) (h : c.memWf = true) : KeepsMem (vperm d a b e x m c) :=
  .seq fun _ => .bind (readV_memWf a h) fun ⟨_, _⟩ h => .bind (readV_memWf b h) fun ⟨_, _⟩ h => .bind (readV_memWf e h) fun ⟨_, _⟩ h =>
    .bind (activeLanes_memWf m _ h) fun ⟨_, _⟩ h => moved_memWf _ _ _ _ _ (fun _ h => freeV_memWf _ (freeV_memWf _ (freeV_memWf _ h))) h

theorem vbcast_memWf (d : BitVec 5) (a : Src) (x : Ty) (m : VMask) (h : c.memWf = true) : KeepsMem (vbcast d a x m c) :=
  .seq fun _ => .bind (readS_memWf a h) fun ⟨_, _⟩ h => .bind (activeLanes_memWf m _ h) fun ⟨_, _⟩ h =>
    moved_memWf _ _ _ _ _ (fun _ h => freeS_memWf _ h) h

theorem vslide_memWf (d : BitVec 5) (a b : VSrc) (e : Src) (x : Ty) (m : VMask) (h : c.memWf = true) : KeepsMem (vslide d a b e x m c) :=
  .seq fun _ => .bind (readV_memWf a h) fun ⟨_, _⟩ h => .bind (readV_memWf b h) fun ⟨_, _⟩ h => .bind (readS_memWf e h) fun ⟨_, _⟩ h =>
    .bind (activeLanes_memWf m _ h) fun ⟨_, _⟩ h => moved_memWf _ _ _ _ _ (fun _ h => freeS_memWf _ (freeV_memWf _ (freeV_memWf _ h))) h

theorem execVcmpr_canonical (d : BitVec 5) (a : VSrc) (b : MSrc) (x : Ty) (h : Canonical s) : NextCanonical (execVcmpr d a b x s) :=
  coreOp_canonical h <| .seq fun _ => .bind (readV_memWf a h.1) fun ⟨_, _⟩ h => .bind (readM_memWf b h) fun ⟨_, _⟩ h =>
    writeV_memWf _ _ (freeM_memWf _ (freeV_memWf _ h))

theorem execVexpd_canonical (d : BitVec 5) (a : VSrc) (b : MSrc) (x : Ty) (h : Canonical s) : NextCanonical (execVexpd d a b x s) :=
  coreOp_canonical h <| .seq fun _ => .bind (readV_memWf a h.1) fun ⟨_, _⟩ h => .bind (readM_memWf b h) fun ⟨_, _⟩ h =>
    writeV_memWf _ _ (freeM_memWf _ (freeV_memWf _ h))

theorem execViota_canonical (d : BitVec 5) (a : MSrc) (p : Bool) (x : Ty) (h : Canonical s) : NextCanonical (execViota d a p x s) :=
  coreOp_canonical h <| .seq fun _ => .ite
    (.bind (readM_memWf a h.1) fun ⟨_, _⟩ h => writeV_memWf _ _ (freeM_memWf _ h)) (writeV_memWf _ _ h.1)

theorem execVlane_canonical (d : BitVec 6) (a : VSrc) (b : Src) (k : BitVec 6) (set : Bool) (x : Ty) (h : Canonical s) :
    NextCanonical (execVlane d a b k set x s) :=
  coreOp_canonical h <| .ite
    (.seq fun _ => .bind (readV_memWf a h.1) fun ⟨_, _⟩ h => .bind (readS_memWf b h) fun ⟨_, _⟩ h =>
      writeV_memWf _ _ (freeS_memWf _ (freeV_memWf _ h)))
    (.seq fun _ => .bind (readV_memWf a h.1) fun ⟨_, _⟩ h => writeS_memWf _ _ (freeV_memWf _ h))

theorem execMlog_canonical (d : BitVec 3) (a b : MSrc) (op : MlogOp) (h : Canonical s) : NextCanonical (execMlog d a b op s) := by
  refine coreOp_canonical h (.seq fun _ => ?_)
  split
  · exact setM_memWf _ _ h.1
  · exact .bind (readM_memWf a h.1) fun ⟨_, _⟩ h => setM_memWf _ _ (freeM_memWf _ h)
  · exact .bind (readM_memWf a h.1) fun ⟨_, _⟩ h => .bind (readM_memWf b h) fun ⟨_, _⟩ h => setM_memWf _ _ (freeM_memWf _ (freeM_memWf _ h))

theorem execMpop_canonical (d : BitVec 6) (a : Src) (op : MpopOp) (h : Canonical s) : NextCanonical (execMpop d a op s) :=
  coreOp_canonical h <| .ite (.seq fun _ => .bind (readS_memWf a h.1) fun ⟨_, _⟩ h => setM_memWf _ _ (freeS_memWf _ h))
    (.seq fun _ => .bind (readM_memWf (maskSrc a) h.1) fun ⟨_, _⟩ h => writeS_memWf _ _ (freeM_memWf _ h))

/-! ### Reductions and scans -/

theorem redLanes_memWf (d : BitVec 5) (a : VSrc) (x : Ty) (m : VMask) (h : c.memWf = true) : ReadsMem (redLanes d a x m c) :=
  .seq fun _ => .bind (readV_memWf a h) fun ⟨_, _⟩ h => .bind (activeLanes_memWf m _ h) fun ⟨_, _⟩ h => freeV_memWf _ h

theorem combine_canonical (ms : List Nat) (d : BitVec 5) (a : VSrc) (x : Ty) (m : VMask)
    (f : List (List (Option Nat)) → List (Line × List (Nat × Fl))) (h : Canonical s) : NextCanonical (combine s ms d a x m f) := by
  refine finish_canonical h (.bind (redLanes_memWf d a x m h.1) fun ⟨own, c1⟩ h1 => .seq fun ls => ?_)
  have hflags := vecFlags_memWf ((64, ((f ls).flatMap fun r => r.2.map (·.2)).foldl (· ||| ·) 0) :: ((f ls).getD (ms.idxOf s.cur) (0, [])).2) h1
  refine .bind (P := fun c => c.memWf = true) ?_ fun _ h2 => .bind (writeV_memWf _ _ h2) fun _ h3 => setMe_canonical h h3
  split
  · trivial
  · exact hflags

theorem vred_canonical (d : BitVec 5) (a : VSrc) (op : RedOp) (rm : Rnd) (x : Ty) (m : VMask) (h : Canonical s) :
    NextCanonical (vred d a op rm x m s) := combine_canonical _ _ _ _ _ _ h

theorem vscan_canonical (d : BitVec 5) (a : VSrc) (op : RedOp) (rm : Rnd) (x : Ty) (m : VMask) (h : Canonical s) :
    NextCanonical (vscan d a op rm x m s) := combine_canonical _ _ _ _ _ _ h

/-! ### Conversion, packing and complex numbers -/

theorem vcvt_memWf (d : BitVec 5) (a : VSrc) (src : Ty) (p : BitVec 4) (rm : Rnd) (sat : Bool) (x : Ty) (m : VMask) (h : c.memWf = true) :
    KeepsMem (vcvt d a src p rm sat x m c) :=
  .seq fun _ => .bind (readV_memWf a h) fun ⟨_, _⟩ h => .bind (activeLanes_memWf m _ h) fun ⟨_, _⟩ h => .seq fun _ =>
    .bind (vecFlags_memWf _ (freeV_memWf a h)) fun _ h => writeV_memWf _ _ h

theorem vunpk_memWf (d : BitVec 5) (a : VSrc) (src : Ty) (p : BitVec 4) (rm : Rnd) (x : Ty) (m : VMask) (h : c.memWf = true) :
    KeepsMem (vunpk d a src p rm x m c) :=
  .seq fun _ => .bind (readV_memWf a h) fun ⟨_, _⟩ h => .bind (activeLanes_memWf m _ h) fun ⟨_, _⟩ h =>
    finishV_memWf _ _ _ _ (fun _ h => freeV_memWf _ h) h

theorem vpack_memWf (d : BitVec 5) (a : VSrc) (src : Ty) (p : BitVec 4) (rm : Rnd) (sat : Bool) (x : Ty) (m : VMask) (h : c.memWf = true) :
    KeepsMem (vpack d a src p rm sat x m c) :=
  .seq fun _ => .bind (readV_memWf a h) fun ⟨_, _⟩ h => .bind (activeLanes_memWf m _ h) fun ⟨_, _⟩ h => .seq fun _ =>
    .bind (vecFlags_memWf _ (freeV_memWf a h)) fun _ h => writeV_memWf _ _ h

theorem vscale_memWf (d : BitVec 5) (a : VSrc) (b : Src) (k : BitVec 3) (inv : Bool) (rm : Rnd) (x : Ty) (m : VMask) (h : c.memWf = true) :
    KeepsMem (vscale d a b k inv rm x m c) :=
  .seq fun _ => .bind (readV_memWf a h) fun ⟨_, _⟩ h => .bind (readS_memWf b h) fun ⟨_, _⟩ h =>
    .bind (activeLanes_memWf m _ h) fun ⟨_, _⟩ h => finishV_memWf _ _ _ _ (fun _ h => freeS_memWf _ (freeV_memWf _ h)) h

theorem vamax_memWf (d : BitVec 6) (a : VSrc) (x : Ty) (m : VMask) (h : c.memWf = true) : KeepsMem (vamax d a x m c) :=
  .seq fun _ => .bind (readV_memWf a h) fun ⟨_, _⟩ h => .bind (activeLanes_memWf m _ h) fun ⟨_, _⟩ h => writeS_memWf _ _ (freeV_memWf a h)

theorem bfly_memWf (d : BitVec 5) (a b e : VSrc) (rm : Rnd) (x : Ty) (m : VMask) (h : c.memWf = true) : KeepsMem (bfly d a b e rm x m c) :=
  .seq fun _ => .seq fun _ => .bind (readV_memWf a h) fun ⟨_, _⟩ h => .bind (readV_memWf b h) fun ⟨_, _⟩ h =>
    .bind (readV_memWf e h) fun ⟨_, _⟩ h => .bind (activeLanes_memWf m _ h) fun ⟨_, _⟩ h => .seq fun _ => .seq fun _ =>
    .bind (vecFlags_memWf _ (freeV_memWf e (freeV_memWf b (freeV_memWf a h)))) fun _ h => .bind (writeV_memWf _ _ h) fun _ h => writeV_memWf _ _ h

theorem cmul_memWf (d : BitVec 5) (a b : VSrc) (conj : Bool) (rm : Rnd) (x : Ty) (m : VMask) (h : c.memWf = true) :
    KeepsMem (cmul d a b conj rm x m c) :=
  .seq fun _ => .bind (readV_memWf a h) fun ⟨_, _⟩ h => .bind (readV_memWf b h) fun ⟨_, _⟩ h =>
    .bind (activeLanes_memWf m _ h) fun ⟨_, _⟩ h => finishC_memWf _ _ _ _ (fun _ h => freeV_memWf _ (freeV_memWf _ h)) h

theorem twid_memWf (d : BitVec 5) (a : VSrc) (n : BitVec 5) (rm : Rnd) (x : Ty) (m : VMask) (h : c.memWf = true) :
    KeepsMem (twid d a n rm x m c) :=
  .seq fun _ => .bind (readV_memWf a h) fun ⟨_, _⟩ h => .bind (activeLanes_memWf m _ h) fun ⟨_, _⟩ h =>
    finishC_memWf _ _ _ _ (fun _ h => freeV_memWf _ h) h

end Sys2Proof.Machine
end

