-- ==== Sys2Proof/Proofs/CanonicalEngines.lean ====
section
/-! Canonical memories through the Press and the Grinder (spec/09 R225 to R248). -/

namespace Sys2Proof.Machine

open Safety

variable {c : Core} {s t : State}

/-! ### Issue -/

theorem issueOp_canonical (d : BitVec 6) (o : EngOp) (dst : Bool) (rs : List (Nat × Nat)) (h : Canonical s) (hc : c.memWf = true) :
    OkAll Canonical (issueOp s d c o dst rs) := by
  unfold issueOp
  extract_lets _ c1 c2
  have h2 : c2.memWf = true := by
    unfold c2
    split <;> exact hc
  exact .bind (writeS_memWf d _ h2) fun _ h3 => setMe_canonical h h3

theorem execPload_canonical (d : BitVec 6) (a b e : Src) (h : Canonical s) : NextCanonical (execPload d a b e s) :=
  finish_canonical h <| .seq fun _ => .seq fun _ => .bind (readS_memWf a h.1) fun ⟨_, _⟩ h1 => .bind (readS_memWf b h1) fun ⟨w, _⟩ h2 =>
    .bind (readStamp_memWf (w.getLsbD 6) e h2) fun ⟨z, _⟩ h3 => .seq fun _ => .seq fun _ => .seq fun _ => .seq fun _ => .seq fun _ =>
    .seq fun _ => .seq fun _ => issueOp_canonical _ _ _ _ h (freeStamp_memWf z e (freeS_memWf b (freeS_memWf a h3)))

theorem execPswap_canonical (h : Canonical s) : NextCanonical (execPswap s) :=
  finish_canonical h <| .seq fun _ => .seq fun _ => setMe_canonical h h.1

theorem execPtest_canonical (d : BitVec 6) (h : Canonical s) : NextCanonical (execPtest d s) :=
  finish_canonical h <| .seq fun _ => .seq fun _ => .seq fun _ => issueOp_canonical _ _ _ _ h h.1

theorem execPtestStamp_canonical (d : BitVec 6) (a : Src) (h : Canonical s) : NextCanonical (execPtestStamp d a s) :=
  finish_canonical h <| .seq fun _ => .seq fun _ => .bind (readS_memWf a h.1) fun ⟨_, _⟩ h1 => .seq fun _ => .seq fun _ => .seq fun _ =>
    issueOp_canonical _ _ _ _ h (freeS_memWf a h1)

theorem execPqry_canonical (d : BitVec 6) (h : Canonical s) : NextCanonical (execPqry d s) :=
  coreOp_canonical h <| .seq fun _ => writeS_memWf _ _ h.1

theorem runIssue_memWf (d : BitVec 6) (a b e : Src) (f : W64 → Bool) (h : c.memWf = true) :
    OkAll (fun q => q.core.memWf = true) (runIssue c d a b e f) :=
  .seq fun _ => .seq fun _ => .bind (readS_memWf a h) fun ⟨_, _⟩ h1 => .bind (readS_memWf b h1) fun ⟨w, _⟩ h2 =>
    .bind (readStamp_memWf (w.getLsbD 24) e h2) fun ⟨z, _⟩ h3 => .seq fun _ => .seq fun _ => .seq fun _ => .seq fun _ => .seq fun _ =>
    .seq fun _ => .seq fun _ => .seq fun _ => .seq fun _ => freeStamp_memWf z e (freeS_memWf b (freeS_memWf a h3))

theorem runStart_canonical (d : BitVec 6) (q : RunIssue) (n i : Nat) (ms : List (Nat × Nat)) (h : Canonical s) (hq : q.core.memWf = true) :
    OkAll Canonical (runStart s d q n i ms) := .seq fun _ => .seq fun _ => issueOp_canonical _ _ _ _ h hq

theorem execPrun_canonical (d : BitVec 6) (a b e : Src) (h : Canonical s) : NextCanonical (execPrun d a b e s) :=
  finish_canonical h <| .bind (runIssue_memWf d a b e _ h.1) fun _ hq => .ite (runStart_canonical _ _ _ _ _ h hq) (runStart_canonical _ _ _ _ _ h hq)

/-! ### Turns of the queue -/

theorem keepPlanes_memWf (o : EngOp) (h : c.memWf = true) : (c.keepPlanes o).memWf = true := by
  unfold Core.keepPlanes
  split <;> exact h

theorem mapOp_memWf (k : Nat) (f : EngOp → EngOp) (h : c.memWf = true) : (c.mapOp k f).memWf = true := h

theorem opFinish_memWf (o : EngOp) (f : Fl) (b : Bool) (h : c.memWf = true) : (c.opFinish o f b).memWf = true := h

theorem rerun_canonical (o : EngOp) (h : Canonical s) : Canonical { s with me := s.me.rerun o } := setMe_canonical h h.1

theorem pressTurn_canonical {f : EngOp → Option State} (hf : ∀ o, SomeAll Canonical (f o)) (h : Canonical s) : SomeAll Canonical (s.pressTurn f) := by
  unfold State.pressTurn
  split
  · trivial
  next o _ =>
    split
    · exact (hf o).map fun _ _ => rerun_canonical o h
    · exact hf o

theorem execPloadExecute_canonical (k : Nat) (h : Canonical s) : NextCanonical (execPloadExecute k s) := by
  refine engineEvent_canonical (fun s h => pressTurn_canonical (fun o => ?_) h) h
  split
  next a w _ =>
    extract_lets s1 c1 load
    have h1 : Canonical s1 := charge_canonical _ _ _ h
    clear_value s1
    have hc : c1.memWf = true := keepPlanes_memWf o (claimAll_memWf o.ctx a (loadBytes w) h1.1)
    clear_value c1
    have hl : ∀ p, (load p).memWf = true := fun _ => hc
    clear_value load
    split
    · exact setMe_canonical h1 (opFinish_memWf _ _ _ (hl false))
    · split
      · exact opNotice_canonical _ _ _ (setMe_canonical h1 (opFinish_memWf _ _ _ (hl true)))
      · exact opUncorr_canonical _ _ _ h1
  · trivial

theorem execPswapExecute_canonical (k : Nat) (h : Canonical s) : NextCanonical (execPswapExecute k s) := by
  refine engineEvent_canonical (fun s h => ?_) h
  split
  next o _ =>
    split
    · exact setMe_canonical h (keepPlanes_memWf o h.1)
    · trivial
  · trivial

theorem selfTest_canonical (h : Canonical s) : Canonical s.selfTest.2 := h

theorem execPtestFinish_canonical (k : Nat) (h : Canonical s) : NextCanonical (execPtestFinish k s) := by
  refine engineEvent_canonical (fun s h => pressTurn_canonical (fun o => ?_) h) h
  split
  · exact h
  · trivial

/-! ### Runs -/

theorem foldl_claimRow_memWf {α : Type} (x : BitVec 8) (f : α → Nat) (l : List α) (h : c.memWf = true) :
    (l.foldl (fun c i => c.claimRow x (f i)) c).memWf = true := memWf_foldl _ (fun _ _ h => claimRow_memWf _ _ h) _ h

theorem doRow_memWf (o : EngOp) (r : RunCmd) (bad : Bool) (i : Nat) (bs : List Byte) (h : c.memWf = true) : (c.doRow o r bad i bs).memWf = true := by
  unfold Core.doRow
  extract_lets j len c1 old whole all c2 c3
  have h2 : c2.memWf = true := putRow_memWf _ _ _ _ h
  have h3 : c3.memWf = true := by
    unfold c3
    split
    · exact h2
    · exact h2
  exact h3

theorem claimRun_canonical (ms : List (Nat × EngOp)) (h : Canonical s) : Canonical (s.claimRun ms) := by
  refine foldl_canonical _ (fun s x h => onCore_canonical _ (fun s h => setMe_canonical h ?_) h) _ h
  have hc : ((actRanges (x.1.2.kind.run?.getD (0, 0)).1 (RunCmd.of (x.1.2.kind.run?.getD (0, 0)).2)).foldl
      (fun (c : Core) a => c.claimAll x.1.2.ctx a.1 a.2) s.me).memWf = true := memWf_foldl _ (fun _ _ h => claimAll_memWf _ _ _ h) _ h.1
  split
  · exact foldl_claimRow_memWf _ _ _ hc
  · exact hc

theorem runRows_canonical (ms : List (Nat × EngOp)) (bad : Bool) (n : Nat) (h : Canonical s) : Canonical (s.runRows ms bad n).1 := by
  refine foldl_keeps (fun (p : State × List (Nat × Fl)) => Canonical p.1) (fun p ch hp => ?_) _ h
  split
  · exact hp
  next out _ =>
    refine foldl_keeps (fun (p : State × List Fl) => Canonical p.1) (fun p i hp => ?_) _ ?_
    · exact charge_canonical _ _ _ (onCore_canonical _ (fun s h => setMe_canonical h (doRow_memWf _ _ _ _ _ h.1)) hp)
    · exact onCore_canonical _ (fun s h => setMe_canonical h (foldl_claimRow_memWf _ _ _ h.1)) hp

theorem skipFollow_canonical (ms : List (Nat × EngOp)) (x y : W64) (h : Canonical s) : Canonical (s.skipFollow ms x y) :=
  foldl_canonical _ (fun _ _ h => notice_canonical _ _ _ _ _ _ _ _ _
    (onCore_canonical _ (fun _ h => setMe_canonical h (opFinish_memWf _ _ _ h.1)) h)) _ h

theorem selfTests_canonical (ks : List Nat) (h : Canonical s) : Canonical (s.selfTests ks).2 := by
  induction ks generalizing s with
  | nil => exact h
  | cons k ks ih => exact ih (focus_canonical _ (selfTest_canonical (focus_canonical k h)))

theorem finishRun_canonical (ms : List (Nat × EngOp)) (fs : List (Nat × Fl)) (b : Bool) (h : Canonical s) : Canonical (s.finishRun ms fs b) :=
  foldl_canonical _ (fun _ _ h => onCore_canonical _ (fun _ h => setMe_canonical h (opFinish_memWf _ _ _ h.1)) h) _ h

theorem pressHalt_canonical (h : Canonical s) : Canonical s.pressHalt := by
  unfold State.pressHalt
  split
  · exact h
  · split
    · exact h
    next ms _ =>
      extract_lets s1 p m row upto r
      have h1 : Canonical s1 := claimRun_canonical _ h
      have hr : Canonical r.1 := runRows_canonical _ _ _ (pick_canonical h1)
      clear_value r s1
      split
      · exact foldl_canonical _ (fun _ _ h => onCore_canonical _ (fun _ h => setMe_canonical h (mapOp_memWf _ _ h.1)) h) _ hr
      · exact h1

theorem memberNotice_canonical (ms : List (Nat × EngOp)) (k : Nat) (a x : W64) (h : Canonical s) : Canonical (s.memberNotice ms k a x) := by
  unfold State.memberNotice
  split
  · exact onCore_canonical _ (fun _ h => opNotice_canonical _ _ _ h) h
  · exact h

theorem fencedNotices_canonical (ms : List (Nat × EngOp)) (h : Canonical s) : Canonical (s.fencedNotices ms) :=
  foldl_canonical _ (fun _ _ h => notice_canonical _ _ _ _ _ _ _ _ _ h) _ h

theorem runTurn_canonical (o : EngOp) (ms : List (Nat × EngOp)) (h : Canonical s) : Canonical (s.runTurn o ms) := by
  unfold State.runTurn
  extract_lets committed plane s1
  have h1 : Canonical s1 := claimRun_canonical _ h
  clear_value s1
  split
  · exact onCore_canonical _ (fun _ h => opUncorr_canonical _ _ _ h) h1
  next poison _ _ =>
    have h2 := selfTests_canonical (ms.map (·.1)) h1
    split
    next ok u e =>
      rw [e] at h2
      split
      · exact rollGang_canonical _ _ h2
      · extract_lets failed r s2 s3
        have hr : Canonical s2 := finishRun_canonical _ _ _ (runRows_canonical _ _ _ h2)
        have h3 : Canonical s3 := by
          unfold s3
          clear_value s2
          split
          · exact memberNotice_canonical _ _ _ _ hr
          · split
            · exact memberNotice_canonical _ _ _ _ hr
            · exact hr
        clear_value s3
        split
        · exact h3
        · exact fencedNotices_canonical _ h3

theorem execPrunFinish_canonical (k : Nat) (h : Canonical s) : NextCanonical (execPrunFinish k s) := by
  refine stoppingEvent_canonical (fun s h => pressHalt_canonical h) (fun s h => ?_) h
  have hrun : ∀ o, SomeAll Canonical ((s.atTurn o).map (s.runTurn o)) := fun o => by
    cases s.atTurn o with
    | none => trivial
    | some ms => exact runTurn_canonical o ms h
  split
  · trivial
  next o _ =>
    split
    · exact rerun_canonical o h
    · split
      · exact hrun o
      · split
        · exact skipFollow_canonical _ _ _ h
        · exact hrun o
      · trivial

/-! ### PACC -/

theorem zeroRow_memWf (r off n : Nat) (b : Bool) (h : c.memWf = true) : (c.zeroRow r off n b).memWf = true := by
  unfold Core.zeroRow
  extract_lets p e
  have he : (e.putRow r off (List.replicate n 0) p).memWf = true := putRow_memWf _ _ _ _ h
  exact he

theorem execPaccReg_canonical (d : BitVec 5) (a : Src) (h : Canonical s) : NextCanonical (execPaccReg d a s) := by
  refine coreOp_canonical h (.seq fun _ => .seq fun _ => .bind (readS_memWf a h.1) fun ⟨x, c1⟩ h1 => .seq fun _ => .seq fun _ => .seq fun _ =>
    .seq fun _ => writeV_memWf _ _ ?_)
  have h2 := claimRow_memWf s.me.act.ctx (bits x 7 0) (freeS_memWf a h1)
  split
  · exact zeroRow_memWf _ _ _ _ h2
  · exact h2

theorem storeEls_memWf (es : List (Nat × List Byte)) (h : c.memWf = true) : KeepsMem (storeEls c es) := by
  induction es generalizing c with
  | nil => exact h
  | cons e es ih => exact .bind (ownStore_memWf _ _ h) fun _ h => ih h

theorem execPaccMem_canonical (a b : Src) (src : Ty) (rm : Rnd) (sat : Bool) (x : Ty) (h : Canonical s) :
    NextCanonical (execPaccMem a b src rm sat x s) := by
  refine coreOp_canonical h (.seq fun _ => .bind (readS_memWf a h.1) fun ⟨y, c1⟩ h1 => .bind (readS_memWf b h1) fun ⟨w, c2⟩ h2 => .seq fun _ =>
    .seq fun _ => .seq fun _ => .seq fun _ => .seq fun _ => .seq fun _ => .seq fun _ => .seq fun _ => .bind (raiseFlags_memWf _ _ ?_) fun c4 h4 =>
    .bind (storeEls_memWf _ h4) fun c5 h5 => ?_)
  · exact memWf_foldl (fun (c : Core) r => c.claimRow c.act.ctx (bits w 7 0 + r)) (fun _ _ h => claimRow_memWf _ _ h) _
      (freeS_memWf b (freeS_memWf a h2))
  · change Core.memWf _ = true
    split
    · exact memWf_foldl (fun (c : Core) r => c.zeroRow (bits w 7 0 + r) 0 ((bits w 21 16 + 1) * (src.width / 8)) false)
        (fun _ _ h => zeroRow_memWf _ _ _ _ h) _ h5
    · exact h5

/-! ### The Grinder -/

theorem sortIssue_memWf (d : BitVec 6) (a b e : Src) (h : c.memWf = true) : OkAll (fun q => q.core.memWf = true) (sortIssue c d a b e) := by
  unfold sortIssue
  refine .seq fun _ => .seq fun _ => .bind (readS_memWf a h) fun ⟨x, _⟩ h1 => .bind (readS_memWf b h1) fun ⟨w, _⟩ h2 =>
    .bind (readStamp_memWf (w.getLsbD 5) e h2) fun ⟨z, _⟩ h3 => .seq fun _ => .seq fun _ => .seq fun _ => ?_
  generalize need (c.ownArray x 1024 && decide (x.toNat % 65536 + 1024 ≤ 65536)) (.trap (precise c 0x202 x 0 0)) = r
  exact .seq fun _ => .seq fun _ => .seq fun _ => freeStamp_memWf z e (freeS_memWf b (freeS_memWf a h3))

theorem sortStart_canonical (d : BitVec 6) (q : SortIssue) (n : Nat) (ms : List (Nat × Nat)) (h : Canonical s) (hq : q.core.memWf = true) :
    OkAll Canonical (sortStart s d q n ms) := by
  unfold sortStart
  extract_lets c g o keep
  generalize needRing c 1024 = r
  exact .seq fun _ => .seq fun _ => .seq fun _ => issueOp_canonical _ _ _ _ h hq

theorem execGsort_canonical (d : BitVec 6) (a b e : Src) (h : Canonical s) : NextCanonical (execGsort d a b e s) :=
  finish_canonical h <| .bind (sortIssue_memWf d a b e h.1) fun _ hq => .ite (sortStart_canonical _ _ _ _ h hq) (sortStart_canonical _ _ _ _ h hq)

theorem execGqry_canonical (d : BitVec 6) (h : Canonical s) : NextCanonical (execGqry d s) :=
  coreOp_canonical h <| .seq fun _ => writeS_memWf _ _ h.1

theorem writeTile_memWf (o : EngOp) (a : Nat) (l : List GCell) (bad : Bool) (h : c.memWf = true) : (c.writeTile o a l bad).memWf = true := by
  unfold Core.writeTile
  extract_lets ns c1 c2
  have h1 : c1.memWf = true := memWf_foldl (fun (c : Core) n => c.save c.id o.seq o.seg o.ord (c.lineImage n (BitVec.allOnes 64))) (fun _ _ h => h) _ h
  have h2 : c2.memWf = true := poke_memWf _ _ h1
  clear_value c2
  split
  · have hp : (ns.foldl (fun (c : Core) n => c.setPoison n true) c2).memWf = true := memWf_foldl (fun (c : Core) n => c.setPoison n true) (fun _ _ h => h) _ h2
    exact memWf_congr hp rfl rfl rfl
  · exact h2

theorem sortSlice_canonical (o : EngOp) (ms : List (Nat × EngOp)) (w : W64) (n : Option Nat) (h : Canonical s) :
    Canonical (s.sortSlice o ms w n) := by
  unfold State.sortSlice
  extract_lets g begin_ cells lim from_ goal last s1 out
  have h1 : Canonical s1 := charge_canonical _ _ _ (charge_canonical _ _ _ h)
  clear_value s1
  refine foldl_canonical _ (fun s m h => onCore_canonical _ (fun s h => ?_) h) _ h1
  split
  · exact setMe_canonical h h.1
  · exact setMe_canonical h (writeTile_memWf (c := { s.me with grinder := _ }) _ _ _ _ h.1)

theorem claimTiles_canonical (ms : List (Nat × EngOp)) (h : Canonical s) : Canonical (s.claimTiles ms) :=
  foldl_canonical _ (fun _ _ h => onCore_canonical _ (fun _ h => setMe_canonical h (claimAll_memWf _ _ _ h.1)) h) _ h

theorem grinderHalt_canonical (h : Canonical s) : Canonical s.grinderHalt := by
  unfold State.grinderHalt
  split
  · exact h
  next o _ =>
    have h1 := claimTiles_canonical (s.sortMates o) h
    split
    · exact h
    · simp only
      split
      · exact h1
      · exact sortSlice_canonical _ _ _ _ (pick_canonical h1)

theorem execGrinderSliceFinish_canonical (k : Nat) (h : Canonical s) : NextCanonical (execGrinderSliceFinish k s) := by
  refine stoppingEvent_canonical (fun s h => grinderHalt_canonical h) (fun s h => ?_) h
  split
  · trivial
  next o _ =>
    have h1 := claimTiles_canonical (s.sortMates o) h
    split
    · exact rerun_canonical o h
    · simp only
      split
      · exact sortSlice_canonical _ _ _ _ h1
      · split
        · refine memberNotice_canonical _ _ _ _ (foldl_canonical _ (fun s m h => onCore_canonical _ (fun s h => setMe_canonical h ?_) h) _ h1)
          exact writeTile_memWf _ _ _ _ h.1
        · exact onCore_canonical _ (fun _ h => opUncorr_canonical _ _ _ h) h1

theorem stopEngines_canonical (h : Canonical s) : Canonical s.stopEngines := grinderHalt_canonical (pressHalt_canonical h)

end Sys2Proof.Machine
end

