-- ==== Sys2Proof/Proofs/CanonicalPours.lean ====
section
/-! Canonical memories through stream registers and Pours (spec/14 R304 to R324, spec/15 R328). -/

namespace Sys2Proof.Machine

open Safety

variable {c : Core} {s t : State}

theorem SomeAll.ite {α : Type} {P : α → Prop} {b : Prop} [Decidable b] {x y : Option α} (hx : SomeAll P x) (hy : SomeAll P y) :
    SomeAll P (if b then x else y) := by
  split
  · exact hx
  · exact hy

/-! ### Streams -/

theorem ownBlock_memWf (a : W64) (h : c.memWf = true) : ReadsMem (ownBlock c a) := by
  unfold ownBlock
  exact .seq fun _ => .seq fun _ => .seq fun _ => claimAll_memWf _ _ _ h

theorem bindTo_memWf (d : BitVec 6) (v : Bool) (x : Stream) (h : c.memWf = true) : (execSbind.bindTo d v x c).memWf = true := by
  unfold execSbind.bindTo
  extract_lets e
  have he : e.memWf = true := by
    unfold e
    split
    · exact h
    · exact setS_memWf _ _ h
  exact he

theorem execSbind_canonical (d : BitVec 6) (a : Src) (h : Canonical s) : NextCanonical (execSbind d a s) := by
  have hbind : ∀ (v : Bool) (x : Stream) (c : Core), c.memWf = true →
      Canonical (({ s with me := (execSbind.bindTo d v x c).retire } : State).relockStreams) :=
    fun v x _ hc => relockStreams_canonical (setMe_canonical h (bindTo_memWf d v x hc))
  refine finish_canonical h (.seq fun _ => .seq fun _ => .bind (readS_memWf a h.1) fun ⟨x, c1⟩ h1 =>
    .bind (ownBlock_memWf x (freeS_memWf a h1)) fun ⟨m, c2⟩ h2 => .seq fun _ => .seq fun _ => .ite ?_ ?_)
  · refine .seq fun _ => .seq fun _ => ?_
    split
    · trivial
    · exact .seq fun _ => hbind _ _ _ h2
  · exact .seq fun _ => .seq fun _ => .seq fun _ => hbind _ _ _ h2

theorem execSunb_canonical (d : BitVec 6) (h : Canonical s) : NextCanonical (execSunb d s) :=
  finish_canonical h <| .seq fun _ => relockStreams_canonical (setMe_canonical h h.1)

theorem execSqry_canonical (d : BitVec 6) (a : Src) (h : Canonical s) : NextCanonical (execSqry d a s) :=
  coreOp_canonical h <| .seq fun _ => .bind (readS_memWf a h.1) fun ⟨_, _⟩ h1 => .seq fun _ => .seq fun _ => writeS_memWf _ _ (freeS_memWf a h1)

/-! ### The issue of a Pour -/

theorem addLock_memWf (l : Lock) (h : c.memWf = true) : (c.addLock l).memWf = true := h

theorem pourLocks_canonical (p : PourDesc) (q : Nat) (h : Canonical s) : Canonical (s.pourLocks p q) := by
  unfold State.pourLocks
  extract_lets x l s1
  have h1 : Canonical s1 := by
    unfold s1
    split
    · exact h
    · exact setMe_canonical h (addLock_memWf _ h.1)
  clear_value s1
  split
  · exact h1
  · exact onCores_canonical _ (fun _ h => setMe_canonical h (addLock_memWf _ h.1)) h1

theorem execPour_canonical (d : BitVec 6) (a : Src) (h : Canonical s) : NextCanonical (execPour d a s) := by
  refine finish_canonical h (.seq fun _ => .seq fun _ => .bind (readS_memWf a h.1) fun ⟨x, c1⟩ h1 => .seq fun _ => .seq fun _ => .seq fun _ =>
    .bind (ownBlock_memWf x (freeS_memWf a h1)) fun ⟨m, c2⟩ h2 => .seq fun _ => .seq fun _ => .seq fun _ => .seq fun _ => .seq fun _ =>
    .seq fun _ => .seq fun _ => .seq fun _ => .seq fun _ => ?_)
  extract_lets q o c3
  have h3 : c3.memWf = true := h2
  exact .bind (writeS_memWf _ _ h3) fun _ h4 => pourLocks_canonical _ _ (setMe_canonical h h4)

/-! ### The steps of the Pour engine -/

theorem mapPour_canonical (k q : Nat) (f : Pour → Pour) (h : Canonical s) : Canonical (s.mapPour k q f) := h

theorem hubEvent_canonical {cl ch : Nat} {f : State → Option State} (hf : SomeAll Canonical (f s)) (h : Canonical s) :
    NextCanonical (hubEvent cl ch f s) := by
  unfold hubEvent
  split
  · exact hf.getD h
  · trivial

theorem execPourStart_canonical (cl ch : Nat) (h : Canonical s) : NextCanonical (execPourStart cl ch s) := by
  refine hubEvent_canonical ?_ h
  split
  · trivial
  · split
    · trivial
    · split
      · trivial
      · exact mapPour_canonical _ _ _ (onCore_canonical _ (fun _ h => setMe_canonical h (mapOp_memWf _ _ h.1)) h)

theorem abortPour_canonical (q : Pour) (n : Nat) (h : Canonical s) : Canonical (s.abortPour q n) := by
  unfold State.abortPour
  extract_lets c
  split
  · exact h
  · exact mapPour_canonical _ _ _ (notice_canonical _ _ _ _ _ _ _ _ _ (onCore_canonical _ (fun _ h => setMe_canonical h h.1) h))

theorem pourSource_canonical (q : Pour) (o : EngOp) (n len : Nat) (h : Canonical s) : Canonical (s.pourSource q o n len).1 := by
  unfold State.pourSource
  extract_lets p x a ctx pa s1
  split
  · split
    · exact h
    · exact h
    · exact charge_canonical _ _ _ (readHandle_canonical _ _ _ _ h)
  · exact charge_canonical _ _ _ (setCore_canonical _ h (claimAll_memWf _ _ _ (core_memWf _ h)))

theorem mapImages_memWf (n : Nat) (p : Nat → Bool) (f : Nat → Line → Line) (g : Bool → Bool) (h : c.memWf = true) :
    (c.mapImages n p f g).memWf = true := h

/-- Local memory replaced by a canonical one, and its poison. -/
theorem setMem_memWf {m : Mem} (p : List Nat) (h : c.memWf = true) (hm : m.wf = true) : Core.memWf { c with mem := m, poison := p } = true := by
  rw [memWf_iff] at h ⊢
  exact ⟨hm, h.2⟩

theorem mem_wf (h : c.memWf = true) : c.mem.wf = true := ((memWf_iff c).1 h).1

theorem landLine_memWf (k : Nat) (o : EngOp) (n : Nat) (l : Line) (m : W64) (h : c.memWf = true) : (c.landLine k o n l m).memWf = true := by
  unfold Core.landLine
  extract_lets far images cur c1
  have h1 : c1.memWf = true := by
    unfold c1
    split
    · exact h
    · exact h
  clear_value c1
  exact mapImages_memWf _ _ _ _ (setMem_memWf _ h1 (Mem.wf_put _ _ (mem_wf h1)))

theorem landBytes_memWf (k : Nat) (o : EngOp) (a : Nat) (bs : List Byte) (h : c.memWf = true) : (c.landBytes k o a bs).memWf = true :=
  memWf_foldl _ (fun _ _ h => landLine_memWf _ _ _ _ _ h) _ h

theorem landAt_canonical (q : Pour) (o : EngOp) (k d : Nat) (bs : List Byte) (h : Canonical s) : SomeAll Canonical (s.landAt q o k d bs) := by
  unfold State.landAt
  extract_lets c1 new c2 c3
  have h1 : c1.memWf = true := claimAll_memWf _ _ _ (core_memWf k h)
  have h2 : c2.memWf = true := landBytes_memWf _ _ _ _ h1
  have h3 : c3.memWf = true := by
    unfold c3
    split
    · exact mapOp_memWf _ _ h2
    · exact h2
  clear_value c3
  split
  · trivial
  · exact charge_canonical _ _ _ (charge_canonical _ _ _ (setCore_canonical _ h h3))

theorem landBehind_canonical (q : Pour) (o : EngOp) (pa : Nat) (bs : List Byte) (h : Canonical s) : SomeAll Canonical (s.landBehind q o pa bs) := by
  unfold State.landBehind
  extract_lets ctx w line x s1 new img s2 s3 s4
  clear_value x
  have h1 : Canonical s1 := by
    unfold s1
    split
    · exact h
    · exact readHandle_canonical _ _ _ _ h
  clear_value s1
  have h2 : Canonical s2 := by
    unfold s2
    split
    · exact mapPour_canonical _ _ _ h1
    · exact h1
  clear_value s2
  have h3 : Canonical s3 := physPut_canonical _ _ h2
  clear_value s3
  have h4 : Canonical s4 := by
    unfold s4
    split
    · exact h3
    · exact clearPoison_canonical _ _ h3
  clear_value s4
  refine .ite (abortPour_canonical _ _ h1) (.ite trivial ?_)
  change Canonical _
  split
  · exact charge_canonical _ _ _ h4
  · exact h4

theorem landFlit_canonical (q : Pour) (k n : Nat) (h : Canonical s) : SomeAll Canonical (s.landFlit q k n) := by
  unfold State.landFlit
  extract_lets p
  split
  next o got _ _ =>
    extract_lets base f
    have hs := pourSource_canonical q o f.1 f.2 h
    split
    · trivial
    · split
      next u e =>
        rw [e] at hs
        exact abortPour_canonical _ _ hs
      next u m e =>
        rw [e] at hs
        split
        · exact abortPour_canonical _ _ hs
        · exact onCore_canonical _ (fun _ h => opUncorr_canonical _ _ _ h) hs
      next u bs e =>
        rw [e] at hs
        refine SomeAll.map (P := Canonical) ?_ fun _ h => charge_canonical _ _ _ (mapPour_canonical _ _ _ h)
        split
        · exact landBehind_canonical _ _ _ _ hs
        · exact landAt_canonical _ _ _ _ _ hs
  · trivial

theorem execPourFlitLand_canonical (cl ch : Nat) (f : TileFlit) (h : Canonical s) : NextCanonical (execPourFlitLand cl ch f s) := by
  refine hubEvent_canonical ?_ h
  split
  · trivial
  next q _ =>
    split
    · trivial
    next u e =>
      split at e
      · cases e
      · have hu := (landFlit_canonical q f.recv f.pos h).of_eq e
        simp only
        split
        · exact onCore_canonical _ (fun _ h => setMe_canonical h (mapOp_memWf _ _ h.1)) hu
        · exact hu

/-! ### Completion at receivers -/

theorem deliverBar_memWf {d : Core} {x : BitVec 8} {off n : Nat} (h : c.memWf = true) (e : c.deliverBar x off n = some d) : d.memWf = true := by
  have h1 := claim_memWf x (off / 64) h
  unfold Core.deliverBar at e
  extract_lets c1 at e
  have h2 : c1.memWf = true := h1
  clear_value c1
  split at e
  · cases e
  · cases e
    exact mapImages_memWf _ _ _ _ (setMem_memWf c1.poison h2 (Mem.wf_putNat _ _ _ (mem_wf h2)))

theorem receiverDone_canonical (q : Pour) (o : EngOp) (h : Canonical s) : SomeAll Canonical (s.receiverDone q o) := by
  unfold State.receiverDone
  extract_lets p c1 c2 run ranges s1 s2 c3 c4
  have hc : c2.memWf = true := h.1
  have h1 : Canonical s1 := setMe_canonical h hc
  clear_value s1
  have h2 : Canonical s2 := by
    unfold s2
    split
    · exact h1
    · split
      next e => exact setMe_canonical h1 (deliverBar_memWf hc e)
      next => exact notice_canonical _ _ _ _ _ _ _ _ _ h1
  clear_value s2
  have h4 : c4.memWf = true := by
    unfold c4
    split
    · exact addLock_memWf _ h2.1
    · exact h2.1
  clear_value c4
  split
  · trivial
  · exact setMe_canonical h2 h4

theorem receiverStep_canonical (q : Pour) (k : Nat) (h : Canonical s) : SomeAll Canonical (s.receiverStep q k) := by
  unfold State.receiverStep
  split
  · trivial
  next o _ =>
    split
    · trivial
    · extract_lets take dst c
      have ht : ∀ u, Canonical u → Canonical (take u) := fun _ hu => hu
      clear_value take
      split
      · exact ht _ (setCore_canonical k h (core_memWf k h))
      · split
        · exact ht _ h
        · exact (receiverDone_canonical q o (focus_canonical k h)).map fun _ hu => ht _ (focus_canonical _ hu)

theorem execPourReceiverCompletion_canonical (cl ch k : Nat) (h : Canonical s) : NextCanonical (execPourReceiverCompletion cl ch k s) := by
  refine hubEvent_canonical ?_ h
  simp only
  generalize s.pours.find? _ = x
  cases x with
  | none => trivial
  | some q => exact receiverStep_canonical q k h

theorem completePour_canonical (o : EngOp) (h : Canonical s) : Canonical (s.completePour o) := by
  have hc := complete_canonical o h
  unfold State.completePour
  extract_lets u pre
  have hu : Canonical u := hc
  clear_value u
  split
  · exact setMe_canonical hu (mapOp_memWf _ _ hu.1)
  · exact hu

/-! ### POURQ and HNDQ -/

theorem execPourq_canonical (d : BitVec 6) (a : Src) (h : Canonical s) : NextCanonical (execPourq d a s) :=
  coreOp_canonical h <| .seq fun _ => .bind (readS_memWf a h.1) fun ⟨_, _⟩ h1 => writeS_memWf _ _ (freeS_memWf a h1)

theorem execHndq_canonical (d : BitVec 6) (a : Src) (h : Canonical s) : NextCanonical (execHndq d a s) := by
  refine coreOp_canonical h (.seq fun _ => .bind (readS_memWf a h.1) fun ⟨x, c1⟩ h1 => ?_)
  simp only
  generalize need (decide (x.toNat < 65536)) _ = r
  exact .seq fun _ => writeS_memWf _ _ (freeS_memWf a h1)

end Sys2Proof.Machine
end

