-- ==== Sys2Proof/Proofs/CanonicalCollectives.lean ====
section
/-! Canonical memories through collectives and the completion of engine operations (spec/24 R442 to R451, spec/09 R222). -/

namespace Sys2Proof.Machine

open Safety

variable {c : Core} {s t : State}

theorem readMap_canonical (q : CollDesc) (h : Canonical s) : Canonical (s.readMap q) :=
  foldl_canonical _ (fun _ _ h => readHandle_canonical _ _ _ _ h) _ h

theorem execColl_canonical (d : BitVec 6) (a : Src) (h : Canonical s) : NextCanonical (execColl d a s) := by
  refine finish_canonical h (.seq fun _ => .seq fun _ => .bind (readS_memWf a h.1) fun ⟨x, c1⟩ h1 => .seq fun _ => .seq fun _ => .seq fun _ =>
    .bind (ownBlock_memWf x (freeS_memWf a h1)) fun ⟨m, c2⟩ h2 => .seq fun _ => .seq fun _ => .seq fun _ => .seq fun _ => ?_)
  have hs := readMap_canonical (CollDesc.of m) h
  refine .seq fun _ => .seq fun _ => .seq fun _ => .seq fun _ => ?_
  extract_lets q round o _ c3
  have h3 : c3.memWf = true := h2
  exact .bind (writeS_memWf _ _ (addLock_memWf _ h3)) fun _ h4 => setMe_canonical hs h4

theorem execCollw_canonical (d : BitVec 6) (a : Src) (h : Canonical s) : NextCanonical (execCollw d a s) := by
  refine coreOp_canonical h (.seq fun _ => .bind (readS_memWf a h.1) fun ⟨_, c1⟩ h1 => ?_)
  have hw : ∀ v, KeepsMem (writeS d v (freeS a c1)) := fun v => writeS_memWf d v (freeS_memWf a h1)
  simp only
  split
  · exact hw _
  · exact .ite (hw _) (.ite trivial (hw _))

/-! ### Combining points -/

theorem setRound_canonical (r : CRound) (h : Canonical s) : Canonical (s.setRound r) := h

theorem tellDown_canonical (o : EngOp) (q : CollDesc) (k : Nat) (data : List Byte) (r : CRound) (h : Canonical s) :
    Canonical (s.tellDown o q k data r) := by
  unfold State.tellDown
  extract_lets m
  split
  · exact h
  · exact foldl_canonical _ (fun _ _ h => sendFor_canonical _ _ _ h) _ h

theorem tellUp_canonical (o : EngOp) (q : CollDesc) (k : Nat) (data : List Byte) (r : CRound) (h : Canonical s) :
    Canonical (s.tellUp o q k data r) := by
  unfold State.tellUp
  extract_lets m
  split
  · exact h
  · exact sendFor_canonical _ _ _ (setRound_canonical _ h)

theorem takeSub_canonical (x : BitVec 8) (alive : Bool) (gid k rank : Nat) (w2 w3 : W64) (data : List Byte) (f : Fl) (fail : Option Nat)
    (h : Canonical s) : Canonical (s.takeSub x alive gid k rank w2 w3 data f fail).1 := by
  unfold State.takeSub
  split
  · exact h
  · exact setRound_canonical _ h

theorem takeRes_canonical (x : BitVec 8) (alive : Bool) (gid k rank : Nat) (w2 w3 : W64) (data : List Byte) (f : Fl) (fail : Option Nat)
    (h : Canonical s) : Canonical (s.takeRes x alive gid k rank w2 w3 data f fail).1 := by
  unfold State.takeRes
  split
  · exact h
  · exact setRound_canonical _ h

theorem collAnswer_canonical (x : BitVec 8) (gid k rank : Nat) (fail : Option Nat) (h : Canonical s) :
    Canonical (s.collAnswer x gid k rank fail) := by
  unfold State.collAnswer
  extract_lets s1 hit
  have h1 : Canonical s1 := by
    unfold s1
    split
    · exact setRound_canonical _ h
    · exact h
  exact setMe_canonical h1 h1.1

theorem contribute_canonical (o : EngOp) (q : CollDesc) (k : Nat) (h : Canonical s) : Canonical (s.contribute o q k) := by
  unfold State.contribute
  extract_lets m w2 w3 r c1 bad data up r1 _ c2 s1
  have h1 : c1.memWf = true := claimAll_memWf _ _ _ h.1
  have h2 : Canonical s1 := setRound_canonical _ (setMe_canonical h (mapOp_memWf _ _ h1))
  clear_value s1
  split
  · exact tellDown_canonical _ _ _ _ _ h2
  · exact h2

theorem execCollContribute_canonical (k q : Nat) (h : Canonical s) : NextCanonical (execCollContribute k q s) := by
  refine engineEvent_canonical (fun s h => ?_) h
  split
  next o d j _ =>
    refine .ite ?_ trivial
    change Canonical _
    split
    · exact rerun_canonical _ h
    · exact contribute_canonical _ _ _ h
  · trivial

theorem execCollCombine_canonical (k q : Nat) (h : Canonical s) : NextCanonical (execCollCombine k q s) := by
  refine coreEvent_canonical (fun s h => ?_) h
  split
  · trivial
  · split
    · trivial
    · simp only
      refine .ite (tellUp_canonical _ _ _ _ _ h) (.ite trivial ?_)
      split
      · trivial
      · exact setRound_canonical _ h

theorem foldl_restore_memWf (l : List (Nat × PreWhat)) (h : c.memWf = true) : (l.foldl (fun c x => c.restore1 (.inr x.2)) c).memWf = true :=
  memWf_foldl _ (fun _ _ h => restore1_memWf _ h) _ h

theorem collFail_canonical (o : EngOp) (n : Nat) (h : Canonical s) : Canonical (s.collFail o n) := by
  unfold State.collFail
  extract_lets c1 pre c2 c3 c4
  have h2 : c2.memWf = true := foldl_restore_memWf _ h.1
  have h4 : c4.memWf = true := h2
  clear_value c4
  exact notice_canonical _ _ _ _ _ _ _ _ _ (setMe_canonical h h4)

theorem execCollResultLand_canonical (k q : Nat) (h : Canonical s) : NextCanonical (execCollResultLand k q s) := by
  refine engineEvent_canonical (fun s h => ?_) h
  split
  · trivial
  · split
    · trivial
    next r _ =>
      split
      · exact .ite (tellDown_canonical _ _ _ _ _ (collFail_canonical _ _ h)) trivial
      · refine .ite trivial ?_
        generalize r.result _ = x
        cases x with
        | none => trivial
        | some bs =>
          exact tellDown_canonical _ _ _ _ _ (setRound_canonical _
            (setMe_canonical h (mapOp_memWf _ _ (landBytes_memWf _ _ _ _ (claimAll_memWf _ _ _ h.1)))))

theorem execCollOutputExpiry_canonical (k q : Nat) (h : Canonical s) : NextCanonical (execCollOutputExpiry k q s) := by
  refine coreEvent_canonical (fun s h => ?_) h
  split
  · trivial
  · split
    · trivial
    · exact .ite h trivial

theorem completeColl_canonical (o : EngOp) (q : CollDesc) (k : Nat) (h : Canonical s) : Canonical (s.completeColl o q k) := by
  have hc := complete_canonical o h
  unfold State.completeColl
  extract_lets s1 fail v put _ s2
  have h1 : Canonical s1 := hc
  clear_value s1
  have h2 : Canonical s2 := setMe_canonical h1 h1.1
  clear_value s2
  split
  · split
    · exact setRound_canonical _ h2
    · exact h2
  · exact h1

/-! ### The completion step of an engine operation -/

theorem execEngineCompletion_canonical (k q : Nat) (h : Canonical s) : NextCanonical (execEngineCompletion k q s) := by
  refine coreEvent_canonical (fun s h => ?_) h
  split
  · trivial
  · split
    · exact .ite (completePour_canonical _ h) trivial
    · exact .ite (completeColl_canonical _ _ _ h) trivial
    · exact .ite (complete_canonical _ h) trivial

end Sys2Proof.Machine
end

