-- ==== Sys2Proof/Proofs/CanonicalMessages.lean ====
section
/-! Canonical memories through ports, messages, tasks and local time (spec/24 R435 to R441, spec/17 R370 to R372, spec/10). -/

namespace Sys2Proof.Machine

open Safety

variable {c : Core} {s t : State}

/-! ### Ports -/

theorem portDown_canonical (q : Nat) (h : Canonical s) : Canonical (s.portDown q) := interrupt_canonical _ (setPort_canonical _ _ h)

theorem execLinkReplay_canonical (q : Nat) (f : BitVec 12) (h : Canonical s) : NextCanonical (execLinkReplay q f s) := by
  unfold execLinkReplay
  extract_lets p n
  split
  · split
    · split
      · exact portDown_canonical q h
      · exact setPort_canonical _ _ h
    · exact h
  · trivial

theorem execPortTrain_canonical (q : Nat) (p : BitVec 8) (n : BitVec 4) (h : Canonical s) : NextCanonical (execPortTrain q p n s) := by
  unfold execPortTrain
  split
  · simp only
    split
    · exact h
    · split <;> exact h
  · trivial

theorem execTimeExchange_canonical (t1 t2 t3 t4 : Nat) (h : Canonical s) : NextCanonical (execTimeExchange t1 t2 t3 t4 s) := by
  unfold execTimeExchange
  split
  · exact h
  · split
    · exact h
    · simp only
      split
      · exact h
      · split <;> exact h

/-! ### Messages and tasks -/

theorem sendBlock_memWf (x : W64) (h : c.memWf = true) : ReadsMem (sendBlock c x) := by
  unfold sendBlock
  exact .seq fun _ => .seq fun _ => .seq fun _ => ownBlock_memWf x h

theorem outMsg_canonical (m : Msg) (p k : Nat) (l : Option (BitVec 48)) (h : Canonical s) (hc : c.memWf = true) : Canonical (outMsg s c m p k l) :=
  setMe_canonical h hc

theorem execSend_canonical (a b : Src) (h : Canonical s) : NextCanonical (execSend a b s) :=
  finish_canonical h <| .seq fun _ => .bind (readS_memWf a h.1) fun ⟨_, _⟩ h1 => .bind (readS_memWf b h1) fun ⟨_, _⟩ h2 => .seq fun _ => .seq fun _ =>
    outMsg_canonical _ _ _ _ h (freeS_memWf b (freeS_memWf a h2))

theorem execSendm_canonical (a b : Src) (h : Canonical s) : NextCanonical (execSendm a b s) :=
  finish_canonical h <| .seq fun _ => .bind (readS_memWf a h.1) fun ⟨_, _⟩ h1 => .bind (readS_memWf b h1) fun ⟨x, _⟩ h2 => .seq fun _ =>
    .bind (sendBlock_memWf x (freeS_memWf b (freeS_memWf a h2))) fun ⟨_, _⟩ h3 => .seq fun _ => outMsg_canonical _ _ _ _ h h3

theorem ownSpawn_canonical (d : BitVec 6) (m : Msg) (h : Canonical s) (hc : c.memWf = true) : OkAll Canonical (ownSpawn s d m c) := by
  have h1 := claimBank_memWf c.act.ctx 14 hc
  unfold ownSpawn
  extract_lets e r e2
  have h2 : e2.memWf = true := h1
  have h3 : e.memWf = true := h1
  exact .ite (.seq fun _ => .bind (writeS_memWf _ _ h3) fun _ h4 => setMe_canonical h h4)
    (.seq fun _ => .bind (writeS_memWf _ _ h2) fun _ h4 => setMe_canonical h h4)

theorem execSpawn_canonical (d : BitVec 6) (a b : Src) (sc : Scope) (h : Canonical s) : NextCanonical (execSpawn d a b sc s) := by
  unfold execSpawn
  split
  · exact h
  · exact finish_canonical h <| .seq fun _ => .seq fun _ => .bind (readS_memWf a h.1) fun ⟨_, _⟩ h1 => .bind (readS_memWf b h1) fun ⟨x, _⟩ h2 =>
      .seq fun _ => .seq fun _ => .bind (sendBlock_memWf x (freeS_memWf b (freeS_memWf a h2))) fun ⟨_, _⟩ h3 =>
      .ite (ownSpawn_canonical _ _ h h3) (irrevocable_canonical _ _ h h3)

theorem execLaunch_canonical (a : Src) (h : Canonical s) : NextCanonical (execLaunch a s) :=
  finish_canonical h <| .seq fun _ => .bind (readS_memWf a h.1) fun ⟨x, _⟩ h1 => .bind (sendBlock_memWf x (freeS_memWf a h1)) fun ⟨_, _⟩ h2 =>
    .seq fun _ => .seq fun _ => .seq fun _ => setMe_canonical h h2

theorem setCounter_memWf (k : Nat) (v : W64) (h : c.memWf = true) : (c.setCounter k v).memWf = true := h

theorem count_memWf (k n : Nat) (h : c.memWf = true) : (c.count k n).memWf = true := h

theorem execStealc_canonical (d : BitVec 6) (w : BitVec 3) (clr : Bool) (h : Canonical s) : NextCanonical (execStealc d w clr s) := by
  refine coreOp_canonical h (.seq fun _ => .seq fun _ => writeS_memWf _ _ ?_)
  split
  · exact setCounter_memWf _ _ h.1
  · exact h.1

/-! ### Local time -/

theorem logLinks_memWf (h : c.memWf = true) : c.logLinks.memWf = true := by
  unfold Core.logLinks
  split <;> exact h

theorem changeMail_memWf (old : Core) (h : c.memWf = true) : KeepsMem (changeMail old c) :=
  .bind (changeBank_memWf old 15 h) fun _ h => h

theorem ltConfig_memWf (w : W64) (h : c.memWf = true) : OkAll (fun r => r.1.memWf = true) (ltConfig s w c) := by
  have htouch : ∀ x, OkAll (fun r : Core × StsCode => r.1.memWf = true) ((touchOnly c [15]).map fun c => (c, x)) := fun _ =>
    (touchOnly_memWf [15] h).map fun _ h => h
  have hchange : ∀ e : Core, e.memWf = true → OkAll (fun r : Core × StsCode => r.1.memWf = true) ((changeMail c e).map fun c => (c, StsCode.ok)) :=
    fun _ he => (changeMail_memWf c he).map fun _ h => h
  unfold ltConfig
  extract_lets en dper
  split
  · split
    · exact hchange _ h
    · exact htouch _
  · split
    · exact hchange _ h
    · split
      · split
        · exact htouch _
        · exact hchange _ h
      · exact htouch _

theorem execLtcfg_canonical (d : BitVec 6) (a : Src) (h : Canonical s) : NextCanonical (execLtcfg d a s) :=
  finish_canonical h <| .seq fun _ => .seq fun _ => .seq fun _ => .bind (readS_memWf a h.1) fun ⟨w, _⟩ h1 => .seq fun _ =>
    .bind (ltConfig_memWf w (claimBank_memWf s.me.act.ctx 15 (freeS_memWf a h1))) fun ⟨_, _⟩ h2 =>
      .bind (writeS_memWf _ _ h2) fun _ h3 => setMe_canonical h h3

theorem execLtlink_canonical (out : Bool) (slot : BitVec 4) (a b : Src) (h : Canonical s) : NextCanonical (execLtlink out slot a b s) :=
  coreOp_canonical h <| .seq fun _ => .seq fun _ => .bind (readS_memWf a h.1) fun ⟨_, _⟩ h1 => .bind (readS_memWf b h1) fun ⟨_, _⟩ h2 => .seq fun _ =>
    .seq fun _ => .seq fun _ => .seq fun _ => logLinks_memWf (freeS_memWf b (freeS_memWf a h2))

theorem execLtsend_canonical (slot : BitVec 4) (a b e : Src) (h : Canonical s) : NextCanonical (execLtsend slot a b e s) := by
  refine finish_canonical h (.seq fun _ => .seq fun _ => .bind (readS_memWf a h.1) fun ⟨_, _⟩ h1 => .bind (readS_memWf b h1) fun ⟨_, _⟩ h2 =>
    .bind (readS_memWf e h2) fun ⟨_, _⟩ h3 => .seq fun _ => ?_)
  split
  · trivial
  · exact .seq fun _ => .seq fun _ => outMsg_canonical _ _ _ _ h (freeS_memWf e (freeS_memWf b (freeS_memWf a h3)))

theorem execLtdrip_canonical (all : Bool) (slot : BitVec 4) (a : Src) (h : Canonical s) : NextCanonical (execLtdrip all slot a s) := by
  refine coreOp_canonical h (.seq fun _ => .seq fun _ => .bind (readS_memWf a h.1) fun ⟨x, c1⟩ h1 => .seq fun _ => .seq fun _ => .seq fun _ => ?_)
  have hlog : ∀ b : Bool, (if b then freeS a c1 else (freeS a c1).logLinks).memWf = true := fun b => by
    split
    · exact freeS_memWf a h1
    · exact logLinks_memWf (freeS_memWf a h1)
  refine foldl_keeps (fun c : Core => c.memWf = true) (fun c j h => ?_) _ (hlog _)
  split
  · exact h
  · exact h

theorem execLtclk_canonical (d : BitVec 6) (h : Canonical s) : NextCanonical (execLtclk d s) :=
  coreOp_canonical h <| .seq fun _ => .seq fun _ => produce_memWf _ _ _ h.1

theorem execLtqry_canonical (d : BitVec 6) (a : Src) (h : Canonical s) : NextCanonical (execLtqry d a s) := by
  refine coreOp_canonical h (.seq fun _ => .seq fun _ => .bind (readS_memWf a h.1) fun ⟨x, c1⟩ h1 => .seq fun _ => ?_)
  split
  · trivial
  · exact writeS_memWf _ _ (freeS_memWf a h1)

end Sys2Proof.Machine
end

