-- ==== Sys2Proof/Proofs/CanonicalSystem.lean ====
section
/-! Canonical memories through control words, the clock of a core, halts, and record and replay (spec/05 R144 to R149, spec/20 R393 to R400). -/

namespace Sys2Proof.Machine

open Safety

variable {c : Core} {s t : State}

/-! ### Control words, clock and readings -/

theorem execGetc_canonical (d : BitVec 6) (w : Cw) (h : Canonical s) : NextCanonical (execGetc d w s) :=
  coreOp_canonical h <| .seq fun _ => writeS_memWf _ _ h.1

theorem execSetc_canonical (w : Cw) (a : Src) (h : Canonical s) : NextCanonical (execSetc w a s) :=
  coreOp_canonical h <| .seq fun _ => .seq fun _ => .bind (readS_memWf a h.1) fun ⟨_, _⟩ h1 => .seq fun _ => freeS_memWf a h1

theorem deliverDue_memWf (h : c.memWf = true) : c.deliverDue.memWf = true :=
  memWf_foldl (fun (c : Core) (r : Pend) => c.deliver (BitVec.ofNat 6 r.d) r.val) (fun _ _ h => deliver_memWf _ _ h) _
    (c := { c with pend := c.pend.filter fun r => !decide (r.due ≤ c.clk) }) h

theorem passClk_canonical (n : Nat) (h : Canonical s) : Canonical (s.passClk n) := by
  unfold State.passClk
  extract_lets c1 bud _ c2 c3
  have h2 : c2.memWf = true := h.1
  have h3 : c3.memWf = true := by
    unfold c3
    split
    · exact count_memWf _ _ h2
    · exact h2
  exact chargeClk_canonical _ _ (setMe_canonical h (deliverDue_memWf h3))

theorem catchUp_canonical (h : Canonical s) : Canonical s.catchUp := by
  unfold State.catchUp
  simp only
  split
  · exact h
  · exact passClk_canonical _ h

theorem execTime_canonical (d : BitVec 6) (h : Canonical s) : NextCanonical (execTime d s) :=
  coreOp_canonical h <| .seq fun _ => produce_memWf _ _ _ h.1

theorem execCyc_canonical (d : BitVec 6) (h : Canonical s) : NextCanonical (execCyc d s) :=
  coreOp_canonical h <| .seq fun _ => writeS_memWf _ _ h.1

theorem execEnrg_canonical (d : BitVec 6) (h : Canonical s) : NextCanonical (execEnrg d s) := by
  have hs := onCores_canonical (s.ctx s.me.act.ctx.toNat).coreList (fun _ h => catchUp_canonical h) h
  unfold execEnrg
  refine coreOp_canonical hs ?_
  exact .seq fun _ => writeS_memWf _ _ hs.1

/-! ### ERET, halts and BKPT -/

theorem endHandler_canonical (b : Bool) (h : Canonical s) : Canonical (s.endHandler b) := endIdle_canonical (setMe_canonical h h.1)

theorem execEret_canonical (b : Bool) (h : Canonical s) : NextCanonical (execEret b s) := by
  refine finish_canonical h (.seq fun _ => .seq fun _ => .seq fun _ => ?_)
  extract_lets s1 _ s2
  have h1 : Canonical s1 := onCores_canonical _ (fun _ h => endBy_canonical _ h) h
  have h2 : Canonical s2 := setMe_canonical h1 h1.1
  change Canonical _
  split
  · exact endHandler_canonical b h2
  · exact linkMates_canonical _ (endHandler_canonical b h2)

theorem halt_memWf (w : Why) (h : c.memWf = true) : (c.halt w).memWf = true := h

theorem haltAll_canonical (x k : Nat) (w : Why) (h : Canonical s) : Canonical (s.haltAll x k w) := by
  refine onCores_canonical _ (fun s h => ?_) h
  extract_lets s1
  have h1 : Canonical s1 := by
    unfold s1
    split
    · exact h
    · exact stopEngines_canonical h
  exact setMe_canonical h1 (halt_memWf _ h1.1)

theorem lineBreak_canonical (k : Nat) (pc : Option W64) (j off n : Nat) (h : Canonical s) : Canonical (s.lineBreak k pc j off n) := by
  unfold State.lineBreak
  extract_lets c x on
  split
  · exact h
  · split
    · exact h
    · split
      · exact h
      · exact haltAll_canonical _ _ _ h

theorem execBkpt_canonical (code : BitVec 6) (h : Canonical s) : NextCanonical (execBkpt code s) := by
  unfold execBkpt
  simp only
  split
  · split
    · exact h
    · exact haltAll_canonical _ _ _ h
  · exact finish_canonical h trivial

theorem execTrace_canonical (a : Src) (tag : BitVec 24) (h : Canonical s) : NextCanonical (execTrace a tag s) :=
  coreOp_canonical h <| .seq fun _ => .bind (readS_memWf a h.1) fun ⟨_, _⟩ h1 => freeS_memWf a h1

theorem execIllop_canonical (enc : W64) (h : Canonical s) : NextCanonical (execIllop enc s) := finish_canonical h trivial

theorem execSequentialFlowBadtgt_canonical (k : Nat) (h : Canonical s) : NextCanonical (execSequentialFlowBadtgt k s) := by
  unfold execSequentialFlowBadtgt
  split
  · simp only
    split
    · exact focus_canonical _ (takeTrap_canonical _ (focus_canonical k h))
    · exact h
  · trivial

/-! ### Record and replay -/

theorem diverge_canonical (x : BitVec 8) (l : Option (BitVec 8)) (k : Nat) (w : W64) (h : Canonical s) : Canonical (s.diverge x l k w) :=
  haltAll_canonical _ _ _ (notice_canonical _ _ _ _ _ _ _ _ _ h)

theorem arrive_canonical (k : Nat) (task : Bool) (m : Msg) (h : Canonical s) : Canonical (s.arrive k task m) := by
  unfold State.arrive
  extract_lets x src known
  split
  · exact h
  · split
    · exact h
    · exact diverge_canonical _ _ _ _ h

theorem recordDispatch_canonical (src : Source) (m : Msg) (x : BitVec 8) (tid : W64) (h : Canonical s) :
    SomeAll Canonical (s.recordDispatch src m x tid) := by
  unfold State.recordDispatch
  extract_lets _ s1
  have h1 : Canonical s1 := setMe_canonical h h.1
  clear_value s1
  split
  · exact tracePut_canonical _ _ h1
  · exact h1

end Sys2Proof.Machine
end

