-- ==== Sys2Proof/Proofs/CanonicalLaunches.lean ====
section
/-! Canonical memories through the launch sequencer: images, leases, waves (spec/17 R363 to R367, spec/15 R332 to R334). -/

namespace Sys2Proof.Machine

open Safety

variable {c : Core} {s t : State}

/-! ### The code image -/

theorem readImage_canonical (x : Nat) (w : W64) (h : Canonical s) : Canonical (s.readImage x w) := by
  unfold State.readImage
  split
  · exact h
  · exact readHandle_canonical _ _ _ _ h

/-- The instruction store replaced by a canonical one. -/
theorem setImem_memWf {m : Mem} (l : List (Nat × W64 × W64)) (b : Bool) (h : c.memWf = true) (hm : m.wf = true) :
    Core.memWf { c with imem := m, handlers := l, loaded := b } = true := by
  rw [memWf_iff] at h ⊢
  exact ⟨h.1, hm, h.2.2⟩

theorem imageLines_wf (pa : Nat) : (s.imageLines pa).wf = true := Mem.wf_put _ _ rfl

theorem loadCode_canonical (pa k : Nat) (h : Canonical s) : Canonical (s.loadCode pa k) :=
  setCore_canonical _ h (setImem_memWf _ _ (core_memWf k h) (imageLines_wf pa))

theorem ite_memWf {p : Prop} [Decidable p] {d : Core} (h : c.memWf = true) (hd : d.memWf = true) : (if p then c else d).memWf = true := by
  split
  · exact h
  · exact hd

theorem applyData_memWf (x : BitVec 8) (off : Nat) (bs : List Byte) (h : c.memWf = true) : (c.applyData x off bs).1.memWf = true := by
  refine foldl_keeps (fun r : Core × Bool => r.1.memWf = true) (fun r y h => ?_) _ h
  simp only
  split
  · exact poke_memWf _ _ (claimAll_memWf _ _ _ h)
  · exact h

theorem setAct_memWf (a : Act) (h : c.memWf = true) : Core.memWf { c with act := a } = true := h

/-- A bank zeroed and given to a context. -/
theorem freshBank_memWf (x : BitVec 8) (b : Nat) (h : c.memWf = true) :
    ((c.zeroBank b).setBank b { Bank.reset .array with owner := x }).memWf = true :=
  memWf_congr (zeroBank_memWf b h) rfl rfl rfl

theorem emptyBank_memWf (x : BitVec 8) (b : Nat) (h : c.memWf = true) : (c.emptyBank x b).memWf = true := by
  have h1 := claimLines_memWf x b h
  unfold Core.emptyBank
  refine ite_memWf h (freshBank_memWf _ _ (ite_memWf h1 (setAct_memWf _ ?_)))
  exact respan_memWf _ 1 h1

theorem applyBank_memWf (x : BitVec 8) (b : Nat) (w : W64) (h : c.memWf = true) : (c.applyBank x b w).1.memWf = true := by
  have h1 := claimLines_memWf x b h
  unfold Core.applyBank
  extract_lets c1 q count items
  have h1 : c1.memWf = true := h1
  split
  · exact h
  · split
    · exact h1
    · split
      · exact h1
      · exact rebuilt_memWf _ _ _ _ h1

theorem applyBlocks_memWf (x : BitVec 8) (bs : List DataBlock) (h : c.memWf = true) : (c.applyBlocks x bs).1.memWf = true := by
  refine foldl_keeps (fun r : Core × Bool => r.1.memWf = true) (fun r b h => ?_) _
    (foldl_keeps (fun r : Core × Bool => r.1.memWf = true) (fun r b h => ?_) _ (foldl_keeps (fun c : Core => c.memWf = true) (fun c b h => ?_) _ h))
  · split
    · exact applyBank_memWf _ _ _ h
    · exact h
  · split
    · exact applyData_memWf _ _ _ h
    · exact h
  · split
    · exact emptyBank_memWf _ _ h
    · exact h

/-! ### Leases -/

theorem undeliv_canonical (k : Nat) (m : Msg) (n : Nat) (h : Canonical s) : Canonical (s.undeliv k m n) := notice_canonical _ _ _ _ _ _ _ _ _ h

theorem leaveLT_canonical (h : Canonical s) : Canonical s.leaveLT := by
  unfold State.leaveLT
  split
  · exact h
  · exact foldl_canonical _ (fun _ _ h => undeliv_canonical _ _ _ h) _ h

theorem startLoading_canonical (r : Nat) (x l : BitVec 8) (h : Canonical s) : Canonical (s.startLoading r x l) :=
  onCores_canonical _ (fun _ h => leaveLT_canonical (setMe_canonical h h.1)) (setLease_canonical _ _ h)

theorem nextAssign_canonical (r : Nat) (x : BitVec 8) (h : Canonical s) : Canonical (s.nextAssign r x) := by
  unfold State.nextAssign
  simp only
  split
  · exact h
  · split
    · exact startLoading_canonical _ _ _ (setLease_canonical _ _ h)
    · split
      · exact setLease_canonical _ _ h
      · exact h
    · exact h

theorem assign_canonical (x l : BitVec 8) (r : Nat) (h : Canonical s) : Canonical (s.assign x l r) :=
  nextAssign_canonical _ _ (setLease_canonical _ _ h)

theorem execLeaseDrained_canonical (cl r : Nat) (h : Canonical s) : NextCanonical (execLeaseDrained cl r s) := by
  unfold execLeaseDrained
  split
  · extract_lets k l done
    split
    · split
      · exact startLoading_canonical _ _ _ h
      · exact h
    · split
      · exact nextAssign_canonical _ _ (setLease_canonical _ _ h)
      · exact h
    · exact h
  · trivial

theorem rowLoaded_canonical (r : Nat) (l : Lease) (pa : Nat) (bs : List DataBlock) (h : Canonical s) : Canonical (s.rowLoaded r l pa bs) := by
  have h1 : Canonical ((rowCores r).foldl (fun s k => s.loadCode pa k) s) := foldl_canonical _ (fun _ _ h => loadCode_canonical _ _ h) _ h
  refine nextAssign_canonical _ _ (setLease_canonical _ _ (foldl_canonical _ (fun s k h => ?_) _ h1))
  have hy := applyBlocks_memWf l.ctx bs (core_memWf k h)
  extract_lets c y _ _ s1
  have h2 : Canonical s1 := setCore_canonical k h hy
  clear_value s1
  split
  · exact h2
  · exact mapLaunch_canonical _ _ _ h2

theorem execLeaseLoaded_canonical (cl r : Nat) (h : Canonical s) : NextCanonical (execLeaseLoaded cl r s) := by
  unfold execLeaseLoaded
  split
  · extract_lets k l
    split
    · split
      · exact nextAssign_canonical _ _ (setLease_canonical _ _ h)
      · extract_lets img s1
        have h1 : Canonical s1 := readImage_canonical _ _ h
        clear_value s1
        split
        · change Canonical _
          split
          · exact killFor_canonical _ _ _ _ h1
          · exact rowLoaded_canonical _ _ _ _ h1
        · exact killFor_canonical _ _ _ _ h1
        · exact h1
    · exact h
  · trivial

/-! ### Launch records -/

theorem submit_canonical (die : Nat) (m : Msg) (k q : Nat) (h : Canonical s) : Canonical (s.submit die m k q).1 := by
  unfold State.submit
  extract_lets w x l s1 n s2
  have h1 : Canonical s1 := readImage_canonical _ _ h
  have h2 : Canonical s2 := by
    unfold s2
    generalize s1.hread x.toNat (w 5) 0 n false = pa
    cases pa with
    | none => exact h1
    | some pa => exact readHandle_canonical _ _ _ _ h1
  clear_value s2
  split
  · exact h2
  · split
    · exact doneBlock_canonical _ _ _ _ _ _ h2
    · refine foldl_canonical _ (fun _ _ h => assign_canonical _ _ _ h) _ ?_
      obtain ⟨hme, ho, hi, hr⟩ := h2
      exact ⟨hme, AllWf.map ho fun _ hp => hp, AllWf.map hi fun _ hp => hp, hr⟩

theorem countRecv_memWf (x l : BitVec 8) (n : Nat) (h : c.memWf = true) : (c.countRecv x l n).memWf = true := h

theorem execTaskRecordPush_canonical (x l : Nat) (h : Canonical s) : NextCanonical (execTaskRecordPush x l s) := by
  unfold execTaskRecordPush
  extract_lets a b room
  split
  · exact h
  · split
    · exact h
    · split
      next k m _ =>
        have hc := claimBank_memWf a 14 (core_memWf k h)
        exact arrive_canonical _ _ _ (mapLaunch_canonical _ _ _ (setCore_canonical k h (countRecv_memWf _ _ _ hc)))

/-! ### Completion waves -/

theorem execWaveStart_canonical (x l : Nat) (h : Canonical s) : NextCanonical (execWaveStart x l s) := by
  unfold execWaveStart
  simp only
  split
  · exact mapLaunch_canonical _ _ _ h
  · exact h

theorem execWaveCombine_canonical (x l : Nat) (h : Canonical s) : NextCanonical (execWaveCombine x l s) := by
  unfold execWaveCombine
  extract_lets a b
  split
  · exact h
  · split
    · exact h
    · split
      · exact mapLaunch_canonical _ _ _ h
      · extract_lets stalled s1
        have h1 : Canonical s1 := by
          unfold s1
          split
          · exact diverge_canonical _ _ _ _ h
          · exact h
        exact mapLaunch_canonical _ _ _ h1

theorem execReleaseMark_canonical (k : Nat) (h : Canonical s) : NextCanonical (execReleaseMark k s) := by
  refine coreEvent_canonical (fun s h => ?_) h
  split
  · trivial
  · exact mapLaunch_canonical _ _ _ (setMe_canonical h h.1)

theorem execDoneBlockWrite_canonical (x l : Nat) (h : Canonical s) : NextCanonical (execDoneBlockWrite x l s) := by
  unfold execDoneBlockWrite
  extract_lets a b
  split
  · exact h
  · split
    · exact doneBlock_canonical _ _ _ _ _ _ h
    · exact h

end Sys2Proof.Machine
end

