-- ==== Sys2Proof/Proofs/CanonicalChannels.lean ====
section
/-! Canonical memories through the channels and the Commit step (spec/03 R67 to R72, spec/17 R343 to R346, R368, R369). -/

namespace Sys2Proof.Machine

open Safety

variable {c : Core} {s t : State}

/-- The state that comes with an answer, if there is an answer, is canonical. -/
def AnsCanonical {α : Type} : Option (State × α) → Prop := SomeAll fun r => Canonical r.1

theorem AnsCanonical.mapState {α β : Type} {x : Option (State × α)} {f : State × α → State × β} (hx : AnsCanonical x)
    (hf : ∀ r, Canonical r.1 → Canonical (f r).1) : AnsCanonical (x.map f) := SomeAll.map hx hf

theorem AnsCanonical.of_eq {α : Type} {x : Option (State × α)} {r : State × α} (hx : AnsCanonical x) (e : x = some r) : Canonical r.1 := by
  subst e; exact hx

/-! ### Packets -/

theorem answer_canonical (k : Nat) (p : Packet) (b : Body) (h : Canonical s) : Canonical (s.answer k p b) := by
  have h := chargeHops_canonical p.ctx p.src p.dst h
  exact h

theorem depart_canonical (k : Nat) (p : Packet) (q : Nat) (h : Canonical s) : Canonical (s.depart k p q) := by
  unfold State.depart
  split
  · exact h
  · split
    · exact h
    · extract_lets port _ s1 s2
      have h1 : Canonical s1 := h
      have h2 : Canonical s2 := charge_canonical _ _ _ h1
      clear_value s2
      split
      · exact h
      · exact h2

theorem incoming_canonical (p : Packet) (h : Canonical s) : Canonical (s.incoming p) := by
  unfold State.incoming
  extract_lets p
  split
  · split
    · exact h
    · exact h
  · split
    · split
      · exact h
      · exact h
    · split
      · exact h
      · exact h

theorem execFlitReceive_canonical (port : Nat) (x : FlitIn) (h : Canonical s) : NextCanonical (execFlitReceive port x s) := by
  unfold execFlitReceive
  split
  · extract_lets f q s1
    have h1 : Canonical s1 := setPort_canonical _ _ h
    split
    · exact h
    · split
      · exact setPort_canonical _ _ h
      · split
        · split
          · exact incoming_canonical _ (setPort_canonical _ _ h1)
          · exact h1
        · exact h1
  · trivial

theorem receive_canonical (k : Nat) (p : Packet) {f : State → Option (State × Body)} (hf : AnsCanonical (f s)) (h : Canonical s) :
    Canonical (s.receive k p f) := by
  unfold State.receive
  split
  · exact h
  · exact h
  · split
    · exact h
    next e => exact answer_canonical _ _ _ (AnsCanonical.of_eq hf e)

theorem packetEvent_canonical {k : Nat} {f : Packet → State → State} (hf : ∀ p, Canonical (f p s)) (h : Canonical s) :
    NextCanonical (packetEvent k f s) := by
  unfold packetEvent
  split
  · exact h
  · split
    · exact depart_canonical _ _ _ h
    · exact hf _

/-! ### Release -/

theorem releaseFrom_canonical (pkg seg : Nat) (l : List OutItem) (k : Nat) (h : Canonical s) : Canonical (releaseFrom pkg seg l k s).2 := by
  induction l generalizing k s with
  | nil => exact h
  | cons i l ih =>
    unfold releaseFrom
    split
    · split
      · exact ih _ (send_canonical _ _ h)
      · exact ih _ h
    · exact ih _ h

theorem execReleaseEntries_canonical (k : Nat) (h : Canonical s) : NextCanonical (execReleaseEntries k s) := by
  refine coreEvent_canonical (fun s h => ?_) h
  split
  · trivial
  next g gs _ =>
    split
    · have h1 := releaseFrom_canonical s.pkgid.toNat g.d.id g.d.out 0 h
      exact setMe_canonical h1 h1.1
    · trivial

/-! ### Landing -/

theorem stage_canonical (g : Staged) (h : Canonical s) : Canonical { s with staged := s.staged ++ [g] } := h

theorem landMail_canonical (p : Packet) (seg i k : Nat) (m : Msg) (e : OutEntry) (f : Fate) (no : Nat → Report) (h : Canonical s) :
    AnsCanonical (s.landMail p seg i k m e f no) := by
  unfold State.landMail
  extract_lets ok
  split
  · exact stage_canonical _ (setCore_canonical _ h (claimBank_memWf _ _ (core_memWf k h)))
  · split
    · trivial
    · refine .ite trivial (stage_canonical _ (clearPoison_canonical _ _ (physPut_canonical _ _ h)))
  · exact h

theorem arriveIf_canonical (b : Bool) (k : Nat) (task : Bool) (m : Msg) (h : Canonical s) : Canonical (if b then s.arrive k task m else s) := by
  split
  · exact arrive_canonical _ _ _ h
  · exact h

theorem land_canonical (p : Packet) (seg i : Nat) (e : OutEntry) (h : Canonical s) : AnsCanonical (s.land p seg i e) := by
  unfold State.land
  extract_lets ok
  have hok : ∀ s, Canonical s → AnsCanonical (ok s) := fun s h => h
  clear_value ok
  split
  · refine .ite trivial ?_
    next x _ _ tag _ =>
      extract_lets s1
      have h1 : Canonical s1 := readHome_canonical x 64 tag h
      clear_value s1
      split
      · exact h1
      · exact hok _ h1
  · refine .ite trivial ?_
    extract_lets f
    exact (landMail_canonical p seg i _ _ _ f _ h).mapState fun _ h => arriveIf_canonical _ _ _ _ h
  · refine .ite trivial ?_
    extract_lets f
    exact (landMail_canonical p seg i _ _ _ f _ h).mapState fun _ h => arriveIf_canonical _ _ _ _ h
  · exact hok _ h
  · trivial
  · trivial

theorem execLandEntry_canonical (k : Nat) (h : Canonical s) : NextCanonical (execLandEntry k s) := by
  unfold execLandEntry
  split
  · exact h
  · split
    · split
      · exact answer_canonical _ _ _ h
      · exact receive_canonical _ _ (land_canonical _ _ _ _ h) h
    · exact packetEvent_canonical (fun _ => receive_canonical _ _ (land_canonical _ _ _ _ h) h) h
    · exact h

/-! ### Acknowledgement and refusal -/

theorem migrRefused_canonical (n : Nat) (r : Report) (h : Canonical s) : Canonical (s.migrRefused n r) := by
  have h1 := rollBack_canonical (s.me.closing.length - n) true h
  refine notice_canonical _ _ _ _ _ _ _ _ _ (setMe_canonical h1 (begun_memWf ?_))
  exact memWf_congr h1.1 rfl rfl rfl

theorem refused_canonical (seg : Nat) (migr : Bool) (r : Report) (h : Canonical s) : Canonical (s.refused seg migr r) := by
  unfold State.refused
  extract_lets n
  split
  · exact h
  · split
    · exact migrRefused_canonical _ _ h
    · exact takeBack_canonical _ _ h

theorem execEntryAck_canonical (k : Nat) (h : Canonical s) : NextCanonical (execEntryAck k s) := by
  refine packetEvent_canonical (fun p => ?_) h
  split
  · exact h
  · refine onCore_canonical _ (fun s h => ?_) h
    split
    · exact h
    · extract_lets _ c s1
      have h1 : Canonical s1 := setMe_canonical h h.1
      clear_value s1
      split
      · exact h1
      · exact refused_canonical _ _ _ h1
  · exact h

/-! ### Publication -/

theorem deliverMail_canonical (k : Nat) (m : Msg) (r : Option MigrRec) (h : Canonical s) : Canonical (s.deliverMail k m r) := by
  have hc := core_memWf k h
  unfold State.deliverMail
  extract_lets c l m' c1
  have h1 : c1.memWf = true := countRecv_memWf _ _ _ hc
  clear_value c1
  split
  · split
    · exact setCore_canonical _ h hc
    · exact undeliv_canonical _ _ _ h
  · split
    · exact undeliv_canonical _ _ _ (setCore_canonical _ h h1)
    · exact setCore_canonical _ h h1

theorem spilled_canonical (x : Nat) (e : Spilled) (h : Canonical s) : Canonical (s.spilled x e) := setCtx_canonical _ _ h

/-- A store published in core k. -/
theorem publishOwn_canonical (x : BitVec 8) (k b n : Nat) (l : Line) (m : W64) (h : Canonical s) :
    Canonical (s.setCore k (((s.core k).claimBank x b).publish x n l m)) :=
  setCore_canonical _ h (publish_memWf _ _ _ _ (claimBank_memWf _ _ (core_memWf k h)))

theorem publishEntry_canonical (g : Staged) (h : Canonical s) : Canonical (s.publishEntry g) := by
  unfold State.publishEntry
  extract_lets x
  split
  · exact lineBreak_canonical _ _ _ _ _ (charge_canonical _ _ _ (publishOwn_canonical _ _ _ _ _ _ h))
  · extract_lets s1 l s2
    have h1 : Canonical s1 := by
      unfold s1
      split
      · exact h
      · exact readSectors_canonical _ _ _ h
    have h2 : Canonical s2 := physPut_canonical _ _ h1
    clear_value s2
    refine charge_canonical _ _ _ ?_
    split
    · exact clearPoison_canonical _ _ h2
    · exact h2
  · exact physPut_canonical _ _ h
  · exact h
  · exact h
  · split
    · exact spilled_canonical _ _ h
    · split
      · exact undeliv_canonical _ _ _ (setCore_canonical _ h (countRecv_memWf _ _ _ (core_memWf _ h)))
      · exact deliverMail_canonical _ _ _ h
  · split
    · exact spilled_canonical _ _ h
    · exact deliverMail_canonical _ _ _ h
  · exact submit_canonical _ _ _ _ h
  · exact h
  · exact h

theorem foldOut_canonical (k : Nat) (d : SegData) (h : Canonical s) : Canonical (s.foldOut k d) := by
  unfold State.foldOut
  extract_lets fix c s1
  have h1 : Canonical s1 := setCore_canonical _ h (core_memWf k h)
  exact h1

theorem execCommitNoticeServe_canonical (k : Nat) (h : Canonical s) : NextCanonical (execCommitNoticeServe k s) := by
  refine packetEvent_canonical (fun p => ?_) h
  split
  · refine receive_canonical _ _ ?_ h
    extract_lets mine gs s1
    have h1 : Canonical s1 := foldl_canonical _ (fun _ g h => publishEntry_canonical g h) _ h
    clear_value s1
    refine .ite trivial ?_
    change Canonical (if _ then _ else _)
    split
    · exact foldOut_canonical _ _ h1
    · exact h1
  · exact h

theorem execCommitComplete_canonical (k : Nat) (h : Canonical s) : NextCanonical (execCommitComplete k s) := by
  refine coreEvent_canonical (fun s h => ?_) h
  split
  · trivial
  · exact .ite h trivial

theorem execAbortNoticeServe_canonical (k : Nat) (h : Canonical s) : NextCanonical (execAbortNoticeServe k s) := by
  refine packetEvent_canonical (fun p => ?_) h
  split
  · exact receive_canonical _ _ h h
  · exact h

theorem execDripLand_canonical (k : Nat) (h : Canonical s) : NextCanonical (execDripLand k s) := by
  refine packetEvent_canonical (fun p => ?_) h
  split
  · extract_lets s1
    have h1 : Canonical s1 := h
    split
    · exact setCore_canonical _ h1 (mapLT_memWf _ (core_memWf _ h1))
    · exact h1
  · exact h

/-! ### The Commit step -/

theorem countSent_memWf (l : BitVec 8) (n : Nat) (h : c.memWf = true) : (c.countSent l n).memWf = true := h

theorem countSeg_memWf (d : SegData) (h : c.memWf = true) : (c.countSeg d).memWf = true := by
  unfold Core.countSeg
  extract_lets c1 mine c2
  have h1 : c1.memWf = true := by
    refine memWf_foldl _ (fun c i h => ?_) _ h
    split
    · exact countSent_memWf _ _ h
    · exact h
  have h2 : c2.memWf = true := memWf_foldl _ (fun c r h => countRecv_memWf _ _ _ (countSent_memWf _ _ h)) _ h1
  exact h2

theorem settleSeg_memWf (id : Nat) (h : c.memWf = true) : (c.settleSeg id).memWf = true := h

theorem wakeThieves_canonical (h : Canonical s) : Canonical s.wakeThieves := by
  obtain ⟨hme, ho, hrest⟩ := h
  refine ⟨hme, fun p hp => ?_, hrest⟩
  obtain ⟨q, hq, rfl⟩ := List.mem_map.1 hp
  split
  · exact ho q hq
  · exact ho q hq

theorem commitOne_canonical (h : Canonical s) : Canonical s.commitOne := by
  unfold State.commitOne
  split
  · exact h
  next g gs _ =>
    extract_lets c ts before pushed c1 c2 x s1 s2 s3 s4 s5 s6 n _ s7
    have hc1 : c1.memWf = true := settleSeg_memWf _ (countSeg_memWf _ h.1)
    have hc2 : c2.memWf = true := memWf_congr hc1 rfl rfl rfl
    have h1 : Canonical s1 := putTraces_canonical _ (setMe_canonical h hc2)
    have h2 : Canonical s2 := foldl_canonical _ (fun _ _ h => send_canonical _ _ h) _ h1
    have h3 : Canonical s3 := by
      refine foldl_canonical _ (fun s i h => ?_) _ h2
      split
      · exact deliverMail_canonical _ _ _ (setMe_canonical h (claimBank_memWf _ _ h.1))
      · exact h
    have h4 : Canonical s4 := sendDrips_canonical _ h3
    have h5 : Canonical s5 := by
      unfold s5
      split
      · exact raiseA_canonical _ h4
      · exact h4
    have h6 : Canonical s6 := by
      unfold s6
      split
      · exact wakeThieves_canonical h5
      · exact h5
    have h7 : Canonical s7 := charge_canonical _ _ _ (setCtx_canonical _ _ h6)
    split
    · exact h7
    · exact retire_canonical _ h7
    · exact returnFrame_canonical _ h7

theorem rollBad_canonical (h : Canonical s) : SomeAll Canonical s.rollBad := by
  unfold State.rollBad
  split
  · trivial
  next g _ =>
    cases g.d.bad with
    | none => trivial
    | some r => exact takeBack_canonical _ _ h

theorem execCommit_canonical (k : Nat) (h : Canonical s) : NextCanonical (execCommit k s) := by
  refine coreEvent_canonical (fun s h => ?_) h
  split
  next e => exact (rollBad_canonical h).of_eq e
  · split
    · trivial
    · exact .ite (onCores_canonical _ (fun _ h => commitOne_canonical h) h) trivial

end Sys2Proof.Machine
end

