-- ==== Sys2Proof/Proofs/CanonicalServe.lean ====
section
/-! Canonical memories through gangs, requests at their homes and replies (spec/14 R296 to R303, spec/07 R183 to R189, spec/05 R138, R139). -/

namespace Sys2Proof.Machine

open Safety

variable {c : Core} {s t : State}

/-! ### Gangs -/

theorem formGang_canonical (n : Nat) (ms : List Nat) (h : Canonical s) : Canonical (s.formGang n ms) := by
  unfold State.formGang
  extract_lets l _ s1
  have h1 : Canonical s1 := onCores_canonical _ (fun _ h => setMe_canonical h (begun_memWf (memWf_congr h.1 rfl rfl rfl))) h
  exact setMe_canonical h1 h1.1

theorem gangResult_canonical (d : BitVec 6) (a : Src) (v : W64) (x : StsCode) (h : Canonical s) : OkAll Canonical (gangResult s d a v x) :=
  .bind (readS_memWf a h.1) fun ⟨_, _⟩ h1 => .bind (writeS_memWf d v (freeS_memWf a h1)) fun _ h2 => setMe_canonical h (retireCore_memWf h2)

theorem reserve_canonical (ks : List Nat) (r : Option Nat) (h : Canonical s) :
    Canonical (onCores ks (fun s => { s with me := { s.me with reserved := r } }) s) :=
  onCores_canonical _ (fun _ h => setMe_canonical h h.1) h

theorem gangStart_canonical (d : BitVec 6) (a : Src) (n : Nat) (ms : List Nat) (h : Canonical s) : OkAll Canonical (gangStart s d a n ms) := by
  refine .ite ?_ (.bind (gangResult_canonical _ _ _ _ (formGang_canonical _ _ h)) fun s h =>
    onCores_canonical _ (fun _ h => setMe_canonical h (begun_memWf h.1)) h)
  have h1 := reserve_canonical ms (some s.me.id) h
  exact setMe_canonical h1 h1.1

theorem execGang_canonical (d : BitVec 6) (a : Src) (size : BitVec 2) (h : Canonical s) : NextCanonical (execGang d a size s) := by
  refine finish_canonical h (.seq fun _ => .seq fun _ => .seq fun _ => .seq fun ⟨x, _⟩ => ?_)
  extract_lets range
  cases gangMembers s.cur size.toNat with
  | none => trivial
  | some ms =>
    refine .seq fun _ => .ite (gangResult_canonical _ _ _ _ h) (.ite (gangStart_canonical _ _ _ _ h) ?_)
    have h1 := reserve_canonical ms (some s.me.id) h
    exact setMe_canonical h1 h1.1

theorem execGangForm_canonical (k : Nat) (h : Canonical s) : NextCanonical (execGangForm k s) := by
  refine coreEvent_canonical (fun s h => ?_) h
  split
  next w d a size _ _ =>
    refine .ite ?_ trivial
    have hs := gangStart_canonical d a size.toNat w.members h
    split
    next e => exact hs.of_eq e
    next => trivial
  next => trivial

theorem execGangWaitTimeout_canonical (k : Nat) (h : Canonical s) : NextCanonical (execGangWaitTimeout k s) := by
  refine coreEvent_canonical (fun s h => ?_) h
  split
  next w d a size _ _ =>
    refine .ite ?_ trivial
    have hs := gangResult_canonical d a 0 .empty (dropGangWait_canonical h)
    split
    next e => exact hs.of_eq e
    next => trivial
  next => trivial

theorem disband_canonical (h : Canonical s) :
    Canonical { s with me := { (({ s.me.retire with gang := none } : Core).close .phase s.me.pc .nothing) with wait := none } } :=
  setMe_canonical h (memWf_congr h.1 rfl rfl rfl)

theorem execDisb_canonical (h : Canonical s) : NextCanonical (execDisb s) := by
  refine finish_canonical h ?_
  extract_lets ms
  refine .ite (setMe_canonical h (retireCore_memWf h.1)) (.seq fun _ => ?_)
  generalize need _ _ = r
  refine .seq fun _ => ?_
  exact linkMates_canonical _ (disband_canonical (onCores_canonical _ (fun _ h => endBy_canonical .endAct h) h))

/-! ### Serving -/

theorem claimed_memWf (x : BitVec 8) (k off : Nat) (h : Canonical s) :
    (((s.core k).claimBank x (off / 65536)).claim x (off / 64)).memWf = true :=
  claim_memWf _ _ (claimBank_memWf _ _ (core_memWf k h))

theorem serveRead_canonical (k : Nat) (x : BitVec 8) (pc : Option W64) (p : Home) (tag : BitVec 4) (h : Canonical s) :
    AnsCanonical (s.serveRead k x pc p tag) := by
  fun_cases State.serveRead s k x pc p tag
  · trivial
  · exact h
  · exact h
  · exact lineBreak_canonical _ _ _ _ _ (charge_canonical _ _ _ (setCore_canonical _ h (claimed_memWf _ _ _ h)))
  · exact h
  · exact charge_canonical _ _ _ h
  · exact h
  · exact h
  · trivial
  · trivial

theorem serveOwn_canonical (x : BitVec 8) (k off : Nat) (p : Home) (a : W64) (op : WordOp) (mode : W64) (h : Canonical s) :
    AnsCanonical (s.serveOwn x k off p a op mode) := by
  have hc := claimed_memWf x k off h
  unfold State.serveOwn
  extract_lets n c s1
  have h1 : Canonical s1 := charge_canonical _ _ _ (setCore_canonical _ h hc)
  split
  · exact h
  · refine .ite h1 ?_
    split
    · trivial
    · exact h1
    · exact h1
    · exact setCore_canonical _ h1 (publish_memWf _ _ _ _ hc)

theorem serveWin_canonical (x : BitVec 8) (k off : Nat) (p : Home) (a : W64) (op : WordOp) (odd : Bool) (h : Canonical s) :
    AnsCanonical (s.serveWin x k off p a op odd) := by
  unfold State.serveWin
  extract_lets b c s1
  have hc : c.memWf = true := claimPool_memWf _ _ (claimBank_memWf _ _ (core_memWf k h))
  have h1 : Canonical s1 := charge_canonical _ _ _ (setCore_canonical _ h hc)
  have hw := winOp_memWf b (off % 65536) op odd hc
  clear_value s1 c
  split
  · exact h1
  next e =>
    rw [e] at hw
    exact .ite h1 (.ite trivial (setCore_canonical _ h1 hw))

theorem servePhys_canonical (pa : Nat) (p : Home) (a : W64) (op : WordOp) (tag : BitVec 4) (mode : W64) (h : Canonical s) :
    AnsCanonical (s.servePhys pa p a op tag mode) := by
  unfold State.servePhys
  split
  · exact h
  · split
    · trivial
    · exact h
    · exact h
    · exact physPut_canonical _ _ h

theorem serveWord_canonical (src : Nat) (x : BitVec 8) (pc : Option W64) (d : Nat) (p : Home) (a : W64) (op : WordOp) (tag : BitVec 4)
    (mode : W64) (h : Canonical s) : AnsCanonical (s.serveWord src x pc d p a op tag mode) := by
  unfold State.serveWord
  split
  · exact .ite (.ite trivial ((serveOwn_canonical _ _ _ _ _ _ _ h).mapState fun _ h => lineBreak_canonical _ _ _ _ _ h))
      (.ite trivial (serveWin_canonical _ _ _ _ _ _ _ h))
  · exact (servePhys_canonical _ _ _ _ _ _ h).mapState fun _ h => charge_canonical _ _ _ h
  next pa =>
    generalize pa + hostBit = q
    exact servePhys_canonical _ _ _ _ _ _ h
  · trivial
  · trivial

theorem serveSpawn_canonical (src k : Nat) (m : Msg) (h : Canonical s) : AnsCanonical (s.serveSpawn src k m) := by
  unfold State.serveSpawn
  extract_lets l c c1 s1 s2
  have hc : c.memWf = true := claimBank_memWf _ _ (core_memWf k h)
  have h1 : Canonical s1 := setCore_canonical _ h (countRecv_memWf _ _ _ hc)
  have h2 : Canonical s2 := setCore_canonical _ h1 (countSent_memWf _ _ (core_memWf _ h1))
  clear_value s2
  refine .ite h (.ite trivial ?_)
  split
  · exact setCore_canonical _ h hc
  · exact arrive_canonical _ _ _ (onCore_canonical _ (fun _ h => wakeThieves_canonical h) h2)

theorem serve_canonical (p : Packet) (id d : Nat) (r : Req) (h : Canonical s) : AnsCanonical (s.serve p id d r) := by
  refine AnsCanonical.mapState ?_ fun _ h => h
  split
  · exact serveRead_canonical _ _ _ _ _ (readHome_canonical _ _ _ h)
  · exact serveWord_canonical _ _ _ _ _ _ _ _ _ (readHome_canonical _ _ _ h)
  · exact serveSpawn_canonical _ _ _ h

theorem atCore_canonical {k : Nat} {f : State → State × Body} (hf : ∀ s, Canonical s → Canonical (f s).1) (h : Canonical s) :
    AnsCanonical (some (s.atCore k f)) := focus_canonical _ (hf _ (focus_canonical k h))

theorem servePacket_canonical (k : Nat) (p : Packet) (h : Canonical s) : Canonical (servePacket k p s) := by
  unfold servePacket
  split
  · exact receive_canonical _ _ (serve_canonical _ _ _ _ h) h
  · exact receive_canonical _ _ (atCore_canonical (fun _ h => takeSub_canonical _ _ _ _ _ _ _ _ _ _ h) h) h
  · exact receive_canonical _ _ (atCore_canonical (fun _ h => takeRes_canonical _ _ _ _ _ _ _ _ _ _ h) h) h
  · exact h

theorem execRequestServe_canonical (k : Nat) (h : Canonical s) : NextCanonical (execRequestServe k s) :=
  packetEvent_canonical (fun _ => servePacket_canonical _ _ h) h

theorem execWaitmRetest_canonical (k : Nat) (h : Canonical s) : NextCanonical (execWaitmRetest k s) := by
  unfold execWaitmRetest
  split
  · split
    · exact h
    · exact packetEvent_canonical (fun _ => servePacket_canonical _ _ h) h
  · trivial

/-! ### Replies -/

theorem deliverReads_memWf (h : c.memWf = true) : c.deliverReads.memWf = true := by
  refine memWf_foldl _ (fun c r h => ?_) _ h
  split
  · exact deliverRead_memWf _ h
  · exact h

theorem dropMarks_canonical (h : Canonical s) : Canonical s.dropMarks := onCores_canonical _ (fun _ h => setMe_canonical h h.1) h

theorem withdraw_canonical (pc : W64) (n : Snap) (k : Nat) (h : Canonical s) : Canonical (s.withdraw pc n k) :=
  relockStreams_canonical (dropGangWait_canonical (setMe_canonical h h.1))

theorem readTrap_canonical (r : RRead) (p : Home) (q : Report) (h : Canonical s) : Canonical (s.readTrap r p q) := by
  unfold State.readTrap
  extract_lets a s1
  have h1 : Canonical s1 := by
    unfold s1
    split
    · refine onCores_canonical _ (fun s h => ?_) h
      split
      · exact withdraw_canonical _ _ _ h
      · exact h
    · exact withdraw_canonical _ _ _ h
  clear_value s1
  split
  · exact uncorrectable_canonical _ _ _ h1
  · exact takeTrap_canonical _ h1

theorem accessDone_memWf (d : Nat) (v : W64) (v1 : Option W64) (x : Option (BitVec 3)) (f : BitVec 5) (h : c.memWf = true) :
    (c.accessDone d v v1 x f).memWf = true := by
  unfold Core.accessDone
  extract_lets c1 c2 ctl c3
  have h1 : c1.memWf = true := deliver_memWf _ _ h
  have h2 : c2.memWf = true := by
    unfold c2
    cases v1 with
    | none => exact h1
    | some y => exact deliver_memWf _ _ h1
  clear_value c2
  exact h2

theorem accessTrap_canonical (q : Report) (h : Canonical s) : Canonical (s.accessTrap q) := by
  unfold State.accessTrap
  extract_lets c k _ s1
  have h1 : Canonical s1 := relockStreams_canonical (setMe_canonical h h.1)
  clear_value s1
  split
  · exact uncorrectable_canonical _ _ _ h1
  · exact takeTrap_canonical _ h1

theorem reply_canonical (id d : Nat) (r : Rep) (h : Canonical s) : Canonical (s.reply id d r) := by
  unfold State.reply
  extract_lets c
  split
  · exact dropMarks_canonical (setMe_canonical h (deliverReads_memWf (ite_memWf h.1 h.1)))
  · exact readTrap_canonical _ _ _ h
  · exact h
  · split
    · split
      · exact setMe_canonical h (accessDone_memWf _ _ _ _ _ h.1)
      · exact setMe_canonical h (accessDone_memWf _ _ _ _ _ (ite_memWf h.1 h.1))
      · exact accessTrap_canonical _ h
      · exact h
    · exact h

theorem execReplyArrival_canonical (k : Nat) (h : Canonical s) : NextCanonical (execReplyArrival k s) := by
  refine packetEvent_canonical (fun p => ?_) h
  split
  · exact onCore_canonical _ (fun _ h => reply_canonical _ _ _ h) h
  · exact onCore_canonical _ (fun _ h => collAnswer_canonical _ _ _ _ _ h) h
  · exact onCore_canonical _ (fun _ h => collAnswer_canonical _ _ _ _ _ h) h
  · exact h

theorem execResultDelivery_canonical (core k : Nat) (h : Canonical s) : NextCanonical (execResultDelivery core k s) := by
  refine coreEvent_canonical (fun s h => ?_) h
  split
  · trivial
  · exact setMe_canonical h (memWf_congr (deliver_memWf _ _ h.1) rfl rfl rfl)

theorem execPageWalk_canonical (k : Nat) (va : W64) (h : Canonical s) : NextCanonical (execPageWalk k va s) :=
  coreEvent_canonical (fun _ h => walkFill_canonical _ h) h

/-! ### Retransmission -/

theorem takeBackIf_canonical (p : Prop) [Decidable p] (r : Report) (h : Canonical s) : Canonical (if p then s.takeBack 0 r else s) := by
  split
  · exact takeBack_canonical _ _ h
  · exact h

theorem takeBackSeg_canonical (seg : Nat) (f : Seg → Report) (h : Canonical s) :
    Canonical (match s.me.closing.find? fun g => g.d.id == seg with
      | none => s
      | some g => s.takeBack (s.me.closedFrom seg) (f g)) := by
  split
  · exact h
  · exact takeBack_canonical _ _ h

theorem lostAccess_canonical (id : Nat) (f : RRead → Report) (r : Report) (h : Canonical s) :
    Canonical (match s.me.reads.find? fun x => x.id == id with
      | some x => s.takeBack 0 (f x)
      | none => if s.me.irrev = some (.sent id) then s.takeBack 0 r else s) := by
  split
  · exact takeBack_canonical _ _ h
  · exact takeBackIf_canonical _ _ h

theorem lostPacket_canonical (p : Packet) (h : Canonical s) : Canonical (s.lostPacket p) := by
  unfold State.lostPacket
  split
  · exact onCore_canonical _ (fun _ h => takeBackSeg_canonical _ _ h) h
  · exact onCore_canonical _ (fun _ h => takeBackSeg_canonical _ _ h) h
  · exact onCore_canonical _ (fun _ h => lostAccess_canonical _ _ _ h) h
  · exact onCore_canonical _ (fun _ h => lostAccess_canonical _ _ _ h) h
  · exact killFor_canonical _ _ _ _ h
  · exact killFor_canonical _ _ _ _ h
  · exact onCore_canonical _ (fun _ h => takeBackIf_canonical _ _ h) h
  · exact onCore_canonical _ (fun _ h => takeBackIf_canonical _ _ h) h
  · exact h
  · exact h
  · exact h
  · exact h
  · exact h

theorem execRetransmitTimeout_canonical (k : Nat) (h : Canonical s) : NextCanonical (execRetransmitTimeout k s) := by
  unfold execRetransmitTimeout
  split
  · exact h
  · simp only
    split
    · exact h
    · split
      · exact h
      · exact lostPacket_canonical _ h

end Sys2Proof.Machine
end

