-- ==== Sys2Proof/Proofs/CanonicalWork.lean ====
section
/-! Canonical memories through what a core takes up next: dispatch, steals, parks, budget, reports, streams, idle time (spec/17 R356 to R362,
spec/03 R52, R53, R77, spec/11 R279, R286, spec/14 R310, spec/10 R257, R258). -/

namespace Sys2Proof.Machine

open Safety

variable {c : Core} {s t : State}

/-! ### Dispatch -/

theorem SomeAll.bind {α β : Type} {P : α → Prop} {Q : β → Prop} {x : Option α} {f : α → Option β} (hx : SomeAll P x)
    (hf : ∀ a, P a → SomeAll Q (f a)) : SomeAll Q (x.bind f) := by
  cases x with
  | none => trivial
  | some a => exact hf a hx

theorem SomeAll.seq {α β : Type} {Q : β → Prop} {x : Option α} {f : α → Option β} (hf : ∀ a, SomeAll Q (f a)) : SomeAll Q (x.bind f) := by
  cases x with
  | none => trivial
  | some a => exact hf a

theorem start_canonical (x : Start) (h : Canonical s) : Canonical (s.start x) := by
  unfold State.start
  extract_lets c ctx e lt act _ c1 c2
  have h1 : c1.memWf = true := h.1
  have h2 : c2.memWf = true := by
    unfold c2
    split
    · exact h1
    · exact h1
  clear_value c2
  exact setMe_canonical h (begun_memWf (count_memWf _ _ (count_memWf _ _ h2)))

theorem badEntryNotice_canonical (m : Msg) (h : Canonical s) : Canonical (s.badEntryNotice m) := notice_canonical _ _ _ _ _ _ _ _ _ h

theorem take_canonical (src : Source) (x : Start) (h : Canonical s) : SomeAll Canonical (s.take src x) :=
  .ite (badEntryNotice_canonical _ h) ((recordDispatch_canonical src x.msg _ _ h).map fun _ h => start_canonical _ h)

theorem takeMail_canonical (k : Nat) (n : Nat × Nat × Nat) (h : Canonical s) : SomeAll Canonical (s.takeMail k n) := by
  unfold State.takeMail
  split
  · trivial
  · exact .ite trivial (take_canonical _ _ (setMe_canonical h h.1))

theorem holdDeque_memWf (ls : List Nat) (h : c.memWf = true) : (c.holdDeque ls).memWf = true := h

theorem holdIf_canonical (b : Bool) (ls : List Nat) (h : Canonical s) : Canonical (if b then { s with me := s.me.holdDeque ls } else s) := by
  split
  · exact setMe_canonical h (holdDeque_memWf _ h.1)
  · exact h

theorem takeTask_canonical (k : Nat) (r : TaskRec) (h : Canonical s) : SomeAll Canonical (s.takeTask k r) := by
  have h1 := take_canonical .deque ⟨r.msg, none, .deque, false, r.born, r.other⟩ (setMe_canonical (c := { s.me with deque := ldel s.me.deque k }) h h.1)
  refine .ite trivial (h1.map fun s h => holdIf_canonical _ _ h)

theorem resumePark_canonical (p : Parked) (h : Canonical s) : SomeAll Canonical (s.resumePark p) := by
  refine .ite trivial ((recordDispatch_canonical _ _ _ _ h).map fun s h => ?_)
  extract_lets c _ c1 s1
  have h1 : c1.memWf = true := h.1
  have hs : Canonical s1 := setMe_canonical h (begun_memWf (count_memWf _ _ h1))
  clear_value s1
  split
  · exact hs
  · exact setMe_canonical hs hs.1

theorem dispatchNamed_canonical (h : Canonical s) : SomeAll Canonical s.dispatchNamed := by
  unfold State.dispatchNamed
  extract_lets c l
  split
  · trivial
  · exact .ite (.ite (.seq fun _ => resumePark_canonical _ h) trivial)
      (.ite trivial (.ite (.seq fun _ => takeMail_canonical _ _ h) (.seq fun _ => takeTask_canonical _ _ h)))

theorem dispatch_canonical (h : Canonical s) : SomeAll Canonical s.dispatch := by
  unfold State.dispatch
  split
  · exact .ite (resumePark_canonical _ h) (dispatchNamed_canonical h)
  · refine .ite trivial ?_
    extract_lets l mine
    split
    · exact .ite (takeMail_canonical _ _ h) (dispatchNamed_canonical h)
    · split
      · exact .ite (takeTask_canonical _ _ h) (dispatchNamed_canonical h)
      · trivial

theorem resumeChoice_canonical (h : Canonical s) : SomeAll Canonical s.resumeChoice := by
  unfold State.resumeChoice
  split
  · trivial
  · split
    · trivial
    · exact .ite (returnFrame_canonical _ (setMe_canonical h h.1)) trivial

theorem execDispatch_canonical (k : Nat) (h : Canonical s) : NextCanonical (execDispatch k s) := by
  refine coreEvent_canonical (fun s h => ?_) h
  split
  next e => exact (resumeChoice_canonical h).of_eq e
  · exact dispatch_canonical h

/-! ### Steals -/

theorem missed_canonical (n : Nat) (h : Canonical s) : Canonical (s.missed n) := by
  unfold State.missed
  extract_lets c
  have hc : c.memWf = true := count_memWf _ _ (count_memWf _ _ h.1)
  clear_value c
  split
  · exact setMe_canonical h hc
  · exact setMe_canonical h hc

theorem steal_canonical (v : Nat) (l : Lease) (n : Nat) (h : Canonical s) : SomeAll Canonical (s.steal v l n) := by
  unfold State.steal
  split
  · exact missed_canonical _ h
  · refine .ite (missed_canonical _ h) ?_
    extract_lets c c1 s1 s2
    have h1 : Canonical s1 := setCore_canonical _ h (count_memWf _ _ (core_memWf v h))
    have h2 : Canonical s2 := setMe_canonical h1 (count_memWf _ _ (count_memWf _ _ h1.1))
    clear_value s2
    exact take_canonical _ _ (setMe_canonical h2 h2.1)

theorem execStealAttempt_canonical (k v : Nat) (h : Canonical s) : NextCanonical (execStealAttempt k v s) := by
  unfold execStealAttempt
  split
  · refine coreEvent_canonical (fun s h => ?_) h
    exact .ite (.ite (.ite (steal_canonical _ _ _ h) (missed_canonical _ h)) trivial) trivial
  · trivial

theorem execStealWaitExpiry_canonical (k : Nat) (h : Canonical s) : NextCanonical (execStealWaitExpiry k s) :=
  coreEvent_canonical (fun _ h => .ite (setMe_canonical h h.1) trivial) h

/-! ### Parking -/

theorem unasked_memWf (h : c.memWf = true) : c.unasked.memWf = true := by
  unfold Core.unasked
  split
  · exact h
  · exact h

theorem execPark_canonical (k : Nat) (h : Canonical s) : NextCanonical (execPark k s) := by
  refine coreEvent_canonical (fun s h => ?_) h
  extract_lets c s' c1 _ v
  have h' : Canonical s' := setMe_canonical h (unasked_memWf h.1)
  refine .ite ?_ trivial
  split
  · extract_lets c2 s2
    have h1 : c1.memWf = true := close_memWf _ _ _ h'.1
    have h2 : c2.memWf = true := h1
    exact relockStreams_canonical (setMe_canonical h' (setLast_memWf (c := c2.idle) _ h2))
  · trivial

theorem execWatchReady_canonical (k n : Nat) (h : Canonical s) : NextCanonical (execWatchReady k n s) := by
  refine coreEvent_canonical (fun s h => ?_) h
  split
  · trivial
  · exact .ite trivial (setMe_canonical h h.1)

/-! ### Budget and reports -/

theorem execBudgetExhausted_canonical (k : Nat) (h : Canonical s) : NextCanonical (execBudgetExhausted k s) :=
  coreEvent_canonical (fun _ h => .ite (takeBack_canonical _ _ h) trivial) h

theorem execTrapHandlerDispatch_canonical (k : Nat) (h : Canonical s) : NextCanonical (execTrapHandlerDispatch k s) :=
  coreEvent_canonical (fun _ h => .ite (settle_canonical h) trivial) h

theorem execTrapRingResume_canonical (k : Nat) (h : Canonical s) : NextCanonical (execTrapRingResume k s) := by
  refine coreEvent_canonical (fun s h => ?_) h
  extract_lets s1
  have h1 : Canonical s1 := drainTraces_canonical (flush_canonical _ h)
  clear_value s1
  change Canonical (if _ then _ else _)
  split
  · exact settle_canonical h1
  · exact h1

/-! ### Streams -/

theorem streamReads_canonical (x : Stream) (h : Canonical s) : Canonical (s.streamReads x) := by
  unfold State.streamReads
  extract_lets ctx n s1
  split
  · exact charge_canonical _ _ _ (setMe_canonical h (memWf_foldl (fun c a => c.claimAll c.act.ctx a x.esz) (fun _ _ h => claimAll_memWf _ _ _ h) _ h.1))
  · have h1 : Canonical s1 := foldl_canonical _ (fun _ _ h => readSectors_canonical _ _ _ h) _ h
    clear_value s1
    split
    · exact h
    · split
      · exact h1
      · exact charge_canonical _ _ _ h1

theorem execStreamFill_canonical (k code : Nat) (h : Canonical s) : NextCanonical (execStreamFill k code s) := by
  refine engineEvent_canonical (fun s h => ?_) h
  split
  · trivial
  · refine .ite (.ite (lockStream_canonical _ h) trivial) (.ite trivial ?_)
    next x _ =>
      extract_lets s1
      have h1 : Canonical s1 := streamReads_canonical x h
      clear_value s1
      split
      · exact setMe_canonical h1 h1.1
      · exact uncorrectable_canonical _ _ _ h1

/-! ### Local time of an idle core -/

theorem execIdleAdvance_canonical (k : Nat) (h : Canonical s) : NextCanonical (execIdleAdvance k s) := by
  refine coreEvent_canonical (fun s h => .ite trivial ?_) h
  split
  · trivial
  · exact raiseA_canonical _ h
  · exact raiseA_canonical _ h
  · exact raiseA_canonical _ h

theorem execIdleDripPeriod_canonical (k : Nat) (h : Canonical s) : NextCanonical (execIdleDripPeriod k s) :=
  coreEvent_canonical (fun _ h => .ite (dripAll_canonical h) trivial) h

end Sys2Proof.Machine
end

