-- ==== Sys2Proof/Proofs/CanonicalStrikes.lean ====
section
/-! Canonical memories through strikes, their reports and the scrubber (spec/15 R335 to R337, spec/17 R354, R355). -/

namespace Sys2Proof.Machine

open Safety

variable {c : Core} {s t : State}

theorem execStrike_canonical (cl r : Nat) (h : Canonical s) : NextCanonical (execStrike cl r s) := by
  unfold execStrike
  split
  · exact h
  · trivial

/-! ### The point that a report goes back to -/

theorem backPast_canonical (n : Nat) (h : Canonical s) : Canonical (s.backPast n) := by
  unfold State.backPast
  extract_lets c m j
  split
  · exact rollBack_canonical _ _ h
  · split
    · exact rollBack_canonical _ _ h
    · exact rollBack_canonical _ _ (setMe_canonical h h.1)

theorem strikeBack_canonical (n : Nat) (h : Canonical s) : Canonical (s.strikeBack n) := by
  unfold State.strikeBack
  split
  · exact rollGang_canonical _ _ h
  · exact onCores_canonical _ (fun _ h => backPast_canonical _ h) h

theorem endAccess_canonical (h : Canonical s) : Canonical s.endAccess := by
  unfold State.endAccess
  split
  · split
    · exact h
    · extract_lets served s1
      have h1 : Canonical s1 := h
      clear_value served
      split
      · exact reply_canonical _ _ _ h1
      · exact h1
  · exact h

theorem struckCore_canonical (h : Canonical s) : Canonical s.struckCore :=
  strikeBack_canonical _ (onCores_canonical _ (fun _ h => setMe_canonical h h.1) (endAccess_canonical h))

/-! ### Operations that start over -/

theorem restartOp_memWf (o : EngOp) (b : Bool) (h : c.memWf = true) : (c.restartOp o b).memWf = true := by
  unfold Core.restartOp
  extract_lets mine n c1 c2
  have h1 : c1.memWf = true := mapOp_memWf _ _ (putBack_memWf mine h)
  have h2 : c2.memWf = true := mapOp_memWf _ _ h
  clear_value c1 c2
  split
  · split
    · exact h1
    · exact h1
  · split
    · exact h
    · split
      · exact ite_memWf h2 (addLock_memWf _ h2)
      · exact h2

theorem setLocks_memWf (l : List Lock) (h : c.memWf = true) : Core.memWf { c with locks := l } = true := h

theorem restartPour_canonical (q : Pour) (h : Canonical s) : Canonical (s.restartPour q) := by
  unfold State.restartPour
  extract_lets p lock
  split
  · exact h
  next o _ =>
    extract_lets ctx s1 s2
    have h1 : Canonical s1 := by
      refine foldl_canonical _ (fun s r h => ?_) _ h
      split
      · exact foldl_canonical _ (fun _ _ h => physPut_canonical _ _ h) _ h
      · exact setCore_canonical _ h (setLocks_memWf _ (mapOp_memWf _ _ (putBack_memWf _ (core_memWf r h))))
    have h2 : Canonical s2 := mapPour_canonical _ _ _ h1
    exact onCore_canonical _ (fun _ h => setMe_canonical h (mapOp_memWf _ _ h.1)) h2

theorem pourAgain_canonical (k : Nat) (o : EngOp) (m : Msg) (h : Canonical s) : Canonical (s.pourAgain k o m) := by
  unfold State.pourAgain
  extract_lets p rs lock s1
  have h1 : Canonical s1 := by
    unfold s1
    split
    · exact h
    · exact setCore_canonical _ h (addLock_memWf _ (core_memWf _ h))
  exact h1

theorem reviveAt_canonical (touch : Nat → List Nat → Bool) (h : Canonical s) : Canonical (s.reviveAt touch) := by
  refine foldl_canonical _ (fun s x h => foldl_canonical _ (fun s o h => ?_) _ h) _ h
  split
  · split
    · exact pourAgain_canonical _ _ _ h
    · exact h
  · exact h

theorem restartCores_canonical (ks : List Nat) (p : EngOp → Bool) (h : Canonical s) : Canonical (s.restartCores ks p) := by
  refine foldl_canonical _ (fun s ms h => foldl_canonical _ (fun s m h => ?_) _ h) _ h
  split
  · exact h
  · exact setCore_canonical _ h (restartOp_memWf _ _ (core_memWf _ h))

theorem restartRegion_canonical (cl r : Nat) (h : Canonical s) : Canonical (s.restartRegion cl r) := by
  unfold State.restartRegion
  extract_lets ks touch s1 s2 qs
  have h1 : Canonical s1 := by
    unfold s1
    split
    · exact restartCores_canonical _ _ h
    · exact restartCores_canonical _ _ h
  exact foldl_canonical _ (fun _ _ h => restartPour_canonical _ h) _ (reviveAt_canonical _ h1)

theorem settleAgain_canonical (cl : Nat) (h : Canonical s) : Canonical (s.settleAgain cl) := by
  unfold State.settleAgain
  split
  · split
    · exact setCtx_canonical _ _ h
    · exact h
  · exact h

theorem execStrikeReport_canonical (k : Nat) (h : Canonical s) : NextCanonical (execStrikeReport k s) := by
  unfold execStrikeReport
  split
  · exact h
  · refine settleAgain_canonical _ (restartRegion_canonical _ _ (onCores_canonical _ (fun _ h => ?_) h))
    exact struckCore_canonical (caughtUp_canonical h)

/-! ### The scrubber -/

theorem entryBad_canonical (k g : Nat) (x : BitVec 8) (a kind : W64) (h : Canonical s) : Canonical (s.entryBad k g x a kind) := by
  unfold State.entryBad
  extract_lets c
  split
  · exact onCore_canonical _ (fun _ h => takeBack_canonical _ _ (endAccess_canonical h)) h
  · split
    · exact killOwner_canonical _ _ _ _ h
    · exact h

theorem setPoison_memWf (n : Nat) (b : Bool) (h : c.memWf = true) : (c.setPoison n b).memWf = true := h

/-- Images replaced by canonical ones. -/
theorem setImages_canonical {l : List (Nat × Core)} (h : Canonical s) (hl : AllWf l) : Canonical { s with images := l } :=
  ⟨h.1, h.2.1, hl, h.2.2.2⟩

theorem ite_canonical {p : Prop} [Decidable p] (h : Canonical s) (ht : Canonical t) : Canonical (if p then s else t) := by
  split
  · exact h
  · exact ht

theorem scrubBad_canonical (x : ScrubTarget) (h : Canonical s) : Canonical (s.scrubBad x) := by
  unfold State.scrubBad
  split
  · extract_lets c _ s1
    have h1 : Canonical s1 := setCore_canonical _ h (core_memWf _ h)
    exact ite_canonical h1 (killOwner_canonical _ _ _ _ h1)
  · extract_lets c s1
    have h1 : Canonical s1 := setCore_canonical _ h (core_memWf _ h)
    exact ite_canonical h1 (killOwner_canonical _ _ _ _ h1)
  · extract_lets s1
    have h1 : Canonical s1 := h
    split
    · exact h1
    · exact killOwner_canonical _ _ _ _ h1
  · refine onCore_canonical _ (fun s h => ?_) h
    exact ite_canonical (takeBack_canonical _ _ (endAccess_canonical h)) h
  · have h1 := pick_canonical h
    exact ite_canonical h1 (killOwner_canonical _ _ _ _ h1)
  · split
    · exact h
    next c e => exact killOwner_canonical _ _ _ _ (setImages_canonical h (AllWf.aset _ h.2.2.1 (setPoison_memWf _ _ ((AllWf.aget _ h.2.2.1).of_eq e))))
  · split
    · exact h
    · exact entryBad_canonical _ _ _ _ _ h
  · extract_lets c
    split
    · exact h
    · exact entryBad_canonical _ _ _ _ _ h

theorem scrubSector_canonical (pa : Nat) (h : Canonical s) : Canonical (s.scrubSector pa) := by
  have h1 := readSectors_canonical (pa / 64 * 64) 64 none h
  exact ite_canonical (scrubBad_canonical _ h1) h1

theorem upset_canonical (x : Nat) (l : List (Nat × Byte)) (h : Canonical s) : Canonical (s.upset x l) := ite_canonical h h

theorem execScrub_canonical (x : ScrubTarget) (e : ScrubFinding) (h : Canonical s) : NextCanonical (execScrub x e s) := by
  unfold execScrub
  split
  · change Canonical _
    split
    · refine ite_canonical (scrubSector_canonical _ h) ?_
      split
      · exact h
      · exact h
      · exact scrubBad_canonical _ h
    · exact h
    · exact h
    · exact scrubBad_canonical _ h
  · trivial

end Sys2Proof.Machine
end

