-- ==== Sys2Proof/Proofs/CanonicalContexts.lean ====
section
/-! Canonical memories through the host's commands on contexts: save areas, pre-emption, entry (spec/20 R386 to R392). -/

namespace Sys2Proof.Machine

open Safety

variable {c d : Core} {s t : State}

/-! ### Commands -/

theorem complete1_canonical (ch k : Nat) (h : Canonical s) : Canonical (s.complete1 ch k) := h

theorem worked_canonical (ch : Nat) (h : Canonical s) : Canonical (s.worked ch) := h

theorem command_canonical {ch op : Nat} {f : Channel → State → Option (Except Nat State)} (hf : ∀ c, SomeAll (OkAll Canonical) (f c s))
    (h : Canonical s) : NextCanonical (command ch op f s) := by
  unfold command
  split
  · have hx := hf (s.chan? ch)
    extract_lets x
    split
    · split
      · exact h
      next t e =>
        have ht : OkAll Canonical (Except.ok (ε := Nat) t) := SomeAll.of_eq (P := OkAll Canonical) hx e
        exact ht
      · exact complete1_canonical _ _ h
    · exact h
  · trivial

theorem execConfig_canonical (ch : Nat) (h : Canonical s) : NextCanonical (execConfig ch s) := by
  refine command_canonical (fun c => ?_) h
  refine .ite trivial (.ite trivial (.ite trivial (.ite trivial ?_)))
  split
  · trivial
  · exact complete1_canonical _ _ (setCtx_canonical _ _ h)

/-! ### Save areas -/

/-- Addresses counted from a, where none lies below it. -/
theorem Mem.wfFrom_rebase {m : Mem} {a k : Nat} (h : Mem.wfFrom k m = true) (ha : ∀ x ∈ m, a ≤ x.1) :
    Mem.wfFrom (k - a) (m.map fun x => (x.1 - a, x.2)) = true := by
  induction m generalizing k with
  | nil => rfl
  | cons x m ih =>
    obtain ⟨hk, hx, hm⟩ := (Mem.wfFrom_cons k x.1 x.2 m).1 h
    have hx1 : a ≤ x.1 := ha x List.mem_cons_self
    refine (Mem.wfFrom_cons _ _ _ _).2 ⟨by omega, hx, ?_⟩
    have := ih hm fun y hy => ha y (List.mem_cons_of_mem _ hy)
    rwa [Nat.sub_add_comm hx1] at this

theorem Mem.wf_slice {m : Mem} (a n : Nat) (h : m.wf = true) : (Mem.slice m a n).wf = true := by
  have hf := Mem.wf_filter (fun c => decide (a ≤ c.1) && decide (c.1 < a + n)) h
  refine Mem.wfFrom_mono (Nat.zero_le (0 - a)) (Mem.wfFrom_rebase hf fun x hx => ?_)
  have := List.of_mem_filter hx
  simp only [Bool.and_eq_true, decide_eq_true_eq] at this
  exact this.1

theorem physSlice_wf (pa n : Nat) (h : Canonical s) : (s.physSlice pa n).wf = true := by
  obtain ⟨_, _, _, hd, hh⟩ := h
  unfold State.physSlice
  split
  · exact Mem.wf_slice _ _ hh
  · exact Mem.wf_slice _ _ hd

theorem physSplice_canonical (pa n : Nat) (m : Mem) (h : Canonical s) : Canonical (s.physSplice pa n m) := by
  obtain ⟨hme, ho, hi, hd, hh⟩ := h
  unfold State.physSplice
  split
  · exact ⟨hme, ho, hi, hd, Mem.wf_splice _ _ _ hh⟩
  · exact ⟨hme, ho, hi, Mem.wf_splice _ _ _ hd, hh⟩

theorem setPois_canonical (pa n : Nat) (l : List Nat) (h : Canonical s) : Canonical (s.setPois pa n l) := ite_canonical h h

theorem saveCore_canonical (k pa i : Nat) (h : Canonical s) (hc : c.memWf = true) : Canonical (s.saveCore k pa i c) := by
  unfold State.saveCore
  extract_lets p free s1 s2 s3
  have hfree : ∀ s a n, Canonical s → Canonical (free s a n) := fun s a n h => physPut_canonical (p + a) _ h
  have h1 : Canonical s1 := physSplice_canonical _ _ _ (physSplice_canonical _ _ _ h)
  have h2 : Canonical s2 := setPois_canonical _ _ _ (setPois_canonical _ _ _ h1)
  have h3 : Canonical s3 := hfree _ _ _ (hfree _ _ _ h2)
  exact setImages_canonical h3 (AllWf.aset _ h3.2.2.1 hc)

/-- The image of a core, or a core as at reset. -/
theorem imageOf_memWf (j k : Nat) (h : Canonical s) : ((aget s.images j).getD { Core.reset with id := k }).memWf = true :=
  SomeAll.getD (P := fun c : Core => c.memWf = true) (AllWf.aget j h.2.2.1) rfl

theorem writeSave_canonical (k pa : Nat) (h : Canonical s) : Canonical (s.writeSave k pa) :=
  foldl_canonical _ (fun _ _ h => saveCore_canonical _ _ _ h (imageOf_memWf _ _ h)) _ h

theorem reread_memWf (m : Mem) (l : List Nat) (h : c.memWf = true) : (l.foldl (fun c b => c.setBank b ((c.bank b).reread b m)) c).memWf = true :=
  memWf_foldl (fun (c : Core) b => c.setBank b ((c.bank b).reread b m)) (fun _ _ h => h) _ h

theorem loadCore_memWf (k pa i : Nat) (h : Canonical s) (hc : c.memWf = true) : (s.loadCore k pa i c).memWf = true := by
  unfold State.loadCore
  extract_lets p x m acc bad own arr msg c1
  have hm : m.wf = true := physSlice_wf _ _ h
  have hacc : acc.wf = true := physSlice_wf _ _ h
  have h1 : c1.memWf = true := reread_memWf m _ hc
  clear_value m acc c1
  rw [memWf_iff] at h1 ⊢
  exact ⟨Mem.wf_filter _ hm, h1.2.1, hacc⟩

theorem readSave_canonical (k pa : Nat) (h : Canonical s) : Canonical (s.readSave k pa) := by
  unfold State.readSave
  extract_lets n s1
  have h1 : Canonical s1 := ite_canonical h (foldl_canonical _ (fun _ _ h => readSectors_canonical _ _ _ h) _ h)
  clear_value s1
  exact setImages_canonical h1 (foldl_keeps AllWf (fun l y hl => AllWf.aset _ hl (loadCore_memWf _ _ _ h1 (imageOf_memWf _ _ h1))) _ h1.2.2.1)

theorem execLoadsh_canonical (ch : Nat) (h : Canonical s) : NextCanonical (execLoadsh ch s) := by
  refine command_canonical (fun c => ?_) h
  refine .ite trivial (.ite trivial (.ite trivial (.ite trivial ?_)))
  split
  · trivial
  · exact .ite trivial (worked_canonical _ (setCtx_canonical _ _ (readSave_canonical _ _ h)))

theorem execSpillsh_canonical (ch : Nat) (h : Canonical s) : NextCanonical (execSpillsh ch s) := by
  refine command_canonical (fun c => ?_) h
  split
  · trivial
  · split
    · trivial
    · exact .ite trivial (worked_canonical _ (setCtx_canonical _ _ (writeSave_canonical _ _ h)))

theorem execFree_canonical (ch : Nat) (h : Canonical s) : NextCanonical (execFree ch s) := by
  refine command_canonical (fun c => ?_) h
  refine .ite ?_ trivial
  obtain ⟨hme, ho, hi, hrest⟩ := h
  exact complete1_canonical _ _ ⟨hme, ho, AllWf.filter _ hi, hrest⟩

/-! ### Pre-emption -/

theorem startReload_canonical (k : Nat) (h : Canonical s) : Canonical (s.startReload k) := h

theorem execSwap_canonical (ch : Nat) (h : Canonical s) : NextCanonical (execSwap ch s) := by
  refine command_canonical (fun c => ?_) h
  refine .ite trivial (.ite trivial (.ite trivial ?_))
  split
  · trivial
  · refine .ite trivial ?_
    split
    · exact startReload_canonical _ (setCtx_canonical _ _ h)
    · exact .ite trivial (setCtx_canonical _ _ h)

theorem image_memWf (x : BitVec 8) (h : c.memWf = true) : (c.image x).memWf = true := by
  unfold Core.image
  extract_lets mine row c1
  have h1 : c1.memWf = true := memWf_foldl _ (fun _ b h => claimBank_memWf x b h) _ h
  clear_value c1
  rw [memWf_iff] at h1 ⊢
  exact ⟨Mem.wf_filter _ h1.1, h1.2.1, Mem.wf_filter _ h1.2.2⟩

theorem blank_memWf (h : c.memWf = true) : c.blank.memWf = true := by
  rw [memWf_iff] at h ⊢
  exact ⟨rfl, h.2.1, rfl⟩

theorem enter_memWf (h : c.memWf = true) (hd : d.memWf = true) : (c.enter d).memWf = true := by
  rw [memWf_iff] at h hd ⊢
  exact ⟨hd.1, h.2.1, hd.2.2⟩

theorem takeOut_canonical (k : Nat) (h : Canonical s) : Canonical (s.takeOut k) := by
  unfold State.takeOut
  extract_lets x s1 ks s2 s3 mine gone
  have h1 : Canonical s1 := onCores_canonical _ (fun _ h => catchUp_canonical h) h
  have h2 : Canonical s2 := onCores_canonical _ (fun _ h => stopEngines_canonical h) h1
  have h3 : Canonical s3 := by
    refine foldl_canonical _ (fun s j h => ?_) _ h2
    have hi := setImages_canonical h (AllWf.aset (8192 * k + j) h.2.2.1 (image_memWf (BitVec.ofNat 8 k) (core_memWf j h)))
    exact setCore_canonical _ hi (blank_memWf (core_memWf j hi))
  exact h3

theorem reloadOf_canonical (x : Option Nat) (h : Canonical s) : Canonical (x.elim s s.startReload) := by
  cases x with
  | none => exact h
  | some k => exact startReload_canonical _ h

theorem execSwapSettle_canonical (k : Nat) (h : Canonical s) : NextCanonical (execSwapSettle k s) := by
  unfold execSwapSettle
  extract_lets x ks quiet s1 _ s2
  have h1 : Canonical s1 := ite_canonical h (charge_canonical _ _ _ (takeOut_canonical _ h))
  have h2 : Canonical s2 := setCtx_canonical _ _ h1
  split
  · exact reloadOf_canonical _ h2
  · exact h

/-! ### Entry -/

theorem unspill_canonical (k : Nat) (h : Canonical s) : Canonical (s.unspill k) := by
  refine setCtx_canonical _ _ (foldl_canonical _ (fun s e h => ?_) _ h)
  have h := readSectors_canonical e.pa 128 none h
  exact ite_canonical (consume_canonical _ _ _ h) (deliverMail_canonical _ _ _ (setCore_canonical _ h (claimBank_memWf _ _ (core_memWf _ h))))

theorem redrip_canonical (h : Canonical s) : Canonical s.redrip := foldl_canonical _ (fun _ _ h => sendDrip_canonical _ _ _ h) _ h

theorem endAborted_canonical (ks : List Nat) (h : Canonical s) : Canonical (s.endAborted ks) := by
  refine foldl_canonical _ (fun s q h => onCore_canonical _ (fun s h => ?_) (foldl_canonical _ (fun s r h => ?_) _ h)) _ h
  · split
    · exact completePour_canonical _ h
    · exact h
  · exact SomeAll.getD (receiverStep_canonical q r h) h

theorem enterAll_canonical {l : List (Nat × Core)} (hl : AllWf l) (h : Canonical s) :
    Canonical (l.foldl (fun (s : State) p => s.setCore (p.1 % 8192) ((s.core (p.1 % 8192)).enter p.2)) s) := by
  induction l generalizing s with
  | nil => exact h
  | cons p l ih =>
    exact ih (fun q hq => hl q (List.mem_cons_of_mem _ hq)) (setCore_canonical _ h (enter_memWf (core_memWf _ h) (hl p List.mem_cons_self)))

theorem bringIn_canonical (k : Nat) (h : Canonical s) : Canonical (s.bringIn k) := by
  unfold State.bringIn
  extract_lets x imgs s1 back s2 _ s3 ks s4
  have h1 : Canonical s1 := enterAll_canonical (AllWf.filter _ h.2.2.1) h
  have h2 : Canonical s2 := setImages_canonical h1 (AllWf.filter _ h1.2.2.1)
  have h3 : Canonical s3 := setCtx_canonical _ _ h2
  have h4 : Canonical s4 := endAborted_canonical _ (onCores_canonical _ (fun _ h => relockStreams_canonical h) h3)
  exact unspill_canonical _ (onCores_canonical _ (fun _ h => redrip_canonical h) h4)

theorem bringInOf_canonical (x : Option Nat) (h : Canonical s) : Canonical (x.elim s s.bringIn) := by
  cases x with
  | none => exact h
  | some k => exact bringIn_canonical _ h

theorem execSwapEnter_canonical (k : Nat) (h : Canonical s) : NextCanonical (execSwapEnter k s) := by
  unfold execSwapEnter
  extract_lets x _ gone
  split
  · exact h
  · split
    · exact h
    · extract_lets s1
      have hg : Canonical gone := setCtx_canonical _ _ h
      have h1 : Canonical s1 := ite_canonical (bringInOf_canonical _ hg) (ite_canonical hg (bringIn_canonical _ h))
      exact complete1_canonical _ _ h1

theorem execRowReloadDone_canonical (cl r : Nat) (h : Canonical s) : NextCanonical (execRowReloadDone cl r s) := by
  unfold execRowReloadDone
  split
  · extract_lets k l s1
    have h1 : Canonical s1 := h
    split
    · split
      · exact h1
      · exact foldl_canonical _ (fun _ _ h => loadCode_canonical _ _ h) _ h1
    · exact h
  · trivial

end Sys2Proof.Machine
end

