-- ==== Sys2Proof/Proofs/CanonicalCommands.lean ====
section
/-! Canonical memories through halts, steps, kills, revocation, tags, translations and power (spec/20 R393 to R404, spec/21 R410, R422, R423). -/

namespace Sys2Proof.Machine

open Safety

variable {c d : Core} {s t : State}

/-- Every core of the package changed in one way, core by core. -/
theorem mapCores_canonical {f : Nat → Core → Core} (hf : ∀ j c, c.memWf = true → (f j c).memWf = true) (h : Canonical s) :
    Canonical { s with me := f s.cur s.me, others := s.others.map fun (p : Nat × Core) => (p.1, f p.1 p.2) } :=
  ⟨hf _ _ h.1, AllWf.map h.2.1 fun _ hp => hf _ _ hp, h.2.2⟩

/-! ### HALT, RESUME, STEP -/

theorem execHalt_canonical (ch : Nat) (h : Canonical s) : NextCanonical (execHalt ch s) := by
  refine command_canonical (fun c => .ite trivial ?_) h
  split
  · trivial
  next k _ =>
    have h1 := haltAll_canonical k 8192 .halt h
    exact complete1_canonical ch 0 h1

theorem unhalt_memWf (h : c.memWf = true) : c.unhalt.memWf = true := h

theorem payDrips_canonical (h : Canonical s) : Canonical s.payDrips := by
  have h1 := foldl_canonical (fun (s : State) (x : Nat × BitVec 48 × W64) => s.send x.1 (.drip s.me.act.ctx x.2.1 x.2.2))
    (fun _ _ h => send_canonical _ _ h) s.me.owed h
  exact setMe_canonical h1 h1.1

theorem execResume_canonical (ch : Nat) (h : Canonical s) : NextCanonical (execResume ch s) := by
  refine command_canonical (fun c => ?_) h
  split
  · trivial
  next k _ =>
    extract_lets x diverged f s1 ks
    have h1 : Canonical s1 := mapCores_canonical (f := f) (fun _ _ hc => ite_memWf (unhalt_memWf hc) hc) h
    exact .ite trivial (complete1_canonical ch 0 (onCores_canonical _ (fun _ h => payDrips_canonical h) h1))

theorem execStep_canonical (ch : Nat) (h : Canonical s) : NextCanonical (execStep ch s) := by
  refine command_canonical (fun c => ?_) h
  split
  · trivial
  · refine .ite trivial (.ite trivial (.ite trivial ?_))
    exact complete1_canonical _ _ (setCore_canonical _ h (core_memWf _ h))

theorem execStepDone_canonical (k : Nat) (h : Canonical s) : NextCanonical (execStepDone k s) := by
  refine coreEvent_canonical (fun s h => ?_) h
  simp only
  split
  · trivial
  · exact .ite (setMe_canonical h (halt_memWf .stepDone h.1)) trivial

theorem execHaltRecordWrite_canonical (k : Nat) (h : Canonical s) : NextCanonical (execHaltRecordWrite k s) := by
  unfold execHaltRecordWrite
  split
  · split
    · exact h
    · extract_lets x c ks cl
      split
      · exact h
      · split
        · extract_lets put1 s1
          have hput : ∀ s a ws, Canonical s → Canonical (put1 s a ws) := by
            intro s a ws h
            unfold put1
            split
            · exact h
            · exact physPut_canonical _ _ h
          have h1 : Canonical s1 := hput _ _ _ h
          exact ite_canonical (hput _ _ _ h1) h1
        · exact h
  · trivial

/-! ### KILL and REVOKE -/

theorem execKill_canonical (ch : Nat) (h : Canonical s) : NextCanonical (execKill ch s) :=
  command_canonical (fun _ => .ite trivial (complete1_canonical _ _ (killContext_canonical _ h))) h

theorem revoke_memWf (x : Nat) (h : c.memWf = true) : (c.revoke x).memWf = true := h

theorem abortSaved_canonical (k : Nat) (q : Pour) (n : Nat) (h : Canonical s) : Canonical (s.abortSaved k q n) := by
  unfold State.abortSaved
  split
  · exact h
  · refine notice_canonical _ _ _ _ _ _ _ _ _ (setImages_canonical h fun p hp => ?_)
    obtain ⟨x, hx, rfl⟩ := List.mem_map.1 hp
    split
    · exact h.2.2.1 x hx
    · exact h.2.2.1 x hx

theorem loseTraces_memWf (h : c.memWf = true) : c.loseTraces.memWf = true := h

theorem stopTrace_canonical (k n : Nat) (h : Canonical s) : Canonical (s.stopTrace k n) := by
  unfold State.stopTrace
  extract_lets x m s1 s2 s3
  have h1 : Canonical s1 := by
    unfold s1
    split
    · exact h
    · exact physPut_canonical _ _ h
  have h2 : Canonical s2 := setCtx_canonical _ _ h1
  exact notice_canonical _ _ _ _ _ _ _ _ _ (onCores_canonical _ (fun _ h => setMe_canonical h (loseTraces_memWf h.1)) h2)

theorem refuseLaunch_canonical (l : Launch) (h : Canonical s) : Canonical (s.refuseLaunch l) :=
  doneBlock_canonical l.ctx.toNat (l.record.toList.getD 7 0) (2 ^ 62) 0 0 5 h

/-- The bindings under a handle are revoked in the cores that a test names, and in images. -/
theorem revokeAll_canonical (live : Nat × Core → Bool) (p : Nat × Core → Prop) [DecidablePred p] (x : Nat) (h : Canonical s) :
    Canonical { s with
      me := if live (s.cur, s.me) then s.me.revoke x else s.me
      others := s.others.map fun (p : Nat × Core) => (p.1, if live (p.1, p.2) then p.2.revoke x else p.2)
      images := s.images.map fun y => if p y then (y.1, y.2.revoke x) else y } := by
  refine setImages_canonical (mapCores_canonical (f := fun j c => if live (j, c) then c.revoke x else c) (fun j c hc => ite_memWf (revoke_memWf x hc) hc) h) ?_
  intro y hy
  obtain ⟨z, hz, rfl⟩ := List.mem_map.1 hy
  split
  · exact revoke_memWf x (h.2.2.1 z hz)
  · exact h.2.2.1 z hz

theorem execRevoke_canonical (ch : Nat) (h : Canonical s) : NextCanonical (execRevoke ch s) := by
  refine command_canonical (fun c => ?_) h
  extract_lets k x ctx named mine pours saved live bound trace late s1 s2 f s3 s4 s5 stopped pa w s6
  have h1 : Canonical s1 := foldl_canonical _ (fun _ _ h => abortPour_canonical _ _ h) _ h
  have h2 : Canonical s2 := foldl_canonical _ (fun _ _ h => abortSaved_canonical _ _ _ h) _ h1
  have h3 : Canonical s3 := revokeAll_canonical live _ x h2
  have h4 : Canonical s4 := ite_canonical (stopTrace_canonical _ _ h3) h3
  have h5 : Canonical s5 := foldl_canonical _ (fun _ _ h => refuseLaunch_canonical _ h) _ h4
  have h6 : Canonical s6 := ite_canonical (physPut_canonical _ _ h5) h5
  exact .ite trivial (worked_canonical ch h6)

theorem execRevokeDone_canonical (ch : Nat) (h : Canonical s) : NextCanonical (execRevokeDone ch s) := by
  unfold execRevokeDone
  split
  · simp only
    split
    · split
      · exact complete1_canonical _ _ h
      · exact h
    · exact h
  · trivial

theorem execUnknownOpcode_canonical (ch : Nat) (h : Canonical s) : NextCanonical (execUnknownOpcode ch s) := by
  unfold execUnknownOpcode
  split
  · simp only
    split
    · exact complete1_canonical _ _ h
    · exact h
  · trivial

/-! ### TAGSET and TLBINV -/

theorem retag_canonical (pa : Nat) (x : BitVec 4) (h : Canonical s) : Canonical (s.retag pa x) := by
  have h1 := readSectors_canonical pa 64 none h
  exact h1

theorem execTagset_canonical (ch : Nat) (h : Canonical s) : NextCanonical (execTagset ch s) := by
  refine command_canonical (fun c => .ite trivial (.ite trivial ?_)) h
  extract_lets s1
  have h1 : Canonical s1 := ite_canonical (retag_canonical _ _ h) h
  exact ite_canonical h1 (worked_canonical ch h1)

theorem execTlbinv_canonical (ch : Nat) (h : Canonical s) : NextCanonical (execTlbinv ch s) := by
  refine command_canonical (fun c => ?_) h
  have h1 := mapCores_canonical
    (f := fun j e => if (s.ctx (c.w 0).toNat).here && (s.ctx (c.w 0).toNat).hasCluster (clusterOf j) then { e with tlb := [] } else e)
    (fun _ _ hc => ite_memWf hc hc) h
  exact h1

/-! ### POWER -/

theorem sleep_memWf (h : c.memWf = true) : c.sleep.memWf = true := by
  rw [memWf_iff] at h ⊢
  exact ⟨h.1, rfl, rfl⟩

theorem dark_memWf (n : Nat) : (c.dark n).memWf = true := rfl

theorem unready_canonical (k : Nat) (h : Canonical s) : Canonical (s.unready k) := h

theorem blackout_canonical (k : Nat) (h : Canonical s) : Canonical (s.blackout k) := by
  obtain ⟨hme, ho, hi, hd, hh⟩ := h
  exact ⟨hme, ho, AllWf.filter _ hi, Mem.wf_filter _ hd, hh⟩

theorem darken_canonical (k : Nat) (b : Bool) (h : Canonical s) : Canonical (s.darken k b) := by
  unfold State.darken
  extract_lets f s1
  have hf : ∀ j c, c.memWf = true → (f j c).memWf = true := by
    intro j c hc
    exact ite_memWf (ite_memWf (dark_memWf _) (sleep_memWf hc)) hc
  have h1 : Canonical s1 := mapCores_canonical hf h
  clear_value s1
  exact ite_canonical (blackout_canonical _ h1) h1

theorem execPower_canonical (ch : Nat) (h : Canonical s) : NextCanonical (execPower ch s) := by
  refine command_canonical (fun c => ?_) h
  extract_lets die st covers old s1 s2 s3
  have h1 : Canonical s1 := ite_canonical h (ite_canonical (darken_canonical _ _ h) (ite_canonical (darken_canonical _ _ h) h))
  have h2 : Canonical s2 := ite_canonical (interrupt_canonical _ (unready_canonical _ h1)) h1
  have h3 : Canonical s3 := ite_canonical h2 h2
  exact .ite trivial (.ite trivial h3)

theorem execCommandCompletion_canonical (ch : Nat) (h : Canonical s) : NextCanonical (execCommandCompletion ch s) := by
  unfold execCommandCompletion
  split
  · simp only
    split
    · exact complete1_canonical _ _ h
    · exact h
  · trivial

theorem execThermalTrip_canonical (h : Canonical s) : NextCanonical (execThermalTrip s) := by
  have h1 := foldl_canonical (fun (s : State) (x : Nat × Ctx) => s.killContext x.1) (fun _ _ h => killContext_canonical _ h)
    (s.ctxs.filter fun x => x.2.state != 0) h
  have h2 := mapCores_canonical (f := fun _ c => { c with stopped := true }) (fun _ _ h => h) h1
  exact h2

end Sys2Proof.Machine
end

