-- ==== Sys2Proof/Proofs/CanonicalGraphs.lean ====
section
/-! Canonical memories through command graphs and host rings (spec/21 R413 to R421). -/

namespace Sys2Proof.Machine

open Safety

variable {c d : Core} {s t : State}

/-! ### Slots and nodes -/

theorem setSlot_canonical (k : Nat) (x : Slot) (h : Canonical s) : Canonical (s.setSlot k x) := h

theorem slotError_canonical (k n : Nat) (h : Canonical s) : Canonical (s.slotError k n) := h

theorem slotDone_canonical (k n : Nat) (h : Canonical s) : Canonical (s.slotDone k n) := h

theorem nextNode_canonical (k n : Nat) (h : Canonical s) : Canonical (s.nextNode k n) := h

theorem execGrun_canonical (ch : Nat) (h : Canonical s) : NextCanonical (execGrun ch s) := by
  refine command_canonical (fun c => .ite trivial (.ite trivial (.ite trivial ?_))) h
  exact complete1_canonical _ _ (setSlot_canonical _ _ h)

theorem execGstop_canonical (ch : Nat) (h : Canonical s) : NextCanonical (execGstop ch s) := by
  refine command_canonical (fun c => .ite trivial ?_) h
  exact complete1_canonical ch 0 (ite_canonical (slotError_canonical _ 5 h) h)

theorem nodeSectors_canonical (x : Nat) (w : W64) (n : Nat) (h : Canonical s) : Canonical (s.nodeSectors x w n) := by
  unfold State.nodeSectors
  cases s.hread x w 0 n false with
  | none => exact consume_canonical _ _ _ h
  | some pa => exact readHandle_canonical _ _ _ _ h

theorem atNode_canonical (x : Slot) (h : Canonical s) : Canonical (s.atNode x) := ite_canonical h (nodeSectors_canonical _ _ _ h)

theorem nodeEvent_canonical {die slot ty : Nat} {f : Nat → Slot → Msg → State → NodeRes State}
    (hf : ∀ k x m s, Canonical s → OkAll Canonical (f k x m s)) (h : Canonical s) : NextCanonical (nodeEvent die slot ty f s) := by
  unfold nodeEvent
  split
  · extract_lets k x s1
    have h1 : Canonical s1 := atNode_canonical _ h
    clear_value s1
    split
    · exact h
    · split
      · exact slotError_canonical _ _ h1
      next m _ =>
        split
        · exact slotError_canonical _ _ h1
        · split
          · exact h1
          · extract_lets y s2
            have h2 : Canonical s2 := setSlot_canonical _ _ h1
            have hr := hf k y m s2 h2
            split
            next e => exact hr.of_eq e
            · exact h2
            · exact slotError_canonical _ _ h2
  · trivial

/-! ### Accesses of a node -/

theorem putDram_canonical (pa : Nat) (bs : List Byte) (h : Canonical s) : Canonical { s with dram := Mem.put s.dram pa bs } := by
  obtain ⟨hme, ho, hi, hd, hh⟩ := h
  exact ⟨hme, ho, hi, Mem.wf_put _ _ hd, hh⟩

theorem elim_canonical {α : Type} {f : α → State} (x : Option α) (h : Canonical s) (hf : ∀ a, Canonical (f a)) : Canonical (x.elim s f) := by
  cases x with
  | none => exact h
  | some a => exact hf a

theorem nodeFar_canonical (p pa n : Nat) (f : Nat → Option Nat) (h : Canonical s) : OkAll (fun r => Canonical r.1) (s.nodeFar p pa n f) :=
  .ite trivial (elim_canonical (f _) h fun _ => putDram_canonical _ _ h)

theorem nodeAccess_canonical (x : Nat) (p : Home) (n : Nat) (f : Nat → Option Nat) (h : Canonical s) :
    OkAll (fun r => Canonical r.1) (s.nodeAccess x p n f) := by
  unfold State.nodeAccess
  extract_lets phys
  have hphys : ∀ pa, OkAll (fun r : State × Nat => Canonical r.1) (phys pa) := fun pa =>
    .ite trivial (.ite trivial (elim_canonical (f _) h fun _ => physPut_canonical _ _ h))
  clear_value phys
  split
  · refine .ite trivial (.ite trivial (setCore_canonical _ h ?_))
    next k off =>
      have hc := claimed_memWf (BitVec.ofNat 8 x) k off h
      cases f _ with
      | none => exact hc
      | some y => exact publish_memWf _ _ _ _ hc
  · exact hphys _
  next pa =>
    generalize pa + hostBit = q
    exact hphys _
  · exact nodeFar_canonical _ _ _ _ h
  · exact nodeFar_canonical _ _ _ _ h

theorem nodeRead_canonical (x : Nat) (w : W64) (b : Bool) (n : Nat) (h : Canonical s) : OkAll (fun r => Canonical r.1) (s.nodeRead x w b n) :=
  .seq fun _ => nodeAccess_canonical _ _ _ _ h

theorem nodeWrite_canonical (x : Nat) (w : W64) (b : Bool) (f : Nat → Nat) (h : Canonical s) : OkAll Canonical (s.nodeWrite x w b f) :=
  .seq fun _ => .bind (nodeAccess_canonical _ _ _ _ h) fun _ h => h

/-! ### LAUNCH and COPY -/

theorem advanceTasks_memWf (n : Nat) (h : c.memWf = true) : (c.advanceTasks n).memWf = true := h

theorem execGraphLaunchNode_canonical (die slot : Nat) (h : Canonical s) : NextCanonical (execGraphLaunchNode die slot s) := by
  refine nodeEvent_canonical (fun k x m s h => .ite trivial ?_) h
  split
  · trivial
  · extract_lets s1 r ctx lead seq
    have h1 : Canonical s1 := nodeSectors_canonical _ _ _ h
    have hs := submit_canonical die r lead seq h1
    clear_value s1 r
    refine .ite trivial (.ite trivial (.ite trivial ?_))
    split
    next e =>
      rw [e] at hs
      exact slotError_canonical _ _ hs
    next e =>
      rw [e] at hs
      exact setSlot_canonical _ _ (setCore_canonical _ hs (advanceTasks_memWf _ (core_memWf _ hs)))

theorem execGraphCopyNode_canonical (die slot : Nat) (h : Canonical s) : NextCanonical (execGraphCopyNode die slot s) :=
  nodeEvent_canonical (fun _ _ _ _ h => .ite trivial (.seq fun _ => .ite (setSlot_canonical _ _ h) (.seq fun _ => setSlot_canonical _ _ h))) h

theorem copyLand_canonical (x : Slot) (m : Msg) (h : Canonical s) : OkAll Canonical (s.copyLand x m) := by
  refine .seq fun ⟨a, b, n⟩ => ?_
  dsimp -zeta only
  extract_lets s1 away bs s2 s3 dev s4
  have h1 : Canonical s1 := nodeSectors_canonical _ _ _ h
  have h2 : Canonical s2 := physPut_canonical _ _ h1
  have h3 : Canonical s3 := ite_canonical h2 (clearPoison_canonical _ _ h2)
  have h4 : Canonical s4 := charge_canonical _ _ _ (charge_canonical _ _ _ h3)
  clear_value s4
  exact .ite trivial (.ite h4 (nodeWrite_canonical _ _ _ _ h4))

/-! ### The other nodes -/

theorem waitHolds_canonical (x : Slot) (m : Msg) (h : Canonical s) : OkAll (fun r => Canonical r.1) (s.waitHolds x m) :=
  .ite (.bind (nodeRead_canonical _ _ _ _ h) fun _ h => h) (.bind (nodeRead_canonical _ _ _ _ h) fun _ h => h)

theorem execGraphWaitNode_canonical (die slot : Nat) (h : Canonical s) : NextCanonical (execGraphWaitNode die slot s) :=
  nodeEvent_canonical (fun _ _ _ _ h => .bind (waitHolds_canonical _ _ h) fun _ h => .ite (slotDone_canonical _ _ h) h) h

theorem execGraphWaitTimeout_canonical (die slot : Nat) (h : Canonical s) : NextCanonical (execGraphWaitTimeout die slot s) :=
  nodeEvent_canonical (fun _ _ _ _ h => .ite trivial (.ite trivial (slotDone_canonical _ _ h))) h

theorem execGraphCondNode_canonical (die slot : Nat) (h : Canonical s) : NextCanonical (execGraphCondNode die slot s) := by
  refine nodeEvent_canonical (fun k x m s h => .bind (nodeRead_canonical _ _ _ _ h) fun r h => ?_) h
  refine .ite (slotDone_canonical _ _ h) (.ite (slotDone_canonical _ _ h) (.ite (slotDone_canonical _ _ h) ?_))
  exact .ite (slotDone_canonical _ _ (setSlot_canonical _ _ h))
    (.bind (nodeWrite_canonical _ _ _ _ h) fun _ h => slotDone_canonical _ _ (setSlot_canonical _ _ h))

theorem setRing_canonical (j : Nat) (r : HRing) (h : Canonical s) : Canonical (s.setRing j r) := h

theorem publishRecord_canonical (j : Nat) (ws : List W64) (h : Canonical s) : Canonical (s.publishRecord j ws) := by
  unfold State.publishRecord
  extract_lets r prod s1 r1
  have h1 : Canonical s1 := physPut_canonical _ _ (physPut_canonical _ _ h)
  exact ite_canonical (interrupt_canonical _ (setRing_canonical _ _ h1)) (setRing_canonical _ _ h1)

theorem notify_canonical (j : Nat) (ws : List W64) (h : Canonical s) : OkAll Canonical (s.notify j ws) :=
  .ite trivial (.ite trivial (publishRecord_canonical _ _ h))

theorem execGraphNotifyNode_canonical (die slot : Nat) (h : Canonical s) : NextCanonical (execGraphNotifyNode die slot s) :=
  nodeEvent_canonical (fun _ _ _ _ h => .bind (notify_canonical _ _ h) fun _ h => slotDone_canonical _ _ h) h

theorem execGraphSignalNode_canonical (die slot : Nat) (h : Canonical s) : NextCanonical (execGraphSignalNode die slot s) :=
  nodeEvent_canonical (fun _ _ _ _ h => .bind (nodeWrite_canonical _ _ _ _ h) fun _ h => slotDone_canonical _ _ h) h

theorem execGraphEndNode_canonical (die slot : Nat) (h : Canonical s) : NextCanonical (execGraphEndNode die slot s) :=
  nodeEvent_canonical (fun _ _ _ _ h => .ite (.bind (notify_canonical _ _ h) fun _ h => interrupt_canonical _ (setSlot_canonical _ _ h))
    (interrupt_canonical _ (setSlot_canonical _ _ h))) h

theorem execGraphNodeDone_canonical (die slot : Nat) (h : Canonical s) : NextCanonical (execGraphNodeDone die slot s) := by
  unfold execGraphNodeDone
  split
  · extract_lets k x
    split
    · exact h
    · split
      · exact nextNode_canonical _ _ h
      next m _ _ =>
        split
        · exact h
        · split
          · exact ite_canonical (nextNode_canonical _ _ h) h
          · have hc := copyLand_canonical x m h
            split
            next e => exact nextNode_canonical _ _ (hc.of_eq e)
            · exact h
            · exact slotError_canonical _ _ h
      · exact h
  · trivial

/-! ### Host rings -/

theorem execRingConsReread_canonical (j : Nat) (h : Canonical s) : NextCanonical (execRingConsReread j s) := by
  unfold execRingConsReread
  split
  · simp only
    split
    · exact setRing_canonical _ _ h
    · exact h
  · trivial

theorem execRingInterruptTimer_canonical (j : Nat) (h : Canonical s) : NextCanonical (execRingInterruptTimer j s) := by
  unfold execRingInterruptTimer
  split
  · simp only
    split
    · exact interrupt_canonical _ (setRing_canonical _ _ h)
    · exact h
  · trivial

end Sys2Proof.Machine
end

