-- ==== Sys2Proof/Proofs/CanonicalHost.lean ====
section
/-! Canonical memories through control space, BAR2, the debugger, reset and the security engine (spec/20 R395, spec/21 R406 to R411, R424, R425). -/

namespace Sys2Proof.Machine

open Safety

variable {c d : Core} {s t : State}

/-! ### Control space -/

theorem writeChannel_canonical (ch i : Nat) (v : W64) (h : Canonical s) : Canonical (s.writeChannel ch i v) :=
  ite_canonical h (ite_canonical (ite_canonical h h) h)

theorem newTracer_canonical (n : Nat) (h : Canonical s) : Canonical (s.newTracer n) :=
  ite_canonical (setCtx_canonical _ _ h) (setCtx_canonical _ _ (notice_canonical _ _ _ _ _ _ _ _ _ h))

theorem writeDescriptor_canonical (n i : Nat) (v : W64) (h : Canonical s) : Canonical (s.writeDescriptor n i v) := by
  unfold State.writeDescriptor
  extract_lets x m s1 y
  have h1 : Canonical s1 := ite_canonical (newTracer_canonical _ h) h
  exact ite_canonical h (ite_canonical (setCtx_canonical _ _ h1) (ite_canonical (setCtx_canonical _ _ h) h))

theorem writeRing_canonical (j i : Nat) (v : W64) (h : Canonical s) : Canonical (s.writeRing j i v) :=
  ite_canonical (ite_canonical (setRing_canonical _ _ h) h)
    (ite_canonical (setRing_canonical _ _ h) (ite_canonical (setRing_canonical _ _ h) (ite_canonical (setRing_canonical _ _ h) h)))

/-- Equal memories are equally canonical. -/
theorem canonical_congr (h : Canonical s) (hme : t.me = s.me) (ho : t.others = s.others) (hi : t.images = s.images) (hd : t.dram = s.dram)
    (hh : t.host = s.host) : Canonical t := by
  unfold Canonical
  rw [hme, ho, hi, hd, hh]
  exact h

theorem controlWrite_canonical (off : Nat) (v : W64) (h : Canonical s) : Canonical (s.controlWrite off v) := by
  unfold State.controlWrite
  refine ite_canonical (canonical_congr h rfl rfl rfl rfl rfl)
    (ite_canonical (writeChannel_canonical _ _ _ h) (ite_canonical (writeDescriptor_canonical _ _ _ h) ?_))
  refine ite_canonical ?_ (ite_canonical ?_ (ite_canonical (writeRing_canonical _ _ _ h) (ite_canonical ?_ (ite_canonical ?_ (ite_canonical ?_ h)))))
  · exact canonical_congr h rfl rfl rfl rfl rfl
  · exact canonical_congr h rfl rfl rfl rfl rfl
  · exact canonical_congr h rfl rfl rfl rfl rfl
  · exact canonical_congr h rfl rfl rfl rfl rfl
  · exact canonical_congr h rfl rfl rfl rfl rfl

/-! ### BAR2 -/

theorem setUncCnt_canonical (n : W64) (h : Canonical s) : Canonical { s with uncCnt := n } := h

theorem setMisCnt_canonical (n : W64) (h : Canonical s) : Canonical { s with misCnt := n } := h

theorem giveData_canonical (bs : List Byte) (b : Bool) (h : Canonical s) : Canonical { s with readData := bs, readOk := b } := h

theorem execBar2Read_canonical (off n : Nat) (h : Canonical s) : NextCanonical (execBar2Read off n s) := by
  unfold execBar2Read
  extract_lets pa xs abort s1
  have habort : ∀ s, Canonical s → Canonical (abort s) := fun _ h => giveData_canonical _ _ h
  have h1 : Canonical s1 := readSectors_canonical _ _ _ h
  clear_value abort s1
  exact ite_canonical h (ite_canonical (habort _ h) (ite_canonical (habort _ (setUncCnt_canonical _ h1))
    (ite_canonical (habort _ (setMisCnt_canonical _ h1)) (giveData_canonical _ _ h1))))

theorem execBar2Write_canonical (r off : Nat) (bs : List Byte) (h : Canonical s) : NextCanonical (execBar2Write r off bs s) := ite_canonical h h

theorem barServe_canonical (w : HWrite) (h : Canonical s) : Canonical (s.barServe w) := by
  unfold State.barServe
  extract_lets pa n xs whole s1
  have h1 : Canonical s1 := foldl_canonical _ (fun _ _ h => decodeSector_canonical _ _ h) _ h
  exact ite_canonical h (ite_canonical h1 (ite_canonical h1 (clearPoison_canonical _ _ (physPut_canonical _ _ h1))))

theorem execBar2WriteRelease_canonical (r : Nat) (h : Canonical s) : NextCanonical (execBar2WriteRelease r s) := by
  unfold execBar2WriteRelease
  split
  · exact h
  · split
    · exact h
    · exact barServe_canonical _ h

theorem servePosted_canonical (h : Canonical s) : Canonical s.servePosted := foldl_canonical _ (fun _ _ h => barServe_canonical _ h) _ h

theorem execControlRegisterWrite_canonical (off : Nat) (v : W64) (h : Canonical s) : NextCanonical (execControlRegisterWrite off v s) :=
  ite_canonical (controlWrite_canonical _ _ (servePosted_canonical h)) h

theorem clearEflg_canonical (n : Nat) (v : W64) (h : Canonical s) : Canonical (s.clearEflg n v) := h

theorem execEflgClear_canonical (n : Nat) (v : W64) (h : Canonical s) : NextCanonical (execEflgClear n v s) := by
  unfold execEflgClear
  split
  · exact clearEflg_canonical _ _ (servePosted_canonical h)
  · trivial

theorem execMismatchCountClear_canonical (b : Bool) (h : Canonical s) : NextCanonical (execMismatchCountClear b s) := by
  have h1 := servePosted_canonical h
  exact ite_canonical h1 h1

theorem execPortCountClear_canonical (p : Nat) (b : Bool) (h : Canonical s) : NextCanonical (execPortCountClear p b s) := by
  unfold execPortCountClear
  split
  · exact setPort_canonical _ _ (servePosted_canonical h)
  · trivial

/-! ### The debugger -/

theorem NextCanonical.ite {p : Prop} [Decidable p] {x y : Out} (hx : NextCanonical x) (hy : NextCanonical y) : NextCanonical (if p then x else y) := by
  split
  · exact hx
  · exact hy

theorem execDebugRead_canonical (k : Nat) (x : DebugTarget) (b : Bool) (h : Canonical s) : NextCanonical (execDebugRead k x b s) := by
  refine .ite ?_ trivial
  split
  · exact h
  · extract_lets c give no
    have hg : ∀ bs, NextCanonical (give bs) := fun bs => giveData_canonical bs true h
    have hn : NextCanonical no := giveData_canonical [] false h
    clear_value give no
    split
    · exact .ite (hg _) hn
    · exact .ite (hg _) hn
    · exact .ite (hg _) hn
    · exact .ite (hg _) hn

theorem execDebugWrite_canonical (k off : Nat) (bs : List Byte) (h : Canonical s) : NextCanonical (execDebugWrite k off bs s) := by
  refine .ite ?_ trivial
  split
  · exact h
  next x _ =>
    extract_lets c ns locked part c1
    have h1 : c1.memWf = true := memWf_foldl _ (fun _ _ h => publish_memWf _ _ _ _ h) _
      (memWf_foldl (fun c n => c.claimBank x (n / 1024)) (fun _ _ h => claimBank_memWf _ _ h) _ (core_memWf k h))
    clear_value c1
    exact .ite h (setCore_canonical _ h h1)

/-! ### Start-up and the security engine -/

theorem execConventionalReset_canonical (h : Canonical s) : NextCanonical (execConventionalReset s) := by
  obtain ⟨hme, ho, hi, hd, _⟩ := canonical_reset
  exact ⟨hme, ho, hi, hd, h.2.2.2.2⟩

theorem execSelfTestDone_canonical (n : Nat) (b : Bool) (h : Canonical s) : NextCanonical (execSelfTestDone n b s) := by
  refine .ite (.ite h ?_) trivial
  exact .ite (interrupt_canonical _ h) h

theorem execFirmwareVerify_canonical (i v : Nat) (h : Canonical s) : NextCanonical (execFirmwareVerify i v s) := ite_canonical h h

theorem spdm_canonical (k r : Nat) (h : Canonical s) : Canonical (s.spdm k r) := ite_canonical h h

end Sys2Proof.Machine
end

