-- ==== Sys2Proof/Proofs/CanonicalTurns.lean ====
section
/-! Canonical memories through the turn of a core, gangs and the package's own steps, by what an instruction keeps (spec/01 R13, R17, spec/04 R100,
R101, spec/14 R300, R301, spec/20 R393 to R403). -/

namespace Sys2Proof.Machine

open Safety

variable {c d : Core} {s t : State}

/-- Every instruction keeps every memory canonical. -/
def KeepsCanonical (f : Instr → State → Out) : Prop := ∀ i s, Canonical s → NextCanonical (f i s)

variable {f : Instr → State → Out}

/-! ### Before and after a head -/

theorem setTime_canonical (a : Nat) (b : Int) (n : Nat) (h : Canonical s) : Canonical { s with gt9 := a, skew := b, el9 := n } := h

theorem tick_canonical (h : Canonical s) : Canonical s.tick := by
  unfold State.tick
  extract_lets c n at9 adj
  exact passClk_canonical _ (setTime_canonical _ _ _ h)

theorem observe1_canonical (s : State) (i : Instr) (h : Canonical t) : Canonical (s.observe1 i t) := by
  unfold State.observe1
  refine ite_canonical h ?_
  extract_lets x ctx maps t1
  have h1 : Canonical t1 := charge_canonical _ _ _ (charge_canonical _ _ _ (charge_canonical _ _ _ h))
  exact foldl_canonical _ (fun _ _ h => lineBreak_canonical _ _ _ _ _ h) _ h1

theorem observe_canonical (s : State) (i : Instr) (h : Canonical t) : Canonical (s.observe i t) :=
  ite_canonical h (foldl_canonical _ (fun _ k h => focus_canonical _ (observe1_canonical _ _ (focus_canonical k h))) _ h)

theorem after_canonical (s : State) (h : Canonical t) : Canonical (s.after t) := by
  unfold State.after
  extract_lets _ t1
  have h1 : Canonical t1 := setMe_canonical h h.1
  exact ite_canonical h (ite_canonical (charge_canonical _ _ _ h1) (setMe_canonical h h.1))

theorem sendAll_canonical (ks : List Nat) (h : Canonical s) : Canonical (s.sendAll ks).2 := by
  induction ks generalizing s with
  | nil => exact h
  | cons k ks ih => exact ih (focus_canonical _ (sendUnsent_canonical (focus_canonical k h)))

/-! ### Gangs -/

theorem inMember_canonical (hf : KeepsCanonical f) (i : Instr) (k : Nat) (h : Canonical s) : Canonical (s.inMember f i k) := by
  unfold State.inMember
  split
  next e => exact focus_canonical _ ((hf i _ (focus_canonical k h)).of_eq e)
  · exact h

theorem gangBound_canonical (ms : List Nat) (l : List (Nat × Try)) (b : Boundary) (h : Canonical s) : Canonical (s.gangBound ms l b) := by
  unfold State.gangBound
  split
  · exact waiting_canonical _ h
  · exact h
  · refine linkMates_canonical _ (onCores_canonical _ (fun s h => ?_) h)
    extract_lets c1 c2
    have h1 : c1.memWf = true := close_memWf _ _ _ h.1
    have h2 : c2.memWf = true := ite_memWf h1 h1
    exact setMe_canonical h h2

theorem runMembers_canonical (hf : KeepsCanonical f) (form : Nat → Instr) (b : Bool) {s0 : State} (h0 : Canonical s0) (ks : List Nat)
    (h : Canonical s) : OkAll Canonical (State.runMembers f form b s0 ks s) := by
  induction ks generalizing s with
  | nil => exact h
  | cons k ks ih =>
    unfold State.runMembers
    split
    · exact ih (setCore_canonical _ h (core_memWf _ (inMember_canonical hf _ _ h0)))
    · split
      · exact ih (inMember_canonical hf _ _ h)
      · trivial

theorem markHead_canonical (s : State) (ms : List Nat) (h : Canonical t) : Canonical (s.markHead t ms) :=
  ite_canonical h (onCores_canonical _ (fun _ h => setMe_canonical h h.1) h)

theorem alignGang_canonical (ms : List Nat) (h : Canonical s) : Canonical (s.alignGang ms) :=
  ite_canonical h (onCores_canonical _ (fun _ h => ite_canonical h (setMe_canonical h h.1)) h)

theorem gangIssue_canonical (hf : KeepsCanonical f) (i : Instr) (h : Canonical s) : NextCanonical (gangIssue f i s) := by
  unfold gangIssue
  extract_lets ms s1 form tries traps
  have h1 : Canonical s1 := alignGang_canonical _ h
  clear_value s1
  refine .ite (waiting_canonical _ h) (.ite (hf i s h) ?_)
  split
  · exact inMember_canonical hf _ _ h1
  · refine .ite (takeTrap_canonical _ h1) ?_
    split
    · exact gangBound_canonical _ _ _ h1
    · exact waiting_canonical _ h1
    · have hr := runMembers_canonical hf form (combines i) h1 ms h1
      split
      · exact waiting_canonical _ h1
      · exact gangBound_canonical _ _ _ h1
      · exact takeTrap_canonical _ h1
      · exact inMember_canonical hf _ _ h1
      next u e =>
        have hm := markHead_canonical s1 ms (alignGang_canonical ms (hr.of_eq e))
        exact ite_canonical (linkMates_canonical _ hm) hm

/-! ### A head -/

theorem byOrder_canonical (hf : KeepsCanonical f) : KeepsCanonical (State.byOrder f) := by
  intro i s h
  unfold State.byOrder
  split
  · exact hf i s h
  · split
    · exact .ite (finish_canonical h trivial) (hf i s h)
    · exact hf i s h

theorem meet_canonical (t : State) (x : Repeat) (h : Canonical s) : Canonical (s.meet t x) := setMe_canonical h h.1

theorem perform_canonical (hf : KeepsCanonical f) : KeepsCanonical (State.perform f) := by
  intro i s h
  have hf := byOrder_canonical hf
  unfold State.perform
  extract_lets g
  split
  · exact hf i s h
  · extract_lets s0
    split
    · refine .ite (hf i s h) (.ite (implicitPhase_canonical h) ?_)
      split
      · exact waiting_canonical _ h
      · exact meet_canonical _ _ h
    · exact hf i s h

theorem takeResv_canonical (r : Raw) (m : W64) (h : Canonical s) : NextCanonical (takeResv r m s) := finish_canonical h trivial

theorem issue_canonical (hf : KeepsCanonical f) (h : Canonical s) : NextCanonical (s.issue f) := by
  unfold State.issue
  split
  · exact execSequentialFlowBadtgt_canonical _ h
  · split
    · exact hf _ _ h
    · exact .ite (hf _ _ h) (takeResv_canonical _ _ h)
    next i _ =>
      have hi : NextCanonical (if s.me.gang.isSome then gangIssue (State.perform f) i s else s.perform f i) :=
        .ite (gangIssue_canonical (perform_canonical hf) i h) (perform_canonical hf i s h)
      split
      next e => exact observe_canonical _ _ (hi.of_eq e)
      next => exact hi

theorem turn_canonical (hf : KeepsCanonical f) (h : Canonical s) : NextCanonical (s.turn f) := by
  unfold State.turn
  extract_lets _ s1 s2
  have h1 : Canonical s1 := foldl_canonical _ (fun _ k h => onCore_canonical k (fun _ h => tick_canonical h) h) _ h
  have h2 : Canonical s2 := onCores_canonical _ (fun _ h => drainTraces_canonical h) h1
  clear_value s2
  refine .ite (setMe_canonical h h.1) (.ite h (.ite (settle_canonical h2) (.ite (waiting_canonical _ h2) ?_)))
  split
  next e => exact (rollBad_canonical h2).of_eq e
  · refine .ite h2 ?_
    have hs := sendAll_canonical s2.gangOf h2
    split
    next e =>
      rw [e] at hs
      exact waiting_canonical _ hs
    next u e =>
      rw [e] at hs
      split
      · exact haltAll_canonical _ _ _ hs
      · have hi := issue_canonical hf hs
        split
        next e => exact after_canonical _ (hi.of_eq e)
        next => exact hi

/-! ### The package's own steps -/

theorem commandStep_canonical (ch : Nat) (h : Canonical s) : NextCanonical (commandStep ch s) := by
  unfold commandStep
  split
  · exact execConfig_canonical _ h
  · exact execLoadsh_canonical _ h
  · exact execSpillsh_canonical _ h
  · exact execSwap_canonical _ h
  · exact execHalt_canonical _ h
  · exact execResume_canonical _ h
  · exact execStep_canonical _ h
  · exact execKill_canonical _ h
  · exact execRevoke_canonical _ h
  · exact execFree_canonical _ h
  · exact execGrun_canonical _ h
  · exact execGstop_canonical _ h
  · exact execTagset_canonical _ h
  · exact execTlbinv_canonical _ h
  · exact execPower_canonical _ h
  · exact execUnknownOpcode_canonical _ h

theorem graphStep_canonical (die slot : Nat) (h : Canonical s) : NextCanonical (graphStep die slot s) := by
  unfold graphStep
  split
  · exact execGraphCopyNode_canonical _ _ h
  · exact execGraphWaitNode_canonical _ _ h
  · exact execGraphCondNode_canonical _ _ h
  · exact execGraphNotifyNode_canonical _ _ h
  · exact execGraphSignalNode_canonical _ _ h
  · exact execGraphEndNode_canonical _ _ h
  · exact execGraphLaunchNode_canonical _ _ h

theorem runAuto_canonical (n : Auto) (a b d : Nat) (h : Canonical s) : NextCanonical (runAuto n a b d s) := by
  cases n with
  | releaseEntries => exact execReleaseEntries_canonical _ h
  | landEntry => exact execLandEntry_canonical _ h
  | entryAck => exact execEntryAck_canonical _ h
  | commit => exact execCommit_canonical _ h
  | commitNoticeServe => exact execCommitNoticeServe_canonical _ h
  | commitComplete => exact execCommitComplete_canonical _ h
  | abortNoticeServe => exact execAbortNoticeServe_canonical _ h
  | requestServe => exact execRequestServe_canonical _ h
  | replyArrival => exact execReplyArrival_canonical _ h
  | resultDelivery => exact execResultDelivery_canonical _ _ h
  | retransmitTimeout => exact execRetransmitTimeout_canonical _ h
  | strikeReport => exact execStrikeReport_canonical _ h
  | budgetExhausted => exact execBudgetExhausted_canonical _ h
  | dispatch => exact execDispatch_canonical _ h
  | stealAttempt => exact execStealAttempt_canonical _ _ h
  | stealWaitExpiry => exact execStealWaitExpiry_canonical _ h
  | park => exact execPark_canonical _ h
  | watchReady => exact execWatchReady_canonical _ _ h
  | trapHandlerDispatch => exact execTrapHandlerDispatch_canonical _ h
  | trapRingResume => exact execTrapRingResume_canonical _ h
  | ploadExecute => exact execPloadExecute_canonical _ h
  | pswapExecute => exact execPswapExecute_canonical _ h
  | prunFinish => exact execPrunFinish_canonical _ h
  | ptestFinish => exact execPtestFinish_canonical _ h
  | grinderSliceFinish => exact execGrinderSliceFinish_canonical _ h
  | engineCompletion => exact execEngineCompletion_canonical _ _ h
  | enginePreimageFree => exact execEnginePreimageFree_canonical _ _ h
  | pourStart => exact execPourStart_canonical _ _ h
  | pourFlitLand => exact execPourFlitLand_canonical _ _ _ h
  | pourReceiverCompletion => exact execPourReceiverCompletion_canonical _ _ _ h
  | streamFill => exact execStreamFill_canonical _ _ h
  | gangForm => exact execGangForm_canonical _ h
  | gangWaitTimeout => exact execGangWaitTimeout_canonical _ h
  | dripLand => exact execDripLand_canonical _ h
  | idleAdvance => exact execIdleAdvance_canonical _ h
  | idleDripPeriod => exact execIdleDripPeriod_canonical _ h
  | releaseMark => exact execReleaseMark_canonical _ h
  | waveStart => exact execWaveStart_canonical _ _ h
  | waveCombine => exact execWaveCombine_canonical _ _ h
  | doneBlockWrite => exact execDoneBlockWrite_canonical _ _ h
  | taskRecordPush => exact execTaskRecordPush_canonical _ _ h
  | leaseDrained => exact execLeaseDrained_canonical _ _ h
  | leaseLoaded => exact execLeaseLoaded_canonical _ _ h
  | linkReplay =>
    unfold runAuto
    dsimp only
    split
    · exact execLinkReplay_canonical _ _ h
    · exact h
  | collContribute => exact execCollContribute_canonical _ _ h
  | collCombine => exact execCollCombine_canonical _ _ h
  | collResultLand => exact execCollResultLand_canonical _ _ h
  | collOutputExpiry => exact execCollOutputExpiry_canonical _ _ h
  | command => exact commandStep_canonical _ h
  | swapSettle => exact execSwapSettle_canonical _ h
  | swapEnter => exact execSwapEnter_canonical _ h
  | rowReloadDone => exact execRowReloadDone_canonical _ _ h
  | haltRecordWrite => exact execHaltRecordWrite_canonical _ h
  | stepDone => exact execStepDone_canonical _ h
  | revokeDone => exact execRevokeDone_canonical _ h
  | graphNode => exact graphStep_canonical _ _ h
  | graphWaitTimeout => exact execGraphWaitTimeout_canonical _ _ h
  | graphNodeDone => exact execGraphNodeDone_canonical _ _ h
  | ringConsReread => exact execRingConsReread_canonical _ h
  | ringInterruptTimer => exact execRingInterruptTimer_canonical _ h
  | postedRelease => exact execBar2WriteRelease_canonical _ h
  | commandCompletion => exact execCommandCompletion_canonical _ h

end Sys2Proof.Machine
end

