-- ==== Sys2Proof/Proofs/CanonicalMemory.lean ====
section
/-! Every instruction and every step keeps every memory in its canonical form (log 6). -/

namespace Sys2Proof.Machine

open Safety

variable {s t : State}

theorem execNop_canonical (h : Canonical s) : NextCanonical (execNop s) := coreOp_canonical h (f := .ok) h.1

theorem execJmp_canonical (x : BitVec 14) (h : Canonical s) : NextCanonical (execJmp x s) :=
  flowOp_canonical h (f := fun c => c.goto (target x)) (goto_memWf _ h.1)

theorem execTrap_canonical (k : BitVec 6) (h : Canonical s) : NextCanonical (execTrap k s) := finish_canonical h trivial

theorem execLds_canonical (d : BitVec 6) (a : Src) (sc : Scope) (x : Ty) (h : Canonical s) : NextCanonical (execLds d a sc x s) :=
  strong_canonical (build := fun _ c => .ok (.lds x, freeS a c)) (fun _ _ h => freeS_memWf a h) h

/-- Every row of the opcode table keeps every memory canonical; rows of one shape go by the lemma of that shape. -/
theorem exec_canonical : KeepsCanonical exec := by
  intro i s h
  cases i with
  | nop => exact execNop_canonical h
  | jmp => exact execJmp_canonical _ h
  | jmpr | ret => exact flowOp_canonical h (jumpReg_memWf _ h.1)
  | call => exact execCall_canonical _ h
  | callr => exact execCallr_canonical _ h
  | br => exact execBr_canonical _ _ _ _ h
  | bri => exact execBri_canonical _ _ _ _ h
  | bst => exact flowOp_canonical h (branch_memWf _ _ h.1)
  | loop => exact execLoop_canonical _ _ _ h
  | endAct => exact execEndAct_canonical h
  | phase => exact execPhase_canonical h
  | yield => exact execYield_canonical h
  | migr => exact execMigr_canonical _ h
  | trap => exact execTrap_canonical _ h
  | trapReg => exact execTrapReg_canonical _ _ h
  | add | addAbcm | sub | subAbcm | mul | mulAbcm | mulh | mulhAbcm | and | andAbcm | or | orAbcm | xor | xorAbcm | shl | shlAbcm | shr |
    shrAbcm | rot | rotAbcm | min | minAbcm | max | maxAbcm | slt | sltAbcm | bfi | fsgn =>
    exact coreOp_canonical h (op2_memWf _ _ _ _ h.1)
  | div | divAbcm | rem | remAbcm => exact coreOp_canonical h (longOp2_memWf _ _ _ _ _ h.1)
  | sel => exact coreOp_canonical h (op3_memWf _ _ _ _ _ h.1)
  | addi | addiAbi32 | andi | andiAbi32 | ori | oriAbi32 | xori | xoriAbi32 | muli | muliAbi32 | shli | shri | clz | clzAbcm | ctz | ctzAbcm |
    popc | popcAbcm | abs | absAbcm | bfx | wfld | fclass =>
    exact coreOp_canonical h (op1_memWf _ _ _ h.1)
  | li | liI48 => exact coreOp_canonical h (op0_memWf _ _ h.1)
  | fadd | fsub | fmul | fmin | fmax | fcmp => exact coreOp_canonical h (fop2_memWf _ _ _ _ h.1)
  | ffma => exact coreOp_canonical h (fop3_memWf _ _ _ _ _ h.1)
  | fdiv => exact execFdiv_canonical _ _ _ _ _ h
  | fsqrt => exact execFsqrt_canonical _ _ _ _ h
  | fcvt | frnd => exact coreOp_canonical h (fop1_memWf _ _ _ h.1)
  | ld => exact execLd_canonical _ _ _ _ h
  | st => exact execSt_canonical _ _ _ _ h
  | ldv => exact execLdv_canonical _ _ _ _ _ h
  | stv => exact execStv_canonical _ _ _ _ _ h
  | lds => exact execLds_canonical _ _ _ _ h
  | sts | xch => exact strong_canonical (fun _ _ h => buildPair_memWf _ _ _ _ _ h) h
  | aadd | amnx | alog | aswp | waitm | barx | barw => exact strong_canonical (fun _ _ h => build1_memWf _ _ _ _ h) h
  | acas => exact execAcas_canonical _ _ _ _ _ _ h
  | loopf => exact execLoopf_canonical h
  | gath | gathVx => exact gather_canonical _ _ _ _ _ h
  | scat | scatVx => exact scatter_canonical _ _ _ _ _ h
  | bcfg => exact execBcfg_canonical _ _ _ h
  | bqry => exact execBqry_canonical _ _ h
  | bheap => exact execBheap_canonical _ _ _ h
  | bspan => exact execBspan_canonical _ _ h
  | bclr => exact execBclr_canonical _ _ h
  | vadd | vaddVx | vsub | vsubVx | vmul | vmulVx | vdiv | vdivVx | vmin | vminVx | vmax | vmaxVx =>
    exact coreOp_canonical h (vop2_memWf _ _ _ _ _ _ h.1)
  | vfma | vfmaVx => exact coreOp_canonical h (vop3_memWf _ _ _ _ _ _ _ h.1)
  | vsqrt | vsqrtVx | vexp2 | vexp2Vx | vlog2 | vlog2Vx | vrcp | vrcpVx | vrsq | vrsqVx | vtrig | vtrigVx | vtanh | vtanhVx =>
    exact coreOp_canonical h (vop1_memWf _ _ _ _ _ h.1)
  | vcmp | vcmpVx => exact coreOp_canonical h (vcmp_memWf _ _ _ _ _ _ h.1)
  | vsgn | vsgnVx => exact coreOp_canonical h (vsgn_memWf _ _ _ _ _ _ h.1)
  | vred | vredVx => exact vred_canonical _ _ _ _ _ _ h
  | vscan | vscanVx => exact vscan_canonical _ _ _ _ _ _ h
  | viadd | viaddAbcm | viaddVx | visub | visubAbcm | visubVx | vimul | vimulAbcm | vimulVx | vand | vandAbcm | vandVx | vor | vorAbcm |
    vorVx | vxor | vxorAbcm | vxorVx | vshl | vshlAbcm | vshlVx | vshr | vshrAbcm | vshrVx =>
    exact coreOp_canonical h (vint_memWf _ _ _ _ _ _ h.1)
  | vsel | vselVx => exact coreOp_canonical h (vsel_memWf _ _ _ _ _ _ h.1)
  | vperm | vpermVx => exact coreOp_canonical h (vperm_memWf _ _ _ _ _ _ h.1)
  | vbcast | vbcastVx => exact coreOp_canonical h (vbcast_memWf _ _ _ _ h.1)
  | vslide | vslideVx => exact coreOp_canonical h (vslide_memWf _ _ _ _ _ _ h.1)
  | vcmpr => exact execVcmpr_canonical _ _ _ _ h
  | vexpd => exact execVexpd_canonical _ _ _ _ h
  | viota => exact execViota_canonical _ _ _ _ h
  | vlane => exact execVlane_canonical _ _ _ _ _ _ h
  | vcvt | vcvtVx => exact coreOp_canonical h (vcvt_memWf _ _ _ _ _ _ _ _ h.1)
  | vunpk | vunpkVx => exact coreOp_canonical h (vunpk_memWf _ _ _ _ _ _ _ h.1)
  | vpack | vpackVx => exact coreOp_canonical h (vpack_memWf _ _ _ _ _ _ _ _ h.1)
  | vscale | vscaleVx => exact coreOp_canonical h (vscale_memWf _ _ _ _ _ _ _ _ h.1)
  | vamax | vamaxVx => exact coreOp_canonical h (vamax_memWf _ _ _ _ h.1)
  | bfly | bflyVx => exact coreOp_canonical h (bfly_memWf _ _ _ _ _ _ _ h.1)
  | twid | twidVx => exact coreOp_canonical h (twid_memWf _ _ _ _ _ _ h.1)
  | cmul | cmulVx => exact coreOp_canonical h (cmul_memWf _ _ _ _ _ _ _ h.1)
  | mlog => exact execMlog_canonical _ _ _ _ h
  | mpop => exact execMpop_canonical _ _ _ h
  | sbind => exact execSbind_canonical _ _ h
  | sunb => exact execSunb_canonical _ h
  | sqry => exact execSqry_canonical _ _ h
  | pour => exact execPour_canonical _ _ h
  | bari => exact execBari_canonical _ _ _ _ h
  | pourq => exact execPourq_canonical _ _ h
  | hndq => exact execHndq_canonical _ _ h
  | pload => exact execPload_canonical _ _ _ _ h
  | pswap => exact execPswap_canonical h
  | prun => exact execPrun_canonical _ _ _ _ h
  | paccReg => exact execPaccReg_canonical _ _ h
  | paccMem => exact execPaccMem_canonical _ _ _ _ _ _ h
  | ptest => exact execPtest_canonical _ h
  | ptestStamp => exact execPtestStamp_canonical _ _ h
  | pqry => exact execPqry_canonical _ h
  | gsort => exact execGsort_canonical _ _ _ _ h
  | gqry => exact execGqry_canonical _ h
  | send => exact execSend_canonical _ _ h
  | sendm => exact execSendm_canonical _ _ h
  | spawn => exact execSpawn_canonical _ _ _ _ h
  | launch => exact execLaunch_canonical _ h
  | stealc => exact execStealc_canonical _ _ _ h
  | ltcfg => exact execLtcfg_canonical _ _ h
  | ltlink => exact execLtlink_canonical _ _ _ _ h
  | ltsend => exact execLtsend_canonical _ _ _ _ h
  | ltclk => exact execLtclk_canonical _ h
  | ltdrip => exact execLtdrip_canonical _ _ _ h
  | ltqry => exact execLtqry_canonical _ _ h
  | gang => exact execGang_canonical _ _ _ h
  | disb => exact execDisb_canonical h
  | coll => exact execColl_canonical _ _ h
  | collw => exact execCollw_canonical _ _ h
  | getc => exact execGetc_canonical _ _ h
  | setc => exact execSetc_canonical _ _ h
  | time => exact execTime_canonical _ h
  | cyc => exact execCyc_canonical _ h
  | eret => exact execEret_canonical _ h
  | bkpt => exact execBkpt_canonical _ h
  | trace => exact execTrace_canonical _ _ h
  | enrg => exact execEnrg_canonical _ h
  | illop => exact execIllop_canonical _ h
  | sequentialFlowBadtgt => exact execSequentialFlowBadtgt_canonical _ h
  | releaseEntries => exact execReleaseEntries_canonical _ h
  | landEntry => exact execLandEntry_canonical _ h
  | entryAck => exact execEntryAck_canonical _ h
  | commit => exact execCommit_canonical _ h
  | commitNoticeServe => exact execCommitNoticeServe_canonical _ h
  | commitComplete => exact execCommitComplete_canonical _ h
  | abortNoticeServe => exact execAbortNoticeServe_canonical _ h
  | requestServe => exact execRequestServe_canonical _ h
  | replyArrival => exact execReplyArrival_canonical _ h
  | resultDelivery => exact execResultDelivery_canonical _ _ h
  | pageWalk => exact execPageWalk_canonical _ _ h
  | retransmitTimeout => exact execRetransmitTimeout_canonical _ h
  | strike => exact execStrike_canonical _ _ h
  | strikeReport => exact execStrikeReport_canonical _ h
  | budgetExhausted => exact execBudgetExhausted_canonical _ h
  | dispatch => exact execDispatch_canonical _ h
  | stealAttempt => exact execStealAttempt_canonical _ _ h
  | stealWaitExpiry => exact execStealWaitExpiry_canonical _ h
  | park => exact execPark_canonical _ h
  | watchReady => exact execWatchReady_canonical _ _ h
  | waitmRetest => exact execWaitmRetest_canonical _ h
  | trapHandlerDispatch => exact execTrapHandlerDispatch_canonical _ h
  | trapRingResume => exact execTrapRingResume_canonical _ h
  | ploadExecute => exact execPloadExecute_canonical _ h
  | pswapExecute => exact execPswapExecute_canonical _ h
  | prunFinish => exact execPrunFinish_canonical _ h
  | ptestFinish => exact execPtestFinish_canonical _ h
  | grinderSliceFinish => exact execGrinderSliceFinish_canonical _ h
  | engineCompletion => exact execEngineCompletion_canonical _ _ h
  | enginePreimageFree => exact execEnginePreimageFree_canonical _ _ h
  | pourStart => exact execPourStart_canonical _ _ h
  | pourFlitLand => exact execPourFlitLand_canonical _ _ _ h
  | pourReceiverCompletion => exact execPourReceiverCompletion_canonical _ _ _ h
  | streamFill => exact execStreamFill_canonical _ _ h
  | gangForm => exact execGangForm_canonical _ h
  | gangWaitTimeout => exact execGangWaitTimeout_canonical _ h
  | dripLand => exact execDripLand_canonical _ h
  | idleAdvance => exact execIdleAdvance_canonical _ h
  | idleDripPeriod => exact execIdleDripPeriod_canonical _ h
  | releaseMark => exact execReleaseMark_canonical _ h
  | waveStart => exact execWaveStart_canonical _ _ h
  | waveCombine => exact execWaveCombine_canonical _ _ h
  | doneBlockWrite => exact execDoneBlockWrite_canonical _ _ h
  | taskRecordPush => exact execTaskRecordPush_canonical _ _ h
  | leaseDrained => exact execLeaseDrained_canonical _ _ h
  | leaseLoaded => exact execLeaseLoaded_canonical _ _ h
  | scrub => exact execScrub_canonical _ _ h
  | flitReceive => exact execFlitReceive_canonical _ _ h
  | linkReplay => exact execLinkReplay_canonical _ _ h
  | portTrain => exact execPortTrain_canonical _ _ _ h
  | timeExchange => exact execTimeExchange_canonical _ _ _ _ h
  | collContribute => exact execCollContribute_canonical _ _ h
  | collCombine => exact execCollCombine_canonical _ _ h
  | collResultLand => exact execCollResultLand_canonical _ _ h
  | collOutputExpiry => exact execCollOutputExpiry_canonical _ _ h
  | config => exact execConfig_canonical _ h
  | loadsh => exact execLoadsh_canonical _ h
  | spillsh => exact execSpillsh_canonical _ h
  | swap => exact execSwap_canonical _ h
  | swapSettle => exact execSwapSettle_canonical _ h
  | swapEnter => exact execSwapEnter_canonical _ h
  | rowReloadDone => exact execRowReloadDone_canonical _ _ h
  | halt => exact execHalt_canonical _ h
  | haltRecordWrite => exact execHaltRecordWrite_canonical _ h
  | resume => exact execResume_canonical _ h
  | step => exact execStep_canonical _ h
  | stepDone => exact execStepDone_canonical _ h
  | kill => exact execKill_canonical _ h
  | revoke => exact execRevoke_canonical _ h
  | revokeDone => exact execRevokeDone_canonical _ h
  | free => exact execFree_canonical _ h
  | unknownOpcode => exact execUnknownOpcode_canonical _ h
  | grun => exact execGrun_canonical _ h
  | gstop => exact execGstop_canonical _ h
  | tagset => exact execTagset_canonical _ h
  | tlbinv => exact execTlbinv_canonical _ h
  | power => exact execPower_canonical _ h
  | graphLaunchNode => exact execGraphLaunchNode_canonical _ _ h
  | graphCopyNode => exact execGraphCopyNode_canonical _ _ h
  | graphWaitNode => exact execGraphWaitNode_canonical _ _ h
  | graphWaitTimeout => exact execGraphWaitTimeout_canonical _ _ h
  | graphCondNode => exact execGraphCondNode_canonical _ _ h
  | graphNotifyNode => exact execGraphNotifyNode_canonical _ _ h
  | graphSignalNode => exact execGraphSignalNode_canonical _ _ h
  | graphEndNode => exact execGraphEndNode_canonical _ _ h
  | graphNodeDone => exact execGraphNodeDone_canonical _ _ h
  | ringConsReread => exact execRingConsReread_canonical _ h
  | ringInterruptTimer => exact execRingInterruptTimer_canonical _ h
  | bar2Read => exact execBar2Read_canonical _ _ h
  | bar2Write => exact execBar2Write_canonical _ _ _ h
  | bar2WriteRelease => exact execBar2WriteRelease_canonical _ h
  | controlRegisterWrite => exact execControlRegisterWrite_canonical _ _ h
  | eflgClear => exact execEflgClear_canonical _ _ h
  | mismatchCountClear => exact execMismatchCountClear_canonical _ h
  | portCountClear => exact execPortCountClear_canonical _ _ h
  | debugRead => exact execDebugRead_canonical _ _ _ h
  | debugWrite => exact execDebugWrite_canonical _ _ _ h
  | thermalTrip => exact execThermalTrip_canonical h
  | conventionalReset => exact execConventionalReset_canonical h
  | selfTestDone => exact execSelfTestDone_canonical _ _ h
  | firmwareVerify => exact execFirmwareVerify_canonical _ _ h
  | getVersion | getCapabilities | negotiateAlgorithms | getDigests | getCertificate | challenge | getMeasurements =>
    exact spdm_canonical _ _ h
  | commandCompletion => exact execCommandCompletion_canonical _ h

theorem setAgenda_canonical (l : List Turn) (h : Canonical s) : Canonical { s with agenda := l } := h

theorem moveOn_canonical {f : Instr → State → Out} (hf : KeepsCanonical f) (h : Canonical s) : NextCanonical (s.moveOn f) := by
  unfold State.moveOn
  have ht := turn_canonical hf h
  split
  next e => exact setAgenda_canonical _ (ht.of_eq e)
  next => exact ht

theorem step_canonical (h : Canonical s) : NextCanonical (step s) := by
  unfold step
  split
  · exact moveOn_canonical exec_canonical h
  next k l _ => exact .ite (turn_canonical exec_canonical (focus_canonical k (setAgenda_canonical l h))) trivial
  next i l _ => exact exec_canonical i _ (setAgenda_canonical l h)
  next n a b c l _ => exact runAuto_canonical n a b c (setAgenda_canonical l h)
  next x flips l _ => exact upset_canonical x flips (setAgenda_canonical l h)

/-- Settles O59: the invariant is inductive as it stands, because no operation of the model writes a memory except by writes that keep its
form. -/
theorem memoryStaysCanonical : Obligations.MemoryStaysCanonical := by
  unfold Obligations.MemoryStaysCanonical
  exact fun s t h e => (step_canonical h).of_eq e

end Sys2Proof.Machine
end

