-- ==== Sys2Proof/Proofs/TurnFrame.lean ====
section
/-! What a turn does before it issues leaves the focus and every gang as they were: records, energy, the clk that pass, requests that leave. -/

namespace Sys2Proof.Machine

open Safety

/-! ### Steps that touch no core -/

/-- The focus and every core are the same. -/
def SameCores (s t : State) : Prop := t.cur = s.cur ∧ t.me = s.me ∧ t.others = s.others

theorem SameCores.refl (s : State) : SameCores s s := ⟨rfl, rfl, rfl⟩

theorem SameCores.trans {s t u : State} (h : SameCores s t) (g : SameCores t u) : SameCores s u :=
  ⟨g.1.trans h.1, g.2.1.trans h.2.1, g.2.2.trans h.2.2⟩

theorem charge_sameCores (s : State) (x k n : Nat) : SameCores s (s.charge x k n) := by
  unfold State.charge
  simp only
  split <;> exact .refl s

theorem chargeHops_sameCores (s : State) (x : BitVec 8) (a b : Nat) : SameCores s (s.chargeHops x a b) :=
  (charge_sameCores s _ _ _).trans (charge_sameCores _ _ _ _)

theorem chargeClk_sameCores (s : State) (k n : Nat) : SameCores s (s.chargeClk k n) := by
  unfold State.chargeClk
  split
  · exact .refl s
  · exact charge_sameCores s _ _ _

theorem physPut_sameCores (s : State) (pa : Nat) (bs : List Byte) : SameCores s (s.physPut pa bs) := by
  unfold State.physPut
  split <;> exact .refl s

theorem decode1_sameCores (s : State) (tag : BitVec 4) (x : Nat) : SameCores s (s.decode1 tag x).1 := by
  unfold State.decode1
  split
  · exact .refl s
  · simp only
    split
    · exact .refl s
    · split
      · exact .refl s
      · split <;> exact .refl s

theorem readLine_sameCores (s : State) (pa : Nat) : SameCores s (s.readLine pa) := by
  unfold State.readLine
  split
  · exact .refl s
  · exact decode1_sameCores s _ _

theorem ringPut_sameCores (s : State) (pa size unit : Nat) (r : List W64) : SomeAll (SameCores s) (s.ringPut pa size unit r) := by
  have h := readLine_sameCores s pa
  unfold State.ringPut
  simp only
  split
  · exact h
  · split
    · trivial
    · exact h.trans ((physPut_sameCores _ _ _).trans (physPut_sameCores _ _ _))

theorem tracePut_sameCores (s : State) (x : Nat) (r : List W64) : SomeAll (SameCores s) (s.tracePut x r) := by
  unfold State.tracePut
  simp only
  split
  · exact .refl s
  · split
    · exact .refl s
    · split
      · exact .refl s
      · exact ringPut_sameCores s _ _ _ _

theorem flushTraces_sameCores (l : List (BitVec 8 × List W64)) (s : State) : SameCores s (flushTraces l s).2 := by
  induction l generalizing s with
  | nil => exact .refl s
  | cons x l ih =>
    unfold flushTraces
    split
    next t ht => exact ((tracePut_sameCores s _ _).of_eq ht).trans (ih t)
    next => exact .refl s

theorem sendFor_sameCores (s : State) (x : BitVec 8) (dst : Nat) (b : Body) : SameCores s (s.sendFor x dst b) := by
  have h := chargeHops_sameCores s x s.cur dst
  unfold State.sendFor
  simp only
  split <;> exact h

theorem sendReads_sameCores (id : Nat) (l : List (Home × W64)) (s : State) : SameCores s (sendReads id l s).2 := by
  induction l generalizing s with
  | nil => exact .refl s
  | cons x l ih =>
    unfold sendReads
    split
    · exact (sendFor_sameCores s _ _ _).trans (ih _)
    · exact .refl s

/-! ### Steps that keep the gangs -/

/-- The focus is the same, and every core is in the gang it was in. -/
def SameGangs (s t : State) : Prop := t.cur = s.cur ∧ ∀ k, (t.core k).gang = (s.core k).gang

theorem SameGangs.refl (s : State) : SameGangs s s := ⟨rfl, fun _ => rfl⟩

theorem SameGangs.trans {s t u : State} (h : SameGangs s t) (g : SameGangs t u) : SameGangs s u :=
  ⟨g.1.trans h.1, fun k => (g.2 k).trans (h.2 k)⟩

theorem SameGangs.me {s t : State} (h : SameGangs s t) : t.me.gang = s.me.gang := by
  have hk := h.2 s.cur
  rwa [core_self, ← h.1, core_self] at hk

theorem SameGangs.gangOf {s t : State} (h : SameGangs s t) : t.gangOf = s.gangOf := by
  unfold State.gangOf
  rw [h.me, h.1]

theorem SameCores.core {s t : State} (h : SameCores s t) (k : Nat) : t.core k = s.core k := by
  unfold State.core
  rw [h.1, h.2.1, h.2.2]

theorem SameCores.gangs {s t : State} (h : SameCores s t) : SameGangs s t := ⟨h.1, fun k => by rw [h.core k]⟩

/-- An update of the core in focus that leaves it in its gang. -/
theorem setMe_sameGangs (s : State) {c : Core} (h : c.gang = s.me.gang) : SameGangs s { s with me := c } := by
  refine ⟨rfl, fun k => ?_⟩
  unfold State.core
  split
  · exact h
  · rfl

theorem core_focus (s : State) (k j : Nat) : ((s.focus k).core j).gang = (s.core j).gang := by
  by_cases hj : j = k
  · subst hj
    have hc := core_self (s.focus j)
    rw [focus_cur] at hc
    rw [hc, focus_me]
  · unfold State.focus
    split
    · rfl
    next hk =>
      unfold State.core
      by_cases hc : j = s.cur
      · subst hc; simp [hj, aget_aset]
      · simp [hj, hc, aget_aset, aget_adel]

theorem onCore_sameGangs {f : State → State} (hf : ∀ s, SameGangs s (f s)) (k : Nat) (s : State) : SameGangs s (onCore k f s) := by
  unfold onCore
  split
  · exact hf s
  · refine ⟨focus_cur _ _, fun j => ?_⟩
    rw [core_focus, (hf _).2, core_focus]

theorem foldl_onCore_sameGangs {f : State → State} (hf : ∀ s, SameGangs s (f s)) (l : List Nat) (s : State) :
    SameGangs s (l.foldl (fun s k => onCore k f s) s) := by
  induction l generalizing s with
  | nil => exact .refl s
  | cons k l ih => exact (onCore_sameGangs hf k s).trans (ih _)

theorem onCores_sameGangs {f : State → State} (hf : ∀ s, SameGangs s (f s)) (l : List Nat) (s : State) : SameGangs s (onCores l f s) :=
  foldl_onCore_sameGangs hf l s

theorem drainTraces_sameGangs (s : State) : SameGangs s s.drainTraces := by
  unfold State.drainTraces
  split
  · exact .refl s
  · exact (flushTraces_sameCores s.me.traceOut s).gangs.trans (setMe_sameGangs _ rfl)

theorem sendUnsent_sameGangs (s : State) : SameGangs s s.sendUnsent.2 := by
  unfold State.sendUnsent
  split
  · exact .refl s
  next r _ => exact (sendReads_sameCores r.id r.unsent s).gangs.trans (setMe_sameGangs _ rfl)

/-! ### The clk of a core -/

theorem claimBank_gang (c : Core) (x : BitVec 8) (b : Nat) : (c.claimBank x b).gang = c.gang := by
  unfold Core.claimBank
  simp only
  split
  · rfl
  · split
    · rfl
    · split <;> rfl

theorem claim_gang (c : Core) (x : BitVec 8) (n : Nat) : (c.claim x n).gang = c.gang := by
  unfold Core.claim
  split <;> rfl

theorem logLine_gang (c : Core) (n : Nat) : (c.logLine n).gang = c.gang := by
  unfold Core.logLine
  split <;> rfl

/-- What leaves every step of a fold in its gang leaves the fold in it. -/
theorem foldl_gang {α : Type} {f : Core → α → Core} (hf : ∀ c a, (f c a).gang = c.gang) (l : List α) (c : Core) :
    (l.foldl f c).gang = c.gang :=
  foldl_keeps (fun d : Core => d.gang = c.gang) (fun _ _ h => (hf _ _).trans h) l rfl

theorem ownWrite_gang (c : Core) (a : Nat) (bs : List Byte) : (c.ownWrite a bs).gang = c.gang :=
  calc (c.ownWrite a bs).gang = (c.claimAll c.act.ctx a bs.length).gang := foldl_gang logLine_gang _ _
    _ = c.gang := foldl_gang (fun c _ => (claim_gang _ _ _).trans (claimBank_gang c _ _)) _ _

theorem outStore_gang (c : Core) (h : Home) (d : Line) (m : W64) (tag : BitVec 4) (a : W64) : (c.outStore h d m tag a).gang = c.gang := by
  unfold Core.outStore
  split <;> rfl

theorem pushStream_gang (c : Core) (t : Stream) (x : Line) : OkAll (fun d : Core => d.gang = c.gang) (pushStream c t x) := by
  unfold pushStream
  split
  · trivial
  · split
    · trivial
    · refine .seq fun _ => .seq fun _ => ?_
      split
      · exact .seq fun _ => foldl_gang (f := fun c (e : Nat × List Byte) => c.ownWrite e.1 e.2) (fun c e => ownWrite_gang c _ _) _ _
      · exact .seq fun _ => (foldl_gang (fun c e => outStore_gang c _ _ _ _ _) _ (c.setStream { t with pos := t.pos + 1 }))

theorem deliver_gang (c : Core) (d : BitVec 6) (x : W64) : (c.deliver d x).gang = c.gang := by
  unfold Core.deliver
  split
  next e he =>
    unfold writeS at he
    split at he
    · exact (pushStream_gang c _ _).of_eq he
    · cases he; exact Core.setS_gang c d _
  next => rfl

theorem deliverDue_gang (c : Core) : c.deliverDue.gang = c.gang :=
  foldl_gang (f := fun c (r : Pend) => c.deliver (BitVec.ofNat 6 r.d) r.val) (fun c _ => deliver_gang c _ _) _ _

theorem passClk_sameGangs (s : State) (n : Nat) : SameGangs s (s.passClk n) := by
  unfold State.passClk
  extract_lets c bud _ c1 c2
  have h : c2.gang = s.me.gang := by
    unfold c2
    split <;> rfl
  exact (setMe_sameGangs s ((deliverDue_gang c2).trans h)).trans (chargeClk_sameCores _ _ _).gangs

theorem tick_sameGangs (s : State) : SameGangs s s.tick := passClk_sameGangs _ _

end Sys2Proof.Machine
end

