-- ==== Sys2Proof/Proofs/Turns.lean ====
section
/-! The turn of a core, the steps of the agenda and the round: what each does, one lemma per case. -/

namespace Sys2Proof.Machine

open Safety

/-! ### Where a turn stands once its clk have passed and its records have gone out -/

/-- The members of the gang of the core in focus have passed their clk and put their records. -/
def State.started (v : State) : State := onCores v.gangOf State.drainTraces (v.gangOf.foldl (fun s k => onCore k State.tick s) v)

theorem started_sameGangs (v : State) : SameGangs v v.started :=
  (foldl_onCore_sameGangs tick_sameGangs v.gangOf v).trans (onCores_sameGangs drainTraces_sameGangs _ _)

theorem gangOf_alone {v : State} (h : v.me.gang = none) : v.gangOf = [v.cur] := by simp [State.gangOf, h]

theorem started_alone {v : State} (h : v.me.gang = none) : v.started = v.tick.drainTraces := by
  have hc : v.tick.cur = v.cur := (tick_sameGangs v).1
  unfold State.started
  rw [gangOf_alone h, List.foldl_cons, List.foldl_nil, onCore_self, ← hc, onCores_self]

/-- The turn looks at the gang again after each of the two passes, and finds it the same. -/
theorem started_eq (v : State) :
    onCores (v.gangOf.foldl (fun s k => onCore k State.tick s) v).gangOf State.drainTraces (v.gangOf.foldl (fun s k => onCore k State.tick s) v) =
      v.started := by
  unfold State.started
  rw [(foldl_onCore_sameGangs tick_sameGangs v.gangOf v).gangOf]

/-! ### The branches of a turn -/

section Turn

variable {v : State} (awake : (v.power.toList.getD (dieOf v.cur) 0).toNat < 2)

theorem turn_asleep (h : 2 ≤ (v.power.toList.getD (dieOf v.cur) 0).toNat) :
    State.turn exec v = .next { v with me := { v.me with at9 := v.el9 } } := if_pos h

include awake

theorem turn_follower (h : v.me.isFollower = true) : State.turn exec v = .next v := by
  unfold State.turn
  rw [if_neg (by omega), if_pos h]

variable (leads : v.me.isFollower = false)

include leads

theorem turn_reports (h : v.started.gangOf.any (fun k => (v.started.core k).report.isSome) = true) :
    State.turn exec v = .next v.started.settle := by
  unfold State.turn
  rw [if_neg (by omega), if_neg (by simp [leads])]
  simp only [started_eq, if_pos h]

variable (quiet : v.started.gangOf.any (fun k => (v.started.core k).report.isSome) = false)

include quiet

theorem turn_traces (h : v.started.gangOf.any (fun k => !(v.started.core k).traceOut.isEmpty) = true) :
    State.turn exec v = .next (v.started.waiting .ring) := by
  unfold State.turn
  rw [if_neg (by omega), if_neg (by simp [leads])]
  simp only [started_eq, quiet, Bool.false_eq_true, if_false, if_pos h]

variable (written : v.started.gangOf.any (fun k => !(v.started.core k).traceOut.isEmpty) = false) (kept : v.started.rollBad = none)

include written kept

theorem turn_idle (h : v.started.me.running = false ∨ v.started.me.held? = true ∨ v.started.spent = true) : State.turn exec v = .next v.started := by
  have hi : (!v.started.me.running || v.started.me.held? || v.started.spent) = true := by
    rcases h with h | h | h <;> simp [h]
  unfold State.turn
  rw [if_neg (by omega), if_neg (by simp [leads])]
  simp only [started_eq, quiet, written, kept, Bool.false_eq_true, if_false, if_pos hi]

theorem turn_issues {w : State} (hr : v.started.me.running = true) (hh : v.started.me.held? = false) (hs : v.started.spent = false)
    (hw : State.sendAll v.started v.started.gangOf = (true, w)) (hb : w.headBreak = none) :
    State.turn exec v = match w.issue exec with | .next t => .next (w.after t) | o => o := by
  unfold State.turn
  rw [if_neg (by omega), if_neg (by simp [leads])]
  simp only [started_eq, quiet, written, kept, hr, hh, hs, hw, hb, Bool.not_true, Bool.or_self, Bool.false_eq_true, if_false] <;> rfl

end Turn

/-! ### The head at pc -/

theorem issue_instr {w : State} {r : Raw} {i : Instr} (hf : w.me.fetch w.me.pc = some r) (hd : decode r = .instr i) :
    w.issue exec = match (if w.me.gang.isSome then gangIssue (State.perform exec) i w else w.perform exec i) with
      | .next t => .next (w.observe i t)
      | x => x := by
  simp only [State.issue, hf, hd] <;> rfl

theorem issue_illop {w : State} {r : Raw} (hf : w.me.fetch w.me.pc = some r) (hd : decode r = .illop) : w.issue exec = exec (.illop r.enc) w := by
  simp only [State.issue, hf, hd]

theorem issue_resv {w : State} {r : Raw} {mask : W64} (hf : w.me.fetch w.me.pc = some r) (hd : decode r = .resv mask)
    (hg : gangIllop w.me r mask = false) : w.issue exec = traps w 0x002 r.enc mask 0 := by
  simp only [State.issue, hf, hd, hg, Bool.false_eq_true, if_false]
  rfl

theorem issue_badPc {w : State} (hf : w.me.fetch w.me.pc = none) : w.issue exec = exec (.sequentialFlowBadtgt w.cur) w := by
  simp only [State.issue, hf]
  rfl

/-- An instruction with nothing to meet again, at a core without streams, is performed as exec gives it. -/
theorem perform_exec {i : Instr} {w : State} (ha : w.me.again = []) (hs : w.me.streams = []) : State.perform exec i w = exec i w := by
  have ho : w.me.owed? i = none := by
    unfold Core.owed?
    split <;> simp [ha]
  simp [State.perform, ho, State.byOrder, hs]

/-! ### One member of a gang of one -/

theorem sendAll_alone {u w : State} (h : State.sendAll u [u.cur] = (true, w)) : SameGangs u w := by
  have hx := sendUnsent_sameGangs u
  have hc : u.sendUnsent.2.focus u.cur = u.sendUnsent.2 := by rw [← hx.1, focus_self]
  simp only [State.sendAll, focus_self, hc, Prod.mk.injEq] at h
  rwa [← h.2]

/-! ### The agenda -/

section Agenda

variable {s : State} {l : List Turn}

theorem step_issue {k : Nat} (h : s.agenda = .issue k :: l) :
    step s = if k < Config.nCores then State.turn exec (({ s with agenda := l } : State).focus k) else .fault .noSuchUnit := by
  unfold step
  rw [h]

theorem step_event {i : Instr} (h : s.agenda = .event i :: l) : step s = exec i { s with agenda := l } := by
  unfold step
  rw [h]

theorem step_own {n : Auto} {a b c : Nat} (h : s.agenda = .own n a b c :: l) : step s = runAuto n a b c { s with agenda := l } := by
  unfold step
  rw [h]

theorem step_upset {x : Nat} {flips : List (Nat × Byte)} (h : s.agenda = .upset x flips :: l) :
    step s = .next (({ s with agenda := l } : State).upset x flips) := by
  unfold step
  rw [h]

theorem step_nothing (h : s.agenda = []) : step s = match State.turn exec s with | .next t => .next { t with agenda := t.round } | o => o := by
  unfold step
  rw [h]
  rfl

end Agenda

/-! ### The round -/

theorem mem_nset {l : List Nat} {a k : Nat} : k ∈ nset l a ↔ k = a ∨ k ∈ l := by
  induction l with
  | nil => simp [nset]
  | cons j l ih =>
    unfold nset
    split
    · simp
    · split
      next h => simp [h]
      next => simp [ih]; tauto

theorem mem_nunion {a b : List Nat} {k : Nat} : k ∈ nunion a b ↔ k ∈ a ∨ k ∈ b := by
  unfold nunion
  induction b generalizing a with
  | nil => simp
  | cons j b ih => simp [ih, mem_nset]; tauto

theorem mem_awake {t : State} {k : Nat} (h : k ∈ t.cores ∨ ∃ x ∈ t.leases, x.2.st ≠ .free ∧ k ∈ rowCores x.1) : k ∈ t.awake := by
  refine mem_nunion.2 (h.imp_right fun ⟨x, hx, hf, hk⟩ => List.mem_flatMap.2 ⟨x, List.mem_filter.2 ⟨hx, ?_⟩, hk⟩)
  simpa using hf

variable {t : State} {y : Turn}

theorem issue_round {k : Nat} (hk : k ∈ t.cores) (hc : k ≠ t.cur) (hr : (t.core k).running = true) : .issue k ∈ t.round := by
  have hf : k ∈ t.cores.filter fun k => k != t.cur && (t.core k).running := List.mem_filter.2 ⟨hk, by simp [hc, hr]⟩
  exact List.mem_append_left _ (List.mem_append_left _ (List.mem_append_left _ (List.mem_map_of_mem hf)))

theorem packetTurns_round {j : Nat} {p : Packet} (h : t.chan[j]? = some p) (hy : y ∈ packetTurns j p) : y ∈ t.round := by
  have hj : (p, j) ∈ t.chan.zipIdx.reverse := List.mem_reverse.2 (List.mk_mem_zipIdx_iff_getElem?.2 h)
  exact List.mem_append_left _ (List.mem_append_left _ (List.mem_append_right _ (List.mem_flatMap.2 ⟨_, hj, hy⟩)))

theorem coreTurns_round {k : Nat} (h : k ∈ t.awake) (hy : y ∈ t.coreTurns k) : y ∈ t.round :=
  List.mem_append_left _ (List.mem_append_right _ (List.mem_flatMap.2 ⟨k, h, hy⟩))

theorem unitTurns_round (hy : y ∈ t.unitTurns) : y ∈ t.round := List.mem_append_right _ hy

end Sys2Proof.Machine
end

