-- ==== Sys2Proof/Proofs/StepRunsDecoded.lean ====
section
/-! O57: a step runs the decoded instruction, and a round leaves every agent its turn. -/

namespace Sys2Proof.Machine

open Safety

/-! ### The turn of a core outside a gang -/

section Alone

variable {v : State} (alone : v.me.gang = none) (awake : (v.power.toList.getD (dieOf v.cur) 0).toNat < 2)

include alone

theorem leads_alone : v.me.isFollower = false := by simp [Core.isFollower, alone]

theorem started_gangOf_alone : v.started.gangOf = [v.started.cur] := by
  rw [(started_sameGangs v).gangOf, gangOf_alone alone, (started_sameGangs v).1]

theorem started_reports_alone :
    v.started.gangOf.any (fun k => (v.started.core k).report.isSome) = v.tick.drainTraces.me.report.isSome := by
  rw [started_gangOf_alone alone, List.any_cons, List.any_nil, core_self, started_alone alone, Bool.or_false]

theorem started_traces_alone :
    v.started.gangOf.any (fun k => !(v.started.core k).traceOut.isEmpty) = !v.tick.drainTraces.me.traceOut.isEmpty := by
  rw [started_gangOf_alone alone, List.any_cons, List.any_nil, core_self, started_alone alone, Bool.or_false]

include awake

theorem turn_alone_reports (h : v.tick.drainTraces.me.report.isSome = true) : State.turn exec v = .next v.tick.drainTraces.settle := by
  rw [turn_reports awake (leads_alone alone) (by rw [started_reports_alone alone, h]), started_alone alone]

theorem turn_alone_traces (hq : v.tick.drainTraces.me.report = none) (h : v.tick.drainTraces.me.traceOut ≠ []) :
    State.turn exec v = .next (v.tick.drainTraces.waiting .ring) := by
  rw [turn_traces awake (leads_alone alone) (by rw [started_reports_alone alone, hq]; rfl)
    (by rw [started_traces_alone alone]; simpa using h), started_alone alone]

theorem turn_alone_idle (hq : v.tick.drainTraces.me.report = none) (hw : v.tick.drainTraces.me.traceOut = []) (hk : v.tick.drainTraces.rollBad = none)
    (h : v.tick.drainTraces.me.running = false ∨ v.tick.drainTraces.me.held? = true ∨ v.tick.drainTraces.spent = true) :
    State.turn exec v = .next v.tick.drainTraces := by
  rw [← started_alone alone] at hk h ⊢
  exact turn_idle awake (leads_alone alone) (by rw [started_reports_alone alone, hq]; rfl) (by rw [started_traces_alone alone, hw]; rfl) hk h

theorem turn_alone_issues (hq : v.tick.drainTraces.me.report = none) (ht : v.tick.drainTraces.me.traceOut = [])
    (hk : v.tick.drainTraces.rollBad = none) (hr : v.tick.drainTraces.me.running = true) (hh : v.tick.drainTraces.me.held? = false)
    (hs : v.tick.drainTraces.spent = false) {w : State} (hw : State.sendAll v.tick.drainTraces [v.cur] = (true, w)) (hb : w.headBreak = none) :
    State.turn exec v = match w.issue exec with | .next t => .next (w.after t) | o => o := by
  have hg : v.started.gangOf = [v.cur] := by rw [started_gangOf_alone alone, (started_sameGangs v).1]
  rw [← started_alone alone] at hk hr hh hs hw
  exact turn_issues awake (leads_alone alone) (by rw [started_reports_alone alone, hq]; rfl) (by rw [started_traces_alone alone, ht]; rfl) hk
    hr hh hs (by rw [hg, hw]) hb

omit awake in
/-- After the requests have left, the core is in focus still, and in no gang. -/
theorem sent_alone {w : State} (hw : State.sendAll v.tick.drainTraces [v.cur] = (true, w)) : w.cur = v.cur ∧ w.me.gang = none := by
  have hv := started_sameGangs v
  rw [started_alone alone] at hv
  rw [← hv.1] at hw
  have h := hv.trans (sendAll_alone hw)
  exact ⟨h.1, h.me.trans alone⟩

end Alone

/-- What a performed instruction leaves is observed, and then the turn ends. -/
theorem observe_after (w : State) (i : Instr) (o : Out) :
    (match (match o with | .next t => Host.Outcome.next (w.observe i t) | x => x) with | .next t => Host.Outcome.next (w.after t) | x => x) =
      match o with | .next t => .next (w.after (w.observe i t)) | o => o := by
  cases o <;> rfl

theorem turn_outside_gangs (v : State) (alone : v.me.gang = none) (awake : (v.power.toList.getD (dieOf v.cur) 0).toNat < 2) :
    let u := v.tick.drainTraces
    (u.me.report.isSome = true → State.turn exec v = .next u.settle) ∧
    (u.me.report = none → u.me.traceOut ≠ [] → State.turn exec v = .next (u.waiting .ring)) ∧
    (u.me.report = none → u.me.traceOut = [] → u.rollBad = none →
      (u.me.running = false ∨ u.me.held? = true ∨ u.spent = true → State.turn exec v = .next u) ∧
      (u.me.running = true → u.me.held? = false → u.spent = false → ∀ w, State.sendAll u [v.cur] = (true, w) → w.headBreak = none →
        let ends := fun (seen : State → State) (o : Out) => State.turn exec v = match o with | .next t => .next (w.after (seen t)) | o => o
        (∀ r i, w.me.fetch w.me.pc = some r → decode r = .instr i → ends (w.observe i) (State.perform exec i w)) ∧
        (∀ r, w.me.fetch w.me.pc = some r → decode r = .illop → ends id (exec (.illop r.enc) w)) ∧
        (∀ r mask, w.me.fetch w.me.pc = some r → decode r = .resv mask → gangIllop w.me r mask = false → ends id (traps w 0x002 r.enc mask 0)) ∧
        (w.me.fetch w.me.pc = none → ends id (exec (.sequentialFlowBadtgt v.cur) w)))) := by
  refine ⟨turn_alone_reports alone awake, turn_alone_traces alone awake, fun hq ht hk => ⟨turn_alone_idle alone awake hq ht hk, ?_⟩⟩
  intro hr hh hs w hw hb
  have hi := turn_alone_issues alone awake hq ht hk hr hh hs hw hb
  obtain ⟨hc, hg⟩ := sent_alone alone hw
  refine ⟨fun r i hf hd => ?_, fun r hf hd => ?_, fun r mask hf hd hm => ?_, fun hf => ?_⟩
  · rw [issue_instr hf hd, hg] at hi
    exact hi.trans (observe_after w i _)
  · rw [issue_illop hf hd] at hi
    exact hi
  · rw [issue_resv hf hd hm] at hi
    exact hi
  · rw [issue_badPc hf, hc] at hi
    exact hi

/-! ### The turns of a gang -/

theorem turn_in_gang (v : State) (g : Gang) (hg : v.me.gang = some g) (awake : (v.power.toList.getD (dieOf v.cur) 0).toNat < 2) :
    (g.idx ≠ 0 → State.turn exec v = .next v) ∧
    (g.idx = 0 →
      let u := onCores v.gangOf State.drainTraces (v.gangOf.foldl (fun s k => onCore k State.tick s) v)
      (∀ k ∈ u.gangOf, (u.core k).report = none ∧ (u.core k).traceOut = []) → u.rollBad = none → u.me.running = true → u.me.held? = false → u.spent = false →
      ∀ w r i, State.sendAll u u.gangOf = (true, w) → w.headBreak = none → w.me.gang.isSome = true → w.me.fetch w.me.pc = some r → decode r = .instr i →
        State.turn exec v = match gangIssue (State.perform exec) i w with | .next t => .next (w.after (w.observe i t)) | o => o) := by
  refine ⟨fun hi => turn_follower awake ?_, fun hi => ?_⟩
  · simp [Core.isFollower, hg, hi]
  · intro u hm hk hr hh hs w r i hw hb hgang hf hd
    have leads : v.me.isFollower = false := by simp [Core.isFollower, hg, hi]
    have quiet : u.gangOf.any (fun k => (u.core k).report.isSome) = false := by
      simp only [List.any_eq_false]
      intro k hk
      rw [(hm k hk).1]
      simp
    have written : u.gangOf.any (fun k => !(u.core k).traceOut.isEmpty) = false := by
      simp only [List.any_eq_false]
      intro k hk
      rw [(hm k hk).2]
      simp
    have h := turn_issues awake leads quiet written hk hr hh hs hw hb
    rw [issue_instr hf hd, if_pos hgang] at h
    exact h.trans (observe_after w i _)

/-! ### The package's own steps -/

/-- A step of the package's own that one number names is executed as the instruction with that number. -/
theorem step_own_one {j : Nat} {l : List Turn} {s : State} :
    ∀ x ∈ [(Auto.releaseEntries, Instr.releaseEntries), (.landEntry, .landEntry), (.entryAck, .entryAck), (.commit, .commit),
         (.commitNoticeServe, .commitNoticeServe), (.commitComplete, .commitComplete), (.abortNoticeServe, .abortNoticeServe),
         (.requestServe, .requestServe), (.replyArrival, .replyArrival), (.retransmitTimeout, .retransmitTimeout), (.strikeReport, .strikeReport),
         (.budgetExhausted, .budgetExhausted), (.dispatch, .dispatch), (.stealWaitExpiry, .stealWaitExpiry), (.park, .park),
         (.trapHandlerDispatch, .trapHandlerDispatch), (.trapRingResume, .trapRingResume), (.ploadExecute, .ploadExecute),
         (.pswapExecute, .pswapExecute), (.prunFinish, .prunFinish), (.ptestFinish, .ptestFinish), (.grinderSliceFinish, .grinderSliceFinish),
         (.gangForm, .gangForm), (.gangWaitTimeout, .gangWaitTimeout), (.dripLand, .dripLand), (.idleAdvance, .idleAdvance),
         (.idleDripPeriod, .idleDripPeriod), (.releaseMark, .releaseMark), (.swapSettle, .swapSettle), (.swapEnter, .swapEnter),
         (.haltRecordWrite, .haltRecordWrite), (.stepDone, .stepDone), (.revokeDone, .revokeDone), (.ringConsReread, .ringConsReread),
         (.ringInterruptTimer, .ringInterruptTimer), (.commandCompletion, .commandCompletion)],
      s.agenda = .own x.1 j 0 0 :: l → step s = exec (x.2 j) { s with agenda := l } := by
  simp only [List.forall_mem_cons, List.not_mem_nil, false_implies, implies_true, and_true]
  refine ⟨?_, ?_, ?_, ?_, ?_, ?_, ?_, ?_, ?_, ?_, ?_, ?_, ?_, ?_, ?_, ?_, ?_, ?_, ?_, ?_, ?_, ?_, ?_, ?_, ?_, ?_, ?_, ?_, ?_, ?_, ?_, ?_, ?_, ?_, ?_, ?_⟩
  all_goals exact step_own

/-- The same for steps that two numbers name. -/
theorem step_own_two {j m : Nat} {l : List Turn} {s : State} :
    ∀ x ∈ [(Auto.resultDelivery, Instr.resultDelivery), (.stealAttempt, .stealAttempt), (.watchReady, .watchReady),
         (.engineCompletion, .engineCompletion), (.enginePreimageFree, .enginePreimageFree), (.pourStart, .pourStart), (.streamFill, .streamFill),
         (.waveStart, .waveStart), (.waveCombine, .waveCombine), (.doneBlockWrite, .doneBlockWrite), (.taskRecordPush, .taskRecordPush),
         (.leaseDrained, .leaseDrained), (.leaseLoaded, .leaseLoaded), (.collContribute, .collContribute), (.collCombine, .collCombine),
         (.collResultLand, .collResultLand), (.collOutputExpiry, .collOutputExpiry), (.rowReloadDone, .rowReloadDone),
         (.graphWaitTimeout, .graphWaitTimeout), (.graphNodeDone, .graphNodeDone)],
      s.agenda = .own x.1 j m 0 :: l → step s = exec (x.2 j m) { s with agenda := l } := by
  simp only [List.forall_mem_cons, List.not_mem_nil, false_implies, implies_true, and_true]
  refine ⟨?_, ?_, ?_, ?_, ?_, ?_, ?_, ?_, ?_, ?_, ?_, ?_, ?_, ?_, ?_, ?_, ?_, ?_, ?_, ?_⟩
  all_goals exact step_own

theorem step_own_linkReplay {j : Nat} {l : List Turn} {s : State} {x : BitVec 12} (h : s.agenda = .own .linkReplay j 0 0 :: l)
    (hx : (s.port j).asked = some x) : step s = exec (.linkReplay j x) { s with agenda := l } := by
  rw [step_own h]
  have hx : (({ s with agenda := l } : State).port j).asked = some x := hx
  simp only [runAuto, hx]
  rfl

/-! ### A round -/

section Round

variable (t : State)

/-! The steps of the units: each unit's own, and where they stand in the round. -/

def pourTurns (p : Pour) : List Turn :=
  [.own .pourStart p.cluster p.ch 0] ++ p.landed.flatMap fun x =>
    [.own .pourFlitLand (16 * p.cluster + p.ch) x.1 (prefixOf x.2), .own .pourReceiverCompletion (16 * p.cluster + p.ch) x.1 0]

def leaseTurns (x : Nat × Lease) : List Turn := [Auto.leaseLoaded, .leaseDrained, .rowReloadDone].map fun n => .own n (x.1 / 8) (x.1 % 8) 0

def launchTurns (l : Launch) : List Turn :=
  [Auto.taskRecordPush, .waveCombine, .waveStart, .doneBlockWrite].map fun n => .own n l.ctx.toNat l.lnch.toNat 0

def State.channelTurns (s : State) (ch : Nat) : List Turn :=
  if (s.chan? ch).busy then [Auto.command, .revokeDone, .commandCompletion].map fun n => .own n ch 0 0 else []

def contextTurns (x : Nat × Ctx) : List Turn := [Auto.swapSettle, .swapEnter].map fun n => .own n x.1 0 0

def slotTurns (x : Nat × Slot) : List Turn := [Auto.graphNode, .graphWaitTimeout, .graphNodeDone].map fun n => .own n (x.1 / 16) (x.1 % 16) 0

def ringTurns (x : Nat × HRing) : List Turn := [Auto.ringConsReread, .ringInterruptTimer].map fun n => .own n x.1 0 0

theorem unitTurns_eq : t.unitTurns = t.pours.flatMap pourTurns ++ t.leases.flatMap leaseTurns ++ t.launches.flatMap launchTurns ++
    (List.range t.strikes.length).reverse.map (fun k => .own .strikeReport k 0 0) ++ (List.range 4).flatMap t.channelTurns ++
    (t.ctxs.filter fun x => x.2.drain.isSome).flatMap contextTurns ++ (t.slots.filter fun x => x.2.st == .running).flatMap slotTurns ++
    t.rings.flatMap ringTurns ++ (nunion [] (t.posted.map (·.req))).map (fun q => .own .postedRelease q 0 0) ++
    t.ports.map (fun x => .own .linkReplay x.1 0 0) := rfl

variable {t}

theorem pour_round {p : Pour} (hp : p ∈ t.pours) {y : Turn} (hy : y ∈ pourTurns p) : y ∈ t.round := by
  refine unitTurns_round ?_
  simp only [unitTurns_eq, List.mem_append, List.mem_flatMap.2 ⟨p, hp, hy⟩, true_or]

theorem pourFlit_round {p : Pour} (hp : p ∈ t.pours) : ∀ x ∈ p.landed,
    .own .pourFlitLand (16 * p.cluster + p.ch) x.1 (prefixOf x.2) ∈ t.round ∧ Turn.own .pourReceiverCompletion (16 * p.cluster + p.ch) x.1 0 ∈ t.round := by
  intro x hx
  refine ⟨pour_round hp ?_, pour_round hp ?_⟩
  all_goals exact List.mem_append_right _ (List.mem_flatMap.2 ⟨x, hx, by simp⟩)

theorem lease_round {x : Nat × Lease} (hx : x ∈ t.leases) {n : Auto} (hn : n ∈ [Auto.leaseLoaded, .leaseDrained, .rowReloadDone]) :
    .own n (x.1 / 8) (x.1 % 8) 0 ∈ t.round := by
  have hm := List.mem_flatMap (f := leaseTurns).2 ⟨x, hx, List.mem_map_of_mem hn⟩
  exact unitTurns_round (by simp only [unitTurns_eq, List.mem_append, hm, true_or, or_true])

theorem launch_round {l : Launch} (hl : l ∈ t.launches) {n : Auto} (hn : n ∈ [Auto.taskRecordPush, .waveCombine, .waveStart, .doneBlockWrite]) :
    .own n l.ctx.toNat l.lnch.toNat 0 ∈ t.round := by
  have hm := List.mem_flatMap (f := launchTurns).2 ⟨l, hl, List.mem_map_of_mem hn⟩
  exact unitTurns_round (by simp only [unitTurns_eq, List.mem_append, hm, true_or, or_true])

theorem strike_round {j : Nat} (hj : j < t.strikes.length) : .own .strikeReport j 0 0 ∈ t.round := by
  have hm := List.mem_map_of_mem (f := fun k => Turn.own .strikeReport k 0 0) (List.mem_reverse.2 (List.mem_range.2 hj))
  exact unitTurns_round (by simp only [unitTurns_eq, List.mem_append, hm, true_or, or_true])

theorem channel_round {ch : Nat} (hc : ch < 4) (hb : (t.chan? ch).busy = true) {n : Auto}
    (hn : n ∈ [Auto.command, .revokeDone, .commandCompletion]) : .own n ch 0 0 ∈ t.round := by
  have ht : Turn.own n ch 0 0 ∈ t.channelTurns ch := by
    unfold State.channelTurns
    rw [if_pos hb]
    exact List.mem_map_of_mem (f := fun n => Turn.own n ch 0 0) hn
  have hm := List.mem_flatMap.2 ⟨ch, List.mem_range.2 hc, ht⟩
  exact unitTurns_round (by simp only [unitTurns_eq, List.mem_append, hm, true_or, or_true])

theorem context_round {x : Nat × Ctx} (hx : x ∈ t.ctxs) (hd : x.2.drain.isSome = true) {n : Auto} (hn : n ∈ [Auto.swapSettle, .swapEnter]) :
    .own n x.1 0 0 ∈ t.round := by
  have hm := List.mem_flatMap (f := contextTurns).2 ⟨x, List.mem_filter (p := fun x : Nat × Ctx => x.2.drain.isSome).2 ⟨hx, hd⟩, List.mem_map_of_mem hn⟩
  exact unitTurns_round (by simp only [unitTurns_eq, List.mem_append, hm, true_or, or_true])

theorem slot_round {x : Nat × Slot} (hx : x ∈ t.slots) (hr : x.2.st = .running) {n : Auto}
    (hn : n ∈ [Auto.graphNode, .graphWaitTimeout, .graphNodeDone]) : .own n (x.1 / 16) (x.1 % 16) 0 ∈ t.round := by
  have hm := List.mem_flatMap (f := slotTurns).2 ⟨x, List.mem_filter (p := fun x : Nat × Slot => x.2.st == .running).2 ⟨hx, by simp [hr]⟩, List.mem_map_of_mem hn⟩
  exact unitTurns_round (by simp only [unitTurns_eq, List.mem_append, hm, true_or, or_true])

theorem ring_round {x : Nat × HRing} (hx : x ∈ t.rings) {n : Auto} (hn : n ∈ [Auto.ringConsReread, .ringInterruptTimer]) :
    .own n x.1 0 0 ∈ t.round := by
  have hm := List.mem_flatMap (f := ringTurns).2 ⟨x, hx, List.mem_map_of_mem hn⟩
  exact unitTurns_round (by simp only [unitTurns_eq, List.mem_append, hm, true_or, or_true])

theorem posted_round {x : HWrite} (hx : x ∈ t.posted) : .own .postedRelease x.req 0 0 ∈ t.round := by
  have hm := List.mem_map_of_mem (f := fun q => Turn.own .postedRelease q 0 0)
    (mem_nunion (a := []).2 (.inr (List.mem_map_of_mem (f := fun x : HWrite => x.req) hx)))
  exact unitTurns_round (by simp only [unitTurns_eq, List.mem_append, hm, true_or, or_true])

theorem port_round {x : Nat × Port} (hx : x ∈ t.ports) : .own .linkReplay x.1 0 0 ∈ t.round := by
  have hm := List.mem_map_of_mem (f := fun x : Nat × Port => Turn.own .linkReplay x.1 0 0) hx
  exact unitTurns_round (by simp only [unitTurns_eq, List.mem_append, hm, or_true])

/-! The steps of a packet and of a core. -/

variable (t)

theorem packet_round {j : Nat} {p : Packet} (h : t.chan[j]? = some p) :
    Turn.own .retransmitTimeout j 0 0 ∈ t.round ∧ (match p.body with
      | .entry .. => Turn.own .landEntry j 0 0 ∈ t.round
      | .ack .. | .abortAck _ => Turn.own .entryAck j 0 0 ∈ t.round
      | .notice _ | .noticeAck .. => Turn.own .commitNoticeServe j 0 0 ∈ t.round
      | .abort _ => Turn.own .abortNoticeServe j 0 0 ∈ t.round
      | .request .. | .sub .. | .res .. => Turn.own .requestServe j 0 0 ∈ t.round
      | .reply .. | .subAck .. | .resAck .. => Turn.own .replyArrival j 0 0 ∈ t.round
      | .drip .. => Turn.own .dripLand j 0 0 ∈ t.round) := by
  refine ⟨packetTurns_round h (by simp [packetTurns]), ?_⟩
  split
  next hb => exact packetTurns_round h (by simp [packetTurns, hb])
  next hb => exact packetTurns_round h (by simp [packetTurns, hb])
  next hb => exact packetTurns_round h (by simp [packetTurns, hb])
  next hb => exact packetTurns_round h (by simp [packetTurns, hb])
  next hb => exact packetTurns_round h (by simp [packetTurns, hb])
  next hb => exact packetTurns_round h (by simp [packetTurns, hb])
  next hb => exact packetTurns_round h (by simp [packetTurns, hb])
  next hb => exact packetTurns_round h (by simp [packetTurns, hb])
  next hb => exact packetTurns_round h (by simp [packetTurns, hb])
  next hb => exact packetTurns_round h (by simp [packetTurns, hb])
  next hb => exact packetTurns_round h (by simp [packetTurns, hb])
  next hb => exact packetTurns_round h (by simp [packetTurns, hb])
  next hb => exact packetTurns_round h (by simp [packetTurns, hb])

/-- The steps of a core that its number names, before and after those of its operations, streams and parks. -/
def firstTurns : List Auto := [.trapRingResume, .trapHandlerDispatch, .releaseEntries, .commit, .commitComplete, .releaseMark, .ploadExecute,
  .pswapExecute, .prunFinish, .ptestFinish, .grinderSliceFinish]

def lastTurns : List Auto := [.gangForm, .gangWaitTimeout, .haltRecordWrite, .stepDone, .dispatch, .park, .budgetExhausted, .idleAdvance,
  .idleDripPeriod, .stealWaitExpiry]

def opTurns : List Auto := [.collContribute, .collCombine, .collResultLand, .engineCompletion, .enginePreimageFree]

theorem coreTurns_eq (k : Nat) : t.coreTurns k = firstTurns.map (fun n => .own n k 0 0) ++
    (t.core k).ops.flatMap (fun o => opTurns.map fun n => .own n k o.seq 0) ++ [.own .enginePreimageFree k 0 0] ++
    (t.core k).colls.map (fun x => .own .collOutputExpiry k x.1 0) ++
    (t.core k).streams.map (fun x => .own .streamFill k x.code 0) ++
    (List.range (t.core k).parks.length).map (fun j => .own .watchReady k j 0) ++
    (List.range (t.core k).pend.length).reverse.map (fun j => .own .resultDelivery k j 0) ++
    lastTurns.map (fun n => .own n k 0 0) ++
    (((t.focus k).searchOrder ((t.focus k).lease (rowId k)))[(t.core k).victims]?.map fun j => .own .stealAttempt k j 0).toList := rfl

theorem named_coreTurns (k : Nat) {n : Auto} (h : n ∈ firstTurns ++ lastTurns) : Turn.own n k 0 0 ∈ t.coreTurns k := by
  rw [coreTurns_eq]
  simp only [List.mem_append]
  rcases List.mem_append.1 h with h | h
  all_goals simp only [List.mem_map_of_mem (f := fun n => Turn.own n k 0 0) h, true_or, or_true]

theorem op_coreTurns (k : Nat) {o : EngOp} (ho : o ∈ (t.core k).ops) {n : Auto} (h : n ∈ opTurns) : Turn.own n k o.seq 0 ∈ t.coreTurns k := by
  have hm := List.mem_flatMap (f := fun o : EngOp => opTurns.map fun n => Turn.own n k o.seq 0).2
    ⟨o, ho, List.mem_map_of_mem (f := fun n => Turn.own n k o.seq 0) h⟩
  rw [coreTurns_eq]
  simp only [List.mem_append, hm, true_or, or_true]

theorem core_round {k : Nat} (hk : k ∈ t.cores ∨ ∃ x ∈ t.leases, x.2.st ≠ .free ∧ k ∈ rowCores x.1) :
    (∀ n ∈ [Auto.trapRingResume, .trapHandlerDispatch, .releaseEntries, .commit, .commitComplete, .releaseMark, .ploadExecute, .pswapExecute, .prunFinish,
        .ptestFinish, .grinderSliceFinish, .gangForm, .gangWaitTimeout, .haltRecordWrite, .stepDone, .dispatch, .park, .budgetExhausted, .idleAdvance,
        .idleDripPeriod, .stealWaitExpiry], Turn.own n k 0 0 ∈ t.round) ∧
    (∀ o ∈ (t.core k).ops, ∀ n ∈ [Auto.collContribute, .collCombine, .collResultLand, .engineCompletion, .enginePreimageFree],
      Turn.own n k o.seq 0 ∈ t.round) ∧
    Turn.own .enginePreimageFree k 0 0 ∈ t.round ∧ (∀ x ∈ (t.core k).colls, Turn.own .collOutputExpiry k x.1 0 ∈ t.round) ∧
    (∀ x ∈ (t.core k).streams, Turn.own .streamFill k x.code 0 ∈ t.round) ∧
    (∀ j < (t.core k).parks.length, Turn.own .watchReady k j 0 ∈ t.round) ∧ (∀ j < (t.core k).pend.length, Turn.own .resultDelivery k j 0 ∈ t.round) ∧
    (∀ j, ((t.focus k).searchOrder ((t.focus k).lease (rowId k)))[(t.core k).victims]? = some j → Turn.own .stealAttempt k j 0 ∈ t.round) := by
  have ha := mem_awake hk
  refine ⟨fun n hn => coreTurns_round ha (named_coreTurns t k hn), fun o ho n hn => coreTurns_round ha (op_coreTurns t k ho hn),
    coreTurns_round ha ?_, fun x hx => coreTurns_round ha ?_,
    fun x hx => coreTurns_round ha ?_, fun j hj => coreTurns_round ha ?_, fun j hj => coreTurns_round ha ?_, fun j hj => coreTurns_round ha ?_⟩
  all_goals rw [coreTurns_eq]; simp only [List.mem_append]
  · simp only [List.mem_singleton, true_or, or_true]
  · simp only [List.mem_map_of_mem (f := fun x : Nat × Nat => Turn.own .collOutputExpiry k x.1 0) hx, true_or, or_true]
  · simp only [List.mem_map_of_mem (f := fun x : Stream => Turn.own .streamFill k x.code 0) hx, true_or, or_true]
  · simp only [List.mem_map_of_mem (f := fun j => Turn.own .watchReady k j 0) (List.mem_range.2 hj), true_or, or_true]
  · simp only [List.mem_map_of_mem (f := fun j => Turn.own .resultDelivery k j 0) (List.mem_reverse.2 (List.mem_range.2 hj)), true_or, or_true]
  · exact .inr (by simp [hj])

end Round

/-- Settles O57, case by case of the turn, the agenda and the round. -/
theorem stepRunsDecoded : Obligations.StepRunsDecoded := by
  refine ⟨turn_outside_gangs, fun _ _ => perform_exec, fun _ => turn_asleep, turn_in_gang, fun _ _ _ h hk => (step_issue h).trans (if_pos hk),
    fun _ _ _ h hk => (step_issue h).trans (if_neg (Nat.not_lt.2 hk)), fun _ _ _ => step_event, fun _ _ _ _ => step_upset, ?_, fun _ => step_nothing, ?_⟩
  · intro j m l s
    exact ⟨step_own_one, step_own_two, fun _ _ => step_own, step_own, fun _ => step_own_linkReplay, step_own⟩
  · intro t
    exact ⟨fun _ => issue_round, fun _ _ => packet_round t, fun _ => core_round t,
      fun _ hp => ⟨pour_round hp (by simp [pourTurns]), pourFlit_round hp⟩, fun _ hx _ => lease_round hx, fun _ hl _ => launch_round hl,
      fun _ => strike_round, fun _ hc hb _ => channel_round hc hb,
      fun _ hx hd => ⟨context_round hx hd (.head _), context_round hx hd (.tail _ (.head _))⟩, fun _ hx hr _ => slot_round hx hr,
      fun _ hx => ⟨ring_round hx (.head _), ring_round hx (.tail _ (.head _))⟩, fun _ => posted_round, fun _ => port_round⟩

end Sys2Proof.Machine
end

