-- ==== Sys2Proof/Proofs/RaisedFlags.lean ====
section
/-! Raised flags: the rules of `Core.raiseFlags`, and the end of an instruction that raises some (spec/02 R29, spec/11 R274). -/

namespace Sys2Proof.Machine

open Safety

/-! ### Reads and last uses keep the control words and the program counter -/

/-- The core c' has the control words and the program counter of c. -/
def SameHead (c c' : Core) : Prop := c'.ctl = c.ctl ∧ c'.pc = c.pc

theorem SameHead.trans {c c' c'' : Core} (h : SameHead c c') (h' : SameHead c' c'') : SameHead c c'' :=
  ⟨h'.1.trans h.1, h'.2.trans h.2⟩

theorem readS_sameHead {a : Src} {c c' : Core} {x : W64} (h : readS a c = .ok (x, c')) : SameHead c c' := by
  obtain ⟨l, k, rfl⟩ := readS_frame h
  exact ⟨rfl, rfl⟩

theorem readV_sameHead {a : VSrc} {c c' : Core} {x : Line} (h : readV a c = .ok (x, c')) : SameHead c c' := by
  obtain ⟨l, k, rfl⟩ := readV_frame h
  exact ⟨rfl, rfl⟩

theorem freeV_sameHead (a : VSrc) (c : Core) : SameHead c (freeV a c) := by
  unfold freeV Core.setV
  split <;> exact ⟨rfl, rfl⟩

/-- A last use frees a register whatever the flags are. -/
theorem freeS_flagged (a : Src) (c : Core) (f : Fl) : freeS a (flagged c f) = flagged (freeS a c) f := by
  unfold freeS Core.setS flagged
  simp only [Core.stream?]
  split
  · split <;> rfl
  · rfl

/-! ### Flags pass or trap -/

/-- The first flag of a set that is not empty is in it, and none before it is. -/
theorem firstFlag_spec : ∀ f : Fl, f ≠ 0 → firstFlag f < 5 ∧ f.getLsbD (firstFlag f) = true ∧ ∀ j < firstFlag f, f.getLsbD j = false := by
  decide

/-- Flags of which MODE enables none go to FLG. -/
theorem raiseFlags_pass {c : Core} {f : Fl} (h : c.ctl.mode.setWidth 5 &&& f = 0) (lanes : W64) : c.raiseFlags f lanes = .ok (flagged c f) := by
  rw [BitVec.and_comm] at h
  exact if_pos h

/-- An enabled flag traps. -/
theorem raiseFlags_trap {c : Core} {f : Fl} (h : c.ctl.mode.setWidth 5 &&& f ≠ 0) (lanes : W64) :
    c.raiseFlags f lanes = trap c (0x301 + firstFlag (c.ctl.mode.setWidth 5 &&& f)) 0 lanes (f.setWidth 64) := by
  rw [BitVec.and_comm] at h ⊢
  exact if_neg h

theorem coreOp_trap {s : State} {g : Core → Res Core} {c : Core} {k : Nat} {w3 w6 w7 : W64} (hpc : c.pc = s.me.pc)
    (h : g s.me = trap c k w3 w6 w7) : coreOp s g = traps s k w3 w6 w7 := by
  simp [coreOp, h, Machine.trap, precise, hpc, finish, Except.map, traps]

/-- An instruction that raises f on the core c1, which its reads have made, and then goes on as `next`, which writes to c with the flags. -/
theorem floatEnd_of_raise {s : State} {g next write : Core → Res Core} {c c1 : Core} {f : Fl} {lanes : W64} {ok : W64 → Prop}
    (hc : SameHead s.me c1) (hrun : g s.me = (c1.raiseFlags f lanes).bind next) (hnext : next (flagged c1 f) = write (flagged c f))
    (hok : ok lanes) : floatEnd s f ok write c (coreOp s g) := by
  obtain ⟨hctl, hpc⟩ := hc
  unfold floatEnd
  rw [← hctl]
  constructor
  · intro hm c' hw
    exact coreOp_ok (by rw [hrun, raiseFlags_pass hm, ← hw, ← hnext]; rfl)
  · intro hm
    obtain ⟨hlt, hset, hfirst⟩ := firstFlag_spec _ hm
    refine ⟨_, hlt, hset, hfirst, lanes, hok, coreOp_trap hpc ?_⟩
    rw [hrun, raiseFlags_trap hm]; rfl

end Sys2Proof.Machine
end

