-- ==== Sys2Proof/Proofs/ScalarFloat.lean ====
section
/-! The scalar floating-point instructions (spec/05 R127 to R135). -/

namespace Sys2Proof.Machine

open Safety

/-! ### The shapes: operands, flags or their trap, result -/

section Shapes

variable {d : BitVec 6} {a b e : Src} {s : State} {x y z : W64} {c : Core}

/-- A long-latency producer or an instruction with its result at once, of one source: `write` takes the result of f and its flags. -/
theorem floatEnd_reads1 {f : Nat → Nat × Fl} (write : Nat → Core → Res Core) (h : Reads1 d a s.me x c) :
    floatEnd s (f x.toNat).2 (· = 0) (write (f x.toNat).1) c (coreOp s fun c => do
      destS d c
      let (x, c) ← readS a c
      let r := f x.toNat
      let c ← c.raiseFlags r.2
      write r.1 (freeS a c)) := by
  obtain ⟨hd, c1, ha, rfl⟩ := h
  exact floatEnd_of_raise (next := fun c => write (f x.toNat).1 (freeS a c)) (readS_sameHead ha)
    (by simp [hd, ha, bind, Except.bind]) (by rw [freeS_flagged]) rfl

theorem floatEnd_reads2 {f : Nat → Nat → Nat × Fl} (write : Nat → Core → Res Core) (h : Reads2 d a b s.me x y c) :
    floatEnd s (f x.toNat y.toNat).2 (· = 0) (write (f x.toNat y.toNat).1) c (coreOp s fun c => do
      destS d c
      let (x, c) ← readS a c
      let (y, c) ← readS b c
      let r := f x.toNat y.toNat
      let c ← c.raiseFlags r.2
      write r.1 (freeS b (freeS a c))) := by
  obtain ⟨hd, c1, c2, ha, hb, rfl⟩ := h
  exact floatEnd_of_raise (next := fun c => write (f x.toNat y.toNat).1 (freeS b (freeS a c)))
    ((readS_sameHead ha).trans (readS_sameHead hb)) (by simp [hd, ha, hb, bind, Except.bind]) (by rw [freeS_flagged, freeS_flagged]) rfl

theorem floatEnd_fop3 {f : Nat → Nat → Nat → Nat × Fl} (h : Reads3 d a b e s.me x y z c) :
    floatEnd s (f x.toNat y.toNat z.toNat).2 (· = 0) (writeS d (BitVec.ofNat 64 (f x.toNat y.toNat z.toNat).1)) c
      (coreOp s (fop3 d a b e f)) := by
  obtain ⟨hd, c1, c2, c3, ha, hb, he, rfl⟩ := h
  exact floatEnd_of_raise (next := fun c => writeS d (ofNat (f x.toNat y.toNat z.toNat).1) (freeS e (freeS b (freeS a c))))
    (((readS_sameHead ha).trans (readS_sameHead hb)).trans (readS_sameHead he)) (by simp [fop3, hd, ha, hb, he, bind, Except.bind])
    (by rw [freeS_flagged, freeS_flagged, freeS_flagged]; rfl) rfl

theorem done_op1 {f : W64 → W64} {c' : Core} (h : Reads1 d a s.me x c) (hw : writeS d (f x) c = .ok c') :
    coreOp s (op1 d a f) = done s c' := by
  obtain ⟨hd, c1, ha, rfl⟩ := h
  exact coreOp_ok (op1_ok hd ha hw)

theorem done_op2 {f : W64 → W64 → W64} {c' : Core} (h : Reads2 d a b s.me x y c) (hw : writeS d (f x y) c = .ok c') :
    coreOp s (op2 d a b f) = done s c' := by
  obtain ⟨hd, c1, c2, ha, hb, rfl⟩ := h
  exact coreOp_ok (op2_ok hd ha hb hw)

end Shapes

/-! ### Latencies, results and signs -/

theorem divLat_eq (t : Ty) : divLat t = if t = .f64 then 24 else if t = .f32 then 14 else 10 := by cases t <;> rfl
theorem sqrtLat_eq (t : Ty) : sqrtLat t = if t = .f64 then 28 else if t = .f32 then 16 else 10 := by cases t <;> rfl

theorem ofInt_sext_four (n : Nat) : BitVec.ofInt 64 (sext n 4) = (BitVec.ofNat 4 n).signExtend 64 := by
  rw [BitVec.signExtend, BitVec.toInt_eq_toNat_cond, BitVec.toNat_ofNat, sext]
  congr 1
  split <;> split <;> omega

/-- The register that a conversion writes (spec/05 R133, R107). -/
theorem ofNat_resultBits (t : Ty) (n : Nat) : BitVec.ofNat 64 (resultBits t n) =
    if t.isInt then widen (n : Int) t else if t = .i4 then (BitVec.ofNat 4 n).signExtend 64 else BitVec.ofNat 64 n := by
  unfold resultBits
  by_cases h4 : t = .i4
  · subst h4
    simp [Ty.isInt, ofInt_sext_four]
  · simp only [beq_iff_eq, h4, if_false]
    split
    · rw [BitVec.ofNat_toNat, BitVec.setWidth_eq]
    · rfl

/-- FSGN with a sign operation of two sources (spec/05 R135). -/
theorem fsgn_eq (t : Ty) {op : SgnOp} (h : op ≠ .abs) (a b : Nat) : fsgn t op a b = a % 2 ^ (t.width - 1) +
    if (if op = .cpy then b.testBit (t.width - 1) else if op = .neg then !b.testBit (t.width - 1)
      else a.testBit (t.width - 1) != b.testBit (t.width - 1)) then 2 ^ (t.width - 1) else 0 := by
  have ha := Nat.mod_two_eq_zero_or_one (a / 2 ^ (t.width - 1))
  have hb := Nat.mod_two_eq_zero_or_one (b / 2 ^ (t.width - 1))
  simp only [Nat.testBit_eq_decide_div_mod_eq]
  cases op with
  | cpy => rcases hb with hb | hb <;> simp [fsgn, hb, Nat.add_comm]
  | neg => rcases hb with hb | hb <;> simp [fsgn, hb, Nat.add_comm]
  | xor => rcases ha with ha | ha <;> rcases hb with hb | hb <;> simp [fsgn, ha, hb, Nat.add_comm]
  | abs => exact absurd rfl h

/-! ### Classes (spec/05 R131) -/

theorem isArith_iff {t : Ty} : t.isArith = true ↔ t = .f64 ∨ t = .f32 ∨ t = .bf16 := by cases t <;> decide

/-- Decode of an arithmetic format by its fields (spec/02 R20). -/
theorem decodeF_arith {t : Ty} (h : t.isArith = true) (x : Nat) : decodeF t x =
    if x / 2 ^ (Ty.fmt t).mb % 2 ^ (Ty.fmt t).eb = 2 ^ (Ty.fmt t).eb - 1 then
      if x % 2 ^ (Ty.fmt t).mb = 0 then .inf (x.testBit (t.width - 1))
      else .nan (x.testBit (t.width - 1)) (x % 2 ^ (Ty.fmt t).mb * 2 ^ (52 - (Ty.fmt t).mb))
    else if x / 2 ^ (Ty.fmt t).mb % 2 ^ (Ty.fmt t).eb = 0 then
      .fin (x.testBit (t.width - 1)) (x % 2 ^ (Ty.fmt t).mb) (1 - ((Ty.fmt t).bias : Int) - (Ty.fmt t).mb)
    else .fin (x.testBit (t.width - 1)) (2 ^ (Ty.fmt t).mb + x % 2 ^ (Ty.fmt t).mb)
      ((x / 2 ^ (Ty.fmt t).mb % 2 ^ (Ty.fmt t).eb : Nat) - ((Ty.fmt t).bias : Int) - (Ty.fmt t).mb) := by
  have hneg (n : Nat) : (n % 2 == 1) = decide (n % 2 = 1) := rfl
  rcases isArith_iff.1 h with rfl | rfl | rfl <;>
    simp [decodeF, Ty.isInt, Ty.fmt, Ty.width, Nat.testBit_eq_decide_div_mod_eq, hneg]

/-- The quiet bit of a mantissa field of p bits, aligned to 52 bits. -/
theorem testBit_quiet {m p : Nat} (hp : 0 < p) (hp' : p ≤ 52) (hm : m < 2 ^ p) : (m * 2 ^ (52 - p)).testBit 51 = decide (2 ^ (p - 1) ≤ m) := by
  have hi : 51 = p - 1 + (52 - p) := by omega
  rw [hi, Nat.testBit_mul_two_pow, decide_eq_true (by omega), Bool.true_and, Nat.add_sub_cancel, Nat.testBit_eq_decide_div_mod_eq, decide_eq_decide]
  have h2 : 2 ^ p = 2 * 2 ^ (p - 1) := by rw [← Nat.pow_succ']; congr 1; omega
  have hlt : m / 2 ^ (p - 1) < 2 := by rw [Nat.div_lt_iff_lt_mul (by positivity)]; omega
  have hle : 1 ≤ m / 2 ^ (p - 1) ↔ 2 ^ (p - 1) ≤ m := by rw [Nat.le_div_iff_mul_le (by positivity), Nat.one_mul]
  rw [← hle]
  generalize m / 2 ^ (p - 1) = q at hlt
  omega

theorem fmt_arith {t : Ty} (h : t.isArith = true) : 0 < (Ty.fmt t).mb ∧ (Ty.fmt t).mb ≤ 52 := by
  rcases isArith_iff.1 h with rfl | rfl | rfl <;> decide

/-- The number of the class of an encoding, by its sign, its exponent field and its mantissa. -/
def classOf (t : Ty) (x : Nat) : Nat :=
  let f := Ty.fmt t
  let neg := x.testBit (t.width - 1)
  let e := x / 2 ^ f.mb % 2 ^ f.eb
  let m := x % 2 ^ f.mb
  if e = 2 ^ f.eb - 1 then (if m = 0 then (if neg then 0 else 7) else if 2 ^ (f.mb - 1) ≤ m then 9 else 8)
  else if e = 0 then (if m = 0 then (if neg then 3 else 4) else if neg then 2 else 5)
  else if neg then 1 else 6

theorem fclass_eq {t : Ty} (h : t.isArith = true) (x : Nat) : fclass t x = 2 ^ classOf t x := by
  obtain ⟨hp, hp'⟩ := fmt_arith h
  have hm : x % 2 ^ (Ty.fmt t).mb < 2 ^ (Ty.fmt t).mb := Nat.mod_lt _ (by positivity)
  unfold fclass classOf
  rw [decodeF_arith h]
  dsimp only
  generalize x % 2 ^ (Ty.fmt t).mb = m at hm
  generalize x / 2 ^ (Ty.fmt t).mb % 2 ^ (Ty.fmt t).eb = e
  by_cases htop : e = 2 ^ (Ty.fmt t).eb - 1
  · rw [if_pos htop, if_pos htop]
    by_cases h0 : m = 0
    · simp only [if_pos h0]; split <;> rfl
    · simp only [if_neg h0, testBit_quiet hp hp' hm, decide_eq_true_eq]; split <;> rfl
  · rw [if_neg htop, if_neg htop]
    by_cases hlow : e = 0
    · rw [if_pos hlow, if_pos hlow]
      by_cases h0 : m = 0
      · simp only [if_pos h0]; split <;> rfl
      · simp only [if_neg h0, if_pos hm]; split <;> rfl
    · have hn : ¬ 2 ^ (Ty.fmt t).mb + m < 2 ^ (Ty.fmt t).mb := by omega
      have h0 : ¬ 2 ^ (Ty.fmt t).mb + m = 0 := by have := Nat.two_pow_pos (Ty.fmt t).mb; omega
      simp only [if_neg hlow, if_neg h0, if_neg hn]; split <;> rfl

/-! ### The clauses of O10 -/

theorem floatEnd_floatRows2 {row : FloatRow2} (hrow : row ∈ floatRows2) {d : BitVec 6} {a b : Src} {rm : Rnd} {t : Ty} {s : State} {x y : W64}
    {c : Core} (h : Reads2 d a b s.me x y c) :
    floatEnd s (row.f t rm x.toNat y.toNat).2 (· = 0) (writeS d (BitVec.ofNat 64 (row.f t rm x.toNat y.toNat).1)) c
      (exec (row.op d a b rm t) s) := by
  simp only [floatRows2, List.mem_cons, List.not_mem_nil, or_false] at hrow
  rcases hrow with rfl | rfl | rfl | rfl | rfl <;> exact floatEnd_reads2 (fun r => writeS d (ofNat r)) h

theorem floatEnd_fcmp {d : BitVec 6} {a b : Src} {p : Pred} {t : Ty} {s : State} {x y : W64} {c : Core} (h : Reads2 d a b s.me x y c) :
    floatEnd s (fcmp t p x.toNat y.toNat).2 (· = 0) (writeS d (if (fcmp t p x.toNat y.toNat).1 then 1 else 0)) c
      (exec (.fcmp d a b p t) s) := by
  have hend := floatEnd_reads2 (f := fun x y => let r := fcmp t p x y; (if r.1 then 1 else 0, r.2)) (fun r => writeS d (ofNat r)) h
  dsimp only at hend
  rw [apply_ite ofNat] at hend
  exact hend

theorem floatEnd_fcvt {d : BitVec 6} {a : Src} {src : Ty} {rm : Rnd} {sat : Bool} {t : Ty} {s : State} {x : W64} {c : Core}
    (h : Reads1 d a s.me x c) :
    let r := convert x.toNat src t rm sat
    floatEnd s r.2 (· = 0) (writeS d (if t.isInt then widen (r.1 : Int) t else if t = .i4 then (BitVec.ofNat 4 r.1).signExtend 64
      else BitVec.ofNat 64 r.1)) c (exec (.fcvt d a src rm sat t) s) := by
  intro r
  rw [← ofNat_resultBits]
  exact floatEnd_reads1 (f := fun x => let r := convert x src t rm sat; (resultBits t r.1, r.2)) (fun r => writeS d (ofNat r)) h

/-- Settles O10: each instruction is one of the shapes above, on its operation. -/
theorem scalarFloat : Obligations.ScalarFloat := by
  unfold Obligations.ScalarFloat
  refine ⟨⟨fun row hrow d a b rm t s x y c _ h => floatEnd_floatRows2 hrow h, fun d a b e rm t s x y z c _ h => floatEnd_fop3 h,
      fun d a b p t s x y c _ h => floatEnd_fcmp h, fun d a _ rm t s x c _ h => floatEnd_reads1 (fun r => writeS d (ofNat r)) h,
      fun d a src rm sat t s x c h => floatEnd_fcvt h⟩, ⟨?_, ?_⟩, ?_, ?_⟩
  · intro d a b rm t s x y c _ h
    rw [← divLat_eq]
    exact floatEnd_reads2 (fun r => produce d (ofNat r) (divLat t)) h
  · intro d a rm t s x c _ h
    rw [← sqrtLat_eq]
    exact floatEnd_reads1 (fun r => produce d (ofNat r) (sqrtLat t)) h
  · intro d a b op t s x y c c' _ hop h hw
    refine done_op2 (f := fun x y => ofNat (fsgn t op x.toNat y.toNat)) h ?_
    rw [fsgn_eq t hop]
    exact hw
  · intro d a t s x c c' ht h hw
    refine done_op1 (f := fun x => ofNat (fclass t x.toNat)) h ?_
    rw [fclass_eq ht]
    exact hw

end Sys2Proof.Machine
end

