-- ==== Sys2Proof/Proofs/LaneRules.lean ====
section
/-! Lanes of a line: reading, writing one, writing several (spec/08 R192). -/

namespace Sys2Proof.Machine

open Safety

/-! ### Lanes by their bits -/

theorem testBit_laneAt (l : Line) (w i j : Nat) : (laneAt l w i).testBit j = (decide (j < w) && l.getLsbD (w * i + j)) := by
  rw [laneAt, Nat.testBit_mod_two_pow, Nat.testBit_shiftRight, BitVec.getLsbD]

theorem laneAt_lt (l : Line) (w i : Nat) : laneAt l w i < 2 ^ w := Nat.mod_lt _ (Nat.two_pow_pos w)

theorem toNat_div_two_pow_lt {n a : Nat} (x : BitVec n) (h : a ≤ n) : x.toNat / 2 ^ a < 2 ^ (n - a) := by
  rw [Nat.div_lt_iff_lt_mul (Nat.two_pow_pos a), Nat.pow_sub_mul_pow 2 h]; exact x.isLt

/-- A line with one lane replaced, as a number: what is above the lane, the lane, what is below it. -/
theorem toNat_setLane (l : Line) {w i : Nat} (v : Nat) (h : w * i + w ≤ 512) : (setLane l w i v).toNat =
    2 ^ (w * i) * (2 ^ w * (l.toNat / 2 ^ (w * i) / 2 ^ w) + v % 2 ^ w) + l.toNat % 2 ^ (w * i) := by
  have hlane : laneAt l w i = l.toNat / 2 ^ (w * i) % 2 ^ w := by rw [laneAt, Nat.shiftRight_eq_div_pow]
  have hl : l.toNat = 2 ^ (w * i) * (2 ^ w * (l.toNat / 2 ^ (w * i) / 2 ^ w) + laneAt l w i) + l.toNat % 2 ^ (w * i) := by
    rw [hlane, Nat.div_add_mod, Nat.div_add_mod]
  have hv : v % 2 ^ w + 1 ≤ 2 ^ w := Nat.mod_lt _ (Nat.two_pow_pos w)
  have hr : l.toNat % 2 ^ (w * i) < 2 ^ (w * i) := Nat.mod_lt _ (Nat.two_pow_pos _)
  have hq : 2 ^ w * (l.toNat / 2 ^ (w * i) / 2 ^ w + 1) * 2 ^ (w * i) ≤ 2 ^ 512 := by
    have hpow : (2 : Nat) ^ 512 = 2 ^ (512 - (w * i + w)) * (2 ^ (w * i) * 2 ^ w) := by
      rw [← Nat.pow_add, ← Nat.pow_add, Nat.sub_add_cancel h]
    have hlt : l.toNat / 2 ^ (w * i) / 2 ^ w < 2 ^ (512 - (w * i + w)) := by
      rw [Nat.div_div_eq_div_mul, ← Nat.pow_add]; exact toNat_div_two_pow_lt l h
    rw [hpow, Nat.mul_comm (2 ^ w), Nat.mul_assoc, Nat.mul_comm (2 ^ w)]
    exact Nat.mul_le_mul_right _ hlt
  rw [setLane, BitVec.toNat_ofNat]
  generalize laneAt l w i = u at hl
  generalize l.toNat / 2 ^ (w * i) / 2 ^ w = q at hl hq ⊢
  generalize l.toNat % 2 ^ (w * i) = r at hl hr ⊢
  generalize v % 2 ^ w = y at hv ⊢
  rw [hl]
  have hsub : 2 ^ (w * i) * (2 ^ w * q + u) + r - u * 2 ^ (w * i) + y * 2 ^ (w * i) = 2 ^ (w * i) * (2 ^ w * q + y) + r := by
    have e1 : 2 ^ (w * i) * (2 ^ w * q + u) + r = 2 ^ (w * i) * (2 ^ w * q) + r + u * 2 ^ (w * i) := by ring
    rw [e1, Nat.add_sub_cancel]; ring
  rw [hsub, Nat.mod_eq_of_lt]
  calc 2 ^ (w * i) * (2 ^ w * q + y) + r < 2 ^ (w * i) * (2 ^ w * q + y) + 2 ^ (w * i) := by omega
    _ = 2 ^ (w * i) * (2 ^ w * q + (y + 1)) := by ring
    _ ≤ 2 ^ (w * i) * (2 ^ w * q + 2 ^ w) := by gcongr
    _ = 2 ^ w * (q + 1) * 2 ^ (w * i) := by ring
    _ ≤ 2 ^ 512 := hq

theorem getLsbD_setLane (l : Line) {w i : Nat} (v b : Nat) (h : w * i + w ≤ 512) : (setLane l w i v).getLsbD b =
    if w * i ≤ b ∧ b < w * i + w then v.testBit (b - w * i) else l.getLsbD b := by
  rw [BitVec.getLsbD, toNat_setLane l v h, Nat.testBit_two_pow_mul_add _ (Nat.mod_lt _ (Nat.two_pow_pos _)),
    Nat.testBit_two_pow_mul_add _ (Nat.mod_lt _ (Nat.two_pow_pos _)), Nat.testBit_mod_two_pow, Nat.testBit_mod_two_pow, BitVec.getLsbD]
  by_cases hlow : b < w * i
  · simp [hlow, Nat.not_le.2 hlow]
  · by_cases hmid : b - w * i < w
    · have hmem : w * i ≤ b ∧ b < w * i + w := by omega
      simp [hlow, hmid, hmem]
    · have hmem : ¬ (w * i ≤ b ∧ b < w * i + w) := fun hb => hmid (by omega)
      rw [if_neg hlow, if_neg hmid, if_neg hmem, Nat.testBit_div_two_pow, Nat.testBit_div_two_pow]
      congr 1; omega

/-! ### Reading after writing -/

theorem laneAt_setLane_same (l : Line) {w i : Nat} (v : Nat) (h : w * i + w ≤ 512) : laneAt (setLane l w i v) w i = v % 2 ^ w := by
  refine Nat.eq_of_testBit_eq fun j => ?_
  rw [testBit_laneAt, getLsbD_setLane l v _ h, Nat.testBit_mod_two_pow]
  by_cases hj : j < w
  · simp [hj]
  · simp [hj]

theorem laneAt_setLane_of_ne (l : Line) {w i k : Nat} (v : Nat) (h : w * i + w ≤ 512) (hk : k ≠ i) :
    laneAt (setLane l w i v) w k = laneAt l w k := by
  refine Nat.eq_of_testBit_eq fun j => ?_
  rw [testBit_laneAt, testBit_laneAt, getLsbD_setLane l v _ h]
  by_cases hj : j < w
  · have hout : ¬ (w * i ≤ w * k + j ∧ w * k + j < w * i + w) := by
      rcases Nat.lt_or_gt_of_ne hk with hlt | hgt
      · have := Nat.mul_le_mul_left w hlt; rw [Nat.mul_succ] at this; omega
      · have := Nat.mul_le_mul_left w hgt; rw [Nat.mul_succ] at this; omega
    rw [if_neg hout]
  · simp [hj]

/-- A lane that no entry of the list names keeps its value. -/
theorem laneAt_setLanes_of_notMem {w e : Nat} {xs : List (Nat × Nat)} (l : Line) (hb : ∀ x ∈ xs, w * x.1 + w ≤ 512) (he : ∀ x ∈ xs, x.1 ≠ e) :
    laneAt (setLanes l w xs) w e = laneAt l w e := by
  induction xs generalizing l with
  | nil => rfl
  | cons x xs ih =>
    obtain ⟨hbx, hb⟩ := List.forall_mem_cons.1 hb
    obtain ⟨hex, he⟩ := List.forall_mem_cons.1 he
    exact (ih (setLane l w x.1 x.2) hb he).trans (laneAt_setLane_of_ne l x.2 hbx hex.symm)

/-- A lane that the list names takes the value on which its entries agree. -/
theorem laneAt_setLanes_of_mem {w e v : Nat} {xs : List (Nat × Nat)} (l : Line) (hb : ∀ x ∈ xs, w * x.1 + w ≤ 512)
    (hv : ∀ x ∈ xs, x.1 = e → x.2 = v) (he : ∃ x ∈ xs, x.1 = e) : laneAt (setLanes l w xs) w e = v % 2 ^ w := by
  induction xs generalizing l with
  | nil => simp at he
  | cons x xs ih =>
    obtain ⟨hbx, hbs⟩ := List.forall_mem_cons.1 hb
    obtain ⟨hvx, hvs⟩ := List.forall_mem_cons.1 hv
    by_cases hrest : ∃ y ∈ xs, y.1 = e
    · exact ih (setLane l w x.1 x.2) hbs hvs hrest
    · have hnot : ∀ y ∈ xs, y.1 ≠ e := fun y hy hye => hrest ⟨y, hy, hye⟩
      obtain ⟨y, hy, hye⟩ := he
      obtain rfl : y = x := (List.mem_cons.1 hy).resolve_right fun hy => hnot y hy hye
      subst hye
      change laneAt (setLanes (setLane l w y.1 y.2) w xs) w y.1 = _
      rw [laneAt_setLanes_of_notMem _ hbs hnot, laneAt_setLane_same l y.2 hbx, hvx rfl]

/-- A lane below bit n survives a mask of the low n bits. -/
theorem laneAt_and_low (l : Line) {w e n : Nat} (h : w * e + w ≤ n) (hn : n ≤ 512) : laneAt (l &&& BitVec.ofNat 512 (2 ^ n - 1)) w e = laneAt l w e := by
  refine Nat.eq_of_testBit_eq fun j => ?_
  rw [testBit_laneAt, testBit_laneAt, BitVec.getLsbD_and, BitVec.getLsbD_ofNat, Nat.testBit_two_pow_sub_one]
  by_cases hj : j < w
  · have h1 : w * e + j < 512 := by omega
    have h2 : w * e + j < n := by omega
    simp [hj, h1, h2]
  · simp [hj]

/-! ### Active lanes and their flags -/

theorem activeLanes_sameHead {mk : VMask} {n act : Nat} {c c' : Core} (h : activeLanes mk n c = .ok (act, c')) : SameHead c c' := by
  unfold activeLanes at h
  split at h
  · obtain ⟨-, rfl⟩ := Prod.mk.inj (Except.ok.inj h)
    exact ⟨rfl, rfl⟩
  · cases hm : readM (plainM mk.mreg) c with
    | error e => rw [hm] at h; cases h
    | ok r =>
      rw [hm] at h
      obtain ⟨k, hk⟩ := readM_frame hm
      obtain ⟨-, rfl⟩ := Prod.mk.inj (Except.ok.inj h)
      rw [hk]
      exact ⟨rfl, rfl⟩

theorem mem_actives {act n i : Nat} : i ∈ actives act n ↔ i < n ∧ act.testBit i = true := by simp [actives]

/-- The active lanes raise the union of their flags, with some lanes in word 6. -/
theorem vecFlags_actives (c : Core) (act n : Nat) (r : Nat → Nat × Fl) : ∃ lanes,
    c.vecFlags (((actives act n).map fun i => (i, r i)).map fun r => (r.1, r.2.2)) = c.raiseFlags (laneFlags act n fun i => (r i).2) lanes := by
  have hunion : ((((actives act n).map fun i => (i, r i)).map fun r => (r.1, r.2.2)).foldl (fun f x => f ||| x.2) 0) =
      laneFlags act n fun i => (r i).2 := by rw [List.map_map, List.foldl_map]; rfl
  exact ⟨_, congrArg (fun f => c.raiseFlags f _) hunion⟩

end Sys2Proof.Machine
end

