-- ==== Sys2Proof/Proofs/PackAndMagnitude.lean ====
section
/-! VPACK, VAMAX and UpdateAMX (spec/02 R45, spec/08 R214, R216). -/

namespace Sys2Proof.Machine

open Safety

/-! ### UpdateAMX -/

theorem bits_magnitude (w : W64) : bits w 62 0 = w.toNat % 2 ^ 63 := by simp [bits]

theorem bits_sign (w : W64) : bits w 63 63 = w.toNat / 2 ^ 63 := by
  have := w.isLt
  rw [bits, Nat.shiftRight_eq_div_pow, Nat.mod_eq_of_lt (by omega)]

theorem getLsbD_sign (w : W64) : w.getLsbD 63 = decide (2 ^ 63 ≤ w.toNat) := by
  have := w.isLt
  rw [BitVec.getLsbD, Nat.testBit_eq_decide_div_mod_eq, decide_eq_decide]
  omega

/-- A NaN sets bit 63 and keeps the magnitude. -/
theorem updateAmx_nan (amx : W64) : bits (updateAmx amx none) 62 0 = bits amx 62 0 ∧ (updateAmx amx none).getLsbD 63 = true := by
  refine ⟨?_, by simp [updateAmx, ofNat]⟩
  rw [bits_magnitude, bits_magnitude]
  refine Nat.eq_of_testBit_eq fun i => ?_
  have hpow : (BitVec.ofNat 64 (2 ^ 63)).toNat = 2 ^ 63 := rfl
  simp only [updateAmx, ofNat, Nat.testBit_mod_two_pow, BitVec.toNat_or, hpow, Nat.testBit_or, Nat.testBit_two_pow]
  by_cases hi : i < 63
  · simp [hi, Nat.ne_of_gt hi]
  · simp [hi]

/-- A magnitude raises the maximum and keeps bit 63. -/
theorem updateAmx_magnitude (amx : W64) {m : Nat} (hm : m < 2 ^ 63) :
    bits (updateAmx amx (some (ofNat m))) 62 0 = max (bits amx 62 0) m ∧ (updateAmx amx (some (ofNat m))).getLsbD 63 = amx.getLsbD 63 := by
  have hbits : bits (ofNat m) 62 0 = m := by rw [bits_magnitude, ofNat, BitVec.toNat_ofNat]; omega
  have hamx := amx.isLt
  simp only [updateAmx, hbits]
  split
  next hlt =>
    simp only [getLsbD_sign, bits_magnitude, bits_sign, put, ofNat, BitVec.toNat_ofNat] at hlt ⊢
    constructor
    · omega
    · rw [decide_eq_decide]; omega
  next hge => exact ⟨by omega, rfl⟩

/-! ### Over lanes -/

/-- The magnitude of a lane in binary64. -/
def laneMagnitude (t : Ty) (x : Nat) : Nat := (convert x t .f64 .rne false).1 % 2 ^ 63

theorem magnitude_eq (t : Ty) (x : Nat) : magnitude t x = if (decodeF t x).isNan then none else some (ofNat (laneMagnitude t x)) := by
  unfold magnitude laneMagnitude
  cases decodeF t x <;> rfl

/-- One lane of a floating type. -/
theorem amxLanes_cons {t : Ty} (h : t.isArith = true) (amx : W64) (x : Nat) (xs : List Nat) : amxLanes t amx (x :: xs) =
    amxLanes t (updateAmx amx (if (decodeF t x).isNan then none else some (ofNat (laneMagnitude t x)))) xs := by
  have hint : isIntTy t = false := by rcases isArith_iff.1 h with rfl | rfl | rfl <;> rfl
  rw [← magnitude_eq]
  simp [amxLanes, hint]

/-- The maximum of m and of the magnitudes of the lanes that are no NaN. -/
def maxMagnitude (t : Ty) (m : Nat) (xs : List Nat) : Nat :=
  ((xs.filter fun x => !(decodeF t x).isNan).map (laneMagnitude t)).foldl max m

/-- UpdateAMX over lanes is that maximum, and remembers a NaN. -/
theorem amxLanes_eq {t : Ty} (h : t.isArith = true) (amx : W64) (xs : List Nat) :
    bits (amxLanes t amx xs) 62 0 = maxMagnitude t (bits amx 62 0) xs ∧
      (amxLanes t amx xs).getLsbD 63 = (amx.getLsbD 63 || xs.any fun x => (decodeF t x).isNan) := by
  induction xs generalizing amx with
  | nil => exact ⟨rfl, by simp [amxLanes]⟩
  | cons x xs ih =>
    rw [amxLanes_cons h]
    cases hx : (decodeF t x).isNan
    · obtain ⟨hmag, hsign⟩ := updateAmx_magnitude amx (m := laneMagnitude t x) (Nat.mod_lt _ (by decide))
      obtain ⟨ihmag, ihsign⟩ := ih (updateAmx amx (some (ofNat (laneMagnitude t x))))
      rw [hmag] at ihmag
      rw [hsign] at ihsign
      exact ⟨by simpa [maxMagnitude, hx] using ihmag, by simpa [hx] using ihsign⟩
    · obtain ⟨hmag, hsign⟩ := updateAmx_nan amx
      obtain ⟨ihmag, ihsign⟩ := ih (updateAmx amx none)
      rw [hmag] at ihmag
      rw [hsign] at ihsign
      exact ⟨by simpa [maxMagnitude, hx] using ihmag, by simpa [hx] using ihsign⟩

/-- What a maximum from m over a list is: no less than m and each member, and one of them. -/
theorem foldl_max_spec (m : Nat) (l : List Nat) :
    m ≤ l.foldl max m ∧ (∀ y ∈ l, y ≤ l.foldl max m) ∧ (l.foldl max m = m ∨ ∃ y ∈ l, l.foldl max m = y) := by
  induction l generalizing m with
  | nil => simp
  | cons a l ih =>
    obtain ⟨hle, hall, heq⟩ := ih (max m a)
    refine ⟨(le_max_left m a).trans hle, List.forall_mem_cons.2 ⟨(le_max_right m a).trans hle, hall⟩, ?_⟩
    rcases heq with heq | ⟨y, hy, heq⟩
    · rcases max_choice m a with hm | hm
      · exact .inl (heq.trans hm)
      · exact .inr ⟨a, List.mem_cons_self, heq.trans hm⟩
    · exact .inr ⟨y, List.mem_cons_of_mem a hy, heq⟩

theorem amxLanes_spec {t : Ty} (h : t.isArith = true) (amx : W64) (xs : List Nat) :
    bits amx 62 0 ≤ bits (amxLanes t amx xs) 62 0 ∧
    (∀ x ∈ xs, (decodeF t x).isNan = false → laneMagnitude t x ≤ bits (amxLanes t amx xs) 62 0) ∧
    (bits (amxLanes t amx xs) 62 0 = bits amx 62 0 ∨
      ∃ x ∈ xs, (decodeF t x).isNan = false ∧ bits (amxLanes t amx xs) 62 0 = laneMagnitude t x) ∧
    ((amxLanes t amx xs).getLsbD 63 = (amx.getLsbD 63 || xs.any fun x => (decodeF t x).isNan)) := by
  obtain ⟨hmag, hsign⟩ := amxLanes_eq h amx xs
  obtain ⟨hle, hall, heq⟩ := foldl_max_spec (bits amx 62 0) ((xs.filter fun x => !(decodeF t x).isNan).map (laneMagnitude t))
  rw [hmag]
  refine ⟨hle, fun x hx hn => hall _ (List.mem_map_of_mem (List.mem_filter.2 ⟨hx, by simp [hn]⟩)), heq.imp_right ?_, hsign⟩
  rintro ⟨y, hy, heq⟩
  obtain ⟨x, hx, rfl⟩ := List.mem_map.1 hy
  obtain ⟨hx, hn⟩ := List.mem_filter.1 hx
  exact ⟨x, hx, by simpa using hn, heq⟩

/-! ### VPACK -/

/-- The result of lane i of a list is found by its element. -/
theorem find_lane {l : List Nat} {g : Nat → Nat × Fl} {q i : Nat} (h : i ∈ l) :
    (l.map fun i => (i, g i)).find? (fun r => q + r.1 == q + i) = some (i, g i) := by
  induction l with
  | nil => simp at h
  | cons k l ih =>
    by_cases hk : k = i
    · subst hk; simp
    · have hi : i ∈ l := (List.mem_cons.1 h).resolve_left (Ne.symm hk)
      simpa [hk] using ih hi

/-- The elements of part p that an instruction of n lanes writes: active ones take r, the others are zeroed or kept (spec/08 R195). -/
def partWrites (mk : VMask) (act fill q n : Nat) (r : Nat → Nat) : List (Nat × Nat) :=
  ((List.range n).map fun i => (q + i, i)).filterMap fun x =>
    if act.testBit x.2 then some (x.1, r x.1) else if mk.mz then some (x.1, fill) else none

theorem mem_partWrites {mk : VMask} {act fill q n : Nat} {r : Nat → Nat} {x : Nat × Nat} : x ∈ partWrites mk act fill q n r ↔
    ∃ i < n, x.1 = q + i ∧ (act.testBit i = true ∧ x.2 = r (q + i) ∨ act.testBit i = false ∧ mk.mz = true ∧ x.2 = fill) := by
  simp only [partWrites, List.mem_filterMap, List.mem_map, List.mem_range]
  constructor
  · rintro ⟨_, ⟨i, hi, rfl⟩, hx⟩
    cases ha : act.testBit i <;> cases hz : mk.mz <;> simp [ha, hz] at hx <;> subst hx
    all_goals exact ⟨i, hi, rfl, by simp [ha]⟩
  · rintro ⟨i, hi, h1, h2⟩
    refine ⟨(q + i, i), ⟨i, hi, rfl⟩, ?_⟩
    obtain ⟨x1, x2⟩ := x
    rcases h2 with ⟨ha, h2⟩ | ⟨ha, hz, h2⟩ <;> simp_all

/-- The elements of a line after the writes of a part. -/
theorem laneAt_partWrites {mk : VMask} {act fill q n w : Nat} {r : Nat → Nat} (old : Line) (hb : w * (q + n) ≤ 512) (e : Nat) :
    laneAt (setLanes old w (partWrites mk act fill q n r)) w e =
      if q ≤ e ∧ e < q + n then
        (if act.testBit (e - q) then r e % 2 ^ w else if mk.mz then fill % 2 ^ w else laneAt old w e)
      else laneAt old w e := by
  have hbound : ∀ x ∈ partWrites mk act fill q n r, w * x.1 + w ≤ 512 := by
    intro x hx
    obtain ⟨i, hi, hx, -⟩ := mem_partWrites.1 hx
    rw [hx, ← Nat.mul_succ]
    exact (Nat.mul_le_mul_left w (by omega)).trans hb
  by_cases he : q ≤ e ∧ e < q + n
  · obtain ⟨i, rfl⟩ := Nat.exists_eq_add_of_le he.1
    have hi : i < n := by omega
    rw [if_pos he, Nat.add_sub_cancel_left]
    have only : ∀ x ∈ partWrites mk act fill q n r, x.1 = q + i →
        act.testBit i = true ∧ x.2 = r (q + i) ∨ act.testBit i = false ∧ mk.mz = true ∧ x.2 = fill := by
      intro x hx hxe
      obtain ⟨j, -, hj, hcase⟩ := mem_partWrites.1 hx
      obtain rfl : i = j := by omega
      exact hcase
    cases ha : act.testBit i
    · cases hz : mk.mz
      · exact laneAt_setLanes_of_notMem old hbound fun x hx hxe => by simpa [ha, hz] using only x hx hxe
      · exact laneAt_setLanes_of_mem old hbound (fun x hx hxe => by simpa [ha, hz] using only x hx hxe)
          ⟨(q + i, fill), mem_partWrites.2 ⟨i, hi, rfl, .inr ⟨ha, hz, rfl⟩⟩, rfl⟩
    · exact laneAt_setLanes_of_mem old hbound (fun x hx hxe => by simpa [ha] using only x hx hxe)
        ⟨(q + i, r (q + i)), mem_partWrites.2 ⟨i, hi, rfl, .inl ⟨ha, rfl⟩⟩, rfl⟩
  · rw [if_neg he]
    refine laneAt_setLanes_of_notMem old hbound fun x hx hxe => he ?_
    obtain ⟨i, hi, hx, -⟩ := mem_partWrites.1 hx
    omega

/-- The packed elements fit a register, and those of a 6-bit format its low 384 bits. -/
theorem packed_fits {t : Ty} (h : t.isPacked = true) : t.width * t.packed ≤ if t.width = 6 then 384 else 512 := by
  cases t <;> simp [Ty.isPacked, Ty.width, Ty.packed] at h ⊢

/-- The line that VPACK writes, of its operand, its active lanes and the old line. -/
def packedLine (src t : Ty) (rm : Rnd) (sat : Bool) (mk : VMask) (p act : Nat) (x old : Line) : Line :=
  let n := src.lanes
  let rs := (actives act n).map fun i => (i, convBits src t rm sat (laneAt x src.width i))
  let get := fun (e : Nat) => ((rs.find? fun r => p * n + r.1 == e).map (·.2.1)).getD 0
  let v := setLanes old t.width (partWrites mk act (if t == .ds8 then 0x77 else 0) (p * n) n get)
  if t.width = 6 then v &&& BitVec.ofNat 512 (2 ^ 384 - 1) else v

/-- The mask of a 6-bit format leaves its elements as they are. -/
theorem laneAt_packedMask {t : Ty} (ht : t.isPacked = true) {e : Nat} (he : e < t.packed) (v : Line) :
    laneAt (if t.width = 6 then v &&& BitVec.ofNat 512 (2 ^ 384 - 1) else v) t.width e = laneAt v t.width e := by
  have hfit := packed_fits ht
  split
  next h6 =>
    rw [if_pos h6] at hfit
    exact laneAt_and_low v (((Nat.mul_succ t.width e).symm.le.trans (Nat.mul_le_mul_left _ he)).trans hfit) (by decide)
  next => rfl

theorem laneAt_packedLine {src t : Ty} {rm : Rnd} {sat : Bool} {mk : VMask} {p act : Nat} {x old : Line} (ht : t.isPacked = true)
    (hp : p < packParts t src) {e : Nat} (he : e < t.packed) :
    laneAt (packedLine src t rm sat mk p act x old) t.width e =
      if p * src.lanes ≤ e ∧ e < (p + 1) * src.lanes then
        (if act.testBit (e - p * src.lanes) then (convert (laneAt x src.width (e - p * src.lanes)) src t rm sat).1 % 2 ^ t.width
          else if mk.mz then (if t = .ds8 then 0x77 else 0) else laneAt old t.width e)
      else laneAt old t.width e := by
  have hpart : (p + 1) * src.lanes ≤ t.packed := (Nat.mul_le_mul_right _ hp).trans (Nat.div_mul_le_self _ _)
  rw [Nat.succ_mul] at hpart ⊢
  have h512 : t.width * (p * src.lanes + src.lanes) ≤ 512 :=
    (Nat.mul_le_mul_left _ hpart).trans ((packed_fits ht).trans (by split <;> decide))
  unfold packedLine
  rw [laneAt_packedMask ht he, laneAt_partWrites old h512]
  by_cases hin : p * src.lanes ≤ e ∧ e < p * src.lanes + src.lanes
  · rw [if_pos hin, if_pos hin]
    cases ha : act.testBit (e - p * src.lanes)
    · have hfill : (if t == .ds8 then 0x77 else 0) % 2 ^ t.width = if t = .ds8 then 0x77 else 0 := by cases t <;> simp [Ty.width]
      rw [hfill]; rfl
    · have hmem : e - p * src.lanes ∈ actives act src.lanes := mem_actives.2 ⟨by omega, ha⟩
      have hfind := find_lane (g := fun i => convBits src t rm sat (laneAt x src.width i)) (q := p * src.lanes) hmem
      rw [Nat.add_sub_cancel' hin.1] at hfind
      rw [if_pos rfl, if_pos rfl, hfind]
      exact Nat.mod_mod _ _
  · rw [if_neg hin, if_neg hin]

theorem floatEnd_vpackVx {d : BitVec 5} {a : VSrc} {src t : Ty} {p : BitVec 4} {rm : Rnd} {sat : Bool} {mk : VMask} {s : State} {x old : Line}
    {act : Nat} {c : Core} (h : VReads1 d a mk src.lanes s.me x act old c) :
    floatEnd s (laneFlags act src.lanes fun i => (convert (laneAt x src.width i) src t rm sat).2) (fun _ => True)
      (fun c => writeV d (packedLine src t rm sat mk p.toNat act x old)
        { c with ctl := { c.ctl with amx := amxLanes src c.ctl.amx ((actives act src.lanes).map fun i => laneAt x src.width i) } })
      c (exec (.vpackVx d a src p rm sat t mk) s) := by
  obtain ⟨hd, c1, c2, ha, hact, hold, rfl⟩ := h
  obtain ⟨lanes, hflags⟩ := vecFlags_actives (freeV a c2) act src.lanes fun i => convBits src t rm sat (laneAt x src.width i)
  refine floatEnd_of_raise (lanes := lanes) (next := fun c => writeV d (packedLine src t rm sat mk p.toNat act x old)
    { c with ctl := { c.ctl with amx := amxLanes src c.ctl.amx ((actives act src.lanes).map fun i => laneAt x src.width i) } })
    (((readV_sameHead ha).trans (activeLanes_sameHead hact)).trans (freeV_sameHead a c2)) ?_ rfl trivial
  simp only [vpack, hd, ha, hact, hold, bind, Except.bind, partial_, hflags]
  rfl

/-! ### VAMAX -/

theorem done_vamaxVx {d : BitVec 6} {a : VSrc} {t : Ty} {mk : VMask} {s : State} {x : Line} {act : Nat} {c1 c2 c' : Core}
    (hd : destS d s.me = .ok ()) (ha : readV a s.me = .ok (x, c1)) (hact : activeLanes mk t.lanes c1 = .ok (act, c2)) :
    let xs := (actives act t.lanes).map fun i => laneAt x t.width i
    writeS d (amxLanes t 0 xs) { (freeV a c2) with ctl := { (freeV a c2).ctl with amx := amxLanes t (freeV a c2).ctl.amx xs } } = .ok c' →
      exec (.vamaxVx d a t mk) s = done s c' := by
  intro xs hw
  refine coreOp_ok ?_
  rw [(freeV_sameHead a c2).1] at hw
  simp only [vamax, hd, ha, hact, bind, Except.bind]
  exact hw

/-- Settles O17: the line that VPACK writes, and UpdateAMX as a maximum over the lanes. -/
theorem packAndMagnitude : Obligations.PackAndMagnitude := by
  unfold Obligations.PackAndMagnitude
  refine ⟨⟨fun d a src t p rm sat mk s x old act c _ ht _ hp h =>
      ⟨⟨packedLine src t rm sat mk p.toNat act x old, fun e he => laneAt_packedLine ht hp he, floatEnd_vpackVx h⟩, ?_⟩,
    fun d a t mk s x act c1 c2 c' _ hd ha hact => ⟨done_vamaxVx hd ha hact, ?_⟩⟩, fun t amx xs h => amxLanes_spec h amx xs⟩
  · rintro rfl; rfl
  · rintro rfl; rfl

end Sys2Proof.Machine
end

