-- ==== Sys2Proof/Proofs/Magnitudes.lean ====
section
/-! Magnitudes m × 2^e as rational numbers, and where a number stands to them (spec/02 R27). -/

namespace Sys2Proof.Machine

open Safety

/-! ### Magnitudes -/

theorem mag_nonneg (m : Nat) (e : Int) : 0 ≤ mag m e := by unfold mag; positivity

theorem mag_pos {m : Nat} (h : m ≠ 0) (e : Int) : 0 < mag m e := by
  have : (0 : Rat) < m := by exact_mod_cast Nat.pos_of_ne_zero h
  unfold mag; positivity

theorem mag_zero (e : Int) : mag 0 e = 0 := by simp [mag]

theorem mag_eq_zero_iff {m : Nat} {e : Int} : mag m e = 0 ↔ m = 0 :=
  ⟨fun h => by_contra fun hm => (mag_pos hm e).ne' h, fun h => h ▸ mag_zero e⟩

/-- A power of two moves between the mantissa and the exponent. -/
theorem mag_mul_two_pow (m k : Nat) (e : Int) : mag (m * 2 ^ k) e = mag m (e + k) := by
  unfold mag
  rw [zpow_add₀ two_ne_zero, zpow_natCast]
  push_cast
  ring

/-- The exponent moved down. -/
theorem mag_at {e q : Int} (m : Nat) (h : q ≤ e) : mag m e = mag (m * 2 ^ (e - q).toNat) q := by
  rw [mag_mul_two_pow]; congr 1; omega

theorem mag_lt_mag_iff {m n : Nat} {e : Int} : mag m e < mag n e ↔ m < n := by
  unfold mag
  rw [mul_lt_mul_iff_left₀ (by positivity), Nat.cast_lt]

theorem mag_le_mag_iff {m n : Nat} {e : Int} : mag m e ≤ mag n e ↔ m ≤ n := by
  rw [← not_lt, mag_lt_mag_iff, not_lt]

theorem mag_inj {m n : Nat} {e : Int} : mag m e = mag n e ↔ m = n := by
  rw [le_antisymm_iff, mag_le_mag_iff, mag_le_mag_iff, ← le_antisymm_iff]

theorem mag_mono_exp (m : Nat) {e q : Int} (h : e ≤ q) : mag m e ≤ mag m q := by
  rw [mag_at m h, mag_le_mag_iff]
  exact Nat.le_mul_of_pos_right m (Nat.two_pow_pos _)

/-- A mantissa of p + 1 bits at a lower exponent stays below a mantissa that uses bit p. -/
theorem mag_lt_mag_of_exp {p m n : Nat} {e q : Int} (hm : m < 2 ^ (p + 1)) (hn : 2 ^ p ≤ n) (h : e < q) : mag m e < mag n q :=
  calc mag m e < mag (2 ^ (p + 1)) e := mag_lt_mag_iff.2 hm
    _ = mag (2 ^ p) (e + 1) := by rw [pow_succ, ← pow_one 2, ← pow_mul, one_mul, mag_mul_two_pow]; rfl
    _ ≤ mag (2 ^ p) q := mag_mono_exp _ h
    _ ≤ mag n q := mag_le_mag_iff.2 hn

/-- No magnitude with a mantissa of p + 1 bits lies between two neighbours. -/
theorem mag_gap {p m n : Nat} {e q : Int} (hm : m < 2 ^ (p + 1)) (h : q ≤ e ∨ 2 ^ p ≤ n) : mag m e ≤ mag n q ∨ mag (n + 1) q ≤ mag m e := by
  by_cases hq : q ≤ e
  · rw [mag_at m hq, mag_le_mag_iff, mag_le_mag_iff]; omega
  · exact .inl (mag_lt_mag_of_exp hm (h.resolve_left hq) (not_le.1 hq)).le

theorem mag_midpoint (n : Nat) (q : Int) : (mag n q + mag (n + 1) q) / 2 = mag (2 * n + 1) (q - 1) := by
  unfold mag
  rw [zpow_sub_one₀ two_ne_zero]
  push_cast
  ring

/-- floor(log2 m) bounds the magnitude. -/
theorem mag_log2 {m : Nat} (h : m ≠ 0) (e : Int) : mag 1 (log2 m + e) ≤ mag m e ∧ mag m e < mag 1 (log2 m + e + 1) := by
  have e1 : mag 1 (log2 m + e) = mag (2 ^ Nat.log2 m) e := by rw [← one_mul (2 ^ _), mag_mul_two_pow, log2, add_comm]
  have e2 : mag 1 (log2 m + e + 1) = mag (2 ^ (Nat.log2 m + 1)) e := by
    rw [← one_mul (2 ^ _), mag_mul_two_pow, log2]; congr 1; push_cast; ring
  rw [e1, e2, mag_le_mag_iff, mag_lt_mag_iff]
  exact ⟨Nat.log2_self_le h, Nat.lt_log2_self⟩

/-! ### Sides -/

/-- The side of one number to others: below it and at it nothing lies that is above another. -/
def IsCut (side : Rat → Ordering) : Prop := ∀ q q', 0 ≤ q → q < q' → side q ≠ .gt → side q' = .lt

theorem IsCut.gt {side : Rat → Ordering} (h : IsCut side) {q q' : Rat} (hq : 0 ≤ q) (hlt : q < q') (hs : side q' ≠ .lt) : side q = .gt :=
  by_contra fun hgt => hs (h q q' hq hlt hgt)

theorem IsCut.lt_of_le {side : Rat → Ordering} (h : IsCut side) {q q' : Rat} (hq : 0 ≤ q) (hle : q ≤ q') (hs : side q = .lt) : side q' = .lt := by
  rcases hle.eq_or_lt with rfl | hlt
  · exact hs
  · exact h q q' hq hlt (by rw [hs]; decide)

theorem IsCut.gt_of_le {side : Rat → Ordering} (h : IsCut side) {q q' : Rat} (hq : 0 ≤ q) (hle : q ≤ q') (hs : side q' = .gt) : side q = .gt := by
  rcases hle.eq_or_lt with rfl | hlt
  · exact hs
  · exact h.gt hq hlt (by rw [hs]; decide)

theorem sideOf_lt {x q : Rat} : sideOf x q = .lt ↔ x < q := by unfold sideOf; split <;> (try split) <;> simp_all
theorem sideOf_eq {x q : Rat} : sideOf x q = .eq ↔ x = q := by
  unfold sideOf
  split
  next h => simpa using h.ne
  next => split <;> simp_all
theorem sideOf_gt {x q : Rat} : sideOf x q = .gt ↔ q < x := by
  unfold sideOf
  split
  next h => simpa using h.le
  next h => split <;> simp_all [lt_of_le_of_ne, eq_comm]

theorem isCut_sideOf (x : Rat) : IsCut (sideOf x) := by
  intro q q' _ hlt hs
  rw [ne_eq, sideOf_gt, not_lt] at hs
  exact sideOf_lt.2 (hs.trans_lt hlt)

theorem isCut_rootSide (x : Rat) : IsCut (rootSide x) := fun q q' hq hlt hs =>
  isCut_sideOf x (q * q) (q' * q') (mul_self_nonneg q) (mul_self_lt_mul_self hq hlt) hs

theorem sideOf_mag (m n : Nat) (e : Int) : sideOf (mag m e) (mag n e) = if m < n then .lt else if m = n then .eq else .gt := by
  simp only [sideOf, mag_lt_mag_iff, mag_inj]

end Sys2Proof.Machine
end

