-- ==== Sys2Proof/Proofs/Quantize.lean ====
section
/-! A magnitude between two neighbours, and the one that a mode picks (spec/02 R27). -/

namespace Sys2Proof.Machine

open Safety

/-- A number lies from n × 2^q up to the next multiple of 2^q: `half` where it has reached the middle, `below` where something
lies under the bit that `half` is. -/
structure Between (side : Rat → Ordering) (n : Nat) (q : Int) (half below : Bool) : Prop where
  lo  : side (mag n q) = if half || below then .gt else .eq
  mid : side (mag (2 * n + 1) (q - 1)) = if half then (if below then .gt else .eq) else .lt
  hi  : side (mag (n + 1) q) = .lt

/-- The mantissa that the mode picks. -/
def picked (rm : Rnd) (neg : Bool) (n : Nat) (half below : Bool) : Nat := if roundsUp rm neg (n % 2 == 1) half below then n + 1 else n

/-- A side has the neighbours of every side that it agrees with on the multiples of half a unit. -/
theorem Between.congr {side side' : Rat → Ordering} {n : Nat} {q : Int} {half below : Bool} (h : Between side n q half below)
    (hs : ∀ j : Nat, side' (mag j (q - 1)) = side (mag j (q - 1))) : Between side' n q half below := by
  have hs' (j : Nat) : side' (mag j q) = side (mag j q) := by rw [mag_at (q := q - 1) j (by omega), hs]
  exact ⟨(hs' n).trans h.lo, (hs _).trans h.mid, (hs' (n + 1)).trans h.hi⟩

/-- Where m × 2^e stands to a multiple of 2^(e + k). -/
theorem sideOf_mag_shifted (m j k : Nat) (e : Int) : sideOf (mag m e) (mag j (e + k)) =
    if m / 2 ^ k < j then .lt else if m / 2 ^ k = j ∧ m % 2 ^ k = 0 then .eq else .gt := by
  have hm := Nat.div_add_mod m (2 ^ k)
  have hlt : m < j * 2 ^ k ↔ m / 2 ^ k < j := (Nat.div_lt_iff_lt_mul (Nat.two_pow_pos k)).symm
  have heq : m = j * 2 ^ k ↔ m / 2 ^ k = j ∧ m % 2 ^ k = 0 := by
    constructor
    · rintro rfl
      exact ⟨Nat.mul_div_cancel j (Nat.two_pow_pos k), Nat.mul_mod_left j _⟩
    · rintro ⟨rfl, h0⟩
      rw [h0, add_zero, mul_comm] at hm
      exact hm.symm
  rw [← mag_mul_two_pow, sideOf_mag]
  simp only [hlt, heq]

theorem quantize_of_le {m : Nat} {e q : Int} (h : q ≤ e) (rm : Rnd) (neg : Bool) : quantize m e q rm neg = (m * 2 ^ (e - q).toNat, false) :=
  if_pos h

/-- `quantize` by the bits above the unit, the bit under it and those below. -/
theorem quantize_shifted (m k : Nat) (e : Int) (rm : Rnd) (neg : Bool) : quantize m e (e + (k + 1 : Nat)) rm neg =
    (picked rm neg (m / 2 ^ k / 2) (decide (m / 2 ^ k % 2 = 1)) (decide (m % 2 ^ k ≠ 0)), (decide (m / 2 ^ k % 2 = 1)) || (decide (m % 2 ^ k ≠ 0))) := by
  have hk : (e + (k + 1 : Nat) - e).toNat = k + 1 := by omega
  have hn : m >>> (k + 1) = m / 2 ^ k / 2 := by rw [Nat.shiftRight_eq_div_pow, pow_succ, Nat.div_div_eq_div_mul]
  have hhalf : (m % 2 ^ (k + 1)).testBit k = (decide (m / 2 ^ k % 2 = 1)) := by
    rw [Nat.testBit_mod_two_pow, Nat.testBit_eq_decide_div_mod_eq, decide_eq_true (Nat.lt_succ_self k), Bool.true_and]
  have hlow : m % 2 ^ (k + 1) % 2 ^ k = m % 2 ^ k := Nat.mod_mod_of_dvd _ (pow_dvd_pow 2 (Nat.le_succ k))
  have hr : m % 2 ^ (k + 1) = m % 2 ^ k + 2 ^ k * (m / 2 ^ k % 2) := by rw [pow_succ, Nat.mod_mul]
  have hne : decide (m % 2 ^ (k + 1) ≠ 0) = ((decide (m / 2 ^ k % 2 = 1)) || (decide (m % 2 ^ k ≠ 0))) := by
    have hpos := Nat.two_pow_pos k
    rw [hr]
    rcases Nat.mod_two_eq_zero_or_one (m / 2 ^ k) with h | h
    · simp [h]
    · simp [h]
  rw [quantize, if_neg (by omega)]
  simp only [hk, hn, Nat.add_sub_cancel, hhalf, hlow, hne, picked]

/-- The neighbours of m × 2^e among the multiples of 2^q, and what `quantize` makes of it. -/
theorem between_quantize (m : Nat) (e q : Int) : ∃ n half below, Between (sideOf (mag m e)) n q half below ∧
    ∀ rm neg, quantize m e q rm neg = (picked rm neg n half below, half || below) := by
  by_cases hq : q ≤ e
  · refine ⟨m * 2 ^ (e - q).toNat, false, false, ⟨?lo, ?mid, ?hi⟩, fun rm neg => ?eq⟩
    case lo => rw [mag_at m hq, sideOf_mag]; simp
    case mid => 
      rw [mag_at m hq, ← mag_midpoint]
      exact sideOf_lt.2 (by linarith [mag_lt_mag_iff (e := q).2 (Nat.lt_succ_self (m * 2 ^ (e - q).toNat))])
    case hi => rw [mag_at m hq, sideOf_mag]; simp
    case eq =>
      have hup : roundsUp rm neg (m * 2 ^ (e - q).toNat % 2 == 1) false false = false := by cases rm <;> simp [roundsUp]
      rw [quantize_of_le hq, picked, hup]; rfl
  · obtain ⟨k, rfl⟩ : ∃ k : Nat, q = e + (k + 1 : Nat) := ⟨(q - e).toNat - 1, by omega⟩
    have hunit (j : Nat) : mag j (e + (k + 1 : Nat)) = mag (2 * j) (e + k) := by
      rw [mul_comm, ← pow_one 2, mag_mul_two_pow]; congr 1; push_cast; ring
    refine ⟨m / 2 ^ k / 2, decide (m / 2 ^ k % 2 = 1), decide (m % 2 ^ k ≠ 0), ⟨?lo, ?mid, ?hi⟩, fun rm neg => quantize_shifted m k e rm neg⟩
    case lo =>
      rw [hunit, sideOf_mag_shifted]
      generalize m / 2 ^ k = a
      generalize m % 2 ^ k = b
      rcases Nat.mod_two_eq_zero_or_one a with h | h <;> by_cases hb : b = 0 <;> simp [h, hb] <;> omega
    case mid =>
      have hmid : e + ((k + 1 : Nat) : Int) - 1 = e + k := by push_cast; ring
      rw [hmid, sideOf_mag_shifted]
      generalize m / 2 ^ k = a
      generalize m % 2 ^ k = b
      rcases Nat.mod_two_eq_zero_or_one a with h | h <;> by_cases hb : b = 0 <;> simp [h, hb] <;> omega
    case hi => rw [hunit, sideOf_mag_shifted, if_pos (by omega)]

/-! ### The neighbour that a mode picks -/

section Neighbours

variable {grid : Nat → Int → Prop} {rm : Rnd} {neg half below : Bool} {side : Rat → Ordering} {n m : Nat} {q e : Int}

/-- The lower neighbour is the rounded one where the modes to the nearest and away from zero allow it. -/
theorem roundsTo_lower (hc : IsCut side) (hb : Between side n q half below)
    (hgap : ∀ m' e', grid m' e' → mag m' e' ≤ mag n q ∨ mag (n + 1) q ≤ mag m' e') (hgrid : grid m e) (hmag : mag m e = mag n q)
    (hmid : rm = .rne → side (mag (2 * n + 1) (q - 1)) ≠ .gt) (heven : rm = .rne → side (mag (2 * n + 1) (q - 1)) = .eq → m % 2 = 0)
    (haway : rm = .rup ∧ neg = false ∨ rm = .rdn ∧ neg = true → side (mag n q) = .eq) : RoundsTo grid rm neg side m e := by
  have hlo : side (mag n q) ≠ .lt := by rw [hb.lo]; split <;> decide
  have hn0 := mag_nonneg n q
  have hpos := mag_nonneg (2 * n + 1) (q - 1)
  rw [← mag_midpoint] at hmid heven hpos
  unfold RoundsTo
  rw [hmag]
  refine ⟨hgrid, fun hrm m' e' hg => ?_, fun _ => ⟨hlo, fun m' e' hg hlt => ?_⟩, fun ha => ⟨?_, fun m' e' hg hlt => ?_⟩⟩
  · have h0 := mag_nonneg m' e'
    have hless (hlt : mag m' e' < mag n q) : side ((mag n q + mag m' e') / 2) = .gt := hc.gt (by linarith) (by linarith) hlo
    have hmore (hlt : mag n q < mag m' e') : mag (n + 1) q ≤ mag m' e' := (hgap m' e' hg).resolve_left (not_le.2 hlt)
    refine ⟨fun hlt => by rw [hless hlt]; decide, fun hlt hgt => hmid hrm ?_, fun hne heq => heven hrm ?_⟩
    · exact hc.gt_of_le hpos (by linarith [hmore hlt]) hgt
    · rcases lt_or_gt_of_ne hne with hlt | hlt
      · rw [hless hlt] at heq; cases heq
      · rcases (hmore hlt).eq_or_lt with h | h
        · rw [h]; exact heq
        · have hgt := hc.gt hpos (q' := (mag n q + mag m' e') / 2) (by linarith) (by rw [heq]; decide)
          exact absurd hgt (hmid hrm)
  · exact hc.lt_of_le (mag_nonneg _ _) ((hgap m' e' hg).resolve_left (not_le.2 hlt)) hb.hi
  · rw [haway ha]; decide
  · exact hc.gt (mag_nonneg _ _) hlt hlo

/-- The upper neighbour is the rounded one where the modes to the nearest and away from zero ask for it. -/
theorem roundsTo_upper (hc : IsCut side) (hb : Between side n q half below)
    (hgap : ∀ m' e', grid m' e' → mag m' e' ≤ mag n q ∨ mag (n + 1) q ≤ mag m' e') (hgrid : grid m e) (hmag : mag m e = mag (n + 1) q)
    (hmid : rm = .rne → side (mag (2 * n + 1) (q - 1)) ≠ .lt) (heven : rm = .rne → side (mag (2 * n + 1) (q - 1)) = .eq → m % 2 = 0)
    (htoward : ¬ (rm = .rtz ∨ rm = .rup ∧ neg = true ∨ rm = .rdn ∧ neg = false)) (haway : side (mag n q) = .gt) :
    RoundsTo grid rm neg side m e := by
  have hn0 := mag_nonneg n q
  have hpos := mag_nonneg (2 * n + 1) (q - 1)
  have hstep : mag n q < mag (n + 1) q := mag_lt_mag_iff.2 (Nat.lt_succ_self n)
  rw [← mag_midpoint] at hmid heven hpos
  unfold RoundsTo
  rw [hmag]
  refine ⟨hgrid, fun hrm m' e' hg => ?_, fun ht => absurd ht htoward, fun _ => ⟨by rw [hb.hi]; decide, fun m' e' hg hlt => ?_⟩⟩
  · have h0 := mag_nonneg m' e'
    have hless (hlt : mag m' e' < mag (n + 1) q) : mag m' e' ≤ mag n q := (hgap m' e' hg).resolve_right (not_le.2 hlt)
    have hmore (hlt : mag (n + 1) q < mag m' e') : side ((mag (n + 1) q + mag m' e') / 2) = .lt :=
      hc.lt_of_le (mag_nonneg _ _) (by linarith) hb.hi
    refine ⟨fun hlt hs => hmid hrm ?_, fun hlt => by rw [hmore hlt]; decide, fun hne heq => heven hrm ?_⟩
    · exact hc.lt_of_le (by linarith) (by linarith [hless hlt]) hs
    · rcases lt_or_gt_of_ne hne with hlt | hlt
      · rcases (hless hlt).eq_or_lt with h | h
        · rw [h, add_comm] at heq; exact heq
        · have hlt' := hc (q := (mag (n + 1) q + mag m' e') / 2) (q' := (mag n q + mag (n + 1) q) / 2) (by linarith) (by linarith)
            (by rw [heq]; decide)
          exact absurd hlt' (hmid hrm)
      · rw [hmore hlt] at heq; cases heq
  · exact hc.gt_of_le (mag_nonneg _ _) ((hgap m' e' hg).resolve_right (not_le.2 hlt)) haway

/-- When a mode rounds up: to the nearest past the middle or at it from an odd mantissa, away from zero whatever is inexact. -/
theorem roundsUp_iff {odd : Bool} : roundsUp rm neg odd half below = true ↔ rm = .rne ∧ half = true ∧ (below = true ∨ odd = true) ∨
    (rm = .rup ∧ neg = false ∨ rm = .rdn ∧ neg = true) ∧ (half || below) = true := by
  cases rm <;> simp [roundsUp]

/-- Of the two neighbours on a grid the mode picks the rounded one. -/
theorem roundsTo_picked (hc : IsCut side) (hb : Between side n q half below)
    (hgap : ∀ m' e', grid m' e' → mag m' e' ≤ mag n q ∨ mag (n + 1) q ≤ mag m' e') (hgrid : grid m e)
    (hmag : mag m e = mag (picked rm neg n half below) q) (heven : picked rm neg n half below % 2 = 0 → m % 2 = 0) :
    RoundsTo grid rm neg side m e := by
  have hlo := hb.lo
  have hmid := hb.mid
  unfold picked at hmag heven
  by_cases hup : roundsUp rm neg (n % 2 == 1) half below = true
  · rw [if_pos hup] at hmag heven
    rcases roundsUp_iff.1 hup with ⟨rfl, rfl, hodd⟩ | ⟨haway, hinexact⟩
    · refine roundsTo_upper hc hb hgap hgrid hmag (fun _ => ?_) (fun _ heq => heven ?_) (by simp) (by rw [hlo]; rfl)
      · rw [hmid, if_pos rfl]; split <;> decide
      · cases below
        · have hn : n % 2 = 1 := by simpa using hodd
          omega
        · rw [hmid] at heq; cases heq
    · have hne : rm ≠ .rne := by rintro rfl; simp at haway
      refine roundsTo_upper hc hb hgap hgrid hmag (fun h => absurd h hne) (fun h => absurd h hne) ?_ (by rw [hlo, if_pos hinexact])
      rcases haway with ⟨rfl, rfl⟩ | ⟨rfl, rfl⟩ <;> simp
  · rw [if_neg hup] at hmag heven
    rw [roundsUp_iff, not_or] at hup
    obtain ⟨hnear, haway⟩ := hup
    refine roundsTo_lower hc hb hgap hgrid hmag (fun hrm hgt => ?_) (fun hrm heq => heven ?_) fun h => ?_
    · cases half <;> cases below <;> simp_all
    · cases half <;> cases below <;> simp_all
    · rw [hlo, if_neg fun hinexact => haway ⟨h, hinexact⟩]

end Neighbours

end Sys2Proof.Machine
end

