-- ==== Sys2Proof/Proofs/FloatEncodings.lean ====
section
/-! Encodings of the floating formats: their fields, the magnitudes they stand for, the largest one (spec/02 R20, R28). -/

namespace Sys2Proof.Machine

open Safety

theorem mag_two_pow (k : Nat) (q : Int) : mag (2 ^ k) q = mag 1 (q + k) := by rw [← mag_mul_two_pow, one_mul]

/-! ### Fields -/

/-- What is common to the floating formats. -/
theorem fmt_float {t : Ty} (h : isFloat t = true) : 1 ≤ (Ty.fmt t).mb ∧ 1 ≤ (Ty.fmt t).emax ∧ (Ty.fmt t).mmax < 2 ^ (Ty.fmt t).mb ∧
    (Ty.fmt t).emax < 2 ^ (Ty.fmt t).eb ∧ t.width = (Ty.fmt t).eb + (Ty.fmt t).mb + 1 := by
  cases t <;> simp [isFloat] at h <;> decide

/-- The exponent field of all ones is no finite value's where a format has infinities; e4m3 takes its largest mantissa for NaN. -/
theorem fmt_specials {t : Ty} (h : isFloat t = true) : ((Ty.fmt t).inf = true → (Ty.fmt t).emax ≠ 2 ^ (Ty.fmt t).eb - 1 ∧ t ≠ .e4m3) ∧
    (t = .e4m3 → (Ty.fmt t).mmax ≠ 7 ∧ (Ty.fmt t).mmax < 7 ∧ (Ty.fmt t).emax = 15) := by
  cases t <;> simp [isFloat] at h <;> decide

/-- Decode of a floating format by its fields. -/
theorem decodeF_float {t : Ty} (h : isFloat t = true) (x : Nat) : decodeF t x =
    (let f := Ty.fmt t
     let neg := x / 2 ^ (f.eb + f.mb) % 2 == 1
     let e := x / 2 ^ f.mb % 2 ^ f.eb
     let m := x % 2 ^ f.mb
     if f.inf && e == 2 ^ f.eb - 1 then
       if m = 0 then .inf neg else .nan neg (m * 2 ^ (52 - f.mb))
     else if t == .e4m3 && e == 15 && m == 7 then .nan neg (m * 2 ^ 49)
     else if e = 0 then .fin neg m (1 - (f.bias : Int) - f.mb)
     else .fin neg (2 ^ f.mb + m) ((e : Int) - f.bias - f.mb)) := by
  cases t <;> simp [isFloat] at h <;> rfl

section Fields

variable {t : Ty} {neg : Bool} {e m : Nat}

/-- The three fields of an encoding. -/
theorem encoding_fields (he : e < 2 ^ (Ty.fmt t).eb) (hm : m < 2 ^ (Ty.fmt t).mb) :
    ((zeroBits t neg + e * 2 ^ (Ty.fmt t).mb + m) / 2 ^ ((Ty.fmt t).eb + (Ty.fmt t).mb) % 2 == 1) = neg ∧
    (zeroBits t neg + e * 2 ^ (Ty.fmt t).mb + m) / 2 ^ (Ty.fmt t).mb % 2 ^ (Ty.fmt t).eb = e ∧
    (zeroBits t neg + e * 2 ^ (Ty.fmt t).mb + m) % 2 ^ (Ty.fmt t).mb = m := by
  obtain ⟨s, hs, hz⟩ : ∃ s, (s % 2 == 1) = neg ∧ zeroBits t neg = s * 2 ^ (Ty.fmt t).eb * 2 ^ (Ty.fmt t).mb := by
    cases neg
    · exact ⟨0, rfl, by simp [zeroBits]⟩
    · exact ⟨1, rfl, by simp [zeroBits, pow_add]⟩
  have hx : zeroBits t neg + e * 2 ^ (Ty.fmt t).mb + m = 2 ^ (Ty.fmt t).mb * (2 ^ (Ty.fmt t).eb * s + e) + m := by rw [hz]; ring
  have hdiv : (2 ^ (Ty.fmt t).mb * (2 ^ (Ty.fmt t).eb * s + e) + m) / 2 ^ (Ty.fmt t).mb = 2 ^ (Ty.fmt t).eb * s + e := by
    rw [Nat.mul_add_div (Nat.two_pow_pos _), Nat.div_eq_of_lt hm, add_zero]
  have hdiv' : (2 ^ (Ty.fmt t).eb * s + e) / 2 ^ (Ty.fmt t).eb = s := by
    rw [Nat.mul_add_div (Nat.two_pow_pos _), Nat.div_eq_of_lt he, add_zero]
  rw [hx]
  refine ⟨?_, ?_, ?_⟩
  · rw [add_comm (Ty.fmt t).eb, pow_add, ← Nat.div_div_eq_div_mul, hdiv, hdiv', hs]
  · rw [hdiv, Nat.mul_add_mod, Nat.mod_eq_of_lt he]
  · rw [Nat.mul_add_mod, Nat.mod_eq_of_lt hm]

theorem encoding_lt (hf : isFloat t = true) (he : e < 2 ^ (Ty.fmt t).eb) (hm : m < 2 ^ (Ty.fmt t).mb) :
    zeroBits t neg + e * 2 ^ (Ty.fmt t).mb + m < 2 ^ t.width := by
  obtain ⟨-, -, -, -, hw⟩ := fmt_float hf
  have hz : zeroBits t neg ≤ 2 ^ ((Ty.fmt t).eb + (Ty.fmt t).mb) := by unfold zeroBits; split <;> simp
  have hem : (e + 1) * 2 ^ (Ty.fmt t).mb ≤ 2 ^ ((Ty.fmt t).eb + (Ty.fmt t).mb) := by rw [pow_add]; exact Nat.mul_le_mul_right _ he
  rw [Nat.succ_mul] at hem
  rw [hw, pow_succ]
  omega

/-- An encoding with the fields of a finite value. -/
theorem decodeF_encoding (hf : isFloat t = true) (he : e ≤ (Ty.fmt t).emax) (hm : m < 2 ^ (Ty.fmt t).mb)
    (hlast : e = (Ty.fmt t).emax → m ≤ (Ty.fmt t).mmax) : decodeF t (zeroBits t neg + e * 2 ^ (Ty.fmt t).mb + m) =
      if e = 0 then .fin neg m (1 - ((Ty.fmt t).bias : Int) - (Ty.fmt t).mb)
      else .fin neg (2 ^ (Ty.fmt t).mb + m) ((e : Int) - (Ty.fmt t).bias - (Ty.fmt t).mb) := by
  obtain ⟨-, -, -, hemax, -⟩ := fmt_float hf
  obtain ⟨hinf, hnan⟩ := fmt_specials hf
  obtain ⟨hs, he', hm'⟩ := encoding_fields (neg := neg) (he.trans_lt hemax) hm
  rw [decodeF_float hf]
  dsimp only
  rw [hs, he', hm']
  have h1 : ((Ty.fmt t).inf && e == 2 ^ (Ty.fmt t).eb - 1) = false := by
    cases hi : (Ty.fmt t).inf
    · rfl
    · have hne := (hinf hi).1
      simp only [Bool.true_and, beq_eq_false_iff_ne]; omega
  have h2 : (t == .e4m3 && e == 15 && m == 7) = false := by
    by_cases h4 : t = .e4m3
    · obtain ⟨-, hmm, hee⟩ := hnan h4
      simp only [Bool.and_eq_false_iff, beq_eq_false_iff_ne]
      by_cases h15 : e = 15
      · have := hlast (h15.trans hee.symm); right; omega
      · exact .inl (.inr h15)
    · simp [h4]
  simp only [h1, h2, Bool.false_eq_true, if_false]

end Fields

/-! ### The encoding of a magnitude -/

/-- The fields of the grid point n × 2^q, and its encoding. -/
def expField (f : Fmt) (n : Nat) (q : Int) : Int := if n < 2 ^ f.mb then 0 else q + f.mb + f.bias
def manField (f : Fmt) (n : Nat) : Nat := if n < 2 ^ f.mb then n else n - 2 ^ f.mb
def encodeMag (t : Ty) (neg : Bool) (n : Nat) (q : Int) : Nat :=
  zeroBits t neg + (expField (Ty.fmt t) n q).toNat * 2 ^ (Ty.fmt t).mb + manField (Ty.fmt t) n

/-- The test of `roundFloat` for a magnitude past the largest finite one. -/
def Overflows (f : Fmt) (n : Nat) (q : Int) : Prop := (f.emax : Int) < expField f n q ∨ ((f.emax : Int) = expField f n q ∧ f.mmax < manField f n)

section Grid

variable {t : Ty} {n : Nat} {q : Int}

theorem manField_lt {f : Fmt} (hg : OnGrid f n q) : manField f n < 2 ^ f.mb := by
  have h := hg.1
  rw [pow_succ] at h
  unfold manField
  split <;> omega

/-- A grid point is past the largest finite magnitude exactly where the test says so. -/
theorem overflows_iff (hf : isFloat t = true) (hg : OnGrid (Ty.fmt t) n q) : Overflows (Ty.fmt t) n q ↔ maxMag (Ty.fmt t) < mag n q := by
  obtain ⟨hmb, hemax, hmmax, -, -⟩ := fmt_float hf
  obtain ⟨hn, hleast, hq⟩ := hg
  unfold Overflows expField manField maxMag
  by_cases hsub : n < 2 ^ (Ty.fmt t).mb
  · have hle : mag n q ≤ mag (2 ^ (Ty.fmt t).mb + (Ty.fmt t).mmax) ((Ty.fmt t).emax - (Ty.fmt t).bias - (Ty.fmt t).mb) :=
      (mag_mono_exp n (by omega)).trans (mag_le_mag_iff.2 (by omega))
    rw [if_pos hsub, if_pos hsub]
    exact ⟨fun h => by omega, fun h => absurd hle (not_le.2 h)⟩
  · rw [if_neg hsub, if_neg hsub]
    rcases lt_trichotomy q ((Ty.fmt t).emax - (Ty.fmt t).bias - (Ty.fmt t).mb) with hlt | heq | hgt
    · have hle := (mag_lt_mag_of_exp hn (Nat.le_add_right (2 ^ (Ty.fmt t).mb) (Ty.fmt t).mmax) hlt).le
      exact ⟨fun h => by omega, fun h => absurd hle (not_le.2 h)⟩
    · rw [heq, mag_lt_mag_iff]; omega
    · have hlt := mag_lt_mag_of_exp (m := 2 ^ (Ty.fmt t).mb + (Ty.fmt t).mmax) (by rw [pow_succ]; omega) (not_lt.1 hsub) hgt
      exact ⟨fun _ => hlt, fun _ => by omega⟩

/-- The fields of a grid point that is not past the largest finite magnitude are those of a finite value. -/
theorem decodeF_encodeMag (hf : isFloat t = true) (neg : Bool) (hg : OnGrid (Ty.fmt t) n q) (ho : ¬ Overflows (Ty.fmt t) n q) :
    decodeF t (encodeMag t neg n q) = .fin neg n q ∧ encodeMag t neg n q < 2 ^ t.width := by
  obtain ⟨hmb, hemax, hmmax, heb, -⟩ := fmt_float hf
  have hm := manField_lt hg
  obtain ⟨hn, hleast, hq⟩ := hg
  unfold Overflows at ho
  have he : (expField (Ty.fmt t) n q).toNat ≤ (Ty.fmt t).emax := by omega
  have h0 : 0 ≤ expField (Ty.fmt t) n q := by unfold expField; split <;> omega
  refine ⟨(decodeF_encoding hf he hm fun h => by omega).trans ?_, encoding_lt hf (he.trans_lt heb) hm⟩
  unfold expField manField
  by_cases hsub : n < 2 ^ (Ty.fmt t).mb
  · have hq' : q = 1 - ((Ty.fmt t).bias : Int) - (Ty.fmt t).mb := hq.resolve_right (not_le.2 hsub)
    simp only [if_pos hsub]
    rw [Int.toNat_zero, if_pos rfl, ← hq']
  · simp only [if_neg hsub]
    rw [if_neg (by omega), Nat.add_sub_cancel' (not_lt.1 hsub)]
    congr 1; omega

/-! ### Overflow (spec/02 R28) -/

theorem decodeF_maxBits (hf : isFloat t = true) (neg : Bool) : (∃ m e, decodeF t (maxBits t neg) = .fin neg m e ∧ mag m e = maxMag (Ty.fmt t)) ∧
    maxBits t neg < 2 ^ t.width := by
  obtain ⟨hmb, hemax, hmmax, heb, -⟩ := fmt_float hf
  refine ⟨⟨_, _, (decodeF_encoding hf le_rfl hmmax fun _ => le_rfl).trans (if_neg (by omega)), rfl⟩, encoding_lt hf heb hmmax⟩

/-- A mode that rounds toward zero a number of that sign. -/
def Toward (rm : Rnd) (neg : Bool) : Prop := rm = .rtz ∨ rm = .rup ∧ neg = true ∨ rm = .rdn ∧ neg = false

def truncates (rm : Rnd) (neg : Bool) : Bool :=
  match rm with
  | .rne => false
  | .rtz => true
  | .rup => neg
  | .rdn => !neg

theorem truncates_iff {rm : Rnd} {neg : Bool} : truncates rm neg = true ↔ Toward rm neg := by cases rm <;> simp [truncates, Toward]

theorem overflow_eq (t : Ty) (rm : Rnd) (neg sat : Bool) : overflow t rm neg sat =
    if t ∈ [Ty.e3m2, .e2m3, .e2m1] then maxBits t neg
    else if sat || truncates rm neg then maxBits t neg
    else if t = .e4m3 then (if neg then 0xFF else 0x7F) else infBits t neg := by
  cases t <;> rfl

theorem overflow_largest {rm : Rnd} {neg sat : Bool} (h : t ∈ [Ty.e3m2, .e2m3, .e2m1] ∨ sat = true ∨ Toward rm neg) :
    overflow t rm neg sat = maxBits t neg := by
  rw [← truncates_iff, ← Bool.or_eq_true] at h
  rw [overflow_eq]
  split
  · rfl
  next hsmall => rw [if_pos (h.resolve_left hsmall)]

theorem decodeF_infBits (hf : isFloat t = true) (ht : t ∉ [Ty.e3m2, .e2m3, .e2m1]) (h4 : t ≠ .e4m3) (neg : Bool) :
    decodeF t (infBits t neg) = .inf neg ∧ infBits t neg < 2 ^ t.width := by
  have hcases : t = .f64 ∨ t = .f32 ∨ t = .bf16 ∨ t = .f16 ∨ t = .e5m2 := by cases t <;> simp_all [isFloat]
  rcases hcases with rfl | rfl | rfl | rfl | rfl <;> cases neg <;> decide

theorem overflow_beyond (hf : isFloat t = true) {rm : Rnd} {neg sat : Bool} (ht : t ∉ [Ty.e3m2, .e2m3, .e2m1]) (hs : sat = false)
    (hm : ¬ Toward rm neg) : (if t = .e4m3 then overflow t rm neg sat = (if neg then 0xFF else 0x7F)
      else decodeF t (overflow t rm neg sat) = .inf neg) ∧ overflow t rm neg sat < 2 ^ t.width := by
  have hsat : (sat || truncates rm neg) = false := by rw [hs, Bool.false_or, ← Bool.not_eq_true, truncates_iff]; exact hm
  rw [overflow_eq, if_neg ht, hsat, if_neg Bool.false_ne_true]
  by_cases h4 : t = .e4m3
  · subst h4
    simp only [if_true]
    exact ⟨trivial, by cases neg <;> decide⟩
  · rw [if_neg h4, if_neg h4]
    exact decodeF_infBits hf ht h4 neg

end Grid

end Sys2Proof.Machine
end

