-- ==== Sys2Proof/Proofs/CorrectRounding.lean ====
section
/-! `roundFloat` rounds correctly every number that its argument stands for (spec/02 R27, R28). -/

namespace Sys2Proof.Machine

open Safety

/-! ### Neighbours of the mantissa's size -/

theorem Between.bounds {x : Rat} {n : Nat} {q : Int} {half below : Bool} (h : Between (sideOf x) n q half below) :
    mag n q ≤ x ∧ x < mag (n + 1) q := by
  refine ⟨not_lt.1 fun hlt => ?_, sideOf_lt.1 h.hi⟩
  have hlo := h.lo
  rw [sideOf_lt.2 hlt] at hlo
  split at hlo <;> cases hlo

/-- Neighbours of m × 2^e in units that leave it at most p + 1 bits, and exactly as many in the least such units. -/
theorem mantissa_bounds {m n p : Nat} {e q : Int} (hm : m ≠ 0) (hlo : mag n q ≤ mag m e) (hhi : mag m e < mag (n + 1) q)
    (hq : (log2 m : Int) + e - p ≤ q) : n < 2 ^ (p + 1) ∧ (q = (log2 m : Int) + e - p → 2 ^ p ≤ n) := by
  obtain ⟨hle, hlt⟩ := mag_log2 hm e
  constructor
  · have h1 : mag n q < mag (2 ^ (p + 1)) q := by
      rw [mag_two_pow]
      exact (hlo.trans_lt hlt).trans_le (mag_mono_exp 1 (by push_cast; omega))
    exact mag_lt_mag_iff.1 h1
  · rintro rfl
    have h1 : mag (2 ^ p) ((log2 m : Int) + e - p) < mag (n + 1) ((log2 m : Int) + e - p) := by
      rw [mag_two_pow, sub_add_cancel]
      exact hle.trans_lt hhi
    exact Nat.lt_succ_iff.1 (mag_lt_mag_iff.1 h1)

theorem picked_cases (rm : Rnd) (neg : Bool) (n : Nat) (half below : Bool) :
    picked rm neg n half below = n ∨ picked rm neg n half below = n + 1 := by unfold picked; split <;> simp

theorem picked_bounds {p n : Nat} (hn : n < 2 ^ (p + 1)) (rm : Rnd) (neg half below : Bool) : n ≤ picked rm neg n half below ∧
    picked rm neg n half below ≤ 2 ^ (p + 1) := by
  rcases picked_cases rm neg n half below with h | h <;> rw [h] <;> omega

/-! ### A carry out of the mantissa -/

/-- The mantissa and its unit once a carry has been taken out. -/
def carried (p n : Nat) (q : Int) : Nat × Int := if n = 2 ^ (p + 1) then (2 ^ p, q + 1) else (n, q)

theorem carried_spec {p n : Nat} (hp : 1 ≤ p) (hn : n ≤ 2 ^ (p + 1)) (q : Int) : (carried p n q).1 < 2 ^ (p + 1) ∧
    (2 ^ p ≤ n → 2 ^ p ≤ (carried p n q).1) ∧ mag (carried p n q).1 (carried p n q).2 = mag n q ∧
    (n % 2 = 0 → (carried p n q).1 % 2 = 0) ∧ q ≤ (carried p n q).2 ∧ ((carried p n q).2 = q ∨ 2 ^ p ≤ (carried p n q).1) := by
  unfold carried
  split
  next h =>
    obtain ⟨k, rfl⟩ := Nat.exists_eq_add_of_le' hp
    refine ⟨Nat.pow_lt_pow_right (by decide) (by omega), fun _ => le_rfl, ?_, fun _ => ?_, by dsimp only; omega, .inr le_rfl⟩
    · rw [h, mag_two_pow, mag_two_pow]; congr 1; push_cast; ring
    · rw [pow_succ, Nat.mul_mod_left]
  next h => exact ⟨by dsimp only; omega, id, rfl, id, le_rfl, .inl rfl⟩

section Rounding

variable {side : Rat → Ordering} {rm : Rnd} {neg half below : Bool} {n p : Nat} {q : Int} {f : Fmt}

/-- Rounding at the least exponent or with a full mantissa is rounding on the grid of the format. -/
theorem roundsTo_onGrid (hc : IsCut side) (hb : Between side n q half below) (hp : 1 ≤ f.mb) (hn : n < 2 ^ (f.mb + 1))
    (hleast : 1 - (f.bias : Int) - f.mb ≤ q) (hq : q = 1 - (f.bias : Int) - f.mb ∨ 2 ^ f.mb ≤ n) :
    let r := carried f.mb (picked rm neg n half below) q
    RoundsTo (OnGrid f) rm neg side r.1 r.2 := by
  intro r
  obtain ⟨hge, hle⟩ := picked_bounds hn rm neg half below
  obtain ⟨hlt, hfull, hmag, heven, hqr, hcase⟩ := carried_spec hp hle q
  refine roundsTo_picked hc hb ?_ ⟨hlt, hleast.trans hqr, ?_⟩ hmag heven
  · rintro m' e' ⟨hm', hleast', -⟩
    exact mag_gap hm' (hq.imp_left fun h => h.le.trans hleast')
  · rcases hq with hq | hq
    · exact hcase.imp_left fun h => h.trans hq
    · exact .inr (hfull (hq.trans hge))

/-- Rounding with a full mantissa is rounding on the grid without a least exponent. -/
theorem roundsTo_onWideGrid (hc : IsCut side) (hb : Between side n q half below) (hp : 1 ≤ f.mb) (hn : n < 2 ^ (f.mb + 1)) (hfull : 2 ^ f.mb ≤ n) :
    let r := carried f.mb (picked rm neg n half below) q
    RoundsTo (OnWideGrid f) rm neg side r.1 r.2 := by
  intro r
  obtain ⟨hge, hle⟩ := picked_bounds hn rm neg half below
  obtain ⟨hlt, hfull', hmag, heven, -, -⟩ := carried_spec hp hle q
  exact roundsTo_picked hc hb (fun m' e' hg => mag_gap hg.2 (.inr hfull)) ⟨hfull' (hfull.trans hge), hlt⟩ hmag heven

/-- The rounded magnitude is the exact one where nothing lies under the unit. -/
theorem side_picked (hb : Between side n q half below) : side (mag (picked rm neg n half below) q) = .eq ↔ (half || below) = false := by
  have hlo := hb.lo
  have hhi := hb.hi
  unfold picked
  cases hx : (half || below)
  · obtain ⟨rfl, rfl⟩ := Bool.or_eq_false_iff.1 hx
    have hup : roundsUp rm neg (n % 2 == 1) false false = false := by cases rm <;> simp [roundsUp]
    simpa [hup] using hlo
  · rw [hx, if_pos rfl] at hlo
    split
    · rw [hhi]; decide
    · rw [hlo]; decide

end Rounding

/-! ### Tininess -/

/-- A magnitude rounded to p + 1 bits lies below 2^k as `roundFloat` tests it. -/
theorem tiny_iff {p u : Nat} (h : 2 ^ p ≤ u) (h' : u ≤ 2 ^ (p + 1)) (top k : Int) :
    mag u (top - p) < mag 1 k ↔ top < k ∧ ¬ (top + 1 = k ∧ u = 2 ^ (p + 1)) := by
  have hlow : mag 1 top ≤ mag u (top - p) := by
    rw [← sub_add_cancel top (p : Int), ← mag_two_pow, add_sub_cancel_right, mag_le_mag_iff]; exact h
  have htop : mag (2 ^ (p + 1)) (top - p) = mag 1 (top + 1) := by rw [mag_two_pow]; congr 1; push_cast; ring
  rcases lt_trichotomy (top + 1) k with hlt | rfl | hgt
  · have hup : mag u (top - p) ≤ mag 1 (top + 1) := by rw [← htop, mag_le_mag_iff]; exact h'
    have hk : mag 1 (top + 1) < mag 1 k := mag_lt_mag_of_exp (p := 0) (by decide) (by decide) hlt
    exact ⟨fun _ => by omega, fun _ => hup.trans_lt hk⟩
  · rw [← htop, mag_lt_mag_iff]; omega
  · have hk : mag 1 k ≤ mag 1 top := mag_mono_exp 1 (by omega)
    exact ⟨fun hlt => absurd (hk.trans hlow) (not_le.2 hlt), fun _ => by omega⟩

/-! ### The encoded result -/

/-- The end of `roundFloat`: the grid point n × 2^q encoded, or the result of an overflow, and the flags. -/
def encoded (t : Ty) (rm : Rnd) (neg sat : Bool) (n : Nat) (q : Int) (inexact tiny : Bool) : Nat × Fl :=
  if ((Ty.fmt t).emax : Int) < expField (Ty.fmt t) n q ∨ (((Ty.fmt t).emax : Int) = expField (Ty.fmt t) n q ∧ (Ty.fmt t).mmax < manField (Ty.fmt t) n)
  then (overflow t rm neg sat, Fl.ofl ||| Fl.inx)
  else (encodeMag t neg n q, if inexact then (if tiny then Fl.ufl ||| Fl.inx else Fl.inx) else 0)

theorem encoded_of_overflows {t : Ty} {n : Nat} {q : Int} (h : Overflows (Ty.fmt t) n q) (rm : Rnd) (neg sat inexact tiny : Bool) :
    encoded t rm neg sat n q inexact tiny = (overflow t rm neg sat, Fl.ofl ||| Fl.inx) := if_pos h

theorem encoded_of_fits {t : Ty} {n : Nat} {q : Int} (h : ¬ Overflows (Ty.fmt t) n q) (rm : Rnd) (neg sat inexact tiny : Bool) :
    encoded t rm neg sat n q inexact tiny = (encodeMag t neg n q, if inexact then (if tiny then Fl.ufl ||| Fl.inx else Fl.inx) else 0) := if_neg h

section Encoded

variable {t : Ty} {side : Rat → Ordering} {rm : Rnd} {sat neg inexact tiny : Bool} {n n' : Nat} {q q' : Int}

theorem overflow_lt (hf : isFloat t = true) : overflow t rm neg sat < 2 ^ t.width := by
  by_cases hlargest : t ∈ [Ty.e3m2, .e2m3, .e2m1] ∨ sat = true ∨ Toward rm neg
  · rw [overflow_largest hlargest]; exact (decodeF_maxBits hf neg).2
  · rw [not_or, not_or, Bool.not_eq_true] at hlargest
    exact (overflow_beyond hf hlargest.1 hlargest.2.1 hlargest.2.2).2

/-- Rounded on the grid, inexact where the grid point is not the number, tiny as it is rounded without a least exponent: that is R28. -/
theorem rounded_encoded (hf : isFloat t = true) (hg : RoundsTo (OnGrid (Ty.fmt t)) rm neg side n q)
    (hw : RoundsTo (OnWideGrid (Ty.fmt t)) rm neg side n' q') (hi : side (mag n q) = .eq ↔ inexact = false)
    (ht : tiny = true ↔ mag n' q' < mag 1 (1 - ((Ty.fmt t).bias : Int))) : Rounded t rm sat neg side (encoded t rm neg sat n q inexact tiny) := by
  have hover := overflows_iff hf hg.1
  by_cases ho : Overflows (Ty.fmt t) n q
  · rw [encoded_of_overflows ho]
    refine ⟨overflow_lt hf, n, q, hg, fun hle => absurd hle (not_le.2 (hover.1 ho)), fun _ => ⟨rfl, fun hlargest => ?_, fun hty hsat hmode => ?_⟩⟩
    · change ∃ m e, decodeF t (overflow t rm neg sat) = _ ∧ _
      rw [overflow_largest hlargest]; exact (decodeF_maxBits hf neg).1
    · exact (overflow_beyond hf hty hsat hmode).1
  · rw [encoded_of_fits ho]
    obtain ⟨hdecode, hbound⟩ := decodeF_encodeMag hf neg hg.1 ho
    refine ⟨hbound, n, q, hg, fun _ => ⟨⟨n, q, hdecode, rfl⟩, fun heq => ?_, fun hne => ⟨n', q', hw, ?_⟩⟩, fun hlt => absurd (hover.2 hlt) ho⟩
    · rw [hi.1 heq]; rfl
    · rw [Bool.of_not_eq_false fun h => hne (hi.2 h)]
      simp only [if_true, ht]

end Encoded

/-! ### `roundFloat` -/

/-- The exponent of the unit to which a format rounds m × 2^e. -/
def unitExp (f : Fmt) (m : Nat) (e : Int) : Int := max ((log2 m : Int) + e - f.mb) (1 - (f.bias : Int) - f.mb)

/-- `roundFloat` by its steps. -/
theorem roundFloat_eq (t : Ty) (rm : Rnd) (neg : Bool) (m : Nat) (e : Int) (sat : Bool) : roundFloat t rm neg m e sat =
    (let f := Ty.fmt t
     let top := (log2 m : Int) + e
     let r := quantize m e (unitExp f m e) rm neg
     let u := (quantize m e (top - f.mb) rm neg).1
     let c := carried f.mb r.1 (unitExp f m e)
     encoded t rm neg sat c.1 c.2 r.2
       (decide (top < 1 - (f.bias : Int)) && !(decide (top + 1 = 1 - (f.bias : Int)) && u == 2 ^ (f.mb + 1)))) := rfl

/-- `roundFloat` rounds correctly every number that stands to the multiples of half the unit of p + 1 bits as its argument does. -/
theorem rounded_roundFloat {t : Ty} {side : Rat → Ordering} {rm : Rnd} {sat neg : Bool} {m : Nat} {e : Int} (hf : isFloat t = true) (hm : m ≠ 0)
    (hc : IsCut side) (hs : ∀ (j : Nat) (q : Int), (log2 m : Int) + e - (Ty.fmt t).mb ≤ q →
      side (mag j (q - 1)) = sideOf (mag m e) (mag j (q - 1))) : Rounded t rm sat neg side (roundFloat t rm neg m e sat) := by
  obtain ⟨hmb, -⟩ := fmt_float hf
  -- the neighbours in units of the format, and in those of an exponent without bounds
  obtain ⟨n, half, below, hb, hquant⟩ := between_quantize m e (unitExp (Ty.fmt t) m e)
  obtain ⟨w, half', below', hb', hquant'⟩ := between_quantize m e ((log2 m : Int) + e - (Ty.fmt t).mb)
  have hunit : (log2 m : Int) + e - (Ty.fmt t).mb ≤ unitExp (Ty.fmt t) m e := le_max_left _ _
  obtain ⟨hn, hnfull⟩ := mantissa_bounds hm hb.bounds.1 hb.bounds.2 hunit
  obtain ⟨hw, hwfull⟩ := mantissa_bounds hm hb'.bounds.1 hb'.bounds.2 le_rfl
  have hq : unitExp (Ty.fmt t) m e = 1 - ((Ty.fmt t).bias : Int) - (Ty.fmt t).mb ∨ 2 ^ (Ty.fmt t).mb ≤ n :=
    (max_choice _ _).symm.imp_right hnfull
  replace hb := hb.congr (side' := side) fun j => hs j _ hunit
  replace hb' := hb'.congr (side' := side) fun j => hs j _ le_rfl
  obtain ⟨-, hnle⟩ := picked_bounds hn rm neg half below
  obtain ⟨hwge, hwle⟩ := picked_bounds hw rm neg half' below'
  obtain ⟨-, -, hmag, -⟩ := carried_spec hmb hnle (unitExp (Ty.fmt t) m e)
  obtain ⟨-, -, hmag', -⟩ := carried_spec hmb hwle ((log2 m : Int) + e - (Ty.fmt t).mb)
  rw [roundFloat_eq]
  dsimp only
  rw [hquant rm neg, hquant' rm neg]
  refine rounded_encoded hf (roundsTo_onGrid hc hb hmb hn (le_max_right _ _) hq) (roundsTo_onWideGrid hc hb' hmb hw (hwfull rfl)) ?_ ?_
  · rw [hmag]; exact side_picked hb
  · rw [hmag', tiny_iff ((hwfull rfl).trans hwge) hwle]; simp [imp_iff_not_or]

end Sys2Proof.Machine
end

