-- ==== Sys2Proof/Proofs/FloatValues.lean ====
section
/-! The operations on the numbers that their operands stand for (spec/02 R27, spec/05 R128, R129, spec/08 R217 to R219). -/

namespace Sys2Proof.Machine

open Safety

/-! ### Values -/

/-- The number that an exact dyadic stands for. -/
def Dy.val (x : Dy) : Rat := x.m * (2 : Rat) ^ x.e

theorem Dy.val_at {x : Dy} {e : Int} (h : e ≤ x.e) : (x.at e : Rat) * (2 : Rat) ^ e = x.val := by
  have hx : x.e = ((x.e - e).toNat : Int) + e := by omega
  rw [Dy.val, Dy.at]
  conv_rhs => rw [hx, zpow_add₀ two_ne_zero, zpow_natCast]
  push_cast
  ring

theorem Dy.val_add (x y : Dy) : (x.add y).val = x.val + y.val := by
  rw [← Dy.val_at (min_le_left x.e y.e), ← Dy.val_at (min_le_right x.e y.e), ← add_mul, Dy.val, Dy.add]
  push_cast
  rfl

theorem Dy.val_eq_zero_iff {x : Dy} : x.val = 0 ↔ x.m = 0 := by
  have h2 : (2 : Rat) ^ x.e ≠ 0 := by positivity
  simp [Dy.val, h2]

/-- A dyadic by its sign and its magnitude. -/
theorem Dy.val_eq_mag (x : Dy) : x.val = if decide (x.m < 0) then -mag x.m.natAbs x.e else mag x.m.natAbs x.e := by
  have habs : ((x.m.natAbs : Nat) : Rat) = |(x.m : Rat)| := by rw [← Int.cast_natCast, Int.natCast_natAbs, Int.cast_abs]
  unfold mag Dy.val
  rw [habs]
  by_cases h : x.m < 0
  · rw [abs_of_neg (by exact_mod_cast h)]; simp [h]
  · rw [abs_of_nonneg (by exact_mod_cast not_lt.1 h)]; simp [h]

end Sys2Proof.Machine

namespace Sys2Proof.Safety

open Machine

theorem IsValue.dy {v : FV} {x : Rat} (h : IsValue v x) : v.dy.val = x := by
  obtain ⟨n, m, e, rfl, rfl⟩ := h
  cases n <;> simp [FV.dy, Dy.val, mag]

theorem IsValue.isNan {v : FV} {x : Rat} (h : IsValue v x) : v.isNan = false := by obtain ⟨n, m, e, rfl, -⟩ := h; rfl
theorem IsValue.isInf {v : FV} {x : Rat} (h : IsValue v x) : v.isInf = false := by obtain ⟨n, m, e, rfl, -⟩ := h; rfl

theorem IsValue.flip {v : FV} {x : Rat} (h : IsValue v x) : IsValue v.flip (-x) := by
  obtain ⟨n, m, e, rfl, rfl⟩ := h
  exact ⟨!n, m, e, rfl, by cases n <;> simp⟩

theorem IsValue.flipIf {v : FV} {x : Rat} (h : IsValue v x) (b : Bool) : IsValue (Machine.flipIf b v) (if b then -x else x) := by
  cases b
  · exact h
  · exact h.flip

theorem IsValue.mul {v w : FV} {x y : Rat} (h : IsValue v x) (h' : IsValue w y) : ∃ z, mulV v w = some z ∧ IsValue z (x * y) := by
  obtain ⟨n, m, e, rfl, rfl⟩ := h
  obtain ⟨n', m', e', rfl, rfl⟩ := h'
  refine ⟨_, rfl, n != n', m * m', e + e', rfl, ?_⟩
  have hmul : mag (m * m') (e + e') = mag m e * mag m' e' := by unfold mag; rw [zpow_add₀ two_ne_zero]; push_cast; ring
  rw [hmul]
  cases n <;> cases n' <;> simp

end Sys2Proof.Safety

namespace Sys2Proof.Machine

open Safety

theorem propagate_none (t : Ty) {vs : List FV} (h : ∀ v ∈ vs, v.isNan = false) : propagate t vs = none := by
  rw [propagate, List.findSome?_eq_none_iff]
  intro v hv
  have hn := h v hv
  cases v with
  | nan n p => cases hn
  | inf n => rfl
  | fin n m e => rfl

/-! ### Rounding of a magnitude, of a dyadic, of a sum -/

theorem isFloat_of_isArith {t : Ty} (h : t.isArith = true) : isFloat t = true := by cases t <;> simp_all [Ty.isArith, isFloat]
theorem isFloat_of_isCplx {t : Ty} (h : t.isCplx = true) : isFloat t = true := by cases t <;> simp_all [Ty.isCplx, isFloat]

section Rounding

variable {t : Ty} {rm : Rnd} {sat neg : Bool}

theorem roundMag_eq_roundFloat (hf : isFloat t = true) {m : Nat} (hm : m ≠ 0) (rm : Rnd) (neg : Bool) (e : Int) (sat : Bool) :
    roundMag t rm neg m e sat = roundFloat t rm neg m e sat := by
  have hds : (t == .ds8) = false := by cases t <;> simp_all [isFloat]
  simp [roundMag, hm, hds]

theorem rounded_roundMag (hf : isFloat t = true) {m : Nat} (hm : m ≠ 0) (e : Int) :
    Rounded t rm sat neg (sideOf (mag m e)) (roundMag t rm neg m e sat) := by
  rw [roundMag_eq_roundFloat hf hm]
  exact rounded_roundFloat hf hm (isCut_sideOf _) fun _ _ _ => rfl

/-- A number by its sign and its magnitude. -/
theorem roundedFrom_of_magnitude {x q : Rat} {r : Nat × Fl} (hq : 0 ≤ q) (hx : x = if neg then -q else q)
    (h : q ≠ 0 → Rounded t rm sat neg (sideOf q) r) : RoundedFrom t rm sat x r := by
  intro hx0
  have hq0 : q ≠ 0 := by rintro rfl; apply hx0; rw [hx]; cases neg <;> simp
  have hpos : 0 < q := lt_of_le_of_ne hq hq0.symm
  cases neg
  · have hx : x = q := hx
    have hlt : ¬ x < 0 := by rw [hx]; exact not_lt.2 hq
    rw [decide_eq_false hlt, if_neg hlt, hx]; exact h hq0
  · have hx : x = -q := hx
    have hlt : x < 0 := by rw [hx]; exact neg_lt_zero.2 hpos
    rw [decide_eq_true hlt, if_pos hlt, hx, neg_neg]; exact h hq0

theorem roundedFrom_roundMag (hf : isFloat t = true) {x : Rat} {m : Nat} {e : Int} (hx : x = if neg then -mag m e else mag m e) :
    RoundedFrom t rm sat x (roundMag t rm neg m e sat) :=
  roundedFrom_of_magnitude (mag_nonneg m e) hx fun h => rounded_roundMag hf (mt mag_eq_zero_iff.2 h) e

theorem roundedFrom_roundDy (hf : isFloat t = true) (x : Dy) (zneg : Bool) : RoundedFrom t rm false x.val (roundDy t rm x zneg) := by
  intro hx
  have hm : x.m ≠ 0 := mt Dy.val_eq_zero_iff.2 hx
  rw [roundDy, if_neg hm]
  exact roundedFrom_roundMag hf x.val_eq_mag hx

theorem addV_values {v w : FV} {x y : Rat} (h : IsValue v x) (h' : IsValue w y) : addV t rm v w =
    roundDy t rm (v.dy.add w.dy) (if v.isZero && w.isZero && v.neg == w.neg then v.neg else rm == .rdn) := by
  obtain ⟨n, m, e, rfl, -⟩ := h
  obtain ⟨n', m', e', rfl, -⟩ := h'
  rfl

theorem roundedFrom_addV (hf : isFloat t = true) {v w : FV} {x y : Rat} (h : IsValue v x) (h' : IsValue w y) :
    RoundedFrom t rm false (x + y) (addV t rm v w) := by
  rw [addV_values h h', ← h.dy, ← h'.dy, ← Dy.val_add]
  exact roundedFrom_roundDy hf _ _

end Rounding

/-! ### Sum, difference, product -/

section Arithmetic

variable {t : Ty} {rm : Rnd} {a b c : Nat} {x y z : Rat}

theorem fadd_values (ha : IsValue (decodeF t a) x) (hb : IsValue (decodeF t b) y) : fadd t rm a b = addV t rm (decodeF t a) (decodeF t b) := by
  rw [fadd]
  simp only [propagate_none t (vs := [decodeF t a, decodeF t b]) (by simp [ha.isNan, hb.isNan]), Option.getD_none]

theorem roundedFrom_fadd (hf : isFloat t = true) (ha : IsValue (decodeF t a) x) (hb : IsValue (decodeF t b) y) :
    RoundedFrom t rm false (x + y) (fadd t rm a b) := by
  rw [fadd_values ha hb]
  exact roundedFrom_addV hf ha hb

theorem roundedFrom_fsub (hf : isFloat t = true) (ha : IsValue (decodeF t a) x) (hb : IsValue (decodeF t b) y) :
    RoundedFrom t rm false (x - y) (fsub t rm a b) := by
  rw [fsub, sub_eq_add_neg]
  simp only [propagate_none t (vs := [decodeF t a, decodeF t b]) (by simp [ha.isNan, hb.isNan]), Option.getD_none]
  exact roundedFrom_addV hf ha hb.flip

theorem roundedFrom_fmul (hf : isFloat t = true) (ha : IsValue (decodeF t a) x) (hb : IsValue (decodeF t b) y) :
    RoundedFrom t rm false (x * y) (fmul t rm a b) := by
  obtain ⟨z, hz, n, m, e, rfl, hxy⟩ := ha.mul hb
  rw [fmul]
  simp only [propagate_none t (vs := [decodeF t a, decodeF t b]) (by simp [ha.isNan, hb.isNan]), Option.getD_none, hz]
  exact roundedFrom_roundMag hf hxy

theorem roundedFrom_ffma (hf : isFloat t = true) (ha : IsValue (decodeF t a) x) (hb : IsValue (decodeF t b) y) (hc : IsValue (decodeF t c) z) :
    RoundedFrom t rm false (x * y + z) (ffma t rm a b c) := by
  obtain ⟨p, hp, hxy⟩ := ha.mul hb
  rw [ffma]
  simp only [ha.isNan, hb.isNan, hp, propagate_none t (vs := [decodeF t c]) (by simp [hc.isNan]), Bool.or_self, Bool.false_eq_true, if_false,
    Option.getD_none]
  exact roundedFrom_addV hf hxy hc

/-- An exact zero sum of opposite signs (spec/02 R27). -/
theorem fadd_zero (hf : isFloat t = true) (ha : IsValue (decodeF t a) x) (hb : IsValue (decodeF t b) y) (hxy : x + y = 0)
    (hneg : (decodeF t a).neg ≠ (decodeF t b).neg) :
    (fadd t rm a b).2 = 0 ∧ ∃ e, decodeF t (fadd t rm a b).1 = .fin (decide (rm = .rdn)) 0 e := by
  have hm : ((decodeF t a).dy.add (decodeF t b).dy).m = 0 := by rw [← Dy.val_eq_zero_iff, Dy.val_add, ha.dy, hb.dy, hxy]
  have hz : ((decodeF t a).isZero && (decodeF t b).isZero && (decodeF t a).neg == (decodeF t b).neg) = false := by simp [hneg]
  rw [fadd_values ha hb, addV_values ha hb, hz, roundDy, if_pos hm]
  have hdecode := decodeF_encoding hf (neg := decide (rm = .rdn)) (Nat.zero_le (Ty.fmt t).emax) (Nat.two_pow_pos (Ty.fmt t).mb) fun _ => Nat.zero_le _
  rw [if_pos rfl, zero_mul, add_zero, add_zero] at hdecode
  exact ⟨rfl, _, hdecode⟩

end Arithmetic

/-! ### Conversion -/

theorem roundedFrom_convert {src t : Ty} {rm : Rnd} {sat : Bool} {a : Nat} {x : Rat} (hf : isFloat t = true) (ha : IsValue (decodeF src a) x) :
    RoundedFrom t rm sat x (convert a src t rm sat) := by
  obtain ⟨n, m, e, hv, hx⟩ := ha
  have h8 : (t == .e8m0) = false := by cases t <;> simp_all [isFloat]
  have hint : isIntTy t = false := by cases t <;> simp_all [isFloat, isIntTy, Ty.isInt]
  intro hx0
  have hm : (m == 0) = false := by
    rw [beq_eq_false_iff_ne]
    rintro rfl
    apply hx0; rw [hx, mag_zero]; cases n <;> simp
  rw [convert, hv]
  simp only [h8, hint, hm, Bool.and_false, Bool.not_false, Bool.and_true, Bool.false_eq_true, if_false]
  exact roundedFrom_roundMag hf hx hx0

/-! ### Complex numbers -/

theorem val_foldl_add {vs : List FV} {xs : List Rat} (h : List.Forall₂ IsValue vs xs) (d : Dy) :
    ((vs.map FV.dy).foldl Dy.add d).val = d.val + xs.sum := by
  induction h generalizing d with
  | nil => simp
  | cons hv _ ih => rw [List.map_cons, List.foldl_cons, ih, Dy.val_add, hv.dy, List.sum_cons, add_assoc]

theorem forall₂_isValue_mem {vs : List FV} {xs : List Rat} (h : List.Forall₂ IsValue vs xs) : ∀ v ∈ vs, ∃ x, IsValue v x := by
  induction h with
  | nil => simp
  | cons hv _ ih => exact List.forall_mem_cons.2 ⟨⟨_, hv⟩, ih⟩

/-- A sum of finite terms is rounded once. -/
theorem roundedFrom_oneRound {t : Ty} {rm : Rnd} {ops vs : List FV} {xs : List Rat} (hf : isFloat t = true) (hops : ∀ v ∈ ops, v.isNan = false)
    (h : List.Forall₂ IsValue vs xs) : RoundedFrom t rm false xs.sum (oneRound t rm ops (vs.map some)) := by
  have hinf : vs.filter FV.isInf = [] := by
    rw [List.filter_eq_nil_iff]
    intro v hv
    obtain ⟨x, hx⟩ := forall₂_isValue_mem h v hv
    rw [hx.isInf]; decide
  have hsum : ((vs.map FV.dy).foldl Dy.add ⟨0, 0⟩).val = xs.sum := by rw [val_foldl_add h]; simp [Dy.val]
  have hsome : (vs.map some).any Option.isNone = false := by simp
  rw [oneRound, propagate_none t hops, Option.getD_none, hsome, ← hsum]
  simp only [Bool.false_eq_true, if_false, List.filterMap_map, Function.comp_def, id, List.filterMap_some, sumOnce, hinf]
  exact roundedFrom_roundDy hf _ _

end Sys2Proof.Machine
end

