-- ==== Sys2Proof/Proofs/QuotientAndRoot.lean ====
section
/-! Quotients and square roots: a magnitude of enough bits whose last bit says that something lies below it (spec/05 R128). -/

namespace Sys2Proof.Machine

open Safety

/-! ### A sticky last bit -/

/-- A number is n × 2^(e + 1), with s zero, or lies between it and the next multiple of 2^(e + 1), with s one. -/
def Sticky (side : Rat → Ordering) (n s : Nat) (e : Int) : Prop :=
  s = 0 ∧ side (mag n (e + 1)) = .eq ∨ s = 1 ∧ side (mag n (e + 1)) = .gt ∧ side (mag (n + 1) (e + 1)) = .lt

/-- Then it stands to the multiples of 2^(e + 1) as (2n + s) × 2^e does. -/
theorem Sticky.side_eq {side : Rat → Ordering} {n s : Nat} {e : Int} (h : Sticky side n s e) (hc : IsCut side) (j : Nat) :
    side (mag j (e + 1)) = sideOf (mag (2 * n + s) e) (mag j (e + 1)) := by
  have hj : mag j (e + 1) = mag (j * 2) e := (mag_mul_two_pow j 1 e).symm
  rw [hj, sideOf_mag, ← hj]
  have h0 := mag_nonneg j (e + 1)
  rcases lt_trichotomy j n with hlt | rfl | hgt
  · have hs : side (mag n (e + 1)) ≠ .lt := by rcases h with ⟨-, h⟩ | ⟨-, h, -⟩ <;> rw [h] <;> decide
    rw [hc.gt h0 (mag_lt_mag_iff.2 hlt) hs, if_neg (by omega), if_neg (by omega)]
  · rcases h with ⟨rfl, h⟩ | ⟨rfl, h, -⟩
    · rw [h, if_neg (by omega), if_pos (by omega)]
    · rw [h, if_neg (by omega), if_neg (by omega)]
  · have hs : side (mag j (e + 1)) = .lt := by
      rcases h with ⟨-, h⟩ | ⟨-, -, h⟩
      · exact hc _ _ (mag_nonneg n _) (mag_lt_mag_iff.2 hgt) (by rw [h]; decide)
      · exact hc.lt_of_le (mag_nonneg _ _) (mag_le_mag_iff.2 hgt) h
    have hs1 : s ≤ 1 := by rcases h with ⟨rfl, -⟩ | ⟨rfl, -⟩ <;> decide
    rw [hs, if_pos (by omega)]

/-- A sticky last bit far enough below the mantissa does not change the rounding. -/
theorem Sticky.rounded {t : Ty} {side : Rat → Ordering} {rm : Rnd} {neg sat : Bool} {n s : Nat} {e : Int} (h : Sticky side n s e)
    (hf : isFloat t = true) (hc : IsCut side) (hn : 2 ^ ((Ty.fmt t).mb + 1) ≤ n) : Rounded t rm sat neg side (roundMag t rm neg (2 * n + s) e sat) := by
  have hpos : 0 < n := (Nat.two_pow_pos _).trans_le hn
  have hm : 2 * n + s ≠ 0 := by omega
  have hlog : (Ty.fmt t).mb + 2 ≤ log2 (2 * n + s) := (Nat.le_log2 hm).2 (by rw [pow_succ]; omega)
  rw [roundMag_eq_roundFloat hf hm]
  refine rounded_roundFloat hf hm hc fun j q hq => ?_
  rw [mag_at (q := e + 1) j (by omega)]
  exact h.side_eq hc _

/-! ### The quotient -/

section Quotient

variable {t : Ty} {rm : Rnd} {a b : Nat} {x y : Rat}

theorem le_mul_two_pow_div {p m1 m2 : Nat} (h1 : m1 ≠ 0) (h2 : m2 ≠ 0) :
    2 ^ (p + 3) ≤ m1 * 2 ^ (p + 4 + log2 m2 - log2 m1) / m2 := by
  rw [Nat.le_div_iff_mul_le (Nat.pos_of_ne_zero h2)]
  calc 2 ^ (p + 3) * m2 ≤ 2 ^ (p + 3) * 2 ^ (log2 m2 + 1) := Nat.mul_le_mul_left _ Nat.lt_log2_self.le
    _ ≤ 2 ^ log2 m1 * 2 ^ (p + 4 + log2 m2 - log2 m1) := by
      rw [← pow_add, ← pow_add]; exact Nat.pow_le_pow_right (by decide) (by omega)
    _ ≤ m1 * 2 ^ (p + 4 + log2 m2 - log2 m1) := Nat.mul_le_mul_right _ (Nat.log2_self_le h1)

theorem sideOf_mul {x q u : Rat} (hu : 0 < u) : sideOf (x * u) (q * u) = sideOf x q := by
  simp only [sideOf, mul_lt_mul_iff_left₀ hu, mul_left_inj' hu.ne']

/-- The quotient of two magnitudes against a multiple of 2^(e1 - e2 - k). -/
theorem sideOf_quotient {m1 m2 : Nat} (h2 : m2 ≠ 0) (e1 e2 : Int) (k j : Nat) : sideOf (mag m1 e1 / mag m2 e2) (mag j (e1 - e2 - k)) =
    sideOf (mag (m1 * 2 ^ k) 0) (mag (j * m2) 0) := by
  have hpos := mag_pos h2 e2
  have hu : (0 : Rat) < (2 : Rat) ^ (e1 - k) := by positivity
  have hx : mag m1 e1 = mag (m1 * 2 ^ k) 0 * (2 : Rat) ^ (e1 - k) := by
    rw [mag_mul_two_pow, mag, mag, mul_assoc, ← zpow_add₀ two_ne_zero]; congr 2; ring
  have hj : mag j (e1 - e2 - k) * mag m2 e2 = mag (j * m2) 0 * (2 : Rat) ^ (e1 - k) := by
    have he : e1 - (k : Int) = (e1 - e2 - k) + e2 := by ring
    rw [he, zpow_add₀ two_ne_zero]; unfold mag; push_cast; ring
  rw [← sideOf_mul hpos, div_mul_cancel₀ _ hpos.ne', hj, hx, sideOf_mul hu]

theorem sticky_quotient {m1 m2 : Nat} (h2 : m2 ≠ 0) (e1 e2 : Int) (k : Nat) :
    Sticky (sideOf (mag m1 e1 / mag m2 e2)) (m1 * 2 ^ k / m2) (if m1 * 2 ^ k % m2 = 0 then 0 else 1) (e1 - e2 - k - 1) := by
  have hdiv := Nat.div_add_mod (m1 * 2 ^ k) m2
  have hmod := Nat.mod_lt (m1 * 2 ^ k) (Nat.pos_of_ne_zero h2)
  unfold Sticky
  rw [sub_add_cancel, sideOf_quotient h2, sideOf_quotient h2, sideOf_mag, sideOf_mag, Nat.mul_comm _ m2, Nat.succ_mul, Nat.mul_comm _ m2]
  split
  next h0 => exact .inl ⟨rfl, by rw [if_neg (by omega), if_pos (by omega)]⟩
  next h0 => exact .inr ⟨rfl, by rw [if_neg (by omega), if_neg (by omega)], by rw [if_pos (by omega)]⟩

theorem fdiv_values {n n' : Bool} {m m' : Nat} {e e' : Int} (ha : decodeF t a = .fin n m e) (hb : decodeF t b = .fin n' m' e') (hm : m ≠ 0)
    (hm' : m' ≠ 0) : fdiv t rm a b =
      roundMag t rm (n != n') (divMag ((Ty.fmt t).mb + 1) m e m' e').1 (divMag ((Ty.fmt t).mb + 1) m e m' e').2 := by
  rw [fdiv, ha, hb]
  simp [propagate, FV.neg, hm, hm']

theorem roundedFrom_fdiv (hf : isFloat t = true) (ha : IsValue (decodeF t a) x) (hb : IsValue (decodeF t b) y) (hy : y ≠ 0) :
    RoundedFrom t rm false (x / y) (fdiv t rm a b) := by
  obtain ⟨n, m, e, hva, rfl⟩ := ha
  obtain ⟨n', m', e', hvb, rfl⟩ := hb
  have hm' : m' ≠ 0 := by rintro rfl; apply hy; rw [mag_zero]; cases n' <;> simp
  refine roundedFrom_of_magnitude (neg := n != n') (q := mag m e / mag m' e') (div_nonneg (mag_nonneg _ _) (mag_nonneg _ _)) ?_ fun hq => ?_
  · cases n <;> cases n' <;> simp [neg_div, div_neg]
  · have hm : m ≠ 0 := by rintro rfl; apply hq; rw [mag_zero, zero_div]
    rw [fdiv_values hva hvb hm hm']
    exact (sticky_quotient hm' e e' _).rounded hf (isCut_sideOf _)
      ((Nat.pow_le_pow_right (by decide) (by omega)).trans (le_mul_two_pow_div hm hm'))

end Quotient

/-! ### The square root -/

theorem isqrtGo_spec {n : Nat} (k r : Nat) (hlo : r * r ≤ n) (hhi : n < (r + 2 ^ k) * (r + 2 ^ k)) :
    isqrtGo n k r * isqrtGo n k r ≤ n ∧ n < (isqrtGo n k r + 1) * (isqrtGo n k r + 1) := by
  induction k generalizing r with
  | zero => exact ⟨hlo, hhi⟩
  | succ k ih =>
    rw [isqrtGo]
    split
    next h => exact ih _ h (by rw [add_assoc, ← two_mul, ← pow_succ']; exact hhi)
    next h => exact ih _ hlo (not_le.1 h)

theorem isqrt_spec (n : Nat) : isqrt n * isqrt n ≤ n ∧ n < (isqrt n + 1) * (isqrt n + 1) := by
  refine isqrtGo_spec _ 0 (Nat.zero_le n) ?_
  rw [Nat.zero_add, ← pow_add]
  exact Nat.lt_log2_self.trans_le (Nat.pow_le_pow_right (by decide) (by unfold log2; omega))

section Root

variable {t : Ty} {rm : Rnd} {a : Nat} {x : Rat}

/-- The root of a magnitude with an even exponent against a multiple of 2^(e - k). -/
theorem rootSide_mag (m : Nat) (e : Int) (k j : Nat) : rootSide (mag m (2 * e)) (mag j (e - k)) = sideOf (mag (m * 4 ^ k) 0) (mag (j * j) 0) := by
  have hu : (0 : Rat) < (2 : Rat) ^ (2 * e - 2 * (k : Int)) := by positivity
  have hx : mag m (2 * e) = mag (m * 4 ^ k) 0 * (2 : Rat) ^ (2 * e - 2 * (k : Int)) := by
    have h4 : 4 ^ k = 2 ^ (2 * k) := by rw [pow_mul]; rfl
    rw [h4, mag_mul_two_pow, mag, mag, mul_assoc, ← zpow_add₀ two_ne_zero]; congr 2; push_cast; ring
  have hj : mag j (e - k) * mag j (e - k) = mag (j * j) 0 * (2 : Rat) ^ (2 * e - 2 * (k : Int)) := by
    have he : 2 * e - 2 * (k : Int) = (e - k) + (e - k) := by ring
    rw [he, zpow_add₀ two_ne_zero]; unfold mag; push_cast; ring
  rw [rootSide, hj, hx, sideOf_mul hu]

theorem sticky_root (m : Nat) (e : Int) (k : Nat) :
    Sticky (rootSide (mag m (2 * e))) (isqrt (m * 4 ^ k)) (if isqrt (m * 4 ^ k) * isqrt (m * 4 ^ k) = m * 4 ^ k then 0 else 1) (e - k - 1) := by
  obtain ⟨hlo, hhi⟩ := isqrt_spec (m * 4 ^ k)
  unfold Sticky
  rw [sub_add_cancel, rootSide_mag, rootSide_mag, sideOf_mag, sideOf_mag, if_neg (not_lt.2 hlo), if_pos hhi]
  split
  next h0 => exact .inl ⟨rfl, if_pos h0.symm⟩
  next h0 => exact .inr ⟨rfl, if_neg (Ne.symm h0), rfl⟩

theorem le_isqrt {m k : Nat} (hm : m ≠ 0) : 2 ^ k ≤ isqrt (m * 4 ^ k) := by
  by_contra h
  have hsq : (isqrt (m * 4 ^ k) + 1) * (isqrt (m * 4 ^ k) + 1) ≤ 2 ^ k * 2 ^ k := Nat.mul_self_le_mul_self (not_le.1 h)
  have h4 : 2 ^ k * 2 ^ k = 4 ^ k := by rw [← mul_pow]; rfl
  have hle : 4 ^ k ≤ m * 4 ^ k := Nat.le_mul_of_pos_left _ (Nat.pos_of_ne_zero hm)
  have := (isqrt_spec (m * 4 ^ k)).2
  omega

/-- The magnitude with its exponent made even, as `sqrtMag` does. -/
theorem mag_even (m : Nat) (e : Int) : mag m e = mag (if e % 2 = 0 then m else 2 * m) (2 * ((if e % 2 = 0 then e else e - 1) / 2)) := by
  split
  next h => congr 1; omega
  next h =>
    have he : 2 * ((e - 1) / 2) = e - 1 := by omega
    rw [he, mul_comm, ← pow_one 2, mag_mul_two_pow]; congr 1; push_cast; ring

theorem sqrtMag_eq (p m : Nat) (e : Int) : sqrtMag p m e =
    (let m' := if e % 2 = 0 then m else 2 * m
     let e' := if e % 2 = 0 then e else e - 1
     let n := isqrt (m' * 4 ^ (p + 4))
     (2 * n + (if n * n = m' * 4 ^ (p + 4) then 0 else 1), e' / 2 - (p + 4 : Nat) - 1)) := by
  by_cases h : e % 2 = 0
  · simp only [sqrtMag, if_pos h]
  · simp only [sqrtMag, if_neg h]

theorem fsqrt_values {m : Nat} {e : Int} (ha : decodeF t a = .fin false m e) (hm : m ≠ 0) :
    fsqrt t rm a = roundMag t rm false (sqrtMag ((Ty.fmt t).mb + 1) m e).1 (sqrtMag ((Ty.fmt t).mb + 1) m e).2 := by
  rw [fsqrt, ha]
  simp [propagate, hm]

theorem rounded_fsqrt (hf : isFloat t = true) (ha : IsValue (decodeF t a) x) (hx : 0 < x) : Rounded t rm false false (rootSide x) (fsqrt t rm a) := by
  obtain ⟨n, m, e, hva, rfl⟩ := ha
  cases n
  · have hm : m ≠ 0 := by rintro rfl; rw [mag_zero] at hx; simp at hx
    have hm' : (if e % 2 = 0 then m else 2 * m) ≠ 0 := by split <;> omega
    rw [fsqrt_values hva hm, sqrtMag_eq]
    change Rounded t rm false false (rootSide (mag m e)) _
    rw [mag_even]
    exact (sticky_root _ _ _).rounded hf (isCut_rootSide _) ((Nat.pow_le_pow_right (by decide) (by omega)).trans (le_isqrt hm'))
  · exact absurd hx (not_lt.2 (neg_nonpos.2 (mag_nonneg m e)))

end Root

end Sys2Proof.Machine
end

