-- ==== Sys2Proof/Proofs/FloatFormats.lean ====
section
/-! O11: finite values round to themselves, and the operations round the exact result once (spec/02 R27, R28). -/

namespace Sys2Proof.Machine

open Safety

/-! ### A finite value in its own format -/

/-- A format with infinities uses every exponent field but the last for finite values. -/
theorem fmt_inf {t : Ty} (h : t.isArith = true ∨ t = .f16) : isFloat t = true ∧ (Ty.fmt t).inf = true ∧
    (Ty.fmt t).emax + 2 = 2 ^ (Ty.fmt t).eb ∧ (Ty.fmt t).mmax + 1 = 2 ^ (Ty.fmt t).mb := by
  rcases h with h | rfl
  · rcases isArith_iff.1 h with rfl | rfl | rfl <;> decide
  · decide

/-- An encoding of a finite value by its three fields, one of them the sign. -/
theorem encoding_eq_fields {t : Ty} (hf : isFloat t = true) {b : Nat} (hb : b < 2 ^ t.width) :
    zeroBits t (b / 2 ^ ((Ty.fmt t).eb + (Ty.fmt t).mb) % 2 == 1) + b / 2 ^ (Ty.fmt t).mb % 2 ^ (Ty.fmt t).eb * 2 ^ (Ty.fmt t).mb +
      b % 2 ^ (Ty.fmt t).mb = b := by
  obtain ⟨-, -, -, -, hw⟩ := fmt_float hf
  have hs : b / 2 ^ ((Ty.fmt t).eb + (Ty.fmt t).mb) < 2 := by
    rw [Nat.div_lt_iff_lt_mul (Nat.two_pow_pos _), ← pow_succ', ← hw]; exact hb
  have hz : zeroBits t (b / 2 ^ ((Ty.fmt t).eb + (Ty.fmt t).mb) % 2 == 1) =
      b / 2 ^ (Ty.fmt t).mb / 2 ^ (Ty.fmt t).eb * 2 ^ (Ty.fmt t).eb * 2 ^ (Ty.fmt t).mb := by
    rw [Nat.div_div_eq_div_mul, ← pow_add, add_comm (Ty.fmt t).mb, zeroBits, mul_assoc, ← pow_add]
    generalize b / 2 ^ ((Ty.fmt t).eb + (Ty.fmt t).mb) = s at hs
    rcases (by omega : s = 0 ∨ s = 1) with rfl | rfl <;> simp
  rw [hz, ← add_mul, mul_comm (_ / _) (2 ^ (Ty.fmt t).eb), Nat.div_add_mod, mul_comm, Nat.div_add_mod]

/-- The magnitude that an encoding stands for is on the grid, does not overflow, and is encoded by it. -/
theorem encodeMag_decodeF {t : Ty} (h : t.isArith = true ∨ t = .f16) {neg : Bool} {b m : Nat} {e : Int} (hb : b < 2 ^ t.width)
    (hv : decodeF t b = .fin neg m e) : OnGrid (Ty.fmt t) m e ∧ ¬ Overflows (Ty.fmt t) m e ∧ encodeMag t neg m e = b := by
  obtain ⟨hf, hinf, hemax, hmmax⟩ := fmt_inf h
  have hfields := encoding_eq_fields hf hb
  have hm := Nat.mod_lt b (Nat.two_pow_pos (Ty.fmt t).mb)
  have he := Nat.mod_lt (b / 2 ^ (Ty.fmt t).mb) (Nat.two_pow_pos (Ty.fmt t).eb)
  have h4 : (t == .e4m3) = false := by rw [beq_eq_false_iff_ne]; exact ((fmt_specials hf).1 hinf).2
  rw [decodeF_float hf] at hv
  simp only [hinf, h4, Bool.true_and, Bool.false_and, Bool.false_eq_true, if_false, beq_iff_eq] at hv
  generalize (b / 2 ^ ((Ty.fmt t).eb + (Ty.fmt t).mb) % 2 == 1) = s at hfields hv
  generalize b / 2 ^ (Ty.fmt t).mb % 2 ^ (Ty.fmt t).eb = f at hfields hv he
  generalize b % 2 ^ (Ty.fmt t).mb = g at hfields hv hm
  by_cases htop : f = 2 ^ (Ty.fmt t).eb - 1
  · rw [if_pos htop] at hv
    split at hv <;> cases hv
  · rw [if_neg htop] at hv
    by_cases h0 : f = 0
    · rw [if_pos h0] at hv
      cases hv
      unfold OnGrid Overflows encodeMag expField manField
      rw [if_pos hm, if_pos hm, ← hfields, h0]
      exact ⟨⟨by rw [pow_succ]; omega, le_rfl, .inl rfl⟩, by omega, rfl⟩
    · rw [if_neg h0] at hv
      cases hv
      have hn : ¬ 2 ^ (Ty.fmt t).mb + g < 2 ^ (Ty.fmt t).mb := by omega
      unfold OnGrid Overflows encodeMag expField manField
      rw [if_neg hn, if_neg hn, Nat.add_sub_cancel_left]
      have hexp : ((f : Int) - (Ty.fmt t).bias - (Ty.fmt t).mb + (Ty.fmt t).mb + (Ty.fmt t).bias) = f := by ring
      rw [hexp, Int.toNat_natCast]
      exact ⟨⟨by rw [pow_succ]; omega, by omega, .inr (by omega)⟩, by omega, hfields⟩

/-- A grid point is a multiple of its own unit. -/
theorem unitExp_onGrid {f : Fmt} {m : Nat} {e : Int} (hg : OnGrid f m e) (hm : m ≠ 0) : unitExp f m e = e := by
  obtain ⟨hlt, hleast, hcase⟩ := hg
  have hlog : log2 m < f.mb + 1 := (Nat.log2_lt hm).2 hlt
  unfold unitExp
  rcases hcase with rfl | hfull
  · omega
  · have hlog' : f.mb ≤ log2 m := (Nat.le_log2 hm).2 hfull
    omega

/-- A finite value of a format rounds to itself there. -/
theorem roundMag_exact {t : Ty} (h : t.isArith = true ∨ t = .f16) {rm : Rnd} {sat neg : Bool} {b m : Nat} {e : Int} (hb : b < 2 ^ t.width)
    (hm : m ≠ 0) (hv : decodeF t b = .fin neg m e) : roundMag t rm neg m e sat = (b, 0) := by
  have hf := (fmt_inf h).1
  obtain ⟨hg, ho, hb⟩ := encodeMag_decodeF h hb hv
  have hlt : m ≠ 2 ^ ((Ty.fmt t).mb + 1) := hg.1.ne
  have hquant : quantize m e e rm neg = (m, false) := by rw [quantize_of_le le_rfl]; simp
  rw [roundMag_eq_roundFloat hf hm, roundFloat_eq]
  dsimp only
  rw [unitExp_onGrid hg hm, hquant, carried, if_neg hlt, encoded_of_fits ho, hb]
  rfl

/-! ### The components of CMUL and BFLY -/

section Complex

variable {t : Ty} {rm : Rnd} {a b w : FV × FV} {ar ai br bi wr wi : Rat}

theorem roundedFrom_cmulElem (hf : isFloat t = true) (opp : Bool) (har : IsValue a.1 ar) (hai : IsValue a.2 ai) (hbr : IsValue b.1 br)
    (hbi : IsValue b.2 bi) :
    let bi' := if opp then -bi else bi
    RoundedFrom t rm false (ar * br - ai * bi') (cmulElem t rm opp a b).1 ∧ RoundedFrom t rm false (ar * bi' + ai * br) (cmulElem t rm opp a b).2 := by
  intro bi'
  have hbi' : IsValue (flipIf opp b.2) bi' := hbi.flipIf opp
  obtain ⟨rr, hrr, vrr⟩ := har.mul hbr
  obtain ⟨ii, hii, vii⟩ := hai.mul hbi'
  obtain ⟨ri, hri, vri⟩ := har.mul hbi'
  obtain ⟨ir, hir, vir⟩ := hai.mul hbr
  constructor
  · have hre := roundedFrom_oneRound (rm := rm) hf (ops := [a.1, b.1, a.2, flipIf opp b.2])
      (by simp [har.isNan, hai.isNan, hbr.isNan, hbi'.isNan]) (.cons vrr (.cons vii.flip .nil))
    simpa [cmulElem, hrr, hii, sub_eq_add_neg] using hre
  · have him := roundedFrom_oneRound (rm := rm) hf (ops := [a.1, flipIf opp b.2, a.2, b.1])
      (by simp [har.isNan, hai.isNan, hbr.isNan, hbi'.isNan]) (.cons vri (.cons vir .nil))
    simpa [cmulElem, hri, hir] using him

theorem roundedFrom_bflyElem (hf : isFloat t = true) (opp : Bool) (har : IsValue a.1 ar) (hai : IsValue a.2 ai) (hbr : IsValue b.1 br)
    (hbi : IsValue b.2 bi) (hwr : IsValue w.1 wr) (hwi : IsValue w.2 wi) :
    let re := wr * br - wi * bi
    let im := wr * bi + wi * br
    RoundedFrom t rm false (if opp then ar - re else ar + re) (bflyElem t rm opp a b w).1 ∧
      RoundedFrom t rm false (if opp then ai - im else ai + im) (bflyElem t rm opp a b w).2 := by
  intro re im
  obtain ⟨rr, hrr, vrr⟩ := hwr.mul hbr
  obtain ⟨ii, hii, vii⟩ := hwi.mul hbi
  obtain ⟨ri, hri, vri⟩ := hwr.mul hbi
  obtain ⟨ir, hir, vir⟩ := hwi.mul hbr
  constructor
  · have hre := roundedFrom_oneRound (rm := rm) hf (ops := [a.1, w.1, b.1, w.2, b.2])
      (by simp [har.isNan, hbr.isNan, hbi.isNan, hwr.isNan, hwi.isNan]) (.cons har (.cons (vrr.flipIf opp) (.cons (vii.flip.flipIf opp) .nil)))
    have hsum : (if opp then ar - re else ar + re) = [ar, if opp then -(wr * br) else wr * br, if opp then - -(wi * bi) else -(wi * bi)].sum := by
      cases opp
      · simp [re]; ring
      · simp [re]; ring
    rw [hsum]
    simpa [bflyElem, hrr, hii] using hre
  · have him := roundedFrom_oneRound (rm := rm) hf (ops := [a.2, w.1, b.2, w.2, b.1])
      (by simp [hai.isNan, hbr.isNan, hbi.isNan, hwr.isNan, hwi.isNan]) (.cons hai (.cons (vri.flipIf opp) (.cons (vir.flipIf opp) .nil)))
    have hsum : (if opp then ai - im else ai + im) = [ai, if opp then -(wr * bi) else wr * bi, if opp then -(wi * br) else wi * br].sum := by
      cases opp
      · simp [im]
      · simp [im]; ring
    rw [hsum]
    simpa [bflyElem, hri, hir] using him

end Complex

/-- Settles O11: every operation hands `roundFloat` its exact result, or one with a sticky last bit, and that rounds correctly. -/
theorem floatFormats : Obligations.FloatFormats := by
  unfold Obligations.FloatFormats
  refine ⟨fun t rm sat neg b m e h hb hm hv => roundMag_exact h hb hm hv, fun t rm sat neg m e hf hm => rounded_roundMag hf hm e, ?_,
    fun src t rm sat a x hf ha => roundedFrom_convert hf ha, ?_⟩
  · intro t rm a b c x y z ht ha hb hc
    have hf := isFloat_of_isArith ht
    exact ⟨roundedFrom_fadd hf ha hb, roundedFrom_fsub hf ha hb, roundedFrom_fmul hf ha hb, roundedFrom_ffma hf ha hb hc,
      fun hy => roundedFrom_fdiv hf ha hb hy, fun hx => rounded_fsqrt hf ha hx, fun hxy hneg => fadd_zero hf ha hb hxy hneg⟩
  · intro t rm opp a b w ar ai br bi wr wi ht har hai hbr hbi hwr hwi
    have hf := isFloat_of_isCplx ht
    obtain ⟨hre, him⟩ := roundedFrom_cmulElem (rm := rm) hf opp har hai hbr hbi
    exact ⟨hre, him, roundedFrom_bflyElem hf opp har hai hbr hbi hwr hwi⟩

end Sys2Proof.Machine
end

