-- ==== Sys2Proof/Proofs/SharedSteps.lean ====
section
/-! What the steps of a package share: reads of sectors without upset symbols, packets that leave and arrive, the core in focus, and accesses
that fill translation tables (spec/17 R343, R344, R348, R350). -/

namespace Sys2Proof.Machine

variable {s t : State}

/-! ### Sectors without upset symbols -/

theorem decode1_of_derr_nil (h : s.derr = []) (tag : BitVec 4) (x : Nat) : s.decode1 tag x = (s, false) := by
  simp [State.decode1, h, aget]

theorem decodeSector_of_derr_nil (h : s.derr = []) (tag : BitVec 4) (x : Nat) : s.decodeSector tag x = s := by
  simp [State.decodeSector, decode1_of_derr_nil h]

theorem readSectors_of_derr_nil (h : s.derr = []) (pa n : Nat) (tag : Option (BitVec 4)) : s.readSectors pa n tag = s := by
  unfold State.readSectors
  split
  · rfl
  · exact List.foldl_fixed' (fun x => decodeSector_of_derr_nil h _ x) _

theorem readHome_of_derr_nil (h : s.derr = []) (x : Home) (n : Nat) (tag : BitVec 4) : s.readHome x n tag = s := by
  unfold State.readHome
  split
  · exact readSectors_of_derr_nil h _ _ _
  · rfl

/-! ### Energy -/

theorem charge_eq (s : State) (x k n : Nat) : ∃ l, s.charge x k n = { s with ctxs := l } := by
  unfold State.charge
  simp only
  split
  · exact ⟨s.ctxs, rfl⟩
  · exact ⟨_, rfl⟩

theorem chargeHops_eq (s : State) (x : BitVec 8) (a b : Nat) : ∃ l, s.chargeHops x a b = { s with ctxs := l } := by
  obtain ⟨l, hl⟩ := charge_eq s x.toNat 7 (s.hopsTo a b).1
  obtain ⟨l', hl'⟩ := charge_eq { s with ctxs := l } x.toNat 8 (s.hopsTo a b).2
  exact ⟨l', by rw [State.chargeHops, hl, hl']⟩

/-! ### Packets -/

/-- A packet that leaves joins the channels; its number and the energy of its hops are all that changes beside. -/
theorem sendFor_eq (s : State) (x : BitVec 8) (dst : Nat) (b : Body) :
    ∃ l q p, s.sendFor x dst b = { s with ctxs := l, seqs := q, chan := s.chan ++ [p] } ∧ p.src = s.cur ∧ p.dst = dst ∧ p.body = b := by
  obtain ⟨l, hl⟩ := chargeHops_eq s x s.cur dst
  unfold State.sendFor
  simp only [hl]
  split
  · exact ⟨l, _, _, rfl, rfl, rfl, rfl⟩
  · exact ⟨l, s.seqs, _, rfl, rfl, rfl, rfl⟩

theorem send_eq (s : State) (dst : Nat) (b : Body) :
    ∃ l q p, s.send dst b = { s with ctxs := l, seqs := q, chan := s.chan ++ [p] } ∧ p.src = s.cur ∧ p.dst = dst ∧ p.body = b :=
  sendFor_eq s _ dst b

theorem getElem?_lset {α : Type} (l : List α) (y : α) {k : Nat} (h : k < l.length) : (lset l k y)[k]? = some y := by
  induction l generalizing k with
  | nil => exact absurd h (Nat.not_lt_zero _)
  | cons x l ih =>
    cases k with
    | zero => rfl
    | succ k => simpa [lset] using ih (Nat.lt_of_succ_lt_succ h)

/-- The reply takes the packet's place; it is recorded, and its hops cost energy. -/
theorem answer_eq (s : State) (k : Nat) (p : Packet) (b : Body) :
    ∃ l f, s.answer k p b = { s with ctxs := l, filter := f, chan := lset s.chan k { p with body := b } } := by
  obtain ⟨l, hl⟩ := chargeHops_eq s p.ctx p.src p.dst
  exact ⟨l, _, by simp only [State.answer, hl]; rfl⟩

variable {k : Nat} {p : Packet} {b : Body}

theorem packetEvent_here (f : Packet → State → State) (hp : s.chan[k]? = some p) (hl : p.leaves = none) : packetEvent k f s = .next (f p s) := by
  simp [packetEvent, hp, hl]

theorem receive_again (f : State → Option (State × Body)) (h : s.arrival p = .again b) :
    s.receive k p f = { s with chan := lset s.chan k { p with body := b } } := by
  simp [State.receive, h]

theorem receive_stale (f : State → Option (State × Body)) (h : s.arrival p = .stale) : s.receive k p f = { s with chan := ldel s.chan k } := by
  simp [State.receive, h]

theorem receive_fresh {f : State → Option (State × Body)} (h : s.arrival p = .fresh) (hf : f s = some (t, b)) :
    s.receive k p f = t.answer k p b := by
  simp [State.receive, h, hf]

theorem receive_waits {f : State → Option (State × Body)} (h : s.arrival p = .fresh) (hf : f s = none) : s.receive k p f = s := by
  simp [State.receive, h, hf]

/-! ### The core in focus -/

theorem focus_core (s : State) (k j : Nat) : (s.focus k).core j = s.core j := by
  by_cases hj : j = k
  · subst hj
    rw [← focus_me s j, ← core_self (s.focus j), focus_cur]
  · unfold State.focus
    split
    · rfl
    next hk =>
      by_cases hc : j = s.cur
      · subst hc; simp [State.core, hj, aget_aset]
      · simp [State.core, hj, hc, aget_aset, aget_adel]

/-- An idle core takes the clk that have passed. -/
theorem caughtUp_eq (s : State) : ∃ n m l, s.caughtUp = { s with me := { s.me with clk := n, at9 := m }, ctxs := l } := by
  unfold State.caughtUp
  simp only
  split
  · exact ⟨_, _, _, rfl⟩
  · unfold State.chargeClk
    split
    · exact ⟨_, _, _, rfl⟩
    · next x _ =>
      obtain ⟨l, hl⟩ := charge_eq { s with me := { s.me with clk := s.me.clk + (s.el9 - s.me.at9) / s.rate, at9 := s.me.at9 + (s.el9 - s.me.at9) / s.rate * s.rate } } x 13
        (min ((s.el9 - s.me.at9) / s.rate) (((s.el9 - (s.ctx x).since9)) / s.rate))
      exact ⟨_, _, l, hl⟩

theorem caughtUp_cur (s : State) : s.caughtUp.cur = s.cur := by
  obtain ⟨_, _, _, h⟩ := caughtUp_eq s
  rw [h]

theorem focus_pkgid (s : State) (k : Nat) : (s.focus k).pkgid = s.pkgid := by unfold State.focus; split <;> rfl

theorem caughtUp_pkgid (s : State) : s.caughtUp.pkgid = s.pkgid := by
  obtain ⟨_, _, _, h⟩ := caughtUp_eq s
  rw [h]

theorem coreEvent_some {f : State → Option State} (hk : k < Config.nCores) (h : f (s.focus k).caughtUp = some t) :
    coreEvent k f s = .next (t.focus s.cur) := by
  simp [coreEvent, hk, h]

theorem coreEvent_none {f : State → Option State} (hk : k < Config.nCores) (h : f (s.focus k).caughtUp = none) : coreEvent k f s = .next s := by
  simp [coreEvent, hk, h]

/-! ### Translation tables -/

/-- Only translation tables and the energy of contexts differ. -/
def Refilled (s t : State) : Prop :=
  ∃ tlb tables ctxs, t = { s with me := { s.me with tlb := tlb }, tables := tables, ctxs := ctxs }

theorem Refilled.refl (s : State) : Refilled s s := ⟨_, _, _, rfl⟩

theorem fillOwn_refilled (s : State) (va : W64) (page : Nat) (w : Bool) : Refilled s (s.fillOwn va page w) := ⟨_, _, _, rfl⟩

theorem walkFill_refilled (h : s.derr = []) (va : W64) : Refilled s (s.walkFill va) := by
  unfold State.walkFill
  simp only
  split
  · exact .refl s
  · rw [List.foldl_fixed' (fun pa => readSectors_of_derr_nil h pa 8 none)]
    obtain ⟨l, hl⟩ := charge_eq s s.me.act.ctx.toNat 9 (s.walked s.me.act.ctx.toNat va 4 0 ((s.ctx s.me.act.ctx.toNat).w 3).toNat).length
    rw [hl]
    exact ⟨_, _, _, rfl⟩

theorem fillFor_refilled (h : s.derr = []) (e : W64) : Refilled s (s.fillFor e) := by
  unfold State.fillFor
  split
  · split
    · exact .refl s
    · split
      · exact fillOwn_refilled s _ _ _
      · exact walkFill_refilled h e
  · exact .refl s

/-- The tables and the energy of contexts say nothing about permits. -/
theorem Refilled.permit (h : Refilled s t) (d : Nat) : t.permit d = s.permit d := by
  obtain ⟨_, _, _, rfl⟩ := h
  rfl

end Sys2Proof.Machine
end

