-- ==== Sys2Proof/Proofs/RemoteWeak.lean ====
section
/-! Remote weak accesses (spec/03 R64, spec/05 R138, spec/14 R308): LD and ST of a place that is a home. -/

namespace Sys2Proof.Machine

open Safety

/-! ### Operands -/

theorem freeS_eq (a : Src) (c : Core) : ∃ r, freeS a c = { c with regs := r } := by
  refine ⟨(freeS a c).regs, ?_⟩
  unfold freeS Core.setS
  split
  · split <;> rfl
  · rfl

/-- A core whose operands are read and freed differs from it in registers, popped streams and the counter of free values. -/
theorem freed_eq {a : Src} {c c1 : Core} {x : W64} (h : readS a c = .ok (x, c1)) :
    ∃ r l k, freeS a c1 = { c with regs := r, streams := l, nund := k } := by
  obtain ⟨l, k, rfl⟩ := readS_frame h
  obtain ⟨r, hr⟩ := freeS_eq a { c with streams := l, nund := k }
  exact ⟨r, l, k, hr⟩

theorem freed_eq₂ {a b : Src} {c c1 c2 : Core} {x y : W64} (ha : readS a c = .ok (x, c1)) (hb : readS b c1 = .ok (y, c2)) :
    ∃ r l k, freeS b (freeS a c2) = { c with regs := r, streams := l, nund := k } := by
  obtain ⟨l, k, rfl⟩ := readS_frame ha
  obtain ⟨l', k', rfl⟩ := readS_frame hb
  obtain ⟨r, hr⟩ := freeS_eq a { c with streams := l', nund := k' }
  obtain ⟨r', hr'⟩ := freeS_eq b { c with regs := r, streams := l', nund := k' }
  exact ⟨r', l', k', by rw [← hr', ← hr]⟩

/-- An access that reaches a place is aligned (spec/05 R137). -/
theorem reach_aligned {s : State} {e w7 : W64} {n : Nat} {w : Bool} {r : Reach} (h : reach s e n w w7 = .ok r) : e.toNat % n = 0 := by
  unfold reach at h
  by_contra hn
  simp [hn, addrTrap, trap] at h

/-! ### Stores -/

/-- A store to a line of which the open segment has no entry yet. -/
theorem remoteStore_new {c : Core} {l : Home} {e : W64} (data : Line) (mask : W64) (hline : c.outLine? l (tagFor l e) = none)
    (hroom : needOut c 1 = .ok ()) :
    remoteStore c l e data mask =
      .ok { c with seg := { c.seg with out := c.seg.out ++ [⟨.store l data mask (tagFor l e) (lineAddr e), .waiting⟩] } } := by
  simp [remoteStore, hline, hroom, Core.outStore, bind, Except.bind]

theorem execSt_home {t : Ty} {a b : Src} {off : BitVec 32} {s : State} {x y : W64} {c1 c2 c3 : Core} {h : Home} (hreads : s.me.reads = [])
    (ha : readS a s.me = .ok (x, c1)) (hb : readS b c1 = .ok (y, c2)) (hplace : ∀ k o, s.place (x + off.signExtend 64) ≠ .window k o)
    (hreach : reach s (x + off.signExtend 64) (t.width / 8) true 0 = .ok (.home h))
    (hstore : remoteStore (freeS b (freeS a c2)) h.lineOf.1 (x + off.signExtend 64) (lineAt h.lineOf.2 (t.width / 8) y.toNat)
      (byteMask h.lineOf.2 (t.width / 8)) = .ok c3) :
    exec (.st t a b off) s = .next (({ s with me := c3.retire } : State).fillFor (x + off.signExtend 64)) := by
  have hal := reach_aligned hreach
  change execSt t a b off s = _
  simp only [execSt, readsDone, hreads, List.isEmpty_nil, need, if_true, ha, hb, bind, Except.bind, hal, decide_true, hreach, hstore]
  cases hp : s.place (x + off.signExtend 64) with
  | window k o => exact absurd hp (hplace k o)
  | _ => rfl

/-! ### Loads -/

theorem execLd_home {d : BitVec 6} {a : Src} {t : Ty} {off : BitVec 32} {s : State} {x : W64} {c1 : Core} {h : Home}
    (hd : destS d s.me = .ok ()) (ha : readS a s.me = .ok (x, c1)) (hplace : ∀ k o, s.place (x + off.signExtend 64) ≠ .window k o)
    (hreach : reach s (x + off.signExtend 64) (t.width / 8) false 0 = .ok (.home h)) :
    exec (.ld d a t off) s = finish s (remoteRead s (freeS a c1) (.ld d.toNat t h.lineOf.1 h.lineOf.2) [(h.lineOf.1, x + off.signExtend 64)]) := by
  have hal := reach_aligned hreach
  change execLd d a t off s = _
  simp only [execLd, hd, ha, bind, Except.bind, hal, decide_true, need, if_true, hreach]

/-- A loaded value is the one that R138 names. -/
theorem extend_eq_loaded (l : Line) (k : Nat) {t : Ty} (ht : t.isMem = true) :
    extend (lineNat l k (t.width / 8)) t = loaded t (lineNat l k (t.width / 8)) := by
  unfold extend loaded
  split
  · rfl
  · have hw : (256 : Nat) ^ (t.width / 8) = 2 ^ t.width := by revert ht; cases t <;> decide
    rw [Nat.mod_eq_of_lt (hw ▸ Nat.mod_lt _ (by positivity) : lineNat l k (t.width / 8) < 2 ^ t.width)]
    rfl

/-- A load whose line is in the read cache completes at issue. -/
theorem remoteRead_hit {s : State} {c c' : Core} {d : BitVec 6} {t : Ty} {l : Home} {k : Nat} {e : W64} {v : Line} (ht : t.isMem = true)
    (hv : c.cachedLine l = some v) (hw : writeS d (loaded t (lineNat (c.overlay l v) k (t.width / 8))) c = .ok c') :
    remoteRead s c (.ld d.toNat t l k) [(l, e)] = .ok (({ s with me := c'.retire } : State).fillFor e) := by
  have hval : (c.readValue (.ld d.toNat t l k)).setWidth 64 = loaded t (lineNat (c.overlay l v) k (t.width / 8)) := by
    simp [Core.readValue, hv, extend_eq_loaded _ _ ht]
  simp [remoteRead, hv, Core.writeRead, hval, hw, Except.map, State.filled]

/-- The read that a load with a missing line leaves: a load into a bound register only fetches the line (spec/14 R308). -/
def missRead (s : State) (c : Core) (d : BitVec 6) (t : Ty) (l : Home) (k : Nat) (e : W64) : RRead :=
  ⟨c.nord, c.pc, [(l, e)], if (c.stream? (scode d)).isSome then .fill [] else .ld d.toNat t l k, [l], [(l, e)],
    ⟨s.me.regs, s.me.ctl, s.me.streams, s.me.pend⟩⟩

/-- The core in focus once the load has issued: at a bound register the head waits, else d is EMPTY and the next head stands. -/
def missCore (s : State) (c : Core) (d : BitVec 6) (r : RRead) : Core :=
  if (c.stream? (scode d)).isSome then { s.me with nord := c.nord + 1, reads := [r], wait := some .reads }
  else ({ (c.setS d .empty) with nord := c.nord + 1, reads := [r] } : Core).retire

theorem remoteRead_miss {s : State} {c : Core} {d : BitVec 6} {t : Ty} {l : Home} {k : Nat} {e : W64} (hv : c.cachedLine l = none)
    (hreads : c.reads = []) (hroom : c.rcache.length < Config.readCap) (hp : s.permit l.target = true) :
    remoteRead s c (.ld d.toNat t l k) [(l, e)] =
      .ok (({ s with me := missCore s c d (missRead s c d t l k e) } : State).fillFor e).sendUnsent.2 := by
  have haw : c.awaited l = false := by simp [Core.awaited, hreads]
  have hcap : c.rcache.length + 1 ≤ Config.readCap := hroom
  have hbound : c.readBound (.ld d.toNat t l k) = (c.stream? (scode d)).isSome := by simp [Core.readBound]
  cases hs : (c.stream? (scode d)).isSome with
  | true => simp [remoteRead, hv, haw, hreads, hcap, hp, hbound, hs, need, bind, Except.bind, State.filled, missCore, missRead, ReadWhat.lanes]
  | false => simp [remoteRead, hv, haw, hreads, hcap, hp, hbound, hs, need, bind, Except.bind, State.filled, missCore, missRead,
      Core.markEmptyRead, Core.markEmpty]

/-- The request for one line, sent at once. -/
theorem sendUnsent_one {s : State} {r : RRead} {l : Home} {e : W64} (hreads : s.me.reads = [r]) (hr : r.unsent = [(l, e)])
    (hp : s.permit l.target = true) : ∃ x q p, s.sendUnsent.2 = { s with
      ctxs := x, seqs := q, chan := s.chan ++ [p], me := { s.me with reads := [{ r with unsent := [] }] } } ∧
      p.src = s.cur ∧ p.dst = l.target ∧ p.body = .request r.id 0 (.read l (tagFor l e)) := by
  obtain ⟨x, q, p, hs, hpacket⟩ := send_eq s l.target (.request r.id 0 (.read l (tagFor l e)))
  exact ⟨x, q, p, by simp [State.sendUnsent, hreads, hr, sendReads, hp, hs], hpacket⟩

/-- A load whose line is missing asks the home for it. -/
theorem load_miss_asks {s : State} {c : Core} {r : RRead} {d : BitVec 6} {l : Home} {e : W64} (hderr : s.derr = []) (hr : r.unsent = [(l, e)])
    (hp : s.permit l.target = true) : ∃ x q tlb tables p, (({ s with me := missCore s c d r } : State).fillFor e).sendUnsent.2 =
      { s with ctxs := x, seqs := q, tables := tables, chan := s.chan ++ [p]
               me := { missCore s c d r with tlb := tlb, reads := [{ r with unsent := [] }] } } ∧
      p.src = s.cur ∧ p.dst = l.target ∧ p.body = .request r.id 0 (.read l (tagFor l e)) := by
  have hfill := fillFor_refilled (s := { s with me := missCore s c d r }) hderr e
  have hpermit := hfill.permit l.target
  obtain ⟨tlb, tables, ctxs, hf⟩ := hfill
  have hreads : (missCore s c d r).reads = [r] := by unfold missCore; split <;> rfl
  rw [hf] at hpermit ⊢
  obtain ⟨x, q, p, hsent, hpacket⟩ := sendUnsent_one (s := { s with me := { missCore s c d r with tlb := tlb }, tables := tables, ctxs := ctxs })
    (r := r) (l := l) (e := e) hreads hr (hpermit.trans hp)
  exact ⟨x, q, tlb, tables, p, hsent, hpacket⟩

/-! ### The clauses of O23 -/

theorem remote_store_enters_outbox {t : Ty} {a b : Src} {off : BitVec 32} {s : State} {x y : W64} {c1 c2 : Core} {h : Home} (hderr : s.derr = [])
    (hreads : s.me.reads = []) (ha : readS a s.me = .ok (x, c1)) (hb : readS b c1 = .ok (y, c2))
    (hplace : ∀ k o, s.place (x + off.signExtend 64) ≠ .window k o)
    (hreach : reach s (x + off.signExtend 64) (t.width / 8) true 0 = .ok (.home h))
    (hline : (freeS b (freeS a c2)).outLine? h.lineOf.1 (tagFor h.lineOf.1 (x + off.signExtend 64)) = none)
    (hroom : needOut (freeS b (freeS a c2)) 1 = .ok ()) :
    ∃ t', exec (.st t a b off) s = .next t' ∧ t'.me.mem = s.me.mem ∧ t'.me.pc = s.me.succ s.me.pc ∧
      t'.me.seg.out = s.me.seg.out ++ [⟨.store h.lineOf.1 (lineAt h.lineOf.2 (t.width / 8) y.toNat) (byteMask h.lineOf.2 (t.width / 8))
        (tagFor h.lineOf.1 (x + off.signExtend 64)) (lineAddr (x + off.signExtend 64)), .waiting⟩] := by
  refine ⟨_, execSt_home hreads ha hb hplace hreach (remoteStore_new _ _ hline hroom), ?_⟩
  obtain ⟨r, l, k, hc⟩ := freed_eq₂ ha hb
  obtain ⟨tlb, tables, ctxs, hf⟩ := fillFor_refilled (s := { s with me := Core.retire _ }) hderr (x + off.signExtend 64)
  rw [hf, hc]
  exact ⟨rfl, rfl, rfl⟩

theorem remote_load_hit_completes {d : BitVec 6} {a : Src} {t : Ty} {off : BitVec 32} {s : State} {x : W64} {c1 c' : Core} {h : Home} {v : Line}
    (ht : t.isMem = true) (hderr : s.derr = []) (hd : destS d s.me = .ok ()) (ha : readS a s.me = .ok (x, c1))
    (hplace : ∀ k o, s.place (x + off.signExtend 64) ≠ .window k o)
    (hreach : reach s (x + off.signExtend 64) (t.width / 8) false 0 = .ok (.home h)) (hv : (freeS a c1).cachedLine h.lineOf.1 = some v)
    (hw : writeS d (loaded t (lineNat ((freeS a c1).overlay h.lineOf.1 v) h.lineOf.2 (t.width / 8))) (freeS a c1) = .ok c') :
    ∃ t', exec (.ld d a t off) s = .next t' ∧ t'.chan = s.chan ∧ t'.me = { c'.retire with tlb := t'.me.tlb } := by
  have hexec := execLd_home hd ha hplace hreach
  obtain ⟨tlb, tables, ctxs, hf⟩ := fillFor_refilled (s := { s with me := c'.retire }) hderr (x + off.signExtend 64)
  rw [remoteRead_hit ht hv hw, finish, hf] at hexec
  exact ⟨_, hexec, rfl, rfl⟩

theorem remote_load_miss_asks {d : BitVec 6} {a : Src} {t : Ty} {off : BitVec 32} {s : State} {x : W64} {c1 : Core} {h : Home}
    (hderr : s.derr = []) (hd : destS d s.me = .ok ()) (ha : readS a s.me = .ok (x, c1))
    (hplace : ∀ k o, s.place (x + off.signExtend 64) ≠ .window k o)
    (hreach : reach s (x + off.signExtend 64) (t.width / 8) false 0 = .ok (.home h)) (hv : (freeS a c1).cachedLine h.lineOf.1 = none)
    (hreads : (freeS a c1).reads = []) (hroom : (freeS a c1).rcache.length < Config.readCap) (hp : s.permit h.lineOf.1.target = true) :
    ∃ t' p, exec (.ld d a t off) s = .next t' ∧ t'.chan = s.chan ++ [p] ∧ p.src = s.cur ∧
      p.dst = h.lineOf.1.target ∧ p.body = .request s.me.nord 0 (.read h.lineOf.1 (tagFor h.lineOf.1 (x + off.signExtend 64))) ∧
      t'.me.reads.length = 1 ∧ t'.me.mem = s.me.mem ∧
      ((freeS a c1).stream? (scode d) = none → t'.me.pc = s.me.succ s.me.pc ∧ (d ≠ 0 → t'.me.regs.getS d = .empty)) ∧
      ((freeS a c1).stream? (scode d) ≠ none → t'.me.pc = s.me.pc ∧ t'.me.wait = some .reads ∧ t'.me.regs = s.me.regs) := by
  have hexec := execLd_home hd ha hplace hreach
  rw [remoteRead_miss hv hreads hroom hp, finish] at hexec
  obtain ⟨l, q, tlb, tables, p, hasks, hsrc, hdst, hbody⟩ := load_miss_asks (c := freeS a c1) (d := d)
    (r := missRead s (freeS a c1) d t h.lineOf.1 h.lineOf.2 (x + off.signExtend 64)) hderr rfl hp
  rw [hasks] at hexec
  obtain ⟨r, m, k, hc⟩ := freed_eq ha
  have hnord : (freeS a c1).nord = s.me.nord := by rw [hc]
  refine ⟨_, p, hexec, rfl, hsrc, hdst, by rw [hbody, missRead, hnord], rfl, ?_, fun hs => ?_, fun hs => ?_⟩
  · unfold missCore
    split
    · rfl
    · simp [hc]
  · have hpc : ∀ e : Core, e.imem = s.me.imem → e.pc = s.me.pc → e.succ e.pc = s.me.succ s.me.pc := fun e hi hp => by rw [hp, succ_congr hi]
    simp only [missCore, hs, Option.isSome_none, Bool.false_eq_true, if_false]
    refine ⟨hpc _ ?_ ?_, fun hd0 => ?_⟩
    · simp [hc]
    · simp [hc]
    · change ((freeS a c1).setS d .empty).regs.getS d = .empty
      rw [getS_setS, if_pos ⟨rfl, hd0⟩]
  · simp only [missCore, Option.isSome_iff_ne_none.2 hs, if_true]
    exact ⟨trivial, trivial, trivial⟩

/-- Settles O23: the store is one outbox entry; the load is served by the read cache, or leaves one request. -/
theorem remoteWeak : Obligations.RemoteWeak := by
  unfold Obligations.RemoteWeak
  refine ⟨?_, ?_⟩
  · intro t a b off s x y c1 c2 h _ hderr hreads ha hb e n hplace hreach hline hroom
    exact remote_store_enters_outbox hderr hreads ha hb hplace hreach hline hroom
  · intro d a t off s x c1 h ht hderr hd ha e n hplace hreach
    exact ⟨fun v c' hv hw => remote_load_hit_completes ht hderr hd ha hplace hreach hv hw,
      fun hv hreads hroom hp => remote_load_miss_asks hderr hd ha hplace hreach hv hreads hroom hp⟩

end Sys2Proof.Machine
end

