-- ==== Sys2Proof/Proofs/RollbackBudget.lean ====
section
/-! O40 fails: a rollback does not restore BUD (spec/03 R77), so the frame of the checkpoint that it restores does not come back as it was. -/

namespace Sys2Proof.Machine

/-! ### The counterexample -/

/-- The activation that a trap handler stopped, with 5 clk of its budget left. -/
def stoppedAct : Saved := ⟨Act.reset, Regs.reset, { Ctl.reset with bud := 5 }, 0, [], false, none, false⟩

/-- That activation runs again and has spent its budget; the checkpoint that a rollback restores is of the handler, as after a report that goes
back across the resumption (spec/15 R336). -/
def resumedCore : Core :=
  { Core.reset with
    running := true
    act := stoppedAct.act
    confirmed := { Ckpt.reset with
      running := true, act := { Act.reset with fresh := false, isTrap := true, no := 1 }, frame := some stoppedAct } }

/-- The rollback carries what the running activation has left of its budget over into the frame (spec/03 R77). -/
theorem rollBack_resumedCore_frame :
    (({ State.reset with me := resumedCore } : State).rollBack 0 true).me.frame.map (·.ctl.bud) = some 0 := by decide +kernel

/-- Refutes O40: where the rollback restores a trap handler, BUD in its frame is that of the stopped activation as it runs now. -/
theorem not_rollbacksAndStrikes : ¬ Obligations.RollbacksAndStrikes := by
  unfold Obligations.RollbacksAndStrikes
  rintro ⟨hroll, -⟩
  obtain ⟨-, -, -, -, -, -, hframe, -⟩ := hroll { State.reset with me := resumedCore } 0 true (Nat.zero_le _) rfl (.inl rfl)
  have hbud := rollBack_resumedCore_frame
  rw [hframe] at hbud
  exact absurd hbud (by decide)

end Sys2Proof.Machine
end

