-- ==== Sys2Proof/Proofs/RecordsFrame.lean ====
section
/-! Records and notices, messages that are published: what they leave as it was (spec/11 R284 to R286, spec/20 R401, spec/03 R70). -/

namespace Sys2Proof.Machine

variable {s t u : State}

/-! ### Steps that write physical memory, notices and counts only -/

/-- Only physical memory with its poison, waiting notices, launches and descriptors differ: no core and no packet does. -/
def Recorded (s t : State) : Prop :=
  ∃ ctxs launches notices dram host dtag dpois derr corrected, t = { s with
    ctxs := ctxs, launches := launches, notices := notices, dram := dram, host := host, dtag := dtag, dpois := dpois, derr := derr, corrected := corrected }

theorem Recorded.refl (s : State) : Recorded s s := ⟨_, _, _, _, _, _, _, _, _, rfl⟩

theorem Recorded.trans (h : Recorded s t) (g : Recorded t u) : Recorded s u := by
  obtain ⟨_, _, _, _, _, _, _, _, _, rfl⟩ := h
  obtain ⟨_, _, _, _, _, _, _, _, _, rfl⟩ := g
  exact ⟨_, _, _, _, _, _, _, _, _, rfl⟩

theorem charge_recorded (s : State) (x k n : Nat) : Recorded s (s.charge x k n) := by
  obtain ⟨l, hl⟩ := charge_eq s x k n
  exact ⟨l, _, _, _, _, _, _, _, _, hl⟩

theorem setCtx_recorded (s : State) (k : Nat) (x : Ctx) : Recorded s (s.setCtx k x) := ⟨_, _, _, _, _, _, _, _, _, rfl⟩

theorem physPut_recorded (s : State) (pa : Nat) (bs : List Byte) : Recorded s (s.physPut pa bs) := by
  unfold State.physPut
  split <;> exact ⟨_, _, _, _, _, _, _, _, _, rfl⟩

theorem clearPoison_recorded (s : State) (pa n : Nat) : Recorded s (s.clearPoison pa n) := by
  unfold State.clearPoison
  simp only
  split
  · exact .refl s
  · exact ⟨_, _, _, _, _, _, _, _, _, rfl⟩

theorem decode1_recorded (s : State) (tag : BitVec 4) (x : Nat) : Recorded s (s.decode1 tag x).1 := by
  unfold State.decode1
  split
  · exact .refl s
  · simp only
    split
    · exact .refl s
    · split
      · exact ⟨_, _, _, _, _, _, _, _, _, rfl⟩
      · split <;> exact ⟨_, _, _, _, _, _, _, _, _, rfl⟩

theorem readLine_recorded (s : State) (pa : Nat) : Recorded s (s.readLine pa) := by
  unfold State.readLine
  split
  · exact .refl s
  · exact decode1_recorded s _ _

theorem ringPut_recorded (s : State) (pa size unit : Nat) (r : List W64) : SomeAll (Recorded s) (s.ringPut pa size unit r) := by
  have h := readLine_recorded s pa
  unfold State.ringPut
  simp only
  split
  · exact h
  · split
    · trivial
    · exact h.trans ((physPut_recorded _ _ _).trans (physPut_recorded _ _ _))

theorem tracePut_recorded (s : State) (x : Nat) (r : List W64) : SomeAll (Recorded s) (s.tracePut x r) := by
  unfold State.tracePut
  simp only
  split
  · exact .refl s
  · split
    · exact setCtx_recorded s _ _
    · split
      · exact .refl s
      · exact ringPut_recorded s _ _ _ _

theorem flushTraces_recorded (l : List (BitVec 8 × List W64)) (s : State) : Recorded s (flushTraces l s).2 := by
  induction l generalizing s with
  | nil => exact .refl s
  | cons x l ih =>
    unfold flushTraces
    split
    next t ht => exact ((tracePut_recorded s _ _).of_eq ht).trans (ih t)
    next => exact .refl s

theorem mapLaunch_recorded (s : State) (x l : BitVec 8) (f : Launch → Launch) : Recorded s (s.mapLaunch x l f) :=
  ⟨_, _, _, _, _, _, _, _, _, rfl⟩

theorem trapPut_recorded (s : State) (n : Notice) : SomeAll (Recorded s) (s.trapPut n) := by
  unfold State.trapPut
  split
  · exact .refl s
  · refine (ringPut_recorded s _ _ _ _).map fun t ht => ?_
    split
    · exact ht.trans (mapLaunch_recorded t _ _ _)
    · exact ht

theorem setLost_recorded (s : State) (pa : Nat) : Recorded s (s.setLost pa) := physPut_recorded s _ _

theorem drop_recorded (s : State) (pa : Nat) : Recorded s (s.drop pa) := by
  unfold State.drop
  simp only
  split
  · exact .refl s
  · exact physPut_recorded s _ _

theorem flushNotices_recorded (l : List Notice) (s : State) : Recorded s (flushNotices l s).2 := by
  induction l generalizing s with
  | nil => exact .refl s
  | cons n l ih =>
    unfold flushNotices
    split
    next t ht =>
      split at ht
      · cases ht
      · exact ((trapPut_recorded s n).of_eq ht).trans (ih t)
    next => exact ih s

theorem setNotices_recorded (s : State) (l : List (Nat × List Notice)) : Recorded s { s with notices := l } := ⟨_, _, _, _, _, _, _, _, _, rfl⟩

theorem flush_recorded (s : State) (cl : Nat) : Recorded s (s.flush cl) :=
  (flushNotices_recorded _ s).trans (setNotices_recorded _ _)

theorem ringFull_recorded (s : State) (x : BitVec 8) : Recorded s (s.ringFull x) := by
  unfold State.ringFull
  split
  · exact .refl s
  · exact setLost_recorded s _

theorem putNotice_recorded (s : State) (cl : Nat) (n : Notice) : Recorded s (s.putNotice cl n) := by
  unfold State.putNotice
  extract_lets v n'
  have hv : Recorded s v := flush_recorded s cl
  clear_value v n'
  split
  next t ht =>
    split at ht
    · cases ht
    · exact hv.trans ((trapPut_recorded v _).of_eq ht)
  next _ w _ _ =>
    have hw : Recorded s w := by
      unfold w
      split
      · exact hv
      · exact hv.trans (ringFull_recorded v _)
    clear_value w
    split
    · exact hw.trans (setNotices_recorded w _)
    · split
      · exact hw
      · exact hw.trans (drop_recorded w _)

theorem notice_recorded (s : State) (k : Nat) (x : BitVec 8) (l : Option (BitVec 8)) (cause : Nat) (tid w2 w3 w6 w7 : W64) :
    Recorded s (s.notice k x l cause tid w2 w3 w6 w7) := putNotice_recorded s _ _

theorem undeliv_recorded (s : State) (k : Nat) (m : Msg) (reason : Nat) : Recorded s (s.undeliv k m reason) := notice_recorded s _ _ _ _ _ _ _ _ _

end Sys2Proof.Machine
end

