-- ==== Sys2Proof/Proofs/LineBytes.lean ====
section
/-! The bytes of a line: as a number, in memory, and merged under a mask (spec/01 R11, spec/03 R64). -/

namespace Sys2Proof.Machine

/-! ### Lists of bytes as numbers -/

theorem bytesOf_length (x n : Nat) : (bytesOf x n).length = n := by
  induction n generalizing x with
  | zero => rfl
  | succ n ih => rw [bytesOf, List.length_cons, ih]

theorem lineBytes_length (l : Line) : (lineBytes l).length = 64 := bytesOf_length _ _

theorem getElem?_bytesOf (x : Nat) {n i : Nat} (h : i < n) : (bytesOf x n)[i]? = some (BitVec.ofNat 8 (x / 256 ^ i)) := by
  induction n generalizing x i with
  | zero => exact absurd h (Nat.not_lt_zero _)
  | succ n ih =>
    cases i with
    | zero => simp [bytesOf]
    | succ i => rw [bytesOf, List.getElem?_cons_succ, ih _ (Nat.lt_of_succ_lt_succ h), Nat.div_div_eq_div_mul, pow_succ']

theorem natOf_lt (bs : List Byte) : natOf bs < 2 ^ (8 * bs.length) := by
  induction bs with
  | nil => exact Nat.one_pos
  | cons x bs ih =>
    have hx := x.isLt
    rw [natOf, List.length_cons, Nat.mul_succ, pow_add]
    omega

theorem natOf_div (bs : List Byte) (i : Nat) : natOf bs / 256 ^ i % 256 = (bs.getD i 0).toNat := by
  induction bs generalizing i with
  | nil => simp [natOf]
  | cons x bs ih =>
    have hx := x.isLt
    cases i with
    | zero => simp [natOf]; omega
    | succ i =>
      rw [pow_succ', ← Nat.div_div_eq_div_mul, natOf, show (x.toNat + 256 * natOf bs) / 256 = natOf bs by omega, ih]
      rfl

/-! ### Bytes of a line -/

theorem extractLsb'_natOf {n : Nat} {bs : List Byte} (hlen : bs.length ≤ n) (i : Nat) :
    (BitVec.ofNat (8 * n) (natOf bs)).extractLsb' (8 * i) 8 = bs.getD i 0 := by
  have hlt : natOf bs < 2 ^ (8 * n) :=
    lt_of_lt_of_le (natOf_lt bs) (Nat.pow_le_pow_right Nat.two_pos (Nat.mul_le_mul_left 8 hlen))
  apply BitVec.eq_of_toNat_eq
  rw [← natOf_div, BitVec.extractLsb'_toNat, BitVec.toNat_ofNat, Nat.mod_eq_of_lt hlt, Nat.shiftRight_eq_div_pow, pow_mul]
  rfl

theorem lineByte_lineOf {bs : List Byte} (hlen : bs.length ≤ 64) (i : Nat) : lineByte (lineOf bs) i = bs.getD i 0 := extractLsb'_natOf hlen i

theorem getElem?_lineBytes (l : Line) {i : Nat} (h : i < 64) : (lineBytes l)[i]? = some (lineByte l i) := by
  rw [lineBytes, getElem?_bytesOf _ h]
  congr 1
  apply BitVec.eq_of_toNat_eq
  rw [lineByte, BitVec.extractLsb'_toNat, BitVec.toNat_ofNat, Nat.shiftRight_eq_div_pow, pow_mul]
  rfl

theorem lineByte_mergeLine (a b : Line) (mask : W64) {i : Nat} (h : i < 64) :
    lineByte (mergeLine a b mask) i = if mask.getLsbD i then lineByte b i else lineByte a i := by
  rw [mergeLine, lineByte_lineOf (by simp)]
  simp [h]

/-! ### Lines in memory -/

theorem Mem.bytes_length (m : Mem) (a n : Nat) : (Mem.bytes m a n).length = n := by
  induction n generalizing a with
  | zero => rfl
  | succ n ih => rw [Mem.bytes, List.length_cons, ih]

theorem Mem.getElem?_bytes (m : Mem) (a : Nat) {n i : Nat} (h : i < n) : (Mem.bytes m a n)[i]? = some (Mem.byte m (a + i)) := by
  induction n generalizing a i with
  | zero => exact absurd h (Nat.not_lt_zero _)
  | succ n ih =>
    cases i with
    | zero => rfl
    | succ i => rw [Mem.bytes, List.getElem?_cons_succ, ih _ (Nat.lt_of_succ_lt_succ h), show a + 1 + i = a + (i + 1) by omega]

theorem lineByte_lineOf_bytes (m : Mem) (a : Nat) {i : Nat} (h : i < 64) : lineByte (lineOf (Mem.bytes m a 64)) i = Mem.byte m (a + i) := by
  rw [lineByte_lineOf (Mem.bytes_length m a 64).le, List.getD_eq_getElem?_getD, Mem.getElem?_bytes m a h]
  rfl

/-- A written byte reads as it was written. -/
theorem Mem.byte_put_inside {m : Mem} (a : Nat) {bs : List Byte} {i : Nat} {x : Byte} (hm : m.wf = true) (hx : bs[i]? = some x) :
    Mem.byte (Mem.put m a bs) (a + i) = x := by
  have hi : i < bs.length := (List.getElem?_eq_some_iff.1 hx).1
  have hread := Mem.getElem?_bytes (Mem.put m a bs) a hi
  rw [Mem.bytes_put a bs hm, hx] at hread
  exact (Option.some.inj hread).symm

theorem Mem.byte_put_lineBytes {m : Mem} (a : Nat) (l : Line) {i : Nat} (hm : m.wf = true) (h : i < 64) :
    Mem.byte (Mem.put m a (lineBytes l)) (a + i) = lineByte l i := Mem.byte_put_inside a hm (getElem?_lineBytes l h)

/-- The bytes that a line written under a mask leaves in memory. -/
theorem Mem.byte_put_merged {m : Mem} (a : Nat) (dat : Line) (mask : W64) {i : Nat} (hm : m.wf = true) (h : i < 64) :
    Mem.byte (Mem.put m a (lineBytes (mergeLine (lineOf (Mem.bytes m a 64)) dat mask))) (a + i) =
      if mask.getLsbD i then lineByte dat i else Mem.byte m (a + i) := by
  rw [Mem.byte_put_lineBytes a _ hm h, lineByte_mergeLine _ _ _ h, lineByte_lineOf_bytes m a h]

end Sys2Proof.Machine
end

