-- ==== Sys2Proof/Proofs/CommitStep.lean ====
section
/-! Commit and publication (spec/03 R68 to R70, spec/07 R184): what the Commit step changes of the core, what a notice publishes, and when the
operation is complete. -/

namespace Sys2Proof.Machine

open Safety

variable {s t u : State}

/-! ### Steps beside a commit -/

/-- The core in focus keeps its memory, registers, confirmed checkpoint, published segments and the segments that it has closed; packets only
join the channels. -/
def CommitFrame (s t : State) : Prop :=
  t.cur = s.cur ∧ t.me.mem = s.me.mem ∧ t.me.regs = s.me.regs ∧ t.me.confirmed = s.me.confirmed ∧ t.me.pubs = s.me.pubs ∧
    t.me.closing.map (·.d.id) = s.me.closing.map (·.d.id) ∧ s.chan <+: t.chan

theorem CommitFrame.refl (s : State) : CommitFrame s s := ⟨rfl, rfl, rfl, rfl, rfl, rfl, List.prefix_refl _⟩

theorem CommitFrame.trans (h : CommitFrame s t) (g : CommitFrame t u) : CommitFrame s u := by
  obtain ⟨hcur, hmem, hregs, hconf, hpubs, hclosing, hchan⟩ := h
  obtain ⟨gcur, gmem, gregs, gconf, gpubs, gclosing, gchan⟩ := g
  exact ⟨gcur.trans hcur, gmem.trans hmem, gregs.trans hregs, gconf.trans hconf, gpubs.trans hpubs, gclosing.trans hclosing, hchan.trans gchan⟩

theorem CommitFrame.chan (h : CommitFrame s t) : s.chan <+: t.chan := by
  obtain ⟨-, -, -, -, -, -, hchan⟩ := h
  exact hchan

theorem CommitFrame.foldl {α : Type} {f : State → α → State} (hf : ∀ s a, CommitFrame s (f s a)) (l : List α) (s : State) :
    CommitFrame s (l.foldl f s) :=
  foldl_keeps (CommitFrame s) (fun t a h => h.trans (hf t a)) l (.refl s)

theorem Recorded.commitFrame (h : Recorded s t) : CommitFrame s t := by
  obtain ⟨_, _, _, _, _, _, _, _, _, rfl⟩ := h
  exact .refl s

theorem send_commitFrame (s : State) (dst : Nat) (b : Body) : CommitFrame s (s.send dst b) := by
  obtain ⟨l, q, p, hs, -⟩ := send_eq s dst b
  rw [hs]
  exact ⟨rfl, rfl, rfl, rfl, rfl, rfl, List.prefix_append _ _⟩

theorem putTrace_commitFrame (s : State) (l : List (BitVec 8 × List W64)) : CommitFrame s (s.putTrace l) := by
  unfold State.putTrace State.drainTraces
  split
  · exact .refl s
  · obtain ⟨_, _, _, _, _, _, _, _, _, h⟩ :=
      flushTraces_recorded (s.me.traceOut ++ l) { s with me := { s.me with traceOut := s.me.traceOut ++ l } }
    simp only [h]
    exact .refl s

theorem claimBank_eq (c : Core) (x : BitVec 8) (b : Nat) : ∃ banks deque dqTop mailbox mbHead lt,
    c.claimBank x b = { c with banks := banks, deque := deque, dqTop := dqTop, mailbox := mailbox, mbHead := mbHead, lt := lt } := by
  unfold Core.claimBank
  simp only
  split
  · exact ⟨_, _, _, _, _, _, rfl⟩
  · split
    · exact ⟨_, _, _, _, _, _, rfl⟩
    · split <;> exact ⟨_, _, _, _, _, _, rfl⟩

theorem setCore_self (s : State) (c : Core) : s.setCore s.cur c = { s with me := c } := by simp [State.setCore]

theorem deliverMail_commitFrame (s : State) (m : Msg) (r : Option MigrRec) : CommitFrame s (s.deliverMail s.cur m r) := by
  unfold State.deliverMail
  simp only [core_self, setCore_self]
  split
  · split
    · exact .refl s
    · exact (undeliv_recorded s _ _ _).commitFrame
  · split
    · exact CommitFrame.trans (t := { s with me := s.me.countRecv (msgCtx m) (msgLnch m) 1 }) (.refl s) (undeliv_recorded _ _ _ _).commitFrame
    · exact .refl s

theorem claimMail_commitFrame (s : State) (x : BitVec 8) : CommitFrame s { s with me := s.me.claimBank x 15 } := by
  obtain ⟨_, _, _, _, _, _, h⟩ := claimBank_eq s.me x 15
  rw [h]
  exact .refl s

theorem mapLT_commitFrame (s : State) (f : LocalTime → LocalTime) : CommitFrame s { s with me := s.me.mapLT f } :=
  ⟨rfl, rfl, rfl, rfl, rfl, by simp [Core.mapLT], List.prefix_refl _⟩

theorem sendDrip_commitFrame (s : State) (peer : Nat) (look : BitVec 48) (v : W64) : CommitFrame s (s.sendDrip peer look v) := by
  unfold State.sendDrip
  split
  · exact .refl s
  · exact send_commitFrame s _ _

theorem dripOn_commitFrame (s : State) (decl : Nat) (v : W64) : CommitFrame s (s.dripOn decl v) := by
  unfold State.dripOn
  split
  · exact .refl s
  · split
    · exact .refl s
    · exact (mapLT_commitFrame s _).trans (sendDrip_commitFrame _ _ _ _)

theorem evalDrips_commitFrame (s : State) (l : List (Nat × OutSlot)) : CommitFrame s (s.evalDrips l) :=
  .foldl (fun s _ => dripOn_commitFrame s _ _) l s

theorem raiseA_commitFrame (s : State) (x : W64) : CommitFrame s (s.raiseA x) := by
  unfold State.raiseA
  simp only
  split
  · exact .refl s
  · exact (mapLT_commitFrame s _).trans (evalDrips_commitFrame _ _)

/-- Drips that are no longer owed change local-time state alone. -/
theorem clearDue_commitFrame (s : State) (l : List (Nat × OutSlot)) (f : Nat × OutSlot → LocalTime → LocalTime) :
    CommitFrame s { s with me := l.foldl (fun c x => c.mapLT (f x)) s.me } := by
  induction l generalizing s with
  | nil => exact .refl s
  | cons x l ih => exact (mapLT_commitFrame s (f x)).trans (ih { s with me := s.me.mapLT (f x) })

theorem sendDrips_commitFrame (s : State) (d : SegData) : CommitFrame s (s.sendDrips d) := by
  unfold State.sendDrips
  extract_lets s1 due s2
  have h1 : CommitFrame s s1 := by
    refine .foldl (fun s i => ?_) d.out s
    split
    · exact dripOn_commitFrame s _ _
    · exact .refl s
  have h2 : CommitFrame s1 s2 := evalDrips_commitFrame s1 due
  exact h1.trans (h2.trans (clearDue_commitFrame s2 due _))

theorem wakeThieves_commitFrame (s : State) : CommitFrame s s.wakeThieves := .refl s

/-! ### The segment that commits -/

theorem countSeg_eq (c : Core) (d : SegData) : ∃ sent recv deque, c.countSeg d = { c with sent := sent, recv := recv, deque := deque } := by
  unfold Core.countSeg
  extract_lets c1 mine c2
  have h1 : ∃ sent, c1 = { c with sent := sent } := by
    refine foldl_keeps (fun e : Core => ∃ sent, e = { c with sent := sent }) (fun e i h => ?_) d.out ⟨_, rfl⟩
    obtain ⟨_, rfl⟩ := h
    split <;> exact ⟨_, rfl⟩
  have h2 : ∃ sent recv, c2 = { c with sent := sent, recv := recv } := by
    obtain ⟨sent, h1⟩ := h1
    refine foldl_keeps (fun e : Core => ∃ sent recv, e = { c with sent := sent, recv := recv }) (fun e r h => ?_) _ ⟨sent, _, h1⟩
    obtain ⟨_, _, rfl⟩ := h
    exact ⟨_, _, rfl⟩
  obtain ⟨_, _, h2⟩ := h2
  rw [h2]
  exact ⟨_, _, _, rfl⟩

theorem settleSeg_eq (c : Core) (id : Nat) : ∃ again ops imgSlot planes0 grind0 ring, c.settleSeg id =
    { c with again := again, ops := ops, imgSlot := imgSlot, planes0 := planes0, grind0 := grind0, ring := ring } := ⟨_, _, _, _, _, _, rfl⟩

/-- The notices of a segment leave, one for each of its targets. -/
theorem notices_leave (id : Nat) (ts : List Nat) (s : State) :
    CommitFrame s (ts.foldl (fun s t => s.send t (.notice id)) s) ∧
      ∀ t ∈ ts, ∃ p ∈ (ts.foldl (fun s t => s.send t (.notice id)) s).chan, p.src = s.cur ∧ p.dst = t ∧ p.body = .notice id := by
  induction ts generalizing s with
  | nil => exact ⟨.refl s, fun t ht => absurd ht (List.not_mem_nil)⟩
  | cons a ts ih =>
    obtain ⟨hframe, hsent⟩ := ih (s.send a (.notice id))
    obtain ⟨l, q, p, hs, hsrc, hdst, hbody⟩ := send_eq s a (.notice id)
    refine ⟨(send_commitFrame s a _).trans hframe, fun t ht => ?_⟩
    rcases List.mem_cons.1 ht with rfl | ht
    · exact ⟨p, hframe.chan.mem (by simp [hs]), hsrc, hdst, hbody⟩
    · obtain ⟨p', hp', hsrc', hrest⟩ := hsent t ht
      exact ⟨p', hp', hsrc'.trans (send_commitFrame s a _).1, hrest⟩

/-- Segments that stay published while a commit of g with targets ts is on its way (spec/07 R184). -/
def pubsAfter (pubs : List Seg) (g : Seg) (ts : List Nat) : List Seg :=
  if ts.isEmpty && (pubs.isEmpty || (g.d.holds.isEmpty && g.d.hbanks.isEmpty)) then pubs else pubs ++ [{ g with waiting := ts }]

/-- The Commit step of one core, where nothing else happens at it. -/
theorem commitOne_commits {g : Seg} {gs : List Seg} (hc : s.me.closing = g :: gs) (ha : g.atCommit = .nothing) :
    s.commitOne.me.closing.map (·.d.id) = gs.map (·.d.id) ∧ s.commitOne.me.confirmed = g.ckpt ∧ s.commitOne.me.mem = s.me.mem ∧
      s.commitOne.me.regs = s.me.regs ∧ s.commitOne.me.pubs = pubsAfter s.me.pubs g (g.d.targets s.pkgid.toNat) ∧
      ∀ t ∈ g.d.targets s.pkgid.toNat, ∃ p ∈ s.commitOne.chan, p.src = s.cur ∧ p.dst = t ∧ p.body = .notice g.d.id := by
  unfold State.commitOne
  split
  next h => rw [hc] at h; cases h
  next g' gs' h =>
    obtain ⟨rfl, rfl⟩ : g = g' ∧ gs = gs' := by rw [hc] at h; exact List.cons.inj h
    extract_lets c ts before pushed c1 c2 x s1 s2 s3 s4 s5 s6 n _ s7
    have hc1 : c1.mem = s.me.mem ∧ c1.regs = s.me.regs ∧ c1.pubs = s.me.pubs := by
      obtain ⟨_, _, _, hcount⟩ := countSeg_eq c g.d
      unfold c1
      rw [hcount]
      exact ⟨rfl, rfl, rfl⟩
    obtain ⟨hmem, hregs, hpubs⟩ := hc1
    have h1 : CommitFrame { s with me := c2 } s1 := putTrace_commitFrame _ _
    obtain ⟨h2, hsent⟩ := notices_leave g.d.id ts s1
    have h3 : CommitFrame s2 s3 := by
      refine .foldl (fun s i => ?_) g.d.out s2
      split
      · exact (claimMail_commitFrame s x).trans (deliverMail_commitFrame _ _ _)
      · exact .refl s
    have h4 : CommitFrame s3 s4 := sendDrips_commitFrame s3 g.d
    have h5 : CommitFrame s4 s5 := by
      unfold s5
      split
      · exact raiseA_commitFrame s4 _
      · exact .refl s4
    have h6 : CommitFrame s5 s6 := by
      unfold s6
      split
      · exact wakeThieves_commitFrame s5
      · exact .refl s5
    have h7 : CommitFrame s6 s7 := ((setCtx_recorded s6 _ _).trans (charge_recorded _ _ _ _)).commitFrame
    have hlate : CommitFrame s2 s7 := h3.trans (h4.trans (h5.trans (h6.trans h7)))
    simp only [ha]
    obtain ⟨hcur, kmem, kregs, kconf, kpubs, kclosing, -⟩ := h1.trans (h2.trans hlate)
    refine ⟨kclosing, kconf, kmem.trans hmem, kregs.trans hregs, ?_, fun t ht => ?_⟩
    · rw [kpubs]
      change (if ts.isEmpty && (c1.pubs.isEmpty || _) then c1.pubs else c1.pubs ++ _) = _
      rw [hpubs]
      rfl
    · obtain ⟨p, hp, hsrc, hrest⟩ := hsent t ht
      exact ⟨p, hlate.chan.mem hp, hsrc.trans h1.1, hrest⟩

/-! ### The Commit step of a core outside a gang -/

theorem together_alone {g : Seg} (k : Nat) (h : g.mates = []) : g.together k = [(k, g.d.id)] := by simp [Seg.together, h]

/-- Whether the oldest segment of the core in focus commits, where no own store was refused. -/
theorem execCommit_alone {k : Nat} {g : Seg} {gs : List Seg} (hk : k < Config.nCores) (hbad : (s.focus k).caughtUp.rollBad = none)
    (hc : (s.focus k).caughtUp.me.closing = g :: gs) (hm : g.mates = []) : exec (.commit k) s =
      .next (if (s.focus k).caughtUp.mayCommit (s.focus k).caughtUp.cur then ((s.focus k).caughtUp.commitOne).focus s.cur else s) := by
  change execCommit k s = _
  unfold execCommit
  cases hmay : (s.focus k).caughtUp.mayCommit (s.focus k).caughtUp.cur with
  | true => exact coreEvent_some hk (by simp [hbad, hc, together_alone _ hm, hmay])
  | false => exact coreEvent_none hk (by simp [hbad, hc, together_alone _ hm, hmay])

theorem pubsAfter_bare {pubs : List Seg} {g : Seg} {ts : List Nat} (h : ts = [] ∧ (pubs = [] ∨ g.d.holds = [] ∧ g.d.hbanks = [])) :
    pubsAfter pubs g ts = pubs := by
  unfold pubsAfter
  rw [if_pos (by simpa [List.isEmpty_iff] using h)]

theorem pubsAfter_held {pubs : List Seg} {g : Seg} {ts : List Nat} (h : ¬(ts = [] ∧ (pubs = [] ∨ g.d.holds = [] ∧ g.d.hbanks = []))) :
    (pubsAfter pubs g ts).map (·.d.id) = pubs.map (·.d.id) ++ [g.d.id] := by
  unfold pubsAfter
  rw [if_neg (by simpa [List.isEmpty_iff] using h)]
  simp

/-- What a commit waits for (spec/03 R68). -/
theorem mayCommit_ready {k : Nat} {g : Seg} {gs : List Seg} (hc : (s.core k).closing = g :: gs) (hm : s.mayCommit k = true) :
    (∀ i ∈ g.d.out, i.st = .accepted ∨ entryTarget s.pkgid.toNat i.e = none) ∧
      (g.d.out ≠ [] ∨ g.d.lines ≠ [] → g.closedAt + Config.W ≤ (s.core k).clk) := by
  have htarget : ∀ e : OutEntry, entryTarget 0 e = none → entryTarget s.pkgid.toNat e = none := by
    intro e he
    cases e with
    | own | drip => rfl
    | _ => simp [entryTarget] at he
  unfold State.mayCommit Seg.commitReady at hm
  simp only [hc, Bool.and_eq_true, Bool.or_eq_true, List.all_eq_true, beq_iff_eq, decide_eq_true_eq, List.isEmpty_iff] at hm
  obtain ⟨⟨⟨⟨⟨hout, -⟩, hw⟩, -⟩, -⟩, -⟩ := hm
  refine ⟨fun i hi => (hout i hi).imp_right (htarget i.e), fun hne => hw.resolve_right fun ⟨hl, ho⟩ => ?_⟩
  rcases hne with h | h
  · exact h ho
  · exact h hl

end Sys2Proof.Machine
end

