-- ==== Sys2Proof/Proofs/SegmentsCommit.lean ====
section
/-! The clauses of O37 on commit notices and complete commits (spec/03 R69, R70, spec/07 R184), and the statement. -/

namespace Sys2Proof.Machine

open Safety

variable {s t : State} {k seg : Nat} {p : Packet} {g : Staged}

/-! ### A published entry -/

/-- A store published in device memory: the line there takes the bytes of the mask. -/
theorem publishEntry_dev {pa : Nat} {dat : Line} {mask : W64} {tag : BitVec 4} {a : W64} (hg : g.e = .store (.dev pa) dat mask tag a)
    (hpa : pa < 2 ^ 55) (hderr : s.derr = []) : Recorded s (s.publishEntry g) ∧
      (s.publishEntry g).dram = Mem.put s.dram pa (lineBytes (mergeLine (lineOf (Mem.bytes s.dram pa 64)) dat mask)) := by
  have hdev : ¬ hostBit ≤ pa := Nat.not_le.2 hpa
  have hput : s.physPut pa (lineBytes (mergeLine (lineOf (s.physBytes pa 64)) dat mask)) =
      { s with dram := Mem.put s.dram pa (lineBytes (mergeLine (lineOf (Mem.bytes s.dram pa 64)) dat mask)) } := by
    simp only [State.physPut, State.physBytes, if_neg hdev]
  have hrec := physPut_recorded s pa (lineBytes (mergeLine (lineOf (s.physBytes pa 64)) dat mask))
  unfold State.publishEntry
  simp only [hg, readSectors_of_derr_nil hderr, ite_self]
  generalize hv : (if mask = BitVec.allOnes 64 then _ else _ : State) = v
  have hclear : Recorded (s.physPut pa (lineBytes (mergeLine (lineOf (s.physBytes pa 64)) dat mask))) v ∧
      v.dram = (s.physPut pa (lineBytes (mergeLine (lineOf (s.physBytes pa 64)) dat mask))).dram := by
    rw [← hv]
    split
    · exact ⟨clearPoison_recorded _ _ _, by simp only [State.clearPoison, if_neg hdev]⟩
    · exact ⟨.refl _, rfl⟩
  obtain ⟨l, hl⟩ := charge_eq v g.ctx.toNat 10 1
  refine ⟨hrec.trans (hclear.1.trans (charge_recorded _ _ _ _)), ?_⟩
  rw [hl]
  exact hclear.2.trans (by rw [hput])

/-- A message published at core c, whose mailbox takes it at its end. -/
theorem publishEntry_msg {m : Msg} {pkg c : Nat} {look : Option (BitVec 48)} (hg : g.e = .msg m pkg c look) (hspill : g.spill = none)
    (hlate : g.late = false) (hst : isStamped m = false) (hw : isWake m = false) : s.publishEntry g =
      s.setCore c { (s.core c).countRecv (msgCtx m) (msgLnch m) 1 with mailbox := (s.core c).mailbox ++ [⟨m, none, false, s.gt⟩] } := by
  simp [State.publishEntry, hg, hspill, hlate, State.deliverMail, hst, hw, Core.countRecv]

/-! ### What a source sees of its own commit -/

/-- Lines that a core was served before its notice take its bytes: in its read cache, and in replies. -/
theorem foldOut_frame (s : State) (j : Nat) (d : SegData) : (s.foldOut j d).dram = s.dram ∧ (s.foldOut j d).staged = s.staged ∧
    (s.foldOut j d).chan.length = s.chan.length ∧ ∀ i, ((s.foldOut j d).core i).mailbox = (s.core i).mailbox := by
  have hset : ∀ c : Core, (s.setCore j c).dram = s.dram ∧ (s.setCore j c).staged = s.staged ∧ (s.setCore j c).chan = s.chan := by
    intro c
    unfold State.setCore
    split <;> exact ⟨rfl, rfl, rfl⟩
  unfold State.foldOut
  extract_lets fix c s1
  obtain ⟨hdram, hstaged, hchan⟩ := hset { c with rcache := c.rcache.map fun x => (x.1, d.over x.1 x.2) }
  refine ⟨hdram, hstaged, ?_, fun i => ?_⟩
  · rw [List.length_map]
    exact congrArg List.length hchan
  · change (s1.core i).mailbox = _
    unfold s1
    rw [core_setCore]
    split
    next h => rw [h]
    next => rfl

/-! ### The notice at its target -/

/-- The entries that a notice publishes. -/
def Staged.isOf (p : Packet) (seg : Nat) (g : Staged) : Bool := g.src == p.src && g.seg == seg && g.dst == p.dst

/-- The package once a notice of segment seg has published what was staged for it. -/
def State.published (s : State) (p : Packet) (seg : Nat) : State :=
  let gs := s.staged.filter (Staged.isOf p seg)
  let t := gs.foldl (fun s g => s.publishEntry g) { s with staged := s.staged.filter fun g => !Staged.isOf p seg g }
  if p.src < nodeSpan then t.foldOut p.src (storesOf gs) else t

/-- A fresh notice publishes what was staged for it and is acknowledged, unless a line on which it stores is held. -/
theorem execCommitNoticeServe_fresh (hp : s.chan[k]? = some p) (hb : p.body = .notice seg) (hl : p.leaves = none) (hf : s.arrival p = .fresh) :
    exec (.commitNoticeServe k) s = .next (if (s.staged.filter (Staged.isOf p seg)).any s.storeHeld then s
      else (s.published p seg).answer k p (.noticeAck seg p.dst)) := by
  change execCommitNoticeServe k s = _
  unfold execCommitNoticeServe
  rw [packetEvent_here _ hp hl]
  simp only [hb]
  by_cases h : (s.staged.filter (Staged.isOf p seg)).any s.storeHeld = true
  · rw [if_pos h, receive_waits hf (if_pos h)]
  · rw [if_neg h, receive_fresh hf (if_neg h)]
    rfl

/-- The core of another step's reply: the acknowledgement stands in the place of the notice. -/
theorem published_answer (p : Packet) (hk : k < t.chan.length) :
    let u := t.answer k p (.noticeAck seg p.dst)
    u.dram = t.dram ∧ u.staged = t.staged ∧ (∀ i, u.core i = t.core i) ∧ u.chan[k]? = some { p with body := .noticeAck seg p.dst } := by
  intro u
  obtain ⟨l, f, h⟩ := answer_eq t k p (.noticeAck seg p.dst)
  rw [show u = _ from h]
  exact ⟨rfl, rfl, fun _ => rfl, getElem?_lset _ _ hk⟩

/-- What the core folds into the lines that it was served leaves what was published as it is. -/
theorem published_single (hg : s.staged.filter (Staged.isOf p seg) = [g]) :
    let t := ({ s with staged := s.staged.filter fun g => !Staged.isOf p seg g } : State).publishEntry g
    (s.published p seg).dram = t.dram ∧ (s.published p seg).staged = t.staged ∧ (s.published p seg).chan.length = t.chan.length ∧
      ∀ i, ((s.published p seg).core i).mailbox = (t.core i).mailbox := by
  intro t
  unfold State.published
  simp only [hg, List.foldl_cons, List.foldl_nil]
  split
  · exact foldOut_frame t p.src _
  · exact ⟨rfl, rfl, rfl, fun _ => rfl⟩

theorem notice_publishes_store {pa : Nat} {dat : Line} {mask : W64} {tag : BitVec 4} {a : W64} (hp : s.chan[k]? = some p)
    (hb : p.body = .notice seg) (hl : p.leaves = none) (hf : s.arrival p = .fresh) (hderr : s.derr = [])
    (hg : s.staged.filter (Staged.isOf p seg) = [g]) (hheld : s.storeHeld g = false) (he : g.e = .store (.dev pa) dat mask tag a)
    (hpa : pa < 2 ^ 55) (hwf : s.dram.wf = true) : ∃ t q, exec (.commitNoticeServe k) s = .next t ∧
      t.staged = s.staged.filter (fun g => !Staged.isOf p seg g) ∧ t.chan[k]? = some q ∧ q.body = .noticeAck seg p.dst ∧
      (∀ i < 64, Mem.byte t.dram (pa + i) = if mask.getLsbD i then dat.extractLsb' (8 * i) 8 else Mem.byte s.dram (pa + i)) ∧
      (∀ j, j < pa ∨ pa + 64 ≤ j → Mem.byte t.dram j = Mem.byte s.dram j) := by
  have hexec := execCommitNoticeServe_fresh hp hb hl hf
  simp only [hg, List.any_cons, List.any_nil, hheld, Bool.or_false, Bool.false_eq_true, if_false] at hexec
  obtain ⟨hdram, hstaged, hlen, -⟩ := published_single hg
  obtain ⟨hrec, hput⟩ := publishEntry_dev (s := { s with staged := s.staged.filter fun g => !Staged.isOf p seg g }) he hpa hderr
  obtain ⟨_, _, _, _, _, _, _, _, _, hrec⟩ := hrec
  have hk : k < (s.published p seg).chan.length := by
    rw [hlen, hrec]
    exact (List.getElem?_eq_some_iff.1 hp).1
  obtain ⟨adram, astaged, -, achan⟩ := published_answer (seg := seg) p hk
  have hmem : ((s.published p seg).answer k p (.noticeAck seg p.dst)).dram = _ := adram.trans (hdram.trans hput)
  refine ⟨_, _, hexec, astaged.trans (hstaged.trans (by rw [hrec])), achan, rfl, fun i hi => ?_, fun j hj => ?_⟩
  · rw [hmem, Mem.byte_put_merged pa dat mask hwf hi]
    rfl
  · rw [hmem]
    rcases hj with hj | hj
    · exact Mem.byte_put_below _ hwf hj
    · exact Mem.byte_put_above _ hwf (by rw [lineBytes_length]; exact hj)

theorem notice_publishes_message {m : Msg} {pkg c : Nat} {look : Option (BitVec 48)} (hp : s.chan[k]? = some p) (hb : p.body = .notice seg)
    (hl : p.leaves = none) (hf : s.arrival p = .fresh) (hg : s.staged.filter (Staged.isOf p seg) = [g]) (hheld : s.storeHeld g = false)
    (he : g.e = .msg m pkg c look) (hspill : g.spill = none) (hlate : g.late = false) (hst : isStamped m = false) (hw : isWake m = false) :
    ∃ t q, exec (.commitNoticeServe k) s = .next t ∧ t.staged = s.staged.filter (fun g => !Staged.isOf p seg g) ∧ t.chan[k]? = some q ∧
      q.body = .noticeAck seg p.dst ∧ (t.core c).mailbox = (s.core c).mailbox ++ [⟨m, none, false, s.gt⟩] := by
  have hexec := execCommitNoticeServe_fresh hp hb hl hf
  simp only [hg, List.any_cons, List.any_nil, hheld, Bool.or_false, Bool.false_eq_true, if_false] at hexec
  obtain ⟨-, hstaged, hlen, hmail⟩ := published_single hg
  rw [publishEntry_msg he hspill hlate hst hw] at hstaged hlen hmail
  have hset : ∀ (u : State) (e : Core), (u.setCore c e).staged = u.staged ∧ (u.setCore c e).chan = u.chan := by
    intro u e
    unfold State.setCore
    split <;> exact ⟨rfl, rfl⟩
  have hk : k < (s.published p seg).chan.length := by
    rw [hlen, (hset _ _).2]
    exact (List.getElem?_eq_some_iff.1 hp).1
  obtain ⟨-, astaged, acore, achan⟩ := published_answer (seg := seg) p hk
  refine ⟨_, _, hexec, astaged.trans (hstaged.trans (hset _ _).1), achan, rfl, ?_⟩
  rw [acore, hmail, core_setCore, if_pos rfl]
  rfl

/-! ### The end of the operation -/

/-- The operation of segment g has left the core in focus; its acknowledgements are taken. -/
def State.completed (s : State) (g : Seg) (gs : List Seg) : State :=
  { s with
    me := { s.me with pubs := gs, rcache := s.me.rcache.map fun x => if x.1.isFar then (x.1, g.d.over x.1 x.2) else x }
    chan := s.chan.filter fun p => !(p.src == s.cur && (match p.body with | .noticeAck i _ => i == g.d.id | _ => false)) }

/-- The operation leaves when every target has answered and no read awaits a line of another package that it stored to. -/
theorem execCommitComplete_eq {g : Seg} {gs : List Seg} (hk : k < Config.nCores) (hpubs : (s.focus k).caughtUp.me.pubs = g :: gs) :
    let u := (s.focus k).caughtUp
    exec (.commitComplete k) s =
      .next (if g.waiting.all (u.acked u.cur g.d.id) && !u.farAwaited g.d then (u.completed g gs).focus s.cur else s) := by
  intro u
  change execCommitComplete k s = _
  unfold execCommitComplete
  split
  next h => exact coreEvent_some hk (by simp only [hpubs]; exact if_pos h)
  next h => exact coreEvent_none hk (by simp only [hpubs]; exact if_neg h)

/-- Settles O37: the Commit step publishes behind the core's own state, and a notice performs what was staged for it. -/
theorem segmentsCommit : Obligations.SegmentsCommit := by
  unfold Obligations.SegmentsCommit
  refine ⟨?_, ?_, ?_, ?_⟩
  · intro k s g gs hk u hbad hc hm
    have hexec := execCommit_alone hk hbad hc hm
    refine ⟨fun hmay => by rw [hexec, hmay]; rfl, fun hmay ha => ⟨u.commitOne, by rw [hexec, hmay]; rfl, ?_⟩⟩
    obtain ⟨hclosing, hconf, hmem, hregs, hpubs, hsent⟩ := commitOne_commits hc ha
    have hcur : u.cur = k := (caughtUp_cur _).trans (focus_cur s k)
    refine ⟨hclosing, hconf, hmem, hregs, fun t ht => ?_, fun hbare => hpubs.trans (pubsAfter_bare hbare), fun hheld => ?_⟩
    · obtain ⟨p, hp, hsrc, hrest⟩ := hsent t ht
      exact ⟨p, hp, hsrc.trans hcur, hrest⟩
    · rw [hpubs]
      exact pubsAfter_held hheld
  · intro s k g gs hc hm
    exact mayCommit_ready hc hm
  · intro k s p seg hp hb hl hf hderr mine
    refine ⟨fun g hg hmine hheld => ?_, fun g hg hheld => ⟨fun pa dat mask tag a he hpa hwf => ?_, fun m pkg c look he hspill hlate hst hw => ?_⟩⟩
    · have hany : (s.staged.filter (Staged.isOf p seg)).any s.storeHeld = true :=
        List.any_eq_true.2 ⟨g, List.mem_filter.2 ⟨hg, hmine⟩, hheld⟩
      rw [execCommitNoticeServe_fresh hp hb hl hf, if_pos hany]
    · exact notice_publishes_store hp hb hl hf hderr hg hheld he hpa hwf
    · exact notice_publishes_message hp hb hl hf hg hheld he hspill hlate hst hw
  · intro k s g gs hk u hpubs
    have hexec := execCommitComplete_eq hk hpubs
    refine ⟨fun hall hfar => ⟨u.completed g gs, ?_, rfl, rfl, rfl, rfl⟩, fun hwait => ?_⟩
    · rw [hexec, if_pos (by rw [hall, hfar]; rfl)]
    · rw [hexec, if_neg (by rcases hwait with h | h <;> simp [u, h])]

end Sys2Proof.Machine
end

