-- ==== Sys2Proof/Proofs/FocusKept.lean ====
section
/-! The core in focus stays in focus through rollbacks, reports, their policies and kills (spec/03 R72, spec/11 R278 to R283, spec/20 R404). -/

namespace Sys2Proof.Machine

variable {s t : State}

/-! ### Folds and steps of other cores -/

theorem foldl_cur {α : Type} {f : State → α → State} (hf : ∀ s a, (f s a).cur = s.cur) (l : List α) (s : State) : (l.foldl f s).cur = s.cur :=
  foldl_keeps (fun t : State => t.cur = s.cur) (fun t a h => (hf t a).trans h) l rfl

theorem onCore_cur {f : State → State} (hf : ∀ s, (f s).cur = s.cur) (k : Nat) (s : State) : (onCore k f s).cur = s.cur := by
  unfold onCore
  split
  · exact hf s
  · exact focus_cur _ _

theorem onCores_cur {f : State → State} (hf : ∀ s, (f s).cur = s.cur) (ks : List Nat) (s : State) : (onCores ks f s).cur = s.cur :=
  foldl_cur (fun s k => onCore_cur hf k s) ks s

theorem Recorded.cur (h : Recorded s t) : t.cur = s.cur := by
  obtain ⟨_, _, _, _, _, _, _, _, _, rfl⟩ := h
  rfl

theorem sendFor_cur (s : State) (x : BitVec 8) (dst : Nat) (b : Body) : (s.sendFor x dst b).cur = s.cur := by
  obtain ⟨l, q, p, hs, -⟩ := sendFor_eq s x dst b
  rw [hs]

/-! ### Rollback -/

theorem sendAborts_cur (s : State) (d : SegData) : (s.sendAborts d).cur = s.cur := foldl_cur (fun s _ => sendFor_cur s _ _ _) _ s

theorem cancelAway_cur (s : State) (id : Nat) : (s.cancelAway id).cur = s.cur :=
  foldl_cur (fun s (p : Pour) => foldl_cur (fun s (x : Nat × Line) => (physPut_recorded s x.1 (lineBytes x.2)).cur) p.pre s) _ s

theorem dropGangWait_cur (s : State) : s.dropGangWait.cur = s.cur := by
  unfold State.dropGangWait
  simp only
  split <;> rfl

theorem lockStream_cur (s : State) (x : Stream) : (s.lockStream x).cur = s.cur := by
  unfold State.lockStream
  simp only
  split
  · split <;> rfl
  · rfl

theorem relockStreams_cur (s : State) : s.relockStreams.cur = s.cur := foldl_cur (fun s x => lockStream_cur s x) s.me.allStreams (s.unlock s.cur _)

theorem rollBack_cur (s : State) (i : Nat) (keep : Bool) : (s.rollBack i keep).cur = s.cur := by
  unfold State.rollBack
  extract_lets c segs id k later bud s1 s2 c1 c2 c3 again k' c4 c5 frame _ c6
  have h1 : s1.cur = s.cur := foldl_cur (fun s (g : Seg) => sendAborts_cur s g.d) segs s
  have h2 : s2.cur = s.cur := (cancelAway_cur s1 id).trans h1
  exact (relockStreams_cur _).trans ((dropGangWait_cur _).trans h2)

theorem rollGang_cur (s : State) (n : Nat) (keep : Bool) : (s.rollGang n keep).cur = s.cur :=
  (rollBack_cur _ _ _).trans (onCores_cur (fun _ => rollBack_cur _ _ _) _ s)

/-! ### The end of an activation -/

theorem putTrace_cur (s : State) (l : List (BitVec 8 × List W64)) : (s.putTrace l).cur = s.cur := by
  unfold State.putTrace State.drainTraces
  split
  · rfl
  · exact (flushTraces_recorded _ _).cur

theorem retire_cur (s : State) (l : List Act) : (s.retire l).cur = s.cur := by
  refine foldl_cur (fun s a => ?_) l s
  unfold State.schedRecord
  split
  · exact putTrace_cur s _
  · rfl

theorem retireLater_cur (s : State) (l : List Act) : (s.retireLater l).cur = s.cur := by
  unfold State.retireLater
  split
  · exact retire_cur s l
  · rfl

theorem endIdle_cur (s : State) : s.endIdle.cur = s.cur := relockStreams_cur { s with me := { s.me with streams := [] } }

theorem endFollower_cur (s : State) : s.endFollower.cur = s.cur := endIdle_cur _

theorem killAct_cur (s : State) : s.killAct.cur = s.cur :=
  (endIdle_cur _).trans ((retireLater_cur _ _).trans (rollBack_cur s _ _))

/-! ### The end of a context -/

theorem collLost_cur (s : State) (ops : List EngOp) : (s.collLost ops).cur = s.cur := by
  refine foldl_cur (fun s o => ?_) ops s
  split
  · simp only
    split
    · rfl
    · refine foldl_cur (fun s x => ?_) _ s
      split
      · rfl
      · split
        · exact sendFor_cur s _ _ _
        · exact sendFor_cur s _ _ _
  · rfl

theorem doneBlock_cur (s : State) (ctx : Nat) (w : W64) (a b c d : Nat) : (s.doneBlock ctx w a b c d).cur = s.cur := by
  unfold State.doneBlock
  split
  · rfl
  · exact ((physPut_recorded s _ _).trans (physPut_recorded _ _ _)).cur

theorem killSlots_cur (s : State) (ctx : Nat) : (s.killSlots ctx).cur = s.cur := by
  refine foldl_cur (fun s x => ?_) s.slots s
  split <;> rfl

theorem endKilled_cur (s : State) (l : Launch) : (s.endKilled l).cur = s.cur := doneBlock_cur s _ _ _ _ _ _

theorem killContext_cur (s : State) (ctx : Nat) : (s.killContext ctx).cur = s.cur := by
  unfold State.killContext
  extract_lets x mine s1 s2 s3 s4
  have h1 : s1.cur = s.cur := by
    refine onCores_cur (fun s => ?_) _ s
    extract_lets t u
    exact (collLost_cur t _).trans (rollBack_cur s 0 true)
  have h2 : s2.cur = s1.cur := foldl_cur (fun s (p : Nat × Core) => onCore_cur (fun s => collLost_cur s p.2.ops) _ s) _ s1
  have h3 : s3.cur = s2.cur := foldl_cur endKilled_cur _ s2
  have h4 : s4.cur = s3.cur := rfl
  clear_value s4
  exact (killSlots_cur s4 ctx).trans (h4.trans (h3.trans (h2.trans h1)))

theorem killFor_cur (s : State) (k : Nat) (x : BitVec 8) (a kind : W64) : (s.killFor k x a kind).cur = s.cur :=
  (killContext_cur _ _).trans (notice_recorded s _ _ _ _ _ _ _ _ _).cur

/-! ### The policy of a report -/

theorem reportWait_cur (s : State) (ms : List Nat) (w : Wait) : (s.reportWait ms w).cur = s.cur :=
  onCores_cur (f := fun s => { s with me := { s.me with wait := some w } }) (fun _ => rfl) ms s

theorem ringFull_cur (s : State) (x : BitVec 8) : (s.ringFull x).cur = s.cur := (ringFull_recorded s x).cur

theorem putRecords_cur (ks : List Nat) (s : State) : SomeAll (fun t : State => t.cur = s.cur) (s.putRecords ks) := by
  induction ks generalizing s with
  | nil => rfl
  | cons k ks ih =>
    unfold State.putRecords
    split
    · exact ih s
    · split
      · trivial
      next t _ =>
        have h := ih (t.focus s.cur)
        rwa [focus_cur] at h

theorem enterHandler_cur (s : State) (r : List W64) (h : Nat) (a b : Bool) : (s.enterHandler r h a b).cur = s.cur := rfl

theorem linkMates_cur (s : State) (ms : List Nat) : (s.linkMates ms).cur = s.cur := by
  refine onCores_cur (fun s => ?_) ms s
  split <;> rfl

theorem settle_cur (s : State) : s.settle.cur = s.cur := by
  unfold State.settle
  extract_lets ms lead
  split
  · rfl
  · split
    · rfl
    · extract_lets c r lost e thix want handles
      split
      · exact reportWait_cur s ms _
      · split
        · exact (reportWait_cur _ ms _).trans (ringFull_cur s _)
        next t ht =>
          have ht : t.cur = s.cur := (putRecords_cur ms s).of_eq ht
          extract_lets t1 t2 t3
          split
          · exact (killFor_cur t _ _ _ _).trans ht
          · split
            · have h2 : t2.cur = s.cur := (onCore_cur (fun s => enterHandler_cur s _ _ _ _) lead t1).trans ((onCores_cur endFollower_cur _ t).trans ht)
              split
              · exact h2
              · exact (linkMates_cur t2 ms).trans h2
            · have h3 : t3.cur = s.cur := by
                unfold t3
                split
                · exact (notice_recorded t _ _ _ _ _ _ _ _ _).cur.trans ht
                · exact ht
              exact (onCores_cur killAct_cur ms t3).trans h3

theorem raiseAs_cur (s : State) (k : Nat) (r : Report) (x : Option Raised) : (s.raiseAs k r x).cur = s.cur := by
  unfold State.raiseAs
  refine onCore_cur (fun s => ?_) k s
  rfl

theorem takeBackAs_cur (s : State) (n : Nat) (r : Report) (kill : Bool) : (s.takeBackAs n r kill).cur = s.cur :=
  (settle_cur _).trans ((raiseAs_cur _ _ _ _).trans (rollGang_cur s n true))

theorem takeBack_cur (s : State) (n : Nat) (r : Report) : (s.takeBack n r).cur = s.cur := takeBackAs_cur s n r false

end Sys2Proof.Machine
end

