-- ==== Sys2Proof/Proofs/EntryRelease.lean ====
section
/-! Waiting entries of a closed segment leave: which of them do, and what that changes (spec/03 R67, spec/17 R346). -/

namespace Sys2Proof.Machine

variable {s : State} {pkg seg k : Nat} {i : OutItem} {l : List OutItem}

/-! ### One entry -/

theorem releaseFrom_leaves {d : Nat} (hi : i.st = .waiting) (ht : entryTarget pkg i.e = some d) (hp : s.permit d = true) :
    releaseFrom pkg seg (i :: l) k s =
      ({ i with st := .sent } :: (releaseFrom pkg seg l (k + 1) (s.send d (.entry seg k i.e))).1,
        (releaseFrom pkg seg l (k + 1) (s.send d (.entry seg k i.e))).2) := by
  rw [releaseFrom, hi, ht]
  simp only [hp, if_true]

theorem releaseFrom_stays (h : i.st ≠ .waiting ∨ entryTarget pkg i.e = none) :
    releaseFrom pkg seg (i :: l) k s = (i :: (releaseFrom pkg seg l (k + 1) s).1, (releaseFrom pkg seg l (k + 1) s).2) := by
  rw [releaseFrom]
  split
  next hi ht => exact absurd h (by simp [hi, ht])
  next => rfl

/-- The first entry leaves, or it stays as it is; the others follow. -/
theorem releaseFrom_cons (pkg seg k : Nat) (s : State) (i : OutItem) (l : List OutItem) :
    (i.st = .waiting ∧ ∃ d, releaseFrom pkg seg (i :: l) k s =
      ({ i with st := .sent } :: (releaseFrom pkg seg l (k + 1) (s.send d (.entry seg k i.e))).1,
        (releaseFrom pkg seg l (k + 1) (s.send d (.entry seg k i.e))).2)) ∨
    releaseFrom pkg seg (i :: l) k s = (i :: (releaseFrom pkg seg l (k + 1) s).1, (releaseFrom pkg seg l (k + 1) s).2) := by
  rw [releaseFrom]
  split
  next d hi _ =>
    split
    · exact .inl ⟨hi, d, rfl⟩
    · exact .inr rfl
  next => exact .inr rfl

/-! ### All entries -/

/-- Packets join the channels; their numbers and the energy of their hops are all that changes beside. -/
theorem releaseFrom_state (pkg seg : Nat) (l : List OutItem) (k : Nat) (s : State) :
    ∃ x q ps, (releaseFrom pkg seg l k s).2 = { s with ctxs := x, seqs := q, chan := s.chan ++ ps } := by
  induction l generalizing k s with
  | nil => exact ⟨s.ctxs, s.seqs, [], by simp [releaseFrom]⟩
  | cons i l ih =>
    obtain ⟨-, d, h⟩ | h := releaseFrom_cons pkg seg k s i l
    · obtain ⟨x, q, p, hs, -⟩ := send_eq s d (.entry seg k i.e)
      obtain ⟨x', q', ps, ht⟩ := ih (k + 1) (s.send d (.entry seg k i.e))
      exact ⟨x', q', p :: ps, by rw [h, ht, hs]; simp⟩
    · obtain ⟨x, q, ps, ht⟩ := ih (k + 1) s
      exact ⟨x, q, ps, by rw [h, ht]⟩

theorem releaseFrom_entries (pkg seg : Nat) (l : List OutItem) (k : Nat) (s : State) : (releaseFrom pkg seg l k s).1.map (·.e) = l.map (·.e) := by
  induction l generalizing k s with
  | nil => rfl
  | cons i l ih => obtain ⟨-, d, h⟩ | h := releaseFrom_cons pkg seg k s i l <;> simp [h, ih]

/-- An entry that does not wait stays as it is. -/
theorem releaseFrom_kept {j : Nat} (hj : l[j]? = some i) (hi : i.st ≠ .waiting) : (releaseFrom pkg seg l k s).1[j]? = some i := by
  induction l generalizing j k s with
  | nil => simp at hj
  | cons a l ih =>
    obtain ⟨ha, d, h⟩ | h := releaseFrom_cons pkg seg k s a l
    · cases j with
      | zero => exact absurd (Option.some.inj hj ▸ ha) hi
      | succ j => simpa [h] using ih (by simpa using hj)
    · cases j with
      | zero => simpa [h] using hj
      | succ j => simpa [h] using ih (by simpa using hj)

/-- The first waiting entry that has a target leaves where a permit is free. -/
theorem releaseFrom_first {j d : Nat} (hj : l[j]? = some i) (hi : i.st = .waiting) (ht : entryTarget pkg i.e = some d) (hp : s.permit d = true)
    (hb : ∀ j' < j, ∀ i' : OutItem, l[j']? = some i' → i'.st ≠ .waiting ∨ entryTarget pkg i'.e = none) :
    (releaseFrom pkg seg l k s).1[j]? = some { i with st := .sent } ∧
      ∃ p, (releaseFrom pkg seg l k s).2.chan[s.chan.length]? = some p ∧ p.src = s.cur ∧ p.dst = d ∧ p.body = .entry seg (k + j) i.e := by
  induction l generalizing j k with
  | nil => simp at hj
  | cons a l ih =>
    cases j with
    | zero =>
      obtain rfl : a = i := by simpa using hj
      obtain ⟨x, q, p, hs, hsrc, hdst, hbody⟩ := send_eq s d (.entry seg k a.e)
      obtain ⟨x', q', ps, hr⟩ := releaseFrom_state pkg seg l (k + 1) (s.send d (.entry seg k a.e))
      refine ⟨by simp [releaseFrom_leaves hi ht hp], p, ?_, hsrc, hdst, hbody⟩
      rw [releaseFrom_leaves hi ht hp, hr, hs]
      simp
    | succ j =>
      have ha := hb 0 (Nat.succ_pos j) a rfl
      obtain ⟨h, p, hp, hsrc, hdst, hbody⟩ := ih (k := k + 1) (by simpa using hj) fun j' hj' i' h' => hb (j' + 1) (Nat.succ_lt_succ hj') i' (by simpa using h')
      refine ⟨by simpa [releaseFrom_stays ha] using h, p, by rw [releaseFrom_stays ha]; exact hp, hsrc, hdst, ?_⟩
      rw [hbody, Nat.add_right_comm]
      rfl

/-! ### The step -/

theorem exec_releaseEntries (k : Nat) (s : State) : exec (.releaseEntries k) s = execReleaseEntries k s := rfl

/-- The oldest closed segment with the entries that are left after the step. -/
def released (u : State) (g : Seg) (gs : List Seg) : State :=
  let r := releaseFrom u.pkgid.toNat g.d.id g.d.out 0 u
  { r.2 with me := { r.2.me with closing := { g with d := { g.d with out := r.1 } } :: gs } }

theorem execReleaseEntries_released {g : Seg} {gs : List Seg} (hk : k < Config.nCores) (hc : (s.focus k).caughtUp.me.closing = g :: gs)
    (hp : (s.focus k).caughtUp.me.pubs = []) : execReleaseEntries k s = .next ((released (s.focus k).caughtUp g gs).focus s.cur) := by
  refine coreEvent_some hk ?_
  simp only [hc, hp]
  rfl

end Sys2Proof.Machine
end

