-- ==== Sys2Proof/Proofs/EntryLanding.lean ====
section
/-! An outbox entry lands at its target: staged and accepted, or refused and not staged (spec/03 R67, spec/17 R368). -/

namespace Sys2Proof.Machine

variable {s t : State} {p : Packet} {k seg idx core : Nat} {e : OutEntry} {b : Body}

/-! ### What an answer leaves -/

/-- The reply stands at the packet's place under the packet's number. -/
theorem receive_answers {f : State → Option (State × Body)} (hp : s.chan[k]? = some p) (ha : s.arrival p = .fresh) (hf : f s = some (t, b))
    (hc : t.chan = s.chan) : (s.receive k p f).chan[k]? = some { p with body := b } ∧ (s.receive k p f).staged = t.staged := by
  obtain ⟨hk, -⟩ := List.getElem?_eq_some_iff.1 hp
  obtain ⟨l, g, h⟩ := answer_eq t k p b
  rw [receive_fresh ha hf, h]
  exact ⟨getElem?_lset _ _ (hc ▸ hk), rfl⟩

/-! ### Staged entries -/

/-- The state with entry e of segment seg staged. -/
def State.stage (s : State) (p : Packet) (seg : Nat) (spill : Option Nat) (e : OutEntry) : State :=
  { s with staged := s.staged ++ [⟨p.src, seg, p.dst, p.ctx, spill, false, e⟩] }

theorem land_launch (m : Msg) (die n : Nat) :
    s.land p seg idx (.launch m die n) = some (s.stage p seg none (.launch m die n), .ack seg idx true (refuse 0 0 0 0)) := rfl

section Store

variable {h : Home} {dat : Line} {mask : W64} {tag : BitVec 4} {a : W64} (room : p.dst < 8192 ∨ s.bufferUsed p.dst < 4 * 2 ^ 20) (hd : s.derr = [])

include room hd

theorem land_store (hs : s.landStore p.ctx h mask tag a = none) : s.land p seg idx (.store h dat mask tag a) =
    some (s.stage p seg none (.store h dat mask tag a), .ack seg idx true (refuse 0 0 0 0)) := by
  have full : ¬(8192 ≤ p.dst ∧ sliceBuffer ≤ s.bufferUsed p.dst) := by unfold sliceBuffer; omega
  simp only [State.land, full, if_false, readHome_of_derr_nil hd, hs]
  rfl

theorem land_store_refused {r : Report} (hs : s.landStore p.ctx h mask tag a = some r) :
    s.land p seg idx (.store h dat mask tag a) = some (s, .ack seg idx false r) := by
  have full : ¬(8192 ≤ p.dst ∧ sliceBuffer ≤ s.bufferUsed p.dst) := by unfold sliceBuffer; omega
  simp only [State.land, full, if_false, readHome_of_derr_nil hd, hs]

end Store

/-! ### Messages and migration records -/

theorem arrive_of_free_run {m : Msg} {task : Bool} (h : s.replayHead (msgCtx m).toNat core = none) : s.arrive core task m = s := by
  simp only [State.arrive, h]

/-- The replay buffer does not depend on what is staged, nor on the bank of the mailbox. -/
theorem replayHead_stage_claimed (x : Nat) (c : BitVec 8) (spill : Option Nat) :
    ((s.setCore core ((s.core core).claimBank c 15)).stage p seg spill e).replayHead x core = s.replayHead x core := by
  have hr : ((s.setCore core ((s.core core).claimBank c 15)).core core).rpos = (s.core core).rpos := by
    obtain ⟨_, _, _, _, _, _, h⟩ := claimBank_eq (s.core core) c 15
    rw [core_setCore, if_pos rfl, h]
  show (s.setCore core _).replayAt x core ((s.setCore core _).core core).rpos = _
  rw [hr]
  unfold State.setCore
  split <;> rfl

theorem landMail_accept (m : Msg) (no : Nat → Report) : s.landMail p seg idx core m e .accept no =
    some ((s.setCore core ((s.core core).claimBank (msgCtx m) 15)).stage p seg none e, .ack seg idx true (refuse 0 0 0 0)) := rfl

theorem landMail_spill {m : Msg} {pa : Nat} (no : Nat → Report) (hp : s.spillEntry (msgCtx m).toNat = some pa)
    (room : s.bufferUsed (8192 + sliceOf pa) < 4 * 2 ^ 20) : s.landMail p seg idx core m e .spill no =
    some (((s.physPut pa (spillBytes core m)).clearPoison pa 128).stage p seg (some pa) e, .ack seg idx true (refuse 0 0 0 0)) := by
  have full : ¬sliceBuffer ≤ s.bufferUsed (8192 + sliceOf pa) := by unfold sliceBuffer; omega
  simp only [State.landMail, hp, full, if_false]
  rfl

theorem landMail_refuse (m : Msg) (r : Nat) (no : Nat → Report) : s.landMail p seg idx core m e (.refuse r) no = some (s, .ack seg idx false (no r)) := rfl

/-! ### The two outcomes -/

/-- Entry e of segment seg is staged, in the spill queue where `spill` says so, and accepted. -/
def State.Accepts (s : State) (p : Packet) (seg idx : Nat) (e : OutEntry) (spill : Option Nat) : Prop :=
  ∃ t : State, s.land p seg idx e = some (t.stage p seg spill e, .ack seg idx true (refuse 0 0 0 0)) ∧ t.chan = s.chan ∧ t.staged = s.staged

/-- Entry e of segment seg is refused, and nothing is staged. -/
def State.Refuses (s : State) (p : Packet) (seg idx : Nat) (e : OutEntry) (r : Report) : Prop :=
  ∃ t, s.land p seg idx e = some (t, .ack seg idx false r) ∧ t.chan = s.chan ∧ t.staged = s.staged

section Mail

variable {m : Msg} {f : Fate} {no : Nat → Report}

/-- The entry lands as mail m of core `core` by fate f. -/
def State.LandsAsMail (s : State) (p : Packet) (seg idx core : Nat) (m : Msg) (e : OutEntry) (f : Fate) (no : Nat → Report) : Prop :=
  s.land p seg idx e = (s.landMail p seg idx core m e f no).map fun x => (if f == .accept then x.1.arrive core false m else x.1, x.2)

theorem msg_landsAsMail (pkg : Nat) (look : Option (BitVec 48)) (hb : (s.core core).heldBank 15 = false) :
    s.LandsAsMail p seg idx core m (.msg m pkg core look) (s.fate core m look) (fun r => refuse 0x406 (destWord m pkg core) (m.toList.getD 0 0) (ofNat r)) := by
  simp only [State.LandsAsMail, State.land, hb]
  rfl

theorem migr_landsAsMail (r : MigrRec) (pkg : Nat) (hb : (s.core core).heldBank 15 = false) :
    s.LandsAsMail p seg idx core r.hdr (.migr r pkg core) (s.migrFate core r.hdr) (refuseMigr r pkg core) := by
  simp only [State.LandsAsMail, State.land, hb]
  rfl

theorem State.LandsAsMail.accepts (h : s.LandsAsMail p seg idx core m e .accept no) (hr : s.replayHead (msgCtx m).toNat core = none) :
    s.Accepts p seg idx e none := by
  obtain ⟨hc, hs⟩ : (s.setCore core ((s.core core).claimBank (msgCtx m) 15)).chan = s.chan ∧
      (s.setCore core ((s.core core).claimBank (msgCtx m) 15)).staged = s.staged := by
    unfold State.setCore
    split <;> exact ⟨rfl, rfl⟩
  refine ⟨_, ?_, hc, hs⟩
  rw [h, landMail_accept, Option.map_some, if_pos (by decide), arrive_of_free_run ((replayHead_stage_claimed _ _ _).trans hr)]

theorem State.LandsAsMail.spills {pa : Nat} (h : s.LandsAsMail p seg idx core m e .spill no) (hp : s.spillEntry (msgCtx m).toNat = some pa)
    (room : s.bufferUsed (8192 + sliceOf pa) < 4 * 2 ^ 20) : s.Accepts p seg idx e (some pa) := by
  obtain ⟨_, _, _, _, _, _, _, _, _, hs⟩ := (physPut_recorded s pa (spillBytes core m)).trans (clearPoison_recorded _ pa 128)
  refine ⟨(s.physPut pa (spillBytes core m)).clearPoison pa 128, ?_, by rw [hs], by rw [hs]⟩
  rw [h, landMail_spill no hp room, Option.map_some, if_neg (by decide)]

theorem State.LandsAsMail.refuses {r : Nat} (h : s.LandsAsMail p seg idx core m e (.refuse r) no) : s.Refuses p seg idx e (no r) :=
  ⟨s, by rw [h, landMail_refuse, Option.map_some, if_neg (by simp)], rfl, rfl⟩

end Mail

/-! ### The step -/

theorem exec_landEntry (k : Nat) (s : State) : exec (.landEntry k) s = execLandEntry k s := rfl

variable (hp : s.chan[k]? = some p) (hb : p.body = .entry seg idx e)

include hp hb

theorem execLandEntry_here (hl : p.leaves = none) : execLandEntry k s = .next (s.receive k p fun s => s.land p seg idx e) := by
  cases e with
  | migr r pkg core => simp [execLandEntry, hp, hb, hl]
  | _ => simp [execLandEntry, hp, hb, packetEvent_here _ hp hl]

variable (hl : p.leaves = none) (ha : s.arrival p = .fresh)

include hl ha

theorem execLandEntry_accepts {spill : Option Nat} (h : s.Accepts p seg idx e spill) : ∃ t, execLandEntry k s = .next t ∧
    t.chan[k]? = some { p with body := .ack seg idx true (refuse 0 0 0 0) } ∧ t.staged = s.staged ++ [⟨p.src, seg, p.dst, p.ctx, spill, false, e⟩] := by
  obtain ⟨t, ht, hc, hs⟩ := h
  obtain ⟨h1, h2⟩ := receive_answers (f := fun s => s.land p seg idx e) hp ha ht hc
  exact ⟨_, execLandEntry_here hp hb hl, h1, by rw [h2, State.stage, hs]⟩

theorem execLandEntry_refuses {r : Report} (h : s.Refuses p seg idx e r) : ∃ t, execLandEntry k s = .next t ∧
    t.chan[k]? = some { p with body := .ack seg idx false r } ∧ t.staged = s.staged := by
  obtain ⟨t, ht, hc, hs⟩ := h
  obtain ⟨h1, h2⟩ := receive_answers (f := fun s => s.land p seg idx e) hp ha ht hc
  exact ⟨_, execLandEntry_here hp hb hl, h1, h2.trans hs⟩

omit hl ha

/-- A migration record of another package is refused where it stands. -/
theorem execLandEntry_far {r : MigrRec} {pkg core : Nat} (he : e = .migr r pkg core) (hf : p.leaves.isSome = true) : ∃ t, execLandEntry k s = .next t ∧
    t.chan[k]? = some { p with body := .ack seg idx false (refuseMigr r pkg core 5) } ∧ t.staged = s.staged := by
  obtain ⟨hk, -⟩ := List.getElem?_eq_some_iff.1 hp
  obtain ⟨l, g, h⟩ := answer_eq s k p (.ack seg idx false (refuseMigr r pkg core 5))
  subst he
  exact ⟨s.answer k p (.ack seg idx false (refuseMigr r pkg core 5)), by simp [execLandEntry, hp, hb, hf], by rw [h]; exact getElem?_lset _ _ hk, by rw [h]⟩

end Sys2Proof.Machine
end

