-- ==== Sys2Proof/Proofs/LostReplies.lean ====
section
/-! A packet whose reply does not come: it leaves again, or after the eighth try it counts as answered with an uncorrectable error
(spec/17 R344, R355). -/

namespace Sys2Proof.Machine

variable {s : State} {k : Nat} {p : Packet}

/-! ### The step of another core -/

/-- A step that keeps its core in focus is taken there, and the focus comes back. -/
theorem onCore_focus {f : State → State} (h : (f (s.focus k)).cur = k) : onCore k f s = (f (s.focus k)).focus s.cur := by
  unfold onCore
  split
  next hk =>
    subst hk
    rw [focus_self] at h ⊢
    rw [← h, h, State.focus, if_pos h.symm]
  next => rfl

/-! ### The step -/

theorem exec_retransmitTimeout (k : Nat) (s : State) : exec (.retransmitTimeout k) s = execRetransmitTimeout k s := rfl

/-- Packet q, sent again where it carries the number of p. -/
def Packet.retried (gt : Nat) (p q : Packet) : Packet := if q.same p then { q with tries := p.tries + 1, since := gt } else q

/-- The channels without the packets that carry p's number. -/
def State.without (s : State) (p : Packet) : State := { s with chan := s.chan.filter fun q => !q.same p }

section Step

variable (hp : s.chan[k]? = some p) (hn : p.body.numbered = true) (hs : p.src < nodeSpan) (hw : p.body.polls = false)

include hp

theorem execRetransmitTimeout_early (h : s.gt < p.since + p.patience) : execRetransmitTimeout k s = .next s := by
  simp [execRetransmitTimeout, hp, h]

include hn hs hw

theorem execRetransmitTimeout_again (h : p.since + p.patience ≤ s.gt) (ht : p.tries < 8) : execRetransmitTimeout k s =
    .next { s with chan := if p.body.isReply then s.chan.map (p.retried s.gt) else s.chan.map (p.retried s.gt) ++ [{ p.retried s.gt p with away := false }] } := by
  simp only [execRetransmitTimeout, hp, hn, hw, Nat.not_le.2 hs, Nat.not_lt.2 h, ht]
  rfl

theorem execRetransmitTimeout_lost (h : p.since + p.patience ≤ s.gt) (ht : 8 ≤ p.tries) :
    execRetransmitTimeout k s = .next ((s.without p).lostPacket p) := by
  simp only [execRetransmitTimeout, hp, hn, hw, Nat.not_le.2 hs, Nat.not_lt.2 h, Nat.not_lt.2 ht]
  rfl

end Step

theorem same_self (hn : p.body.numbered = true) : p.same p = true := by simp [Packet.same, hn]

theorem retried_self (hn : p.body.numbered = true) (gt : Nat) : p.retried gt p = { p with tries := p.tries + 1, since := gt } := by
  rw [Packet.retried, if_pos (same_self hn)]

theorem retried_tries {q : Packet} {gt : Nat} (h : (p.retried gt q).same p = true) : (p.retried gt q).tries = p.tries + 1 := by
  unfold Packet.retried at h ⊢
  split
  · rfl
  next hq => simp [hq] at h

/-- Every packet with p's number, the new copy too, has one more try. -/
theorem retried_list_tries {l : List Packet} {gt : Nat} {q : Packet} (hn : p.body.numbered = true)
    (hq : q ∈ if p.body.isReply then l.map (p.retried gt) else l.map (p.retried gt) ++ [{ p.retried gt p with away := false }])
    (h : q.same p = true) : q.tries = p.tries + 1 := by
  have copies : q ∈ l.map (p.retried gt) → q.tries = p.tries + 1 := fun hq => by
    obtain ⟨r, -, rfl⟩ := List.mem_map.1 hq
    exact retried_tries h
  split at hq
  · exact copies hq
  · obtain hq | hq := List.mem_append.1 hq
    · exact copies hq
    · rw [List.mem_singleton.1 hq, retried_self hn]

/-! ### What the eighth timeout takes back -/

theorem lostPacket_entry {seg idx : Nat} {e : OutEntry} {g : Seg} (hb : p.body = .entry seg idx e)
    (hg : (s.focus p.src).me.closing.find? (fun g => g.d.id == seg) = some g) : s.lostPacket p =
      ((s.focus p.src).takeBack ((s.focus p.src).me.closedFrom seg)
        ⟨0x501, 2, g.closer, p.body.address, 2, 0, (s.focus p.src).me.clk, (s.focus p.src).gt⟩).focus s.cur := by
  rw [State.lostPacket, hb]
  dsimp only
  rw [onCore_focus (by simp only [hg, takeBack_cur, focus_cur])]
  simp only [hg]

theorem lostPacket_entry_gone {seg idx : Nat} {e : OutEntry} (hb : p.body = .entry seg idx e)
    (hg : (s.focus p.src).me.closing.find? (fun g => g.d.id == seg) = none) : s.lostPacket p = (s.focus p.src).focus s.cur := by
  rw [State.lostPacket, hb]
  dsimp only
  rw [onCore_focus (by simp only [hg, focus_cur])]
  simp only [hg]

theorem lostPacket_read {id d : Nat} {q : Req} {r : RRead} (hb : p.body = .request id d q)
    (hr : (s.focus p.src).me.reads.find? (fun x => x.id == id) = some r) : s.lostPacket p =
      ((s.focus p.src).takeBack 0 ⟨0x501, 2, r.pc, ((r.addrs.head?).map (·.2)).getD 0, 2, 0, (s.focus p.src).me.clk, (s.focus p.src).gt⟩).focus s.cur := by
  rw [State.lostPacket, hb]
  dsimp only
  rw [onCore_focus (by simp only [hr, takeBack_cur, focus_cur])]
  simp only [hr]

theorem lostPacket_irrev {id d : Nat} {q : Req} (hb : p.body = .request id d q)
    (hr : (s.focus p.src).me.reads.find? (fun x => x.id == id) = none) (hi : (s.focus p.src).me.irrev = some (.sent id)) : s.lostPacket p =
      ((s.focus p.src).takeBack 0 ⟨0x501, 2, (s.focus p.src).me.pc, p.body.address, 2, 0, (s.focus p.src).me.clk, (s.focus p.src).gt⟩).focus s.cur := by
  rw [State.lostPacket, hb]
  dsimp only
  rw [onCore_focus (by simp only [hr, hi, if_true, takeBack_cur, focus_cur])]
  simp only [hr, hi, if_true]

theorem lostPacket_abort {seg : Nat} (hb : p.body = .abort seg) (hrun : (s.focus p.src).me.running = true) (hctx : (s.focus p.src).me.act.ctx = p.ctx) :
    s.lostPacket p =
      ((s.focus p.src).takeBack 0 ⟨0x501, 2, (s.focus p.src).me.pc, 0, 2, 0, (s.focus p.src).me.clk, (s.focus p.src).gt⟩).focus s.cur := by
  have h : ((s.focus p.src).me.running && (s.focus p.src).me.act.ctx == p.ctx) = true := by simp [hrun, hctx]
  rw [State.lostPacket, hb]
  dsimp only
  rw [onCore_focus (by simp only [h, if_true, takeBack_cur, focus_cur])]
  simp only [h, if_true]

theorem lostPacket_abort_idle {seg : Nat} (hb : p.body = .abort seg) (h : (s.focus p.src).me.running = false) :
    s.lostPacket p = (s.focus p.src).focus s.cur := by
  rw [State.lostPacket, hb]
  dsimp only
  rw [onCore_focus (by simp [h])]
  simp [h]

/-! ### The end of the context -/

theorem setState_state (x : Ctx) {n : Nat} (hn : n < 8) : (x.setState n).state = n := by
  have hw : (x.setState n).w 0 = ofNat ((x.w 0).toNat - put (bits (x.w 0) 55 53) 53 + put n 53) := by
    simp [Ctx.setState, Ctx.setW, Ctx.w]
  have hx := (x.w 0).isLt
  simp only [Ctx.state, hw, bits, put, ofNat, BitVec.toNat_ofNat, Nat.shiftRight_eq_div_pow]
  omega

theorem ctx_setCtx (s : State) (c : Nat) (x : Ctx) : (s.setCtx c x).ctx c = x := by simp [State.ctx, State.setCtx, aget_aset]

theorem killContext_state (s : State) (c : Nat) : ((s.killContext c).ctx c).state = 5 := by
  unfold State.killContext
  extract_lets x mine s1 s2 s3 s4
  rw [ctx_setCtx]
  exact setState_state (s4.ctx c) (by decide)

end Sys2Proof.Machine
end

