-- ==== Sys2Proof/Proofs/EntriesTravel.lean ====
section
/-! Obligation O36: outbox entries are released, land, are acknowledged, and time out (spec/03 R67, spec/17 R344, R346, R355, R368, spec/24 R434). -/

namespace Sys2Proof.Machine

variable {s : State} {k : Nat} {p : Packet}

/-! ### Release -/

theorem releaseEntries_releases {g : Seg} {gs : List Seg} (hk : k < Config.nCores) (hc : (s.focus k).caughtUp.me.closing = g :: gs)
    (hpub : (s.focus k).caughtUp.me.pubs = []) : ∃ (w : State) (out : List OutItem), exec (.releaseEntries k) s = .next (w.focus s.cur) ∧
      w.me.closing = { g with d := { g.d with out := out } } :: gs ∧ out.map (·.e) = g.d.out.map (·.e) ∧ w.me.mem = (s.focus k).caughtUp.me.mem ∧
      (∀ (j : Nat) (i : OutItem) (t : Nat), g.d.out[j]? = some i → i.st = .waiting → entryTarget s.pkgid.toNat i.e = some t →
        (s.focus k).caughtUp.permit t = true →
        (∀ j' < j, ∀ i' : OutItem, g.d.out[j']? = some i' → i'.st ≠ .waiting ∨ entryTarget s.pkgid.toNat i'.e = none) →
        out[j]? = some { i with st := .sent } ∧
        ∃ p, w.chan[(s.focus k).caughtUp.chan.length]? = some p ∧ p.src = k ∧ p.dst = t ∧ p.body = .entry g.d.id j i.e) ∧
      (∀ (j : Nat) (i : OutItem), g.d.out[j]? = some i → i.st ≠ .waiting → out[j]? = some i) := by
  have hpkg : s.pkgid = (s.focus k).caughtUp.pkgid := ((caughtUp_pkgid _).trans (focus_pkgid s k)).symm
  have hcur : (s.focus k).caughtUp.cur = k := (caughtUp_cur _).trans (focus_cur s k)
  obtain ⟨x, q, ps, hr⟩ := releaseFrom_state (s.focus k).caughtUp.pkgid.toNat g.d.id g.d.out 0 (s.focus k).caughtUp
  refine ⟨released (s.focus k).caughtUp g gs, _, (exec_releaseEntries k s).trans (execReleaseEntries_released hk hc hpub), rfl,
    releaseFrom_entries _ _ _ _ _, by rw [released, hr], fun j i t hj hi ht hp hb => ?_, fun j i hj hi => releaseFrom_kept hj hi⟩
  rw [hpkg] at ht hb
  obtain ⟨h, p, hpk, hsrc, hdst, hbody⟩ := releaseFrom_first (seg := g.d.id) (k := 0) hj hi ht hp hb
  exact ⟨h, p, hpk, hsrc.trans hcur, hdst, by rw [hbody, Nat.zero_add]⟩

/-! ### Acknowledgement and abort notices -/

theorem exec_entryAck (k : Nat) (s : State) : exec (.entryAck k) s = execEntryAck k s := rfl

theorem focus_chan (s : State) (k : Nat) : (s.focus k).chan = s.chan := by unfold State.focus; split <;> rfl

theorem focus_staged (s : State) (k : Nat) : (s.focus k).staged = s.staged := by unfold State.focus; split <;> rfl

theorem core_of_cur (h : s.cur = k) : s.core k = s.me := by rw [← h, core_self]

/-- The channels without packet k. -/
def State.taken (s : State) (k : Nat) : State := { s with chan := ldel s.chan k }

/-- The core in focus with entry idx of segment seg accepted. -/
def State.accepted (s : State) (seg idx : Nat) : State :=
  { s with me := { s.me with closing := s.me.closing.map fun g => if g.d.id = seg then { g with d := g.d.setItem idx .accepted } else g } }

theorem execEntryAck_accepted {seg idx : Nat} {r : Report} {g : Seg} (hp : s.chan[k]? = some p) (hb : p.body = .ack seg idx true r) (hl : p.leaves = none)
    (hg : (s.core p.src).closing.find? (fun g => g.d.id == seg) = some g) :
    execEntryAck k s = .next ((((s.taken k).focus p.src).accepted seg idx).focus s.cur) := by
  have hf : ((s.taken k).focus p.src).me.closing.find? (fun g => g.d.id == seg) = some g := by
    rw [focus_me]
    exact hg
  rw [execEntryAck, packetEvent_here _ hp hl, hb]
  change (Host.Outcome.next (onCore p.src _ (s.taken k)) : Out) = _
  rw [onCore_focus (by simp [hf])]
  simp only [hf, if_true]
  rfl

theorem entryAck_accepts {seg idx : Nat} {r : Report} {g : Seg} (hp : s.chan[k]? = some p) (hb : p.body = .ack seg idx true r) (hl : p.leaves = none)
    (hg : (s.core p.src).closing.find? (fun g => g.d.id == seg) = some g) : ∃ t, exec (.entryAck k) s = .next t ∧ t.chan = ldel s.chan k ∧
      (t.core p.src).closing = (s.core p.src).closing.map fun h => if h.d.id = seg then { h with d := h.d.setItem idx .accepted } else h := by
  refine ⟨_, (exec_entryAck k s).trans (execEntryAck_accepted hp hb hl hg), (focus_chan _ _).trans (focus_chan (s.taken k) _), ?_⟩
  rw [focus_core, core_of_cur (s := ((s.taken k).focus p.src).accepted seg idx) (focus_cur (s.taken k) p.src), State.accepted, focus_me]
  rfl

theorem exec_abortNoticeServe (k : Nat) (s : State) : exec (.abortNoticeServe k) s = execAbortNoticeServe k s := rfl

/-- The state without what segment seg of p's source staged at p's target, or has on its way there. -/
def State.discard (s : State) (p : Packet) (seg : Nat) : State :=
  { s with
    staged := s.staged.filter fun g => !(g.src == p.src && g.seg == seg && g.dst == p.dst)
    chan := s.chan.map fun q =>
      if q.src == p.src && q.dst == p.dst && (match q.body with | .entry i _ _ => i == seg | _ => false) then { q with body := .abortAck seg } else q }

theorem abortNoticeServe_discards {seg : Nat} (hp : s.chan[k]? = some p) (hb : p.body = .abort seg) (hl : p.leaves = none) (ha : s.arrival p = .fresh) :
    ∃ t, exec (.abortNoticeServe k) s = .next t ∧ t.staged = s.staged.filter (fun g => !(g.src == p.src && g.seg == seg && g.dst == p.dst)) ∧
      t.me = s.me ∧ t.dram = s.dram := by
  obtain ⟨l, f, h⟩ := answer_eq (s.discard p seg) k p (.abortAck seg)
  refine ⟨(s.discard p seg).answer k p (.abortAck seg), ?_, by rw [h]; rfl, by rw [h]; rfl, by rw [h]; rfl⟩
  rw [exec_abortNoticeServe, execAbortNoticeServe, packetEvent_here _ hp hl, hb]
  change (Host.Outcome.next (s.receive k p fun s => some (s.discard p seg, .abortAck seg)) : Out) = _
  rw [receive_fresh ha rfl]

/-! ### Drips -/

theorem exec_dripLand (k : Nat) (s : State) : exec (.dripLand k) s = execDripLand k s := rfl

theorem drip_eq (lt : LocalTime) (peer : Nat) (look : BitVec 48) (v : W64) : lt.drip peer look v =
    if lt.ins.any (fun x => x.2.peer == peer && x.2.look == look) then
      { lt with ins := lt.ins.map fun x => if x.2.peer = peer ∧ x.2.look = look then (x.1, { x.2 with b := if x.2.b.toNat < v.toNat then v else x.2.b }) else x }
    else { lt with lerr := true } := by
  simp only [LocalTime.drip, BitVec.ult, decide_eq_true_eq]

theorem dripLand_lands {ctx : BitVec 8} {look : BitVec 48} {v : W64} (hp : s.chan[k]? = some p) (hb : p.body = .drip ctx look v) (hl : p.leaves = none) :
    ∃ t, exec (.dripLand k) s = .next t ∧ t.chan = ldel s.chan k ∧
      (t.core p.dst).lt = if s.curCtx (clusterOf p.dst) = some ctx.toNat then (s.core p.dst).lt.drip p.src look v else (s.core p.dst).lt := by
  have he : exec (.dripLand k) s = .next (if s.curCtx (clusterOf p.dst) = some ctx.toNat
      then (s.taken k).setCore p.dst ((s.core p.dst).mapLT fun lt => lt.drip p.src look v) else s.taken k) := by
    rw [exec_dripLand, execDripLand, packetEvent_here _ hp hl, hb]
    rfl
  refine ⟨_, he, ?_, ?_⟩
  · split
    · unfold State.setCore
      split <;> rfl
    · rfl
  · split
    · rw [core_setCore, if_pos rfl]
      rfl
    · rfl

/-! ### The obligation -/

/-- Settles O36: each clause is a lemma about one step; a landing is decided by whether its target accepts or refuses the entry. -/
theorem entriesTravel : Obligations.EntriesTravel := by
  refine ⟨fun k s g gs hk hc hp => releaseEntries_releases hk hc hp, ?_, ?_, fun k s p seg idx r g i hp hb hl hg _ => entryAck_accepts hp hb hl hg,
    fun k s p seg hp hb hl ha => abortNoticeServe_discards hp hb hl ha, ?_, ?_⟩
  · intro k s p seg idx e hp hb hl answered accept refusal
    have accepts {spill : Option Nat} (ha : s.arrival p = .fresh) (h : s.Accepts p seg idx e spill) : accept spill := by
      obtain ⟨t, ht, hq, hs⟩ := execLandEntry_accepts hp hb hl ha h
      exact ⟨t, _, ht, hq, rfl, rfl, rfl, ⟨_, rfl⟩, hs⟩
    have refuses {r : Report} {w7 : Option W64} (ha : s.arrival p = .fresh) (h : s.Refuses p seg idx e r) (hw : ∀ v, w7 = some v → r.w7 = v) :
        refusal r.cause w7 := by
      obtain ⟨t, ht, hq, hs⟩ := execLandEntry_refuses hp hb hl ha h
      exact ⟨t, _, ht, hq, rfl, rfl, rfl, ⟨r, rfl, rfl, hw⟩, hs⟩
    refine ⟨fun b h => ?_, fun h => ?_, fun ha => ⟨?_, ?_, ?_, ?_⟩⟩
    · rw [exec_landEntry, execLandEntry_here hp hb hl, receive_again _ h]
    · rw [exec_landEntry, execLandEntry_here hp hb hl, receive_stale _ h]
    · rintro m die n rfl
      exact accepts ha ⟨s, land_launch m die n, rfl, rfl⟩
    · rintro h dat mask tag a rfl room hd
      exact ⟨fun hs => accepts ha ⟨s, land_store room hd hs, rfl, rfl⟩, fun r hs => refuses ha ⟨s, land_store_refused room hd hs, rfl, rfl⟩ (by simp)⟩
    · rintro m pkg core look rfl hbank
      have hm := msg_landsAsMail (p := p) (seg := seg) (idx := idx) (m := m) pkg look hbank
      exact ⟨fun hf hr => accepts ha (State.LandsAsMail.accepts (hf ▸ hm) hr), fun pa hf hpa room => accepts ha (State.LandsAsMail.spills (hf ▸ hm) hpa room),
        fun r hf => refuses ha (State.LandsAsMail.refuses (hf ▸ hm)) fun v hv => Option.some.inj hv⟩
    · rintro m pkg core rfl hbank
      have hm := migr_landsAsMail (p := p) (seg := seg) (idx := idx) m pkg hbank
      exact ⟨fun hf hr => accepts ha (State.LandsAsMail.accepts (hf ▸ hm) hr),
        fun r hf => refuses ha (State.LandsAsMail.refuses (hf ▸ hm)) fun v hv => Option.some.inj hv⟩
  · intro k s p seg idx r pkg core hp hb hf
    obtain ⟨t, ht, hq, hs⟩ := execLandEntry_far hp hb rfl hf
    exact ⟨t, _, _, ht, hq, rfl, rfl, rfl, hs⟩
  · intro k s p hp hn hsrc hw
    refine ⟨fun h => execRetransmitTimeout_early hp h, fun h => ⟨fun ht => ?_, fun ht => ?_, fun ht => ?_⟩⟩
    · refine ⟨_, execRetransmitTimeout_again hp hn hsrc hw h ht, rfl, rfl, rfl, fun hr => ?_, fun q hq hsame => retried_list_tries hn hq hsame⟩
      simp [hr, retried_self hn]
    · intro seg hb hrun
      refine ⟨_, (execRetransmitTimeout_lost hp hn hsrc hw h ht).trans (congrArg _ (lostPacket_abort_idle hb ?_)), ?_, ?_⟩
      · rw [focus_me]
        exact hrun
      · exact (focus_chan _ _).trans (focus_chan (s.without p) _)
      · exact (focus_staged _ _).trans (focus_staged (s.without p) _)
    · have lost := execRetransmitTimeout_lost hp hn hsrc hw h ht
      refine ⟨fun seg idx e g hb hg => lost.trans (congrArg _ (lostPacket_entry hb hg)),
        fun seg idx e hb hg => lost.trans (congrArg _ (lostPacket_entry_gone hb hg)),
        fun id d q r hb hr => lost.trans (congrArg _ (lostPacket_read hb hr)),
        fun id d q hb hr hi => lost.trans (congrArg _ (lostPacket_irrev hb hr hi)),
        fun seg hb hrun hctx => lost.trans (congrArg _ (lostPacket_abort hb hrun hctx)),
        fun seg hb => ⟨_, lost.trans (congrArg _ ?_), rfl, killContext_state _ _⟩⟩
      · rw [State.lostPacket, hb]
        rfl
  · intro k s p ctx look v hp hb hl
    obtain ⟨t, ht, hc, hlt⟩ := dripLand_lands hp hb hl
    exact ⟨t, ht, hc, by rw [hlt, drip_eq]⟩

end Sys2Proof.Machine
end

