-- ==== Sys2Proof/Proofs/EncodedFields.lean ====
section
/-! What the decoder reads back from the fields that the encoder writes (spec/04 R88 to R98): codes, operand bytes, immediates, reserved
bits. A field is stated as the encoder writes it, high bits ++ low bits, so that `simp` reads it back; call it with `-Nat.reduceAdd`, which
would rewrite the widths inside a field of three parts. -/

namespace Sys2Proof

/-! ### A code names what it encodes -/

@[simp] theorem Rnd.ofCode_code (x : Rnd) : Rnd.ofCode x.code = some x := by cases x <;> rfl
@[simp] theorem Scope.ofCode_code (x : Scope) : Scope.ofCode x.code = some x := by cases x <;> rfl
@[simp] theorem Cond.ofCode_code (x : Cond) : Cond.ofCode x.code = some x := by cases x <;> rfl
@[simp] theorem Pred.ofCode_code (x : Pred) : Pred.ofCode x.code = some x := by cases x <;> rfl
@[simp] theorem SgnOp.ofCode_code (x : SgnOp) : SgnOp.ofCode x.code = some x := by cases x <;> rfl
@[simp] theorem LogOp.ofCode_code (x : LogOp) : LogOp.ofCode x.code = some x := by cases x <;> rfl
@[simp] theorem XchOp.ofCode_code (x : XchOp) : XchOp.ofCode x.code = some x := by cases x <;> rfl
@[simp] theorem RedOp.ofCode_code (x : RedOp) : RedOp.ofCode x.code = some x := by cases x <;> rfl
@[simp] theorem MlogOp.ofCode_code (x : MlogOp) : MlogOp.ofCode x.code = some x := by cases x <;> rfl
@[simp] theorem MpopOp.ofCode_code (x : MpopOp) : MpopOp.ofCode x.code = some x := by cases x <;> rfl
@[simp] theorem Cw.ofCode_code (x : Cw) : Cw.ofCode x.code = some x := by cases x <;> rfl
@[simp] theorem Ty.ofCode_code (x : Ty) : Ty.ofCode x.code = some x := by cases x <;> rfl

/-- WAITM keeps the three low bits of a condition code, which lose nothing. -/
@[simp] theorem Cond.ofCode_code_low3 (x : Cond) : Cond.ofCode ((x.code.setWidth 3).setWidth 6) = some x := by cases x <;> rfl

/-! ### The low field of a byte -/

@[simp] theorem byte_low6 (h : BitVec 2) (x : BitVec 6) : (h ++ x : Byte).setWidth 6 = x := BitVec.setWidth_append_eq_right
@[simp] theorem byte_low5 (h : BitVec 3) (x : BitVec 5) : (h ++ x : Byte).setWidth 5 = x := BitVec.setWidth_append_eq_right
@[simp] theorem byte_low4 (h : BitVec 4) (x : BitVec 4) : (h ++ x : Byte).setWidth 4 = x := BitVec.setWidth_append_eq_right
@[simp] theorem byte_low3 (h : BitVec 5) (x : BitVec 3) : (h ++ x : Byte).setWidth 3 = x := BitVec.setWidth_append_eq_right
@[simp] theorem byte_low2 (h : BitVec 6) (x : BitVec 2) : (h ++ x : Byte).setWidth 2 = x := BitVec.setWidth_append_eq_right
@[simp] theorem byte_bit0 (h : BitVec 7) (b : Bool) : (h ++ BitVec.ofBool b : Byte)[0] = b := by decide +revert

/-! ### A byte of three fields -/

@[simp] theorem byte_low6_of_three (h m : BitVec 1) (x : BitVec 6) : @BitVec.setWidth 8 6 (h ++ (m ++ x)) = x := by decide +revert
@[simp] theorem byte_low5_of_three (h : BitVec 2) (m : BitVec 1) (x : BitVec 5) : @BitVec.setWidth 8 5 (h ++ (m ++ x)) = x := by
  decide +revert
@[simp] theorem byte_low3_of_three (h : BitVec 1) (m : BitVec 4) (x : BitVec 3) : @BitVec.setWidth 8 3 (h ++ (m ++ x)) = x := by
  decide +revert
@[simp] theorem byte_bit5_of_three (h : BitVec 2) (b : Bool) (x : BitVec 5) :
    @getElem Byte Nat Bool _ _ (h ++ (BitVec.ofBool b ++ x)) 5 (by decide) = b := by decide +revert
@[simp] theorem byte_bit7_over_six (b : Bool) (m : BitVec 1) (x : BitVec 6) :
    @getElem Byte Nat Bool _ _ (BitVec.ofBool b ++ (m ++ x)) 7 (by decide) = b := by decide +revert
@[simp] theorem byte_bit7_over_three (b : Bool) (m : BitVec 4) (x : BitVec 3) :
    @getElem Byte Nat Bool _ _ (BitVec.ofBool b ++ (m ++ x)) 7 (by decide) = b := by decide +revert

/-! ### Fields of DST -/

@[simp] theorem dst_low5 (h : BitVec 1) (x : BitVec 5) : (h ++ x : BitVec 6).setWidth 5 = x := BitVec.setWidth_append_eq_right
@[simp] theorem dst_low4 (h : BitVec 2) (x : BitVec 4) : (h ++ x : BitVec 6).setWidth 4 = x := BitVec.setWidth_append_eq_right
@[simp] theorem dst_low3 (h : BitVec 3) (x : BitVec 3) : (h ++ x : BitVec 6).setWidth 3 = x := BitVec.setWidth_append_eq_right
@[simp] theorem dst_low4_of_three (h m : BitVec 1) (x : BitVec 4) : @BitVec.setWidth 6 4 (h ++ (m ++ x)) = x := by decide +revert
@[simp] theorem dst_low3_of_three (h : BitVec 2) (m : BitVec 1) (x : BitVec 3) : @BitVec.setWidth 6 3 (h ++ (m ++ x)) = x := by
  decide +revert
@[simp] theorem dst_bit0 (h : BitVec 5) (b : Bool) : (h ++ BitVec.ofBool b : BitVec 6)[0] = b := by decide +revert
@[simp] theorem dst_bit0_of_low5 (h : BitVec 1) (x : BitVec 5) : (h ++ x : BitVec 6)[0] = x[0] := by decide +revert
@[simp] theorem dst_bit4_of_three (h : BitVec 1) (b : Bool) (x : BitVec 4) :
    @getElem (BitVec 6) Nat Bool _ _ (h ++ (BitVec.ofBool b ++ x)) 4 (by decide) = b := by decide +revert
@[simp] theorem dst_bit3_of_three (h : BitVec 2) (b : Bool) (x : BitVec 3) :
    @getElem (BitVec 6) Nat Bool _ _ (h ++ (BitVec.ofBool b ++ x)) 3 (by decide) = b := by decide +revert
@[simp] theorem dst_lt_sixteen (m : BitVec 1) (x : BitVec 3) : @BitVec.ult 6 (0#2 ++ (m ++ x)) 16#6 = true := by decide +revert
@[simp] theorem dst_le_one (b : Bool) : (0#5 ++ BitVec.ofBool b : BitVec 6).ule 1#6 = true := by decide +revert

/-! ### Operand bytes, types, rounding modes, scopes -/

@[simp] theorem ofByte_byte_s (a : Src) : SrcN.ofByte 6 (Src.byte a) = a := by
  obtain ⟨last, trap, reg⟩ := a
  decide +revert
@[simp] theorem ofByte_byte_v (a : VSrc) : SrcN.ofByte 5 (VSrc.byte a) = a := by
  obtain ⟨last, trap, reg⟩ := a
  decide +revert
@[simp] theorem ofByte_byte_m (a : MSrc) : SrcN.ofByte 3 (MSrc.byte a) = a := by
  obtain ⟨last, trap, reg⟩ := a
  decide +revert
@[simp] theorem ofByte_byte_mask (k : VMask) : VMask.ofByte k.byte = k := by
  obtain ⟨men, mz, minv, mreg⟩ := k
  decide +revert

@[simp] theorem tyOf_low5 (h : BitVec 3) (t : Ty) : tyOf (h ++ t.code) = t := by simp [tyOf]
@[simp] theorem tyOk_low5 (h : BitVec 3) (t : Ty) (p : Ty → Bool) : tyOk (h ++ t.code) p = p t := by simp [tyOk]
@[simp] theorem tyOf_low5_of_three (h : BitVec 2) (m : BitVec 1) (t : Ty) : tyOf (h ++ (m ++ t.code)) = t := by
  simp [-Nat.reduceAdd, tyOf]
@[simp] theorem tyOk_low5_of_three (h : BitVec 2) (m : BitVec 1) (t : Ty) (p : Ty → Bool) : tyOk (h ++ (m ++ t.code)) p = p t := by
  simp [-Nat.reduceAdd, tyOk]

theorem byte_high2 (h : BitVec 2) (x : BitVec 6) : (h ++ x : Byte).extractLsb' 6 2 = h := BitVec.extractLsb'_append_eq_left
theorem byte_high3 (h : BitVec 3) (x : BitVec 5) : (h ++ x : Byte).extractLsb' 5 3 = h := BitVec.extractLsb'_append_eq_left

@[simp] theorem rndOf_high2 (r : Rnd) (m : BitVec 1) (x : BitVec 5) : rndOf (r.code ++ (m ++ x)) = r := by simp [rndOf, byte_high2]
@[simp] theorem scopeOf_high3 (s : Scope) (x : BitVec 5) : scopeOf (s.code ++ x) = s := by simp [scopeOf, byte_high3]
@[simp] theorem scopeOk_high3 (s : Scope) (x : BitVec 5) : scopeOk (s.code ++ x) = true := by simp [scopeOk, byte_high3]

/-! ### Immediates and targets, byte by byte -/

theorem extractLsb'_append_byte {w : Nat} (x : BitVec w) (s l : Nat) :
    x.extractLsb' (s + 8) l ++ x.extractLsb' s 8 = x.extractLsb' s (l + 8) :=
  BitVec.extractLsb'_append_extractLsb'_eq_extractLsb' rfl

@[simp] theorem imm24_bytes (x : BitVec 24) : x.extractLsb' 16 8 ++ x.extractLsb' 8 8 ++ x.extractLsb' 0 8 = x := by
  simp only [extractLsb'_append_byte]
  exact BitVec.extractLsb'_eq_self
@[simp] theorem imm32_bytes (x : BitVec 32) :
    x.extractLsb' 24 8 ++ x.extractLsb' 16 8 ++ x.extractLsb' 8 8 ++ x.extractLsb' 0 8 = x := by
  simp only [extractLsb'_append_byte]
  exact BitVec.extractLsb'_eq_self
@[simp] theorem imm48_bytes (x : BitVec 48) : x.extractLsb' 40 8 ++ x.extractLsb' 32 8 ++ x.extractLsb' 24 8 ++ x.extractLsb' 16 8 ++
    x.extractLsb' 8 8 ++ x.extractLsb' 0 8 = x := by
  simp only [extractLsb'_append_byte]
  exact BitVec.extractLsb'_eq_self
@[simp] theorem tgtOf_target (t : BitVec 14) : tgtOf (t.setWidth 8) (0#2 ++ t.extractLsb' 8 6) = t := by
  rw [tgtOf, byte_low6, BitVec.setWidth_eq_extractLsb' (by decide)]
  exact (extractLsb'_append_byte t 0 6).trans BitVec.extractLsb'_eq_self

/-! ### Reserved bits are zero -/

theorem rzByte_of_and {k : Nat} {b m : Byte} (h : b &&& m = 0) : rzByte k b m = 0 := by simp [rzByte, atByte, h]
theorem rzDst_of_and {d m : BitVec 6} (h : d &&& m = 0) : rzDst d m = 0 := by simp [rzDst, h]
@[simp] theorem rzByte_zero (k : Nat) (m : Byte) : rzByte k 0#8 m = 0 := rzByte_of_and BitVec.zero_and
@[simp] theorem rzDst_zero (m : BitVec 6) : rzDst 0#6 m = 0 := rzDst_of_and BitVec.zero_and

theorem zero_append_and_high {n m : Nat} (h : BitVec n) (x : BitVec m) : (0#n ++ x) &&& (h ++ 0#m) = 0 := by simp [BitVec.and_append]

section
variable (k : Nat)

@[simp] theorem rzByte_over_low6 (x : BitVec 6) : rzByte k (0#2 ++ x) 0xC0#8 = 0 := rzByte_of_and (zero_append_and_high 3#2 x)
@[simp] theorem rzByte_over_low5 (x : BitVec 5) : rzByte k (0#3 ++ x) 0xE0#8 = 0 := rzByte_of_and (zero_append_and_high 7#3 x)
@[simp] theorem rzByte_over_low4 (x : BitVec 4) : rzByte k (0#4 ++ x) 0xF0#8 = 0 := rzByte_of_and (zero_append_and_high 15#4 x)
@[simp] theorem rzByte_over_low3 (x : BitVec 3) : rzByte k (0#5 ++ x) 0xF8#8 = 0 := rzByte_of_and (zero_append_and_high 31#5 x)
@[simp] theorem rzByte_over_low2 (x : BitVec 2) : rzByte k (0#6 ++ x) 0xFC#8 = 0 := rzByte_of_and (zero_append_and_high 63#6 x)
@[simp] theorem rzByte_over_bit0 (x : BitVec 1) : rzByte k (0#7 ++ x) 0xFE#8 = 0 := rzByte_of_and (zero_append_and_high 127#7 x)
@[simp] theorem rzByte_bit5 (h : BitVec 2) (x : BitVec 5) : rzByte k (h ++ (0#1 ++ x)) 0x20#8 = 0 := rzByte_of_and (by decide +revert)
@[simp] theorem rzByte_bit6 (h : BitVec 1) (x : BitVec 6) : rzByte k (h ++ (0#1 ++ x)) 0x40#8 = 0 := rzByte_of_and (by decide +revert)
@[simp] theorem rzByte_bits3to6 (h : BitVec 1) (x : BitVec 3) : rzByte k (h ++ (0#4 ++ x)) 0x78#8 = 0 := rzByte_of_and (by decide +revert)
@[simp] theorem rzByte_rne (m : BitVec 1) (x : BitVec 5) : rzByte k (Rnd.rne.code ++ (m ++ x)) 0xC0#8 = 0 :=
  rzByte_of_and (by decide +revert)
@[simp] theorem rzByte_v (a : VSrc) : rzByte k (VSrc.byte a) 0x20#8 = 0 := rzByte_bit5 k _ a.reg
@[simp] theorem rzByte_m (a : MSrc) : rzByte k (MSrc.byte a) 0x38#8 = 0 := by
  obtain ⟨last, trap, reg⟩ := a
  exact rzByte_of_and (by decide +revert)
@[simp] theorem rzByte_mask (a : VMask) : rzByte k a.byte 0xC0#8 = 0 := by
  obtain ⟨men, mz, minv, mreg⟩ := a
  exact rzByte_of_and (by decide +revert)
/-- VRED and VSCAN reserve the zeroing bit as well (spec/08 R205). -/
@[simp] theorem rzByte_mask_merging {a : VMask} (h : a.mz = false) : rzByte k a.byte 0xD0#8 = 0 := by
  obtain ⟨men, mz, minv, mreg⟩ := a
  obtain rfl : mz = false := h
  exact rzByte_of_and (by decide +revert)

/-- The byte of an operand that the instruction does not use is zero. -/
@[simp] theorem rzByte_s_unused (m : Byte) : rzByte k (Src.byte ⟨false, false, 0#6⟩) m = 0 := rzByte_zero k m
@[simp] theorem rzByte_v_unused (m : Byte) : rzByte k (VSrc.byte ⟨false, false, 0#5⟩) m = 0 := rzByte_zero k m
@[simp] theorem rzByte_m_unused (m : Byte) : rzByte k (MSrc.byte ⟨false, false, 0#3⟩) m = 0 := rzByte_zero k m

/-- A scalar operand byte that names a mask register (spec/08 R210). -/
theorem rzByte_s_below_eight {a : Src} (h : a.reg.ult 8#6 = true) : rzByte k (Src.byte a) 0x38#8 = 0 := by
  obtain ⟨last, trap, reg⟩ := a
  exact rzByte_of_and (by decide +revert)

end

@[simp] theorem rzDst_over_low5 (x : BitVec 5) : rzDst (0#1 ++ x) 0x20#6 = 0 := rzDst_of_and (zero_append_and_high 1#1 x)
@[simp] theorem rzDst_over_low4 (x : BitVec 4) : rzDst (0#2 ++ x) 0x30#6 = 0 := rzDst_of_and (zero_append_and_high 3#2 x)
@[simp] theorem rzDst_over_low3 (x : BitVec 3) : rzDst (0#3 ++ x) 0x38#6 = 0 := rzDst_of_and (zero_append_and_high 7#3 x)
@[simp] theorem rzDst_over_bit_low4 (m : BitVec 1) (x : BitVec 4) : rzDst (0#1 ++ (m ++ x)) 0x20#6 = 0 := rzDst_of_and (by decide +revert)
@[simp] theorem rzDst_low4_zero (h m : BitVec 1) : rzDst (h ++ (m ++ 0#4)) 0x0F#6 = 0 := rzDst_of_and (by decide +revert)
theorem rzDst_below_eight {d : BitVec 6} (h : d.ult 8#6 = true) : rzDst d 0x38#6 = 0 := rzDst_of_and (by decide +revert)
theorem rzDst_bit5_clear {d : BitVec 6} (h : d[5] = false) : rzDst d 0x20#6 = 0 := rzDst_of_and (by decide +revert)

/-! ### Fields that an instruction does not use -/

/-- VIOTA reads a mask register for the form PFX only (spec/08 R209). -/
theorem viota_unused {a : MSrc} {pfx : Bool} (h : pfx = true ∨ a = ⟨false, false, 0#3⟩) :
    (if pfx = true then 0#64 else rzByte 0 (MSrc.byte a) 0xFF#8) = 0#64 := by
  obtain rfl | rfl := h
  · exact if_pos rfl
  · rw [rzByte_m_unused]
    exact ite_self _

/-- VLANE writes a vector register or reads no scalar source (spec/08 R209). -/
theorem vlane_unused {d : BitVec 6} {b : Src} {set : Bool} (h : if set = true then d[5] = false else b = ⟨false, false, 0#6⟩) :
    (if set = true then rzDst d 0x20#6 else rzByte 1 (Src.byte b) 0xFF#8) = 0#64 := by
  split_ifs at h ⊢
  · exact rzDst_bit5_clear h
  · rw [h]
    exact rzByte_s_unused 1 _

/-- LTDRIP of all slots names none (spec/10 R270). -/
theorem ltdrip_unused {all : Bool} {slot : BitVec 4} (h : all = false ∨ slot = 0#4) :
    (if all = true then rzDst (0#1 ++ (BitVec.ofBool all ++ slot)) 0x0F#6 else 0#64) = 0#64 := by
  obtain rfl | rfl := h
  · rfl
  · rw [rzDst_low4_zero]
    exact ite_self _

/-! ### The tests of the checks -/

/-- Fields below a clear MEN are zero (spec/08 R194). -/
@[simp] theorem mask_test (a : VMask) :
    (a.byte[5] || a.byte &&& 0x1F#8 == 0#8) = (a.men || (a.mz == false && a.minv == false && a.mreg == 0)) := by
  obtain ⟨men, mz, minv, mreg⟩ := a
  decide +revert
@[simp] theorem low5_test_zero (n : BitVec 5) : (0#3 ++ n : Byte) &&& 0x1F#8 = 0#8 ↔ n = 0#5 := by decide +revert
@[simp] theorem low5_test_ones (n : BitVec 5) : (0#3 ++ n : Byte) &&& 0x1F#8 = 0x1F#8 ↔ n = 0x1F#5 := by decide +revert
@[simp] theorem scope_low5_test (s : Scope) : (s.code ++ 0#5 : Byte) &&& 0x1F#8 = 0#8 := by cases s <;> rfl
@[simp] theorem sgn_test_abs (op : SgnOp) : (0#6 ++ op.code : Byte) &&& 3#8 = 3#8 ↔ op = .abs := by cases op <;> decide
@[simp] theorem mlog_test_not (op : MlogOp) : (0#5 ++ op.code : Byte) &&& 7#8 = 4#8 ↔ op = .not := by cases op <;> decide
@[simp] theorem mlog_test_ones (op : MlogOp) : (0#5 ++ op.code : Byte) &&& 7#8 = 5#8 ↔ op = .ones := by cases op <;> decide
@[simp] theorem mpop_test_set (op : MpopOp) : (0#5 ++ op.code : Byte) &&& 7#8 = 2#8 ↔ op = .set := by cases op <;> decide

/-- An instruction is decoded exactly if checks 3 and 4 of spec/04 R100 find no offending bit. -/
@[simp] theorem gate_eq_instr {bad3 bad4 : W64} {i' i : Instr} : gate bad3 bad4 i' = .instr i ↔ bad3 = 0 ∧ bad4 = 0 ∧ i' = i := by
  unfold gate
  split_ifs with h3 h4
  · exact iff_of_false nofun fun h => h3 h.1
  · exact iff_of_false nofun fun h => h4 h.2.1
  · simp [not_ne_iff.mp h3, not_ne_iff.mp h4]

end Sys2Proof
end

