-- ==== Sys2Proof/Proofs/DecodeOfEncode.lean ====
section
/-! O56 and O55: the decoder gives back what the encoder wrote, row by row of the opcode map (spec/04 R103). The opcode and the tail length
name the branch of the decoder, the field lemmas read the operands back, and what is left of the checks is the well-formedness of the term. -/

namespace Sys2Proof

/-- The instruction has an encoding, and the decoder reads the instruction from it. -/
def RoundTrips (i : Instr) : Prop := ∃ r, encode i = some r ∧ decode r = .instr i

/-- The vector instructions: rows 0x6_ to 0x8_ of the opcode map. -/
def Instr.isVector : Instr → Bool
  | .vadd .. | .vaddVx .. | .vsub .. | .vsubVx .. | .vmul .. | .vmulVx .. | .vfma .. | .vfmaVx .. | .vdiv .. | .vdivVx .. | .vsqrt ..
  | .vsqrtVx .. | .vmin .. | .vminVx .. | .vmax .. | .vmaxVx .. | .vcmp .. | .vcmpVx .. | .vsgn .. | .vsgnVx .. | .vred .. | .vredVx ..
  | .vscan .. | .vscanVx .. | .vexp2 .. | .vexp2Vx .. | .vlog2 .. | .vlog2Vx .. | .vrcp .. | .vrcpVx .. | .vrsq .. | .vrsqVx ..
  | .viadd .. | .viaddAbcm .. | .viaddVx .. | .visub .. | .visubAbcm .. | .visubVx .. | .vimul .. | .vimulAbcm .. | .vimulVx ..
  | .vand .. | .vandAbcm .. | .vandVx .. | .vor .. | .vorAbcm .. | .vorVx .. | .vxor .. | .vxorAbcm .. | .vxorVx ..
  | .vshl .. | .vshlAbcm .. | .vshlVx .. | .vshr .. | .vshrAbcm .. | .vshrVx .. | .vsel .. | .vselVx .. | .vperm .. | .vpermVx ..
  | .vbcast .. | .vbcastVx .. | .vslide .. | .vslideVx .. | .vcmpr .. | .vexpd .. | .viota .. | .vlane ..
  | .vcvt .. | .vcvtVx .. | .vunpk .. | .vunpkVx .. | .vpack .. | .vpackVx .. | .vscale .. | .vscaleVx .. | .vamax .. | .vamaxVx ..
  | .bfly .. | .bflyVx .. | .twid .. | .twidVx .. | .cmul .. | .cmulVx .. | .vtrig .. | .vtrigVx .. | .vtanh .. | .vtanhVx ..
  | .mlog .. | .mpop .. => true
  | _ => false

/-- In each case `simp` evaluates the decoder at the opcode and the tail length, down to a `gate`; the field lemmas and `hwf` pass it. -/
theorem roundTrips_of_vector {i : Instr} (hvec : i.isVector = true) (hwf : i.wf = true) : RoundTrips i := by
  cases i with
  -- Row 0x6_: vector floating point
  | vadd | vsub | vmul | vfma | vdiv | vsqrt | vmin | vmax | vexp2 | vlog2 | vrcp | vrsq | vaddVx | vsubVx | vmulVx | vfmaVx | vdivVx
  | vsqrtVx | vminVx | vmaxVx | vexp2Vx | vlog2Vx | vrcpVx | vrsqVx | vcmp | vcmpVx =>
    unfold Instr.wf at hwf
    simp at hwf
    exact ⟨_, rfl, by simp [-Nat.reduceAdd, decode, decodeRow6, codeBad, hwf]⟩
  | vsgn | vsgnVx =>
    unfold Instr.wf at hwf
    simp at hwf
    obtain ⟨hk, hop | rfl⟩ := hwf
    · exact ⟨_, rfl, by simp [-Nat.reduceAdd, decode, decodeRow6, codeBad, hk, hop]⟩
    · exact ⟨_, rfl, by simp [-Nat.reduceAdd, decode, decodeRow6, codeBad, hk]⟩
  | vred | vscan =>
    unfold Instr.wf at hwf
    simp at hwf
    obtain ⟨hty, hrounds | rfl⟩ := hwf
    · exact ⟨_, rfl, by simp [-Nat.reduceAdd, decode, decodeRow6, codeBad, hty, hrounds]⟩
    · exact ⟨_, rfl, by simp [-Nat.reduceAdd, decode, decodeRow6, codeBad, hty]⟩
  | vredVx | vscanVx =>
    unfold Instr.wf at hwf
    simp at hwf
    obtain ⟨⟨hk, hmerge⟩, hrounds | rfl⟩ := hwf
    · exact ⟨_, rfl, by simp [-Nat.reduceAdd, decode, decodeRow6, codeBad, hk, rzByte_mask_merging 4 hmerge, hrounds]⟩
    · exact ⟨_, rfl, by simp [-Nat.reduceAdd, decode, decodeRow6, codeBad, hk, rzByte_mask_merging 4 hmerge]⟩
  -- Row 0x7_: vector integer, permutations, lanes
  | viadd | visub | vimul | vand | vor | vxor | vshl | vshr => exact ⟨_, rfl, by simp [-Nat.reduceAdd, decode, decodeRow7]⟩
  | viaddAbcm | visubAbcm | vimulAbcm | vandAbcm | vorAbcm | vxorAbcm | vshlAbcm | vshrAbcm | vsel | vperm | vbcast | vslide | vcmpr
  | vexpd | viaddVx | visubVx | vimulVx | vandVx | vorVx | vxorVx | vshlVx | vshrVx | vselVx | vpermVx | vbcastVx | vslideVx =>
    unfold Instr.wf at hwf
    simp at hwf
    exact ⟨_, rfl, by simp [-Nat.reduceAdd, decode, decodeRow7, codeBad, hwf]⟩
  | viota =>
    unfold Instr.wf at hwf
    simp at hwf
    obtain ⟨hty, ha⟩ := hwf
    exact ⟨_, rfl, by simp [-Nat.reduceAdd, decode, decodeRow7, codeBad, hty, viota_unused ha]⟩
  | vlane =>
    unfold Instr.wf at hwf
    simp at hwf
    obtain ⟨hk, hset⟩ := hwf
    exact ⟨_, rfl, by simp [-Nat.reduceAdd, decode, decodeRow7, codeBad, hk, vlane_unused hset]⟩
  -- Row 0x8_: conversion, complex, masks
  | vamax | vscale | cmul | vtrig | vtanh =>
    unfold Instr.wf at hwf
    simp at hwf
    exact ⟨_, rfl, by simp [-Nat.reduceAdd, decode, decodeRow8, codeBad, hwf]⟩
  | vcvt | vcvtVx | vunpk | vunpkVx | vpack | vpackVx | vscaleVx | vamaxVx | bfly | bflyVx | twid | twidVx | cmulVx | vtrigVx | vtanhVx =>
    unfold Instr.wf at hwf
    simp at hwf
    exact ⟨_, rfl, by simp [-Nat.reduceAdd, decode, decodeRow8, codeBad, orElse, hwf]⟩
  | mlog _ _ _ op =>
    unfold Instr.wf at hwf
    cases op with
    | and | or | xor | andn => exact ⟨_, rfl, by simp [-Nat.reduceAdd, decode, decodeRow8, codeBad]⟩
    | not | ones =>
      simp at hwf
      exact ⟨_, rfl, by simp [-Nat.reduceAdd, decode, decodeRow8, codeBad, hwf]⟩
  | mpop _ _ op =>
    unfold Instr.wf at hwf
    cases op with
    | set =>
      simp at hwf
      exact ⟨_, rfl, by simp [-Nat.reduceAdd, decode, decodeRow8, codeBad, rzDst_below_eight hwf]⟩
    | pop | get | first =>
      simp at hwf
      exact ⟨_, rfl, by simp [-Nat.reduceAdd, decode, decodeRow8, codeBad, rzByte_s_below_eight 0 hwf]⟩
  | _ => exact Bool.noConfusion hvec

/-- The same for the other instructions of a core. -/
theorem roundTrips_of_not_vector {i : Instr} (hcore : (i.isCore && !i.isVector) = true) (hwf : i.wf = true) : RoundTrips i := by
  cases i with
  -- Row 0x0_: control flow
  | nop | jmp | jmpr | call | callr | ret | br | bri | loop | endAct | phase | yield | migr | trap | trapReg =>
    exact ⟨_, rfl, by simp [-Nat.reduceAdd, decode, decodeRow0, codeBad]⟩
  | bst =>
    unfold Instr.wf at hwf
    simp at hwf
    exact ⟨_, rfl, by simp [-Nat.reduceAdd, decode, decodeRow0, codeBad, hwf]⟩
  -- Row 0x1_: integer arithmetic
  | add | sub | mul | mulh | div | rem | and | or | xor | shl | shr | rot | min | max | slt | sel =>
    exact ⟨_, rfl, by simp [-Nat.reduceAdd, decode, decodeRow1, codeBad]⟩
  | addAbcm | subAbcm | mulAbcm | mulhAbcm | divAbcm | remAbcm | andAbcm | orAbcm | xorAbcm | shlAbcm | shrAbcm | rotAbcm | minAbcm
  | maxAbcm | sltAbcm =>
    unfold Instr.wf at hwf
    simp at hwf
    exact ⟨_, rfl, by simp [-Nat.reduceAdd, decode, decodeRow1, codeBad, hwf]⟩
  -- Row 0x2_: immediates and bit fields
  | addi | addiAbi32 | andi | andiAbi32 | ori | oriAbi32 | xori | xoriAbi32 | muli | muliAbi32 | li | liI48 | clz | ctz | popc | abs =>
    exact ⟨_, rfl, by simp [-Nat.reduceAdd, decode, decodeRow2]⟩
  | clzAbcm | ctzAbcm | popcAbcm | absAbcm | shli | shri | bfx | bfi | wfld =>
    unfold Instr.wf at hwf
    simp at hwf
    exact ⟨_, rfl, by simp [-Nat.reduceAdd, decode, decodeRow2, codeBad, hwf]⟩
  -- Row 0x3_: scalar floating point
  | fcvt => exact ⟨_, rfl, by simp [-Nat.reduceAdd, decode, decodeRow3, codeBad]⟩
  | fadd | fsub | fmul | ffma | fdiv | fsqrt | fmin | fmax | fcmp | fclass | frnd | fsgn =>
    unfold Instr.wf at hwf
    simp at hwf
    exact ⟨_, rfl, by simp [-Nat.reduceAdd, decode, decodeRow3, codeBad, hwf]⟩
  -- Row 0x4_: memory
  | loopf => exact ⟨_, rfl, by simp [-Nat.reduceAdd, decode, decodeRow4]⟩
  | ld | st | lds | sts | aadd | amnx | aswp | acas | waitm | gath | scat | ldv | stv | gathVx | scatVx | alog =>
    unfold Instr.wf at hwf
    simp at hwf
    exact ⟨_, rfl, by simp [-Nat.reduceAdd, decode, decodeRow4, codeBad, hwf]⟩
  -- Row 0x5_: banks
  | bcfg | bqry | xch | bheap | bspan | bclr => exact ⟨_, rfl, by simp [-Nat.reduceAdd, decode, decodeRow5, codeBad]⟩
  -- Row 0x9_: streams, Pours, barriers
  | sqry | pour | bari | barx | barw | pourq | hndq => exact ⟨_, rfl, by simp [-Nat.reduceAdd, decode, decodeRow9, codeBad]⟩
  | sbind | sunb =>
    unfold Instr.wf at hwf
    simp at hwf
    exact ⟨_, rfl, by simp [-Nat.reduceAdd, decode, decodeRow9, codeBad, hwf]⟩
  -- Row 0xA_: Press and Grinder
  | pload | pswap | prun | paccReg | ptest | ptestStamp | pqry | gsort | gqry =>
    exact ⟨_, rfl, by simp [-Nat.reduceAdd, decode, decodeRowA]⟩
  | paccMem =>
    unfold Instr.wf at hwf
    simp at hwf
    exact ⟨_, rfl, by simp [-Nat.reduceAdd, decode, decodeRowA, codeBad, hwf]⟩
  -- Row 0xB_: messages and tasks
  | send | sendm | spawn | launch => exact ⟨_, rfl, by simp [-Nat.reduceAdd, decode, decodeRowB, codeBad]⟩
  | stealc =>
    unfold Instr.wf at hwf
    simp at hwf
    exact ⟨_, rfl, by simp [-Nat.reduceAdd, decode, decodeRowB, codeBad, hwf]⟩
  -- Row 0xC_: local time
  | ltcfg | ltlink | ltsend | ltclk | ltqry => exact ⟨_, rfl, by simp [-Nat.reduceAdd, decode, decodeRowC]⟩
  | ltdrip =>
    unfold Instr.wf at hwf
    simp at hwf
    exact ⟨_, rfl, by simp [-Nat.reduceAdd, decode, decodeRowC, ltdrip_unused hwf]⟩
  -- Row 0xD_: gangs and collectives
  | disb | coll | collw => exact ⟨_, rfl, by simp [-Nat.reduceAdd, decode, decodeRowD]⟩
  | gang =>
    unfold Instr.wf at hwf
    simp at hwf
    exact ⟨_, rfl, by simp [-Nat.reduceAdd, decode, decodeRowD, codeBad, hwf]⟩
  -- Row 0xE_: system
  | getc | time | cyc | eret | bkpt | trace | enrg => exact ⟨_, rfl, by simp [-Nat.reduceAdd, decode, decodeRowE, codeBad]⟩
  | setc =>
    unfold Instr.wf at hwf
    simp at hwf
    exact ⟨_, rfl, by simp [-Nat.reduceAdd, decode, decodeRowE, codeBad, hwf]⟩
  | _ => exact Bool.noConfusion hcore

/-- Settles O56: the vector instructions and the others, each by its branch of the decoder. -/
theorem decodeOfEncode : Obligations.DecodeOfEncode := by
  unfold Obligations.DecodeOfEncode
  intro i hcore hwf
  cases hvec : i.isVector with
  | true => exact roundTrips_of_vector hvec hwf
  | false => exact roundTrips_of_not_vector (by rw [hcore, hvec]; rfl) hwf

/-- Settles O55: each word is read by evaluating the decoder on it. -/
theorem encodedWords : Obligations.EncodedWords := by
  unfold Obligations.EncodedWords
  and_intros <;> decide +kernel

end Sys2Proof
end

