-- ==== Sys2Proof/Proofs/IntegerValues.lean ====
section
/-! Narrow and Widen as conversions of bit vectors, and the patterns of narrowed values (spec/05 R106). -/

namespace Sys2Proof.Machine

open Safety

/-! ### Integer types -/

theorem width_bounds (t : Ty) : 0 < t.width ∧ t.width ≤ 64 := by cases t <;> decide

/-- The sign-extended low bits of a number are the signed value of the bit vector of that width. -/
theorem sext_eq_toInt (x n : Nat) : sext x n = (BitVec.ofNat n x).toInt := by
  rw [BitVec.toInt_eq_toNat_cond, BitVec.toNat_ofNat, sext]
  push_cast
  split <;> split <;> omega

theorem narrow_eq (x : W64) (t : Ty) :
    narrow x t = if t.isSInt then (x.setWidth t.width).toInt else ((x.setWidth t.width).toNat : Int) := by
  rw [narrow, sext_eq_toInt, BitVec.ofNat_toNat, BitVec.toNat_setWidth]

/-- The 64-bit pattern of a signed value of w bits, whose sign bit moves up. -/
theorem signExtend_eq_ofNat {w : Nat} (hw : 0 < w ∧ w ≤ 64) (v : BitVec w) :
    v.signExtend 64 = BitVec.ofNat 64 (if 2 ^ (w - 1) ≤ v.toNat then v.toNat + 2 ^ 64 - 2 ^ w else v.toNat) := by
  have hv : v.toNat < 2 ^ 64 := lt_of_lt_of_le v.isLt (Nat.pow_le_pow_right (by decide) hw.2)
  have hle : 2 ^ w ≤ 2 ^ 64 := Nat.pow_le_pow_right (by decide) hw.2
  apply BitVec.eq_of_toNat_eq
  rw [BitVec.toNat_signExtend, BitVec.toNat_setWidth, Nat.mod_eq_of_lt hv, BitVec.toNat_ofNat, BitVec.msb_eq_decide]
  simp only [decide_eq_true_eq]
  have := v.isLt
  generalize 2 ^ (w - 1) = m at *
  split
  · rw [Nat.mod_eq_of_lt] <;> omega
  · rw [Nat.mod_eq_of_lt hv, Nat.add_zero]

theorem widen_eq (r : Int) (t : Ty) :
    widen r t = if t.isSInt then (BitVec.ofInt t.width r).signExtend 64 else (BitVec.ofInt t.width r).setWidth 64 := by
  have hu : (r % (2 ^ t.width : Int)).toNat = (BitVec.ofInt t.width r).toNat := by rw [BitVec.toNat_ofInt]; push_cast; rfl
  unfold widen
  rw [hu]
  cases t.isSInt with
  | true => simp only [Bool.true_and, decide_eq_true_eq, if_true, signExtend_eq_ofNat (width_bounds t)]; split <;> rfl
  | false => exact BitVec.ofNat_toNat ..

/-- Settles O1: both are the bit vector of the type's width, read and extended by the type's sign. -/
theorem integerTypes : Obligations.IntegerTypes := by
  unfold Obligations.IntegerTypes
  exact fun t _ => ⟨fun x => narrow_eq x t, fun r => widen_eq r t⟩

/-! ### Patterns of narrowed values (spec/05 R119) -/

theorem narrow_emod (x : W64) (t : Ty) : narrow x t % (2 ^ t.width : Int) = ((x.toNat % 2 ^ t.width : Nat) : Int) := by
  unfold narrow sext
  split
  · split <;> simp
  · simp

theorem pat_narrow (t : Ty) (x : W64) : pat t (narrow x t) = patBits x t := by
  rw [pat, narrow_emod, Int.toNat_natCast, patBits]

theorem count_narrow (t : Ty) (y : W64) : count t (narrow y t) = shiftOf y t := by
  rw [count, pat_narrow, shiftOf]

/-- The two results of a comparison, which fit in every type. -/
theorem widen_one (t : Ty) : widen 1 t = 1 := by cases t <;> decide
theorem widen_zero (t : Ty) : widen 0 t = 0 := by cases t <;> decide

/-! ### 64-bit registers -/

theorem narrow_i64 (x : W64) : narrow x .i64 = x.toInt := by simp [narrow_eq, Ty.isSInt, Ty.width]
theorem widen_i64 (r : Int) : widen r .i64 = BitVec.ofInt 64 r := by simp [widen_eq, Ty.isSInt, Ty.width]
theorem patBits_i64 (x : W64) : patBits x .i64 = x.toNat := Nat.mod_eq_of_lt x.isLt
theorem shiftOf_i64 (y : W64) : shiftOf y .i64 = y.toNat % 64 := by rw [shiftOf, patBits_i64]; rfl

end Sys2Proof.Machine
end

