-- ==== Sys2Proof/Proofs/IntegerRow.lean ====
section
/-! Row 0x1_ of the scalar unit: the results of R119 and R120 on narrowed operands, and the same row on words (spec/05 R118 to R120). -/

namespace Sys2Proof.Machine

open Safety

/-! ### The results as functions on integers -/

/-- A function on integers, as the scalar unit applies it to registers: narrowed operands, a widened result. -/
def onType (r : Ty → Int → Int → Int) (t : Ty) (x y : W64) : W64 := widen (r t (narrow x t) (narrow y t)) t

theorem aluAnd_eq : aluAnd = onType fun t x y => ((pat t x &&& pat t y : Nat) : Int) := by
  funext t x y; rw [aluAnd, onType, pat_narrow, pat_narrow]

theorem aluOr_eq : aluOr = onType fun t x y => ((pat t x ||| pat t y : Nat) : Int) := by
  funext t x y; rw [aluOr, onType, pat_narrow, pat_narrow]

theorem aluXor_eq : aluXor = onType fun t x y => ((pat t x ^^^ pat t y : Nat) : Int) := by
  funext t x y; rw [aluXor, onType, pat_narrow, pat_narrow]

theorem aluShl_eq : aluShl = onType fun t x y => ((pat t x * 2 ^ count t y : Nat) : Int) := by
  funext t x y; rw [aluShl, onType, pat_narrow, count_narrow]

theorem aluShr_eq : aluShr = onType fun t x y => x / 2 ^ count t y := by
  funext t x y; rw [aluShr, onType, count_narrow]

theorem aluRot_eq : aluRot = onType fun t x y =>
    ((pat t x * 2 ^ count t y % 2 ^ t.width + pat t x / 2 ^ (t.width - count t y) : Nat) : Int) := by
  funext t x y; rw [aluRot, onType, pat_narrow, count_narrow, rotl]

theorem aluMin_eq : aluMin = onType fun _ x y => if x ≤ y then x else y := by
  funext t x y; rw [aluMin, onType, min_def]

theorem aluMax_eq : aluMax = onType fun _ x y => if x ≤ y then y else x := by
  funext t x y; rw [aluMax, onType, max_def]

theorem aluSlt_eq : aluSlt = onType fun _ x y => if x < y then 1 else 0 := by
  funext t x y; rw [aluSlt, onType, apply_ite (widen · t), widen_one, widen_zero]

theorem aluDivW_eq : aluDivW = onType quotient := rfl

theorem aluRemW_eq : aluRemW = onType fun _ => remainder := by
  funext t x y; rw [aluRemW, onType, intRem, remainder, Int.tmod_def]

/-! ### Row 0x1_ at a type -/

/-- The AB form and the ABCM form of an instruction act as f at 64 bits and at the type. -/
def ActsAs (ab : BitVec 6 → Src → Src → Instr) (abcm : BitVec 6 → Src → Src → Ty → Instr) (f : Ty → W64 → W64 → W64) : Prop :=
  (∀ t d a b s, exec (abcm d a b t) s = coreOp s (op2 d a b (f t))) ∧ ∀ d a b s, exec (ab d a b) s = coreOp s (op2 d a b (f .i64))

theorem aluRow_acts {row : AluRow} (h : row ∈ aluRows) : ActsAs row.ab row.abcm (onType row.r) := by
  simp only [aluRows, List.mem_cons, List.not_mem_nil, or_false] at h
  rcases h with rfl | rfl | rfl | rfl | rfl | rfl | rfl | rfl | rfl | rfl | rfl | rfl | rfl
  all_goals
    simp only [← aluAnd_eq, ← aluOr_eq, ← aluXor_eq, ← aluShl_eq, ← aluShr_eq, ← aluRot_eq, ← aluMin_eq, ← aluMax_eq, ← aluSlt_eq]
    exact ⟨fun _ _ _ _ _ => rfl, fun _ _ _ _ => rfl⟩

/-- DIV and REM deliver later (R120); on 64 bits within 36 clk. -/
theorem divRow_acts {row : AluRow} (h : row ∈ divRows) (d : BitVec 6) (a b : Src) (s : State) :
    (∀ t, exec (row.abcm d a b t) s = coreOp s (longOp2 d a b (onType row.r t) (t.width / 2 + 4))) ∧
      exec (row.ab d a b) s = coreOp s (longOp2 d a b (onType row.r .i64) 36) := by
  simp only [divRows, List.mem_cons, List.not_mem_nil, or_false] at h
  rcases h with rfl | rfl
  · exact ⟨fun _ => rfl, rfl⟩
  · dsimp only
    rw [← aluRemW_eq]
    exact ⟨fun _ => rfl, rfl⟩

theorem done_longOp2 {d : BitVec 6} {a b : Src} {f : W64 → W64 → W64} {n : Nat} {s : State} {x y : W64} {c c' : Core}
    (h : Reads2 d a b s.me x y c) (hw : produce d (f x y) n c = .ok c') : coreOp s (longOp2 d a b f n) = done s c' := by
  obtain ⟨hd, c1, c2, ha, hb, rfl⟩ := h
  exact coreOp_ok (by simp [longOp2, hd, ha, hb, hw, bind, Except.bind])

theorem done_op3 {d : BitVec 6} {a b e : Src} {f : W64 → W64 → W64 → W64} {s : State} {x y z : W64} {c c' : Core}
    (h : Reads3 d a b e s.me x y z c) (hw : writeS d (f x y z) c = .ok c') : coreOp s (op3 d a b e f) = done s c' := by
  obtain ⟨hd, c1, c2, c3, ha, hb, he, rfl⟩ := h
  exact coreOp_ok (op3_ok hd ha hb he hw)

/-! ### Row 0x1_ on words -/

theorem aluAdd_word : aluAdd .i64 = fun x y => x + y := by
  funext x y
  rw [aluAdd, narrow_i64, narrow_i64, widen_i64, BitVec.ofInt_add, BitVec.ofInt_toInt, BitVec.ofInt_toInt]

theorem aluMul_word : aluMul .i64 = fun x y => x * y := by
  funext x y
  rw [aluMul, narrow_i64, narrow_i64, widen_i64, BitVec.ofInt_mul, BitVec.ofInt_toInt, BitVec.ofInt_toInt]

theorem aluSub_word : aluSub .i64 = fun x y => x - y := by
  funext x y
  rw [aluSub, narrow_i64, narrow_i64, widen_i64, Int.sub_eq_add_neg, BitVec.ofInt_add, BitVec.ofInt_neg, BitVec.ofInt_toInt,
    BitVec.ofInt_toInt, BitVec.sub_eq_add_neg]

/-- The high half of a number of 128 bits. -/
theorem extractLsb'_ofInt_high (z : Int) : (BitVec.ofInt 128 z).extractLsb' 64 64 = BitVec.ofInt 64 (z / 2 ^ 64) := by
  apply BitVec.eq_of_toNat_eq
  rw [BitVec.extractLsb'_toNat, BitVec.toNat_ofInt, BitVec.toNat_ofInt, Nat.shiftRight_eq_div_pow]
  omega

theorem aluMulh_word : aluMulh .i64 = fun x y => (x.signExtend 128 * y.signExtend 128).extractLsb' 64 64 := by
  funext x y
  rw [aluMulh, narrow_i64, narrow_i64, widen_i64, BitVec.signExtend, BitVec.signExtend, ← BitVec.ofInt_mul, extractLsb'_ofInt_high]
  rfl

theorem widen_natCast_i64 (n : Nat) : widen n .i64 = BitVec.ofNat 64 n := by rw [widen_i64, BitVec.ofInt_natCast]

theorem aluAnd_word : aluAnd .i64 = fun x y => x &&& y := by
  funext x y
  rw [aluAnd, patBits_i64, patBits_i64, widen_natCast_i64, ← BitVec.toNat_and, BitVec.ofNat_toNat, BitVec.setWidth_eq]

theorem aluOr_word : aluOr .i64 = fun x y => x ||| y := by
  funext x y
  rw [aluOr, patBits_i64, patBits_i64, widen_natCast_i64, ← BitVec.toNat_or, BitVec.ofNat_toNat, BitVec.setWidth_eq]

theorem aluXor_word : aluXor .i64 = fun x y => x ^^^ y := by
  funext x y
  rw [aluXor, patBits_i64, patBits_i64, widen_natCast_i64, ← BitVec.toNat_xor, BitVec.ofNat_toNat, BitVec.setWidth_eq]

theorem aluShl_word : aluShl .i64 = fun (x y : W64) => x <<< (y.toNat % 64) := by
  funext x y
  rw [aluShl, patBits_i64, shiftOf_i64, widen_natCast_i64]
  exact BitVec.eq_of_toNat_eq (by rw [BitVec.toNat_ofNat, BitVec.toNat_shiftLeft, Nat.shiftLeft_eq])

theorem aluShr_word : aluShr .i64 = fun x y => x.sshiftRight (y.toNat % 64) := by
  funext x y
  rw [aluShr, narrow_i64, shiftOf_i64, widen_i64, BitVec.sshiftRight, Int.shiftRight_eq_div_pow]
  push_cast
  rfl

theorem aluRot_word : aluRot .i64 = fun x y => x.rotateLeft (y.toNat % 64) := by
  funext x y
  rw [aluRot, patBits_i64, shiftOf_i64, widen_natCast_i64, rotl]
  have hk : y.toNat % 64 < 64 := Nat.mod_lt _ (by decide)
  generalize y.toNat % 64 = k at hk
  have h64 : 2 ^ 64 = 2 ^ (64 - k) * 2 ^ k := by rw [← Nat.pow_add]; congr 1; omega
  have hlow : x.toNat / 2 ^ (64 - k) < 2 ^ k := by
    rw [Nat.div_lt_iff_lt_mul (by positivity), Nat.mul_comm, ← h64]; exact x.isLt
  have hhigh : x.toNat * 2 ^ k % 2 ^ 64 = (x.toNat % 2 ^ (64 - k)) <<< k := by rw [h64, Nat.mul_mod_mul_right, Nat.shiftLeft_eq]
  have hor := Nat.shiftLeft_add_eq_or_of_lt hlow (x.toNat % 2 ^ (64 - k))
  rw [← hhigh] at hor
  apply BitVec.eq_of_toNat_eq
  rw [BitVec.toNat_rotateLeft, Nat.mod_eq_of_lt hk, Nat.shiftLeft_eq, Nat.shiftRight_eq_div_pow, ← hor, BitVec.toNat_ofNat]
  exact Nat.mod_eq_of_lt (hor ▸ Nat.or_lt_two_pow (Nat.mod_lt _ (by positivity)) ((Nat.div_le_self ..).trans_lt x.isLt))

theorem aluMin_word : aluMin .i64 = fun x y => if x.slt y then x else y := by
  funext x y
  rw [aluMin, narrow_i64, narrow_i64, widen_i64]
  simp only [BitVec.slt_iff_toInt_lt]
  split
  next h => rw [min_eq_left h.le, BitVec.ofInt_toInt]
  next h => rw [min_eq_right (not_lt.1 h), BitVec.ofInt_toInt]

theorem aluMax_word : aluMax .i64 = fun x y => if x.slt y then y else x := by
  funext x y
  rw [aluMax, narrow_i64, narrow_i64, widen_i64]
  simp only [BitVec.slt_iff_toInt_lt]
  split
  next h => rw [max_eq_right h.le, BitVec.ofInt_toInt]
  next h => rw [max_eq_left (not_lt.1 h), BitVec.ofInt_toInt]

theorem aluSlt_word : aluSlt .i64 = fun x y => if x.slt y then 1 else 0 := by
  funext x y
  simp only [aluSlt, narrow_i64, BitVec.slt_iff_toInt_lt]

theorem wordRow_acts {row : (BitVec 6 → Src → Src → Instr) × (W64 → W64 → W64)} (h : row ∈ wordRows) (d : BitVec 6) (a b : Src) (s : State) :
    exec (row.1 d a b) s = coreOp s (op2 d a b row.2) := by
  simp only [wordRows, List.mem_cons, List.not_mem_nil, or_false] at h
  rcases h with rfl | rfl | rfl | rfl | rfl | rfl | rfl | rfl | rfl | rfl | rfl | rfl | rfl
  all_goals
    simp only [← aluAdd_word, ← aluSub_word, ← aluMul_word, ← aluMulh_word, ← aluAnd_word, ← aluOr_word, ← aluXor_word, ← aluShl_word,
      ← aluShr_word, ← aluRot_word, ← aluMin_word, ← aluMax_word, ← aluSlt_word]
    rfl

/-- Settles O2: each row is a shape with its function, at a type and on words. -/
theorem integerRow : Obligations.IntegerRow := by
  unfold Obligations.IntegerRow
  refine ⟨⟨?_, ?_, ?_⟩, ?_⟩
  · intro row hrow t d a b s x y c c' _ h hw
    obtain ⟨habcm, hab⟩ := aluRow_acts hrow
    exact ⟨(habcm t d a b s).trans (done_op2 h hw), by rintro rfl; exact (hab d a b s).trans (done_op2 h hw)⟩
  · intro row hrow t d a b s x y c c' _ h hw
    obtain ⟨habcm, hab⟩ := divRow_acts hrow d a b s
    exact ⟨(habcm t).trans (done_longOp2 h hw), by rintro rfl; exact hab.trans (done_longOp2 h hw)⟩
  · intro d a b e s x y z c c' h hw
    refine done_op3 h (f := fun x y z => if x != 0 then y else z) ?_
    simpa only [bne_iff_ne, ne_eq, ite_not] using hw
  · intro row hrow d a b s x y c c' h hw
    exact (wordRow_acts hrow d a b s).trans (done_op2 h hw)

end Sys2Proof.Machine
end

