-- ==== Sys2Proof/Proofs/IntegerImmediates.lean ====
section
/-! Immediates, shifts by a constant and LI (spec/05 R121 to R123). -/

namespace Sys2Proof.Machine

open Safety

theorem done_op0 {d : BitVec 6} {x : W64} {s : State} {c' : Core} (hd : destS d s.me = .ok ()) (hw : writeS d x s.me = .ok c') :
    coreOp s (op0 d x) = done s c' :=
  coreOp_ok (by simp [op0, hd, hw, bind, Except.bind])

theorem immRow_acts {row : ImmRow} (h : row ∈ immRows) (d : BitVec 6) (a : Src) (s : State) :
    (∀ m, exec (row.ai24 d a m) s = coreOp s (op1 d a fun x => row.r x (literal row.sext m))) ∧
      ∀ m, exec (row.abi32 d a m) s = coreOp s (op1 d a fun x => row.r x (literal row.sext m)) := by
  simp only [immRows, List.mem_cons, List.not_mem_nil, or_false] at h
  rcases h with rfl | rfl | rfl | rfl | rfl
  all_goals exact ⟨fun _ => rfl, fun _ => rfl⟩

/-- A constant shorter than the width is its own shift count. -/
theorem shiftOf_constant {t : Ty} {k : BitVec 6} (hk : k.toNat < t.width) : shiftOf (k.setWidth 64) t = k.toNat := by
  have hlt : t.width < 2 ^ t.width := Nat.lt_two_pow_self
  rw [shiftOf, patBits, BitVec.toNat_setWidth_of_le (by decide), Nat.mod_eq_of_lt (hk.trans hlt), Nat.mod_eq_of_lt hk]

/-- Only the low bits of a result count. -/
theorem widen_congr {t : Ty} {r r' : Int} (h : r % 2 ^ t.width = r' % 2 ^ t.width) : widen r t = widen r' t := by
  simp only [widen, h]

theorem aluShl_constant {t : Ty} {k : BitVec 6} (hk : k.toNat < t.width) (x : W64) :
    aluShl t x (k.setWidth 64) = widen (narrow x t * 2 ^ k.toNat) t := by
  rw [aluShl, shiftOf_constant hk]
  refine widen_congr ?_
  push_cast
  rw [Int.mul_emod, Int.mul_emod (narrow x t), narrow_emod, patBits]
  push_cast
  rw [Int.emod_emod]

theorem aluShr_constant {t : Ty} {k : BitVec 6} (hk : k.toNat < t.width) (x : W64) :
    aluShr t x (k.setWidth 64) = widen (narrow x t / 2 ^ k.toNat) t := by
  rw [aluShr, shiftOf_constant hk]

/-- Settles O3: each form is a shape with its function. -/
theorem integerImmediates : Obligations.IntegerImmediates := by
  unfold Obligations.IntegerImmediates
  refine ⟨?_, ?_, ?_⟩
  · intro row hrow d a s x c h
    obtain ⟨hai24, habi32⟩ := immRow_acts hrow d a s
    exact ⟨fun m c' hw => (hai24 m).trans (done_op1 h hw), fun m c' hw => (habi32 m).trans (done_op1 h hw)⟩
  · intro t k d a s x c c' _ hk h
    refine ⟨fun hw => done_op1 h ?_, fun hw => done_op1 h ?_⟩
    · rw [aluShl_constant hk]; exact hw
    · rw [aluShr_constant hk]; exact hw
  · exact fun d s c' hd => ⟨fun m hw => done_op0 hd hw, fun m hw => done_op0 hd hw⟩

end Sys2Proof.Machine
end

