-- ==== Sys2Proof/Proofs/BitInstructions.lean ====
section
/-! Bit counts, ABS, bit fields and fields of work identifiers (spec/05 R124 to R126). -/

namespace Sys2Proof.Machine

open Safety

/-! ### Bit counts (spec/05 R124) -/

theorem clzNat_spec {w p : Nat} (hp : p < 2 ^ w) :
    clzNat w p ≤ w ∧ p < 2 ^ (w - clzNat w p) ∧ (clzNat w p < w → 2 ^ (w - clzNat w p - 1) ≤ p) := by
  unfold clzNat
  split
  next h0 => subst h0; simp
  next h0 =>
    have hlog : log2 p < w := (Nat.log2_lt h0).2 hp
    have htop : w - (w - 1 - log2 p) = log2 p + 1 := by omega
    rw [htop]
    exact ⟨by omega, Nat.lt_log2_self, fun _ => Nat.log2_self_le h0⟩

/-- The bits from k on that ctzGo counts are zero, and the one after them is set where it stands below the width. -/
theorem ctzGo_spec (p : Nat) : ∀ w k, ctzGo p w k ≤ w ∧ (∀ j < ctzGo p w k, p.testBit (k + j) = false) ∧
    (ctzGo p w k < w → p.testBit (k + ctzGo p w k) = true)
  | 0, k => by simp [ctzGo]
  | w + 1, k => by
    obtain ⟨hle, hzero, hset⟩ := ctzGo_spec p w (k + 1)
    unfold ctzGo
    split
    next h => simp [h]
    next h =>
      refine ⟨by omega, fun j hj => ?_, fun hlt => ?_⟩
      · cases j with
        | zero => simpa using h
        | succ j => have := hzero j (by omega); rwa [Nat.add_right_comm] at this
      · have := hset (by omega); rwa [Nat.add_assoc] at this

theorem mod_two_pow_eq_zero {p n : Nat} (h : ∀ j < n, p.testBit j = false) : p % 2 ^ n = 0 := by
  refine Nat.eq_of_testBit_eq fun j => ?_
  rw [Nat.testBit_mod_two_pow, Nat.zero_testBit]
  by_cases hj : j < n
  · rw [h j hj, Bool.and_false]
  · rw [decide_eq_false hj, Bool.false_and]

theorem popcNat_eq (p : Nat) : ∀ w, popcNat p w = ((List.range w).filter fun i => p.testBit i).length
  | 0 => rfl
  | w + 1 => by
    rw [popcNat, popcNat_eq p w, List.range_succ, List.filter_append, List.length_append]
    congr 1
    cases h : p.testBit w <;> simp [h]

/-- The number that an instruction counts, on the pattern of a register. -/
theorem countRow_acts {row : CountRow} (h : row ∈ countRows) (x : W64) (t : Ty) : ∃ (n : Nat) (f : Ty → W64 → W64),
    row.is t.width (x.toNat % 2 ^ t.width) n ∧ f t x = BitVec.ofNat 64 n ∧
      ∀ d a s, exec (row.abcm d a t) s = coreOp s (op1 d a (f t)) ∧ exec (row.ab d a) s = coreOp s (op1 d a (f .i64)) := by
  simp only [countRows, List.mem_cons, List.not_mem_nil, or_false] at h
  rcases h with rfl | rfl | rfl
  · exact ⟨_, aluClz, clzNat_spec (Nat.mod_lt _ (by positivity)), rfl, fun _ _ _ => ⟨rfl, rfl⟩⟩
  · obtain ⟨hle, hzero, hset⟩ := ctzGo_spec (patBits x t) t.width 0
    simp only [Nat.zero_add] at hzero hset
    exact ⟨_, aluCtz, ⟨hle, mod_two_pow_eq_zero hzero, hset⟩, rfl, fun _ _ _ => ⟨rfl, rfl⟩⟩
  · exact ⟨_, aluPopc, popcNat_eq _ _, rfl, fun _ _ _ => ⟨rfl, rfl⟩⟩

theorem aluAbs_eq (t : Ty) (x : W64) : aluAbs t x = widen (if narrow x t < 0 then -narrow x t else narrow x t) t := by
  rw [aluAbs, Int.natCast_natAbs]
  congr 1
  split
  next h => exact abs_of_neg h
  next h => exact abs_of_nonneg (not_lt.1 h)

/-! ### Fields (spec/05 R125) -/

theorem extract_eq (x : W64) (pos n : Nat) (uns : Bool) :
    extract x pos n uns = if uns then (x.extractLsb' pos n).setWidth 64 else (x.extractLsb' pos n).signExtend 64 := by
  simp only [extract]
  rw [← BitVec.extractLsb'_toNat, sext_eq_toInt, BitVec.ofNat_toNat, BitVec.setWidth_eq]
  split
  · exact BitVec.ofNat_toNat ..
  · rfl

/-- A number as the bits below pos, the n bits at pos and those above. -/
theorem eq_fields (x pos n : Nat) : x = 2 ^ pos * (2 ^ n * (x >>> (pos + n)) + (x >>> pos) % 2 ^ n) + x % 2 ^ pos := by
  rw [Nat.shiftRight_add, Nat.shiftRight_eq_div_pow (x >>> pos), Nat.div_add_mod, Nat.shiftRight_eq_div_pow, Nat.div_add_mod]

theorem getLsbD_insertField (x f : W64) (pos n : Nat) {j : Nat} (hj : j < 64) : (insertField x f pos n).getLsbD j =
    if pos ≤ j ∧ j < pos + n then f.getLsbD (j - pos) else x.getLsbD j := by
  have hx := eq_fields x.toNat pos n
  have hlow : x.toNat % 2 ^ pos < 2 ^ pos := Nat.mod_lt _ (by positivity)
  have hval : x.toNat - ((x.toNat >>> pos) % 2 ^ n) * 2 ^ pos + f.toNat % 2 ^ n * 2 ^ pos =
      2 ^ pos * (2 ^ n * (x.toNat >>> (pos + n)) + f.toNat % 2 ^ n) + x.toNat % 2 ^ pos := by
    rw [Nat.mul_add] at hx ⊢
    rw [Nat.mul_comm _ (2 ^ pos), Nat.mul_comm _ (2 ^ pos)]
    omega
  have hfield : f.toNat % 2 ^ n < 2 ^ n := Nat.mod_lt _ (by positivity)
  rw [insertField, hval, ofNat, BitVec.getLsbD_ofNat, decide_eq_true hj, Bool.true_and, Nat.testBit_two_pow_mul_add _ hlow,
    Nat.testBit_two_pow_mul_add _ hfield, ← BitVec.testBit_toNat, ← BitVec.testBit_toNat, Nat.testBit_mod_two_pow,
    Nat.testBit_mod_two_pow, Nat.testBit_shiftRight]
  by_cases hpos : j < pos
  · simp [hpos, Nat.not_le.2 hpos]
  · by_cases hend : j < pos + n
    · have hin : j - pos < n := by omega
      simp [hpos, Nat.not_lt.1 hpos, hend, hin]
    · have hout : ¬ j - pos < n := by omega
      have habove : pos + n + (j - pos - n) = j := by omega
      simp [hpos, hend, hout, habove]

theorem insertField_eq {x f r : W64} {pos lenM1 : Nat} (h : ∀ j : Nat, j < 64 → r.getLsbD j =
    if pos ≤ j ∧ j ≤ pos + lenM1 then f.getLsbD (j - pos) else x.getLsbD j) : insertField x f pos (lenM1 + 1) = r := by
  apply BitVec.eq_of_getLsbD_eq
  intro j hj
  rw [getLsbD_insertField x f _ _ hj, h j hj, ← Nat.add_assoc]
  simp only [Nat.lt_succ_iff]

/-! ### Work identifiers (spec/05 R126) -/

theorem level_eq {s : State} {l : Launch} (h : s.launch? s.me.act.ctx s.me.act.lnch = some l) :
    s.level = fun j => bits (l.record.toList.getD 0 0) (6 * j + 5) (6 * j) := by
  funext j
  rw [State.level, h]

/-- Settles O4: each instruction is a shape with its function. -/
theorem bitInstructions : Obligations.BitInstructions := by
  unfold Obligations.BitInstructions
  refine ⟨⟨?_, ?_⟩, ⟨?_, ?_⟩, ?_⟩
  · intro row hrow t d a s x c _ h
    obtain ⟨n, f, hn, hf, hexec⟩ := countRow_acts hrow x t
    obtain ⟨habcm, hab⟩ := hexec d a s
    refine ⟨n, hn, fun c' hw => ?_⟩
    rw [← hf] at hw
    exact ⟨habcm.trans (done_op1 h hw), by rintro rfl; exact hab.trans (done_op1 h hw)⟩
  · intro t d a s x c c' _ h hw
    rw [← aluAbs_eq] at hw
    exact ⟨done_op1 h hw, by rintro rfl; exact done_op1 h hw⟩
  · intro d a pos lenM1 uns s x c c' _ h hw
    rw [← extract_eq] at hw
    exact done_op1 (f := fun x => extract x pos.toNat (lenM1.toNat + 1) uns) h hw
  · intro d a b pos lenM1 s x f r c c' _ h hr hw
    rw [← insertField_eq hr] at hw
    exact done_op2 (f := fun x f => insertField x f pos.toNat (lenM1.toNat + 1)) h hw
  · intro d a level s x c c' l _ hl h hw
    refine done_op1 (f := fun x => ofNat ((x.toNat >>> s.levelAt level.toNat) % 2 ^ s.level level.toNat)) h ?_
    rw [State.levelAt, level_eq hl, Nat.shiftRight_eq_div_pow]
    exact hw

end Sys2Proof.Machine
end

