-- ==== Sys2Proof/Proofs/OwnFrames.lean ====
section
/-! What claims, writes to own memory and writes of a register leave as it was: the code, the program counter, the control words, the
closed segments (spec/01 R12, R13, spec/03 R63, spec/07 R162, spec/14 R308). -/

namespace Sys2Proof.Machine

variable {c c' c'' : Core}

/-! ### Claims -/

/-- Only bytes, owners, poison and the metadata of banks differ. -/
def Claimed (c c' : Core) : Prop := ∃ mem owner poison banks deque dqTop mailbox mbHead lt, c' =
  { c with mem := mem, owner := owner, poison := poison, banks := banks, deque := deque, dqTop := dqTop, mailbox := mailbox
           mbHead := mbHead, lt := lt }

theorem Claimed.refl (c : Core) : Claimed c c := ⟨_, _, _, _, _, _, _, _, _, rfl⟩

theorem Claimed.trans (h : Claimed c c') (h' : Claimed c' c'') : Claimed c c'' := by
  obtain ⟨_, _, _, _, _, _, _, _, _, rfl⟩ := h
  obtain ⟨_, _, _, _, _, _, _, _, _, rfl⟩ := h'
  exact ⟨_, _, _, _, _, _, _, _, _, rfl⟩

theorem claimBank_claimed (c : Core) (x : BitVec 8) (b : Nat) : Claimed c (c.claimBank x b) := by
  obtain ⟨_, _, _, _, _, _, h⟩ := claimBank_eq c x b
  exact ⟨_, _, _, _, _, _, _, _, _, h⟩

theorem claim_claimed (c : Core) (x : BitVec 8) (n : Nat) : Claimed c (c.claim x n) := by
  unfold Core.claim
  split
  · exact .refl c
  · exact ⟨_, _, _, _, _, _, _, _, _, rfl⟩

theorem claimAll_claimed (c : Core) (x : BitVec 8) (a n : Nat) : Claimed c (c.claimAll x a n) :=
  foldl_keeps (Claimed c) (fun e _ h => (h.trans (claimBank_claimed e _ _)).trans (claim_claimed _ _ _)) _ (.refl c)

/-! ### Writes -/

/-- Only registers, streams, the open segment, own memory and the order of writes differ. -/
def Stored (c c' : Core) : Prop := ∃ e, Claimed c e ∧ ∃ regs streams seg nord,
  c' = { e with regs := regs, streams := streams, seg := seg, nord := nord }

theorem Stored.trans (h : Stored c c') (h' : Stored c' c'') : Stored c c'' := by
  obtain ⟨_, ⟨_, _, _, _, _, _, _, _, _, rfl⟩, _, _, _, _, rfl⟩ := h
  obtain ⟨_, ⟨_, _, _, _, _, _, _, _, _, rfl⟩, _, _, _, _, rfl⟩ := h'
  exact ⟨_, ⟨_, _, _, _, _, _, _, _, _, rfl⟩, _, _, _, _, rfl⟩

theorem Claimed.stored (h : Claimed c c') : Stored c c' := ⟨c', h, _, _, _, _, rfl⟩

theorem Stored.refl (c : Core) : Stored c c := (Claimed.refl c).stored

theorem setS_stored (c : Core) (d : BitVec 6) (x : Cell 64) : Stored c (c.setS d x) := by
  unfold Core.setS
  split
  · exact .refl c
  · exact ⟨c, .refl c, _, _, _, _, rfl⟩

theorem logLine_stored (c : Core) (n : Nat) : Stored c (c.logLine n) := by
  unfold Core.logLine
  split
  · exact .refl c
  · exact ⟨c, .refl c, _, _, _, _, rfl⟩

theorem poke_stored (c : Core) (a : Nat) (bs : List Byte) : Stored c (c.poke a bs) :=
  Claimed.stored ⟨_, _, _, _, _, _, _, _, _, rfl⟩

theorem ownWrite_stored (c : Core) (a : Nat) (bs : List Byte) : Stored c (c.ownWrite a bs) :=
  (foldl_keeps (Stored c) (fun _ n h => h.trans (logLine_stored _ n)) _ (claimAll_claimed c _ a _).stored).trans (poke_stored _ a bs)

theorem outStore_stored (c : Core) (h : Home) (d : Line) (m : W64) (tag : BitVec 4) (a : W64) : Stored c (c.outStore h d m tag a) := by
  unfold Core.outStore
  split <;> exact ⟨c, .refl c, _, _, _, _, rfl⟩

theorem setStream_stored (c : Core) (t : Stream) : Stored c (c.setStream t) := ⟨c, .refl c, _, _, _, _, rfl⟩

theorem pushStream_stored (c : Core) (t : Stream) (x : Line) : OkAll (Stored c) (pushStream c t x) := by
  have hnext := setStream_stored c { t with pos := t.pos + 1 }
  unfold pushStream
  split
  · trivial
  · split
    · trivial
    · refine .seq fun _ => .seq fun _ => ?_
      split
      · exact .seq fun _ => foldl_keeps (f := fun (c : Core) (e : Nat × List Byte) => c.ownWrite e.1 e.2) _
          (fun _ _ h => h.trans (ownWrite_stored _ _ _)) _ hnext
      · exact .seq fun _ => foldl_keeps _ (fun _ _ h => h.trans (outStore_stored _ _ _ _ _ _)) _ hnext

theorem writeS_stored {d : BitVec 6} {x : W64} (h : writeS d x c = .ok c') : Stored c c' := by
  unfold writeS at h
  split at h
  · exact (pushStream_stored c _ _).of_eq h
  · cases h; exact setS_stored c d _

/-! ### The head of a core -/

/-- The core c' stands at the same head as c: the same instruction store, program counter and control words. -/
structure AtHead (c c' : Core) : Prop where
  imem : c'.imem = c.imem
  pc : c'.pc = c.pc
  ctl : c'.ctl = c.ctl

theorem AtHead.refl (c : Core) : AtHead c c := ⟨rfl, rfl, rfl⟩

theorem AtHead.trans (h : AtHead c c') (h' : AtHead c' c'') : AtHead c c'' := ⟨h'.imem.trans h.imem, h'.pc.trans h.pc, h'.ctl.trans h.ctl⟩

theorem Stored.atHead (h : Stored c c') : AtHead c c' := by
  obtain ⟨_, ⟨_, _, _, _, _, _, _, _, _, rfl⟩, _, _, _, _, rfl⟩ := h
  exact ⟨rfl, rfl, rfl⟩

theorem readS_atHead {a : Src} {x : W64} (h : readS a c = .ok (x, c')) : AtHead c c' := by
  obtain ⟨_, _, rfl⟩ := readS_frame h
  exact ⟨rfl, rfl, rfl⟩

theorem freeS_atHead (a : Src) (c : Core) : AtHead c (freeS a c) := by
  obtain ⟨r, h⟩ := freeS_eq a c
  rw [h]
  exact ⟨rfl, rfl, rfl⟩

theorem AtHead.validPc (h : AtHead c c') (x : W64) : c'.validPc x = c.validPc x := validPc_congr h.imem x

theorem AtHead.succ (h : AtHead c c') : c'.succ c'.pc = c.succ c.pc := by rw [h.pc, succ_congr h.imem]

end Sys2Proof.Machine
end

