-- ==== Sys2Proof/Proofs/Flow.lean ====
section
/-! Jumps, calls, returns, branches and LOOP (spec/05 R110 to R114). -/

namespace Sys2Proof.Machine

open Safety

variable {s : State} {c : Core} {f : Core → Res Core}

/-! ### Ends of an instruction that sets the pc -/

theorem flowOp_ok (h : f s.me = .ok c) : flowOp s f = .next { s with me := c } := by simp [flowOp, h, finish, Except.map]

theorem flowOp_trap {k : Nat} {w3 w6 w7 : W64} (hc : AtHead s.me c) (h : f s.me = trap c k w3 w6 w7) : flowOp s f = traps s k w3 w6 w7 := by
  simp [flowOp, h, Machine.trap, precise, hc.pc, finish, Except.map, traps]

theorem flowOp_goto {x : W64} (hc : AtHead s.me c) (h : f s.me = c.goto x) :
    flowOp s f = if s.me.validPc x then jumped s c x else traps s 0x003 x 0 0 := by
  rw [Core.goto, hc.validPc] at h
  split
  next hv => exact flowOp_ok (by rw [h, if_pos hv])
  next hv => exact flowOp_trap hc (by rw [h, if_neg hv])

/-- A branch of the core c, and its outcome: taken to a valid target, taken to another, not taken. -/
def BranchEnd (s : State) (c : Core) (taken : Prop) (t : BitVec 14) (o : Out) : Prop :=
  (¬taken → o = done s c) ∧ (taken → s.me.validPc (headAddr t) = true → o = jumped s c (headAddr t)) ∧
    (taken → s.me.validPc (headAddr t) = false → o = traps s 0x003 (headAddr t) 0 0)

theorem flowOp_branch {b : Bool} {taken : Prop} {t : BitVec 14} (hc : AtHead s.me c) (hb : b = true ↔ taken)
    (h : f s.me = branch b (headAddr t) c) : BranchEnd s c taken t (flowOp s f) := by
  unfold branch at h
  refine ⟨fun hn => ?_, fun ht hv => ?_, fun ht hv => ?_⟩
  · exact flowOp_ok (by rw [h, if_neg (mt hb.1 hn)])
  · exact (flowOp_goto hc (by rw [h, if_pos (hb.2 ht)])).trans (if_pos hv)
  · exact (flowOp_goto hc (by rw [h, if_pos (hb.2 ht)])).trans (if_neg (by rw [← Bool.not_eq_true] at hv; exact hv))

/-! ### Conditions (spec/05 R111, R112) -/

theorem condHolds_iff (cc : Cond) (x y : W64) : condHolds cc x y = true ↔ holds cc x y := by
  cases cc with
  | eq => exact beq_iff_eq
  | ne => exact bne_iff_ne
  | lt => exact BitVec.slt_iff_toInt_lt
  | ge => rw [condHolds, Bool.not_eq_true', ← Bool.not_eq_true, BitVec.slt_iff_toInt_lt, holds, not_lt]
  | ltn => exact BitVec.ult_iff_lt
  | gen =>
    rw [condHolds, Bool.not_eq_true', ← Bool.not_eq_true, BitVec.ult_iff_lt]
    exact Nat.not_lt

theorem briLit_eq (cc : Cond) (k : BitVec 8) : briLit cc k = if cc = .ltn ∨ cc = .gen then k.zeroExtend 64 else k.signExtend 64 := by
  cases cc <;> rfl

theorem bstHolds_iff (cc : BstCond) (sts : W64) :
    bstHolds cc sts = true ↔ if cc.neg then sts.extractLsb' 0 3 ≠ cc.code else sts.extractLsb' 0 3 = cc.code := by
  have hbits : bits sts 2 0 = (sts.extractLsb' 0 3).toNat := (BitVec.extractLsb'_toNat ..).symm
  rw [bstHolds, hbits]
  cases cc.neg <;> simp only [ne_eq, Bool.bne_false, Bool.bne_true, Bool.not_eq_true', beq_eq_false_iff_ne, beq_iff_eq,
    BitVec.toNat_inj, Bool.false_eq_true, if_true, if_false]

/-! ### The instructions -/

theorem jumpReg_end {a : Src} {x : W64} (h : readS a s.me = .ok (x, c)) :
    flowOp s (jumpReg a) = if s.me.validPc x then jumped s (freeS a c) x else traps s 0x003 x 0 0 :=
  flowOp_goto ((readS_atHead h).trans (freeS_atHead a c)) (by simp [jumpReg, h, bind, Except.bind])

/-- A call from the core c, whose operand is read and freed. -/
theorem flowOp_link {x : W64} (hc : AtHead s.me c) (h : f s.me = linkTo x c) :
    (s.me.validPc x = true → ∀ c', writeS 62 (s.me.succ s.me.pc) c = .ok c' → flowOp s f = jumped s c' x) ∧
      (s.me.validPc x = false → flowOp s f = traps s 0x003 x 0 0) := by
  rw [linkTo, Core.goto, hc.validPc, hc.succ] at h
  refine ⟨fun hv c' hw => flowOp_ok ?_, fun hv => flowOp_trap hc ?_⟩
  · rw [h, hv, hw]; rfl
  · rw [h, hv]; rfl

/-- Settles O5: each instruction is a jump, a call or a branch on its operands. -/
theorem jumpsAndBranches : Obligations.JumpsAndBranches := by
  unfold Obligations.JumpsAndBranches
  refine ⟨⟨fun s => rfl, ?_, ?_, ?_, ?_⟩, ?_⟩
  · exact fun t s => flowOp_goto (f := fun c => c.goto (target t)) (.refl s.me) rfl
  · exact fun a s x c h => ⟨jumpReg_end h, jumpReg_end h⟩
  · intro t s hd
    exact flowOp_link (f := fun c => do destS 62 c; linkTo (target t) c) (.refl s.me) (by rw [hd]; rfl)
  · intro a s x c hd h
    exact flowOp_link (f := fun c => do destS 62 c; let (x, c) ← readS a c; linkTo x (freeS a c))
      ((readS_atHead h).trans (freeS_atHead a c)) (by rw [hd, h]; rfl)
  · refine ⟨?_, ?_, ?_, ?_⟩
    · intro cc a b t s x y c1 c2 ha hb
      exact flowOp_branch (f := fun c => do
          let (x, c) ← readS a c
          let (y, c) ← readS b c
          branch (condHolds cc x y) (target t) (freeS b (freeS a c)))
        (((readS_atHead ha).trans (readS_atHead hb)).trans ((freeS_atHead a c2).trans (freeS_atHead b _)))
        (condHolds_iff cc x y) (by simp only [ha, hb, bind, Except.bind]; rfl)
    · intro cc a k t s x c ha
      rw [← briLit_eq]
      exact flowOp_branch (f := fun c => do
          let (x, c) ← readS a c
          branch (condHolds cc x (briLit cc k)) (target t) (freeS a c))
        ((readS_atHead ha).trans (freeS_atHead a c)) (condHolds_iff cc x _) (by simp only [ha, bind, Except.bind]; rfl)
    · exact fun cc t s => flowOp_branch (f := fun c => branch (bstHolds cc c.ctl.sts) (target t) c) (.refl s.me)
        (bstHolds_iff cc s.me.ctl.sts) rfl
    · rintro d a t s x c c' ⟨hd, c1, ha, rfl⟩ hw
      exact flowOp_branch (b := x - 1 != 0) (f := fun c => do
          destS d c
          let (x, c) ← readS a c
          let c' ← writeS d (x - 1) (freeS a c)
          branch (x - 1 != 0) (target t) c')
        (((readS_atHead ha).trans (freeS_atHead a c1)).trans (writeS_stored hw).atHead)
        (by rw [bne_iff_ne, sub_ne_zero]) (by simp only [hd, ha, hw, bind, Except.bind]; rfl)

end Sys2Proof.Machine
end

