-- ==== Sys2Proof/Proofs/WordFields.lean ====
section
/-! Fields and masks of words as numbers (spec/01 R11). -/

namespace Sys2Proof.Machine

/-- A mask of two parts selects from each part of a number by itself. -/
theorem and_two_pow_mul_add {k r : Nat} (hr : r < 2 ^ k) (x m : Nat) :
    x &&& (2 ^ k * m + r) = 2 ^ k * (x / 2 ^ k &&& m) + (x % 2 ^ k &&& r) := by
  have hx : x % 2 ^ k < 2 ^ k := Nat.mod_lt _ (by positivity)
  refine Nat.eq_of_testBit_eq fun j => ?_
  rw [Nat.testBit_two_pow_mul_add _ (Nat.and_lt_two_pow _ hr), Nat.testBit_and, Nat.testBit_two_pow_mul_add _ hr, Nat.testBit_and,
    Nat.testBit_and, Nat.testBit_mod_two_pow, Nat.testBit_div_two_pow]
  by_cases hj : j < k
  · simp [hj]
  · simp [hj, Nat.sub_add_cancel (Nat.not_lt.1 hj)]

theorem toNat_extractLsb'_eq (w : W64) (l n : Nat) : (w.extractLsb' l n).toNat = w.toNat / 2 ^ l % 2 ^ n := by
  rw [BitVec.extractLsb'_toNat, Nat.shiftRight_eq_div_pow]

theorem bits_eq (w : W64) (h l : Nat) : bits w h l = w.toNat / 2 ^ l % 2 ^ (h + 1 - l) := by rw [bits, Nat.shiftRight_eq_div_pow]

end Sys2Proof.Machine
end

