-- ==== Sys2Proof/Proofs/Boundaries.lean ====
section
/-! PHASE, END, YIELD and MIGR: the boundaries that a head takes (spec/03 R56, R61, R62, R79, R80, spec/05 R115, R116). -/

namespace Sys2Proof.Machine

open Safety

variable {s : State} {c : Core}

/-! ### Steps of an instruction that go on -/

theorem bind_ok {α β : Type} {x : Res α} {a : α} {f : α → Res β} (h : x = .ok a) : (x >>= f) = f a := by rw [h]; rfl

theorem need_ok {b : Bool} {e : Stop} (h : b = true) : need b e = .ok () := if_pos h

theorem bind_error {α β : Type} {x : Res α} {e : Stop} {f : α → Res β} (h : x = .error e) : (x >>= f) = .error e := by rw [h]; rfl

theorem need_error {b : Bool} {e : Stop} (h : b = false) : need b e = .error e := if_neg (by rw [h]; exact Bool.false_ne_true)

/-! ### Whether a boundary may be taken -/

theorem boundaryReady_of_atBoundary (h : atBoundary c) : boundaryReady c = .ok () := by
  obtain ⟨hs, hl⟩ := h
  simp [boundaryReady, need, hs, hl, bind, Except.bind]

theorem boundaryReady_of_unsettled (h : c.settled = false) : boundaryReady c = .error (.wait .operand) := by
  simp [boundaryReady, need, h, bind, Except.bind]

theorem boundaryReady_of_full (hs : c.settled = true) (hl : 2 ≤ c.closing.length) : boundaryReady c = .error (.wait .boundary) := by
  simp [boundaryReady, need, hs, Nat.not_lt.2 hl, bind, Except.bind]

theorem gangReady_alone (s : State) : gangReady s [s.cur] = boundaryReady s.me := by
  cases h : boundaryReady s.me <;> simp [gangReady, h]

/-- Room in the outbox is room in number. -/
theorem needOut_one_iff : needOut c 1 = .ok () ↔ c.seg.out.length + 1 + c.otherOut ≤ Config.outboxCap := by
  rw [needOut, if_neg (by decide), capacity]
  split
  next h => exact ⟨fun _ => h, fun _ => rfl⟩
  next h =>
    refine iff_of_false ?_ h
    split
    · split
      · exact nofun
      · exact nofun
    · split
      · exact nofun
      · exact nofun

/-- A closed segment's entries hold the outbox space that the open one's held. -/
theorem close_otherOut (c : Core) (k : Boundary) (p : W64) (a : AtCommit) : (c.close k p a).otherOut = c.seg.out.length + c.otherOut := by
  simp only [Core.otherOut, Core.close, List.map_append, List.sum_append, List.map_singleton, List.sum_singleton]
  omega

/-! ### The end of an activation -/

/-- Locks of streams are registered again: no more of the core in focus changes. -/
theorem relockStreams_me (s : State) : ∃ l, s.relockStreams.me = { s.me with locks := l } := by
  unfold State.relockStreams
  refine foldl_keeps (fun t : State => ∃ l, t.me = { s.me with locks := l }) (fun t x h => ?_) _ ⟨_, rfl⟩
  obtain ⟨l, h⟩ := h
  unfold State.lockStream
  extract_lets l'
  split
  · split
    · exact ⟨_, congrArg (fun c : Core => { c with locks := c.locks ++ [l'] }) h⟩
    · exact ⟨l, h⟩
  · exact ⟨l, h⟩

theorem setLast_append {l : List Seg} {g : Seg} (h : c.closing = l ++ [g]) (k : Ckpt) :
    (c.setLast k).closing = l ++ [{ g with ckpt := k.inPlaceOf g.ckpt }] := by
  simp [Core.setLast, h]

theorem setLast_eq (c : Core) (k : Ckpt) : ∃ l k', c.setLast k = { c with closing := l, confirmed := k' } := by
  unfold Core.setLast
  split <;> exact ⟨_, _, rfl⟩

/-- What the end of the activation of c leaves: the core is idle, the newest checkpoint is that of an idle core. -/
structure IdleAfter (c c' : Core) : Prop where
  closing : ∀ l g, c.closing = l ++ [g] → ∃ k, c'.closing = l ++ [{ g with ckpt := k }]
  seg : c'.seg = c.seg
  running : c'.running = false
  regs : c'.regs = Regs.reset
  streams : c'.streams = []
  frame : c'.frame = c.frame
  mem : c'.mem = c.mem
  mseq : c'.mseq = c.mseq

theorem endIdle_idleAfter (s : State) : IdleAfter s.me s.endIdle.me := by
  obtain ⟨locks, h⟩ := relockStreams_me { s with me := { s.me with streams := [] } }
  have hidle : s.unbindAll.me.idle = { s.me with streams := [], locks := locks }.idle := by rw [State.unbindAll, h]
  obtain ⟨closing, confirmed, hlast⟩ := setLast_eq s.unbindAll.me.idle s.unbindAll.me.idle.checkpoint
  have hme : s.endIdle.me = { s.unbindAll.me.idle.setLast s.unbindAll.me.idle.checkpoint with
      report := none, raised := none, again := s.endIdle.me.again } := by
    rw [State.endIdle, hlast]
  have hclosing : ∀ l g, s.me.closing = l ++ [g] → ∃ k, s.endIdle.me.closing = l ++ [{ g with ckpt := k }] := fun l g hg =>
    ⟨_, setLast_append (by rw [hidle]; exact hg) _⟩
  rw [hlast, hidle] at hme
  rw [hme] at hclosing ⊢
  exact ⟨hclosing, rfl, rfl, rfl, rfl, rfl, rfl, rfl⟩

/-- A boundary that ends an activation (spec/03 R78): the open segment is closed, and the core is idle. -/
structure EndedBy (c : Core) (kind : Boundary) (c' : Core) : Prop where
  closing : ∃ g, c'.closing = c.closing ++ [g] ∧ g.d = c.seg ∧ g.kind = kind ∧ g.closer = c.pc ∧ g.atCommit = .retire c.messages
  seg : c'.seg = SegData.new (c.seg.id + 1)
  running : c'.running = false
  regs : c'.regs = Regs.reset
  streams : c'.streams = []
  frame : c'.frame = none
  mem : c'.mem = c.mem
  mseq : c'.mseq = c.mseq

theorem endBy_ended (s : State) (kind : Boundary) : EndedBy s.me kind (s.endBy kind).me := by
  obtain ⟨hclosing, hseg, hrunning, hregs, hstreams, hframe, hmem, hmseq⟩ := endIdle_idleAfter { s with
    me := { ({ s.me with frame := none } : Core).close kind s.me.pc (.retire s.me.messages) with gang := none } }
  obtain ⟨k, hk⟩ := hclosing _ _ rfl
  exact ⟨⟨_, hk, rfl, rfl, rfl, rfl⟩, hseg, hrunning, hregs, hstreams, hframe, hmem, hmseq⟩

/-! ### PHASE and END (spec/05 R115) -/

/-- What keeps one core from its boundary keeps PHASE and END waiting. -/
theorem boundary_waits {w : Wait} (h : boundaryReady s.me = .error (.wait w)) : exec .phase s = .next (s.waiting w) ∧
    (s.me.gang = none → exec .endAct s = .next (s.waiting w)) := by
  refine ⟨?_, fun hg => ?_⟩
  · change execPhase s = _
    simp [execPhase, h, bind, Except.bind, finish]
  · change execEndAct s = _
    simp [execEndAct, gangOf_alone hg, gangReady_alone, h, bind, Except.bind, finish]

theorem execPhase_ready (h : boundaryReady s.me = .ok ()) :
    exec .phase s = .next { s with me := { s.me.retire.close .phase s.me.pc .nothing with wait := none } } := by
  change execPhase s = _
  simp only [execPhase, h, bind, Except.bind, finish]

theorem execEndAct_ready (hg : s.me.gang = none) (h : boundaryReady s.me = .ok ()) : exec .endAct s = .next (s.endBy .endAct) := by
  change execEndAct s = _
  simp [execEndAct, gangOf_alone hg, gangReady_alone, h, bind, Except.bind, finish, need, onCores]

/-! ### YIELD (spec/03 R79) -/

theorem execYield_ready (hg : s.me.gang = none) (hlt : s.me.lt.en = false) (h : boundaryReady s.me = .ok ()) (hroom : needOut s.me 1 = .ok ()) :
    exec .yield s = .next (({ s with me := { (s.me.outAdd (.own (yieldMsg s))) with mseq := s.me.mseq + 1 } } : State).endBy .yield) := by
  change execYield s = _
  simp [execYield, hg, hlt, h, hroom, bind, Except.bind, finish, need]

/-! ### MIGR (spec/03 R80, spec/05 R116) -/

/-- A destination without reserved bits is its two fields. -/
theorem migrReserved_eq_zero {x : W64} (h : x &&& 0xFFFFFFFF000007FF = 0) : x.toNat - put (bits x 31 24) 24 - put (bits x 23 11) 11 = 0 := by
  have hx : x.toNat &&& 0xFFFFFFFF000007FF = 0 := congrArg BitVec.toNat h
  have hmask := and_two_pow_mul_add (k := 32) (r := 2 ^ 11 - 1) (by decide) x.toNat (2 ^ 32 - 1)
  rw [Nat.and_two_pow_sub_one_eq_mod, Nat.and_two_pow_sub_one_eq_mod] at hmask
  have hlt := x.isLt
  simp only [bits_eq, put]
  norm_num at hmask
  omega

/-- Where the boundary of MIGR has no room for its record beside it, it is taken alone. -/
theorem execMigr_first {a : Src} {x : W64} (hg : s.me.gang = none) (hlt : s.me.lt.en = false) (ha : readS a s.me = .ok (x, c))
    (hx : x &&& 0xFFFFFFFF000007FF = 0) (h : boundaryReady s.me = .ok ()) (hirrev : s.me.irrev = none) (hclosing : s.me.closing ≠ []) :
    exec (.migr a) s = .next { s with me := { s.me.close .phase s.me.pc .nothing with irrev := some .migr, wait := some .boundary } } := by
  refine congrArg (finish s) (a₂ := .ok _) ?_
  refine (bind_ok (need_ok (by rw [hg, hlt]; rfl))).trans ((bind_ok ha).trans ((bind_ok (need_ok ?_)).trans ((bind_ok h).trans (if_pos ?_))))
  · exact decide_eq_true (migrReserved_eq_zero hx)
  · rw [hirrev, List.isEmpty_eq_false_iff.2 hclosing]
    rfl

/-- The record of a MIGR whose operand is read (spec/03 R80). -/
def migrRecord (a : Src) (s : State) (c : Core) : MigrRec :=
  ⟨(freeS a c).regs, s.me.ctl, s.me.succ s.me.pc, msgOf [s.me.ctl.msg, s.me.ctl.tid, s.me.ctl.wid]⟩

/-- The core in focus between the two boundaries of a MIGR: its record is the first entry of the segment that the second closes. -/
def migrBetween (a : Src) (s : State) (c : Core) (x : W64) : Core :=
  ({ (({ s.me with nund := c.nund } : Core).close .phase s.me.pc .nothing) with irrev := none, nund := c.nund } : Core).outAdd
    (.migr (migrRecord a s c) (bits x 31 24) (bits x 23 11))

theorem execMigr_both {a : Src} {x : W64} (hg : s.me.gang = none) (hlt : s.me.lt.en = false) (ha : readS a s.me = .ok (x, c))
    (hx : x &&& 0xFFFFFFFF000007FF = 0) (h : boundaryReady s.me = .ok ()) (hirrev : s.me.irrev = none) (hclosing : s.me.closing = [])
    (hroom : needOut s.me 1 = .ok ()) :
    exec (.migr a) s = .next (({ s with me := migrBetween a s c x } : State).endBy .migr) := by
  have hcap := needOut_one_iff.1 hroom
  have hafter : needOut (({ s.me with nund := c.nund } : Core).close .phase s.me.pc .nothing) 1 = .ok () := by
    rw [needOut_one_iff, close_otherOut]
    change 0 + 1 + (s.me.seg.out.length + s.me.otherOut) ≤ _
    omega
  have hnot : ¬ Config.outboxCap ≤ (s.me.close .phase s.me.pc .nothing).otherOut := by rw [close_otherOut]; omega
  refine congrArg (finish s) (a₂ := .ok _) ?_
  refine (bind_ok (need_ok (by rw [hg, hlt]; rfl))).trans ((bind_ok ha).trans ((bind_ok (need_ok ?_)).trans ((bind_ok h).trans
    ((if_neg ?_).trans ?_))))
  · exact decide_eq_true (migrReserved_eq_zero hx)
  · rw [hirrev, hclosing, decide_eq_false hnot]
    exact Bool.false_ne_true
  · have hfirst : (s.me.irrev == some Irrev.migr) = false := by rw [hirrev]; rfl
    rw [hfirst]
    exact bind_ok hafter

/-- Settles O6: a head that closes a segment does so once the boundary may be taken, and waits or traps until then. -/
theorem boundaries : Obligations.Boundaries := by
  unfold Obligations.Boundaries
  refine ⟨?_, ?_, ?_, ?_, ?_, ?_, ?_⟩
  · intro s h
    refine ⟨_, execPhase_ready (boundaryReady_of_atBoundary h), ?_, ?_, rfl, rfl, rfl, rfl, rfl, rfl, rfl⟩
    · exact List.map_append
    · exact congrArg _ List.getLast?_concat
  · exact fun s h => boundary_waits (boundaryReady_of_unsettled h)
  · exact fun s h hl => boundary_waits (boundaryReady_of_full h hl)
  · intro s h hg
    obtain ⟨⟨g, hclosing, hd, hkind, hcloser, hat⟩, hseg, hrunning, hregs, hstreams, hframe, hmem, -⟩ := endBy_ended s .endAct
    refine ⟨_, execEndAct_ready hg (boundaryReady_of_atBoundary h), by simp [hclosing, hd], ?_, hseg, hrunning, hregs, hstreams, hframe, hmem⟩
    rw [hclosing, List.getLast?_concat, Option.map_some, hkind, hcloser, hat]
    rfl
  · intro s hg hlt h hroom
    obtain ⟨⟨g, hclosing, hd, -⟩, -, hrunning, -, -, -, hmem, hmseq⟩ :=
      endBy_ended { s with me := { (s.me.outAdd (.own (yieldMsg s))) with mseq := s.me.mseq + 1 } } .yield
    refine ⟨_, yieldMsg s, execYield_ready hg hlt (boundaryReady_of_atBoundary h) hroom, ?_, rfl, hmseq, hrunning, hmem⟩
    rw [hclosing, List.map_append, List.map_singleton, hd]
    rfl
  · intro a s x c hg hlt ha hx h
    have hready := boundaryReady_of_atBoundary h
    refine ⟨fun hclosing hirrev => ?_, fun hclosing hirrev hroom => ?_⟩
    · refine ⟨_, execMigr_first hg hlt ha hx hready hirrev (by rintro e; simp [e] at hclosing), ?_, rfl, rfl, rfl, rfl, rfl⟩
      simp [Core.close]
    · have hmigr := endBy_ended { s with me := migrBetween a s c x } .migr
      obtain ⟨⟨g, hclosed, hd, hkind, -⟩, -, hrunning, -, -, -, hmem, -⟩ := hmigr
      refine ⟨_, execMigr_both hg hlt ha hx hready hirrev hclosing hroom, ⟨migrRecord a s c, rfl, rfl, rfl, ?_⟩, hrunning, hmem⟩
      rw [hclosed, List.map_append, List.map_singleton, hd, hkind, toNat_extractLsb'_eq, toNat_extractLsb'_eq]
      simp only [migrBetween, Core.outAdd, Core.close, hclosing, bits_eq, SegData.new]
      rfl
  · intro a s h
    have hguard : (s.me.gang.isNone && !s.me.lt.en) = false := by
      rcases h with h | h
      · rw [Option.isNone_eq_false_iff.2 h, Bool.false_and]
      · rw [h, Bool.not_true, Bool.and_false]
    exact ⟨congrArg (finish s) (bind_error (need_error hguard)), congrArg (finish s) (bind_error (need_error hguard))⟩

end Sys2Proof.Machine
end

