-- ==== Sys2Proof/Proofs/SoftwareTraps.lean ====
section
/-! TRAP, reserved opcodes, heads that no instruction starts at, BKPT (spec/05 R117, R148, spec/04 R87, R100). -/

namespace Sys2Proof.Machine

open Safety

variable {s : State}

/-! ### Precise traps -/

theorem takeTrap_cur (s : State) (rs : List (Nat × Report)) : (s.takeTrap rs).cur = s.cur :=
  (settle_cur _).trans (foldl_cur (f := fun s (x : Nat × Report) => s.raise x.1 x.2) (fun s x => raiseAs_cur s x.1 x.2 none) rs s)

theorem execSequentialFlowBadtgt_traps (hk : s.cur < Config.nCores) (hrun : s.me.running = true) (hrep : s.me.report = none)
    (hpc : s.me.validPc s.me.pc = false) : exec (.sequentialFlowBadtgt s.cur) s = traps s 0x003 s.me.pc 0
      (if s.me.pc = BitVec.ofNat 64 (64 * bits (s.me.handler s.me.act.hidx).2 8 0) then 2 else 1) := by
  have hback : (s.takeTrap [(s.cur, badFlow s.me)]).focus s.cur = s.takeTrap [(s.cur, badFlow s.me)] := by
    have h := focus_self (s.takeTrap [(s.cur, badFlow s.me)])
    rwa [takeTrap_cur] at h
  change execSequentialFlowBadtgt s.cur s = _
  rw [execSequentialFlowBadtgt, if_pos hk, focus_self]
  simp only [hrun, hrep, hpc, Option.isNone_none, Bool.not_false, Bool.and_self, if_true, hback]
  simp only [traps, badFlow, precise, beq_iff_eq, ofNat]

/-! ### Halting (spec/05 R148, spec/20 R393) -/

/-- A step of another core that changes that core alone leaves the core in focus. -/
theorem onCore_other_me {k : Nat} {f : State → State} (h : k ≠ s.cur) (hcur : (f (s.focus k)).cur = (s.focus k).cur)
    (hothers : (f (s.focus k)).others = (s.focus k).others) : (onCore k f s).me = s.me := by
  have hne : s.cur ≠ (s.focus k).cur := by rw [focus_cur]; exact h.symm
  calc (onCore k f s).me = ((f (s.focus k)).focus s.cur).me := by rw [onCore, if_neg h]
    _ = (f (s.focus k)).core s.cur := focus_me _ _
    _ = (s.focus k).core s.cur := by rw [State.core, State.core, hcur, hothers, if_neg hne, if_neg hne]
    _ = s.me := by rw [focus_core, core_self]

/-- What a BKPT of core c does to a core of its partition. -/
def haltStep (c : Nat) (s : State) : State := { s with me := s.me.halt (if s.cur = c then .bkpt else s.me.halted.getD .halt) }

/-- The core in focus halts where it stands, if it is one of the list. -/
theorem onCores_haltStep (ks : List Nat) (s : State) :
    let t := onCores ks (haltStep s.cur) s
    t.me.pc = s.me.pc ∧ t.me.regs = s.me.regs ∧ t.me.mem = s.me.mem ∧ (s.cur ∈ ks ∨ s.me.halted = some .bkpt → t.me.halted = some .bkpt) := by
  induction ks generalizing s with
  | nil => exact ⟨rfl, rfl, rfl, fun h => h.resolve_left List.not_mem_nil⟩
  | cons k ks ih =>
    have hcur : (onCore k (haltStep s.cur) s).cur = s.cur := onCore_cur (f := haltStep s.cur) (fun _ => rfl) k s
    obtain ⟨hpc, hregs, hmem, hhalt⟩ := ih (onCore k (haltStep s.cur) s)
    rw [hcur] at hpc hregs hmem hhalt
    by_cases hk : k = s.cur
    · have hme : (onCore k (haltStep s.cur) s).me = s.me.halt .bkpt := by rw [hk, onCore_self, haltStep, if_pos rfl]
      rw [hme] at hpc hregs hmem hhalt
      exact ⟨hpc, hregs, hmem, fun _ => hhalt (.inr rfl)⟩
    · have hme : (onCore k (haltStep s.cur) s).me = s.me := onCore_other_me hk rfl rfl
      rw [hme] at hpc hregs hmem hhalt
      refine ⟨hpc, hregs, hmem, fun h => hhalt (h.imp_left fun h => ?_)⟩
      exact (List.mem_cons.1 h).resolve_left (Ne.symm hk)

/-- A partition that a BKPT stops: the core in focus halts where it stands. -/
theorem haltAll_bkpt (x : Nat) (hk : s.cur ∈ (s.ctx x).coreList) :
    let t := s.haltAll x s.cur .bkpt
    t.me.halted = some .bkpt ∧ t.me.pc = s.me.pc ∧ t.me.regs = s.me.regs ∧ t.me.mem = s.me.mem := by
  obtain ⟨i, hi⟩ := List.mem_iff_getElem?.1 hk
  have hself : s.cores.contains s.cur = true := List.contains_iff_mem.2 (mem_nset.2 (.inl rfl))
  obtain ⟨hpc, hregs, hmem, hhalt⟩ := onCores_haltStep ((((s.ctx x).coreList.zipIdx.filter fun j =>
    j.2 == 0 || s.cores.contains j.1 || (s.lease (rowId j.1)).ctx.toNat == x)).map (·.1)) s
  refine ⟨hhalt (.inl (List.mem_map.2 ⟨(s.cur, i), List.mem_filter.2 ⟨List.mem_zipIdx_iff_getElem?.2 hi, ?_⟩, rfl⟩)), hpc, hregs, hmem⟩
  rw [hself, Bool.or_true, Bool.true_or]

theorem mem_coreList {x : Ctx} {k : Nat} (hk : k < Config.nCores) (h : x.hasCluster (clusterOf k) = true) : k ∈ x.coreList := by
  have hcl : clusterOf k < 128 := by unfold clusterOf; unfold Config.nCores at hk; omega
  refine List.mem_flatMap.2 ⟨clusterOf k, List.mem_filter.2 ⟨List.mem_range.2 hcl, h⟩, List.mem_map.2 ⟨k % 64, ?_, ?_⟩⟩
  · exact List.mem_range.2 (Nat.mod_lt _ (by decide))
  · exact Nat.div_add_mod k 64

/-- Settles O7: the trap is the whole effect; a BKPT that halts stops its partition. -/
theorem softwareTraps : Obligations.SoftwareTraps := by
  unfold Obligations.SoftwareTraps
  refine ⟨fun k s => rfl, ?_, fun e s => rfl, fun s hk hrun hrep hpc => execSequentialFlowBadtgt_traps hk hrun hrep hpc, ?_, ?_⟩
  · exact fun k a s x c ha => congrArg (finish s) (bind_ok ha)
  · exact fun k s h => if_neg (by rw [h]; exact Bool.false_ne_true)
  · intro k s h hk hcl hpass
    exact ⟨_, (if_pos h).trans (if_neg hpass), haltAll_bkpt _ (mem_coreList hk hcl)⟩

end Sys2Proof.Machine
end

