-- ==== Sys2Proof/Proofs/ControlWords.lean ====
section
/-! GETC, SETC, TIME, CYC, ENRG and TRACE (spec/05 R139, R144 to R146, R149). -/

namespace Sys2Proof.Machine

open Safety

variable {s : State} {c : Core}

theorem coreOp_done {f : Core → Res Core} (h : f s.me = .ok c) : coreOp s f = done s c := coreOp_ok h

theorem coreOp_waits {f : Core → Res Core} {w : Wait} (h : f s.me = .error (.wait w)) : coreOp s f = .next (s.waiting w) := by
  simp [coreOp, h, Except.map, finish]

/-! ### SETC (spec/05 R144, spec/03 R57 to R59) -/

/-- A word that SETC writes: a value without offending bits is written, another is refused at issue. -/
theorem execSetc_end {w : Cw} {a : Src} {x : W64} {m : Nat} (hreads : s.me.reads = []) (ha : readS a s.me = .ok (x, c))
    (hw : (cwMask w 0).isSome = true) (hm : cwMask w x = some m) :
    (m = 0 → exec (.setc w a) s = done s { (freeS a c) with ctl := s.me.ctl.put w x }) ∧
      (m ≠ 0 → exec (.setc w a) s = traps s 0x002 x (BitVec.ofNat 64 m) 1) := by
  have hdone : readsDone s.me = .ok () := need_ok (by rw [hreads]; rfl)
  obtain rfl : (cwMask w x).getD 0 = m := by rw [hm]; rfl
  change (_ → execSetc w a s = _) ∧ (_ → execSetc w a s = _)
  refine ⟨fun h0 => coreOp_done ?_, fun h0 => coreOp_trap (c := s.me) rfl ?_⟩
  · exact (bind_ok (need_ok hw)).trans ((bind_ok hdone).trans ((bind_ok ha).trans (bind_ok (need_ok (decide_eq_true h0)))))
  · refine (bind_ok (need_ok hw)).trans ((bind_ok hdone).trans ((bind_ok ha).trans ?_))
    exact bind_error (need_error (decide_eq_false h0))

/-- The same where the offending bits are those of a mask. -/
theorem execSetc_masked {w : Cw} {a : Src} {x mask : W64} (hreads : s.me.reads = []) (ha : readS a s.me = .ok (x, c))
    (hw : (cwMask w 0).isSome = true) (hm : cwMask w x = some (x &&& mask).toNat) : exec (.setc w a) s =
      if x &&& mask = 0 then done s { (freeS a c) with ctl := s.me.ctl.put w x } else traps s 0x002 x (x &&& mask) 1 := by
  obtain ⟨hok, hbad⟩ := execSetc_end hreads ha hw hm
  split
  next h => exact hok (by rw [h]; rfl)
  next h =>
    rw [BitVec.ofNat_toNat, BitVec.setWidth_eq] at hbad
    exact hbad fun h0 => h (BitVec.eq_of_toNat_eq h0)

theorem cwMask_flg (x : W64) : cwMask .flg x = some (x &&& 0xFFFFFFFFFFFFFFE0).toNat := by
  have h := and_two_pow_mul_add (k := 5) (r := 0) (by decide) x.toNat (2 ^ 59 - 1)
  rw [Nat.and_two_pow_sub_one_eq_mod, Nat.and_zero] at h
  have hlt := x.isLt
  change some _ = some (x.toNat &&& 0xFFFFFFFFFFFFFFE0)
  norm_num at h ⊢
  omega

theorem cwMask_bud (x : W64) : cwMask .bud x = some (x &&& 0xFFFFFFFE00000000).toNat := by
  have h := and_two_pow_mul_add (k := 33) (r := 0) (by decide) x.toNat (2 ^ 31 - 1)
  rw [Nat.and_two_pow_sub_one_eq_mod, Nat.and_zero] at h
  have hlt := x.isLt
  change some _ = some (x.toNat &&& 0xFFFFFFFE00000000)
  norm_num at h ⊢
  omega

theorem cwMask_mode (x : W64) : cwMask .mode x = some (x &&& 0xFFFFFFFFFFFCFEE0).toNat := by
  rw [cwMask, BitVec.toNat_and]
  rfl

theorem toNat_and_magnitude (x : W64) : (x &&& 0x7FFFFFFFFFFFFFFF).toNat = bits x 62 0 := by
  rw [BitVec.toNat_and, bits_magnitude]
  exact Nat.and_two_pow_sub_one_eq_mod _ 63

/-- The codes of STS are 0 to 4 (spec/03 R59). -/
theorem cwMask_sts (x : W64) : ∃ m, cwMask .sts x = some m ∧ (m = 0 ↔ x.toNat < 5) := by
  refine ⟨_, rfl, ?_⟩
  rw [Nat.or_eq_zero_iff, bits_eq]
  split <;> omega

/-! ### TRACE (spec/05 R149) -/

/-- The first word of the record that TRACE hands over. -/
def traceWord (s : State) (tag : BitVec 24) : W64 :=
  ofNat (put 1 56 + put tag.toNat 32 + put s.me.act.ctx.toNat 24 + put s.cur 11 + put (bits s.me.ctl.mix 2 0) 8)

theorem traceWord_fields (tag : BitVec 24) (h : s.cur < 8192) :
    (traceWord s tag).extractLsb' 56 8 = 1 ∧ (traceWord s tag).extractLsb' 32 24 = tag ∧ (traceWord s tag).extractLsb' 24 8 = s.me.act.ctx ∧
      ((traceWord s tag).extractLsb' 11 13).toNat = s.cur ∧ (traceWord s tag).extractLsb' 8 3 = s.me.ctl.mix.extractLsb' 0 3 ∧
      (traceWord s tag).extractLsb' 0 8 = 0 := by
  have htag := tag.isLt
  have hctx := s.me.act.ctx.isLt
  have hmix : bits s.me.ctl.mix 2 0 < 8 := Nat.mod_lt _ (by decide)
  have hval : (traceWord s tag).toNat =
      2 ^ 56 + tag.toNat * 2 ^ 32 + s.me.act.ctx.toNat * 2 ^ 24 + s.cur * 2 ^ 11 + bits s.me.ctl.mix 2 0 * 2 ^ 8 := by
    rw [traceWord, ofNat, BitVec.toNat_ofNat, Nat.mod_eq_of_lt] <;> simp only [put] <;> omega
  have hmixbits : (s.me.ctl.mix.extractLsb' 0 3).toNat = bits s.me.ctl.mix 2 0 := by rw [toNat_extractLsb'_eq, bits_eq]
  have hfield (l n : Nat) : ((traceWord s tag).extractLsb' l n).toNat = _ := toNat_extractLsb'_eq _ l n
  rw [hval] at hfield
  refine ⟨BitVec.eq_of_toNat_eq ?_, BitVec.eq_of_toNat_eq ?_, BitVec.eq_of_toNat_eq ?_, ?_, BitVec.eq_of_toNat_eq ?_, BitVec.eq_of_toNat_eq ?_⟩
  · rw [hfield]; change _ = 1; omega
  · rw [hfield]; omega
  · rw [hfield]; omega
  · rw [hfield]; omega
  · rw [hfield, hmixbits]; omega
  · rw [hfield]; change _ = 0; omega

theorem execTrace_done {a : Src} {tag : BitVec 24} {x : W64} (hreads : s.me.reads = []) (ha : readS a s.me = .ok (x, c)) :
    exec (.trace a tag) s = done s { (freeS a c) with
      seg := { (freeS a c).seg with traces := (freeS a c).seg.traces ++ [[traceWord s tag, x, s.me.ctl.tid]] } } := by
  have hctl : (freeS a c).ctl = s.me.ctl := ((readS_atHead ha).trans (freeS_atHead a c)).ctl
  have hdone : readsDone s.me = .ok () := need_ok (by rw [hreads]; rfl)
  rw [← hctl]
  change execTrace a tag s = _
  refine coreOp_done ?_
  exact (bind_ok hdone).trans (bind_ok ha)

/-- Settles O8: a word is read, written or refused by its mask; a reading or a record is taken at issue. -/
theorem controlWordsAndReadings : Obligations.ControlWordsAndReadings := by
  unfold Obligations.ControlWordsAndReadings
  refine ⟨⟨?_, ?_, ?_⟩, ?_, ?_, ?_, ?_⟩
  · intro d w s c' hd hw
    have hget : writeS d (s.me.ctl.get w) s.me = .ok c' := by cases w <;> exact hw
    change execGetc d w s = _
    refine coreOp_done ?_
    exact (bind_ok hd).trans hget
  · intro a tag w s hreads
    have hwait : readsDone s.me = .error (.wait .reads) := need_error (List.isEmpty_eq_false_iff.2 hreads)
    refine ⟨fun hw => ?_, ?_⟩
    · have hset : (cwMask w 0).isSome = true := by rcases hw with rfl | rfl | rfl | rfl | rfl <;> rfl
      change execSetc w a s = _
      refine coreOp_waits ?_
      exact (bind_ok (need_ok hset)).trans (bind_error hwait)
    · change execTrace a tag s = _
      refine coreOp_waits ?_
      exact bind_error hwait
  · intro a s x c hreads ha
    refine ⟨execSetc_masked hreads ha rfl (cwMask_flg x), ?_, execSetc_masked hreads ha rfl (cwMask_mode x), ?_, ?_, ?_, ?_⟩
    · rw [execSetc_masked hreads ha rfl (cwMask_bud x), Ctl.put, BitVec.ult]
      simp only [decide_eq_true_eq]
    · intro hx
      obtain ⟨m, hm, h0⟩ := cwMask_sts x
      exact (execSetc_end hreads ha rfl hm).1 (h0.2 hx)
    · intro hx
      obtain ⟨m, hm, h0⟩ := cwMask_sts x
      exact ⟨_, (execSetc_end hreads ha rfl hm).2 (mt h0.1 (Nat.not_lt.2 hx))⟩
    · intro hx
      rw [toNat_and_magnitude] at hx
      exact (execSetc_end hreads ha rfl rfl).1 (if_neg (Nat.not_lt.2 hx))
    · intro hx
      rw [toNat_and_magnitude] at hx
      have hbad := (execSetc_end (w := .amx) hreads ha rfl rfl).2
      rw [if_pos hx] at hbad
      exact hbad (by decide)
  · intro d s c' hd hw
    change execTime d s = _
    refine coreOp_done ?_
    exact (bind_ok hd).trans hw
  · intro d s c' hd hw
    change execCyc d s = _
    refine coreOp_done ?_
    exact (bind_ok hd).trans hw
  · intro d s c'
    dsimp only
    intro hd hw
    change execEnrg d s = _
    unfold execEnrg
    refine coreOp_done ?_
    exact (bind_ok hd).trans hw
  · intro a tag s x c hreads ha hcur
    exact ⟨_, execTrace_done hreads ha, traceWord_fields tag hcur⟩

end Sys2Proof.Machine
end

