-- ==== Sys2Proof/Proofs/OwnMemory.lean ====
section
/-! LD and ST of own memory, with their traps (spec/05 R137, R138, R140). -/

namespace Sys2Proof.Machine

open Safety

variable {s : State} {c : Core} {e : W64} {n : Nat}

/-! ### Where an address leads -/

theorem place_of_ownRange (h : OwnRange s e n) : s.place e = .own e.toNat := by
  obtain ⟨-, hlt, harray, -⟩ := h
  rw [State.place, if_pos (hlt.trans (by decide)), if_pos hlt, if_pos harray]

theorem reach_own {o : Nat} (hal : e.toNat % n = 0) (h : s.place e = .own o) (w : Bool) (w7 : W64) : reach s e n w w7 = .ok (.own o) := by
  rw [reach, if_neg (not_not.2 hal), h]

theorem reach_none (hal : e.toNat % n = 0) (h : s.place e = .none) (w : Bool) (w7 : W64) : reach s e n w w7 = trap s.me 0x202 e 0 w7 := by
  rw [reach, if_neg (not_not.2 hal), h]
  rfl

/-! ### Locks and poison -/

theorem notLocked_ok {off : Nat} (h : lockOn c.locks off n = none) : notLocked c e off n = .ok () := by rw [notLocked, h]

theorem notLocked_trap {off : Nat} {l : Lock} (h : lockOn c.locks off n = some l) : notLocked c e off n = trap c 0x205 e l.kind := by
  rw [notLocked, h]

theorem notPoisoned_ok {a : Nat} (h : Clean c a n) : notPoisoned c (linesOf a n) = .ok () := by
  have hfind : (linesOf a n).find? c.poison.contains = none := List.find?_eq_none.2 fun l hl => by rw [h l hl]; exact Bool.false_ne_true
  rw [notPoisoned, hfind]

theorem finish_trap {k : Nat} {w3 w6 w7 : W64} (hpc : c.pc = s.me.pc) : finish s (trap c k w3 w6 w7) = traps s k w3 w6 w7 := by
  rw [Machine.trap, precise, hpc]
  rfl

theorem readsDone_ok (h : c.reads = []) : readsDone c = .ok () := need_ok (List.isEmpty_iff.2 h)

/-! ### LD -/

/-- An own value as R138 extends it. -/
theorem extend_nat (m : Mem) (a : Nat) {t : Ty} (ht : t.isMem = true) :
    extend (Mem.nat m a (t.width / 8)) t = loaded t (Mem.nat m a (t.width / 8)) := by
  unfold extend loaded
  split
  · rfl
  · have hw : 8 * (t.width / 8) = t.width := by revert ht; cases t <;> decide
    have hlt : Mem.nat m a (t.width / 8) < 2 ^ t.width := by
      have h := natOf_lt (Mem.bytes m a (t.width / 8))
      rwa [Mem.bytes_length, hw] at h
    rw [Nat.mod_eq_of_lt hlt]
    rfl

section Load

variable {d : BitVec 6} {a : Src} {t : Ty} {off : BitVec 32} {x : W64} {c1 : Core}

theorem execLd_misaligned (hd : destS d s.me = .ok ()) (ha : readS a s.me = .ok (x, c1))
    (hal : (x + off.signExtend 64).toNat % (t.width / 8) ≠ 0) :
    exec (.ld d a t off) s = traps s 0x201 (x + off.signExtend 64) (BitVec.ofNat 64 (t.width / 8)) 0 := by
  refine congrArg (finish s) (a₂ := trap s.me 0x201 _ _ 0) ?_
  exact (bind_ok hd).trans ((bind_ok ha).trans (bind_error (need_error (decide_eq_false hal))))

theorem execLd_none (hd : destS d s.me = .ok ()) (ha : readS a s.me = .ok (x, c1))
    (hal : (x + off.signExtend 64).toNat % (t.width / 8) = 0) (hplace : s.place (x + off.signExtend 64) = .none) :
    exec (.ld d a t off) s = traps s 0x202 (x + off.signExtend 64) 0 0 := by
  refine congrArg (finish s) (a₂ := trap s.me 0x202 _ 0 0) ?_
  refine (bind_ok hd).trans ((bind_ok ha).trans ((bind_ok (need_ok (decide_eq_true hal))).trans ?_))
  dsimp only
  rw [hplace]
  exact bind_error (reach_none hal hplace false 0)

theorem execLd_own {o : Nat} (hd : destS d s.me = .ok ()) (ha : readS a s.me = .ok (x, c1))
    (hal : (x + off.signExtend 64).toNat % (t.width / 8) = 0) (hplace : s.place (x + off.signExtend 64) = .own o) :
    exec (.ld d a t off) s = finish s (ownRead (freeS a c1) (x + off.signExtend 64) o (t.width / 8) >>= fun r =>
      writeS d (extend r.1 t) r.2 >>= fun c => .ok { s with me := c.retire }) := by
  refine congrArg (finish s) ?_
  refine (bind_ok hd).trans ((bind_ok ha).trans ((bind_ok (need_ok (decide_eq_true hal))).trans ?_))
  dsimp only
  rw [hplace]
  exact bind_ok (reach_own hal hplace false 0)

end Load

theorem ownRead_ok {o : Nat} {cc : Core} (hlock : lockOn c.locks o n = none) (hcc : cc = c.claimAll c.act.ctx o n) (hclean : Clean cc o n) :
    ownRead c e o n = .ok (Mem.nat cc.mem o n, cc) := by
  subst hcc
  exact (bind_ok (notLocked_ok hlock)).trans (bind_ok (notPoisoned_ok hclean))

theorem ownRead_locked {o : Nat} {l : Lock} (hlock : lockOn c.locks o n = some l) : ownRead c e o n = trap c 0x205 e l.kind :=
  bind_error (notLocked_trap hlock)

/-! ### ST -/

section Store

variable {t : Ty} {a b : Src} {off : BitVec 32} {x y : W64} {c1 c2 : Core}

theorem execSt_misaligned (hreads : s.me.reads = []) (ha : readS a s.me = .ok (x, c1)) (hb : readS b c1 = .ok (y, c2))
    (hal : (x + off.signExtend 64).toNat % (t.width / 8) ≠ 0) :
    exec (.st t a b off) s = traps s 0x201 (x + off.signExtend 64) (BitVec.ofNat 64 (t.width / 8)) 0 := by
  refine congrArg (finish s) (a₂ := trap s.me 0x201 _ _ 0) ?_
  exact (bind_ok (readsDone_ok hreads)).trans ((bind_ok ha).trans ((bind_ok hb).trans (bind_error (need_error (decide_eq_false hal)))))

theorem execSt_none (hreads : s.me.reads = []) (ha : readS a s.me = .ok (x, c1)) (hb : readS b c1 = .ok (y, c2))
    (hal : (x + off.signExtend 64).toNat % (t.width / 8) = 0) (hplace : s.place (x + off.signExtend 64) = .none) :
    exec (.st t a b off) s = traps s 0x202 (x + off.signExtend 64) 0 0 := by
  refine congrArg (finish s) (a₂ := trap s.me 0x202 _ 0 0) ?_
  refine (bind_ok (readsDone_ok hreads)).trans ((bind_ok ha).trans ((bind_ok hb).trans ((bind_ok (need_ok (decide_eq_true hal))).trans ?_)))
  dsimp only
  rw [hplace]
  exact bind_error (reach_none hal hplace true 0)

theorem execSt_own {o : Nat} {c' : Core} (hreads : s.me.reads = []) (ha : readS a s.me = .ok (x, c1)) (hb : readS b c1 = .ok (y, c2))
    (hal : (x + off.signExtend 64).toNat % (t.width / 8) = 0) (hplace : s.place (x + off.signExtend 64) = .own o)
    (hstore : (freeS b (freeS a c2)).ownStore o (bytesOf y.toNat (t.width / 8)) = .ok c') :
    exec (.st t a b off) s = done s c' := by
  refine congrArg (finish s) (a₂ := .ok _) ?_
  refine (bind_ok (readsDone_ok hreads)).trans ((bind_ok ha).trans ((bind_ok hb).trans ((bind_ok (need_ok (decide_eq_true hal))).trans ?_)))
  dsimp only
  rw [hplace]
  exact (bind_ok (reach_own hal hplace true 0)).trans (bind_ok hstore)

end Store

theorem ownStore_free {o : Nat} {bs : List Byte} (hroom : needLines c (linesOf o bs.length) = .ok ()) (hlock : lockOn c.locks o bs.length = none) :
    c.ownStore o bs = .ok (c.ownWrite o bs) := by
  refine (bind_ok hroom).trans ?_
  rw [hlock]

/-- A store under a lock is refused: the segment counts it, and nothing is written. -/
theorem ownStore_locked {o : Nat} {bs : List Byte} {l : Lock} (hroom : needLines c (linesOf o bs.length) = .ok ())
    (hlock : lockOn c.locks o bs.length = some l) :
    ∃ r, c.ownStore o bs = .ok { c with seg := { c.seg with bad := some r } } := by
  rw [Core.ownStore, bind_ok hroom, hlock]
  exact ⟨_, rfl⟩

/-- Settles O22: the access traps by its address, meets a lock, or is done in place. -/
theorem loadAndStoreOwn : Obligations.LoadAndStoreOwn := by
  unfold Obligations.LoadAndStoreOwn
  refine ⟨?_, ?_⟩
  · intro d a t off s x c1 ht hd ha e n
    obtain ⟨r, m, k, hc⟩ := freed_eq ha
    have hlocks : (freeS a c1).locks = s.me.locks := by rw [hc]
    have hact : (freeS a c1).act = s.me.act := by rw [hc]
    have hpc : (freeS a c1).pc = s.me.pc := by rw [hc]
    refine ⟨?_, execLd_misaligned hd ha, execLd_none hd ha, ?_⟩
    · rintro cc c' ⟨hown, hcc, hclean⟩ hw
      have hplace := place_of_ownRange hown
      obtain ⟨hal, -, -, hlock⟩ := hown
      rw [← hact] at hcc
      rw [← hlocks] at hlock
      rw [← extend_nat cc.mem e.toNat ht] at hw
      rw [execLd_own hd ha hal hplace, bind_ok (ownRead_ok hlock hcc hclean)]
      exact congrArg (finish s) (bind_ok hw)
    · intro l hal hplace hlock
      rw [← hlocks] at hlock
      rw [execLd_own hd ha hal hplace, bind_error (ownRead_locked hlock), ← finish_trap hpc]
      rfl
  · intro t a b off s x y c1 c2 ht hreads ha hb e n c
    obtain ⟨r, m, k, hc⟩ := freed_eq₂ ha hb
    have hlocks : (freeS b (freeS a c2)).locks = s.me.locks := by rw [hc]
    have hlen : (bytesOf y.toNat n).length = n := bytesOf_length _ _
    refine ⟨?_, execSt_misaligned hreads ha hb, execSt_none hreads ha hb, ?_⟩
    · intro hown hroom
      have hplace := place_of_ownRange hown
      obtain ⟨hal, -, -, hlock⟩ := hown
      exact execSt_own hreads ha hb hal hplace (ownStore_free (by rw [hlen]; exact hroom) (by rw [hlen, hlocks]; exact hlock))
    · intro l hal hplace hroom hlock
      obtain ⟨r, hstore⟩ := ownStore_locked (bs := bytesOf y.toNat n) (by rw [hlen]; exact hroom) (by rw [hlen, hlocks]; exact hlock)
      refine ⟨_, execSt_own hreads ha hb hal hplace hstore, ?_, rfl, ?_⟩
      · change (freeS b (freeS a c2)).mem = _
        rw [hc]
      · have hhead := (readS_atHead ha).trans ((readS_atHead hb).trans ((freeS_atHead a c2).trans (freeS_atHead b _)))
        exact hhead.succ

end Sys2Proof.Machine
end

