-- ==== Sys2Proof/Proofs/Messages.lean ====
section
/-! SEND, SENDM, SPAWN, LAUNCH and STEALC (spec/05 R141, R142, spec/17 R370 to R372). -/

namespace Sys2Proof.Machine

open Safety

variable {s : State} {c : Core}

/-! ### Blocks of own memory that an instruction reads -/

/-- The core c is s's core in focus with its operands read and freed. -/
def Freed (s : State) (c : Core) : Prop := ∃ r l k, c = { s.me with regs := r, streams := l, nund := k }

theorem Freed.atHead (h : Freed s c) : AtHead s.me c := by
  obtain ⟨_, _, _, rfl⟩ := h
  exact ⟨rfl, rfl, rfl⟩

theorem Freed.locks (h : Freed s c) : c.locks = s.me.locks := by
  obtain ⟨_, _, _, rfl⟩ := h
  rfl

theorem Freed.ctx (h : Freed s c) : c.act.ctx = s.me.act.ctx := by
  obtain ⟨_, _, _, rfl⟩ := h
  rfl

theorem Freed.isArray (h : Freed s c) (b : Nat) : c.isArray b = s.me.isArray b := by
  obtain ⟨_, _, _, rfl⟩ := h
  rfl

/-- The open segment and the counters of messages and tasks are those of the core before its reads. -/
theorem Freed.kept (h : Freed s c) : c.seg = s.me.seg ∧ c.mseq = s.me.mseq ∧ c.tseq = s.me.tseq := by
  obtain ⟨_, _, _, rfl⟩ := h
  exact ⟨rfl, rfl, rfl⟩

theorem Claimed.kept {c' : Core} (h : Claimed c c') :
    c'.act = c.act ∧ c'.streams = c.streams ∧ c'.seg = c.seg ∧ c'.mseq = c.mseq ∧ c'.tseq = c.tseq := by
  obtain ⟨_, _, _, _, _, _, _, _, _, rfl⟩ := h
  exact ⟨rfl, rfl, rfl, rfl, rfl⟩

theorem claimed_of_ownAt {x : W64} {n : Nat} {cc : Core} (h : OwnAt s c x n cc) : Claimed c cc := by
  obtain ⟨-, rfl, -⟩ := h
  exact claimAll_claimed c _ _ _

/-- An aligned block of 64 bytes lies in one bank. -/
theorem ownArray_of_ownRange {x : W64} (hc : Freed s c) (h : OwnRange s x 64) : c.ownArray x 64 = true := by
  obtain ⟨hal, hlt, harray, -⟩ := h
  have hend : x.toNat + 64 ≤ 2 ^ 20 := by omega
  have hone : (x.toNat + 64 - 1) / 65536 + 1 - x.toNat / 65536 = 1 := by omega
  rw [Core.ownArray, decide_eq_true hend, hone]
  simpa [hc.isArray] using harray

theorem ownBlock_ok {x : W64} {cc : Core} (hc : Freed s c) (h : OwnAt s c x 64 cc) : ownBlock c x = .ok (Mem.msg cc.mem x.toNat, cc) := by
  obtain ⟨hrange, hcc, hclean⟩ := h
  have ⟨hal, _⟩ := hrange
  have harray := ownArray_of_ownRange hc hrange
  rw [← hc.ctx] at hcc
  subst hcc
  exact (bind_ok (need_ok (decide_eq_true hal))).trans ((bind_ok (need_ok harray)).trans (bind_ok (notPoisoned_ok hclean)))

theorem sendBlock_ok {x : W64} {cc : Core} (hc : Freed s c) (h : OwnAt s c x 64 cc) : sendBlock c x = .ok (Mem.msg cc.mem x.toNat, cc) := by
  have ⟨hrange, _, _⟩ := h
  have ⟨hal, _, _, hlock⟩ := hrange
  rw [← hc.locks] at hlock
  refine (bind_ok (need_ok (decide_eq_true hal))).trans ((bind_ok (need_ok (ownArray_of_ownRange hc hrange))).trans ?_)
  exact (bind_ok (notLocked_ok hlock)).trans (ownBlock_ok hc h)

theorem sendBlock_misaligned {x : W64} (h : x.toNat % 64 ≠ 0) : sendBlock c x = trap c 0x201 x 64 0 :=
  bind_error (need_error (decide_eq_false h))

/-! ### Headers (spec/03 R48) -/

/-- The reserved bits of a send descriptor, as a word. -/
theorem descBits_and (w : W64) : w.toNat &&& descBits = (w &&& 0xFF00000F000007FF).toNat := rfl

theorem descBits_and_eq_zero {w : W64} : w.toNat &&& descBits = 0 ↔ w &&& 0xFF00000F000007FF = 0 := by
  rw [descBits_and, ← BitVec.toNat_inj]
  rfl

theorem ofNat_descBits_and (w : W64) : ofNat (w.toNat &&& descBits) = w &&& 0xFF00000F000007FF := by
  rw [descBits_and, ofNat, BitVec.ofNat_toNat, BitVec.setWidth_eq]

/-- Bits 35 to 32 of a descriptor without reserved bits are zero. -/
theorem desc_gap {w : W64} (h : w &&& 0xFF00000F000007FF = 0) : w.toNat / 2 ^ 32 % 16 = 0 := by
  have hw : w.toNat &&& 0xFF00000F000007FF = 0 := congrArg BitVec.toNat h
  have hlow := and_two_pow_mul_add (k := 32) (r := 0x7FF) (by decide) w.toNat 0xFF00000F
  have hhigh := and_two_pow_mul_add (k := 4) (r := 2 ^ 4 - 1) (by decide) (w.toNat / 2 ^ 32) 0xFF00000
  rw [Nat.and_two_pow_sub_one_eq_mod] at hhigh
  norm_num at hlow hhigh
  omega

theorem header_fields {w : W64} {ctx pkg : BitVec 8} {core : Nat} {seq : BitVec 11} (hgap : w.toNat / 2 ^ 32 % 16 = 0) (hcore : core < 8192) :
    (header w ctx pkg core seq).extractLsb' 56 8 = ctx ∧ bits (header w ctx pkg core seq) 55 32 = bits w 55 32 ∧
      (header w ctx pkg core seq).extractLsb' 24 8 = pkg ∧ bits (header w ctx pkg core seq) 23 11 = core ∧
      (header w ctx pkg core seq).setWidth 11 = seq := by
  have hctx := ctx.isLt
  have hpkg := pkg.isLt
  have hseq := seq.isLt
  have hval : (header w ctx pkg core seq).toNat =
      ctx.toNat * 2 ^ 56 + w.toNat / 2 ^ 35 % 2 ^ 21 * 2 ^ 35 + pkg.toNat * 2 ^ 24 + core * 2 ^ 11 + seq.toNat := by
    have hzero : bits w 33 32 = 0 := by rw [bits_eq]; omega
    rw [header, hzero, bits_eq, ofNat, BitVec.toNat_ofNat, Nat.mod_eq_of_lt] <;> simp only [put] <;> omega
  refine ⟨BitVec.eq_of_toNat_eq ?_, ?_, BitVec.eq_of_toNat_eq ?_, ?_, BitVec.eq_of_toNat_eq ?_⟩
  · rw [toNat_extractLsb'_eq, hval]; omega
  · rw [bits_eq, bits_eq, hval]; omega
  · rw [toNat_extractLsb'_eq, hval]; omega
  · rw [bits_eq, hval]; omega
  · rw [BitVec.toNat_setWidth, hval]; omega

/-! ### SEND and SENDM (spec/05 R141, R142) -/

theorem msgOf_toList {ws : List W64} (h : ws.length = 8) : (msgOf ws).toList = ws := by
  match ws, h with
  | [_, _, _, _, _, _, _, _], _ => rfl

/-- A message of header h and the words ws that a SEND of descriptor w hands to the outbox; c is the core with its operands freed. -/
def SentAs (s : State) (c : Core) (w : W64) (ws : List W64) (o : Out) : Prop :=
  ∃ t m h, o = .next t ∧
    t.me.seg.out = s.me.seg.out ++ [⟨.msg m (bits w 31 24) (bits w 23 11) none, .waiting⟩] ∧ m.toList = h :: s.me.ctl.tid :: ws ∧
    h.extractLsb' 56 8 = s.me.act.ctx ∧ bits h 55 32 = bits w 55 32 ∧ h.extractLsb' 24 8 = s.pkgid ∧ bits h 23 11 = s.cur ∧
    h.setWidth 11 = s.me.mseq ∧ t.me.mseq = s.me.mseq + 1 ∧ t.me.pc = s.me.succ s.me.pc ∧ t.me.regs = c.regs ∧ t.me.mem = c.mem

/-- What SEND and SENDM leave once their message stands. -/
theorem outMsg_sentAs {w : W64} {ws : List W64} {cc : Core} (hcur : s.cur < 8192) (hw : w &&& 0xFF00000F000007FF = 0) (hlen : ws.length = 6)
    (hc : Freed s c) (hcc : Claimed c cc) :
    SentAs s cc w ws (.next (outMsg s cc (msgOf (s.head w :: s.me.ctl.tid :: ws)) (descPkg w) (descCore w) none)) := by
  obtain ⟨hctx, hbits, hpkg, hcore, hseq⟩ := header_fields (ctx := s.me.act.ctx) (pkg := s.pkgid) (seq := s.me.mseq) (desc_gap hw) hcur
  obtain ⟨hcseg, hcmseq, -⟩ := hc.kept
  obtain ⟨-, -, hseg, hmseq, -⟩ := hcc.kept
  refine ⟨_, msgOf (s.head w :: s.me.ctl.tid :: ws), s.head w, rfl, ?_, ?_, hctx, hbits, hpkg, hcore, hseq, ?_, (hc.atHead.trans hcc.stored.atHead).succ, rfl, rfl⟩
  · change cc.seg.out ++ _ = _
    rw [hseg, hcseg]
    rfl
  · exact msgOf_toList (congrArg (· + 2) hlen)
  · exact congrArg (· + 1) (hmseq.trans hcmseq)

theorem msg_drop_length (m : Msg) : (m.toList.drop 2).length = 6 := by simp

section Send

variable {a b : Src} {w x : W64} {c1 c2 : Core}

theorem execSend_bad (hreads : s.me.reads = []) (ha : readS a s.me = .ok (w, c1)) (hb : readS b c1 = .ok (x, c2))
    (hw : w &&& 0xFF00000F000007FF ≠ 0) : exec (.send a b) s = traps s 0x002 w (w &&& 0xFF00000F000007FF) 1 ∧
      exec (.sendm a b) s = traps s 0x002 w (w &&& 0xFF00000F000007FF) 1 := by
  rw [← ofNat_descBits_and]
  have hbad := decide_eq_false (mt descBits_and_eq_zero.1 hw)
  refine ⟨congrArg (finish s) (a₂ := trap s.me 0x002 _ _ 1) ?_, congrArg (finish s) (a₂ := trap s.me 0x002 _ _ 1) ?_⟩
  · exact (bind_ok (readsDone_ok hreads)).trans ((bind_ok ha).trans ((bind_ok hb).trans (bind_error (need_error hbad))))
  · exact (bind_ok (readsDone_ok hreads)).trans ((bind_ok ha).trans ((bind_ok hb).trans (bind_error (need_error hbad))))

theorem execSend_ok (hreads : s.me.reads = []) (ha : readS a s.me = .ok (w, c1)) (hb : readS b c1 = .ok (x, c2))
    (hw : w &&& 0xFF00000F000007FF = 0) (hroom : needOut s.me 1 = .ok ()) :
    exec (.send a b) s = .next (outMsg s (freeS b (freeS a c2)) (msgOf (s.head w :: s.me.ctl.tid :: [s.me.ctl.wid, x, 0, 0, 0, 0]))
      (descPkg w) (descCore w) none) := by
  refine congrArg (finish s) (a₂ := .ok _) ?_
  refine (bind_ok (readsDone_ok hreads)).trans ((bind_ok ha).trans ((bind_ok hb).trans ((bind_ok (need_ok ?_)).trans ?_)))
  · exact decide_eq_true (descBits_and_eq_zero.2 hw)
  · exact bind_ok hroom

/-- SENDM up to its block. -/
theorem execSendm_block (hreads : s.me.reads = []) (ha : readS a s.me = .ok (w, c1)) (hb : readS b c1 = .ok (x, c2))
    (hw : w &&& 0xFF00000F000007FF = 0) :
    exec (.sendm a b) s = finish s (sendBlock (freeS b (freeS a c2)) x >>= fun r => needOut s.me 1 >>= fun _ =>
      .ok (outMsg s r.2 (msgOf (s.head w :: s.me.ctl.tid :: r.1.toList.drop 2)) (descPkg w) (descCore w) none)) := by
  refine congrArg (finish s) ?_
  exact (bind_ok (readsDone_ok hreads)).trans ((bind_ok ha).trans ((bind_ok hb).trans
    (bind_ok (need_ok (decide_eq_true (descBits_and_eq_zero.2 hw))))))

end Send

/-! ### The own deque under claims (spec/07 R162, spec/17 R360) -/

theorem bank_setBank_ne (c : Core) {b k : Nat} (v : Bank) (h : b ≠ k) : (c.setBank b v).bank k = c.bank k := by
  rw [Core.bank, Core.bank, Core.setBank, Vector.toList_setIfInBounds, List.getD_eq_getElem?_getD, List.getElem?_set_ne h,
    ← List.getD_eq_getElem?_getD]

/-- The core c' has the deque of c, whose metadata context x owns. -/
def SameDeque (x : BitVec 8) (c c' : Core) : Prop := c'.deque = c.deque ∧ (c'.bank 14).owner = x

theorem claimBank_owned {x : BitVec 8} {b : Nat} (h : (c.bank b).owner = x) : c.claimBank x b = c := if_pos h

theorem claimBank_sameDeque {x : BitVec 8} {c' : Core} (b : Nat) (h : SameDeque x c c') : SameDeque x c (c'.claimBank x b) := by
  obtain ⟨hdeque, howner⟩ := h
  by_cases hk : (c'.bank b).owner = x
  · rw [claimBank_owned hk]
    exact ⟨hdeque, howner⟩
  · have hb : b ≠ 14 := by rintro rfl; exact hk howner
    have hbank (v : Bank) : ((c'.setBank b v).bank 14).owner = x := (congrArg Bank.owner (bank_setBank_ne c' v hb)).trans howner
    simp only [Core.claimBank, hk, hb, if_false]
    split
    · exact ⟨hdeque, hbank _⟩
    · exact ⟨hdeque, hbank _⟩

theorem claim_sameDeque {x : BitVec 8} {c' : Core} (n : Nat) (h : SameDeque x c c') : SameDeque x c (c'.claim x n) := by
  unfold Core.claim
  split
  · exact h
  · exact h

theorem claimAll_sameDeque {x : BitVec 8} (a n : Nat) (h : (c.bank 14).owner = x) : SameDeque x c (c.claimAll x a n) :=
  foldl_keeps (SameDeque x c) (fun _ _ hk => claim_sameDeque _ (claimBank_sameDeque _ hk)) _ ⟨rfl, h⟩

/-! ### SPAWN (spec/17 R370) -/

/-- The target of a SPAWN descriptor is a core of the launch, inside the scope. -/
def spawnTarget (s : State) (sc : Scope) (w : W64) : Bool :=
  let l := s.lease (rowId (descCore w))
  w.extractLsb' 48 8 == s.me.act.lnch && decide (descPkg w = s.pkgid.toNat) && s.inScope sc (.local (descCore w) 0) &&
    (s.ctx s.me.act.ctx.toNat).hasCluster (clusterOf (descCore w)) && l.st == .running && l.ctx == s.me.act.ctx && l.cur == s.me.act.lnch

theorem spawnTarget_iff {sc : Scope} {w : W64} :
    let k := bits w 23 11
    let l := s.lease (rowId k)
    spawnTarget s sc w = true ↔ w.extractLsb' 48 8 = s.me.act.lnch ∧ w.extractLsb' 24 8 = s.pkgid ∧ s.inScope sc (.local k 0) = true ∧
      (s.ctx s.me.act.ctx.toNat).hasCluster (clusterOf k) = true ∧ l.st = .running ∧ l.ctx = s.me.act.ctx ∧ l.cur = s.me.act.lnch := by
  have hpkg : descPkg w = s.pkgid.toNat ↔ w.extractLsb' 24 8 = s.pkgid := by
    rw [← BitVec.toNat_inj, toNat_extractLsb'_eq, descPkg, bits_eq]
  simp only [spawnTarget, Bool.and_eq_true, beq_iff_eq, decide_eq_true_eq, hpkg, and_assoc]
  rfl

section Spawn

variable {d : BitVec 6} {a b : Src} {sc : Scope} {w x : W64} {c1 c2 cc : Core}

/-- SPAWN up to the check of its target. -/
theorem execSpawn_target (hirrev : s.me.irrev = none) (hreads : s.me.reads = []) (hd : destS d s.me = .ok ()) (ha : readS a s.me = .ok (w, c1))
    (hb : readS b c1 = .ok (x, c2)) (hw : w &&& 0xFF00000F000007FF = 0) :
    exec (.spawn d a b sc) s = finish s (need (spawnTarget s sc w) (.trap (precise s.me 0x202 w 0 0)) >>= fun _ =>
      sendBlock (freeS b (freeS a c2)) x >>= fun r =>
        if descCore w = s.cur ∨ s.me.gang.isSome then ownSpawn s d (s.taskRecord w r.1) r.2
        else irrevocable s d r.2 (.ok (.local (descCore w) 0, .spawn (descCore w) (s.taskRecord w r.1)))) := by
  change execSpawn d a b sc s = _
  unfold execSpawn
  split
  next h => rw [hirrev] at h; cases h
  next =>
    refine congrArg (finish s) ?_
    exact (bind_ok (readsDone_ok hreads)).trans ((bind_ok hd).trans ((bind_ok ha).trans ((bind_ok hb).trans
      (bind_ok (need_ok (decide_eq_true (descBits_and_eq_zero.2 hw)))))))

/-- SPAWN to a target it may name, with its block read: the core's own deque, or another core's. -/
theorem execSpawn_block (hirrev : s.me.irrev = none) (hreads : s.me.reads = []) (hd : destS d s.me = .ok ()) (ha : readS a s.me = .ok (w, c1))
    (hb : readS b c1 = .ok (x, c2)) (hw : w &&& 0xFF00000F000007FF = 0) (ht : spawnTarget s sc w = true)
    (hown : OwnAt s (freeS b (freeS a c2)) x 64 cc) :
    let r := s.taskRecord w (Mem.msg cc.mem x.toNat)
    (bits w 23 11 = s.cur ∨ s.me.gang.isSome = true → exec (.spawn d a b sc) s = finish s (ownSpawn s d r cc)) ∧
      (bits w 23 11 ≠ s.cur → s.me.gang = none → exec (.spawn d a b sc) s =
        finish s (irrevocable s d cc (.ok (.local (bits w 23 11) 0, .spawn (bits w 23 11) r)))) := by
  rw [execSpawn_target hirrev hreads hd ha hb hw, bind_ok (need_ok ht), bind_ok (sendBlock_ok (freed_eq₂ ha hb) hown)]
  exact ⟨fun hk => congrArg (finish s) (if_pos hk), fun hk hg => congrArg (finish s) (if_neg (not_or.2 ⟨hk, by simp [hg]⟩))⟩

end Spawn

/-- The core after the push of task record r at the bottom of its own deque, before the destination is written. -/
def pushedOwn (s : State) (c : Core) (r : Msg) : Core :=
  let task : TaskRec := ⟨r, some c.seg.id, s.gt, false⟩
  ({ c.holdDeque c.dequeLines with deque := c.deque ++ [task], tseq := c.tseq + 1 } : Core).setSts .ok

theorem ownSpawn_full {d : BitVec 6} {m : Msg} {c' : Core} (howner : (c.bank 14).owner = c.act.ctx) (hfull : 1024 ≤ c.deque.length)
    (hroom : needLines c [dequeMeta] = .ok ()) (hw : writeS d 0 ((c.holdDeque [dequeMeta]).setSts .full) = .ok c') :
    ownSpawn s d m c = .ok { s with me := c'.served1 } := by
  rw [ownSpawn, claimBank_owned howner]
  exact (if_pos hfull).trans ((bind_ok hroom).trans (bind_ok hw))

theorem ownSpawn_push {d : BitVec 6} {m : Msg} {c' : Core} (howner : (c.bank 14).owner = c.act.ctx) (hfree : c.deque.length < 1024)
    (hroom : needLines c c.dequeLines = .ok ()) (hw : writeS d (m.toList.getD 1 0) (pushedOwn s c m) = .ok c') :
    ownSpawn s d m c = .ok { s with me := c'.served1 } := by
  rw [ownSpawn, claimBank_owned howner]
  exact (if_neg (Nat.not_le.2 hfree)).trans ((bind_ok hroom).trans (bind_ok hw))

theorem taskId_fields {q : BitVec 43} (hcur : s.cur < 8192) :
    (s.taskId q).extractLsb' 56 8 = s.pkgid ∧ bits (s.taskId q) 55 43 = s.cur ∧ (s.taskId q).setWidth 43 = q := by
  have hpkg := s.pkgid.isLt
  have hq := q.isLt
  have hval : (s.taskId q).toNat = s.pkgid.toNat * 2 ^ 56 + s.cur * 2 ^ 43 + q.toNat := by
    rw [State.taskId, ofNat, BitVec.toNat_ofNat, Nat.mod_eq_of_lt (by simp only [put]; omega)]
    rfl
  refine ⟨BitVec.eq_of_toNat_eq ?_, ?_, BitVec.eq_of_toNat_eq ?_⟩
  · rw [toNat_extractLsb'_eq, hval]; omega
  · rw [bits_eq, hval]; omega
  · rw [BitVec.toNat_setWidth, hval]; omega

/-- A task record: its words after the header. -/
theorem taskRecord_drop (w : W64) (m : Msg) : (s.taskRecord w m).toList.drop 1 = s.taskId (s.me.tseq + 1) :: m.toList.drop 2 := by
  rw [State.taskRecord, msgOf_toList (congrArg (· + 2) (msg_drop_length m))]
  rfl

/-- A push that is done: the task stands at the bottom, and its identifier in the destination. -/
theorem pushedOwn_served (m : Msg) (d : BitVec 6) (y : W64) :
    let c' := ((pushedOwn s c m).setS d (.full y)).served1
    c'.deque = c.deque ++ [⟨m, some c.seg.id, s.gt, false⟩] ∧ c'.tseq = c.tseq + 1 ∧ c'.ctl.sts = 0 ∧ c'.mem = c.mem ∧
      c'.pc = c.succ c.pc ∧ (d ≠ 0 → c'.regs.getS d = .full y) := by
  refine ⟨?_, ?_, ?_, ?_, ?_, fun hd => ?_⟩
  · simp [Core.served1, Core.retire, pushedOwn, Core.setSts]
  · simp [Core.served1, Core.retire, pushedOwn, Core.setSts]
  · simp [Core.served1, Core.retire, pushedOwn, Core.setSts, StsCode.code, ofNat]
  · simp [Core.served1, Core.retire, pushedOwn, Core.setSts, Core.holdDeque]
  · exact (setS_stored (pushedOwn s c m) d _).atHead.succ
  · exact (getS_setS _ d d _).trans (if_pos ⟨rfl, hd⟩)

/-- The deque and the streams of a core that has read a block for a push. -/
theorem claimed_deque {x : W64} {cc : Core} (hc : Freed s c) (hown : OwnAt s c x 64 cc) (howner : (s.me.bank 14).owner = s.me.act.ctx) :
    cc.deque = s.me.deque ∧ (cc.bank 14).owner = cc.act.ctx := by
  obtain ⟨-, rfl, -⟩ := hown
  obtain ⟨hact, -⟩ := (claimAll_claimed c s.me.act.ctx x.toNat 64).kept
  obtain ⟨r, l, k, rfl⟩ := hc
  obtain ⟨hdeque, hkeep⟩ := claimAll_sameDeque (c := { s.me with regs := r, streams := l, nund := k }) x.toNat 64 howner
  exact ⟨hdeque, hkeep.trans (congrArg Act.ctx hact).symm⟩

theorem readS_unbound {a : Src} {w : W64} {c1 : Core} (h : c.streams = []) (ha : readS a c = .ok (w, c1)) : c1.streams = [] := by
  rw [readS_plain (stream?_nil h _)] at ha
  obtain ⟨_, rfl⟩ := readCell_frame ha
  exact h

theorem freeS_unbound (a : Src) (h : c.streams = []) : (freeS a c).streams = [] := by
  obtain ⟨_, hfree⟩ := freeS_eq a c
  rw [hfree]
  exact h

/-- An access that needs a boundary first takes it, where it can (spec/03 R76). -/
theorem irrevocable_first {d : BitVec 6} {go : Res (Home × Req)} (hirrev : s.me.irrev = none) (h : atBoundary s.me) :
    irrevocable s d c go =
      .ok { s with me := { (s.me.close .irrevocable s.me.pc .nothing) with irrev := some .bounded, wait := some .commit } } := by
  rw [irrevocable, hirrev]
  exact bind_ok (boundaryReady_of_atBoundary h)

/-! ### LAUNCH and STEALC (spec/17 R371, R372) -/

section Launch

variable {a : Src} {x : W64} {c1 cc : Core}

theorem execLaunch_block (hreads : s.me.reads = []) (ha : readS a s.me = .ok (x, c1)) (hown : OwnAt s (freeS a c1) x 64 cc)
    (hmask : launchMask (Mem.msg cc.mem x.toNat) s.me.act.ctx = 0) :
    exec (.launch a) s = finish s (
      need ((launchClusters (Mem.msg cc.mem x.toNat)).all fun k => (s.ctx s.me.act.ctx.toNat).hasCluster k) (.trap (precise s.me 0x202 x 0 0))
        >>= fun _ => needOut s.me 1 >>= fun _ =>
          let c3 := cc.outAdd (.launch (Mem.msg cc.mem x.toNat) (dieOf s.cur) s.me.tseq.toNat)
          .ok { s with me := { c3 with tseq := c3.tseq + BitVec.ofNat 43 (bits ((Mem.msg cc.mem x.toNat).toList.getD 6 0) 19 0) }.retire }) := by
  refine congrArg (finish s) ?_
  exact (bind_ok (readsDone_ok hreads)).trans ((bind_ok ha).trans ((bind_ok (sendBlock_ok (freed_eq ha) hown)).trans
    (bind_ok (need_ok (decide_eq_true hmask)))))

end Launch

/-- Settles O30: each instruction reads its block, and then hands its message or record to the outbox, or its task to the deque. -/
theorem messagesAndTasks : Obligations.MessagesAndTasks := by
  unfold Obligations.MessagesAndTasks
  refine ⟨?_, ?_, ?_, ?_⟩
  · intro a b s w x c1 c2 hcur hreads ha hb c bad
    have hc : Freed s c := freed_eq₂ ha hb
    refine ⟨execSend_bad hreads ha hb, fun hbad hroom => ?_, fun hbad hal => ?_, fun cc hbad hroom hown => ?_⟩
    · rw [execSend_ok hreads ha hb hbad hroom]
      exact outMsg_sentAs hcur hbad rfl hc (.refl c)
    · rw [execSendm_block hreads ha hb hbad, bind_error (sendBlock_misaligned hal), ← finish_trap hc.atHead.pc]
      rfl
    · rw [execSendm_block hreads ha hb hbad, bind_ok (sendBlock_ok hc hown), bind_ok hroom]
      exact outMsg_sentAs hcur hbad (msg_drop_length _) hc (claimed_of_ownAt hown)
  · intro d a b sc s w x c1 c2 hcur hirrev hreads hstr hd ha hb hw k l ok
    have hc : Freed s (freeS b (freeS a c2)) := freed_eq₂ ha hb
    refine ⟨fun hok => ?_, fun cc hok hown hk hlen howner hroom => ?_, fun cc hok hown hk hlen howner hroom c' hw' => ?_,
      fun cc hok hown hk hg hbound => ?_⟩
    · have hno : spawnTarget s sc w = false := Bool.eq_false_iff.2 (mt spawnTarget_iff.1 hok)
      rw [execSpawn_target hirrev hreads hd ha hb hw, bind_error (need_error hno)]
      rfl
    · obtain ⟨hdeque, hbank⟩ := claimed_deque hc hown howner
      have hclaim := claimed_of_ownAt hown
      obtain ⟨-, hstr', -, -, htseq'⟩ := hclaim.kept
      obtain ⟨-, -, hctseq⟩ := hc.kept
      rw [freeS_unbound b (freeS_unbound a (readS_unbound (readS_unbound hstr ha) hb))] at hstr'
      rw [hctseq] at htseq'
      obtain ⟨hpush, htseq, hsts, hmem, hpc, hreg⟩ := pushedOwn_served (s := s) (c := cc) (s.taskRecord w (Mem.msg cc.mem x.toNat)) d
        (s.taskId (s.me.tseq + 1))
      obtain ⟨hpkg, hcore, hseq⟩ := taskId_fields (s := s) (q := s.me.tseq + 1) hcur
      rw [hdeque] at hpush
      rw [htseq'] at htseq
      have hdone := ownSpawn_push (s := s) (d := d) (m := s.taskRecord w (Mem.msg cc.mem x.toNat)) hbank (hdeque ▸ hlen) hroom
        (writeS_plain _ (stream?_nil hstr' _))
      have hexec := ((execSpawn_block hirrev hreads hd ha hb hw (spawnTarget_iff.2 hok) hown).1 hk).trans (congrArg (finish s) hdone)
      exact ⟨_, _, s.taskId (s.me.tseq + 1), hexec, hpush, taskRecord_drop w _, hpkg, hcore, hseq, htseq, hsts, hreg,
        hpc.trans (hc.atHead.trans hclaim.stored.atHead).succ, hmem⟩
    · obtain ⟨hdeque, hbank⟩ := claimed_deque hc hown howner
      rw [(execSpawn_block hirrev hreads hd ha hb hw (spawnTarget_iff.2 hok) hown).1 hk]
      exact congrArg (finish s) (ownSpawn_full hbank (hdeque ▸ hlen) hroom hw')
    · rw [(execSpawn_block hirrev hreads hd ha hb hw (spawnTarget_iff.2 hok) hown).2 hk hg, irrevocable_first hirrev hbound]
      exact ⟨_, rfl, List.map_append, rfl, rfl, rfl, rfl, rfl⟩
  · intro a s x c1 cc hreads ha hown m hmask hroom
    have hc : Freed s (freeS a c1) := freed_eq ha
    rw [execLaunch_block hreads ha hown hmask]
    refine ⟨fun hall => ?_, fun hall => ?_⟩
    · rw [bind_ok (need_ok hall), bind_ok hroom]
      have hclaim := claimed_of_ownAt hown
      obtain ⟨-, -, hseg, -, htseq⟩ := hclaim.kept
      obtain ⟨hcseg, -, hctseq⟩ := hc.kept
      refine ⟨_, rfl, ?_, congrArg (· + _) (htseq.trans hctseq), (hc.atHead.trans hclaim.stored.atHead).succ, rfl⟩
      change cc.seg.out ++ _ = _
      rw [hseg, hcseg]
    · rw [bind_error (need_error hall)]
      rfl
  · intro d k clr s c' hd hk hw
    change execStealc d k clr s = _
    refine coreOp_done ?_
    exact (bind_ok hd).trans ((bind_ok (need_ok (bne_iff_ne.2 hk))).trans hw)

end Sys2Proof.Machine
end

