-- ==== Sys2Proof/Proofs/HomesServe.lean ====
section
/-! Requests at device memory, replies, long-latency results, walks (spec/05 R138, spec/07 R183, R187, spec/03 R55, R76, spec/17 R350, R352). -/

namespace Sys2Proof.Machine

open Safety

variable {s : State} {k : Nat} {p : Packet}

/-! ### Physical memory of the device -/

theorem physBytes_dram {pa : Nat} (h : pa < 2 ^ 55) (n : Nat) : s.physBytes pa n = Mem.bytes s.dram pa n := if_neg (Nat.not_le.2 h)

theorem physPut_dram {pa : Nat} (h : pa < 2 ^ 55) (bs : List Byte) : s.physPut pa bs = { s with dram := Mem.put s.dram pa bs } :=
  if_neg (Nat.not_le.2 h)

/-! ### A request that is served (spec/07 R183, R187) -/

/-- Where a packet's request is performed, its reply takes its place, and the memory is what the request left. -/
theorem receive_replies {f : State → Option (State × Body)} {t : State} {b : Body} (hp : s.chan[k]? = some p) (hchan : t.chan = s.chan)
    (harr : s.arrival p = .fresh) (hf : f s = some (t, b)) :
    ∃ q, (s.receive k p f).chan[k]? = some q ∧ q.src = p.src ∧ q.body = b ∧ (s.receive k p f).dram = t.dram := by
  obtain ⟨l, g, hanswer⟩ := answer_eq t k p b
  obtain ⟨hlt, -⟩ := List.getElem?_eq_some_iff.1 hp
  rw [receive_fresh harr hf, hanswer, hchan]
  exact ⟨_, getElem?_lset _ _ hlt, rfl, rfl, rfl⟩

section Word

variable {id d pa : Nat} {a : W64} {op : WordOp} {tag : BitVec 4} {mode : W64}

/-- A word of device memory whose access has no trap of its own place: what the home does is what the word answers. -/
theorem serve_word (hderr : s.derr = []) (htrap : s.physTrap pa op.size tag a = none) (hpa : pa < 2 ^ 55) :
    (∀ v f, op.run a (natOf (Mem.bytes s.dram pa op.size)) mode = .ok none v f →
      ∃ t, s.serve p id d (.word (.dev pa) a op tag mode) = some (t, .reply id d (.val v none none f)) ∧ t.chan = s.chan ∧ t.dram = s.dram) ∧
    (∀ x v f, op.run a (natOf (Mem.bytes s.dram pa op.size)) mode = .ok (some x) v f →
      ∃ t, s.serve p id d (.word (.dev pa) a op tag mode) = some (t, .reply id d (.val v none none f)) ∧ t.chan = s.chan ∧
        t.dram = Mem.put s.dram pa (bytesOf x op.size)) ∧
    (op.run a (natOf (Mem.bytes s.dram pa op.size)) mode = .poll → s.serve p id d (.word (.dev pa) a op tag mode) = none) := by
  refine ⟨fun v f h => ?_, fun x v f h => ?_, fun h => ?_⟩
  · obtain ⟨l, hl⟩ := charge_eq s p.ctx.toNat (if op.writes then 10 else 9) 1
    refine ⟨{ s with ctxs := l }, ?_, rfl, rfl⟩
    simp only [State.serve, readHome_of_derr_nil hderr, State.serveWord, State.servePhys, htrap, physBytes_dram hpa, h, Option.map_some, hl]
  · obtain ⟨l, hl⟩ := charge_eq { s with dram := Mem.put s.dram pa (bytesOf x op.size) } p.ctx.toNat (if op.writes then 10 else 9) 1
    refine ⟨{ s with dram := Mem.put s.dram pa (bytesOf x op.size), ctxs := l }, ?_, rfl, rfl⟩
    simp only [State.serve, readHome_of_derr_nil hderr, State.serveWord, State.servePhys, htrap, physBytes_dram hpa, physPut_dram hpa, h,
      Option.map_some, hl]
  · simp only [State.serve, readHome_of_derr_nil hderr, State.serveWord, State.servePhys, htrap, physBytes_dram hpa, h, Option.map_none]

/-- The same of the step that serves the packet, which a retest of its WAITM is too. -/
theorem servePacket_word (hp : s.chan[k]? = some p) (hbody : p.body = .request id d (.word (.dev pa) a op tag mode))
    (harr : s.arrival p = .fresh) (hderr : s.derr = []) (htrap : s.physTrap pa op.size tag a = none) (hpa : pa < 2 ^ 55) :
    (∀ v f, op.run a (natOf (Mem.bytes s.dram pa op.size)) mode = .ok none v f → ∃ q, (servePacket k p s).chan[k]? = some q ∧ q.src = p.src ∧
      q.body = .reply id d (.val v none none f) ∧ (servePacket k p s).dram = s.dram) ∧
    (∀ x v f, op.run a (natOf (Mem.bytes s.dram pa op.size)) mode = .ok (some x) v f → ∃ q, (servePacket k p s).chan[k]? = some q ∧
      q.src = p.src ∧ q.body = .reply id d (.val v none none f) ∧ (servePacket k p s).dram = Mem.put s.dram pa (bytesOf x op.size)) ∧
    (op.run a (natOf (Mem.bytes s.dram pa op.size)) mode = .poll → servePacket k p s = s) := by
  have hserve : servePacket k p s = s.receive k p fun s => s.serve p id d (.word (.dev pa) a op tag mode) := by rw [servePacket, hbody]
  obtain ⟨hread, hwrite, hpoll⟩ := serve_word (p := p) (id := id) (d := d) (mode := mode) hderr htrap hpa
  rw [hserve]
  refine ⟨fun v f h => ?_, fun x v f h => ?_, fun h => receive_waits harr (hpoll h)⟩
  · obtain ⟨t, hf, hchan, hdram⟩ := hread v f h
    exact hdram ▸ receive_replies hp hchan harr hf
  · obtain ⟨t, hf, hchan, hdram⟩ := hwrite x v f h
    exact hdram ▸ receive_replies hp hchan harr hf

end Word

/-- A weak read of a line of device memory (spec/05 R138). -/
theorem serveRead_dev {src pa : Nat} {ctx : BitVec 8} {pc : Option W64} {tag : BitVec 4} (htrap : s.physTrap pa 64 tag 0 = none) :
    s.serveRead src ctx pc (.dev pa) tag = some (s.charge ctx.toNat 9 1, .line (.dev pa) (lineOf (s.physBytes pa 64))) := by
  unfold State.serveRead
  simp only [htrap]

theorem serve_line {id d pa : Nat} {tag : BitVec 4} (hderr : s.derr = []) (htrap : s.physTrap pa 64 tag 0 = none) (hpa : pa < 2 ^ 55) :
    ∃ t, s.serve p id d (.read (.dev pa) tag) = some (t, .reply id d (.line (.dev pa) (lineOf (Mem.bytes s.dram pa 64)))) ∧
      t.chan = s.chan ∧ t.dram = s.dram := by
  obtain ⟨l, hl⟩ := charge_eq s p.ctx.toNat 9 1
  refine ⟨{ s with ctxs := l }, ?_, rfl, rfl⟩
  rw [State.serve, readHome_of_derr_nil hderr, serveRead_dev htrap, physBytes_dram hpa, hl, Option.map_some]

/-! ### Replies and results (spec/03 R55, R76) -/

theorem deliver_unbound {c : Core} (h : c.streams = []) (d : BitVec 6) (x : W64) : c.deliver d x = c.setS d (.full x) := by
  rw [Core.deliver, writeS_plain x (stream?_nil h _)]

theorem getS_setS_ofNat (c : Core) {d : Nat} (hd : d < 64) (h0 : d ≠ 0) (x : Cell 64) :
    (c.setS (BitVec.ofNat 6 d) x).regs.getS (BitVec.ofNat 6 d) = x := by
  refine (getS_setS c _ _ x).trans (if_pos ⟨rfl, fun h => h0 ?_⟩)
  have h := congrArg BitVec.toNat h
  rwa [BitVec.toNat_ofNat, Nat.mod_eq_of_lt hd] at h

theorem setS_eq (c : Core) (d : BitVec 6) (x : Cell 64) : ∃ r, c.setS d x = { c with regs := r } := by
  unfold Core.setS
  split
  · exact ⟨_, rfl⟩
  · exact ⟨_, rfl⟩

/-- The end of an irrevocable access by a reply: its value is in the destination, and the head has gone on. -/
theorem accessDone_val {c : Core} {d : Nat} (h : c.streams = []) (hd : d < 64) (v : W64) (f : Fl) :
    let c' := c.accessDone d v none none f
    c'.irrev = none ∧ c'.wait = none ∧ c'.pc = c.succ c.pc ∧ c'.ctl.flg = c.ctl.flg ||| f.setWidth 64 ∧
      (d ≠ 0 → c'.regs.getS (BitVec.ofNat 6 d) = .full v) ∧ c'.rcache = [] ∧ c'.mem = c.mem := by
  obtain ⟨r, hr⟩ := setS_eq c (BitVec.ofNat 6 d) (.full v)
  have hget := getS_setS_ofNat c (x := .full v) hd
  rw [hr] at hget
  rw [Core.accessDone, deliver_unbound h, hr]
  exact ⟨rfl, rfl, rfl, rfl, hget, rfl, rfl⟩

/-- A reply to the access that the core in focus waits for ends it. -/
theorem reply_val {id d : Nat} {v : W64} {f : Fl} (hreads : s.me.reads = []) (hirrev : s.me.irrev = some (.sent id)) :
    s.reply id d (.val v none none f) = { s with me := s.me.accessDone d v none none f } := by
  simp only [State.reply, hreads, List.find?_nil, hirrev, if_true]

/-- A value that answers the access of a core: the packet goes, and the core goes on from its head. -/
theorem execReplyArrival_val {id d : Nat} {v : W64} {f : Fl} (hp : s.chan[k]? = some p) (hbody : p.body = .reply id d (.val v none none f))
    (hl : p.leaves = none) (hreads : (s.core p.src).reads = []) (hirrev : (s.core p.src).irrev = some (.sent id)) :
    ∃ t, exec (.replyArrival k) s = .next t ∧ t.chan = ldel s.chan k ∧ t.core p.src = (s.core p.src).accessDone d v none none f := by
  have hme : (State.focus { s with chan := ldel s.chan k } p.src).me = s.core p.src := focus_me _ _
  have hreply := reply_val (d := d) (v := v) (f := f) (hme ▸ hreads) (hme ▸ hirrev)
  refine ⟨onCore p.src (fun s => s.reply id d (.val v none none f)) { s with chan := ldel s.chan k }, ?_, ?_, ?_⟩
  · change execReplyArrival k s = _
    unfold execReplyArrival
    rw [packetEvent_here _ hp hl, hbody]
  · rw [onCore_focus (by rw [hreply]; exact focus_cur _ _), focus_chan, hreply]
    exact focus_chan _ _
  · rw [onCore_focus (by rw [hreply]; exact focus_cur _ _), focus_core, hreply, hme, State.core]
    exact if_pos (focus_cur _ _).symm

/-- A long-latency result that arrives (spec/03 R55). -/
theorem execResultDelivery_done {j : Nat} {r : Pend} (hk : k < Config.nCores) (hr : (s.focus k).caughtUp.me.pend[j]? = some r) :
    exec (.resultDelivery k j) s = .next (State.focus { (s.focus k).caughtUp with
      me := { ((s.focus k).caughtUp.me.deliver (BitVec.ofNat 6 r.d) r.val) with pend := ldel (s.focus k).caughtUp.me.pend j } } s.cur) := by
  change execResultDelivery k j s = _
  unfold execResultDelivery
  exact coreEvent_some hk (by simp only [hr])

/-! ### Walks (spec/17 R350, R352) -/

theorem newest_length {α : Type} {n : Nat} {l : List α} (hn : 0 < n) (h : l.length ≤ n) (e : α) : (newest (fun _ => true) n l e).length ≤ n := by
  unfold newest
  split
  next hfull =>
    obtain ⟨x, hx⟩ : ∃ x, x ∈ l := List.exists_mem_of_length_pos (hn.trans_le (hfull.trans List.countP_le_length))
    have hlen := List.length_eraseP_of_mem (p := fun _ => true) hx rfl
    rw [List.length_append, hlen, List.length_singleton]
    omega
  next hroom =>
    rw [List.countP_true] at hroom
    rw [List.length_append, List.length_singleton]
    omega

theorem newest_getLast? {α : Type} (q : α → Bool) (n : Nat) (l : List α) (e : α) : (newest q n l e).getLast? = some e := by
  unfold newest
  split
  · exact List.getLast?_concat
  · exact List.getLast?_concat

/-- A walk that finds a page takes it into both tables. -/
theorem walkFill_ok {va : W64} {pa : Nat} (hderr : s.derr = []) (h : s.translate s.me.act.ctx.toNat va false = .ok pa) :
    ∃ wr l, s.walkFill va = (State.fillOwn { s with ctxs := l } va (pa / 2 ^ 21) wr).fillShared va (pa / 2 ^ 21) wr := by
  obtain ⟨l, hl⟩ := charge_eq s s.me.act.ctx.toNat 9 (s.walked s.me.act.ctx.toNat va 4 0 ((s.ctx s.me.act.ctx.toNat).w 3).toNat).length
  have hread (l : List Nat) : l.foldl (fun (s : State) pa => s.readSectors pa 8 none) s = s :=
    List.foldl_fixed' (fun pa => readSectors_of_derr_nil hderr pa 8 none) l
  simp only [State.walkFill, h, hread, hl]
  exact ⟨_, l, rfl⟩

/-- Settles O38: a home answers what it serves, and what arrives completes the access, the result or the table. -/
theorem homesServe : Obligations.HomesServe := by
  unfold Obligations.HomesServe
  refine ⟨?_, ?_, ?_, ?_, ?_⟩
  · intro served k s p id d pa a op tag mode hp hbody hl harr
    have hserved : served s p k id d pa a op tag mode (.next (servePacket k p s)) := by
      intro htrap hpa hderr
      obtain ⟨hread, hwrite, hpoll⟩ := servePacket_word (mode := mode) hp hbody harr hderr htrap hpa
      refine ⟨fun v f h => ?_, fun x v f h => ?_, fun h => congrArg _ (hpoll h)⟩
      · obtain ⟨q, hq⟩ := hread v f h
        exact ⟨_, q, rfl, hq⟩
      · obtain ⟨q, hq⟩ := hwrite x v f h
        exact ⟨_, q, rfl, hq⟩
    have hserve := packetEvent_here (servePacket k) hp hl
    refine ⟨(hserve ▸ hserved :), fun c hc hfind => ?_⟩
    have hretest : exec (.waitmRetest c) s = .next (servePacket k p s) := by
      change execWaitmRetest c s = _
      rw [execWaitmRetest, if_pos hc, hfind]
      exact hserve
    rw [hretest]
    exact hserved
  · intro k s p id d pa tag hp hbody hl hderr harr htrap hpa
    have hserve : servePacket k p s = s.receive k p fun s => s.serve p id d (.read (.dev pa) tag) := by rw [servePacket, hbody]
    obtain ⟨t, hf, hchan, hdram⟩ := serve_line (p := p) (id := id) (d := d) hderr htrap hpa
    obtain ⟨q, hq, -, hb, hmem⟩ := receive_replies (f := fun s => s.serve p id d (.read (.dev pa) tag)) hp hchan harr hf
    rw [← hserve] at hq hmem
    exact ⟨_, q, packetEvent_here (servePacket k) hp hl, hq, hb, hmem.trans hdram⟩
  · intro k s p id d v f hp hbody hl hd hreads hirrev hstr
    obtain ⟨t, hexec, hchan, hcore⟩ := execReplyArrival_val hp hbody hl hreads hirrev
    refine ⟨t, hexec, hchan, ?_⟩
    rw [hcore]
    exact accessDone_val hstr hd v f
  · intro k j s r hk u hr hstr hd
    obtain ⟨regs, hset⟩ := setS_eq u.me (BitVec.ofNat 6 r.d) (.full r.val)
    have hget := getS_setS_ofNat u.me (x := .full r.val) hd
    have hdone := execResultDelivery_done hk hr
    rw [deliver_unbound hstr, hset] at hdone
    rw [hset] at hget
    exact ⟨_, hdone, rfl, hget, rfl, rfl⟩
  · intro k va s pa hk u hderr hok hlen
    obtain ⟨wr, l, hfill⟩ := walkFill_ok hderr hok
    have hcur : u.cur = k := (caughtUp_cur _).trans (focus_cur s k)
    refine ⟨u.walkFill va, coreEvent_some (f := fun s => some (s.walkFill va)) hk rfl, ?_⟩
    rw [hfill, ← hcur]
    refine ⟨newest_length (by decide) ((List.length_filter_le _ _).trans hlen) _, ⟨wr, newest_getLast? _ _ _ _, newest_getLast? _ _ _ _⟩, rfl, rfl⟩

end Sys2Proof.Machine
end

