-- ==== Sys2Proof/Proofs/ResetState.lean ====
section
/-! What reset leaves (spec/07 R165, spec/15 R332, spec/20 R384, spec/21 R406 to R413, R424, spec/24 R438). -/

namespace Sys2Proof.Machine

open Safety

/-- After reset a core is the reset core under its own number. -/
theorem reset_core (k : Nat) : State.reset.core k = { Core.reset with id := k } := by
  unfold State.core
  split
  next h => rw [h]; rfl
  · rfl

theorem reset_bank {k b : Nat} (h : b < 14) : (({ Core.reset with id := k } : Core).bank b).data = .array := by
  interval_cases b <;> rfl

/-- STATE of a descriptor is FREE whatever its id. -/
theorem reset_ctx_state (k : Nat) : (State.reset.ctx k).state = 0 := by
  change bits (BitVec.ofNat 64 (k % 256 * 2 ^ 56)) 55 53 = 0
  rw [bits_eq, BitVec.toNat_ofNat]
  omega

theorem reset_ready : ∀ w ∈ State.reset.ready.toList, w = 0 := by simp [State.reset]

theorem reset_fails : ∀ w ∈ State.reset.fails.toList, w = 0 := by simp [State.reset]

/-- No bit of zero words is set. -/
theorem getD_of_zeros {l : List W64} (h : ∀ w ∈ l, w = 0) (i j : Nat) : (l.getD i 0).getLsbD j = false := by
  have hi : l.getD i 0 = 0 := by
    rw [List.getD_eq_getElem?_getD]
    cases hw : l[i]? with
    | none => rfl
    | some w => exact h w (List.mem_of_getElem? hw)
  rw [hi]
  exact BitVec.getLsbD_zero

theorem reset_channel (ch : Nat) : (State.reset.chan? ch).busy = false := by
  change ((List.replicate 4 Channel.reset).getD ch Channel.reset).busy = false
  rw [List.getD_eq_getElem?_getD, List.getElem?_getD_replicate_default_eq]
  rfl

theorem reset_ring (j : Nat) : (State.reset.ring j).en = false := by
  change HRing.reset.en = false
  decide

theorem reset_canonical : Canonical State.reset :=
  ⟨rfl, List.forall_mem_nil _, List.forall_mem_nil _, rfl, rfl⟩

/-- Settles O58: every list of units is empty at reset, so each unit has its own reset value. -/
theorem resetState : Obligations.ResetState := by
  unfold Obligations.ResetState
  refine ⟨fun k => ?_, fun _ => rfl, fun _ => ⟨reset_ctx_state _, rfl⟩, fun fn => ⟨getD_of_zeros reset_ready _ _, getD_of_zeros reset_fails _ _⟩, reset_channel,
    fun _ => rfl, reset_ring, fun _ => rfl, rfl, rfl, rfl, rfl, rfl, rfl, reset_canonical⟩
  rw [reset_core]
  exact ⟨rfl, rfl, rfl, rfl, rfl, rfl, rfl, rfl, rfl, rfl, fun b hb => reset_bank hb, rfl, rfl⟩

end Sys2Proof.Machine
end

