-- ==== Sys2Proof/Proofs/OwnWrite.lean ====
section
/-! Claims of lines, the undo log, and weak stores to own memory (spec/03 R63, spec/07 R162). -/

namespace Sys2Proof.Machine

open Safety

/-! ### Bytes removed from a memory -/

/-- A byte that the list does not name reads zero. -/
theorem Mem.byte_of_not_listed {m : Mem} {k : Nat} (h : ∀ p ∈ m, p.1 ≠ k) : Mem.byte m k = 0 := by
  induction m with
  | nil => rfl
  | cons p m ih =>
    rw [List.forall_mem_cons] at h
    simp [Mem.byte, Ne.symm h.1, ih h.2]

theorem Mem.byte_clear_inside {m : Mem} {a n k : Nat} (ha : a ≤ k) (hk : k < a + n) : Mem.byte (Mem.clear m a n) k = 0 := by
  refine Mem.byte_of_not_listed fun p hp => ?_
  have hout := (List.mem_filter.1 hp).2
  simp only [Bool.or_eq_true, decide_eq_true_eq] at hout
  omega

/-- What a filter keeps at an address reads as before. -/
theorem Mem.byte_filter {m : Mem} {a k : Nat} {p : Nat × Byte → Bool} (hm : Mem.wfFrom a m = true) (hk : ∀ x, p (k, x) = true) :
    Mem.byte (m.filter p) k = Mem.byte m k := by
  induction m generalizing a with
  | nil => rfl
  | cons q m ih =>
    obtain ⟨j, x⟩ := q
    obtain ⟨-, -, hm⟩ := (Mem.wfFrom_cons ..).1 hm
    rw [List.filter_cons]
    split
    · simp [Mem.byte, ih hm]
    next hp =>
      have hjk : k ≠ j := fun e => hp (e ▸ hk x)
      by_cases hlt : k < j
      · rw [ih hm, Mem.byte_cons_below _ _ hlt, Mem.byte_lt hm (by omega)]
      · simp [Mem.byte, ih hm, hlt, hjk]

theorem Mem.byte_clear_outside {m : Mem} {a n k : Nat} (hm : m.wf = true) (hk : k < a ∨ a + n ≤ k) :
    Mem.byte (Mem.clear m a n) k = Mem.byte m k :=
  Mem.byte_filter hm fun _ => by simpa using hk

/-! ### Claims (spec/07 R162) -/

section Claim

variable {c : Core} {x : BitVec 8} {n : Nat}

theorem claim_own (h : c.lineOwner n = x) : c.claim x n = c := if_pos h

theorem claim_other (h : c.lineOwner n ≠ x) : c.claim x n =
    { c with mem := Mem.clear c.mem (64 * n) 64, owner := aset c.owner n x, poison := c.poison.filter (· != n) } := if_neg h

theorem lineOwner_claim (h : c.lineOwner n ≠ x) (k : Nat) : (c.claim x n).lineOwner k = if k = n then x else c.lineOwner k := by
  rw [claim_other h]
  simp only [Core.lineOwner, aget_aset]
  split <;> rfl

/-- A fold whose steps leave its start alone. -/
theorem foldl_stays {α β : Type} {f : β → α → β} {b : β} {l : List α} (h : ∀ a ∈ l, f b a = b) : l.foldl f b = b := by
  induction l with
  | nil => rfl
  | cons a l ih =>
    rw [List.forall_mem_cons] at h
    rw [List.foldl_cons, h.1, ih h.2]

theorem claimAll_owned {a : Nat} (h : Owned c a n) : c.claimAll c.act.ctx a n = c := by
  refine foldl_stays fun l hl => ?_
  obtain ⟨hline, hbank⟩ := h l hl
  rw [claimBank_owned hbank, claim_own hline]

end Claim

/-! ### The undo log (spec/03 R63) -/

variable {c : Core}

/-- The open segment of c' has logged the lines ns of c, and nothing else of the core differs. -/
def Logs (c c' : Core) (ns : List Nat) : Prop :=
  ∃ undo lines nord, c' = { c with seg := { c.seg with undo := undo, lines := lines }, nord := nord } ∧ c.seg.undo ⊆ undo ∧
    (∀ l, l ∈ lines ↔ l ∈ ns ∨ l ∈ c.seg.lines) ∧
    ∀ l ∈ ns, l ∉ c.seg.lines → ∃ u ∈ undo, u.what = .line l (Mem.line c.mem (64 * l)) (c.poison.contains l)

theorem Logs.nil (c : Core) : Logs c c [] := ⟨_, _, _, rfl, List.Subset.refl _, by simp, by simp⟩

theorem logLine_logs (c : Core) (n : Nat) : Logs c (c.logLine n) [n] := by
  unfold Core.logLine
  split
  next h =>
    have hn : n ∈ c.seg.lines := List.contains_iff_mem.1 h
    exact ⟨_, _, _, rfl, List.Subset.refl _, fun l => ⟨.inr, by rintro (hl | hl); exacts [List.mem_singleton.1 hl ▸ hn, hl]⟩,
      fun l hl hnew => absurd (List.mem_singleton.1 hl ▸ hn) hnew⟩
  · refine ⟨_, _, _, rfl, List.subset_cons_self _ _, fun l => by rw [mem_nunion]; exact or_comm, fun l hl _ => ?_⟩
    obtain rfl := List.mem_singleton.1 hl
    exact ⟨_, List.mem_cons_self, rfl⟩

/-- A line that is logged already keeps its first pre-image. -/
theorem Logs.trans {c' c'' : Core} {ns ms : List Nat} (h : Logs c c' ns) (g : Logs c' c'' ms) : Logs c c'' (ns ++ ms) := by
  obtain ⟨undo, lines, nord, rfl, hundo, hlines, hpre⟩ := h
  obtain ⟨undo', lines', nord', rfl, hundo', hlines', hpre'⟩ := g
  refine ⟨undo', lines', nord', rfl, List.Subset.trans hundo hundo', fun l => ?_, fun l hl hnew => ?_⟩
  · rw [hlines', hlines, List.mem_append]
    tauto
  · by_cases hn : l ∈ ns
    · obtain ⟨u, hu, hw⟩ := hpre l hn hnew
      exact ⟨u, hundo' hu, hw⟩
    · exact hpre' l ((List.mem_append.1 hl).resolve_left hn) fun h => hnew (((hlines l).1 h).resolve_left hn)

theorem logLines_logs (c : Core) (ns : List Nat) : Logs c (ns.foldl Core.logLine c) ns := by
  induction ns generalizing c with
  | nil => exact .nil c
  | cons n ns ih => exact (logLine_logs c n).trans (ih _)

/-- A store to own lines: the lines are logged, then the bytes put. -/
theorem ownWrite_owned {a : Nat} {bs : List Byte} (h : Owned c a bs.length) :
    c.ownWrite a bs = ((linesOf a bs.length).foldl Core.logLine c).poke a bs := by rw [Core.ownWrite, claimAll_owned h]

/-- Settles O21: a claim clears one line, and a store logs its lines and puts its bytes. -/
theorem ownWrite : Obligations.OwnWrite := by
  unfold Obligations.OwnWrite
  refine ⟨⟨fun c x n h => claim_own h, fun c x n h => ?_, fun c a n h => claimAll_owned h⟩, fun c a bs hm hbs hown => ?_⟩
  · refine ⟨by rw [lineOwner_claim h, if_pos rfl], fun a ha => ?_, ?_, fun a ha hm => ?_, fun k hk => by rw [lineOwner_claim h, if_neg hk]⟩
    · rw [claim_other h]
      exact Mem.byte_clear_inside (by omega) (by omega)
    · rw [claim_other h]
      simp
    · rw [claim_other h]
      exact Mem.byte_clear_outside hm (by omega)
  · obtain ⟨undo, lines, nord, hlog, -, hlines, hpre⟩ := logLines_logs c (linesOf a bs.length)
    rw [ownWrite_owned hown, hlog]
    refine ⟨Mem.bytes_put a bs hm, fun k hk => ?_, Mem.wf_put a bs hm, fun l hl => ⟨List.contains_iff_mem.2 ((hlines l).2 (.inl hl)), fun hnew => ?_⟩,
      rfl, rfl, rfl, rfl, rfl, rfl⟩
    · rcases hk with hk | hk
      · exact Mem.byte_put_below bs hm hk
      · exact Mem.byte_put_above bs hm hk
    · exact hpre l hl fun h => Bool.false_ne_true (hnew.symm.trans (List.contains_iff_mem.2 h))

end Sys2Proof.Machine
end

