-- ==== Sys2Proof/Proofs/BankInstructions.lean ====
section
/-! O29 fails: BSPAN takes a bank that another context left as the member of a span for no ARRAY, where spec/07 R162 makes it one for the
context that meets it. -/

namespace Sys2Proof.Machine

/-! ### The counterexample -/

/-- `bspan s1, s2` with a span of two banks led by bank 2 in s2: bank 2 is an empty STACK of context 0, bank 3 the member of a span that
context 5 left at bank 1. -/
def leftSpanCore : Core :=
  { ((Core.reset.setS 2 (.full 0x12)).setBank 2 (Bank.reset (.stack []))).setBank 3 { Bank.reset (.member 1) with owner := 5 } with running := true }

def leftSpan : State := { State.reset with me := leftSpanCore }

/-- The core once the context has claimed bank 2, with its operand read. -/
def leftSpanClaimed : Core := leftSpanCore.claimLines leftSpanCore.act.ctx 2

/-- To context 0, bank 3 is an ARRAY (spec/07 R162). -/
theorem leftSpanClaimed_isArray (j : Nat) (h2 : 2 < j) (h4 : j < 4) : leftSpanClaimed.isArray j = true := by
  obtain rfl : j = 3 := by omega
  decide +kernel

/-- Banks 2 and 3 join in one span, by the last clause of O29. -/
def leftSpanJoined : Res Core :=
  let all := spanBanks 2 2
  let c := all.foldl (fun c j => c.claimLines c.act.ctx j) leftSpanClaimed
  revocable c (c.respan 2 2) all (all.map metaLine)

/-- The change is within the capacity of the segment. -/
theorem leftSpanJoined_ok : ∃ r, leftSpanJoined = .ok r := by
  have h : leftSpanJoined.isOk = true := by decide +kernel
  cases hr : leftSpanJoined with
  | error e => rw [hr] at h; cases h
  | ok r => exact ⟨r, rfl⟩

/-- The banks of the span after the instruction. -/
def spanAfter (s : State) : Option Nat :=
  match exec (.bspan 1 ⟨false, false, 2⟩) s with
  | .next t => some (t.me.bank 2).span
  | _ => none

/-- The instruction traps: bank 2 stays alone. -/
theorem spanAfter_leftSpan : spanAfter leftSpan = some 1 := by decide +kernel

/-- Refutes O29: the two banks join under the conditions of its last clause, and BSPAN raises RANGE. -/
theorem not_bankInstructions : ¬ Obligations.BankInstructions := by
  unfold Obligations.BankInstructions
  rintro ⟨-, -, -, -, -, hjoin⟩
  obtain ⟨r, hr⟩ := leftSpanJoined_ok
  obtain ⟨t, ht, hspan, -⟩ := hjoin 1 ⟨false, false, 2⟩ leftSpan 0x12 leftSpanCore r rfl rfl rfl rfl (by decide) rfl rfl rfl rfl rfl
    (by decide) (by decide) (by decide +kernel) (by decide +kernel) (by decide +kernel) (by decide)
    (fun j => leftSpanClaimed_isArray j) (by decide +kernel) (by decide +kernel) hr
  have hafter := spanAfter_leftSpan
  rw [spanAfter, ht] at hafter
  exact absurd (hspan.symm.trans (Option.some.inj hafter)) (by decide)

end Sys2Proof.Machine
end

