-- ==== Sys2Proof/Proofs/Atomics.lean ====
section
/-! What a home does for the words of atomics, WAITM and byte barriers (spec/07 R186 to R189, spec/15 R325 to R327). -/

namespace Sys2Proof.Machine

open Safety

/-! ### Values at an integer type -/

section Values

variable {t : Ty} {m : Nat}

theorem extend_of_lt (hm : m < 2 ^ t.width) : extend m t = loaded t m := by
  unfold extend loaded
  split
  · rfl
  · rw [Nat.mod_eq_of_lt hm]
    rfl

theorem toNat_ofNat_of_lt (hm : m < 2 ^ t.width) : (ofNat m).toNat = m := by
  rw [ofNat, BitVec.toNat_ofNat, Nat.mod_eq_of_lt (hm.trans_le (Nat.pow_le_pow_right (by decide) (width_bounds t).2))]

theorem patBits_lt (x : W64) (t : Ty) : patBits x t < 2 ^ t.width := Nat.mod_lt _ (Nat.two_pow_pos _)

theorem patBits_ofNat (x : Nat) (t : Ty) : patBits (ofNat x) t = x % 2 ^ t.width := by
  rw [patBits, ofNat, BitVec.toNat_ofNat, Nat.mod_mod_of_dvd x (Nat.pow_dvd_pow 2 (width_bounds t).2)]

/-- The value that a narrowed register stands for, extended again, is its pattern as a load gives it. -/
theorem widen_narrow (x : W64) (t : Ty) : widen (narrow x t) t = loaded t (patBits x t) := by
  unfold loaded
  split
  · refine widen_congr ?_
    rw [narrow_emod, patBits, Int.emod_eq_of_lt (by positivity) (by exact_mod_cast patBits_lt x t)]
  next hs =>
    have hu : (narrow x t % (2 ^ t.width : Int)).toNat = patBits x t := by rw [narrow_emod, patBits, Int.toNat_natCast]
    simp only [widen, hu, Bool.eq_false_iff.2 hs, Bool.false_and, Bool.false_eq_true, if_false]
    rfl

/-- A bit pattern as the number that it stands for. -/
theorem narrow_ofNat (hm : m < 2 ^ t.width) : narrow (ofNat m) t = if t.isSInt then (BitVec.ofNat t.width m).toInt else (m : Int) := by
  rw [narrow, toNat_ofNat_of_lt hm, sext_eq_toInt, Nat.mod_eq_of_lt hm]

theorem intBits_narrow (hm : m < 2 ^ t.width) : intBits t (narrow (ofNat m) t) = m := by
  rw [intBits, narrow_emod, toNat_ofNat_of_lt hm, Int.toNat_natCast, Nat.mod_eq_of_lt hm]

/-- The order of two patterns at an integer type. -/
def patLe (t : Ty) (m p : Nat) : Prop := if t.isSInt then (BitVec.ofNat t.width m).toInt ≤ (BitVec.ofNat t.width p).toInt else m ≤ p

theorem narrow_le_iff {p : Nat} (hm : m < 2 ^ t.width) (hp : p < 2 ^ t.width) : narrow (ofNat m) t ≤ narrow (ofNat p) t ↔ patLe t m p := by
  rw [narrow_ofNat hm, narrow_ofNat hp, patLe]
  split
  · rfl
  · exact Int.ofNat_le

theorem intMinMax_of_le {p : Nat} (hm : m < 2 ^ t.width) (hp : p < 2 ^ t.width) (h : patLe t m p) (isMax : Bool) :
    intMinMax t isMax m p = if isMax then p else m := by
  rw [← narrow_le_iff hm hp] at h
  cases isMax
  · exact (congrArg (intBits t) (min_eq_left h)).trans (intBits_narrow hm)
  · exact (congrArg (intBits t) (max_eq_right h)).trans (intBits_narrow hp)

theorem intMinMax_of_not_le {p : Nat} (hm : m < 2 ^ t.width) (hp : p < 2 ^ t.width) (h : ¬patLe t m p) (isMax : Bool) :
    intMinMax t isMax m p = if isMax then m else p := by
  rw [← narrow_le_iff hm hp] at h
  have h := (not_le.1 h).le
  cases isMax
  · exact (congrArg (intBits t) (min_eq_right h)).trans (intBits_narrow hp)
  · exact (congrArg (intBits t) (max_eq_left h)).trans (intBits_narrow hm)

end Values

/-! ### Atomics on integers (spec/07 R188) -/

/-- An atomic that raises no flag never traps. -/
theorem atomic_exact (t : Ty) (m : Nat) (mode : W64) (r : Nat) : atomic t m mode (r, 0) = .ok (some r) (extend m t) 0 := by
  have h : enabled mode 0 = 0 := BitVec.zero_and
  exact if_pos h

section Int

variable {t : Ty} {m : Nat} (ht : t.isInt = true) (a b : W64) (mode : W64)

include ht

theorem run_aadd_int : WordOp.run (.aadd t b) a m mode = .ok (some ((m + patBits b t) % 2 ^ t.width)) (extend m t) 0 := by
  rw [WordOp.run, if_pos ht, atomic_exact, patBits_ofNat, patBits, Nat.add_mod_mod]

theorem run_amnx_int (isMax : Bool) :
    WordOp.run (.amnx isMax t b) a m mode = .ok (some (intMinMax t isMax m (patBits b t))) (extend m t) 0 := by
  rw [WordOp.run, if_pos ht, atomic_exact]

end Int

/-- WAITM answers once its condition holds (spec/07 R189). -/
theorem run_waitm {t : Ty} {m : Nat} (hm : m < 2 ^ t.width) (cc : Cond) (a b mode : W64) : WordOp.run (.waitm cc t b) a m mode =
    if condHolds cc (loaded t m) (loaded t (patBits b t)) then .ok none (loaded t m) 0 else .poll := by
  have hold : widen (narrow (ofNat m) t) t = loaded t m := by rw [widen_narrow, patBits, toNat_ofNat_of_lt hm, Nat.mod_eq_of_lt hm]
  rw [WordOp.run, hold, widen_narrow]

/-! ### Byte barriers (spec/15 R325 to R327) -/

/-- The fields of a barrier fit in its 16 bytes. -/
def Barrier.Fits (b : Barrier) : Prop := b.arr < 2 ^ 16 ∧ b.rld < 2 ^ 16 ∧ b.gen < 2 ^ 32 ∧ -2 ^ 47 ≤ b.pend ∧ b.pend < 2 ^ 47

theorem Barrier.of_bits {b : Barrier} (h : b.Fits) : Barrier.of b.bits = b := by
  obtain ⟨arr, pend, rld, gen⟩ := b
  obtain ⟨harr, hrld, hgen, hlow, hhigh⟩ := h
  dsimp only at harr hrld hgen hlow hhigh
  have hq : ((pend % 2 ^ 48).toNat : Int) = pend % 2 ^ 48 := Int.toNat_of_nonneg (Int.emod_nonneg _ (by norm_num))
  have hlt : (pend % 2 ^ 48).toNat < 2 ^ 48 := by omega
  simp only [Barrier.of, Barrier.bits, Barrier.mk.injEq]
  refine ⟨by omega, ?_, by omega, by omega⟩
  rw [sext]
  split <;> omega

section Barrier

variable {b : Barrier} (h : b.Fits) (a e mode : W64)

include h

theorem run_bari : WordOp.run (.bari e) a b.bits mode = .ok (some { b with arr := e.toNat, pend := 0, rld := e.toNat }.bits) (ofNat b.gen) 0 := by
  rw [WordOp.run, Barrier.of_bits h]

theorem run_barx : WordOp.run (.barx e) a b.bits mode =
    if b.arr = 0 ∨ 2 ^ 47 ≤ e.toNat ∨ 2 ^ 47 - 1 < b.pend + (e.toNat : Int) then .trap 0x403 a e 0
    else .ok (some { b with arr := b.arr - 1, pend := b.pend + (e.toNat : Int) }.complete.bits) (ofNat b.gen) 0 := by
  rw [WordOp.run, Barrier.of_bits h]

theorem run_barw : WordOp.run (.barw e) a b.bits mode = if b.gen = e.toNat % 2 ^ 32 then .poll else .ok none (ofNat b.gen) 0 := by
  rw [WordOp.run, Barrier.of_bits h, bits_eq]
  simp

end Barrier

/-- Settles O25: each access by the value of its bytes at the type, or by the fields of the barrier that they hold. -/
theorem atomicsAtTheHome : Obligations.AtomicsAtTheHome := by
  unfold Obligations.AtomicsAtTheHome
  refine ⟨fun t a b c m mode ht hm => ?_, fun arr rld gen pend a b mode harr hrld hgen hlow hhigh => ?_⟩
  · have hold := extend_of_lt hm
    have hp := patBits_lt b t
    have hlog (r : Nat) : atomic t m mode (r, 0) = .ok (some r) (loaded t m) 0 := hold ▸ atomic_exact t m mode r
    refine ⟨congrArg (WRes.ok none · 0) hold, fun _ _ => rfl, hold ▸ run_aadd_int ht a b mode, congrArg (WRes.ok _ · 0) hold, congrArg (WRes.ok _ · 0) hold,
      hlog _, hlog _, hlog _, fun h => ?_, fun h => ?_, fun cc => ?_⟩
    · rw [run_amnx_int ht, run_amnx_int ht, intMinMax_of_le hm hp h, intMinMax_of_le hm hp h, hold]
      exact ⟨rfl, rfl⟩
    · rw [run_amnx_int ht, run_amnx_int ht, intMinMax_of_not_le hm hp h, intMinMax_of_not_le hm hp h, hold]
      exact ⟨rfl, rfl⟩
    · rw [run_waitm hm, ← condHolds_iff]
      exact ⟨fun h => if_pos h, fun h => if_neg h⟩
  · let x : Barrier := ⟨arr, pend, rld, gen⟩
    have hx : x.Fits := ⟨harr, hrld, hgen, hlow, hhigh⟩
    refine ⟨fun _ _ => run_bari hx a b mode, fun h0 hb hsum => ?_, fun hbad => ?_, fun hne => ?_, fun heq => ?_⟩
    · refine ((run_barx hx a b mode).trans (if_neg (show ¬(arr = 0 ∨ 2 ^ 47 ≤ b.toNat ∨ 2 ^ 47 - 1 < pend + b.toNat) by omega))).trans ?_
      refine congrArg (fun n => WRes.ok (some n) (ofNat gen) 0) ?_
      by_cases hlast : arr = 1 ∧ pend + b.toNat = 0
      · obtain ⟨rfl, hzero⟩ := hlast
        rw [if_pos ⟨rfl, hzero⟩, Barrier.complete, if_pos ⟨rfl, hzero⟩, Barrier.bits, hzero]
      · rw [if_neg hlast, Barrier.complete, if_neg (show ¬(arr - 1 = 0 ∧ pend + b.toNat = 0) by omega)]
        rfl
    · refine (run_barx hx a b mode).trans (if_pos ?_)
      exact hbad.imp_right .inl
    · exact (run_barw hx a b mode).trans (if_neg (Ne.symm hne))
    · exact (run_barw hx a b mode).trans (if_pos heq.symm)

end Sys2Proof.Machine
end

