-- ==== Sys2Proof/Proofs/Maps.lean ====
section
/-! The probe window, searches and inserts of a MAP (spec/07 R171). -/

namespace Sys2Proof.Machine

/-! ### The probe window -/

theorem mapWindow_one (k : W64) :
    mapWindow k 1 = (List.range 8).map fun i => ((k * 0x9E3779B97F4A7C15).toNat / 2 ^ 52 + i) % 4096 := by
  have hmul : (k * 0x9E3779B97F4A7C15).toNat = k.toNat * 0x9E3779B97F4A7C15 % 2 ^ 64 := BitVec.toNat_mul ..
  simp only [mapWindow, hmul, Nat.mod_one, Nat.mul_zero, Nat.zero_add, Nat.shiftRight_eq_div_pow]

/-! ### Searches -/

/-- What a search for a key finds in slot n. -/
def slotHit (slots : List (Nat × W64 × W64)) (key : W64) (n : Nat) : Option (Nat × W64) :=
  match aget slots n with
  | some (k, v) => if k = key then some (n, v) else none
  | none => none

variable {slots : List (Nat × W64 × W64)} {k v : W64} {span : Nat}

theorem mapFind_eq (slots : List (Nat × W64 × W64)) (k : W64) (span : Nat) :
    mapFind slots k span = (mapWindow k span).findSome? (slotHit slots k) := rfl

theorem slotHit_eq_some {n : Nat} {r : Nat × W64} : slotHit slots k n = some r ↔ r.1 = n ∧ aget slots n = some (k, r.2) := by
  unfold slotHit
  cases aget slots n with
  | none => simp
  | some p =>
    obtain ⟨j, w⟩ := p
    obtain ⟨m, x⟩ := r
    by_cases h : j = k
    · simp [h, eq_comm]
    · simp [h]

theorem mapFind_eq_some {n : Nat} {x : W64} (h : mapFind slots k span = some (n, x)) : n ∈ mapWindow k span ∧ aget slots n = some (k, x) := by
  obtain ⟨m, hm, hhit⟩ := List.exists_of_findSome?_eq_some h
  obtain ⟨rfl, hget⟩ := slotHit_eq_some.1 hhit
  exact ⟨hm, hget⟩

theorem mapFind_eq_none (h : mapFind slots k span = none) {n : Nat} (hn : n ∈ mapWindow k span) (x : W64) : aget slots n ≠ some (k, x) :=
  fun hget => Option.some_ne_none _ ((slotHit_eq_some (r := (n, x)).2 ⟨rfl, hget⟩).symm.trans (List.findSome?_eq_none_iff.1 h n hn))

/-! ### A slot that takes a pair -/

theorem slotHit_aset (n m : Nat) : slotHit (aset slots n (k, v)) k m = if m = n then some (n, v) else slotHit slots k m := by
  unfold slotHit
  rw [aget_aset]
  by_cases hm : m = n
  · simp [hm]
  · simp [hm]

theorem slotHit_aset_ne {k' : W64} (h : k' ≠ k) (n m : Nat) : slotHit (aset slots n (k, v)) k' m = if m = n then none else slotHit slots k' m := by
  unfold slotHit
  rw [aget_aset]
  by_cases hm : m = n
  · simp [hm, Ne.symm h]
  · simp [hm]

/-- A search finds the slot that took its key, where it found no other before. -/
theorem findSome?_slotHit_aset {l : List Nat} {n : Nat} (hn : n ∈ l) (h : ∀ r, l.findSome? (slotHit slots k) = some r → r.1 = n) :
    l.findSome? (slotHit (aset slots n (k, v)) k) = some (n, v) := by
  induction l with
  | nil => cases hn
  | cons m l ih =>
    rw [List.findSome?_cons, slotHit_aset]
    by_cases hm : m = n
    · rw [if_pos hm]
    · rw [if_neg hm]
      have hnone : slotHit slots k m = none := by
        by_contra hsome
        obtain ⟨r, hr⟩ := Option.ne_none_iff_exists'.1 hsome
        exact hm ((slotHit_eq_some.1 hr).1.symm.trans (h r (by rw [List.findSome?_cons, hr])))
      rw [hnone]
      exact ih (List.mem_of_ne_of_mem (Ne.symm hm) hn) fun r hr => h r (by rw [List.findSome?_cons, hnone, hr])

/-- Other keys are found as before, where the slot held none of them. -/
theorem mapFind_aset_ne {k' : W64} (h : k' ≠ k) {n : Nat} (hslot : ∀ x, aget slots n ≠ some (k', x)) :
    mapFind (aset slots n (k, v)) k' span = mapFind slots k' span := by
  rw [mapFind_eq, mapFind_eq]
  have hhit : slotHit (aset slots n (k, v)) k' = slotHit slots k' := by
    funext m
    rw [slotHit_aset_ne h]
    split
    next hm =>
      rw [hm]
      exact (Option.eq_none_iff_forall_ne_some.2 fun r hr => hslot r.2 (slotHit_eq_some.1 hr).2).symm
    · rfl
  rw [hhit]

/-! ### Inserts -/

theorem mapInsert_present {n : Nat} {x : W64} (h : mapFind slots k span = some (n, x)) :
    mapInsert slots k v span = (aset slots n (k, v), .present) := by
  rw [mapInsert, h]

theorem mapInsert_free {n : Nat} (h : mapFind slots k span = none) (hfree : (mapWindow k span).find? (fun n => (aget slots n).isNone) = some n) :
    mapInsert slots k v span = (aset slots n (k, v), .ok) := by
  rw [mapInsert, h]
  simp only [hfree]

theorem mapInsert_full (h : mapFind slots k span = none) (hfull : (mapWindow k span).find? (fun n => (aget slots n).isNone) = none) :
    mapInsert slots k v span = (slots, .full) := by
  rw [mapInsert, h]
  simp only [hfull]

/-- An insert leaves every other key as it was. -/
theorem mapFind_mapInsert_ne {k' : W64} (h : k' ≠ k) : mapFind (mapInsert slots k v span).1 k' span = mapFind slots k' span := by
  cases hfind : mapFind slots k span with
  | some r =>
    rw [mapInsert_present hfind]
    exact mapFind_aset_ne h fun x hx => h (Prod.mk.inj (Option.some.inj (hx.symm.trans (mapFind_eq_some hfind).2))).1
  | none =>
    cases hfree : (mapWindow k span).find? fun n => (aget slots n).isNone with
    | some n =>
      rw [mapInsert_free hfind hfree]
      have hnone := Option.isNone_iff_eq_none.1 (List.find?_some (p := fun n => (aget slots n).isNone) hfree)
      exact mapFind_aset_ne h fun x hx => Option.some_ne_none _ (hx.symm.trans hnone)
    | none => rw [mapInsert_full hfind hfree]

/-! ### XCH on a MAP (spec/07 R176) -/

variable {c : Core} {b : Nat}

theorem winXch_map_found (hdata : (c.bank b).data = .map slots) {n : Nat} {x : W64} (h : mapFind slots k (c.bank b).span = some (n, x)) (y : W64) :
    winXch c b .lookup k y = .ok c x none .ok ∧
      winXch c b .delete k y = .ok (c.setBank b { c.bank b with data := .map (adel slots n) }) x none .ok := by
  constructor
  · simp only [winXch, hdata, h]
  · simp only [winXch, hdata, h]

theorem winXch_map_absent (hdata : (c.bank b).data = .map slots) (h : mapFind slots k (c.bank b).span = none) (y : W64) :
    winXch c b .lookup k y = .ok c 0 none .absent ∧ winXch c b .delete k y = .ok c 0 none .absent := by
  constructor
  · simp only [winXch, hdata, h]
  · simp only [winXch, hdata, h]

/-- The clauses of O27 on one insert, lookup and delete of a MAP. -/
theorem map_clauses (slots : List (Nat × W64 × W64)) (k v : W64) (span : Nat) :
    let r := mapInsert slots k v span
    let w := mapWindow k span
    (∀ n x, mapFind slots k span = some (n, x) → r.2 = .present ∧ mapFind r.1 k span = some (n, v)) ∧
    (mapFind slots k span = none →
      (∀ n, w.find? (fun n => (aget slots n).isNone) = some n → r.2 = .ok ∧ aget r.1 n = some (k, v) ∧ (mapFind r.1 k span).map (·.2) = some v) ∧
      ((∀ n ∈ w, (aget slots n).isSome = true) → r.2 = .full ∧ r.1 = slots)) := by
  refine ⟨fun n x h => ?_, fun h => ⟨fun n hfree => ?_, fun hfull => ?_⟩⟩
  · rw [mapInsert_present h]
    refine ⟨rfl, findSome?_slotHit_aset (mapFind_eq_some h).1 fun r hr => ?_⟩
    rw [← Option.some.inj (h.symm.trans hr)]
  · have hfind : mapFind (aset slots n (k, v)) k span = some (n, v) :=
      findSome?_slotHit_aset (List.mem_of_find?_eq_some hfree) fun r hr => absurd (h.symm.trans hr) (Option.some_ne_none r).symm
    rw [mapInsert_free h hfree]
    exact ⟨rfl, by rw [aget_aset, if_pos rfl], by rw [hfind]; rfl⟩
  · rw [mapInsert_full h (List.find?_eq_none.2 fun n hn => by simp [Option.isSome_iff_ne_none.1 (hfull n hn)])]
    exact ⟨rfl, rfl⟩

end Sys2Proof.Machine
end

