-- ==== Sys2Proof/Proofs/Heaps.lean ====
section
/-! The order of a HEAP under sifts, inserts, extractions and deckeys (spec/07 R172, R176). -/

namespace Sys2Proof.Machine

open Safety

/-! ### The order of entries -/

/-- What entries are ordered by: the key, then the rank. -/
def hRank (f : BitVec 2) (x : HEntry) : Nat ×ₗ Nat := toLex (orderKey x.1 f, x.2.2)

/-- The entry at index i, of which only those below the length are read. -/
def hAt (l : List HEntry) (i : Nat) : HEntry := l.getD i (0, 0, 0)

variable {f : BitVec 2} {l : List HEntry} {i j k n : Nat}

theorem hLess_eq (x y : HEntry) : hLess f x y = decide (hRank f x < hRank f y) := by
  simp [hLess, hRank, Prod.Lex.toLex_lt_toLex, beq_eq_decide]

theorem hLess_eq_false {x y : HEntry} : hLess f x y = false ↔ hRank f y ≤ hRank f x := by
  rw [hLess_eq, decide_eq_false_iff_not, not_lt]

theorem getElem?_hAt (h : i < l.length) : l[i]? = some (hAt l i) := by
  rw [hAt, List.getD_eq_getElem?_getD, List.getElem?_eq_getElem h, Option.getD_some]

theorem hLessAt_eq (hi : i < l.length) (hj : j < l.length) : hLessAt f l i j = hLess f (hAt l i) (hAt l j) := by
  rw [hLessAt, getElem?_hAt hi, getElem?_hAt hj]

/-- No entry is less than its parent. -/
theorem heapOrdered_iff : HeapOrdered f l ↔ ∀ i, 0 < i → i < l.length → hRank f (hAt l ((i - 1) / 2)) ≤ hRank f (hAt l i) := by
  refine forall₃_congr fun i h0 hi => ?_
  rw [hLessAt_eq hi (by omega), hLess_eq_false]

/-- The root is an entry that no other is less than. -/
theorem root_le (h : HeapOrdered f l) : ∀ i < l.length, hRank f (hAt l 0) ≤ hRank f (hAt l i) := by
  rw [heapOrdered_iff] at h
  intro i
  induction i using Nat.strong_induction_on with
  | _ i ih =>
    intro hi
    rcases Nat.eq_zero_or_pos i with rfl | h0
    · exact le_rfl
    · exact (ih ((i - 1) / 2) (by omega) (by omega)).trans (h i h0 hi)

/-! ### Swaps -/

theorem lset_eq_set {α : Type} (l : List α) (k : Nat) (y : α) : lset l k y = l.set k y := by
  induction l generalizing k with
  | nil => rfl
  | cons x l ih => cases k with
    | zero => rfl
    | succ k => exact congrArg (x :: ·) (ih k)

theorem swap_eq (hi : i < l.length) (hj : j < l.length) : swap l i j = (l.set i (hAt l j)).set j (hAt l i) := by
  rw [swap, getElem?_hAt hi, getElem?_hAt hj]
  simp only [lset_eq_set]

theorem hAt_of_getElem? {x : HEntry} (h : l[i]? = some x) : hAt l i = x := by
  rw [hAt, List.getD_eq_getElem?_getD, h, Option.getD_some]

theorem hAt_set (hi : i < l.length) (x : HEntry) : hAt (l.set i x) k = if k = i then x else hAt l k := by
  simp only [hAt, List.getD_eq_getElem?_getD, List.getElem?_set]
  by_cases h : i = k
  · simp [h, h ▸ hi]
  · simp [h, Ne.symm h]

theorem hAt_swap (hi : i < l.length) (hj : j < l.length) :
    hAt (swap l i j) k = if k = j then hAt l i else if k = i then hAt l j else hAt l k := by
  rw [swap_eq hi hj, hAt_set (by simpa using hj), hAt_set hi]

theorem swap_length (l : List HEntry) (i j : Nat) : (swap l i j).length = l.length := by
  unfold swap
  split
  · simp [lset_eq_set]
  · rfl

theorem swap_perm (hi : i < l.length) (hj : j < l.length) : (swap l i j).Perm l := by
  have h := List.set_set_perm hi hj
  rwa [swap_eq hi hj, Option.some.inj ((getElem?_hAt hi).symm.trans (List.getElem?_eq_getElem hi)),
    Option.some.inj ((getElem?_hAt hj).symm.trans (List.getElem?_eq_getElem hj))]

/-! ### Sifting up -/

/-- A heap but for the entry at i, which may be less than its parent: the children of i are in order with that parent too. -/
def HeapUp (f : BitVec 2) (l : List HEntry) (i : Nat) : Prop :=
  (∀ k, 0 < k → k < l.length → k ≠ i → hRank f (hAt l ((k - 1) / 2)) ≤ hRank f (hAt l k)) ∧
  ∀ k, k < l.length → 0 < i → 0 < k → (k - 1) / 2 = i → hRank f (hAt l ((i - 1) / 2)) ≤ hRank f (hAt l k)

theorem HeapUp.ordered (h : HeapUp f l i) (hi : i = 0 ∨ hRank f (hAt l ((i - 1) / 2)) ≤ hRank f (hAt l i)) : HeapOrdered f l := by
  refine heapOrdered_iff.2 fun k h0 hk => ?_
  by_cases hki : k = i
  · exact hki ▸ hi.resolve_left (by omega)
  · exact h.1 k h0 hk hki

/-- An entry that is less than its parent changes places with it. -/
theorem HeapUp.swap (h : HeapUp f l i) (h0 : 0 < i) (hi : i < l.length) (hlt : hRank f (hAt l i) < hRank f (hAt l ((i - 1) / 2))) :
    HeapUp f (swap l i ((i - 1) / 2)) ((i - 1) / 2) := by
  obtain ⟨hpar, hgrand⟩ := h
  have hp : (i - 1) / 2 < l.length := by omega
  generalize hpi : (i - 1) / 2 = p at *
  have hpne : i ≠ p := by omega
  refine ⟨fun k hk0 hk hkp => ?_, fun k hk hp0 hk0 hkpar => ?_⟩
  · rw [swap_length] at hk
    rw [hAt_swap hi hp, hAt_swap hi hp, if_neg hkp]
    by_cases hki : k = i
    · rw [if_pos (by omega), if_pos hki]
      exact hlt.le
    · rw [if_neg hki]
      by_cases hkp' : (k - 1) / 2 = p
      · rw [if_pos hkp']
        exact hlt.le.trans (hkp' ▸ hpar k hk0 hk hki)
      · rw [if_neg hkp']
        by_cases hki' : (k - 1) / 2 = i
        · rw [if_pos hki']
          exact hgrand k hk h0 hk0 hki'
        · rw [if_neg hki']
          exact hpar k hk0 hk hki
  · rw [swap_length] at hk
    have hup := hpar p hp0 hp (Ne.symm hpne)
    rw [hAt_swap hi hp, hAt_swap hi hp, if_neg (by omega), if_neg (by omega), if_neg (by omega)]
    by_cases hki : k = i
    · rwa [if_pos hki]
    · rw [if_neg hki]
      exact hup.trans (hkpar ▸ hpar k hk0 hk hki)

theorem siftUp_ordered (hfuel : i < 2 ^ n) (hi : i < l.length) (h : HeapUp f l i) : HeapOrdered f (siftUp f n l i) := by
  induction n generalizing l i with
  | zero => exact h.ordered (.inl (by omega))
  | succ n ih =>
    unfold siftUp
    split
    next hmove =>
      obtain ⟨h0, hless⟩ := hmove
      rw [hLessAt_eq hi (by omega), hLess_eq, decide_eq_true_eq] at hless
      exact ih (by omega) (by rw [swap_length]; omega) (h.swap (by omega) hi hless)
    next hstay =>
      refine h.ordered (or_iff_not_imp_left.2 fun h0 => ?_)
      have hless := Bool.eq_false_iff.2 fun hless => hstay ⟨h0, hless⟩
      rwa [hLessAt_eq hi (by omega), hLess_eq_false] at hless

theorem siftUp_perm (hi : i < l.length) : (siftUp f n l i).Perm l := by
  induction n generalizing l i with
  | zero => exact .refl _
  | succ n ih =>
    unfold siftUp
    split
    · exact (ih (by rw [swap_length]; omega)).trans (swap_perm hi (by omega))
    · exact .refl _

/-! ### Sifting down -/

/-- A heap but for the children of i, which may be less than it: they are in order with its parent. -/
def HeapDown (f : BitVec 2) (l : List HEntry) (i : Nat) : Prop :=
  (∀ k, 0 < k → k < l.length → (k - 1) / 2 ≠ i → hRank f (hAt l ((k - 1) / 2)) ≤ hRank f (hAt l k)) ∧
  ∀ k, k < l.length → 0 < i → 0 < k → (k - 1) / 2 = i → hRank f (hAt l ((i - 1) / 2)) ≤ hRank f (hAt l k)

/-- Child j of i in the place of c, where it is the lesser. -/
def lesserOf (f : BitVec 2) (l : List HEntry) (j c : Nat) : Nat := if j < l.length ∧ hLessAt f l j c then j else c

/-- The index that siftDown goes on with: the least of the children that are less than i, or i itself. -/
def downStep (f : BitVec 2) (l : List HEntry) (i : Nat) : Nat := lesserOf f l (2 * i + 2) (lesserOf f l (2 * i + 1) i)

theorem siftDown_succ (f : BitVec 2) (n : Nat) (l : List HEntry) (i : Nat) :
    siftDown f (n + 1) l i = if downStep f l i = i then l else siftDown f n (swap l i (downStep f l i)) (downStep f l i) := rfl

theorem lesserOf_cases {c : Nat} (hc : c < l.length) :
    lesserOf f l j c = c ∧ (j < l.length → hRank f (hAt l c) ≤ hRank f (hAt l j)) ∨
      lesserOf f l j c = j ∧ j < l.length ∧ hRank f (hAt l j) < hRank f (hAt l c) := by
  unfold lesserOf
  split
  next h => 
    obtain ⟨hj, hless⟩ := h
    rw [hLessAt_eq hj hc, hLess_eq, decide_eq_true_eq] at hless
    exact .inr ⟨rfl, hj, hless⟩
  next h =>
    refine .inl ⟨rfl, fun hj => ?_⟩
    have hless := Bool.eq_false_iff.2 fun hless => h ⟨hj, hless⟩
    rwa [hLessAt_eq hj hc, hLess_eq_false] at hless

/-- A child of i, less than i and no greater than the other. -/
structure LeastChild (f : BitVec 2) (l : List HEntry) (i c : Nat) : Prop where
  pos : 0 < c
  lt : c < l.length
  parent : (c - 1) / 2 = i
  less : hRank f (hAt l c) < hRank f (hAt l i)
  least : ∀ k, 0 < k → k < l.length → (k - 1) / 2 = i → hRank f (hAt l c) ≤ hRank f (hAt l k)

theorem downStep_cases (hi : i < l.length) :
    downStep f l i = i ∧ (∀ k, 0 < k → k < l.length → (k - 1) / 2 = i → hRank f (hAt l i) ≤ hRank f (hAt l k)) ∨
      LeastChild f l i (downStep f l i) := by
  have hchild {m : Nat} (hleft : 2 * i + 1 < l.length → hRank f (hAt l m) ≤ hRank f (hAt l (2 * i + 1)))
      (hright : 2 * i + 2 < l.length → hRank f (hAt l m) ≤ hRank f (hAt l (2 * i + 2))) (k : Nat) (h0 : 0 < k) (hk : k < l.length)
      (hpar : (k - 1) / 2 = i) : hRank f (hAt l m) ≤ hRank f (hAt l k) := by
    obtain rfl | rfl : k = 2 * i + 1 ∨ k = 2 * i + 2 := by omega
    · exact hleft hk
    · exact hright hk
  unfold downStep
  rcases lesserOf_cases (f := f) (j := 2 * i + 1) hi with ⟨h1, hleft⟩ | ⟨h1, hlt1, hless1⟩
  · rw [h1]
    rcases lesserOf_cases (f := f) (j := 2 * i + 2) hi with ⟨h2, hright⟩ | ⟨h2, hlt2, hless2⟩
    · exact .inl ⟨h2, hchild hleft hright⟩
    · rw [h2]
      exact .inr ⟨by omega, hlt2, by omega, hless2, hchild (fun h => hless2.le.trans (hleft h)) fun _ => le_rfl⟩
  · rw [h1]
    rcases lesserOf_cases (f := f) (j := 2 * i + 2) hlt1 with ⟨h2, hright⟩ | ⟨h2, hlt2, hless2⟩
    · rw [h2]
      exact .inr ⟨by omega, hlt1, by omega, hless1, hchild (fun _ => le_rfl) hright⟩
    · rw [h2]
      exact .inr ⟨by omega, hlt2, by omega, hless2.trans hless1, hchild (fun _ => hless2.le) fun _ => le_rfl⟩

theorem HeapDown.ordered (h : HeapDown f l i) (hi : ∀ k, 0 < k → k < l.length → (k - 1) / 2 = i → hRank f (hAt l i) ≤ hRank f (hAt l k)) :
    HeapOrdered f l := by
  refine heapOrdered_iff.2 fun k h0 hk => ?_
  by_cases hki : (k - 1) / 2 = i
  · exact hki ▸ hi k h0 hk hki
  · exact h.1 k h0 hk hki

/-- An entry changes places with its least child. -/
theorem HeapDown.swap {c : Nat} (h : HeapDown f l i) (hi : i < l.length) (hc : LeastChild f l i c) : HeapDown f (swap l i c) c := by
  obtain ⟨hpar, hgrand⟩ := h
  obtain ⟨hc0, hclt, hcpar, hless, hleast⟩ := hc
  refine ⟨fun k hk0 hk hkc => ?_, fun k hk _ hk0 hkc => ?_⟩
  · rw [swap_length] at hk
    rw [hAt_swap hi hclt, hAt_swap hi hclt, if_neg hkc]
    by_cases hki : (k - 1) / 2 = i
    · rw [if_pos hki]
      by_cases hkc' : k = c
      · rw [if_pos hkc']
        exact hless.le
      · rw [if_neg hkc', if_neg (by omega)]
        exact hleast k hk0 hk hki
    · rw [if_neg hki, if_neg (by rintro rfl; exact hki hcpar)]
      by_cases hki' : k = i
      · rw [if_pos hki', hki']
        exact hgrand c hclt (hki' ▸ hk0) hc0 hcpar
      · rw [if_neg hki']
        exact hpar k hk0 hk hki
  · rw [swap_length] at hk
    rw [hcpar, hAt_swap hi hclt, hAt_swap hi hclt, if_neg (by omega), if_pos rfl, if_neg (by omega), if_neg (by omega)]
    exact hkc ▸ hpar k hk0 hk (by omega)

theorem siftDown_ordered (hfuel : l.length ≤ (i + 1) * 2 ^ n) (hi : i < l.length) (h : HeapDown f l i) : HeapOrdered f (siftDown f n l i) := by
  induction n generalizing l i with
  | zero => exact h.ordered fun k h0 hk hpar => by omega
  | succ n ih =>
    rw [siftDown_succ]
    rcases downStep_cases (f := f) hi with ⟨hstay, hleast⟩ | hchild
    · rw [if_pos hstay]
      exact h.ordered hleast
    · have hpos := hchild.pos
      have hpar := hchild.parent
      have hbound : (i + 1) * 2 ^ (n + 1) ≤ (downStep f l i + 1) * 2 ^ n := by
        rw [pow_succ', ← mul_assoc]
        exact Nat.mul_le_mul_right _ (by omega)
      rw [if_neg (by omega)]
      exact ih (by rw [swap_length]; exact hfuel.trans hbound) (by rw [swap_length]; exact hchild.lt) (h.swap hi hchild)

theorem siftDown_perm (hi : i < l.length) : (siftDown f n l i).Perm l := by
  induction n generalizing l i with
  | zero => exact .refl _
  | succ n ih =>
    rw [siftDown_succ]
    rcases downStep_cases (f := f) hi with ⟨hstay, -⟩ | hchild
    · rw [if_pos hstay]
    · have hpar := hchild.parent
      have hpos := hchild.pos
      rw [if_neg (by omega)]
      exact (ih (by rw [swap_length]; exact hchild.lt)).trans (swap_perm hi hchild.lt)

/-! ### Inserts (spec/07 R172) -/

theorem heapUp_append (h : HeapOrdered f l) (x : HEntry) : HeapUp f (l ++ [x]) l.length := by
  have hat {k : Nat} (hk : k < l.length) : hAt (l ++ [x]) k = hAt l k := by
    rw [hAt, hAt, List.getD_append _ _ _ _ hk]
  rw [heapOrdered_iff] at h
  refine ⟨fun k h0 hk hne => ?_, fun k hk _ h0 hpar => ?_⟩
  · rw [List.length_append, List.length_singleton] at hk
    rw [hat (by omega), hat (by omega)]
    exact h k h0 (by omega)
  · rw [List.length_append, List.length_singleton] at hk
    omega

theorem hInsert_spec {next : Nat} (k p : W64) (hlen : l.length < 57344) (hnext : next + 1 < 2 ^ 32) :
    (HeapOrdered f l → HeapOrdered f (hInsert f l next k p).1) ∧ (hInsert f l next k p).1.Perm (l ++ [(k, p, next)]) ∧
      (hInsert f l next k p).2 = next + 1 := by
  have hi : l.length < (l ++ [(k, p, next)]).length := by simp
  rw [hInsert, if_neg (by omega)]
  exact ⟨fun h => siftUp_ordered (by rw [hFuel]; omega) hi (heapUp_append h _), siftUp_perm hi, rfl⟩

/-! ### Extractions -/

/-- An extraction puts the last entry in the place of the root, and sifts it down. -/
theorem hExtract_cons (f : BitVec 2) (x : HEntry) {r : List HEntry} (hr : r ≠ []) (next : Nat) :
    hExtract f (x :: r) next = (siftDown f hFuel (r.getLast hr :: r.dropLast) 0, next) := by
  have hlast : (x :: r).getLast? = some (r.getLast hr) := by rw [List.getLast?_cons, List.getLast?_eq_some_getLast hr]; rfl
  have htake : (lset (x :: r) 0 (r.getLast hr)).take ((x :: r).length - 1) = r.getLast hr :: r.dropLast := by
    obtain ⟨y, r', rfl⟩ := List.exists_cons_of_ne_nil hr
    rw [List.dropLast_eq_take]
    rfl
  have hne : (siftDown f hFuel (r.getLast hr :: r.dropLast) 0).isEmpty = false :=
    List.isEmpty_eq_false_iff.2 fun h => List.cons_ne_nil _ _ (List.Perm.eq_nil (h ▸ (siftDown_perm (Nat.zero_lt_succ _)).symm))
  rw [hExtract, hlast]
  simp only [htake, hne, Bool.false_eq_true, if_false]

theorem hExtract_single (f : BitVec 2) (x : HEntry) (next : Nat) : hExtract f [x] next = ([], 0) := rfl

/-- Below the root and the last entry nothing has moved. -/
theorem heapDown_lastAtRoot {x : HEntry} {r : List HEntry} (hr : r ≠ []) (h : HeapOrdered f (x :: r)) :
    HeapDown f (r.getLast hr :: r.dropLast) 0 := by
  rw [heapOrdered_iff] at h
  have hlen : (r.getLast hr :: r.dropLast).length = r.length := by
    have := List.length_pos_iff.2 hr
    simp; omega
  have hat {k : Nat} (h0 : 0 < k) (hk : k < r.length) : hAt (r.getLast hr :: r.dropLast) k = hAt (x :: r) k := by
    obtain ⟨m, rfl⟩ := Nat.exists_eq_succ_of_ne_zero h0.ne'
    rw [hAt, hAt, List.getD_cons_succ, List.getD_cons_succ, List.getD_eq_getElem?_getD, List.getD_eq_getElem?_getD, List.getElem?_dropLast,
      if_pos (by omega)]
  refine ⟨fun k h0 hk hpar => ?_, fun k hk h0 => absurd h0 (lt_irrefl 0)⟩
  rw [hlen] at hk
  rw [hat (by omega) (by omega), hat h0 hk]
  exact h k h0 (by simp; omega)

theorem hExtract_spec {next : Nat} (hlen : l.length < 57344) :
    (HeapOrdered f l → HeapOrdered f (hExtract f l next).1) ∧ (hExtract f l next).1.Perm l.tail ∧ (1 < l.length → (hExtract f l next).2 = next) ∧
      (l.length = 1 → (hExtract f l next).2 = 0) := by
  match l, hlen with
  | [], _ => exact ⟨id, .refl _, by simp, by simp⟩
  | [x], _ => exact ⟨fun _ i _ hi => absurd hi (Nat.not_lt_zero _), .refl _, by simp, fun _ => rfl⟩
  | x :: y :: r, hlen =>
    have hr : y :: r ≠ [] := List.cons_ne_nil _ _
    rw [hExtract_cons f x hr]
    refine ⟨fun h => siftDown_ordered ?_ (Nat.zero_lt_succ _) (heapDown_lastAtRoot hr h), ?_, fun _ => rfl, fun h => by simp at h⟩
    · simp [hFuel] at hlen ⊢
      omega
    · refine (siftDown_perm (Nat.zero_lt_succ _)).trans ?_
      refine (List.perm_append_singleton _ _).symm.trans ?_
      rw [List.dropLast_append_getLast hr]
      exact .refl _

/-! ### Deckeys (spec/07 R176) -/

/-- An entry whose key falls may only be too high. -/
theorem heapUp_set {e x : HEntry} (h : HeapOrdered f l) (he : l[i]? = some e) (hlt : hRank f x < hRank f e) : HeapUp f (l.set i x) i := by
  obtain ⟨hi, -⟩ := List.getElem?_eq_some_iff.1 he
  rw [heapOrdered_iff] at h
  rw [← hAt_of_getElem? he] at hlt
  refine ⟨fun k h0 hk hne => ?_, fun k hk hi0 h0 hpar => ?_⟩
  · rw [List.length_set] at hk
    rw [hAt_set hi, hAt_set hi, if_neg hne]
    split
    next hpar => exact hlt.le.trans (hpar ▸ h k h0 hk)
    · exact h k h0 hk
  · rw [List.length_set] at hk
    rw [hAt_set hi, hAt_set hi, if_neg (by omega), if_neg (by omega)]
    exact (h i hi0 hi).trans (hpar ▸ h k h0 hk)

section Deckey

variable {c : Core} {b : Nat} {es : List HEntry} {next : Nat} {x x1 : W64}

theorem winXch_deckey_absent (hdata : (c.bank b).data = .heap es next) (h : ∀ e ∈ es, e.2.1 ≠ x) : winXch c b .deckey x x1 = .ok c 0 none .absent := by
  have hfind : es.findIdx? (fun e => e.2.1 == x) = none := List.findIdx?_eq_none_iff.2 fun e he => by simpa using h e he
  simp only [winXch, hdata, hfind]

theorem winXch_deckey_found {e : HEntry} (hdata : (c.bank b).data = .heap es next) (he : es[i]? = some e) (hx : e.2.1 = x)
    (hfirst : ∀ j g, j < i → es[j]? = some g → g.2.1 ≠ x) : winXch c b .deckey x x1 =
      if orderKey x1 (c.bank b).kfmt < orderKey e.1 (c.bank b).kfmt then
        .ok (c.setBank b { c.bank b with data := .heap (siftUp (c.bank b).kfmt hFuel (es.set i (x1, e.2)) i) next }) e.1 none .ok
      else .ok c e.1 none .present := by
  obtain ⟨hi, hei⟩ := List.getElem?_eq_some_iff.1 he
  have hfind : es.findIdx? (fun e => e.2.1 == x) = some i := by
    rw [List.findIdx?_eq_some_iff_getElem]
    exact ⟨hi, by simp [hei, hx], fun j hj => by simpa using hfirst j _ hj (List.getElem?_eq_getElem (hj.trans hi))⟩
  simp only [winXch, hdata, hfind, he, lset_eq_set]

end Deckey

/-- Settles O27: the probe window decides for a MAP; for a HEAP, a sift restores the order that one entry broke. -/
theorem mapsAndHeaps : Obligations.MapsAndHeaps := by
  unfold Obligations.MapsAndHeaps
  refine ⟨⟨mapWindow_one, by decide, fun slots k v span => ?_⟩, fun f l next k p hlen hord hnext => ?_, ?_⟩
  · obtain ⟨hpresent, hnew⟩ := map_clauses slots k v span
    refine ⟨hpresent, hnew, fun k' hk => mapFind_mapInsert_ne hk, fun n x h => mapFind_eq_some h, fun h n hn => mapFind_eq_none h hn, ?_, ?_⟩
    · rintro n x h c b y hdata rfl
      obtain ⟨hlookup, hdelete⟩ := winXch_map_found hdata h y
      exact ⟨hlookup, _, hdelete, aget_adel slots n⟩
    · rintro h c b y hdata rfl
      exact winXch_map_absent hdata h y
  · obtain ⟨hinsert, hperm, hrank⟩ := hInsert_spec (f := f) k p hlen hnext
    obtain ⟨hextract, hperm', hnext', hlast⟩ := hExtract_spec (f := f) (next := next) hlen
    refine ⟨hinsert hord, hperm, hrank, by simpa using hperm.length_eq, hextract hord, hperm', by simpa using hperm'.length_eq, hnext', hlast, fun e he r hr => ?_⟩
    obtain ⟨i, hi⟩ := List.getElem?_of_mem he
    rw [hLess_eq_false, ← hAt_of_getElem? hi, ← hAt_of_getElem? (List.head?_eq_getElem?.symm.trans hr)]
    exact root_le hord i (List.getElem?_eq_some_iff.1 hi).1
  · intro c b es next x x1 hdata hlen f hord
    refine ⟨winXch_deckey_absent hdata, fun i e he hx hfirst => ?_⟩
    have hi := (List.getElem?_eq_some_iff.1 he).1
    rw [winXch_deckey_found hdata he hx hfirst]
    refine ⟨fun hlt => ⟨_, if_pos hlt, ?_, siftUp_perm (by simpa using hi)⟩, fun hle => if_neg (Nat.not_lt.2 hle)⟩
    refine siftUp_ordered (by rw [hFuel]; omega) (by simpa using hi) (heapUp_set hord he ?_)
    exact Prod.Lex.toLex_lt_toLex.2 (.inl hlt)

end Sys2Proof.Machine
end

