-- ==== Sys2Proof/Proofs/StrongSteps.lean ====
section
/-! What a strong access comes to at each place its address names (spec/03 R75, R76, spec/07 R160, R176, R186). -/

namespace Sys2Proof.Machine
open Safety

/-- Nothing stops a strong access before its place is looked at: its reads are done, d and the operands can be had, its address is aligned. -/
structure StrongReady (s : State) (d : BitVec 6) (a : Src) (size : Nat) (pre : Core → Res Unit) (e : W64) (c1 : Core) : Prop where
  unsent : ∀ id, s.me.irrev ≠ some (.sent id)
  reads : s.me.reads = []
  dest : destS d s.me = .ok ()
  addr : readS a s.me = .ok (e, c1)
  operands : pre c1 = .ok ()
  aligned : e.toNat % size = 0

section
variable {cls : SClass} {d : BitVec 6} {a : Src} {size : Nat} {sc : Scope} {pre : Core → Res Unit} {build : Place → Core → Res (WordOp × Core)}
  {s : State} {e : W64} {c1 c2 : Core} {op : WordOp}

/-- A strong access from the look at its place on. -/
theorem strong_ready (h : StrongReady s d a size pre e c1) : strong cls d a size sc pre build s = finish s (do
    let p := s.strongPlace e
    if let some r := lateTrap (placeTrap cls s sc e p) p then
      return (← irrevocable s d c1 (.error (.trap r)))
    placeTrap cls s sc e p
    let (op, c2) ← build p c1
    match p with
    | .own off =>
      let (c3, v) ← ownWord e off op c2
      let c4 ← writeS d v c3
      .ok { s with me := c4.served1 }
    | .window b off =>
      let pair := (s.me.bank b).pairs? false off && (match op with | .lds _ => true | _ => false)
      if pair then destS (d + 1) s.me
      let (c3, v, v1) ← ownWin e b off op (d.getLsbD 0) c2
      let c4 ← writeS d v c3
      let c5 ← (match v1 with | some x => writeS (d + 1) x c4 | none => .ok c4)
      .ok { s with me := c5.served1 }
    | _ => irrevocable s d c2 (wordReq s sc e op)) := by
  unfold strong
  split
  · exact absurd ‹_› (h.unsent _)
  · exact congrArg (finish s) ((bind_ok (readsDone_ok h.reads)).trans ((bind_ok h.dest).trans ((bind_ok h.addr).trans
      ((bind_ok h.operands).trans (bind_ok (need_ok (decide_eq_true h.aligned)))))))

/-- A RANGE fault outside own memory comes after the boundary (log 35). -/
theorem strong_late {r : Report} (h : StrongReady s d a size pre e c1)
    (hlate : lateTrap (placeTrap cls s sc e (s.strongPlace e)) (s.strongPlace e) = some r) :
    strong cls d a size sc pre build s = finish s (irrevocable s d c1 (.error (.trap r))) := by
  rw [strong_ready h]
  dsimp only
  rw [hlate]

theorem strong_misplaced {x : Stop} (h : StrongReady s d a size pre e c1)
    (hlate : lateTrap (placeTrap cls s sc e (s.strongPlace e)) (s.strongPlace e) = none)
    (hplace : placeTrap cls s sc e (s.strongPlace e) = .error x) : strong cls d a size sc pre build s = finish s (.error x) := by
  rw [strong_ready h]
  dsimp only
  rw [hlate]
  exact congrArg (finish s) (bind_error hplace)

/-- The RANGE and BADWIN traps of the place do not arise. -/
theorem lateTrap_ok (p : Place) : lateTrap (.ok ()) p = none := by cases p <;> rfl

theorem strong_own {off : Nat} (h : StrongReady s d a size pre e c1) (hp : s.strongPlace e = .own off) (hplace : placeTrap cls s sc e (.own off) = .ok ())
    (hbuild : build (.own off) c1 = .ok (op, c2)) : strong cls d a size sc pre build s =
      finish s (ownWord e off op c2 >>= fun x => writeS d x.2 x.1 >>= fun c => .ok { s with me := c.served1 }) := by
  rw [strong_ready h]
  dsimp only
  rw [hp, hplace]
  exact congrArg (finish s) (bind_ok hbuild)

/-- A second destination is looked at for a load that may pair (R167). -/
theorem load_of_pairs {x : Bool} (h : (x && match op with | .lds _ => true | _ => false) = true) : x = true ∧ ∃ t, op = .lds t := by
  obtain ⟨hx, hop⟩ := Bool.and_eq_true_iff.1 h
  cases op with
  | lds t => exact ⟨hx, t, rfl⟩
  | _ => cases hop

theorem strong_window {b off : Nat} (h : StrongReady s d a size pre e c1) (hp : s.strongPlace e = .window b off)
    (hplace : placeTrap cls s sc e (.window b off) = .ok ()) (hbuild : build (.window b off) c1 = .ok (op, c2))
    (hpair : (s.me.bank b).pairs? false off = true → (∃ t, op = .lds t) → destS (d + 1) s.me = .ok ()) :
    strong cls d a size sc pre build s = finish s (ownWin e b off op (d.getLsbD 0) c2 >>= fun x => writeS d x.2.1 x.1 >>= fun c =>
      (match x.2.2 with | some y => writeS (d + 1) y c | none => .ok c) >>= fun c => .ok { s with me := c.served1 }) := by
  rw [strong_ready h]
  dsimp only
  rw [hp, hplace]
  refine congrArg (finish s) ((bind_ok hbuild).trans ?_)
  exact ite_eq_right_iff.2 fun hq => bind_ok (hpair (load_of_pairs hq).1 (load_of_pairs hq).2)

theorem strong_outside (h : StrongReady s d a size pre e c1) (hown : ∀ o, s.strongPlace e ≠ .own o) (hwin : ∀ b o, s.strongPlace e ≠ .window b o)
    (hplace : placeTrap cls s sc e (s.strongPlace e) = .ok ()) (hbuild : build (s.strongPlace e) c1 = .ok (op, c2)) :
    strong cls d a size sc pre build s = finish s (irrevocable s d c2 (wordReq s sc e op)) := by
  rw [strong_ready h]
  dsimp only
  rw [hplace, lateTrap_ok]
  refine congrArg (finish s) ((bind_ok hbuild).trans ?_)
  dsimp only
  split
  · exact absurd ‹_› (hown _)
  · exact absurd ‹_› (hwin _ _)
  · rfl

end

/-! ### An own word -/

/-- An own access of n bytes at k is served on the claimed core cc: d has the value, the new bytes are in place, the lines are logged and held; a
condition that does not hold waits. -/
def Served (s : State) (e : W64) (k n : Nat) (op : WordOp) (d : BitVec 6) (cc : Core) (o : Out) : Prop :=
  (∀ v f c', op.run e (Mem.nat cc.mem k n) s.me.ctl.mode = .ok none v f → needLines cc (linesOf k n) = .ok () →
    writeS d v (((linesOf k n).foldl Core.logLine (flagged cc f)).hold (linesOf k n)) = .ok c' → o = doneStrong s c') ∧
  (∀ new v f c', op.run e (Mem.nat cc.mem k n) s.me.ctl.mode = .ok (some new) v f → needLines cc (linesOf k n) = .ok () →
    writeS d v (((flagged cc f).ownWrite k (bytesOf new n)).hold (linesOf k n)) = .ok c' → o = doneStrong s c') ∧
  (op.run e (Mem.nat cc.mem k n) s.me.ctl.mode = .poll → o = .next (s.waiting .poll))

section
variable {e : W64} {k : Nat} {op : WordOp} {c cc : Core} {v : W64} {f : Fl}

/-- An own word that is neither locked nor poisoned is served by what its bytes hold. -/
theorem ownWord_run (hlock : lockOn c.locks k op.size = none) (hcc : cc = c.claimAll c.act.ctx k op.size) (hclean : Clean cc k op.size) :
    ownWord e k op c = match op.run e (Mem.nat cc.mem k op.size) cc.ctl.mode with
      | .poll => wait .poll
      | .trap q w3 w6 w7 => trap cc q w3 w6 w7
      | .ok new v f => needLines (flagged cc f) (linesOf k op.size) >>= fun _ => .ok ((match new with
        | none => (linesOf k op.size).foldl Core.logLine (flagged cc f)
        | some x => (flagged cc f).ownWrite k (bytesOf x op.size)).hold (linesOf k op.size), v) := by
  subst hcc
  have hpoison : (if op.reads then notPoisoned (c.claimAll c.act.ctx k op.size) (linesOf k op.size) else .ok ()) = .ok () := by
    rw [notPoisoned_ok hclean, ite_self]
  rw [ownWord]
  exact (bind_ok (notLocked_ok hlock)).trans (bind_ok hpoison)

theorem needLines_flagged (c : Core) (f : Fl) (ns : List Nat) : needLines (flagged c f) ns = needLines c ns := rfl

end

theorem strong_served {cls : SClass} {d : BitVec 6} {a : Src} {n : Nat} {sc : Scope} {pre : Core → Res Unit} {build : Place → Core → Res (WordOp × Core)}
    {s : State} {e : W64} {k : Nat} {c1 c2 cc : Core} {op : WordOp} (h : StrongReady s d a n pre e c1) (hfreed : Freed s c2)
    (hat : StrongAt s c2 e k n cc) (hplace : placeTrap cls s sc e (.own k) = .ok ()) (hsize : op.size = n)
    (hbuild : build (.own k) c1 = .ok (op, c2)) : Served s e k n op d cc (strong cls d a n sc pre build s) := by
  obtain ⟨-, hown, hlock, hcc, hclean⟩ := hat
  subst hsize
  have hp : s.strongPlace e = .own k := by
    unfold State.strongPlace
    obtain hown | ⟨hown, harray⟩ := hown
    · rw [hown]
    · rw [hown]; simp [harray]
  rw [← hfreed.ctx] at hcc
  have hmode : cc.ctl.mode = s.me.ctl.mode := by rw [hcc, (claimAll_claimed c2 _ _ _).stored.atHead.ctl, hfreed.atHead.ctl]
  rw [strong_own h hp hplace hbuild, ownWord_run (hfreed.locks ▸ hlock) hcc hclean, hmode]
  refine ⟨fun v f c' hrun hneed hw => ?_, fun new v f c' hrun hneed hw => ?_, fun hrun => ?_⟩
  · rw [hrun]
    dsimp only
    rw [bind_ok ((needLines_flagged cc f _).trans hneed)]
    exact congrArg (finish s) (bind_ok hw)
  · rw [hrun]
    dsimp only
    rw [bind_ok ((needLines_flagged cc f _).trans hneed)]
    exact congrArg (finish s) (bind_ok hw)
  · rw [hrun]
    rfl

end Sys2Proof.Machine
end

