-- ==== Sys2Proof/Proofs/StrongAccesses.lean ====
section
/-! Strong accesses (spec/03 R75, R76, spec/07 R160, R176, R186, R190): at an own word, and outside own memory, where each asks its home. -/

namespace Sys2Proof.Machine
open Safety

/-! ### Places outside own memory -/

/-- The address names another core of the package or of the partition. -/
def Target (s : State) (e : W64) : Prop := (∃ k off, s.place e = .core k off ∧ k ≠ s.cur) ∨ ∃ p k off, s.place e = .far p k off

def Outside (s : State) (e : W64) : Prop := Target s e ∨ s.place e = .virt

section
variable {s : State} {e : W64} {sc : Scope}

theorem strongPlace_outside (h : Outside s e) : s.strongPlace e = s.place e := by
  unfold State.strongPlace
  obtain (⟨k, off, hp, hk⟩ | ⟨p, k, off, hp⟩) | hp := h
  · rw [hp]; exact if_neg hk
  · rw [hp]
  · rw [hp]

theorem Outside.not_own (h : Outside s e) (o : Nat) : s.place e ≠ .own o := by
  obtain (⟨k, off, hp, -⟩ | ⟨p, k, off, hp⟩) | hp := h <;> rw [hp] <;> exact Place.noConfusion

theorem Outside.not_window (h : Outside s e) (b o : Nat) : s.place e ≠ .window b o := by
  obtain (⟨k, off, hp, -⟩ | ⟨p, k, off, hp⟩) | hp := h <;> rw [hp] <;> exact Place.noConfusion

/-- The offset in a core's memory is the low part of the address (R161). -/
theorem place_offset {k off : Nat} (h : s.place e = .core k off ∨ ∃ p, s.place e = .far p k off) : off = bits e 19 0 := by
  unfold State.place at h
  dsimp only at h
  split_ifs at h <;> simp_all

theorem placeTrap_outside (h : Outside s e) : placeTrap .mem s sc e (s.place e) = .ok () ∧ placeTrap .atom s sc e (s.place e) = .ok () := by
  obtain (⟨k, off, hp, -⟩ | ⟨p, k, off, hp⟩) | hp := h <;> rw [hp] <;> exact ⟨rfl, rfl⟩

/-- XCH reaches another core at one offset of its window (R176). -/
theorem placeTrap_xch (h : Target s e) (hoff : bits e 15 0 = 0x20) : placeTrap .xch s sc e (s.place e) = .ok () := by
  have hmod : bits e 19 0 % 65536 = 0x20 := by
    rw [bits_eq] at hoff ⊢
    omega
  obtain ⟨k, off, hp, -⟩ | ⟨p, k, off, hp⟩ := h
  · rw [hp, place_offset (.inl hp)]; exact if_pos hmod
  · rw [hp, place_offset (.inr ⟨p, hp⟩)]; exact if_pos hmod

/-- The place lets the access through, or refuses a home outside the scope. -/
def InReach (cls : SClass) (s : State) (sc : Scope) (e : W64) : Prop := placeTrap cls s sc e (s.place e) = .ok () ∨
  placeTrap cls s sc e (s.place e) = Machine.trap s.me 0x202 e ∧ ∀ h, s.homeOf e true = .ok h → s.inScope sc h = false

theorem inReach_bar (h : Target s e) : InReach .bar s sc e := by
  obtain ⟨k, off, hp, -⟩ | ⟨p, k, off, hp⟩ := h
  all_goals
    unfold InReach State.homeOf
    rw [hp]
    simp only [placeTrap]
    split
    · exact .inl rfl
    · exact .inr ⟨rfl, fun h hh => by cases hh; exact Bool.eq_false_iff.2 ‹_›⟩

end

/-! ### The request leaves -/

/-- A strong access outside own memory: it waits for its reply; at its first turn it closes the open segment; once every segment has committed, its
request leaves for its home, or a home outside the scope raises RANGE. -/
def Asks (s : State) (d : BitVec 6) (e : W64) (sc : Scope) (op : WordOp) (c : Core) (o : Out) : Prop :=
  (∀ id, s.me.irrev = some (.sent id) → o = .next (s.waiting .reply)) ∧
  (s.me.irrev = none → atBoundary s.me → ∃ t, o = .next t ∧ t.me.closing.map (·.d) = s.me.closing.map (·.d) ++ [s.me.seg] ∧
    t.me.irrev = some .bounded ∧ t.me.wait = some .commit ∧ t.me.pc = s.me.pc ∧ t.me.regs = s.me.regs ∧ t.me.mem = s.me.mem) ∧
  (s.me.irrev = some .bounded → s.me.closing = [] → s.me.pubs = [] → ∀ h, s.homeOf e true = .ok h →
    (s.inScope sc h = true → pushOk d c = .ok () → s.permit h.target = true → (s.place e = .virt → s.derr = []) →
      ∃ t p, o = .next t ∧ t.chan = s.chan ++ [p] ∧ p.src = s.cur ∧ p.dst = h.target ∧
        p.body = .request s.me.nord d.toNat (.word h e op (e.extractLsb' 56 4) s.me.ctl.mode) ∧
        t.me.irrev = some (.sent s.me.nord) ∧ t.me.wait = some .reply ∧ t.me.pc = s.me.pc ∧ t.me.mem = s.me.mem ∧
        ∀ r, t.me.regs.getS r = if r = d ∧ d ≠ 0 ∧ c.stream? (scode d) = none then .empty else c.regs.getS r) ∧
    (s.inScope sc h = false → o = traps s 0x202 e 0 0))

section
variable {s : State} {d : BitVec 6} {e : W64} {sc : Scope} {op : WordOp} {c : Core} {h : Home}

/-- The destination of a request under way is EMPTY, but where a stream is bound to it. -/
theorem markEmpty_eq (c : Core) (d : BitVec 6) : ∃ regs, c.markEmpty d = { c with regs := regs } ∧
    ∀ r, regs.getS r = if r = d ∧ d ≠ 0 ∧ c.stream? (scode d) = none then .empty else c.regs.getS r := by
  unfold Core.markEmpty
  by_cases hs : (c.stream? (scode d)).isSome = true
  · rw [if_pos hs]
    refine ⟨c.regs, rfl, fun r => (if_neg fun ⟨_, _, hnone⟩ => ?_).symm⟩
    rw [hnone] at hs
    cases hs
  · have hnone : c.stream? (scode d) = none := Option.not_isSome_iff_eq_none.1 hs
    obtain ⟨regs, hset⟩ := setS_eq c d .empty
    rw [if_neg hs, hset]
    refine ⟨regs, rfl, fun r => ?_⟩
    have hget := getS_setS c d r .empty
    rw [hset] at hget
    refine hget.trans (if_congr ⟨fun ⟨hr, hne⟩ => ⟨hr, hr ▸ hne, hnone⟩, fun ⟨hr, hne, _⟩ => ⟨hr, hr ▸ hne⟩⟩ rfl rfl)

/-- A request keeps the translation of its address, and nothing else but energy. -/
theorem fillFor_kept (h : s.place e = .virt → s.derr = []) : Refilled s (s.fillFor e) := by
  by_cases hp : s.place e = .virt
  · exact fillFor_refilled (h hp) e
  · unfold State.fillFor
    split
    · exact absurd ‹_› hp
    · exact .refl s

theorem ask_word {tag : BitVec 4} {mode : W64} (hc : Freed s c) (hderr : s.place e = .virt → s.derr = []) :
    ∃ t p, s.ask c d h (.word h e op tag mode) = t ∧ t.chan = s.chan ++ [p] ∧ p.src = s.cur ∧ p.dst = h.target ∧
      p.body = .request s.me.nord d.toNat (.word h e op tag mode) ∧
      t.me.irrev = some (.sent s.me.nord) ∧ t.me.wait = some .reply ∧ t.me.pc = s.me.pc ∧ t.me.mem = s.me.mem ∧
      ∀ r, t.me.regs.getS r = if r = d ∧ d ≠ 0 ∧ c.stream? (scode d) = none then .empty else c.regs.getS r := by
  obtain ⟨regs, hempty, hget⟩ := markEmpty_eq c d
  obtain ⟨_, _, _, rfl⟩ := hc
  unfold State.ask
  rw [hempty]
  dsimp only
  generalize hu : ({ s with me := _ } : State) = u
  obtain ⟨tlb, tables, ctxs, hf⟩ := fillFor_kept (s := u) (e := e) (hu ▸ hderr)
  obtain ⟨l, q, p, hsend, hsrc, hdst, hbody⟩ := send_eq (u.fillFor e) h.target (.request s.me.nord d.toNat (.word h e op tag mode))
  rw [hsend]
  rw [hf] at hsrc ⊢
  subst hu
  exact ⟨_, p, rfl, rfl, hsrc, hdst, hbody, rfl, rfl, rfl, rfl, hget⟩

/-- Once every segment has committed, the request leaves where its home has a permit. -/
theorem irrevocable_ask {go : Res (Home × Req)} {r : Req} (hirrev : s.me.irrev = some .bounded) (hclosing : s.me.closing = []) (hpubs : s.me.pubs = [])
    (hgo : go = .ok (h, r)) (hpush : pushOk d c = .ok ()) (hpermit : s.permit h.target = true) : irrevocable s d c go = .ok (s.ask c d h r) := by
  rw [irrevocable, hirrev, hclosing, hpubs]
  exact (bind_ok (need_ok rfl)).trans ((bind_ok hgo).trans ((bind_ok hpush).trans (bind_ok (need_ok hpermit))))

theorem irrevocable_refused {go : Res (Home × Req)} {x : Stop} (hirrev : s.me.irrev = some .bounded) (hclosing : s.me.closing = [])
    (hpubs : s.me.pubs = []) (hgo : go = .error x) : irrevocable s d c go = .error x := by
  rw [irrevocable, hirrev, hclosing, hpubs]
  exact (bind_ok (need_ok rfl)).trans (bind_error hgo)

theorem wordReq_inScope (hhome : s.homeOf e true = .ok h) (hsc : s.inScope sc h = true) :
    wordReq s sc e op = .ok (h, .word h e op (e.extractLsb' 56 4) s.me.ctl.mode) :=
  (bind_ok hhome).trans (bind_ok (need_ok hsc))

theorem wordReq_outOfScope (hhome : s.homeOf e true = .ok h) (hsc : s.inScope sc h = false) :
    wordReq s sc e op = .error (.trap (precise s.me 0x202 e 0 0)) :=
  (bind_ok hhome).trans (bind_error (need_error hsc))

/-- An access that makes its irrevocable part with what `go` gives asks its home. -/
theorem asks_of_irrevocable {o : Out} {c' : Core} {go : Res (Home × Req)} (hc : Freed s c)
    (hsent : ∀ id, s.me.irrev = some (.sent id) → o = .next (s.waiting .reply))
    (ho : (∀ id, s.me.irrev ≠ some (.sent id)) → o = finish s (irrevocable s d c' go))
    (hin : ∀ h, s.homeOf e true = .ok h → s.inScope sc h = true → c' = c ∧ go = wordReq s sc e op)
    (hout : ∀ h, s.homeOf e true = .ok h → s.inScope sc h = false → go = .error (.trap (precise s.me 0x202 e 0 0))) : Asks s d e sc op c o := by
  refine ⟨hsent, fun hirrev hb => ?_, fun hirrev hclosing hpubs h hhome => ⟨fun hsc hpush hpermit hderr => ?_, fun hsc => ?_⟩⟩
  · rw [ho (by simp [hirrev]), irrevocable_first hirrev hb]
    exact ⟨_, rfl, List.map_append, rfl, rfl, rfl, rfl, rfl⟩
  · obtain ⟨rfl, hgo⟩ := hin h hhome hsc
    rw [ho (by simp [hirrev]),
      irrevocable_ask hirrev hclosing hpubs (hgo.trans (wordReq_inScope hhome hsc)) hpush hpermit]
    obtain ⟨_, p, rfl, hrest⟩ := ask_word (d := d) (op := op) (h := h) hc hderr
    exact ⟨_, p, rfl, hrest⟩
  · rw [ho (by simp [hirrev]), irrevocable_refused hirrev hclosing hpubs (hout h hhome hsc)]
    rfl

end

section
variable {cls : SClass} {d : BitVec 6} {a b : Src} {n : Nat} {sc : Scope} {pre : Core → Res Unit} {build : Place → Core → Res (WordOp × Core)}
  {s : State} {e : W64} {c1 c : Core} {op : WordOp}

theorem lateTrap_range {p : Place} {r : Report} (hown : ∀ o, p ≠ .own o) (hwin : ∀ b o, p ≠ .window b o) (hr : r.cause = 0x202) :
    lateTrap (.error (.trap r)) p = some r := by
  cases p with
  | own o => exact absurd rfl (hown o)
  | window b o => exact absurd rfl (hwin b o)
  | _ => exact if_pos hr

/-- A strong access outside own memory asks its home (R76). -/
theorem strong_asks (hreads : s.me.reads = []) (hd : destS d s.me = .ok ()) (ha : readS a s.me = .ok (e, c1)) (hpre : pre c1 = .ok ())
    (hal : e.toNat % n = 0) (hc : Freed s c) (hout : Outside s e) (hplace : InReach cls s sc e) (hbuild : build (s.place e) c1 = .ok (op, c)) :
    Asks s d e sc op c (strong cls d a n sc pre build s) := by
  have hsent : ∀ id, s.me.irrev = some (.sent id) → strong cls d a n sc pre build s = .next (s.waiting .reply) := fun id hid => by
    rw [strong, hid]
  have hsp : s.strongPlace e = s.place e := strongPlace_outside hout
  obtain hok | ⟨hrange, hfar⟩ := hplace
  · refine asks_of_irrevocable hc hsent (c' := c) (go := wordReq s sc e op) (fun hne => ?_) (fun _ _ _ => ⟨rfl, rfl⟩) fun _ => wordReq_outOfScope
    exact strong_outside ⟨hne, hreads, hd, ha, hpre, hal⟩ (hsp ▸ hout.not_own) (hsp ▸ hout.not_window) (hsp ▸ hok) (hsp ▸ hbuild)
  · refine asks_of_irrevocable hc hsent (c' := c1) (go := .error (.trap (precise s.me 0x202 e 0 0))) (fun hne => ?_)
      (fun h hhome hsc => ?_) fun _ _ _ => rfl
    · refine strong_late ⟨hne, hreads, hd, ha, hpre, hal⟩ ?_
      rw [hsp, hrange]
      exact lateTrap_range hout.not_own hout.not_window rfl
    · rw [hfar h hhome] at hsc
      cases hsc

/-! ### Operands of the strong accesses -/

theorem pre1_ok {y : W64} {c2 : Core} (hb : readS b c1 = .ok (y, c2)) : pre1 b c1 = .ok () := by rw [pre1, hb]; rfl

theorem pre2_ok {e2 : Src} {y z : W64} {c2 c3 : Core} (hb : readS b c1 = .ok (y, c2)) (he : readS e2 c2 = .ok (z, c3)) : pre2 b e2 c1 = .ok () :=
  (bind_ok hb).trans (pre1_ok he)

theorem build1_ok {f : W64 → WordOp} {p : Place} {y : W64} {c2 : Core} (hb : readS b c1 = .ok (y, c2)) :
    build1 a b f p c1 = .ok (f y, freeS b (freeS a c2)) := bind_ok hb

/-- The places at which the register after an even b goes along (R167). -/
def Both (own : Core → Nat → Nat → Bool) (p : Place) (b : Src) (c : Core) : Prop := b.reg.getLsbD 0 = false ∧ match p with
  | .window k off => own c k off = true
  | .core .. | .far .. => (c.regs.getS (b.reg + 1)).live = true
  | _ => False

theorem buildPair_alone {own : Core → Nat → Nat → Bool} {f : W64 → W64 → Bool → WordOp} {p : Place} {y : W64} {c2 : Core}
    (hb : readS b c1 = .ok (y, c2)) (h : ¬Both own p b c1) : buildPair a b own f p c1 = .ok (f y 0 (b.reg.getLsbD 0), freeS b (freeS a c2)) := by
  refine (bind_ok hb).trans (if_neg fun hboth => h ?_)
  cases p <;> simp_all [Both]

theorem buildPair_both {own : Core → Nat → Nat → Bool} {f : W64 → W64 → Bool → WordOp} {p : Place} {y z : W64} {c2 c3 : Core}
    (hb : readS b c1 = .ok (y, c2)) (h : Both own p b c1) (hz : readS (pairSrc b) c2 = .ok (z, c3)) :
    buildPair a b own f p c1 = .ok (f y z false, freeS (pairSrc b) (freeS b (freeS a c3))) := by
  obtain ⟨heven, hp⟩ := h
  refine (bind_ok hb).trans ((if_pos ?_).trans ((bind_ok hz).trans (by rw [heven])))
  cases p <;> simp_all

theorem freed_eq₃ {e2 : Src} {x y z : W64} {c2 c3 : Core} (ha : readS a s.me = .ok (x, c1)) (hb : readS b c1 = .ok (y, c2))
    (he : readS e2 c2 = .ok (z, c3)) : Freed s (freeS e2 (freeS b (freeS a c3))) := by
  obtain ⟨_, _, rfl⟩ := readS_frame ha
  obtain ⟨_, _, rfl⟩ := readS_frame hb
  obtain ⟨l, k, rfl⟩ := readS_frame he
  obtain ⟨r, hr⟩ := freeS_eq a { s.me with streams := l, nund := k }
  obtain ⟨r', hr'⟩ := freeS_eq b { s.me with regs := r, streams := l, nund := k }
  obtain ⟨r'', hr''⟩ := freeS_eq e2 { s.me with regs := r', streams := l, nund := k }
  exact ⟨r'', l, k, by rw [← hr'', ← hr', ← hr]⟩

theorem exec_lds (d : BitVec 6) (a : Src) (sc : Scope) (t : Ty) (s : State) : exec (.lds d a sc t) s =
    strong .mem d a (t.width / 8) sc (fun _ => .ok ()) (fun _ c => .ok (.lds t, freeS a c)) s := rfl

theorem exec_sts (a b : Src) (sc : Scope) (t : Ty) (s : State) : exec (.sts a b sc t) s =
    strong .mem 0 a (t.width / 8) sc (pre1 b) (buildPair a b (fun c k off => (c.bank k).pairs? true off) fun y z odd => .sts t y z odd) s := rfl

/-- ACAS has two data operands. -/
theorem acas_exec {e2 : Src} {t : Ty} {y z : W64} {c2 c3 : Core} (hb : readS b c1 = .ok (y, c2)) (he : readS e2 c2 = .ok (z, c3)) :
    ∃ build : Place → Core → Res (WordOp × Core), exec (.acas d a b e2 sc t) s = strong .atom d a (t.width / 8) sc (pre2 b e2) build s ∧
      ∀ p, build p c1 = .ok (.acas t y z, freeS e2 (freeS b (freeS a c3))) := by
  change ∃ build : Place → Core → Res (WordOp × Core), execAcas d a b e2 sc t s = _ ∧ _
  unfold execAcas
  refine ⟨_, rfl, fun p => ?_⟩
  exact (bind_ok hb).trans (bind_ok he)

/-- XCH takes a second word to the window of a HEAP for a deckey (R176). -/
def xchPairs (op : XchOp) (c : Core) (k _ : Nat) : Bool := op == .deckey && (match (c.bank k).data with | .heap .. => true | _ => false)

theorem exec_xch (d : BitVec 6) (a b : Src) (op : XchOp) (s : State) : exec (.xch d a b op) s =
    strong .xch d a 1 .cluster (pre1 b) (buildPair a b (xchPairs op) fun y z odd => .xch op y z odd) s := rfl

/-- Every atomic of one data operand, and WAITM, is a strong access of the same shape. -/
theorem strongRow_exec {row : StrongRow} (hrow : row ∈ strongRows) : ∀ (d : BitVec 6) (a b : Src) (sc : Scope) (t : Ty) (s : State),
    exec (row.op d a b sc t) s = strong .atom d a (t.width / 8) sc (pre1 b) (build1 a b (row.at_ t)) s ∧ ∀ y, (row.at_ t y).size = t.width / 8 := by
  intro d a b sc t s
  rw [strongRows, List.mem_append] at hrow
  obtain h | h := hrow
  · simp only [List.mem_cons, List.not_mem_nil, or_false] at h
    obtain rfl | rfl | rfl | rfl | rfl | rfl | rfl | rfl := h <;> exact ⟨rfl, fun _ => rfl⟩
  · obtain ⟨cc, -, rfl⟩ := List.mem_map.1 h
    exact ⟨rfl, fun _ => rfl⟩

/-- Every byte barrier is a strong access of 16 bytes. -/
theorem barrierRow_exec {row : (BitVec 6 → Src → Src → Scope → Instr) × (W64 → WordOp)} (hrow : row ∈ barrierRows) (d : BitVec 6) (a b : Src) (sc : Scope)
    (s : State) {y : W64} {c2 : Core} (hb : readS b c1 = .ok (y, c2)) (hcount : row.2 y = .bari y → 1 ≤ y.toNat ∧ y.toNat < 65536) :
    ∃ build : Place → Core → Res (WordOp × Core), exec (row.1 d a b sc) s = strong .bar d a 16 sc (pre1 b) build s ∧
      (∀ p, build p c1 = .ok (row.2 y, freeS b (freeS a c2))) ∧ (row.2 y).size = 16 := by
  simp only [barrierRows, List.mem_cons, List.not_mem_nil, or_false] at hrow
  obtain rfl | rfl | rfl := hrow
  · obtain ⟨hpos, hlt⟩ := hcount rfl
    change ∃ build : Place → Core → Res (WordOp × Core), execBari d a b sc s = _ ∧ _
    unfold execBari
    refine ⟨_, rfl, fun p => ?_, rfl⟩
    exact (bind_ok hb).trans (bind_ok (need_ok (by simp [hpos, hlt])))
  · exact ⟨build1 a b .barx, rfl, fun p => build1_ok hb, rfl⟩
  · exact ⟨build1 a b .barw, rfl, fun p => build1_ok hb, rfl⟩

end

/-- The register after an even b goes along to another core where it can be read (R167). -/
theorem both_iff_paired {s : State} {e : W64} {own : Core → Nat → Nat → Bool} {b : Src} {c : Core} (h : Outside s e) :
    Both own (s.place e) b c ↔ Target s e ∧ b.reg.getLsbD 0 = false ∧ (c.regs.getS (b.reg + 1)).live = true := by
  obtain ht | hp := h
  · refine Iff.trans ?_ (and_iff_right ht).symm
    obtain ⟨k, off, hp, -⟩ | ⟨p, k, off, hp⟩ := ht <;> rw [hp] <;> exact Iff.rfl
  · have hnot : ¬Target s e := by
      rintro (⟨k, off, h, -⟩ | ⟨p, k, off, h⟩) <;> rw [hp] at h <;> cases h
    rw [hp]
    exact ⟨fun h => h.2.elim, fun h => absurd h.1 hnot⟩

/-- Settles O26: an own word is served by what its bytes hold; an access outside own memory takes its boundary and asks its home. -/
theorem strongAccesses : Obligations.StrongAccesses := by
  unfold Obligations.StrongAccesses
  refine ⟨⟨?_, ?_, ?_, ?_, ?_⟩, ⟨?_, ?_, ?_, ?_, ?_, ?_, ?_, ?_⟩⟩
  · intro d a sc t s e k c1 cc _ ⟨hirrev, hreads, hd⟩ ha hat
    rw [exec_lds]
    exact strong_served ⟨by simp [hirrev], hreads, hd, ha, rfl, hat.1⟩ (freed_eq ha) hat rfl rfl rfl
  · intro a b sc t s e y k c1 c2 cc _ ⟨hirrev, hreads, hd⟩ ha hb hat
    rw [exec_sts]
    exact strong_served ⟨by simp [hirrev], hreads, hd, ha, pre1_ok hb, hat.1⟩ (freed_eq₂ ha hb) hat rfl rfl (buildPair_alone hb fun h => h.2)
  · intro row hrow d a b sc t s e y k c1 c2 cc _ ⟨hirrev, hreads, hd⟩ ha hb hat
    obtain ⟨hexec, hsize⟩ := strongRow_exec hrow d a b sc t s
    rw [hexec]
    exact strong_served ⟨by simp [hirrev], hreads, hd, ha, pre1_ok hb, hat.1⟩ (freed_eq₂ ha hb) hat rfl (hsize y) (build1_ok hb)
  · intro d a b e2 sc t s e y z k c1 c2 c3 cc _ ⟨hirrev, hreads, hd⟩ ha hb he hat
    obtain ⟨build, hexec, hbuild⟩ := acas_exec (d := d) (sc := sc) (t := t) (s := s) hb he
    rw [hexec]
    exact strong_served ⟨by simp [hirrev], hreads, hd, ha, pre2_ok hb he, hat.1⟩ (freed_eq₃ ha hb he) hat rfl rfl (hbuild _)
  · intro row hrow d a b sc s e y k c1 c2 cc ⟨hirrev, hreads, hd⟩ ha hb hcount hat
    obtain ⟨build, hexec, hbuild, hsize⟩ := barrierRow_exec hrow d a b sc s hb hcount
    rw [hexec]
    exact strong_served ⟨by simp [hirrev], hreads, hd, ha, pre1_ok hb, hat.1⟩ (freed_eq₂ ha hb) hat rfl hsize (hbuild _)
  · intro d a sc t s e c1 _ ⟨hreads, hd⟩ ha hal hout
    rw [exec_lds]
    exact strong_asks hreads hd ha rfl hal (freed_eq ha) hout (.inl (placeTrap_outside hout).1) rfl
  · intro a b sc t s e y c1 c2 _ ⟨hreads, hd⟩ ha hb hal hout
    rw [exec_sts]
    refine ⟨fun hpair => ?_, fun z c3 hpair hz => ?_⟩
    · exact strong_asks hreads hd ha (pre1_ok hb) hal (freed_eq₂ ha hb) hout (.inl (placeTrap_outside hout).1)
        (buildPair_alone hb (mt (both_iff_paired hout).1 hpair))
    · exact strong_asks hreads hd ha (pre1_ok hb) hal (freed_eq₃ ha hb hz) hout (.inl (placeTrap_outside hout).1)
        (buildPair_both hb ((both_iff_paired hout).2 hpair) hz)
  · intro row hrow d a b sc t s e y c1 c2 _ ⟨hreads, hd⟩ ha hb hal hout
    rw [(strongRow_exec hrow d a b sc t s).1]
    exact strong_asks hreads hd ha (pre1_ok hb) hal (freed_eq₂ ha hb) hout (.inl (placeTrap_outside hout).2) (build1_ok hb)
  · intro d a b e2 sc t s e y z c1 c2 c3 _ ⟨hreads, hd⟩ ha hb he hal hout
    obtain ⟨build, hexec, hbuild⟩ := acas_exec (d := d) (sc := sc) (t := t) (s := s) hb he
    rw [hexec]
    exact strong_asks hreads hd ha (pre2_ok hb he) hal (freed_eq₃ ha hb he) hout (.inl (placeTrap_outside hout).2) (hbuild _)
  · intro row hrow d a b sc s e y c1 c2 ⟨hreads, hd⟩ ha hb hcount hal htarget
    obtain ⟨build, hexec, hbuild, -⟩ := barrierRow_exec hrow d a b sc s hb hcount
    rw [hexec]
    exact strong_asks hreads hd ha (pre1_ok hb) hal (freed_eq₂ ha hb) (.inl htarget) (inReach_bar htarget) (hbuild _)
  · intro d a b op s e y c1 c2 ⟨hreads, hd⟩ ha hb htarget hoff
    rw [exec_xch]
    refine ⟨fun hpair => ?_, fun z c3 hpair hz => ?_⟩
    · exact strong_asks hreads hd ha (pre1_ok hb) (Nat.mod_one _) (freed_eq₂ ha hb) (.inl htarget) (.inl (placeTrap_xch htarget hoff))
        (buildPair_alone hb (mt (both_iff_paired (.inl htarget)).1 hpair))
    · exact strong_asks hreads hd ha (pre1_ok hb) (Nat.mod_one _) (freed_eq₃ ha hb hz) (.inl htarget) (.inl (placeTrap_xch htarget hoff))
        (buildPair_both hb ((both_iff_paired (.inl htarget)).2 hpair) hz)
  · intro s h
    exact congrArg (finish s) (bind_ok (need_ok h))
  · intro s h
    exact congrArg (finish s) (bind_error (need_error h))

end Sys2Proof.Machine
end

