-- ==== Sys2Proof/Proofs/Structures.lean ====
section
/-! What each structure of a bank does at each offset of its window (spec/07 R166 to R176). -/

namespace Sys2Proof.Machine
open Safety

section
variable {c : Core} {b : Nat}

/-! ### Banks of a core -/

theorem bank_setBank_same (c : Core) (v : Bank) (h : b < 16) : (c.setBank b v).bank b = v := by
  rw [Core.bank, Core.setBank, Vector.toList_setIfInBounds, List.getD_eq_getElem?_getD, List.getElem?_set_self (by simpa using h)]
  rfl

theorem setBank_setBank (c : Core) (b : Nat) (v w : Bank) : (c.setBank b v).setBank b w = c.setBank b w := by
  unfold Core.setBank
  rw [Vector.setIfInBounds_setIfInBounds]

/-- Only the sixteen banks hold a structure. -/
theorem lt_of_structure (h : (c.bank b).data ≠ .array) : b < 16 := by
  by_contra hb
  refine h ?_
  rw [Core.bank, List.getD_eq_default _ _ (by simpa using hb)]
  rfl

/-- The bank of a queue and its pool are two banks. -/
theorem pool_ne {p : Nat} {h : Nat} {ring : List W64} {lent : List (Nat × Nat × List W64)} {used : List Nat} (hq : (c.bank b).data = .queue h ring lent)
    (hp : (c.bank p).data = .pool used) : b ≠ p := by
  rintro rfl
  rw [hq] at hp
  cases hp

/-- Both banks that a chunk is lent by or returned to. -/
theorem bank_setPool {p : Nat} {v : Bank} {used' : List Nat} (hb : b < 16) (hp16 : p < 16) (hne : b ≠ p) :
    ((c.setBank b v).setPool p used').bank b = v ∧ (((c.setBank b v).setPool p used').bank p).data = .pool used' := by
  rw [Core.setPool, bank_setBank_ne _ _ hne.symm, bank_setBank_same _ _ hb, bank_setBank_same _ _ hp16]
  exact ⟨rfl, rfl⟩

/-! ### Queues (R169) -/

section
variable {h n m : Nat} {x w : W64} {ring ws : List W64} {l lent : List (Nat × Nat × List W64)} {used : List Nat}

theorem poolOf_pool (hp : (c.bank (c.bank b).poolb.toNat).data = .pool used) : c.poolOf (c.bank b) = some ((c.bank b).poolb.toNat, used) := by
  rw [Core.poolOf, hp]

theorem poolOf_none (hp : ∀ used, (c.bank (c.bank b).poolb.toNat).data ≠ .pool used) : c.poolOf (c.bank b) = none := by
  unfold Core.poolOf
  split
  · exact absurd ‹_› (hp _)
  · rfl

theorem qRefill_unlent (hq : (c.bank b).data = .queue h ring []) : qRefill c b = c := by rw [qRefill, hq]

/-- The oldest lent word moves up. -/
theorem qRefill_lent {w' : W64} (hq : (c.bank b).data = .queue h ring ((n, m, w :: w' :: ws) :: l)) :
    qRefill c b = c.setBank b { c.bank b with data := .queue h (ring ++ [w]) ((n, m + 1, w' :: ws) :: l) } := by
  rw [qRefill, hq]
  rfl

/-- A chunk returns when its last word has moved. -/
theorem qRefill_last (hq : (c.bank b).data = .queue h ring ((n, m, [w]) :: l)) (hp : (c.bank (c.bank b).poolb.toNat).data = .pool used) :
    qRefill c b = (c.setBank b { c.bank b with data := .queue h (ring ++ [w]) l }).setPool (c.bank b).poolb.toNat (used.filter (· != n)) := by
  have hpool : (c.setBank b { c.bank b with data := .queue h (ring ++ [w]) l }).poolOf (c.bank b) = some ((c.bank b).poolb.toNat, used) := by
    rw [Core.poolOf, bank_setBank_ne c _ (pool_ne hq hp), hp]
  rw [qRefill, hq]
  dsimp only
  rw [hpool]
  rfl

theorem qDequeue_cons (hq : (c.bank b).data = .queue h (x :: ring) lent) :
    qDequeue c b = (qRefill (c.setBank b { c.bank b with data := .queue ((h + 1) % (c.bank b).words) ring lent }) b, some x) := by
  rw [qDequeue, hq]

theorem qDequeue_nil (hq : (c.bank b).data = .queue h [] lent) : qDequeue c b = (c, none) := by rw [qDequeue, hq]

theorem winLoad_front (hq : (c.bank b).data = .queue h (x :: ring) lent) :
    winLoad c b 0 = .ok (qRefill (c.setBank b { c.bank b with data := .queue ((h + 1) % (c.bank b).words) ring lent }) b) x none .ok ∧
      winLoad c b 8 = .ok c x none .ok := by
  simp [winLoad, hq, qDequeue_cons hq]

/-- A dequeue takes the front. -/
theorem winLoad_unlent (hq : (c.bank b).data = .queue h (x :: ring) []) : winLoad c b 0 =
    .ok (c.setBank b { c.bank b with data := .queue ((h + 1) % (c.bank b).words) ring [] }) x none .ok := by
  have hb : b < 16 := lt_of_structure (by rw [hq]; exact Struct.noConfusion)
  rw [(winLoad_front hq).1, qRefill_unlent (congrArg Bank.data (bank_setBank_same c _ hb))]

/-- A dequeue moves the oldest lent word up. -/
theorem winLoad_lent {w' : W64} (hq : (c.bank b).data = .queue h (x :: ring) ((n, m, w :: w' :: ws) :: l)) : winLoad c b 0 =
    .ok (c.setBank b { c.bank b with data := .queue ((h + 1) % (c.bank b).words) (ring ++ [w]) ((n, m + 1, w' :: ws) :: l) }) x none .ok := by
  have hb : b < 16 := lt_of_structure (by rw [hq]; exact Struct.noConfusion)
  have hbank := bank_setBank_same c { c.bank b with data := .queue ((h + 1) % (c.bank b).words) ring ((n, m, w :: w' :: ws) :: l) } hb
  rw [(winLoad_front hq).1, qRefill_lent (congrArg Bank.data hbank), hbank, setBank_setBank]

/-- A dequeue that moves the last word of a chunk returns the chunk. -/
theorem winLoad_lastLent (hq : (c.bank b).data = .queue h (x :: ring) ((n, m, [w]) :: l)) (hp : (c.bank (c.bank b).poolb.toNat).data = .pool used) :
    ∃ q, winLoad c b 0 = .ok q x none .ok ∧ (q.bank b).data = .queue ((h + 1) % (c.bank b).words) (ring ++ [w]) l ∧
      (q.bank (c.bank b).poolb.toNat).data = .pool (used.filter (· != n)) := by
  have hb : b < 16 := lt_of_structure (by rw [hq]; exact Struct.noConfusion)
  have hbank := bank_setBank_same c { c.bank b with data := .queue ((h + 1) % (c.bank b).words) ring ((n, m, [w]) :: l) } hb
  have hpool : ((c.setBank b { c.bank b with data := .queue ((h + 1) % (c.bank b).words) ring ((n, m, [w]) :: l) }).bank (c.bank b).poolb.toNat).data =
      .pool used := (congrArg Bank.data (bank_setBank_ne c _ (pool_ne hq hp))).trans hp
  refine ⟨_, (winLoad_front hq).1, ?_⟩
  rw [qRefill_last (congrArg Bank.data hbank) (by rw [hbank]; exact hpool), hbank]
  obtain ⟨hown, hlent⟩ := bank_setPool (c := c.setBank b _) (v := { c.bank b with data := .queue ((h + 1) % (c.bank b).words) (ring ++ [w]) l })
    (used' := used.filter (· != n)) hb (c.bank b).poolb.isLt (pool_ne hq hp)
  exact ⟨congrArg Bank.data hown, hlent⟩

theorem winLoad_noFront (hq : (c.bank b).data = .queue h [] lent) : winLoad c b 0 = .ok c 0 none .empty ∧ winLoad c b 8 = .ok c 0 none .empty := by
  simp [winLoad, hq, qDequeue_nil hq]

theorem winStore_queue (x1 : W64) (hq : (c.bank b).data = .queue h ring lent) :
    winStore c b 0 x x1 = .ok (qEnqueue c b x).1 0 none (qEnqueue c b x).2 := by
  rw [winStore, hq]
  rfl

theorem qEnqueue_ring (hq : (c.bank b).data = .queue h ring []) (hroom : ring.length < (c.bank b).words) :
    qEnqueue c b x = (c.setBank b { c.bank b with data := .queue h (ring ++ [x]) [] }, .ok) := by
  simp [qEnqueue, hq, hroom]

theorem qEnqueue_chunk (hq : (c.bank b).data = .queue h ring [(n, m, ws)]) (hroom : m + ws.length < 8) :
    qEnqueue c b x = (c.setBank b { c.bank b with data := .queue h ring [(n, m, ws ++ [x])] }, .ok) := by
  simp [qEnqueue, hq, lastChunk, hroom, pushChunk]

theorem qEnqueue_poolless (hq : (c.bank b).data = .queue h ring []) (hfull : (c.bank b).words ≤ ring.length)
    (hp : ∀ used, (c.bank (c.bank b).poolb.toNat).data ≠ .pool used) : qEnqueue c b x = (c, .full) := by
  simp [qEnqueue, hq, lastChunk, Nat.not_lt.2 hfull, poolOf_none hp]

theorem qEnqueue_noChunk (hq : (c.bank b).data = .queue h ring []) (hfull : (c.bank b).words ≤ ring.length)
    (hp : (c.bank (c.bank b).poolb.toNat).data = .pool used) (hfree : freeChunk used = none) : qEnqueue c b x = (c, .full) := by
  simp [qEnqueue, hq, lastChunk, Nat.not_lt.2 hfull, poolOf_pool hp, hfree]

/-- A full ring borrows a chunk of its pool. -/
theorem qEnqueue_borrows (hq : (c.bank b).data = .queue h ring []) (hfull : (c.bank b).words ≤ ring.length)
    (hp : (c.bank (c.bank b).poolb.toNat).data = .pool used) (hfree : freeChunk used = some n) : qEnqueue c b x =
      ((c.setBank b { c.bank b with data := .queue h ring [(n, 0, [x])] }).setPool (c.bank b).poolb.toNat (nset used n), .ok) := by
  simp [qEnqueue, hq, lastChunk, Nat.not_lt.2 hfull, poolOf_pool hp, hfree]

theorem freeChunk_none (h : ∀ n < 1024, n ∈ used) : freeChunk used = none := by
  refine List.find?_eq_none.2 fun n hn => ?_
  simpa using h n (List.mem_range.1 hn)

theorem freeChunk_some (hn : n < 1024) (hfree : n ∉ used) (hlow : ∀ m < n, m ∈ used) : freeChunk used = some n := by
  refine List.find?_range_eq_some.2 ⟨by simpa using hfree, List.mem_range.2 hn, fun m hm => by simpa using hlow m hm⟩

end

/-! ### Stacks and heaps (R170, R172) -/

theorem winStore_stack {ws : List W64} (h : (c.bank b).data = .stack ws) (x x1 : W64) :
    (ws.length < (c.bank b).words → winStore c b 0 x x1 = .ok (c.setBank b { c.bank b with data := .stack (ws ++ [x]) }) 0 none .ok) ∧
      ((c.bank b).words ≤ ws.length → winStore c b 0 x x1 = .ok c 0 none .full) := by
  simp +contextual [winStore, h, Nat.not_lt.2]

theorem winLoad_stack {ws : List W64} {x : W64} (h : (c.bank b).data = .stack (ws ++ [x])) :
    winLoad c b 0 = .ok (c.setBank b { c.bank b with data := .stack ws }) x none .ok ∧ winLoad c b 8 = .ok c x none .ok := by
  simp [winLoad, h]

theorem winLoad_emptyStack (h : (c.bank b).data = .stack []) : winLoad c b 0 = .ok c 0 none .empty ∧ winLoad c b 8 = .ok c 0 none .empty := by
  simp [winLoad, h]

theorem winStore_map {slots : List (Nat × W64 × W64)} (h : (c.bank b).data = .map slots) (x x1 : W64) : winStore c b 0 x x1 =
    .ok (c.setBank b { c.bank b with data := .map (mapInsert slots x x1 (c.bank b).span).1 }) 0 none (mapInsert slots x x1 (c.bank b).span).2 := by
  simp [winStore, h]

theorem winStore_heap {es : List HEntry} {next : Nat} (h : (c.bank b).data = .heap es next) (x x1 : W64) :
    let r := hInsert (c.bank b).kfmt es next x x1
    (es.length < (c.bank b).pairs → winStore c b 0 x x1 = .ok (c.setBank b { c.bank b with data := .heap r.1 r.2 }) 0 none .ok) ∧
      ((c.bank b).pairs ≤ es.length → winStore c b 0 x x1 = .ok c 0 none .full) := by
  simp +contextual [winStore, h, Nat.not_lt.2]

theorem winLoad_heap {e : HEntry} {es : List HEntry} {next : Nat} (h : (c.bank b).data = .heap (e :: es) next) :
    let r := hExtract (c.bank b).kfmt (e :: es) next
    winLoad c b 8 = .ok c e.1 (some e.2.1) .ok ∧ winLoad c b 0 = .ok (c.setBank b { c.bank b with data := .heap r.1 r.2 }) e.1 (some e.2.1) .ok := by
  simp [winLoad, h]

theorem winLoad_emptyHeap {next : Nat} (h : (c.bank b).data = .heap [] next) :
    winLoad c b 0 = .ok c 0 (some 0) .empty ∧ winLoad c b 8 = .ok c 0 (some 0) .empty := by
  simp [winLoad, h]

/-- The count and the capacity of every structure (R166). -/
theorem winLoad_count (harray : (c.bank b).data ≠ .array) (hmember : ∀ l, (c.bank b).data ≠ .member l) :
    winLoad c b 0x10 = .ok c (BitVec.ofNat 64 (Bank.count c b)) none .ok ∧ winLoad c b 0x18 = .ok c (c.bankWord b (c.bank b).capacity) none .ok := by
  cases hd : (c.bank b).data with
  | array => exact absurd hd harray
  | member l => exact absurd hd (hmember l)
  | _ => simp [winLoad, hd, ofNat]

/-! ### Histograms (R173) -/

theorem anat_aset (l : List (Nat × Nat)) (a j v : Nat) : anat (aset l a v) j = if j = a then v else anat l j := by
  rw [anat, aget_aset]
  split
  · rfl
  · rfl

theorem anat_adel (l : List (Nat × Nat)) (a j : Nat) : anat (adel l a) j = if j = a then 0 else anat l j := by
  rw [anat, aget_adel]
  split
  · rfl
  · rfl

theorem histAdd_absent {k : Bank} {bins : List (Nat × Nat)} {i n : Nat} (h : k.bins ≤ i) : histAdd k bins i n = (bins, .absent) := if_pos h

/-- A bin rises up to its cap. -/
theorem histAdd_bin {k : Bank} (bins : List (Nat × Nat)) {i : Nat} (n : Nat) (h : i < k.bins) :
    let v := min (anat bins i + n) (2 ^ k.binWidth - 1)
    (histAdd k bins i n).2 = (if v = 2 ^ k.binWidth - 1 then .full else .ok) ∧
      ∀ j, anat (histAdd k bins i n).1 j = if j = i then v else anat bins j := by
  intro v
  have hadd : histAdd k bins i n = (if v = 0 then bins else aset bins i v, if v = 2 ^ k.binWidth - 1 then .full else .ok) := if_neg (Nat.not_le.2 h)
  rw [hadd]
  refine ⟨rfl, fun j => ?_⟩
  dsimp only
  split
  · have hcap : 0 < 2 ^ k.binWidth - 1 := by unfold Bank.binWidth; split <;> decide
    have hv : v = 0 := ‹_›
    have hzero : anat bins i = 0 := by omega
    split
    · rw [‹j = i›, hzero, hv]
    · rfl
  · exact anat_aset bins i j v

section
variable {bins : List (Nat × Nat)} (hd : (c.bank b).data = .hist bins)
include hd

theorem winStore_absent {x : W64} (h : (c.bank b).bins ≤ bits x 63 46) (x1 : W64) :
    ∃ q, winStore c b 0 x x1 = .ok q 0 none .absent ∧ (q.bank b).data = (c.bank b).data := by
  have hb : b < 16 := lt_of_structure (by rw [hd]; exact Struct.noConfusion)
  refine ⟨c.setBank b { c.bank b with data := .hist bins }, ?_, ?_⟩
  · simp [winStore, hd, histAdd_absent h]
  · rw [bank_setBank_same c _ hb, hd]

theorem winStore_bin {x : W64} (h : bits x 63 46 < (c.bank b).bins) (x1 : W64) :
    let v := min (anat bins (bits x 63 46) + bits x 45 0) (2 ^ (c.bank b).binWidth - 1)
    ∃ q l, winStore c b 0 x x1 = .ok q 0 none (if v = 2 ^ (c.bank b).binWidth - 1 then .full else .ok) ∧ (q.bank b).data = .hist l ∧
      ∀ j, anat l j = if j = bits x 63 46 then v else anat bins j := by
  have hb : b < 16 := lt_of_structure (by rw [hd]; exact Struct.noConfusion)
  obtain ⟨hsts, hbins⟩ := histAdd_bin bins (bits x 45 0) h
  refine ⟨c.setBank b { c.bank b with data := .hist (histAdd (c.bank b) bins (bits x 63 46) (bits x 45 0)).1 }, _, ?_,
    congrArg Bank.data (bank_setBank_same c _ hb), hbins⟩
  rw [← hsts, winStore, hd]
  rfl

theorem winXch_bin {x : W64} (h : x.toNat < (c.bank b).bins) (x1 : W64) :
    winXch c b .lookup x x1 = .ok c (BitVec.ofNat 64 (anat bins x.toNat)) none .ok ∧
      ∃ l, winXch c b .delete x x1 = .ok (c.setBank b { c.bank b with data := .hist l }) (BitVec.ofNat 64 (anat bins x.toNat)) none .ok ∧
        ∀ j, anat l j = if j = x.toNat then 0 else anat bins j := by
  refine ⟨?_, adel bins x.toNat, ?_, anat_adel bins x.toNat⟩
  · simp [winXch, hd, h, ofNat]
  · simp [winXch, hd, h, ofNat]

theorem winXch_noBin {x : W64} (h : (c.bank b).bins ≤ x.toNat) (x1 : W64) :
    winXch c b .lookup x x1 = .ok c 0 none .absent ∧ winXch c b .delete x x1 = .ok c 0 none .absent := by
  simp [winXch, hd, Nat.not_lt.2 h]

end

end

/-! ### BADWIN (R166, R167, R176) -/

section
variable {c : Core} {b : Nat}

theorem winLoad_bad {off : Nat} (h0 : off ≠ 0) (h8 : off ≠ 8) (h10 : off ≠ 0x10) (h18 : off ≠ 0x18) : winLoad c b off = .bad := by
  cases hd : (c.bank b).data <;> simp [winLoad, hd, h0, h8, h10, h18]

theorem winLoad_unread (h : (c.bank b).data.code ∈ [0, 3, 5, 6, 7] ∨ (c.bank b).data = .mailbox) : winLoad c b 0 = .bad ∧ winLoad c b 8 = .bad := by
  cases hd : (c.bank b).data <;> simp [hd, Struct.code] at h <;> simp [winLoad, hd]

theorem winStore_offset {off : Nat} (h : off ≠ 0) (x x1 : W64) : winStore c b off x x1 = .bad := if_pos h

theorem winStore_untaken (h : (c.bank b).data.code ∈ [0, 6, 7] ∨ (c.bank b).data = .mailbox) (x x1 : W64) : winStore c b 0 x x1 = .bad := by
  cases hd : (c.bank b).data <;> simp [hd, Struct.code] at h <;> simp [winStore, hd]

theorem winXch_unserved (h : (c.bank b).data.code ∈ [0, 1, 2, 6, 7]) (op : XchOp) (x x1 : W64) : winXch c b op x x1 = .bad := by
  cases hd : (c.bank b).data <;> simp [hd, Struct.code] at h <;> simp [winXch, hd]

theorem winXch_noDeckey (h : (c.bank b).data.code ∈ [3, 5]) (x x1 : W64) : winXch c b .deckey x x1 = .bad := by
  cases hd : (c.bank b).data <;> simp [hd, Struct.code] at h <;> simp [winXch, hd]

theorem winXch_heap (h : (c.bank b).data.code = 4) {op : XchOp} (hop : op ≠ .deckey) (x x1 : W64) : winXch c b op x x1 = .bad := by
  cases hd : (c.bank b).data <;> simp [hd, Struct.code] at h
  cases op
  · simp [winXch, hd]
  · simp [winXch, hd]
  · exact absurd rfl hop

theorem winTy_iff (t : Ty) : winTy t = true ↔ t ∈ [Ty.i64, .n64, .f64] := by cases t <;> decide

theorem loadPairs_iff (k : Bank) (off : Nat) : k.pairs? false off = true ↔ k.data.code = 4 ∧ (off = 0 ∨ off = 8) := by
  unfold Bank.pairs?
  cases k.data <;> simp [Struct.code]

theorem storePairs_iff (k : Bank) (off : Nat) : k.pairs? true off = true ↔ k.data.code ∈ [3, 4] ∧ off = 0 := by
  unfold Bank.pairs?
  cases k.data <;> simp [Struct.code]

theorem winOp_type {off : Nat} {t : Ty} {odd : Bool} (h : t ∉ [Ty.i64, .n64, .f64]) :
    winOp c b off (.lds t) odd = .bad ∧ ∀ x x1 o, winOp c b off (.sts t x x1 o) odd = .bad := by
  have ht : winTy t = false := Bool.eq_false_iff.2 (mt (winTy_iff t).1 h)
  simp [winOp, ht]

theorem winOp_lds {off : Nat} {t : Ty} {odd : Bool} (h : t ∈ [Ty.i64, .n64, .f64]) : winOp c b off (.lds t) odd =
    if (c.bank b).data.code = 4 ∧ (off = 0 ∨ off = 8) ∧ odd = true then .bad else winLoad c b off := by
  refine if_congr ?_ rfl rfl
  rw [(winTy_iff t).2 h, ← and_assoc, ← loadPairs_iff]
  simp

theorem winOp_sts {off : Nat} {t : Ty} {odd o : Bool} {x x1 : W64} (h : t ∈ [Ty.i64, .n64, .f64]) : winOp c b off (.sts t x x1 o) odd =
    if (c.bank b).data.code ∈ [3, 4] ∧ off = 0 ∧ o = true then .bad else winStore c b off x x1 := by
  refine if_congr ?_ rfl rfl
  rw [(winTy_iff t).2 h, ← and_assoc, ← storePairs_iff]
  simp

end

end Sys2Proof.Machine
end

