-- ==== Sys2Proof/Proofs/WindowSteps.lean ====
section
/-! An operation on the window of an own bank, by LD, ST, LDS, STS and XCH (spec/07 R166, R167, R176, spec/03 R75). -/

namespace Sys2Proof.Machine
open Safety

section
variable {s : State} {d : BitVec 6} {e x : W64} {b o : Nat} {op : WordOp} {c c1 c2 : Core} {a y : Src} {t : Ty} {off : BitVec 32}

/-- What LD, ST and the strong accesses do with an operation on an own window. -/
def winEnd (s : State) (d : BitVec 6) (e : W64) (b o : Nat) (op : WordOp) (c : Core) : Out :=
  finish s (ownWin e b o op (d.getLsbD 0) c >>= fun x => writeS d x.2.1 x.1 >>= fun c =>
    (match x.2.2 with | some y => writeS (d + 1) y c | none => .ok c) >>= fun c => .ok { s with me := c.served1 })

theorem claimPool_claimed (c : Core) (x : BitVec 8) (b : Nat) : Claimed c (c.claimPool x b) := by
  unfold Core.claimPool
  dsimp only
  split
  · split
    · exact claimBank_claimed c x _
    · exact .refl c
  · exact .refl c

theorem notPoisoned_lines {ns : List Nat} (h : ∀ n ∈ ns, c.poison.contains n = false) : notPoisoned c ns = .ok () := by
  have hfind : ns.find? c.poison.contains = none := List.find?_eq_none.2 fun n hn => by rw [h n hn]; exact Bool.false_ne_true
  rw [notPoisoned, hfind]

theorem windowEnd_winEnd (hpc : c.pc = s.me.pc) : WindowEnd s d e b o op c (winEnd s d e b o op c) := by
  have hclaim : Claimed c ((c.claimBank c.act.ctx b).claimPool c.act.ctx b) := (claimBank_claimed c _ _).trans (claimPool_claimed _ _ _)
  refine ⟨fun hbad => ?_, fun q v v1 sts r c1 c2 hok hclean hrev hw hw1 => ?_⟩
  · rw [winEnd, ownWin]
    dsimp only
    rw [hbad]
    exact finish_trap (hclaim.stored.atHead.pc.trans hpc)
  · rw [winEnd, ownWin]
    dsimp only
    rw [hok]
    dsimp only
    rw [bind_ok (notPoisoned_lines hclean), bind_ok hrev]
    change finish s (writeS d v (r.setSts sts) >>= fun c => (match v1 with | some x => writeS (d + 1) x c | none => .ok c) >>= fun c =>
      .ok { s with me := c.served1 }) = _
    rw [bind_ok hw]
    exact congrArg (finish s) (bind_ok hw1)

theorem weakWin_winEnd (hreads : s.me.reads = []) (hpair : (s.me.bank b).pairs? false o = true → (∃ t, op = .lds t) → destS (d + 1) s.me = .ok ()) :
    finish s (weakWin s e b o op d c) = winEnd s d e b o op c := by
  unfold winEnd weakWin
  refine congrArg (finish s) ((bind_ok (readsDone_ok hreads)).trans (bind_ok (a := ()) ?_))
  exact ite_eq_right_iff.2 fun hq => hpair (load_of_pairs hq).1 (load_of_pairs hq).2

/-! ### LD, ST -/

theorem execLd_window (hreads : s.me.reads = []) (hd : destS d s.me = .ok ()) (ha : readS a s.me = .ok (x, c1))
    (hal : (x + off.signExtend 64).toNat % (t.width / 8) = 0) (hp : s.place (x + off.signExtend 64) = .window b o)
    (hpair : (s.me.bank b).pairs? false o = true → destS (d + 1) s.me = .ok ()) :
    exec (.ld d a t off) s = winEnd s d (x + off.signExtend 64) b o (.lds t) (freeS a c1) := by
  rw [← weakWin_winEnd hreads fun h _ => hpair h]
  refine congrArg (finish s) ((bind_ok hd).trans ((bind_ok ha).trans ((bind_ok (need_ok (decide_eq_true hal))).trans ?_)))
  dsimp only
  rw [hp]

theorem execSt_window {v : W64} (hreads : s.me.reads = []) (ha : readS a s.me = .ok (x, c1)) (hb : readS y c1 = .ok (v, c2))
    (hal : (x + off.signExtend 64).toNat % (t.width / 8) = 0) (hp : s.place (x + off.signExtend 64) = .window b o)
    (hbuild : buildPair a y (fun c k o => (c.bank k).pairs? true o) (fun y z odd => .sts t y z odd) (.window b o) c1 = .ok (op, c)) (hop : ∀ t, op ≠ .lds t) :
    exec (.st t a y off) s = winEnd s 0 (x + off.signExtend 64) b o op c := by
  rw [← weakWin_winEnd hreads fun _ ⟨t, ht⟩ => absurd ht (hop t)]
  refine congrArg (finish s) ((bind_ok (readsDone_ok hreads)).trans ((bind_ok ha).trans ((bind_ok hb).trans
    ((bind_ok (need_ok (decide_eq_true hal))).trans ?_))))
  dsimp only
  rw [hp]
  exact bind_ok hbuild

/-! ### Strong accesses -/

theorem xchPairs_iff {op : XchOp} : xchPairs op c b o = true ↔ op = .deckey ∧ (c.bank b).data.code = 4 := by
  unfold xchPairs
  cases op <;> cases (c.bank b).data <;> simp [Struct.code]

/-- An atomic has no meaning at a window (R166). -/
theorem strong_atomWindow {size : Nat} {sc : Scope} {pre : Core → Res Unit} {build : Place → Core → Res (WordOp × Core)}
    (h : StrongReady s d a size pre e c1) (hp : s.strongPlace e = .window b o) : strong .atom d a size sc pre build s = traps s 0x206 e 0 0 := by
  have hplace : placeTrap .atom s sc e (s.strongPlace e) = Machine.trap s.me 0x206 e := by rw [hp]; rfl
  rw [strong_misplaced h (by rw [hp]; rfl) hplace]
  exact finish_trap rfl

end

end Sys2Proof.Machine
end

