-- ==== Sys2Proof/Proofs/WindowHomes.lean ====
section
/-! An operation on the window of another core (spec/07 R167, R176): what its home does, and the reply of two words and a status. -/

namespace Sys2Proof.Machine
open Safety

section
variable {s : State} {k n off id d : Nat} {p : Packet} {a : W64} {op : WordOp} {tag : BitVec 4} {mode : W64} {c c' : Core} {v : W64} {v1 : Option W64}
  {sts : StsCode}

theorem setCore_chan (s : State) (n : Nat) (c : Core) : (s.setCore n c).chan = s.chan := by
  unfold State.setCore
  split
  · rfl
  · rfl

/-- A word of a bank that is no ARRAY goes to the window. -/
theorem serve_window (harray : (s.core n).isArrayFor p.ctx (off / 65536) = false) (hfree : (s.core n).bankBlocked (off / 65536) = false) :
    s.serve p id d (.word (.local n off) a op tag mode) =
      (s.serveWin p.ctx n off (.local n off) a op (d % 2 == 1)).map fun x => (x.1, .reply id d x.2) := by
  simp only [State.serve, State.readHome, State.serveWord, harray, hfree, Bool.false_eq_true, if_false]

theorem serveWin_bad {x : BitVec 8} {h : Home} {odd : Bool} (hc : c = ((s.core n).claimBank x (off / 65536)).claimPool x (off / 65536))
    (hbad : winOp c (off / 65536) (off % 65536) op odd = .bad) :
    ∃ t, s.serveWin x n off h a op odd = some (t, .trap h ⟨0x206, 0, 0, a, 0, 0, 0, 0⟩) ∧ t.chan = s.chan := by
  subst hc
  obtain ⟨l, hl⟩ := charge_eq (s.setCore n (((s.core n).claimBank x (off / 65536)).claimPool x (off / 65536))) x.toNat 3 1
  refine ⟨_, ?_, (congrArg State.chan hl).trans (setCore_chan s n _)⟩
  simp only [State.serveWin, hbad]
  rfl

/-- The home asks which lines are read with the offset in its whole memory; the window's own offset, which R163 means, has all of those. -/
theorem winReads_offset {l : Nat} {k : Bank} (h : l ∈ op.winReads k n off) : l ∈ op.winReads k n (off % 65536) := by
  cases op with
  | lds t =>
    by_cases hoff : off = 0 ∨ off = 8
    · rwa [Nat.mod_eq_of_lt (by omega)]
    · have hnone : loadReads k n off = [] := if_pos (not_or.1 hoff)
      have h' : l ∈ loadReads k n off := h
      rw [hnone] at h'
      cases h'
  | _ => exact h

theorem serveWin_ok {x : BitVec 8} {h : Home} {odd : Bool} (hc : c = ((s.core n).claimBank x (off / 65536)).claimPool x (off / 65536))
    (hok : winOp c (off / 65536) (off % 65536) op odd = .ok c' v v1 sts)
    (hclean : ∀ l ∈ op.winReads (c.bank (off / 65536)) (off / 65536) (off % 65536), c.poison.contains l = false)
    (hfree : ∀ j ∈ touched c c' (c.leader (off / 65536)), c.bankBlocked j = false) :
    ∃ t, s.serveWin x n off h a op odd = some (t, .val v v1 (some (BitVec.ofNat 3 sts.code)) 0) ∧ t.chan = s.chan ∧ t.core n = c' := by
  obtain ⟨l, hl⟩ := charge_eq (s.setCore n c) x.toNat 3 1
  have hpoison : ((op.winReads (c.bank (off / 65536)) (off / 65536) off).any c.poison.contains) = false :=
    List.any_eq_false.2 fun l hl => by rw [hclean l (winReads_offset hl)]; exact Bool.false_ne_true
  have hblocked : ((touched c c' (c.leader (off / 65536))).any c.bankBlocked) = false := by simpa using hfree
  refine ⟨((s.setCore n c).charge x.toNat 3 1).setCore n c', ?_, ?_, (core_setCore _ n n c').trans (if_pos rfl)⟩
  · unfold State.serveWin
    dsimp only
    rw [← hc, hok]
    dsimp only
    rw [hpoison, hblocked]
    rfl
  · rw [setCore_chan, hl]
    exact setCore_chan s n c

/-- The reply leaves every core as the home left it. -/
theorem receive_core {f : State → Option (State × Body)} {t : State} {b : Body} (harr : s.arrival p = .fresh) (hf : f s = some (t, b)) :
    (s.receive k p f).core n = t.core n := by
  obtain ⟨l, g, hanswer⟩ := answer_eq t k p b
  rw [receive_fresh harr hf, hanswer]
  rfl

/-! ### The reply -/

theorem ofNat_succ_ne (d : Nat) : BitVec.ofNat 6 d ≠ BitVec.ofNat 6 (d + 1) := by
  intro h
  have h' := congrArg BitVec.toNat h
  simp only [BitVec.toNat_ofNat] at h'
  omega

/-- A reply of two words and a status ends the access that waits for it: R167. -/
theorem accessDone_pair {c : Core} {d : Nat} (h : c.streams = []) (hpos : 0 < d) (hlt : d + 1 < 64) (v x : W64) (sts : BitVec 3) :
    let c' := c.accessDone d v (some x) (some sts) 0
    c'.regs.getS (BitVec.ofNat 6 d) = .full v ∧ c'.regs.getS (BitVec.ofNat 6 (d + 1)) = .full x ∧ c'.ctl.sts = sts.setWidth 64 ∧
      c'.irrev = none ∧ c'.pc = c.succ c.pc := by
  obtain ⟨r, hr⟩ := setS_eq c (BitVec.ofNat 6 d) (.full v)
  have hr' : ({ c with regs := r } : Core).streams = [] := h
  obtain ⟨q, hq⟩ := setS_eq { c with regs := r } (BitVec.ofNat 6 (d + 1)) (.full x)
  have hsucc : BitVec.ofNat 6 d + 1 = BitVec.ofNat 6 (d + 1) := by
    apply BitVec.eq_of_toNat_eq
    simp
  have hfirst := getS_setS_ofNat c (x := .full v) (Nat.lt_of_succ_lt hlt) hpos.ne'
  have hsecond := getS_setS_ofNat ({ c with regs := r } : Core) (x := .full x) hlt (Nat.succ_ne_zero d)
  have hkept := getS_setS ({ c with regs := r } : Core) (BitVec.ofNat 6 (d + 1)) (BitVec.ofNat 6 d) (.full x)
  rw [if_neg fun ⟨heq, _⟩ => ofNat_succ_ne d heq, hq] at hkept
  rw [hr] at hfirst
  rw [hq] at hsecond
  simp only [Core.accessDone, Option.elim_some, deliver_unbound h, hr, hsucc, deliver_unbound hr', hq]
  exact ⟨hkept.trans hfirst, hsecond, rfl, trivial, rfl⟩

/-- Every value that answers the access of a core ends it there, whatever it carries. -/
theorem execReplyArrival_access {f : Fl} {sts : Option (BitVec 3)} (hp : s.chan[k]? = some p) (hbody : p.body = .reply id d (.val v v1 sts f))
    (hl : p.leaves = none) (hreads : (s.core p.src).reads = []) (hirrev : (s.core p.src).irrev = some (.sent id)) :
    ∃ t, exec (.replyArrival k) s = .next t ∧ t.core p.src = (s.core p.src).accessDone d v v1 sts f := by
  have hme : (State.focus { s with chan := ldel s.chan k } p.src).me = s.core p.src := focus_me _ _
  have hreply : (State.focus { s with chan := ldel s.chan k } p.src).reply id d (.val v v1 sts f) =
      { State.focus { s with chan := ldel s.chan k } p.src with me := (s.core p.src).accessDone d v v1 sts f } := by
    simp only [State.reply, hme, hreads, List.find?_nil, hirrev, if_true]
  refine ⟨onCore p.src (fun s => s.reply id d (.val v v1 sts f)) { s with chan := ldel s.chan k }, ?_, ?_⟩
  · change execReplyArrival k s = _
    unfold execReplyArrival
    rw [packetEvent_here _ hp hl, hbody]
  · rw [onCore_focus (by rw [hreply]; exact focus_cur _ _), focus_core, hreply, State.core]
    exact if_pos (focus_cur _ _).symm

end

end Sys2Proof.Machine
end

