-- ==== Sys2Proof/Proofs/WindowLines.lean ====
section
/-! Sets of undo-log lines, and banks of the own core whose metadata the context owns (spec/03 R75, spec/07 R162, R169, R171). -/

namespace Sys2Proof.Machine
open Safety

/-! ### Rising lists of lines -/

theorem nset_comm (l : List Nat) (a b : Nat) : nset (nset l a) b = nset (nset l b) a := by
  induction l with
  | nil => grind [nset]
  | cons k l ih => grind [nset]

theorem nset_idem (l : List Nat) (a : Nat) : nset (nset l a) a = nset l a := by
  induction l with
  | nil => grind [nset]
  | cons k l ih => grind [nset]

theorem nunion_nset (l m : List Nat) (a : Nat) : nunion (nset l a) m = nset (nunion l m) a := by
  induction m generalizing l with
  | nil => rfl
  | cons b m ih => exact (congrArg (List.foldl nset · m) (nset_comm l a b)).trans (ih (nset l b))

/-- Within a set of lines, one that is put in twice and the order of the lines count for nothing. -/
theorem nunion_filter_nset (q : Nat → Bool) (l m : List Nat) (a : Nat) :
    nunion l ((nset m a).filter q) = if q a then nset (nunion l (m.filter q)) a else nunion l (m.filter q) := by
  induction m generalizing l with
  | nil => cases h : q a <;> simp [nset, h, nunion]
  | cons b m ih =>
    have hcons (l : List Nat) (k : Nat) (m : List Nat) :
        nunion l ((k :: m).filter q) = if q k then nunion (nset l k) (m.filter q) else nunion l (m.filter q) := by
      cases h : q k <;> simp [h, nunion]
    obtain hlt | rfl | hgt := lt_trichotomy a b
    · rw [nset, if_pos hlt, hcons l a, nunion_nset]
    · rw [nset, if_neg (lt_irrefl a), if_pos rfl, hcons l a, nunion_nset]
      split
      · exact (nset_idem _ a).symm
      · rfl
    · rw [nset, if_neg hgt.not_gt, if_neg hgt.ne', hcons l b, hcons l b, ih, ih]
      split_ifs <;> rfl

theorem nunion_filter_nunion (q : Nat → Bool) (l m n : List Nat) :
    nunion l ((nunion m n).filter q) = nunion (nunion l (m.filter q)) (n.filter q) := by
  induction n generalizing m with
  | nil => rfl
  | cons a n ih =>
    refine (ih (nset m a)).trans ?_
    rw [nunion_filter_nset]
    cases h : q a <;> simp [h, nunion]

theorem nunion_nunion (l m : List Nat) : nunion l (nunion [] m) = nunion l m := by
  simpa [nunion] using nunion_filter_nunion (fun _ => true) l [] m

theorem filter_nunion_isEmpty (q : Nat → Bool) (l : List Nat) : ((nunion [] l).filter q).isEmpty = (l.filter q).isEmpty := by
  rw [Bool.eq_iff_iff, List.isEmpty_iff, List.isEmpty_iff, List.filter_eq_nil_iff, List.filter_eq_nil_iff]
  simp [mem_nunion]

theorem needLines_nunion (c : Core) (l : List Nat) : needLines c (nunion [] l) = needLines c l := by
  unfold needLines
  dsimp only
  rw [filter_nunion_isEmpty, nunion_filter_nunion]
  rfl

/-- A revocable operation takes a set of lines. -/
theorem revocable_nunion (old new : Core) (bs l : List Nat) : revocable old new bs (nunion [] l) = revocable old new bs l := by
  simp only [revocable, needLines_nunion, nunion_nunion]

/-! ### An own bank -/

section
variable {s : State} {e : W64} {b o : Nat} {c c' : Core} {x : BitVec 8}

/-- A bank of the context that holds a structure is met at its window (R137, R162). -/
theorem place_window (he : e = BitVec.ofNat 64 (65536 * b + o)) (hb : b < 14) (ho : o < 65536) (howner : (s.me.bank b).owner = s.me.act.ctx)
    (hdata : (s.me.bank b).data.isArray = false) : s.place e = .window b o := by
  have hn : e.toNat = 65536 * b + o := by
    rw [he, BitVec.toNat_ofNat, Nat.mod_eq_of_lt (by omega)]
  have hdiv : (65536 * b + o) / 65536 = b := by omega
  have hmod : (65536 * b + o) % 65536 = o := by omega
  have harray : s.me.isArray b = false := by
    unfold Core.isArray Core.isArrayFor
    rw [hdata, howner]
    simp
  unfold State.place
  dsimp only
  rw [hn, hdiv, hmod, if_pos (by omega), if_pos (by omega), harray]
  rfl

theorem strongPlace_window (h : s.place e = .window b o) : s.strongPlace e = .window b o := by
  unfold State.strongPlace
  rw [h]

/-- A claim leaves a bank that the context owns. -/
theorem bank_claimBank (h : (c.bank b).owner = x) (j : Nat) : (c.claimBank x j).bank b = c.bank b := by
  by_cases hj : (c.bank j).owner = x
  · rw [claimBank_owned hj]
  · have hne : j ≠ b := by rintro rfl; exact hj h
    have hbank (v : Bank) : (c.setBank j v).bank b = c.bank b := bank_setBank_ne c v hne
    unfold Core.claimBank
    dsimp only
    rw [if_neg hj]
    split
    · exact hbank _
    · split
      · exact hbank _
      · exact hbank _

theorem bank_claimPool (h : (c.bank b).owner = x) : (c.claimPool x b).bank b = c.bank b := by
  unfold Core.claimPool
  dsimp only
  split
  · split
    · exact bank_claimBank h _
    · rfl
  · rfl

theorem claimBank_poison (c : Core) (x : BitVec 8) (j : Nat) : (c.claimBank x j).poison = c.poison := by
  unfold Core.claimBank
  dsimp only
  split_ifs <;> rfl

theorem claimPool_poison (c : Core) (x : BitVec 8) (b : Nat) : (c.claimPool x b).poison = c.poison := by
  unfold Core.claimPool
  dsimp only
  split
  · split
    · exact claimBank_poison c x _
    · rfl
  · rfl

/-- Only a queue whose ring is full meets its pool. -/
theorem claimPool_room {h : Nat} {ring : List W64} {lent : List (Nat × Nat × List W64)} (hq : (c.bank b).data = .queue h ring lent)
    (hroom : ring.length < (c.bank b).words) : c.claimPool x b = c := by
  unfold Core.claimPool
  dsimp only
  rw [hq]
  exact if_neg fun ⟨_, hfull⟩ => absurd hroom (Nat.not_lt.2 hfull)

theorem claimPool_map {slots : List (Nat × W64 × W64)} (hm : (c.bank b).data = .map slots) : c.claimPool x b = c := by
  unfold Core.claimPool
  dsimp only
  rw [hm]

theorem logBank_streams (c old : Core) (j : Nat) : (c.logBank j old).streams = c.streams := by
  unfold Core.logBank
  split
  · rfl
  · rfl

theorem logBanks_streams (bs : List Nat) (c old : Core) :
    (bs.foldl (fun c b => (c.logBank b old).holdBank b) c).streams = c.streams := by
  induction bs generalizing c with
  | nil => rfl
  | cons j bs ih => exact (ih _).trans (logBank_streams c old j)

theorem revocable_streams {old new r : Core} {bs lines : List Nat} (h : revocable old new bs lines = .ok r) : r.streams = new.streams := by
  unfold revocable at h
  cases hneed : needLines old lines with
  | error z => rw [hneed] at h; cases h
  | ok u =>
    rw [hneed] at h
    cases h
    exact logBanks_streams bs _ old

theorem Freed.bank (h : Freed s c) (j : Nat) : c.bank j = s.me.bank j := by
  obtain ⟨_, _, _, rfl⟩ := h
  rfl

theorem readS_bank {a : Src} {v : W64} (h : readS a c = .ok (v, c')) (j : Nat) : c'.bank j = c.bank j := by
  obtain ⟨_, _, rfl⟩ := readS_frame h
  rfl

theorem Freed.poison (h : Freed s c) : c.poison = s.me.poison := by
  obtain ⟨_, _, _, rfl⟩ := h
  rfl

/-- The operation on an own window, where the context owns the bank and nothing is poisoned. -/
theorem winEnd_owned {d : BitVec 6} {op : WordOp} {cc q r : Core} {v : W64} {sts : StsCode} (hc : Freed s c) (howner : (s.me.bank b).owner = s.me.act.ctx)
    (hpoison : s.me.poison = []) (hcc : cc = c.claimPool s.me.act.ctx b) (hwin : winOp cc b o op (d.getLsbD 0) = .ok q v none sts)
    (hrev : revocable cc q (touched cc q b) (nunion (op.winReads (cc.bank b) b o) (changedLines cc q (touched cc q b))) = .ok r)
    (hw : writeS d v (r.setSts sts) = .ok c') : winEnd s d e b o op c = doneStrong s c' := by
  have hclaim : (c.claimBank c.act.ctx b).claimPool c.act.ctx b = cc := by
    rw [hc.ctx, claimBank_owned ((congrArg Bank.owner (hc.bank b)).trans howner), hcc]
  obtain ⟨-, hend⟩ := windowEnd_winEnd (e := e) (b := b) (o := o) (op := op) (d := d) hc.atHead.pc
  rw [hclaim] at hend
  refine hend q v none sts r c' c' hwin (fun n _ => ?_) hrev hw rfl
  rw [hcc, claimPool_poison, hc.poison, hpoison]
  rfl

theorem winEnd_refused {d : BitVec 6} {op : WordOp} (hc : Freed s c) (howner : (s.me.bank b).owner = s.me.act.ctx)
    (hwin : winOp (c.claimPool s.me.act.ctx b) b o op (d.getLsbD 0) = .bad) : winEnd s d e b o op c = traps s 0x206 e 0 0 := by
  have hclaim : (c.claimBank c.act.ctx b).claimPool c.act.ctx b = c.claimPool s.me.act.ctx b := by
    rw [hc.ctx, claimBank_owned ((congrArg Bank.owner (hc.bank b)).trans howner)]
  obtain ⟨hbad, -⟩ := windowEnd_winEnd (e := e) (b := b) (o := o) (op := op) (d := d) hc.atHead.pc
  rw [hclaim] at hbad
  exact hbad hwin

/-- The address of an own window is aligned for a word. -/
theorem window_aligned (he : e = BitVec.ofNat 64 (65536 * b)) (hb : b < 14) : e.toNat % 8 = 0 := by
  have hn : e.toNat = 65536 * b := by rw [he, BitVec.toNat_ofNat, Nat.mod_eq_of_lt (by omega)]
  omega

end

end Sys2Proof.Machine
end

