-- ==== Sys2Proof/Proofs/OwnWindows.lean ====
section
/-! O28: what each structure does at its window, at the own core by every instruction, and at another core by request and reply. -/

namespace Sys2Proof.Machine
open Safety

section
variable {s : State} {d : BitVec 6} {e v x : W64} {b o : Nat} {c1 c2 : Core} {a y : Src} {t : Ty} {off : BitVec 32} {sc : Scope}

theorem destS_zero (c : Core) : destS 0 c = .ok () := by rw [destS_eq, getS_zero]; rfl

theorem both_window {own : Core → Nat → Nat → Bool} : Both own (.window b o) y c1 ↔ own c1 b o = true ∧ y.reg.getLsbD 0 = false := and_comm

theorem both_xch {op : XchOp} : Both (xchPairs op) (.window b o) y c1 ↔ op = .deckey ∧ (c1.bank b).data.code = 4 ∧ y.reg.getLsbD 0 = false :=
  both_window.trans ((and_congr_left' xchPairs_iff).trans and_assoc)

theorem execLds_window (hirrev : s.me.irrev = none) (hreads : s.me.reads = []) (hd : destS d s.me = .ok ()) (ha : readS a s.me = .ok (e, c1))
    (hal : e.toNat % (t.width / 8) = 0) (hp : s.strongPlace e = .window b o)
    (hpair : (s.me.bank b).pairs? false o = true → destS (d + 1) s.me = .ok ()) :
    exec (.lds d a sc t) s = winEnd s d e b o (.lds t) (freeS a c1) := by
  rw [exec_lds]
  exact strong_window ⟨by simp [hirrev], hreads, hd, ha, rfl, hal⟩ hp rfl rfl fun h _ => hpair h

theorem execSts_window {op : WordOp} {c : Core} (hirrev : s.me.irrev = none) (hreads : s.me.reads = []) (ha : readS a s.me = .ok (e, c1))
    (hb : readS y c1 = .ok (v, c2)) (hal : e.toNat % (t.width / 8) = 0) (hp : s.strongPlace e = .window b o)
    (hbuild : buildPair a y (fun c k o => (c.bank k).pairs? true o) (fun y z odd => .sts t y z odd) (.window b o) c1 = .ok (op, c)) (hop : ∀ t, op ≠ .lds t) :
    exec (.sts a y sc t) s = winEnd s 0 e b o op c := by
  rw [exec_sts]
  exact strong_window ⟨by simp [hirrev], hreads, destS_zero _, ha, pre1_ok hb, hal⟩ hp rfl hbuild fun _ ⟨t, ht⟩ => absurd ht (hop t)

theorem execXch_window {op : XchOp} {w : WordOp} {c : Core} (hirrev : s.me.irrev = none) (hreads : s.me.reads = []) (hd : destS d s.me = .ok ())
    (ha : readS a s.me = .ok (e, c1)) (hb : readS y c1 = .ok (v, c2)) (hp : s.strongPlace e = .window b o)
    (hbuild : buildPair a y (xchPairs op) (fun y z odd => .xch op y z odd) (.window b o) c1 = .ok (w, c)) (hw : ∀ t, w ≠ .lds t) :
    exec (.xch d a y op) s = winEnd s d e b o w c := by
  rw [exec_xch]
  exact strong_window ⟨by simp [hirrev], hreads, hd, ha, pre1_ok hb, Nat.mod_one _⟩ hp rfl hbuild fun _ ⟨t, ht⟩ => absurd ht (hw t)

end

theorem binCap (k : Bank) : 2 ^ k.binWidth - 1 = if k.hw32 then 2 ^ 32 - 1 else 2 ^ 64 - 1 := by
  unfold Bank.binWidth
  split <;> rfl

/-- Settles O28: each structure by its own equations; at the own core every instruction makes the operation at issue, at another core the home makes
it and the reply ends the access. -/
theorem ownWindows : Obligations.OwnWindows := by
  unfold Obligations.OwnWindows
  refine ⟨fun c b => ⟨?_, ?_, ?_, ?_, ?_, ?_, ?_, ?_, ?_, ?_, ?_, ?_, ?_, ?_, ?_, ?_, ?_, ?_, ?_, ?_, ?_, ?_, ?_, ?_, ?_, ?_, ?_, ?_, ?_, ?_, ?_, ?_, ?_, ?_, ?_⟩,
    ?_, ?_, ?_, ?_, ?_, ?_, ?_, ?_, ?_, ?_⟩
  · exact fun h x ring hq => winLoad_unlent hq
  · exact fun h x ring n m w w' ws l hq => winLoad_lent hq
  · exact fun h x ring n m w l used _ hq hp => winLoad_lastLent hq hp
  · exact fun h x ring lent hq => (winLoad_front hq).2
  · exact fun h lent hq => winLoad_noFront hq
  · intro h ring x x1 hq hroom
    rw [winStore_queue x1 hq, qEnqueue_ring hq hroom]
  · intro h ring x x1 hq hfull
    rw [winStore_queue x1 hq]
    refine ⟨fun hp => ?_, fun used hp hall => ?_, fun used n hb hp hn hfree hlow => ?_⟩
    · rw [qEnqueue_poolless hq hfull hp]
    · rw [qEnqueue_noChunk hq hfull hp (freeChunk_none hall)]
    · rw [qEnqueue_borrows hq hfull hp (freeChunk_some hn hfree hlow)]
      obtain ⟨hown, hlent⟩ := bank_setPool (c := c) (v := { c.bank b with data := .queue h ring [(n, 0, [x])] }) (used' := nset used n) hb
        (c.bank b).poolb.isLt (pool_ne hq hp)
      exact ⟨_, rfl, congrArg Bank.data hown, _, hlent, fun m => mem_nset⟩
  · intro h ring n m ws x x1 hq hroom
    rw [winStore_queue x1 hq, qEnqueue_chunk hq hroom]
  · exact fun ws x x1 hs => winStore_stack hs x x1
  · exact fun ws x hs => winLoad_stack hs
  · exact winLoad_emptyStack
  · exact fun slots x x1 hm => winStore_map hm x x1
  · exact fun es next x x1 hh => winStore_heap hh x x1
  · exact fun e es next hh => winLoad_heap hh
  · exact fun next hh => winLoad_emptyHeap hh
  · intro bins x x1 hd i cap n v
    refine ⟨fun h => winStore_absent hd h x1, fun h _ => ?_, fun h => winXch_bin hd h x1, fun h => winXch_noBin hd h x1⟩
    have hbin := winStore_bin hd h x1
    rw [binCap] at hbin
    exact hbin
  · exact winLoad_count
  · intro h ring lent hd
    simp only [Bank.count, Bank.capacity, hd, Bank.words, true_and]
  · intro ws hd
    simp only [Bank.count, Bank.capacity, hd, Bank.words, true_and]
  · intro slots hd
    simp only [Bank.count, Bank.capacity, hd, Bank.pairs, true_and]
  · intro es next hd
    simp only [Bank.count, Bank.capacity, hd, Bank.pairs, true_and]
  · intro bins hd
    simp only [Bank.count, Bank.capacity, hd, Bank.bins, true_and]
  · intro used hd
    simp only [Bank.count, Bank.capacity, hd, true_and]
  · intro hd
    simp only [Bank.count, Bank.capacity, hd, true_and]
  · intro hd
    simp only [Bank.count, Bank.capacity, hd, true_and]
  · exact fun off => winLoad_bad
  · exact fun off x x1 h => winStore_offset h x x1
  · exact winLoad_unread
  · exact winStore_untaken
  · exact winXch_unserved
  · exact winXch_noDeckey
  · exact fun h op x x1 hop => winXch_heap h hop x x1
  · exact fun off t odd ht => winOp_type ht
  · exact fun off t odd ht => ⟨winOp_lds ht, fun x x1 o => winOp_sts ht⟩
  · exact fun off odd op x x1 o => rfl
  · intro d a t off s x c1 b o _ hreads hd ha e hal hp hpair
    rw [execLd_window hreads hd ha hal hp hpair]
    exact windowEnd_winEnd (Freed.atHead (freed_eq ha)).pc
  · intro d a sc t s e c1 b o _ hirrev hreads hd ha hal hp hpair
    rw [execLds_window hirrev hreads hd ha hal hp hpair]
    exact windowEnd_winEnd (Freed.atHead (freed_eq ha)).pc
  · intro a y t off sc s x v c1 c2 b o _ hreads ha hb pair made
    refine ⟨?_, fun hirrev hal hp => ⟨fun hpair => ?_, fun z c3 hpair hz => ?_⟩⟩
    · intro e hal hp
      refine ⟨fun hpair => ?_, fun z c3 hpair hz => ?_⟩
      · rw [execSt_window hreads ha hb hal hp (buildPair_alone hb (mt both_window.1 hpair)) fun _ => WordOp.noConfusion]
        exact windowEnd_winEnd (Freed.atHead (freed_eq₂ ha hb)).pc
      · rw [execSt_window hreads ha hb hal hp (buildPair_both hb (both_window.2 hpair) hz) fun _ => WordOp.noConfusion]
        exact windowEnd_winEnd (freed_eq₃ ha hb hz).atHead.pc
    · rw [execSts_window hirrev hreads ha hb hal hp (buildPair_alone hb (mt both_window.1 hpair)) fun _ => WordOp.noConfusion]
      exact windowEnd_winEnd (Freed.atHead (freed_eq₂ ha hb)).pc
    · rw [execSts_window hirrev hreads ha hb hal hp (buildPair_both hb (both_window.2 hpair) hz) fun _ => WordOp.noConfusion]
      exact windowEnd_winEnd (freed_eq₃ ha hb hz).atHead.pc
  · intro d a y op s e v c1 c2 b o hirrev hreads hd ha hb hp pair
    refine ⟨fun hpair => ?_, fun z c3 hpair hz => ?_⟩
    · rw [execXch_window hirrev hreads hd ha hb hp (buildPair_alone hb (mt both_xch.1 hpair)) fun _ => WordOp.noConfusion]
      exact windowEnd_winEnd (Freed.atHead (freed_eq₂ ha hb)).pc
    · rw [execXch_window hirrev hreads hd ha hb hp (buildPair_both hb (both_xch.2 hpair) hz) fun _ => WordOp.noConfusion]
      exact windowEnd_winEnd (freed_eq₃ ha hb hz).atHead.pc
  · intro row hrow d a y sc t s e v c1 c2 b o hirrev hreads hd ha hb hal hp
    rw [(strongRow_exec hrow d a y sc t s).1]
    exact strong_atomWindow ⟨by simp [hirrev], hreads, hd, ha, pre1_ok hb, hal⟩ hp
  · intro k s p id d n off a op tag mode hp hbody hl harr b harray hfree c replies
    have hexec : exec (.requestServe k) s = .next (s.receive k p fun s => s.serve p id d (.word (.local n off) a op tag mode)) := by
      refine (packetEvent_here (servePacket k) hp hl).trans ?_
      rw [servePacket, hbody]
    have hmade {t : State} {r : Rep} (hwin : s.serveWin p.ctx n off (.local n off) a op (d % 2 == 1) = some (t, r)) :
        s.serve p id d (.word (.local n off) a op tag mode) = some (t, .reply id d r) := by rw [serve_window harray hfree, hwin]; rfl
    refine ⟨fun hbad => ?_, fun c' v v1 sts hok hclean hopen => ?_⟩
    · obtain ⟨t, hwin, hchan⟩ := serveWin_bad rfl hbad
      obtain ⟨q, hq, hsrc, hb, -⟩ := receive_replies (f := fun s => s.serve p id d (.word (.local n off) a op tag mode)) hp hchan harr (hmade hwin)
      exact ⟨_, q, hexec, hq, hsrc, hb⟩
    · obtain ⟨t, hwin, hchan, hcore⟩ := serveWin_ok rfl hok hclean hopen
      obtain ⟨q, hq, hsrc, hb, -⟩ := receive_replies (f := fun s => s.serve p id d (.word (.local n off) a op tag mode)) hp hchan harr (hmade hwin)
      refine ⟨⟨_, q, hexec, hq, hsrc, hb⟩, fun u hu j => ?_⟩
      cases hexec.symm.trans hu
      rw [receive_core (f := fun s => s.serve p id d (.word (.local n off) a op tag mode)) harr (hmade hwin), hcore]
  · intro k s p id d v v1 sts hp hbody hl hpos hlt hreads hirrev hstr
    obtain ⟨t, hexec, hcore⟩ := execReplyArrival_access hp hbody hl hreads hirrev
    refine ⟨t, hexec, ?_⟩
    rw [hcore]
    exact accessDone_pair hstr hpos hlt v v1 sts
  · intro d a off s e c1 c' b h x ring hreads hd ha he hb howner hdata hpoison c q r hrev hw
    have hfreed : Freed s (freeS a c1) := freed_eq ha
    have hqueue : (c.bank b).data = .queue h (x :: ring) [] :=
      (congrArg Bank.data ((bank_claimPool ((congrArg Bank.owner (hfreed.bank b)).trans howner)).trans (hfreed.bank b))).trans hdata
    have hwin : winOp c b 0 (.lds .i64) (d.getLsbD 0) = .ok q x none .ok := by
      rw [winOp_lds (by decide), if_neg (by simp [hqueue, Struct.code]), winLoad_unlent hqueue]
    rw [execLd_window hreads hd ha (window_aligned he hb) (place_window (o := 0) he hb (by decide) howner (by rw [hdata]; rfl))
      fun hpair => absurd ((loadPairs_iff _ _).1 hpair).1 (by rw [hdata]; simp [Struct.code])]
    exact winEnd_owned hfreed howner hpoison rfl hwin hrev hw
  · intro a y off s e x c1 c2 b h ring hreads hstr ha hb he hlt howner hdata hroom hpoison c q r hrev
    have hfreed : Freed s c := freed_eq₂ ha hb
    have hbank : c.bank b = s.me.bank b := hfreed.bank b
    have hqueue : (c.bank b).data = .queue h ring [] := (congrArg Bank.data hbank).trans hdata
    have hclaim : c = c.claimPool s.me.act.ctx b := (claimPool_room hqueue (hbank.symm ▸ hroom)).symm
    have halone : ¬Both (fun c k o => (c.bank k).pairs? true o) (.window b 0) y c1 := fun hboth => by
      obtain ⟨hcode, -⟩ := (storePairs_iff _ _).1 (both_window.1 hboth).1
      simp [readS_bank ha, hdata, Struct.code] at hcode
    have hwin : winOp c b 0 (.sts .i64 x 0 (y.reg.getLsbD 0)) (BitVec.getLsbD (0 : BitVec 6) 0) = .ok q 0 none .ok := by
      rw [winOp_sts (by decide), if_neg (by simp [hqueue, Struct.code]), winStore_queue 0 hqueue, qEnqueue_ring hqueue (hbank.symm ▸ hroom)]
    have hlines : (WordOp.sts .i64 x 0 (y.reg.getLsbD 0)).winReads (c.bank b) b 0 = [] := by
      simp only [WordOp.winReads, storeReads, hqueue]
    rw [execSt_window hreads ha hb (window_aligned he hlt) (place_window (o := 0) he hlt (by decide) howner (by rw [hdata]; rfl))
      (buildPair_alone hb halone) fun _ => WordOp.noConfusion]
    refine winEnd_owned hfreed howner hpoison hclaim hwin (by rw [hlines, revocable_nunion]; exact hrev) ?_
    have hfree : (r.setSts .ok).streams = [] := (revocable_streams hrev).trans (freeS_unbound y (freeS_unbound a (readS_unbound (readS_unbound hstr ha) hb)))
    rw [writeS_plain 0 (stream?_nil hfree _), setS_zero]
  · intro d a y s e x c1 c2 c' b slots hirrev hreads hd ha hb he hlt howner hdata hpoison c after
    have hfreed : Freed s c := freed_eq₂ ha hb
    have hbank : c.bank b = s.me.bank b := hfreed.bank b
    have hmap : (c.bank b).data = .map slots := (congrArg Bank.data hbank).trans hdata
    have hclaim : c = c.claimPool s.me.act.ctx b := (claimPool_map hmap).symm
    have hexec (op : XchOp) : exec (.xch d a y op) s = winEnd s d e b 0x20 (.xch op x 0 (y.reg.getLsbD 0)) c := by
      refine execXch_window hirrev hreads hd ha hb (strongPlace_window (place_window he hlt (by decide) howner (by rw [hdata]; rfl)))
        (buildPair_alone hb fun hboth => ?_) fun _ => WordOp.noConfusion
      obtain ⟨-, hcode, -⟩ := both_xch.1 hboth
      simp [readS_bank ha, hdata, Struct.code] at hcode
    have hwinXch {op : XchOp} (hop : op ≠ .deckey) :
        winOp c b 0x20 (.xch op x 0 (y.reg.getLsbD 0)) (d.getLsbD 0) = winXch c b op x 0 := if_neg (by simp [hop])
    refine ⟨fun n v r hfind hrev hw => ?_, fun n v r hfind hrev hw => ?_, fun r hfind hrev hw => ⟨?_, ?_⟩, ?_⟩
    · rw [hexec]
      exact winEnd_owned hfreed howner hpoison hclaim ((hwinXch (by decide)).trans (winXch_map_found hmap (hbank ▸ hfind) 0).1) hrev hw
    · rw [hexec]
      exact winEnd_owned hfreed howner hpoison hclaim ((hwinXch (by decide)).trans (winXch_map_found hmap (hbank ▸ hfind) 0).2) hrev hw
    · rw [hexec]
      exact winEnd_owned hfreed howner hpoison hclaim ((hwinXch (by decide)).trans (winXch_map_absent hmap (hbank ▸ hfind) 0).1) hrev hw
    · rw [hexec]
      exact winEnd_owned hfreed howner hpoison hclaim ((hwinXch (by decide)).trans (winXch_map_absent hmap (hbank ▸ hfind) 0).2) hrev hw
    · rw [hexec]
      refine winEnd_refused hfreed howner ?_
      rw [← hclaim]
      refine (ite_eq_left_iff.2 fun _ => ?_)
      exact winXch_noDeckey (by simp [hmap, Struct.code]) x 0

end Sys2Proof.Machine
end
